-- ==== Sys2Proof/Word.lean ====
section
/-! DEFINITION. Word.lean: the widths of the desk link's integers (R187) and the little-endian
joining of bytes (00_scope.md, Byte order). -/

namespace Sys2Proof

/-- One byte of a desk link. -/
abbrev Byte := BitVec 8

/-- A two-byte integer of R187: page id, job number, lead time, limit value, count, kind, length. -/
abbrev U16 := BitVec 16

/-- A four-byte integer of R187: plant time. -/
abbrev U32 := BitVec 32

/-- An opaque store reference (R6). -/
abbrev U64 := BitVec 64

/-- Two bytes, low byte first. -/
def le16 (b0 b1 : Byte) : U16 := b1 ++ b0

/-- Four bytes, low byte first. -/
def le32 (b0 b1 b2 b3 : Byte) : U32 := b3 ++ b2 ++ b1 ++ b0

/-- Eight bytes, low byte first. -/
def le64 (b0 b1 b2 b3 b4 b5 b6 b7 : Byte) : U64 := b7 ++ b6 ++ b5 ++ b4 ++ b3 ++ b2 ++ b1 ++ b0

end Sys2Proof
end

