-- ==== Sys2Proof/Config.lean ====
section
/-! DEFINITION. Config.lean: the capacities, ranges and defaults of 00_scope.md (Numbers) and the
values that the spec leaves open, as constants with no body. -/

namespace Sys2Proof.Config

/-- Page records (R1). -/
def pageRecords : Nat := 512
/-- Raster slots (R6). -/
def rasterSlots : Nat := 1024
/-- Live jobs (R46). -/
def liveJobs : Nat := 768
/-- The highest job number (R48). -/
def maxJobNumber : Nat := 65535
/-- Requests in a port's queue (R177). -/
def requestQueue : Nat := 8
/-- Answers in a port's refusal list (R177). -/
def refusalList : Nat := 8
/-- Notices in a port's output list (R180). -/
def noticeQueue : Nat := 64
/-- The longest body of a frame (R176). -/
def maxBody : Nat := 1024
/-- The sync byte (R176, R187). -/
def sync : Byte := 0xD7
/-- The highest cassette count (R75). -/
def maxCassette : Nat := 250
/-- Lane order capacity (R86, R112). -/
def laneOrder : Nat := 12
/-- Pending inspections of a lane (R116). -/
def pendingInspections : Nat := 12
/-- Plates in a rack slot (R135). -/
def rackSlot : Nat := 2
/-- Plates on an overflow shelf (R135). -/
def shelf : Nat := 8
/-- Samples in a register window (R98). -/
def window : Nat := 8
/-- The reported range of an offset and the range of a correction, in micrometres (R98, R114). -/
def offsetRange : Int := 4000
/-- The punch capture range, in micrometres (R119). -/
def punchCapture : Int := 1500
/-- The highest reading of the plant clock (R145). -/
def maxClock : Nat := 4294967295
/-- The highest lead time, in minutes (R145). -/
def maxLead : Nat := 180
/-- A press's lead time after POWER_ON, in minutes (R140). -/
def defaultLead : Nat := 30
/-- Attempts of a job (R66). -/
def attempts : Nat := 3
/-- A lane's transit timeout after POWER_ON, in seconds (R111). -/
def defaultTransit : Nat := 300

/-- The byte that carries an arrived set (four yes or no values, for K, C, M, Y) in an answer.
R187 gives a set of separations no width and no encoding: a free value. -/
opaque separationSetByte : Bool → Bool → Bool → Bool → Byte

/-- The bytes that carry a raster slot reference (page id, version, separation number) in the answer
to QUERY_JOB. R187 gives a slot reference no width and no encoding: a free value. -/
opaque slotReferenceBytes : Nat → Nat → Nat → List Byte

/-- The byte that names the report in a LANE_PROTOCOL notice, for the report's place in the list
AT_INSPECT, PUNCHED_BENT, PUNCH_FAULT, AT_EXIT, CLEAR, SORTED, SORT_FAULT. R187 numbers no such
enumeration: a free value. -/
opaque laneReportByte : Nat → Byte

/-- The byte that stands for a version or an edition that is absent, where the owning rule lists the
field without calling it optional (PAGE_REMOVED of an EXPECTED record, R20), or for the attempt of a
report that names none (R124): a free value. -/
opaque absentNumberByte : Byte

/-- The two bytes that stand for the job of a LANE_PROTOCOL notice whose report names none (CLEAR, and
AT_INSPECT with an unreadable tag, R124): a free value. -/
opaque absentJobBytes : Byte × Byte

/-- The three bytes after the unit in a fault record's parameter (R187 gives the parameter 4 bytes and
puts the unit in the first): a free value. -/
opaque faultParameterRest : Byte × Byte × Byte

/-- The byte by which QUERY_LANE(S) reports an exit whose request stands but is neither a candidate
nor rack-blocked (R134 lists candidate, rack-blocked and absent only): a free value. -/
opaque exitNeitherByte : Byte

end Sys2Proof.Config
end

