-- ==== Sys2Proof/Syntax.lean ====
section
/-! DEFINITION. Syntax.lean: the commands the part takes, one constructor of `Instr` for each row of
spec/opcode_table.json, and the types of their operands. -/

namespace Sys2Proof

/-- A desk port P0 to P2. -/
abbrev PortId := Fin 3
/-- An exposure engine E0 to E5. -/
abbrev EngineId := Fin 6
/-- A finishing lane L0 or L1. -/
abbrev LaneId := Fin 2
/-- A press 0 to 3. -/
abbrev PressId := Fin 4
/-- A position 0 to 63 of a press. -/
abbrev PosId := Fin 64

/-- A strap pair of P1 or P2, as read at a reset (R182). -/
inductive StrapPair where
  | bothOpen | firstClosed | secondClosed | bothClosed
  deriving DecidableEq, Repr

/-- The four separations (00_scope.md, Conventions), numbered from 0 in this order (R187). -/
inductive Separation where
  | k | c | m | y
  deriving DecidableEq, Repr

/-- A known colour class of a page (R1). -/
inductive ColourClass where
  | mono | colour
  deriving DecidableEq, Repr

/-- A plate format (R23). -/
inductive PlateFormat where
  | oneUp | twoUp
  deriving DecidableEq, Repr

/-- An offset, correction or sample, in micrometres (00_scope.md, Units). -/
structure Offset where
  dx : Int
  dy : Int
  deriving DecidableEq, Repr

/-- The fields of a plate tag that was read (R114, R188). -/
structure TagFields where
  job : U16
  check : U16
  attempt : BitVec 2
  press : PressId
  position : PosId
  deriving DecidableEq, Repr

/-- The tag result of AT_INSPECT (R114). -/
inductive TagRead where
  | unreadable
  | read (tag : TagFields)
  deriving DecidableEq, Repr

/-- The report AT_INSPECT (R114): the tag, and the measured offset when marks were found. The offset
is any pair, since R115 decides one outside the reported range. -/
structure InspectReport where
  tag : TagRead
  marks : Option Offset
  deriving DecidableEq, Repr

/-- The cause carried by LOAD_FAULT (R76): an unreadable raster with the store reference that
failed, or an engine cause code 1 to 255. -/
inductive LoadFaultCause where
  | rasterUnreadable (ref : U64)
  | code (c : Byte)
  deriving DecidableEq, Repr

/-- A destination of the sorter (R126). -/
inductive Destination where
  | rackSlot (press : PressId) (pos : PosId)
  | shelf (press : PressId)
  | rejectBin
  deriving DecidableEq, Repr

/-- The contexts whose jobs carry a LOAD timer (R84). -/
inductive WaitingContext where
  | next | parked
  deriving DecidableEq, Repr

/-- A frame as it completes on a desk link (R187), after its sync byte. The body of a frame whose
length is above 1024 is empty: such a frame ends at its length (R176). -/
structure Frame where
  length : U16
  typ : Byte
  tag : Byte
  kind : U16
  body : List Byte
  check : U16
  deriving DecidableEq, Repr

/-- A command: one constructor for each row of spec/opcode_table.json. A request carries the port
it comes from, its tag, and the body fields of R185 in their widths of R187, so that a value out of
range can be sent. -/
inductive Instr where
  -- resets (R163, R166)
  | powerOn (p1 p2 : StrapPair)
  | lineReset (p1 p2 : StrapPair)
  | softResetTaken
  -- the desk link (R176 to R179)
  | frameReceived (port : PortId) (frame : Frame)
  | interByteGapExpiry (port : PortId)
  | frameSent (port : PortId)
  | requestKindUnknown (port : PortId) (tag : Byte) (kind : U16)
  -- pages and rasters
  | separationArrived (port : PortId) (tag : Byte) (page : U16) (version cls sep : Byte) (ref : U64)
  | withdrawPage (port : PortId) (tag : Byte) (page : U16)
  -- the plate book
  | stagePosition (port : PortId) (tag : Byte) (press pos format : Byte) (pageA : U16) (pageB : Option U16) (sep : Byte)
  | clearStagedPosition (port : PortId) (tag : Byte) (press pos : Byte)
  | discardStage (port : PortId) (tag : Byte) (press : Byte)
  | commitPlan (port : PortId) (tag : Byte) (press edition : Byte)
  | holdPosition (port : PortId) (tag : Byte) (press pos : Byte)
  | releasePosition (port : PortId) (tag : Byte) (press pos : Byte)
  -- plate jobs
  | requeuePosition (port : PortId) (tag : Byte) (press pos : Byte)
  -- engine reports and events
  | hello (engine : EngineId)
  | cassetteLoaded (engine : EngineId) (format : Option PlateFormat) (count : Nat)
  | loaded (engine : EngineId) (job : U16) (attempt : Byte)
  | loadFault (engine : EngineId) (job : U16) (attempt : Byte) (cause : LoadFaultCause)
  | exposeStarted (engine : EngineId) (job : U16) (attempt : Byte)
  | exposeDone (engine : EngineId) (job : U16) (attempt : Byte)
  | exposeFault (engine : EngineId) (job : U16) (attempt : Byte) (consumed : Bool)
  | discarded (engine : EngineId) (job : U16) (attempt : Byte)
  | engineLinkLoss (engine : EngineId)
  | loadTimerExpiry (engine : EngineId) (context : WaitingContext)
  | exposeTimerExpiry (engine : EngineId)
  -- engine and register requests
  | clearEngineFault (port : PortId) (tag : Byte) (engine : Byte)
  | restoreEngine (port : PortId) (tag : Byte) (engine : Byte)
  | rearmRegister (port : PortId) (tag : Byte) (engine : Byte)
  -- lane reports and events
  | atInspect (lane : LaneId) (report : InspectReport)
  | punchedBent (lane : LaneId) (job : U16) (attempt : Byte)
  | punchFault (lane : LaneId) (job : U16) (attempt : Byte)
  | atExit (lane : LaneId) (job : U16) (attempt : Byte)
  | transitTimerExpiry (lane : LaneId) (job : U16)
  | laneLinkLoss (lane : LaneId)
  | laneRestoration (lane : LaneId)
  -- sorter reports and events
  | sorted (job : U16) (attempt : Byte) (destination : Destination)
  | sortFault (job : U16) (attempt : Byte)
  | sorterLinkLoss
  | sorterRestoration
  -- racks, presses and the schedule
  | pullConfirm (port : PortId) (tag : Byte) (press pos : Byte)
  | mount (port : PortId) (tag : Byte) (press pos : Byte)
  | unmount (port : PortId) (tag : Byte) (press pos : Byte)
  | pressStart (port : PortId) (tag : Byte) (press force : Byte)
  | pressStop (port : PortId) (tag : Byte) (press : Byte)
  | setClock (port : PortId) (tag : Byte) (time : U32)
  | setPressSchedule (port : PortId) (tag : Byte) (press : Byte) (start : Option U32) (lead : U16)
  | clockTick
  | windowAlarm (press : PressId)
  | startAlarm (press : PressId)
  -- holding, stepping and stopping the line
  | hold (port : PortId) (tag : Byte) (unit : Byte)
  | release (port : PortId) (tag : Byte) (unit : Byte)
  | step (port : PortId) (tag : Byte) (unit : Byte)
  | setStopPolicy (port : PortId) (tag : Byte) (unit policy : Byte)
  | lineStop (port : PortId) (tag : Byte)
  | lineResume (port : PortId) (tag : Byte)
  -- restart and reconciliation
  | clear (lane : LaneId)
  | reconcileEnd (port : PortId) (tag : Byte)
  | reconcileTimerExpiry
  | softReset (port : PortId) (tag : Byte)
  -- rights, masks, limits and queries
  | setRights (port : PortId) (tag : Byte) (target rights : Byte)
  | setNoticeMask (port : PortId) (tag : Byte) (classes : Byte)
  | setLimits (port : PortId) (tag : Byte) (limit : Byte) (value : U16) (lane : Option Byte)
  | queryPage (port : PortId) (tag : Byte) (page : U16)
  | queryPosition (port : PortId) (tag : Byte) (press pos : Byte)
  | queryJob (port : PortId) (tag : Byte) (job : U16)
  | queryEngine (port : PortId) (tag : Byte) (engine : Byte)
  | queryLane (port : PortId) (tag : Byte) (unit : Byte)
  | queryPress (port : PortId) (tag : Byte) (press : Byte)
  | queryPart (port : PortId) (tag : Byte)
  | deskLinkByte (port : PortId) (byte : Byte)
  deriving DecidableEq, Repr

end Sys2Proof
end

