-- ==== Sys2Proof/Machine/State.lean ====
section
/-! DEFINITION. Machine/State.lean: every piece of state the spec gives the part, the reasons a step
can stop, and the state after POWER_ON. -/

namespace Sys2Proof.Machine

/-! ### Keys and tables -/

/-- A map as plain data: entries in rising order of their key's rank, at most one for each key. -/
abbrev Table (κ α : Type) := List (κ × α)

/-- Press and position together (R23). -/
structure PosKey where
  press : PressId
  pos : PosId
  deriving DecidableEq, Repr

/-- What identifies a raster slot in use: page id, version, separation (R6). -/
structure SlotKey where
  page : Nat
  version : Nat
  sep : Separation
  deriving DecidableEq, Repr

/-- A unit that a request or a notice names (R152, R187). -/
inductive UnitId where
  | engine (e : EngineId) | lane (l : LaneId) | sorter
  deriving DecidableEq, Repr

/-! ### Page register and raster table (chapter 1) -/

/-- A set of separations (R1, arrived set). -/
structure SepSet where
  k : Bool
  c : Bool
  m : Bool
  y : Bool
  deriving DecidableEq, Repr

/-- The state of a page record (R2); `partly` is PARTIAL. -/
inductive PageState where
  | expected | partly | complete | withdrawn
  deriving DecidableEq, Repr

/-- A page record (R1). The current slot of an arrived separation is the slot of the page, the
current version and the separation (R6). -/
structure PageRec where
  cls : Option ColourClass
  version : Option Nat
  arrived : SepSet
  state : PageState
  liveJobs : Nat
  deriving DecidableEq, Repr

/-- A raster slot in use (R6). -/
structure Slot where
  ref : U64
  count : Nat
  current : Bool
  bad : Bool
  deriving DecidableEq, Repr

/-! ### Plate book (chapter 2) -/

/-- The content of a position or a staged entry (R23, R32). -/
structure Content where
  format : PlateFormat
  pageA : Nat
  pageB : Option Nat
  sep : Separation
  deriving DecidableEq, Repr

/-- What a position record holds of its jobs (R23, R24, R27, R30, R52). `satisfied` is the standing
last told to the press schedule (R27). -/
structure PosWork where
  current : Option Nat
  mounted : Option Nat
  deferred : Bool
  remake : Bool
  satisfied : Bool
  deriving DecidableEq, Repr

/-- A position record of the live plan (R23). -/
structure Position where
  content : Content
  edition : Nat
  held : Bool
  work : PosWork
  deriving DecidableEq, Repr

/-- A staged plan (R32). It is HELD exactly when a holder is present. -/
structure Stage where
  holder : Option PortId
  entries : Table PosId Content
  deriving DecidableEq, Repr

/-! ### Job table (chapter 3) -/

/-- The cause of a job's fault record (R47). The stage follows from the cause. -/
inductive FaultCause where
  | rasterUnreadable | loadFault (code : Byte) | loadTimeout
  | exposeFault | exposeInterrupted | exposeTimeout
  | transitTimeout
  | tagUnreadable | missingFromLane | registerReject
  | punchFault
  | sortFault
  | cut
  | contextLost | plateNotFound
  deriving DecidableEq, Repr

/-- The parameter of a fault record (R47). -/
inductive FaultParam where
  | engine (e : EngineId) | lane (l : LaneId) | offset (o : Offset)
  deriving DecidableEq, Repr

/-- A fault record (R47). -/
structure FaultRecord where
  cause : FaultCause
  param : FaultParam
  time : Nat
  deriving DecidableEq, Repr

/-- A job's class (R46, R53). -/
inductive JobClass where
  | normal | urgent
  deriving DecidableEq, Repr

/-- A job's origin (R52). -/
inductive Origin where
  | first | remake
  deriving DecidableEq, Repr

/-- The states of a job, the three terminal states last (R49). -/
inductive JobState where
  | queued | assigned | exposing | developing | finishing | racked | mounted | failed | uncertain
  | retired | cancelled | discarded
  deriving DecidableEq, Repr

/-- A job record (R46), with its entry order (R56). -/
structure Job where
  press : PressId
  pos : PosId
  pages : List (Nat × Nat)
  sep : Separation
  format : PlateFormat
  colourNeed : ColourClass
  slots : List SlotKey
  cls : JobClass
  origin : Origin
  attempt : Nat
  state : JobState
  superseded : Bool
  engine : Option EngineId
  lane : Option LaneId
  applied : Option Offset
  lastFault : Option FaultRecord
  entryOrder : Nat
  deriving DecidableEq, Repr

/-- The reason of a JOB_REQUEUED (R71, R187). -/
inductive RequeueReason where
  | fault | engineFaulted | colourEvicted | promoted | rasterReplaced | requeuedByRoom
  deriving DecidableEq, Repr

/-- The effect of a supersede (R59, R187). -/
inductive SupersedeEffect where
  | cancelled | flagged | pullRequired | changeRequired
  deriving DecidableEq, Repr

/-- The place of a plate (R62, R187). -/
inductive PlatePlace where
  | rackSlot | shelf | onPress
  deriving DecidableEq, Repr

/-! ### Engines and the dispatcher (chapter 4) -/

/-- An engine's mode (R73). -/
inductive EngineMode where
  | offline | running | faulted | lockedOut
  deriving DecidableEq, Repr

/-- The cause of an engine fault (R90, R91, R187). -/
inductive EngineFaultCause where
  | loadFault | loadTimeout | exposeFault | exposeInterrupted | exposeTimeout
  | protocol | cassetteChanged | linkLost | engineRestarted
  deriving DecidableEq, Repr

/-- Mode, greeted, fault flag and last fault of an engine (R72). -/
structure EngineStatus where
  mode : EngineMode
  greeted : Bool
  faultFlag : Bool
  lastFault : Option (EngineFaultCause × Nat)
  deriving DecidableEq, Repr

/-- Held gate, step allowance and stopped gate of an engine or a lane (R74, R111). -/
structure Gates where
  held : Bool
  allowance : Bool
  stopped : Bool
  deriving DecidableEq, Repr

/-- A cassette record (R75); an absent format is unknown. -/
structure Cassette where
  format : Option PlateFormat
  count : Nat
  deriving DecidableEq, Repr

/-- The stage of a job in next or parked (R77). -/
inductive LoadStage where
  | loadSent | loaded | exposeSent
  deriving DecidableEq, Repr

/-- The current context: its job, the EXPOSE timer's remaining seconds, the cut mark (R77, R87, R89). -/
structure CurrentCtx where
  job : Nat
  timer : Nat
  cut : Bool
  deriving DecidableEq, Repr

/-- A job in next or parked, with its stage, the LOAD timer's remaining seconds while it runs, and
the cut mark (R77, R84, R89). -/
structure WaitingCtx where
  job : Nat
  stage : LoadStage
  timer : Option Nat
  cut : Bool
  deriving DecidableEq, Repr

/-- The command by which a job was taken out of its context (R79). -/
inductive CancelCommand where
  | discard | abort
  deriving DecidableEq, Repr

/-- An entry of the cancel list (R79). -/
structure CancelEntry where
  job : Nat
  attempt : Nat
  command : CancelCommand
  deriving DecidableEq, Repr

/-- The three contexts and the cancel list of an engine (R77, R79). -/
structure Contexts where
  current : Option CurrentCtx
  next : Option WaitingCtx
  parked : Option WaitingCtx
  cancel : List CancelEntry
  deriving DecidableEq, Repr

/-- An engine record (R72). -/
structure Engine where
  status : EngineStatus
  gates : Gates
  cassette : Cassette
  ctx : Contexts
  deriving DecidableEq, Repr

/-! ### Register tracker (chapter 5) -/

/-- A register state (R98). -/
inductive RegisterState where
  | tracking | locked | drifted
  deriving DecidableEq, Repr

/-- A register record (R98). -/
structure Register where
  state : RegisterState
  window : List Offset
  correction : Offset
  run : Nat
  deriving DecidableEq, Repr

/-! ### Lanes and the sorter (chapter 6) -/

/-- A lane stage (R112). -/
inductive LaneStage where
  | inDeveloper | punching | bent | atExit | granted
  deriving DecidableEq, Repr

/-- An entry of a lane order, with its transit timer's remaining seconds (R112, R113). -/
structure LaneEntry where
  job : Nat
  stage : LaneStage
  timer : Option Nat
  deriving DecidableEq, Repr

/-- A stop policy (R151, R156). -/
inductive StopPolicy where
  | finish | cut
  deriving DecidableEq, Repr

/-- The lane order, the exit request and the blocked mark of a lane (R111). -/
structure LaneFloor where
  order : List LaneEntry
  exit : Option Nat
  blocked : Bool
  deriving DecidableEq, Repr

/-- A lane record (R111), with the note that its channel is lost (R131). -/
structure Lane where
  floor : LaneFloor
  gates : Gates
  inspections : List InspectReport
  transit : Nat
  policy : StopPolicy
  clearing : Bool
  lost : Bool
  deriving DecidableEq, Repr

/-- A delivery of the sorter (R125). -/
structure Delivery where
  lane : LaneId
  job : Nat
  attempt : Nat
  dest : Destination
  deriving DecidableEq, Repr

/-- The sorter record (R125), with the note that its channel is lost (R131). The sorter is busy
exactly when a delivery is present. -/
structure Sorter where
  delivery : Option Delivery
  lastServed : Option LaneId
  held : Bool
  allowance : Bool
  lost : Bool
  deriving DecidableEq, Repr

/-- The reason of a STRAY_PLATE (R187). -/
inductive StrayReason where
  | unreadable | notInOrder | pastInspection | attemptMismatch
  deriving DecidableEq, Repr

/-- The reports that can be a lane or sorter report error (R124, R130). -/
inductive LaneReportKind where
  | atInspect | punchedBent | punchFault | atExit | clear | sorted | sortFault
  deriving DecidableEq, Repr

/-! ### Presses (chapter 7), line control (chapter 8), restart control (chapter 9) -/

/-- A press state (R141). -/
inductive PressState where
  | idle | makeready | ready | running
  deriving DecidableEq, Repr

/-- A press record (R140). -/
structure Press where
  state : PressState
  edition : Option Nat
  positions : Nat
  unsatisfied : Nat
  start : Option Nat
  lead : Nat
  window : Bool
  late : Bool
  windowArmed : Bool
  startArmed : Bool
  deriving DecidableEq, Repr

/-- The line state (R151). -/
inductive LineState where
  | running | stopping | stopped
  deriving DecidableEq, Repr

/-- Line control (R151): the line state, the engines' stop policies, the reached marks, and the
plant time at which the stop was taken (R160). -/
structure LineControl where
  state : LineState
  policies : Vector StopPolicy 6
  reachedEngines : Vector Bool 6
  reachedLanes : Vector Bool 2
  stopTime : Nat
  deriving DecidableEq, Repr

/-- A reset kind (R163). -/
inductive ResetKind where
  | powerOn | lineReset | softReset
  deriving DecidableEq, Repr

/-- The reconcile counts (R163). -/
structure ReconcileCounts where
  uncertain : Nat
  reclaimed : Nat
  requeued : Nat
  discarded : Nat
  deriving DecidableEq, Repr

/-- The restart record (R163); `timer` holds the remaining seconds while the timer runs. -/
structure Restart where
  kind : ResetKind
  reconciling : Bool
  timer : Option Nat
  counts : ReconcileCounts
  deriving DecidableEq, Repr

/-- The cause of a LANE_CLEARED or a RECONCILE_ENDED: CLEAR of the one and COMPLETE of the other
are `complete` (R168, R172, R187). -/
inductive EndCause where
  | complete | requested | timeout
  deriving DecidableEq, Repr

/-- The settable values other than the lanes' transit timeouts (R184). -/
structure Limits where
  lockWindow : Nat
  relock : Nat
  drift : Nat
  recover : Nat
  load : Nat
  expose : Nat
  reconcile : Nat
  deriving DecidableEq, Repr

/-- The limits of R184, in the order of its table. -/
inductive LimitName where
  | lockWindow | relock | drift | recover | load | expose | transit | reconcile
  deriving DecidableEq, Repr

/-! ### The desk link (chapter 10) -/

/-- A set of rights (R182). -/
structure Rights where
  pages : Bool
  plan : Bool
  room : Bool
  maint : Bool
  deriving DecidableEq, Repr

/-- The notice classes (10.4). -/
inductive NoticeClass where
  | page | position | plate | engine | lane | press | register | system
  deriving DecidableEq, Repr

/-- A set of notice classes (R175). -/
structure Mask where
  page : Bool
  position : Bool
  plate : Bool
  engine : Bool
  lane : Bool
  press : Bool
  register : Bool
  system : Bool
  deriving DecidableEq, Repr

/-- The six counts of PLAN_COMMITTED (R41). -/
structure CommitCounts where
  unchanged : Nat
  changed : Nat
  added : Nat
  removed : Nat
  newPages : Nat
  deferred : Nat
  deriving DecidableEq, Repr

/-- The notices, each with its fields: tables of R22, R45, R71, R97, R110, R134, R150, R155, R161,
R174, and the SYSTEM notices of R183 and R184. -/
inductive Notice where
  -- PAGE (R22)
  | pageComplete (page : Nat) (version : Nat) (cls : ColourClass)
  | pageRevised (page old new : Nat) (cls : ColourClass)
  | pageWithdrawn (page : Nat) (version : Option Nat) (liveJobs : Nat)
  | pageRemoved (page : Nat) (version : Option Nat)
  | rasterBad (slot : SlotKey) (job : Nat) (engine : EngineId)
  | rasterReplaced (slot : SlotKey)
  -- POSITION (R45, R71)
  | stageClaimed (press : PressId) (holder : PortId)
  | stageDiscarded (press : PressId) (former by' : PortId)
  | planCommitted (press : PressId) (edition : Nat) (counts : CommitCounts) (port : PortId)
  | positionHeld (k : PosKey) (job : Option Nat)
  | positionReleased (k : PosKey) (job : Option Nat)
  | positionDeferred (k : PosKey)
  | positionFailed (k : PosKey) (job attempt : Nat) (fault : FaultRecord)
  -- PLATE (R71, R134, R150)
  | jobCreated (job : Nat) (k : PosKey) (cls : JobClass) (origin : Origin) (need : ColourClass)
  | jobRequeued (job attempt : Nat) (reason : RequeueReason) (fault : Option FaultRecord)
  | jobSpoiled (job attempt : Nat) (fault : FaultRecord)
  | jobSuperseded (job : Nat) (k : PosKey) (state : JobState) (effect : SupersedeEffect)
  | jobEnded (job : Nat) (k : PosKey) (state : JobState) (fault : Option FaultRecord)
  | pullRequired (job : Nat) (k : PosKey) (place : PlatePlace)
  | rackBlocked (lane : LaneId) (job : Nat) (k : PosKey)
  | plateRacked (job : Nat) (k : PosKey) (place : PlatePlace) (superseded : Bool)
  | plateMounted (k : PosKey) (job : Nat) (retired : Option Nat)
  | plateUnmounted (k : PosKey) (job : Nat)
  -- ENGINE (R97, R155, R161)
  | engineOnline (engine : EngineId) (mode : EngineMode) (flag : Bool)
  | engineFault (engine : EngineId) (cause : EngineFaultCause) (job : Option Nat)
  | engineLockedOut (engine : EngineId) (cause : EngineFaultCause) (job : Option Nat)
  | engineOffline (engine : EngineId) (returned : Nat)
  | engineCleared (engine : EngineId) (mode : EngineMode)
  | engineRestored (engine : EngineId) (mode : EngineMode)
  | cassetteEmpty (engine : EngineId) (format : Option PlateFormat)
  | unitHeld (u : UnitId)
  | unitReleased (u : UnitId) (allowance : Bool)
  | unitStepped (u : UnitId)
  | lineStopping (engines : List StopPolicy) (lanes : List StopPolicy)
  | lineStopped (taken : Nat)
  | lineResumed (state : LineState)
  -- LANE (R134, R174)
  | strayPlate (lane : LaneId) (tag : TagRead) (reason : StrayReason)
  | laneProtocol (u : UnitId) (report : LaneReportKind) (named : Option (Nat × Nat))
  | laneCleared (lane : LaneId) (cause : EndCause)
  -- PRESS (R71, R150)
  | changeRequired (job : Nat) (k : PosKey)
  | pressReady (press : PressId) (edition : Option Nat) (positions : Nat)
  | pressUnready (press : PressId) (unsatisfied : Nat)
  | pressStarted (press : PressId) (edition : Option Nat) (unsatisfied : Nat) (force late : Bool)
  | pressStopped (press : PressId) (state : PressState)
  | pressScheduled (press : PressId) (start : Option Nat) (lead : Nat)
  | deadlineWindow (press : PressId) (start window : Nat) (promoted : Nat)
  | pressLate (press : PressId) (state : PressState) (start : Nat) (unsatisfied : Nat)
  -- REGISTER (R110)
  | registerLocked (engine : EngineId) (correction : Offset)
  | registerRelock (engine : EngineId) (sample frozen : Offset)
  | registerDrifted (engine : EngineId) (measured sample : Offset) (evicted : Nat)
  | registerRestored (engine : EngineId) (correction : Offset)
  | registerRearmed (engine : EngineId) (before : RegisterState)
  | colourStarved (engines : List EngineId) (jobs : Nat)
  -- SYSTEM (R150, R174, R183, R184)
  | clockSet (old new : Nat)
  | restarted (kind : ResetKind) (uncertain : Nat) (reconciling : Bool)
  | reconcileEnded (cause : EndCause) (counts : ReconcileCounts)
  | rightsChanged (port : PortId) (before after : Rights) (by' : PortId)
  | limitSet (limit : LimitName) (lane : Option LaneId) (before after : Nat)
  deriving DecidableEq, Repr

/-- The answer codes (R179), in the order that numbers them (R187). -/
inductive AnswerCode where
  | ok | badFrame | refusedBusy | refusedRights | badValue | notFound | staleVersion | duplicate
  | wrongSeparation | registerFull | storeFull | stageHeld | pressRunning | notReady | noPlate
  | wrongState | lastMaint
  deriving DecidableEq, Repr

/-- A body field, by its type in R187. `present` is the presence byte of an optional field and `listLen` the
count of a list; the value or the elements follow as fields of their own. `absentNumber`,
`absentJob` and the last four have no encoding in R187 (Config). -/
inductive Field where
  | pageId (n : Nat)
  | jobNumber (n : Nat)
  | version (n : Nat)
  | absentNumber
  | absentJob
  | edition (n : Nat)
  | attempt (n : Nat)
  | press (p : PressId)
  | position (p : PosId)
  | plantTime (n : Nat)
  | leadTime (n : Nat)
  | limitValue (n : Nat)
  | remaining (n : Nat)
  | offset (o : Offset)
  | count (n : Nat)
  | unit (u : UnitId)
  | port (p : PortId)
  | enum (code : Nat)
  | flag (b : Bool)
  | rights (r : Rights)
  | classes (m : Mask)
  | present (b : Bool)
  | listLen (n : Nat)
  | fault (f : FaultRecord)
  | tagCheck (n : Nat)
  | sepSet (s : SepSet)
  | slotRef (k : SlotKey)
  | laneReport (r : LaneReportKind)
  | exitNeither
  deriving DecidableEq, Repr

/-- An answer: its code and its fields (R178). -/
structure Answer where
  code : AnswerCode
  fields : List Field
  deriving DecidableEq, Repr

/-- A frame the part sends (R178, R180): a notice with the plant time at which it was raised, an
OVERRUN with the plant time at which the flag was set, or an answer with its tag and kind. -/
inductive OutFrame where
  | notice (time : Nat) (n : Notice)
  | overrun (time : Nat)
  | answer (tag : Byte) (kind : U16) (a : Answer)
  deriving DecidableEq, Repr

/-- A request with its body fields in their widths (R185, R187), one constructor for each kind. -/
inductive Request where
  | separationArrived (page : U16) (version cls sep : Byte) (ref : U64)
  | withdrawPage (page : U16)
  | stagePosition (press pos format : Byte) (pageA : U16) (pageB : Option U16) (sep : Byte)
  | clearStagedPosition (press pos : Byte)
  | discardStage (press : Byte)
  | commitPlan (press edition : Byte)
  | holdPosition (press pos : Byte)
  | releasePosition (press pos : Byte)
  | requeuePosition (press pos : Byte)
  | clearEngineFault (engine : Byte)
  | restoreEngine (engine : Byte)
  | rearmRegister (engine : Byte)
  | pullConfirm (press pos : Byte)
  | mount (press pos : Byte)
  | unmount (press pos : Byte)
  | pressStart (press force : Byte)
  | pressStop (press : Byte)
  | setClock (time : U32)
  | setPressSchedule (press : Byte) (start : Option U32) (lead : U16)
  | hold (unit : Byte)
  | release (unit : Byte)
  | step (unit : Byte)
  | setStopPolicy (unit policy : Byte)
  | lineStop
  | lineResume
  | reconcileEnd
  | softReset
  | setRights (target rights : Byte)
  | setNoticeMask (classes : Byte)
  | setLimits (limit : Byte) (value : U16) (lane : Option Byte)
  | queryPage (page : U16)
  | queryPosition (press pos : Byte)
  | queryJob (job : U16)
  | queryEngine (engine : Byte)
  | queryLane (unit : Byte)
  | queryPress (press : Byte)
  | queryPart
  deriving DecidableEq, Repr

/-- What the body of a received request holds: a kind that names no request, a body of the wrong
shape for its kind, or a request (R178, steps 1 and 3). -/
inductive RequestContent where
  | unknownKind
  | malformed
  | sound (r : Request)
  deriving DecidableEq, Repr

/-- A request received whole (R177). -/
structure Received where
  tag : Byte
  kind : U16
  content : RequestContent
  deriving DecidableEq, Repr

/-- A receiver: HUNTING, or IN_FRAME with the bytes collected after the sync byte (R175, R176). -/
inductive Receiver where
  | hunting
  | inFrame (bytes : List Byte)
  deriving DecidableEq, Repr

/-- The list whose first frame the transmitter is sending (R179). -/
inductive SendSource where
  | refusals | output
  deriving DecidableEq, Repr

/-- A port record but for its rights and mask (R175). `overrun` holds the plant time at which the flag was
set, while it is set (R180). -/
structure Link where
  rx : Receiver
  queue : List Received
  inHand : Option Received
  refusals : List OutFrame
  output : List OutFrame
  overrun : Option Nat
  sending : Option SendSource
  deriving DecidableEq, Repr

/-- A port record (R175). -/
structure Port where
  rights : Rights
  mask : Mask
  link : Link
  deriving DecidableEq, Repr

/-! ### What the part sends to its machines (chapters 4 and 6) -/

/-- A command on a line channel (R76, R114, R127). The references of LOAD stand for page A and, on a
TWO_UP job, page B. -/
inductive LineCommand where
  | load (engine : EngineId) (job attempt : Nat) (k : PosKey) (format : PlateFormat) (refs : List (Option U64))
  | expose (engine : EngineId) (job attempt : Nat) (correction : Offset)
  | discard (engine : EngineId) (job attempt : Nat)
  | abort (engine : EngineId) (job attempt : Nat)
  | pass (lane : LaneId) (job attempt : Nat) (punch : Offset)
  | reject (lane : LaneId) (job : Nat)
  | deliver (lane : LaneId) (job attempt : Nat) (dest : Destination)
  deriving DecidableEq, Repr

/-! ### The state -/

/-- The whole state of the part, and the queue of the commands that wait for it. -/
structure State where
  clock : Nat
  pages : Table Nat PageRec
  slots : Table SlotKey Slot
  plan : Table PosKey Position
  stages : Vector Stage 4
  jobs : Table Nat Job
  lastJob : Nat
  entryCount : Nat
  racks : Table PosKey (List Nat)
  shelves : Vector (List (Nat × PosId)) 4
  presses : Vector Press 4
  engines : Vector Engine 6
  registers : Vector Register 6
  starved : Bool
  lanes : Vector Lane 2
  sorter : Sorter
  line : LineControl
  limits : Limits
  restart : Restart
  softResetDue : Bool
  ports : Vector Port 3
  lineSent : List LineCommand
  deskSent : List (PortId × OutFrame)
  pending : List Instr
  deriving DecidableEq, Repr

/-- The reasons a step can stop with a fault: none. The spec names no event at which the part stops. -/
inductive Fault where
  deriving DecidableEq, Repr

/-- The reasons a command can be refused. -/
inductive Refusal where
  /-- Raised by the dispatcher of commands for a command that has no meaning yet; safe: nothing is
  claimed of it. -/
  | notModelled (mnemonic : String)
  deriving DecidableEq, Repr

/-! ### The state after POWER_ON -/

/-- Gates all clear (R95, R111). -/
def Gates.clear : Gates := ⟨false, false, false⟩

/-- Contexts empty (R95). -/
def Contexts.empty : Contexts := ⟨none, none, none, []⟩

/-- A cassette not known (R75). -/
def Cassette.unknown : Cassette := ⟨none, 0⟩

/-- An engine record after POWER_ON (R95). -/
def Engine.initial : Engine :=
  ⟨⟨.offline, false, false, none⟩, Gates.clear, Cassette.unknown, Contexts.empty⟩

/-- A register record after POWER_ON (R98). -/
def Register.initial : Register := ⟨.tracking, [], ⟨0, 0⟩, 0⟩

/-- A lane record after POWER_ON (R111). -/
def Lane.initial : Lane :=
  ⟨⟨[], none, false⟩, Gates.clear, [], Config.defaultTransit, .finish, false, false⟩

/-- The sorter record after POWER_ON (R125). -/
def Sorter.initial : Sorter := ⟨none, none, false, false, false⟩

/-- A press record after POWER_ON (R140). -/
def Press.initial : Press := ⟨.idle, none, 0, 0, none, Config.defaultLead, false, false, false, false⟩

/-- Line control after POWER_ON (R151). -/
def LineControl.initial : LineControl :=
  ⟨.running, Vector.replicate 6 .finish, Vector.replicate 6 false, Vector.replicate 2 false, 0⟩

/-- The defaults of R184. -/
def Limits.initial : Limits := ⟨25, 60, 400, 4, 120, 600, 900⟩

/-- The restart record after POWER_ON (R163). -/
def Restart.initial : Restart := ⟨.powerOn, false, none, ⟨0, 0, 0, 0⟩⟩

/-- A port's link right after a reset (R165, R175): RESTARTED alone in the output list, and the
transmitter sending it. -/
def Link.afterReset (time : Nat) (n : Notice) : Link :=
  ⟨.hunting, [], none, [], [.notice time n], none, some .output⟩

/-- The RESTARTED notice of a POWER_ON (R163, R165). -/
def restartedPowerOn : Notice := .restarted .powerOn 0 false

/-- The state right after POWER_ON with both strap pairs open (R182): P0 holds every right, P1 and P2
PAGES, and the masks follow from the rights. The entry-order count is 0, so the first job takes entry order 1: R56
says that the count starts again, and gives no value (the model's choice, assumption 45). -/
def State.reset : State where
  clock := 0
  pages := []
  slots := []
  plan := []
  stages := Vector.replicate 4 ⟨none, []⟩
  jobs := []
  lastJob := 0
  entryCount := 0
  racks := []
  shelves := Vector.replicate 4 []
  presses := Vector.replicate 4 Press.initial
  engines := Vector.replicate 6 Engine.initial
  registers := Vector.replicate 6 Register.initial
  starved := false
  lanes := Vector.replicate 2 Lane.initial
  sorter := Sorter.initial
  line := LineControl.initial
  limits := Limits.initial
  restart := Restart.initial
  softResetDue := false
  ports := #v[
    ⟨⟨true, true, true, true⟩, ⟨true, true, true, true, true, true, true, true⟩,
      Link.afterReset 0 restartedPowerOn⟩,
    ⟨⟨true, false, false, false⟩, ⟨true, false, false, false, false, false, false, false⟩,
      Link.afterReset 0 restartedPowerOn⟩,
    ⟨⟨true, false, false, false⟩, ⟨true, false, false, false, false, false, false, false⟩,
      Link.afterReset 0 restartedPowerOn⟩]
  lineSent := []
  deskSent := []
  pending := []

end Sys2Proof.Machine
end

