-- ==== Sys2Proof/Machine/Data.lean ====
section
/-! DEFINITION. Machine/Data.lean: lookup, change, insertion and removal in the tables, in vectors
and in lists. Nothing here knows the part. -/

namespace Sys2Proof.Machine

/-! ### Ranks of keys -/

/-- The rank of a position: press first, then position (2.3). -/
def PosKey.rank (k : PosKey) : Nat := k.press.val * 64 + k.pos.val

/-- The number of a separation (R187). -/
def sepNumber : Separation → Nat
  | .k => 0 | .c => 1 | .m => 2 | .y => 3

/-- The rank of a raster slot: no two slots share one. Which slot comes first has no effect that can be
seen (R7). -/
def SlotKey.rank (k : SlotKey) : Nat :=
  ((k.page + k.version) * (k.page + k.version) + k.page) * 4 + sepNumber k.sep

/-! ### Tables -/

/-- The entry of a key. -/
def tget {κ α : Type} [DecidableEq κ] : Table κ α → κ → Option α
  | [], _ => none
  | (k', v) :: t, k => if k' = k then some v else tget t k

/-- A key has an entry. -/
def thas {κ α : Type} [DecidableEq κ] (t : Table κ α) (k : κ) : Bool := (tget t k).isSome

/-- Change the entry of a key, if it has one. -/
def tmod {κ α : Type} [DecidableEq κ] (t : Table κ α) (k : κ) (f : α → α) : Table κ α :=
  t.map fun e => if e.1 = k then (e.1, f e.2) else e

/-- Remove the entry of a key, if it has one. -/
def tdel {κ α : Type} [DecidableEq κ] (t : Table κ α) (k : κ) : Table κ α :=
  t.filter fun e => !decide (e.1 = k)

/-- Set the entry of a key, at its place by rank. -/
def tput {κ α : Type} (rank : κ → Nat) : Table κ α → κ → α → Table κ α
  | [], k, v => [(k, v)]
  | (k', v') :: t, k, v =>
    if rank k < rank k' then (k, v) :: (k', v') :: t
    else if rank k = rank k' then (k, v) :: t
    else (k', v') :: tput rank t k v

/-- The keys' ranks rise strictly: at most one entry for each rank, in one order only. -/
def Table.ordered {κ α : Type} (rank : κ → Nat) (t : Table κ α) : Prop :=
  t.Pairwise fun a b => rank a.1 < rank b.1

/-! ### Vectors -/

/-- Change one element of a vector. -/
def vmod {α : Type} {n : Nat} (v : Vector α n) (i : Fin n) (f : α → α) : Vector α n :=
  v.set i.val (f v[i]) i.isLt

/-! ### Numbering of units, positions and separations -/

/-- The ports in order. -/
def allPorts : List PortId := [0, 1, 2]
/-- The engines in order. -/
def allEngines : List EngineId := [0, 1, 2, 3, 4, 5]
/-- The lanes in order. -/
def allLanes : List LaneId := [0, 1]
/-- The presses in order. -/
def allPresses : List PressId := [0, 1, 2, 3]
/-- The positions of a press in order. -/
def allPositions : List PosId := List.finRange 64
/-- The separations in order. -/
def allSeps : List Separation := [.k, .c, .m, .y]

/-! ### Sets of separations -/

/-- A separation is in the set. -/
def SepSet.has (x : SepSet) : Separation → Bool
  | .k => x.k | .c => x.c | .m => x.m | .y => x.y

/-- The set with a separation added. -/
def SepSet.add (x : SepSet) : Separation → SepSet
  | .k => { x with k := true } | .c => { x with c := true }
  | .m => { x with m := true } | .y => { x with y := true }

/-- The empty set. -/
def SepSet.empty : SepSet := ⟨false, false, false, false⟩

/-! ### Lists -/

/-- Insert into a sorted list, before the first element that is not smaller. -/
def insertBy {α : Type} (lt : α → α → Bool) (x : α) : List α → List α
  | [] => [x]
  | y :: ys => if lt y x then y :: insertBy lt x ys else x :: y :: ys

/-- Sort a list by a strict order; equal elements keep their order. -/
def sortBy {α : Type} (lt : α → α → Bool) (l : List α) : List α :=
  l.foldr (insertBy lt) []

/-- The place of the first element that satisfies a test, counted from 1. -/
def placeOf {α : Type} (p : α → Bool) : List α → Option Nat
  | [] => none
  | x :: xs => if p x then some 1 else (placeOf p xs).map (· + 1)

end Sys2Proof.Machine
end

