-- ==== Sys2Proof/Machine/Ops.lean ====
section
/-! DEFINITION. Machine/Ops.lean: the named operations over the state. Every write of a field of the
state in the meanings is one of these (the resets excepted), and so is what leaves the part: a
command on a line channel, a notice, an answer, a refusal. -/

namespace Sys2Proof.Machine

/-- No reached mark set (R151). -/
def clearMarks (x : LineControl) : LineControl :=
  { x with reachedEngines := Vector.replicate 6 false, reachedLanes := Vector.replicate 2 false }

namespace State

/-! ### Reading -/

/-- The record of a live job (R46). -/
def job? (s : State) (n : Nat) : Option Job := tget s.jobs n
/-- The record of a page (R1). -/
def page? (s : State) (n : Nat) : Option PageRec := tget s.pages n
/-- The record of a position of the live plan (R23). -/
def pos? (s : State) (k : PosKey) : Option Position := tget s.plan k
/-- A raster slot in use (R6). -/
def slot? (s : State) (k : SlotKey) : Option Slot := tget s.slots k
/-- The plates of a rack slot, oldest first (R135). -/
def rack (s : State) (k : PosKey) : List Nat := (tget s.racks k).getD []
/-- An engine record (R72). -/
def engine (s : State) (e : EngineId) : Engine := s.engines[e]
/-- A register record (R98). -/
def register (s : State) (e : EngineId) : Register := s.registers[e]
/-- A lane record (R111). -/
def lane (s : State) (l : LaneId) : Lane := s.lanes[l]
/-- A press record (R140). -/
def press (s : State) (p : PressId) : Press := s.presses[p]
/-- A staged plan (R32). -/
def stage (s : State) (p : PressId) : Stage := s.stages[p]
/-- An overflow shelf, oldest first (R135). -/
def shelf (s : State) (p : PressId) : List (Nat × PosId) := s.shelves[p]
/-- A port record (R175). -/
def port (s : State) (p : PortId) : Port := s.ports[p]

/-! ### Writing: what reactions may touch

The reactions of the part (need tests, departures, the dispatcher, EXPOSE, the sorter's looks, the
reached marks) write through these only. -/

/-- Change a port's link (R175). -/
def modLink (p : PortId) (f : Link → Link) (s : State) : State :=
  { s with ports := vmod s.ports p fun x => { x with link := f x.link } }
/-- Send a command on a line channel (R76, R114, R127). -/
def send (c : LineCommand) (s : State) : State := { s with lineSent := s.lineSent ++ [c] }
/-- Change an engine's contexts and cancel list (R77, R79). -/
def modCtx (e : EngineId) (f : Contexts → Contexts) (s : State) : State :=
  { s with engines := vmod s.engines e fun x => { x with ctx := f x.ctx } }
/-- Set or clear the colour-starved mark (R106). -/
def setStarved (b : Bool) (s : State) : State := { s with starved := b }
/-- Change a job record (R46). -/
def modJob (n : Nat) (f : Job → Job) (s : State) : State := { s with jobs := tmod s.jobs n f }
/-- Enter a job record, as the last assigned number (R48, R51). -/
def addJob (n : Nat) (j : Job) (s : State) : State :=
  { s with jobs := tput id s.jobs n j, lastJob := n }
/-- A job record leaves the table (R50). -/
def dropJob (n : Nat) (s : State) : State := { s with jobs := tdel s.jobs n }
/-- Advance the entry-order count (R56). -/
def bumpEntry (s : State) : State := { s with entryCount := s.entryCount + 1 }
/-- Change what a position holds of its jobs (R24, R27, R30, R52). -/
def modWork (k : PosKey) (f : PosWork → PosWork) (s : State) : State :=
  { s with plan := tmod s.plan k fun x => { x with work := f x.work } }
/-- Change a page's live-job count (R3). -/
def modLive (n : Nat) (f : Nat → Nat) (s : State) : State :=
  { s with pages := tmod s.pages n fun x => { x with liveJobs := f x.liveJobs } }
/-- A page record leaves the register (R20). -/
def dropPage (n : Nat) (s : State) : State := { s with pages := tdel s.pages n }
/-- Change a slot's reference count (R8). -/
def modCount (k : SlotKey) (f : Nat → Nat) (s : State) : State :=
  { s with slots := tmod s.slots k fun x => { x with count := f x.count } }
/-- Free a slot (R8). -/
def dropSlot (k : SlotKey) (s : State) : State := { s with slots := tdel s.slots k }
/-- Set a press's state (R141). -/
def setPressState (p : PressId) (st : PressState) (s : State) : State :=
  { s with presses := vmod s.presses p fun x => { x with state := st } }
/-- Set a press's unsatisfied count (R140). -/
def setUnsatisfied (p : PressId) (n : Nat) (s : State) : State :=
  { s with presses := vmod s.presses p fun x => { x with unsatisfied := n } }
/-- Set the plates of a rack slot (R135). -/
def setRack (k : PosKey) (l : List Nat) (s : State) : State :=
  { s with racks := if l = [] then tdel s.racks k else tput PosKey.rank s.racks k l }
/-- Set the plates of an overflow shelf (R135). -/
def setShelf (p : PressId) (l : List (Nat × PosId)) (s : State) : State :=
  { s with shelves := vmod s.shelves p fun _ => l }
/-- Change a lane's order, exit request and blocked mark (R111). -/
def modFloor (l : LaneId) (f : LaneFloor → LaneFloor) (s : State) : State :=
  { s with lanes := vmod s.lanes l fun x => { x with floor := f x.floor } }
/-- Set a lane's stopped gate (R159). -/
def stopLane (l : LaneId) (s : State) : State :=
  { s with lanes := vmod s.lanes l fun x => { x with gates := { x.gates with stopped := true } } }
/-- A lane's step allowance is used (R120, R127). -/
def useLaneStep (l : LaneId) (s : State) : State :=
  { s with lanes := vmod s.lanes l fun x => { x with gates := { x.gates with allowance := false } } }
/-- Set the sorter's delivery (R125). -/
def setDelivery (d : Option Delivery) (s : State) : State :=
  { s with sorter := { s.sorter with delivery := d } }
/-- Set the last-served lane (R129). -/
def setServed (l : LaneId) (s : State) : State :=
  { s with sorter := { s.sorter with lastServed := some l } }
/-- The sorter's step allowance is used (R127). -/
def useSorterStep (s : State) : State := { s with sorter := { s.sorter with allowance := false } }
/-- Set the reached marks (R160). -/
def setReached (es : Vector Bool 6) (ls : Vector Bool 2) (s : State) : State :=
  { s with line := { s.line with reachedEngines := es, reachedLanes := ls } }
/-- The line becomes STOPPED (R160); the reached marks are not kept outside STOPPING (R151). -/
def setStopped (s : State) : State := { s with line := { clearMarks s.line with state := .stopped } }

/-! ### Writing: what only an event's own rule touches -/

/-- Set the plant clock (R145). -/
def setClock (t : Nat) (s : State) : State := { s with clock := t }
/-- Enter a page record, or write it anew (R4, R5). -/
def putPage (n : Nat) (r : PageRec) (s : State) : State := { s with pages := tput id s.pages n r }
/-- Create a slot (R7). -/
def putSlot (k : SlotKey) (x : Slot) (s : State) : State :=
  { s with slots := tput SlotKey.rank s.slots k x }
/-- Change a slot's reference and flags (R9, R10, R15). -/
def modSlot (k : SlotKey) (f : Slot → Slot) (s : State) : State :=
  { s with slots := tmod s.slots k f }
/-- Change a position record (R39, R43). -/
def modPos (k : PosKey) (f : Position → Position) (s : State) : State :=
  { s with plan := tmod s.plan k f }
/-- Enter a position record (R40). -/
def putPos (k : PosKey) (x : Position) (s : State) : State :=
  { s with plan := tput PosKey.rank s.plan k x }
/-- A position record leaves the live plan (R40). -/
def dropPos (k : PosKey) (s : State) : State := { s with plan := tdel s.plan k }
/-- Set a staged plan (R32). -/
def setStage (p : PressId) (x : Stage) (s : State) : State :=
  { s with stages := vmod s.stages p fun _ => x }
/-- Change a press record (R140). -/
def modPress (p : PressId) (f : Press → Press) (s : State) : State :=
  { s with presses := vmod s.presses p f }
/-- Change an engine's mode, greeted flag, fault flag and last fault (R72). -/
def modStatus (e : EngineId) (f : EngineStatus → EngineStatus) (s : State) : State :=
  { s with engines := vmod s.engines e fun x => { x with status := f x.status } }
/-- Change an engine's gates (R74). -/
def modGates (e : EngineId) (f : Gates → Gates) (s : State) : State :=
  { s with engines := vmod s.engines e fun x => { x with gates := f x.gates } }
/-- Change an engine's cassette record (R75). -/
def modCassette (e : EngineId) (f : Cassette → Cassette) (s : State) : State :=
  { s with engines := vmod s.engines e fun x => { x with cassette := f x.cassette } }
/-- Set a register record (R98). -/
def setRegister (e : EngineId) (r : Register) (s : State) : State :=
  { s with registers := vmod s.registers e fun _ => r }
/-- Change a lane record (R111). -/
def modLane (l : LaneId) (f : Lane → Lane) (s : State) : State :=
  { s with lanes := vmod s.lanes l f }
/-- Change the sorter record (R125). -/
def modSorter (f : Sorter → Sorter) (s : State) : State := { s with sorter := f s.sorter }
/-- Change line control (R151). -/
def modLine (f : LineControl → LineControl) (s : State) : State := { s with line := f s.line }
/-- Change the limits (R184). -/
def modLimits (f : Limits → Limits) (s : State) : State := { s with limits := f s.limits }
/-- Change the restart record (R163). -/
def modRestart (f : Restart → Restart) (s : State) : State := { s with restart := f s.restart }
/-- Set or clear the note that a soft reset is due (R163). -/
def setSoftDue (b : Bool) (s : State) : State := { s with softResetDue := b }
/-- Set a port's rights (R183). -/
def setRights (p : PortId) (r : Rights) (s : State) : State :=
  { s with ports := vmod s.ports p fun x => { x with rights := r } }
/-- Set a port's notice mask (R181). -/
def setMask (p : PortId) (m : Mask) (s : State) : State :=
  { s with ports := vmod s.ports p fun x => { x with mask := m } }
/-- A frame has left a port (R179). -/
def logDesk (p : PortId) (f : OutFrame) (s : State) : State :=
  { s with deskSent := s.deskSent ++ [(p, f)] }

end State

/-! ### Output lists (R177, R179, R180) -/

/-- A frame that is RESTARTED (R179). -/
def OutFrame.isRestarted : OutFrame → Bool
  | .notice _ (.restarted ..) => true
  | _ => false

/-- A frame that counts among the 64 of the notice queue: a notice or an OVERRUN (R180). -/
def OutFrame.isNotice : OutFrame → Bool
  | .answer .. => false
  | _ => true

/-- The length of the notice queue (R175). -/
def Link.noticeCount (l : Link) : Nat := (l.output.filter OutFrame.isNotice).length

/-- The list a free transmitter sends from (R179). -/
def Link.nextSource (l : Link) : Option SendSource :=
  match l.output with
  | f :: _ =>
    if f.isRestarted then some .output
    else if l.refusals = [] then some .output else some .refusals
  | [] => if l.refusals = [] then none else some .refusals

/-- A free transmitter starts on its next frame (R179). -/
def Link.pump (l : Link) : Link :=
  match l.sending with
  | some _ => l
  | none => { l with sending := l.nextSource }

/-- Offer a copy of a notice to a port whose mask holds its class (R180). -/
def Link.offer (time : Nat) (n : Notice) (l : Link) : Link :=
  if l.noticeCount < Config.noticeQueue then
    match l.overrun with
    | none => Link.pump { l with output := l.output ++ [.notice time n] }
    | some _ => l
  else { l with overrun := some (l.overrun.getD time) }

/-- An answer joins the output list (R178, R179). -/
def Link.answer (tag : Byte) (kind : U16) (a : Answer) (l : Link) : Link :=
  Link.pump { l with output := l.output ++ [.answer tag kind a] }

/-- A BAD_FRAME or REFUSED_BUSY answer joins the refusal list, or is dropped when it is full (R177). -/
def Link.refuse (tag : Byte) (kind : U16) (c : AnswerCode) (l : Link) : Link :=
  if l.refusals.length < Config.refusalList then
    Link.pump { l with refusals := l.refusals ++ [.answer tag kind ⟨c, []⟩] }
  else l

/-! ### Notices -/

/-- The class of a notice that a unit's hold, release or step raises (R155). -/
def UnitId.noticeClass : UnitId → NoticeClass
  | .engine _ => .engine
  | _ => .lane

/-- The class in which a notice is raised (the notice tables of the chapters). -/
def Notice.cls : Notice → NoticeClass
  | .pageComplete .. | .pageRevised .. | .pageWithdrawn .. | .pageRemoved .. | .rasterBad ..
  | .rasterReplaced .. => .page
  | .stageClaimed .. | .stageDiscarded .. | .planCommitted .. | .positionHeld ..
  | .positionReleased .. | .positionDeferred .. | .positionFailed .. => .position
  | .jobCreated .. | .jobRequeued .. | .jobSpoiled .. | .jobSuperseded .. | .jobEnded ..
  | .pullRequired .. | .rackBlocked .. | .plateRacked .. | .plateMounted .. | .plateUnmounted .. => .plate
  | .engineOnline .. | .engineFault .. | .engineLockedOut .. | .engineOffline ..
  | .engineCleared .. | .engineRestored .. | .cassetteEmpty .. | .lineStopping .. | .lineStopped ..
  | .lineResumed .. => .engine
  | .unitHeld u | .unitReleased u _ | .unitStepped u => u.noticeClass
  | .strayPlate .. | .laneProtocol .. | .laneCleared .. => .lane
  | .changeRequired .. | .pressReady .. | .pressUnready .. | .pressStarted .. | .pressStopped ..
  | .pressScheduled .. | .deadlineWindow .. | .pressLate .. => .press
  | .registerLocked .. | .registerRelock .. | .registerDrifted .. | .registerRestored ..
  | .registerRearmed .. | .colourStarved .. => .register
  | .clockSet .. | .restarted .. | .reconcileEnded .. | .rightsChanged .. | .limitSet .. => .system

/-- A mask holds a class (R175). -/
def Mask.has (m : Mask) : NoticeClass → Bool
  | .page => m.page | .position => m.position | .plate => m.plate | .engine => m.engine
  | .lane => m.lane | .press => m.press | .register => m.register | .system => m.system

/-- Offer a copy of a notice to one port, if its mask holds the class (R180). -/
def offerTo (n : Notice) (p : PortId) (s : State) : State :=
  if (s.port p).mask.has n.cls then s.modLink p (Link.offer s.clock n) else s

/-- Raise a notice: offer it to each port (R180). -/
def raise (n : Notice) (s : State) : State := allPorts.foldl (fun s p => offerTo n p s) s

/-- Raise notices in order. -/
def raiseAll (ns : List Notice) (s : State) : State := ns.foldl (fun s n => raise n s) s

end Sys2Proof.Machine
end

