-- ==== Sys2Proof/Machine/Operands.lean ====
section
/-! DEFINITION. Machine/Operands.lean: the values a request's bytes name (R187), with none where a byte
names nothing and its owning rule answers BAD_VALUE. -/

namespace Sys2Proof.Machine

/-- A press 0 to 3. -/
def pressOf (b : Byte) : Option PressId := if h : b.toNat < 4 then some ⟨b.toNat, h⟩ else none

/-- A position 0 to 63. -/
def posOf (b : Byte) : Option PosId := if h : b.toNat < 64 then some ⟨b.toNat, h⟩ else none

/-- A press and a position. -/
def keyOf (p q : Byte) : Option PosKey :=
  match pressOf p, posOf q with
  | some p, some q => some ⟨p, q⟩
  | _, _ => none

/-- An engine E0 to E5. -/
def engineOf (b : Byte) : Option EngineId := if h : b.toNat < 6 then some ⟨b.toNat, h⟩ else none

/-- A port P0 to P2. -/
def portOf (b : Byte) : Option PortId := if h : b.toNat < 3 then some ⟨b.toNat, h⟩ else none

/-- A unit: E0 to E5 are 0 to 5, L0 is 6, L1 is 7, S is 8. -/
def unitOf (b : Byte) : Option UnitId :=
  if h : b.toNat < 6 then some (.engine ⟨b.toNat, h⟩)
  else if b.toNat = 6 then some (.lane 0)
  else if b.toNat = 7 then some (.lane 1)
  else if b.toNat = 8 then some .sorter
  else none

/-- A lane, coded as a unit. -/
def laneOf (b : Byte) : Option LaneId :=
  match unitOf b with
  | some (.lane l) => some l
  | _ => none

/-- A colour class of a request: MONO 0, COLOUR 1. -/
def classOf (b : Byte) : Option ColourClass :=
  if b.toNat = 0 then some .mono else if b.toNat = 1 then some .colour else none

/-- A separation: K, C, M, Y are 0 to 3. -/
def sepOf (b : Byte) : Option Separation :=
  if b.toNat = 0 then some .k else if b.toNat = 1 then some .c
  else if b.toNat = 2 then some .m else if b.toNat = 3 then some .y else none

/-- A plate format: ONE_UP 0, TWO_UP 1. -/
def formatOf (b : Byte) : Option PlateFormat :=
  if b.toNat = 0 then some .oneUp else if b.toNat = 1 then some .twoUp else none

/-- A stop policy: FINISH 0, CUT 1. -/
def policyOf (b : Byte) : Option StopPolicy :=
  if b.toNat = 0 then some .finish else if b.toNat = 1 then some .cut else none

/-- A yes or no value: 0 or 1. -/
def flagOf (b : Byte) : Option Bool :=
  if b.toNat = 0 then some false else if b.toNat = 1 then some true else none

/-- A limit, numbered in the order of the table of R184. -/
def limitOf (b : Byte) : Option LimitName :=
  if b.toNat = 0 then some .lockWindow else if b.toNat = 1 then some .relock
  else if b.toNat = 2 then some .drift else if b.toNat = 3 then some .recover
  else if b.toNat = 4 then some .load else if b.toNat = 5 then some .expose
  else if b.toNat = 6 then some .transit else if b.toNat = 7 then some .reconcile else none

/-- A rights set: PAGES bit 0, PLAN bit 1, ROOM bit 2, MAINT bit 3, other bits 0. -/
def rightsOf (b : Byte) : Option Rights :=
  if b.toNat < 16 then some ⟨b.getLsbD 0, b.getLsbD 1, b.getLsbD 2, b.getLsbD 3⟩ else none

/-- A class set: bit n - 1 for class number n. Every bit of the byte names a class. -/
def classesOf (b : Byte) : Mask :=
  ⟨b.getLsbD 0, b.getLsbD 1, b.getLsbD 2, b.getLsbD 3, b.getLsbD 4, b.getLsbD 5, b.getLsbD 6, b.getLsbD 7⟩

/-- The content a STAGE_POSITION gives, or none where step 1 of R33 refuses it. -/
def contentOf (format : Byte) (pageA : U16) (pageB : Option U16) (sep : Byte) : Option Content :=
  match formatOf format, sepOf sep with
  | some f, some x =>
    if pageA.toNat = 0 then none
    else match f, pageB with
      | .oneUp, none => some ⟨.oneUp, pageA.toNat, none, x⟩
      | .oneUp, some _ => none
      | .twoUp, none => none
      | .twoUp, some b =>
        if b.toNat = 0 then none
        else if b.toNat = pageA.toNat then none
        else some ⟨.twoUp, pageA.toNat, some b.toNat, x⟩
  | _, _ => none

/-- The lane an engine feeds (R72): E0 to E2 feed L0, E3 to E5 feed L1. -/
def laneFed (e : EngineId) : LaneId := if e.val < 3 then 0 else 1

/-- The press and position of a job (R46). -/
def Job.key (j : Job) : PosKey := ⟨j.press, j.pos⟩

/-- The pages that a content names (R23). -/
def Content.pages (c : Content) : List Nat := c.pageA :: c.pageB.toList

end Sys2Proof.Machine
end

