-- ==== Sys2Proof/Machine/Flags.lean ====
section
/-! DEFINITION. Machine/Flags.lean: everything the rules read off the state without changing it: what a
position needs and is, the ready queues, gates, eligibility, lane load, openness, rest. -/

namespace Sys2Proof.Machine

namespace State

/-! ### Positions (R25 to R27) -/

/-- The colour class of a page: absent for a page with no record or an EXPECTED one (R25). -/
def classOfPage (s : State) (n : Nat) : Option ColourClass := (s.page? n).bind PageRec.cls

/-- A page is required for a separation unless it is known to be MONO and the separation is not K (R25). -/
def required (s : State) (sep : Separation) (n : Nat) : Bool :=
  sep = .k || s.classOfPage n != some .mono

/-- The required pages of a content (R25). -/
def requiredPages (s : State) (c : Content) : List Nat := c.pages.filter (s.required c.sep)

/-- None of the pages is required (R25). -/
def unused (s : State) (c : Content) : Bool := s.requiredPages c = []

/-- The page's record has the separation in its arrived set (R2, R26). -/
def arrived (s : State) (sep : Separation) (n : Nat) : Bool :=
  match s.page? n with
  | some r => r.arrived.has sep
  | none => false

/-- The position can be made (R26). -/
def satisfiable (s : State) (c : Content) : Bool :=
  !s.unused c && (s.requiredPages c).all (s.arrived c.sep)

/-- The state of a live job (R49). -/
def jobState (s : State) (n : Nat) : Option JobState := (s.job? n).map Job.state

/-- The attempt of a live job (R46). -/
def attemptOf (s : State) (n : Nat) : Option Nat := (s.job? n).map Job.attempt

/-- A job is live at an attempt. -/
def atAttempt (s : State) (n attempt : Nat) : Bool := s.attemptOf n = some attempt

end State

/-- The status of a position (R27). -/
inductive PosStatus where
  | inWork | racked | mounted | failed | unused | deferred | awaitingPages
  deriving DecidableEq, Repr

/-- The status that a current job's state gives (R27, first four lines). -/
def statusOfState : JobState → PosStatus
  | .racked => .racked
  | .mounted => .mounted
  | .failed => .failed
  | _ => .inWork

namespace State

/-- The status of a position (R27). -/
def status (s : State) (x : Position) : PosStatus :=
  match x.work.current.bind s.jobState with
  | some st => statusOfState st
  | none =>
    if s.unused x.content then .unused
    else if s.satisfiable x.content && x.work.deferred then .deferred
    else .awaitingPages

/-- The position is satisfied: UNUSED, RACKED or MOUNTED (R27). -/
def satisfied (s : State) (x : Position) : Bool :=
  match s.status x with
  | .unused | .racked | .mounted => true
  | _ => false

/-- The live positions of a press, in ascending position number. -/
def positionsOf (s : State) (p : PressId) : List (PosKey × Position) :=
  s.plan.filter fun e => e.1.press = p

/-- The live positions that name a page, in ascending press and position (2.3). -/
def positionsNaming (s : State) (n : Nat) : List PosKey :=
  (s.plan.filter fun e => e.2.content.pages.contains n).map Prod.fst

/-! ### Ready queues (R56) -/

/-- Presses with a start time before those without, by start time (R55, R56). -/
def startBefore (a b : Option Nat) : Bool :=
  match a, b with
  | some x, some y => x < y
  | some _, none => true
  | none, _ => false

/-- The order of the ready queues: the press's start time, then the entry order (R56). -/
def queueBefore (s : State) (a b : Nat × Job) : Bool :=
  let x := (s.press a.2.press).start
  let y := (s.press b.2.press).start
  if x = y then a.2.entryOrder < b.2.entryOrder else startBefore x y

/-- The ready queue of a class, from its front (R56). -/
def readyQueue (s : State) (c : JobClass) : List (Nat × Job) :=
  sortBy s.queueBefore (s.jobs.filter fun e => e.2.state = .queued && e.2.cls = c)

/-- The position of a job is in the live plan and held (R43). -/
def positionHeld (s : State) (j : Job) : Bool :=
  match s.pos? j.key with
  | some x => x.held
  | none => false

/-- The jobs of a queue that are offered to the dispatcher (R80). -/
def offered (s : State) (c : JobClass) : List (Nat × Job) :=
  (s.readyQueue c).filter fun e => !s.positionHeld e.2

/-- A new job of the press is URGENT whatever its origin (R53). -/
def pressUrgent (s : State) (p : PressId) : Bool :=
  (s.press p).state = .running || (s.press p).window

/-! ### Engines (R72 to R86) -/

end State

/-- Held, and no step allowed (R74). -/
def Gates.isHeld (g : Gates) : Bool := g.held && !g.allowance

/-- The engine is starved (R72). -/
def Engine.starved (x : Engine) : Bool := x.cassette.format = none || x.cassette.count = 0

/-- The engine runs and no gate keeps it from taking or exposing work (R74). -/
def Engine.ungated (x : Engine) : Bool :=
  x.status.mode = .running && !x.gates.isHeld && !x.gates.stopped && !x.starved

/-- The engine holds a job (R92). -/
def Contexts.holdsJob (c : Contexts) : Bool := c.current.isSome || c.next.isSome || c.parked.isSome

/-- The next job has been sent EXPOSE (R77). -/
def Contexts.exposeSent (c : Contexts) : Bool :=
  match c.next with
  | some w => w.stage = .exposeSent
  | none => false

/-- The job's number is on the cancel list (R79). -/
def Contexts.cancelled (c : Contexts) (n : Nat) : Bool := c.cancel.any fun x => x.job = n

/-- The next job can be displaced by preemption but for its class (R82). -/
def Contexts.displaceable (c : Contexts) : Bool :=
  match c.next with
  | some w => w.stage ≠ .exposeSent && c.parked.isNone
  | none => false

namespace State

/-- An engine is eligible for a job (R80). -/
def eligible (s : State) (e : EngineId) (n : Nat) (j : Job) : Bool :=
  (s.engine e).ungated
    && (s.engine e).cassette.format = some j.format
    && (j.colourNeed = .mono || (s.register e).state ≠ .drifted)
    && !(s.engine e).ctx.cancelled n

/-- The class of a job in a context (R77). -/
def classOfJob (s : State) (n : Nat) : Option JobClass := (s.job? n).map Job.cls

/-- The engine can be preempted: its next job is NORMAL, not sent EXPOSE, and nothing is parked (R82). -/
def preemptable (s : State) (e : EngineId) : Bool :=
  (s.engine e).ctx.displaceable &&
  match (s.engine e).ctx.next with
  | some w => s.classOfJob w.job = some .normal
  | none => false

/-- The lane load of a lane (R86). -/
def laneLoad (s : State) (l : LaneId) : Nat :=
  (s.lane l).floor.order.length
    + (allEngines.filter fun e => laneFed e = l && (s.engine e).ctx.current.isSome).length
    + (allEngines.filter fun e => laneFed e = l && (s.engine e).ctx.exposeSent).length

/-- The lane room test (R86). -/
def laneRoom (s : State) (l : LaneId) : Bool :=
  s.laneLoad l < Config.laneOrder && !(s.lane l).clearing

/-- Every condition of R85 but the lane room: EXPOSE can be sent for the next job. -/
def exposeReady (s : State) (e : EngineId) : Bool :=
  (s.engine e).ungated && (s.engine e).ctx.current.isNone &&
  match (s.engine e).ctx.next with
  | some w => w.stage = .loaded
  | none => false

/-- The next job of an engine is URGENT (R86). -/
def nextUrgent (s : State) (e : EngineId) : Bool :=
  match (s.engine e).ctx.next with
  | some w => s.classOfJob w.job = some .urgent
  | none => false

/-- The engine of a lane that is granted room first: an URGENT next job, then the lowest number (R86). -/
def exposeChoice (s : State) (l : LaneId) : Option EngineId :=
  let ready := allEngines.filter fun e => laneFed e = l && s.exposeReady e
  match ready.filter s.nextUrgent with
  | e :: _ => some e
  | [] => ready.head?

/-! ### The colour-starved condition (R106) -/

/-- The RUNNING engines. R110 has COLOUR_STARVED carry their list and gives it no order: the model lists them in
ascending engine number (DESIGN CHOICE, log 44). -/
def runningEngines (s : State) : List EngineId :=
  allEngines.filter fun e => (s.engine e).status.mode = .running

/-- The number of COLOUR jobs QUEUED. -/
def colourQueued (s : State) : Nat :=
  (s.jobs.filter fun e => e.2.state = .queued && e.2.colourNeed = .colour).length

/-- The colour-starved condition (R106). -/
def colourStarvedNow (s : State) : Bool :=
  s.runningEngines ≠ [] && s.runningEngines.all (fun e => (s.register e).state = .drifted)
    && s.colourQueued ≠ 0

end State

/-! ### Lanes and the sorter (R111, R125 to R128) -/

/-- The lane is open (R111). -/
def Lane.isOpen (x : Lane) : Bool := !x.lost && !x.gates.stopped && !x.gates.isHeld

/-- The lane is open only through its step allowance (R120, R127). -/
def Lane.byStep (x : Lane) : Bool := x.gates.held && x.gates.allowance

/-- The sorter is free (R125). -/
def Sorter.isFree (x : Sorter) : Bool := x.delivery.isNone && !x.lost && (!x.held || x.allowance)

/-- The head of inspection: the first entry at stage IN_DEVELOPER (R112). -/
def headOf (order : List LaneEntry) : Option LaneEntry := order.find? fun x => x.stage = .inDeveloper

namespace State

/-- The destination of a plate at a lane exit (R126). -/
def destinationOf (s : State) (j : Job) : Option Destination :=
  if j.superseded then some .rejectBin
  else if (s.rack j.key).length < Config.rackSlot then some (.rackSlot j.press j.pos)
  else if (s.shelf j.press).length < Config.shelf then some (.shelf j.press)
  else none

/-- The exit request of a lane that is open, at stage AT_EXIT, with its job's record (R127). -/
def exitJob (s : State) (l : LaneId) : Option (Nat × Job) :=
  match (s.lane l).floor.exit with
  | none => none
  | some n =>
    if (s.lane l).isOpen && (s.lane l).floor.order.any (fun x => x.job = n && x.stage = .atExit) then
      (s.job? n).map fun j => (n, j)
    else none

/-- A lane is a candidate (R127): its job and destination. -/
def candidate (s : State) (l : LaneId) : Option (Nat × Job × Destination) :=
  match s.exitJob l with
  | none => none
  | some (n, j) => (s.destinationOf j).map fun d => (n, j, d)

/-- The lane that the free sorter grants (R127). -/
def grantChoice (s : State) : Option (LaneId × Nat × Job × Destination) :=
  match s.candidate 0, s.candidate 1 with
  | none, none => none
  | some x, none => some (0, x)
  | none, some y => some (1, y)
  | some x, some y =>
    if x.2.1.cls = .urgent ∧ y.2.1.cls = .normal then some (0, x)
    else if x.2.1.cls = .normal ∧ y.2.1.cls = .urgent then some (1, y)
    else if s.sorter.lastServed = some 0 then some (1, y)
    else some (0, x)

/-! ### Rest (R160) -/

/-- The engine has come to rest (R160). -/
def engineAtRest (s : State) (e : EngineId) : Bool :=
  (s.engine e).ctx.current.isNone && !(s.engine e).ctx.exposeSent

end State

/-- The window time of a start time and a lead (R146). -/
def windowTime (start lead : Nat) : Nat := start - 60 * lead

/-- The state that the counts give a press that is not RUNNING (R141). -/
def stateOfCounts (positions unsatisfied : Nat) : PressState :=
  if positions = 0 then .idle else if unsatisfied = 0 then .ready else .makeready

end Sys2Proof.Machine
end

