-- ==== Sys2Proof/Machine/Formats.lean ====
section
/-! DEFINITION. Machine/Formats.lean: every layout of 10.7: the numbers of enumerations and notices,
the bytes of a body field, the fields of each notice, the check, the bytes of a frame, and the
reading of a request's body. -/

namespace Sys2Proof.Machine

/-! ### Enumerations (R187): numbered from 0 in the order of the owning table or of 10.7 -/

/-- R1. -/
def classCode : Option ColourClass → Nat
  | some .mono => 0 | some .colour => 1 | none => 255
/-- R23, R75. -/
def formatCode : Option PlateFormat → Nat
  | some .oneUp => 0 | some .twoUp => 1 | none => 255
/-- R2. -/
def pageStateCode : PageState → Nat
  | .expected => 0 | .partly => 1 | .complete => 2 | .withdrawn => 3
/-- R46. -/
def jobClassCode : JobClass → Nat
  | .normal => 0 | .urgent => 1
/-- R46. -/
def originCode : Origin → Nat
  | .first => 0 | .remake => 1
/-- 10.7. -/
def jobStateCode : JobState → Nat
  | .queued => 0 | .assigned => 1 | .exposing => 2 | .developing => 3 | .finishing => 4
  | .racked => 5 | .mounted => 6 | .failed => 7 | .uncertain => 8
  | .retired => 9 | .cancelled => 10 | .discarded => 11
/-- 10.7. -/
def requeueCode : RequeueReason → Nat
  | .fault => 0 | .engineFaulted => 1 | .colourEvicted => 2 | .promoted => 3
  | .rasterReplaced => 4 | .requeuedByRoom => 5
/-- 10.7. -/
def effectCode : SupersedeEffect → Nat
  | .cancelled => 0 | .flagged => 1 | .pullRequired => 2 | .changeRequired => 3
/-- 10.7. -/
def placeCode : PlatePlace → Nat
  | .rackSlot => 0 | .shelf => 1 | .onPress => 2
/-- R27. -/
def statusCode : PosStatus → Nat
  | .inWork => 0 | .racked => 1 | .mounted => 2 | .failed => 3 | .unused => 4 | .deferred => 5
  | .awaitingPages => 6
/-- The stages of R47. -/
def faultStageCode : FaultCause → Nat
  | .rasterUnreadable | .loadFault _ | .loadTimeout => 0
  | .exposeFault | .exposeInterrupted | .exposeTimeout => 1
  | .transitTimeout => 2
  | .tagUnreadable | .missingFromLane | .registerReject => 3
  | .punchFault => 4
  | .sortFault => 5
  | .cut => 6
  | .contextLost | .plateNotFound => 7
/-- The causes of R47. -/
def faultCauseCode : FaultCause → Nat
  | .rasterUnreadable => 0 | .loadFault _ => 1 | .loadTimeout => 2
  | .exposeFault => 3 | .exposeInterrupted => 4 | .exposeTimeout => 5
  | .transitTimeout => 6
  | .tagUnreadable => 7 | .missingFromLane => 8 | .registerReject => 9
  | .punchFault => 10
  | .sortFault => 11
  | .cut => 12
  | .contextLost => 13 | .plateNotFound => 14
/-- R73. -/
def modeCode : EngineMode → Nat
  | .offline => 0 | .running => 1 | .faulted => 2 | .lockedOut => 3
/-- 10.7. -/
def engineFaultCode : EngineFaultCause → Nat
  | .loadFault => 0 | .loadTimeout => 1 | .exposeFault => 2 | .exposeInterrupted => 3
  | .exposeTimeout => 4 | .protocol => 5 | .cassetteChanged => 6 | .linkLost => 7
  | .engineRestarted => 8
/-- R77. -/
def loadStageCode : LoadStage → Nat
  | .loadSent => 0 | .loaded => 1 | .exposeSent => 2
/-- R98. -/
def registerCode : RegisterState → Nat
  | .tracking => 0 | .locked => 1 | .drifted => 2
/-- R112. -/
def laneStageCode : LaneStage → Nat
  | .inDeveloper => 0 | .punching => 1 | .bent => 2 | .atExit => 3 | .granted => 4
/-- 10.7. -/
def strayCode : StrayReason → Nat
  | .unreadable => 0 | .notInOrder => 1 | .pastInspection => 2 | .attemptMismatch => 3
/-- R127, in the order in which it lists the destinations. -/
def destinationCode : Destination → Nat
  | .rackSlot .. => 0 | .shelf _ => 1 | .rejectBin => 2
/-- R140. -/
def pressStateCode : PressState → Nat
  | .idle => 0 | .makeready => 1 | .ready => 2 | .running => 3
/-- R151. -/
def lineStateCode : LineState → Nat
  | .running => 0 | .stopping => 1 | .stopped => 2
/-- R151. -/
def policyCode : StopPolicy → Nat
  | .finish => 0 | .cut => 1
/-- R163. -/
def resetCode : ResetKind → Nat
  | .powerOn => 0 | .lineReset => 1 | .softReset => 2
/-- 10.7: CLEAR and COMPLETE are first, then REQUESTED, TIMEOUT. -/
def endCode : EndCause → Nat
  | .complete => 0 | .requested => 1 | .timeout => 2
/-- R184. -/
def limitCode : LimitName → Nat
  | .lockWindow => 0 | .relock => 1 | .drift => 2 | .recover => 3 | .load => 4 | .expose => 5
  | .transit => 6 | .reconcile => 7
/-- R179. -/
def answerCode : AnswerCode → Nat
  | .ok => 0 | .badFrame => 1 | .refusedBusy => 2 | .refusedRights => 3 | .badValue => 4
  | .notFound => 5 | .staleVersion => 6 | .duplicate => 7 | .wrongSeparation => 8
  | .registerFull => 9 | .storeFull => 10 | .stageHeld => 11 | .pressRunning => 12
  | .notReady => 13 | .noPlate => 14 | .wrongState => 15 | .lastMaint => 16
/-- The place of a report in the list of Config.laneReportByte. -/
def laneReportNumber : LaneReportKind → Nat
  | .atInspect => 0 | .punchedBent => 1 | .punchFault => 2 | .atExit => 3 | .clear => 4
  | .sorted => 5 | .sortFault => 6
/-- R187. -/
def unitCode : UnitId → Nat
  | .engine e => e.val | .lane l => 6 + l.val | .sorter => 8
/-- R187. -/
def noticeClassNumber : NoticeClass → Nat
  | .page => 1 | .position => 2 | .plate => 3 | .engine => 4 | .lane => 5 | .press => 6
  | .register => 7 | .system => 8

/-! ### Bytes of integers -/

/-- One byte. -/
def byteOf (n : Nat) : Byte := BitVec.ofNat 8 n
/-- Two bytes, low byte first. -/
def bytes16 (w : U16) : List Byte := [w.extractLsb' 0 8, w.extractLsb' 8 8]
/-- Four bytes, low byte first. -/
def bytes32 (w : U32) : List Byte :=
  [w.extractLsb' 0 8, w.extractLsb' 8 8, w.extractLsb' 16 8, w.extractLsb' 24 8]
/-- A yes or no value. -/
def flagByte (b : Bool) : Byte := if b then 1 else 0
/-- An axis of an offset: signed two's complement. -/
def axisBytes (i : Int) : List Byte := bytes16 (BitVec.ofInt 16 i)
/-- An offset: dx then dy. -/
def offsetBytes (o : Offset) : List Byte := axisBytes o.dx ++ axisBytes o.dy
/-- A byte from eight yes or no values, bit 0 first. -/
def bitsByte (b0 b1 b2 b3 b4 b5 b6 b7 : Bool) : Byte :=
  byteOf (b0.toNat + 2 * b1.toNat + 4 * b2.toNat + 8 * b3.toNat + 16 * b4.toNat + 32 * b5.toNat
    + 64 * b6.toNat + 128 * b7.toNat)

/-- The detail byte of a fault record (R187). -/
def faultDetail (f : FaultRecord) : Byte :=
  match f.cause, f.param with
  | .loadFault c, _ => c
  | .registerReject, .offset _ => 1
  | _, _ => 0

/-- The parameter of a fault record in its unit form: the unit in the first byte (R187). -/
def unitParameter (u : UnitId) : List Byte :=
  [byteOf (unitCode u), Config.faultParameterRest.1, Config.faultParameterRest.2.1,
    Config.faultParameterRest.2.2]

/-- The 4-byte parameter of a fault record (R187). -/
def faultParameter : FaultParam → List Byte
  | .offset o => offsetBytes o
  | .engine e => unitParameter (.engine e)
  | .lane l => unitParameter (.lane l)

/-- The 11 bytes of a fault record (R187). -/
def faultBytes (f : FaultRecord) : List Byte :=
  [byteOf (faultStageCode f.cause), byteOf (faultCauseCode f.cause), faultDetail f]
    ++ faultParameter f.param ++ bytes32 (BitVec.ofNat 32 f.time)

/-- The bytes of a body field (R187). -/
def Field.bytes : Field → List Byte
  | .pageId n | .jobNumber n | .leadTime n | .limitValue n | .remaining n | .count n | .tagCheck n =>
    bytes16 (BitVec.ofNat 16 n)
  | .version n | .edition n | .attempt n | .enum n | .listLen n => [byteOf n]
  | .absentNumber => [Config.absentNumberByte]
  | .absentJob => [Config.absentJobBytes.1, Config.absentJobBytes.2]
  | .press p => [byteOf p.val]
  | .position p => [byteOf p.val]
  | .plantTime n => bytes32 (BitVec.ofNat 32 n)
  | .offset o => offsetBytes o
  | .unit u => [byteOf (unitCode u)]
  | .port p => [byteOf p.val]
  | .flag b | .present b => [flagByte b]
  | .rights r => [bitsByte r.pages r.plan r.room r.maint false false false false]
  | .classes m => [bitsByte m.page m.position m.plate m.engine m.lane m.press m.register m.system]
  | .fault f => faultBytes f
  | .sepSet x => [Config.separationSetByte x.k x.c x.m x.y]
  | .slotRef k => Config.slotReferenceBytes k.page k.version (sepNumber k.sep)
  | .laneReport r => [Config.laneReportByte (laneReportNumber r)]
  | .exitNeither => [Config.exitNeitherByte]

/-! ### Fields that may be absent, and lists (R187) -/

/-- An optional field. -/
def optField : Option Field → List Field
  | some f => [.present true, f]
  | none => [.present false]

/-- An optional group of fields. -/
def optFields : Option (List Field) → List Field
  | some l => .present true :: l
  | none => [.present false]

/-- A version or edition that the owning rule does not call optional. -/
def numberField (f : Nat → Field) : Option Nat → Field
  | some n => f n
  | none => .absentNumber

/-- A list: its count, then its elements. -/
def listField (l : List Field) : List Field := .listLen l.length :: l

/-- Press and position. -/
def keyFields (k : PosKey) : List Field := [.press k.press, .position k.pos]

/-- The tag of a STRAY_PLATE (R188). -/
def tagFields : TagRead → List Field
  | .unreadable => [.enum 1]
  | .read t =>
    [.enum 0, .jobNumber t.job.toNat, .tagCheck t.check.toNat, .attempt t.attempt.toNat,
      .press t.press, .position t.position]

/-- The four reconcile counts (R163). -/
def countFields (c : ReconcileCounts) : List Field :=
  [.count c.uncertain, .count c.reclaimed, .count c.requeued, .count c.discarded]

/-- The six counts of a commit (R41). -/
def commitFields (c : CommitCounts) : List Field :=
  [.count c.unchanged, .count c.changed, .count c.added, .count c.removed, .count c.newPages,
    .count c.deferred]

/-! ### Notices -/

/-- A notice's number within its class (R187): the order of the notice tables, chapter by chapter. -/
def Notice.number : Notice → Nat
  | .pageComplete .. => 1 | .pageRevised .. => 2 | .pageWithdrawn .. => 3 | .pageRemoved .. => 4
  | .rasterBad .. => 5 | .rasterReplaced .. => 6
  | .stageClaimed .. => 1 | .stageDiscarded .. => 2 | .planCommitted .. => 3 | .positionHeld .. => 4
  | .positionReleased .. => 5 | .positionDeferred .. => 6 | .positionFailed .. => 7
  | .jobCreated .. => 1 | .jobRequeued .. => 2 | .jobSpoiled .. => 3 | .jobSuperseded .. => 4
  | .jobEnded .. => 5 | .pullRequired .. => 6 | .rackBlocked .. => 7 | .plateRacked .. => 8
  | .plateMounted .. => 9 | .plateUnmounted .. => 10
  | .engineOnline .. => 1 | .engineFault .. => 2 | .engineLockedOut .. => 3 | .engineOffline .. => 4
  | .engineCleared .. => 5 | .engineRestored .. => 6 | .cassetteEmpty .. => 7
  | .unitHeld (.engine _) => 8 | .unitReleased (.engine _) _ => 9 | .unitStepped (.engine _) => 10
  | .lineStopping .. => 11 | .lineStopped .. => 12 | .lineResumed .. => 13
  | .strayPlate .. => 1 | .laneProtocol .. => 2
  | .unitHeld _ => 3 | .unitReleased _ _ => 4 | .unitStepped _ => 5
  | .laneCleared .. => 6
  | .changeRequired .. => 1 | .pressReady .. => 2 | .pressUnready .. => 3 | .pressStarted .. => 4
  | .pressStopped .. => 5 | .pressScheduled .. => 6 | .deadlineWindow .. => 7 | .pressLate .. => 8
  | .registerLocked .. => 1 | .registerRelock .. => 2 | .registerDrifted .. => 3
  | .registerRestored .. => 4 | .registerRearmed .. => 5 | .colourStarved .. => 6
  | .clockSet .. => 1 | .restarted .. => 2 | .reconcileEnded .. => 3 | .rightsChanged .. => 4
  | .limitSet .. => 5

/-- A notice's kind: its class number times 256 plus its number within the class (R187). -/
def Notice.kind (n : Notice) : U16 := BitVec.ofNat 16 (noticeClassNumber n.cls * 256 + n.number)

/-- A notice's fields, in the order its table lists them. R157 gives LINE_STOPPING the stop policy of every unit and
R187 no layout of it: the model sends nine policy bytes in unit number order (E0 to E5, L0, L1, the sorter with its
fixed FINISH), with no count byte before them (DESIGN CHOICE, log 44). -/
def Notice.fields : Notice → List Field
  | .pageComplete p v c => [.pageId p, .version v, .enum (classCode (some c))]
  | .pageRevised p o n c => [.pageId p, .version o, .version n, .enum (classCode (some c))]
  | .pageWithdrawn p v n => [.pageId p, numberField .version v, .count n]
  | .pageRemoved p v => [.pageId p, numberField .version v]
  | .rasterBad k j e =>
    [.pageId k.page, .version k.version, .enum (sepNumber k.sep), .jobNumber j, .unit (.engine e)]
  | .rasterReplaced k => [.pageId k.page, .version k.version, .enum (sepNumber k.sep)]
  | .stageClaimed p h => [.press p, .port h]
  | .stageDiscarded p f b => [.press p, .port f, .port b]
  | .planCommitted p e c b => [.press p, .edition e] ++ commitFields c ++ [.port b]
  | .positionHeld k j | .positionReleased k j => keyFields k ++ optField (j.map .jobNumber)
  | .positionDeferred k => keyFields k
  | .positionFailed k j a f => keyFields k ++ [.jobNumber j, .attempt a, .fault f]
  | .jobCreated j k c o n =>
    [.jobNumber j] ++ keyFields k
      ++ [.enum (jobClassCode c), .enum (originCode o), .enum (classCode (some n))]
  | .jobRequeued j a r f =>
    [.jobNumber j, .attempt a, .enum (requeueCode r)] ++ optField (f.map .fault)
  | .jobSpoiled j a f => [.jobNumber j, .attempt a, .fault f]
  | .jobSuperseded j k st x =>
    [.jobNumber j] ++ keyFields k ++ [.enum (jobStateCode st), .enum (effectCode x)]
  | .jobEnded j k st f =>
    [.jobNumber j] ++ keyFields k ++ [.enum (jobStateCode st)] ++ optField (f.map .fault)
  | .pullRequired j k pl => [.jobNumber j] ++ keyFields k ++ [.enum (placeCode pl)]
  | .rackBlocked l j k => [.unit (.lane l), .jobNumber j] ++ keyFields k
  | .plateRacked j k pl b => [.jobNumber j] ++ keyFields k ++ [.enum (placeCode pl), .flag b]
  | .plateMounted k j r => keyFields k ++ [.jobNumber j] ++ optField (r.map .jobNumber)
  | .plateUnmounted k j => keyFields k ++ [.jobNumber j]
  | .engineOnline e m b => [.unit (.engine e), .enum (modeCode m), .flag b]
  | .engineFault e c j | .engineLockedOut e c j =>
    [.unit (.engine e), .enum (engineFaultCode c)] ++ optField (j.map .jobNumber)
  | .engineOffline e n => [.unit (.engine e), .count n]
  | .engineCleared e m | .engineRestored e m => [.unit (.engine e), .enum (modeCode m)]
  | .cassetteEmpty e f => [.unit (.engine e), .enum (formatCode f)]
  | .unitHeld u | .unitStepped u => [.unit u]
  | .unitReleased u b => [.unit u, .flag b]
  | .lineStopping es ls =>
    (es ++ ls).map (fun p => .enum (policyCode p)) ++ [.enum (policyCode .finish)]
  | .lineStopped t => [.plantTime t]
  | .lineResumed st => [.enum (lineStateCode st)]
  | .strayPlate l t r => [.unit (.lane l)] ++ tagFields t ++ [.enum (strayCode r)]
  | .laneProtocol u r (some (j, a)) => [.unit u, .laneReport r, .jobNumber j, .attempt a]
  | .laneProtocol u r none => [.unit u, .laneReport r, .absentJob, .absentNumber]
  | .laneCleared l c => [.unit (.lane l), .enum (endCode c)]
  | .changeRequired j k => [.jobNumber j] ++ keyFields k
  | .pressReady p e n => [.press p, numberField .edition e, .count n]
  | .pressUnready p n => [.press p, .count n]
  | .pressStarted p e n f l => [.press p, numberField .edition e, .count n, .flag f, .flag l]
  | .pressStopped p st => [.press p, .enum (pressStateCode st)]
  | .pressScheduled p t l => [.press p] ++ optField (t.map .plantTime) ++ [.leadTime l]
  | .deadlineWindow p t w n => [.press p, .plantTime t, .plantTime w, .count n]
  | .pressLate p st t n => [.press p, .enum (pressStateCode st), .plantTime t, .count n]
  | .registerLocked e c | .registerRestored e c => [.unit (.engine e), .offset c]
  | .registerRelock e d c => [.unit (.engine e), .offset d, .offset c]
  | .registerDrifted e m d n => [.unit (.engine e), .offset m, .offset d, .count n]
  | .registerRearmed e st => [.unit (.engine e), .enum (registerCode st)]
  | .colourStarved es n => listField (es.map fun e => .unit (.engine e)) ++ [.count n]
  | .clockSet o n => [.plantTime o, .plantTime n]
  | .restarted k n b => [.enum (resetCode k), .count n, .enum b.toNat]
  | .reconcileEnded c n => [.enum (endCode c)] ++ countFields n
  | .rightsChanged p b a q => [.port p, .rights b, .rights a, .port q]
  | .limitSet l ln b a =>
    [.enum (limitCode l)] ++ optField (ln.map fun l => .unit (.lane l)) ++ [.limitValue b, .limitValue a]

/-! ### Answers (R178) -/

/-- An answer of the code alone. -/
def bare (c : AnswerCode) : Answer := ⟨c, []⟩

/-- An OK answer with its fields. -/
def okWith (l : List Field) : Answer := ⟨.ok, l⟩

/-! ### Frames (R176, R187) -/

/-- One bit of the check (R176). -/
def crcBit (r : U16) : U16 := if r.getLsbD 15 then (r <<< 1) ^^^ 0x1021#16 else r <<< 1

/-- One byte of the check, most significant bit first (R176). -/
def crcByte (r : U16) (b : Byte) : U16 :=
  crcBit (crcBit (crcBit (crcBit (crcBit (crcBit (crcBit (crcBit (r ^^^ (b.setWidth 16 <<< 8)))))))))

/-- The check of R176: CRC-16, polynomial 0x1021, initial value 0xFFFF. -/
def crc (bytes : List Byte) : U16 := bytes.foldl crcByte 0xFFFF#16

/-- The bytes that the check covers: length, type, tag, kind and body (R176). -/
def coveredBytes (length : U16) (typ tag : Byte) (kind : U16) (body : List Byte) : List Byte :=
  bytes16 length ++ [typ, tag] ++ bytes16 kind ++ body

/-- The type, tag and kind of a frame the part sends (R187). -/
def OutFrame.header : OutFrame → Byte × Byte × U16
  | .answer tag kind _ => (2, tag, kind)
  | .notice _ n => (3, 0, n.kind)
  | .overrun _ => (4, 0, 0)

/-- The bytes of a list of fields. -/
def fieldBytes (l : List Field) : List Byte := (l.map Field.bytes).flatten

/-- The body of a frame the part sends (R187). -/
def OutFrame.body : OutFrame → List Byte
  | .answer _ _ a => byteOf (answerCode a.code) :: fieldBytes a.fields
  | .notice t n => bytes32 (BitVec.ofNat 32 t) ++ fieldBytes n.fields
  | .overrun t => bytes32 (BitVec.ofNat 32 t)

/-- The bytes of a frame the part sends: sync, header, body, check (R187). -/
def OutFrame.bytes (f : OutFrame) : List Byte :=
  let covered := coveredBytes (BitVec.ofNat 16 f.body.length) f.header.1 f.header.2.1 f.header.2.2 f.body
  Config.sync :: covered ++ bytes16 (crc covered)

/-- The type of a REQUEST frame (R187). -/
def requestType : Byte := 1

/-- A frame is bad: its length is above 1024, its type is not REQUEST, or its check fails (R176). -/
def frameBad (f : Frame) : Bool :=
  decide (f.length.toNat > Config.maxBody) || f.typ != requestType
    || f.check != crc (coveredBytes f.length f.typ f.tag f.kind f.body)

/-! ### Request bodies (R178 step 3, R185, R187) -/

/-- An optional field at the front of a body: its value, and the rest of the body. -/
def takeOptional {α : Type} (value : List Byte → Option (α × List Byte)) :
    List Byte → Option (Option α × List Byte)
  | b :: rest =>
    if b.toNat = 0 then some (none, rest)
    else if b.toNat = 1 then (value rest).map fun x => (some x.1, x.2)
    else none
  | [] => none

/-- One byte at the front of a body. -/
def take8 : List Byte → Option (Byte × List Byte)
  | a :: rest => some (a, rest)
  | _ => none
/-- Two bytes at the front of a body. -/
def take16 : List Byte → Option (U16 × List Byte)
  | a :: b :: rest => some (le16 a b, rest)
  | _ => none
/-- Four bytes at the front of a body. -/
def take32 : List Byte → Option (U32 × List Byte)
  | a :: b :: c :: d :: rest => some (le32 a b c d, rest)
  | _ => none

/-- The body of STAGE_POSITION. -/
def readStagePosition : List Byte → Option Request
  | p :: q :: f :: a :: b :: rest =>
    match takeOptional take16 rest with
    | some (pageB, [sep]) => some (.stagePosition p q f (le16 a b) pageB sep)
    | _ => none
  | _ => none

/-- The body of SET_PRESS_SCHEDULE. -/
def readSchedule : List Byte → Option Request
  | p :: rest =>
    match takeOptional take32 rest with
    | some (start, [a, b]) => some (.setPressSchedule p start (le16 a b))
    | _ => none
  | _ => none

/-- The body of SET_LIMITS. -/
def readLimits : List Byte → Option Request
  | l :: a :: b :: rest =>
    match takeOptional take8 rest with
    | some (lane, []) => some (.setLimits l (le16 a b) lane)
    | _ => none
  | _ => none

/-- The request that a body holds for a kind 1 to 37, if it has the shape of the kind (R185). -/
def readBody (kind : Nat) (body : List Byte) : Option Request :=
  match kind, body with
  | 1, [p0, p1, v, c, x, r0, r1, r2, r3, r4, r5, r6, r7] =>
    some (.separationArrived (le16 p0 p1) v c x (le64 r0 r1 r2 r3 r4 r5 r6 r7))
  | 2, [p0, p1] => some (.withdrawPage (le16 p0 p1))
  | 3, b => readStagePosition b
  | 4, [p, q] => some (.clearStagedPosition p q)
  | 5, [p] => some (.discardStage p)
  | 6, [p, e] => some (.commitPlan p e)
  | 7, [p, q] => some (.holdPosition p q)
  | 8, [p, q] => some (.releasePosition p q)
  | 9, [p, q] => some (.requeuePosition p q)
  | 10, [e] => some (.clearEngineFault e)
  | 11, [e] => some (.restoreEngine e)
  | 12, [e] => some (.rearmRegister e)
  | 13, [p, q] => some (.pullConfirm p q)
  | 14, [p, q] => some (.mount p q)
  | 15, [p, q] => some (.unmount p q)
  | 16, [p, f] => some (.pressStart p f)
  | 17, [p] => some (.pressStop p)
  | 18, [a, b, c, d] => some (.setClock (le32 a b c d))
  | 19, b => readSchedule b
  | 20, [u] => some (.hold u)
  | 21, [u] => some (.release u)
  | 22, [u] => some (.step u)
  | 23, [u, p] => some (.setStopPolicy u p)
  | 24, [] => some .lineStop
  | 25, [] => some .lineResume
  | 26, [] => some .reconcileEnd
  | 27, [] => some .softReset
  | 28, [p, r] => some (.setRights p r)
  | 29, [c] => some (.setNoticeMask c)
  | 30, b => readLimits b
  | 31, [p0, p1] => some (.queryPage (le16 p0 p1))
  | 32, [p, q] => some (.queryPosition p q)
  | 33, [j0, j1] => some (.queryJob (le16 j0 j1))
  | 34, [e] => some (.queryEngine e)
  | 35, [u] => some (.queryLane u)
  | 36, [p] => some (.queryPress p)
  | 37, [] => some .queryPart
  | _, _ => none

/-- The kinds of the request summary: 1 to 37 (R185). -/
def knownKind (kind : U16) : Bool := decide (1 ≤ kind.toNat) && decide (kind.toNat ≤ 37)

/-- What a received body holds (R178, steps 1 and 3). -/
def readRequest (kind : U16) (body : List Byte) : RequestContent :=
  if knownKind kind then
    match readBody kind.toNat body with
    | some r => .sound r
    | none => .malformed
  else .unknownKind

/-- The kind of a request (R185). -/
def Request.kind : Request → U16
  | .separationArrived .. => 1 | .withdrawPage .. => 2 | .stagePosition .. => 3
  | .clearStagedPosition .. => 4 | .discardStage .. => 5 | .commitPlan .. => 6
  | .holdPosition .. => 7 | .releasePosition .. => 8 | .requeuePosition .. => 9
  | .clearEngineFault .. => 10 | .restoreEngine .. => 11 | .rearmRegister .. => 12
  | .pullConfirm .. => 13 | .mount .. => 14 | .unmount .. => 15 | .pressStart .. => 16
  | .pressStop .. => 17 | .setClock .. => 18 | .setPressSchedule .. => 19 | .hold .. => 20
  | .release .. => 21 | .step .. => 22 | .setStopPolicy .. => 23 | .lineStop => 24
  | .lineResume => 25 | .reconcileEnd => 26 | .softReset => 27 | .setRights .. => 28
  | .setNoticeMask .. => 29 | .setLimits .. => 30 | .queryPage .. => 31 | .queryPosition .. => 32
  | .queryJob .. => 33 | .queryEngine .. => 34 | .queryLane .. => 35 | .queryPress .. => 36
  | .queryPart => 37

/-- The right that a kind needs is among a port's rights (R178 step 2, R185). -/
def kindAllowed (kind : U16) (r : Rights) : Bool :=
  match kind.toNat with
  | 1 | 2 => r.pages
  | 5 => r.plan || r.maint
  | 3 | 4 | 6 | 14 | 15 | 16 | 17 | 18 | 19 => r.plan
  | 7 | 8 | 9 | 10 | 12 | 13 | 20 | 21 | 22 | 23 | 24 | 25 | 26 => r.room
  | 11 | 27 | 28 | 30 => r.maint
  | _ => true

end Sys2Proof.Machine
end

