-- ==== Sys2Proof/Machine/Jobs.lean ====
section
/-! DEFINITION. Machine/Jobs.lean: the job table's own operations (chapter 3) with what they do in the
raster table, the page register, the plate book and the press counts: references, numbers,
creation, the need test, the first four steps of a departure, returns to the queue. None of them
sets the dispatcher going: Machine/Reactions.lean does. -/

namespace Sys2Proof.Machine

open State

/-! ### Raster references (R8, R58) -/

/-- A state in which a job holds its references (R49, R58). -/
def JobState.holdsRefs : JobState → Bool
  | .queued | .assigned | .exposing | .failed | .uncertain => true
  | _ => false

/-- Free a slot whose count is 0 and whose current flag is clear (R8). -/
def freeIfDone (k : SlotKey) (s : State) : State :=
  match s.slot? k with
  | some x => if x.count = 0 && !x.current then s.dropSlot k else s
  | none => s

/-- Take one reference on a slot (R8). -/
def takeRef (k : SlotKey) (s : State) : State := s.modCount k (· + 1)

/-- Release one reference on a slot; a slot brought to 0 with its flag clear is freed (R8). -/
def releaseRef (k : SlotKey) (s : State) : State := freeIfDone k (s.modCount k (· - 1))

/-- Take one reference on each slot a job names (R58). -/
def takeRefs (ks : List SlotKey) (s : State) : State := ks.foldl (fun s k => takeRef k s) s

/-- Release the reference on each slot a job names (R58). -/
def releaseRefs (ks : List SlotKey) (s : State) : State := ks.foldl (fun s k => releaseRef k s) s

/-! ### Press counts (R140, R141) -/

/-- A press that is not RUNNING takes its state from its counts (R141). -/
def evalPress (p : PressId) (s : State) : State :=
  let x := s.press p
  let st := stateOfCounts x.positions x.unsatisfied
  if x.state = .running || x.state = st then s
  else
    let s := s.setPressState p st
    match x.state, st with
    | _, .ready => raise (.pressReady p x.edition x.positions) s
    | .ready, .makeready => raise (.pressUnready p x.unsatisfied) s
    | _, _ => s

/-- The plate book tells the press schedule that a position has become satisfied or has stopped
being satisfied, if it has (R27, R140). -/
def tellSatisfied (k : PosKey) (s : State) : State :=
  match s.pos? k with
  | none => s
  | some x =>
    let now := s.satisfied x
    if x.work.satisfied = now then s
    else
      let n := (s.press k.press).unsatisfied
      evalPress k.press
        ((s.modWork k fun w => { w with satisfied := now }).setUnsatisfied k.press
          (if now then n - 1 else n + 1))

/-- The same for each of some positions, in order. -/
def tellAll (ks : List PosKey) (s : State) : State := ks.foldl (fun s k => tellSatisfied k s) s

/-! ### Page records (R3, R20) -/

/-- The slots in use of a page, at any version (R20). -/
def slotsOfPage (s : State) (n : Nat) : List SlotKey :=
  (s.slots.filter fun e => e.1.page = n).map Prod.fst

/-- Remove a page record (R20): every slot that still names the page is freed. -/
def removePage (n : Nat) (r : PageRec) (s : State) : State :=
  let s := (slotsOfPage s n).foldl (fun s k => s.dropSlot k) s
  raise (.pageRemoved n r.version) (s.dropPage n)

/-- The live-job count of a page falls by 1; a WITHDRAWN record that reaches 0 is removed (R3, R20). -/
def lowerLive (n : Nat) (s : State) : State :=
  let s := s.modLive n (· - 1)
  match s.page? n with
  | some r => if r.state = .withdrawn && r.liveJobs = 0 then removePage n r s else s
  | none => s

/-! ### Numbers (R48) -/

/-- The number after a job number: 1 after 65535. -/
def numberAfter (n : Nat) : Nat := if n < Config.maxJobNumber then n + 1 else 1

/-- The first number from `n` on that no live job holds, skipping at most `fuel`. -/
def freeNumber (jobs : Table Nat Job) : Nat → Nat → Nat
  | 0, n => n
  | fuel + 1, n => if thas jobs n then freeNumber jobs fuel (numberAfter n) else n

/-- The number that the next job takes (R48): as many numbers can be skipped as jobs are live. -/
def nextNumber (s : State) : Nat := freeNumber s.jobs s.jobs.length (numberAfter s.lastJob)

/-! ### Colour starvation (R106) -/

/-- Evaluate the colour-starved condition (R106). -/
def evalStarved (s : State) : State :=
  if s.colourStarvedNow then
    if s.starved then s
    else raise (.colourStarved s.runningEngines s.colourQueued) (s.setStarved true)
  else s.setStarved false

/-! ### Creation (R51 to R54) -/

/-- The current version of a page; every page that a job names has one (R46). -/
def versionOf (s : State) (n : Nat) : Nat := ((s.page? n).bind PageRec.version).getD 0

/-- The record of a new job of a position (R51, step 2). -/
def newJob (s : State) (k : PosKey) (x : Position) : Job where
  press := k.press
  pos := k.pos
  pages := x.content.pages.map fun n => (n, versionOf s n)
  sep := x.content.sep
  format := x.content.format
  colourNeed := if x.content.pages.any (fun n => s.classOfPage n = some .colour) then .colour else .mono
  slots := (s.requiredPages x.content).map fun n => ⟨n, versionOf s n, x.content.sep⟩
  cls := if x.work.remake || s.pressUrgent k.press then .urgent else .normal
  origin := if x.work.remake then .remake else .first
  attempt := 1
  state := .queued
  superseded := false
  engine := none
  lane := none
  applied := none
  lastFault := none
  entryOrder := s.entryCount + 1

/-- Create a job for a position (R51). -/
def createJob (k : PosKey) (x : Position) (s : State) : State :=
  let n := nextNumber s
  let j := newJob s k x
  let s := takeRefs j.slots (s.bumpEntry.addJob n j)
  let s := (j.pages.map Prod.fst).foldl (fun s p => s.modLive p (· + 1)) s
  let s := s.modWork k fun w => { w with current := some n, deferred := false, remake := false }
  raise (.jobCreated n k j.cls j.origin j.colourNeed) s

/-- The position needs a job (R30). -/
def needsJob (s : State) (x : Position) : Bool := x.work.current.isNone && s.satisfiable x.content

/-- Test a position's need for a job, and create or defer it (R30, R54). -/
def needTest (k : PosKey) (s : State) : State :=
  match s.pos? k with
  | none => s
  | some x =>
    if needsJob s x then
      if s.jobs.length < Config.liveJobs then createJob k x s
      else if x.work.deferred then s
      else raise (.positionDeferred k) (s.modWork k fun w => { w with deferred := true })
    else s.modWork k fun w => { w with deferred := false }

/-! ### Departure (R50, steps 1 to 4) -/

/-- The first four steps of a job's departure in a terminal state (R50); then the standing of its
position, and of the positions that name a page removed with it, is told (R27, R150). The colour-starved
condition is judged as a QUEUED job leaves its queue, and again as a new one enters (R106). Where the two pages of a
TWO_UP job are both WITHDRAWN and this brings both counts to 0, page A is removed before page B, which R3, R20 and R50
leave open (DESIGN CHOICE, log 43). -/
def departCore (n : Nat) (terminal : JobState) (s : State) : State :=
  match s.job? n with
  | none => s
  | some j =>
    let s := s.modJob n fun x => { x with state := terminal }
    let s := if j.state = .queued then evalStarved s else s
    let s := if j.state.holdsRefs then releaseRefs j.slots s else s
    let s := (j.pages.map Prod.fst).foldl (fun s p => lowerLive p s) s
    let current := match s.pos? j.key with
      | some x => decide (x.work.current = some n)
      | none => false
    let s := if current then
        evalStarved (needTest j.key (s.modWork j.key fun w => { w with current := none }))
      else s
    let s := raise (.jobEnded n j.key terminal j.lastFault) s
    let s := tellSatisfied j.key (s.dropJob n)
    (j.pages.map Prod.fst).foldl (fun s p => tellAll (s.positionsNaming p) s) s

/-! ### Faults and returns (R47, R65 to R67) -/

/-- Record a fault in a job (R47). -/
def recordFault (n : Nat) (cause : FaultCause) (param : FaultParam) (s : State) : State :=
  s.modJob n fun j => { j with lastFault := some ⟨cause, param, s.clock⟩ }

/-- A job takes its references again, if it had released them (R58). -/
def retakeRefs (j : Job) (s : State) : State :=
  if j.state.holdsRefs then s else takeRefs j.slots s

/-- A job enters the ready queue of its class (R56, R65): its lane and applied correction are
cleared, and it takes a new entry order. -/
def enterQueue (n attempt : Nat) (s : State) : State :=
  let order := s.entryCount + 1
  s.bumpEntry.modJob n fun j =>
    { j with state := .queued, attempt := attempt, lane := none, applied := none, entryOrder := order }

/-- A job returns to QUEUED, with JOB_REQUEUED (R65, R67, R68, R69). -/
def requeue (n attempt : Nat) (reason : RequeueReason) (fault : Option FaultRecord) (s : State) : State :=
  match s.job? n with
  | none => s
  | some j => raise (.jobRequeued n attempt reason fault) (enterQueue n attempt (retakeRefs j s))

/-- A job becomes FAILED (R67). -/
def failJob (n : Nat) (s : State) : State :=
  match s.job? n with
  | none => s
  | some j =>
    let s := (retakeRefs j s).modJob n fun x => { x with state := .failed }
    match j.lastFault with
    | some f => raise (.positionFailed j.key n j.attempt f) s
    | none => s

/-- A plate of a job that is not superseded is spoiled; the fault is recorded already (R66). -/
def spoilDecision (n : Nat) (s : State) : State :=
  match s.job? n with
  | none => s
  | some j =>
    if j.attempt < Config.attempts then
      let s := enterQueue n (j.attempt + 1) (retakeRefs j s)
      match j.lastFault with
      | some f => raise (.jobSpoiled n (j.attempt + 1) f) s
      | none => s
    else failJob n s

end Sys2Proof.Machine
end

