-- ==== Sys2Proof/Machine/Reactions.lean ====
section
/-! DEFINITION. Machine/Reactions.lean: what follows a change by itself (R81, R82, R85, R86, R106, R127,
R128, R160, R55): the colour-starved condition, the dispatcher, EXPOSE, the reached marks, the
sorter's look, the service of deferred positions; and with them the whole departure of a job (R50),
the supersede (R59 to R62) and the deadline promotion (R69). -/

namespace Sys2Proof.Machine

open State

/-! ### The dispatcher (R81, R82) -/

/-- The store reference of each page of a job, absent for a page that was not required (R76). -/
def loadRefs (s : State) (j : Job) : List (Option U64) :=
  j.pages.map fun pv =>
    let k : SlotKey := ⟨pv.1, pv.2, j.sep⟩
    if j.slots.contains k then (s.slot? k).map Slot.ref else none

/-- A job becomes ASSIGNED in an engine's next context, and LOAD is sent (R81, R84). -/
def assign (e : EngineId) (n : Nat) (j : Job) (s : State) : State :=
  let load := s.limits.load
  ((s.modCtx e fun c => { c with next := some ⟨n, .loadSent, some load, false⟩ }).modJob n fun x =>
      { x with state := .assigned, engine := some e }).send
    (.load e n j.attempt j.key j.format (loadRefs s j))

/-- The first job offered that an engine is eligible for: URGENT before NORMAL (R81). -/
def firstFor (s : State) (e : EngineId) : Option (Nat × Job) :=
  match (s.offered .urgent).find? (fun x => s.eligible e x.1 x.2) with
  | some x => some x
  | none => (s.offered .normal).find? (fun x => s.eligible e x.1 x.2)

/-- Fill an engine's next context, if it is empty and a job is offered for it (R81). -/
def fill (e : EngineId) (s : State) : State :=
  if (s.engine e).ctx.next.isNone then
    match firstFor s e with
    | some x => assign e x.1 x.2 s
    | none => s
  else s

/-- Serve the engines in ascending number (R81). -/
def fillAll (s : State) : State := allEngines.foldl (fun s e => fill e s) s

/-- Preempt on an engine: its next job is parked as it stands, and the URGENT job is assigned (R82). -/
def preemptOn (e : EngineId) (n : Nat) (j : Job) (s : State) : State :=
  assign e n j (s.modCtx e fun c => { c with parked := c.next, next := none })

/-- The lowest-numbered engine that qualifies for an URGENT job (R82). -/
def preemptChoice (s : State) (n : Nat) (j : Job) : Option EngineId :=
  allEngines.find? fun e => s.eligible e n j && s.preemptable e

/-- Take URGENT jobs in queue order, each preempting, until one finds no engine (R82). -/
def preemptFrom : List (Nat × Job) → State → State
  | [], s => s
  | (n, j) :: rest, s =>
    match preemptChoice s n j with
    | some e => preemptFrom rest (preemptOn e n j s)
    | none => s

/-- Preemption for the URGENT jobs still offered (R82). -/
def preemptAll (s : State) : State := preemptFrom (s.offered .urgent) s

/-! ### EXPOSE (R85, R86) -/

/-- Send EXPOSE for an engine's next job (R85). -/
def sendExpose (e : EngineId) (s : State) : State :=
  match (s.engine e).ctx.next with
  | none => s
  | some w =>
    let load := s.limits.load
    let corr := (s.register e).correction
    ((s.modCtx e fun c => { c with next := some { w with stage := .exposeSent, timer := some load } }).modJob
        w.job fun x => { x with applied := some corr }).send
      (.expose e w.job ((s.attemptOf w.job).getD 0) corr)

/-- Grant the room of a lane once, if the room test passes and an engine is ready (R86). -/
def exposeOnce (l : LaneId) (s : State) : State :=
  if s.laneRoom l then
    match s.exposeChoice l with
    | some e => sendExpose e s
    | none => s
  else s

/-- Grant the room of a lane to each of its three engines that is ready, in turn (R86). -/
def exposeLane (l : LaneId) (s : State) : State := exposeOnce l (exposeOnce l (exposeOnce l s))

/-! ### The reached marks (R159, R160) -/

/-- A lane under a line stop whose lane load is 0 has its stopped gate set (R159). -/
def restLane (l : LaneId) (s : State) : State :=
  if s.laneLoad l = 0 then s.stopLane l else s

/-- The reached marks of the engines: once set they stay (R160). -/
def engineMarks (s : State) : Vector Bool 6 :=
  Vector.ofFn fun e => s.line.reachedEngines[e] || s.engineAtRest e

/-- The reached marks of the lanes: a lane has reached rest with its stopped gate set (R160). -/
def laneMarks (s : State) : Vector Bool 2 :=
  Vector.ofFn fun l => s.line.reachedLanes[l] || (s.lane l).gates.stopped

/-- Every engine and lane has reached rest and the sorter is not busy (R160). -/
def allAtRest (s : State) : Bool :=
  allEngines.all (fun e => s.line.reachedEngines[e]) && allLanes.all (fun l => s.line.reachedLanes[l])
    && s.sorter.delivery.isNone

/-- Evaluate the reached marks while the line is STOPPING (R160). -/
def evalReached (s : State) : State :=
  if s.line.state = .stopping then
    let s := restLane 1 (restLane 0 s)
    let s := s.setReached (engineMarks s) (laneMarks s)
    if allAtRest s then raise (.lineStopped s.line.stopTime) s.setStopped else s
  else s

/-! ### All of it -/

/-- Serve the engines: the dispatcher, EXPOSE on both lanes, and the reached marks. -/
def serveEngines (s : State) : State := evalReached (exposeLane 1 (exposeLane 0 (preemptAll (fillAll s))))

/-- Judge the colour-starved condition after a change, and serve the engines. An assignment does not alter the
condition: an engine that takes a COLOUR job is RUNNING and not DRIFTED, and the condition is false before it
and after. -/
def serve (s : State) : State := serveEngines (evalStarved s)

/-! ### The sorter's look (R127, R128) -/

/-- Find a lane rack-blocked, once for each exit request (R128). -/
def findBlocked (l : LaneId) (s : State) : State :=
  match s.exitJob l with
  | none => s
  | some (n, j) =>
    if (s.destinationOf j).isNone && !(s.lane l).floor.blocked then
      raise (.rackBlocked l n j.key) (s.modFloor l fun f => { f with blocked := true })
    else s

/-- The order with one entry's stage set. -/
def markStage (n : Nat) (stage : LaneStage) (order : List LaneEntry) : List LaneEntry :=
  order.map fun x => if x.job = n then { x with stage := stage } else x

/-- Grant a lane exit (R127). -/
def grant (l : LaneId) (n : Nat) (j : Job) (d : Destination) (s : State) : State :=
  let s := s.setDelivery (some ⟨l, n, j.attempt, d⟩)
  let s := s.modFloor l fun f => { f with order := markStage n .granted f.order, blocked := false }
  let s := s.send (.deliver l n j.attempt d)
  let s := s.useSorterStep
  if (s.lane l).byStep then s.useLaneStep l else s

/-- The sorter looks at the two lanes (R127, R128). -/
def sorterLook (s : State) : State :=
  if s.sorter.isFree then
    let s := findBlocked 1 (findBlocked 0 s)
    match s.grantChoice with
    | some (l, n, j, d) => grant l n j d s
    | none => s
  else s

/-! ### Deferred positions (R55) and departure (R50) -/

/-- The order in which deferred positions are served (R55). -/
def deferredBefore (s : State) (a b : PosKey) : Bool :=
  let x := (s.press a.press).start
  let y := (s.press b.press).start
  if x = y then a.rank < b.rank else startBefore x y

/-- The deferred positions in the order of their service (R55). -/
def deferredOrder (s : State) : List PosKey :=
  sortBy (deferredBefore s) ((s.plan.filter fun e => e.2.work.deferred).map Prod.fst)

/-- Serve deferred positions until none remains, or until a job is created and the table is full again (R55).
`look` serves the engines after each creation. -/
def serveFrom (look : State → State) : List PosKey → State → State
  | [], s => s
  | k :: rest, s =>
    let s' := needTest k s
    if s.jobs.length < s'.jobs.length then
      if s'.jobs.length < Config.liveJobs then serveFrom look rest (look s') else look s'
    else serveFrom look rest s'

/-- The job table serves the deferred positions (R55). -/
def serveDeferred (look : State → State) (s : State) : State := serveFrom look (deferredOrder s) s

/-- A job enters a terminal state and leaves the table (R50, the five steps), and the engines are served by
`look`. -/
def departBy (look : State → State) (n : Nat) (terminal : JobState) (s : State) : State :=
  look (serveDeferred look (departCore n terminal s))

/-- A job enters a terminal state and leaves the table (R50, the five steps), and the engines are served. -/
def depart (n : Nat) (terminal : JobState) (s : State) : State := departBy serve n terminal s

/-- A job taken out of its place by a fault of its own that costs no attempt (R65, R63): it returns to
QUEUED, or ends if superseded, and `look` serves the engines at its end. -/
def returnByFaultBy (look : State → State) (n : Nat) (cause : FaultCause) (param : FaultParam) (terminal : JobState)
    (s : State) : State :=
  let s := recordFault n cause param s
  match s.job? n with
  | none => s
  | some j =>
    if j.superseded then departBy look n terminal s else requeue n j.attempt .fault j.lastFault s

/-- The same, with the engines served where the job ends. -/
def returnByFault (n : Nat) (cause : FaultCause) (param : FaultParam) (terminal : JobState)
    (s : State) : State := returnByFaultBy serve n cause param terminal s

/-- A job taken from an engine by an event that is not its own fault (R65, R63), with the colour-starved
condition judged (R106). -/
def returnTaken (n : Nat) (reason : RequeueReason) (terminal : JobState) (s : State) : State :=
  match s.job? n with
  | none => s
  | some j => if j.superseded then depart n terminal s else evalStarved (requeue n j.attempt reason none s)

/-- A job's plate is spoiled (R66), or the job ends DISCARDED if superseded (R63), and `look` serves the engines
at its end. -/
def spoilBy (look : State → State) (n : Nat) (cause : FaultCause) (param : FaultParam) (s : State) : State :=
  let s := recordFault n cause param s
  match s.job? n with
  | none => s
  | some j => if j.superseded then departBy look n .discarded s else spoilDecision n s

/-- The same, with the engines served where the job ends. -/
def spoil (n : Nat) (cause : FaultCause) (param : FaultParam) (s : State) : State := spoilBy serve n cause param s

/-! ### Contexts (R79, R83) -/

/-- Add an entry to the cancel list, which holds at most one for each job number (R79). -/
def addCancel (x : CancelEntry) (l : List CancelEntry) : List CancelEntry :=
  l.filter (fun y => y.job ≠ x.job) ++ [x]

/-- A parked job moves to an empty next context (R83). -/
def Contexts.parkedReturn (c : Contexts) : Contexts :=
  match c.next with
  | some _ => c
  | none => { c with next := c.parked, parked := none }

/-- The cancel list names a job taken out of its context (R79). -/
def listCancel (e : EngineId) (n : Nat) (cmd : CancelCommand) (s : State) : State :=
  let attempt := (s.attemptOf n).getD 0
  s.modCtx e fun c => { c with cancel := addCancel ⟨n, attempt, cmd⟩ c.cancel }

/-- The command that takes a job out of its engine (R76). -/
def cancelCommand (e : EngineId) (n attempt : Nat) : CancelCommand → LineCommand
  | .discard => .discard e n attempt
  | .abort => .abort e n attempt

/-- A job has been taken out of its context: its command is sent and the cancel list names it (R79). -/
def cancelJob (e : EngineId) (n : Nat) (cmd : CancelCommand) (s : State) : State :=
  (listCancel e n cmd s).send (cancelCommand e n ((s.attemptOf n).getD 0) cmd)

/-- The context of an engine that holds a job. -/
inductive ContextName where
  | current | next | parked
  deriving DecidableEq, Repr

/-- The context of an engine that holds a job (R77). -/
def Contexts.holder (c : Contexts) (n : Nat) : Option ContextName :=
  if c.current.any (fun x => x.job = n) then some .current
  else if c.next.any (fun x => x.job = n) then some .next
  else if c.parked.any (fun x => x.job = n) then some .parked
  else none

/-- The engine and context of a job (R70). -/
def contextOf (s : State) (n : Nat) : Option (EngineId × ContextName) :=
  allEngines.findSome? fun e => ((s.engine e).ctx.holder n).map fun c => (e, c)

/-! ### Supersede (R59 to R62) -/

/-- A superseded ASSIGNED job at stage LOAD_SENT or LOADED leaves its engine (R60). -/
def dropAssigned (n : Nat) (s : State) : State :=
  match contextOf s n with
  | some (e, .next) =>
    (cancelJob e n .discard (s.modCtx e fun c => { c with next := none })).modCtx e Contexts.parkedReturn
  | some (e, .parked) => cancelJob e n .discard (s.modCtx e fun c => { c with parked := none })
  | _ => s

/-- An ASSIGNED job has been sent EXPOSE (R60). -/
def sentExpose (s : State) (n : Nat) : Bool :=
  allEngines.any fun e =>
    match (s.engine e).ctx.next with
    | some w => w.job = n && w.stage = .exposeSent
    | none => false

/-- A RACKED job stands on the shelf of its press, or else in its rack slot (R70, R135). -/
def rackPlace (s : State) (n : Nat) (j : Job) : PlatePlace :=
  if (s.shelf j.press).any (fun x => x.1 = n) then .shelf else .rackSlot

/-- The remake mark after a supersede (R52). -/
def marksRemake (j : Job) : Bool :=
  match j.state with
  | .exposing | .developing | .finishing | .racked | .mounted | .uncertain => true
  | _ => j.origin = .remake

/-- The effect of a supersede for the job's state (R59 step 4, R60 to R62). -/
def supersedeEffect (n : Nat) (j : Job) (s : State) : State :=
  let tell (x : SupersedeEffect) (s : State) : State := raise (.jobSuperseded n j.key j.state x) s
  match j.state with
  | .queued | .failed => depart n .cancelled (tell .cancelled s)
  | .assigned =>
    if sentExpose s n then tell .flagged s
    else depart n .cancelled (tell .cancelled (dropAssigned n s))
  | .racked => raise (.pullRequired n j.key (rackPlace s n j)) (tell .pullRequired s)
  | .mounted =>
    if (s.press j.press).state = .running then raise (.changeRequired n j.key) (tell .changeRequired s)
    else raise (.pullRequired n j.key .onPress) (tell .pullRequired s)
  | .finishing => sorterLook (tell .flagged s)
  | _ => tell .flagged s

/-- Supersede a position's current job (R59); the position's standing is then told (R27). -/
def supersede (k : PosKey) (n : Nat) (s : State) : State :=
  match s.job? n with
  | none => s
  | some j =>
    let s := s.modJob n fun x => { x with superseded := true }
    let s := s.modWork k fun w => { w with current := none, remake := w.remake || marksRemake j }
    tellSatisfied k (supersedeEffect n j s)

/-- Supersede the current job of a position, if it has one. -/
def supersedeAt (k : PosKey) (s : State) : State :=
  match (s.pos? k).bind fun x => x.work.current with
  | some n => supersede k n s
  | none => s

/-- Test a position's need, tell its standing, and serve the engines. -/
def needAndServe (k : PosKey) (s : State) : State := serve (tellSatisfied k (needTest k s))

/-! ### Deadline promotion (R69) -/

/-- Promote one job: its class changes in place, and a parked job returns to its queue (R69). -/
def promote (n : Nat) (s : State) : State :=
  let s := s.modJob n fun j => { j with cls := .urgent }
  match contextOf s n with
  | some (e, .parked) =>
    serve (returnTaken n .promoted .cancelled
      (cancelJob e n .discard (s.modCtx e fun c => { c with parked := none })))
  | _ => serve s

/-- The live NORMAL jobs of a press, in ascending job number (R69). -/
def promotable (s : State) (p : PressId) : List Nat :=
  (s.jobs.filter fun e => e.2.press = p && e.2.cls = .normal).map Prod.fst

/-- Promote every live NORMAL job of a press; the sorter then looks again (R69, R127). -/
def promoteAll (p : PressId) (s : State) : State :=
  sorterLook ((promotable s p).foldl (fun s n => promote n s) s)

end Sys2Proof.Machine
end

