-- ==== Sys2Proof/Machine/Tracker.lean ====
section
/-! DEFINITION. Machine/Tracker.lean: the register tracker (chapter 5): samples, lock, relock, drift,
colour eviction, recovery, rearming. -/

namespace Sys2Proof.Machine

open State

/-- Componentwise sum. -/
def offsetAdd (a b : Offset) : Offset := ⟨a.dx + b.dx, a.dy + b.dy⟩

/-- Both axes differ by at most a limit. -/
def nearBy (limit : Nat) (a b : Offset) : Bool :=
  decide ((a.dx - b.dx).natAbs ≤ limit) && decide ((a.dy - b.dy).natAbs ≤ limit)

/-- Both axes are at most a limit in magnitude. -/
def insideBy (limit : Nat) (a : Offset) : Bool := nearBy limit a ⟨0, 0⟩

/-- Append a drift sample, the oldest being dropped first when the window holds 8 (R100, R101). -/
def pushSample (w : List Offset) (d : Offset) : List Offset :=
  (if w.length < Config.window then w else w.drop 1) ++ [d]

/-- A mean held at +4000 or -4000 (R101). -/
def clampAxis (i : Int) : Int := max (-Config.offsetRange) (min Config.offsetRange i)

/-- One axis of the window mean: rounded toward zero (R101); an empty window gives 0. -/
def meanAxis (sum : Int) (n : Nat) : Int := clampAxis (Int.tdiv sum n)

/-- The window mean (R101). -/
def windowMean (w : List Offset) : Offset :=
  ⟨meanAxis (w.map Offset.dx).sum w.length, meanAxis (w.map Offset.dy).sum w.length⟩

/-- The lock test (R102). -/
def lockTest (limit : Nat) (w : List Offset) (c : Offset) : Bool :=
  decide (w.length = Config.window) && w.all fun d => nearBy limit d c

/-! ### Colour eviction (R105) -/

/-- A job's colour need is COLOUR (R46). -/
def needsColour (s : State) (n : Nat) : Bool := (s.job? n).any fun j => j.colourNeed = .colour

/-- The next job to be evicted from an engine (R105). -/
def evictNext (s : State) (e : EngineId) : Option WaitingCtx :=
  (s.engine e).ctx.next.filter fun w => needsColour s w.job

/-- The parked job to be evicted from an engine (R105). -/
def evictParked (s : State) (e : EngineId) : Option WaitingCtx :=
  (s.engine e).ctx.parked.filter fun w => needsColour s w.job

/-- The evicted next job leaves its context (R105): ABORT at EXPOSE_SENT, unless one is outstanding
for a cut, and DISCARD at the other stages. -/
def dropNext (e : EngineId) (w : WaitingCtx) (s : State) : State :=
  let s := s.modCtx e fun c => { c with next := none }
  if w.stage = .exposeSent then
    if w.cut then listCancel e w.job .abort s else cancelJob e w.job .abort s
  else cancelJob e w.job .discard s

/-- The evicted parked job leaves its context (R105). -/
def dropParked (e : EngineId) (w : WaitingCtx) (s : State) : State :=
  cancelJob e w.job .discard (s.modCtx e fun c => { c with parked := none })

/-- The job table takes an evicted job on (R105): back to its queue, or CANCELLED if superseded, with all the
steps of its departure (R50). The colour-starved condition is not judged here: COLOUR_STARVED comes last (R110). -/
def takeEvicted (n : Nat) (s : State) : State :=
  match s.job? n with
  | none => s
  | some j =>
    if j.superseded then departBy serveEngines n .cancelled s else requeue n j.attempt .colourEvicted none s

/-- Do something with a value that may be absent. -/
def forSome {α : Type} (x : Option α) (f : α → State → State) (s : State) : State :=
  match x with
  | some a => f a s
  | none => s

/-- Colour eviction on an engine (R105): both jobs leave their contexts, and the job table takes them on, next
before parked (R110), each whole before the other (R50). -/
def colourEvict (e : EngineId) (s : State) : State :=
  let nx := evictNext s e
  let pk := evictParked s e
  let s := forSome pk (dropParked e) (forSome nx (dropNext e) s)
  let s := s.modCtx e Contexts.parkedReturn
  forSome pk (fun w => takeEvicted w.job) (forSome nx (fun w => takeEvicted w.job) s)

/-- The number of jobs that an eviction takes from an engine (R110). -/
def evictCount (s : State) (e : EngineId) : Nat :=
  (evictNext s e).toList.length + (evictParked s e).toList.length

/-! ### Samples (R99 to R104) -/

/-- A sample beyond the drift limit (R100). -/
def sampleBeyond (e : EngineId) (m d : Offset) (s : State) : State :=
  let r := s.register e
  let w := pushSample r.window d
  let s' := s.setRegister e ⟨.drifted, w, windowMean w, 0⟩
  if r.state = .drifted then s'
  else colourEvict e (raise (.registerDrifted e m d (evictCount s e)) s')

/-- A sample within the drift limit in TRACKING (R101, R102). -/
def sampleTracking (e : EngineId) (d : Offset) (s : State) : State :=
  let r := s.register e
  let w := pushSample r.window d
  let c := windowMean w
  if lockTest s.limits.lockWindow w c then
    raise (.registerLocked e c) (s.setRegister e ⟨.locked, w, c, r.run⟩)
  else s.setRegister e ⟨.tracking, w, c, r.run⟩

/-- A sample within the drift limit in LOCKED (R103). -/
def sampleLocked (e : EngineId) (d : Offset) (s : State) : State :=
  let r := s.register e
  if nearBy s.limits.relock d r.correction then
    s.setRegister e ⟨.locked, pushSample r.window d, r.correction, r.run⟩
  else
    raise (.registerRelock e d r.correction) (s.setRegister e ⟨.tracking, [d], windowMean [d], r.run⟩)

/-- A sample within the drift limit in DRIFTED (R104). -/
def sampleDrifted (e : EngineId) (d : Offset) (s : State) : State :=
  let r := s.register e
  let w := pushSample r.window d
  let c := windowMean w
  if r.run + 1 < s.limits.recover then s.setRegister e ⟨.drifted, w, c, r.run + 1⟩
  else raise (.registerRestored e c) (s.setRegister e ⟨.tracking, w, c, 0⟩)

/-- Take a sample on an engine's record: measured offset m, applied correction c (R99, R100). -/
def takeSample (e : EngineId) (m c : Offset) (s : State) : State :=
  let d := offsetAdd m c
  serve <|
    if insideBy s.limits.drift m then
      match (s.register e).state with
      | .tracking => sampleTracking e d s
      | .locked => sampleLocked e d s
      | .drifted => sampleDrifted e d s
    else sampleBeyond e m d s

/-- Clear an engine's register record (R107). -/
def rearm (e : EngineId) (s : State) : State :=
  serve (raise (.registerRearmed e (s.register e).state) (s.setRegister e Register.initial))

end Sys2Proof.Machine
end

