-- ==== Sys2Proof/Machine/Pages.lean ====
section
/-! DEFINITION. Machine/Pages.lean: the page register and the raster table (chapter 1) and the plate book's
three signals (2.3): SEPARATION_ARRIVED, WITHDRAW_PAGE, QUERY_PAGE. -/

namespace Sys2Proof.Machine

open State

/-! ### The three signals (R28, R29, R31) -/

/-- An arrival signal: the need of every live position that names the page is tested (R28). -/
def arrivalSignal (n : Nat) (s : State) : State :=
  (s.positionsNaming n).foldl (fun s k => needAndServe k s) s

/-- A revision signal: each position's current job is superseded and its need tested (R29). -/
def revisionSignal (n : Nat) (s : State) : State :=
  (s.positionsNaming n).foldl (fun s k => needAndServe k (supersedeAt k s)) s

/-- A withdraw signal for one position (R31): a current job is superseded only where the page is required. -/
def withdrawAt (n : Nat) (k : PosKey) (s : State) : State :=
  let required := (s.pos? k).any fun x => s.required x.content.sep n
  needAndServe k (if required then supersedeAt k s else s)

/-- A withdraw signal (R31). -/
def withdrawSignal (n : Nat) (s : State) : State :=
  (s.positionsNaming n).foldl (fun s k => withdrawAt n k s) s

/-! ### Slots and records -/

/-- The free raster slots (R6). -/
def freeSlots (s : State) : Nat := Config.rasterSlots - s.slots.length

/-- The free page records (R1). -/
def freePages (s : State) : Nat := Config.pageRecords - s.pages.length

/-- The current slots of a page (R6). -/
def currentSlots (s : State) (n : Nat) : List SlotKey :=
  (s.slots.filter fun e => e.1.page = n && e.2.current).map Prod.fst

/-- A slot loses its current flag, and is freed if its count is 0 (R9). -/
def clearCurrent (k : SlotKey) (s : State) : State :=
  freeIfDone k (s.modSlot k fun x => { x with current := false })

/-- Every current slot of a page loses its flag (R9). -/
def clearAllCurrent (n : Nat) (s : State) : State :=
  (currentSlots s n).foldl (fun s k => clearCurrent k s) s

/-- A separation makes the arrived set of a class whole (R2). -/
def wholeClass (c : ColourClass) (a : SepSet) : Bool :=
  match c with
  | .mono => a.k
  | .colour => a.k && a.c && a.m && a.y

/-- PARTIAL or COMPLETE, by the arrived set (R2). -/
def arrivedState (c : ColourClass) (a : SepSet) : PageState :=
  if wholeClass c a then .complete else .partly

/-- Write a page record that a separation has arrived for, with the slot of the arrival (R4, R7, R13,
R14, R17). -/
def writeArrival (n v : Nat) (c : ColourClass) (a : SepSet) (x : Separation) (ref : U64) (live : Nat)
    (s : State) : State :=
  (s.putPage n ⟨some c, some v, a.add x, arrivedState c (a.add x), live⟩).putSlot ⟨n, v, x⟩
    ⟨ref, 0, true, false⟩

/-- On entry to COMPLETE the register raises PAGE_COMPLETE (R2). -/
def tellComplete (n v : Nat) (c : ColourClass) (a : SepSet) (s : State) : State :=
  if wholeClass c a then raise (.pageComplete n v c) s else s

/-- The OK answer of an arrival (R18): outcome, state, version, arrived set. -/
def arrivalAnswer (outcome n : Nat) (s : State) : Answer :=
  match s.page? n with
  | some r =>
    okWith [.enum outcome, .enum (pageStateCode r.state), numberField .version r.version, .sepSet r.arrived]
  | none => okWith [.enum outcome]

/-- An arrival with outcome ADDED (R4, R13, R14). -/
def addArrival (n v : Nat) (c : ColourClass) (a : SepSet) (x : Separation) (ref : U64) (live : Nat)
    (s : State) : State × Answer :=
  let s := tellComplete n v c (a.add x) (writeArrival n v c a x ref live s)
  let s := arrivalSignal n s
  (s, arrivalAnswer 0 n s)

/-- A revision (R17). -/
def revise (n old v : Nat) (c : ColourClass) (x : Separation) (ref : U64) (live : Nat) (s : State) :
    State × Answer :=
  let s := writeArrival n v c SepSet.empty x ref live (clearAllCurrent n s)
  let s := tellComplete n v c (SepSet.empty.add x) (raise (.pageRevised n old v c) s)
  let s := revisionSignal n s
  (s, arrivalAnswer 1 n s)

/-- A revision finds a free slot: the current slots whose count is 0 are counted as free (R17). -/
def revisionRoom (s : State) (n : Nat) : Bool :=
  freeSlots s ≠ 0 || (s.slots.any fun e => e.1.page = n && e.2.current && e.2.count = 0)

/-- The FAILED jobs that a replaced raster returns to QUEUED, in ascending job number (R15). -/
def replacedJobs (s : State) (k : SlotKey) : List Nat :=
  (s.jobs.filter fun e =>
    e.2.state = .failed && e.2.lastFault.any (fun f => f.cause = .rasterUnreadable)
      && e.2.slots.contains k
      && e.2.slots.all (fun k' => !((s.slot? k').any Slot.bad))).map Prod.fst

/-- A FAILED job returns to QUEUED at a raster replacement (R15, R67). -/
def returnReplaced (n : Nat) (s : State) : State :=
  match s.job? n with
  | some j => serve (requeue n j.attempt .rasterReplaced j.lastFault s)
  | none => s

/-- A BAD raster is replaced (R15). -/
def replaceRaster (k : SlotKey) (ref : U64) (s : State) : State × Answer :=
  let s := s.modSlot k fun x => { x with ref := ref, bad := false }
  let s := raise (.rasterReplaced k) s
  let s := (replacedJobs s k).foldl (fun s n => returnReplaced n s) s
  (s, arrivalAnswer 2 k.page s)

/-- The answers STALE_VERSION and DUPLICATE carry the record's version and state (R15, R16). -/
def versionAnswer (c : AnswerCode) (r : PageRec) : Answer :=
  ⟨c, [numberField .version r.version, .enum (pageStateCode r.state)]⟩

/-- An arrival at a PARTIAL or COMPLETE record, by its version (R11 steps 6 to 8). -/
def arriveVersion (n v cur : Nat) (c : ColourClass) (x : Separation) (ref : U64) (r : PageRec) (s : State) :
    State × Answer :=
  if v < cur then (s, versionAnswer .staleVersion r)
  else if v = cur then
    if r.cls ≠ some c then (s, bare .badValue)
    else if r.arrived.has x then
      if (s.slot? ⟨n, v, x⟩).any Slot.bad then replaceRaster ⟨n, v, x⟩ ref s
      else (s, versionAnswer .duplicate r)
    else if freeSlots s = 0 then (s, bare .storeFull)
    else addArrival n v c r.arrived x ref r.liveJobs s
  else if revisionRoom s n then revise n cur v c x ref r.liveJobs s
  else (s, bare .storeFull)

/-- An arrival whose values are in range (R11 steps 3 to 8). -/
def arrive (n v : Nat) (c : ColourClass) (x : Separation) (ref : U64) (s : State) : State × Answer :=
  match s.page? n with
  | none =>
    if freePages s = 0 then (s, bare .registerFull)
    else if freeSlots s = 0 then (s, bare .storeFull)
    else addArrival n v c SepSet.empty x ref 0 s
  | some r =>
    match r.state, r.version with
    | .withdrawn, some cur =>
      if cur < v then
        if revisionRoom s n then revise n cur v c x ref r.liveJobs s else (s, bare .storeFull)
      else (s, versionAnswer .staleVersion r)
    | .partly, some cur => arriveVersion n v cur c x ref r s
    | .complete, some cur => arriveVersion n v cur c x ref r s
    | _, _ =>
      if freeSlots s = 0 then (s, bare .storeFull)
      else addArrival n v c SepSet.empty x ref r.liveJobs s

/-- SEPARATION_ARRIVED (R11 to R18). -/
def reqSeparationArrived (page : U16) (version cls sep : Byte) (ref : U64) (s : State) : State × Answer :=
  match classOf cls, sepOf sep with
  | some c, some x =>
    if page.toNat = 0 then (s, bare .badValue)
    else if version.toNat = 0 then (s, bare .badValue)
    else if c = .mono ∧ x ≠ .k then (s, bare .wrongSeparation)
    else arrive page.toNat version.toNat c x ref s
  | _, _ => (s, bare .badValue)

/-! ### Withdrawal (R19, R20) -/

/-- The end of a withdrawal: the record is removed, or enters WITHDRAWN (R19 step 3). -/
def endWithdraw (n : Nat) (r : PageRec) (s : State) : State × Answer :=
  if r.liveJobs = 0 then
    let s := removePage n r s
    (serve (tellAll (s.positionsNaming n) s), okWith [.enum 1, .count 0])
  else
    (raise (.pageWithdrawn n r.version r.liveJobs) (s.putPage n { r with state := .withdrawn }),
      okWith [.enum 0, .count r.liveJobs])

/-- A withdrawal that is taken (R19). -/
def withdraw (n : Nat) (r : PageRec) (s : State) : State × Answer :=
  let s := (clearAllCurrent n s).putPage n { r with arrived := SepSet.empty }
  let s := withdrawSignal n s
  match s.page? n with
  | some r' => endWithdraw n r' s
  | none => (s, okWith [.enum 1, .count 0])

/-- WITHDRAW_PAGE (R19). -/
def reqWithdrawPage (page : U16) (s : State) : State × Answer :=
  if page.toNat = 0 then (s, bare .badValue)
  else
    match s.page? page.toNat with
    | none => (s, bare .notFound)
    | some r =>
      if r.state = .withdrawn then (s, bare .wrongState)
      else withdraw page.toNat r s

/-! ### QUERY_PAGE (R21) -/

/-- How a separation of a page is reported: NOT_ARRIVED 0, ARRIVED 1, ARRIVED_BAD 2 (R21). -/
def separationStatus (s : State) (n : Nat) (r : PageRec) (x : Separation) : Nat :=
  if r.arrived.has x then
    if (r.version.bind fun v => s.slot? ⟨n, v, x⟩).any Slot.bad then 2 else 1
  else 0

/-- The slots of a page still held by jobs without being current (R9, R21). -/
def heldSlots (s : State) (n : Nat) : Nat :=
  (s.slots.filter fun e => e.1.page = n && !e.2.current).length

/-- QUERY_PAGE (R21). The four separations stand one after the other, with no count byte (DESIGN CHOICE, log 44). -/
def queryPage (page : U16) (s : State) : Answer :=
  match s.page? page.toNat with
  | none => bare .notFound
  | some r =>
    okWith <|
      [.pageId page.toNat, .enum (pageStateCode r.state), .enum (classCode r.cls)]
        ++ optField (r.version.map .version)
        ++ allSeps.map (fun x => .enum (separationStatus s page.toNat r x))
        ++ [.count r.liveJobs, .count (heldSlots s page.toNat)]

end Sys2Proof.Machine
end

