-- ==== Sys2Proof/Machine/Book.lean ====
section
/-! DEFINITION. Machine/Book.lean: the plate book's requests (2.4 to 2.7): staged plans, the commit,
position holds, QUERY_POSITION; and the job table's REQUEUE_POSITION (R68) and QUERY_JOB (R70). -/

namespace Sys2Proof.Machine

open State

/-! ### Staged plans (R32 to R35) -/

/-- A stage is HELD by a port other than this one (R33 to R36). -/
def heldByOther (x : Stage) (p : PortId) : Bool :=
  match x.holder with
  | some h => h ≠ p
  | none => false

/-- An edit of a stage by a port: a CLEAN stage becomes HELD, and STAGE_CLAIMED is raised (R33, R34). -/
def editStage (pr : PressId) (p : PortId) (entries : Table PosId Content) (s : State) : State :=
  let x := s.stage pr
  let s := s.setStage pr ⟨some p, entries⟩
  if x.holder.isNone then raise (.stageClaimed pr p) s else s

/-- The content of a live position (R38). -/
def liveContent (s : State) (k : PosKey) : Option Content := (s.pos? k).map Position.content

/-- STAGE_POSITION (R33). -/
def reqStagePosition (p : PortId) (press pos format : Byte) (pageA : U16) (pageB : Option U16) (sep : Byte)
    (s : State) : State × Answer :=
  match keyOf press pos, contentOf format pageA pageB sep with
  | some k, some c =>
    let x := s.stage k.press
    if heldByOther x p then (s, ⟨.stageHeld, (x.holder.map .port).toList⟩)
    else
      (editStage k.press p (tput Fin.val x.entries k.pos c) s,
        okWith [.enum 1, .port p, .flag (liveContent s k = some c)])
  | _, _ => (s, bare .badValue)

/-- CLEAR_STAGED_POSITION (R34). -/
def reqClearStaged (p : PortId) (press pos : Byte) (s : State) : State × Answer :=
  match keyOf press pos with
  | none => (s, bare .badValue)
  | some k =>
    let x := s.stage k.press
    if heldByOther x p then (s, bare .stageHeld)
    else if thas x.entries k.pos then (editStage k.press p (tdel x.entries k.pos) s, bare .ok)
    else (s, bare .notFound)

/-- A copy of a press's live plan: CLEAN, with no holder (R32). -/
def stageCopy (s : State) (pr : PressId) : Stage :=
  ⟨none, (s.positionsOf pr).map fun e => (e.1.pos, e.2.content)⟩

/-- DISCARD_STAGE (R35). -/
def reqDiscardStage (p : PortId) (press : Byte) (s : State) : State × Answer :=
  match pressOf press with
  | none => (s, bare .badValue)
  | some pr =>
    match (s.stage pr).holder with
    | none => (s, okWith [.enum 0])
    | some h =>
      if h = p then (s.setStage pr (stageCopy s pr), okWith [.enum 1])
      else if (s.port p).rights.maint then
        (raise (.stageDiscarded pr h p) (s.setStage pr (stageCopy s pr)), okWith [.enum 1])
      else (s, bare .stageHeld)

/-! ### The commit (R36 to R41) -/

/-- The distinct page ids without a record that a staged plan names (R5). -/
def newPageIds (s : State) (x : Stage) : List Nat :=
  ((x.entries.map fun e => e.2.pages).flatten.filter fun n => !thas s.pages n).eraseDups

/-- An EXPECTED page record (R5). -/
def expectedPage : PageRec := ⟨none, none, SepSet.empty, .expected, 0⟩

/-- What the comparison of a position's staged entry with the live plan gives (R37). -/
inductive CommitOutcome where
  | unchanged | changed (c : Content) | added (c : Content) | removed | uncounted
  deriving DecidableEq, Repr

/-- The comparison of R37 and R38. -/
def commitOutcome (live staged : Option Content) : CommitOutcome :=
  match live, staged with
  | some a, some b => if a = b then .unchanged else .changed b
  | none, some b => .added b
  | some _, none => .removed
  | none, none => .uncounted

/-- A CHANGED position (R39). -/
def commitChanged (k : PosKey) (edition : Nat) (c : Content) (s : State) : State :=
  needAndServe k ((supersedeAt k s).modPos k fun x => { x with content := c, edition := edition })

/-- The record of an ADDED position (R40); its standing is not a change of the press's counts. -/
def addedPosition (s : State) (edition : Nat) (c : Content) : Position :=
  ⟨c, edition, false, ⟨none, none, false, false, s.unused c⟩⟩

/-- An ADDED position (R40). -/
def commitAdded (k : PosKey) (edition : Nat) (c : Content) (s : State) : State :=
  needAndServe k (s.putPos k (addedPosition s edition c))

/-- The mounted job of a position retires (R40, R138, R139): the field is cleared, and the job leaves. -/
def retireMounted (k : PosKey) (s : State) : State :=
  match (s.pos? k).bind fun x => x.work.mounted with
  | some n => depart n .retired (s.modWork k fun w => { w with mounted := none })
  | none => s

/-- A REMOVED position (R40). Its deferred flag goes first, so that no service reaches it on its way out. -/
def commitRemoved (k : PosKey) (s : State) : State :=
  let s := s.modWork k fun w => { w with deferred := false }
  (retireMounted k (supersedeAt k s)).dropPos k

/-- One position of a commit, with its count (R37). -/
def commitOne (k : PosKey) (edition : Nat) (o : CommitOutcome) (a : State × CommitCounts) :
    State × CommitCounts :=
  match o with
  | .unchanged => (a.1, { a.2 with unchanged := a.2.unchanged + 1 })
  | .changed c => (commitChanged k edition c a.1, { a.2 with changed := a.2.changed + 1 })
  | .added c => (commitAdded k edition c a.1, { a.2 with added := a.2.added + 1 })
  | .removed => (commitRemoved k a.1, { a.2 with removed := a.2.removed + 1 })
  | .uncounted => a

/-- The position pass of a commit, positions 0 to 63 (R37). -/
def commitPass (pr : PressId) (edition : Nat) (staged : Table PosId Content) (a : State × CommitCounts) :
    State × CommitCounts :=
  allPositions.foldl
    (fun a q =>
      let k : PosKey := ⟨pr, q⟩
      commitOne k edition (commitOutcome (liveContent a.1 k) (tget staged q)) a) a

/-- The standing of every position of a press is written afresh (R140). -/
def refreshStanding (pr : PressId) (s : State) : State :=
  (s.positionsOf pr).foldl
    (fun s e => s.modWork e.1 fun w => { w with satisfied := s.satisfied e.2 }) s

/-- The counts of a press are set afresh from the live plan, and the press is evaluated (R140, R141). -/
def refreshCounts (pr : PressId) (s : State) : State :=
  let s := refreshStanding pr s
  let ps := s.positionsOf pr
  evalPress pr (s.modPress pr fun x =>
    { x with positions := ps.length, unsatisfied := (ps.filter fun e => !s.satisfied e.2).length })

/-- The end of a commit at press level (R41): its notice and its answer carry the same counts. -/
def commitEnd (p : PortId) (pr : PressId) (edition : Nat) (a : State × CommitCounts) : State × Answer :=
  let s := a.1.modPress pr fun x => { x with edition := some edition, window := false, late := false }
  let s := refreshCounts pr (s.setStage pr (stageCopy s pr))
  let c := { a.2 with deferred := ((s.positionsOf pr).filter fun e => e.2.work.deferred).length }
  (raise (.planCommitted pr edition c p) s, okWith ([.press pr, .edition edition] ++ commitFields c))

/-- A commit that is taken (R36 step 5). -/
def commit (p : PortId) (pr : PressId) (edition : Nat) (new : List Nat) (s : State) : State × Answer :=
  let staged := (s.stage pr).entries
  let s := new.foldl (fun s n => s.putPage n expectedPage) s
  commitEnd p pr edition (commitPass pr edition staged (s, ⟨0, 0, 0, 0, new.length, 0⟩))

/-- COMMIT_PLAN (R36). -/
def reqCommitPlan (p : PortId) (press edition : Byte) (s : State) : State × Answer :=
  match pressOf press with
  | none => (s, bare .badValue)
  | some pr =>
    if edition.toNat = 0 then (s, bare .badValue)
    else if heldByOther (s.stage pr) p then (s, bare .stageHeld)
    else if (s.press pr).state = .running then (s, bare .pressRunning)
    else if freePages s < (newPageIds s (s.stage pr)).length then (s, bare .registerFull)
    else commit p pr edition.toNat (newPageIds s (s.stage pr)) s

/-! ### Holding a position (R43, R44) -/

/-- HOLD_POSITION (R43). -/
def reqHoldPosition (press pos : Byte) (s : State) : State × Answer :=
  match keyOf press pos with
  | none => (s, bare .badValue)
  | some k =>
    match s.pos? k with
    | none => (s, bare .notFound)
    | some x =>
      if x.held then (s, bare .wrongState)
      else
        (raise (.positionHeld k x.work.current) (s.modPos k fun y => { y with held := true }), bare .ok)

/-- RELEASE_POSITION (R44). -/
def reqReleasePosition (press pos : Byte) (s : State) : State × Answer :=
  match keyOf press pos with
  | none => (s, bare .badValue)
  | some k =>
    match s.pos? k with
    | none => (s, bare .notFound)
    | some x =>
      if x.held then
        (serve (raise (.positionReleased k x.work.current) (s.modPos k fun y => { y with held := false })),
          bare .ok)
      else (s, bare .wrongState)

/-! ### REQUEUE_POSITION (R68) -/

/-- The answer to a REQUEUE_POSITION that made a need test: CREATED 1, DEFERRED 2, NONE 3. -/
def requeueAnswer (s : State) (k : PosKey) : Answer :=
  match s.pos? k with
  | none => okWith [.enum 3]
  | some x =>
    match x.work.current with
    | some n => okWith [.enum 1, .jobNumber n]
    | none => if x.work.deferred then okWith [.enum 2] else okWith [.enum 3]

/-- REQUEUE_POSITION (R68). -/
def reqRequeuePosition (press pos : Byte) (s : State) : State × Answer :=
  match keyOf press pos with
  | none => (s, bare .badValue)
  | some k =>
    match s.pos? k with
    | none => (s, bare .notFound)
    | some x =>
      match x.work.current with
      | none =>
        let s := needTest k s
        (serve (tellSatisfied k s), requeueAnswer s k)
      | some n =>
        match s.job? n with
        | none => (s, bare .wrongState)
        | some j =>
          if j.state = .failed then
            (serve (requeue n 1 .requeuedByRoom j.lastFault s), okWith [.enum 0, .jobNumber n])
          else (s, ⟨.wrongState, [.enum (jobStateCode j.state)]⟩)

/-! ### QUERY_POSITION (R45) -/

/-- The fields of a content. -/
def contentFields (c : Content) : List Field :=
  [.enum (formatCode (some c.format)), .pageId c.pageA] ++ optField (c.pageB.map .pageId)
    ++ [.enum (sepNumber c.sep)]

/-- A job number and its state. -/
def jobAndState (s : State) (n : Nat) : List Field :=
  [.jobNumber n] ++ ((s.job? n).map fun j => Field.enum (jobStateCode j.state)).toList

/-- A mounted job: number, state, and whether it is superseded (R45). -/
def mountedFields (s : State) (n : Nat) : List Field :=
  jobAndState s n ++ [.flag ((s.job? n).any Job.superseded)]

/-- QUERY_POSITION of a position with a live record or a staged entry (R45). The spec does not say what the fields
of a live record hold where there is only a staged entry, nor how the required pages are laid out: satisfiable,
held and deferred are then answered no, and the required pages are a counted list of one flag for each page of the
content, of length 0 with no live record (DESIGN CHOICE, log 41). -/
def positionAnswer (s : State) (k : PosKey) (live : Option Position) (staged : Option Content) : Answer :=
  okWith <|
    keyFields k
      ++ optFields (live.map fun x => contentFields x.content)
      ++ optField (live.map fun x => .edition x.edition)
      ++ optField (live.map fun x => .enum (statusCode (s.status x)))
      ++ listField ((live.map fun x => x.content.pages.map fun n =>
          Field.flag (s.required x.content.sep n)).getD [])
      ++ [.flag (live.any fun x => s.satisfiable x.content)]
      ++ optFields ((live.bind fun x => x.work.current).map (jobAndState s))
      ++ optFields ((live.bind fun x => x.work.mounted).map (mountedFields s))
      ++ [.flag (live.any Position.held), .flag (live.any fun x => x.work.deferred)]
      ++ optFields (staged.map contentFields)
      ++ [.flag (staged.isSome && live.map Position.content = staged)]

/-- QUERY_POSITION (R45). -/
def queryPosition (press pos : Byte) (s : State) : Answer :=
  match keyOf press pos with
  | none => bare .badValue
  | some k =>
    let live := s.pos? k
    let staged := tget (s.stage k.press).entries k.pos
    if live.isNone && staged.isNone then bare .notFound else positionAnswer s k live staged

/-! ### QUERY_JOB (R70) -/

/-- The code of a context: current 0, next 1, parked 2, in the order of R77. -/
def contextCode : ContextName → Nat
  | .current => 0 | .next => 1 | .parked => 2

/-- The place of a QUEUED job in its ready queue, counted from 1 (R70). -/
def queuePlace (s : State) (n : Nat) (j : Job) : Option Nat :=
  if j.state = .queued then placeOf (fun x => decide (x.1 = n)) (s.readyQueue j.cls) else none

/-- The engine and context of an ASSIGNED or EXPOSING job (R70). -/
def jobContext (s : State) (n : Nat) (j : Job) : Option (EngineId × ContextName) :=
  if j.state = .assigned ∨ j.state = .exposing then contextOf s n else none

/-- The rack place of a RACKED job (R70). -/
def jobRackPlace (s : State) (n : Nat) (j : Job) : Option PlatePlace :=
  if j.state = .racked then some (rackPlace s n j) else none

/-- The fields of a job record, in the order of the table of R46. The rules give its pages and its raster slots no
layout: each is a counted list here, page A before page B (DESIGN CHOICE, log 41). -/
def jobFields (n : Nat) (j : Job) : List Field :=
  [.jobNumber n] ++ keyFields j.key
    ++ [.listLen j.pages.length] ++ (j.pages.map fun p => [Field.pageId p.1, Field.version p.2]).flatten
    ++ [.enum (sepNumber j.sep), .enum (formatCode (some j.format)), .enum (classCode (some j.colourNeed))]
    ++ listField (j.slots.map .slotRef)
    ++ [.enum (jobClassCode j.cls), .enum (originCode j.origin), .attempt j.attempt,
        .enum (jobStateCode j.state), .flag j.superseded]
    ++ optField (j.engine.map fun e => .unit (.engine e))
    ++ optField (j.lane.map fun l => .unit (.lane l))
    ++ optField (j.applied.map .offset)
    ++ optField (j.lastFault.map .fault)

/-- QUERY_JOB of a live job (R70). -/
def jobAnswer (s : State) (n : Nat) (j : Job) : Answer :=
  let x := s.pos? j.key
  okWith <|
    jobFields n j
      ++ [.flag (x.any fun y => decide (y.work.current = some n)),
          .flag (x.any fun y => decide (y.work.mounted = some n))]
      ++ optField ((queuePlace s n j).map .count)
      ++ optField (x.map fun y => .flag y.held)
      ++ optFields ((jobContext s n j).map fun c => [.unit (.engine c.1), .enum (contextCode c.2)])
      ++ optField ((jobRackPlace s n j).map fun p => .enum (placeCode p))

/-- QUERY_JOB (R70). -/
def queryJob (job : U16) (s : State) : Answer :=
  if job.toNat = 0 then bare .badValue
  else
    match s.job? job.toNat with
    | none => bare .notFound
    | some j => jobAnswer s job.toNat j

end Sys2Proof.Machine
end

