-- ==== Sys2Proof/Machine/Engines.lean ====
section
/-! DEFINITION. Machine/Engines.lean: the engine channels (chapter 4): the reports of R76, the timers,
engine faults and lockout, link loss and HELLO, the two requests that clear a fault, QUERY_ENGINE. -/

namespace Sys2Proof.Machine

open State

/-! ### Faults (R90 to R92) -/

/-- A job that a fault takes from an engine, with the terminal state of a superseded one (R63): a plate
was drawn for the current job only. -/
abbrev Taken := Nat × JobState

/-- The jobs in next and parked (R91 step 2). -/
def takenWaiting (c : Contexts) : List Taken :=
  (c.next.map fun w => (w.job, JobState.cancelled)).toList
    ++ (c.parked.map fun w => (w.job, JobState.cancelled)).toList

/-- The jobs in current, next and parked (R91 step 3, R92). -/
def takenAll (c : Contexts) : List Taken :=
  (c.current.map fun w => (w.job, JobState.discarded)).toList ++ takenWaiting c

/-- The command by which a waiting job leaves its context at a fault (R91). -/
def leaveCommand (w : WaitingCtx) : CancelCommand :=
  match w.stage with
  | .exposeSent => .abort
  | _ => .discard

/-- The current job leaves its context, and ABORT is sent for it (R91 step 3). -/
def abortCurrent (e : EngineId) (s : State) : State :=
  forSome (s.engine e).ctx.current (fun w => cancelJob e w.job .abort)
    (s.modCtx e fun c => { c with current := none })

/-- The next and parked jobs leave their contexts, next before parked, each with its command (R91 step 2). -/
def emptyWaiting (e : EngineId) (s : State) : State :=
  let c := (s.engine e).ctx
  forSome c.parked (fun w => cancelJob e w.job (leaveCommand w))
    (forSome c.next (fun w => cancelJob e w.job (leaveCommand w))
      (s.modCtx e fun c => { c with next := none, parked := none }))

/-- The jobs that an event other than their own fault has taken return to QUEUED, or end (R65, R63). -/
def returnAll (l : List Taken) (s : State) : State :=
  l.foldl (fun s x => returnTaken x.1 .engineFaulted x.2 s) s

/-- The job that an engine fault names returns to QUEUED, or ends (R90, R91 step 1). The colour-starved condition is
judged while the engine is still in its mode (R106); the engines are served when the fault has been taken whole. -/
def namedReturns (e : EngineId) (n : Nat) (cause : FaultCause) (s : State) : State :=
  evalStarved (returnByFaultBy evalStarved n cause (.engine e) .cancelled s)

/-- The job that an engine fault names is spoiled, or ends (R90, R91 step 1), in the same way. -/
def namedSpoils (e : EngineId) (n : Nat) (cause : FaultCause) (s : State) : State :=
  evalStarved (spoilBy evalStarved n cause (.engine e) s)

/-- An engine fault (R91). The job it names has left its context already; `named` deals with it by R90, before the
engine's record changes (R91 step 1). The engine's notice and the other jobs follow (R97); the colour-starved
condition is judged again when the engine's notice has been raised, for the change of mode (R106). -/
def engineFault (e : EngineId) (cause : EngineFaultCause) (job : Option Nat) (named : State → State)
    (s : State) : State :=
  let x := s.engine e
  let last := some (cause, s.clock)
  if x.status.mode = .lockedOut then (named s).modStatus e fun t => { t with lastFault := last }
  else if x.status.faultFlag then
    let s := named (emptyWaiting e (abortCurrent e s))
    let s := s.modStatus e fun t => { t with mode := .lockedOut, lastFault := last }
    let s := evalStarved (raise (.engineLockedOut e cause job) s)
    serve (returnAll (takenAll x.ctx) s)
  else
    let s := named (emptyWaiting e s)
    let s := s.modStatus e fun t => { t with mode := .faulted, faultFlag := true, lastFault := last }
    let s := evalStarved (raise (.engineFault e cause job) s)
    serve (returnAll (takenWaiting x.ctx) s)

/-- The record of an engine whose channel is lost or whose buffers are dropped (R92, R93). -/
def dropEngine (e : EngineId) (s : State) : State :=
  (s.modCtx e fun _ => Contexts.empty).modCassette e fun _ => Cassette.unknown

/-- A fault in which the engine itself has lost every job it held (R92): no command is sent. -/
def engineLost (e : EngineId) (cause : EngineFaultCause) (clearMode : EngineMode) (s : State) : State :=
  let x := s.engine e
  let mode := if x.status.faultFlag then .lockedOut else clearMode
  let s' := dropEngine e s
  let s' := s'.modStatus e fun _ => ⟨mode, false, true, some (cause, s.clock)⟩
  let s' := raise (if x.status.faultFlag then .engineLockedOut e cause none else .engineFault e cause none) s'
  returnAll (takenAll x.ctx) (evalStarved s')

/-- The jobs of an engine that a link loss returns to QUEUED (R97, ENGINE_OFFLINE). -/
def returnedCount (s : State) (e : EngineId) : Nat :=
  ((takenAll (s.engine e).ctx).filter fun x => (s.job? x.1).any fun j => !j.superseded).length

/-- Link loss (R92). -/
def engineLinkLoss (e : EngineId) (s : State) : State :=
  let x := s.engine e
  if x.status.mode ≠ .lockedOut ∧ x.ctx.holdsJob then
    serve (raise (.engineOffline e (returnedCount s e)) (engineLost e .linkLost .offline s))
  else
    let mode := if x.status.mode = .lockedOut then .lockedOut else .offline
    let s := (dropEngine e s).modStatus e fun t => { t with mode := mode, greeted := false }
    serve (raise (.engineOffline e 0) s)

/-- A HELLO is taken on an engine that holds no job (R93). -/
def greet (e : EngineId) (s : State) : State :=
  let s := (dropEngine e s).modStatus e fun t =>
    { t with greeted := true, mode := if t.mode = .offline then .running else t.mode }
  let t := (s.engine e).status
  serve (raise (.engineOnline e t.mode t.faultFlag) s)

/-- HELLO (R92, R93). -/
def hello (e : EngineId) (s : State) : State :=
  let x := s.engine e
  if (x.status.mode = .running ∨ x.status.mode = .faulted) ∧ x.ctx.holdsJob then
    greet e (engineLost e .engineRestarted .faulted s)
  else greet e s

/-! ### The cassette (R75) -/

/-- CASSETTE_LOADED (R75). -/
def cassetteLoaded (e : EngineId) (format : Option PlateFormat) (count : Nat) (s : State) : State :=
  let x := s.engine e
  if x.status.mode = .offline then s
  else if format = none ∨ Config.maxCassette < count then engineFault e .protocol none id s
  else
    let s' := s.modCassette e fun _ => ⟨format, count⟩
    if format ≠ x.cassette.format ∧ (x.ctx.next.isSome ∨ x.ctx.parked.isSome) then
      engineFault e .cassetteChanged none id s'
    else serve s'

/-! ### Reports about jobs (R78, R79) -/

/-- The entry of the cancel list that a report matches: by job number and attempt (R79). -/
def cancelEntry (s : State) (e : EngineId) (n attempt : Nat) : Option CancelEntry :=
  (s.engine e).ctx.cancel.find? fun x => x.job = n && x.attempt = attempt

/-- Remove an entry of the cancel list (R79). -/
def removeCancel (e : EngineId) (n : Nat) (s : State) : State :=
  s.modCtx e fun c => { c with cancel := c.cancel.filter fun x => x.job ≠ n }

/-- A report that matches nothing: a PROTOCOL fault of a RUNNING engine, ignored by a FAULTED one (R78). -/
def unmatched (e : EngineId) (s : State) : State :=
  if (s.engine e).status.mode = .running then engineFault e .protocol none id s else s

/-- A report about a job (R78): first the cancel list, then the contexts. `removes` says which entry the
report removes, `accepted` whether a context takes it, and `effect` what it then does. -/
def jobReport (e : EngineId) (n attempt : Nat) (removes : CancelCommand → Bool) (accepted : Bool)
    (effect : State → State) (s : State) : State :=
  match cancelEntry s e n attempt with
  | some x => if removes x.command then serve (removeCancel e n s) else s
  | none =>
    match (s.engine e).status.mode with
    | .offline | .lockedOut => s
    | _ => if accepted then effect s else unmatched e s

/-- A context holds the job at a stage, and the report names its attempt (R78). -/
def waitsAt (s : State) (w : Option WaitingCtx) (n attempt : Nat) (stage : LoadStage) : Bool :=
  w.any (fun w => w.job = n && w.stage = stage) && s.atAttempt n attempt

/-- The job is in next or parked at stage LOAD_SENT (R78). -/
def waitsLoad (s : State) (e : EngineId) (n attempt : Nat) : Bool :=
  waitsAt s (s.engine e).ctx.next n attempt .loadSent || waitsAt s (s.engine e).ctx.parked n attempt .loadSent

/-- The job is in next at stage EXPOSE_SENT (R78). -/
def waitsExpose (s : State) (e : EngineId) (n attempt : Nat) : Bool :=
  waitsAt s (s.engine e).ctx.next n attempt .exposeSent

/-- The job is in current (R78). -/
def inCurrent (s : State) (e : EngineId) (n attempt : Nat) : Bool :=
  (s.engine e).ctx.current.any (fun w => w.job = n) && s.atAttempt n attempt

/-- The stage of a waiting job becomes LOADED and its LOAD timer stops (R78, R84). -/
def markLoaded (n : Nat) (w : Option WaitingCtx) : Option WaitingCtx :=
  w.map fun w => if w.job = n then { w with stage := .loaded, timer := none } else w

/-- LOADED (R78). -/
def loaded (e : EngineId) (n attempt : Nat) (s : State) : State :=
  jobReport e n attempt (fun _ => false) (waitsLoad s e n attempt)
    (fun s => serve (s.modCtx e fun c =>
      { c with next := markLoaded n c.next, parked := markLoaded n c.parked })) s

/-- A job leaves next or parked. -/
def withoutWaiting (n : Nat) (c : Contexts) : Contexts :=
  { c with next := c.next.filter fun w => w.job ≠ n, parked := c.parked.filter fun w => w.job ≠ n }

/-- A job leaves next or parked with a command, and enters the cancel list (R79). -/
def leaveWaiting (e : EngineId) (n : Nat) (cmd : CancelCommand) (s : State) : State :=
  cancelJob e n cmd (s.modCtx e (withoutWaiting n))

/-- The slot of a job that holds a store reference (R10). -/
def slotHolding (s : State) (j : Job) (ref : U64) : Option SlotKey :=
  j.slots.find? fun k => (s.slot? k).any fun x => x.ref = ref

/-- A slot is marked BAD; RASTER_BAD is raised after the job's own notice (R10, R90). -/
def markBad (k : SlotKey) (n : Nat) (e : EngineId) (s : State) : State :=
  let was := (s.slot? k).any Slot.bad
  let s := failJob n (s.modSlot k fun x => { x with bad := true })
  if was then s else raise (.rasterBad k n e) s

/-- LOAD_FAULT with cause RASTER_UNREADABLE (R10, R67, R90): no engine fault. -/
def rasterUnreadable (e : EngineId) (n : Nat) (ref : U64) (s : State) : State :=
  let s := (leaveWaiting e n .discard s).modCtx e Contexts.parkedReturn
  match s.job? n with
  | none => serve s
  | some j =>
    match slotHolding s j ref with
    | some k =>
      if j.superseded then depart n .cancelled (recordFault n .rasterUnreadable (.engine e) s)
      else serve (markBad k n e (recordFault n .rasterUnreadable (.engine e) s))
    | none => serve (returnByFault n .rasterUnreadable (.engine e) .cancelled s)

/-- LOAD_FAULT (R90). -/
def loadFault (e : EngineId) (n attempt : Nat) (cause : LoadFaultCause) (s : State) : State :=
  jobReport e n attempt (fun _ => false) (waitsLoad s e n attempt)
    (fun s =>
      match cause with
      | .rasterUnreadable ref => rasterUnreadable e n ref s
      | .code c =>
        engineFault e .loadFault (some n) (namedReturns e n (.loadFault c)) (leaveWaiting e n .discard s)) s

/-- EXPOSE_STARTED for the next job (R87): it moves to current. -/
def startExposure (e : EngineId) (w : WaitingCtx) (s : State) : State :=
  let count := (s.engine e).cassette.count
  let expose := s.limits.expose
  let s := s.modCtx e fun c =>
    Contexts.parkedReturn { c with current := some ⟨w.job, expose, w.cut⟩, next := none }
  let s := s.modJob w.job fun j => { j with state := .exposing }
  let s := s.modCassette e fun c => { c with count := c.count - 1 }
  let s := s.modGates e fun g => { g with allowance := false }
  let s := if count = 1 then raise (.cassetteEmpty e (s.engine e).cassette.format) s else s
  serve s

/-- EXPOSE_STARTED (R87). -/
def exposeStarted (e : EngineId) (n attempt : Nat) (s : State) : State :=
  jobReport e n attempt (fun _ => false) (waitsExpose s e n attempt)
    (fun s => forSome (s.engine e).ctx.next (startExposure e) s) s

/-- EXPOSE_DONE for the current job (R88): it becomes DEVELOPING, and its lane order takes it. -/
def endExposure (e : EngineId) (n : Nat) (s : State) : State :=
  let l := laneFed e
  let transit := (s.lane l).transit
  let s := s.modCtx e fun c => { c with current := none }
  let s := releaseRefs ((s.job? n).map Job.slots |>.getD []) s
  let s := s.modJob n fun j => { j with state := .developing, lane := some l }
  serve (s.modFloor l fun f => { f with order := f.order ++ [⟨n, .inDeveloper, some transit⟩] })

/-- A report removes an ABORT entry (R79). -/
def removesAbort : CancelCommand → Bool
  | .abort => true
  | .discard => false

/-- A report removes a DISCARD entry (R79). -/
def removesDiscard : CancelCommand → Bool
  | .discard => true
  | .abort => false

/-- EXPOSE_DONE (R88). -/
def exposeDone (e : EngineId) (n attempt : Nat) (s : State) : State :=
  jobReport e n attempt removesAbort (inCurrent s e n attempt) (endExposure e n) s

/-- A job leaves current, or next at stage EXPOSE_SENT. -/
def leaveExposure (e : EngineId) (n : Nat) (s : State) : State :=
  s.modCtx e fun c => withoutWaiting n { c with current := c.current.filter fun w => w.job ≠ n }

/-- The job in current or next carries a cut mark (R89). -/
def isCut (s : State) (e : EngineId) (n : Nat) : Bool :=
  (s.engine e).ctx.current.any (fun w => w.job = n && w.cut)
    || (s.engine e).ctx.next.any (fun w => w.job = n && w.cut)

/-- EXPOSE_FAULT for a job in current, or in next at EXPOSE_SENT (R89, R90). -/
def exposureFault (e : EngineId) (n : Nat) (consumed : Bool) (s : State) : State :=
  if isCut s e n then
    serve (returnByFault n .cut (.engine e) .discarded
      ((leaveExposure e n s).modCtx e Contexts.parkedReturn))
  else if consumed then
    engineFault e .exposeFault (some n) (namedSpoils e n .exposeFault) (leaveExposure e n s)
  else
    engineFault e .exposeInterrupted (some n) (namedReturns e n .exposeInterrupted) (leaveExposure e n s)

/-- EXPOSE_FAULT (R89, R90). -/
def exposeFault (e : EngineId) (n attempt : Nat) (consumed : Bool) (s : State) : State :=
  jobReport e n attempt removesAbort (inCurrent s e n attempt || waitsExpose s e n attempt)
    (exposureFault e n consumed) s

/-- DISCARDED (R78, R79). -/
def discarded (e : EngineId) (n attempt : Nat) (s : State) : State :=
  jobReport e n attempt removesDiscard false id s

/-! ### Timers (R84, R87, R90) -/

/-- The waiting job of a context. -/
def waitingOf (c : Contexts) : WaitingContext → Option WaitingCtx
  | .next => c.next
  | .parked => c.parked

/-- A running LOAD timer expires (R84, R90). -/
def loadTimeout (e : EngineId) (w : WaitingCtx) (s : State) : State :=
  engineFault e .loadTimeout (some w.job) (namedReturns e w.job .loadTimeout) (leaveWaiting e w.job (leaveCommand w) s)

/-- The LOAD timer of a context expires, if it runs (R84). -/
def loadTimerExpiry (e : EngineId) (x : WaitingContext) (s : State) : State :=
  match waitingOf (s.engine e).ctx x with
  | some w => if w.timer.isSome then loadTimeout e w s else s
  | none => s

/-- The EXPOSE timer expires, if it runs: it runs while current holds a job (R87, R90). -/
def exposeTimerExpiry (e : EngineId) (s : State) : State :=
  match (s.engine e).ctx.current with
  | none => s
  | some w =>
    engineFault e .exposeTimeout (some w.job) (namedSpoils e w.job .exposeTimeout) (abortCurrent e s)

/-! ### The two requests (R94) -/

/-- CLEAR_ENGINE_FAULT (R94). -/
def reqClearEngineFault (engine : Byte) (s : State) : State × Answer :=
  match engineOf engine with
  | none => (s, bare .badValue)
  | some e =>
    let t := (s.engine e).status
    if t.mode = .lockedOut ∨ (t.mode ≠ .faulted ∧ t.faultFlag = false) then (s, bare .wrongState)
    else
      let mode := if t.mode = .faulted then .running else t.mode
      let s := s.modStatus e fun t => { t with mode := mode, faultFlag := false }
      (serve (raise (.engineCleared e mode) s), bare .ok)

/-- RESTORE_ENGINE (R94). -/
def reqRestoreEngine (engine : Byte) (s : State) : State × Answer :=
  match engineOf engine with
  | none => (s, bare .badValue)
  | some e =>
    let t := (s.engine e).status
    if t.mode = .lockedOut then
      let mode := if t.greeted then .running else .offline
      let s := s.modStatus e fun t => { t with mode := mode, faultFlag := false }
      (serve (raise (.engineRestored e mode) s), bare .ok)
    else (s, bare .wrongState)

/-- REARM_REGISTER (R107). -/
def reqRearmRegister (engine : Byte) (s : State) : State × Answer :=
  match engineOf engine with
  | none => (s, bare .badValue)
  | some e => (rearm e s, bare .ok)

/-! ### QUERY_ENGINE (R97, R110) -/

/-- Job number, attempt and class of a job in a context. -/
def contextFields (s : State) (n : Nat) : List Field :=
  [.jobNumber n] ++ ((s.job? n).map fun j =>
    [Field.attempt j.attempt, Field.enum (jobClassCode j.cls)]).getD []

/-- A waiting job with its stage. -/
def waitingFields (s : State) (w : WaitingCtx) : List Field :=
  contextFields s w.job ++ [.enum (loadStageCode w.stage)]

/-- QUERY_ENGINE of an engine (R97, R110). The spec gives the remaining times no layout: they are three optional
fields here, the EXPOSE timer of current, the LOAD timer of next and the LOAD timer of parked (DESIGN CHOICE,
log 41). -/
def engineAnswer (s : State) (e : EngineId) : Answer :=
  let x := s.engine e
  let r := s.register e
  okWith <|
    [.enum (modeCode x.status.mode), .flag x.status.greeted, .flag x.status.faultFlag]
      ++ optFields (x.status.lastFault.map fun f => [.enum (engineFaultCode f.1), .plantTime f.2])
      ++ [.flag x.gates.held, .flag x.gates.stopped, .flag x.gates.allowance, .flag x.starved,
          .enum (formatCode x.cassette.format), .count x.cassette.count]
      ++ optFields (x.ctx.current.map fun w => contextFields s w.job)
      ++ optFields (x.ctx.next.map (waitingFields s))
      ++ optFields (x.ctx.parked.map (waitingFields s))
      ++ optField (x.ctx.current.map fun w => .remaining w.timer)
      ++ optField ((x.ctx.next.bind WaitingCtx.timer).map .remaining)
      ++ optField ((x.ctx.parked.bind WaitingCtx.timer).map .remaining)
      ++ [.count x.ctx.cancel.length, .unit (.lane (laneFed e)), .count (s.laneLoad (laneFed e)),
          .enum (registerCode r.state), .offset r.correction, .count r.run]
      ++ listField (r.window.map .offset)

/-- QUERY_ENGINE (R97). -/
def queryEngine (engine : Byte) (s : State) : Answer :=
  match engineOf engine with
  | none => bare .badValue
  | some e => engineAnswer s e

end Sys2Proof.Machine
end

