-- ==== Sys2Proof/Machine/Lanes.lean ====
section
/-! DEFINITION. Machine/Lanes.lean: the lane controllers (chapter 6, and R169, R170 of a clearing phase):
inspection, pending inspections, punching, bending, the exit, transit timers, link loss and
restoration, QUERY_LANE of a lane. -/

namespace Sys2Proof.Machine

open State

/-- A lane report error (R124). -/
def laneError (l : LaneId) (r : LaneReportKind) (named : Option (Nat × Nat)) (s : State) : State :=
  raise (.laneProtocol (.lane l) r named) s

/-- An entry leaves a lane order (R112). -/
def dropEntry (l : LaneId) (n : Nat) (s : State) : State :=
  s.modFloor l fun f => { f with order := f.order.filter fun x => x.job ≠ n }

/-- A lane has an entry for the job at a stage, and the report's attempt is the job's (R112, R121). -/
def hasEntry (s : State) (l : LaneId) (n attempt : Nat) (stage : LaneStage) : Bool :=
  (s.lane l).floor.order.any (fun x => x.job = n && x.stage = stage) && s.atAttempt n attempt

/-! ### What AT_INSPECT carries (R114, R115) -/

/-- The measured offset, when the marks were found and it lies in the reported range (R115). -/
def measuredOf (r : InspectReport) : Option Offset :=
  r.marks.filter fun m => insideBy Config.offsetRange.toNat m

/-- The tag is sound (R115). -/
def soundTag (s : State) (t : TagFields) : Bool :=
  t.attempt ≠ 0 && t.check = ~~~t.job && t.job ≠ 0 &&
  match s.job? t.job.toNat with
  | some j => j.press = t.press && j.pos = t.position
  | none => true

/-- The tag of a report, if it is sound. -/
def soundTagOf (s : State) (r : InspectReport) : Option TagFields :=
  match r.tag with
  | .unreadable => none
  | .read t => if soundTag s t then some t else none

/-- The job and attempt of a report's tag. -/
def tagNames (r : InspectReport) : Option (Nat × Nat) :=
  match r.tag with
  | .unreadable => none
  | .read t => some (t.job.toNat, t.attempt.toNat)

/-! ### Decisions (R116 to R119) -/

/-- An unreadable plate is charged to the head of inspection (R117). -/
def decideUnreadable (l : LaneId) (r : InspectReport) (s : State) : State :=
  let s := s.send (.reject l 0)
  match headOf (s.lane l).floor.order with
  | some h => serve (spoil h.job .tagUnreadable (.lane l) (dropEntry l h.job s))
  | none => raise (.strayPlate l r.tag .unreadable) s

/-- A sample is handed for an identified plate whose marks were found (R99, R119). The job's engine
and applied correction are those it had when the plate was decided. -/
def handSample (j : Job) (m : Option Offset) (s : State) : State :=
  match m, j.engine, j.applied with
  | some m, some e, some c => takeSample e m c s
  | _, _, _ => s

/-- The offset lies within the punch capture range (R119). -/
def punchable (m : Offset) : Bool := insideBy Config.punchCapture.toNat m

/-- The plate is passed: it goes to the punch and its job becomes FINISHING (R119 case 3). -/
def passPlate (l : LaneId) (n : Nat) (j : Job) (m : Offset) (s : State) : State :=
  let s := s.send (.pass l n j.attempt m)
  let s := s.modFloor l fun f =>
    { f with order := f.order.map fun x =>
        if x.job = n then { x with stage := .punching, timer := none } else x }
  s.modJob n fun x => { x with state := .finishing }

/-- The plate is rejected for register (R119 case 2). -/
def rejectRegister (l : LaneId) (n : Nat) (m : Option Offset) (s : State) : State :=
  let param := match m with
    | some m => FaultParam.offset m
    | none => .lane l
  serve (spoil n .registerReject param (dropEntry l n (s.send (.reject l n))))

/-- The decision of an identified plate (R119). -/
def decidePlate (l : LaneId) (n : Nat) (j : Job) (m : Option Offset) (s : State) : State :=
  if j.superseded then depart n .discarded (dropEntry l n (s.send (.reject l n)))
  else
    match m with
    | some o => if punchable o then passPlate l n j o s else rejectRegister l n m s
    | none => rejectRegister l n m s

/-- An identified plate is decided, and its sample handed (R119). -/
def decideIdentified (l : LaneId) (n : Nat) (m : Option Offset) (s : State) : State :=
  match s.job? n with
  | some j => handSample j m (decidePlate l n j m s)
  | none => s

/-- The entries IN_DEVELOPER that lie ahead of a job's entry (R117). -/
def skippedBy (n : Nat) (order : List LaneEntry) : List LaneEntry :=
  (order.takeWhile fun x => x.job ≠ n).filter fun x => x.stage = .inDeveloper

/-- Resynchronisation: each skipped job is spoiled in order (R117). -/
def resynchronise (l : LaneId) (n : Nat) (s : State) : State :=
  (skippedBy n (s.lane l).floor.order).foldl
    (fun s x => serve (spoil x.job .missingFromLane (.lane l) (dropEntry l x.job s))) s

/-- The reason of a stray (R118). -/
def strayReason (s : State) (l : LaneId) (n : Nat) : StrayReason :=
  match (s.lane l).floor.order.find? fun x => x.job = n with
  | none => .notInOrder
  | some x => if x.stage = .inDeveloper then .attemptMismatch else .pastInspection

/-- A stray plate (R118). -/
def decideStray (l : LaneId) (r : InspectReport) (why : StrayReason) (s : State) : State :=
  raise (.strayPlate l r.tag why) (s.send (.reject l 0))

/-- The decision of a report (R116). -/
def decideReport (l : LaneId) (r : InspectReport) (s : State) : State :=
  match soundTagOf s r with
  | none => decideUnreadable l r s
  | some t =>
    let n := t.job.toNat
    if hasEntry s l n t.attempt.toNat .inDeveloper then
      decideIdentified l n (measuredOf r) (resynchronise l n s)
    else decideStray l r (strayReason s l n) s

/-! ### Decisions in a clearing phase (R169) -/

/-- The job is UNCERTAIN and its lane field names the lane (R169, R170). -/
def uncertainHere (s : State) (l : LaneId) (n : Nat) : Bool :=
  (s.job? n).any fun j => j.state = .uncertain && j.lane = some l

/-- The reclaimed count rises by 1 (R169, R170). -/
def countReclaimed (s : State) : State :=
  s.modRestart fun r => { r with counts := { r.counts with reclaimed := r.counts.reclaimed + 1 } }

/-- An UNCERTAIN job is put at the end of the lane order; its references are released (R169, R170). -/
def reclaim (l : LaneId) (n : Nat) (st : JobState) (stage : LaneStage) (s : State) : State :=
  let s := releaseRefs ((s.job? n).map Job.slots |>.getD []) s
  let s := s.modJob n fun j => { j with state := st }
  s.modFloor l fun f => { f with order := f.order ++ [⟨n, stage, none⟩] }

/-- The decision of a report while the lane is clearing (R169). -/
def decideClearing (l : LaneId) (r : InspectReport) (s : State) : State :=
  match soundTagOf s r with
  | none => decideStray l r .unreadable s
  | some t =>
    let n := t.job.toNat
    if uncertainHere s l n then
      if s.atAttempt n t.attempt.toNat then
        countReclaimed (decideIdentified l n (measuredOf r) (reclaim l n .developing .inDeveloper s))
      else decideStray l r .attemptMismatch s
    else decideStray l r .notInOrder s

/-- A report is decided; a step allowance through which the lane is open is used (R116, R120, R169). -/
def decide1 (l : LaneId) (r : InspectReport) (s : State) : State :=
  let s := if (s.lane l).byStep then s.useLaneStep l else s
  if (s.lane l).clearing then decideClearing l r s else decideReport l r s

/-- Decide pending inspections from the front while the lane is open (R120). -/
def decidePending (l : LaneId) : Nat → State → State
  | 0, s => s
  | fuel + 1, s =>
    if (s.lane l).isOpen then
      match (s.lane l).inspections with
      | r :: rest => decidePending l fuel (decide1 l r (s.modLane l fun x => { x with inspections := rest }))
      | [] => s
    else s

/-- A lane may have become open: its pending inspections are decided, then the sorter looks (R120, R154). So at the STEP
of a held lane with both a report pending and an exit request standing, the report uses the allowance and the exit is
not granted: R155's "whichever comes first" does not settle it (the model's choice, assumption 46). -/
def laneOpened (l : LaneId) (s : State) : State :=
  serve (sorterLook (decidePending l (s.lane l).inspections.length s))

/-! ### Reports (R114, R121 to R123) -/

/-- AT_INSPECT (R116). -/
def atInspect (l : LaneId) (r : InspectReport) (s : State) : State :=
  let x := s.lane l
  if x.isOpen && x.inspections = [] then decide1 l r s
  else if x.inspections.length < Config.pendingInspections then
    s.modLane l fun x => { x with inspections := x.inspections ++ [r] }
  else laneError l .atInspect (tagNames r) s

/-- PUNCHED_BENT (R121, R170). -/
def punchedBent (l : LaneId) (n attempt : Nat) (s : State) : State :=
  if hasEntry s l n attempt .punching then
    s.modFloor l fun f => { f with order := markStage n .bent f.order }
  else if (s.lane l).clearing && uncertainHere s l n && s.atAttempt n attempt then s
  else laneError l .punchedBent (some (n, attempt)) s

/-- PUNCH_FAULT (R122). -/
def punchFault (l : LaneId) (n attempt : Nat) (s : State) : State :=
  if hasEntry s l n attempt .punching then serve (spoil n .punchFault (.lane l) (dropEntry l n s))
  else laneError l .punchFault (some (n, attempt)) s

/-- The exit request names a job (R123). -/
def setExit (l : LaneId) (n : Nat) (s : State) : State :=
  s.modFloor l fun f => { f with order := markStage n .atExit f.order, exit := some n }

/-- AT_EXIT (R123, R170). -/
def atExit (l : LaneId) (n attempt : Nat) (s : State) : State :=
  if (s.lane l).floor.exit.isSome then laneError l .atExit (some (n, attempt)) s
  else if hasEntry s l n attempt .bent then sorterLook (setExit l n s)
  else if (s.lane l).clearing && uncertainHere s l n && s.atAttempt n attempt then
    sorterLook (countReclaimed (setExit l n (reclaim l n .finishing .atExit s)))
  else laneError l .atExit (some (n, attempt)) s

/-- A transit timer expires, if it runs: the lane is open and the entry has one (R113). -/
def transitExpiry (l : LaneId) (n : Nat) (s : State) : State :=
  if (s.lane l).isOpen
      && (s.lane l).floor.order.any (fun x => x.job = n && x.stage = .inDeveloper && x.timer.isSome) then
    serve (spoil n .transitTimeout (.lane l) (dropEntry l n s))
  else s

/-- Link loss of a lane (R131). -/
def laneLinkLoss (l : LaneId) (s : State) : State :=
  s.modLane l fun x => { x with lost := true, inspections := [] }

/-- Restoration of a lane (R131). -/
def laneRestoration (l : LaneId) (s : State) : State :=
  laneOpened l (s.modLane l fun x => { x with lost := false })

/-! ### QUERY_LANE of a lane (R134) -/

/-- The fields of an entry (R134). -/
def entryFields (s : State) (x : LaneEntry) : List Field :=
  [.jobNumber x.job]
    ++ ((s.job? x.job).map fun j =>
        [Field.attempt j.attempt, Field.enum (jobClassCode j.cls), Field.flag j.superseded]).getD []
    ++ [.enum (laneStageCode x.stage)] ++ optField (x.timer.map .remaining)

/-- QUERY_LANE of a lane (R134). R115 has an UNREADABLE tag and a READ but unsound one told apart in QUERY_LANE, and
R134's list of its fields holds nothing of a tag: the answer is R134's list, and shows neither (DESIGN CHOICE,
log 41). -/
def laneAnswer (s : State) (l : LaneId) : Answer :=
  let x := s.lane l
  okWith <|
    [.listLen x.floor.order.length] ++ (x.floor.order.map (entryFields s)).flatten
      ++ optField ((headOf x.floor.order).map fun h => .jobNumber h.job)
      ++ [.count x.inspections.length]
      ++ optField (x.floor.exit.map .jobNumber)
      ++ [.flag x.floor.blocked, .count (s.laneLoad l), .flag x.gates.held, .flag x.gates.stopped,
          .flag x.gates.allowance, .flag x.isOpen, .limitValue x.transit, .enum (policyCode x.policy),
          .flag x.clearing]

end Sys2Proof.Machine
end

