-- ==== Sys2Proof/Machine/SorterUnit.lean ====
section
/-! DEFINITION. Machine/SorterUnit.lean: the sorter's reports, its link loss and restoration (R129 to R131),
and QUERY_LANE (R134). Its look and its grant are in Machine/Reactions.lean. -/

namespace Sys2Proof.Machine

open State

/-- A sorter report error (R130). -/
def sorterError (r : LaneReportKind) (n attempt : Nat) (s : State) : State :=
  raise (.laneProtocol .sorter r (some (n, attempt))) s

/-- A delivery ends: the sorter is no longer busy, its lane is the last served and has no exit
request, and the sorter looks again (R129 step 3). -/
def endDelivery (l : LaneId) (s : State) : State :=
  let s := ((s.setDelivery none).setServed l).modFloor l fun f => { f with exit := none }
  serve (sorterLook s)

/-- A plate has been added to its slot or shelf (R129 step 1): its job becomes RACKED. -/
def racked (l : LaneId) (n : Nat) (j : Job) (place : PlatePlace) (s : State) : State :=
  let s := dropEntry l n (s.modJob n fun x => { x with state := .racked })
  let s := raise (.plateRacked n j.key place j.superseded) s
  if j.superseded then raise (.pullRequired n j.key place) s else tellSatisfied j.key s

/-- The sorter has placed the plate (R129 steps 1 and 2). -/
def placePlate (d : Delivery) (s : State) : State :=
  match s.job? d.job with
  | none => s
  | some j =>
    match d.dest with
    | .rackSlot p q =>
      racked d.lane d.job j .rackSlot (s.setRack ⟨p, q⟩ (s.rack ⟨p, q⟩ ++ [d.job]))
    | .shelf p => racked d.lane d.job j .shelf (s.setShelf p (s.shelf p ++ [(d.job, j.pos)]))
    | .rejectBin => depart d.job .discarded (dropEntry d.lane d.job s)

/-- SORTED (R129). -/
def sorted (n attempt : Nat) (dest : Destination) (s : State) : State :=
  match s.sorter.delivery with
  | none => sorterError .sorted n attempt s
  | some d =>
    if d.job = n ∧ d.attempt = attempt ∧ d.dest = dest then endDelivery d.lane (placePlate d s)
    else sorterError .sorted n attempt s

/-- The plate of a delivery is lost (R130). -/
def losePlate (d : Delivery) (s : State) : State :=
  endDelivery d.lane <| evalStarved (spoil d.job .sortFault (.lane d.lane) (dropEntry d.lane d.job s))

/-- SORT_FAULT (R130). -/
def sortFault (n attempt : Nat) (s : State) : State :=
  match s.sorter.delivery with
  | none => sorterError .sortFault n attempt s
  | some d =>
    if d.job = n ∧ d.attempt = attempt then losePlate d s else sorterError .sortFault n attempt s

/-- Link loss of the sorter (R131): a delivery in progress is taken as a SORT_FAULT. -/
def sorterLinkLoss (s : State) : State :=
  let s := s.modSorter fun x => { x with lost := true }
  match s.sorter.delivery with
  | some d => losePlate d s
  | none => s

/-- Restoration of the sorter (R131). -/
def sorterRestoration (s : State) : State := sorterLook (s.modSorter fun x => { x with lost := false })

/-! ### QUERY_LANE (R134) -/

/-- The fields of a destination. -/
def destinationFields (d : Destination) : List Field :=
  match d with
  | .rackSlot p q => [.enum (destinationCode d), .press p, .position q]
  | .shelf p => [.enum (destinationCode d), .press p]
  | .rejectBin => [.enum (destinationCode d)]

/-- How a lane's exit is reported: candidate 0, rack-blocked 1, absent 2 (R134). -/
def exitField (s : State) (l : LaneId) : Field :=
  if (s.lane l).floor.exit.isNone then .enum 2
  else if (s.candidate l).isSome then .enum 0
  else if (s.lane l).floor.blocked then .enum 1
  else .exitNeither

/-- QUERY_LANE of the sorter (R134). The exits of L0 and L1 stand one after the other, with no count byte (DESIGN
CHOICE, log 44). -/
def sorterAnswer (s : State) : Answer :=
  let x := s.sorter
  okWith <|
    [.flag x.delivery.isSome]
      ++ optFields (x.delivery.map fun d =>
          [.unit (.lane d.lane), .jobNumber d.job, .attempt d.attempt] ++ destinationFields d.dest)
      ++ optField (x.lastServed.map fun l => .unit (.lane l))
      ++ [.flag x.held, .flag x.allowance]
      ++ allLanes.map (exitField s)

/-- QUERY_LANE (R134). -/
def queryLane (unit : Byte) (s : State) : Answer :=
  match unitOf unit with
  | some (.lane l) => laneAnswer s l
  | some .sorter => sorterAnswer s
  | _ => bare .badValue

end Sys2Proof.Machine
end

