-- ==== Sys2Proof/Machine/PressRoom.lean ====
section
/-! DEFINITION. Machine/PressRoom.lean: the press racks and the press schedule (chapter 7): pulls, mounts,
unmounts, starting and stopping, the clock, the schedule and its alarms, QUERY_PRESS; and the tick
that counts the part's timers down. -/

namespace Sys2Proof.Machine

open State

/-! ### Pulls, mounts and unmounts (R136 to R139) -/

/-- A job is live and superseded. -/
def isSuperseded (s : State) (n : Nat) : Bool := (s.job? n).any Job.superseded

/-- The superseded plates of a position: in its slot in slot order, then on the shelf (R137). -/
def pullable (s : State) (k : PosKey) : List Nat :=
  (s.rack k ++ ((s.shelf k.press).filter fun x => x.2 = k.pos).map Prod.fst).filter (isSuperseded s)

/-- A plate leaves its slot or the shelf of its press (R136). -/
def takePlate (k : PosKey) (n : Nat) (s : State) : State :=
  (s.setRack k ((s.rack k).filter fun m => m ≠ n)).setShelf k.press
    ((s.shelf k.press).filter fun x => x.1 ≠ n)

/-- PULL_CONFIRM (R137). -/
def reqPullConfirm (press pos : Byte) (s : State) : State × Answer :=
  match keyOf press pos with
  | none => (s, bare .badValue)
  | some k =>
    let l := pullable s k
    if l = [] then (s, bare .noPlate)
    else
      (sorterLook (l.foldl (fun s n => depart n .retired (takePlate k n s)) s),
        okWith ([.count l.length] ++ listField (l.map .jobNumber)))

/-- A MOUNT that is taken (R138 step 4). -/
def mountPlate (k : PosKey) (n : Nat) (old : Option Nat) (s : State) : State :=
  let s := (takePlate k n s).modJob n fun j => { j with state := .mounted }
  let s := s.modWork k fun w => { w with mounted := some n }
  let s := forSome old (fun m => depart m .retired) s
  sorterLook (raise (.plateMounted k n old) s)

/-- MOUNT (R138). -/
def reqMount (press pos : Byte) (s : State) : State × Answer :=
  match keyOf press pos with
  | none => (s, bare .badValue)
  | some k =>
    match s.pos? k with
    | none => (s, bare .notFound)
    | some x =>
      match x.work.current with
      | none => (s, ⟨.noPlate, optField none⟩)
      | some n =>
        if s.jobState n = some .racked then (mountPlate k n x.work.mounted s, bare .ok)
        else (s, ⟨.noPlate, optField ((s.jobState n).map fun st => .enum (jobStateCode st))⟩)

/-- An UNMOUNT that is taken (R139 step 4). -/
def unmountPlate (k : PosKey) (n : Nat) (s : State) : State :=
  sorterLook (raise (.plateUnmounted k n) (retireMounted k s))

/-- UNMOUNT (R139). -/
def reqUnmount (press pos : Byte) (s : State) : State × Answer :=
  match keyOf press pos with
  | none => (s, bare .badValue)
  | some k =>
    match s.pos? k with
    | none => (s, bare .notFound)
    | some x =>
      match x.work.mounted with
      | none => (s, bare .noPlate)
      | some n => (unmountPlate k n s, bare .ok)

/-! ### Starting and stopping (R142, R143) -/

/-- A press starts (R142 step 5). -/
def startPress (p : PressId) (force : Bool) (s : State) : State :=
  let x := s.press p
  raise (.pressStarted p x.edition x.unsatisfied force x.late) (s.setPressState p .running)

/-- PRESS_START (R142). -/
def reqPressStart (press force : Byte) (s : State) : State × Answer :=
  match pressOf press, flagOf force with
  | some p, some f =>
    let x := s.press p
    match x.state with
    | .running => (s, bare .wrongState)
    | .idle => (s, bare .notReady)
    | .makeready =>
      if f then (startPress p f s, okWith [.count x.unsatisfied])
      else (s, ⟨.notReady, [.count x.unsatisfied]⟩)
    | .ready => (startPress p f s, okWith [.count x.unsatisfied])
  | _, _ => (s, bare .badValue)

/-- A press stops (R143). -/
def stopPress (p : PressId) (s : State) : State :=
  let x := s.press p
  let st := stateOfCounts x.positions x.unsatisfied
  let s := raise (.pressStopped p st) (s.setPressState p st)
  if st = .ready then raise (.pressReady p x.edition x.positions) s else s

/-- PRESS_STOP (R143). -/
def reqPressStop (press : Byte) (s : State) : State × Answer :=
  match pressOf press with
  | none => (s, bare .badValue)
  | some p => if (s.press p).state = .running then (stopPress p s, bare .ok) else (s, bare .wrongState)

/-! ### The clock and the schedule (R145 to R148) -/

/-- SET_CLOCK (R145). -/
def reqSetClock (time : U32) (s : State) : State × Answer :=
  (raise (.clockSet s.clock time.toNat) (s.setClock time.toNat), bare .ok)

/-- A schedule is set (R145 steps 1 to 5). -/
def schedulePress (p : PressId) (start : Option Nat) (lead : Nat) (s : State) : State :=
  serve (raise (.pressScheduled p start lead) (s.modPress p fun x =>
    { x with start := start, lead := lead, window := false, late := false,
             windowArmed := start.isSome, startArmed := start.isSome }))

/-- SET_PRESS_SCHEDULE (R145). -/
def reqSetPressSchedule (press : Byte) (start : Option U32) (lead : U16) (s : State) : State × Answer :=
  match pressOf press with
  | none => (s, bare .badValue)
  | some p =>
    if Config.maxLead < lead.toNat then (s, bare .badValue)
    else (schedulePress p (start.map BitVec.toNat) lead.toNat s, bare .ok)

/-- The window alarm of a press is taken (R147): armed, with the clock at or past the window time (R146). -/
def windowAlarm (p : PressId) (s : State) : State :=
  let x := s.press p
  match x.start with
  | none => s
  | some t =>
    if x.windowArmed && windowTime t x.lead ≤ s.clock then
      let s := s.modPress p fun y => { y with windowArmed := false, window := true }
      let n := (promotable s p).length
      raise (.deadlineWindow p t (windowTime t x.lead) n) (promoteAll p s)
    else s

/-- The start alarm of a press is taken (R148): armed, with the clock at or past the start time (R146). -/
def startAlarm (p : PressId) (s : State) : State :=
  let x := s.press p
  match x.start with
  | none => s
  | some t =>
    if x.startArmed && t ≤ s.clock then
      let s := s.modPress p fun y => { y with startArmed := false }
      if x.state = .running then s
      else raise (.pressLate p x.state t x.unsatisfied) (s.modPress p fun y => { y with late := true })
    else s

/-- The alarm check: each press in turn, window before start (R146). -/
def alarmCheck (s : State) : State := allPresses.foldl (fun s p => startAlarm p (windowAlarm p s)) s

/-- One second off a timer that runs. -/
def tickWaiting (w : Option WaitingCtx) : Option WaitingCtx :=
  w.map fun w => { w with timer := w.timer.map (· - 1) }

/-- One second off an engine's timers (R84, R87). -/
def tickEngine (e : EngineId) (s : State) : State :=
  s.modCtx e fun c =>
    { c with current := c.current.map (fun w => { w with timer := w.timer - 1 }),
             next := tickWaiting c.next, parked := tickWaiting c.parked }

/-- One second off a lane's transit timers, which run while the lane is open (R113). -/
def tickLane (l : LaneId) (s : State) : State :=
  if (s.lane l).isOpen then
    s.modFloor l fun f => { f with order := f.order.map fun x => { x with timer := x.timer.map (· - 1) } }
  else s

/-- One second off every timer that runs (R84, R87, R113, R167). -/
def tickTimers (s : State) : State :=
  let s := allLanes.foldl (fun s l => tickLane l s) (allEngines.foldl (fun s e => tickEngine e s) s)
  s.modRestart fun r => { r with timer := r.timer.map (· - 1) }

/-- One second: the clock advances, the timers count down, and the alarms are checked (R145, R146). -/
def clockTick (s : State) : State :=
  alarmCheck (tickTimers (s.setClock (if s.clock < Config.maxClock then s.clock + 1 else s.clock)))

/-! ### QUERY_PRESS (R150) -/

/-- The number of superseded plates of a press standing in slots or on the shelf (R150). -/
def supersededPlates (s : State) (p : PressId) : Nat :=
  (((s.racks.filter fun e => e.1.press = p).map Prod.snd).flatten.filter (isSuperseded s)).length
    + ((s.shelf p).filter fun x => isSuperseded s x.1).length

/-- The positions whose staged entry differs from the live plan (R32, R38). -/
def differing (s : State) (p : PressId) : Nat :=
  (allPositions.filter fun q =>
    decide (liveContent s ⟨p, q⟩ ≠ tget (s.stage p).entries q)).length

/-- QUERY_PRESS of a press (R150). The element of each live position also carries the position's number, the
window time is an optional field with a presence byte of its own, absent where there is no start time, and each
alarm, ARMED or DISARMED (R140), is a yes or no byte, 1 for ARMED: the spec says none of these (DESIGN CHOICE,
log 41). -/
def pressAnswer (s : State) (p : PressId) : Answer :=
  let x := s.press p
  let st := s.stage p
  okWith <|
    [.enum (pressStateCode x.state)] ++ optField (x.edition.map .edition)
      ++ [.count x.positions, .count x.unsatisfied]
      ++ optField (x.start.map .plantTime) ++ [.leadTime x.lead]
      ++ optField (x.start.map fun t => .plantTime (windowTime t x.lead))
      ++ [.flag x.window, .flag x.late, .flag x.windowArmed, .flag x.startArmed, .plantTime s.clock,
          .enum (if st.holder.isSome then 1 else 0)]
      ++ optField (st.holder.map .port)
      ++ [.count st.entries.length, .count (differing s p), .listLen (s.shelf p).length]
      ++ ((s.shelf p).map fun y =>
          [Field.jobNumber y.1, Field.position y.2, Field.flag (isSuperseded s y.1)]).flatten
      ++ [.listLen (s.positionsOf p).length]
      ++ ((s.positionsOf p).map fun e =>
          [Field.position e.1.pos, Field.count (s.rack e.1).length]
            ++ optField (e.2.work.mounted.map .jobNumber)).flatten
      ++ [.count (supersededPlates s p)]

/-- QUERY_PRESS (R150). -/
def queryPress (press : Byte) (s : State) : Answer :=
  match pressOf press with
  | none => bare .badValue
  | some p => pressAnswer s p

end Sys2Proof.Machine
end

