-- ==== Sys2Proof/Machine/LineUnit.lean ====
section
/-! DEFINITION. Machine/LineUnit.lean: holds, steps, stop policies, line stop and resume (chapter 8). -/

namespace Sys2Proof.Machine

open State

/-! ### Gates of a unit (R152 to R155) -/

/-- The held gate of a unit. -/
def heldGate (s : State) : UnitId → Bool
  | .engine e => (s.engine e).gates.held
  | .lane l => (s.lane l).gates.held
  | .sorter => s.sorter.held

/-- The step allowance of a unit. -/
def stepGate (s : State) : UnitId → Bool
  | .engine e => (s.engine e).gates.allowance
  | .lane l => (s.lane l).gates.allowance
  | .sorter => s.sorter.allowance

/-- Set the held gate and the step allowance of a unit. -/
def setGates (u : UnitId) (held allowance : Bool) (s : State) : State :=
  match u with
  | .engine e => s.modGates e fun g => { g with held := held, allowance := allowance }
  | .lane l => s.modLane l fun x => { x with gates := { x.gates with held := held, allowance := allowance } }
  | .sorter => s.modSorter fun x => { x with held := held, allowance := allowance }

/-- What a unit does when one of its gates has cleared (R154, R155). -/
def unitOpened (u : UnitId) (s : State) : State :=
  match u with
  | .engine _ => serve s
  | .lane l => laneOpened l s
  | .sorter => sorterLook s

/-- HOLD (R153). -/
def reqHold (unit : Byte) (s : State) : State × Answer :=
  match unitOf unit with
  | none => (s, bare .badValue)
  | some u =>
    if heldGate s u then (s, bare .wrongState)
    else (raise (.unitHeld u) (setGates u true (stepGate s u) s), bare .ok)

/-- RELEASE (R154). -/
def reqRelease (unit : Byte) (s : State) : State × Answer :=
  match unitOf unit with
  | none => (s, bare .badValue)
  | some u =>
    if heldGate s u then
      (unitOpened u (raise (.unitReleased u (stepGate s u)) (setGates u false false s)), bare .ok)
    else (s, bare .wrongState)

/-- STEP (R155). -/
def reqStep (unit : Byte) (s : State) : State × Answer :=
  match unitOf unit with
  | none => (s, bare .badValue)
  | some u =>
    if heldGate s u && !stepGate s u then
      (unitOpened u (raise (.unitStepped u) (setGates u true true s)), bare .ok)
    else (s, bare .wrongState)

/-! ### Stop policies (R156) -/

/-- The stop policy of a unit; the sorter's is FINISH (R151). -/
def policyOfUnit (s : State) : UnitId → StopPolicy
  | .engine e => s.line.policies[e]
  | .lane l => (s.lane l).policy
  | .sorter => .finish

/-- Set the stop policy of a unit. -/
def setPolicy (u : UnitId) (p : StopPolicy) (s : State) : State :=
  match u with
  | .engine e => s.modLine fun x => { x with policies := vmod x.policies e fun _ => p }
  | .lane l => s.modLane l fun x => { x with policy := p }
  | .sorter => s

/-- SET_STOP_POLICY (R156). -/
def reqSetStopPolicy (unit policy : Byte) (s : State) : State × Answer :=
  match unitOf unit, policyOf policy with
  | some u, some p =>
    if u = .sorter ∧ p = .cut then (s, bare .badValue)
    else
      (setPolicy u p s, okWith [.enum (policyCode (policyOfUnit s u)), .enum (policyCode p)])
  | _, _ => (s, bare .badValue)

/-! ### Line stop (R157) -/

/-- ABORT is sent for the current job, which is marked cut (R157 step 2). -/
def cutCurrent (e : EngineId) (s : State) : State :=
  match (s.engine e).ctx.current with
  | none => s
  | some w =>
    (s.modCtx e fun c => { c with current := some { w with cut := true } }).send
      (.abort e w.job ((s.attemptOf w.job).getD 0))

/-- ABORT is sent for a next job at stage EXPOSE_SENT, which is marked cut (R157 step 2). -/
def cutNext (e : EngineId) (s : State) : State :=
  match (s.engine e).ctx.next with
  | none => s
  | some w =>
    if w.stage = .exposeSent then
      (s.modCtx e fun c => { c with next := some { w with cut := true } }).send
        (.abort e w.job ((s.attemptOf w.job).getD 0))
    else s

/-- An engine under a CUT stop (R157 step 2). -/
def cutEngine (e : EngineId) (s : State) : State :=
  if s.line.policies[e] = .cut then cutNext e (cutCurrent e s) else s

/-- A lane whose policy is CUT has its stopped gate set (R157 step 3). -/
def cutLane (l : LaneId) (s : State) : State :=
  if (s.lane l).policy = .cut then s.stopLane l else s

/-- The stopped gate of an engine. -/
def setEngineStop (b : Bool) (e : EngineId) (s : State) : State :=
  s.modGates e fun g => { g with stopped := b }

/-- The policies that LINE_STOPPING carries (R157 step 4). -/
def stoppingNotice (s : State) : Notice :=
  .lineStopping (allEngines.map fun e => s.line.policies[e]) (allLanes.map fun l => (s.lane l).policy)

/-- A line stop that is taken (R157). -/
def lineStop (s : State) : State :=
  let s := s.modLine fun x => { clearMarks x with state := .stopping, stopTime := s.clock }
  let s := allEngines.foldl (fun s e => setEngineStop true e s) s
  let s := allEngines.foldl (fun s e => cutEngine e s) s
  let s := allLanes.foldl (fun s l => cutLane l s) s
  evalReached (raise (stoppingNotice s) s)

/-- LINE_STOP (R157). -/
def reqLineStop (s : State) : State × Answer :=
  if s.line.state = .running then (lineStop s, bare .ok) else (s, bare .wrongState)

/-! ### Line resume (R161) -/

/-- A lane's stopped gate clears. -/
def unstopLane (l : LaneId) (s : State) : State :=
  s.modLane l fun x => { x with gates := { x.gates with stopped := false } }

/-- A line resume that is taken (R161). The engines' gates are cleared after the lanes have decided and the
sorter has looked, so that the dispatcher and EXPOSE are served in step 4 and not in step 3. In step 3 all of L0's
pending inspections are decided before L1's, an order that the spec leaves open (DESIGN CHOICE, log 42). -/
def lineResume (s : State) : State :=
  let was := s.line.state
  let s := s.modLine fun x => { clearMarks x with state := .running }
  let s := allLanes.foldl (fun s l => unstopLane l s) s
  let s := sorterLook (allLanes.foldl (fun s l => decidePending l (s.lane l).inspections.length s) s)
  let s := allEngines.foldl (fun s e => setEngineStop false e s) s
  raise (.lineResumed was) (serve s)

/-- LINE_RESUME (R161). -/
def reqLineResume (s : State) : State × Answer :=
  if s.line.state = .running then (s, bare .wrongState) else (lineResume s, bare .ok)

end Sys2Proof.Machine
end

