-- ==== Sys2Proof/Machine/RestartUnit.lean ====
section
/-! DEFINITION. Machine/RestartUnit.lean: the reset kinds, the clearing phase and reconciliation (chapter 9),
and what a reset makes of each block (R95, R111, R125, R165 to R167, R182). -/

namespace Sys2Proof.Machine

open State

/-! ### Straps (R182) -/

/-- The rights that a strap pair gives (R182). -/
def strapRights : StrapPair → Rights
  | .bothOpen => ⟨true, false, false, false⟩
  | .firstClosed => ⟨false, true, false, false⟩
  | .secondClosed => ⟨false, false, true, false⟩
  | .bothClosed => ⟨true, true, true, false⟩

/-- The mask that rights give: the union of each right's default classes (R182). -/
def maskOfRights (r : Rights) : Mask :=
  ⟨r.pages, r.plan, r.room, r.room || r.maint, r.room, r.plan, r.room, r.maint⟩

/-- The rights of P0: it has no straps and takes all four (R182). -/
def allRights : Rights := ⟨true, true, true, true⟩

/-- The rights that the straps give each port (R182). -/
def portStraps (p1 p2 : StrapPair) (p : PortId) : Rights :=
  if p = 0 then allRights else if p = 1 then strapRights p1 else strapRights p2

/-- Load the rights and the mask of a port from the straps (R182). -/
def loadStraps (p1 p2 : StrapPair) (p : PortId) (s : State) : State :=
  (s.setRights p (portStraps p1 p2 p)).setMask p (maskOfRights (portStraps p1 p2 p))

/-- Load every port's rights and mask from the straps (R182). -/
def loadAllStraps (p1 p2 : StrapPair) (s : State) : State :=
  allPorts.foldl (fun s p => loadStraps p1 p2 p s) s

/-! ### POWER_ON (R163, R164) -/

/-- POWER_ON: every block in its starting state, the ports as their straps say. The queue of waiting
commands and the record of what has left the part are not the part's own state, and stay. -/
def powerOn (p1 p2 : StrapPair) (s : State) : State :=
  loadAllStraps p1 p2
    { State.reset with lineSent := s.lineSent, deskSent := s.deskSent, pending := s.pending }

/-! ### LINE_RESET and SOFT_RESET (R95, R111, R125, R165 to R167) -/

/-- The jobs of a state. -/
def countJobs (s : State) (p : Job → Bool) : Nat := (s.jobs.filter fun e => p e.2).length

/-- The job becomes UNCERTAIN at a reset (R166). -/
def becomesUncertain (j : Job) : Bool :=
  match j.state with
  | .exposing => true
  | .developing | .finishing => !j.superseded
  | _ => false

/-- A port after a reset: RESTARTED alone (R165, R175). -/
def resetPort (n : Notice) (p : PortId) (s : State) : State :=
  s.modLink p fun _ => Link.afterReset s.clock n

/-- An engine record after LINE_RESET or SOFT_RESET (R95). -/
def resetEngine (e : EngineId) (s : State) : State :=
  ((dropEngine e s).modStatus e fun t =>
    { t with mode := if t.mode = .lockedOut then .lockedOut else .offline, greeted := false }).modGates e
      fun _ => Gates.clear

/-- A lane record after LINE_RESET or SOFT_RESET (R111, R168). -/
def resetLane (l : LaneId) (s : State) : State :=
  s.modLane l fun x =>
    { x with floor := ⟨[], none, false⟩, gates := Gates.clear, inspections := [], clearing := true }

/-- The sorter record after LINE_RESET or SOFT_RESET (R125). -/
def resetSorter (s : State) : State :=
  s.modSorter fun x =>
    { x with delivery := none, lastServed := none, held := false, allowance := false }

/-- Line control after LINE_RESET or SOFT_RESET (R167). -/
def resetLineControl (s : State) : State := s.modLine fun x => { clearMarks x with state := .running }

/-- The lane that an EXPOSING job's plate would reach: the lane its engine feeds (R166). -/
def laneOfExposing (j : Job) : Option LaneId := j.engine.map laneFed

/-- A live job at LINE_RESET or SOFT_RESET, by its state (R166). -/
def resetJob (n : Nat) (s : State) : State :=
  match s.job? n with
  | none => s
  | some j =>
    match j.state with
    | .assigned => returnByFault n .contextLost (.engine (j.engine.getD 0)) .cancelled s
    | .exposing => s.modJob n fun x => { x with state := .uncertain, lane := laneOfExposing j }
    | .developing | .finishing =>
      if j.superseded then depart n .discarded s
      else (takeRefs j.slots s).modJob n fun x => { x with state := .uncertain }
    | _ => s

/-- Restart control sets its record (R167). -/
def startReconcile (kind : ResetKind) (s : State) : State :=
  let n := countJobs s fun j => j.state = .uncertain
  let timeout := s.limits.reconcile
  s.modRestart fun _ =>
    if n = 0 then ⟨kind, false, none, ⟨0, 0, 0, 0⟩⟩ else ⟨kind, true, some timeout, ⟨n, 0, 0, 0⟩⟩

/-- The RESTARTED notice of a LINE_RESET or SOFT_RESET (R165): the jobs it makes UNCERTAIN, and whether any
job is UNCERTAIN after it. -/
def restartNotice (kind : ResetKind) (s : State) : Notice :=
  let n := countJobs s becomesUncertain
  .restarted kind n (decide (0 < n + countJobs s fun j => j.state = .uncertain))

/-- What LINE_RESET and SOFT_RESET share, once the ports' rights and masks are as they are to be. -/
def resetPart (kind : ResetKind) (s : State) : State :=
  let note := restartNotice kind s
  let s := allPorts.foldl (fun s p => resetPort note p s) s
  let s := allEngines.foldl (fun s e => resetEngine e s) s
  let s := allLanes.foldl (fun s l => resetLane l s) s
  let s := resetLineControl (resetSorter s)
  let s := (s.jobs.map Prod.fst).foldl (fun s n => resetJob n s) s
  serve ((startReconcile kind s).setSoftDue false)

/-- LINE_RESET: rights and masks are loaded from the straps (R163, R165). -/
def lineReset (p1 p2 : StrapPair) (s : State) : State :=
  resetPart .lineReset (loadAllStraps p1 p2 s)

/-- SOFT_RESET, taken: rights and masks are kept (R163, R165). -/
def softReset (s : State) : State := resetPart .softReset s

/-! ### Settlement and the end of reconciliation (R168, R171, R172) -/

/-- The UNCERTAIN jobs, of one lane or of both, in ascending job number (R171, R172). -/
def uncertainJobs (s : State) (p : Job → Bool) : List Nat :=
  (s.jobs.filter fun e => e.2.state = .uncertain && p e.2).map Prod.fst

/-- A settlement is counted (R171). -/
def countSettled (superseded : Bool) (s : State) : State :=
  s.modRestart fun r =>
    { r with counts :=
        if superseded then { r.counts with discarded := r.counts.discarded + 1 }
        else { r.counts with requeued := r.counts.requeued + 1 } }

/-- An UNCERTAIN job is settled (R171): a superseded one ends DISCARDED with the fault record it has. -/
def settle (n : Nat) (s : State) : State :=
  match s.job? n with
  | none => s
  | some j =>
    serve (countSettled j.superseded
      (if j.superseded then depart n .discarded s
       else returnByFault n .plateNotFound (.lane (j.lane.getD 0)) .discarded s))

/-- Settle jobs in order. -/
def settleAll (l : List Nat) (s : State) : State := l.foldl (fun s n => settle n s) s

/-- A lane's clearing flag clears (R168). -/
def clearClearing (l : LaneId) (s : State) : State := s.modLane l fun x => { x with clearing := false }

/-- A lane is open to exposures again (R168): its clearing flag clears, and its engines are reconsidered for
EXPOSE. -/
def reopenLane (l : LaneId) (s : State) : State := serve (clearClearing l s)

/-- The clearing phases of lanes end, and jobs are settled (R168, R171, R172): the lanes are opened, then the jobs
are settled, so that no settled job preempts one that a lane's end of phase has exposed. LANE_CLEARED waits for the
notices of the jobs, which come before it (R174). -/
def endPhases (lanes : List LaneId) (cause : EndCause) (jobs : List Nat) (s : State) : State :=
  let s := settleAll jobs (lanes.foldl (fun s l => reopenLane l s) s)
  lanes.foldl (fun s l => raise (.laneCleared l cause) s) s

/-- A lane is clearing. -/
def anyClearing (s : State) : Bool := allLanes.any fun l => (s.lane l).clearing

/-- RECONCILING ends (R172 step 3). -/
def endReconcile (cause : EndCause) (s : State) : State :=
  if s.restart.reconciling then
    raise (.reconcileEnded cause s.restart.counts)
      (s.modRestart fun r => { r with reconciling := false, timer := none })
  else s

/-- Reconciliation is complete: no job is UNCERTAIN and no lane is clearing (R171, R172). -/
def complete (s : State) : Bool := uncertainJobs s (fun _ => true) = [] && !anyClearing s

/-- A CLEAR that is accepted (R171): the lane's phase ends, and its UNCERTAIN jobs are settled. -/
def acceptClear (l : LaneId) (s : State) : State :=
  let s := endPhases [l] .complete (uncertainJobs s fun j => j.lane = some l) s
  if complete s then endReconcile .complete s else s

/-- No entry is short of GRANTED and no AT_INSPECT is pending (R171). -/
def laneEmpty (x : Lane) : Bool :=
  x.floor.order.all (fun e => e.stage = .granted) && x.inspections = []

/-- CLEAR (R171). -/
def clear (l : LaneId) (s : State) : State :=
  if (s.lane l).clearing then
    if laneEmpty (s.lane l) then acceptClear l s else laneError l .clear none s
  else s

/-- Reconciliation ends with cause REQUESTED or TIMEOUT (R172 steps 1 to 3): the phase of every lane still clearing
ends, every UNCERTAIN job is settled, and RECONCILING ends. -/
def finishReconcile (cause : EndCause) (s : State) : State :=
  let cleared := allLanes.filter fun l => (s.lane l).clearing
  endReconcile cause (endPhases cleared cause (uncertainJobs s fun _ => true) s)

/-- RECONCILE_END (R172). -/
def reqReconcileEnd (s : State) : State × Answer :=
  if s.restart.reconciling || anyClearing s then
    let s := finishReconcile .requested s
    (s, okWith (countFields s.restart.counts))
  else (s, bare .wrongState)

/-- The reconcile timer expires, if it runs (R172). -/
def reconcileExpiry (s : State) : State :=
  if s.restart.timer.isSome then finishReconcile .timeout s else s

end Sys2Proof.Machine
end

