-- ==== Sys2Proof/Machine/Desk.lean ====
section
/-! DEFINITION. Machine/Desk.lean: the desk ports (chapter 10): rights, masks, limits, QUERY_PART, the
deciding of a taken request, reception and transmission. -/

namespace Sys2Proof.Machine

open State

/-! ### Rights and masks (R181, R183) -/

/-- Some port would hold MAINT if a port's rights were changed (R183). -/
def maintAfter (s : State) (p : PortId) (r : Rights) : Bool :=
  allPorts.any fun q => if q = p then r.maint else (s.port q).rights.maint

/-- SET_RIGHTS (R183). -/
def reqSetRights (p : PortId) (target rights : Byte) (s : State) : State × Answer :=
  match portOf target, rightsOf rights with
  | some q, some r =>
    if maintAfter s q r then
      let before := (s.port q).rights
      (raise (.rightsChanged q before r p) (s.setRights q r), okWith [.rights before, .rights r])
    else (s, bare .lastMaint)
  | _, _ => (s, bare .badValue)

/-- SET_NOTICE_MASK (R181). Every bit of the class set names a class. -/
def reqSetNoticeMask (p : PortId) (classes : Byte) (s : State) : State × Answer :=
  (s.setMask p (classesOf classes), okWith [.classes (s.port p).mask, .classes (classesOf classes)])

/-! ### Limits (R184) -/

/-- The range of a limit (R184). -/
def limitRange : LimitName → Nat × Nat
  | .lockWindow => (5, 100)
  | .relock => (20, 250)
  | .drift => (100, 1500)
  | .recover => (1, 8)
  | .load => (10, 600)
  | .expose => (60, 1800)
  | .transit => (60, 900)
  | .reconcile => (60, 3600)

/-- A settable value in force; the transit timeout is the lane's (R111). -/
def limitValue (s : State) (x : LimitName) (l : LaneId) : Nat :=
  match x with
  | .lockWindow => s.limits.lockWindow
  | .relock => s.limits.relock
  | .drift => s.limits.drift
  | .recover => s.limits.recover
  | .load => s.limits.load
  | .expose => s.limits.expose
  | .transit => (s.lane l).transit
  | .reconcile => s.limits.reconcile

/-- Set a settable value (R184). -/
def setLimit (x : LimitName) (l : LaneId) (v : Nat) (s : State) : State :=
  match x with
  | .lockWindow => s.modLimits fun t => { t with lockWindow := v }
  | .relock => s.modLimits fun t => { t with relock := v }
  | .drift => s.modLimits fun t => { t with drift := v }
  | .recover => s.modLimits fun t => { t with recover := v }
  | .load => s.modLimits fun t => { t with load := v }
  | .expose => s.modLimits fun t => { t with expose := v }
  | .transit => s.modLane l fun t => { t with transit := v }
  | .reconcile => s.modLimits fun t => { t with reconcile := v }

/-- The lane that a SET_LIMITS names: present for TRANSIT_TIMEOUT and absent for the others (R184 step 1).
The outer absence is a refusal. -/
def limitLane (x : LimitName) (lane : Option Byte) : Option (Option LaneId) :=
  match x, lane with
  | .transit, some b => (laneOf b).map some
  | .transit, none => none
  | _, some _ => none
  | _, none => some none

/-- The value lies in the limit's range (R184 step 2). -/
def inRange (x : LimitName) (v : Nat) : Bool := (limitRange x).1 ≤ v && v ≤ (limitRange x).2

/-- A SET_LIMITS that is taken (R184 step 3). -/
def takeLimit (x : LimitName) (l : Option LaneId) (v : Nat) (s : State) : State × Answer :=
  let before := limitValue s x (l.getD 0)
  (raise (.limitSet x l before v) (setLimit x (l.getD 0) v s), okWith [.limitValue before, .limitValue v])

/-- SET_LIMITS (R184). -/
def reqSetLimits (limit : Byte) (value : U16) (lane : Option Byte) (s : State) : State × Answer :=
  match limitOf limit with
  | none => (s, bare .badValue)
  | some x =>
    match limitLane x lane with
    | none => (s, bare .badValue)
    | some l => if inRange x value.toNat then takeLimit x l value.toNat s else (s, bare .badValue)

/-! ### QUERY_PART (R185) -/

/-- The fields of one port in QUERY_PART (R185). -/
def portFields (x : Port) : List Field :=
  [.rights x.rights, .classes x.mask, .flag x.link.overrun.isSome, .count x.link.queue.length]

/-- The reached marks, while the line is STOPPING (R151). How their absence is coded is the model's choice: one
presence byte stands before all eight marks (DESIGN CHOICE, log 41). -/
def reachedFields (s : State) : Option (List Field) :=
  if s.line.state = .stopping then
    some (allEngines.map (fun e => Field.flag s.line.reachedEngines[e])
      ++ allLanes.map fun l => Field.flag s.line.reachedLanes[l])
  else none

/-- QUERY_PART (R185). The reconcile timer of the restart record (R163) and the remaining reconcile time are one
optional field here, after the reconcile counts, whose presence byte says whether the timer runs (DESIGN CHOICE,
log 41). The values it gives for each engine, lane and port stand one after another in unit or port order, with no
count byte (DESIGN CHOICE, log 44). -/
def queryPart (s : State) : Answer :=
  okWith <|
    [.count (freePages s), .count (freeSlots s), .count (Config.liveJobs - s.jobs.length),
      .count (s.readyQueue .urgent).length, .count (s.readyQueue .normal).length, .jobNumber s.lastJob]
      ++ [.plantTime s.clock, .limitValue s.limits.lockWindow, .limitValue s.limits.relock,
          .limitValue s.limits.drift, .limitValue s.limits.recover, .limitValue s.limits.load,
          .limitValue s.limits.expose, .limitValue (s.lane 0).transit, .limitValue (s.lane 1).transit,
          .limitValue s.limits.reconcile]
      ++ [.flag s.starved, .enum (lineStateCode s.line.state)]
      ++ allEngines.map (fun e => .enum (policyCode s.line.policies[e]))
      ++ allLanes.map (fun l => .enum (policyCode (s.lane l).policy))
      ++ optFields (reachedFields s)
      ++ [.enum (resetCode s.restart.kind), .enum s.restart.reconciling.toNat]
      ++ countFields s.restart.counts
      ++ optField (s.restart.timer.map .remaining)
      ++ allLanes.map (fun l => .flag (s.lane l).clearing)
      ++ (allPorts.map fun p => portFields (s.port p)).flatten

/-! ### The deciding of a taken request (R178) -/

/-- A request that changes nothing: its answer alone. -/
def asks (f : State → Answer) (s : State) : State × Answer := (s, f s)

/-- The owning block decides a request (R178 step 4). SOFT_RESET is answered OK; the reset is taken once
that answer has been sent (R163). -/
def applyRequest (p : PortId) (r : Request) (s : State) : State × Answer :=
  match r with
  | .separationArrived page v c x ref => reqSeparationArrived page v c x ref s
  | .withdrawPage page => reqWithdrawPage page s
  | .stagePosition pr q f a b x => reqStagePosition p pr q f a b x s
  | .clearStagedPosition pr q => reqClearStaged p pr q s
  | .discardStage pr => reqDiscardStage p pr s
  | .commitPlan pr e => reqCommitPlan p pr e s
  | .holdPosition pr q => reqHoldPosition pr q s
  | .releasePosition pr q => reqReleasePosition pr q s
  | .requeuePosition pr q => reqRequeuePosition pr q s
  | .clearEngineFault e => reqClearEngineFault e s
  | .restoreEngine e => reqRestoreEngine e s
  | .rearmRegister e => reqRearmRegister e s
  | .pullConfirm pr q => reqPullConfirm pr q s
  | .mount pr q => reqMount pr q s
  | .unmount pr q => reqUnmount pr q s
  | .pressStart pr f => reqPressStart pr f s
  | .pressStop pr => reqPressStop pr s
  | .setClock t => reqSetClock t s
  | .setPressSchedule pr t l => reqSetPressSchedule pr t l s
  | .hold u => reqHold u s
  | .release u => reqRelease u s
  | .step u => reqStep u s
  | .setStopPolicy u x => reqSetStopPolicy u x s
  | .lineStop => reqLineStop s
  | .lineResume => reqLineResume s
  | .reconcileEnd => reqReconcileEnd s
  | .softReset => (s, bare .ok)
  | .setRights q x => reqSetRights p q x s
  | .setNoticeMask c => reqSetNoticeMask p c s
  | .setLimits l v ln => reqSetLimits l v ln s
  | .queryPage n => asks (queryPage n) s
  | .queryPosition pr q => asks (queryPosition pr q) s
  | .queryJob n => asks (queryJob n) s
  | .queryEngine e => asks (queryEngine e) s
  | .queryLane u => asks (queryLane u) s
  | .queryPress pr => asks (queryPress pr) s
  | .queryPart => asks queryPart s

/-- A taken request is decided: kind, rights, body shape, owning block (R178). -/
def decideRequest (p : PortId) (r : Received) (s : State) : State × Answer :=
  match r.content with
  | .unknownKind => (s, bare .badValue)
  | .malformed => if kindAllowed r.kind (s.port p).rights then (s, bare .badValue) else (s, bare .refusedRights)
  | .sound q => if kindAllowed r.kind (s.port p).rights then applyRequest p q s else (s, bare .refusedRights)

/-- A request is taken, decided and answered (R178). -/
def takeRequest (p : PortId) (r : Received) (s : State) : State :=
  let x := decideRequest p r (s.modLink p fun l => { l with inHand := some r })
  x.1.modLink p (Link.answer r.tag r.kind x.2)

/-- A port with no request in hand takes the first of its queue (R178), unless a soft reset is due (R163). -/
def takeNext (p : PortId) (s : State) : State :=
  let l := (s.port p).link
  match l.inHand, l.queue with
  | none, r :: rest =>
    if s.softResetDue then s else takeRequest p r (s.modLink p fun l => { l with queue := rest })
  | _, _ => s

/-! ### Reception (R176, R177) -/

/-- A request received whole joins the queue, or is refused when it is full (R177). -/
def receive (p : PortId) (r : Received) (s : State) : State :=
  if (s.port p).link.queue.length < Config.requestQueue then
    takeNext p (s.modLink p fun l => { l with queue := l.queue ++ [r] })
  else s.modLink p (Link.refuse r.tag r.kind .refusedBusy)

/-- The receiver of a port (R176). -/
def setReceiver (p : PortId) (x : Receiver) (s : State) : State := s.modLink p fun l => { l with rx := x }

/-- A bad frame: BAD_FRAME with tag 0 and kind 0 joins the refusal list (R176). -/
def badFrame (p : PortId) (s : State) : State := s.modLink p (Link.refuse 0 0 .badFrame)

/-- A frame has completed: it is judged, and the receiver returns to HUNTING (R176). -/
def frameReceived (p : PortId) (f : Frame) (s : State) : State :=
  let s := setReceiver p .hunting s
  if frameBad f then badFrame p s else receive p ⟨f.tag, f.kind, readRequest f.kind f.body⟩ s

/-- The frame that the bytes after a sync byte spell: 6 bytes of header, the body, the check (R187). -/
def frameOf (bytes : List Byte) : Option Frame :=
  match bytes with
  | l0 :: l1 :: t :: g :: k0 :: k1 :: rest =>
    let n := (le16 l0 l1).toNat
    match rest.drop n with
    | [c0, c1] => some ⟨le16 l0 l1, t, g, le16 k0 k1, rest.take n, le16 c0 c1⟩
    | _ => none
  | _ => none

/-- The two length bytes are complete and give a length above 1024 (R176). -/
def lengthTooLong (bytes : List Byte) : Bool :=
  match bytes with
  | [l0, l1] => decide (Config.maxBody < (le16 l0 l1).toNat)
  | _ => false

/-- A byte of a desk link (R176). -/
def deskLinkByte (p : PortId) (b : Byte) (s : State) : State :=
  match (s.port p).link.rx with
  | .hunting => if b = Config.sync then setReceiver p (.inFrame []) s else s
  | .inFrame bytes =>
    let bytes := bytes ++ [b]
    if lengthTooLong bytes then badFrame p (setReceiver p .hunting s)
    else
      match frameOf bytes with
      | some f => frameReceived p f s
      | none => setReceiver p (.inFrame bytes) s

/-- More than 50 ms have passed between two bytes (R176). -/
def gapExpiry (p : PortId) (s : State) : State := setReceiver p .hunting s

/-! ### Transmission (R179, R180) -/

/-- The frame being sent: the first of the list that the transmitter sends from (R179). -/
def Link.current (l : Link) : Option OutFrame :=
  match l.sending with
  | none => none
  | some .refusals => l.refusals.head?
  | some .output => l.output.head?

/-- A notice leaves the output list of a port whose overrun flag is set: an OVERRUN frame takes its place,
and the flag clears (R180). -/
def Link.afterNotice (l : Link) : Link :=
  match l.overrun with
  | some t => { l with output := l.output ++ [.overrun t], overrun := none }
  | none => l

/-- The frame being sent leaves its list, and the transmitter goes on to its next frame (R179, R180). -/
def Link.sent (l : Link) : Link :=
  match l.sending, l.current with
  | some .refusals, _ => Link.pump { l with refusals := l.refusals.tail, sending := none }
  | some .output, some f =>
    let l' := { l with output := l.output.tail, sending := none }
    Link.pump (if f.isNotice then l'.afterNotice else l')
  | _, _ => { l with sending := none }

/-- The frame is an answer of the output list: to the request in hand (R179). -/
def Link.sendsAnswer (l : Link) : Bool :=
  match l.sending, l.current with
  | some .output, some (.answer ..) => true
  | _, _ => false

/-- The frame is the OK answer to a SOFT_RESET (R163). -/
def OutFrame.isSoftReset : OutFrame → Bool
  | .answer _ kind a => kind = 27 && a.code = .ok
  | _ => false

/-- The transmitter has sent a frame (R179). -/
def frameSent (p : PortId) (s : State) : State :=
  let l := (s.port p).link
  match l.current with
  | none => s
  | some f =>
    let s := (s.modLink p Link.sent).logDesk p f
    if l.sendsAnswer then
      let s := s.modLink p fun l => { l with inHand := none }
      takeNext p (if f.isSoftReset then s.setSoftDue true else s)
    else s

end Sys2Proof.Machine
end

