-- ==== Sys2Proof/Machine/Commands.lean ====
section
/-! DEFINITION. Machine/Commands.lean: the meaning of each command, one definition for each row of
spec/opcode_table.json. No command ends in a fault or a refusal. A request row is the reception of
that request, sound in shape, at its port: it joins the queue, and is taken at once when none is in
hand (R177, R178). -/

namespace Sys2Proof.Machine

/-- The answer of a command: it always goes on. -/
abbrev Result := Host.Outcome State Fault Refusal

/-- A sound request is received whole at a port (R177). -/
def receiveSound (port : PortId) (tag : Byte) (r : Request) (s : State) : State :=
  receive port ⟨tag, r.kind, .sound r⟩ s

/-- POWER_ON (R163). -/
def execPowerOn (p1 : StrapPair) (p2 : StrapPair) (s : State) : Result := .next (powerOn p1 p2 s)

/-- LINE_RESET (R166). -/
def execLineReset (p1 : StrapPair) (p2 : StrapPair) (s : State) : Result :=
  .next (lineReset p1 p2 s)

/-- SOFT_RESET_TAKEN (R163). -/
def execSoftResetTaken (s : State) : Result := .next (softReset s)

/-- FRAME_RECEIVED (R176). -/
def execFrameReceived (port : PortId) (frame : Frame) (s : State) : Result :=
  .next (frameReceived port frame s)

/-- INTER_BYTE_GAP_EXPIRY (R176). -/
def execInterByteGapExpiry (port : PortId) (s : State) : Result := .next (gapExpiry port s)

/-- FRAME_SENT (R179). -/
def execFrameSent (port : PortId) (s : State) : Result := .next (frameSent port s)

/-- REQUEST_KIND_UNKNOWN (R178). -/
def execRequestKindUnknown (port : PortId) (tag : Byte) (kind : U16) (s : State) : Result :=
  .next (receive port ⟨tag, kind, .unknownKind⟩ s)

/-- SEPARATION_ARRIVED (R11). -/
def execSeparationArrived (port : PortId) (tag : Byte) (page : U16) (version : Byte) (cls : Byte) (sep : Byte) (ref : U64) (s : State) : Result :=
  .next (receiveSound port tag (.separationArrived page version cls sep ref) s)

/-- WITHDRAW_PAGE (R19). -/
def execWithdrawPage (port : PortId) (tag : Byte) (page : U16) (s : State) : Result :=
  .next (receiveSound port tag (.withdrawPage page) s)

/-- STAGE_POSITION (R33). -/
def execStagePosition (port : PortId) (tag : Byte) (press : Byte) (pos : Byte) (format : Byte) (pageA : U16) (pageB : Option U16) (sep : Byte) (s : State) : Result :=
  .next (receiveSound port tag (.stagePosition press pos format pageA pageB sep) s)

/-- CLEAR_STAGED_POSITION (R34). -/
def execClearStagedPosition (port : PortId) (tag : Byte) (press : Byte) (pos : Byte) (s : State) : Result :=
  .next (receiveSound port tag (.clearStagedPosition press pos) s)

/-- DISCARD_STAGE (R35). -/
def execDiscardStage (port : PortId) (tag : Byte) (press : Byte) (s : State) : Result :=
  .next (receiveSound port tag (.discardStage press) s)

/-- COMMIT_PLAN (R36). -/
def execCommitPlan (port : PortId) (tag : Byte) (press : Byte) (edition : Byte) (s : State) : Result :=
  .next (receiveSound port tag (.commitPlan press edition) s)

/-- HOLD_POSITION (R43). -/
def execHoldPosition (port : PortId) (tag : Byte) (press : Byte) (pos : Byte) (s : State) : Result :=
  .next (receiveSound port tag (.holdPosition press pos) s)

/-- RELEASE_POSITION (R44). -/
def execReleasePosition (port : PortId) (tag : Byte) (press : Byte) (pos : Byte) (s : State) : Result :=
  .next (receiveSound port tag (.releasePosition press pos) s)

/-- REQUEUE_POSITION (R68). -/
def execRequeuePosition (port : PortId) (tag : Byte) (press : Byte) (pos : Byte) (s : State) : Result :=
  .next (receiveSound port tag (.requeuePosition press pos) s)

/-- HELLO (R93). -/
def execHello (engine : EngineId) (s : State) : Result := .next (hello engine s)

/-- CASSETTE_LOADED (R75). -/
def execCassetteLoaded (engine : EngineId) (format : Option PlateFormat) (count : Nat) (s : State) : Result :=
  .next (cassetteLoaded engine format count s)

/-- LOADED (R78). -/
def execLoaded (engine : EngineId) (job : U16) (attempt : Byte) (s : State) : Result :=
  .next (loaded engine job.toNat attempt.toNat s)

/-- LOAD_FAULT (R90). -/
def execLoadFault (engine : EngineId) (job : U16) (attempt : Byte) (cause : LoadFaultCause) (s : State) : Result :=
  .next (loadFault engine job.toNat attempt.toNat cause s)

/-- EXPOSE_STARTED (R87). -/
def execExposeStarted (engine : EngineId) (job : U16) (attempt : Byte) (s : State) : Result :=
  .next (exposeStarted engine job.toNat attempt.toNat s)

/-- EXPOSE_DONE (R88). -/
def execExposeDone (engine : EngineId) (job : U16) (attempt : Byte) (s : State) : Result :=
  .next (exposeDone engine job.toNat attempt.toNat s)

/-- EXPOSE_FAULT (R90). -/
def execExposeFault (engine : EngineId) (job : U16) (attempt : Byte) (consumed : Bool) (s : State) : Result :=
  .next (exposeFault engine job.toNat attempt.toNat consumed s)

/-- DISCARDED (R79). -/
def execDiscarded (engine : EngineId) (job : U16) (attempt : Byte) (s : State) : Result :=
  .next (discarded engine job.toNat attempt.toNat s)

/-- ENGINE_LINK_LOSS (R92). -/
def execEngineLinkLoss (engine : EngineId) (s : State) : Result := .next (engineLinkLoss engine s)

/-- LOAD_TIMER_EXPIRY (R84). -/
def execLoadTimerExpiry (engine : EngineId) (context : WaitingContext) (s : State) : Result :=
  .next (loadTimerExpiry engine context s)

/-- EXPOSE_TIMER_EXPIRY (R90). -/
def execExposeTimerExpiry (engine : EngineId) (s : State) : Result :=
  .next (exposeTimerExpiry engine s)

/-- CLEAR_ENGINE_FAULT (R94). -/
def execClearEngineFault (port : PortId) (tag : Byte) (engine : Byte) (s : State) : Result :=
  .next (receiveSound port tag (.clearEngineFault engine) s)

/-- RESTORE_ENGINE (R94). -/
def execRestoreEngine (port : PortId) (tag : Byte) (engine : Byte) (s : State) : Result :=
  .next (receiveSound port tag (.restoreEngine engine) s)

/-- REARM_REGISTER (R107). -/
def execRearmRegister (port : PortId) (tag : Byte) (engine : Byte) (s : State) : Result :=
  .next (receiveSound port tag (.rearmRegister engine) s)

/-- AT_INSPECT (R116). -/
def execAtInspect (lane : LaneId) (report : InspectReport) (s : State) : Result :=
  .next (atInspect lane report s)

/-- PUNCHED_BENT (R121). -/
def execPunchedBent (lane : LaneId) (job : U16) (attempt : Byte) (s : State) : Result :=
  .next (punchedBent lane job.toNat attempt.toNat s)

/-- PUNCH_FAULT (R122). -/
def execPunchFault (lane : LaneId) (job : U16) (attempt : Byte) (s : State) : Result :=
  .next (punchFault lane job.toNat attempt.toNat s)

/-- AT_EXIT (R123). -/
def execAtExit (lane : LaneId) (job : U16) (attempt : Byte) (s : State) : Result :=
  .next (atExit lane job.toNat attempt.toNat s)

/-- TRANSIT_TIMER_EXPIRY (R113). -/
def execTransitTimerExpiry (lane : LaneId) (job : U16) (s : State) : Result :=
  .next (transitExpiry lane job.toNat s)

/-- LANE_LINK_LOSS (R131). -/
def execLaneLinkLoss (lane : LaneId) (s : State) : Result := .next (laneLinkLoss lane s)

/-- LANE_RESTORATION (R131). -/
def execLaneRestoration (lane : LaneId) (s : State) : Result := .next (laneRestoration lane s)

/-- SORTED (R129). -/
def execSorted (job : U16) (attempt : Byte) (destination : Destination) (s : State) : Result :=
  .next (sorted job.toNat attempt.toNat destination s)

/-- SORT_FAULT (R130). -/
def execSortFault (job : U16) (attempt : Byte) (s : State) : Result :=
  .next (sortFault job.toNat attempt.toNat s)

/-- SORTER_LINK_LOSS (R131). -/
def execSorterLinkLoss (s : State) : Result := .next (sorterLinkLoss s)

/-- SORTER_RESTORATION (R131). -/
def execSorterRestoration (s : State) : Result := .next (sorterRestoration s)

/-- PULL_CONFIRM (R137). -/
def execPullConfirm (port : PortId) (tag : Byte) (press : Byte) (pos : Byte) (s : State) : Result :=
  .next (receiveSound port tag (.pullConfirm press pos) s)

/-- MOUNT (R138). -/
def execMount (port : PortId) (tag : Byte) (press : Byte) (pos : Byte) (s : State) : Result :=
  .next (receiveSound port tag (.mount press pos) s)

/-- UNMOUNT (R139). -/
def execUnmount (port : PortId) (tag : Byte) (press : Byte) (pos : Byte) (s : State) : Result :=
  .next (receiveSound port tag (.unmount press pos) s)

/-- PRESS_START (R142). -/
def execPressStart (port : PortId) (tag : Byte) (press : Byte) (force : Byte) (s : State) : Result :=
  .next (receiveSound port tag (.pressStart press force) s)

/-- PRESS_STOP (R143). -/
def execPressStop (port : PortId) (tag : Byte) (press : Byte) (s : State) : Result :=
  .next (receiveSound port tag (.pressStop press) s)

/-- SET_CLOCK (R145). -/
def execSetClock (port : PortId) (tag : Byte) (time : U32) (s : State) : Result :=
  .next (receiveSound port tag (.setClock time) s)

/-- SET_PRESS_SCHEDULE (R145). -/
def execSetPressSchedule (port : PortId) (tag : Byte) (press : Byte) (start : Option U32) (lead : U16) (s : State) : Result :=
  .next (receiveSound port tag (.setPressSchedule press start lead) s)

/-- CLOCK_TICK (R145). -/
def execClockTick (s : State) : Result := .next (clockTick s)

/-- WINDOW_ALARM (R147). -/
def execWindowAlarm (press : PressId) (s : State) : Result := .next (windowAlarm press s)

/-- START_ALARM (R148). -/
def execStartAlarm (press : PressId) (s : State) : Result := .next (startAlarm press s)

/-- HOLD (R153). -/
def execHold (port : PortId) (tag : Byte) (unit : Byte) (s : State) : Result :=
  .next (receiveSound port tag (.hold unit) s)

/-- RELEASE (R154). -/
def execRelease (port : PortId) (tag : Byte) (unit : Byte) (s : State) : Result :=
  .next (receiveSound port tag (.release unit) s)

/-- STEP (R155). -/
def execStep (port : PortId) (tag : Byte) (unit : Byte) (s : State) : Result :=
  .next (receiveSound port tag (.step unit) s)

/-- SET_STOP_POLICY (R156). -/
def execSetStopPolicy (port : PortId) (tag : Byte) (unit : Byte) (policy : Byte) (s : State) : Result :=
  .next (receiveSound port tag (.setStopPolicy unit policy) s)

/-- LINE_STOP (R157). -/
def execLineStop (port : PortId) (tag : Byte) (s : State) : Result :=
  .next (receiveSound port tag .lineStop s)

/-- LINE_RESUME (R161). -/
def execLineResume (port : PortId) (tag : Byte) (s : State) : Result :=
  .next (receiveSound port tag .lineResume s)

/-- CLEAR (R171). -/
def execClear (lane : LaneId) (s : State) : Result := .next (clear lane s)

/-- RECONCILE_END (R172). -/
def execReconcileEnd (port : PortId) (tag : Byte) (s : State) : Result :=
  .next (receiveSound port tag .reconcileEnd s)

/-- RECONCILE_TIMER_EXPIRY (R172). -/
def execReconcileTimerExpiry (s : State) : Result := .next (reconcileExpiry s)

/-- SOFT_RESET (R163). -/
def execSoftReset (port : PortId) (tag : Byte) (s : State) : Result :=
  .next (receiveSound port tag .softReset s)

/-- SET_RIGHTS (R183). -/
def execSetRights (port : PortId) (tag : Byte) (target : Byte) (rights : Byte) (s : State) : Result :=
  .next (receiveSound port tag (.setRights target rights) s)

/-- SET_NOTICE_MASK (R181). -/
def execSetNoticeMask (port : PortId) (tag : Byte) (classes : Byte) (s : State) : Result :=
  .next (receiveSound port tag (.setNoticeMask classes) s)

/-- SET_LIMITS (R184). -/
def execSetLimits (port : PortId) (tag : Byte) (limit : Byte) (value : U16) (lane : Option Byte) (s : State) : Result :=
  .next (receiveSound port tag (.setLimits limit value lane) s)

/-- QUERY_PAGE (R21). -/
def execQueryPage (port : PortId) (tag : Byte) (page : U16) (s : State) : Result :=
  .next (receiveSound port tag (.queryPage page) s)

/-- QUERY_POSITION (R45). -/
def execQueryPosition (port : PortId) (tag : Byte) (press : Byte) (pos : Byte) (s : State) : Result :=
  .next (receiveSound port tag (.queryPosition press pos) s)

/-- QUERY_JOB (R70). -/
def execQueryJob (port : PortId) (tag : Byte) (job : U16) (s : State) : Result :=
  .next (receiveSound port tag (.queryJob job) s)

/-- QUERY_ENGINE (R97). -/
def execQueryEngine (port : PortId) (tag : Byte) (engine : Byte) (s : State) : Result :=
  .next (receiveSound port tag (.queryEngine engine) s)

/-- QUERY_LANE (R134). -/
def execQueryLane (port : PortId) (tag : Byte) (unit : Byte) (s : State) : Result :=
  .next (receiveSound port tag (.queryLane unit) s)

/-- QUERY_PRESS (R150). -/
def execQueryPress (port : PortId) (tag : Byte) (press : Byte) (s : State) : Result :=
  .next (receiveSound port tag (.queryPress press) s)

/-- QUERY_PART (R185). -/
def execQueryPart (port : PortId) (tag : Byte) (s : State) : Result :=
  .next (receiveSound port tag .queryPart s)

/-- DESK_LINK_BYTE (R176). -/
def execDeskLinkByte (port : PortId) (byte : Byte) (s : State) : Result :=
  .next (deskLinkByte port byte s)

end Sys2Proof.Machine
end

