-- ==== Sys2Proof/Machine/Dispatch.lean ====
section
/-! DEFINITION. Machine/Dispatch.lean: the command's effect on everything but the queue, one arm for
each constructor of Instr. -/

namespace Sys2Proof.Machine

def exec (i : Instr) (s : State) : Host.Outcome State Fault Refusal :=
  match i with
  | .powerOn p1 p2 => Sys2Proof.Machine.execPowerOn p1 p2 s
  | .lineReset p1 p2 => Sys2Proof.Machine.execLineReset p1 p2 s
  | .softResetTaken => Sys2Proof.Machine.execSoftResetTaken s
  | .frameReceived port frame => Sys2Proof.Machine.execFrameReceived port frame s
  | .interByteGapExpiry port => Sys2Proof.Machine.execInterByteGapExpiry port s
  | .frameSent port => Sys2Proof.Machine.execFrameSent port s
  | .requestKindUnknown port tag kind => Sys2Proof.Machine.execRequestKindUnknown port tag kind s
  | .separationArrived port tag page version cls sep ref => Sys2Proof.Machine.execSeparationArrived port tag page version cls sep ref s
  | .withdrawPage port tag page => Sys2Proof.Machine.execWithdrawPage port tag page s
  | .stagePosition port tag press pos format pageA pageB sep => Sys2Proof.Machine.execStagePosition port tag press pos format pageA pageB sep s
  | .clearStagedPosition port tag press pos => Sys2Proof.Machine.execClearStagedPosition port tag press pos s
  | .discardStage port tag press => Sys2Proof.Machine.execDiscardStage port tag press s
  | .commitPlan port tag press edition => Sys2Proof.Machine.execCommitPlan port tag press edition s
  | .holdPosition port tag press pos => Sys2Proof.Machine.execHoldPosition port tag press pos s
  | .releasePosition port tag press pos => Sys2Proof.Machine.execReleasePosition port tag press pos s
  | .requeuePosition port tag press pos => Sys2Proof.Machine.execRequeuePosition port tag press pos s
  | .hello engine => Sys2Proof.Machine.execHello engine s
  | .cassetteLoaded engine format count => Sys2Proof.Machine.execCassetteLoaded engine format count s
  | .loaded engine job attempt => Sys2Proof.Machine.execLoaded engine job attempt s
  | .loadFault engine job attempt cause => Sys2Proof.Machine.execLoadFault engine job attempt cause s
  | .exposeStarted engine job attempt => Sys2Proof.Machine.execExposeStarted engine job attempt s
  | .exposeDone engine job attempt => Sys2Proof.Machine.execExposeDone engine job attempt s
  | .exposeFault engine job attempt consumed => Sys2Proof.Machine.execExposeFault engine job attempt consumed s
  | .discarded engine job attempt => Sys2Proof.Machine.execDiscarded engine job attempt s
  | .engineLinkLoss engine => Sys2Proof.Machine.execEngineLinkLoss engine s
  | .loadTimerExpiry engine context => Sys2Proof.Machine.execLoadTimerExpiry engine context s
  | .exposeTimerExpiry engine => Sys2Proof.Machine.execExposeTimerExpiry engine s
  | .clearEngineFault port tag engine => Sys2Proof.Machine.execClearEngineFault port tag engine s
  | .restoreEngine port tag engine => Sys2Proof.Machine.execRestoreEngine port tag engine s
  | .rearmRegister port tag engine => Sys2Proof.Machine.execRearmRegister port tag engine s
  | .atInspect lane report => Sys2Proof.Machine.execAtInspect lane report s
  | .punchedBent lane job attempt => Sys2Proof.Machine.execPunchedBent lane job attempt s
  | .punchFault lane job attempt => Sys2Proof.Machine.execPunchFault lane job attempt s
  | .atExit lane job attempt => Sys2Proof.Machine.execAtExit lane job attempt s
  | .transitTimerExpiry lane job => Sys2Proof.Machine.execTransitTimerExpiry lane job s
  | .laneLinkLoss lane => Sys2Proof.Machine.execLaneLinkLoss lane s
  | .laneRestoration lane => Sys2Proof.Machine.execLaneRestoration lane s
  | .sorted job attempt destination => Sys2Proof.Machine.execSorted job attempt destination s
  | .sortFault job attempt => Sys2Proof.Machine.execSortFault job attempt s
  | .sorterLinkLoss => Sys2Proof.Machine.execSorterLinkLoss s
  | .sorterRestoration => Sys2Proof.Machine.execSorterRestoration s
  | .pullConfirm port tag press pos => Sys2Proof.Machine.execPullConfirm port tag press pos s
  | .mount port tag press pos => Sys2Proof.Machine.execMount port tag press pos s
  | .unmount port tag press pos => Sys2Proof.Machine.execUnmount port tag press pos s
  | .pressStart port tag press force => Sys2Proof.Machine.execPressStart port tag press force s
  | .pressStop port tag press => Sys2Proof.Machine.execPressStop port tag press s
  | .setClock port tag time => Sys2Proof.Machine.execSetClock port tag time s
  | .setPressSchedule port tag press start lead => Sys2Proof.Machine.execSetPressSchedule port tag press start lead s
  | .clockTick => Sys2Proof.Machine.execClockTick s
  | .windowAlarm press => Sys2Proof.Machine.execWindowAlarm press s
  | .startAlarm press => Sys2Proof.Machine.execStartAlarm press s
  | .hold port tag unit => Sys2Proof.Machine.execHold port tag unit s
  | .release port tag unit => Sys2Proof.Machine.execRelease port tag unit s
  | .step port tag unit => Sys2Proof.Machine.execStep port tag unit s
  | .setStopPolicy port tag unit policy => Sys2Proof.Machine.execSetStopPolicy port tag unit policy s
  | .lineStop port tag => Sys2Proof.Machine.execLineStop port tag s
  | .lineResume port tag => Sys2Proof.Machine.execLineResume port tag s
  | .clear lane => Sys2Proof.Machine.execClear lane s
  | .reconcileEnd port tag => Sys2Proof.Machine.execReconcileEnd port tag s
  | .reconcileTimerExpiry => Sys2Proof.Machine.execReconcileTimerExpiry s
  | .softReset port tag => Sys2Proof.Machine.execSoftReset port tag s
  | .setRights port tag target rights => Sys2Proof.Machine.execSetRights port tag target rights s
  | .setNoticeMask port tag classes => Sys2Proof.Machine.execSetNoticeMask port tag classes s
  | .setLimits port tag limit value lane => Sys2Proof.Machine.execSetLimits port tag limit value lane s
  | .queryPage port tag page => Sys2Proof.Machine.execQueryPage port tag page s
  | .queryPosition port tag press pos => Sys2Proof.Machine.execQueryPosition port tag press pos s
  | .queryJob port tag job => Sys2Proof.Machine.execQueryJob port tag job s
  | .queryEngine port tag engine => Sys2Proof.Machine.execQueryEngine port tag engine s
  | .queryLane port tag unit => Sys2Proof.Machine.execQueryLane port tag unit s
  | .queryPress port tag press => Sys2Proof.Machine.execQueryPress port tag press s
  | .queryPart port tag => Sys2Proof.Machine.execQueryPart port tag s
  | .deskLinkByte port byte => Sys2Proof.Machine.execDeskLinkByte port byte s

end Sys2Proof.Machine
end

