-- ==== Sys2Proof/Safety.lean ====
section
/-! DEFINITION. Safety.lean: the properties of a state, and of a state and the state after it, that the
statements of this package speak of. -/

namespace Sys2Proof.Machine

open State

/-! ### Invariants -/

/-- Every table is in order: at most one entry for each key, in one order only (R1, R6, R23, R32, R46,
R135). -/
structure Tables (s : State) : Prop where
  pages : Table.ordered id s.pages
  slots : Table.ordered SlotKey.rank s.slots
  plan : Table.ordered PosKey.rank s.plan
  stages : ∀ p, Table.ordered Fin.val (s.stage p).entries
  jobs : Table.ordered id s.jobs
  racks : Table.ordered PosKey.rank s.racks

/-- Some port holds MAINT (R183). -/
def MaintHeld (s : State) : Prop := ∃ p, (s.port p).rights.maint = true

/-- The settable values, the lead times and the clock lie in their ranges (R111, R140, R145, R184). -/
structure Ranges (s : State) : Prop where
  clock : s.clock ≤ Config.maxClock
  limits : ∀ x l, inRange x (limitValue s x l) = true
  lead : ∀ p, (s.press p).lead ≤ Config.maxLead

/-- A register record's window, correction and recover run lie in their ranges (R98). -/
structure RegisterFits (r : Register) : Prop where
  window : r.window.length ≤ Config.window
  dx : -Config.offsetRange ≤ r.correction.dx ∧ r.correction.dx ≤ Config.offsetRange
  dy : -Config.offsetRange ≤ r.correction.dy ∧ r.correction.dy ≤ Config.offsetRange
  run : r.run ≤ 8

/-- A port's request queue, refusal list and notice queue hold no more than they have room for (R175, R177,
R180). -/
structure LinkFits (l : Link) : Prop where
  queue : l.queue.length ≤ Config.requestQueue
  refusals : l.refusals.length ≤ Config.refusalList
  notices : l.noticeCount ≤ Config.noticeQueue

/-- The UNCERTAIN jobs of a lane: the plates that a lane in its clearing phase may still give back (R166, R169). -/
def uncertainIn (s : State) (l : LaneId) : Nat :=
  (s.jobs.filter fun e => e.2.state = .uncertain && decide (e.2.lane = some l)).length

/-- The lane load (R86): the lane's order, the exposures that run on its engines, and the next jobs sent EXPOSE. -/
def loadOf (s : State) (l : LaneId) : Nat :=
  let fed := allEngines.filter fun e => laneFed e = l
  (s.lane l).floor.order.length + (fed.filter fun e => (s.engine e).ctx.current.isSome).length +
    (fed.filter fun e => (s.engine e).ctx.next.any fun w => w.stage = .exposeSent).length

/-- No table, list or count of the part holds more than the spec gives it room for. A lane's load, with the
UNCERTAIN jobs that its clearing phase may still put into its order, is within the lane order's 12 (R86, R112). -/
structure Capacities (s : State) : Prop where
  pages : s.pages.length ≤ Config.pageRecords
  slots : s.slots.length ≤ Config.rasterSlots
  jobs : s.jobs.length ≤ Config.liveJobs
  attempts : ∀ n j, s.job? n = some j → 1 ≤ j.attempt ∧ j.attempt ≤ Config.attempts
  cassette : ∀ e, (s.engine e).cassette.count ≤ Config.maxCassette
  registers : ∀ e, RegisterFits (s.register e)
  inspections : ∀ l, (s.lane l).inspections.length ≤ Config.pendingInspections
  links : ∀ p, LinkFits (s.port p).link
  loads : ∀ l, loadOf s l + uncertainIn s l ≤ Config.laneOrder

/-- What an engine's contexts hold in a mode (R73): next and parked are empty unless it is RUNNING, and
current is empty while it is OFFLINE or LOCKED_OUT. -/
structure ModeFits (m : EngineMode) (c : Contexts) : Prop where
  waiting : m ≠ .running → c.next = none ∧ c.parked = none
  current : m = .offline ∨ m = .lockedOut → c.current = none

/-- Every engine's contexts fit its mode (R73). -/
def ModesAgree (s : State) : Prop := ∀ e, ModeFits (s.engine e).status.mode (s.engine e).ctx

/-- A delivery's place has room (R126). -/
def hasRoom (s : State) : Destination → Prop
  | .rackSlot p q => (s.rack ⟨p, q⟩).length < Config.rackSlot
  | .shelf p => (s.shelf p).length < Config.shelf
  | .rejectBin => True

/-- Every rack slot holds at most 2 plates and every shelf at most 8 (R135); and the place of the plate that
the sorter is delivering has room for it, which is what keeps it so (R126). -/
structure RackRoom (s : State) : Prop where
  racks : ∀ k, (s.rack k).length ≤ Config.rackSlot
  shelves : ∀ p, (s.shelf p).length ≤ Config.shelf
  delivery : ∀ d, s.sorter.delivery = some d → hasRoom s d.dest

/-- A live job of a position in a state. -/
def JobIs (s : State) (n : Nat) (k : PosKey) (x : JobState) : Prop := ∃ j, s.job? n = some j ∧ j.key = k ∧ j.state = x

/-- A live job in a state that an engine has been given, and that is to be exposed with a correction. -/
def JobOf (s : State) (n : Nat) (e : EngineId) (x : JobState) (corrected : Prop) : Prop :=
  ∃ j, s.job? n = some j ∧ j.state = x ∧ j.engine = some e ∧ (corrected → j.applied ≠ none)

/-- A delivery's place is one of the job's position (R126). -/
def Destined (j : Job) : Destination → Prop
  | .rackSlot p q => j.key = ⟨p, q⟩
  | .shelf p => j.press = p
  | .rejectBin => True

/-- What stands in a place is in the state of that place, and no job stands in two places (R49, R77, R112, R125,
R135, R138): the jobs in contexts are ASSIGNED or EXPOSING at that engine; those in a lane order DEVELOPING before
inspection and FINISHING after it, once in one lane; the delivery is the granted plate of its lane, to a place of
its position; the plates in racks and on shelves are RACKED, and the mounted ones MOUNTED, each of that position;
and a position's current job is one of its own. -/
structure Placed (s : State) : Prop where
  next : ∀ e w, (s.engine e).ctx.next = some w → JobOf s w.job e .assigned (w.stage = .exposeSent)
  parked : ∀ e w, (s.engine e).ctx.parked = some w → JobOf s w.job e .assigned (w.stage = .exposeSent)
  apart : ∀ e v w, (s.engine e).ctx.next = some v → (s.engine e).ctx.parked = some w → v.job ≠ w.job
  current : ∀ e w, (s.engine e).ctx.current = some w → JobOf s w.job e .exposing True
  order : ∀ l, ∀ y ∈ (s.lane l).floor.order, ∃ j, s.job? y.job = some j ∧ j.lane = some l ∧
    j.state = if y.stage = .inDeveloper then .developing else .finishing
  once : ∀ l, ((s.lane l).floor.order.map LaneEntry.job).Nodup
  exposed : ∀ n j, s.job? n = some j → j.state ∈ [.exposing, .developing, .finishing, .uncertain] →
    j.engine ≠ none ∧ j.applied ≠ none
  delivery : ∀ d, s.sorter.delivery = some d →
    (∃ y ∈ (s.lane d.lane).floor.order, y.job = d.job ∧ y.stage = .granted) ∧
      ∃ j, s.job? d.job = some j ∧ Destined j d.dest
  racks : ∀ k, ∀ n ∈ s.rack k, JobIs s n k .racked
  shelves : ∀ p, ∀ x ∈ s.shelf p, JobIs s x.1 ⟨p, x.2⟩ .racked
  stacked : ∀ k, (s.rack k ++ ((s.shelf k.press).filter fun x => x.2 = k.pos).map Prod.fst).Nodup
  mounted : ∀ k x n, s.pos? k = some x → x.work.mounted = some n → JobIs s n k .mounted
  own : ∀ k x n, s.pos? k = some x → x.work.current = some n → ∃ j, s.job? n = some j ∧ j.key = k

/-- A job in a state stands in a place of that state (R49, R77, R112, R135, R138, R166): ASSIGNED in next or parked
of an engine, EXPOSING in current, DEVELOPING and FINISHING in the order of a lane, RACKED in its slot or on the
shelf of its press, MOUNTED at its position, and UNCERTAIN with a lane that is clearing. A job that has been sent
EXPOSE is not parked, and no exposure runs at its engine (R82, R85). -/
structure Housed (s : State) : Prop where
  assigned : ∀ n j, s.job? n = some j → j.state = .assigned →
    ∃ e w, ((s.engine e).ctx.next = some w ∨ (s.engine e).ctx.parked = some w) ∧ w.job = n
  exposing : ∀ n j, s.job? n = some j → j.state = .exposing → ∃ e w, (s.engine e).ctx.current = some w ∧ w.job = n
  inLane : ∀ n j, s.job? n = some j → j.state = .developing ∨ j.state = .finishing →
    ∃ l, ∃ y ∈ (s.lane l).floor.order, y.job = n
  racked : ∀ n j, s.job? n = some j → j.state = .racked → n ∈ s.rack j.key ∨ (n, j.pos) ∈ s.shelf j.press
  mounted : ∀ n j, s.job? n = some j → j.state = .mounted → ∃ x, s.pos? j.key = some x ∧ x.work.mounted = some n
  uncertain : ∀ n j, s.job? n = some j → j.state = .uncertain → ∃ l, j.lane = some l ∧ (s.lane l).clearing = true
  exposed : ∀ e w, (s.engine e).ctx.next = some w → w.stage = .exposeSent → (s.engine e).ctx.current = none
  parked : ∀ e w, (s.engine e).ctx.parked = some w → w.stage ≠ .exposeSent

/-! ### What the counts count (R3, R8, R58) -/

/-- The states in which a job holds its raster references (R58). -/
def holds (x : JobState) : Bool := x ∈ [.queued, .assigned, .exposing, .failed, .uncertain]

/-- How many live jobs name a page (R3). -/
def namers (s : State) (n : Nat) : Nat := (s.jobs.map fun e => (e.2.pages.map Prod.fst).count n).sum

/-- How many references live jobs hold on a raster slot (R8). -/
def references (s : State) (k : SlotKey) : Nat :=
  (s.jobs.map fun e => if holds e.2.state then e.2.slots.count k else 0).sum

/-- PARTIAL, or COMPLETE when the arrived set holds the whole class (R2). -/
def stateFor (c : ColourClass) (a : SepSet) : PageState :=
  if a.k && (decide (c = .mono) || a.c && a.m && a.y) then .complete else .partly

/-- A page record is as its state says (R2, R5, R19, R20): nothing has arrived for an EXPECTED or a WITHDRAWN page, an
EXPECTED one has no version, class or live job, every other has a version and a class, a PARTIAL or COMPLETE one is
so by its class and what has arrived, a WITHDRAWN one has live jobs, and a MONO page has K alone. -/
structure RecordFits (r : PageRec) : Prop where
  expected : r.state = .expected → r.version = none ∧ r.cls = none ∧ r.liveJobs = 0
  arrived : r.state = .expected ∨ r.state = .withdrawn → ∀ x, r.arrived.has x = false
  known : r.state ≠ .expected → r.version ≠ none ∧ r.cls ≠ none
  complete : r.state = .partly ∨ r.state = .complete → ∀ c, r.cls = some c → r.state = stateFor c r.arrived
  withdrawn : r.state = .withdrawn → r.liveJobs ≠ 0
  mono : r.cls = some .mono → ∀ x, x ≠ .k → r.arrived.has x = false

/-- The page register and the raster table agree (R1, R6, R9): every slot is of a page with a record, at a version up
to the record's; a slot is current exactly when it holds a separation that has arrived of the record's version; and
a slot at that version of a PARTIAL or COMPLETE page is one of these. -/
structure Filed (s : State) : Prop where
  records : ∀ n r, s.page? n = some r → RecordFits r
  slots : ∀ k o, s.slot? k = some o → ∃ r v, s.page? k.page = some r ∧ r.version = some v ∧ k.version ≤ v ∧
    (k.version = v → r.state ≠ .withdrawn → o.current = true)
  current : ∀ k o, s.slot? k = some o → o.current = true →
    ∃ r, s.page? k.page = some r ∧ r.version = some k.version ∧ r.arrived.has k.sep = true
  arrived : ∀ n r v x, s.page? n = some r → r.version = some v → r.arrived.has x = true →
    ∃ o, s.slot? ⟨n, v, x⟩ = some o ∧ o.current = true

/-- The counts agree with the job table (R3, R8, R58): a page's live-job count is the number of live jobs that name
it, and a slot's reference count is the number of references that live jobs hold on it; a slot that is not current
is held. What a job names is there: its pages have records, the slots it refers to are of its pages and separation,
and while it holds its references they are in use. -/
structure Counted (s : State) : Prop where
  live : ∀ n r, s.page? n = some r → r.liveJobs = namers s n
  counts : ∀ k o, s.slot? k = some o → o.count = references s k
  freed : ∀ k o, s.slot? k = some o → o.current = false → o.count ≠ 0
  named : ∀ n j, s.job? n = some j → ∀ p ∈ j.pages, s.page? p.1 ≠ none
  slots : ∀ n j, s.job? n = some j → ∀ k ∈ j.slots, (k.page, k.version) ∈ j.pages ∧ k.sep = j.sep
  held : ∀ n j, s.job? n = some j → holds j.state = true → ∀ k ∈ j.slots, s.slot? k ≠ none

/-! ### What a position needs, and a press's readiness (R24 to R27, R140, R141) -/

/-- A page is required for a separation (R25): it is K, or the page is not known to be MONO. -/
def needsPage (s : State) (x : Separation) (n : Nat) : Bool :=
  decide (x = .k) || !(s.page? n).any fun r => decide (r.cls = some .mono)

/-- A content can be made (R26): a page of it is required, and every required page has arrived in its separation. -/
def makeable (s : State) (c : Content) : Bool :=
  c.pages.any (needsPage s c.sep) &&
    c.pages.all fun n => !needsPage s c.sep n || (s.page? n).any fun r => r.arrived.has c.sep

/-- A position is satisfied (R27): its current job is RACKED or MOUNTED, or it has none and no page of it is required.
-/
def satisfies (s : State) (x : Position) : Bool :=
  match x.work.current.bind s.job? with
  | some j => decide (j.state = .racked) || decide (j.state = .mounted)
  | none => !x.content.pages.any (needsPage s x.content.sep)

/-- A job that is not superseded is the current job of its position, made of its content and from current rasters of
pages that are required, which it can take again (R24, R29, R31, R39, R58); and a position with a current job is not
deferred (R54), and that job is not superseded (R59). A superseded job is neither QUEUED nor FAILED: it ended where it
would be (R60, R63). -/
structure Current (s : State) : Prop where
  live : ∀ n j, s.job? n = some j → j.superseded = false → ∃ x, s.pos? j.key = some x ∧ x.work.current = some n ∧
    x.content.pages = j.pages.map Prod.fst ∧ x.content.sep = j.sep
  rasters : ∀ n j, s.job? n = some j → j.superseded = false → ∀ k ∈ j.slots,
    needsPage s j.sep k.page = true ∧ ∃ o, s.slot? k = some o ∧ o.current = true
  settled : ∀ k x n, s.pos? k = some x → x.work.current = some n → x.work.deferred = false
  unflagged : ∀ k x n j, s.pos? k = some x → x.work.current = some n → s.job? n = some j → j.superseded = false
  ended : ∀ n j, s.job? n = some j → j.superseded = true → j.state ≠ .queued ∧ j.state ≠ .failed

/-- No two jobs share an entry order, and the next one will be later than all of them (R56). -/
structure EntryOrders (s : State) : Prop where
  given : ∀ n j, s.job? n = some j → j.entryOrder ≤ s.entryCount
  apart : ∀ n m i j, s.job? n = some i → s.job? m = some j → i.entryOrder = j.entryOrder → n = m

/-- The state of a press that is not RUNNING, by its position count and its unsatisfied count (R141). -/
def countedState (positions unsatisfied : Nat) : PressState :=
  if positions = 0 then .idle else if unsatisfied = 0 then .ready else .makeready

/-- The press schedule has been told of every position (R27, R140, R141): a press's position count is the number of its
live positions, its unsatisfied count the number of them that are not satisfied, and a press that is not RUNNING stands
in the state that its counts give. The standing last told of each position is the one it has (the model's own note of
it, log 10). -/
structure PressesTell (s : State) : Prop where
  told : ∀ k x, s.pos? k = some x → x.work.satisfied = satisfies s x
  positions : ∀ p, (s.press p).positions = (s.positionsOf p).length
  unsatisfied : ∀ p, (s.press p).unsatisfied = ((s.positionsOf p).filter fun e => !satisfies s e.2).length
  state : ∀ p, (s.press p).state ≠ .running →
    (s.press p).state = countedState (s.press p).positions (s.press p).unsatisfied

/-! ### Straps (R182) -/

/-- The rights that a strap pair gives. -/
def strapTable : StrapPair → Rights
  | .bothOpen => { pages := true, plan := false, room := false, maint := false }
  | .firstClosed => { pages := false, plan := true, room := false, maint := false }
  | .secondClosed => { pages := false, plan := false, room := true, maint := false }
  | .bothClosed => { pages := true, plan := true, room := true, maint := false }

/-- The rights that a port takes at POWER_ON and LINE_RESET: P0 has no straps and takes all four. -/
def strapRightsOf (p1 p2 : StrapPair) (q : PortId) : Rights :=
  match q with
  | 0 => { pages := true, plan := true, room := true, maint := true }
  | 1 => strapTable p1
  | 2 => strapTable p2

/-- The classes that rights give: the union of each right's default classes. -/
def defaultClasses (r : Rights) : Mask where
  page := r.pages
  position := r.plan
  press := r.plan
  plate := r.room
  lane := r.room
  register := r.room
  engine := r.room || r.maint
  system := r.maint

/-! ### Pages -/

/-- The notice of entering COMPLETE (R2). -/
def completes (n v : Nat) (c : ColourClass) (a : SepSet) : List Notice :=
  if stateFor c a = .complete then [.pageComplete n v c] else []

/-- What an arrival finds in the register: no record; an EXPECTED one; or one at the version and class of the
request that lacks the separation (R4, R13, R14). It gives the arrived set and the live-job count before it. -/
inductive ArrivalFinds (s : State) (n v : Nat) (c : ColourClass) (x : Separation) : SepSet → Nat → Prop
  | nothing (h : s.page? n = none) (room : s.pages.length < 512) :
      ArrivalFinds s n v c x ⟨false, false, false, false⟩ 0
  | expected (r : PageRec) (h : s.page? n = some r) (hs : r.state = .expected) :
      ArrivalFinds s n v c x ⟨false, false, false, false⟩ r.liveJobs
  | lacking (r : PageRec) (h : s.page? n = some r) (hs : r.state = .partly ∨ r.state = .complete)
      (hv : r.version = some v) (hc : r.cls = some c) (hx : r.arrived.has x = false) :
      ArrivalFinds s n v c x r.arrived r.liveJobs

/-! ### Requests -/

/-- The command by which a request is received at a port. -/
def Request.command (p : PortId) (tag : Byte) : Request → Instr
  | .separationArrived page v c x ref => .separationArrived p tag page v c x ref
  | .withdrawPage page => .withdrawPage p tag page
  | .stagePosition pr q f a b x => .stagePosition p tag pr q f a b x
  | .clearStagedPosition pr q => .clearStagedPosition p tag pr q
  | .discardStage pr => .discardStage p tag pr
  | .commitPlan pr e => .commitPlan p tag pr e
  | .holdPosition pr q => .holdPosition p tag pr q
  | .releasePosition pr q => .releasePosition p tag pr q
  | .requeuePosition pr q => .requeuePosition p tag pr q
  | .clearEngineFault e => .clearEngineFault p tag e
  | .restoreEngine e => .restoreEngine p tag e
  | .rearmRegister e => .rearmRegister p tag e
  | .pullConfirm pr q => .pullConfirm p tag pr q
  | .mount pr q => .mount p tag pr q
  | .unmount pr q => .unmount p tag pr q
  | .pressStart pr f => .pressStart p tag pr f
  | .pressStop pr => .pressStop p tag pr
  | .setClock t => .setClock p tag t
  | .setPressSchedule pr t l => .setPressSchedule p tag pr t l
  | .hold u => .hold p tag u
  | .release u => .release p tag u
  | .step u => .step p tag u
  | .setStopPolicy u x => .setStopPolicy p tag u x
  | .lineStop => .lineStop p tag
  | .lineResume => .lineResume p tag
  | .reconcileEnd => .reconcileEnd p tag
  | .softReset => .softReset p tag
  | .setRights q r => .setRights p tag q r
  | .setNoticeMask c => .setNoticeMask p tag c
  | .setLimits l v ln => .setLimits p tag l v ln
  | .queryPage n => .queryPage p tag n
  | .queryPosition pr q => .queryPosition p tag pr q
  | .queryJob n => .queryJob p tag n
  | .queryEngine e => .queryEngine p tag e
  | .queryLane u => .queryLane p tag u
  | .queryPress pr => .queryPress p tag pr
  | .queryPart => .queryPart p tag

/-- The right that a request needs is among a port's rights (the request summary, R185). -/
def Request.allowed (r : Rights) : Request → Bool
  | .separationArrived .. | .withdrawPage .. => r.pages
  | .stagePosition .. | .clearStagedPosition .. | .commitPlan .. | .mount .. | .unmount ..
  | .pressStart .. | .pressStop .. | .setClock .. | .setPressSchedule .. => r.plan
  | .discardStage .. => r.plan || r.maint
  | .holdPosition .. | .releasePosition .. | .requeuePosition .. | .clearEngineFault ..
  | .rearmRegister .. | .pullConfirm .. | .hold .. | .release .. | .step .. | .setStopPolicy ..
  | .lineStop | .lineResume | .reconcileEnd => r.room
  | .restoreEngine .. | .softReset | .setRights .. | .setLimits .. => r.maint
  | .setNoticeMask .. | .queryPage .. | .queryPosition .. | .queryJob .. | .queryEngine ..
  | .queryLane .. | .queryPress .. | .queryPart => true

/-- The bytes of a request's body: its fields in the order of the request summary, in their widths (R185,
R187). -/
def Request.bytes : Request → List Byte
  | .separationArrived page v c x ref =>
    bytes16 page ++ [v, c, x] ++ bytes32 (ref.extractLsb' 0 32) ++ bytes32 (ref.extractLsb' 32 32)
  | .withdrawPage page | .queryPage page => bytes16 page
  | .stagePosition pr q f a none x => [pr, q, f] ++ bytes16 a ++ [0, x]
  | .stagePosition pr q f a (some b) x => [pr, q, f] ++ bytes16 a ++ [1] ++ bytes16 b ++ [x]
  | .clearStagedPosition pr q | .holdPosition pr q | .releasePosition pr q | .requeuePosition pr q
  | .pullConfirm pr q | .mount pr q | .unmount pr q | .queryPosition pr q => [pr, q]
  | .commitPlan pr e => [pr, e]
  | .discardStage x | .pressStop x | .queryPress x => [x]
  | .clearEngineFault x | .restoreEngine x | .rearmRegister x | .queryEngine x => [x]
  | .hold x | .release x | .step x | .queryLane x => [x]
  | .pressStart pr f => [pr, f]
  | .setClock t => bytes32 t
  | .setPressSchedule pr none l => [pr, 0] ++ bytes16 l
  | .setPressSchedule pr (some t) l => [pr, 1] ++ bytes32 t ++ bytes16 l
  | .setStopPolicy u x => [u, x]
  | .lineStop | .lineResume | .reconcileEnd | .softReset | .queryPart => []
  | .setRights q r => [q, r]
  | .setNoticeMask c => [c]
  | .setLimits l v none => [l] ++ bytes16 v ++ [0]
  | .setLimits l v (some x) => [l] ++ bytes16 v ++ [1, x]
  | .queryJob n => bytes16 n

/-- The bytes of a frame on a desk link: sync, length, type, tag, kind, body, check (R187). -/
def frameBytes (f : Frame) : List Byte :=
  Config.sync :: bytes16 f.length ++ [f.typ, f.tag] ++ bytes16 f.kind ++ f.body ++ bytes16 f.check

/-- The frame that carries a request (R187). -/
def Request.frame (tag : Byte) (r : Request) : Frame :=
  let length : U16 := BitVec.ofNat 16 r.bytes.length
  ⟨length, 1, tag, r.kind, r.bytes, crc (bytes16 length ++ [1, tag] ++ bytes16 r.kind ++ r.bytes)⟩

/-- Commands executed one after another, to the first that does not go on. -/
def execAll : List Instr → State → Host.Outcome State Fault Refusal
  | [], s => .next s
  | c :: cs, s =>
    match exec c s with
    | .next t => execAll cs t
    | o => o

/-- A request that comes now is taken as it is received: the port has none in hand and none queued, and no
soft reset is due (R177, R178, R163). -/
structure Free (p : PortId) (s : State) : Prop where
  hand : (s.port p).link.inHand = none
  queue : (s.port p).link.queue = []
  due : s.softResetDue = false

/-! ### What a command does: a state after it -/

/-- The command goes on, to a state with the property. -/
def Goes (c : Instr) (s : State) (P : State → Prop) : Prop := ∃ t, exec c s = .next t ∧ P t

/-- The two states are the same but for what the ports hold. -/
def Same (s t : State) : Prop := t = { s with ports := t.ports }

/-- The list that a free transmitter sends from next (R179): the output list while RESTARTED stands unsent at its
head, then the refusal list, then the output list. -/
def nextList (l : Link) : Option SendSource :=
  if l.output.head?.any OutFrame.isRestarted = true then some .output
  else if l.refusals ≠ [] then some .refusals
  else if l.output ≠ [] then some .output else none

/-- A transmitter that is free starts on the next list; one that is sending goes on (R179). -/
def started (l : Link) : Link := { l with sending := l.sending.or (nextList l) }

/-- A port keeps its rights, its mask, its receiver, its queue and its refusal list; what it is sending and an
overrun flag that is set stay; and no frame leaves its output list: notices of classes in its mask may join it, and
after them the frames of `tail`. -/
structure PortKept (tail : List OutFrame) (x y : Port) : Prop where
  rights : y.rights = x.rights
  mask : y.mask = x.mask
  rx : y.link.rx = x.link.rx
  queue : y.link.queue = x.link.queue
  refusals : y.link.refusals = x.link.refusals
  sending : x.link.sending ≠ none → y.link.sending = x.link.sending
  overrun : x.link.overrun ≠ none → y.link.overrun = x.link.overrun
  output : ∃ l, y.link.output = x.link.output ++ l ++ tail ∧
    ∀ f ∈ l, ∃ time n, f = .notice time n ∧ x.mask.has n.cls = true

/-- Every port is kept, with its request in hand. -/
def PortsKept (s t : State) : Prop :=
  ∀ q, PortKept [] (s.port q) (t.port q) ∧ (t.port q).link.inHand = (s.port q).link.inHand

/-- The port has the request in hand, and its answer stands last in its output list (R178); every port is
kept otherwise. -/
structure AnsweredAt (p : PortId) (tag : Byte) (kind : U16) (a : Answer) (s t : State) : Prop where
  kept : ∀ q, PortKept (if q = p then [.answer tag kind a] else []) (s.port q) (t.port q)
  hands : ∀ q, q ≠ p → (t.port q).link.inHand = (s.port q).link.inHand
  hand : ∃ r, (t.port p).link.inHand = some r ∧ r.tag = tag ∧ r.kind = kind

/-- A request in hand at a port (R178). -/
def inHandAt (p : PortId) (r : Received) (s : State) : State := s.modLink p fun l => { l with inHand := some r }

/-- The answer to the request in hand joins the output list, and a free transmitter starts (R178, R179). -/
def answerAt (p : PortId) (tag : Byte) (kind : U16) (a : Answer) (s : State) : State :=
  s.modLink p fun l => started { l with output := l.output ++ [.answer tag kind a] }

/-- The notices of some classes, as frames stamped with a plant time, in order. -/
def framesFor (m : Mask) (time : Nat) (ns : List Notice) : List OutFrame :=
  (ns.filter fun n => m.has n.cls).map (.notice time)

/-- These notices are the first to be raised, in this order: a port that has room for all of them, and whose
overrun flag is clear, has a copy of each whose class its mask holds next in its output list, stamped with the
plant time (R180). -/
def Tells (ns : List Notice) (s t : State) : Prop :=
  ∀ q, (s.port q).link.noticeCount + ns.length ≤ Config.noticeQueue → (s.port q).link.overrun = none →
    ∃ l, (t.port q).link.output = (s.port q).link.output ++ framesFor (s.port q).mask s.clock ns ++ l

/-- A notice is raised in a reaction: a port whose mask holds its class has a copy of it in its output list, or
its overrun flag is set (R180). -/
def Told (n : Notice) (s t : State) : Prop :=
  ∀ q, (s.port q).mask.has n.cls = true →
    .notice s.clock n ∈ (t.port q).link.output ∨ (t.port q).link.overrun ≠ none

/-! ### Pages in use -/

/-- The references on some slots have been released (R8, R58): each slot's count falls by the references
released, and a slot brought to 0 that is not current is freed. -/
def Released (ks : List SlotKey) (s t : State) : Prop :=
  ∀ k, (s.slot? k = none → t.slot? k = none) ∧
    ∀ x, s.slot? k = some x →
      (k ∉ ks → t.slot? k = some x) ∧
      (k ∈ ks → t.slot? k =
        if x.count - ks.count k = 0 ∧ x.current = false then none
        else some { x with count := x.count - ks.count k })

/-- The fields of a STAGE_POSITION that spell a content (R33, step 1). -/
structure SpellsContent (format : Byte) (a : U16) (b : Option U16) (sep : Byte) (c : Content) : Prop where
  sep : sep = byteOf (sepNumber c.sep)
  pageA : a ≠ 0 ∧ c.pageA = a.toNat
  pageB : (format = 0 ∧ b = none ∧ c.format = .oneUp ∧ c.pageB = none) ∨
    (format = 1 ∧ ∃ y, b = some y ∧ y ≠ 0 ∧ y ≠ a ∧ c.format = .twoUp ∧ c.pageB = some y.toNat)

/-! ### Engines -/

/-- The state with another record for an engine. -/
def withEngine (e : EngineId) (x : Engine) (s : State) : State :=
  { s with engines := vmod s.engines e fun _ => x }

/-- A context other than current holds the job. -/
def WaitsIn (c : Contexts) (n : Nat) : Prop :=
  (∃ w, c.next = some w ∧ w.job = n) ∨ ∃ w, c.parked = some w ∧ w.job = n

/-- A context holds the job. -/
def HeldIn (c : Contexts) (n : Nat) : Prop := (∃ w, c.current = some w ∧ w.job = n) ∨ WaitsIn c n

/-- The reports about a job (R76), each with the command whose entry of the cancel list it removes (R79). -/
inductive ReportOf (e : EngineId) (n : U16) (a : Byte) : Instr → Option CancelCommand → Prop
  | loaded : ReportOf e n a (.loaded e n a) none
  | loadFault (c : LoadFaultCause) : ReportOf e n a (.loadFault e n a c) none
  | exposeStarted : ReportOf e n a (.exposeStarted e n a) none
  | exposeDone : ReportOf e n a (.exposeDone e n a) (some .abort)
  | exposeFault (b : Bool) : ReportOf e n a (.exposeFault e n a b) (some .abort)
  | discarded : ReportOf e n a (.discarded e n a) (some .discard)

/-- A waiting context holds the job at a stage. -/
def WaitsAt (w : Option WaitingCtx) (n : Nat) (x : LoadStage) : Prop := ∃ y, w = some y ∧ y.job = n ∧ y.stage = x

/-- A context of the engine takes the report, by the job's place (R78). -/
def Takes (c : Contexts) (n : Nat) : Instr → Prop
  | .loaded .. | .loadFault .. => WaitsAt c.next n .loadSent ∨ WaitsAt c.parked n .loadSent
  | .exposeStarted .. => WaitsAt c.next n .exposeSent
  | .exposeDone .. => ∃ w, c.current = some w ∧ w.job = n
  | .exposeFault .. => (∃ w, c.current = some w ∧ w.job = n) ∨ WaitsAt c.next n .exposeSent
  | _ => False

/-- The report names a job at its attempt, the cancel list does not name it, and the channel is open to reports
about the jobs of its contexts (R78, R79). -/
structure Expected (e : EngineId) (n a : Nat) (c : Instr) (s : State) : Prop where
  mode : (s.engine e).status.mode = .running ∨ (s.engine e).status.mode = .faulted
  unlisted : ∀ x ∈ (s.engine e).ctx.cancel, x.job = n → x.attempt ≠ a
  takes : Takes (s.engine e).ctx n c
  attempt : ∃ j, s.job? n = some j ∧ j.attempt = a

/-- The entry that a waiting job leaves on the cancel list when its engine faults (R79, R91): ABORT is sent for it
at stage EXPOSE_SENT, DISCARD at the others. -/
def leaving (s : State) (w : Option WaitingCtx) : List CancelEntry :=
  w.toList.map fun w =>
    ⟨w.job, (s.attemptOf w.job).getD 0, if w.stage = .exposeSent then .abort else .discard⟩

/-- The entry that a current job leaves when its engine is locked out (R79, R91). -/
def aborting (s : State) (w : Option CurrentCtx) : List CancelEntry :=
  w.toList.map fun w => ⟨w.job, (s.attemptOf w.job).getD 0, .abort⟩

/-- The cancel list after some jobs have left: an entry of the same job number gives way (R79). -/
def joinCancel (l gone : List CancelEntry) : List CancelEntry :=
  gone.foldl (fun l x => l.filter (fun y => y.job ≠ x.job) ++ [x]) l

/-- The command that was sent for an entry of the cancel list (R76). -/
def commandFor (e : EngineId) (x : CancelEntry) : LineCommand :=
  match x.command with
  | .discard => .discard e x.job x.attempt
  | .abort => .abort e x.job x.attempt

/-- A job has left an engine's next or parked context. -/
def Contexts.without (c : Contexts) (n : Nat) : Contexts :=
  { c with next := c.next.filter fun w => w.job ≠ n, parked := c.parked.filter fun w => w.job ≠ n }

/-- The parked job moves to next when next is empty (R83). -/
def Contexts.settled (c : Contexts) : Contexts :=
  if c.next = none then { c with next := c.parked, parked := none } else c

/-- The state at an engine fault once the jobs have left their contexts (R91). The engine is FAULTED and its
waiting jobs have left; with the fault flag set already, it is LOCKED_OUT and its current job has left too. `c`
are the contexts without the job that the fault names, and `gone` the entry that this job left by. -/
def afterFault (e : EngineId) (cause : EngineFaultCause) (c : Contexts) (gone : List CancelEntry) (s : State) :
    State :=
  let x := s.engine e
  let out := x.status.faultFlag
  let all := gone ++ (if out then aborting s c.current else []) ++ leaving s c.next ++ leaving s c.parked
  { withEngine e
      { x with
        status := { x.status with
          mode := if out then .lockedOut else .faulted, faultFlag := true, lastFault := some (cause, s.clock) }
        ctx := ⟨if out then none else c.current, none, none, joinCancel c.cancel all⟩ } s with
    lineSent := s.lineSent ++ all.map (commandFor e) }

/-- The notice of an engine fault (R91). -/
def faultNotice (s : State) (e : EngineId) (cause : EngineFaultCause) (job : Option Nat) : Notice :=
  if (s.engine e).status.faultFlag then .engineLockedOut e cause job else .engineFault e cause job

/-! ### Dispatch -/

/-- The order of the ready queues (R56): jobs of a press with a start time before those of a press without, by start
time; then by entry order. -/
def aheadOf (s : State) (a b : Job) : Bool :=
  match (s.press a.press).start, (s.press b.press).start with
  | some t, some u => decide (t < u ∨ (t = u ∧ a.entryOrder < b.entryOrder))
  | some _, none => true
  | none, some _ => false
  | none, none => decide (a.entryOrder < b.entryOrder)

/-- A job is offered to the dispatcher: it is QUEUED, and its position is not held (R57, R80). -/
def Offered (s : State) (n : Nat) (j : Job) : Prop :=
  s.job? n = some j ∧ j.state = .queued ∧ ∀ x, s.pos? j.key = some x → x.held = false

/-- No gate keeps an engine from taking or exposing work: it is RUNNING, not held but for a step, not stopped, and not
starved (R74, R80, R85). -/
structure CanWork (x : Engine) : Prop where
  running : x.status.mode = .running
  held : x.gates.held = false ∨ x.gates.allowance = true
  stopped : x.gates.stopped = false
  format : x.cassette.format ≠ none
  count : 0 < x.cassette.count

/-- An engine is eligible for a job (R80). -/
structure EligibleFor (s : State) (e : EngineId) (n : Nat) (j : Job) : Prop where
  works : CanWork (s.engine e)
  format : (s.engine e).cassette.format = some j.format
  register : j.colourNeed = .mono ∨ (s.register e).state ≠ .drifted
  cancel : ∀ x ∈ (s.engine e).ctx.cancel, x.job ≠ n

/-- An engine can be preempted for an URGENT job (R82). -/
structure Preempts (s : State) (e : EngineId) (n : Nat) (j : Job) : Prop where
  eligible : EligibleFor s e n j
  next : ∃ w i, (s.engine e).ctx.next = some w ∧ w.stage ≠ .exposeSent ∧ s.job? w.job = some i ∧ i.cls = .normal
  parked : (s.engine e).ctx.parked = none

/-- A job has been given to an engine (R76, R81, R84): it is ASSIGNED in next at stage LOAD_SENT with its LOAD timer
started, and LOAD has been sent, with the store reference of each page that was required. -/
def given (e : EngineId) (n : Nat) (j : Job) (s : State) : State :=
  ((s.modCtx e fun c => { c with next := some ⟨n, .loadSent, some s.limits.load, false⟩ }).modJob n fun x =>
      { x with state := .assigned, engine := some e }).send
    (.load e n j.attempt j.key j.format (j.pages.map fun p =>
      if SlotKey.mk p.1 p.2 j.sep ∈ j.slots then (s.slot? ⟨p.1, p.2, j.sep⟩).map Slot.ref else none))

/-- Every condition of EXPOSE but the lane's room holds for an engine's next job (R85). -/
structure Loaded (s : State) (e : EngineId) (w : WaitingCtx) : Prop where
  works : CanWork (s.engine e)
  current : (s.engine e).ctx.current = none
  next : (s.engine e).ctx.next = some w
  stage : w.stage = .loaded

/-- The lane room test passes (R86). -/
def HasLaneRoom (s : State) (l : LaneId) : Prop := loadOf s l < 12 ∧ (s.lane l).clearing = false

/-- The engines have been served: none with an empty next context is eligible for a job that is offered (R81), and
where a next job could be sent EXPOSE, its lane has no room (R85, R86). -/
structure Served (s : State) : Prop where
  given : ∀ e n j, (s.engine e).ctx.next = none → Offered s n j → ¬ EligibleFor s e n j
  exposed : ∀ e w, Loaded s e w → ¬ HasLaneRoom s (laneFed e)

/-- The engines of a lane have been reconsidered for EXPOSE with the jobs as an event finds them (R85, R86, R168): where
no URGENT job is queued that could preempt one, and the lane's load leaves room for all three, EXPOSE has been sent for
every next job that was LOADED. -/
def Reconsidered (l : LaneId) (s t : State) : Prop :=
  (∀ n j, s.job? n = some j → j.state = .queued → j.cls = .normal) → loadOf s l ≤ 9 →
    ∀ e w, laneFed e = l → Loaded s e w →
      (t.engine e).ctx.next = some { w with stage := .exposeSent, timer := some s.limits.load }

/-- A waiting job is URGENT. -/
def IsUrgent (s : State) (w : WaitingCtx) : Prop := ∃ j, s.job? w.job = some j ∧ j.cls = .urgent

/-- EXPOSE has been sent for an engine's next job, with the correction of the engine's register record, which is the
job's applied correction now; the LOAD timer starts again (R85). -/
def exposed (e : EngineId) (w : WaitingCtx) (j : Job) (s : State) : State :=
  let o := (s.register e).correction
  ((s.modCtx e fun c => { c with next := some { w with stage := .exposeSent, timer := some s.limits.load } }).modJob
      w.job fun x => { x with applied := some o }).send (.expose e w.job j.attempt o)

/-- The colour-starved condition: every RUNNING engine is DRIFTED, one is RUNNING, and a COLOUR job is QUEUED (R106). -/
def ColourStarves (s : State) : Prop :=
  (∃ e, (s.engine e).status.mode = .running) ∧
  (∀ e, (s.engine e).status.mode = .running → (s.register e).state = .drifted) ∧
  ∃ n j, s.job? n = some j ∧ j.state = .queued ∧ j.colourNeed = .colour

/-! ### Coming to rest (R151, R159, R160) -/

/-- An engine has come to rest: its current context is empty, and its next holds no job that was sent EXPOSE (R160). -/
def engineRests (s : State) (e : EngineId) : Bool :=
  (s.engine e).ctx.current.isNone && !(s.engine e).ctx.next.any fun w => w.stage = .exposeSent

/-- Every engine has come to rest, every lane has its stopped gate set, and the sorter is not busy (R160). -/
def AtRest (s : State) : Prop :=
  (∀ e, engineRests s e = true) ∧ (∀ l, (s.lane l).gates.stopped = true) ∧ s.sorter.delivery = none

/-- Line control has evaluated the reached marks. While the line is STOPPING a lane with no load has its stopped gate
set (R159), every engine that has come to rest and every lane with its stopped gate set has its mark, and something is
still to come to rest (R160). In any other line state no mark is kept (R151). -/
structure RestMarked (s : State) : Prop where
  drained : s.line.state = .stopping → ∀ l, loadOf s l = 0 → (s.lane l).gates.stopped = true
  engines : s.line.state = .stopping → ∀ e : EngineId, engineRests s e = true → s.line.reachedEngines[e] = true
  lanes : s.line.state = .stopping → ∀ l : LaneId, (s.lane l).gates.stopped = true → s.line.reachedLanes[l] = true
  waits : s.line.state = .stopping →
    ¬ ((∀ e : EngineId, s.line.reachedEngines[e] = true) ∧ (∀ l : LaneId, s.line.reachedLanes[l] = true) ∧
      s.sorter.delivery = none)
  dropped : s.line.state ≠ .stopping →
    (∀ e : EngineId, s.line.reachedEngines[e] = false) ∧ ∀ l : LaneId, s.line.reachedLanes[l] = false

/-! ### The register tracker -/

/-- The mean of some offsets on one axis: rounded toward zero and held at 4000 (R101). -/
def meanOf (l : List Int) : Int := max (-4000) (min 4000 (l.sum.tdiv l.length))

/-- Both axes differ by at most a limit. -/
abbrev Near (limit : Nat) (a b : Offset) : Prop :=
  (a.dx - b.dx).natAbs ≤ limit ∧ (a.dy - b.dy).natAbs ≤ limit

/-- The measured offset lies beyond the drift limit (R100). -/
abbrev Beyond (s : State) (m : Offset) : Prop := s.limits.drift < m.dx.natAbs ∨ s.limits.drift < m.dy.natAbs

/-- An engine's register record after a sample: measured offset m, applied correction c (R99 to R104). -/
def sampled (s : State) (e : EngineId) (m c : Offset) : Register :=
  let r := s.register e
  let d : Offset := ⟨m.dx + c.dx, m.dy + c.dy⟩
  let w := (r.window ++ [d]).drop (r.window.length - 7)
  let mean : Offset := ⟨meanOf (w.map Offset.dx), meanOf (w.map Offset.dy)⟩
  if Beyond s m then ⟨.drifted, w, mean, 0⟩
  else
    match r.state with
    | .tracking =>
      ⟨if w.length = 8 ∧ ∀ x ∈ w, Near s.limits.lockWindow x mean then .locked else .tracking, w, mean, r.run⟩
    | .locked =>
      if Near s.limits.relock d r.correction then ⟨.locked, w, r.correction, r.run⟩
      else ⟨.tracking, [d], ⟨meanOf [d.dx], meanOf [d.dy]⟩, r.run⟩
    | .drifted => if r.run + 1 < s.limits.recover then ⟨.drifted, w, mean, r.run + 1⟩ else ⟨.tracking, w, mean, 0⟩

/-! ### Lanes -/

/-- A lane is open (R111). -/
abbrev Lane.Opens (x : Lane) : Prop :=
  x.lost = false ∧ x.gates.stopped = false ∧ (x.gates.held = false ∨ x.gates.allowance = true)

/-- A lane that was open only through its step allowance has used it (R120, R127). -/
def usedStep (l : LaneId) (s : State) : State :=
  s.modLane l fun x => { x with gates := { x.gates with allowance := x.gates.allowance && !x.gates.held } }

/-- The tag that a plate of a job carries (R114, R115). -/
def plateTag (n : U16) (j : Job) : TagFields := ⟨n, ~~~n, BitVec.ofNat 2 j.attempt, j.press, j.pos⟩

/-- A tag is sound (R115). -/
structure Sound (s : State) (t : TagFields) : Prop where
  attempt : t.attempt ≠ 0
  check : t.check = ~~~t.job
  job : t.job ≠ 0
  place : ∀ j, s.job? t.job.toNat = some j → j.press = t.press ∧ j.pos = t.position

/-- The job's entry is the head of inspection, and the order names the job once (R112). -/
def Heads (order : List LaneEntry) (n : Nat) : Prop :=
  ∃ pre y post, order = pre ++ y :: post ∧ y.job = n ∧ y.stage = .inDeveloper ∧
    (∀ z ∈ pre, z.stage ≠ .inDeveloper) ∧ ∀ z ∈ pre ++ post, z.job ≠ n

/-- The job's entry in the lane's order stands at a stage, and the job is at an attempt (R112, R121). -/
def Stands (s : State) (l : LaneId) (n a : Nat) (x : LaneStage) : Prop :=
  (∃ y ∈ (s.lane l).floor.order, y.job = n ∧ y.stage = x) ∧ ∃ j, s.job? n = some j ∧ j.attempt = a

/-- The lane is clearing, and the job is UNCERTAIN with this lane at an attempt (R169, R170). -/
def Reclaimable (s : State) (l : LaneId) (n a : Nat) : Prop :=
  (s.lane l).clearing = true ∧
    ∃ j, s.job? n = some j ∧ j.state = .uncertain ∧ j.lane = some l ∧ j.attempt = a

/-- The entries of a lane's order but those of a job. -/
def without (n : Nat) (order : List LaneEntry) : List LaneEntry := order.filter fun x => x.job ≠ n

/-- The measured offset of a report lies within a range (R114, R115, R119). -/
abbrev Within (limit : Nat) (m : Offset) : Prop := Near limit m ⟨0, 0⟩

/-- The place that the sorter has for a plate at an exit (R126). -/
def placeFor (s : State) (j : Job) : Option Destination :=
  if j.superseded then some .rejectBin
  else if (s.rack j.key).length < 2 then some (.rackSlot j.press j.pos)
  else if (s.shelf j.press).length < 8 then some (.shelf j.press) else none

/-- A lane is a candidate for the sorter's grant (R127). -/
structure Candidate (s : State) (l : LaneId) (n : Nat) (j : Job) (d : Destination) : Prop where
  opens : (s.lane l).Opens
  exit : (s.lane l).floor.exit = some n
  stage : ∃ y ∈ (s.lane l).floor.order, y.job = n ∧ y.stage = .atExit
  job : s.job? n = some j
  place : placeFor s j = some d

/-- Of two candidates, the lane that the sorter grants (R127): the one whose job alone is URGENT; else the one that was
not served last, and L0 when none was. -/
def GrantedBefore (s : State) (l l' : LaneId) (j j' : Job) : Prop :=
  (j.cls = .urgent ∧ j'.cls = .normal) ∨
    (j.cls = j'.cls ∧ (s.sorter.lastServed = some l' ∨ (s.sorter.lastServed = none ∧ l = 0)))

/-- The sorter can take a plate (R125). -/
structure SorterFree (s : State) : Prop where
  idle : s.sorter.delivery = none
  lost : s.sorter.lost = false
  held : s.sorter.held = false ∨ s.sorter.allowance = true

/-- A lane whose exit has been granted (R127): the entry is GRANTED, the blocked mark clear, and a step allowance
through which alone the lane was open is used. -/
def grantedLane (x : Lane) (n : Nat) : Lane :=
  { x with
    floor := ⟨x.floor.order.map fun y => if y.job = n then { y with stage := .granted } else y, x.floor.exit, false⟩
    gates := { x.gates with allowance := x.gates.allowance && !x.gates.held } }

/-- The delivery has ended: the sorter is not busy, its lane is the last served and has no exit request, and the
job's entry has left the order (R129, R130). -/
def delivered (d : Delivery) (s : State) : State :=
  (s.modSorter fun x => { x with delivery := none, lastServed := some d.lane }).modFloor d.lane fun f =>
    { f with order := without d.job f.order, exit := none }

/-! ### Timers -/

/-- One second off a timer. -/
def lessOne (t : Option Nat) : Option Nat := t.map (· - 1)

/-- One second later: the clock, the engines' timers, the transit timers of open lanes, and the reconcile timer
(R84, R87, R113, R145, R167). -/
def SecondLater (s t : State) : Prop :=
  t = { s with
    clock := min (s.clock + 1) (max s.clock 4294967295), engines := t.engines, lanes := t.lanes
    restart := { s.restart with timer := lessOne s.restart.timer } } ∧
  (∀ e, t.engine e =
    let x := s.engine e
    let wait := fun w : WaitingCtx => { w with timer := lessOne w.timer }
    { x with ctx := { x.ctx with
        current := x.ctx.current.map fun w => { w with timer := w.timer - 1 }
        next := x.ctx.next.map wait, parked := x.ctx.parked.map wait } }) ∧
  ∀ l, ((s.lane l).Opens → t.lane l =
      { s.lane l with floor := { (s.lane l).floor with
        order := (s.lane l).floor.order.map fun y => { y with timer := lessOne y.timer } } }) ∧
    (¬ (s.lane l).Opens → t.lane l = s.lane l)

/-- The window alarm of a press is due at the clock (R146). -/
def WindowDue (s : State) (p : PressId) (t : Nat) : Prop :=
  (s.press p).start = some t ∧ (s.press p).windowArmed = true ∧ t - 60 * (s.press p).lead ≤ s.clock

/-- The start alarm of a press is due at the clock (R146). -/
def StartDue (s : State) (p : PressId) (t : Nat) : Prop :=
  (s.press p).start = some t ∧ (s.press p).startArmed = true ∧ t ≤ s.clock

/-! ### What serving the engines leaves alone (R81, R82, R85, R86, R106, R160) -/

/-- What an engine keeps while the engines are served: all but its next and parked contexts, and these too
unless it is RUNNING. A parked job stays; a next job stays, is sent EXPOSE if it is LOADED, or is parked as it
stands unless it has been sent EXPOSE. -/
structure EngineServed (x y : Engine) : Prop where
  status : y.status = x.status
  gates : y.gates = x.gates
  cassette : y.cassette = x.cassette
  current : y.ctx.current = x.ctx.current
  cancel : y.ctx.cancel = x.ctx.cancel
  parked : ∀ w, x.ctx.parked = some w → y.ctx.parked = some w
  next : ∀ w, x.ctx.next = some w → y.ctx.next = some w ∨
    (w.stage = .loaded ∧ ∃ t, y.ctx.next = some { w with stage := .exposeSent, timer := t }) ∨
    (w.stage ≠ .exposeSent ∧ y.ctx.parked = some w)
  idle : x.status.mode ≠ .running → y.ctx = x.ctx

/-- What a lane keeps while the engines are served: all but its stopped gate. -/
def LaneServed (x y : Lane) : Prop := y = { x with gates := { x.gates with stopped := y.gates.stopped } }

/-- What the job table keeps while the engines are served: the jobs themselves; a job's state goes only from
QUEUED to ASSIGNED. -/
def JobsServed (s t : State) : Prop :=
  ∀ n, (s.job? n = none → t.job? n = none) ∧
    ∀ j, s.job? n = some j → ∃ j', t.job? n = some j' ∧
      (j'.state = j.state ∨ (j.state = .queued ∧ j'.state = .assigned)) ∧
      j' = { j with state := j'.state, engine := j'.engine, applied := j'.applied }

/-- What serving the engines leaves alone, the ports apart. -/
structure KeptByServing (s t : State) : Prop where
  clock : t.clock = s.clock
  pages : t.pages = s.pages
  slots : t.slots = s.slots
  plan : t.plan = s.plan
  stages : t.stages = s.stages
  lastJob : t.lastJob = s.lastJob
  entryCount : t.entryCount = s.entryCount
  racks : t.racks = s.racks
  shelves : t.shelves = s.shelves
  presses : t.presses = s.presses
  registers : t.registers = s.registers
  sorter : t.sorter = s.sorter
  limits : t.limits = s.limits
  restart : t.restart = s.restart
  softResetDue : t.softResetDue = s.softResetDue
  deskSent : t.deskSent = s.deskSent
  pending : t.pending = s.pending
  policies : t.line.policies = s.line.policies
  stopTime : t.line.stopTime = s.line.stopTime
  lineState : t.line.state = s.line.state ∨ (s.line.state = .stopping ∧ t.line.state = .stopped)
  engines : ∀ e, EngineServed (s.engine e) (t.engine e)
  lanes : ∀ l, LaneServed (s.lane l) (t.lane l)
  running : s.line.state ≠ .stopping → t.line = s.line ∧ t.lanes = s.lanes
  jobs : JobsServed s t
  idle : (∀ e, (s.engine e).status.mode ≠ .running) → t.jobs = s.jobs ∧ t.lineSent = s.lineSent
  sent : ∃ l, t.lineSent = s.lineSent ++ l

/-! ### What the reactions of the part leave alone

The reactions are need tests, the creation, the departure and the return of jobs, supersedes, promotion,
colour eviction, the sorter's look, and serving the engines. -/

/-- A position record in a reaction: its content, edition, held flag and mounted job stay. -/
def PositionKept (x y : Position) : Prop :=
  y.content = x.content ∧ y.edition = x.edition ∧ y.held = x.held ∧ y.work.mounted = x.work.mounted

/-- A press record in a reaction: all but its state and its unsatisfied count stays; a RUNNING press stays so,
and no other becomes so. -/
def PressKept (x y : Press) : Prop :=
  y = { x with state := y.state, unsatisfied := y.unsatisfied } ∧ (y.state = .running ↔ x.state = .running)

/-- An engine record in a reaction: all but its next and parked contexts and its cancel list stays, and these
too if no job waits and the engine is not RUNNING. -/
structure EngineKept (x y : Engine) : Prop where
  status : y.status = x.status
  gates : y.gates = x.gates
  cassette : y.cassette = x.cassette
  current : y.ctx.current = x.ctx.current
  idle : x.status.mode ≠ .running → x.ctx.next = none → x.ctx.parked = none → y.ctx = x.ctx

/-- A lane record in a reaction: the jobs of its order, its exit request, its pending inspections and its
settings stay; without an exit request all of it stays but its stopped gate. -/
structure LaneKept (x y : Lane) : Prop where
  order : y.floor.order.map LaneEntry.job = x.floor.order.map LaneEntry.job
  exit : y.floor.exit = x.floor.exit
  held : y.gates.held = x.gates.held
  inspections : y.inspections = x.inspections
  transit : y.transit = x.transit
  policy : y.policy = x.policy
  clearing : y.clearing = x.clearing
  lost : y.lost = x.lost
  idle : x.floor.exit = none → y = { x with gates := { x.gates with stopped := y.gates.stopped } }

/-- A page record in a reaction: only its live-job count changes, and only a WITHDRAWN one is removed. -/
def PagesKept (s t : State) : Prop :=
  ∀ n, (s.page? n = none → t.page? n = none) ∧
    ∀ r, s.page? n = some r →
      (∃ m, t.page? n = some { r with liveJobs := m }) ∨ (r.state = .withdrawn ∧ t.page? n = none)

/-- One raster slot in a reaction: it is not created, and only its reference count changes; a slot that is freed was not
current, or is one of a WITHDRAWN page. -/
abbrev SlotKept (s t : State) (k : SlotKey) : Prop :=
  (s.slot? k = none → t.slot? k = none) ∧
    ∀ x, s.slot? k = some x →
      (∃ m, t.slot? k = some { x with count := m }) ∨
        (t.slot? k = none ∧ (x.current = false ∨ ∃ r, s.page? k.page = some r ∧ r.state = .withdrawn))

/-- Every raster slot in a reaction. -/
def SlotsKept (s t : State) : Prop := ∀ k, SlotKept s t k

/-- What the reactions leave alone beside the job table, the ports apart. -/
structure KeptAside (s t : State) : Prop where
  clock : t.clock = s.clock
  stages : t.stages = s.stages
  racks : t.racks = s.racks
  shelves : t.shelves = s.shelves
  registers : t.registers = s.registers
  limits : t.limits = s.limits
  restart : t.restart = s.restart
  softResetDue : t.softResetDue = s.softResetDue
  deskSent : t.deskSent = s.deskSent
  pending : t.pending = s.pending
  policies : t.line.policies = s.line.policies
  stopTime : t.line.stopTime = s.line.stopTime
  lineState : t.line.state = s.line.state ∨ (s.line.state = .stopping ∧ t.line.state = .stopped)
  served : t.sorter.lastServed = s.sorter.lastServed
  sorterHeld : t.sorter.held = s.sorter.held
  sorterLost : t.sorter.lost = s.sorter.lost
  busy : ∀ d, s.sorter.delivery = some d → t.sorter.delivery = some d
  sorterIdle : (∀ l, (s.lane l).floor.exit = none) → t.sorter = s.sorter
  positions : ∀ k, (s.pos? k = none → t.pos? k = none) ∧
    ∀ x, s.pos? k = some x → ∃ y, t.pos? k = some y ∧ PositionKept x y
  presses : ∀ p, PressKept (s.press p) (t.press p)
  engines : ∀ e, EngineKept (s.engine e) (t.engine e)
  lanes : ∀ l, LaneKept (s.lane l) (t.lane l)
  running : s.line.state ≠ .stopping →
    t.line = s.line ∧ ∀ l, (t.lane l).gates.stopped = (s.lane l).gates.stopped
  pages : PagesKept s t
  slots : SlotsKept s t
  sent : ∃ l, t.lineSent = s.lineSent ++ l

/-- What the reactions leave alone: all that, and no job becomes UNCERTAIN. -/
structure KeptByReacting (s t : State) : Prop extends KeptAside s t where
  uncertain : ∀ n j, t.job? n = some j → j.state = .uncertain →
    ∃ j', s.job? n = some j' ∧ j'.state = .uncertain

/-! ### What becomes of a job -/

/-- The number after a job number: 1 after 65535 (R48). -/
def following (n : Nat) : Nat := if n < 65535 then n + 1 else 1

/-- The numbers after a job number, in order: the first of them at 0. -/
def followingBy (n : Nat) : Nat → Nat
  | 0 => following n
  | i + 1 => following (followingBy n i)

/-- The next number for a job (R48): the first after the last assigned one that no live job holds. -/
def NextFree (s : State) (n : Nat) : Prop :=
  ∃ i, n = followingBy s.lastJob i ∧ s.job? n = none ∧ ∀ m < i, s.job? (followingBy s.lastJob m) ≠ none

/-- A job has been created since a state, and is in its first attempt (R51, R56): its place in the entry order is
later than every place given by then. -/
structure CreatedSince (s : State) (j : Job) : Prop where
  order : s.entryCount < j.entryOrder
  superseded : j.superseded = false
  attempt : j.attempt = 1
  state : j.state = .queued ∨ j.state = .assigned
  fault : j.lastFault = none

/-- A job of the state before has ended (R50): its number is free, or names a job that has been created since. -/
def Ended (n : Nat) (s t : State) : Prop := ∀ j, t.job? n = some j → CreatedSince s j

/-- A position has no current job but one that has been created since a state (R59). -/
def Renewed (k : PosKey) (s t : State) : Prop :=
  ∀ y n, t.pos? k = some y → y.work.current = some n → ∃ j, t.job? n = some j ∧ j.key = k ∧ CreatedSince s j

/-- A job has been returned to its queue, at an attempt and with a last fault (R56, R65): its lane and applied
correction are cleared, it has a place in the entry order later than every place given in the state before, and the
engines may have been served since, with it among the jobs assigned. -/
def Returned (n attempt : Nat) (fault : Option FaultRecord) (j : Job) (s t : State) : Prop :=
  ∃ j', t.job? n = some j' ∧ (j'.state = .queued ∨ j'.state = .assigned) ∧ s.entryCount < j'.entryOrder ∧
    j' = { j with
      state := j'.state, attempt := attempt, lane := none, applied := j'.applied, engine := j'.engine
      lastFault := fault, entryOrder := j'.entryOrder }

/-- A job that an event does not take is served at most: its state goes from QUEUED to ASSIGNED, or stays. -/
def JobStays (j j' : Job) : Prop :=
  (j'.state = j.state ∨ (j.state = .queued ∧ j'.state = .assigned)) ∧
    j' = { j with state := j'.state, engine := j'.engine, applied := j'.applied }

/-- A job that an event other than its own fault takes from its place: it returns to its queue, or ends if it is
superseded (R63, R65). -/
def TakenOff (n : Nat) (s t : State) : Prop :=
  ∀ j, s.job? n = some j →
    (j.superseded = false → Returned n j.attempt j.lastFault j s t) ∧ (j.superseded = true → Ended n s t)

/-- A job that a fault of its own takes from its place at no cost of an attempt: the fault is recorded, and it
returns to its queue, or ends if it is superseded (R47, R63, R65). -/
def TakenBy (n : Nat) (f : FaultRecord) (s t : State) : Prop :=
  ∀ j, s.job? n = some j →
    (j.superseded = false → Returned n j.attempt (some f) j s t) ∧ (j.superseded = true → Ended n s t)

/-- A job whose plate is spoiled: the fault is recorded, and it returns to its queue at the next attempt, or is
FAILED after the third, or ends if it is superseded (R47, R63, R66, R67). -/
def Spoiled (n : Nat) (f : FaultRecord) (s t : State) : Prop :=
  ∀ j, s.job? n = some j →
    (j.superseded = false → j.attempt < 3 → Returned n (j.attempt + 1) (some f) j s t) ∧
    (j.superseded = false → 3 ≤ j.attempt →
      ∃ j', t.job? n = some j' ∧ JobStays { j with state := .failed, lastFault := some f } j') ∧
    (j.superseded = true → Ended n s t)

/-- The notices of a spoil of a job that is not superseded (R66, R67). -/
def spoilNotices (n : Nat) (f : FaultRecord) (j : Job) : List Notice :=
  if j.superseded then []
  else if j.attempt < 3 then [.jobSpoiled n (j.attempt + 1) f]
  else [.positionFailed j.key n j.attempt f]

/-- The notice of the judgement of the colour-starved condition (R106) when a job leaves its place with the engines as
they stand in a state: it joins the COLOUR jobs that are QUEUED, or does not. -/
def starvedNotices (s : State) (n : Nat) (joins : Bool) : List Notice :=
  let running := allEngines.filter fun e => (s.engine e).status.mode = .running
  let queued := (s.jobs.filter fun e => e.1 ≠ n && e.2.state = .queued && e.2.colourNeed = .colour).length +
    joins.toNat
  if s.starved = false ∧ running ≠ [] ∧ (∀ e ∈ running, (s.register e).state = .drifted) ∧ 0 < queued then
    [.colourStarved running queued]
  else []

/-- What an event that supersedes a job makes of it (R59 to R62): a QUEUED or FAILED job ends; an ASSIGNED one ends,
or is superseded where EXPOSE has been sent for it; a job in any later state is superseded and stays where it is. -/
def Superseded (n : Nat) (s t : State) : Prop :=
  ∀ j, s.job? n = some j →
    let stays := ∃ j', t.job? n = some j' ∧ JobStays { j with superseded := true } j'
    (j.state = .queued ∨ j.state = .failed → Ended n s t) ∧
    (j.state = .assigned → Ended n s t ∨ stays) ∧
    (j.state = .assigned → (∀ e w, (s.engine e).ctx.next = some w ∨ (s.engine e).ctx.parked = some w → w.job = n →
      w.stage = .loadSent) → Ended n s t) ∧
    (j.state = .assigned → (∃ e, WaitsAt (s.engine e).ctx.next n .exposeSent) → stays) ∧
    (j.state ∈ [.exposing, .developing, .finishing, .racked, .mounted, .uncertain] → stays)

/-- A position that needs a job and has none has its deferred flag set, and the job table is full (R54). -/
def Attended (k : PosKey) (t : State) : Prop :=
  ∀ y, t.pos? k = some y → y.work.current = none → makeable t y.content = true →
    y.work.deferred = true ∧ Config.liveJobs ≤ t.jobs.length

/-- Every job but some stays. -/
def OthersStay (D : Nat → Prop) (s t : State) : Prop :=
  ∀ n j, ¬ D n → s.job? n = some j → ∃ j', t.job? n = some j' ∧ JobStays j j'

/-- The positions that name a page have their current jobs superseded by an event, those for which `needs` holds; what
becomes of them, that these positions name them no longer, and their needs are met (R29, R31, R54, R59). -/
def Signalled (page : Nat) (needs : Position → Prop) (s t : State) : Prop :=
  (∀ k x n, s.pos? k = some x → page ∈ x.content.pages → needs x → x.work.current = some n → Superseded n s t) ∧
  (∀ k x, s.pos? k = some x → page ∈ x.content.pages → needs x → Renewed k s t) ∧
  (∀ k x, s.pos? k = some x → page ∈ x.content.pages → Attended k t) ∧
  OthersStay (fun n => ∃ k x, s.pos? k = some x ∧ page ∈ x.content.pages ∧ needs x ∧ x.work.current = some n) s t

/-! ### What the queries answer (R21, R45, R70, R97, R110, R134, R150, R185, R187) -/

/-- A value of an enumeration: its number from 0 in the order in which the values are listed (R187). -/
def enumOf {α : Type} [DecidableEq α] (values : List α) (x : α) : Field := .enum (values.idxOf x)

/-- An optional field (R187). -/
def optionalOf : Option (List Field) → List Field
  | some l => .present true :: l
  | none => [.present false]

/-- A list (R187). -/
def listOf (l : List (List Field)) : List Field := .listLen l.length :: l.flatten

/-- The separations in order (R187). -/
def separations : List Separation := [.k, .c, .m, .y]

/-- The formats in order (R23). -/
def formats : List PlateFormat := [.oneUp, .twoUp]

/-- The colour classes in order (R1). -/
def colourClasses : List ColourClass := [.mono, .colour]

/-- The classes of a job in order (R46). -/
def jobClasses : List JobClass := [.normal, .urgent]

/-- The states of a job in order (R187). -/
def jobStates : List JobState :=
  [.queued, .assigned, .exposing, .developing, .finishing, .racked, .mounted, .failed, .uncertain, .retired,
    .cancelled, .discarded]

/-- The stop policies in order (R151). -/
def policies : List StopPolicy := [.finish, .cut]

/-- The answer of QUERY_PAGE (R21). That the four separations stand one after another, with no count byte, is the
model's choice (log 44). -/
def pageAnswered (s : State) (n : Nat) (r : PageRec) : List Field :=
  let bad := fun x => r.version.any fun v => (s.slot? ⟨n, v, x⟩).any Slot.bad
  [.pageId n, enumOf [.expected, .partly, .complete, .withdrawn] r.state,
      match r.cls with
      | some c => enumOf colourClasses c
      | none => .enum 255] ++
    optionalOf (r.version.map fun v => [.version v]) ++
    separations.map (fun x => .enum (if r.arrived.has x then if bad x then 2 else 1 else 0)) ++
    [.count r.liveJobs, .count (s.slots.filter fun e => e.1.page = n && !e.2.current).length]

/-- A content (R23, R45). -/
def contentAnswered (c : Content) : List Field :=
  [enumOf formats c.format, .pageId c.pageA] ++ optionalOf (c.pageB.map fun n => [.pageId n]) ++
    [enumOf separations c.sep]

/-- The status of a position, numbered by the table of R27. -/
def statusAnswered (s : State) (x : Position) : Nat :=
  match x.work.current.bind s.job? with
  | some j => if j.state = .racked then 1 else if j.state = .mounted then 2 else if j.state = .failed then 3 else 0
  | none =>
    if x.content.pages.any (needsPage s x.content.sep) = false then 4
    else if makeable s x.content ∧ x.work.deferred then 5 else 6

/-- A job number, with the state of the live job that holds it. -/
def stateAnswered (s : State) (n : Nat) : List Field :=
  .jobNumber n :: (s.job? n).toList.map fun j => enumOf jobStates j.state

/-- The answer of QUERY_POSITION (R45). What it holds of a position that is not live, the layout of its required pages
and the mark of a superseded mounted job are the model's choice (log 29, log 41). -/
def positionAnswered (s : State) (k : PosKey) : List Field :=
  let x := s.pos? k
  let staged := tget (s.stage k.press).entries k.pos
  [.press k.press, .position k.pos] ++ optionalOf (x.map fun x => contentAnswered x.content) ++
    optionalOf (x.map fun x => [.edition x.edition]) ++ optionalOf (x.map fun x => [.enum (statusAnswered s x)]) ++
    listOf (x.toList.map fun x => x.content.pages.map fun n => [Field.flag (needsPage s x.content.sep n)]).flatten ++
    [.flag (x.any fun x => makeable s x.content)] ++
    optionalOf ((x.bind fun x => x.work.current).map (stateAnswered s)) ++
    optionalOf ((x.bind fun x => x.work.mounted).map fun n =>
      stateAnswered s n ++ [.flag ((s.job? n).any Job.superseded)]) ++
    [.flag (x.any Position.held), .flag (x.any fun x => x.work.deferred)] ++ optionalOf (staged.map contentAnswered) ++
    [.flag (decide (staged ≠ none ∧ x.map Position.content = staged))]

/-- The engine and the context that hold a job: current, next, parked (R70). -/
def contextAnswered (s : State) (n : Nat) : Option (List Field) :=
  allEngines.findSome? fun e =>
    let c := (s.engine e).ctx
    if c.current.any fun w => w.job = n then some [.unit (.engine e), .enum 0]
    else if c.next.any fun w => w.job = n then some [.unit (.engine e), .enum 1]
    else if c.parked.any fun w => w.job = n then some [.unit (.engine e), .enum 2] else none

/-- The answer of QUERY_JOB (R70): the record of R46, then the fields of R70. The layout of its pages and its slots is
the model's choice (log 41), and so is the coding of the context (log 29). -/
def jobAnswered (s : State) (n : Nat) (j : Job) : List Field :=
  let x := s.pos? j.key
  let ahead := s.jobs.filter fun e => e.2.state = .queued && e.2.cls = j.cls && aheadOf s e.2 j
  [.jobNumber n, .press j.press, .position j.pos] ++
    listOf (j.pages.map fun p => [.pageId p.1, .version p.2]) ++
    [enumOf separations j.sep, enumOf formats j.format, enumOf colourClasses j.colourNeed] ++
    listOf (j.slots.map fun k => [.slotRef k]) ++
    [enumOf jobClasses j.cls, enumOf [.first, .remake] j.origin, .attempt j.attempt, enumOf jobStates j.state,
      .flag j.superseded] ++
    optionalOf (j.engine.map fun e => [.unit (.engine e)]) ++ optionalOf (j.lane.map fun l => [.unit (.lane l)]) ++
    optionalOf (j.applied.map fun o => [.offset o]) ++ optionalOf (j.lastFault.map fun f => [.fault f]) ++
    [.flag (x.any fun y => decide (y.work.current = some n)), .flag (x.any fun y => decide (y.work.mounted = some n))] ++
    optionalOf (if j.state = .queued then some [.count (ahead.length + 1)] else none) ++
    optionalOf (x.map fun y => [.flag y.held]) ++
    optionalOf (if j.state = .assigned ∨ j.state = .exposing then contextAnswered s n else none) ++
    optionalOf (if j.state = .racked then some [.enum (if (s.shelf j.press).any fun y => y.1 = n then 1 else 0)]
      else none)

/-- The answer of QUERY_ENGINE (R97, R110). That the remaining times stand as three optional fields, and that the
current context has no stage, is the model's choice (log 41, log 29). -/
def engineAnswered (s : State) (e : EngineId) : List Field :=
  let x := s.engine e
  let r := s.register e
  let job := fun n => Field.jobNumber n ::
    ((s.job? n).toList.map fun j => [Field.attempt j.attempt, enumOf jobClasses j.cls]).flatten
  let waiting := fun w : WaitingCtx => job w.job ++ [enumOf [.loadSent, .loaded, .exposeSent] w.stage]
  let remaining := fun t : Option Nat => optionalOf (t.map fun t => [.remaining t])
  [enumOf [.offline, .running, .faulted, .lockedOut] x.status.mode, .flag x.status.greeted, .flag x.status.faultFlag] ++
    optionalOf (x.status.lastFault.map fun f =>
      [enumOf [.loadFault, .loadTimeout, .exposeFault, .exposeInterrupted, .exposeTimeout, .protocol, .cassetteChanged,
        .linkLost, .engineRestarted] f.1, .plantTime f.2]) ++
    [.flag x.gates.held, .flag x.gates.stopped, .flag x.gates.allowance,
      .flag (decide (x.cassette.format = none ∨ x.cassette.count = 0)),
      match x.cassette.format with
      | some f => enumOf formats f
      | none => .enum 255,
      .count x.cassette.count] ++
    optionalOf (x.ctx.current.map fun w => job w.job) ++ optionalOf (x.ctx.next.map waiting) ++
    optionalOf (x.ctx.parked.map waiting) ++ remaining (x.ctx.current.map CurrentCtx.timer) ++
    remaining (x.ctx.next.bind WaitingCtx.timer) ++ remaining (x.ctx.parked.bind WaitingCtx.timer) ++
    [.count x.ctx.cancel.length, .unit (.lane (laneFed e)), .count (loadOf s (laneFed e)),
      enumOf [.tracking, .locked, .drifted] r.state, .offset r.correction, .count r.run] ++
    listOf (r.window.map fun o => [.offset o])

/-- The answer of QUERY_LANE of a lane (R134). That it shows nothing of a tag is the model's choice (log 41). -/
def laneAnswered (s : State) (l : LaneId) : List Field :=
  let x := s.lane l
  listOf (x.floor.order.map fun y =>
      [.jobNumber y.job] ++ ((s.job? y.job).toList.map fun j =>
        [.attempt j.attempt, enumOf jobClasses j.cls, .flag j.superseded]).flatten ++
      [enumOf [.inDeveloper, .punching, .bent, .atExit, .granted] y.stage] ++
      optionalOf (y.timer.map fun t => [.remaining t])) ++
    optionalOf ((x.floor.order.find? fun y => y.stage = .inDeveloper).map fun y => [.jobNumber y.job]) ++
    [.count x.inspections.length] ++ optionalOf (x.floor.exit.map fun n => [.jobNumber n]) ++
    [.flag x.floor.blocked, .count (loadOf s l), .flag x.gates.held, .flag x.gates.stopped, .flag x.gates.allowance,
      .flag (decide x.Opens), .limitValue x.transit, enumOf policies x.policy, .flag x.clearing]

/-- How QUERY_LANE(S) reports a lane's exit (R134): candidate, rack-blocked, absent, or none of these, for which there
is no encoding (log 20). -/
def exitAnswered (s : State) (l : LaneId) : Field :=
  let x := s.lane l
  match x.floor.exit with
  | none => .enum 2
  | some n =>
    if x.Opens ∧ (∃ y ∈ x.floor.order, y.job = n ∧ y.stage = .atExit) ∧
        (s.job? n).any (fun j => (placeFor s j).isSome) = true then .enum 0
    else if x.floor.blocked then .enum 1 else .exitNeither

/-- The answer of QUERY_LANE of the sorter (R134). That the exits of L0 and L1 stand one after the other, with no count
byte, is the model's choice (log 44), and so is the numbering of a destination (log 29). -/
def sorterAnswered (s : State) : List Field :=
  let x := s.sorter
  [.flag (decide (x.delivery ≠ none))] ++
    optionalOf (x.delivery.map fun d =>
      [.unit (.lane d.lane), .jobNumber d.job, .attempt d.attempt] ++
        match d.dest with
        | .rackSlot p q => [.enum 0, .press p, .position q]
        | .shelf p => [.enum 1, .press p]
        | .rejectBin => [.enum 2]) ++
    optionalOf (x.lastServed.map fun l => [.unit (.lane l)]) ++
    [.flag x.held, .flag x.allowance, exitAnswered s 0, exitAnswered s 1]

/-- The answer of QUERY_PRESS (R150). The position number of each live position, the presence byte of the window time
and the coding of the alarms are the model's choice (log 41). -/
def pressAnswered (s : State) (p : PressId) : List Field :=
  let x := s.press p
  let st := s.stage p
  let old := fun n => (s.job? n).any Job.superseded
  let time := fun t : Option Nat => optionalOf (t.map fun t => [.plantTime t])
  [enumOf [.idle, .makeready, .ready, .running] x.state] ++ optionalOf (x.edition.map fun n => [.edition n]) ++
    [.count x.positions, .count x.unsatisfied] ++ time x.start ++ [.leadTime x.lead] ++
    time (x.start.map fun t => t - 60 * x.lead) ++
    [.flag x.window, .flag x.late, .flag x.windowArmed, .flag x.startArmed, .plantTime s.clock,
      .enum (if st.holder = none then 0 else 1)] ++
    optionalOf (st.holder.map fun q => [.port q]) ++
    [.count st.entries.length, .count (allPositions.filter fun q =>
      decide ((s.pos? ⟨p, q⟩).map Position.content ≠ tget st.entries q)).length] ++
    listOf ((s.shelf p).map fun y => [.jobNumber y.1, .position y.2, .flag (old y.1)]) ++
    listOf ((s.positionsOf p).map fun e =>
      [.position e.1.pos, .count (s.rack e.1).length] ++ optionalOf (e.2.work.mounted.map fun n => [.jobNumber n])) ++
    [.count ((((s.racks.filter fun e => e.1.press = p).map Prod.snd).flatten ++ (s.shelf p).map Prod.fst).filter
      old).length]

/-- The answer of QUERY_PART (R185, R110). How the reached marks and the reconcile timer are coded is the model's choice
(log 41), and so is that what it gives for each unit and port stands in their order, with no count byte (log 44). -/
def partAnswered (s : State) : List Field :=
  let queued := fun c => (s.jobs.filter fun e => e.2.state = .queued && e.2.cls = c).length
  let t := s.limits
  [.count (512 - s.pages.length), .count (1024 - s.slots.length), .count (768 - s.jobs.length), .count (queued .urgent),
      .count (queued .normal), .jobNumber s.lastJob, .plantTime s.clock, .limitValue t.lockWindow, .limitValue t.relock,
      .limitValue t.drift, .limitValue t.recover, .limitValue t.load, .limitValue t.expose,
      .limitValue (s.lane 0).transit, .limitValue (s.lane 1).transit, .limitValue t.reconcile, .flag s.starved,
      enumOf [.running, .stopping, .stopped] s.line.state] ++
    allEngines.map (fun e => enumOf policies s.line.policies[e]) ++
    allLanes.map (fun l => enumOf policies (s.lane l).policy) ++
    optionalOf (if s.line.state = .stopping then
        some (allEngines.map (fun e => .flag s.line.reachedEngines[e]) ++
          allLanes.map fun l => .flag s.line.reachedLanes[l])
      else none) ++
    [enumOf [.powerOn, .lineReset, .softReset] s.restart.kind, .enum (if s.restart.reconciling then 1 else 0),
      .count s.restart.counts.uncertain, .count s.restart.counts.reclaimed, .count s.restart.counts.requeued,
      .count s.restart.counts.discarded] ++
    optionalOf (s.restart.timer.map fun t => [.remaining t]) ++ allLanes.map (fun l => .flag (s.lane l).clearing) ++
    (allPorts.map fun q => [Field.rights (s.port q).rights, .classes (s.port q).mask,
      .flag (decide ((s.port q).link.overrun ≠ none)), .count (s.port q).link.queue.length]).flatten

/-! ### The shapes of a command's effect -/

/-- The request is taken, the state becomes `u`, the notices are raised and the request is answered, and nothing
else happens: no other frame joins a list of any port. -/
def Answers (c : Instr) (p : PortId) (tag : Byte) (kind : U16) (a : Answer) (ns : List Notice) (s u : State) :
    Prop := ∃ r : Received, r.tag = tag ∧ r.kind = kind ∧
      exec c s = .next (answerAt p tag kind a (raiseAll ns (inHandAt p r u)))

/-- The request is answered, the state becomes `u` but for what serving the engines does and what the ports hold, and
the notices are raised. -/
def AnswersServing (c : Instr) (p : PortId) (tag : Byte) (kind : U16) (a : Answer) (ns : List Notice)
    (s u : State) : Prop := Goes c s fun t => KeptByServing u t ∧ AnsweredAt p tag kind a u t ∧ Tells ns u t

/-- The state becomes `u` and the notices are raised, and nothing else happens. -/
def Raises (c : Instr) (ns : List Notice) (s u : State) : Prop := exec c s = .next (raiseAll ns u)

/-- The state becomes `u` but for what serving the engines does and what the ports hold, and the notices are
raised. -/
def RaisesServing (c : Instr) (ns : List Notice) (s u : State) : Prop :=
  Goes c s fun t => KeptByServing u t ∧ PortsKept u t ∧ Tells ns u t

/-- The state becomes `u` but for what the reactions do and for what the ports hold, the notices are raised
first, every job but those of `D` stays, and the state after has the property. -/
def RaisesReacting (c : Instr) (ns : List Notice) (s u : State) (D : Nat → Prop) (P : State → Prop) : Prop :=
  Goes c s fun t => KeptByReacting u t ∧ PortsKept u t ∧ Tells ns u t ∧ OthersStay D u t ∧ P t

/-- The same of a request, which is answered. -/
def AnswersReacting (c : Instr) (p : PortId) (tag : Byte) (kind : U16) (a : Answer) (ns : List Notice)
    (s u : State) (D : Nat → Prop) (P : State → Prop) : Prop :=
  Goes c s fun t => KeptByReacting u t ∧ AnsweredAt p tag kind a u t ∧ Tells ns u t ∧ OthersStay D u t ∧ P t

/-- An engine faults (R91): its record is set and its jobs leave, the notices are raised, and the other jobs it
held are taken off. `b` is the state at the fault, `ctx` the contexts without the job that the fault names. -/
def EngineFaults (c : Instr) (e : EngineId) (cause : EngineFaultCause) (named : Option Nat) (ctx : Contexts)
    (gone : List CancelEntry) (ns : List Notice) (s b : State) (P : State → Prop) : Prop :=
  let taken := fun n =>
    WaitsIn ctx n ∨ (b.engine e).status.faultFlag = true ∧ ∃ w, ctx.current = some w ∧ w.job = n
  RaisesReacting c ns s (afterFault e cause ctx gone b) (fun n => named = some n ∨ taken n) fun t =>
    (∀ n, taken n → named ≠ some n → TakenOff n s t) ∧ P t

end Sys2Proof.Machine
end

