-- ==== Sys2Proof/Certificates/Slice0/Obligations.lean ====
section
/-! DEFINITION. Certificates/Slice0/Obligations.lean: the statements for the provers. Each holds of the model in
every state that meets its premises. `Tables s` says that the tables are in order: every state the part can reach
is so (`Obligations.ResetState`, `Obligations.TablesKept`). -/

open Sys2Proof Sys2Proof.Machine Sys2Proof.Machine.State

/-! ### The queue of commands -/

/-- A step takes the command at the front of the queue; on an empty queue the part idles (the model's choice,
assumption 1). -/
def Obligations.StepRunsFront : Prop :=
  ∀ (s : State) (c : Instr) (rest : List Instr),
    (s.pending = c :: rest → step s = exec c { s with pending := rest }) ∧ (s.pending = [] → step s = .next s)

/-! ### The desk link (chapter 10) -/

/-- A bad frame is answered BAD_FRAME through the refusal list, from which a free transmitter then sends (R179), or
dropped when the list is full (R176, R177); and the receiver's other bytes and the gap: a byte other than 0xD7 is
dropped in HUNTING, 0xD7 starts a frame, a length above 1024 ends the frame as a bad one, and a gap abandons a partial
frame (R176). -/
def Obligations.BadFrames : Prop :=
  (∀ (p : PortId) (f : Frame) (s : State),
     1024 < f.length.toNat ∨ f.typ ≠ 1 ∨
       f.check ≠ crc (bytes16 f.length ++ [f.typ, f.tag] ++ bytes16 f.kind ++ f.body) →
     exec (.frameReceived p f) s = .next (s.modLink p fun l =>
       if l.refusals.length < 8 then
         started { l with rx := .hunting, refusals := l.refusals ++ [.answer 0 0 ⟨.badFrame, []⟩] }
       else { l with rx := .hunting })) ∧
  (∀ (p : PortId) (b : Byte) (s : State),
     ((s.port p).link.rx = .hunting → b ≠ 0xD7 → exec (.deskLinkByte p b) s = .next s) ∧
     ((s.port p).link.rx = .hunting → b = 0xD7 →
       exec (.deskLinkByte p b) s = .next (s.modLink p fun l => { l with rx := .inFrame [] })) ∧
     (∀ l0, (s.port p).link.rx = .inFrame [l0] → 1024 < l0.toNat + 256 * b.toNat →
       exec (.deskLinkByte p b) s = .next (s.modLink p fun l =>
         if l.refusals.length < 8 then
           started { l with rx := .hunting, refusals := l.refusals ++ [.answer 0 0 ⟨.badFrame, []⟩] }
         else { l with rx := .hunting })) ∧
     exec (.interByteGapExpiry p) s = .next (s.modLink p fun l => { l with rx := .hunting }))

/-- A frame that is not bad and whose body spells a request of its kind is that request (R176, R185, R187); and every
request, written out in bytes by the encodings of R187 and sent over the link, has the effect of its command: no field
of a request is lost or misread. By the model's choice a request row stands for the reception of its sound request
(assumption 2), and FRAME_RECEIVED carries a whole frame, which replaces a partial one and is judged at its last byte
(assumption 3). -/
def Obligations.RequestByBytes : Prop :=
  ∀ (p : PortId) (tag : Byte) (r : Request) (s : State),
    exec (.frameReceived p (r.frame tag)) s = exec (r.command p tag) (s.modLink p fun l => { l with rx := .hunting }) ∧
    ((s.port p).link.rx = .hunting →
      execAll ((frameBytes (r.frame tag)).map (Instr.deskLinkByte p)) s = exec (r.command p tag) s)

/-- A request that comes while another is in hand joins the queue when it holds fewer than 8; when it holds 8, it is
answered REFUSED_BUSY through the refusal list, from which a free transmitter then sends (R177, R179). The same while a
soft reset is due: that the part notes one from the answer to SOFT_RESET until the reset, and that no port takes a
request then, is the model's reading (assumption 7). -/
def Obligations.RequestQueued : Prop :=
  ∀ (p : PortId) (tag : Byte) (s : State),
    (∀ r : Request, (s.port p).link.inHand ≠ none ∨ s.softResetDue = true → (s.port p).link.queue.length < 8 →
      exec (r.command p tag) s =
        .next (s.modLink p fun l => { l with queue := l.queue ++ [⟨tag, r.kind, .sound r⟩] })) ∧
    (∀ r : Request, 8 ≤ (s.port p).link.queue.length →
      exec (r.command p tag) s = .next (s.modLink p fun l =>
        if l.refusals.length < 8 then
          started { l with refusals := l.refusals ++ [.answer tag r.kind ⟨.refusedBusy, []⟩] }
        else l)) ∧
    (∀ kind : U16, 8 ≤ (s.port p).link.queue.length →
      exec (.requestKindUnknown p tag kind) s = .next (s.modLink p fun l =>
        if l.refusals.length < 8 then
          started { l with refusals := l.refusals ++ [.answer tag kind ⟨.refusedBusy, []⟩] }
        else l)) ∧
    (∀ kind : U16, (s.port p).link.inHand ≠ none ∨ s.softResetDue = true → (s.port p).link.queue.length < 8 →
      exec (.requestKindUnknown p tag kind) s =
        .next (s.modLink p fun l => { l with queue := l.queue ++ [⟨tag, kind, .unknownKind⟩] }))

/-- A request whose kind names none is answered BAD_VALUE, one whose right the port lacks REFUSED_RIGHTS, and then one
whose body has not the shape of its kind BAD_VALUE; none changes anything else (R178 steps 1 to 3, with the rights of
the request summary, R185, and the encodings of R187). -/
def Obligations.RequestRefused : Prop :=
  (∀ (p : PortId) (tag : Byte) (kind : U16) (s : State), Free p s →
     Answers (.requestKindUnknown p tag kind) p tag kind ⟨.badValue, []⟩ [] s s) ∧
  (∀ (p : PortId) (tag : Byte) (r : Request) (s : State), Free p s →
     r.allowed (s.port p).rights = false →
     Answers (r.command p tag) p tag r.kind ⟨.refusedRights, []⟩ [] s s) ∧
  (∀ (p : PortId) (f : Frame) (s : State), Free p s → f.length.toNat ≤ 1024 → f.typ = 1 →
     f.check = crc (bytes16 f.length ++ [f.typ, f.tag] ++ bytes16 f.kind ++ f.body) →
     let refused := fun c => Answers (.frameReceived p f) p f.tag f.kind ⟨c, []⟩ [] s
       (s.modLink p fun l => { l with rx := .hunting })
     let known := 1 ≤ f.kind.toNat ∧ f.kind.toNat ≤ 37
     (¬ known → refused .badValue) ∧
     (known → (∀ r : Request, r.kind = f.kind → r.bytes ≠ f.body) →
       ((∀ r : Request, r.kind = f.kind → r.allowed (s.port p).rights = true) → refused .badValue) ∧
       ((∀ r : Request, r.kind = f.kind → r.allowed (s.port p).rights = false) → refused .refusedRights)))

/-- Every request that a free port receives is taken and answered: it is in hand, and its answer stands last in
the output list with the request's tag and kind (R178). -/
def Obligations.EveryRequestAnswered : Prop :=
  ∀ (p : PortId) (tag : Byte) (r : Request) (s : State), Free p s → Tables s →
    Goes (r.command p tag) s fun t => (t.port p).link.inHand = some ⟨tag, r.kind, .sound r⟩ ∧
      (t.port p).link.queue = [] ∧ ∃ a, (t.port p).link.output.getLast? = some (.answer tag r.kind a)

/-- A frame that has been sent leaves its list, and the transmitter goes on to the next: to RESTARTED while it is
unsent, then to the refusal list, then to the output list (R179). After a notice an OVERRUN frame takes its place when
the overrun flag is set, which clears it (R180), and so after an OVERRUN frame (assumption 16); with nothing being
sent nothing happens (assumption 30). After the answer to the request in hand, the port takes the first request of its
queue (R178), unless a soft reset is due; the OK answer to a SOFT_RESET makes one due (R163; that the part notes it is
the model's reading, assumption 7). The request that is taken has the effect that its command has at the port with the
answer gone and nothing queued, with the rest of the queue put back after; QUERY_PART alone reads the length of that
rest and is answered with it. A request that came with a body its kind does not have is then refused (R178). -/
def Obligations.FramesLeave : Prop :=
  (∀ (p : PortId) (f : OutFrame) (rest : List OutFrame) (s : State),
     ((s.port p).link.sending = none → exec (.frameSent p) s = .next s) ∧
     ((s.port p).link.sending = some .refusals → (s.port p).link.refusals = f :: rest →
       exec (.frameSent p) s =
         .next ((s.modLink p fun l => started { l with refusals := rest, sending := none }).logDesk p f)) ∧
     ((s.port p).link.sending = some .output → (s.port p).link.output = f :: rest → f.isNotice = true →
       exec (.frameSent p) s = .next ((s.modLink p fun l =>
         started { l with
           output := rest ++ (l.overrun.map OutFrame.overrun).toList
           overrun := none
           sending := none }).logDesk p f))) ∧
  (∀ (p : PortId) (tag : Byte) (kind : U16) (a : Answer) (rest : List OutFrame) (s : State),
     (s.port p).link.sending = some .output → (s.port p).link.output = .answer tag kind a :: rest →
     let due := s.softResetDue || (decide (kind = 27) && decide (a.code = .ok))
     ((s.port p).link.queue = [] ∨ due = true →
       exec (.frameSent p) s =
         .next (((s.modLink p fun l => started { l with output := rest, inHand := none, sending := none }).logDesk p
           (.answer tag kind a)).setSoftDue due)) ∧
     (∀ r more, (s.port p).link.queue = r :: more → due = false →
       (Tables s → Goes (.frameSent p) s fun t =>
         (t.port p).link.inHand = some r ∧ (t.port p).link.queue = more ∧
         (t.port p).link.sending = (nextList { (s.port p).link with output := rest }).or (some .output) ∧
         t.deskSent = s.deskSent ++ [(p, .answer tag kind a)] ∧
         ∃ a', (t.port p).link.output.getLast? = some (.answer r.tag r.kind a')) ∧
       let gone := (s.modLink p fun l => started { l with
         output := rest, inHand := none, sending := none, queue := [] }).logDesk p (.answer tag kind a)
       let putBack := fun u : State => u.modLink p fun l => { l with queue := more }
       let takenAs := fun c => ∃ u, exec c gone = .next u ∧ exec (.frameSent p) s = .next (putBack u)
       let answered := fun a => exec (.frameSent p) s =
         .next (answerAt p r.tag r.kind a (inHandAt p r (putBack gone)))
       (∀ q : Request, r = ⟨r.tag, q.kind, .sound q⟩ → q ≠ .queryPart → takenAs (q.command p r.tag)) ∧
       (r = ⟨r.tag, 37, .sound .queryPart⟩ → answered ⟨.ok, partAnswered (putBack gone)⟩) ∧
       (r = ⟨r.tag, r.kind, .unknownKind⟩ → takenAs (.requestKindUnknown p r.tag r.kind)) ∧
       (∀ q : Request, r = ⟨r.tag, q.kind, .malformed⟩ →
         (q.allowed (s.port p).rights = true → answered ⟨.badValue, []⟩) ∧
         (q.allowed (s.port p).rights = false → answered ⟨.refusedRights, []⟩))))

/-- The check over the nine bytes 0x31 to 0x39 is 0x29B1 (R176). A frame that is sent is laid out as R187 says:
sync, length, type, tag, kind, body, and the check over all between sync and itself. An answer's body begins with the
answer code and a notice's with the plant time (R187); an OVERRUN's is the plant time at which the flag was set
(R180). -/
def Obligations.FrameLayout : Prop :=
  crc [0x31, 0x32, 0x33, 0x34, 0x35, 0x36, 0x37, 0x38, 0x39] = 0x29B1 ∧
  ∀ f : OutFrame, ∃ typ tag kind,
    f.bytes = [0xD7] ++ bytes16 (BitVec.ofNat 16 f.body.length) ++ [typ, tag] ++ bytes16 kind ++ f.body ++
      bytes16 (crc (bytes16 (BitVec.ofNat 16 f.body.length) ++ [typ, tag] ++ bytes16 kind ++ f.body)) ∧
    match f with
    | .answer g k a => typ = 2 ∧ tag = g ∧ kind = k ∧ f.body.head? = some (BitVec.ofNat 8 (answerCode a.code))
    | .notice time n => typ = 3 ∧ tag = 0 ∧ kind = n.kind ∧ f.body.take 4 = bytes32 (BitVec.ofNat 32 time)
    | .overrun time => typ = 4 ∧ tag = 0 ∧ kind = 0 ∧ f.body = bytes32 (BitVec.ofNat 32 time)

/-! ### Resets, and what every step keeps -/

/-- The state after POWER_ON: every table empty, the clock at 0, every limit at its default, each record in the starting
state of its chapter, and no command waiting; and the invariants below hold in it. That the notes of a lost lane or
sorter channel are clear (assumption 17), the time of the last line stop is 0 (assumption 38), the entry-order count is
0 (assumption 45) and both strap pairs are open (assumption 8) is the model's choice. -/
def Obligations.ResetState : Prop :=
  (let s := State.reset
   (s.clock = 0 ∧ s.pages = [] ∧ s.slots = [] ∧ s.plan = [] ∧ s.jobs = [] ∧ s.lastJob = 0 ∧
     s.entryCount = 0 ∧ s.racks = [] ∧ s.starved = false ∧ s.softResetDue = false) ∧
   (∀ p, s.stage p = ⟨none, []⟩ ∧ s.shelf p = [] ∧
     s.press p = ⟨.idle, none, 0, 0, none, 30, false, false, false, false⟩) ∧
   (∀ e, (s.engine e).status = ⟨.offline, false, false, none⟩ ∧ (s.engine e).gates = ⟨false, false, false⟩ ∧
     (s.engine e).cassette = ⟨none, 0⟩ ∧ (s.engine e).ctx = ⟨none, none, none, []⟩ ∧
     s.register e = ⟨.tracking, [], ⟨0, 0⟩, 0⟩ ∧ s.line.policies[e] = .finish ∧ s.line.reachedEngines[e] = false) ∧
   (∀ l : LaneId, s.lane l = ⟨⟨[], none, false⟩, ⟨false, false, false⟩, [], 300, .finish, false, false⟩ ∧
     s.line.reachedLanes[l] = false) ∧
   s.sorter = ⟨none, none, false, false, false⟩ ∧ s.line.state = .running ∧ s.line.stopTime = 0 ∧
   s.limits = ⟨25, 60, 400, 4, 120, 600, 900⟩ ∧ s.restart = ⟨.powerOn, false, none, ⟨0, 0, 0, 0⟩⟩ ∧
   (∀ q, (s.port q).rights = strapRightsOf .bothOpen .bothOpen q ∧
     (s.port q).mask = defaultClasses (s.port q).rights ∧
     (s.port q).link = ⟨.hunting, [], none, [], [.notice 0 (.restarted .powerOn 0 false)], none, some .output⟩) ∧
   s.lineSent = [] ∧ s.deskSent = [] ∧ s.pending = []) ∧
  (Tables State.reset ∧ MaintHeld State.reset ∧ Ranges State.reset ∧ Capacities State.reset ∧
     ModesAgree State.reset ∧ RackRoom State.reset ∧ Placed State.reset ∧ Housed State.reset ∧ Filed State.reset ∧
     Counted State.reset ∧ Current State.reset ∧ EntryOrders State.reset ∧ PressesTell State.reset ∧
     Served State.reset ∧ RestMarked State.reset)

/-- Every step keeps every table in order: at most one page record for each page id, one slot for each page id,
version and separation, one position record, one staged entry and one rack slot for each position, one job for
each number (R1, R6, R23, R32, R46, R135). With that it keeps the entry orders apart, so that the two keys order each
ready queue completely (R56). If some desk port holds MAINT, then some port holds it after every step (R183); and every
step keeps the settable values, the lead times and the clock in their ranges (R145, R184). -/
def Obligations.TablesAndSettingsKept : Prop :=
  (∀ s t : State, Tables s → step s = .next t → Tables t) ∧
  (∀ s t : State, Tables s → EntryOrders s → step s = .next t → EntryOrders t) ∧
  (∀ s t : State, MaintHeld s → step s = .next t → MaintHeld t) ∧
  ∀ s t : State, Ranges s → step s = .next t → Ranges t

/-- Every step leaves the engines served: no engine with an empty next context is eligible for a job that is offered
(R81), and no next job that could be sent EXPOSE waits where its lane has room (R85, R86). And every step leaves the
reached marks evaluated: while the line is STOPPING, a lane with no load has its stopped gate set (R159), every engine
and lane that has reached rest has its mark, and something is still to come to rest; in any other line state no mark is
kept (R151, R160). The premises are invariants of the statements here. -/
def Obligations.EnginesKeptServed : Prop :=
  ∀ s t : State, Tables s → ModesAgree s → Placed s → Housed s → Filed s → Counted s → Current s → step s = .next t →
    (Served s → Served t) ∧ (RestMarked s → RestMarked t)

/-- No step overfills a table, a list or a count: page records, raster slots, live jobs, attempts, cassettes, register
windows, pending inspections, and the request queue, refusal list and notice queue of each port (R1, R6, R46, R66,
R75, R98, R116, R177, R180); the load of a lane (R86, R112); and the rack slots and shelves, with room kept for the
plate that is being delivered (R126, R135). -/
def Obligations.CapacitiesKept : Prop :=
  (∀ s t : State, Tables s → Ranges s → Placed s → Housed s → Capacities s → step s = .next t → Capacities t) ∧
  (∀ s t : State, Tables s → RackRoom s → step s = .next t → RackRoom t)

/-- Every step keeps the contexts of each engine in agreement with its mode (R73). After every step no job stands in two
places, and what stands in a place is in the state of that place (R49, R77, R112, R125, R135, R138); and every job in a
state that has a place stands in one. The premises of statements below that a job stands in no second place hold in
every such state. -/
def Obligations.PlatesInPlace : Prop :=
  (∀ s t : State, ModesAgree s → step s = .next t → ModesAgree t) ∧
  (∀ s t : State, Tables s → Placed s → step s = .next t → Placed t) ∧
  (∀ s t : State, Tables s → Placed s → Housed s → step s = .next t → Housed t)

/-- Every step keeps the counts in agreement with the job table: the live-job count of each page record is the number
of live jobs that name the page, and the reference count of each raster slot is the number of references that live
jobs hold on it (R3, R8, R58). With them it keeps the page register and the raster table in agreement (R1, R2, R6,
R9), and each job that is not superseded the current job of its position (R24, R29, R31, R39, R59), no superseded job
being QUEUED or FAILED (R60, R63). And it keeps every press told of its positions: the position count is the number of
its live positions, the unsatisfied count the number of them that are not satisfied, and a press that is not RUNNING
stands in the state that its counts give (R27, R140, R141); the standing that each position was last told with is the
model's own note (assumption 10). -/
def Obligations.CountsKept : Prop :=
  ∀ s t : State, Tables s → Placed s → Housed s → Filed s → Counted s → Current s → step s = .next t →
    Filed t ∧ Counted t ∧ Current t ∧ (PressesTell s → PressesTell t)

/-- POWER_ON: every block in its starting state; each port with the rights that its straps give, the default classes
of those rights, and RESTARTED alone to send (R163, R164, R165, R182). By the model's choice the queue of commands and
the record of what has left the part stay (assumption 32), the notes of a lost lane or sorter channel are clear
(assumption 17), the time of the last line stop is 0 (assumption 38), and the entry-order count starts again at 0
(R56; assumption 45). -/
def Obligations.PowerOnResult : Prop :=
  ∀ (p1 p2 : StrapPair) (s : State),
    Goes (.powerOn p1 p2) s fun t =>
      t = { State.reset with
        ports := t.ports, lineSent := s.lineSent, deskSent := s.deskSent, pending := s.pending } ∧
      ∀ q, (t.port q).rights = strapRightsOf p1 p2 q ∧ (t.port q).mask = defaultClasses (t.port q).rights ∧
        (t.port q).link =
          ⟨.hunting, [], none, [], [.notice 0 (.restarted .powerOn 0 false)], none, some .output⟩

/-- LINE_RESET and SOFT_RESET: what each block makes of its record (R95, R111, R125, R164, R165, R167, R168, R182),
and the retained store. Where no superseded job ends at the reset, the live plan with each position's current job,
deferred flag and remake mark (R23, R52), the presses, the page register and the last assigned number (R48) stay, and
the entry count rises by one for each ASSIGNED job that returns to its queue (R56). Where one does, its departure lets
deferred positions be served (R55), which is all that then changes in what a position holds of its jobs. A port's
overrun flag is cleared, and can be set only by the notices of the reset itself (R165, R180). That RESTARTED counts
the jobs that this reset makes UNCERTAIN is the model's reading (assumption 23). By the model's choice the note of a
lost channel stays (assumption 17), and so does the time of the last line stop, which LINE_STOPPED carries (assumption
39). -/
def Obligations.ResetLeaves : Prop :=
  ∀ (c : Instr) (kind : ResetKind) (s : State), Tables s →
    ((∃ p1 p2, c = .lineReset p1 p2) ∧ kind = .lineReset) ∨ (c = .softResetTaken ∧ kind = .softReset) →
    Goes c s fun t =>
      (∀ e, t.engine e =
        ⟨⟨if (s.engine e).status.mode = .lockedOut then .lockedOut else .offline, false,
            (s.engine e).status.faultFlag, (s.engine e).status.lastFault⟩,
          ⟨false, false, false⟩, ⟨none, 0⟩, ⟨none, none, none, []⟩⟩) ∧
      (∀ l, t.lane l =
        ⟨⟨[], none, false⟩, ⟨false, false, false⟩, [], (s.lane l).transit, (s.lane l).policy, true,
          (s.lane l).lost⟩) ∧
      t.sorter = ⟨none, none, false, false, s.sorter.lost⟩ ∧
      t.line = ⟨.running, s.line.policies, Vector.replicate 6 false, Vector.replicate 2 false, s.line.stopTime⟩ ∧
      (t.clock = s.clock ∧ t.stages = s.stages ∧ t.racks = s.racks ∧ t.shelves = s.shelves ∧
        t.registers = s.registers ∧ t.limits = s.limits ∧ t.softResetDue = false ∧ t.starved = false) ∧
      ((∀ n j, s.job? n = some j → j.superseded = true → j.state ∉ [.assigned, .developing, .finishing]) →
        t.plan = s.plan ∧ t.presses = s.presses ∧ t.pages = s.pages ∧ t.lastJob = s.lastJob ∧
        t.entryCount = s.entryCount + (s.jobs.filter fun e => e.2.state = .assigned).length) ∧
      (s.entryCount ≤ t.entryCount ∧
        (t.lastJob = s.lastJob ∨ ∃ j, t.job? t.lastJob = some j ∧ CreatedSince s j)) ∧
      (∀ k x y, s.pos? k = some x → t.pos? k = some y →
        (∀ n j, x.work.current = some n → s.job? n = some j → j.superseded = false) →
        let stays := y.work = { x.work with deferred := y.work.deferred, satisfied := y.work.satisfied }
        (x.work.deferred = false → stays ∧ y.work.deferred = false) ∧
        (x.work.deferred = true → stays ∨
          ∃ n j, y.work.current = some n ∧ t.job? n = some j ∧ j.key = k ∧ CreatedSince s j)) ∧
      (∀ p, PressKept (s.press p) (t.press p)) ∧ PagesKept s t ∧ SlotsKept s t ∧
      (∀ k, (s.pos? k = none → t.pos? k = none) ∧
        ∀ x, s.pos? k = some x → ∃ y, t.pos? k = some y ∧ PositionKept x y) ∧
      (∀ q, ∃ l, (t.port q).link.output =
          .notice s.clock (.restarted kind (s.jobs.filter fun e => e.2.state = .exposing ||
            (e.2.state = .developing || e.2.state = .finishing) && !e.2.superseded).length
              t.restart.reconciling) :: l ∧
        ((t.port q).link.overrun = none ∨ 64 ≤ (t.port q).link.noticeCount) ∧
        (t.port q).link.sending = some .output ∧ (t.port q).link.rx = .hunting ∧ (t.port q).link.queue = [] ∧
        (t.port q).link.inHand = none ∧
        (t.port q).link.refusals = []) ∧
      ∀ q, (∀ p1 p2, c = .lineReset p1 p2 → (t.port q).rights = strapRightsOf p1 p2 q ∧
          (t.port q).mask = defaultClasses (t.port q).rights) ∧
        (c = .softResetTaken → (t.port q).rights = (s.port q).rights ∧ (t.port q).mask = (s.port q).mask)

/-- LINE_RESET and SOFT_RESET take each live job by its state (R166), and restart control sets its record from
the UNCERTAIN jobs (R167). Where no superseded job ends, the DEVELOPING and FINISHING jobs take their raster references
again (R58) and no other count of a slot changes; where one does, the counts stand with the job table as
`Obligations.CountsKept` says. -/
def Obligations.ResetTakesJobs : Prop :=
  ∀ (c : Instr) (kind : ResetKind) (s : State), Tables s →
    ((∃ p1 p2, c = .lineReset p1 p2) ∧ kind = .lineReset) ∨ (c = .softResetTaken ∧ kind = .softReset) →
    Goes c s fun t =>
      (∀ n j, s.job? n = some j →
        (j.state ∈ [.queued, .racked, .mounted, .failed, .uncertain] → t.job? n = some j) ∧
        (j.state = .assigned → j.superseded = false → ∀ e, j.engine = some e →
          Returned n j.attempt (some ⟨.contextLost, .engine e, s.clock⟩) j s t) ∧
        (j.state = .exposing → ∀ e, j.engine = some e →
          t.job? n = some { j with state := .uncertain, lane := some (laneFed e) }) ∧
        (j.state ∈ [.developing, .finishing] → j.superseded = false →
          t.job? n = some { j with state := .uncertain }) ∧
        (j.state ∈ [.assigned, .developing, .finishing] → j.superseded = true → Ended n s t)) ∧
      ((∀ n j, s.job? n = some j → j.superseded = true → j.state ∉ [.assigned, .developing, .finishing]) →
        ∀ k, t.slot? k = (s.slot? k).map fun o => { o with
          count := o.count + (s.jobs.map fun e =>
            if e.2.state ∈ [JobState.developing, .finishing] then e.2.slots.count k else 0).sum }) ∧
      let waiting := (t.jobs.filter fun e => e.2.state = .uncertain).length
      t.restart = if waiting = 0 then ⟨kind, false, none, ⟨0, 0, 0, 0⟩⟩
        else ⟨kind, true, some s.limits.reconcile, ⟨waiting, 0, 0, 0⟩⟩

/-! ### Pages and rasters (chapter 1) -/

/-- An arrival with outcome ADDED: the record takes the separation, its slot is created with no reference, the
page enters COMPLETE when its class is whole, and every live position that names the page has a job if it can be
made and there is room for one (R2, R4, R7, R13, R14, R18, R28). -/
def Obligations.SeparationAdded : Prop :=
  ∀ (p : PortId) (tag : Byte) (page : U16) (version cls sep : Byte) (ref : U64) (s : State) (c : ColourClass)
    (x : Separation) (a : SepSet) (live : Nat),
    Free p s → Tables s → (s.port p).rights.pages = true → page ≠ 0 → version ≠ 0 →
    classOf cls = some c → sepOf sep = some x → (c = .mono → x = .k) →
    ArrivalFinds s page.toNat version.toNat c x a live → s.slots.length < 1024 →
    AnswersReacting (.separationArrived p tag page version cls sep ref) p tag 1
      ⟨.ok, [.enum 0, .enum (if stateFor c (a.add x) = .complete then 2 else 1), .version version.toNat,
        .sepSet (a.add x)]⟩
      (completes page.toNat version.toNat c (a.add x)) s
      ((s.putPage page.toNat ⟨some c, some version.toNat, a.add x, stateFor c (a.add x), live⟩).putSlot
        ⟨page.toNat, version.toNat, x⟩ ⟨ref, 0, true, false⟩)
      (fun _ => False)
      fun t => ∀ k y, t.pos? k = some y → page.toNat ∈ y.content.pages → Attended k t

/-- An arrival for a BAD slot replaces its raster: the reference changes, the flag clears, and the jobs that failed
on an unreadable raster and name no other BAD slot return to QUEUED (R15, R18). -/
def Obligations.SeparationReplaced : Prop :=
  ∀ (p : PortId) (tag : Byte) (page : U16) (version cls sep : Byte) (ref : U64) (s : State) (c : ColourClass)
    (x : Separation) (r : PageRec) (o : Slot),
    Free p s → Tables s → (s.port p).rights.pages = true → page ≠ 0 → version ≠ 0 →
    classOf cls = some c → sepOf sep = some x → (c = .mono → x = .k) →
    s.page? page.toNat = some r → (r.state = .partly ∨ r.state = .complete) → r.version = some version.toNat →
    r.cls = some c → r.arrived.has x = true →
    let k : SlotKey := ⟨page.toNat, version.toNat, x⟩
    s.slot? k = some o → o.bad = true →
    let u := s.modSlot k fun y => { y with ref := ref, bad := false }
    let freed := fun n => ∃ j f, s.job? n = some j ∧ j.state = .failed ∧ j.lastFault = some f ∧
      f.cause = .rasterUnreadable ∧ k ∈ j.slots ∧ ∀ k' ∈ j.slots, ∀ y, u.slot? k' = some y → y.bad = false
    AnswersReacting (.separationArrived p tag page version cls sep ref) p tag 1
      ⟨.ok, [.enum 2, .enum (if r.state = .complete then 2 else 1), .version version.toNat, .sepSet r.arrived]⟩
      [.rasterReplaced k] s u freed
      fun t => ∀ n j, s.job? n = some j → freed n → Returned n j.attempt j.lastFault j s t

/-- A revision: the record takes the new version and class with the one separation, the old current slots are no
longer current, and those that no reference holds are freed; PAGE_REVISED is raised; the current job of every position
that names the page is superseded, and each such position has a job if it can be made and there is room for one (R9,
R17, R18, R29). The slots of other pages, current or held, stay but for their counts, or are freed (R8, R20). That
every slot left without its current flag is held by a job is `Obligations.CountsKept`. -/
def Obligations.SeparationRevised : Prop :=
  ∀ (p : PortId) (tag : Byte) (page : U16) (version cls sep : Byte) (ref : U64) (s : State) (c : ColourClass)
    (x : Separation) (r : PageRec) (old : Nat),
    Free p s → Tables s → Placed s → (s.port p).rights.pages = true → page ≠ 0 →
    classOf cls = some c → sepOf sep = some x → (c = .mono → x = .k) →
    s.page? page.toNat = some r → r.state ≠ .expected → r.version = some old → old < version.toNat →
    (s.slots.length < 1024 ∨
      ∃ k o, s.slot? k = some o ∧ k.page = page.toNat ∧ o.current = true ∧ o.count = 0) →
    let a := (⟨false, false, false, false⟩ : SepSet).add x
    let new : PageRec := ⟨some c, some version.toNat, a, stateFor c a, r.liveJobs⟩
    Goes (.separationArrived p tag page version cls sep ref) s fun t =>
      KeptAside { s with pages := t.pages, slots := t.slots } t ∧
      AnsweredAt p tag 1
        ⟨.ok, [.enum 1, .enum (if stateFor c a = .complete then 2 else 1), .version version.toNat, .sepSet a]⟩ s t ∧
      Tells (.pageRevised page.toNat old version.toNat c :: completes page.toNat version.toNat c a) s t ∧
      PagesKept (s.putPage page.toNat new) t ∧
      (∃ m, t.slot? ⟨page.toNat, version.toNat, x⟩ = some ⟨ref, m, true, false⟩) ∧
      (∀ k o, t.slot? k = some o → k.page = page.toNat → k ≠ ⟨page.toNat, version.toNat, x⟩ →
        o.current = false ∧ ∃ o', s.slot? k = some o' ∧ o.ref = o'.ref ∧ o.bad = o'.bad) ∧
      (∀ k o, s.slot? k = some o → k.page = page.toNat → k ≠ ⟨page.toNat, version.toNat, x⟩ → o.current = true →
        o.count = 0 → t.slot? k = none) ∧
      Signalled page.toNat (fun _ => True) s t ∧ ∀ k, k.page ≠ page.toNat → SlotKept s t k

/-- The refusals of a SEPARATION_ARRIVED, in the order of their tests; each changes nothing (R11, R12, R15, R16,
R4, R13, R14, R17). -/
def Obligations.SeparationRefused : Prop :=
  ∀ (p : PortId) (tag : Byte) (page : U16) (version cls sep : Byte) (ref : U64) (s : State),
    Free p s → (s.port p).rights.pages = true →
    let refused := fun a => Answers (.separationArrived p tag page version cls sep ref) p tag 1 a [] s s
    ((page = 0 ∨ version = 0 ∨ 1 < cls.toNat ∨ 3 < sep.toNat) → refused ⟨.badValue, []⟩) ∧
    (page ≠ 0 → version ≠ 0 → cls = 0 → 0 < sep.toNat → sep.toNat ≤ 3 → refused ⟨.wrongSeparation, []⟩) ∧
    (∀ c x, page ≠ 0 → version ≠ 0 → classOf cls = some c → sepOf sep = some x → (c = .mono → x = .k) →
      (s.page? page.toNat = none →
        (512 ≤ s.pages.length → refused ⟨.registerFull, []⟩) ∧
        (s.pages.length < 512 → 1024 ≤ s.slots.length → refused ⟨.storeFull, []⟩)) ∧
      ∀ r, s.page? page.toNat = some r →
        (r.state = .expected → 1024 ≤ s.slots.length → refused ⟨.storeFull, []⟩) ∧
        ∀ v, r.version = some v →
          (r.state = .withdrawn → version.toNat ≤ v → refused ⟨.staleVersion, [.version v, .enum 3]⟩) ∧
          (r.state = .partly ∨ r.state = .complete →
            let st := if r.state = .complete then 2 else 1
            (version.toNat < v → refused ⟨.staleVersion, [.version v, .enum st]⟩) ∧
            (version.toNat = v → r.cls ≠ some c → refused ⟨.badValue, []⟩) ∧
            (version.toNat = v → r.cls = some c → r.arrived.has x = true →
              (∀ o, s.slot? ⟨page.toNat, v, x⟩ = some o → o.bad = false) →
              refused ⟨.duplicate, [.version v, .enum st]⟩) ∧
            (version.toNat = v → r.cls = some c → r.arrived.has x = false → 1024 ≤ s.slots.length →
              refused ⟨.storeFull, []⟩)) ∧
          (r.state ≠ .expected → v < version.toNat → 1024 ≤ s.slots.length →
            (∀ e ∈ s.slots, e.1.page = page.toNat → e.2.current = true → e.2.count ≠ 0) →
            refused ⟨.storeFull, []⟩))

/-- WITHDRAW_PAGE (R19, R20, R31): the page has no current slot and nothing arrived; the current job of every position
that requires it is superseded; its record is removed when no live job names it after that, with PAGE_REMOVED, and
else is WITHDRAWN, with PAGE_WITHDRAWN and the number of live jobs that do; and what is refused. The slots of other
pages, current or held, stay but for their counts, or are freed (R8). -/
def Obligations.PageWithdrawn : Prop :=
  ∀ (p : PortId) (tag : Byte) (page : U16) (s : State), Free p s → Tables s → Placed s →
    (s.port p).rights.pages = true →
    let n := page.toNat
    let refused := fun c => Answers (.withdrawPage p tag page) p tag 2 ⟨c, []⟩ [] s s
    (page = 0 → refused .badValue) ∧
    (page ≠ 0 → s.page? n = none → refused .notFound) ∧
    ∀ r, page ≠ 0 → s.page? n = some r →
      (r.state = .withdrawn → refused .wrongState) ∧
      (r.state ≠ .withdrawn → Goes (.withdrawPage p tag page) s fun t =>
        KeptAside { s with pages := t.pages, slots := t.slots } t ∧
        PagesKept (s.putPage n { r with arrived := ⟨false, false, false, false⟩, state := .withdrawn }) t ∧
        (∀ k o, t.slot? k = some o → k.page = n → o.current = false ∧
          ∃ o', s.slot? k = some o' ∧ o.ref = o'.ref ∧ o.bad = o'.bad) ∧
        (∀ k o, s.slot? k = some o → k.page = n → o.current = true → o.count = 0 → t.slot? k = none) ∧
        (∀ k, k.page ≠ n → SlotKept s t k) ∧
        Signalled n (fun x => needsPage s x.content.sep n = true) s t ∧
        (Filed s → Counted s →
          (t.page? n = none ↔ namers t n = 0) ∧ ∀ r', t.page? n = some r' → r'.liveJobs = namers t n) ∧
        ((t.page? n = none ∧ (∀ k, k.page = n → t.slot? k = none) ∧ Told (.pageRemoved n r.version) s t ∧
            AnsweredAt p tag 2 ⟨.ok, [.enum 1, .count 0]⟩ s t) ∨
          ∃ m, 0 < m ∧
            t.page? n = some { r with arrived := ⟨false, false, false, false⟩, state := .withdrawn, liveJobs := m } ∧
            Told (.pageWithdrawn n r.version m) s t ∧ AnsweredAt p tag 2 ⟨.ok, [.enum 0, .count m]⟩ s t))

/-! ### The plate book (chapter 2) -/

/-- STAGE_POSITION and CLEAR_STAGED_POSITION (R33, R34): an edit of a stage that is CLEAN or HELD by the port leaves it
HELD by the port, with STAGE_CLAIMED when it was CLEAN. DISCARD_STAGE (R35): the stage becomes a CLEAN copy of the
live plan, with STAGE_DISCARDED when the port is not the holder; a CLEAN stage stays. And what is refused. -/
def Obligations.StageRequests : Prop :=
  (∀ (p : PortId) (tag b1 b2 : Byte) (s : State), Free p s →
     ((s.port p).rights.plan = false →
       Answers (.clearStagedPosition p tag b1 b2) p tag 4 ⟨.refusedRights, []⟩ [] s s) ∧
     ((s.port p).rights.plan = false → (s.port p).rights.maint = false →
       Answers (.discardStage p tag b1) p tag 5 ⟨.refusedRights, []⟩ [] s s)) ∧
  (∀ (p : PortId) (tag : Byte) (k : PosKey) (s : State), Free p s → (s.port p).rights.plan = true →
     let x := s.stage k.press
     let pr := byteOf k.press.val
     let q := byteOf k.pos.val
     let claim := if x.holder = none then [Notice.stageClaimed k.press p] else []
     (x.holder = none ∨ x.holder = some p →
       (∀ f a b sep c, SpellsContent f a b sep c →
         Answers (.stagePosition p tag pr q f a b sep) p tag 3
           ⟨.ok, [.enum 1, .port p, .flag (decide ((s.pos? k).map Position.content = some c))]⟩ claim s
           (s.setStage k.press ⟨some p, tput Fin.val x.entries k.pos c⟩)) ∧
       (∀ c, tget x.entries k.pos = some c →
         Answers (.clearStagedPosition p tag pr q) p tag 4 ⟨.ok, []⟩ claim s
           (s.setStage k.press ⟨some p, tdel x.entries k.pos⟩)) ∧
       (tget x.entries k.pos = none →
         Answers (.clearStagedPosition p tag pr q) p tag 4 ⟨.notFound, []⟩ [] s s)) ∧
     (∀ h, x.holder = some h → h ≠ p →
       (∀ f a b sep c, SpellsContent f a b sep c →
         Answers (.stagePosition p tag pr q f a b sep) p tag 3 ⟨.stageHeld, [.port h]⟩ [] s s) ∧
       Answers (.clearStagedPosition p tag pr q) p tag 4 ⟨.stageHeld, []⟩ [] s s) ∧
     (∀ f a b sep, (∀ c, ¬ SpellsContent f a b sep c) →
       Answers (.stagePosition p tag pr q f a b sep) p tag 3 ⟨.badValue, []⟩ [] s s) ∧
     (∀ b1 b2 : Byte, 4 ≤ b1.toNat ∨ 64 ≤ b2.toNat →
       (∀ f a b sep, Answers (.stagePosition p tag b1 b2 f a b sep) p tag 3 ⟨.badValue, []⟩ [] s s) ∧
       Answers (.clearStagedPosition p tag b1 b2) p tag 4 ⟨.badValue, []⟩ [] s s)) ∧
  (∀ (p : PortId) (tag : Byte) (pr : PressId) (s : State), Free p s →
     (s.port p).rights.plan = true ∨ (s.port p).rights.maint = true →
     let c := Instr.discardStage p tag (byteOf pr.val)
     let copy : Stage := ⟨none, (s.positionsOf pr).map fun e => (e.1.pos, e.2.content)⟩
     ((s.stage pr).holder = none → Answers c p tag 5 ⟨.ok, [.enum 0]⟩ [] s s) ∧
     ((s.stage pr).holder = some p → Answers c p tag 5 ⟨.ok, [.enum 1]⟩ [] s (s.setStage pr copy)) ∧
     (∀ h, (s.stage pr).holder = some h → h ≠ p →
       ((s.port p).rights.maint = true →
         Answers c p tag 5 ⟨.ok, [.enum 1]⟩ [.stageDiscarded pr h p] s (s.setStage pr copy)) ∧
       ((s.port p).rights.maint = false → Answers c p tag 5 ⟨.stageHeld, []⟩ [] s s)) ∧
     ∀ b : Byte, 4 ≤ b.toNat → Answers (.discardStage p tag b) p tag 5 ⟨.badValue, []⟩ [] s s)

/-- A COMMIT_PLAN that is taken (R5, R36 to R41): the press's live plan becomes its staged plan; an UNCHANGED position
keeps its record whole, but for the standing that the press counts rest on (the model's own note of it, assumption
10), unless it was deferred, and then its current job and deferred flag may change as it is served (R39, R55); a
CHANGED one keeps its held flag and mounted job, and has its current job superseded, which it names no longer; a
REMOVED one has its current job superseded and its mounted job retired; every CHANGED or ADDED position has a job if
it can be made and there is room for one; the pages without a record become EXPECTED; the stage is a CLEAN copy; and
the press has the edition, its flags clear and its counts afresh. -/
def Obligations.CommitTaken : Prop :=
  ∀ (p : PortId) (tag : Byte) (pr : PressId) (edition : Byte) (s : State), Free p s → Tables s → Placed s →
    (s.port p).rights.plan = true → edition ≠ 0 →
    (s.stage pr).holder = none ∨ (s.stage pr).holder = some p → (s.press pr).state ≠ .running →
    let staged := (s.stage pr).entries
    let new := newPageIds s (s.stage pr)
    let superseded := fun n => ∃ k x, s.pos? k = some x ∧ k.press = pr ∧ tget staged k.pos ≠ some x.content ∧
      x.work.current = some n
    let retired := fun n => ∃ k x, s.pos? k = some x ∧ k.press = pr ∧ tget staged k.pos = none ∧
      x.work.mounted = some n
    s.pages.length + new.length ≤ 512 →
    Goes (.commitPlan p tag (byteOf pr.val) edition) s fun t =>
      KeptByReacting
        { s with
          plan := t.plan, stages := t.stages, presses := t.presses
          pages := (new.foldl (fun s n => s.putPage n ⟨none, none, ⟨false, false, false, false⟩, .expected, 0⟩) s).pages }
        t ∧
      (∀ k, k.press ≠ pr → (s.pos? k = none → t.pos? k = none) ∧
        ∀ x, s.pos? k = some x → ∃ y, t.pos? k = some y ∧ PositionKept x y) ∧
      (∀ k, k.press = pr → tget staged k.pos = none → t.pos? k = none) ∧
      (∀ k c, k.press = pr → tget staged k.pos = some c →
        (∀ x, s.pos? k = some x → x.content = c → ∃ y, t.pos? k = some y ∧ PositionKept x y ∧
          (x.work.deferred = false → y = { x with work := { x.work with satisfied := y.work.satisfied } })) ∧
        (∀ x, s.pos? k = some x → x.content ≠ c → ∃ y, t.pos? k = some y ∧
          PositionKept { x with content := c, edition := edition.toNat } y) ∧
        (s.pos? k = none → ∃ y, t.pos? k = some y ∧
          PositionKept ⟨c, edition.toNat, false, ⟨none, none, false, false, false⟩⟩ y) ∧
        ((s.pos? k).map Position.content ≠ some c → Renewed k s t ∧ Attended k t)) ∧
      (∀ n, superseded n → ¬ retired n → Superseded n s t) ∧ (∀ n, retired n → Ended n s t) ∧
      OthersStay (fun n => superseded n ∨ retired n) s t ∧
      (t.stage pr = ⟨none, (t.positionsOf pr).map fun e => (e.1.pos, e.2.content)⟩ ∧
        ∀ q, q ≠ pr → t.stage q = s.stage q) ∧
      (∀ q, q ≠ pr → PressKept (s.press q) (t.press q)) ∧
      (let n := (t.positionsOf pr).length
        let m := ((t.positionsOf pr).filter fun e => !satisfies t e.2).length
        t.press pr =
          { s.press pr with
            edition := some edition.toNat, window := false, late := false, positions := n, unsatisfied := m
            state := countedState n m }) ∧
      let at' := fun (f : PosId → Bool) => (allPositions.filter f).length
      let counts : CommitCounts :=
        ⟨at' fun q => decide ((s.pos? ⟨pr, q⟩).map Position.content = tget staged q) && (tget staged q).isSome,
          at' fun q => (s.pos? ⟨pr, q⟩).isSome && (tget staged q).isSome &&
            !decide ((s.pos? ⟨pr, q⟩).map Position.content = tget staged q),
          at' fun q => (s.pos? ⟨pr, q⟩).isNone && (tget staged q).isSome,
          at' fun q => (s.pos? ⟨pr, q⟩).isSome && (tget staged q).isNone, new.length,
          ((t.positionsOf pr).filter fun e => e.2.work.deferred).length⟩
      AnsweredAt p tag 6 ⟨.ok, [.press pr, .edition edition.toNat, .count counts.unchanged, .count counts.changed,
          .count counts.added, .count counts.removed, .count counts.newPages, .count counts.deferred]⟩ s t ∧
        Told (.planCommitted pr edition.toNat counts p) s t

/-- The refusals of a COMMIT_PLAN, in the order of their tests; each changes nothing (R36). -/
def Obligations.CommitRefused : Prop :=
  ∀ (p : PortId) (tag : Byte) (pr : PressId) (edition : Byte) (s : State), Free p s →
    (s.port p).rights.plan = true →
    let refused := fun b e c => Answers (.commitPlan p tag b e) p tag 6 ⟨c, []⟩ [] s s
    (∀ b : Byte, 4 ≤ b.toNat → refused b edition .badValue) ∧ refused (byteOf pr.val) 0 .badValue ∧
    (edition ≠ 0 →
      (∀ h, (s.stage pr).holder = some h → h ≠ p → refused (byteOf pr.val) edition .stageHeld) ∧
      ((s.stage pr).holder = none ∨ (s.stage pr).holder = some p →
        ((s.press pr).state = .running → refused (byteOf pr.val) edition .pressRunning) ∧
        ((s.press pr).state ≠ .running → 512 < s.pages.length + (newPageIds s (s.stage pr)).length →
          s.pages.length ≤ 512 → refused (byteOf pr.val) edition .registerFull)))

/-- HOLD_POSITION sets the held flag and RELEASE_POSITION clears it, each with its notice, which carries the current
job; a flag that stands so already is WRONG_STATE, and a position that is not live NOT_FOUND (R43, R44). -/
def Obligations.PositionHolds : Prop :=
  ∀ (p : PortId) (tag : Byte) (k : PosKey) (s : State), Free p s → Tables s → (s.port p).rights.room = true →
    let hold := Instr.holdPosition p tag (byteOf k.press.val) (byteOf k.pos.val)
    let release := Instr.releasePosition p tag (byteOf k.press.val) (byteOf k.pos.val)
    (∀ x, s.pos? k = some x →
      (x.held = false →
        Answers hold p tag 7 ⟨.ok, []⟩ [.positionHeld k x.work.current] s
          (s.modPos k fun y => { y with held := true }) ∧
        Answers release p tag 8 ⟨.wrongState, []⟩ [] s s) ∧
      (x.held = true →
        Answers hold p tag 7 ⟨.wrongState, []⟩ [] s s ∧
        AnswersServing release p tag 8 ⟨.ok, []⟩ [.positionReleased k x.work.current] s
          (s.modPos k fun y => { y with held := false }))) ∧
    (s.pos? k = none →
      Answers hold p tag 7 ⟨.notFound, []⟩ [] s s ∧ Answers release p tag 8 ⟨.notFound, []⟩ [] s s) ∧
    ∀ b1 b2 : Byte, 4 ≤ b1.toNat ∨ 64 ≤ b2.toNat →
      Answers (.holdPosition p tag b1 b2) p tag 7 ⟨.badValue, []⟩ [] s s ∧
      Answers (.releasePosition p tag b1 b2) p tag 8 ⟨.badValue, []⟩ [] s s

/-! ### Plate jobs (chapter 3) -/

/-- REQUEUE_POSITION (R68): a FAILED current job returns to its queue at attempt 1; without a current job the need
is tested, and a job is created with the next free number (R48) and the record of R51 to R53, with JOB_CREATED; or,
with the job table full, the position is deferred, with POSITION_DEFERRED at the first deferral alone (R54); and what
is refused. That
JOB_REQUEUED carries the job's last fault here is the model's reading (assumption 21), and that the answer carries a job
number with REQUEUED and CREATED only is the model's choice (assumption 29). -/
def Obligations.PositionRequeued : Prop :=
  ∀ (p : PortId) (tag : Byte) (k : PosKey) (s : State), Free p s → Tables s → (s.port p).rights.room = true →
    let c := Instr.requeuePosition p tag (byteOf k.press.val) (byteOf k.pos.val)
    (s.pos? k = none → Answers c p tag 9 ⟨.notFound, []⟩ [] s s) ∧
    (∀ b1 b2 : Byte, 4 ≤ b1.toNat ∨ 64 ≤ b2.toNat →
      Answers (.requeuePosition p tag b1 b2) p tag 9 ⟨.badValue, []⟩ [] s s) ∧
    ∀ x, s.pos? k = some x →
      (∀ n j, x.work.current = some n → s.job? n = some j →
        (j.state = .failed →
          AnswersServing c p tag 9 ⟨.ok, [.enum 0, .jobNumber n]⟩
            [.jobRequeued n 1 .requeuedByRoom j.lastFault] s
            (s.bumpEntry.modJob n fun j => { j with
              state := .queued, attempt := 1, lane := none, applied := none, entryOrder := s.entryCount + 1 })) ∧
        (j.state ≠ .failed → Answers c p tag 9 ⟨.wrongState, [.enum (jobStateCode j.state)]⟩ [] s s)) ∧
      (x.work.current = none →
        Goes c s fun t => KeptByReacting s t ∧ OthersStay (fun _ => False) s t ∧
          (makeable s x.content = false → AnsweredAt p tag 9 ⟨.ok, [.enum 3]⟩ s t) ∧
          (makeable s x.content = true → 768 ≤ s.jobs.length →
            AnsweredAt p tag 9 ⟨.ok, [.enum 2]⟩ s t ∧
            (x.work.deferred = false → Told (.positionDeferred k) s t) ∧
            (x.work.deferred = true → ∀ q time, .notice time (.positionDeferred k) ∈ (t.port q).link.output →
              .notice time (.positionDeferred k) ∈ (s.port q).link.output) ∧
            ∃ y, t.pos? k = some y ∧ y.work.current = none ∧ y.work.deferred = true) ∧
          (makeable s x.content = true → s.jobs.length < 768 →
            ∃ n y j j', s.job? n = none ∧ 1 ≤ n ∧ n ≤ 65535 ∧ NextFree s n ∧ t.lastJob = n ∧
              AnsweredAt p tag 9 ⟨.ok, [.enum 1, .jobNumber n]⟩ s t ∧
              t.pos? k = some y ∧ y.work = { x.work with
                current := some n, deferred := false, remake := false, satisfied := y.work.satisfied } ∧
              t.job? n = some j' ∧ JobStays j j' ∧ Told (.jobCreated n k j.cls j.origin j.colourNeed) s t ∧
              j = { press := k.press, pos := k.pos
                    pages := x.content.pages.map fun m => (m, versionOf s m)
                    sep := x.content.sep, format := x.content.format
                    colourNeed :=
                      if ∃ m ∈ x.content.pages, s.classOfPage m = some .colour then .colour else .mono
                    slots := (x.content.pages.filter (needsPage s x.content.sep)).map fun m =>
                      ⟨m, versionOf s m, x.content.sep⟩
                    cls := if x.work.remake = true ∨ (s.press k.press).state = .running ∨
                      (s.press k.press).window = true then .urgent else .normal
                    origin := if x.work.remake then .remake else .first
                    attempt := 1, state := .queued, superseded := false, engine := none, lane := none
                    applied := none, lastFault := none, entryOrder := s.entryCount + 1 }))

/-- The supersede of a job, by its state (R52, R59 to R62): the job is superseded for good, or ends with JOB_ENDED
(R50); the notice carries the state and the effect; a plate that stands in a rack or on a press is called back, and
where its position was satisfied the press's unsatisfied count rises by 1, by which a READY press is MAKEREADY, with
PRESS_UNREADY (R27, R140, R141). The position has no current job, and its remake mark is set by the job's state, or by
the job's origin where no plate was exposed; where the job ends this holds of a position that is not deferred (a
deferred one may have its next job at once, R55). That JOB_SUPERSEDED comes before PULL_REQUIRED and CHANGE_REQUIRED
is the model's reading (assumption 37). -/
def Obligations.SupersedeByState : Prop :=
  ∀ (k : PosKey) (n : Nat) (j : Job) (s : State), Tables s → s.job? n = some j →
    j.state ∉ [.retired, .cancelled, .discarded] →
    let t := supersede k n s
    let sent := ∃ e, WaitsAt (s.engine e).ctx.next n .exposeSent
    let ends := j.state = .queued ∨ j.state = .failed ∨ (j.state = .assigned ∧ ¬ sent)
    let tell := fun x => Notice.jobSuperseded n j.key j.state x
    KeptByReacting s t ∧ PortsKept s t ∧ OthersStay (fun m => m = n) s t ∧
    (ends → Ended n s t ∧ Tells [tell .cancelled] s t ∧ Told (.jobEnded n j.key .cancelled j.lastFault) s t ∧
      ∀ x, s.pos? k = some x → x.work.deferred = false → ∃ y, t.pos? k = some y ∧ y.work.current = none ∧
        y.work.deferred = false ∧ y.work.remake = (x.work.remake || decide (j.origin = .remake))) ∧
    (¬ ends → (∃ j', t.job? n = some j' ∧ JobStays { j with superseded := true } j') ∧
      ∀ x, s.pos? k = some x → ∃ y, t.pos? k = some y ∧ y.work.current = none ∧
        y.work.remake = (x.work.remake || decide (j.state ≠ .assigned) || decide (j.origin = .remake))) ∧
    (j.state = .assigned ∧ sent ∨ j.state ∈ [.exposing, .developing, .finishing, .uncertain] →
      Tells [tell .flagged] s t) ∧
    (j.state = .racked →
      Tells [tell .pullRequired, .pullRequired n j.key
        (if ∃ x ∈ s.shelf j.press, x.1 = n then .shelf else .rackSlot)] s t) ∧
    (j.state = .mounted → (s.press j.press).state = .running →
      Tells [tell .changeRequired, .changeRequired n j.key] s t) ∧
    (j.state = .mounted → (s.press j.press).state ≠ .running →
      Tells [tell .pullRequired, .pullRequired n j.key .onPress] s t) ∧
    (j.state = .racked ∨ j.state = .mounted → ∀ x, s.pos? k = some x → x.work.satisfied = true →
      x.content.pages.any (needsPage s x.content.sep) = true →
      let y := s.press k.press
      let st := if y.state = .running then .running else countedState y.positions (y.unsatisfied + 1)
      t.press k.press = { y with unsatisfied := y.unsatisfied + 1, state := st } ∧
      (y.state = .ready → st = .makeready → Told (.pressUnready k.press (y.unsatisfied + 1)) s t))

/-! ### Exposure engines (chapter 4) -/

/-- What the dispatcher and the engine channels give out. A job is offered when it is QUEUED and its position is not
held, in queue order (R56, R57, R80). An engine with an empty next context is given the first job offered that it is
eligible for, URGENT before NORMAL (R81), with LOAD and its timer (R84); an URGENT job still offered preempts on the
lowest-numbered engine that qualifies, and the search stops at the first for which none does (R82); EXPOSE is sent to
the engine that the lane's room is granted to, with the register's correction, which the job records (R85, R86).
Serving the engines is these in this order, the engines in ascending number: that they are served so at the end of
each operation of an event is the model's choice (assumption 9). -/
def Obligations.WorkGiven : Prop :=
  (∀ (s : State) (c : JobClass), Tables s →
     ((s.offered c).map Prod.fst).Nodup ∧
     (∀ n j, (n, j) ∈ s.offered c ↔ Offered s n j ∧ j.cls = c) ∧
     (s.offered c).Pairwise fun a b => aheadOf s b.2 a.2 = false) ∧
  (∀ (s : State) (e : EngineId),
     let queue := s.offered .urgent ++ s.offered .normal
     ((s.engine e).ctx.next ≠ none ∨ (∀ x ∈ queue, ¬ EligibleFor s e x.1 x.2) → fill e s = s) ∧
     ∀ pre n j post, (s.engine e).ctx.next = none → queue = pre ++ (n, j) :: post →
       (∀ x ∈ pre, ¬ EligibleFor s e x.1 x.2) → EligibleFor s e n j → fill e s = given e n j s) ∧
  (∀ s : State, preemptFrom [] s = s ∧ ∀ (n : Nat) (j : Job) (rest : List (Nat × Job)),
     ((∀ e, ¬ Preempts s e n j) → preemptFrom ((n, j) :: rest) s = s) ∧
     ∀ e, Preempts s e n j → (∀ e', e' < e → ¬ Preempts s e' n j) → preemptFrom ((n, j) :: rest) s =
       preemptFrom rest (given e n j (s.modCtx e fun c => { c with next := none, parked := c.next }))) ∧
  (∀ (s : State) (l : LaneId),
     (¬ HasLaneRoom s l ∨ (∀ e w, laneFed e = l → ¬ Loaded s e w) → exposeOnce l s = s) ∧
     ∀ e w j, HasLaneRoom s l → laneFed e = l → Loaded s e w → s.job? w.job = some j →
       (∀ e' w', laneFed e' = l → e' ≠ e → Loaded s e' w' →
         (IsUrgent s w ∧ ¬ IsUrgent s w') ∨ ((IsUrgent s w ↔ IsUrgent s w') ∧ e < e')) →
       exposeOnce l s = exposed e w j s) ∧
  ∀ s : State,
    let filled := allEngines.foldl (fun s e => fill e s) (evalStarved s)
    let thrice := fun (l : LaneId) (s : State) => exposeOnce l (exposeOnce l (exposeOnce l s))
    serve s = evalReached (thrice 1 (thrice 0 (preemptFrom (filled.offered .urgent) filled)))

/-- Once the engines have been served, no engine with an empty next context is eligible for a job that is offered
(R81), and no next job that could be sent EXPOSE waits where its lane has room (R85, R86). While the line is STOPPING,
a lane whose load is 0 has its stopped gate set (R159); each engine whose current context is empty and whose next holds
no job sent EXPOSE, and each lane with its stopped gate set, has its reached mark, beside the units that had it; and
when every unit has its mark and the sorter is not busy, the line is STOPPED, with LINE_STOPPED, and keeps no mark
(R151, R160): so a line that is STOPPING is not at rest. Serving changes nothing but what `KeptByServing` allows. It
judges the colour-starved condition first, whose notice is raised as the mark is set (R106); that it is judged then
(assumption 24), and that COLOUR_STARVED lists the RUNNING engines in ascending number (assumption 44), is the model's
choice, and so is it that the reached marks are evaluated whenever the engines are served (assumption 9). -/
def Obligations.EnginesServed : Prop :=
  ∀ s : State, Tables s →
    let t := serve s
    let engineMark := fun e : EngineId => s.line.reachedEngines[e] || engineRests t e
    let laneMark := fun l : LaneId => s.line.reachedLanes[l] || (t.lane l).gates.stopped
    let reached := (∀ e, engineMark e = true) ∧ (∀ l, laneMark l = true) ∧ t.sorter.delivery = none
    (¬ ColourStarves s → evalStarved s = s.setStarved false) ∧
    (ColourStarves s → s.starved = true → evalStarved s = s) ∧
    (ColourStarves s → s.starved = false → evalStarved s = raise
      (.colourStarved (allEngines.filter fun e => (s.engine e).status.mode = .running)
        (s.jobs.filter fun e => e.2.state = .queued && e.2.colourNeed = .colour).length) (s.setStarved true)) ∧
    KeptByServing s t ∧ PortsKept s t ∧ Served t ∧
    (s.line.state = .stopping →
      (∀ l, (t.lane l).gates.stopped = ((s.lane l).gates.stopped || decide (loadOf t l = 0))) ∧
      (reached → t.line.state = .stopped ∧ Told (.lineStopped s.line.stopTime) s t ∧
        (∀ e : EngineId, t.line.reachedEngines[e] = false) ∧ ∀ l : LaneId, t.line.reachedLanes[l] = false) ∧
      (¬ reached → t.line.state = .stopping ∧
        (∀ e : EngineId, t.line.reachedEngines[e] = engineMark e) ∧
        ∀ l : LaneId, t.line.reachedLanes[l] = laneMark l)) ∧
    (t.line.state = .stopping → ¬ AtRest t)

/-- HELLO (R92, R93): the engine's buffers are empty and its cassette unknown; an OFFLINE engine becomes RUNNING. An
engine that still held jobs has lost them: that is a fault first, and they return to their queues. That this fault
names no job is the model's reading (assumption 14). -/
def Obligations.HelloTaken : Prop :=
  ∀ (e : EngineId) (s : State), Tables s →
    let x := s.engine e
    let fresh := fun (m : EngineMode) (flag : Bool) (last : Option (EngineFaultCause × Nat)) =>
      withEngine e ⟨⟨m, true, flag, last⟩, x.gates, ⟨none, 0⟩, ⟨none, none, none, []⟩⟩ s
    let mode := if x.status.mode = .offline then EngineMode.running else x.status.mode
    ((x.status.mode = .offline ∨ x.status.mode = .lockedOut ∨ ∀ n, ¬ HeldIn x.ctx n) →
      RaisesServing (.hello e) [.engineOnline e mode x.status.faultFlag] s
        (fresh mode x.status.faultFlag x.status.lastFault)) ∧
    (x.status.mode = .running ∨ x.status.mode = .faulted → (∃ n, HeldIn x.ctx n) →
      let after := if x.status.faultFlag then EngineMode.lockedOut else .faulted
      RaisesReacting (.hello e) [faultNotice s e .engineRestarted none] s
        (fresh after true (some (.engineRestarted, s.clock))) (HeldIn x.ctx) fun t =>
          (∀ n, HeldIn x.ctx n → TakenOff n s t) ∧ Told (.engineOnline e after true) s t)

/-- Link loss of an engine (R92): it is OFFLINE, or LOCKED_OUT if it was or if its fault flag was set already; jobs
that it held return to their queues. That LINK_LOST names no job, that ENGINE_OFFLINE is raised at every loss, after the
fault, and that its count leaves out superseded jobs is the model's reading (assumption 14). -/
def Obligations.EngineLinkLost : Prop :=
  ∀ (e : EngineId) (s : State), Tables s →
    let x := s.engine e
    let dropped := fun (m : EngineMode) (flag : Bool) (last : Option (EngineFaultCause × Nat)) =>
      withEngine e ⟨⟨m, false, flag, last⟩, x.gates, ⟨none, 0⟩, ⟨none, none, none, []⟩⟩ s
    (x.status.mode = .lockedOut ∨ (∀ n, ¬ HeldIn x.ctx n) →
      RaisesServing (.engineLinkLoss e) [.engineOffline e 0] s
        (dropped (if x.status.mode = .lockedOut then .lockedOut else .offline) x.status.faultFlag
          x.status.lastFault)) ∧
    (x.status.mode ≠ .lockedOut → (∃ n, HeldIn x.ctx n) →
      RaisesReacting (.engineLinkLoss e) [faultNotice s e .linkLost none] s
        (dropped (if x.status.faultFlag then .lockedOut else .offline) true (some (.linkLost, s.clock)))
        (HeldIn x.ctx) fun t =>
          let held := x.ctx.current.toList.map CurrentCtx.job ++ x.ctx.next.toList.map WaitingCtx.job ++
            x.ctx.parked.toList.map WaitingCtx.job
          (∀ n, HeldIn x.ctx n → TakenOff n s t) ∧
          Told (.engineOffline e (held.filter fun n => (s.job? n).any fun j => !j.superseded).length) s t)

/-- CASSETTE_LOADED (R75): the record takes the format and the count; a value out of range is a PROTOCOL fault; a new
format while a job waits is a CASSETTE_CHANGED fault; an OFFLINE engine ignores the report. That neither fault names a
job is the model's reading (assumption 14), and so is the fault's coming before any dispatch to the new cassette
(assumption 12). -/
def Obligations.CassetteTaken : Prop :=
  ∀ (e : EngineId) (format : Option PlateFormat) (count : Nat) (s : State), Tables s →
    let c := Instr.cassetteLoaded e format count
    let x := s.engine e
    let bad := format = none ∨ 250 < count
    let u := s.modCassette e fun _ => Cassette.mk format count
    let last := fun (b : State) (cause : EngineFaultCause) =>
      b.modStatus e fun y => { y with lastFault := some (cause, s.clock) }
    let changed := format ≠ x.cassette.format ∧ ∃ n, WaitsIn x.ctx n
    (x.status.mode = .offline → exec c s = .next s) ∧
    (x.status.mode ≠ .offline → ¬ bad → ¬ changed → RaisesServing c [] s u) ∧
    (x.status.mode = .running ∨ x.status.mode = .faulted →
      (bad → EngineFaults c e .protocol none x.ctx [] [faultNotice s e .protocol none] s s fun _ => True) ∧
      (¬ bad → changed →
        EngineFaults c e .cassetteChanged none x.ctx [] [faultNotice s e .cassetteChanged none] s u
          fun _ => True)) ∧
    (x.status.mode = .lockedOut →
      (bad → exec c s = .next (last s .protocol)) ∧
      (¬ bad → changed → exec c s = .next (last u .cassetteChanged)))

/-- A report about a job that the cancel list names is taken by its entry, which it removes if it answers the command
of that entry; a report that no context takes is a PROTOCOL fault of a RUNNING engine and ignored in every other mode
(R78, R79). LOADED, in its place, sets the stage and stops the LOAD timer (R84). That the PROTOCOL fault names no job
(assumption 14) and that an entry is matched by job and attempt (assumption 33) is the model's reading. -/
def Obligations.ReportsMatched : Prop :=
  ∀ (e : EngineId) (n : U16) (a : Byte) (c : Instr) (removes : Option CancelCommand) (s : State), Tables s →
    ReportOf e n a c removes →
    let x := (s.engine e).ctx
    (∀ y, (x.cancel.find? fun y => y.job = n.toNat && y.attempt = a.toNat) = some y →
      (removes = some y.command →
        RaisesServing c [] s (s.modCtx e fun x => { x with cancel := x.cancel.filter fun z => z.job ≠ n.toNat })) ∧
      (removes ≠ some y.command → exec c s = .next s)) ∧
    ((∀ y ∈ x.cancel, y.job = n.toNat → y.attempt ≠ a.toNat) →
      ((s.engine e).status.mode = .offline ∨ (s.engine e).status.mode = .lockedOut → exec c s = .next s) ∧
      (¬ Takes x n.toNat c ∨ (∀ j, s.job? n.toNat = some j → j.attempt ≠ a.toNat) →
        ((s.engine e).status.mode = .faulted → exec c s = .next s) ∧
        ((s.engine e).status.mode = .running →
          EngineFaults c e .protocol none x [] [faultNotice s e .protocol none] s s fun _ => True))) ∧
    (c = .loaded e n a → Expected e n.toNat a.toNat c s →
      let mark := fun w : WaitingCtx => if w.job = n.toNat then { w with stage := .loaded, timer := none } else w
      RaisesServing c [] s (s.modCtx e fun x => { x with next := x.next.map mark, parked := x.parked.map mark }))

/-- LOAD_FAULT with an unreadable raster (R10, R63, R67, R90): the job leaves the engine; the slot that holds the
reference is BAD and the job FAILED; with no such slot the job returns to its queue; no engine fault. By the
model's choice POSITION_FAILED comes before RASTER_BAD, which is not raised again for a slot that is BAD already, and of
two slots of the job with that reference the first in its list is meant (assumption 15). -/
def Obligations.RasterUnreadable : Prop :=
  ∀ (e : EngineId) (n : U16) (a : Byte) (ref : U64) (s : State) (j : Job), Tables s →
    let c := Instr.loadFault e n a (.rasterUnreadable ref)
    Expected e n.toNat a.toNat c s → s.job? n.toNat = some j →
    let x := s.engine e
    let f : FaultRecord := ⟨.rasterUnreadable, .engine e, s.clock⟩
    let left := { x.ctx.without n.toNat with cancel := joinCancel x.ctx.cancel [⟨n.toNat, j.attempt, .discard⟩] }
    let u := (withEngine e { x with ctx := left.settled } s).send (.discard e n.toNat j.attempt)
    (∀ pre k post o, j.state = .assigned → j.superseded = false → j.slots = pre ++ k :: post →
      (∀ k' ∈ pre, ∀ o', s.slot? k' = some o' → o'.ref ≠ ref) → s.slot? k = some o → o.ref = ref →
      RaisesServing c (.positionFailed j.key n.toNat j.attempt f ::
          if o.bad then [] else [.rasterBad k n.toNat e]) s
        ((u.modSlot k fun o => { o with bad := true }).modJob n.toNat fun j =>
          { j with state := .failed, lastFault := some f })) ∧
    ((∀ k' ∈ j.slots, ∀ o', s.slot? k' = some o' → o'.ref ≠ ref) ∨ j.superseded = true →
      RaisesReacting c
        (if j.superseded then [] else [.jobRequeued n.toNat j.attempt .fault (some f)]) s u
        (fun m => m = n.toNat) (TakenBy n.toNat f s))

/-- LOAD_FAULT with an engine cause code, and the expiry of a LOAD timer: engine faults that name the job, which comes
first, with COLOUR_STARVED where its return makes the condition true (R84, R90, R91, R106). By the model's choice an
expiry is taken at whatever value the timer stands (assumption 5), one of a timer that does not run changes nothing
(assumption 30), the condition is judged at that return and again after the engine's notice (assumption 24), and
COLOUR_STARVED lists the RUNNING engines in ascending number (assumption 44). -/
def Obligations.LoadFails : Prop :=
  ∀ (e : EngineId) (s : State), Tables s → (s.engine e).status.mode = .running →
    let x := (s.engine e).ctx
    let ns := fun (n : Nat) (j : Job) (f : FaultRecord) (cause : EngineFaultCause) =>
      if j.superseded then [] else
        [.jobRequeued n j.attempt .fault (some f)] ++ starvedNotices s n (decide (j.colourNeed = .colour)) ++
          [faultNotice s e cause (some n)]
    (∀ (n : U16) (a code : Byte) (j : Job), s.job? n.toNat = some j →
      let c := Instr.loadFault e n a (.code code)
      Expected e n.toNat a.toNat c s →
      let f : FaultRecord := ⟨.loadFault code, .engine e, s.clock⟩
      EngineFaults c e .loadFault (some n.toNat) (x.without n.toNat) [⟨n.toNat, j.attempt, .discard⟩]
        (ns n.toNat j f .loadFault) s s (TakenBy n.toNat f s)) ∧
    (∀ (place : WaitingContext) (w : WaitingCtx) (j : Job),
      (place = .next ∧ x.next = some w) ∨ (place = .parked ∧ x.parked = some w) → s.job? w.job = some j →
      (w.timer ≠ none →
        let f : FaultRecord := ⟨.loadTimeout, .engine e, s.clock⟩
        EngineFaults (.loadTimerExpiry e place) e .loadTimeout (some w.job) (x.without w.job) (leaving s (some w))
          (ns w.job j f .loadTimeout) s s (TakenBy w.job f s)) ∧
      (w.timer = none → exec (.loadTimerExpiry e place) s = .next s)) ∧
    (x.next = none → exec (.loadTimerExpiry e .next) s = .next s) ∧
    (x.parked = none → exec (.loadTimerExpiry e .parked) s = .next s)

/-- EXPOSE_STARTED (R83, R87): the next job becomes current and EXPOSING with the EXPOSE timer running, the parked job
moves to next, a plate leaves the cassette, and the step allowance clears; CASSETTE_EMPTY is raised when the last
plate leaves. EXPOSE_DONE (R8, R58, R88, R113): the current context is empty, the job is DEVELOPING at the end of its
lane's order with its transit timer running, and its raster references are released. -/
def Obligations.Exposures : Prop :=
  (∀ (e : EngineId) (n : U16) (a : Byte) (w : WaitingCtx) (s : State), Tables s →
     let c := Instr.exposeStarted e n a
     Expected e n.toNat a.toNat c s → (s.engine e).ctx.next = some w →
     let x := s.engine e
     RaisesServing c (if x.cassette.count = 1 then [.cassetteEmpty e x.cassette.format] else []) s
       ((withEngine e
         { x with
           gates := { x.gates with allowance := false }
           cassette := { x.cassette with count := x.cassette.count - 1 }
           ctx := ⟨some ⟨n.toNat, s.limits.expose, w.cut⟩, x.ctx.parked, none, x.ctx.cancel⟩ } s).modJob n.toNat
         fun j => { j with state := .exposing })) ∧
  (∀ (e : EngineId) (n : U16) (a : Byte) (j : Job) (s : State), Tables s →
     let c := Instr.exposeDone e n a
     Expected e n.toNat a.toNat c s → s.job? n.toNat = some j →
     let x := s.engine e
     let l := laneFed e
     Goes c s fun t =>
       KeptByServing
         (({ withEngine e { x with ctx := { x.ctx with current := none } } s with slots := t.slots }.modJob n.toNat
           fun j => { j with state := .developing, lane := some l }).modFloor l fun f =>
             { f with order := f.order ++ [LaneEntry.mk n.toNat .inDeveloper (some (s.lane l).transit)] })
         t ∧
       PortsKept s t ∧ Released j.slots s t)

/-- An exposure that fails: EXPOSE_FAULT of a cut job returns it with no engine fault (R89); of another job it is an
engine fault, by which the plate is spoiled, or not if it was not consumed (R90, R91); and so is the expiry of the
EXPOSE timer, at which ABORT is sent. The job that is named comes first, with COLOUR_STARVED where its return makes
the condition true (R106); that the condition is judged there (assumption 24), and that COLOUR_STARVED lists the RUNNING
engines in ascending number (assumption 44), is the model's choice. By its choice too
an expiry is taken at whatever value the timer stands (assumption 5), and with no current job it changes nothing
(assumption 30); that ABORT is sent again for a job that a line stop has cut already is its reading (assumption 13). -/
def Obligations.ExposureFails : Prop :=
  ∀ (e : EngineId) (s : State), Tables s →
    let x := s.engine e
    (∀ (n : U16) (a : Byte) (consumed : Bool) (j : Job), s.job? n.toNat = some j →
      let c := Instr.exposeFault e n a consumed
      Expected e n.toNat a.toNat c s →
      let left := { x.ctx.without n.toNat with current := x.ctx.current.filter fun w => w.job ≠ n.toNat }
      let fault := fun cause : FaultCause => (⟨cause, .engine e, s.clock⟩ : FaultRecord)
      let cut := (∃ w, x.ctx.current = some w ∧ w.job = n.toNat ∧ w.cut = true) ∨
        ∃ w, x.ctx.next = some w ∧ w.job = n.toNat ∧ w.cut = true
      let returns := fun f : FaultRecord =>
        if j.superseded then [] else [Notice.jobRequeued n.toNat j.attempt .fault (some f)]
      (cut →
        RaisesReacting c (returns (fault .cut)) s (withEngine e { x with ctx := left.settled } s)
          (fun m => m = n.toNat) (TakenBy n.toNat (fault .cut) s)) ∧
      (¬ cut → consumed = true →
        EngineFaults c e .exposeFault (some n.toNat) left []
          (if j.superseded then [] else
            spoilNotices n.toNat (fault .exposeFault) j ++
              starvedNotices s n.toNat (decide (j.colourNeed = .colour) && decide (j.attempt < 3)) ++
              [faultNotice s e .exposeFault (some n.toNat)])
          s s (Spoiled n.toNat (fault .exposeFault) s)) ∧
      (¬ cut → consumed = false →
        EngineFaults c e .exposeInterrupted (some n.toNat) left []
          (if j.superseded then [] else
            returns (fault .exposeInterrupted) ++ starvedNotices s n.toNat (decide (j.colourNeed = .colour)) ++
              [faultNotice s e .exposeInterrupted (some n.toNat)])
          s s (TakenBy n.toNat (fault .exposeInterrupted) s))) ∧
    (x.status.mode ≠ .lockedOut → ∀ (w : CurrentCtx) (j : Job), x.ctx.current = some w → s.job? w.job = some j →
      ¬ WaitsIn x.ctx w.job →
      let f : FaultRecord := ⟨.exposeTimeout, .engine e, s.clock⟩
      EngineFaults (.exposeTimerExpiry e) e .exposeTimeout (some w.job) { x.ctx with current := none }
        (aborting s (some w))
        (if j.superseded then [] else
          spoilNotices w.job f j ++
            starvedNotices s w.job (decide (j.colourNeed = .colour) && decide (j.attempt < 3)) ++
            [faultNotice s e .exposeTimeout (some w.job)])
        s s (Spoiled w.job f s)) ∧
    (x.ctx.current = none → exec (.exposeTimerExpiry e) s = .next s)

/-- CLEAR_ENGINE_FAULT clears the fault flag and makes a FAULTED engine RUNNING, and is refused of a LOCKED_OUT one;
RESTORE_ENGINE ends LOCKED_OUT (R94); REARM_REGISTER sets the register record back to its start (R107). -/
def Obligations.EngineRequested : Prop :=
  (∀ (p : PortId) (tag : Byte) (e : EngineId) (s : State), Free p s → Tables s →
     let clear := fun b => Instr.clearEngineFault p tag b
     let restore := fun b => Instr.restoreEngine p tag b
     let x := (s.engine e).status
     ((s.port p).rights.room = true →
       (∀ b : Byte, 6 ≤ b.toNat → Answers (clear b) p tag 10 ⟨.badValue, []⟩ [] s s) ∧
       (x.mode = .faulted →
         AnswersServing (clear (byteOf e.val)) p tag 10 ⟨.ok, []⟩ [.engineCleared e .running] s
           (s.modStatus e fun x => { x with mode := .running, faultFlag := false })) ∧
       (x.mode = .running ∨ x.mode = .offline →
         (x.faultFlag = true →
           AnswersServing (clear (byteOf e.val)) p tag 10 ⟨.ok, []⟩ [.engineCleared e x.mode] s
             (s.modStatus e fun x => { x with faultFlag := false })) ∧
         (x.faultFlag = false → Answers (clear (byteOf e.val)) p tag 10 ⟨.wrongState, []⟩ [] s s)) ∧
       (x.mode = .lockedOut → Answers (clear (byteOf e.val)) p tag 10 ⟨.wrongState, []⟩ [] s s)) ∧
     ((s.port p).rights.maint = true →
       (∀ b : Byte, 6 ≤ b.toNat → Answers (restore b) p tag 11 ⟨.badValue, []⟩ [] s s) ∧
       (x.mode = .lockedOut →
         let m := if x.greeted then EngineMode.running else .offline
         AnswersServing (restore (byteOf e.val)) p tag 11 ⟨.ok, []⟩ [.engineRestored e m] s
           (s.modStatus e fun x => { x with mode := m, faultFlag := false })) ∧
       (x.mode ≠ .lockedOut → Answers (restore (byteOf e.val)) p tag 11 ⟨.wrongState, []⟩ [] s s))) ∧
  (∀ (p : PortId) (tag : Byte) (e : EngineId) (s : State), Free p s → Tables s → (s.port p).rights.room = true →
     AnswersServing (.rearmRegister p tag (byteOf e.val)) p tag 12 ⟨.ok, []⟩
       [.registerRearmed e (s.register e).state] s (s.setRegister e ⟨.tracking, [], ⟨0, 0⟩, 0⟩) ∧
     ∀ b : Byte, 6 ≤ b.toNat → Answers (.rearmRegister p tag b) p tag 12 ⟨.badValue, []⟩ [] s s)

/-! ### The register tracker (chapter 5) -/

/-- A register sample (R99 to R105): the record is as `sampled` says; the notices; and on entry to DRIFTED the COLOUR
jobs that wait in the engine are taken off it: they have left its contexts, each with the command of its stage unless
ABORT is outstanding for a cut, the cancel list names them, and each returns to its queue or, superseded, ends. -/
def Obligations.SampleTaken : Prop :=
  ∀ (e : EngineId) (m c : Offset) (s : State), Tables s → RegisterFits (s.register e) →
    let r := s.register e
    let x := s.engine e
    let d : Offset := ⟨m.dx + c.dx, m.dy + c.dy⟩
    let drifts := Beyond s m ∧ r.state ≠ .drifted
    let evicted := fun n => WaitsIn x.ctx n ∧ ∃ j, s.job? n = some j ∧ j.colourNeed = .colour
    let colour := fun w : WaitingCtx => (s.job? w.job).any fun j => j.colourNeed = .colour
    let parked := (x.ctx.parked.filter colour).toList.map fun w =>
      (⟨w.job, (s.attemptOf w.job).getD 0, .discard⟩ : CancelEntry)
    let uncut := fun w : WaitingCtx => decide (w.stage ≠ .exposeSent) || !w.cut
    let t := takeSample e m c s
    KeptByReacting (s.setRegister e (sampled s e m c)) t ∧ PortsKept s t ∧
    OthersStay (fun n => drifts ∧ evicted n) s t ∧
    (drifts →
      (∀ n, evicted n → TakenOff n s t ∧ ¬ WaitsIn (t.engine e).ctx n) ∧
      (t.engine e).ctx.cancel = joinCancel x.ctx.cancel (leaving s (x.ctx.next.filter colour) ++ parked) ∧
      (∃ l, t.lineSent = s.lineSent ++
        (leaving s ((x.ctx.next.filter colour).filter uncut) ++ parked).map (commandFor e) ++ l) ∧
      Tells [.registerDrifted e m d ((x.ctx.next.toList ++ x.ctx.parked.toList).filter colour).length] s t) ∧
    (¬ Beyond s m →
      (r.state = .tracking → (sampled s e m c).state = .locked →
        Tells [.registerLocked e (sampled s e m c).correction] s t) ∧
      (r.state = .locked → (sampled s e m c).state = .tracking → Tells [.registerRelock e d r.correction] s t) ∧
      (r.state = .drifted → (sampled s e m c).state = .tracking →
        Tells [.registerRestored e (sampled s e m c).correction] s t))

/-! ### Lanes and the sorter (chapter 6) -/

/-- The decision of a plate whose tag names the head of inspection, at a lane that is open with no report pending
(R116, R119, R120): PASS with the punch offset; or REJECT, by which the plate is spoiled or, superseded, thrown
away. The sample is taken when marks were found (R99). -/
def Obligations.PlateDecided : Prop :=
  ∀ (l : LaneId) (n : U16) (marks : Option Offset) (j : Job) (e : EngineId) (o : Offset) (s : State), Tables s →
    let c := Instr.atInspect l ⟨.read (plateTag n j), marks⟩
    (s.lane l).Opens → (s.lane l).inspections = [] → (s.lane l).clearing = false →
    n ≠ 0 → s.job? n.toNat = some j → 1 ≤ j.attempt → j.attempt ≤ 3 → Heads (s.lane l).floor.order n.toNat →
    j.engine = some e → j.applied = some o → ¬ WaitsIn (s.engine e).ctx n.toNat →
    let b := usedStep l s
    let sample := fun u : State =>
      match marks with
      | some m => if Within 4000 m then u.setRegister e (sampled s e m o) else u
      | none => u
    let rejected := sample ((b.send (.reject l n.toNat)).modFloor l fun f =>
      { f with order := without n.toNat f.order })
    let far := ∃ m, marks = some m ∧ Within 4000 m ∧ Beyond s m
    let taken := fun k => k = n.toNat ∨ far
    (∀ m, j.superseded = false → marks = some m → Within 1500 m →
      RaisesReacting c [] s
        (sample (((b.send (.pass l n.toNat j.attempt m)).modFloor l fun f =>
          { f with order := f.order.map fun x =>
              if x.job = n.toNat then { x with stage := .punching, timer := none } else x }).modJob n.toNat
            fun j => { j with state := .finishing }))
        (fun k => far ∧ WaitsIn (s.engine e).ctx k) fun _ => True) ∧
    (j.superseded = false → (∀ m, marks = some m → ¬ Within 1500 m) →
      let param := match marks with
        | some m => if Within 4000 m then FaultParam.offset m else .lane l
        | none => .lane l
      RaisesReacting c (spoilNotices n.toNat ⟨.registerReject, param, s.clock⟩ j) s rejected taken
        (Spoiled n.toNat ⟨.registerReject, param, s.clock⟩ s)) ∧
    (j.superseded = true → RaisesReacting c [] s rejected taken (Ended n.toNat s))

/-- The other decisions of an AT_INSPECT at a lane that is not clearing: an unreadable tag is charged to the head of
inspection (R115, R117), any other plate is a stray (R118); a lane that is not open keeps the report, and a thirteenth
is an error (R116, R124). That a plate past inspection is reported so whatever its attempt is the model's reading
(assumption 34), and that the LANE_PROTOCOL of an unreadable tag names no job its choice (assumption 19). -/
def Obligations.PlateNotIdentified : Prop :=
  ∀ (l : LaneId) (r : InspectReport) (s : State), Tables s →
    let c := Instr.atInspect l r
    let x := s.lane l
    let b := (usedStep l s).send (.reject l 0)
    (x.Opens → x.inspections = [] → x.clearing = false →
      (r.tag = .unreadable ∨ (∃ t, r.tag = .read t ∧ ¬ Sound s t) →
        ((∀ y ∈ x.floor.order, y.stage ≠ .inDeveloper) →
          Raises c [.strayPlate l r.tag .unreadable] s b) ∧
        (∀ n j, Heads x.floor.order n → s.job? n = some j →
          RaisesReacting c (spoilNotices n ⟨.tagUnreadable, .lane l, s.clock⟩ j) s
            (b.modFloor l fun f => { f with order := without n f.order }) (fun k => k = n)
            (Spoiled n ⟨.tagUnreadable, .lane l, s.clock⟩ s))) ∧
      (∀ t, r.tag = .read t → Sound s t →
        ((∀ y ∈ x.floor.order, y.job ≠ t.job.toNat) →
          Raises c [.strayPlate l r.tag .notInOrder] s b) ∧
        (∀ y, (x.floor.order.find? fun y => y.job = t.job.toNat) = some y →
          (∀ z ∈ x.floor.order, z.job = t.job.toNat → z = y) →
          (y.stage ≠ .inDeveloper → Raises c [.strayPlate l r.tag .pastInspection] s b) ∧
          (y.stage = .inDeveloper → (∀ j, s.job? t.job.toNat = some j → j.attempt ≠ t.attempt.toNat) →
            Raises c [.strayPlate l r.tag .attemptMismatch] s b)))) ∧
    (¬ x.Opens ∨ x.inspections ≠ [] →
      (x.inspections.length < 12 →
        exec c s = .next (s.modLane l fun x => { x with inspections := x.inspections ++ [r] })) ∧
      (12 ≤ x.inspections.length →
        Raises c [.laneProtocol (.lane l) .atInspect (match r.tag with
          | .unreadable => none
          | .read t => some (t.job.toNat, t.attempt.toNat))] s s))

/-- Resynchronisation (R116, R117): when a plate names a job further down the order, every job that waits for
inspection ahead of it is spoiled as missing and leaves the order, with its notice (R66). Then the plate is decided
(R119): PASS with the punch offset, by which its job is FINISHING at PUNCHING; or REJECT, by which the plate leaves the
order and is spoiled or, superseded, thrown away. The sample is taken when marks were found (R99), and may take
the jobs that wait in its engine off it (R105). Beside these no job is taken, and the rest of the part changes only as
the reactions may change it. -/
def Obligations.LaneResynchronised : Prop :=
  ∀ (l : LaneId) (n : U16) (marks : Option Offset) (j : Job) (s : State) (pre post : List LaneEntry) (y : LaneEntry),
    Tables s → (s.lane l).Opens → (s.lane l).inspections = [] → (s.lane l).clearing = false →
    n ≠ 0 → s.job? n.toNat = some j → 1 ≤ j.attempt → j.attempt ≤ 3 →
    (s.lane l).floor.order = pre ++ y :: post → y.job = n.toNat → y.stage = .inDeveloper →
    ((s.lane l).floor.order.map LaneEntry.job).Nodup →
    (∀ z ∈ pre, ∀ e, ¬ WaitsIn (s.engine e).ctx z.job) →
    Goes (.atInspect l ⟨.read (plateTag n j), marks⟩) s fun t =>
      (∀ z ∈ pre, z.stage = .inDeveloper → Spoiled z.job ⟨.missingFromLane, .lane l, s.clock⟩ s t ∧
        (∀ y' ∈ (t.lane l).floor.order, y'.job ≠ z.job) ∧
        ∀ i, s.job? z.job = some i → ∀ x ∈ spoilNotices z.job ⟨.missingFromLane, .lane l, s.clock⟩ i, Told x s t) ∧
      PortsKept s t ∧
      ∀ e o, j.engine = some e → j.applied = some o → j.state = .developing →
        (∀ e', ¬ WaitsIn (s.engine e').ctx n.toNat) →
        let ahead := pre.filter fun z => z.stage ≠ .inDeveloper
        let left := fun order => (usedStep l s).modFloor l fun f => { f with order := order }
        let sample := fun u : State =>
          match marks with
          | some m => if Within 4000 m then u.setRegister e (sampled s e m o) else u
          | none => u
        let far := ∃ m, marks = some m ∧ Within 4000 m ∧ Beyond s m
        let evicted := fun k => far ∧ (WaitsIn (s.engine e).ctx k ∨ ∃ i, s.job? k = some i ∧ i.state = .queued)
        let taken := fun k => k = n.toNat ∨ (∃ z ∈ pre, z.stage = .inDeveloper ∧ z.job = k) ∨ evicted k
        let sent := fun x => ∃ l₁ l₂, t.lineSent = s.lineSent ++ l₁ ++ [x] ++ l₂
        (∀ m, j.superseded = false → marks = some m → Within 1500 m →
          KeptByReacting ((sample (left (ahead ++ { y with stage := .punching, timer := none } :: post))).modJob n.toNat
            fun i => { i with state := .finishing }) t ∧
          OthersStay taken s t ∧ sent (.pass l n.toNat j.attempt m) ∧
          (∃ j', t.job? n.toNat = some j' ∧ JobStays { j with state := .finishing } j') ∧
          { y with stage := .punching, timer := none } ∈ (t.lane l).floor.order) ∧
        (j.superseded = false → (∀ m, marks = some m → ¬ Within 1500 m) →
          let param := match marks with
            | some m => if Within 4000 m then FaultParam.offset m else .lane l
            | none => .lane l
          let f : FaultRecord := ⟨.registerReject, param, s.clock⟩
          KeptByReacting (sample (left (ahead ++ post))) t ∧
          OthersStay taken s t ∧ sent (.reject l n.toNat) ∧
          Spoiled n.toNat f s t ∧ ∀ x ∈ spoilNotices n.toNat f j, Told x s t) ∧
        (j.superseded = true →
          KeptByReacting (sample (left (ahead ++ post))) t ∧
          OthersStay taken s t ∧ sent (.reject l n.toNat) ∧ Ended n.toNat s t)

/-- AT_INSPECT and AT_EXIT of a lane that is clearing (R58, R169, R170): an UNCERTAIN job of the lane at the attempt
is reclaimed and counted, and its raster references are released; its plate is passed where it can be punched, and
rejected where it cannot, by which the job is spoiled and takes its references again, or ends if it is superseded. Any
other plate is a stray. PUNCHED_BENT of such a job is ignored. -/
def Obligations.PlateReclaimed : Prop :=
  (∀ (l : LaneId) (n : U16) (a : Byte) (j : Job) (s : State), Tables s → n ≠ 0 → s.job? n.toNat = some j →
    1 ≤ j.attempt → j.attempt ≤ 3 → (∀ y ∈ (s.lane l).floor.order, y.job ≠ n.toNat) →
    let x := s.lane l
    let counted := fun r : Restart => { r with counts := { r.counts with reclaimed := r.counts.reclaimed + 1 } }
    (∀ marks, x.Opens → x.inspections = [] → x.clearing = true →
      let c := Instr.atInspect l ⟨.read (plateTag n j), marks⟩
      let b := usedStep l s
      ∀ e o, Reclaimable s l n.toNat j.attempt → j.engine = some e → j.applied = some o →
        ¬ WaitsIn (s.engine e).ctx n.toNat →
        let sample := fun u : State =>
          match marks with
          | some m => if Within 4000 m then u.setRegister e (sampled s e m o) else u
          | none => u
        let rejected := sample ((b.send (.reject l n.toNat)).modRestart counted)
        let far := ∃ m, marks = some m ∧ Within 4000 m ∧ Beyond s m
        let taken := fun k => k = n.toNat ∨ far
        (∀ m, j.superseded = false → marks = some m → Within 1500 m →
          RaisesReacting c [] s
            (sample ((((b.send (.pass l n.toNat j.attempt m)).modFloor l fun f =>
              { f with order := f.order ++ [⟨n.toNat, .punching, none⟩] }).modJob n.toNat fun j =>
                { j with state := .finishing }).modRestart counted))
            (fun k => far ∧ WaitsIn (s.engine e).ctx k) fun t => ¬ far → Released j.slots s t) ∧
        (j.superseded = false → (∀ m, marks = some m → ¬ Within 1500 m) →
          let param := match marks with
            | some m => if Within 4000 m then FaultParam.offset m else .lane l
            | none => .lane l
          let f : FaultRecord := ⟨.registerReject, param, s.clock⟩
          RaisesReacting c (spoilNotices n.toNat f j) s rejected taken fun t => Spoiled n.toNat f s t ∧
            ((∀ k ∈ j.slots, ∃ o, s.slot? k = some o ∧ o.current = true ∧ j.slots.count k ≤ o.count) → ¬ far →
              t.slots = s.slots)) ∧
        (j.superseded = true → RaisesReacting c [] s rejected taken (Ended n.toNat s))) ∧
    (Reclaimable s l n.toNat a.toNat →
      exec (.punchedBent l n a) s = .next s ∧
      (x.floor.exit = none →
        RaisesReacting (.atExit l n a) [] s
          (((s.modFloor l fun f => { f with
              order := f.order ++ [⟨n.toNat, .atExit, none⟩], exit := some n.toNat }).modJob n.toNat fun j =>
            { j with state := .finishing }).modRestart counted)
          (fun _ => False) (Released j.slots s)))) ∧
  ∀ (l : LaneId) (r : InspectReport) (s : State), Tables s → (s.lane l).Opens → (s.lane l).inspections = [] →
    (s.lane l).clearing = true →
    let stray := fun why =>
      Raises (.atInspect l r) [.strayPlate l r.tag why] s ((usedStep l s).send (.reject l 0))
    (r.tag = .unreadable ∨ (∃ t, r.tag = .read t ∧ ¬ Sound s t) → stray .unreadable) ∧
    ∀ t, r.tag = .read t → Sound s t →
      let here := fun j' => s.job? t.job.toNat = some j' ∧ j'.state = .uncertain ∧ j'.lane = some l
      (∀ j', here j' → j'.attempt ≠ t.attempt.toNat → stray .attemptMismatch) ∧
      ((∀ j', ¬ here j') → stray .notInOrder)

/-- PUNCHED_BENT of a plate that is punched marks it BENT, and PUNCH_FAULT spoils it; either report of any other plate
is an error; the expiry of a running transit timer spoils its plate (R113, R121, R122, R124). Link loss of a lane
drops its pending inspections; its restoration opens it again (R131). By the model's
choice an expiry is taken at whatever value the timer stands (assumption 5), and one of a suspended timer, or of none,
changes nothing (assumption 30). -/
def Obligations.PlatesInLane : Prop :=
  (∀ (l : LaneId) (n : U16) (a : Byte) (s : State), Tables s →
     let x := s.lane l
     let error := fun k => [Notice.laneProtocol (.lane l) k (some (n.toNat, a.toNat))]
     let gone := s.modFloor l fun f => { f with order := without n.toNat f.order }
     (Stands s l n.toNat a.toNat .punching →
       exec (.punchedBent l n a) s = .next (s.modFloor l fun f =>
         { f with order := f.order.map fun y => if y.job = n.toNat then { y with stage := .bent } else y }) ∧
       ∀ j, s.job? n.toNat = some j →
         let f : FaultRecord := ⟨.punchFault, .lane l, s.clock⟩
         RaisesReacting (.punchFault l n a) (spoilNotices n.toNat f j) s gone (fun k => k = n.toNat)
           (Spoiled n.toNat f s)) ∧
     (¬ Stands s l n.toNat a.toNat .punching →
       (¬ Reclaimable s l n.toNat a.toNat → Raises (.punchedBent l n a) (error .punchedBent) s s) ∧
       Raises (.punchFault l n a) (error .punchFault) s s) ∧
     (x.Opens → (∃ y ∈ x.floor.order, y.job = n.toNat ∧ y.stage = .inDeveloper ∧ y.timer ≠ none) →
       ∀ j, s.job? n.toNat = some j →
         let f : FaultRecord := ⟨.transitTimeout, .lane l, s.clock⟩
         RaisesReacting (.transitTimerExpiry l n) (spoilNotices n.toNat f j) s gone (fun k => k = n.toNat)
           (Spoiled n.toNat f s)) ∧
     (¬ x.Opens ∨ (∀ y ∈ x.floor.order, y.job = n.toNat → y.stage = .inDeveloper → y.timer = none) →
       exec (.transitTimerExpiry l n) s = .next s)) ∧
  (∀ (l : LaneId) (s : State), Tables s →
     exec (.laneLinkLoss l) s = .next (s.modLane l fun x => { x with lost := true, inspections := [] }) ∧
     ((s.lane l).inspections = [] →
       RaisesReacting (.laneRestoration l) [] s (s.modLane l fun x => { x with lost := false }) (fun _ => False)
         fun _ => True) ∧
     Goes (.laneRestoration l) s fun t => (t.lane l).lost = false ∧ PortsKept s t)

/-- AT_EXIT (R123) and the grant that follows it at a free sorter (R126, R127, R128): the plate goes to the reject
bin if it is superseded, or to its rack slot, or to the shelf of its press; with no place left the lane is blocked. With
two candidates a free sorter that looks grants the lane of the URGENT job, else the lane that was not served last, else
L0 (R127), and the other lane stays as it is. -/
def Obligations.PlateAtExit : Prop :=
  (∀ (s : State) (l : LaneId) (n : Nat) (j : Job) (d : Destination), Tables s → SorterFree s → Candidate s l n j d →
    (∀ l' n' j' d', l' ≠ l → Candidate s l' n' j' d' → GrantedBefore s l l' j j') →
    let t := sorterLook s
    KeptByReacting s t ∧ PortsKept s t ∧ OthersStay (fun _ => False) s t ∧
    t.sorter.delivery = some ⟨l, n, j.attempt, d⟩ ∧ t.sorter.allowance = false ∧
    t.lineSent = s.lineSent ++ [.deliver l n j.attempt d] ∧ t.lane l = grantedLane (s.lane l) n ∧
    ∀ l' n' j' d', l' ≠ l → Candidate s l' n' j' d' → t.lane l' = s.lane l') ∧
  ∀ (l : LaneId) (n : U16) (a : Byte) (s : State), Tables s →
    let c := Instr.atExit l n a
    let x := s.lane l
    let error := [Notice.laneProtocol (.lane l) .atExit (some (n.toNat, a.toNat))]
    (x.floor.exit ≠ none → Raises c error s s) ∧
    (x.floor.exit = none → ¬ Stands s l n.toNat a.toNat .bent → ¬ Reclaimable s l n.toNat a.toNat →
      Raises c error s s) ∧
    (∀ j, x.floor.exit = none → Stands s l n.toNat a.toNat .bent → s.job? n.toNat = some j →
      RaisesReacting c [] s
        (s.modFloor l fun f => { f with
          order := f.order.map fun y => if y.job = n.toNat then { y with stage := .atExit } else y
          exit := some n.toNat })
        (fun _ => False) fun t =>
          x.Opens → (∀ l', l' ≠ l → (s.lane l').floor.exit = none) → SorterFree s →
          (∀ d, placeFor s j = some d →
            t.sorter.delivery = some ⟨l, n.toNat, j.attempt, d⟩ ∧ t.sorter.allowance = false ∧
            t.lineSent = s.lineSent ++ [.deliver l n.toNat j.attempt d] ∧
            t.lane l = grantedLane { x with floor := { x.floor with exit := some n.toNat } } n.toNat) ∧
          (placeFor s j = none → x.floor.blocked = false →
            t.sorter.delivery = none ∧ (t.lane l).floor.blocked = true ∧
            Told (.rackBlocked l n.toNat j.key) s t))

/-- The sorter's reports (R129, R130): a plate that is placed is RACKED, or DISCARDED in the reject bin; a position
whose current job it is becomes satisfied, so that its press's unsatisfied count falls by 1, and a press that is READY
then raises PRESS_READY (R27, R140, R141); a plate that is lost is spoiled; the delivery ends. A report that does not
match the delivery is an error. Link loss and restoration of the sorter (R131): a delivery in progress is lost with
its plate. -/
def Obligations.SorterReported : Prop :=
  (∀ (n : U16) (a : Byte) (s : State), Tables s →
     (∀ d j, s.sorter.delivery = some d → d.job = n.toNat → d.attempt = a.toNat → s.job? n.toNat = some j →
       let racked := fun (place : PlatePlace) (u : State) =>
         RaisesReacting (.sorted n a d.dest)
           (.plateRacked n.toNat j.key place j.superseded ::
             if j.superseded then [.pullRequired n.toNat j.key place] else [])
           s (delivered d (u.modJob n.toNat fun j => { j with state := .racked })) (fun _ => False) fun t =>
             j.superseded = false → ∀ y, s.pos? j.key = some y → y.work.current = some n.toNat →
               y.work.satisfied = false →
               let x := s.press j.press
               let st := if x.state = .running then .running else countedState x.positions (x.unsatisfied - 1)
               t.press j.press = { x with unsatisfied := x.unsatisfied - 1, state := st } ∧
               (x.state ≠ .ready → st = .ready → Told (.pressReady j.press x.edition x.positions) s t)
       (∀ p q, d.dest = .rackSlot p q → racked .rackSlot (s.setRack ⟨p, q⟩ (s.rack ⟨p, q⟩ ++ [n.toNat]))) ∧
       (∀ p, d.dest = .shelf p → racked .shelf (s.setShelf p (s.shelf p ++ [(n.toNat, j.pos)]))) ∧
       (d.dest = .rejectBin →
         RaisesReacting (.sorted n a d.dest) [] s (delivered d s) (fun k => k = n.toNat) (Ended n.toNat s)) ∧
       let f : FaultRecord := ⟨.sortFault, .lane d.lane, s.clock⟩
       RaisesReacting (.sortFault n a) (spoilNotices n.toNat f j) s (delivered d s) (fun k => k = n.toNat)
         (Spoiled n.toNat f s)) ∧
     (∀ dest, (∀ d, s.sorter.delivery = some d → d ≠ ⟨d.lane, n.toNat, a.toNat, dest⟩) →
       Raises (.sorted n a dest) [.laneProtocol .sorter .sorted (some (n.toNat, a.toNat))] s s) ∧
     ((∀ d, s.sorter.delivery = some d → d.job = n.toNat → d.attempt ≠ a.toNat) →
       Raises (.sortFault n a) [.laneProtocol .sorter .sortFault (some (n.toNat, a.toNat))] s s)) ∧
  (∀ s : State, Tables s →
     (s.sorter.delivery = none → exec .sorterLinkLoss s = .next (s.modSorter fun x => { x with lost := true })) ∧
     (∀ d j, s.sorter.delivery = some d → s.job? d.job = some j →
       let f : FaultRecord := ⟨.sortFault, .lane d.lane, s.clock⟩
       RaisesReacting .sorterLinkLoss (spoilNotices d.job f j) s
         (delivered d (s.modSorter fun x => { x with lost := true })) (fun k => k = d.job) (Spoiled d.job f s)) ∧
     RaisesReacting .sorterRestoration [] s (s.modSorter fun x => { x with lost := false }) (fun _ => False)
       fun _ => True)

/-! ### Racks, presses and the schedule (chapter 7) -/

/-- PULL_CONFIRM (R137): the superseded plates of a position leave its slot, and then the shelf, and their jobs
retire, each with JOB_ENDED (R50). -/
def Obligations.PlatesPulled : Prop :=
  ∀ (p : PortId) (tag : Byte) (k : PosKey) (s : State), Free p s → Tables s → (s.port p).rights.room = true →
    let c := Instr.pullConfirm p tag (byteOf k.press.val) (byteOf k.pos.val)
    let gone := (s.rack k ++ ((s.shelf k.press).filter fun x => x.2 = k.pos).map Prod.fst).filter fun n =>
      (s.job? n).any Job.superseded
    (gone = [] → Answers c p tag 13 ⟨.noPlate, []⟩ [] s s) ∧
    (gone ≠ [] → Goes c s fun t =>
      KeptByReacting { s with racks := t.racks, shelves := t.shelves } t ∧
      (∀ k', t.rack k' = if k' = k then (s.rack k).filter fun n => n ∉ gone else s.rack k') ∧
      (∀ q, t.shelf q = if q = k.press then (s.shelf q).filter fun x => x.1 ∉ gone else s.shelf q) ∧
      (∀ n ∈ gone, Ended n s t ∧ ∀ j, s.job? n = some j → Told (.jobEnded n j.key .retired j.lastFault) s t) ∧
      OthersStay (fun n => n ∈ gone) s t ∧
      AnsweredAt p tag 13 ⟨.ok, .count gone.length :: .listLen gone.length :: gone.map .jobNumber⟩ s t) ∧
    ∀ b1 b2 : Byte, 4 ≤ b1.toNat ∨ 64 ≤ b2.toNat →
      Answers (.pullConfirm p tag b1 b2) p tag 13 ⟨.badValue, []⟩ [] s s

/-- MOUNT and UNMOUNT (R138, R139): the RACKED current job's plate leaves its slot or shelf and is the position's
mounted plate; the plate that was mounted before retires. A plate unmounted ends its job. Each job that ends raises
JOB_ENDED (R50). Where the job unmounted was the position's current job, the position names it no longer and its need
is tested (R24, R50, R139). That NO_PLATE of MOUNT carries the state of the current job as an optional field is the
model's choice (assumption 29). -/
def Obligations.PlatesMounted : Prop :=
  ∀ (p : PortId) (tag : Byte) (k : PosKey) (s : State), Free p s → Tables s → (s.port p).rights.plan = true →
    let mount := Instr.mount p tag (byteOf k.press.val) (byteOf k.pos.val)
    let unmount := Instr.unmount p tag (byteOf k.press.val) (byteOf k.pos.val)
    (s.pos? k = none →
      Answers mount p tag 14 ⟨.notFound, []⟩ [] s s ∧ Answers unmount p tag 15 ⟨.notFound, []⟩ [] s s) ∧
    (∀ x, s.pos? k = some x →
      (∀ n j, x.work.current = some n → s.job? n = some j →
        (j.state = .racked → Goes mount s fun t =>
          let u := (s.modJob n fun j => { j with state := .mounted }).modWork k fun w => { w with mounted := some n }
          let retired := fun m => x.work.mounted = some m
          KeptByReacting { u with racks := t.racks, shelves := t.shelves } t ∧
          (∀ k', t.rack k' = if k' = k then (s.rack k).filter fun m => m ≠ n else s.rack k') ∧
          (∀ q, t.shelf q = if q = k.press then (s.shelf q).filter fun x => x.1 ≠ n else s.shelf q) ∧
          (∀ m, retired m → Ended m s t ∧ ∀ i, s.job? m = some i → Told (.jobEnded m i.key .retired i.lastFault) s t) ∧
          OthersStay retired u t ∧ AnsweredAt p tag 14 ⟨.ok, []⟩ s t ∧
          Told (.plateMounted k n x.work.mounted) s t) ∧
        (j.state ≠ .racked →
          Answers mount p tag 14 ⟨.noPlate, [.present true, .enum (jobStateCode j.state)]⟩ [] s s)) ∧
      (x.work.current = none → Answers mount p tag 14 ⟨.noPlate, [.present false]⟩ [] s s) ∧
      (∀ n, x.work.mounted = some n → Goes unmount s fun t =>
        let u := s.modWork k fun w => { w with mounted := none }
        KeptByReacting u t ∧ Ended n s t ∧ OthersStay (fun m => m = n) u t ∧ AnsweredAt p tag 15 ⟨.ok, []⟩ s t ∧
        (∀ i, s.job? n = some i → Told (.jobEnded n i.key .retired i.lastFault) s t) ∧
        Told (.plateUnmounted k n) s t ∧ (Placed s → x.work.current = some n → Renewed k s t ∧ Attended k t)) ∧
      (x.work.mounted = none → Answers unmount p tag 15 ⟨.noPlate, []⟩ [] s s)) ∧
    ∀ b1 b2 : Byte, 4 ≤ b1.toNat ∨ 64 ≤ b2.toNat →
      Answers (.mount p tag b1 b2) p tag 14 ⟨.badValue, []⟩ [] s s ∧
      Answers (.unmount p tag b1 b2) p tag 15 ⟨.badValue, []⟩ [] s s

/-- PRESS_START makes a READY press RUNNING, or a MAKEREADY one by force, and PRESS_STOP gives a RUNNING press the
state of its counts (R141, R142, R143); SET_CLOCK sets the clock, and SET_PRESS_SCHEDULE a press's start and lead
time, with both alarms armed afresh (R145). And what is refused. -/
def Obligations.PressRequests : Prop :=
  (∀ (p : PortId) (tag b f : Byte) (s : State), Free p s → (s.port p).rights.plan = false →
     Answers (.pressStart p tag b f) p tag 16 ⟨.refusedRights, []⟩ [] s s ∧
     Answers (.pressStop p tag b) p tag 17 ⟨.refusedRights, []⟩ [] s s) ∧
  (∀ (p : PortId) (tag : Byte) (pr : PressId) (force : Bool) (s : State), Free p s →
     (s.port p).rights.plan = true →
     let x := s.press pr
     let start := Instr.pressStart p tag (byteOf pr.val) (if force then 1 else 0)
     let stop := Instr.pressStop p tag (byteOf pr.val)
     (x.state = .running → Answers start p tag 16 ⟨.wrongState, []⟩ [] s s ∧
       let st := countedState x.positions x.unsatisfied
       Answers stop p tag 17 ⟨.ok, []⟩
         (.pressStopped pr st :: if st = .ready then [.pressReady pr x.edition x.positions] else [])
         s (s.setPressState pr st)) ∧
     (x.state ≠ .running → Answers stop p tag 17 ⟨.wrongState, []⟩ [] s s) ∧
     (x.state = .idle → Answers start p tag 16 ⟨.notReady, []⟩ [] s s) ∧
     (x.state = .makeready → force = false → Answers start p tag 16 ⟨.notReady, [.count x.unsatisfied]⟩ [] s s) ∧
     (x.state = .ready ∨ (x.state = .makeready ∧ force = true) →
       Answers start p tag 16 ⟨.ok, [.count x.unsatisfied]⟩
         [.pressStarted pr x.edition x.unsatisfied force x.late] s (s.setPressState pr .running)) ∧
     ∀ b f : Byte, 4 ≤ b.toNat →
       Answers (.pressStart p tag b f) p tag 16 ⟨.badValue, []⟩ [] s s ∧
       Answers (.pressStop p tag b) p tag 17 ⟨.badValue, []⟩ [] s s) ∧
  (∀ (p : PortId) (tag : Byte) (s : State), Free p s → Tables s → (s.port p).rights.plan = true →
     (∀ time : U32, Answers (.setClock p tag time) p tag 18 ⟨.ok, []⟩ [.clockSet s.clock time.toNat] s
       (s.setClock time.toNat)) ∧
     (∀ (pr : PressId) (start : Option U32) (lead : U16), lead.toNat ≤ 180 →
       AnswersServing (.setPressSchedule p tag (byteOf pr.val) start lead) p tag 19 ⟨.ok, []⟩
         [.pressScheduled pr (start.map BitVec.toNat) lead.toNat] s
         (s.modPress pr fun x => { x with
           start := start.map BitVec.toNat, lead := lead.toNat, window := false, late := false
           windowArmed := start.isSome, startArmed := start.isSome })) ∧
     ∀ (b : Byte) (start : Option U32) (lead : U16), 4 ≤ b.toNat ∨ 180 < lead.toNat →
       Answers (.setPressSchedule p tag b start lead) p tag 19 ⟨.badValue, []⟩ [] s s)

/-- The alarms of a press (R69, R147, R148): a window alarm that is due sets the window flag and promotes the press's
NORMAL jobs: each is URGENT where it stands, but a parked one leaves its context and returns to its queue (JOB_REQUEUED,
PROMOTED) or, superseded, ends; a start alarm that is due sets the late flag of a press that is not RUNNING; an alarm
that is not due is not taken (assumption 6). -/
def Obligations.AlarmsTaken : Prop :=
  ∀ (p : PressId) (s : State), Tables s →
    let normal := fun n => ∃ j, s.job? n = some j ∧ j.press = p ∧ j.cls = .normal
    (∀ time, WindowDue s p time →
      RaisesReacting (.windowAlarm p) [] s (s.modPress p fun x => { x with windowArmed := false, window := true })
        normal fun t =>
          (Placed s → ∀ n j, s.job? n = some j → j.press = p → j.cls = .normal →
            let u := { j with cls := .urgent }
            let stays := ∃ j', t.job? n = some j' ∧ JobStays u j'
            let returned := Returned n j.attempt j.lastFault u s t
            (j.state ∉ [.queued, .assigned] → stays) ∧
            (j.superseded = true → Ended n s t ∨ stays) ∧
            (j.superseded = false → (stays ∨ returned) ∧
              (∀ e w, (t.engine e).ctx.parked = some w → w.job ≠ n) ∧
              ((∃ e w, (s.engine e).ctx.parked = some w ∧ w.job = n) →
                returned ∧ Told (.jobRequeued n j.attempt .promoted none) s t))) ∧
          Told (.deadlineWindow p time (time - 60 * (s.press p).lead)
            (s.jobs.filter fun e => e.2.press = p && e.2.cls = .normal).length) s t) ∧
    ((∀ time, ¬ WindowDue s p time) → exec (.windowAlarm p) s = .next s) ∧
    (∀ time, StartDue s p time →
      ((s.press p).state = .running →
        exec (.startAlarm p) s = .next (s.modPress p fun x => { x with startArmed := false })) ∧
      ((s.press p).state ≠ .running →
        Raises (.startAlarm p) [.pressLate p (s.press p).state time (s.press p).unsatisfied] s
          (s.modPress p fun x => { x with startArmed := false, late := true }))) ∧
    ((∀ time, ¬ StartDue s p time) → exec (.startAlarm p) s = .next s)

/-- CLOCK_TICK (R145, R146): the clock advances by a second; then WINDOW_ALARM and START_ALARM of each press are taken,
presses in order, as `Obligations.AlarmsTaken` says: each where it is due, and with no effect where it is not. By the
model's choice the LOAD, EXPOSE and reconcile timers that run, and the transit timers of open lanes, hold their
remaining seconds and count down at the tick, before the alarms (R84, R87, R113, R167; assumption 5); that the alarms
are taken inside CLOCK_TICK is the model's reading (assumption 6). -/
def Obligations.ClockTicks : Prop :=
  ∀ s : State, Tables s → ∃ u, SecondLater s u ∧ Tables u ∧
    exec .clockTick s = execAll [.windowAlarm 0, .startAlarm 0, .windowAlarm 1, .startAlarm 1, .windowAlarm 2,
      .startAlarm 2, .windowAlarm 3, .startAlarm 3] u ∧
    ((∀ p time, ¬ WindowDue u p time ∧ ¬ StartDue u p time) → exec .clockTick s = .next u) ∧
    Goes .clockTick s fun t => KeptByReacting { u with presses := t.presses } t ∧ PortsKept u t ∧
      ∀ p,
        (∀ time, WindowDue u p time → (t.press p).windowArmed = false ∧ (t.press p).window = true) ∧
        (∀ time, StartDue u p time → (t.press p).startArmed = false ∧
          ((u.press p).state ≠ .running → (t.press p).late = true)) ∧
        ((∀ time, ¬ WindowDue u p time) → (t.press p).windowArmed = (u.press p).windowArmed ∧
          (t.press p).window = (u.press p).window) ∧
        ((∀ time, ¬ StartDue u p time) → (t.press p).startArmed = (u.press p).startArmed ∧
          (t.press p).late = (u.press p).late) ∧
        (t.press p).start = (u.press p).start ∧ (t.press p).lead = (u.press p).lead ∧
        ((t.press p).state = .running ↔ (u.press p).state = .running)

/-! ### Holding, stepping and stopping the line (chapter 8) -/

/-- HOLD, RELEASE and STEP (R153, R154, R155): what each does to the gates of its unit, and the notice; and what becomes
of the reports that pend at a lane, of which a STEP has the first decided, even where an exit request stands: which of
the two uses the allowance is the model's choice (assumption 46). -/
def Obligations.UnitGates : Prop :=
  ∀ (p : PortId) (tag : Byte) (u : UnitId) (s : State), Free p s → Tables s → (s.port p).rights.room = true →
    let b := byteOf (unitCode u)
    let wrong := fun c kind => Answers c p tag kind ⟨.wrongState, []⟩ [] s s
    (heldGate s u = false →
      Answers (.hold p tag b) p tag 20 ⟨.ok, []⟩ [.unitHeld u] s (setGates u true (stepGate s u) s) ∧
      wrong (.release p tag b) 21 ∧ wrong (.step p tag b) 22) ∧
    (heldGate s u = true →
      wrong (.hold p tag b) 20 ∧ (stepGate s u = true → wrong (.step p tag b) 22) ∧
      ∀ c kind n v, (c = .release p tag b ∧ kind = 21 ∧ n = .unitReleased u (stepGate s u) ∧ v = setGates u false false s) ∨
          (c = .step p tag b ∧ stepGate s u = false ∧ kind = 22 ∧ n = .unitStepped u ∧ v = setGates u true true s) →
        (∀ e, u = .engine e → AnswersServing c p tag kind ⟨.ok, []⟩ [n] s v) ∧
        ((u = .sorter ∨ ∃ l, u = .lane l ∧ (s.lane l).inspections = []) →
          AnswersReacting c p tag kind ⟨.ok, []⟩ [n] s v (fun _ => False) fun _ => True) ∧
        (∀ l, u = .lane l → Goes c s fun t =>
          AnsweredAt p tag kind ⟨.ok, []⟩ s t ∧ Tells [n] s t ∧
          (t.lane l).gates.held = (v.lane l).gates.held ∧
          (s.line.state ≠ .stopping → (s.lane l).lost = false → (s.lane l).gates.stopped = false →
            (t.lane l).inspections =
              if (v.lane l).gates.held then (s.lane l).inspections.drop 1 else []))) ∧
    ∀ b' : Byte, 9 ≤ b'.toNat →
      Answers (.hold p tag b') p tag 20 ⟨.badValue, []⟩ [] s s ∧
      Answers (.release p tag b') p tag 21 ⟨.badValue, []⟩ [] s s ∧
      Answers (.step p tag b') p tag 22 ⟨.badValue, []⟩ [] s s

/-- LINE_STOP (R157, R159, R160): the line stops; every engine's stopped gate is set, and a CUT engine is sent ABORT
for what it exposes; a CUT lane stops at once and a FINISH lane when nothing is left in it; each engine and lane at
rest has its reached mark, and no other; a line with nothing in flight is STOPPED, and keeps no mark (R151). That
ABORT is sent again for a job that an earlier stop has cut (assumption 13), and that LINE_STOPPED carries the time of
the LINE_STOP (assumption 39), is the model's reading. -/
def Obligations.LineStops : Prop :=
  ∀ (p : PortId) (tag : Byte) (s : State), Free p s → (s.port p).rights.room = true →
    let c := Instr.lineStop p tag
    let cuts := fun e : EngineId => s.line.policies[e] = .cut
    let aborts := fun e : EngineId =>
      if cuts e then
        (aborting s (s.engine e).ctx.current ++
          (leaving s (s.engine e).ctx.next).filter fun x => x.command = .abort).map (commandFor e)
      else []
    (s.line.state ≠ .running → Answers c p tag 24 ⟨.wrongState, []⟩ [] s s) ∧
    (s.line.state = .running → Goes c s fun t =>
      KeptByServing { s with engines := t.engines, lanes := t.lanes, line := t.line, lineSent := t.lineSent } t ∧
      t.lineSent = s.lineSent ++ (allEngines.map aborts).flatten ∧
      (∀ e, t.engine e =
        let x := s.engine e
        { x with
          gates := { x.gates with stopped := true }
          ctx := if cuts e then { x.ctx with
              current := x.ctx.current.map fun w => { w with cut := true }
              next := x.ctx.next.map fun w => if w.stage = .exposeSent then { w with cut := true } else w }
            else x.ctx }) ∧
      (∀ l, t.lane l = { s.lane l with gates := { (s.lane l).gates with
        stopped := (s.lane l).gates.stopped || decide ((s.lane l).policy = .cut) || decide (loadOf s l = 0) } }) ∧
      (t.line.policies = s.line.policies ∧ t.line.stopTime = s.clock) ∧
      (AtRest t → t.line.state = .stopped ∧ Told (.lineStopped s.clock) s t ∧
        (∀ e : EngineId, t.line.reachedEngines[e] = false) ∧ ∀ l : LaneId, t.line.reachedLanes[l] = false) ∧
      (¬ AtRest t → t.line.state = .stopping ∧
        (∀ e : EngineId, t.line.reachedEngines[e] = engineRests t e) ∧
        ∀ l : LaneId, t.line.reachedLanes[l] = (t.lane l).gates.stopped) ∧
      AnsweredAt p tag 24 ⟨.ok, []⟩ s t ∧
      Tells [.lineStopping (allEngines.map fun e => s.line.policies[e]) (allLanes.map fun l => (s.lane l).policy)] s t)

/-- LINE_RESUME (R161): the line runs, every stopped gate is clear, and the lanes that are open have decided what
was pending. -/
def Obligations.LineResumes : Prop :=
  ∀ (p : PortId) (tag : Byte) (s : State), Free p s → Tables s → (s.port p).rights.room = true →
    let c := Instr.lineResume p tag
    (s.line.state = .running → Answers c p tag 25 ⟨.wrongState, []⟩ [] s s) ∧
    (s.line.state ≠ .running → Goes c s fun t =>
      t.line = ⟨.running, s.line.policies, Vector.replicate 6 false, Vector.replicate 2 false, s.line.stopTime⟩ ∧
      (∀ e, (t.engine e).gates = { (s.engine e).gates with stopped := false }) ∧
      (∀ l, (t.lane l).gates.stopped = false ∧ (t.lane l).gates.held = (s.lane l).gates.held ∧
        ((s.lane l).lost = false → (s.lane l).gates.held = false → (t.lane l).inspections = [])) ∧
      ((∀ l, (s.lane l).inspections = []) →
        KeptByReacting { s with engines := t.engines, lanes := t.lanes, line := t.line } t ∧
        OthersStay (fun _ => False) s t) ∧
      AnsweredAt p tag 25 ⟨.ok, []⟩ s t ∧ Told (.lineResumed s.line.state) s t)

/-! ### Restart and reconciliation (chapter 9) -/

/-- CLEAR (R168, R171, R172): an accepted CLEAR ends the lane's clearing phase and settles the UNCERTAIN jobs of the
lane; reconciliation is COMPLETE when none is left and no lane is clearing. That the lane's engines are reconsidered for
EXPOSE before the jobs are settled is the model's reading (assumption 22). That the LANE_PROTOCOL of a CLEAR that is
refused names no job is the model's choice (assumption 19). -/
def Obligations.LaneCleared : Prop :=
  ∀ (l : LaneId) (s : State), Tables s →
    let x := s.lane l
    let empty := (∀ y ∈ x.floor.order, y.stage = .granted) ∧ x.inspections = []
    let here := fun n => ∃ j, s.job? n = some j ∧ j.state = .uncertain ∧ j.lane = some l
    let left := (∃ n j, s.job? n = some j ∧ j.state = .uncertain ∧ j.lane ≠ some l) ∨
      ∃ l', l' ≠ l ∧ (s.lane l').clearing = true
    let number := fun b => (s.jobs.filter fun e =>
      e.2.state = .uncertain && decide (e.2.lane = some l) && (e.2.superseded == b)).length
    let r := s.restart
    let counts : ReconcileCounts :=
      ⟨r.counts.uncertain, r.counts.reclaimed, r.counts.requeued + number false, r.counts.discarded + number true⟩
    (x.clearing = false → exec (.clear l) s = .next s) ∧
    (x.clearing = true → ¬ empty → Raises (.clear l) [.laneProtocol (.lane l) .clear none] s s) ∧
    (x.clearing = true → empty → Goes (.clear l) s fun t =>
      KeptByReacting { s.modLane l (fun x => { x with clearing := false }) with restart := t.restart } t ∧
      PortsKept s t ∧ OthersStay here s t ∧
      (∀ n, here n → TakenBy n ⟨.plateNotFound, .lane l, s.clock⟩ s t) ∧ Told (.laneCleared l .complete) s t ∧
      Reconsidered l s t ∧
      (left ∨ r.reconciling = false → t.restart = { r with counts := counts }) ∧
      (¬ left → r.reconciling = true →
        t.restart = { r with counts := counts, reconciling := false, timer := none } ∧
        Told (.reconcileEnded .complete counts) s t))

/-- RECONCILE_END and the expiry of the reconcile timer (R172): every clearing phase ends, its engines reconsidered
for EXPOSE; then every UNCERTAIN job is settled, and RECONCILING ends. By the model's choice the expiry is taken at
whatever value the timer stands (assumption 5), and when the timer does not run it changes nothing (assumption 30). -/
def Obligations.ReconciliationEnds : Prop :=
  ∀ (s : State), Tables s →
    let uncertain := fun n => ∃ j, s.job? n = some j ∧ j.state = .uncertain
    let number := fun b => (s.jobs.filter fun e => e.2.state = .uncertain && (e.2.superseded == b)).length
    let r := s.restart
    let counts : ReconcileCounts :=
      ⟨r.counts.uncertain, r.counts.reclaimed, r.counts.requeued + number false, r.counts.discarded + number true⟩
    let ends := fun (cause : EndCause) (t : State) =>
      KeptByReacting { s with lanes := s.lanes.map fun x => { x with clearing := false }, restart := t.restart } t ∧
      OthersStay uncertain s t ∧
      (∀ n j l, s.job? n = some j → j.state = .uncertain → j.lane = some l →
        TakenBy n ⟨.plateNotFound, .lane l, s.clock⟩ s t) ∧
      (∀ l, (s.lane l).clearing = true → Told (.laneCleared l cause) s t ∧ Reconsidered l s t) ∧
      t.restart = (if r.reconciling then { r with counts := counts, reconciling := false, timer := none }
        else { r with counts := counts }) ∧
      (r.reconciling = true → Told (.reconcileEnded cause counts) s t)
    (∀ (p : PortId) (tag : Byte), Free p s → (s.port p).rights.room = true →
      let c := Instr.reconcileEnd p tag
      (r.reconciling = true ∨ (∃ l, (s.lane l).clearing = true) → Goes c s fun t =>
        ends .requested t ∧ AnsweredAt p tag 26 ⟨.ok, [.count counts.uncertain, .count counts.reclaimed,
          .count counts.requeued, .count counts.discarded]⟩ s t) ∧
      (r.reconciling = false → (∀ l, (s.lane l).clearing = false) →
        Answers c p tag 26 ⟨.wrongState, []⟩ [] s s)) ∧
    (r.timer ≠ none → Goes .reconcileTimerExpiry s fun t => ends .timeout t ∧ PortsKept s t) ∧
    (r.timer = none → exec .reconcileTimerExpiry s = .next s)

/-! ### Rights, masks, limits, queries and notices (chapter 10) -/

/-- SET_RIGHTS gives a port rights unless no port would hold MAINT; SET_NOTICE_MASK sets the port's mask; SET_LIMITS
sets a limit to a value in its range (R181, R183, R184); SET_STOP_POLICY sets a unit's policy, which the sorter has as
FINISH only (R156). Each answer carries the value before and after. That the lane of SET_LIMITS is coded as a unit, 6
or 7, and that SET_STOP_POLICY of the sorter with FINISH is answered (FINISH, FINISH), is the model's choice
(assumption 29). -/
def Obligations.SettingsTaken : Prop :=
  (∀ (p : PortId) (tag : Byte) (s : State), Free p s →
     (∀ m : Byte, Answers (.setNoticeMask p tag m) p tag 29
       ⟨.ok, [.classes (s.port p).mask, .classes (classesOf m)]⟩ [] s (s.setMask p (classesOf m))) ∧
     ((s.port p).rights.maint = true →
       (∀ (q : PortId) (r : Rights),
         let b : Byte := byteOf (r.pages.toNat + 2 * r.plan.toNat + 4 * r.room.toNat + 8 * r.maint.toNat)
         let c := Instr.setRights p tag (byteOf q.val) b
         (r.maint = true ∨ (∃ q', q' ≠ q ∧ (s.port q').rights.maint = true) →
           Answers c p tag 28 ⟨.ok, [.rights (s.port q).rights, .rights r]⟩
             [.rightsChanged q (s.port q).rights r p] s (s.setRights q r)) ∧
         (r.maint = false → (∀ q', q' ≠ q → (s.port q').rights.maint = false) →
           Answers c p tag 28 ⟨.lastMaint, []⟩ [] s s)) ∧
       (∀ b1 b2 : Byte, 3 ≤ b1.toNat ∨ 16 ≤ b2.toNat →
         Answers (.setRights p tag b1 b2) p tag 28 ⟨.badValue, []⟩ [] s s) ∧
       (∀ (x : LimitName) (v : U16) (lane : Option LaneId), (lane ≠ none ↔ x = .transit) →
         let c := Instr.setLimits p tag (byteOf (limitCode x)) v (lane.map fun l => byteOf (6 + l.val))
         let before := limitValue s x (lane.getD 0)
         (inRange x v.toNat = true →
           Answers c p tag 30 ⟨.ok, [.limitValue before, .limitValue v.toNat]⟩
             [.limitSet x lane before v.toNat] s (setLimit x (lane.getD 0) v.toNat s)) ∧
         (inRange x v.toNat = false → Answers c p tag 30 ⟨.badValue, []⟩ [] s s)) ∧
       (∀ (b : Byte) (v : U16) (lane : Option Byte),
         8 ≤ b.toNat ∨ (b = 6 ∧ lane = none) ∨ (b ≠ 6 ∧ lane ≠ none) ∨ (∃ y, lane = some y ∧ y ≠ 6 ∧ y ≠ 7) →
         Answers (.setLimits p tag b v lane) p tag 30 ⟨.badValue, []⟩ [] s s))) ∧
  (∀ (p : PortId) (tag : Byte) (x : StopPolicy) (s : State), Free p s → (s.port p).rights.room = true →
     let f : Byte := if x = .cut then 1 else 0
     let c := fun u => Instr.setStopPolicy p tag (byteOf (unitCode u)) f
     let ok := fun y => (⟨.ok, [.enum (if y = StopPolicy.cut then 1 else 0), .enum f.toNat]⟩ : Answer)
     (∀ e : EngineId, Answers (c (.engine e)) p tag 23 (ok s.line.policies[e]) [] s
       (s.modLine fun y => { y with policies := vmod y.policies e fun _ => x })) ∧
     (∀ l, Answers (c (.lane l)) p tag 23 (ok (s.lane l).policy) [] s
       (s.modLane l fun y => { y with policy := x })) ∧
     (x = .finish → Answers (c .sorter) p tag 23 (ok .finish) [] s s) ∧
     (x = .cut → Answers (c .sorter) p tag 23 ⟨.badValue, []⟩ [] s s) ∧
     ∀ b1 b2 : Byte, 9 ≤ b1.toNat ∨ 2 ≤ b2.toNat →
       Answers (.setStopPolicy p tag b1 b2) p tag 23 ⟨.badValue, []⟩ [] s s)

/-- The queries and SOFT_RESET are answered and change nothing (R163, R185): a query of what is there OK, with every
field that its rule lists, in that order and with the numbers of R187 (QUERY_PAGE R21, QUERY_POSITION R45, QUERY_JOB
R46 and R70, QUERY_ENGINE R97 and R110, QUERY_LANE R134, QUERY_PRESS R150, QUERY_PART R185). A QUEUED job's place in
its ready queue is counted in a state in which no two jobs share an entry order (R56). Where the rules leave the
layout open it is the model's choice: that what stands once for each separation, unit or port has no count byte before
it (assumption 44), the further points that assumption 41 lists, the readings of assumption 29, and the fields that
R187 does not encode, as a raster slot reference or a lane exit that is neither candidate nor blocked (assumption 20).
-/
def Obligations.AskedOnly : Prop :=
  ∀ (p : PortId) (tag : Byte) (s : State), Free p s →
    let answers := fun c kind code fields => Answers c p tag kind ⟨code, fields⟩ [] s s
    ((s.port p).rights.maint = true → answers (.softReset p tag) 27 .ok []) ∧
    (∀ n : U16, (s.page? n.toNat = none → answers (.queryPage p tag n) 31 .notFound []) ∧
      ∀ r, s.page? n.toNat = some r → answers (.queryPage p tag n) 31 .ok (pageAnswered s n.toNat r)) ∧
    (∀ k : PosKey,
      let c := Instr.queryPosition p tag (byteOf k.press.val) (byteOf k.pos.val)
      (s.pos? k = none → tget (s.stage k.press).entries k.pos = none → answers c 32 .notFound []) ∧
      (s.pos? k ≠ none ∨ tget (s.stage k.press).entries k.pos ≠ none → answers c 32 .ok (positionAnswered s k))) ∧
    (∀ n : U16, (n = 0 → answers (.queryJob p tag n) 33 .badValue []) ∧
      (n ≠ 0 → s.job? n.toNat = none → answers (.queryJob p tag n) 33 .notFound []) ∧
      (n ≠ 0 → ∀ j, s.job? n.toNat = some j → (j.state = .queued → Tables s ∧ EntryOrders s) →
        answers (.queryJob p tag n) 33 .ok (jobAnswered s n.toNat j))) ∧
    (∀ e : EngineId, answers (.queryEngine p tag (byteOf e.val)) 34 .ok (engineAnswered s e)) ∧
    (∀ l : LaneId, answers (.queryLane p tag (byteOf (6 + l.val))) 35 .ok (laneAnswered s l)) ∧
    answers (.queryLane p tag 8) 35 .ok (sorterAnswered s) ∧
    (∀ pr : PressId, answers (.queryPress p tag (byteOf pr.val)) 36 .ok (pressAnswered s pr)) ∧
    answers (.queryPart p tag) 37 .ok (partAnswered s) ∧
    ∀ b b' : Byte, (4 ≤ b.toNat ∨ 64 ≤ b'.toNat → answers (.queryPosition p tag b b') 32 .badValue []) ∧
      (6 ≤ b.toNat → answers (.queryEngine p tag b) 34 .badValue []) ∧
      (b.toNat < 6 ∨ 8 < b.toNat → answers (.queryLane p tag b) 35 .badValue []) ∧
      (4 ≤ b.toNat → answers (.queryPress p tag b) 36 .badValue [])

/-- A notice is offered to each port whose mask holds its class (R180): it joins a notice queue that has room while
the overrun flag is clear, and a free transmitter starts (R179); a full queue sets the flag, at the plant time of the
first notice lost. -/
def Obligations.NoticeOffered : Prop :=
  ∀ (n : Notice) (s : State) (q : PortId),
    let x := s.port q
    let t := raise n s
    Same s t ∧ (x.mask.has n.cls = false → t.port q = x) ∧
    (x.mask.has n.cls = true →
      (x.link.noticeCount < 64 → x.link.overrun = none → t.port q =
        { x with link := started { x.link with output := x.link.output ++ [.notice s.clock n] } }) ∧
      (x.link.noticeCount < 64 → x.link.overrun ≠ none → t.port q = x) ∧
      (64 ≤ x.link.noticeCount → t.port q =
        { x with link := { x.link with overrun := some (x.link.overrun.getD s.clock) } }))
end

