-- ==== Sys2Proof/Laws/Data.lean ====
section
/-! SUPPORT. Laws/Data.lean: what lookup finds after a change, an insertion or a removal, and that each of
them keeps a table in order. -/

namespace Sys2Proof.Machine

/-! ### Ranks -/

/-- No two positions share a rank. -/
theorem PosKey.rank_injective : Function.Injective PosKey.rank := by
  rintro ⟨p, q⟩ ⟨p', q'⟩ h
  simp only [PosKey.rank] at h
  have h1 := q.isLt
  have h2 := q'.isLt
  have hp : p.val = p'.val := by omega
  have hq : q.val = q'.val := by omega
  rw [PosKey.mk.injEq]
  exact ⟨Fin.ext hp, Fin.ext hq⟩

/-- Different separations have different numbers. -/
theorem sepNumber_injective : Function.Injective sepNumber := by
  intro a b
  cases a <;> cases b <;> simp [sepNumber]

/-- A separation's number is below 4. -/
theorem sepNumber_lt (x : Separation) : sepNumber x < 4 := by
  cases x <;> simp [sepNumber]

/-- The pairing behind a slot's rank is injective. -/
theorem pair_injective {a b c d : Nat} (h : (a + b) * (a + b) + a = (c + d) * (c + d) + c) :
    a = c ∧ b = d := by
  have hs : a + b = c + d := by
    rcases Nat.lt_trichotomy (a + b) (c + d) with hlt | heq | hgt
    · have : (a + b + 1) * (a + b + 1) ≤ (c + d) * (c + d) := Nat.mul_le_mul hlt hlt
      nlinarith
    · exact heq
    · have : (c + d + 1) * (c + d + 1) ≤ (a + b) * (a + b) := Nat.mul_le_mul hgt hgt
      nlinarith
  rw [hs] at h
  omega

/-- No two raster slots share a rank. -/
theorem SlotKey.rank_injective : Function.Injective SlotKey.rank := by
  rintro ⟨p, v, x⟩ ⟨p', v', x'⟩ h
  simp only [SlotKey.rank] at h
  have h1 := sepNumber_lt x
  have h2 := sepNumber_lt x'
  have hq : (p + v) * (p + v) + p = (p' + v') * (p' + v') + p' := by omega
  have hx : sepNumber x = sepNumber x' := by omega
  obtain ⟨hp, hv⟩ := pair_injective hq
  rw [SlotKey.mk.injEq]
  exact ⟨hp, hv, sepNumber_injective hx⟩

/-- No two positions of a press share a number. -/
theorem pos_val_injective : Function.Injective (Fin.val : Fin 64 → Nat) := fun _ _ h => Fin.ext h

/-! ### Lookup -/

section

variable {κ α : Type} [DecidableEq κ]

/-- A changed table at a key. -/
theorem tget_tmod (t : Table κ α) (k k' : κ) (f : α → α) :
    tget (tmod t k f) k' = if k' = k then (tget t k').map f else tget t k' := by
  induction t with
  | nil => simp [tmod, tget]
  | cons e t ih =>
    obtain ⟨a, v⟩ := e
    simp only [tmod, List.map_cons, tget] at ih ⊢
    by_cases ha : a = k <;> by_cases hk : a = k' <;> simp_all
    have : ¬ k' = k := fun h => hk h.symm
    simp [this]

/-- A table with a key removed, at a key. -/
theorem tget_tdel (t : Table κ α) (k k' : κ) :
    tget (tdel t k) k' = if k' = k then none else tget t k' := by
  induction t with
  | nil => simp [tdel, tget]
  | cons e t ih =>
    obtain ⟨a, v⟩ := e
    simp only [tdel] at ih ⊢
    by_cases ha : a = k
    · subst ha
      rw [List.filter_cons_of_neg (by simp)]
      rw [ih]
      by_cases hk : k' = a <;> simp_all [tget, eq_comm]
    · rw [List.filter_cons_of_pos (by simp [ha])]
      simp only [tget]
      rw [ih]
      by_cases hk : a = k'
      · subst hk; simp [ha]
      · simp [hk]

/-- A table with a key set, at a key. -/
theorem tget_tput {rank : κ → Nat} (hr : Function.Injective rank) (t : Table κ α) (k k' : κ) (v : α) :
    tget (tput rank t k v) k' = if k' = k then some v else tget t k' := by
  induction t with
  | nil => by_cases h : k = k' <;> simp [tput, tget, h, eq_comm]
  | cons e t ih =>
    obtain ⟨a, w⟩ := e
    simp only [tput]
    split
    · by_cases h : k = k' <;> simp [tget, h, eq_comm]
    · split
      · rename_i h1 h2
        have := hr h2
        subst this
        by_cases h : k = k' <;> simp [tget, h, eq_comm]
      · rename_i h1 h2
        simp only [tget]
        rw [ih]
        by_cases hk : a = k'
        · subst hk
          have : ¬ a = k := fun h => h2 (by rw [h])
          simp [this]
        · simp [hk]

/-- A changed table has the same keys. -/
theorem keys_tmod (t : Table κ α) (k : κ) (f : α → α) : (tmod t k f).map Prod.fst = t.map Prod.fst := by
  induction t with
  | nil => rfl
  | cons e t ih =>
    simp only [tmod, List.map_cons] at ih ⊢
    rw [ih]
    split <;> rfl

/-- A changed table has the same length. -/
theorem length_tmod (t : Table κ α) (k : κ) (f : α → α) : (tmod t k f).length = t.length := by
  simp [tmod]

/-- Removing a key does not lengthen a table. -/
theorem length_tdel_le (t : Table κ α) (k : κ) : (tdel t k).length ≤ t.length := List.length_filter_le _ _

omit [DecidableEq κ] in
/-- Setting a key lengthens a table by at most one. -/
theorem length_tput_le (rank : κ → Nat) (t : Table κ α) (k : κ) (v : α) :
    (tput rank t k v).length ≤ t.length + 1 := by
  induction t with
  | nil => simp [tput]
  | cons e t ih =>
    simp only [tput]
    split
    · simp
    · split
      · simp
      · simp only [List.length_cons]; omega

/-- An entry found is in the table. -/
theorem mem_of_tget {t : Table κ α} {k : κ} {v : α} (h : tget t k = some v) : (k, v) ∈ t := by
  induction t with
  | nil => simp [tget] at h
  | cons e t ih =>
    obtain ⟨a, w⟩ := e
    simp only [tget] at h
    by_cases ha : a = k
    · subst ha
      simp at h
      simp [h]
    · simp [ha] at h
      exact List.mem_cons_of_mem _ (ih h)

end

/-! ### Order -/

section

variable {κ α : Type} [DecidableEq κ] {rank : κ → Nat}

omit [DecidableEq κ] in
/-- Order is a matter of the keys. -/
theorem ordered_iff (t : Table κ α) :
    Table.ordered rank t ↔ (t.map Prod.fst).Pairwise fun a b => rank a < rank b := by
  simp [Table.ordered, List.pairwise_map]

omit [DecidableEq κ] in
/-- An empty table is in order. -/
theorem ordered_nil : Table.ordered rank ([] : Table κ α) := List.Pairwise.nil

/-- A change keeps a table in order. -/
theorem ordered_tmod {t : Table κ α} (k : κ) (f : α → α) (h : Table.ordered rank t) :
    Table.ordered rank (tmod t k f) := by
  rw [ordered_iff, keys_tmod, ← ordered_iff]
  exact h

/-- A removal keeps a table in order. -/
theorem ordered_tdel {t : Table κ α} (k : κ) (h : Table.ordered rank t) : Table.ordered rank (tdel t k) :=
  List.Pairwise.filter _ h

omit [DecidableEq κ] in
/-- An insertion puts in nothing but the entry. -/
theorem mem_tput {t : Table κ α} {k : κ} {v : α} {e : κ × α} (h : e ∈ tput rank t k v) :
    e = (k, v) ∨ e ∈ t := by
  induction t with
  | nil => simpa [tput] using h
  | cons a t ih =>
    simp only [tput] at h
    split at h
    · simpa using h
    · split at h
      · rcases List.mem_cons.mp h with h | h
        · exact Or.inl h
        · exact Or.inr (List.mem_cons_of_mem _ h)
      · rcases List.mem_cons.mp h with h | h
        · exact Or.inr (by simp [h])
        · rcases ih h with h | h
          · exact Or.inl h
          · exact Or.inr (List.mem_cons_of_mem _ h)

omit [DecidableEq κ] in
/-- An insertion keeps a table in order. -/
theorem ordered_tput {t : Table κ α} (k : κ) (v : α) (h : Table.ordered rank t) :
    Table.ordered rank (tput rank t k v) := by
  induction t with
  | nil => simp [tput, Table.ordered]
  | cons e t ih =>
    obtain ⟨a, w⟩ := e
    have ht : Table.ordered rank t := (List.pairwise_cons.mp h).2
    have ha := (List.pairwise_cons.mp h).1
    simp only [tput]
    split
    · rename_i hlt
      refine List.pairwise_cons.mpr ⟨?_, h⟩
      intro b hb
      rcases List.mem_cons.mp hb with hb | hb
      · subst hb; exact hlt
      · exact Nat.lt_trans hlt (ha b hb)
    · split
      · rename_i h1 h2
        refine List.pairwise_cons.mpr ⟨?_, ht⟩
        intro b hb
        have hb' := ha b hb
        simp only at hb' ⊢
        omega
      · rename_i h1 h2
        refine List.pairwise_cons.mpr ⟨?_, ih ht⟩
        intro b hb
        rcases mem_tput hb with hb | hb
        · subst hb; simp only; omega
        · exact ha b hb

/-- In a table in order, an entry of the list is the one that lookup finds. -/
theorem tget_of_mem {t : Table κ α} (h : Table.ordered rank t) {k : κ} {v : α} (hm : (k, v) ∈ t) :
    tget t k = some v := by
  induction t with
  | nil => simp at hm
  | cons e t ih =>
    obtain ⟨a, w⟩ := e
    have ha := (List.pairwise_cons.mp h).1
    simp only [tget]
    rcases List.mem_cons.mp hm with hm | hm
    · cases hm; simp
    · have hlt := ha _ hm
      have : ¬ a = k := by
        intro hk
        subst hk
        simp at hlt
      simp [this, ih (List.pairwise_cons.mp h).2 hm]

/-- Setting a key that a table in order holds keeps its length. -/
theorem length_tput_of_has {t : Table κ α} {k : κ} {v w : α} (h : Table.ordered rank t)
    (hk : tget t k = some w) : (tput rank t k v).length = t.length := by
  induction t with
  | nil => simp [tget] at hk
  | cons e t ih =>
    obtain ⟨a, x⟩ := e
    have ha := (List.pairwise_cons.mp h).1
    simp only [tget] at hk
    simp only [tput]
    by_cases hak : a = k
    · subst hak; simp
    · simp only [hak, if_false] at hk
      have hlt := ha _ (mem_of_tget hk)
      simp only at hlt
      rw [if_neg (by omega), if_neg (by omega)]
      simp only [List.length_cons, ih (List.pairwise_cons.mp h).2 hk]

end

/-! ### Vectors -/

/-- A changed vector at a place. -/
@[simp] theorem vmod_get {α : Type} {n : Nat} (v : Vector α n) (i j : Fin n) (f : α → α) :
    (vmod v i f)[j] = if j = i then f v[j] else v[j] := by
  by_cases h : j = i
  · subst h; simp [vmod]
  · have : ¬ i.val = j.val := fun hv => h (Fin.ext hv.symm)
    simp [vmod, h, this]

/-- A changed vector at a place named by its number. -/
@[simp] theorem vmod_get_val {α : Type} {n : Nat} (v : Vector α n) (i : Fin n) (j : Nat) (hj : j < n)
    (f : α → α) : (vmod v i f)[j] = if j = i.val then f v[j] else v[j] := by
  have := vmod_get v i ⟨j, hj⟩ f
  simpa [Fin.ext_iff] using this

/-- Two changes at one place are one. -/
theorem vmod_vmod {α : Type} {n : Nat} (v : Vector α n) (i : Fin n) (f g : α → α) :
    vmod (vmod v i f) i g = vmod v i fun x => g (f x) := by
  apply Vector.ext
  intro j hj
  rw [vmod_get_val, vmod_get_val, vmod_get_val]
  split <;> simp_all

/-- A change that gives back what stood there changes nothing. -/
theorem vmod_same {α : Type} {n : Nat} (v : Vector α n) (i : Fin n) (f : α → α) (h : f v[i] = v[i]) :
    vmod v i f = v := by
  apply Vector.ext
  intro j hj
  rw [vmod_get_val]
  split
  · rename_i hji
    subst hji
    exact h
  · rfl

end Sys2Proof.Machine
end

