-- ==== Sys2Proof/Laws/State.lean ====
section
/-! SUPPORT. Laws/State.lean: each field of the state after each named write of Machine/Ops.lean, one lemma
for each, all by definition. -/

namespace Sys2Proof.Machine.State

/-! ### modLink -/

section

variable (p : PortId) (f : Link → Link) (s : State)

@[simp] theorem clock_modLink : (s.modLink p f).clock = s.clock := rfl
@[simp] theorem pages_modLink : (s.modLink p f).pages = s.pages := rfl
@[simp] theorem slots_modLink : (s.modLink p f).slots = s.slots := rfl
@[simp] theorem plan_modLink : (s.modLink p f).plan = s.plan := rfl
@[simp] theorem stages_modLink : (s.modLink p f).stages = s.stages := rfl
@[simp] theorem jobs_modLink : (s.modLink p f).jobs = s.jobs := rfl
@[simp] theorem lastJob_modLink : (s.modLink p f).lastJob = s.lastJob := rfl
@[simp] theorem entryCount_modLink : (s.modLink p f).entryCount = s.entryCount := rfl
@[simp] theorem racks_modLink : (s.modLink p f).racks = s.racks := rfl
@[simp] theorem shelves_modLink : (s.modLink p f).shelves = s.shelves := rfl
@[simp] theorem presses_modLink : (s.modLink p f).presses = s.presses := rfl
@[simp] theorem engines_modLink : (s.modLink p f).engines = s.engines := rfl
@[simp] theorem registers_modLink : (s.modLink p f).registers = s.registers := rfl
@[simp] theorem starved_modLink : (s.modLink p f).starved = s.starved := rfl
@[simp] theorem lanes_modLink : (s.modLink p f).lanes = s.lanes := rfl
@[simp] theorem sorter_modLink : (s.modLink p f).sorter = s.sorter := rfl
@[simp] theorem line_modLink : (s.modLink p f).line = s.line := rfl
@[simp] theorem limits_modLink : (s.modLink p f).limits = s.limits := rfl
@[simp] theorem restart_modLink : (s.modLink p f).restart = s.restart := rfl
@[simp] theorem softResetDue_modLink : (s.modLink p f).softResetDue = s.softResetDue := rfl
@[simp] theorem ports_modLink : (s.modLink p f).ports = vmod s.ports p fun x => { x with link := f x.link } := rfl
@[simp] theorem lineSent_modLink : (s.modLink p f).lineSent = s.lineSent := rfl
@[simp] theorem deskSent_modLink : (s.modLink p f).deskSent = s.deskSent := rfl
@[simp] theorem pending_modLink : (s.modLink p f).pending = s.pending := rfl

end

/-! ### send -/

section

variable (c : LineCommand) (s : State)

@[simp] theorem clock_send : (s.send c).clock = s.clock := rfl
@[simp] theorem pages_send : (s.send c).pages = s.pages := rfl
@[simp] theorem slots_send : (s.send c).slots = s.slots := rfl
@[simp] theorem plan_send : (s.send c).plan = s.plan := rfl
@[simp] theorem stages_send : (s.send c).stages = s.stages := rfl
@[simp] theorem jobs_send : (s.send c).jobs = s.jobs := rfl
@[simp] theorem lastJob_send : (s.send c).lastJob = s.lastJob := rfl
@[simp] theorem entryCount_send : (s.send c).entryCount = s.entryCount := rfl
@[simp] theorem racks_send : (s.send c).racks = s.racks := rfl
@[simp] theorem shelves_send : (s.send c).shelves = s.shelves := rfl
@[simp] theorem presses_send : (s.send c).presses = s.presses := rfl
@[simp] theorem engines_send : (s.send c).engines = s.engines := rfl
@[simp] theorem registers_send : (s.send c).registers = s.registers := rfl
@[simp] theorem starved_send : (s.send c).starved = s.starved := rfl
@[simp] theorem lanes_send : (s.send c).lanes = s.lanes := rfl
@[simp] theorem sorter_send : (s.send c).sorter = s.sorter := rfl
@[simp] theorem line_send : (s.send c).line = s.line := rfl
@[simp] theorem limits_send : (s.send c).limits = s.limits := rfl
@[simp] theorem restart_send : (s.send c).restart = s.restart := rfl
@[simp] theorem softResetDue_send : (s.send c).softResetDue = s.softResetDue := rfl
@[simp] theorem ports_send : (s.send c).ports = s.ports := rfl
@[simp] theorem lineSent_send : (s.send c).lineSent = s.lineSent ++ [c] := rfl
@[simp] theorem deskSent_send : (s.send c).deskSent = s.deskSent := rfl
@[simp] theorem pending_send : (s.send c).pending = s.pending := rfl

end

/-! ### modCtx -/

section

variable (e : EngineId) (f : Contexts → Contexts) (s : State)

@[simp] theorem clock_modCtx : (s.modCtx e f).clock = s.clock := rfl
@[simp] theorem pages_modCtx : (s.modCtx e f).pages = s.pages := rfl
@[simp] theorem slots_modCtx : (s.modCtx e f).slots = s.slots := rfl
@[simp] theorem plan_modCtx : (s.modCtx e f).plan = s.plan := rfl
@[simp] theorem stages_modCtx : (s.modCtx e f).stages = s.stages := rfl
@[simp] theorem jobs_modCtx : (s.modCtx e f).jobs = s.jobs := rfl
@[simp] theorem lastJob_modCtx : (s.modCtx e f).lastJob = s.lastJob := rfl
@[simp] theorem entryCount_modCtx : (s.modCtx e f).entryCount = s.entryCount := rfl
@[simp] theorem racks_modCtx : (s.modCtx e f).racks = s.racks := rfl
@[simp] theorem shelves_modCtx : (s.modCtx e f).shelves = s.shelves := rfl
@[simp] theorem presses_modCtx : (s.modCtx e f).presses = s.presses := rfl
@[simp] theorem engines_modCtx : (s.modCtx e f).engines = vmod s.engines e fun x => { x with ctx := f x.ctx } := rfl
@[simp] theorem registers_modCtx : (s.modCtx e f).registers = s.registers := rfl
@[simp] theorem starved_modCtx : (s.modCtx e f).starved = s.starved := rfl
@[simp] theorem lanes_modCtx : (s.modCtx e f).lanes = s.lanes := rfl
@[simp] theorem sorter_modCtx : (s.modCtx e f).sorter = s.sorter := rfl
@[simp] theorem line_modCtx : (s.modCtx e f).line = s.line := rfl
@[simp] theorem limits_modCtx : (s.modCtx e f).limits = s.limits := rfl
@[simp] theorem restart_modCtx : (s.modCtx e f).restart = s.restart := rfl
@[simp] theorem softResetDue_modCtx : (s.modCtx e f).softResetDue = s.softResetDue := rfl
@[simp] theorem ports_modCtx : (s.modCtx e f).ports = s.ports := rfl
@[simp] theorem lineSent_modCtx : (s.modCtx e f).lineSent = s.lineSent := rfl
@[simp] theorem deskSent_modCtx : (s.modCtx e f).deskSent = s.deskSent := rfl
@[simp] theorem pending_modCtx : (s.modCtx e f).pending = s.pending := rfl

end

/-! ### setStarved -/

section

variable (b : Bool) (s : State)

@[simp] theorem clock_setStarved : (s.setStarved b).clock = s.clock := rfl
@[simp] theorem pages_setStarved : (s.setStarved b).pages = s.pages := rfl
@[simp] theorem slots_setStarved : (s.setStarved b).slots = s.slots := rfl
@[simp] theorem plan_setStarved : (s.setStarved b).plan = s.plan := rfl
@[simp] theorem stages_setStarved : (s.setStarved b).stages = s.stages := rfl
@[simp] theorem jobs_setStarved : (s.setStarved b).jobs = s.jobs := rfl
@[simp] theorem lastJob_setStarved : (s.setStarved b).lastJob = s.lastJob := rfl
@[simp] theorem entryCount_setStarved : (s.setStarved b).entryCount = s.entryCount := rfl
@[simp] theorem racks_setStarved : (s.setStarved b).racks = s.racks := rfl
@[simp] theorem shelves_setStarved : (s.setStarved b).shelves = s.shelves := rfl
@[simp] theorem presses_setStarved : (s.setStarved b).presses = s.presses := rfl
@[simp] theorem engines_setStarved : (s.setStarved b).engines = s.engines := rfl
@[simp] theorem registers_setStarved : (s.setStarved b).registers = s.registers := rfl
@[simp] theorem starved_setStarved : (s.setStarved b).starved = b := rfl
@[simp] theorem lanes_setStarved : (s.setStarved b).lanes = s.lanes := rfl
@[simp] theorem sorter_setStarved : (s.setStarved b).sorter = s.sorter := rfl
@[simp] theorem line_setStarved : (s.setStarved b).line = s.line := rfl
@[simp] theorem limits_setStarved : (s.setStarved b).limits = s.limits := rfl
@[simp] theorem restart_setStarved : (s.setStarved b).restart = s.restart := rfl
@[simp] theorem softResetDue_setStarved : (s.setStarved b).softResetDue = s.softResetDue := rfl
@[simp] theorem ports_setStarved : (s.setStarved b).ports = s.ports := rfl
@[simp] theorem lineSent_setStarved : (s.setStarved b).lineSent = s.lineSent := rfl
@[simp] theorem deskSent_setStarved : (s.setStarved b).deskSent = s.deskSent := rfl
@[simp] theorem pending_setStarved : (s.setStarved b).pending = s.pending := rfl

end

/-! ### modJob -/

section

variable (n : Nat) (f : Job → Job) (s : State)

@[simp] theorem clock_modJob : (s.modJob n f).clock = s.clock := rfl
@[simp] theorem pages_modJob : (s.modJob n f).pages = s.pages := rfl
@[simp] theorem slots_modJob : (s.modJob n f).slots = s.slots := rfl
@[simp] theorem plan_modJob : (s.modJob n f).plan = s.plan := rfl
@[simp] theorem stages_modJob : (s.modJob n f).stages = s.stages := rfl
@[simp] theorem jobs_modJob : (s.modJob n f).jobs = tmod s.jobs n f := rfl
@[simp] theorem lastJob_modJob : (s.modJob n f).lastJob = s.lastJob := rfl
@[simp] theorem entryCount_modJob : (s.modJob n f).entryCount = s.entryCount := rfl
@[simp] theorem racks_modJob : (s.modJob n f).racks = s.racks := rfl
@[simp] theorem shelves_modJob : (s.modJob n f).shelves = s.shelves := rfl
@[simp] theorem presses_modJob : (s.modJob n f).presses = s.presses := rfl
@[simp] theorem engines_modJob : (s.modJob n f).engines = s.engines := rfl
@[simp] theorem registers_modJob : (s.modJob n f).registers = s.registers := rfl
@[simp] theorem starved_modJob : (s.modJob n f).starved = s.starved := rfl
@[simp] theorem lanes_modJob : (s.modJob n f).lanes = s.lanes := rfl
@[simp] theorem sorter_modJob : (s.modJob n f).sorter = s.sorter := rfl
@[simp] theorem line_modJob : (s.modJob n f).line = s.line := rfl
@[simp] theorem limits_modJob : (s.modJob n f).limits = s.limits := rfl
@[simp] theorem restart_modJob : (s.modJob n f).restart = s.restart := rfl
@[simp] theorem softResetDue_modJob : (s.modJob n f).softResetDue = s.softResetDue := rfl
@[simp] theorem ports_modJob : (s.modJob n f).ports = s.ports := rfl
@[simp] theorem lineSent_modJob : (s.modJob n f).lineSent = s.lineSent := rfl
@[simp] theorem deskSent_modJob : (s.modJob n f).deskSent = s.deskSent := rfl
@[simp] theorem pending_modJob : (s.modJob n f).pending = s.pending := rfl

end

/-! ### addJob -/

section

variable (n : Nat) (j : Job) (s : State)

@[simp] theorem clock_addJob : (s.addJob n j).clock = s.clock := rfl
@[simp] theorem pages_addJob : (s.addJob n j).pages = s.pages := rfl
@[simp] theorem slots_addJob : (s.addJob n j).slots = s.slots := rfl
@[simp] theorem plan_addJob : (s.addJob n j).plan = s.plan := rfl
@[simp] theorem stages_addJob : (s.addJob n j).stages = s.stages := rfl
@[simp] theorem jobs_addJob : (s.addJob n j).jobs = tput id s.jobs n j := rfl
@[simp] theorem lastJob_addJob : (s.addJob n j).lastJob = n := rfl
@[simp] theorem entryCount_addJob : (s.addJob n j).entryCount = s.entryCount := rfl
@[simp] theorem racks_addJob : (s.addJob n j).racks = s.racks := rfl
@[simp] theorem shelves_addJob : (s.addJob n j).shelves = s.shelves := rfl
@[simp] theorem presses_addJob : (s.addJob n j).presses = s.presses := rfl
@[simp] theorem engines_addJob : (s.addJob n j).engines = s.engines := rfl
@[simp] theorem registers_addJob : (s.addJob n j).registers = s.registers := rfl
@[simp] theorem starved_addJob : (s.addJob n j).starved = s.starved := rfl
@[simp] theorem lanes_addJob : (s.addJob n j).lanes = s.lanes := rfl
@[simp] theorem sorter_addJob : (s.addJob n j).sorter = s.sorter := rfl
@[simp] theorem line_addJob : (s.addJob n j).line = s.line := rfl
@[simp] theorem limits_addJob : (s.addJob n j).limits = s.limits := rfl
@[simp] theorem restart_addJob : (s.addJob n j).restart = s.restart := rfl
@[simp] theorem softResetDue_addJob : (s.addJob n j).softResetDue = s.softResetDue := rfl
@[simp] theorem ports_addJob : (s.addJob n j).ports = s.ports := rfl
@[simp] theorem lineSent_addJob : (s.addJob n j).lineSent = s.lineSent := rfl
@[simp] theorem deskSent_addJob : (s.addJob n j).deskSent = s.deskSent := rfl
@[simp] theorem pending_addJob : (s.addJob n j).pending = s.pending := rfl

end

/-! ### dropJob -/

section

variable (n : Nat) (s : State)

@[simp] theorem clock_dropJob : (s.dropJob n).clock = s.clock := rfl
@[simp] theorem pages_dropJob : (s.dropJob n).pages = s.pages := rfl
@[simp] theorem slots_dropJob : (s.dropJob n).slots = s.slots := rfl
@[simp] theorem plan_dropJob : (s.dropJob n).plan = s.plan := rfl
@[simp] theorem stages_dropJob : (s.dropJob n).stages = s.stages := rfl
@[simp] theorem jobs_dropJob : (s.dropJob n).jobs = tdel s.jobs n := rfl
@[simp] theorem lastJob_dropJob : (s.dropJob n).lastJob = s.lastJob := rfl
@[simp] theorem entryCount_dropJob : (s.dropJob n).entryCount = s.entryCount := rfl
@[simp] theorem racks_dropJob : (s.dropJob n).racks = s.racks := rfl
@[simp] theorem shelves_dropJob : (s.dropJob n).shelves = s.shelves := rfl
@[simp] theorem presses_dropJob : (s.dropJob n).presses = s.presses := rfl
@[simp] theorem engines_dropJob : (s.dropJob n).engines = s.engines := rfl
@[simp] theorem registers_dropJob : (s.dropJob n).registers = s.registers := rfl
@[simp] theorem starved_dropJob : (s.dropJob n).starved = s.starved := rfl
@[simp] theorem lanes_dropJob : (s.dropJob n).lanes = s.lanes := rfl
@[simp] theorem sorter_dropJob : (s.dropJob n).sorter = s.sorter := rfl
@[simp] theorem line_dropJob : (s.dropJob n).line = s.line := rfl
@[simp] theorem limits_dropJob : (s.dropJob n).limits = s.limits := rfl
@[simp] theorem restart_dropJob : (s.dropJob n).restart = s.restart := rfl
@[simp] theorem softResetDue_dropJob : (s.dropJob n).softResetDue = s.softResetDue := rfl
@[simp] theorem ports_dropJob : (s.dropJob n).ports = s.ports := rfl
@[simp] theorem lineSent_dropJob : (s.dropJob n).lineSent = s.lineSent := rfl
@[simp] theorem deskSent_dropJob : (s.dropJob n).deskSent = s.deskSent := rfl
@[simp] theorem pending_dropJob : (s.dropJob n).pending = s.pending := rfl

end

/-! ### bumpEntry -/

section

variable (s : State)

@[simp] theorem clock_bumpEntry : (s.bumpEntry).clock = s.clock := rfl
@[simp] theorem pages_bumpEntry : (s.bumpEntry).pages = s.pages := rfl
@[simp] theorem slots_bumpEntry : (s.bumpEntry).slots = s.slots := rfl
@[simp] theorem plan_bumpEntry : (s.bumpEntry).plan = s.plan := rfl
@[simp] theorem stages_bumpEntry : (s.bumpEntry).stages = s.stages := rfl
@[simp] theorem jobs_bumpEntry : (s.bumpEntry).jobs = s.jobs := rfl
@[simp] theorem lastJob_bumpEntry : (s.bumpEntry).lastJob = s.lastJob := rfl
@[simp] theorem entryCount_bumpEntry : (s.bumpEntry).entryCount = s.entryCount + 1 := rfl
@[simp] theorem racks_bumpEntry : (s.bumpEntry).racks = s.racks := rfl
@[simp] theorem shelves_bumpEntry : (s.bumpEntry).shelves = s.shelves := rfl
@[simp] theorem presses_bumpEntry : (s.bumpEntry).presses = s.presses := rfl
@[simp] theorem engines_bumpEntry : (s.bumpEntry).engines = s.engines := rfl
@[simp] theorem registers_bumpEntry : (s.bumpEntry).registers = s.registers := rfl
@[simp] theorem starved_bumpEntry : (s.bumpEntry).starved = s.starved := rfl
@[simp] theorem lanes_bumpEntry : (s.bumpEntry).lanes = s.lanes := rfl
@[simp] theorem sorter_bumpEntry : (s.bumpEntry).sorter = s.sorter := rfl
@[simp] theorem line_bumpEntry : (s.bumpEntry).line = s.line := rfl
@[simp] theorem limits_bumpEntry : (s.bumpEntry).limits = s.limits := rfl
@[simp] theorem restart_bumpEntry : (s.bumpEntry).restart = s.restart := rfl
@[simp] theorem softResetDue_bumpEntry : (s.bumpEntry).softResetDue = s.softResetDue := rfl
@[simp] theorem ports_bumpEntry : (s.bumpEntry).ports = s.ports := rfl
@[simp] theorem lineSent_bumpEntry : (s.bumpEntry).lineSent = s.lineSent := rfl
@[simp] theorem deskSent_bumpEntry : (s.bumpEntry).deskSent = s.deskSent := rfl
@[simp] theorem pending_bumpEntry : (s.bumpEntry).pending = s.pending := rfl

end

/-! ### modWork -/

section

variable (k : PosKey) (f : PosWork → PosWork) (s : State)

@[simp] theorem clock_modWork : (s.modWork k f).clock = s.clock := rfl
@[simp] theorem pages_modWork : (s.modWork k f).pages = s.pages := rfl
@[simp] theorem slots_modWork : (s.modWork k f).slots = s.slots := rfl
@[simp] theorem plan_modWork : (s.modWork k f).plan = tmod s.plan k fun x => { x with work := f x.work } := rfl
@[simp] theorem stages_modWork : (s.modWork k f).stages = s.stages := rfl
@[simp] theorem jobs_modWork : (s.modWork k f).jobs = s.jobs := rfl
@[simp] theorem lastJob_modWork : (s.modWork k f).lastJob = s.lastJob := rfl
@[simp] theorem entryCount_modWork : (s.modWork k f).entryCount = s.entryCount := rfl
@[simp] theorem racks_modWork : (s.modWork k f).racks = s.racks := rfl
@[simp] theorem shelves_modWork : (s.modWork k f).shelves = s.shelves := rfl
@[simp] theorem presses_modWork : (s.modWork k f).presses = s.presses := rfl
@[simp] theorem engines_modWork : (s.modWork k f).engines = s.engines := rfl
@[simp] theorem registers_modWork : (s.modWork k f).registers = s.registers := rfl
@[simp] theorem starved_modWork : (s.modWork k f).starved = s.starved := rfl
@[simp] theorem lanes_modWork : (s.modWork k f).lanes = s.lanes := rfl
@[simp] theorem sorter_modWork : (s.modWork k f).sorter = s.sorter := rfl
@[simp] theorem line_modWork : (s.modWork k f).line = s.line := rfl
@[simp] theorem limits_modWork : (s.modWork k f).limits = s.limits := rfl
@[simp] theorem restart_modWork : (s.modWork k f).restart = s.restart := rfl
@[simp] theorem softResetDue_modWork : (s.modWork k f).softResetDue = s.softResetDue := rfl
@[simp] theorem ports_modWork : (s.modWork k f).ports = s.ports := rfl
@[simp] theorem lineSent_modWork : (s.modWork k f).lineSent = s.lineSent := rfl
@[simp] theorem deskSent_modWork : (s.modWork k f).deskSent = s.deskSent := rfl
@[simp] theorem pending_modWork : (s.modWork k f).pending = s.pending := rfl

end

/-! ### modLive -/

section

variable (n : Nat) (f : Nat → Nat) (s : State)

@[simp] theorem clock_modLive : (s.modLive n f).clock = s.clock := rfl
@[simp] theorem pages_modLive : (s.modLive n f).pages = tmod s.pages n fun x => { x with liveJobs := f x.liveJobs } := rfl
@[simp] theorem slots_modLive : (s.modLive n f).slots = s.slots := rfl
@[simp] theorem plan_modLive : (s.modLive n f).plan = s.plan := rfl
@[simp] theorem stages_modLive : (s.modLive n f).stages = s.stages := rfl
@[simp] theorem jobs_modLive : (s.modLive n f).jobs = s.jobs := rfl
@[simp] theorem lastJob_modLive : (s.modLive n f).lastJob = s.lastJob := rfl
@[simp] theorem entryCount_modLive : (s.modLive n f).entryCount = s.entryCount := rfl
@[simp] theorem racks_modLive : (s.modLive n f).racks = s.racks := rfl
@[simp] theorem shelves_modLive : (s.modLive n f).shelves = s.shelves := rfl
@[simp] theorem presses_modLive : (s.modLive n f).presses = s.presses := rfl
@[simp] theorem engines_modLive : (s.modLive n f).engines = s.engines := rfl
@[simp] theorem registers_modLive : (s.modLive n f).registers = s.registers := rfl
@[simp] theorem starved_modLive : (s.modLive n f).starved = s.starved := rfl
@[simp] theorem lanes_modLive : (s.modLive n f).lanes = s.lanes := rfl
@[simp] theorem sorter_modLive : (s.modLive n f).sorter = s.sorter := rfl
@[simp] theorem line_modLive : (s.modLive n f).line = s.line := rfl
@[simp] theorem limits_modLive : (s.modLive n f).limits = s.limits := rfl
@[simp] theorem restart_modLive : (s.modLive n f).restart = s.restart := rfl
@[simp] theorem softResetDue_modLive : (s.modLive n f).softResetDue = s.softResetDue := rfl
@[simp] theorem ports_modLive : (s.modLive n f).ports = s.ports := rfl
@[simp] theorem lineSent_modLive : (s.modLive n f).lineSent = s.lineSent := rfl
@[simp] theorem deskSent_modLive : (s.modLive n f).deskSent = s.deskSent := rfl
@[simp] theorem pending_modLive : (s.modLive n f).pending = s.pending := rfl

end

/-! ### dropPage -/

section

variable (n : Nat) (s : State)

@[simp] theorem clock_dropPage : (s.dropPage n).clock = s.clock := rfl
@[simp] theorem pages_dropPage : (s.dropPage n).pages = tdel s.pages n := rfl
@[simp] theorem slots_dropPage : (s.dropPage n).slots = s.slots := rfl
@[simp] theorem plan_dropPage : (s.dropPage n).plan = s.plan := rfl
@[simp] theorem stages_dropPage : (s.dropPage n).stages = s.stages := rfl
@[simp] theorem jobs_dropPage : (s.dropPage n).jobs = s.jobs := rfl
@[simp] theorem lastJob_dropPage : (s.dropPage n).lastJob = s.lastJob := rfl
@[simp] theorem entryCount_dropPage : (s.dropPage n).entryCount = s.entryCount := rfl
@[simp] theorem racks_dropPage : (s.dropPage n).racks = s.racks := rfl
@[simp] theorem shelves_dropPage : (s.dropPage n).shelves = s.shelves := rfl
@[simp] theorem presses_dropPage : (s.dropPage n).presses = s.presses := rfl
@[simp] theorem engines_dropPage : (s.dropPage n).engines = s.engines := rfl
@[simp] theorem registers_dropPage : (s.dropPage n).registers = s.registers := rfl
@[simp] theorem starved_dropPage : (s.dropPage n).starved = s.starved := rfl
@[simp] theorem lanes_dropPage : (s.dropPage n).lanes = s.lanes := rfl
@[simp] theorem sorter_dropPage : (s.dropPage n).sorter = s.sorter := rfl
@[simp] theorem line_dropPage : (s.dropPage n).line = s.line := rfl
@[simp] theorem limits_dropPage : (s.dropPage n).limits = s.limits := rfl
@[simp] theorem restart_dropPage : (s.dropPage n).restart = s.restart := rfl
@[simp] theorem softResetDue_dropPage : (s.dropPage n).softResetDue = s.softResetDue := rfl
@[simp] theorem ports_dropPage : (s.dropPage n).ports = s.ports := rfl
@[simp] theorem lineSent_dropPage : (s.dropPage n).lineSent = s.lineSent := rfl
@[simp] theorem deskSent_dropPage : (s.dropPage n).deskSent = s.deskSent := rfl
@[simp] theorem pending_dropPage : (s.dropPage n).pending = s.pending := rfl

end

/-! ### modCount -/

section

variable (k : SlotKey) (f : Nat → Nat) (s : State)

@[simp] theorem clock_modCount : (s.modCount k f).clock = s.clock := rfl
@[simp] theorem pages_modCount : (s.modCount k f).pages = s.pages := rfl
@[simp] theorem slots_modCount : (s.modCount k f).slots = tmod s.slots k fun x => { x with count := f x.count } := rfl
@[simp] theorem plan_modCount : (s.modCount k f).plan = s.plan := rfl
@[simp] theorem stages_modCount : (s.modCount k f).stages = s.stages := rfl
@[simp] theorem jobs_modCount : (s.modCount k f).jobs = s.jobs := rfl
@[simp] theorem lastJob_modCount : (s.modCount k f).lastJob = s.lastJob := rfl
@[simp] theorem entryCount_modCount : (s.modCount k f).entryCount = s.entryCount := rfl
@[simp] theorem racks_modCount : (s.modCount k f).racks = s.racks := rfl
@[simp] theorem shelves_modCount : (s.modCount k f).shelves = s.shelves := rfl
@[simp] theorem presses_modCount : (s.modCount k f).presses = s.presses := rfl
@[simp] theorem engines_modCount : (s.modCount k f).engines = s.engines := rfl
@[simp] theorem registers_modCount : (s.modCount k f).registers = s.registers := rfl
@[simp] theorem starved_modCount : (s.modCount k f).starved = s.starved := rfl
@[simp] theorem lanes_modCount : (s.modCount k f).lanes = s.lanes := rfl
@[simp] theorem sorter_modCount : (s.modCount k f).sorter = s.sorter := rfl
@[simp] theorem line_modCount : (s.modCount k f).line = s.line := rfl
@[simp] theorem limits_modCount : (s.modCount k f).limits = s.limits := rfl
@[simp] theorem restart_modCount : (s.modCount k f).restart = s.restart := rfl
@[simp] theorem softResetDue_modCount : (s.modCount k f).softResetDue = s.softResetDue := rfl
@[simp] theorem ports_modCount : (s.modCount k f).ports = s.ports := rfl
@[simp] theorem lineSent_modCount : (s.modCount k f).lineSent = s.lineSent := rfl
@[simp] theorem deskSent_modCount : (s.modCount k f).deskSent = s.deskSent := rfl
@[simp] theorem pending_modCount : (s.modCount k f).pending = s.pending := rfl

end

/-! ### dropSlot -/

section

variable (k : SlotKey) (s : State)

@[simp] theorem clock_dropSlot : (s.dropSlot k).clock = s.clock := rfl
@[simp] theorem pages_dropSlot : (s.dropSlot k).pages = s.pages := rfl
@[simp] theorem slots_dropSlot : (s.dropSlot k).slots = tdel s.slots k := rfl
@[simp] theorem plan_dropSlot : (s.dropSlot k).plan = s.plan := rfl
@[simp] theorem stages_dropSlot : (s.dropSlot k).stages = s.stages := rfl
@[simp] theorem jobs_dropSlot : (s.dropSlot k).jobs = s.jobs := rfl
@[simp] theorem lastJob_dropSlot : (s.dropSlot k).lastJob = s.lastJob := rfl
@[simp] theorem entryCount_dropSlot : (s.dropSlot k).entryCount = s.entryCount := rfl
@[simp] theorem racks_dropSlot : (s.dropSlot k).racks = s.racks := rfl
@[simp] theorem shelves_dropSlot : (s.dropSlot k).shelves = s.shelves := rfl
@[simp] theorem presses_dropSlot : (s.dropSlot k).presses = s.presses := rfl
@[simp] theorem engines_dropSlot : (s.dropSlot k).engines = s.engines := rfl
@[simp] theorem registers_dropSlot : (s.dropSlot k).registers = s.registers := rfl
@[simp] theorem starved_dropSlot : (s.dropSlot k).starved = s.starved := rfl
@[simp] theorem lanes_dropSlot : (s.dropSlot k).lanes = s.lanes := rfl
@[simp] theorem sorter_dropSlot : (s.dropSlot k).sorter = s.sorter := rfl
@[simp] theorem line_dropSlot : (s.dropSlot k).line = s.line := rfl
@[simp] theorem limits_dropSlot : (s.dropSlot k).limits = s.limits := rfl
@[simp] theorem restart_dropSlot : (s.dropSlot k).restart = s.restart := rfl
@[simp] theorem softResetDue_dropSlot : (s.dropSlot k).softResetDue = s.softResetDue := rfl
@[simp] theorem ports_dropSlot : (s.dropSlot k).ports = s.ports := rfl
@[simp] theorem lineSent_dropSlot : (s.dropSlot k).lineSent = s.lineSent := rfl
@[simp] theorem deskSent_dropSlot : (s.dropSlot k).deskSent = s.deskSent := rfl
@[simp] theorem pending_dropSlot : (s.dropSlot k).pending = s.pending := rfl

end

/-! ### setPressState -/

section

variable (p : PressId) (st : PressState) (s : State)

@[simp] theorem clock_setPressState : (s.setPressState p st).clock = s.clock := rfl
@[simp] theorem pages_setPressState : (s.setPressState p st).pages = s.pages := rfl
@[simp] theorem slots_setPressState : (s.setPressState p st).slots = s.slots := rfl
@[simp] theorem plan_setPressState : (s.setPressState p st).plan = s.plan := rfl
@[simp] theorem stages_setPressState : (s.setPressState p st).stages = s.stages := rfl
@[simp] theorem jobs_setPressState : (s.setPressState p st).jobs = s.jobs := rfl
@[simp] theorem lastJob_setPressState : (s.setPressState p st).lastJob = s.lastJob := rfl
@[simp] theorem entryCount_setPressState : (s.setPressState p st).entryCount = s.entryCount := rfl
@[simp] theorem racks_setPressState : (s.setPressState p st).racks = s.racks := rfl
@[simp] theorem shelves_setPressState : (s.setPressState p st).shelves = s.shelves := rfl
@[simp] theorem presses_setPressState : (s.setPressState p st).presses = vmod s.presses p fun x => { x with state := st } := rfl
@[simp] theorem engines_setPressState : (s.setPressState p st).engines = s.engines := rfl
@[simp] theorem registers_setPressState : (s.setPressState p st).registers = s.registers := rfl
@[simp] theorem starved_setPressState : (s.setPressState p st).starved = s.starved := rfl
@[simp] theorem lanes_setPressState : (s.setPressState p st).lanes = s.lanes := rfl
@[simp] theorem sorter_setPressState : (s.setPressState p st).sorter = s.sorter := rfl
@[simp] theorem line_setPressState : (s.setPressState p st).line = s.line := rfl
@[simp] theorem limits_setPressState : (s.setPressState p st).limits = s.limits := rfl
@[simp] theorem restart_setPressState : (s.setPressState p st).restart = s.restart := rfl
@[simp] theorem softResetDue_setPressState : (s.setPressState p st).softResetDue = s.softResetDue := rfl
@[simp] theorem ports_setPressState : (s.setPressState p st).ports = s.ports := rfl
@[simp] theorem lineSent_setPressState : (s.setPressState p st).lineSent = s.lineSent := rfl
@[simp] theorem deskSent_setPressState : (s.setPressState p st).deskSent = s.deskSent := rfl
@[simp] theorem pending_setPressState : (s.setPressState p st).pending = s.pending := rfl

end

/-! ### setUnsatisfied -/

section

variable (p : PressId) (n : Nat) (s : State)

@[simp] theorem clock_setUnsatisfied : (s.setUnsatisfied p n).clock = s.clock := rfl
@[simp] theorem pages_setUnsatisfied : (s.setUnsatisfied p n).pages = s.pages := rfl
@[simp] theorem slots_setUnsatisfied : (s.setUnsatisfied p n).slots = s.slots := rfl
@[simp] theorem plan_setUnsatisfied : (s.setUnsatisfied p n).plan = s.plan := rfl
@[simp] theorem stages_setUnsatisfied : (s.setUnsatisfied p n).stages = s.stages := rfl
@[simp] theorem jobs_setUnsatisfied : (s.setUnsatisfied p n).jobs = s.jobs := rfl
@[simp] theorem lastJob_setUnsatisfied : (s.setUnsatisfied p n).lastJob = s.lastJob := rfl
@[simp] theorem entryCount_setUnsatisfied : (s.setUnsatisfied p n).entryCount = s.entryCount := rfl
@[simp] theorem racks_setUnsatisfied : (s.setUnsatisfied p n).racks = s.racks := rfl
@[simp] theorem shelves_setUnsatisfied : (s.setUnsatisfied p n).shelves = s.shelves := rfl
@[simp] theorem presses_setUnsatisfied : (s.setUnsatisfied p n).presses = vmod s.presses p fun x => { x with unsatisfied := n } := rfl
@[simp] theorem engines_setUnsatisfied : (s.setUnsatisfied p n).engines = s.engines := rfl
@[simp] theorem registers_setUnsatisfied : (s.setUnsatisfied p n).registers = s.registers := rfl
@[simp] theorem starved_setUnsatisfied : (s.setUnsatisfied p n).starved = s.starved := rfl
@[simp] theorem lanes_setUnsatisfied : (s.setUnsatisfied p n).lanes = s.lanes := rfl
@[simp] theorem sorter_setUnsatisfied : (s.setUnsatisfied p n).sorter = s.sorter := rfl
@[simp] theorem line_setUnsatisfied : (s.setUnsatisfied p n).line = s.line := rfl
@[simp] theorem limits_setUnsatisfied : (s.setUnsatisfied p n).limits = s.limits := rfl
@[simp] theorem restart_setUnsatisfied : (s.setUnsatisfied p n).restart = s.restart := rfl
@[simp] theorem softResetDue_setUnsatisfied : (s.setUnsatisfied p n).softResetDue = s.softResetDue := rfl
@[simp] theorem ports_setUnsatisfied : (s.setUnsatisfied p n).ports = s.ports := rfl
@[simp] theorem lineSent_setUnsatisfied : (s.setUnsatisfied p n).lineSent = s.lineSent := rfl
@[simp] theorem deskSent_setUnsatisfied : (s.setUnsatisfied p n).deskSent = s.deskSent := rfl
@[simp] theorem pending_setUnsatisfied : (s.setUnsatisfied p n).pending = s.pending := rfl

end

/-! ### setRack -/

section

variable (k : PosKey) (l : List Nat) (s : State)

@[simp] theorem clock_setRack : (s.setRack k l).clock = s.clock := rfl
@[simp] theorem pages_setRack : (s.setRack k l).pages = s.pages := rfl
@[simp] theorem slots_setRack : (s.setRack k l).slots = s.slots := rfl
@[simp] theorem plan_setRack : (s.setRack k l).plan = s.plan := rfl
@[simp] theorem stages_setRack : (s.setRack k l).stages = s.stages := rfl
@[simp] theorem jobs_setRack : (s.setRack k l).jobs = s.jobs := rfl
@[simp] theorem lastJob_setRack : (s.setRack k l).lastJob = s.lastJob := rfl
@[simp] theorem entryCount_setRack : (s.setRack k l).entryCount = s.entryCount := rfl
@[simp] theorem racks_setRack : (s.setRack k l).racks = if l = [] then tdel s.racks k else tput PosKey.rank s.racks k l := rfl
@[simp] theorem shelves_setRack : (s.setRack k l).shelves = s.shelves := rfl
@[simp] theorem presses_setRack : (s.setRack k l).presses = s.presses := rfl
@[simp] theorem engines_setRack : (s.setRack k l).engines = s.engines := rfl
@[simp] theorem registers_setRack : (s.setRack k l).registers = s.registers := rfl
@[simp] theorem starved_setRack : (s.setRack k l).starved = s.starved := rfl
@[simp] theorem lanes_setRack : (s.setRack k l).lanes = s.lanes := rfl
@[simp] theorem sorter_setRack : (s.setRack k l).sorter = s.sorter := rfl
@[simp] theorem line_setRack : (s.setRack k l).line = s.line := rfl
@[simp] theorem limits_setRack : (s.setRack k l).limits = s.limits := rfl
@[simp] theorem restart_setRack : (s.setRack k l).restart = s.restart := rfl
@[simp] theorem softResetDue_setRack : (s.setRack k l).softResetDue = s.softResetDue := rfl
@[simp] theorem ports_setRack : (s.setRack k l).ports = s.ports := rfl
@[simp] theorem lineSent_setRack : (s.setRack k l).lineSent = s.lineSent := rfl
@[simp] theorem deskSent_setRack : (s.setRack k l).deskSent = s.deskSent := rfl
@[simp] theorem pending_setRack : (s.setRack k l).pending = s.pending := rfl

end

/-! ### setShelf -/

section

variable (p : PressId) (l : List (Nat × PosId)) (s : State)

@[simp] theorem clock_setShelf : (s.setShelf p l).clock = s.clock := rfl
@[simp] theorem pages_setShelf : (s.setShelf p l).pages = s.pages := rfl
@[simp] theorem slots_setShelf : (s.setShelf p l).slots = s.slots := rfl
@[simp] theorem plan_setShelf : (s.setShelf p l).plan = s.plan := rfl
@[simp] theorem stages_setShelf : (s.setShelf p l).stages = s.stages := rfl
@[simp] theorem jobs_setShelf : (s.setShelf p l).jobs = s.jobs := rfl
@[simp] theorem lastJob_setShelf : (s.setShelf p l).lastJob = s.lastJob := rfl
@[simp] theorem entryCount_setShelf : (s.setShelf p l).entryCount = s.entryCount := rfl
@[simp] theorem racks_setShelf : (s.setShelf p l).racks = s.racks := rfl
@[simp] theorem shelves_setShelf : (s.setShelf p l).shelves = vmod s.shelves p fun _ => l := rfl
@[simp] theorem presses_setShelf : (s.setShelf p l).presses = s.presses := rfl
@[simp] theorem engines_setShelf : (s.setShelf p l).engines = s.engines := rfl
@[simp] theorem registers_setShelf : (s.setShelf p l).registers = s.registers := rfl
@[simp] theorem starved_setShelf : (s.setShelf p l).starved = s.starved := rfl
@[simp] theorem lanes_setShelf : (s.setShelf p l).lanes = s.lanes := rfl
@[simp] theorem sorter_setShelf : (s.setShelf p l).sorter = s.sorter := rfl
@[simp] theorem line_setShelf : (s.setShelf p l).line = s.line := rfl
@[simp] theorem limits_setShelf : (s.setShelf p l).limits = s.limits := rfl
@[simp] theorem restart_setShelf : (s.setShelf p l).restart = s.restart := rfl
@[simp] theorem softResetDue_setShelf : (s.setShelf p l).softResetDue = s.softResetDue := rfl
@[simp] theorem ports_setShelf : (s.setShelf p l).ports = s.ports := rfl
@[simp] theorem lineSent_setShelf : (s.setShelf p l).lineSent = s.lineSent := rfl
@[simp] theorem deskSent_setShelf : (s.setShelf p l).deskSent = s.deskSent := rfl
@[simp] theorem pending_setShelf : (s.setShelf p l).pending = s.pending := rfl

end

/-! ### modFloor -/

section

variable (l : LaneId) (f : LaneFloor → LaneFloor) (s : State)

@[simp] theorem clock_modFloor : (s.modFloor l f).clock = s.clock := rfl
@[simp] theorem pages_modFloor : (s.modFloor l f).pages = s.pages := rfl
@[simp] theorem slots_modFloor : (s.modFloor l f).slots = s.slots := rfl
@[simp] theorem plan_modFloor : (s.modFloor l f).plan = s.plan := rfl
@[simp] theorem stages_modFloor : (s.modFloor l f).stages = s.stages := rfl
@[simp] theorem jobs_modFloor : (s.modFloor l f).jobs = s.jobs := rfl
@[simp] theorem lastJob_modFloor : (s.modFloor l f).lastJob = s.lastJob := rfl
@[simp] theorem entryCount_modFloor : (s.modFloor l f).entryCount = s.entryCount := rfl
@[simp] theorem racks_modFloor : (s.modFloor l f).racks = s.racks := rfl
@[simp] theorem shelves_modFloor : (s.modFloor l f).shelves = s.shelves := rfl
@[simp] theorem presses_modFloor : (s.modFloor l f).presses = s.presses := rfl
@[simp] theorem engines_modFloor : (s.modFloor l f).engines = s.engines := rfl
@[simp] theorem registers_modFloor : (s.modFloor l f).registers = s.registers := rfl
@[simp] theorem starved_modFloor : (s.modFloor l f).starved = s.starved := rfl
@[simp] theorem lanes_modFloor : (s.modFloor l f).lanes = vmod s.lanes l fun x => { x with floor := f x.floor } := rfl
@[simp] theorem sorter_modFloor : (s.modFloor l f).sorter = s.sorter := rfl
@[simp] theorem line_modFloor : (s.modFloor l f).line = s.line := rfl
@[simp] theorem limits_modFloor : (s.modFloor l f).limits = s.limits := rfl
@[simp] theorem restart_modFloor : (s.modFloor l f).restart = s.restart := rfl
@[simp] theorem softResetDue_modFloor : (s.modFloor l f).softResetDue = s.softResetDue := rfl
@[simp] theorem ports_modFloor : (s.modFloor l f).ports = s.ports := rfl
@[simp] theorem lineSent_modFloor : (s.modFloor l f).lineSent = s.lineSent := rfl
@[simp] theorem deskSent_modFloor : (s.modFloor l f).deskSent = s.deskSent := rfl
@[simp] theorem pending_modFloor : (s.modFloor l f).pending = s.pending := rfl

end

/-! ### stopLane -/

section

variable (l : LaneId) (s : State)

@[simp] theorem clock_stopLane : (s.stopLane l).clock = s.clock := rfl
@[simp] theorem pages_stopLane : (s.stopLane l).pages = s.pages := rfl
@[simp] theorem slots_stopLane : (s.stopLane l).slots = s.slots := rfl
@[simp] theorem plan_stopLane : (s.stopLane l).plan = s.plan := rfl
@[simp] theorem stages_stopLane : (s.stopLane l).stages = s.stages := rfl
@[simp] theorem jobs_stopLane : (s.stopLane l).jobs = s.jobs := rfl
@[simp] theorem lastJob_stopLane : (s.stopLane l).lastJob = s.lastJob := rfl
@[simp] theorem entryCount_stopLane : (s.stopLane l).entryCount = s.entryCount := rfl
@[simp] theorem racks_stopLane : (s.stopLane l).racks = s.racks := rfl
@[simp] theorem shelves_stopLane : (s.stopLane l).shelves = s.shelves := rfl
@[simp] theorem presses_stopLane : (s.stopLane l).presses = s.presses := rfl
@[simp] theorem engines_stopLane : (s.stopLane l).engines = s.engines := rfl
@[simp] theorem registers_stopLane : (s.stopLane l).registers = s.registers := rfl
@[simp] theorem starved_stopLane : (s.stopLane l).starved = s.starved := rfl
@[simp] theorem lanes_stopLane : (s.stopLane l).lanes = vmod s.lanes l fun x => { x with gates := { x.gates with stopped := true } } := rfl
@[simp] theorem sorter_stopLane : (s.stopLane l).sorter = s.sorter := rfl
@[simp] theorem line_stopLane : (s.stopLane l).line = s.line := rfl
@[simp] theorem limits_stopLane : (s.stopLane l).limits = s.limits := rfl
@[simp] theorem restart_stopLane : (s.stopLane l).restart = s.restart := rfl
@[simp] theorem softResetDue_stopLane : (s.stopLane l).softResetDue = s.softResetDue := rfl
@[simp] theorem ports_stopLane : (s.stopLane l).ports = s.ports := rfl
@[simp] theorem lineSent_stopLane : (s.stopLane l).lineSent = s.lineSent := rfl
@[simp] theorem deskSent_stopLane : (s.stopLane l).deskSent = s.deskSent := rfl
@[simp] theorem pending_stopLane : (s.stopLane l).pending = s.pending := rfl

end

/-! ### useLaneStep -/

section

variable (l : LaneId) (s : State)

@[simp] theorem clock_useLaneStep : (s.useLaneStep l).clock = s.clock := rfl
@[simp] theorem pages_useLaneStep : (s.useLaneStep l).pages = s.pages := rfl
@[simp] theorem slots_useLaneStep : (s.useLaneStep l).slots = s.slots := rfl
@[simp] theorem plan_useLaneStep : (s.useLaneStep l).plan = s.plan := rfl
@[simp] theorem stages_useLaneStep : (s.useLaneStep l).stages = s.stages := rfl
@[simp] theorem jobs_useLaneStep : (s.useLaneStep l).jobs = s.jobs := rfl
@[simp] theorem lastJob_useLaneStep : (s.useLaneStep l).lastJob = s.lastJob := rfl
@[simp] theorem entryCount_useLaneStep : (s.useLaneStep l).entryCount = s.entryCount := rfl
@[simp] theorem racks_useLaneStep : (s.useLaneStep l).racks = s.racks := rfl
@[simp] theorem shelves_useLaneStep : (s.useLaneStep l).shelves = s.shelves := rfl
@[simp] theorem presses_useLaneStep : (s.useLaneStep l).presses = s.presses := rfl
@[simp] theorem engines_useLaneStep : (s.useLaneStep l).engines = s.engines := rfl
@[simp] theorem registers_useLaneStep : (s.useLaneStep l).registers = s.registers := rfl
@[simp] theorem starved_useLaneStep : (s.useLaneStep l).starved = s.starved := rfl
@[simp] theorem lanes_useLaneStep : (s.useLaneStep l).lanes = vmod s.lanes l fun x => { x with gates := { x.gates with allowance := false } } := rfl
@[simp] theorem sorter_useLaneStep : (s.useLaneStep l).sorter = s.sorter := rfl
@[simp] theorem line_useLaneStep : (s.useLaneStep l).line = s.line := rfl
@[simp] theorem limits_useLaneStep : (s.useLaneStep l).limits = s.limits := rfl
@[simp] theorem restart_useLaneStep : (s.useLaneStep l).restart = s.restart := rfl
@[simp] theorem softResetDue_useLaneStep : (s.useLaneStep l).softResetDue = s.softResetDue := rfl
@[simp] theorem ports_useLaneStep : (s.useLaneStep l).ports = s.ports := rfl
@[simp] theorem lineSent_useLaneStep : (s.useLaneStep l).lineSent = s.lineSent := rfl
@[simp] theorem deskSent_useLaneStep : (s.useLaneStep l).deskSent = s.deskSent := rfl
@[simp] theorem pending_useLaneStep : (s.useLaneStep l).pending = s.pending := rfl

end

/-! ### setDelivery -/

section

variable (d : Option Delivery) (s : State)

@[simp] theorem clock_setDelivery : (s.setDelivery d).clock = s.clock := rfl
@[simp] theorem pages_setDelivery : (s.setDelivery d).pages = s.pages := rfl
@[simp] theorem slots_setDelivery : (s.setDelivery d).slots = s.slots := rfl
@[simp] theorem plan_setDelivery : (s.setDelivery d).plan = s.plan := rfl
@[simp] theorem stages_setDelivery : (s.setDelivery d).stages = s.stages := rfl
@[simp] theorem jobs_setDelivery : (s.setDelivery d).jobs = s.jobs := rfl
@[simp] theorem lastJob_setDelivery : (s.setDelivery d).lastJob = s.lastJob := rfl
@[simp] theorem entryCount_setDelivery : (s.setDelivery d).entryCount = s.entryCount := rfl
@[simp] theorem racks_setDelivery : (s.setDelivery d).racks = s.racks := rfl
@[simp] theorem shelves_setDelivery : (s.setDelivery d).shelves = s.shelves := rfl
@[simp] theorem presses_setDelivery : (s.setDelivery d).presses = s.presses := rfl
@[simp] theorem engines_setDelivery : (s.setDelivery d).engines = s.engines := rfl
@[simp] theorem registers_setDelivery : (s.setDelivery d).registers = s.registers := rfl
@[simp] theorem starved_setDelivery : (s.setDelivery d).starved = s.starved := rfl
@[simp] theorem lanes_setDelivery : (s.setDelivery d).lanes = s.lanes := rfl
@[simp] theorem sorter_setDelivery : (s.setDelivery d).sorter = { s.sorter with delivery := d } := rfl
@[simp] theorem line_setDelivery : (s.setDelivery d).line = s.line := rfl
@[simp] theorem limits_setDelivery : (s.setDelivery d).limits = s.limits := rfl
@[simp] theorem restart_setDelivery : (s.setDelivery d).restart = s.restart := rfl
@[simp] theorem softResetDue_setDelivery : (s.setDelivery d).softResetDue = s.softResetDue := rfl
@[simp] theorem ports_setDelivery : (s.setDelivery d).ports = s.ports := rfl
@[simp] theorem lineSent_setDelivery : (s.setDelivery d).lineSent = s.lineSent := rfl
@[simp] theorem deskSent_setDelivery : (s.setDelivery d).deskSent = s.deskSent := rfl
@[simp] theorem pending_setDelivery : (s.setDelivery d).pending = s.pending := rfl

end

/-! ### setServed -/

section

variable (l : LaneId) (s : State)

@[simp] theorem clock_setServed : (s.setServed l).clock = s.clock := rfl
@[simp] theorem pages_setServed : (s.setServed l).pages = s.pages := rfl
@[simp] theorem slots_setServed : (s.setServed l).slots = s.slots := rfl
@[simp] theorem plan_setServed : (s.setServed l).plan = s.plan := rfl
@[simp] theorem stages_setServed : (s.setServed l).stages = s.stages := rfl
@[simp] theorem jobs_setServed : (s.setServed l).jobs = s.jobs := rfl
@[simp] theorem lastJob_setServed : (s.setServed l).lastJob = s.lastJob := rfl
@[simp] theorem entryCount_setServed : (s.setServed l).entryCount = s.entryCount := rfl
@[simp] theorem racks_setServed : (s.setServed l).racks = s.racks := rfl
@[simp] theorem shelves_setServed : (s.setServed l).shelves = s.shelves := rfl
@[simp] theorem presses_setServed : (s.setServed l).presses = s.presses := rfl
@[simp] theorem engines_setServed : (s.setServed l).engines = s.engines := rfl
@[simp] theorem registers_setServed : (s.setServed l).registers = s.registers := rfl
@[simp] theorem starved_setServed : (s.setServed l).starved = s.starved := rfl
@[simp] theorem lanes_setServed : (s.setServed l).lanes = s.lanes := rfl
@[simp] theorem sorter_setServed : (s.setServed l).sorter = { s.sorter with lastServed := some l } := rfl
@[simp] theorem line_setServed : (s.setServed l).line = s.line := rfl
@[simp] theorem limits_setServed : (s.setServed l).limits = s.limits := rfl
@[simp] theorem restart_setServed : (s.setServed l).restart = s.restart := rfl
@[simp] theorem softResetDue_setServed : (s.setServed l).softResetDue = s.softResetDue := rfl
@[simp] theorem ports_setServed : (s.setServed l).ports = s.ports := rfl
@[simp] theorem lineSent_setServed : (s.setServed l).lineSent = s.lineSent := rfl
@[simp] theorem deskSent_setServed : (s.setServed l).deskSent = s.deskSent := rfl
@[simp] theorem pending_setServed : (s.setServed l).pending = s.pending := rfl

end

/-! ### useSorterStep -/

section

variable (s : State)

@[simp] theorem clock_useSorterStep : (s.useSorterStep).clock = s.clock := rfl
@[simp] theorem pages_useSorterStep : (s.useSorterStep).pages = s.pages := rfl
@[simp] theorem slots_useSorterStep : (s.useSorterStep).slots = s.slots := rfl
@[simp] theorem plan_useSorterStep : (s.useSorterStep).plan = s.plan := rfl
@[simp] theorem stages_useSorterStep : (s.useSorterStep).stages = s.stages := rfl
@[simp] theorem jobs_useSorterStep : (s.useSorterStep).jobs = s.jobs := rfl
@[simp] theorem lastJob_useSorterStep : (s.useSorterStep).lastJob = s.lastJob := rfl
@[simp] theorem entryCount_useSorterStep : (s.useSorterStep).entryCount = s.entryCount := rfl
@[simp] theorem racks_useSorterStep : (s.useSorterStep).racks = s.racks := rfl
@[simp] theorem shelves_useSorterStep : (s.useSorterStep).shelves = s.shelves := rfl
@[simp] theorem presses_useSorterStep : (s.useSorterStep).presses = s.presses := rfl
@[simp] theorem engines_useSorterStep : (s.useSorterStep).engines = s.engines := rfl
@[simp] theorem registers_useSorterStep : (s.useSorterStep).registers = s.registers := rfl
@[simp] theorem starved_useSorterStep : (s.useSorterStep).starved = s.starved := rfl
@[simp] theorem lanes_useSorterStep : (s.useSorterStep).lanes = s.lanes := rfl
@[simp] theorem sorter_useSorterStep : (s.useSorterStep).sorter = { s.sorter with allowance := false } := rfl
@[simp] theorem line_useSorterStep : (s.useSorterStep).line = s.line := rfl
@[simp] theorem limits_useSorterStep : (s.useSorterStep).limits = s.limits := rfl
@[simp] theorem restart_useSorterStep : (s.useSorterStep).restart = s.restart := rfl
@[simp] theorem softResetDue_useSorterStep : (s.useSorterStep).softResetDue = s.softResetDue := rfl
@[simp] theorem ports_useSorterStep : (s.useSorterStep).ports = s.ports := rfl
@[simp] theorem lineSent_useSorterStep : (s.useSorterStep).lineSent = s.lineSent := rfl
@[simp] theorem deskSent_useSorterStep : (s.useSorterStep).deskSent = s.deskSent := rfl
@[simp] theorem pending_useSorterStep : (s.useSorterStep).pending = s.pending := rfl

end

/-! ### setReached -/

section

variable (es : Vector Bool 6) (ls : Vector Bool 2) (s : State)

@[simp] theorem clock_setReached : (s.setReached es ls).clock = s.clock := rfl
@[simp] theorem pages_setReached : (s.setReached es ls).pages = s.pages := rfl
@[simp] theorem slots_setReached : (s.setReached es ls).slots = s.slots := rfl
@[simp] theorem plan_setReached : (s.setReached es ls).plan = s.plan := rfl
@[simp] theorem stages_setReached : (s.setReached es ls).stages = s.stages := rfl
@[simp] theorem jobs_setReached : (s.setReached es ls).jobs = s.jobs := rfl
@[simp] theorem lastJob_setReached : (s.setReached es ls).lastJob = s.lastJob := rfl
@[simp] theorem entryCount_setReached : (s.setReached es ls).entryCount = s.entryCount := rfl
@[simp] theorem racks_setReached : (s.setReached es ls).racks = s.racks := rfl
@[simp] theorem shelves_setReached : (s.setReached es ls).shelves = s.shelves := rfl
@[simp] theorem presses_setReached : (s.setReached es ls).presses = s.presses := rfl
@[simp] theorem engines_setReached : (s.setReached es ls).engines = s.engines := rfl
@[simp] theorem registers_setReached : (s.setReached es ls).registers = s.registers := rfl
@[simp] theorem starved_setReached : (s.setReached es ls).starved = s.starved := rfl
@[simp] theorem lanes_setReached : (s.setReached es ls).lanes = s.lanes := rfl
@[simp] theorem sorter_setReached : (s.setReached es ls).sorter = s.sorter := rfl
@[simp] theorem line_setReached : (s.setReached es ls).line = { s.line with reachedEngines := es, reachedLanes := ls } := rfl
@[simp] theorem limits_setReached : (s.setReached es ls).limits = s.limits := rfl
@[simp] theorem restart_setReached : (s.setReached es ls).restart = s.restart := rfl
@[simp] theorem softResetDue_setReached : (s.setReached es ls).softResetDue = s.softResetDue := rfl
@[simp] theorem ports_setReached : (s.setReached es ls).ports = s.ports := rfl
@[simp] theorem lineSent_setReached : (s.setReached es ls).lineSent = s.lineSent := rfl
@[simp] theorem deskSent_setReached : (s.setReached es ls).deskSent = s.deskSent := rfl
@[simp] theorem pending_setReached : (s.setReached es ls).pending = s.pending := rfl

end

/-! ### setStopped -/

section

variable (s : State)

@[simp] theorem clock_setStopped : (s.setStopped).clock = s.clock := rfl
@[simp] theorem pages_setStopped : (s.setStopped).pages = s.pages := rfl
@[simp] theorem slots_setStopped : (s.setStopped).slots = s.slots := rfl
@[simp] theorem plan_setStopped : (s.setStopped).plan = s.plan := rfl
@[simp] theorem stages_setStopped : (s.setStopped).stages = s.stages := rfl
@[simp] theorem jobs_setStopped : (s.setStopped).jobs = s.jobs := rfl
@[simp] theorem lastJob_setStopped : (s.setStopped).lastJob = s.lastJob := rfl
@[simp] theorem entryCount_setStopped : (s.setStopped).entryCount = s.entryCount := rfl
@[simp] theorem racks_setStopped : (s.setStopped).racks = s.racks := rfl
@[simp] theorem shelves_setStopped : (s.setStopped).shelves = s.shelves := rfl
@[simp] theorem presses_setStopped : (s.setStopped).presses = s.presses := rfl
@[simp] theorem engines_setStopped : (s.setStopped).engines = s.engines := rfl
@[simp] theorem registers_setStopped : (s.setStopped).registers = s.registers := rfl
@[simp] theorem starved_setStopped : (s.setStopped).starved = s.starved := rfl
@[simp] theorem lanes_setStopped : (s.setStopped).lanes = s.lanes := rfl
@[simp] theorem sorter_setStopped : (s.setStopped).sorter = s.sorter := rfl
@[simp] theorem line_setStopped : (s.setStopped).line = { clearMarks s.line with state := .stopped } := rfl
@[simp] theorem limits_setStopped : (s.setStopped).limits = s.limits := rfl
@[simp] theorem restart_setStopped : (s.setStopped).restart = s.restart := rfl
@[simp] theorem softResetDue_setStopped : (s.setStopped).softResetDue = s.softResetDue := rfl
@[simp] theorem ports_setStopped : (s.setStopped).ports = s.ports := rfl
@[simp] theorem lineSent_setStopped : (s.setStopped).lineSent = s.lineSent := rfl
@[simp] theorem deskSent_setStopped : (s.setStopped).deskSent = s.deskSent := rfl
@[simp] theorem pending_setStopped : (s.setStopped).pending = s.pending := rfl

end

/-! ### setClock -/

section

variable (t : Nat) (s : State)

@[simp] theorem clock_setClock : (s.setClock t).clock = t := rfl
@[simp] theorem pages_setClock : (s.setClock t).pages = s.pages := rfl
@[simp] theorem slots_setClock : (s.setClock t).slots = s.slots := rfl
@[simp] theorem plan_setClock : (s.setClock t).plan = s.plan := rfl
@[simp] theorem stages_setClock : (s.setClock t).stages = s.stages := rfl
@[simp] theorem jobs_setClock : (s.setClock t).jobs = s.jobs := rfl
@[simp] theorem lastJob_setClock : (s.setClock t).lastJob = s.lastJob := rfl
@[simp] theorem entryCount_setClock : (s.setClock t).entryCount = s.entryCount := rfl
@[simp] theorem racks_setClock : (s.setClock t).racks = s.racks := rfl
@[simp] theorem shelves_setClock : (s.setClock t).shelves = s.shelves := rfl
@[simp] theorem presses_setClock : (s.setClock t).presses = s.presses := rfl
@[simp] theorem engines_setClock : (s.setClock t).engines = s.engines := rfl
@[simp] theorem registers_setClock : (s.setClock t).registers = s.registers := rfl
@[simp] theorem starved_setClock : (s.setClock t).starved = s.starved := rfl
@[simp] theorem lanes_setClock : (s.setClock t).lanes = s.lanes := rfl
@[simp] theorem sorter_setClock : (s.setClock t).sorter = s.sorter := rfl
@[simp] theorem line_setClock : (s.setClock t).line = s.line := rfl
@[simp] theorem limits_setClock : (s.setClock t).limits = s.limits := rfl
@[simp] theorem restart_setClock : (s.setClock t).restart = s.restart := rfl
@[simp] theorem softResetDue_setClock : (s.setClock t).softResetDue = s.softResetDue := rfl
@[simp] theorem ports_setClock : (s.setClock t).ports = s.ports := rfl
@[simp] theorem lineSent_setClock : (s.setClock t).lineSent = s.lineSent := rfl
@[simp] theorem deskSent_setClock : (s.setClock t).deskSent = s.deskSent := rfl
@[simp] theorem pending_setClock : (s.setClock t).pending = s.pending := rfl

end

/-! ### putPage -/

section

variable (n : Nat) (r : PageRec) (s : State)

@[simp] theorem clock_putPage : (s.putPage n r).clock = s.clock := rfl
@[simp] theorem pages_putPage : (s.putPage n r).pages = tput id s.pages n r := rfl
@[simp] theorem slots_putPage : (s.putPage n r).slots = s.slots := rfl
@[simp] theorem plan_putPage : (s.putPage n r).plan = s.plan := rfl
@[simp] theorem stages_putPage : (s.putPage n r).stages = s.stages := rfl
@[simp] theorem jobs_putPage : (s.putPage n r).jobs = s.jobs := rfl
@[simp] theorem lastJob_putPage : (s.putPage n r).lastJob = s.lastJob := rfl
@[simp] theorem entryCount_putPage : (s.putPage n r).entryCount = s.entryCount := rfl
@[simp] theorem racks_putPage : (s.putPage n r).racks = s.racks := rfl
@[simp] theorem shelves_putPage : (s.putPage n r).shelves = s.shelves := rfl
@[simp] theorem presses_putPage : (s.putPage n r).presses = s.presses := rfl
@[simp] theorem engines_putPage : (s.putPage n r).engines = s.engines := rfl
@[simp] theorem registers_putPage : (s.putPage n r).registers = s.registers := rfl
@[simp] theorem starved_putPage : (s.putPage n r).starved = s.starved := rfl
@[simp] theorem lanes_putPage : (s.putPage n r).lanes = s.lanes := rfl
@[simp] theorem sorter_putPage : (s.putPage n r).sorter = s.sorter := rfl
@[simp] theorem line_putPage : (s.putPage n r).line = s.line := rfl
@[simp] theorem limits_putPage : (s.putPage n r).limits = s.limits := rfl
@[simp] theorem restart_putPage : (s.putPage n r).restart = s.restart := rfl
@[simp] theorem softResetDue_putPage : (s.putPage n r).softResetDue = s.softResetDue := rfl
@[simp] theorem ports_putPage : (s.putPage n r).ports = s.ports := rfl
@[simp] theorem lineSent_putPage : (s.putPage n r).lineSent = s.lineSent := rfl
@[simp] theorem deskSent_putPage : (s.putPage n r).deskSent = s.deskSent := rfl
@[simp] theorem pending_putPage : (s.putPage n r).pending = s.pending := rfl

end

/-! ### putSlot -/

section

variable (k : SlotKey) (x : Slot) (s : State)

@[simp] theorem clock_putSlot : (s.putSlot k x).clock = s.clock := rfl
@[simp] theorem pages_putSlot : (s.putSlot k x).pages = s.pages := rfl
@[simp] theorem slots_putSlot : (s.putSlot k x).slots = tput SlotKey.rank s.slots k x := rfl
@[simp] theorem plan_putSlot : (s.putSlot k x).plan = s.plan := rfl
@[simp] theorem stages_putSlot : (s.putSlot k x).stages = s.stages := rfl
@[simp] theorem jobs_putSlot : (s.putSlot k x).jobs = s.jobs := rfl
@[simp] theorem lastJob_putSlot : (s.putSlot k x).lastJob = s.lastJob := rfl
@[simp] theorem entryCount_putSlot : (s.putSlot k x).entryCount = s.entryCount := rfl
@[simp] theorem racks_putSlot : (s.putSlot k x).racks = s.racks := rfl
@[simp] theorem shelves_putSlot : (s.putSlot k x).shelves = s.shelves := rfl
@[simp] theorem presses_putSlot : (s.putSlot k x).presses = s.presses := rfl
@[simp] theorem engines_putSlot : (s.putSlot k x).engines = s.engines := rfl
@[simp] theorem registers_putSlot : (s.putSlot k x).registers = s.registers := rfl
@[simp] theorem starved_putSlot : (s.putSlot k x).starved = s.starved := rfl
@[simp] theorem lanes_putSlot : (s.putSlot k x).lanes = s.lanes := rfl
@[simp] theorem sorter_putSlot : (s.putSlot k x).sorter = s.sorter := rfl
@[simp] theorem line_putSlot : (s.putSlot k x).line = s.line := rfl
@[simp] theorem limits_putSlot : (s.putSlot k x).limits = s.limits := rfl
@[simp] theorem restart_putSlot : (s.putSlot k x).restart = s.restart := rfl
@[simp] theorem softResetDue_putSlot : (s.putSlot k x).softResetDue = s.softResetDue := rfl
@[simp] theorem ports_putSlot : (s.putSlot k x).ports = s.ports := rfl
@[simp] theorem lineSent_putSlot : (s.putSlot k x).lineSent = s.lineSent := rfl
@[simp] theorem deskSent_putSlot : (s.putSlot k x).deskSent = s.deskSent := rfl
@[simp] theorem pending_putSlot : (s.putSlot k x).pending = s.pending := rfl

end

/-! ### modSlot -/

section

variable (k : SlotKey) (f : Slot → Slot) (s : State)

@[simp] theorem clock_modSlot : (s.modSlot k f).clock = s.clock := rfl
@[simp] theorem pages_modSlot : (s.modSlot k f).pages = s.pages := rfl
@[simp] theorem slots_modSlot : (s.modSlot k f).slots = tmod s.slots k f := rfl
@[simp] theorem plan_modSlot : (s.modSlot k f).plan = s.plan := rfl
@[simp] theorem stages_modSlot : (s.modSlot k f).stages = s.stages := rfl
@[simp] theorem jobs_modSlot : (s.modSlot k f).jobs = s.jobs := rfl
@[simp] theorem lastJob_modSlot : (s.modSlot k f).lastJob = s.lastJob := rfl
@[simp] theorem entryCount_modSlot : (s.modSlot k f).entryCount = s.entryCount := rfl
@[simp] theorem racks_modSlot : (s.modSlot k f).racks = s.racks := rfl
@[simp] theorem shelves_modSlot : (s.modSlot k f).shelves = s.shelves := rfl
@[simp] theorem presses_modSlot : (s.modSlot k f).presses = s.presses := rfl
@[simp] theorem engines_modSlot : (s.modSlot k f).engines = s.engines := rfl
@[simp] theorem registers_modSlot : (s.modSlot k f).registers = s.registers := rfl
@[simp] theorem starved_modSlot : (s.modSlot k f).starved = s.starved := rfl
@[simp] theorem lanes_modSlot : (s.modSlot k f).lanes = s.lanes := rfl
@[simp] theorem sorter_modSlot : (s.modSlot k f).sorter = s.sorter := rfl
@[simp] theorem line_modSlot : (s.modSlot k f).line = s.line := rfl
@[simp] theorem limits_modSlot : (s.modSlot k f).limits = s.limits := rfl
@[simp] theorem restart_modSlot : (s.modSlot k f).restart = s.restart := rfl
@[simp] theorem softResetDue_modSlot : (s.modSlot k f).softResetDue = s.softResetDue := rfl
@[simp] theorem ports_modSlot : (s.modSlot k f).ports = s.ports := rfl
@[simp] theorem lineSent_modSlot : (s.modSlot k f).lineSent = s.lineSent := rfl
@[simp] theorem deskSent_modSlot : (s.modSlot k f).deskSent = s.deskSent := rfl
@[simp] theorem pending_modSlot : (s.modSlot k f).pending = s.pending := rfl

end

/-! ### modPos -/

section

variable (k : PosKey) (f : Position → Position) (s : State)

@[simp] theorem clock_modPos : (s.modPos k f).clock = s.clock := rfl
@[simp] theorem pages_modPos : (s.modPos k f).pages = s.pages := rfl
@[simp] theorem slots_modPos : (s.modPos k f).slots = s.slots := rfl
@[simp] theorem plan_modPos : (s.modPos k f).plan = tmod s.plan k f := rfl
@[simp] theorem stages_modPos : (s.modPos k f).stages = s.stages := rfl
@[simp] theorem jobs_modPos : (s.modPos k f).jobs = s.jobs := rfl
@[simp] theorem lastJob_modPos : (s.modPos k f).lastJob = s.lastJob := rfl
@[simp] theorem entryCount_modPos : (s.modPos k f).entryCount = s.entryCount := rfl
@[simp] theorem racks_modPos : (s.modPos k f).racks = s.racks := rfl
@[simp] theorem shelves_modPos : (s.modPos k f).shelves = s.shelves := rfl
@[simp] theorem presses_modPos : (s.modPos k f).presses = s.presses := rfl
@[simp] theorem engines_modPos : (s.modPos k f).engines = s.engines := rfl
@[simp] theorem registers_modPos : (s.modPos k f).registers = s.registers := rfl
@[simp] theorem starved_modPos : (s.modPos k f).starved = s.starved := rfl
@[simp] theorem lanes_modPos : (s.modPos k f).lanes = s.lanes := rfl
@[simp] theorem sorter_modPos : (s.modPos k f).sorter = s.sorter := rfl
@[simp] theorem line_modPos : (s.modPos k f).line = s.line := rfl
@[simp] theorem limits_modPos : (s.modPos k f).limits = s.limits := rfl
@[simp] theorem restart_modPos : (s.modPos k f).restart = s.restart := rfl
@[simp] theorem softResetDue_modPos : (s.modPos k f).softResetDue = s.softResetDue := rfl
@[simp] theorem ports_modPos : (s.modPos k f).ports = s.ports := rfl
@[simp] theorem lineSent_modPos : (s.modPos k f).lineSent = s.lineSent := rfl
@[simp] theorem deskSent_modPos : (s.modPos k f).deskSent = s.deskSent := rfl
@[simp] theorem pending_modPos : (s.modPos k f).pending = s.pending := rfl

end

/-! ### putPos -/

section

variable (k : PosKey) (x : Position) (s : State)

@[simp] theorem clock_putPos : (s.putPos k x).clock = s.clock := rfl
@[simp] theorem pages_putPos : (s.putPos k x).pages = s.pages := rfl
@[simp] theorem slots_putPos : (s.putPos k x).slots = s.slots := rfl
@[simp] theorem plan_putPos : (s.putPos k x).plan = tput PosKey.rank s.plan k x := rfl
@[simp] theorem stages_putPos : (s.putPos k x).stages = s.stages := rfl
@[simp] theorem jobs_putPos : (s.putPos k x).jobs = s.jobs := rfl
@[simp] theorem lastJob_putPos : (s.putPos k x).lastJob = s.lastJob := rfl
@[simp] theorem entryCount_putPos : (s.putPos k x).entryCount = s.entryCount := rfl
@[simp] theorem racks_putPos : (s.putPos k x).racks = s.racks := rfl
@[simp] theorem shelves_putPos : (s.putPos k x).shelves = s.shelves := rfl
@[simp] theorem presses_putPos : (s.putPos k x).presses = s.presses := rfl
@[simp] theorem engines_putPos : (s.putPos k x).engines = s.engines := rfl
@[simp] theorem registers_putPos : (s.putPos k x).registers = s.registers := rfl
@[simp] theorem starved_putPos : (s.putPos k x).starved = s.starved := rfl
@[simp] theorem lanes_putPos : (s.putPos k x).lanes = s.lanes := rfl
@[simp] theorem sorter_putPos : (s.putPos k x).sorter = s.sorter := rfl
@[simp] theorem line_putPos : (s.putPos k x).line = s.line := rfl
@[simp] theorem limits_putPos : (s.putPos k x).limits = s.limits := rfl
@[simp] theorem restart_putPos : (s.putPos k x).restart = s.restart := rfl
@[simp] theorem softResetDue_putPos : (s.putPos k x).softResetDue = s.softResetDue := rfl
@[simp] theorem ports_putPos : (s.putPos k x).ports = s.ports := rfl
@[simp] theorem lineSent_putPos : (s.putPos k x).lineSent = s.lineSent := rfl
@[simp] theorem deskSent_putPos : (s.putPos k x).deskSent = s.deskSent := rfl
@[simp] theorem pending_putPos : (s.putPos k x).pending = s.pending := rfl

end

/-! ### dropPos -/

section

variable (k : PosKey) (s : State)

@[simp] theorem clock_dropPos : (s.dropPos k).clock = s.clock := rfl
@[simp] theorem pages_dropPos : (s.dropPos k).pages = s.pages := rfl
@[simp] theorem slots_dropPos : (s.dropPos k).slots = s.slots := rfl
@[simp] theorem plan_dropPos : (s.dropPos k).plan = tdel s.plan k := rfl
@[simp] theorem stages_dropPos : (s.dropPos k).stages = s.stages := rfl
@[simp] theorem jobs_dropPos : (s.dropPos k).jobs = s.jobs := rfl
@[simp] theorem lastJob_dropPos : (s.dropPos k).lastJob = s.lastJob := rfl
@[simp] theorem entryCount_dropPos : (s.dropPos k).entryCount = s.entryCount := rfl
@[simp] theorem racks_dropPos : (s.dropPos k).racks = s.racks := rfl
@[simp] theorem shelves_dropPos : (s.dropPos k).shelves = s.shelves := rfl
@[simp] theorem presses_dropPos : (s.dropPos k).presses = s.presses := rfl
@[simp] theorem engines_dropPos : (s.dropPos k).engines = s.engines := rfl
@[simp] theorem registers_dropPos : (s.dropPos k).registers = s.registers := rfl
@[simp] theorem starved_dropPos : (s.dropPos k).starved = s.starved := rfl
@[simp] theorem lanes_dropPos : (s.dropPos k).lanes = s.lanes := rfl
@[simp] theorem sorter_dropPos : (s.dropPos k).sorter = s.sorter := rfl
@[simp] theorem line_dropPos : (s.dropPos k).line = s.line := rfl
@[simp] theorem limits_dropPos : (s.dropPos k).limits = s.limits := rfl
@[simp] theorem restart_dropPos : (s.dropPos k).restart = s.restart := rfl
@[simp] theorem softResetDue_dropPos : (s.dropPos k).softResetDue = s.softResetDue := rfl
@[simp] theorem ports_dropPos : (s.dropPos k).ports = s.ports := rfl
@[simp] theorem lineSent_dropPos : (s.dropPos k).lineSent = s.lineSent := rfl
@[simp] theorem deskSent_dropPos : (s.dropPos k).deskSent = s.deskSent := rfl
@[simp] theorem pending_dropPos : (s.dropPos k).pending = s.pending := rfl

end

/-! ### setStage -/

section

variable (p : PressId) (x : Stage) (s : State)

@[simp] theorem clock_setStage : (s.setStage p x).clock = s.clock := rfl
@[simp] theorem pages_setStage : (s.setStage p x).pages = s.pages := rfl
@[simp] theorem slots_setStage : (s.setStage p x).slots = s.slots := rfl
@[simp] theorem plan_setStage : (s.setStage p x).plan = s.plan := rfl
@[simp] theorem stages_setStage : (s.setStage p x).stages = vmod s.stages p fun _ => x := rfl
@[simp] theorem jobs_setStage : (s.setStage p x).jobs = s.jobs := rfl
@[simp] theorem lastJob_setStage : (s.setStage p x).lastJob = s.lastJob := rfl
@[simp] theorem entryCount_setStage : (s.setStage p x).entryCount = s.entryCount := rfl
@[simp] theorem racks_setStage : (s.setStage p x).racks = s.racks := rfl
@[simp] theorem shelves_setStage : (s.setStage p x).shelves = s.shelves := rfl
@[simp] theorem presses_setStage : (s.setStage p x).presses = s.presses := rfl
@[simp] theorem engines_setStage : (s.setStage p x).engines = s.engines := rfl
@[simp] theorem registers_setStage : (s.setStage p x).registers = s.registers := rfl
@[simp] theorem starved_setStage : (s.setStage p x).starved = s.starved := rfl
@[simp] theorem lanes_setStage : (s.setStage p x).lanes = s.lanes := rfl
@[simp] theorem sorter_setStage : (s.setStage p x).sorter = s.sorter := rfl
@[simp] theorem line_setStage : (s.setStage p x).line = s.line := rfl
@[simp] theorem limits_setStage : (s.setStage p x).limits = s.limits := rfl
@[simp] theorem restart_setStage : (s.setStage p x).restart = s.restart := rfl
@[simp] theorem softResetDue_setStage : (s.setStage p x).softResetDue = s.softResetDue := rfl
@[simp] theorem ports_setStage : (s.setStage p x).ports = s.ports := rfl
@[simp] theorem lineSent_setStage : (s.setStage p x).lineSent = s.lineSent := rfl
@[simp] theorem deskSent_setStage : (s.setStage p x).deskSent = s.deskSent := rfl
@[simp] theorem pending_setStage : (s.setStage p x).pending = s.pending := rfl

end

/-! ### modPress -/

section

variable (p : PressId) (f : Press → Press) (s : State)

@[simp] theorem clock_modPress : (s.modPress p f).clock = s.clock := rfl
@[simp] theorem pages_modPress : (s.modPress p f).pages = s.pages := rfl
@[simp] theorem slots_modPress : (s.modPress p f).slots = s.slots := rfl
@[simp] theorem plan_modPress : (s.modPress p f).plan = s.plan := rfl
@[simp] theorem stages_modPress : (s.modPress p f).stages = s.stages := rfl
@[simp] theorem jobs_modPress : (s.modPress p f).jobs = s.jobs := rfl
@[simp] theorem lastJob_modPress : (s.modPress p f).lastJob = s.lastJob := rfl
@[simp] theorem entryCount_modPress : (s.modPress p f).entryCount = s.entryCount := rfl
@[simp] theorem racks_modPress : (s.modPress p f).racks = s.racks := rfl
@[simp] theorem shelves_modPress : (s.modPress p f).shelves = s.shelves := rfl
@[simp] theorem presses_modPress : (s.modPress p f).presses = vmod s.presses p f := rfl
@[simp] theorem engines_modPress : (s.modPress p f).engines = s.engines := rfl
@[simp] theorem registers_modPress : (s.modPress p f).registers = s.registers := rfl
@[simp] theorem starved_modPress : (s.modPress p f).starved = s.starved := rfl
@[simp] theorem lanes_modPress : (s.modPress p f).lanes = s.lanes := rfl
@[simp] theorem sorter_modPress : (s.modPress p f).sorter = s.sorter := rfl
@[simp] theorem line_modPress : (s.modPress p f).line = s.line := rfl
@[simp] theorem limits_modPress : (s.modPress p f).limits = s.limits := rfl
@[simp] theorem restart_modPress : (s.modPress p f).restart = s.restart := rfl
@[simp] theorem softResetDue_modPress : (s.modPress p f).softResetDue = s.softResetDue := rfl
@[simp] theorem ports_modPress : (s.modPress p f).ports = s.ports := rfl
@[simp] theorem lineSent_modPress : (s.modPress p f).lineSent = s.lineSent := rfl
@[simp] theorem deskSent_modPress : (s.modPress p f).deskSent = s.deskSent := rfl
@[simp] theorem pending_modPress : (s.modPress p f).pending = s.pending := rfl

end

/-! ### modStatus -/

section

variable (e : EngineId) (f : EngineStatus → EngineStatus) (s : State)

@[simp] theorem clock_modStatus : (s.modStatus e f).clock = s.clock := rfl
@[simp] theorem pages_modStatus : (s.modStatus e f).pages = s.pages := rfl
@[simp] theorem slots_modStatus : (s.modStatus e f).slots = s.slots := rfl
@[simp] theorem plan_modStatus : (s.modStatus e f).plan = s.plan := rfl
@[simp] theorem stages_modStatus : (s.modStatus e f).stages = s.stages := rfl
@[simp] theorem jobs_modStatus : (s.modStatus e f).jobs = s.jobs := rfl
@[simp] theorem lastJob_modStatus : (s.modStatus e f).lastJob = s.lastJob := rfl
@[simp] theorem entryCount_modStatus : (s.modStatus e f).entryCount = s.entryCount := rfl
@[simp] theorem racks_modStatus : (s.modStatus e f).racks = s.racks := rfl
@[simp] theorem shelves_modStatus : (s.modStatus e f).shelves = s.shelves := rfl
@[simp] theorem presses_modStatus : (s.modStatus e f).presses = s.presses := rfl
@[simp] theorem engines_modStatus : (s.modStatus e f).engines = vmod s.engines e fun x => { x with status := f x.status } := rfl
@[simp] theorem registers_modStatus : (s.modStatus e f).registers = s.registers := rfl
@[simp] theorem starved_modStatus : (s.modStatus e f).starved = s.starved := rfl
@[simp] theorem lanes_modStatus : (s.modStatus e f).lanes = s.lanes := rfl
@[simp] theorem sorter_modStatus : (s.modStatus e f).sorter = s.sorter := rfl
@[simp] theorem line_modStatus : (s.modStatus e f).line = s.line := rfl
@[simp] theorem limits_modStatus : (s.modStatus e f).limits = s.limits := rfl
@[simp] theorem restart_modStatus : (s.modStatus e f).restart = s.restart := rfl
@[simp] theorem softResetDue_modStatus : (s.modStatus e f).softResetDue = s.softResetDue := rfl
@[simp] theorem ports_modStatus : (s.modStatus e f).ports = s.ports := rfl
@[simp] theorem lineSent_modStatus : (s.modStatus e f).lineSent = s.lineSent := rfl
@[simp] theorem deskSent_modStatus : (s.modStatus e f).deskSent = s.deskSent := rfl
@[simp] theorem pending_modStatus : (s.modStatus e f).pending = s.pending := rfl

end

/-! ### modGates -/

section

variable (e : EngineId) (f : Gates → Gates) (s : State)

@[simp] theorem clock_modGates : (s.modGates e f).clock = s.clock := rfl
@[simp] theorem pages_modGates : (s.modGates e f).pages = s.pages := rfl
@[simp] theorem slots_modGates : (s.modGates e f).slots = s.slots := rfl
@[simp] theorem plan_modGates : (s.modGates e f).plan = s.plan := rfl
@[simp] theorem stages_modGates : (s.modGates e f).stages = s.stages := rfl
@[simp] theorem jobs_modGates : (s.modGates e f).jobs = s.jobs := rfl
@[simp] theorem lastJob_modGates : (s.modGates e f).lastJob = s.lastJob := rfl
@[simp] theorem entryCount_modGates : (s.modGates e f).entryCount = s.entryCount := rfl
@[simp] theorem racks_modGates : (s.modGates e f).racks = s.racks := rfl
@[simp] theorem shelves_modGates : (s.modGates e f).shelves = s.shelves := rfl
@[simp] theorem presses_modGates : (s.modGates e f).presses = s.presses := rfl
@[simp] theorem engines_modGates : (s.modGates e f).engines = vmod s.engines e fun x => { x with gates := f x.gates } := rfl
@[simp] theorem registers_modGates : (s.modGates e f).registers = s.registers := rfl
@[simp] theorem starved_modGates : (s.modGates e f).starved = s.starved := rfl
@[simp] theorem lanes_modGates : (s.modGates e f).lanes = s.lanes := rfl
@[simp] theorem sorter_modGates : (s.modGates e f).sorter = s.sorter := rfl
@[simp] theorem line_modGates : (s.modGates e f).line = s.line := rfl
@[simp] theorem limits_modGates : (s.modGates e f).limits = s.limits := rfl
@[simp] theorem restart_modGates : (s.modGates e f).restart = s.restart := rfl
@[simp] theorem softResetDue_modGates : (s.modGates e f).softResetDue = s.softResetDue := rfl
@[simp] theorem ports_modGates : (s.modGates e f).ports = s.ports := rfl
@[simp] theorem lineSent_modGates : (s.modGates e f).lineSent = s.lineSent := rfl
@[simp] theorem deskSent_modGates : (s.modGates e f).deskSent = s.deskSent := rfl
@[simp] theorem pending_modGates : (s.modGates e f).pending = s.pending := rfl

end

/-! ### modCassette -/

section

variable (e : EngineId) (f : Cassette → Cassette) (s : State)

@[simp] theorem clock_modCassette : (s.modCassette e f).clock = s.clock := rfl
@[simp] theorem pages_modCassette : (s.modCassette e f).pages = s.pages := rfl
@[simp] theorem slots_modCassette : (s.modCassette e f).slots = s.slots := rfl
@[simp] theorem plan_modCassette : (s.modCassette e f).plan = s.plan := rfl
@[simp] theorem stages_modCassette : (s.modCassette e f).stages = s.stages := rfl
@[simp] theorem jobs_modCassette : (s.modCassette e f).jobs = s.jobs := rfl
@[simp] theorem lastJob_modCassette : (s.modCassette e f).lastJob = s.lastJob := rfl
@[simp] theorem entryCount_modCassette : (s.modCassette e f).entryCount = s.entryCount := rfl
@[simp] theorem racks_modCassette : (s.modCassette e f).racks = s.racks := rfl
@[simp] theorem shelves_modCassette : (s.modCassette e f).shelves = s.shelves := rfl
@[simp] theorem presses_modCassette : (s.modCassette e f).presses = s.presses := rfl
@[simp] theorem engines_modCassette : (s.modCassette e f).engines = vmod s.engines e fun x => { x with cassette := f x.cassette } := rfl
@[simp] theorem registers_modCassette : (s.modCassette e f).registers = s.registers := rfl
@[simp] theorem starved_modCassette : (s.modCassette e f).starved = s.starved := rfl
@[simp] theorem lanes_modCassette : (s.modCassette e f).lanes = s.lanes := rfl
@[simp] theorem sorter_modCassette : (s.modCassette e f).sorter = s.sorter := rfl
@[simp] theorem line_modCassette : (s.modCassette e f).line = s.line := rfl
@[simp] theorem limits_modCassette : (s.modCassette e f).limits = s.limits := rfl
@[simp] theorem restart_modCassette : (s.modCassette e f).restart = s.restart := rfl
@[simp] theorem softResetDue_modCassette : (s.modCassette e f).softResetDue = s.softResetDue := rfl
@[simp] theorem ports_modCassette : (s.modCassette e f).ports = s.ports := rfl
@[simp] theorem lineSent_modCassette : (s.modCassette e f).lineSent = s.lineSent := rfl
@[simp] theorem deskSent_modCassette : (s.modCassette e f).deskSent = s.deskSent := rfl
@[simp] theorem pending_modCassette : (s.modCassette e f).pending = s.pending := rfl

end

/-! ### setRegister -/

section

variable (e : EngineId) (r : Register) (s : State)

@[simp] theorem clock_setRegister : (s.setRegister e r).clock = s.clock := rfl
@[simp] theorem pages_setRegister : (s.setRegister e r).pages = s.pages := rfl
@[simp] theorem slots_setRegister : (s.setRegister e r).slots = s.slots := rfl
@[simp] theorem plan_setRegister : (s.setRegister e r).plan = s.plan := rfl
@[simp] theorem stages_setRegister : (s.setRegister e r).stages = s.stages := rfl
@[simp] theorem jobs_setRegister : (s.setRegister e r).jobs = s.jobs := rfl
@[simp] theorem lastJob_setRegister : (s.setRegister e r).lastJob = s.lastJob := rfl
@[simp] theorem entryCount_setRegister : (s.setRegister e r).entryCount = s.entryCount := rfl
@[simp] theorem racks_setRegister : (s.setRegister e r).racks = s.racks := rfl
@[simp] theorem shelves_setRegister : (s.setRegister e r).shelves = s.shelves := rfl
@[simp] theorem presses_setRegister : (s.setRegister e r).presses = s.presses := rfl
@[simp] theorem engines_setRegister : (s.setRegister e r).engines = s.engines := rfl
@[simp] theorem registers_setRegister : (s.setRegister e r).registers = vmod s.registers e fun _ => r := rfl
@[simp] theorem starved_setRegister : (s.setRegister e r).starved = s.starved := rfl
@[simp] theorem lanes_setRegister : (s.setRegister e r).lanes = s.lanes := rfl
@[simp] theorem sorter_setRegister : (s.setRegister e r).sorter = s.sorter := rfl
@[simp] theorem line_setRegister : (s.setRegister e r).line = s.line := rfl
@[simp] theorem limits_setRegister : (s.setRegister e r).limits = s.limits := rfl
@[simp] theorem restart_setRegister : (s.setRegister e r).restart = s.restart := rfl
@[simp] theorem softResetDue_setRegister : (s.setRegister e r).softResetDue = s.softResetDue := rfl
@[simp] theorem ports_setRegister : (s.setRegister e r).ports = s.ports := rfl
@[simp] theorem lineSent_setRegister : (s.setRegister e r).lineSent = s.lineSent := rfl
@[simp] theorem deskSent_setRegister : (s.setRegister e r).deskSent = s.deskSent := rfl
@[simp] theorem pending_setRegister : (s.setRegister e r).pending = s.pending := rfl

end

/-! ### modLane -/

section

variable (l : LaneId) (f : Lane → Lane) (s : State)

@[simp] theorem clock_modLane : (s.modLane l f).clock = s.clock := rfl
@[simp] theorem pages_modLane : (s.modLane l f).pages = s.pages := rfl
@[simp] theorem slots_modLane : (s.modLane l f).slots = s.slots := rfl
@[simp] theorem plan_modLane : (s.modLane l f).plan = s.plan := rfl
@[simp] theorem stages_modLane : (s.modLane l f).stages = s.stages := rfl
@[simp] theorem jobs_modLane : (s.modLane l f).jobs = s.jobs := rfl
@[simp] theorem lastJob_modLane : (s.modLane l f).lastJob = s.lastJob := rfl
@[simp] theorem entryCount_modLane : (s.modLane l f).entryCount = s.entryCount := rfl
@[simp] theorem racks_modLane : (s.modLane l f).racks = s.racks := rfl
@[simp] theorem shelves_modLane : (s.modLane l f).shelves = s.shelves := rfl
@[simp] theorem presses_modLane : (s.modLane l f).presses = s.presses := rfl
@[simp] theorem engines_modLane : (s.modLane l f).engines = s.engines := rfl
@[simp] theorem registers_modLane : (s.modLane l f).registers = s.registers := rfl
@[simp] theorem starved_modLane : (s.modLane l f).starved = s.starved := rfl
@[simp] theorem lanes_modLane : (s.modLane l f).lanes = vmod s.lanes l f := rfl
@[simp] theorem sorter_modLane : (s.modLane l f).sorter = s.sorter := rfl
@[simp] theorem line_modLane : (s.modLane l f).line = s.line := rfl
@[simp] theorem limits_modLane : (s.modLane l f).limits = s.limits := rfl
@[simp] theorem restart_modLane : (s.modLane l f).restart = s.restart := rfl
@[simp] theorem softResetDue_modLane : (s.modLane l f).softResetDue = s.softResetDue := rfl
@[simp] theorem ports_modLane : (s.modLane l f).ports = s.ports := rfl
@[simp] theorem lineSent_modLane : (s.modLane l f).lineSent = s.lineSent := rfl
@[simp] theorem deskSent_modLane : (s.modLane l f).deskSent = s.deskSent := rfl
@[simp] theorem pending_modLane : (s.modLane l f).pending = s.pending := rfl

end

/-! ### modSorter -/

section

variable (f : Sorter → Sorter) (s : State)

@[simp] theorem clock_modSorter : (s.modSorter f).clock = s.clock := rfl
@[simp] theorem pages_modSorter : (s.modSorter f).pages = s.pages := rfl
@[simp] theorem slots_modSorter : (s.modSorter f).slots = s.slots := rfl
@[simp] theorem plan_modSorter : (s.modSorter f).plan = s.plan := rfl
@[simp] theorem stages_modSorter : (s.modSorter f).stages = s.stages := rfl
@[simp] theorem jobs_modSorter : (s.modSorter f).jobs = s.jobs := rfl
@[simp] theorem lastJob_modSorter : (s.modSorter f).lastJob = s.lastJob := rfl
@[simp] theorem entryCount_modSorter : (s.modSorter f).entryCount = s.entryCount := rfl
@[simp] theorem racks_modSorter : (s.modSorter f).racks = s.racks := rfl
@[simp] theorem shelves_modSorter : (s.modSorter f).shelves = s.shelves := rfl
@[simp] theorem presses_modSorter : (s.modSorter f).presses = s.presses := rfl
@[simp] theorem engines_modSorter : (s.modSorter f).engines = s.engines := rfl
@[simp] theorem registers_modSorter : (s.modSorter f).registers = s.registers := rfl
@[simp] theorem starved_modSorter : (s.modSorter f).starved = s.starved := rfl
@[simp] theorem lanes_modSorter : (s.modSorter f).lanes = s.lanes := rfl
@[simp] theorem sorter_modSorter : (s.modSorter f).sorter = f s.sorter := rfl
@[simp] theorem line_modSorter : (s.modSorter f).line = s.line := rfl
@[simp] theorem limits_modSorter : (s.modSorter f).limits = s.limits := rfl
@[simp] theorem restart_modSorter : (s.modSorter f).restart = s.restart := rfl
@[simp] theorem softResetDue_modSorter : (s.modSorter f).softResetDue = s.softResetDue := rfl
@[simp] theorem ports_modSorter : (s.modSorter f).ports = s.ports := rfl
@[simp] theorem lineSent_modSorter : (s.modSorter f).lineSent = s.lineSent := rfl
@[simp] theorem deskSent_modSorter : (s.modSorter f).deskSent = s.deskSent := rfl
@[simp] theorem pending_modSorter : (s.modSorter f).pending = s.pending := rfl

end

/-! ### modLine -/

section

variable (f : LineControl → LineControl) (s : State)

@[simp] theorem clock_modLine : (s.modLine f).clock = s.clock := rfl
@[simp] theorem pages_modLine : (s.modLine f).pages = s.pages := rfl
@[simp] theorem slots_modLine : (s.modLine f).slots = s.slots := rfl
@[simp] theorem plan_modLine : (s.modLine f).plan = s.plan := rfl
@[simp] theorem stages_modLine : (s.modLine f).stages = s.stages := rfl
@[simp] theorem jobs_modLine : (s.modLine f).jobs = s.jobs := rfl
@[simp] theorem lastJob_modLine : (s.modLine f).lastJob = s.lastJob := rfl
@[simp] theorem entryCount_modLine : (s.modLine f).entryCount = s.entryCount := rfl
@[simp] theorem racks_modLine : (s.modLine f).racks = s.racks := rfl
@[simp] theorem shelves_modLine : (s.modLine f).shelves = s.shelves := rfl
@[simp] theorem presses_modLine : (s.modLine f).presses = s.presses := rfl
@[simp] theorem engines_modLine : (s.modLine f).engines = s.engines := rfl
@[simp] theorem registers_modLine : (s.modLine f).registers = s.registers := rfl
@[simp] theorem starved_modLine : (s.modLine f).starved = s.starved := rfl
@[simp] theorem lanes_modLine : (s.modLine f).lanes = s.lanes := rfl
@[simp] theorem sorter_modLine : (s.modLine f).sorter = s.sorter := rfl
@[simp] theorem line_modLine : (s.modLine f).line = f s.line := rfl
@[simp] theorem limits_modLine : (s.modLine f).limits = s.limits := rfl
@[simp] theorem restart_modLine : (s.modLine f).restart = s.restart := rfl
@[simp] theorem softResetDue_modLine : (s.modLine f).softResetDue = s.softResetDue := rfl
@[simp] theorem ports_modLine : (s.modLine f).ports = s.ports := rfl
@[simp] theorem lineSent_modLine : (s.modLine f).lineSent = s.lineSent := rfl
@[simp] theorem deskSent_modLine : (s.modLine f).deskSent = s.deskSent := rfl
@[simp] theorem pending_modLine : (s.modLine f).pending = s.pending := rfl

end

/-! ### modLimits -/

section

variable (f : Limits → Limits) (s : State)

@[simp] theorem clock_modLimits : (s.modLimits f).clock = s.clock := rfl
@[simp] theorem pages_modLimits : (s.modLimits f).pages = s.pages := rfl
@[simp] theorem slots_modLimits : (s.modLimits f).slots = s.slots := rfl
@[simp] theorem plan_modLimits : (s.modLimits f).plan = s.plan := rfl
@[simp] theorem stages_modLimits : (s.modLimits f).stages = s.stages := rfl
@[simp] theorem jobs_modLimits : (s.modLimits f).jobs = s.jobs := rfl
@[simp] theorem lastJob_modLimits : (s.modLimits f).lastJob = s.lastJob := rfl
@[simp] theorem entryCount_modLimits : (s.modLimits f).entryCount = s.entryCount := rfl
@[simp] theorem racks_modLimits : (s.modLimits f).racks = s.racks := rfl
@[simp] theorem shelves_modLimits : (s.modLimits f).shelves = s.shelves := rfl
@[simp] theorem presses_modLimits : (s.modLimits f).presses = s.presses := rfl
@[simp] theorem engines_modLimits : (s.modLimits f).engines = s.engines := rfl
@[simp] theorem registers_modLimits : (s.modLimits f).registers = s.registers := rfl
@[simp] theorem starved_modLimits : (s.modLimits f).starved = s.starved := rfl
@[simp] theorem lanes_modLimits : (s.modLimits f).lanes = s.lanes := rfl
@[simp] theorem sorter_modLimits : (s.modLimits f).sorter = s.sorter := rfl
@[simp] theorem line_modLimits : (s.modLimits f).line = s.line := rfl
@[simp] theorem limits_modLimits : (s.modLimits f).limits = f s.limits := rfl
@[simp] theorem restart_modLimits : (s.modLimits f).restart = s.restart := rfl
@[simp] theorem softResetDue_modLimits : (s.modLimits f).softResetDue = s.softResetDue := rfl
@[simp] theorem ports_modLimits : (s.modLimits f).ports = s.ports := rfl
@[simp] theorem lineSent_modLimits : (s.modLimits f).lineSent = s.lineSent := rfl
@[simp] theorem deskSent_modLimits : (s.modLimits f).deskSent = s.deskSent := rfl
@[simp] theorem pending_modLimits : (s.modLimits f).pending = s.pending := rfl

end

/-! ### modRestart -/

section

variable (f : Restart → Restart) (s : State)

@[simp] theorem clock_modRestart : (s.modRestart f).clock = s.clock := rfl
@[simp] theorem pages_modRestart : (s.modRestart f).pages = s.pages := rfl
@[simp] theorem slots_modRestart : (s.modRestart f).slots = s.slots := rfl
@[simp] theorem plan_modRestart : (s.modRestart f).plan = s.plan := rfl
@[simp] theorem stages_modRestart : (s.modRestart f).stages = s.stages := rfl
@[simp] theorem jobs_modRestart : (s.modRestart f).jobs = s.jobs := rfl
@[simp] theorem lastJob_modRestart : (s.modRestart f).lastJob = s.lastJob := rfl
@[simp] theorem entryCount_modRestart : (s.modRestart f).entryCount = s.entryCount := rfl
@[simp] theorem racks_modRestart : (s.modRestart f).racks = s.racks := rfl
@[simp] theorem shelves_modRestart : (s.modRestart f).shelves = s.shelves := rfl
@[simp] theorem presses_modRestart : (s.modRestart f).presses = s.presses := rfl
@[simp] theorem engines_modRestart : (s.modRestart f).engines = s.engines := rfl
@[simp] theorem registers_modRestart : (s.modRestart f).registers = s.registers := rfl
@[simp] theorem starved_modRestart : (s.modRestart f).starved = s.starved := rfl
@[simp] theorem lanes_modRestart : (s.modRestart f).lanes = s.lanes := rfl
@[simp] theorem sorter_modRestart : (s.modRestart f).sorter = s.sorter := rfl
@[simp] theorem line_modRestart : (s.modRestart f).line = s.line := rfl
@[simp] theorem limits_modRestart : (s.modRestart f).limits = s.limits := rfl
@[simp] theorem restart_modRestart : (s.modRestart f).restart = f s.restart := rfl
@[simp] theorem softResetDue_modRestart : (s.modRestart f).softResetDue = s.softResetDue := rfl
@[simp] theorem ports_modRestart : (s.modRestart f).ports = s.ports := rfl
@[simp] theorem lineSent_modRestart : (s.modRestart f).lineSent = s.lineSent := rfl
@[simp] theorem deskSent_modRestart : (s.modRestart f).deskSent = s.deskSent := rfl
@[simp] theorem pending_modRestart : (s.modRestart f).pending = s.pending := rfl

end

/-! ### setSoftDue -/

section

variable (b : Bool) (s : State)

@[simp] theorem clock_setSoftDue : (s.setSoftDue b).clock = s.clock := rfl
@[simp] theorem pages_setSoftDue : (s.setSoftDue b).pages = s.pages := rfl
@[simp] theorem slots_setSoftDue : (s.setSoftDue b).slots = s.slots := rfl
@[simp] theorem plan_setSoftDue : (s.setSoftDue b).plan = s.plan := rfl
@[simp] theorem stages_setSoftDue : (s.setSoftDue b).stages = s.stages := rfl
@[simp] theorem jobs_setSoftDue : (s.setSoftDue b).jobs = s.jobs := rfl
@[simp] theorem lastJob_setSoftDue : (s.setSoftDue b).lastJob = s.lastJob := rfl
@[simp] theorem entryCount_setSoftDue : (s.setSoftDue b).entryCount = s.entryCount := rfl
@[simp] theorem racks_setSoftDue : (s.setSoftDue b).racks = s.racks := rfl
@[simp] theorem shelves_setSoftDue : (s.setSoftDue b).shelves = s.shelves := rfl
@[simp] theorem presses_setSoftDue : (s.setSoftDue b).presses = s.presses := rfl
@[simp] theorem engines_setSoftDue : (s.setSoftDue b).engines = s.engines := rfl
@[simp] theorem registers_setSoftDue : (s.setSoftDue b).registers = s.registers := rfl
@[simp] theorem starved_setSoftDue : (s.setSoftDue b).starved = s.starved := rfl
@[simp] theorem lanes_setSoftDue : (s.setSoftDue b).lanes = s.lanes := rfl
@[simp] theorem sorter_setSoftDue : (s.setSoftDue b).sorter = s.sorter := rfl
@[simp] theorem line_setSoftDue : (s.setSoftDue b).line = s.line := rfl
@[simp] theorem limits_setSoftDue : (s.setSoftDue b).limits = s.limits := rfl
@[simp] theorem restart_setSoftDue : (s.setSoftDue b).restart = s.restart := rfl
@[simp] theorem softResetDue_setSoftDue : (s.setSoftDue b).softResetDue = b := rfl
@[simp] theorem ports_setSoftDue : (s.setSoftDue b).ports = s.ports := rfl
@[simp] theorem lineSent_setSoftDue : (s.setSoftDue b).lineSent = s.lineSent := rfl
@[simp] theorem deskSent_setSoftDue : (s.setSoftDue b).deskSent = s.deskSent := rfl
@[simp] theorem pending_setSoftDue : (s.setSoftDue b).pending = s.pending := rfl

end

/-! ### setRights -/

section

variable (p : PortId) (r : Rights) (s : State)

@[simp] theorem clock_setRights : (s.setRights p r).clock = s.clock := rfl
@[simp] theorem pages_setRights : (s.setRights p r).pages = s.pages := rfl
@[simp] theorem slots_setRights : (s.setRights p r).slots = s.slots := rfl
@[simp] theorem plan_setRights : (s.setRights p r).plan = s.plan := rfl
@[simp] theorem stages_setRights : (s.setRights p r).stages = s.stages := rfl
@[simp] theorem jobs_setRights : (s.setRights p r).jobs = s.jobs := rfl
@[simp] theorem lastJob_setRights : (s.setRights p r).lastJob = s.lastJob := rfl
@[simp] theorem entryCount_setRights : (s.setRights p r).entryCount = s.entryCount := rfl
@[simp] theorem racks_setRights : (s.setRights p r).racks = s.racks := rfl
@[simp] theorem shelves_setRights : (s.setRights p r).shelves = s.shelves := rfl
@[simp] theorem presses_setRights : (s.setRights p r).presses = s.presses := rfl
@[simp] theorem engines_setRights : (s.setRights p r).engines = s.engines := rfl
@[simp] theorem registers_setRights : (s.setRights p r).registers = s.registers := rfl
@[simp] theorem starved_setRights : (s.setRights p r).starved = s.starved := rfl
@[simp] theorem lanes_setRights : (s.setRights p r).lanes = s.lanes := rfl
@[simp] theorem sorter_setRights : (s.setRights p r).sorter = s.sorter := rfl
@[simp] theorem line_setRights : (s.setRights p r).line = s.line := rfl
@[simp] theorem limits_setRights : (s.setRights p r).limits = s.limits := rfl
@[simp] theorem restart_setRights : (s.setRights p r).restart = s.restart := rfl
@[simp] theorem softResetDue_setRights : (s.setRights p r).softResetDue = s.softResetDue := rfl
@[simp] theorem ports_setRights : (s.setRights p r).ports = vmod s.ports p fun x => { x with rights := r } := rfl
@[simp] theorem lineSent_setRights : (s.setRights p r).lineSent = s.lineSent := rfl
@[simp] theorem deskSent_setRights : (s.setRights p r).deskSent = s.deskSent := rfl
@[simp] theorem pending_setRights : (s.setRights p r).pending = s.pending := rfl

end

/-! ### setMask -/

section

variable (p : PortId) (m : Mask) (s : State)

@[simp] theorem clock_setMask : (s.setMask p m).clock = s.clock := rfl
@[simp] theorem pages_setMask : (s.setMask p m).pages = s.pages := rfl
@[simp] theorem slots_setMask : (s.setMask p m).slots = s.slots := rfl
@[simp] theorem plan_setMask : (s.setMask p m).plan = s.plan := rfl
@[simp] theorem stages_setMask : (s.setMask p m).stages = s.stages := rfl
@[simp] theorem jobs_setMask : (s.setMask p m).jobs = s.jobs := rfl
@[simp] theorem lastJob_setMask : (s.setMask p m).lastJob = s.lastJob := rfl
@[simp] theorem entryCount_setMask : (s.setMask p m).entryCount = s.entryCount := rfl
@[simp] theorem racks_setMask : (s.setMask p m).racks = s.racks := rfl
@[simp] theorem shelves_setMask : (s.setMask p m).shelves = s.shelves := rfl
@[simp] theorem presses_setMask : (s.setMask p m).presses = s.presses := rfl
@[simp] theorem engines_setMask : (s.setMask p m).engines = s.engines := rfl
@[simp] theorem registers_setMask : (s.setMask p m).registers = s.registers := rfl
@[simp] theorem starved_setMask : (s.setMask p m).starved = s.starved := rfl
@[simp] theorem lanes_setMask : (s.setMask p m).lanes = s.lanes := rfl
@[simp] theorem sorter_setMask : (s.setMask p m).sorter = s.sorter := rfl
@[simp] theorem line_setMask : (s.setMask p m).line = s.line := rfl
@[simp] theorem limits_setMask : (s.setMask p m).limits = s.limits := rfl
@[simp] theorem restart_setMask : (s.setMask p m).restart = s.restart := rfl
@[simp] theorem softResetDue_setMask : (s.setMask p m).softResetDue = s.softResetDue := rfl
@[simp] theorem ports_setMask : (s.setMask p m).ports = vmod s.ports p fun x => { x with mask := m } := rfl
@[simp] theorem lineSent_setMask : (s.setMask p m).lineSent = s.lineSent := rfl
@[simp] theorem deskSent_setMask : (s.setMask p m).deskSent = s.deskSent := rfl
@[simp] theorem pending_setMask : (s.setMask p m).pending = s.pending := rfl

end

/-! ### logDesk -/

section

variable (p : PortId) (f : OutFrame) (s : State)

@[simp] theorem clock_logDesk : (s.logDesk p f).clock = s.clock := rfl
@[simp] theorem pages_logDesk : (s.logDesk p f).pages = s.pages := rfl
@[simp] theorem slots_logDesk : (s.logDesk p f).slots = s.slots := rfl
@[simp] theorem plan_logDesk : (s.logDesk p f).plan = s.plan := rfl
@[simp] theorem stages_logDesk : (s.logDesk p f).stages = s.stages := rfl
@[simp] theorem jobs_logDesk : (s.logDesk p f).jobs = s.jobs := rfl
@[simp] theorem lastJob_logDesk : (s.logDesk p f).lastJob = s.lastJob := rfl
@[simp] theorem entryCount_logDesk : (s.logDesk p f).entryCount = s.entryCount := rfl
@[simp] theorem racks_logDesk : (s.logDesk p f).racks = s.racks := rfl
@[simp] theorem shelves_logDesk : (s.logDesk p f).shelves = s.shelves := rfl
@[simp] theorem presses_logDesk : (s.logDesk p f).presses = s.presses := rfl
@[simp] theorem engines_logDesk : (s.logDesk p f).engines = s.engines := rfl
@[simp] theorem registers_logDesk : (s.logDesk p f).registers = s.registers := rfl
@[simp] theorem starved_logDesk : (s.logDesk p f).starved = s.starved := rfl
@[simp] theorem lanes_logDesk : (s.logDesk p f).lanes = s.lanes := rfl
@[simp] theorem sorter_logDesk : (s.logDesk p f).sorter = s.sorter := rfl
@[simp] theorem line_logDesk : (s.logDesk p f).line = s.line := rfl
@[simp] theorem limits_logDesk : (s.logDesk p f).limits = s.limits := rfl
@[simp] theorem restart_logDesk : (s.logDesk p f).restart = s.restart := rfl
@[simp] theorem softResetDue_logDesk : (s.logDesk p f).softResetDue = s.softResetDue := rfl
@[simp] theorem ports_logDesk : (s.logDesk p f).ports = s.ports := rfl
@[simp] theorem lineSent_logDesk : (s.logDesk p f).lineSent = s.lineSent := rfl
@[simp] theorem deskSent_logDesk : (s.logDesk p f).deskSent = s.deskSent ++ [(p, f)] := rfl
@[simp] theorem pending_logDesk : (s.logDesk p f).pending = s.pending := rfl

end

end Sys2Proof.Machine.State
end

