-- ==== Sys2Proof/Laws/Serve.lean ====
section
/-! SUPPORT. Laws/Serve.lean: everything that serving the engines can do (R81, R82, R85, R86, R106, R160):
the operation `serve` is a chain of the steps of `ServeStep` and of nothing else. -/

namespace Sys2Proof.Machine

open State

/-- One thing that serving the engines does. -/
inductive ServeStep : State → State → Prop
  | starved (s : State) (b : Bool) : ServeStep s (s.setStarved b)
  | offer (s : State) (p : PortId) (n : Notice) (h : (s.port p).mask.has n.cls = true) :
      ServeStep s (s.modLink p (Link.offer s.clock n))
  | assign (s : State) (e : EngineId) (n : Nat) (j : Job) (hj : s.job? n = some j) (hq : j.state = .queued)
      (he : s.eligible e n j = true) (hn : (s.engine e).ctx.next = none) : ServeStep s (assign e n j s)
  | park (s : State) (e : EngineId) (w : WaitingCtx) (hu : (s.engine e).ungated = true)
      (hw : (s.engine e).ctx.next = some w) (hs : w.stage ≠ .exposeSent)
      (hp : (s.engine e).ctx.parked = none) :
      ServeStep s (s.modCtx e fun c => { c with parked := c.next, next := none })
  | expose (s : State) (e : EngineId) (h : s.exposeReady e = true) : ServeStep s (sendExpose e s)
  | stopLane (s : State) (l : LaneId) (h : s.line.state = .stopping) : ServeStep s (s.stopLane l)
  | reached (s : State) (es : Vector Bool 6) (ls : Vector Bool 2) (h : s.line.state = .stopping) :
      ServeStep s (s.setReached es ls)
  | stopped (s : State) (h : s.line.state = .stopping) : ServeStep s s.setStopped

/-- A chain of such steps. -/
abbrev Serves : State → State → Prop := Relation.ReflTransGen ServeStep

/-- A single step is a chain. -/
theorem ServeStep.serves {s t : State} (h : ServeStep s t) : Serves s t := Relation.ReflTransGen.single h

/-! ### Chains over lists -/

/-- A fold of operations that are chains is a chain. -/
theorem foldl_chain {α : Type} {r : State → State → Prop} (f : State → α → State) (l : List α) (s : State)
    (h : ∀ s, ∀ x ∈ l, Relation.ReflTransGen r s (f s x)) : Relation.ReflTransGen r s (l.foldl f s) := by
  induction l generalizing s with
  | nil => exact .refl
  | cons x l ih =>
    simp only [List.foldl_cons]
    exact (h s x (by simp)).trans (ih _ fun s y hy => h s y (List.mem_cons_of_mem _ hy))

/-- The same where each operation needs a property that chains keep. -/
theorem foldl_chain_of {α : Type} {r : State → State → Prop} {P : State → Prop} (f : State → α → State)
    (hP : ∀ s t, P s → Relation.ReflTransGen r s t → P t) (l : List α) (s : State) (hs : P s)
    (h : ∀ s, P s → ∀ x ∈ l, Relation.ReflTransGen r s (f s x)) :
    Relation.ReflTransGen r s (l.foldl f s) := by
  induction l generalizing s with
  | nil => exact .refl
  | cons x l ih =>
    simp only [List.foldl_cons]
    have hx := h s hs x (by simp)
    exact hx.trans (ih _ (hP _ _ hs hx) fun s h' y hy => h s h' y (List.mem_cons_of_mem _ hy))

/-! ### Notices -/

/-- Offering a notice to a port. -/
theorem offerTo_serves (n : Notice) (p : PortId) (s : State) : Serves s (offerTo n p s) := by
  unfold offerTo
  split
  · exact (ServeStep.offer s p n (by assumption)).serves
  · exact .refl

/-- Raising a notice. -/
theorem raise_serves (n : Notice) (s : State) : Serves s (raise n s) :=
  foldl_chain _ _ _ fun s p _ => offerTo_serves n p s

/-- Raising notices in order. -/
theorem raiseAll_serves (ns : List Notice) (s : State) : Serves s (raiseAll ns s) :=
  foldl_chain _ _ _ fun s n _ => raise_serves n s

/-! ### What is kept in order -/

/-- Serving keeps the job table in order. -/
theorem ServeStep.jobs_ordered {s t : State} (h : ServeStep s t) (hs : Table.ordered id s.jobs) :
    Table.ordered id t.jobs := by
  cases h with
  | assign e n j =>
    simp only [Machine.assign, jobs_send, jobs_modJob, jobs_modCtx]
    exact ordered_tmod _ _ hs
  | expose e =>
    unfold sendExpose
    split
    · exact hs
    · simp only [jobs_send, jobs_modJob, jobs_modCtx]
      exact ordered_tmod _ _ hs
  | _ => exact hs

/-- Serving keeps the job table in order. -/
theorem Serves.jobs_ordered {s t : State} (hs : Table.ordered id s.jobs) (h : Serves s t) :
    Table.ordered id t.jobs := by
  induction h with
  | refl => exact hs
  | tail _ hu ih => exact hu.jobs_ordered ih

/-! ### Sorting -/

/-- Inserting puts in nothing but the element. -/
theorem mem_insertBy {α : Type} (lt : α → α → Bool) (x y : α) (l : List α) :
    y ∈ insertBy lt x l ↔ y = x ∨ y ∈ l := by
  induction l with
  | nil => simp [insertBy]
  | cons a l ih =>
    simp only [insertBy]
    split
    · simp only [List.mem_cons, ih]; tauto
    · simp only [List.mem_cons]

/-- Sorting keeps the members. -/
theorem mem_sortBy {α : Type} (lt : α → α → Bool) (y : α) (l : List α) : y ∈ sortBy lt l ↔ y ∈ l := by
  induction l with
  | nil => simp [sortBy]
  | cons a l ih =>
    simp only [sortBy, List.foldr_cons] at ih ⊢
    rw [mem_insertBy, ih, List.mem_cons]

/-- Sorting rearranges a list. -/
theorem insertBy_perm {α : Type} (lt : α → α → Bool) (x : α) (l : List α) :
    (insertBy lt x l).Perm (x :: l) := by
  induction l with
  | nil => exact .refl _
  | cons a l ih =>
    simp only [insertBy]
    split
    · exact (ih.cons a).trans (.swap _ _ _)
    · exact .refl _

/-- Sorting rearranges a list. -/
theorem sortBy_perm {α : Type} (lt : α → α → Bool) (l : List α) : (sortBy lt l).Perm l := by
  induction l with
  | nil => exact .refl _
  | cons a l ih =>
    simp only [sortBy, List.foldr_cons] at ih ⊢
    exact (insertBy_perm _ _ _).trans (ih.cons a)

/-! ### The dispatcher -/

/-- A job that is offered is in the table, QUEUED. -/
theorem mem_offered {s : State} {c : JobClass} {x : Nat × Job} (h : x ∈ s.offered c) :
    x ∈ s.jobs ∧ x.2.state = .queued := by
  simp only [State.offered, State.readyQueue, List.mem_filter, mem_sortBy] at h
  obtain ⟨⟨hm, hq⟩, _⟩ := h
  refine ⟨hm, ?_⟩
  simp at hq
  exact hq.1

/-- The job that an engine takes is QUEUED, and the engine is eligible for it. -/
theorem firstFor_spec {s : State} (hs : Table.ordered id s.jobs) {e : EngineId} {x : Nat × Job}
    (h : firstFor s e = some x) :
    s.job? x.1 = some x.2 ∧ x.2.state = .queued ∧ s.eligible e x.1 x.2 = true := by
  have key : ∀ c, (s.offered c).find? (fun x => s.eligible e x.1 x.2) = some x →
      s.job? x.1 = some x.2 ∧ x.2.state = .queued ∧ s.eligible e x.1 x.2 = true := by
    intro c hc
    have hm := mem_offered (List.mem_of_find?_eq_some hc)
    exact ⟨tget_of_mem hs hm.1, hm.2, by simpa using List.find?_some hc⟩
  unfold firstFor at h
  split at h
  · rename_i y hy
    cases h
    exact key .urgent hy
  · exact key .normal h

/-- Filling one engine. -/
theorem fill_serves {s : State} (hs : Table.ordered id s.jobs) (e : EngineId) : Serves s (fill e s) := by
  unfold fill
  split
  · rename_i hn
    split
    · rename_i x hx
      obtain ⟨h1, h2, h3⟩ := firstFor_spec hs hx
      exact (ServeStep.assign s e x.1 x.2 h1 h2 h3 (by simpa using hn)).serves
    · exact .refl
  · exact .refl

/-- Filling the engines. -/
theorem fillAll_serves {s : State} (hs : Table.ordered id s.jobs) : Serves s (fillAll s) :=
  foldl_chain_of (P := fun s => Table.ordered id s.jobs) _ (fun _ _ h ht => Serves.jobs_ordered h ht) _ _ hs
    fun _ h e _ => fill_serves h e

/-- Preempting with jobs that are QUEUED, each listed once. -/
theorem preemptFrom_serves (l : List (Nat × Job)) (s : State)
    (hl : ∀ x ∈ l, s.job? x.1 = some x.2 ∧ x.2.state = .queued) (hd : (l.map Prod.fst).Nodup) :
    Serves s (preemptFrom l s) := by
  induction l generalizing s with
  | nil => exact .refl
  | cons x l ih =>
    obtain ⟨n, j⟩ := x
    simp only [preemptFrom]
    split
    · rename_i e he
      have hf := List.find?_some he
      simp only [Bool.and_eq_true] at hf
      obtain ⟨hel, hpre⟩ := hf
      have hj := hl (n, j) (by simp)
      simp only [State.preemptable, Contexts.displaceable, Bool.and_eq_true] at hpre
      obtain ⟨hdis, hcls⟩ := hpre
      cases hw : (s.engine e).ctx.next with
      | none => simp [hw] at hdis
      | some w =>
        simp only [hw, Bool.and_eq_true, decide_eq_true_eq, Option.isNone_iff_eq_none] at hdis
        have hu : (s.engine e).ungated = true := by
          simp only [State.eligible, Bool.and_eq_true] at hel
          exact hel.1.1.1
        have h1 := ServeStep.park s e w hu hw hdis.1 hdis.2
        have h2 : ServeStep (s.modCtx e fun c => { c with parked := c.next, next := none })
            (preemptOn e n j s) := by
          refine ServeStep.assign _ e n j hj.1 hj.2 ?_ ?_
          · simp only [State.eligible, State.engine, State.register, Engine.ungated, Engine.starved,
              Contexts.cancelled, engines_modCtx, registers_modCtx, vmod_get, if_true] at hel ⊢
            exact hel
          · simp [State.engine]
        refine (h1.serves.trans h2.serves).trans (ih _ ?_ ?_)
        · intro y hy
          have hy' := hl y (by simp [hy])
          have hne : y.1 ≠ n := by
            simp only [List.map_cons, List.nodup_cons, List.mem_map, not_exists, not_and] at hd
            exact fun h => hd.1 y hy h
          refine ⟨?_, hy'.2⟩
          simp only [preemptOn, Machine.assign, State.job?, jobs_send, jobs_modJob, jobs_modCtx, tget_tmod,
            if_neg hne]
          exact hy'.1
        · simp only [List.map_cons, List.nodup_cons] at hd
          exact hd.2
    · exact .refl

/-- The keys of a table in order are all different. -/
theorem keys_nodup {α : Type} {t : Table Nat α} (h : Table.ordered id t) : (t.map Prod.fst).Nodup := by
  rw [ordered_iff] at h
  exact h.imp fun hab => Nat.ne_of_lt hab

/-- Preempting. -/
theorem preemptAll_serves {s : State} (hs : Table.ordered id s.jobs) : Serves s (preemptAll s) := by
  refine preemptFrom_serves _ _ (fun x hx => ?_) ?_
  · have hm := mem_offered hx
    exact ⟨tget_of_mem hs hm.1, hm.2⟩
  · have h1 : ((s.readyQueue .urgent).map Prod.fst).Nodup := by
      unfold State.readyQueue
      rw [((sortBy_perm _ _).map Prod.fst).nodup_iff]
      exact (keys_nodup hs).sublist (List.filter_sublist.map _)
    exact h1.sublist (List.filter_sublist.map _)

/-! ### EXPOSE and the reached marks -/

/-- Granting the room of a lane once. -/
theorem exposeOnce_serves (l : LaneId) (s : State) : Serves s (exposeOnce l s) := by
  unfold exposeOnce
  split
  · split
    · rename_i e he
      refine (ServeStep.expose s e ?_).serves
      simp only [State.exposeChoice] at he
      split at he
      · rename_i e' es hf
        cases he
        have hm : e ∈ List.filter s.nextUrgent
            (allEngines.filter fun e => laneFed e = l && s.exposeReady e) := by rw [hf]; simp
        simp only [List.mem_filter, Bool.and_eq_true] at hm
        exact hm.1.2.2
      · have hm := List.mem_of_mem_head? he
        simp only [List.mem_filter, Bool.and_eq_true] at hm
        exact hm.2.2
    · exact .refl
  · exact .refl

/-- Granting the room of a lane. -/
theorem exposeLane_serves (l : LaneId) (s : State) : Serves s (exposeLane l s) :=
  ((exposeOnce_serves l s).trans (exposeOnce_serves l _)).trans (exposeOnce_serves l _)

/-- The colour-starved condition. -/
theorem evalStarved_serves (s : State) : Serves s (evalStarved s) := by
  unfold evalStarved
  split
  · split
    · exact .refl
    · exact (ServeStep.starved s true).serves.trans (raise_serves _ _)
  · exact (ServeStep.starved s false).serves

/-- The reached marks. -/
theorem evalReached_serves (s : State) : Serves s (evalReached s) := by
  unfold evalReached
  split
  · rename_i hs
    have lane : ∀ l (s : State), s.line.state = .stopping →
        Serves s (restLane l s) ∧ (restLane l s).line.state = .stopping := by
      intro l s h
      unfold restLane
      split
      · exact ⟨(ServeStep.stopLane s l h).serves, by simpa using h⟩
      · exact ⟨.refl, h⟩
    have h0 := lane 0 s hs
    have h1 := lane 1 _ h0.2
    have h2 := (h0.1.trans h1.1).tail (ServeStep.reached _ (engineMarks (restLane 1 (restLane 0 s)))
      (laneMarks (restLane 1 (restLane 0 s))) h1.2)
    show Serves s (if _ then _ else _)
    split
    · exact (h2.tail (ServeStep.stopped _ (by simpa using h1.2))).trans (raise_serves _ _)
    · exact h2
  · exact .refl

/-- Serving the engines, the colour-starved condition apart. -/
theorem serveEngines_serves {s : State} (hs : Table.ordered id s.jobs) : Serves s (serveEngines s) := by
  unfold serveEngines
  have h2 := fillAll_serves hs
  have h3 := preemptAll_serves (Serves.jobs_ordered hs h2)
  exact (((h2.trans h3).trans (exposeLane_serves _ _)).trans (exposeLane_serves _ _)).trans (evalReached_serves _)

/-- Everything that serving the engines can do. -/
theorem serve_serves {s : State} (hs : Table.ordered id s.jobs) : Serves s (serve s) :=
  (evalStarved_serves s).trans (serveEngines_serves (Serves.jobs_ordered hs (evalStarved_serves s)))

end Sys2Proof.Machine
end

