-- ==== Sys2Proof/Laws/React.lean ====
section
/-! SUPPORT. Laws/React.lean: everything that the reactions of the part can do: need tests, job creation,
departures, returns to the queue, supersedes, promotion, colour eviction, the sorter's look, and serving
the engines. Each of them is a chain of the steps of `ReactStep` and of nothing else. -/

namespace Sys2Proof.Machine

open State

/-- What no reaction changes in a job: its position, its making, its origin; an attempt in range stays in
range, and no job becomes UNCERTAIN. -/
structure JobKept (j j' : Job) : Prop where
  press : j'.press = j.press
  pos : j'.pos = j.pos
  pages : j'.pages = j.pages
  sep : j'.sep = j.sep
  format : j'.format = j.format
  colourNeed : j'.colourNeed = j.colourNeed
  slots : j'.slots = j.slots
  origin : j'.origin = j.origin
  attempt : 1 ≤ j.attempt ∧ j.attempt ≤ 3 → 1 ≤ j'.attempt ∧ j'.attempt ≤ 3
  uncertain : j'.state = .uncertain → j.state = .uncertain

/-- A job is kept by itself. -/
theorem JobKept.refl (j : Job) : JobKept j j := ⟨rfl, rfl, rfl, rfl, rfl, rfl, rfl, rfl, id, id⟩

/-- One kept job after another. -/
theorem JobKept.trans {a b c : Job} (h : JobKept a b) (k : JobKept b c) : JobKept a c :=
  ⟨k.1.trans h.1, k.2.trans h.2, k.3.trans h.3, k.4.trans h.4, k.5.trans h.5, k.6.trans h.6, k.7.trans h.7,
    k.8.trans h.8, k.9 ∘ h.9, h.10 ∘ k.10⟩

/-- The contexts hold no job that they did not hold, the current one is untouched, and the cancel list only
names jobs that were waiting. -/
structure CtxLess (c c' : Contexts) : Prop where
  current : c'.current = c.current
  next : c'.next = none ∨ c'.next = c.next ∨ c'.next = c.parked
  parked : c'.parked = none ∨ c'.parked = c.parked
  cancel : c.next = none → c.parked = none → c'.cancel = c.cancel

/-- Any job at all. -/
abbrev AnyJob : Nat → Prop := fun _ => True

/-- One thing that a reaction does, where only the jobs of `D` may be changed otherwise than by serving the
engines, or leave. -/
inductive ReactStep (D : Nat → Prop) : State → State → Prop
  | serve {s t : State} (h : ServeStep s t) : ReactStep D s t
  | job (s : State) (n : Nat) (f : Job → Job) (hD : D n) (h : ∀ j, s.job? n = some j → JobKept j (f j)) :
      ReactStep D s (s.modJob n f)
  | addJob (s : State) (n : Nat) (j : Job) (hl : s.jobs.length < Config.liveJobs) (hq : j.state = .queued)
      (hc : CreatedSince s j) (hf : s.job? n = none) : ReactStep D s (s.bumpEntry.addJob n j)
  | dropJob (s : State) (n : Nat) (hD : D n) : ReactStep D s (s.dropJob n)
  | bump (s : State) : ReactStep D s s.bumpEntry
  | work (s : State) (k : PosKey) (f : PosWork → PosWork) (h : ∀ w, (f w).mounted = w.mounted) :
      ReactStep D s (s.modWork k f)
  | live (s : State) (n : Nat) (f : Nat → Nat) : ReactStep D s (s.modLive n f)
  | dropPage (s : State) (n : Nat) (r : PageRec) (h : s.page? n = some r) (hw : r.state = .withdrawn) :
      ReactStep D s (s.dropPage n)
  | count (s : State) (k : SlotKey) (f : Nat → Nat) : ReactStep D s (s.modCount k f)
  | dropSlot (s : State) (k : SlotKey)
      (h : (∃ x, s.slot? k = some x ∧ x.count = 0 ∧ x.current = false) ∨
        ∃ r, s.page? k.page = some r ∧ r.state = .withdrawn) : ReactStep D s (s.dropSlot k)
  | pressState (s : State) (p : PressId) (st : PressState) (h : (s.press p).state ≠ .running)
      (hst : st ≠ .running) : ReactStep D s (s.setPressState p st)
  | unsatisfied (s : State) (p : PressId) (n : Nat) : ReactStep D s (s.setUnsatisfied p n)
  | ctx (s : State) (e : EngineId) (f : Contexts → Contexts)
      (h : CtxLess (s.engine e).ctx (f (s.engine e).ctx)) :
      ReactStep D s (s.modCtx e f)
  | floor (s : State) (l : LaneId) (f : LaneFloor → LaneFloor)
      (h : ∀ x, (f x).order.map LaneEntry.job = x.order.map LaneEntry.job ∧ (f x).exit = x.exit)
      (hx : (s.lane l).floor.exit ≠ none) : ReactStep D s (s.modFloor l f)
  | laneStep (s : State) (l : LaneId) (hx : (s.lane l).floor.exit ≠ none) : ReactStep D s (s.useLaneStep l)
  | sorterStep (s : State) (l : LaneId) (hx : (s.lane l).floor.exit ≠ none) : ReactStep D s s.useSorterStep
  | deliver (s : State) (d : Delivery) (h : s.sorter.delivery = none) (hr : hasRoom s d.dest)
      (hx : ∃ l, (s.lane l).floor.exit = some d.job) :
      ReactStep D s (s.setDelivery (some d))
  | send (s : State) (c : LineCommand) : ReactStep D s (s.send c)

/-- A chain of such steps. -/
abbrev Reacts (D : Nat → Prop) : State → State → Prop := Relation.ReflTransGen (ReactStep D)

variable {D : Nat → Prop}

/-- A single step is a chain. -/
theorem ReactStep.reacts {s t : State} (h : ReactStep D s t) : Reacts D s t := Relation.ReflTransGen.single h

/-- Serving is a reaction. -/
theorem Serves.reacts {s t : State} (h : Serves s t) : Reacts D s t := by
  induction h with
  | refl => exact .refl
  | tail _ hu ih => exact ih.tail (.serve hu)

/-- Reactions keep the job table in order. -/
theorem ReactStep.jobs_ordered {s t : State} (h : ReactStep D s t) (hs : Table.ordered id s.jobs) :
    Table.ordered id t.jobs := by
  cases h with
  | serve h => exact h.jobs_ordered hs
  | job n f hD => exact ordered_tmod (rank := id) n f hs
  | addJob n j => exact ordered_tput (rank := id) n j hs
  | dropJob n => exact ordered_tdel (rank := id) n hs
  | _ => exact hs

/-- Reactions keep the job table in order. -/
theorem Reacts.jobs_ordered {s t : State} (hs : Table.ordered id s.jobs) (h : Reacts D s t) :
    Table.ordered id t.jobs := by
  induction h with
  | refl => exact hs
  | tail _ hu ih => exact hu.jobs_ordered ih

/-- The job table is in order: what the dispatcher's choice among QUEUED jobs rests on. -/
abbrev JobsOrdered (s : State) : Prop := Table.ordered id s.jobs

/-- A chain, and then another that needs the table in order. -/
theorem Reacts.then {s t u : State} (hs : JobsOrdered s) (h : Reacts D s t) (k : JobsOrdered t → Reacts D t u) :
    Reacts D s u := h.trans (k (Reacts.jobs_ordered hs h))

/-- A fold of reactions, each needing the table in order. -/
theorem foldl_reacts {α : Type} (f : State → α → State) (l : List α) {s : State} (hs : JobsOrdered s)
    (h : ∀ s, JobsOrdered s → ∀ x ∈ l, Reacts D s (f s x)) : Reacts D s (l.foldl f s) :=
  foldl_chain_of (P := JobsOrdered) f (fun _ _ hs h => Reacts.jobs_ordered hs h) l s hs h

/-! ### Notices -/

/-- Raising a notice. -/
theorem raise_reacts (n : Notice) (s : State) : Reacts D s (raise n s) := (raise_serves n s).reacts

/-- Raising notices in order. -/
theorem raiseAll_reacts (ns : List Notice) (s : State) : Reacts D s (raiseAll ns s) :=
  (raiseAll_serves ns s).reacts

/-- Serving the engines. -/
theorem serve_reacts {s : State} (hs : JobsOrdered s) : Reacts D s (serve s) := (serve_serves hs).reacts

/-- Serving the engines, the colour-starved condition apart. -/
theorem serveEngines_reacts {s : State} (hs : JobsOrdered s) : Reacts D s (serveEngines s) :=
  (serveEngines_serves hs).reacts

/-- Judging the colour-starved condition. -/
theorem evalStarved_reacts (s : State) : Reacts D s (evalStarved s) := (evalStarved_serves s).reacts

/-! ### References and slots -/

/-- Freeing a slot that is done. -/
theorem freeIfDone_reacts (k : SlotKey) (s : State) : Reacts D s (freeIfDone k s) := by
  unfold freeIfDone
  split
  · rename_i x hx
    split
    · rename_i h
      simp only [Bool.and_eq_true, decide_eq_true_eq, Bool.not_eq_true'] at h
      exact (ReactStep.dropSlot s k (.inl ⟨x, hx, h.1, h.2⟩)).reacts
    · exact .refl
  · exact .refl

/-- Releasing a reference. -/
theorem releaseRef_reacts (k : SlotKey) (s : State) : Reacts D s (releaseRef k s) :=
  (ReactStep.count s k _).reacts.trans (freeIfDone_reacts k _)

/-- Taking references. -/
theorem takeRefs_reacts (ks : List SlotKey) (s : State) : Reacts D s (takeRefs ks s) :=
  foldl_chain _ _ _ fun s k _ => (ReactStep.count s k _).reacts

/-- Releasing references. -/
theorem releaseRefs_reacts (ks : List SlotKey) (s : State) : Reacts D s (releaseRefs ks s) :=
  foldl_chain _ _ _ fun s k _ => releaseRef_reacts k s

/-- Taking references again. -/
theorem retakeRefs_reacts (j : Job) (s : State) : Reacts D s (retakeRefs j s) := by
  unfold retakeRefs
  split
  · exact .refl
  · exact takeRefs_reacts _ _

/-- References are no business of the job table. -/
theorem jobs_takeRefs (ks : List SlotKey) (s : State) : (takeRefs ks s).jobs = s.jobs := by
  unfold takeRefs
  induction ks generalizing s with
  | nil => rfl
  | cons k ks ih => rw [List.foldl_cons, ih]; rfl

/-- References are no business of the job table. -/
theorem jobs_retakeRefs (j : Job) (s : State) : (retakeRefs j s).jobs = s.jobs := by
  unfold retakeRefs
  split
  · rfl
  · exact jobs_takeRefs _ _

/-! ### Presses and standing -/

/-- A press's state by its counts is never RUNNING. -/
theorem stateOfCounts_ne_running (n m : Nat) : stateOfCounts n m ≠ .running := by
  unfold stateOfCounts
  split
  · simp
  · split <;> simp

/-- Evaluating a press. -/
theorem evalPress_reacts (p : PressId) (s : State) : Reacts D s (evalPress p s) := by
  unfold evalPress
  simp only
  split
  · exact .refl
  · rename_i h
    simp only [Bool.or_eq_true, decide_eq_true_eq, not_or] at h
    have h1 := (ReactStep.pressState (D := D) s p _ h.1
      (stateOfCounts_ne_running (s.press p).positions (s.press p).unsatisfied)).reacts
    split
    · exact h1.trans (raise_reacts _ _)
    · exact h1.trans (raise_reacts _ _)
    · exact h1

/-- Telling a position's standing. -/
theorem tellSatisfied_reacts (k : PosKey) (s : State) : Reacts D s (tellSatisfied k s) := by
  unfold tellSatisfied
  split
  · exact .refl
  · simp only
    split
    · exact .refl
    · exact ((ReactStep.work s k _ (by exact fun _ => rfl)).reacts.tail (ReactStep.unsatisfied _ _ _)).trans (evalPress_reacts _ _)

/-- Telling the standing of some positions. -/
theorem tellAll_reacts (ks : List PosKey) (s : State) : Reacts D s (tellAll ks s) :=
  foldl_chain _ _ _ fun s k _ => tellSatisfied_reacts k s

/-! ### Pages -/

/-- Freeing slots of a page that is WITHDRAWN. -/
theorem dropSlots_reacts (ks : List SlotKey) (n : Nat) (r : PageRec) (s : State)
    (hk : ∀ k ∈ ks, k.page = n) (h : s.page? n = some r) (hw : r.state = .withdrawn) :
    Reacts D s (ks.foldl (fun s k => s.dropSlot k) s) ∧
      (ks.foldl (fun s k => s.dropSlot k) s).page? n = some r := by
  induction ks generalizing s with
  | nil => exact ⟨.refl, h⟩
  | cons k ks ih =>
    have h1 := (ReactStep.dropSlot (D := D) s k (.inr ⟨r, by rw [hk k (by simp)]; exact h, hw⟩)).reacts
    have h2 := ih (s.dropSlot k) (fun k hk' => hk k (List.mem_cons_of_mem _ hk')) h
    exact ⟨h1.trans h2.1, h2.2⟩

/-- Removing the record of a WITHDRAWN page. -/
theorem removePage_reacts (n : Nat) (r : PageRec) (s : State) (h : s.page? n = some r)
    (hw : r.state = .withdrawn) : Reacts D s (removePage n r s) := by
  unfold removePage
  have h1 := dropSlots_reacts (D := D) (slotsOfPage s n) n r s (by
    intro k hk
    simp only [slotsOfPage, List.mem_map, List.mem_filter, decide_eq_true_eq] at hk
    obtain ⟨e, ⟨_, he⟩, rfl⟩ := hk
    exact he) h hw
  exact (h1.1.tail (ReactStep.dropPage _ n r h1.2 hw)).trans (raise_reacts _ _)

/-- Lowering a live-job count. -/
theorem lowerLive_reacts (n : Nat) (s : State) : Reacts D s (lowerLive n s) := by
  unfold lowerLive
  have h1 := (ReactStep.live (D := D) s n (· - 1)).reacts
  simp only
  split
  · rename_i r hr
    split
    · rename_i h
      simp only [Bool.and_eq_true, decide_eq_true_eq] at h
      exact h1.trans (removePage_reacts n r _ hr h.1)
    · exact h1
  · exact h1

/-! ### Jobs -/

/-- A number is among the job numbers. -/
def isNumber (n : Nat) : Prop := 1 ≤ n ∧ n ≤ Config.maxJobNumber

/-- The number after a number is a number. -/
theorem numberAfter_isNumber (n : Nat) : isNumber (numberAfter n) := by
  unfold isNumber numberAfter Config.maxJobNumber
  split <;> omega

/-- The numbers after a number, in turn. -/
theorem numberAfter_iterate (n i : Nat) (h : isNumber n) :
    numberAfter^[i] n = (n - 1 + i) % Config.maxJobNumber + 1 := by
  unfold isNumber at h
  induction i with
  | zero => unfold Config.maxJobNumber at *; simp; omega
  | succ i ih =>
    rw [Function.iterate_succ_apply', ih]
    unfold numberAfter Config.maxJobNumber at *
    split <;> omega

/-- A free number among the first few is found. -/
theorem freeNumber_free (jobs : Table Nat Job) (fuel n : Nat)
    (h : ∃ i ≤ fuel, thas jobs (numberAfter^[i] n) = false) : thas jobs (freeNumber jobs fuel n) = false := by
  induction fuel generalizing n with
  | zero =>
    obtain ⟨i, hi, hf⟩ := h
    obtain rfl : i = 0 := by omega
    exact hf
  | succ fuel ih =>
    unfold freeNumber
    split
    · rename_i hn
      refine ih _ ?_
      obtain ⟨i, hi, hf⟩ := h
      cases i with
      | zero => rw [Function.iterate_zero_apply, hn] at hf; cases hf
      | succ i => exact ⟨i, by omega, by rw [Function.iterate_succ_apply] at hf; exact hf⟩
    · rename_i hn
      simpa using hn

/-- A key that a table has is among its keys. -/
theorem mem_keys_of_thas {jobs : Table Nat Job} {n : Nat} (h : thas jobs n = true) :
    n ∈ jobs.map Prod.fst := by
  unfold thas at h
  obtain ⟨j, hj⟩ := Option.isSome_iff_exists.mp h
  exact List.mem_map.mpr ⟨_, mem_of_tget hj, rfl⟩

/-- The number that the next job takes is held by no live job (R48). -/
theorem nextNumber_fresh (s : State) (h : s.jobs.length < Config.liveJobs) : s.job? (nextNumber s) = none := by
  have hl : s.jobs.length < 768 := h
  have key : thas s.jobs (nextNumber s) = false := by
    refine freeNumber_free _ _ _ ?_
    by_contra hall
    push Not at hall
    have hin : ∀ i ∈ Finset.range (s.jobs.length + 1),
        numberAfter^[i] (numberAfter s.lastJob) ∈ (s.jobs.map Prod.fst).toFinset := by
      intro i hi
      rw [List.mem_toFinset]
      refine mem_keys_of_thas ?_
      have := hall i (by simpa [Nat.lt_succ_iff] using hi)
      simpa using this
    have hcard := Finset.card_le_card_of_injOn _ hin (by
      intro i hi j hj hij
      have hi' : i < s.jobs.length + 1 := by simpa using hi
      have hj' : j < s.jobs.length + 1 := by simpa using hj
      simp only [numberAfter_iterate _ _ (numberAfter_isNumber _)] at hij
      have hn := numberAfter_isNumber s.lastJob
      unfold isNumber at hn
      unfold Config.maxJobNumber at *
      omega)
    rw [Finset.card_range] at hcard
    have := List.toFinset_card_le (s.jobs.map Prod.fst)
    rw [List.length_map] at this
    omega
  unfold thas at key
  unfold State.job?
  exact Option.not_isSome_iff_eq_none.mp (by rw [key]; decide)

/-- Creating a job. -/
theorem createJob_reacts (k : PosKey) (x : Position) (s : State) (h : s.jobs.length < Config.liveJobs) :
    Reacts D s (createJob k x s) := by
  unfold createJob
  have h1 := (ReactStep.addJob (D := D) s (nextNumber s) (newJob s k x) h rfl
    ⟨Nat.lt_succ_self _, rfl, rfl, .inl rfl, rfl⟩ (nextNumber_fresh s h)).reacts.trans
      (takeRefs_reacts (newJob s k x).slots _)
  refine ((h1.trans ?_).tail (ReactStep.work _ k _ (by exact fun _ => rfl))).trans (raise_reacts _ _)
  exact foldl_chain _ _ _ fun s p _ => (ReactStep.live s p _).reacts

/-- Testing a position's need. -/
theorem needTest_reacts (k : PosKey) (s : State) : Reacts D s (needTest k s) := by
  unfold needTest
  split
  · exact .refl
  · split
    · split
      · exact createJob_reacts _ _ _ (by assumption)
      · split
        · exact .refl
        · exact (ReactStep.work _ k _ (by exact fun _ => rfl)).reacts.trans (raise_reacts _ _)
    · exact (ReactStep.work _ k _ (by exact fun _ => rfl)).reacts

/-- The first four steps of a departure. -/
theorem departCore_reacts (n : Nat) (terminal : JobState) (s : State)
    (ht : terminal ≠ .uncertain := by decide)
    (hD : D n := by trivial) :
    Reacts D s (departCore n terminal s) := by
  unfold departCore
  split
  · exact .refl
  · rename_i j hj
    have h1 : Reacts D s (s.modJob n fun x => { x with state := terminal }) :=
      (ReactStep.job s n (fun x => { x with state := terminal }) hD
        fun j _ => ⟨rfl, rfl, rfl, rfl, rfl, rfl, rfl, rfl, id, fun h => absurd h ht⟩).reacts
    refine h1.trans ?_
    generalize s.modJob n (fun x => { x with state := terminal }) = s0
    simp only
    have h0 : Reacts D s0 (if j.state = .queued then evalStarved s0 else s0) := by
      split
      · exact evalStarved_reacts _
      · exact .refl
    refine h0.trans ?_
    generalize (if j.state = .queued then evalStarved s0 else s0) = s1
    have h2 : Reacts D s1 (if j.state.holdsRefs then releaseRefs j.slots s1 else s1) := by
      split
      · exact releaseRefs_reacts _ _
      · exact .refl
    refine h2.trans ?_
    generalize (if j.state.holdsRefs then releaseRefs j.slots s1 else s1) = s2
    have h3 : Reacts D s2 ((j.pages.map Prod.fst).foldl (fun s p => lowerLive p s) s2) :=
      foldl_chain _ _ _ fun s p _ => lowerLive_reacts p s
    refine h3.trans ?_
    generalize (j.pages.map Prod.fst).foldl (fun s p => lowerLive p s) s2 = s3
    have h4 : ∀ b : Bool, Reacts D s3
        (if b = true then evalStarved (needTest j.key (s3.modWork j.key fun w => { w with current := none }))
          else s3) := by
      intro b
      split
      · exact ((ReactStep.work s3 _ _ (by exact fun _ => rfl)).reacts.trans (needTest_reacts _ _)).trans
          (evalStarved_reacts _)
      · exact .refl
    refine (h4 (match s3.pos? j.key with
      | some x => decide (x.work.current = some n)
      | none => false)).trans ?_
    refine (raise_reacts (.jobEnded n j.key terminal j.lastFault) _).trans ?_
    refine Relation.ReflTransGen.trans ?_ (foldl_chain _ _ _ fun s p _ => tellAll_reacts _ s)
    exact (ReactStep.dropJob _ n hD).reacts.trans (tellSatisfied_reacts _ _)

/-- Recording a fault. -/
theorem recordFault_reacts (n : Nat) (c : FaultCause) (p : FaultParam) (s : State)
    (hD : D n := by trivial) :
    Reacts D s (recordFault n c p s) :=
  (ReactStep.job s n (fun j => { j with lastFault := some ⟨c, p, s.clock⟩ }) hD fun _ _ => ⟨rfl, rfl, rfl, rfl, rfl, rfl, rfl, rfl, id, id⟩).reacts

/-- Entering a ready queue, at an attempt in range. -/
theorem enterQueue_reacts (n a : Nat) (s : State)
    (h : ∀ j, s.job? n = some j → (1 ≤ j.attempt ∧ j.attempt ≤ 3 → 1 ≤ a ∧ a ≤ 3))
    (hD : D n := by trivial) :
    Reacts D s (enterQueue n a s) :=
  (ReactStep.bump s).reacts.tail (ReactStep.job s.bumpEntry n (fun j =>
    { j with state := .queued, attempt := a, lane := none, applied := none, entryOrder := s.entryCount + 1 })
    hD fun j hj => ⟨rfl, rfl, rfl, rfl, rfl, rfl, rfl, rfl, h j hj, nofun⟩)

/-- Returning to QUEUED, at an attempt in range. -/
theorem requeue_reacts (n a : Nat) (why : RequeueReason) (f : Option FaultRecord) (s : State)
    (h : ∀ j, s.job? n = some j → (1 ≤ j.attempt ∧ j.attempt ≤ 3 → 1 ≤ a ∧ a ≤ 3))
    (hD : D n := by trivial) :
    Reacts D s (requeue n a why f s) := by
  unfold requeue
  split
  · exact .refl
  · rename_i j hj
    refine ((retakeRefs_reacts j s).trans (enterQueue_reacts n a _ ?_ hD)).trans (raise_reacts _ _)
    intro j' hj'
    rw [State.job?, jobs_retakeRefs] at hj'
    exact h j' hj'

/-- Becoming FAILED. -/
theorem failJob_reacts (n : Nat) (s : State) (hD : D n := by trivial) :
    Reacts D s (failJob n s) := by
  unfold failJob
  split
  · exact .refl
  · rename_i j hj
    have h1 : Reacts D s ((retakeRefs j s).modJob n fun x => { x with state := .failed }) :=
      (retakeRefs_reacts j s).tail (ReactStep.job (retakeRefs j s) n (fun x => { x with state := .failed })
        hD fun j _ => ⟨rfl, rfl, rfl, rfl, rfl, rfl, rfl, rfl, id, nofun⟩)
    generalize (retakeRefs j s).modJob n (fun x => { x with state := .failed }) = t at h1
    simp only
    split
    · exact h1.trans (raise_reacts _ _)
    · exact h1

/-- A spoil's decision. -/
theorem spoilDecision_reacts (n : Nat) (s : State) (hD : D n := by trivial) :
    Reacts D s (spoilDecision n s) := by
  unfold spoilDecision
  split
  · exact .refl
  · rename_i j hj
    split
    · rename_i ha
      have h1 : Reacts D s (enterQueue n (j.attempt + 1) (retakeRefs j s)) := by
        refine (retakeRefs_reacts j s).trans (enterQueue_reacts n _ _ ?_ hD)
        intro j' hj' _
        have : Config.attempts = 3 := rfl
        omega
      generalize enterQueue n (j.attempt + 1) (retakeRefs j s) = t at h1
      simp only
      split
      · exact h1.trans (raise_reacts _ _)
      · exact h1
    · exact failJob_reacts n s hD

/-! ### The sorter's look -/

/-- Marking a stage keeps the jobs of an order. -/
theorem markStage_jobs (n : Nat) (st : LaneStage) (o : List LaneEntry) :
    (markStage n st o).map LaneEntry.job = o.map LaneEntry.job := by
  unfold markStage
  rw [List.map_map]
  congr 1
  funext x
  simp only [Function.comp]
  split <;> rfl

/-- The exit request that the sorter looks at is the lane's. -/
theorem exitJob_exit {s : State} {l : LaneId} {n : Nat} {j : Job} (h : s.exitJob l = some (n, j)) :
    (s.lane l).floor.exit = some n := by
  unfold State.exitJob at h
  split at h
  · cases h
  · rename_i m hm
    split at h
    · simp only [Option.map_eq_some_iff] at h
      obtain ⟨j', _, h⟩ := h
      cases h
      exact hm
    · cases h

/-- Finding a lane rack-blocked. -/
theorem findBlocked_reacts (l : LaneId) (s : State) : Reacts D s (findBlocked l s) := by
  unfold findBlocked
  split
  · exact .refl
  · rename_i n j he
    split
    · exact (ReactStep.floor s l (fun f => { f with blocked := true }) (fun x => ⟨rfl, rfl⟩)
        (by rw [exitJob_exit he]; exact Option.some_ne_none n)).reacts.trans (raise_reacts _ _)
    · exact .refl

/-- A destination that is found has room. -/
theorem destinationOf_room {s : State} {j : Job} {d : Destination} (h : s.destinationOf j = some d) :
    hasRoom s d := by
  unfold State.destinationOf at h
  split at h
  · cases h; trivial
  · split at h
    · cases h; assumption
    · split at h
      · cases h; assumption
      · cases h

/-- A grant is a candidate's. -/
theorem grantChoice_spec {s : State} {l : LaneId} {n : Nat} {j : Job} {d : Destination}
    (h : s.grantChoice = some (l, n, j, d)) : hasRoom s d ∧ (s.lane l).floor.exit = some n := by
  have cand : ∀ l x, s.candidate l = some x → hasRoom s x.2.2 ∧ (s.lane l).floor.exit = some x.1 := by
    intro l x hx
    unfold State.candidate at hx
    split at hx
    · cases hx
    · rename_i n j he
      simp only [Option.map_eq_some_iff] at hx
      obtain ⟨d, hd, rfl⟩ := hx
      exact ⟨destinationOf_room hd, exitJob_exit he⟩
  unfold State.grantChoice at h
  split at h
  · cases h
  · rename_i x h0 _
    cases h
    exact cand _ _ h0
  · rename_i y _ h1
    cases h
    exact cand _ _ h1
  · rename_i x y h0 h1
    split at h
    · cases h; exact cand _ _ h0
    · split at h
      · cases h; exact cand _ _ h1
      · split at h
        · cases h; exact cand _ _ h1
        · cases h; exact cand _ _ h0

/-- A grant of a free sorter. -/
theorem grant_reacts (l : LaneId) (n : Nat) (j : Job) (d : Destination) (s : State)
    (h : s.sorter.delivery = none) (hr : hasRoom s d)
    (hx : (s.lane l).floor.exit = some n) : Reacts D s (grant l n j d s) := by
  unfold grant
  have hne : (s.lane l).floor.exit ≠ none := by rw [hx]; exact Option.some_ne_none n
  have hm : ((s.modFloor l fun f =>
      { f with order := markStage n .granted f.order, blocked := false }).lane l).floor.exit ≠ none := by
    simpa [State.lane] using hne
  have h1 := (ReactStep.deliver (D := D) s ⟨l, n, j.attempt, d⟩ h hr ⟨l, hx⟩).reacts
  have h2 := h1.tail (ReactStep.floor _ l (fun f =>
    { f with order := markStage n .granted f.order, blocked := false }) (fun x => ⟨markStage_jobs _ _ _, rfl⟩) hne)
  have h3 := (h2.tail (ReactStep.send _ (.deliver l n j.attempt d))).tail (ReactStep.sorterStep _ l hm)
  simp only
  split
  · exact h3.tail (ReactStep.laneStep _ l hm)
  · exact h3

/-- Offering a notice changes no sorter and no rack. -/
theorem offerTo_sorter (n : Notice) (p : PortId) (s : State) :
    (offerTo n p s).sorter = s.sorter ∧ (offerTo n p s).racks = s.racks ∧
      (offerTo n p s).shelves = s.shelves := by
  unfold offerTo
  split <;> simp

/-- Raising a notice changes no sorter and no rack. -/
theorem raise_sorter (n : Notice) (s : State) :
    (raise n s).sorter = s.sorter ∧ (raise n s).racks = s.racks ∧ (raise n s).shelves = s.shelves := by
  unfold raise allPorts
  simp only [List.foldl_cons, List.foldl_nil]
  have h0 := offerTo_sorter n 0 s
  have h1 := offerTo_sorter n 1 (offerTo n 0 s)
  have h2 := offerTo_sorter n 2 (offerTo n 1 (offerTo n 0 s))
  simp only [h0, h1, h2, and_self]

/-- Finding a lane rack-blocked changes no sorter. -/
theorem findBlocked_sorter (l : LaneId) (s : State) : (findBlocked l s).sorter = s.sorter := by
  unfold findBlocked
  split
  · rfl
  · split
    · rw [(raise_sorter _ _).1]; rfl
    · rfl

/-- The sorter's look. -/
theorem sorterLook_reacts (s : State) : Reacts D s (sorterLook s) := by
  unfold sorterLook
  split
  · rename_i hf
    simp only [Sorter.isFree, Bool.and_eq_true, Option.isNone_iff_eq_none] at hf
    have h1 := (findBlocked_reacts (D := D) 0 s).trans (findBlocked_reacts 1 _)
    simp only
    split
    · rename_i l n j d hg
      have hs := grantChoice_spec hg
      refine h1.trans (grant_reacts l n j d _ ?_ hs.1 hs.2)
      rw [findBlocked_sorter, findBlocked_sorter]
      exact hf.1.1
    · exact h1
  · exact .refl

/-! ### Departures and returns -/

/-- Serving deferred positions. -/
theorem serveFrom_reacts {look : State → State} (hl : ∀ s, JobsOrdered s → Reacts D s (look s)) (l : List PosKey)
    {s : State} (hs : JobsOrdered s) : Reacts D s (serveFrom look l s) := by
  induction l generalizing s with
  | nil => exact .refl
  | cons k l ih =>
    simp only [serveFrom]
    have h1 := needTest_reacts (D := D) k s
    split
    · refine Reacts.then hs h1 fun h => ?_
      split
      · exact Reacts.then h (hl _ h) fun h' => ih h'
      · exact hl _ h
    · exact Reacts.then hs h1 fun h => ih h

/-- Serving the deferred positions. -/
theorem serveDeferred_reacts {look : State → State} (hl : ∀ s, JobsOrdered s → Reacts D s (look s)) {s : State}
    (hs : JobsOrdered s) : Reacts D s (serveDeferred look s) := serveFrom_reacts hl _ hs

/-- The whole departure of a job, with any service of the engines. -/
theorem departBy_reacts {look : State → State} (hl : ∀ s, JobsOrdered s → Reacts D s (look s)) (n : Nat)
    (terminal : JobState) {s : State} (hs : JobsOrdered s) (ht : terminal ≠ .uncertain := by decide)
    (hD : D n := by trivial) : Reacts D s (departBy look n terminal s) :=
  Reacts.then hs (departCore_reacts n terminal s ht hD) fun h =>
    Reacts.then h (serveDeferred_reacts hl h) fun h' => hl _ h'

/-- The whole departure of a job. -/
theorem depart_reacts (n : Nat) (terminal : JobState) {s : State} (hs : JobsOrdered s)
    (ht : terminal ≠ .uncertain := by decide)
    (hD : D n := by trivial) :
    Reacts D s (depart n terminal s) := departBy_reacts (fun _ h => serve_reacts h) n terminal hs ht hD

/-- The same attempt is in range if it was. -/
theorem sameAttempt {s : State} {n : Nat} {j : Job} (hj : s.job? n = some j) :
    ∀ j', s.job? n = some j' → (1 ≤ j'.attempt ∧ j'.attempt ≤ 3 → 1 ≤ j.attempt ∧ j.attempt ≤ 3) := by
  intro j' hj'
  rw [hj] at hj'
  cases hj'
  exact id

/-- A return by a fault of the job's own, with any service of the engines. -/
theorem returnByFaultBy_reacts {look : State → State} (hl : ∀ s, JobsOrdered s → Reacts D s (look s)) (n : Nat)
    (c : FaultCause) (p : FaultParam) (terminal : JobState) {s : State}
    (hs : JobsOrdered s) (ht : terminal ≠ .uncertain := by decide)
    (hD : D n := by trivial) : Reacts D s (returnByFaultBy look n c p terminal s) := by
  unfold returnByFaultBy
  refine Reacts.then hs (recordFault_reacts n c p s hD) fun h => ?_
  generalize recordFault n c p s = s1 at h
  dsimp only
  split
  · exact .refl
  · rename_i j hj
    split
    · exact departBy_reacts hl _ _ h ht hD
    · exact requeue_reacts _ _ _ _ _ (sameAttempt hj) hD

/-- A return by a fault of the job's own. -/
theorem returnByFault_reacts (n : Nat) (c : FaultCause) (p : FaultParam) (terminal : JobState) {s : State}
    (hs : JobsOrdered s) (ht : terminal ≠ .uncertain := by decide)
    (hD : D n := by trivial) : Reacts D s (returnByFault n c p terminal s) :=
  returnByFaultBy_reacts (fun _ h => serve_reacts h) n c p terminal hs ht hD

/-- A return by another event. -/
theorem returnTaken_reacts (n : Nat) (why : RequeueReason) (terminal : JobState) {s : State}
    (hs : JobsOrdered s) (ht : terminal ≠ .uncertain := by decide)
    (hD : D n := by trivial) : Reacts D s (returnTaken n why terminal s) := by
  unfold returnTaken
  split
  · exact .refl
  · rename_i j hj
    split
    · exact depart_reacts _ _ hs ht hD
    · exact (requeue_reacts _ _ _ _ _ (sameAttempt hj) hD).trans (evalStarved_reacts _)

/-- A spoil, with any service of the engines. -/
theorem spoilBy_reacts {look : State → State} (hl : ∀ s, JobsOrdered s → Reacts D s (look s)) (n : Nat)
    (c : FaultCause) (p : FaultParam) {s : State} (hs : JobsOrdered s)
    (hD : D n := by trivial) : Reacts D s (spoilBy look n c p s) := by
  unfold spoilBy
  refine Reacts.then hs (recordFault_reacts n c p s hD) fun h => ?_
  generalize recordFault n c p s = s1 at h
  dsimp only
  split
  · exact .refl
  · split
    · exact departBy_reacts hl _ _ h (by decide) hD
    · exact spoilDecision_reacts _ _ hD

/-- A spoil. -/
theorem spoil_reacts (n : Nat) (c : FaultCause) (p : FaultParam) {s : State} (hs : JobsOrdered s)
    (hD : D n := by trivial) : Reacts D s (spoil n c p s) := spoilBy_reacts (fun _ h => serve_reacts h) n c p hs hD

/-! ### Contexts -/

/-- A parked job's return to next takes no job in. -/
theorem ctxLess_parkedReturn (c : Contexts) : CtxLess c c.parkedReturn := by
  unfold Contexts.parkedReturn
  split
  · exact ⟨rfl, .inr (.inl rfl), .inr rfl, fun _ _ => rfl⟩
  · exact ⟨rfl, .inr (.inr rfl), .inl rfl, fun _ _ => rfl⟩

/-- A parked job's return to next. -/
theorem parkedReturn_reacts (e : EngineId) (s : State) : Reacts D s (s.modCtx e Contexts.parkedReturn) :=
  (ReactStep.ctx s e _ (ctxLess_parkedReturn _)).reacts

/-- Two changes of an engine's contexts are one. -/
theorem modCtx_modCtx (e : EngineId) (f g : Contexts → Contexts) (s : State) :
    (s.modCtx e f).modCtx e g = s.modCtx e fun c => g (f c) := by
  unfold State.modCtx
  rw [vmod_vmod]

/-- A job is taken out of an engine that holds a waiting job, and the cancel list names it. -/
theorem takeOut_reacts (e : EngineId) (n : Nat) (cmd : CancelCommand) (f : Contexts → Contexts) (s : State)
    (hw : (s.engine e).ctx.next ≠ none ∨ (s.engine e).ctx.parked ≠ none)
    (hf : CtxLess (s.engine e).ctx (f (s.engine e).ctx)) : Reacts D s (listCancel e n cmd (s.modCtx e f)) := by
  unfold listCancel
  dsimp only
  rw [modCtx_modCtx]
  refine (ReactStep.ctx s e (fun c => { f c with
      cancel := addCancel ⟨n, ((s.modCtx e f).attemptOf n).getD 0, cmd⟩ (f c).cancel })
      ⟨hf.current, hf.next, hf.parked, fun h1 h2 => ?_⟩).reacts
  rcases hw with hw | hw
  · exact absurd h1 hw
  · exact absurd h2 hw

/-- The same, and its command is sent. -/
theorem cancelOut_reacts (e : EngineId) (n : Nat) (cmd : CancelCommand) (f : Contexts → Contexts) (s : State)
    (hw : (s.engine e).ctx.next ≠ none ∨ (s.engine e).ctx.parked ≠ none)
    (hf : CtxLess (s.engine e).ctx (f (s.engine e).ctx)) : Reacts D s (cancelJob e n cmd (s.modCtx e f)) :=
  (takeOut_reacts e n cmd f s hw hf).tail (ReactStep.send _ _)

/-- The next job leaves its context. -/
theorem ctxLess_clearNext (c : Contexts) : CtxLess c { c with next := none } :=
  ⟨rfl, .inl rfl, .inr rfl, fun _ _ => rfl⟩

/-- The parked job leaves its context. -/
theorem ctxLess_clearParked (c : Contexts) : CtxLess c { c with parked := none } :=
  ⟨rfl, .inr (.inl rfl), .inl rfl, fun _ _ => rfl⟩

/-- The context that is found to hold a job holds one. -/
theorem contextOf_spec {s : State} {n : Nat} {e : EngineId} {c : ContextName} (h : contextOf s n = some (e, c)) :
    (c = .current → ∃ w, (s.engine e).ctx.current = some w ∧ w.job = n) ∧
    (c = .next → ∃ w, (s.engine e).ctx.next = some w ∧ w.job = n) ∧
    (c = .parked → ∃ w, (s.engine e).ctx.parked = some w ∧ w.job = n) := by
  unfold contextOf at h
  obtain ⟨e', _, he⟩ := List.exists_of_findSome?_eq_some h
  obtain ⟨c', hc, hce⟩ := Option.map_eq_some_iff.mp he
  cases hce
  unfold Contexts.holder at hc
  split at hc
  · rename_i hh
    cases hc
    exact ⟨fun _ => by simpa [Option.any_eq_true] using hh, nofun, nofun⟩
  · split at hc
    · rename_i hh
      cases hc
      exact ⟨nofun, fun _ => by simpa [Option.any_eq_true] using hh, nofun⟩
    · split at hc
      · rename_i hh
        cases hc
        exact ⟨nofun, nofun, fun _ => by simpa [Option.any_eq_true] using hh⟩
      · cases hc

/-! ### Supersede and promotion -/

/-- A superseded job leaves its engine. -/
theorem dropAssigned_reacts (n : Nat) (s : State) : Reacts D s (dropAssigned n s) := by
  unfold dropAssigned
  split
  · rename_i e h
    obtain ⟨w, hw, _⟩ := (contextOf_spec h).2.1 rfl
    exact (cancelOut_reacts e n .discard _ s (.inl (by simp [hw])) (ctxLess_clearNext _)).trans
      (parkedReturn_reacts _ _)
  · rename_i e h
    obtain ⟨w, hw, _⟩ := (contextOf_spec h).2.2 rfl
    exact cancelOut_reacts e n .discard _ s (.inr (by simp [hw])) (ctxLess_clearParked _)
  · exact .refl

/-- The effect of a supersede. -/
theorem supersedeEffect_reacts (n : Nat) (j : Job) {s : State} (hs : JobsOrdered s) (hD : D n := by trivial) :
    Reacts D s (supersedeEffect n j s) := by
  have tell : ∀ x s, Reacts D s (raise (.jobSuperseded n j.key j.state x) s) := fun x s => raise_reacts _ s
  unfold supersedeEffect
  simp only
  split
  · exact Reacts.then hs (tell _ _) fun h => depart_reacts _ _ h (by decide) hD
  · exact Reacts.then hs (tell _ _) fun h => depart_reacts _ _ h (by decide) hD
  · split
    · exact tell _ _
    · exact Reacts.then hs ((dropAssigned_reacts n s).trans (tell _ _)) fun h => depart_reacts _ _ h (by decide) hD
  · exact (tell _ _).trans (raise_reacts _ _)
  · split
    · exact (tell _ _).trans (raise_reacts _ _)
    · exact (tell _ _).trans (raise_reacts _ _)
  · exact (tell _ _).trans (sorterLook_reacts _)
  · exact tell _ _

/-- A supersede. -/
theorem supersede_reacts (k : PosKey) (n : Nat) {s : State} (hs : JobsOrdered s) (hD : D n := by trivial) :
    Reacts D s (supersede k n s) := by
  unfold supersede
  split
  · exact .refl
  · rename_i j hj
    have h1 := ((ReactStep.job (D := D) s n (fun x => { x with superseded := true }) hD fun j _ =>
      ⟨rfl, rfl, rfl, rfl, rfl, rfl, rfl, rfl, id, id⟩).reacts.tail
        (ReactStep.work _ k (fun w => { w with current := none, remake := w.remake || marksRemake j })
          fun _ => rfl))
    exact Reacts.then hs h1 fun h =>
      (supersedeEffect_reacts n j h hD).trans (tellSatisfied_reacts _ _)

/-- A supersede of a position's current job. -/
theorem supersedeAt_reacts (k : PosKey) {s : State} (hs : JobsOrdered s)
    (hD : ∀ n, ((s.pos? k).bind fun x => x.work.current) = some n → D n := by intros; trivial) :
    Reacts D s (supersedeAt k s) := by
  unfold supersedeAt
  split
  · rename_i n hn
    exact supersede_reacts _ _ hs (hD n hn)
  · exact .refl

/-- A need test, and service. -/
theorem needAndServe_reacts (k : PosKey) {s : State} (hs : JobsOrdered s) : Reacts D s (needAndServe k s) :=
  Reacts.then hs ((needTest_reacts k s).trans (tellSatisfied_reacts k _)) fun h => serve_reacts h

/-- Promoting one job. -/
theorem promote_reacts (n : Nat) {s : State} (hs : JobsOrdered s) (hD : D n := by trivial) :
    Reacts D s (promote n s) := by
  unfold promote
  refine Reacts.then hs (ReactStep.job s n (fun j => { j with cls := .urgent }) hD fun j _ =>
      ⟨rfl, rfl, rfl, rfl, rfl, rfl, rfl, rfl, id, id⟩).reacts fun h => ?_
  generalize s.modJob n (fun j => { j with cls := .urgent }) = s1 at h
  dsimp only
  split
  · rename_i e hc
    obtain ⟨w, hw, _⟩ := (contextOf_spec hc).2.2 rfl
    refine Reacts.then h (cancelOut_reacts e n .discard (fun c => { c with parked := none }) s1 (.inr (by simp [hw])) (ctxLess_clearParked _))
      fun h' => ?_
    exact Reacts.then h' (returnTaken_reacts _ _ _ h' (by decide) hD) fun h'' => serve_reacts h''
  · exact serve_reacts h

/-- Promoting a press's jobs. -/
theorem promoteAll_reacts (p : PressId) {s : State} (hs : JobsOrdered s) : Reacts AnyJob s (promoteAll p s) :=
  (foldl_reacts _ _ hs fun _ h n _ => promote_reacts n h).trans (sorterLook_reacts _)

/-! ### Colour eviction (R105) -/

/-- Doing something with a value that may be absent. -/
theorem forSome_reacts {α : Type} (x : Option α) (f : α → State → State) {s : State} (hs : JobsOrdered s)
    (h : ∀ a s, x = some a → JobsOrdered s → Reacts D s (f a s)) : Reacts D s (forSome x f s) := by
  unfold forSome
  split
  · exact h _ _ rfl hs
  · exact .refl

/-- Evicting the next job. -/
theorem dropNext_reacts (e : EngineId) (w : WaitingCtx) (s : State) (hw : (s.engine e).ctx.next ≠ none) :
    Reacts D s (dropNext e w s) := by
  unfold dropNext
  dsimp only
  split
  · split
    · exact takeOut_reacts _ _ _ _ _ (.inl hw) (ctxLess_clearNext _)
    · exact cancelOut_reacts _ _ _ _ _ (.inl hw) (ctxLess_clearNext _)
  · exact cancelOut_reacts _ _ _ _ _ (.inl hw) (ctxLess_clearNext _)

/-- Evicting the parked job. -/
theorem dropParked_reacts (e : EngineId) (w : WaitingCtx) (s : State) (hw : (s.engine e).ctx.parked ≠ none) :
    Reacts D s (dropParked e w s) := cancelOut_reacts _ _ _ _ _ (.inr hw) (ctxLess_clearParked _)

/-- Evicting the next job leaves the parked one. -/
theorem dropNext_parked (e : EngineId) (w : WaitingCtx) (s : State) :
    ((dropNext e w s).engine e).ctx.parked = (s.engine e).ctx.parked := by
  unfold dropNext cancelJob listCancel
  dsimp only
  split
  · split
    · rw [modCtx_modCtx]; simp [State.engine]
    · rw [modCtx_modCtx]; simp [State.engine]
  · rw [modCtx_modCtx]; simp [State.engine]

/-- Taking an evicted job on. -/
theorem takeEvicted_reacts (n : Nat) {s : State} (hs : JobsOrdered s) (hD : D n := by trivial) :
    Reacts D s (takeEvicted n s) := by
  unfold takeEvicted
  split
  · exact .refl
  · rename_i j hj
    split
    · exact departBy_reacts (fun _ h => serveEngines_reacts h) _ _ hs (by decide) hD
    · exact requeue_reacts _ _ _ _ _ (sameAttempt hj) hD

/-- The jobs that an eviction takes from an engine (R105). -/
def evicted (s : State) (e : EngineId) (n : Nat) : Prop :=
  (∃ w, evictNext s e = some w ∧ w.job = n) ∨ ∃ w, evictParked s e = some w ∧ w.job = n

/-- Colour eviction. -/
theorem colourEvict_reacts (e : EngineId) {s : State} (hs : JobsOrdered s)
    (hD : ∀ n, evicted s e n → D n := by intros; trivial) : Reacts D s (colourEvict e s) := by
  unfold colourEvict
  dsimp only
  have hDa : ∀ w, evictNext s e = some w → D w.job := fun w hw => hD _ (.inl ⟨w, hw, rfl⟩)
  have hDb : ∀ w, evictParked s e = some w → D w.job := fun w hw => hD _ (.inr ⟨w, hw, rfl⟩)
  have hna : ∀ w, evictNext s e = some w → (s.engine e).ctx.next ≠ none := by
    intro w hw h
    unfold evictNext at hw
    rw [h] at hw
    cases hw
  have hnb : ∀ w, evictParked s e = some w → (s.engine e).ctx.parked ≠ none := by
    intro w hw h
    unfold evictParked at hw
    rw [h] at hw
    cases hw
  generalize evictNext s e = a at *
  generalize evictParked s e = b at *
  have h1 : Reacts D s (forSome a (dropNext e) s) := by
    cases a with
    | none => exact .refl
    | some w => exact dropNext_reacts e w s (hna w rfl)
  have hp : ((forSome a (dropNext e) s).engine e).ctx.parked = (s.engine e).ctx.parked := by
    cases a with
    | none => rfl
    | some w => exact dropNext_parked e w s
  have o1 := Reacts.jobs_ordered hs h1
  generalize forSome a (dropNext e) s = s1 at h1 o1 hp
  have h2 : Reacts D s1 (forSome b (dropParked e) s1) := by
    cases b with
    | none => exact .refl
    | some w => exact dropParked_reacts e w s1 (by rw [hp]; exact hnb w rfl)
  have o2 := Reacts.jobs_ordered o1 h2
  generalize forSome b (dropParked e) s1 = s2 at h2 o2
  have h3 : Reacts D s2 _ := parkedReturn_reacts e s2
  have o3 := Reacts.jobs_ordered o2 h3
  generalize s2.modCtx e Contexts.parkedReturn = s3 at h3 o3
  have h4 : Reacts D s3 _ :=
    forSome_reacts a (fun w => takeEvicted w.job) o3 fun w _ hw h => takeEvicted_reacts w.job h (hDa w hw)
  have o4 := Reacts.jobs_ordered o3 h4
  generalize forSome a (fun w => takeEvicted w.job) s3 = s4 at h4 o4
  have h5 : Reacts D s4 _ :=
    forSome_reacts b (fun w => takeEvicted w.job) o4 fun w _ hw h => takeEvicted_reacts w.job h (hDb w hw)
  exact (((h1.trans h2).trans h3).trans h4).trans h5

end Sys2Proof.Machine
end

