-- ==== Sys2Proof/Laws/Change.lean ====
section
/-! SUPPORT. Laws/Change.lean: everything that the owning blocks can do to the state: what a command makes them
do is a chain of the steps of `WorkStep`, and of nothing else, but for SORTED, which also adds a plate to a rack
or a shelf. None of these steps touches what a port holds but its output list. -/

namespace Sys2Proof.Machine

open State

/-! ### The steps -/

/-- One thing that an owning block does. -/
inductive WorkStep : State → State → Prop
  | react {s t : State} (h : ReactStep AnyJob s t) : WorkStep s t
  | clock (s : State) (t : Nat) (h : s.clock ≤ Config.maxClock → t ≤ Config.maxClock) :
      WorkStep s (s.setClock t)
  | putPage (s : State) (n : Nat) (r : PageRec)
      (h : thas s.pages n = true ∨ s.pages.length < Config.pageRecords) : WorkStep s (s.putPage n r)
  | dropPage (s : State) (n : Nat) : WorkStep s (s.dropPage n)
  | putSlot (s : State) (k : SlotKey) (x : Slot) (h : s.slots.length < Config.rasterSlots) :
      WorkStep s (s.putSlot k x)
  | renew (s : State) (n : Nat) (r : PageRec) (k : SlotKey) (x : Slot) (h : revisionRoom s n = true)
      (hp : thas s.pages n = true) : WorkStep s (((clearAllCurrent n s).putPage n r).putSlot k x)
  | modSlot (s : State) (k : SlotKey) (f : Slot → Slot) : WorkStep s (s.modSlot k f)
  | dropSlot (s : State) (k : SlotKey) : WorkStep s (s.dropSlot k)
  | modPos (s : State) (k : PosKey) (f : Position → Position) : WorkStep s (s.modPos k f)
  | work (s : State) (k : PosKey) (f : PosWork → PosWork) : WorkStep s (s.modWork k f)
  | lose (s : State) (n : Nat) (f : Job → Option LaneId) :
      WorkStep s (s.modJob n fun x => { x with state := .uncertain, lane := f x })
  | putPos (s : State) (k : PosKey) (x : Position) : WorkStep s (s.putPos k x)
  | dropPos (s : State) (k : PosKey) : WorkStep s (s.dropPos k)
  | stage (s : State) (p : PressId) (x : Stage) (h : Tables s → Table.ordered Fin.val x.entries) :
      WorkStep s (s.setStage p x)
  | press (s : State) (p : PressId) (f : Press → Press)
      (h : ∀ x, x.lead ≤ Config.maxLead → (f x).lead ≤ Config.maxLead) : WorkStep s (s.modPress p f)
  | pressState (s : State) (p : PressId) (st : PressState) : WorkStep s (s.setPressState p st)
  | status (s : State) (e : EngineId) (f : EngineStatus → EngineStatus)
      (h : ModeFits (s.engine e).status.mode (s.engine e).ctx →
        ModeFits (f (s.engine e).status).mode (s.engine e).ctx) : WorkStep s (s.modStatus e f)
  | gates (s : State) (e : EngineId) (f : Gates → Gates) : WorkStep s (s.modGates e f)
  | cassette (s : State) (e : EngineId) (f : Cassette → Cassette)
      (h : ∀ c, c.count ≤ Config.maxCassette → (f c).count ≤ Config.maxCassette) :
      WorkStep s (s.modCassette e f)
  | ctx (s : State) (e : EngineId) (f : Contexts → Contexts)
      (h : ModeFits (s.engine e).status.mode (s.engine e).ctx →
        ModeFits (s.engine e).status.mode (f (s.engine e).ctx)) : WorkStep s (s.modCtx e f)
  | register (s : State) (e : EngineId) (r : Register)
      (h : Ranges s → RegisterFits (s.register e) → RegisterFits r) : WorkStep s (s.setRegister e r)
  | lane (s : State) (l : LaneId) (f : Lane → Lane)
      (hi : (s.lane l).inspections.length ≤ Config.pendingInspections →
        (f (s.lane l)).inspections.length ≤ Config.pendingInspections)
      (ht : (f (s.lane l)).transit = (s.lane l).transit) :
      WorkStep s (s.modLane l f)
  | floor (s : State) (l : LaneId) (f : LaneFloor → LaneFloor) : WorkStep s (s.modFloor l f)
  | stopLane (s : State) (l : LaneId) : WorkStep s (s.stopLane l)
  | sorter (s : State) (f : Sorter → Sorter)
      (h : ∀ x, (f x).delivery = none ∨ (f x).delivery = x.delivery) : WorkStep s (s.modSorter f)
  | delivered (s : State) : WorkStep s (s.setDelivery none)
  | served (s : State) (l : LaneId) : WorkStep s (s.setServed l)
  | line (s : State) (f : LineControl → LineControl) : WorkStep s (s.modLine f)
  | limit (s : State) (x : LimitName) (l : LaneId) (v : Nat) (h : inRange x v = true) :
      WorkStep s (setLimit x l v s)
  | restart (s : State) (f : Restart → Restart) : WorkStep s (s.modRestart f)
  | takeRack (s : State) (k : PosKey) (l : List Nat) (h : l.length ≤ (s.rack k).length) :
      WorkStep s (s.setRack k l)
  | takeShelf (s : State) (p : PressId) (l : List (Nat × PosId)) (h : l.length ≤ (s.shelf p).length) :
      WorkStep s (s.setShelf p l)

/-- A plate enters a rack slot or a shelf (R129): the delivery's own, at its end. -/
inductive RackStep : State → State → Prop
  | rack (s : State) (d : Delivery) (p : PressId) (q : PosId) (hd : s.sorter.delivery = some d)
      (h : d.dest = .rackSlot p q) : RackStep s (s.setRack ⟨p, q⟩ (s.rack ⟨p, q⟩ ++ [d.job]))
  | shelf (s : State) (d : Delivery) (p : PressId) (q : PosId) (hd : s.sorter.delivery = some d)
      (h : d.dest = .shelf p) : RackStep s (s.setShelf p (s.shelf p ++ [(d.job, q)]))

/-- A chain of changes. -/
abbrev Works : State → State → Prop := Relation.ReflTransGen WorkStep

/-- A single step is a chain. -/
theorem WorkStep.works {s t : State} (h : WorkStep s t) : Works s t := Relation.ReflTransGen.single h

/-- A reaction is a change. -/
theorem Reacts.works {s t : State} (h : Reacts AnyJob s t) : Works s t := by
  induction h with
  | refl => exact .refl
  | tail _ hu ih => exact ih.tail (.react hu)

/-- Freeing a slot keeps the pages. -/
theorem pages_freeIfDone (k : SlotKey) (s : State) : (freeIfDone k s).pages = s.pages := by
  unfold freeIfDone
  split
  · split <;> rfl
  · rfl

/-- Clearing current flags keeps the pages. -/
theorem pages_clearAllCurrent (n : Nat) (s : State) : (clearAllCurrent n s).pages = s.pages := by
  unfold clearAllCurrent
  generalize currentSlots s n = l
  induction l generalizing s with
  | nil => rfl
  | cons k l ih =>
    rw [List.foldl_cons, ih, clearCurrent, pages_freeIfDone]
    rfl

/-- Freeing a slot keeps the jobs. -/
theorem jobs_freeIfDone (k : SlotKey) (s : State) : (freeIfDone k s).jobs = s.jobs := by
  unfold freeIfDone
  split
  · split <;> rfl
  · rfl

/-- Clearing current flags keeps the jobs. -/
theorem jobs_clearAllCurrent (n : Nat) (s : State) : (clearAllCurrent n s).jobs = s.jobs := by
  unfold clearAllCurrent
  generalize currentSlots s n = l
  induction l generalizing s with
  | nil => rfl
  | cons k l ih =>
    rw [List.foldl_cons, ih, clearCurrent, jobs_freeIfDone]
    rfl

/-- Works keep the job table in order. -/
theorem WorkStep.jobs_ordered {s t : State} (h : WorkStep s t) (hs : JobsOrdered s) : JobsOrdered t := by
  cases h with
  | react h => exact h.jobs_ordered hs
  | lose n f => exact ordered_tmod (rank := id) n (fun x : Job => { x with state := .uncertain, lane := f x }) hs
  | limit x l v => cases x <;> exact hs
  | renew n =>
    show JobsOrdered (clearAllCurrent n s)
    rw [JobsOrdered, jobs_clearAllCurrent]
    exact hs
  | _ => exact hs

/-- Works keep the job table in order. -/
theorem Works.jobs_ordered {s t : State} (hs : JobsOrdered s) (h : Works s t) : JobsOrdered t := by
  induction h with
  | refl => exact hs
  | tail _ hu ih => exact hu.jobs_ordered ih

/-- A chain, and then another that needs the table in order. -/
theorem Works.then {s t u : State} (hs : JobsOrdered s) (h : Works s t) (k : JobsOrdered t → Works t u) :
    Works s u := h.trans (k (Works.jobs_ordered hs h))

/-- A fold of changes, each needing the table in order. -/
theorem foldl_works {α : Type} (f : State → α → State) (l : List α) {s : State} (hs : JobsOrdered s)
    (h : ∀ s, JobsOrdered s → ∀ x ∈ l, Works s (f s x)) : Works s (l.foldl f s) :=
  foldl_chain_of (P := JobsOrdered) f (fun _ _ hs h => Works.jobs_ordered hs h) l s hs h

/-- Raising a notice. -/
theorem raise_works (n : Notice) (s : State) : Works s (raise n s) := (raise_reacts n s).works

/-- Judging the colour-starved condition. -/
theorem evalStarved_works (s : State) : Works s (evalStarved s) := (evalStarved_reacts s).works

/-- Serving the engines. -/
theorem serve_works {s : State} (hs : JobsOrdered s) : Works s (serve s) := (serve_reacts hs).works

/-- A change, and then serving the engines. -/
theorem Works.serve {s t : State} (hs : JobsOrdered s) (h : Works s t) : Works s (serve t) :=
  Works.then hs h fun ht => serve_works ht

/-- The sorter's look. -/
theorem sorterLook_works (s : State) : Works s (sorterLook s) := (sorterLook_reacts s).works

/-! ### Pages (chapter 1) -/

/-- An arrival signal. -/
theorem arrivalSignal_works (n : Nat) {s : State} (hs : JobsOrdered s) : Works s (arrivalSignal n s) :=
  foldl_works _ _ hs fun _ h k _ => (needAndServe_reacts k h).works

/-- A revision signal. -/
theorem revisionSignal_works (n : Nat) {s : State} (hs : JobsOrdered s) : Works s (revisionSignal n s) :=
  foldl_works _ _ hs fun _ h k _ =>
    Works.then h (supersedeAt_reacts k h).works fun h' => (needAndServe_reacts k h').works

/-- A withdraw signal. -/
theorem withdrawSignal_works (n : Nat) {s : State} (hs : JobsOrdered s) : Works s (withdrawSignal n s) := by
  refine foldl_works _ _ hs fun s h k _ => ?_
  unfold withdrawAt
  dsimp only
  split
  · exact Works.then h (supersedeAt_reacts k h).works fun h' => (needAndServe_reacts k h').works
  · exact (needAndServe_reacts k h).works

/-- A slot loses its current flag. -/
theorem clearCurrent_works (k : SlotKey) (s : State) : Works s (clearCurrent k s) :=
  (WorkStep.modSlot s k _).works.trans (freeIfDone_reacts k _).works

/-- Every current slot of a page loses its flag. -/
theorem clearAllCurrent_works (n : Nat) (s : State) : Works s (clearAllCurrent n s) :=
  foldl_chain _ _ _ fun s k _ => clearCurrent_works k s

/-- Writing an arrival where there is room for its record and its slot. -/
theorem writeArrival_works (n v : Nat) (c : ColourClass) (a : SepSet) (x : Separation) (ref : U64) (live : Nat)
    (s : State) (hp : thas s.pages n = true ∨ s.pages.length < Config.pageRecords)
    (hk : s.slots.length < Config.rasterSlots) : Works s (writeArrival n v c a x ref live s) := by
  unfold writeArrival
  exact (WorkStep.putPage s n ⟨some c, some v, a.add x, arrivedState c (a.add x), live⟩ hp).works.tail
    (WorkStep.putSlot _ _ _ hk)

/-- PAGE_COMPLETE. -/
theorem tellComplete_works (n v : Nat) (c : ColourClass) (a : SepSet) (s : State) :
    Works s (tellComplete n v c a s) := by
  unfold tellComplete
  split
  · exact raise_works _ _
  · exact .refl

/-- An arrival with outcome ADDED. -/
theorem addArrival_works (n v : Nat) (c : ColourClass) (a : SepSet) (x : Separation) (ref : U64) (live : Nat)
    {s : State} (hs : JobsOrdered s) (hp : thas s.pages n = true ∨ s.pages.length < Config.pageRecords)
    (hk : s.slots.length < Config.rasterSlots) : Works s (addArrival n v c a x ref live s).1 := by
  unfold addArrival
  dsimp only
  exact Works.then hs ((writeArrival_works n v c a x ref live s hp hk).trans (tellComplete_works _ _ _ _ _))
    fun h => arrivalSignal_works n h

/-- Clearing a current flag does not lengthen the raster table. -/
theorem slots_clearCurrent_le (k : SlotKey) (s : State) :
    (clearCurrent k s).slots.length ≤ s.slots.length := by
  unfold clearCurrent freeIfDone
  have h1 : (s.modSlot k fun x => { x with current := false }).slots.length = s.slots.length := by
    simp [tmod]
  split
  · split
    · exact (length_tdel_le _ _).trans h1.le
    · exact h1.le
  · exact h1.le

/-- Removing a key that is there shortens a table. -/
theorem length_tdel_lt {κ α : Type} [DecidableEq κ] (t : Table κ α) (k : κ) (h : (tget t k).isSome = true) :
    (tdel t k).length < t.length := by
  induction t with
  | nil => simp [tget] at h
  | cons e t ih =>
    obtain ⟨k', v⟩ := e
    simp only [tget] at h
    by_cases hk : k' = k
    · simp only [tdel, List.filter, hk, decide_true, Bool.not_true, List.length_cons]
      exact Nat.lt_succ_of_le (List.length_filter_le _ _)
    · simp only [hk, if_false] at h
      have := ih h
      simp only [tdel, List.filter, hk, decide_false, Bool.not_false, List.length_cons] at this ⊢
      omega

/-- A current slot whose count is 0 is freed when its flag is cleared. -/
theorem slots_clearCurrent_lt (k : SlotKey) (s : State) (x : Slot) (h : s.slot? k = some x) (hc : x.count = 0) :
    (clearCurrent k s).slots.length < s.slots.length := by
  have h1 : (s.modSlot k fun x => { x with current := false }).slot? k =
      some { x with current := false } := by
    simp only [State.slot?] at h
    simp [State.slot?, tget_tmod, h]
  unfold clearCurrent freeIfDone
  rw [h1]
  simp only [hc, decide_true, Bool.not_false, Bool.and_self, if_true]
  have h2 := length_tdel_lt (s.modSlot k fun x => { x with current := false }).slots k (by
    simp only [State.slot?] at h1
    rw [h1]; rfl)
  have h3 : (s.modSlot k fun x => { x with current := false }).slots.length = s.slots.length := by
    simp [tmod]
  rw [h3] at h2
  exact h2

/-- Clearing another slot's flag leaves a slot as it is. -/
theorem slot_clearCurrent_ne (k k' : SlotKey) (s : State) (h : k' ≠ k) :
    (clearCurrent k s).slot? k' = s.slot? k' := by
  unfold clearCurrent freeIfDone
  have h1 : (s.modSlot k fun x => { x with current := false }).slot? k' = s.slot? k' := by
    simp [State.slot?, tget_tmod, h]
  split
  · split
    · simp only [State.slot?, slots_dropSlot, tget_tdel, if_neg h] at h1 ⊢
      exact h1
    · exact h1
  · exact h1

/-- Clearing flags does not lengthen the raster table. -/
theorem slots_foldl_clear_le (l : List SlotKey) (s : State) :
    (l.foldl (fun s k => clearCurrent k s) s).slots.length ≤ s.slots.length := by
  induction l generalizing s with
  | nil => exact le_refl _
  | cons k l ih => exact (ih _).trans (slots_clearCurrent_le k s)

/-- Clearing the flags of slots, one of which has count 0, shortens the raster table. -/
theorem slots_foldl_clear_lt (l : List SlotKey) (s : State) (k : SlotKey) (x : Slot) (hk : k ∈ l)
    (h : s.slot? k = some x) (hc : x.count = 0) :
    (l.foldl (fun s k => clearCurrent k s) s).slots.length < s.slots.length := by
  induction l generalizing s with
  | nil => cases hk
  | cons k' l ih =>
    rw [List.foldl_cons]
    by_cases e : k = k'
    · subst e
      exact (slots_foldl_clear_le l _).trans_lt (slots_clearCurrent_lt k s x h hc)
    · have hk' : k ∈ l := by
        rcases List.mem_cons.mp hk with h | h
        · exact absurd h e
        · exact h
      refine (ih _ hk' ?_).trans_le (slots_clearCurrent_le k' s)
      rw [slot_clearCurrent_ne k' k s e]
      exact h

/-- The current slots of a page. -/
theorem mem_currentSlots {s : State} {n : Nat} {k : SlotKey} {x : Slot} (h : (k, x) ∈ s.slots)
    (hp : k.page = n) (hc : x.current = true) : k ∈ currentSlots s n := by
  simp only [currentSlots, List.mem_map, List.mem_filter, Bool.and_eq_true, decide_eq_true_eq]
  exact ⟨(k, x), ⟨h, hp, hc⟩, rfl⟩

/-- A revision that has room finds a free slot once the page's current slots have lost their flags (R17). -/
theorem revisionRoom_free {s : State} {n : Nat} (ho : Table.ordered SlotKey.rank s.slots)
    (hl : s.slots.length ≤ Config.rasterSlots) (h : revisionRoom s n = true) :
    (clearAllCurrent n s).slots.length < Config.rasterSlots := by
  simp only [revisionRoom, freeSlots, Bool.or_eq_true, decide_eq_true_eq, List.any_eq_true,
    Bool.and_eq_true] at h
  rcases h with h | ⟨e, he, ⟨hp, hc⟩, h0⟩
  · have h' : Config.rasterSlots - s.slots.length ≠ 0 := of_decide_eq_true h
    exact (slots_foldl_clear_le _ s).trans_lt (by omega)
  · obtain ⟨k, x⟩ := e
    exact (slots_foldl_clear_lt _ s k x (mem_currentSlots he hp hc) (tget_of_mem ho he) h0).trans_le hl

/-- What changing and freeing slots keeps, clearing current flags keeps. -/
theorem clearAllCurrent_keeps {P : State → Prop} (n : Nat) {s : State}
    (hm : ∀ (s : State) k f, P s → P (s.modSlot k f)) (hd : ∀ (s : State) k, P s → P (s.dropSlot k)) (h : P s) :
    P (clearAllCurrent n s) := by
  unfold clearAllCurrent
  generalize currentSlots s n = l
  induction l generalizing s with
  | nil => exact h
  | cons k l ih =>
    rw [List.foldl_cons]
    apply ih
    unfold clearCurrent freeIfDone
    split
    · split
      · exact hd _ _ (hm _ _ _ h)
      · exact hm _ _ _ h
    · exact hm _ _ _ h

/-- A revision. -/
theorem revise_works (n old v : Nat) (c : ColourClass) (x : Separation) (ref : U64) (live : Nat) {s : State}
    (hs : JobsOrdered s) (hp : thas s.pages n = true) (h : revisionRoom s n = true) :
    Works s (revise n old v c x ref live s).1 := by
  unfold revise
  dsimp only
  have h1 : Works s (writeArrival n v c SepSet.empty x ref live (clearAllCurrent n s)) :=
    (WorkStep.renew s n _ ⟨n, v, x⟩ ⟨ref, 0, true, false⟩ h hp).works
  exact Works.then hs ((h1.trans (raise_works _ _)).trans (tellComplete_works _ _ _ _ _))
    fun h' => revisionSignal_works n h'

/-- A BAD raster is replaced. -/
theorem replaceRaster_works (k : SlotKey) (ref : U64) {s : State} (hs : JobsOrdered s) :
    Works s (replaceRaster k ref s).1 := by
  unfold replaceRaster
  dsimp only
  refine Works.then hs ((WorkStep.modSlot s k fun x => { x with ref := ref, bad := false }).works.trans
    (raise_works (.rasterReplaced k) _)) fun h => ?_
  refine foldl_works _ _ h fun s h n _ => ?_
  unfold returnReplaced
  split
  · rename_i j hj
    exact Works.serve h (requeue_reacts _ _ _ _ _ (sameAttempt hj)).works
  · exact .refl

/-- An arrival by its version. -/
theorem arriveVersion_works (n v cur : Nat) (c : ColourClass) (x : Separation) (ref : U64) (r : PageRec)
    {s : State} (hs : JobsOrdered s) (hp : thas s.pages n = true) :
    Works s (arriveVersion n v cur c x ref r s).1 := by
  unfold arriveVersion
  split
  · exact .refl
  · split
    · split
      · exact .refl
      · split
        · split
          · exact replaceRaster_works _ _ hs
          · exact .refl
        · split
          · exact .refl
          · rename_i h
            exact addArrival_works _ _ _ _ _ _ _ hs (.inl hp) (by simp only [freeSlots] at h; omega)
    · split
      · exact revise_works _ _ _ _ _ _ _ hs hp (by assumption)
      · exact .refl

/-- An arrival. -/
theorem arrive_works (n v : Nat) (c : ColourClass) (x : Separation) (ref : U64) {s : State}
    (hs : JobsOrdered s) : Works s (arrive n v c x ref s).1 := by
  unfold arrive
  split
  · split
    · exact .refl
    · rename_i h
      split
      · exact .refl
      · rename_i h'
        exact addArrival_works _ _ _ _ _ _ _ hs (.inr (by simp only [freePages] at h; omega))
          (by simp only [freeSlots] at h'; omega)
  · rename_i r hr
    have hp : thas s.pages n = true := by
      simp only [State.page?] at hr
      simp only [thas, hr, Option.isSome_some]
    split
    · split
      · split
        · exact revise_works _ _ _ _ _ _ _ hs hp (by assumption)
        · exact .refl
      · exact .refl
    · exact arriveVersion_works _ _ _ _ _ _ _ hs hp
    · exact arriveVersion_works _ _ _ _ _ _ _ hs hp
    · split
      · exact .refl
      · rename_i h
        exact addArrival_works _ _ _ _ _ _ _ hs (.inl hp) (by simp only [freeSlots] at h; omega)

/-- SEPARATION_ARRIVED. -/
theorem reqSeparationArrived_works (page : U16) (version cls sep : Byte) (ref : U64) {s : State}
    (hs : JobsOrdered s) : Works s (reqSeparationArrived page version cls sep ref s).1 := by
  unfold reqSeparationArrived
  split
  · split
    · exact .refl
    · split
      · exact .refl
      · split
        · exact .refl
        · exact arrive_works _ _ _ _ _ hs
  · exact .refl

/-- Telling standings. -/
theorem tellAll_works (ks : List PosKey) (s : State) : Works s (tellAll ks s) := (tellAll_reacts ks s).works

/-- Removing a page record. -/
theorem removePage_works (n : Nat) (r : PageRec) (s : State) : Works s (removePage n r s) := by
  unfold removePage
  dsimp only
  refine Relation.ReflTransGen.trans ?_ (raise_works _ _)
  exact (foldl_chain _ _ s fun s k _ => (WorkStep.dropSlot s k).works).tail (WorkStep.dropPage _ n)

/-- A withdrawal. -/
theorem withdraw_works (n : Nat) (r : PageRec) {s : State} (hs : JobsOrdered s)
    (hp : thas s.pages n = true) : Works s (withdraw n r s).1 := by
  unfold withdraw
  dsimp only
  have h1 : Works s ((clearAllCurrent n s).putPage n { r with arrived := SepSet.empty }) :=
    (clearAllCurrent_works n s).tail (WorkStep.putPage _ _ _ (.inl (by rw [pages_clearAllCurrent]; exact hp)))
  have h2 := Works.then hs h1 fun h => withdrawSignal_works n h
  have o2 := Works.jobs_ordered hs h2
  generalize withdrawSignal n ((clearAllCurrent n s).putPage n { r with arrived := SepSet.empty }) = t at h2 o2
  split
  · rename_i r' hr'
    refine h2.trans ?_
    unfold endWithdraw
    split
    · dsimp only
      exact Works.serve o2 ((removePage_works n r' t).trans (tellAll_works _ _))
    · refine Relation.ReflTransGen.trans ?_ (raise_works _ _)
      refine (WorkStep.putPage t n _ (.inl ?_)).works
      simp only [State.page?] at hr'
      simp only [thas, hr', Option.isSome_some]
  · exact h2

/-- WITHDRAW_PAGE. -/
theorem reqWithdrawPage_works (page : U16) {s : State} (hs : JobsOrdered s) :
    Works s (reqWithdrawPage page s).1 := by
  unfold reqWithdrawPage
  split
  · exact .refl
  · split
    · exact .refl
    · rename_i r hr
      split
      · exact .refl
      · exact withdraw_works _ _ hs (by simp only [State.page?] at hr; simp only [thas, hr, Option.isSome_some])

/-! ### The plate book (chapter 2) -/

/-- An edit of a stage. -/
theorem editStage_works (pr : PressId) (p : PortId) (entries : Table PosId Content) (s : State)
    (h : Tables s → Table.ordered Fin.val entries) : Works s (editStage pr p entries s) := by
  unfold editStage
  dsimp only
  have h1 := (WorkStep.stage s pr ⟨some p, entries⟩ h).works
  split
  · exact h1.trans (raise_works _ _)
  · exact h1

/-- STAGE_POSITION. -/
theorem reqStagePosition_works (p : PortId) (press pos format : Byte) (pageA : U16) (pageB : Option U16)
    (sep : Byte) (s : State) : Works s (reqStagePosition p press pos format pageA pageB sep s).1 := by
  unfold reqStagePosition
  split
  · dsimp only
    split
    · exact .refl
    · exact editStage_works _ _ _ _ fun h => ordered_tput _ _ (h.stages _)
  · exact .refl

/-- CLEAR_STAGED_POSITION. -/
theorem reqClearStaged_works (p : PortId) (press pos : Byte) (s : State) :
    Works s (reqClearStaged p press pos s).1 := by
  unfold reqClearStaged
  split
  · exact .refl
  · dsimp only
    split
    · exact .refl
    · split
      · exact editStage_works _ _ _ _ fun h => ordered_tdel _ (h.stages _)
      · exact .refl

/-- A copy of a live plan is in order. -/
theorem stageCopy_ordered (s : State) (pr : PressId) (h : Tables s) :
    Table.ordered Fin.val (stageCopy s pr).entries := by
  unfold stageCopy State.positionsOf Table.ordered
  rw [List.pairwise_map]
  refine (h.plan.filter _).imp_of_mem fun {a b} ha hb hab => ?_
  simp only [List.mem_filter, decide_eq_true_eq] at ha hb
  simp only [PosKey.rank, ha.2, hb.2] at hab
  simp only
  omega

/-- DISCARD_STAGE. -/
theorem reqDiscardStage_works (p : PortId) (press : Byte) (s : State) :
    Works s (reqDiscardStage p press s).1 := by
  unfold reqDiscardStage
  split
  · exact .refl
  · rename_i pr _
    have h1 := (WorkStep.stage s pr (stageCopy s pr) (stageCopy_ordered s pr)).works
    split
    · exact .refl
    · split
      · exact h1
      · split
        · exact h1.trans (raise_works _ _)
        · exact .refl

/-- A CHANGED position. -/
theorem commitChanged_works (k : PosKey) (edition : Nat) (c : Content) {s : State} (hs : JobsOrdered s) :
    Works s (commitChanged k edition c s) :=
  Works.then hs ((supersedeAt_reacts k hs).works.tail (WorkStep.modPos _ _ _))
    fun h => (needAndServe_reacts k h).works

/-- An ADDED position. -/
theorem commitAdded_works (k : PosKey) (edition : Nat) (c : Content) {s : State} (hs : JobsOrdered s) :
    Works s (commitAdded k edition c s) :=
  Works.then hs (WorkStep.putPos s _ _).works fun h => (needAndServe_reacts k h).works

/-- The mounted job of a position retires. -/
theorem retireMounted_works (k : PosKey) {s : State} (hs : JobsOrdered s) : Works s (retireMounted k s) := by
  unfold retireMounted
  split
  · exact Works.then hs (WorkStep.work s k _).works fun h => (depart_reacts _ _ h).works
  · exact .refl

/-- A REMOVED position. -/
theorem commitRemoved_works (k : PosKey) {s : State} (hs : JobsOrdered s) : Works s (commitRemoved k s) := by
  unfold commitRemoved
  dsimp only
  refine Relation.ReflTransGen.tail ?_ (WorkStep.dropPos _ _)
  refine Works.then hs (WorkStep.work s k fun w => { w with deferred := false }).works fun h => ?_
  exact Works.then h (supersedeAt_reacts k h).works fun h' => retireMounted_works k h'

/-- One position of a commit. -/
theorem commitOne_works (k : PosKey) (edition : Nat) (o : CommitOutcome) (a : State × CommitCounts)
    (hs : JobsOrdered a.1) : Works a.1 (commitOne k edition o a).1 := by
  unfold commitOne
  split
  · exact .refl
  · dsimp only
    exact commitChanged_works _ _ _ hs
  · dsimp only
    exact commitAdded_works _ _ _ hs
  · dsimp only
    exact commitRemoved_works _ hs
  · exact .refl

/-- The position pass of a commit. -/
theorem commitPass_works (pr : PressId) (edition : Nat) (staged : Table PosId Content)
    (a : State × CommitCounts) (hs : JobsOrdered a.1) : Works a.1 (commitPass pr edition staged a).1 := by
  unfold commitPass
  generalize allPositions = l
  induction l generalizing a with
  | nil => exact .refl
  | cons q l ih =>
    rw [List.foldl_cons]
    have h1 := commitOne_works ⟨pr, q⟩ edition (commitOutcome (liveContent a.1 ⟨pr, q⟩) (tget staged q)) a hs
    exact h1.trans (ih _ (Works.jobs_ordered hs h1))

/-- The counts of a press are set afresh. -/
theorem refreshCounts_works (pr : PressId) (s : State) : Works s (refreshCounts pr s) := by
  unfold refreshCounts
  dsimp only
  refine Relation.ReflTransGen.trans ?_ (evalPress_reacts _ _).works
  refine Relation.ReflTransGen.tail ?_ (WorkStep.press _ _ _ fun _ h => h)
  unfold refreshStanding
  have h1 : ∀ e : PosKey × Position, ∀ s : State, Reacts AnyJob s (s.modWork e.1 fun w => { w with satisfied := s.satisfied e.2 }) :=
    fun e s => (ReactStep.work s e.1 _ (by exact fun _ => rfl)).reacts
  exact Reacts.works (foldl_chain _ _ s fun s e _ => h1 e s)

/-- The end of a commit. -/
theorem commitEnd_works (p : PortId) (pr : PressId) (edition : Nat) (a : State × CommitCounts) :
    Works a.1 (commitEnd p pr edition a).1 := by
  unfold commitEnd
  dsimp only
  refine Relation.ReflTransGen.trans ?_ (raise_works _ _)
  refine Relation.ReflTransGen.trans ?_ (refreshCounts_works _ _)
  refine (WorkStep.press _ _ (fun x => { x with edition := some edition, window := false, late := false })
    fun _ h => h).works.tail (WorkStep.stage _ _ _ (stageCopy_ordered _ _))

/-- Entering EXPECTED records where there is room for them. -/
theorem putExpected_works (l : List Nat) (s : State) (h : l.length ≤ Config.pageRecords - s.pages.length) :
    Works s (l.foldl (fun s n => s.putPage n expectedPage) s) := by
  induction l generalizing s with
  | nil => exact .refl
  | cons n l ih =>
    rw [List.foldl_cons]
    simp only [List.length_cons] at h
    refine ((WorkStep.putPage s n expectedPage (.inr (by omega))).works).trans (ih _ ?_)
    have := length_tput_le id s.pages n expectedPage
    simp only [pages_putPage]
    omega

/-- A commit that is taken. -/
theorem commit_works (p : PortId) (pr : PressId) (edition : Nat) (new : List Nat) {s : State}
    (hs : JobsOrdered s) (h : new.length ≤ Config.pageRecords - s.pages.length) :
    Works s (commit p pr edition new s).1 := by
  unfold commit
  dsimp only
  have h1 := putExpected_works new s h
  generalize new.foldl (fun s n => s.putPage n expectedPage) s = t at h1
  generalize (⟨0, 0, 0, 0, new.length, 0⟩ : CommitCounts) = c
  have h2 := commitPass_works pr edition (s.stage pr).entries (t, c) (Works.jobs_ordered hs h1)
  exact (h1.trans h2).trans (commitEnd_works _ _ _ _)

/-- COMMIT_PLAN. -/
theorem reqCommitPlan_works (p : PortId) (press edition : Byte) {s : State} (hs : JobsOrdered s) :
    Works s (reqCommitPlan p press edition s).1 := by
  unfold reqCommitPlan
  split
  · exact .refl
  · split
    · exact .refl
    · split
      · exact .refl
      · split
        · exact .refl
        · split
          · exact .refl
          · rename_i pr _ _ _ _ h
            exact commit_works _ _ _ _ hs (by simp only [freePages] at h; omega)

/-- HOLD_POSITION. -/
theorem reqHoldPosition_works (press pos : Byte) (s : State) : Works s (reqHoldPosition press pos s).1 := by
  unfold reqHoldPosition
  split
  · exact .refl
  · split
    · exact .refl
    · split
      · exact .refl
      · dsimp only
        exact (WorkStep.modPos s _ _).works.trans (raise_works _ _)

/-- RELEASE_POSITION. -/
theorem reqReleasePosition_works (press pos : Byte) {s : State} (hs : JobsOrdered s) :
    Works s (reqReleasePosition press pos s).1 := by
  unfold reqReleasePosition
  split
  · exact .refl
  · split
    · exact .refl
    · split
      · dsimp only
        exact Works.serve hs ((WorkStep.modPos s _ _).works.trans (raise_works _ _))
      · exact .refl

/-- REQUEUE_POSITION. -/
theorem reqRequeuePosition_works (press pos : Byte) {s : State} (hs : JobsOrdered s) :
    Works s (reqRequeuePosition press pos s).1 := by
  unfold reqRequeuePosition
  split
  · exact .refl
  · split
    · exact .refl
    · split
      · dsimp only
        exact Works.serve hs (Reacts.works ((needTest_reacts _ _).trans (tellSatisfied_reacts _ _)))
      · split
        · exact .refl
        · split
          · dsimp only
            exact Works.serve hs (requeue_reacts _ _ _ _ _ fun _ _ _ => ⟨le_refl _, by omega⟩).works
          · exact .refl

end Sys2Proof.Machine
end

