-- ==== Sys2Proof/Laws/Read.lean ====
section
/-! SUPPORT. Laws/Read.lean: what each named read of Machine/Ops.lean answers after a named write of the same
part of the state: at the key or the unit that was written, and at any other. (A read after a write of another
part is the same read before, by definition.) -/

namespace Sys2Proof.Machine.State

/-! ### Records that stand in a fixed number of places -/

/-- `port` after `modLink`. -/
theorem port_modLink (p : PortId) (f : Link → Link) (s : State) (q : PortId) :
    (s.modLink p f).port q = if q = p then { s.port q with link := f (s.port q).link } else s.port q := by
  simp only [State.port, ports_modLink, vmod_get]

/-- `port` after `setRights`. -/
theorem port_setRights (p : PortId) (r : Rights) (s : State) (q : PortId) :
    (s.setRights p r).port q = if q = p then { s.port q with rights := r } else s.port q := by
  simp only [State.port, ports_setRights, vmod_get]

/-- `port` after `setMask`. -/
theorem port_setMask (p : PortId) (m : Mask) (s : State) (q : PortId) :
    (s.setMask p m).port q = if q = p then { s.port q with mask := m } else s.port q := by
  simp only [State.port, ports_setMask, vmod_get]

/-- `engine` after `modCtx`. -/
theorem engine_modCtx (e : EngineId) (f : Contexts → Contexts) (s : State) (q : EngineId) :
    (s.modCtx e f).engine q = if q = e then { s.engine q with ctx := f (s.engine q).ctx } else s.engine q := by
  simp only [State.engine, engines_modCtx, vmod_get]

/-- `engine` after `modStatus`. -/
theorem engine_modStatus (e : EngineId) (f : EngineStatus → EngineStatus) (s : State) (q : EngineId) :
    (s.modStatus e f).engine q = if q = e then { s.engine q with status := f (s.engine q).status } else s.engine q := by
  simp only [State.engine, engines_modStatus, vmod_get]

/-- `engine` after `modGates`. -/
theorem engine_modGates (e : EngineId) (f : Gates → Gates) (s : State) (q : EngineId) :
    (s.modGates e f).engine q = if q = e then { s.engine q with gates := f (s.engine q).gates } else s.engine q := by
  simp only [State.engine, engines_modGates, vmod_get]

/-- `engine` after `modCassette`. -/
theorem engine_modCassette (e : EngineId) (f : Cassette → Cassette) (s : State) (q : EngineId) :
    (s.modCassette e f).engine q = if q = e then { s.engine q with cassette := f (s.engine q).cassette } else s.engine q := by
  simp only [State.engine, engines_modCassette, vmod_get]

/-- `lane` after `modFloor`. -/
theorem lane_modFloor (l : LaneId) (f : LaneFloor → LaneFloor) (s : State) (q : LaneId) :
    (s.modFloor l f).lane q = if q = l then { s.lane q with floor := f (s.lane q).floor } else s.lane q := by
  simp only [State.lane, lanes_modFloor, vmod_get]

/-- `lane` after `modLane`. -/
theorem lane_modLane (l : LaneId) (f : Lane → Lane) (s : State) (q : LaneId) :
    (s.modLane l f).lane q = if q = l then f (s.lane q) else s.lane q := by
  simp only [State.lane, lanes_modLane, vmod_get]

/-- `lane` after `stopLane`. -/
theorem lane_stopLane (l : LaneId) (s : State) (q : LaneId) :
    (s.stopLane l).lane q = if q = l then { s.lane q with gates := { (s.lane q).gates with stopped := true } } else s.lane q := by
  simp only [State.lane, lanes_stopLane, vmod_get]

/-- `lane` after `useLaneStep`. -/
theorem lane_useLaneStep (l : LaneId) (s : State) (q : LaneId) :
    (s.useLaneStep l).lane q = if q = l then { s.lane q with gates := { (s.lane q).gates with allowance := false } } else s.lane q := by
  simp only [State.lane, lanes_useLaneStep, vmod_get]

/-- `press` after `modPress`. -/
theorem press_modPress (p : PressId) (f : Press → Press) (s : State) (q : PressId) :
    (s.modPress p f).press q = if q = p then f (s.press q) else s.press q := by
  simp only [State.press, presses_modPress, vmod_get]

/-- `press` after `setPressState`. -/
theorem press_setPressState (p : PressId) (x : PressState) (s : State) (q : PressId) :
    (s.setPressState p x).press q = if q = p then { s.press q with state := x } else s.press q := by
  simp only [State.press, presses_setPressState, vmod_get]

/-- `press` after `setUnsatisfied`. -/
theorem press_setUnsatisfied (p : PressId) (n : Nat) (s : State) (q : PressId) :
    (s.setUnsatisfied p n).press q = if q = p then { s.press q with unsatisfied := n } else s.press q := by
  simp only [State.press, presses_setUnsatisfied, vmod_get]

/-- `stage` after `setStage`. -/
theorem stage_setStage (p : PressId) (x : Stage) (s : State) (q : PressId) :
    (s.setStage p x).stage q = if q = p then x else s.stage q := by
  simp only [State.stage, stages_setStage, vmod_get]

/-- `shelf` after `setShelf`. -/
theorem shelf_setShelf (p : PressId) (x : List (Nat × PosId)) (s : State) (q : PressId) :
    (s.setShelf p x).shelf q = if q = p then x else s.shelf q := by
  simp only [State.shelf, shelves_setShelf, vmod_get]

/-- `register` after `setRegister`. -/
theorem register_setRegister (e : EngineId) (r : Register) (s : State) (q : EngineId) :
    (s.setRegister e r).register q = if q = e then r else s.register q := by
  simp only [State.register, registers_setRegister, vmod_get]

/-! ### Tables -/

/-- `job?` after `modJob`. -/
theorem job?_modJob (n : Nat) (f : Job → Job) (s : State) (m : Nat) :
    (s.modJob n f).job? m = if m = n then (s.job? m).map f else s.job? m := tget_tmod s.jobs n _ (f)

/-- `job?` after `addJob`. -/
theorem job?_addJob (n : Nat) (j : Job) (s : State) (m : Nat) :
    (s.addJob n j).job? m = if m = n then some j else s.job? m := tget_tput (rank := id) Function.injective_id _ _ _ _

/-- `job?` after `dropJob`. -/
theorem job?_dropJob (n : Nat) (s : State) (m : Nat) :
    (s.dropJob n).job? m = if m = n then none else s.job? m := tget_tdel _ _ _

/-- `page?` after `putPage`. -/
theorem page?_putPage (n : Nat) (r : PageRec) (s : State) (m : Nat) :
    (s.putPage n r).page? m = if m = n then some r else s.page? m := tget_tput (rank := id) Function.injective_id _ _ _ _

/-- `page?` after `modLive`. -/
theorem page?_modLive (n : Nat) (f : Nat → Nat) (s : State) (m : Nat) :
    (s.modLive n f).page? m = if m = n then (s.page? m).map fun x => { x with liveJobs := f x.liveJobs } else s.page? m := tget_tmod s.pages n _ (fun x : PageRec => { x with liveJobs := f x.liveJobs })

/-- `page?` after `dropPage`. -/
theorem page?_dropPage (n : Nat) (s : State) (m : Nat) :
    (s.dropPage n).page? m = if m = n then none else s.page? m := tget_tdel _ _ _

/-- `slot?` after `putSlot`. -/
theorem slot?_putSlot (k : SlotKey) (x : Slot) (s : State) (m : SlotKey) :
    (s.putSlot k x).slot? m = if m = k then some x else s.slot? m := tget_tput SlotKey.rank_injective _ _ _ _

/-- `slot?` after `modSlot`. -/
theorem slot?_modSlot (k : SlotKey) (f : Slot → Slot) (s : State) (m : SlotKey) :
    (s.modSlot k f).slot? m = if m = k then (s.slot? m).map f else s.slot? m := tget_tmod s.slots k _ (f)

/-- `slot?` after `modCount`. -/
theorem slot?_modCount (k : SlotKey) (f : Nat → Nat) (s : State) (m : SlotKey) :
    (s.modCount k f).slot? m = if m = k then (s.slot? m).map fun x => { x with count := f x.count } else s.slot? m := tget_tmod s.slots k _ (fun x : Slot => { x with count := f x.count })

/-- `slot?` after `dropSlot`. -/
theorem slot?_dropSlot (k : SlotKey) (s : State) (m : SlotKey) :
    (s.dropSlot k).slot? m = if m = k then none else s.slot? m := tget_tdel _ _ _

/-- `pos?` after `modWork`. -/
theorem pos?_modWork (k : PosKey) (f : PosWork → PosWork) (s : State) (m : PosKey) :
    (s.modWork k f).pos? m = if m = k then (s.pos? m).map fun x => { x with work := f x.work } else s.pos? m := tget_tmod s.plan k _ (fun x : Position => { x with work := f x.work })

/-- `pos?` after `modPos`. -/
theorem pos?_modPos (k : PosKey) (f : Position → Position) (s : State) (m : PosKey) :
    (s.modPos k f).pos? m = if m = k then (s.pos? m).map f else s.pos? m := tget_tmod s.plan k _ (f)

/-- `pos?` after `putPos`. -/
theorem pos?_putPos (k : PosKey) (x : Position) (s : State) (m : PosKey) :
    (s.putPos k x).pos? m = if m = k then some x else s.pos? m := tget_tput PosKey.rank_injective _ _ _ _

/-- `pos?` after `dropPos`. -/
theorem pos?_dropPos (k : PosKey) (s : State) (m : PosKey) :
    (s.dropPos k).pos? m = if m = k then none else s.pos? m := tget_tdel _ _ _

/-- `rack` after `setRack`. -/
theorem rack_setRack (k : PosKey) (l : List Nat) (s : State) (m : PosKey) :
    (s.setRack k l).rack m = if m = k then l else s.rack m := by
  simp only [State.rack, racks_setRack]
  split
  · rename_i h
    rw [tget_tdel]
    split
    · simp [h]
    · rfl
  · rw [tget_tput PosKey.rank_injective]
    split <;> rfl

end Sys2Proof.Machine.State
end

