-- ==== Sys2Proof/Laws/Frames.lean ====
section
/-! SUPPORT. Laws/Frames.lean: what serving the engines and what the reactions leave alone (`KeptByServing`,
`KeptByReacting`, `PortsKept`), and that these relations are closed under one event after another. -/

namespace Sys2Proof.Machine

open State

variable {D : Nat → Prop}

/-! ### Ports -/

/-- A port is kept by itself. -/
theorem PortKept.refl (x : Port) : PortKept [] x x :=
  ⟨rfl, rfl, rfl, rfl, rfl, fun _ => rfl, fun _ => rfl, [], by simp, by simp⟩

/-- One after another; the frames at the end are those of the second. -/
theorem PortKept.trans {x y z : Port} {tail : List OutFrame} (h : PortKept [] x y) (k : PortKept tail y z) :
    PortKept tail x z := by
  obtain ⟨l, hl, hl'⟩ := h.output
  obtain ⟨m, hm, hm'⟩ := k.output
  refine ⟨k.1.trans h.1, k.2.trans h.2, k.3.trans h.3, k.4.trans h.4, k.5.trans h.5,
    fun hx => (k.sending (by rw [h.sending hx]; exact hx)).trans (h.sending hx),
    fun hx => (k.overrun (by rw [h.overrun hx]; exact hx)).trans (h.overrun hx), l ++ m, ?_, ?_⟩
  · rw [hm, hl]; simp
  · intro f hf
    rcases List.mem_append.1 hf with hf | hf
    · exact hl' f hf
    · rw [← h.mask]; exact hm' f hf

/-- Ports are kept by nothing happening. -/
theorem PortsKept.refl (s : State) : PortsKept s s := fun _ => ⟨.refl _, rfl⟩

/-- One after another. -/
theorem PortsKept.trans {s t u : State} (h : PortsKept s t) (k : PortsKept t u) : PortsKept s u :=
  fun q => ⟨(h q).1.trans (k q).1, (k q).2.trans (h q).2⟩

/-- Ports that are the same are kept. -/
theorem PortsKept.of_eq {s t : State} (h : t.ports = s.ports) : PortsKept s t := by
  intro q
  have : t.port q = s.port q := by unfold State.port; rw [h]
  rw [this]
  exact ⟨.refl _, rfl⟩

/-- A free transmitter's start moves no frame. -/
theorem pump_eq (l : Link) : ∃ x, l.pump = { l with sending := x } := by
  unfold Link.pump
  split
  · exact ⟨l.sending, rfl⟩
  · exact ⟨_, rfl⟩

/-- A free transmitter's start is the start on the next list. -/
theorem pump_started (l : Link) : l.pump = started l := by
  unfold Link.pump started
  cases hs : l.sending with
  | some x => cases l; simp_all
  | none =>
    dsimp only
    congr 1
    simp only [Option.none_or]
    unfold Link.nextSource nextList
    cases l.output with
    | nil => by_cases hr : l.refusals = [] <;> simp [hr]
    | cons f r => by_cases hf : f.isRestarted = true <;> by_cases hr : l.refusals = [] <;> simp [hf, hr]

/-- An offer puts at most the notice's own copy at the end of the output list. -/
theorem offer_kept (time : Nat) (n : Notice) (x : Port) (h : x.mask.has n.cls = true) :
    PortKept [] x { x with link := Link.offer time n x.link } ∧ (Link.offer time n x.link).inHand = x.link.inHand := by
  have base := PortKept.refl x
  unfold Link.offer
  split
  · split
    · rename_i ho
      rw [pump_started]
      refine ⟨{ base with
        sending := fun hx => ?_
        overrun := fun hx => absurd ho hx
        output := ⟨[.notice time n], (List.append_nil _).symm, ?_⟩ }, rfl⟩
      · show (x.link.sending.or _) = _
        cases hs : x.link.sending with
        | none => exact absurd hs hx
        | some y => rfl
      · intro f hf
        rw [List.mem_singleton] at hf
        exact ⟨time, n, hf, h⟩
    · exact ⟨base, rfl⟩
  · refine ⟨{ base with overrun := fun hx => ?_ }, rfl⟩
    cases ho : x.link.overrun with
    | none => exact absurd ho hx
    | some y => rfl

/-- Offering a notice to a port whose mask holds its class keeps the ports. -/
theorem offer_ports_kept (s : State) (p : PortId) (time : Nat) (n : Notice) (h : (s.port p).mask.has n.cls = true) :
    PortsKept s (s.modLink p (Link.offer time n)) := by
  intro q
  rw [port_modLink]
  split
  · subst q
    exact offer_kept time n (s.port p) h
  · exact ⟨.refl _, rfl⟩

/-- Serving keeps the ports. -/
theorem ServeStep.ports_kept {s t : State} (h : ServeStep s t) : PortsKept s t := by
  cases h with
  | offer p n h => exact offer_ports_kept s p _ n h
  | expose e =>
    unfold sendExpose
    split
    · exact .refl _
    · exact .of_eq rfl
  | _ => exact .of_eq rfl

/-- Reactions keep the ports. -/
theorem ReactStep.ports_kept {s t : State} (h : ReactStep D s t) : PortsKept s t := by
  cases h with
  | serve h => exact h.ports_kept
  | _ => exact .of_eq rfl

/-- Serving keeps the ports. -/
theorem Serves.ports_kept {s t : State} (h : Serves s t) : PortsKept s t := by
  induction h with
  | refl => exact .refl _
  | tail _ hu ih => exact ih.trans hu.ports_kept

/-- Reactions keep the ports. -/
theorem Reacts.ports_kept {s t : State} (h : Reacts D s t) : PortsKept s t := by
  induction h with
  | refl => exact .refl _
  | tail _ hu ih => exact ih.trans hu.ports_kept

/-! ### Serving -/

/-- An engine is served by nothing happening. -/
theorem EngineServed.refl (x : Engine) : EngineServed x x :=
  ⟨rfl, rfl, rfl, rfl, rfl, fun _ h => h, fun _ h => .inl h, fun _ => rfl⟩

/-- One after another. -/
theorem EngineServed.trans {x y z : Engine} (h : EngineServed x y) (k : EngineServed y z) :
    EngineServed x z := by
  refine ⟨k.1.trans h.1, k.2.trans h.2, k.3.trans h.3, k.4.trans h.4, k.5.trans h.5,
    fun w hw => k.parked w (h.parked w hw), fun w hw => ?_, fun hm =>
      (k.idle (by rw [h.status]; exact hm)).trans (h.idle hm)⟩
  rcases h.next w hw with h1 | ⟨hl, t, h1⟩ | ⟨hl, h1⟩
  · exact k.next w h1
  · rcases k.next _ h1 with h2 | ⟨h2, _⟩ | ⟨h2, _⟩
    · exact .inr (.inl ⟨hl, t, h2⟩)
    · cases h2
    · exact absurd rfl h2
  · exact .inr (.inr ⟨hl, k.parked w h1⟩)

/-- A lane is served by nothing happening. -/
theorem LaneServed.refl (x : Lane) : LaneServed x x := rfl

/-- One after another. -/
theorem LaneServed.trans {x y z : Lane} (h : LaneServed x y) (k : LaneServed y z) : LaneServed x z := by
  unfold LaneServed at *
  rw [k, h]

/-- Jobs are served by nothing happening. -/
theorem JobsServed.of_eq {s t : State} (h : t.jobs = s.jobs) : JobsServed s t := by
  intro n
  have : t.job? n = s.job? n := by unfold State.job?; rw [h]
  rw [this]
  exact ⟨id, fun j hj => ⟨j, hj, .inl rfl, rfl⟩⟩

/-- One after another. -/
theorem JobsServed.trans {s t u : State} (h : JobsServed s t) (k : JobsServed t u) : JobsServed s u := by
  intro n
  refine ⟨fun hn => (k n).1 ((h n).1 hn), fun j hj => ?_⟩
  obtain ⟨j1, h1, s1, e1⟩ := (h n).2 j hj
  obtain ⟨j2, h2, s2, e2⟩ := (k n).2 j1 h1
  refine ⟨j2, h2, ?_, ?_⟩
  · rcases s1 with s1 | ⟨s1, s1'⟩
    · rw [s1] at s2; exact s2
    · rcases s2 with s2 | ⟨s2, _⟩
      · exact .inr ⟨s1, s2.trans s1'⟩
      · rw [s1'] at s2; cases s2
  · rw [e2, e1]

/-- A change of one job that serving may make. -/
theorem JobsServed.modJob (s : State) (n : Nat) (f : Job → Job)
    (h : ∀ j, s.job? n = some j → ((f j).state = j.state ∨ (j.state = .queued ∧ (f j).state = .assigned)) ∧
      f j = { j with state := (f j).state, engine := (f j).engine, applied := (f j).applied }) :
    JobsServed s (s.modJob n f) := by
  intro m
  rw [job?_modJob]
  split
  · subst m
    refine ⟨fun hn => by rw [hn]; rfl, fun j hj => ⟨f j, by rw [hj]; rfl, h j hj⟩⟩
  · exact ⟨id, fun j hj => ⟨j, hj, .inl rfl, rfl⟩⟩

/-- Serving that does nothing. -/
theorem KeptByServing.refl (s : State) : KeptByServing s s where
  clock := rfl
  pages := rfl
  slots := rfl
  plan := rfl
  stages := rfl
  lastJob := rfl
  entryCount := rfl
  racks := rfl
  shelves := rfl
  presses := rfl
  registers := rfl
  sorter := rfl
  limits := rfl
  restart := rfl
  softResetDue := rfl
  deskSent := rfl
  pending := rfl
  policies := rfl
  stopTime := rfl
  lineState := .inl rfl
  engines _ := .refl _
  lanes _ := .refl _
  running _ := ⟨rfl, rfl⟩
  jobs := .of_eq rfl
  idle _ := ⟨rfl, rfl⟩
  sent := ⟨[], by simp⟩

/-- One after another. -/
theorem KeptByServing.trans {s t u : State} (h : KeptByServing s t) (k : KeptByServing t u) :
    KeptByServing s u where
  clock := k.clock.trans h.clock
  pages := k.pages.trans h.pages
  slots := k.slots.trans h.slots
  plan := k.plan.trans h.plan
  stages := k.stages.trans h.stages
  lastJob := k.lastJob.trans h.lastJob
  entryCount := k.entryCount.trans h.entryCount
  racks := k.racks.trans h.racks
  shelves := k.shelves.trans h.shelves
  presses := k.presses.trans h.presses
  registers := k.registers.trans h.registers
  sorter := k.sorter.trans h.sorter
  limits := k.limits.trans h.limits
  restart := k.restart.trans h.restart
  softResetDue := k.softResetDue.trans h.softResetDue
  deskSent := k.deskSent.trans h.deskSent
  pending := k.pending.trans h.pending
  policies := k.policies.trans h.policies
  stopTime := k.stopTime.trans h.stopTime
  lineState := by
    rcases k.lineState with k1 | ⟨k1, k2⟩ <;> rcases h.lineState with h1 | ⟨h1, h2⟩
    · exact .inl (k1.trans h1)
    · exact .inr ⟨h1, k1.trans h2⟩
    · exact .inr ⟨h1 ▸ k1, k2⟩
    · exact .inr ⟨h1, k2⟩
  engines e := (h.engines e).trans (k.engines e)
  lanes l := (h.lanes l).trans (k.lanes l)
  running hr := by
    obtain ⟨h1, h2⟩ := h.running hr
    obtain ⟨k1, k2⟩ := k.running (by rw [h1]; exact hr)
    exact ⟨k1.trans h1, k2.trans h2⟩
  jobs := h.jobs.trans k.jobs
  idle hi := by
    obtain ⟨h1, h2⟩ := h.idle hi
    obtain ⟨k1, k2⟩ := k.idle fun e => by rw [(h.engines e).status]; exact hi e
    exact ⟨k1.trans h1, k2.trans h2⟩
  sent := by
    obtain ⟨l, hl⟩ := h.sent
    obtain ⟨m, hm⟩ := k.sent
    exact ⟨l ++ m, by rw [hm, hl, List.append_assoc]⟩

/-- A change of one engine's contexts that serving may make. -/
theorem KeptByServing.ctx (s : State) (e : EngineId) (f : Contexts → Contexts)
    (h : EngineServed (s.engine e) { s.engine e with ctx := f (s.engine e).ctx }) :
    KeptByServing s (s.modCtx e f) :=
  { KeptByServing.refl s with
    engines := fun q => by
      rw [engine_modCtx]
      split
      · subst q; exact h
      · exact .refl _
    lanes := fun l => .refl _
    jobs := .of_eq rfl
    sent := ⟨[], by simp⟩ }

/-- A change of one job that serving may make, while an engine runs. -/
theorem KeptByServing.job (s : State) (e : EngineId) (n : Nat) (f : Job → Job)
    (hr : (s.engine e).status.mode = .running)
    (h : ∀ j, s.job? n = some j → ((f j).state = j.state ∨ (j.state = .queued ∧ (f j).state = .assigned)) ∧
      f j = { j with state := (f j).state, engine := (f j).engine, applied := (f j).applied }) :
    KeptByServing s (s.modJob n f) :=
  { KeptByServing.refl s with
    engines := fun q => .refl _
    lanes := fun l => .refl _
    jobs := .modJob s n f h
    idle := fun hi => absurd hr (hi e)
    sent := ⟨[], by simp⟩ }

/-- A command on a line channel, while an engine runs. -/
theorem KeptByServing.send (s : State) (e : EngineId) (c : LineCommand)
    (hr : (s.engine e).status.mode = .running) : KeptByServing s (s.send c) :=
  { KeptByServing.refl s with
    engines := fun q => .refl _
    lanes := fun l => .refl _
    jobs := .of_eq rfl
    idle := fun hi => absurd hr (hi e)
    sent := ⟨[c], by simp⟩ }

/-- An engine that is ungated runs. -/
theorem ungated_running {x : Engine} (h : x.ungated = true) : x.status.mode = .running := by
  simp only [Engine.ungated, Bool.and_eq_true, decide_eq_true_eq] at h
  exact h.1.1.1

/-- An engine that is eligible for a job runs. -/
theorem eligible_running {s : State} {e : EngineId} {n : Nat} {j : Job} (h : s.eligible e n j = true) :
    (s.engine e).status.mode = .running := by
  simp only [State.eligible, Bool.and_eq_true] at h
  exact ungated_running h.1.1.1

/-- The colour-starved mark. -/
theorem KeptByServing.other (s : State) (b : Bool) : KeptByServing s (s.setStarved b) :=
  { KeptByServing.refl s with
    engines := fun _ => .refl _, lanes := fun _ => .refl _, jobs := .of_eq rfl, sent := ⟨[], by simp⟩ }

/-- A port's link. -/
theorem KeptByServing.link (s : State) (p : PortId) (f : Link → Link) : KeptByServing s (s.modLink p f) :=
  { KeptByServing.refl s with
    engines := fun _ => .refl _, lanes := fun _ => .refl _, jobs := .of_eq rfl, sent := ⟨[], by simp⟩ }

/-- One thing that serving does. -/
theorem ServeStep.kept {s t : State} (h : ServeStep s t) : KeptByServing s t := by
  cases h with
  | starved b => exact .other _ _
  | offer p n => exact .link _ _ _
  | assign e n j hj hq he hn =>
    unfold Machine.assign
    dsimp only
    have hr := eligible_running he
    refine ((KeptByServing.ctx s e _ ?_).trans (.job _ e n _ (by simpa [State.engine] using hr) ?_)).trans
      (.send _ e _ (by simpa [State.engine] using hr))
    · exact ⟨rfl, rfl, rfl, rfl, rfl, fun w hw => hw, fun w hw => (by rw [hn] at hw; cases hw), fun hm =>
        absurd (eligible_running he) hm⟩
    · intro j' hj'
      have : s.job? n = some j' := hj'
      rw [hj] at this
      cases this
      exact ⟨.inr ⟨hq, rfl⟩, rfl⟩
  | park e w hu hw hs hp =>
    refine .ctx s e _ ⟨rfl, rfl, rfl, rfl, rfl, fun v hv => ?_, fun v hv => ?_, fun hm =>
      absurd (ungated_running hu) hm⟩
    · rw [hp] at hv; cases hv
    · rw [hw] at hv
      cases hv
      exact .inr (.inr ⟨hs, hw⟩)
  | expose e h =>
    unfold sendExpose
    split
    · exact .refl _
    · rename_i w hw
      simp only [State.exposeReady, hw, Bool.and_eq_true, decide_eq_true_eq] at h
      dsimp only
      have hr := ungated_running h.1.1
      refine ((KeptByServing.ctx s e _ ?_).trans (.job _ e w.job _ (by simpa [State.engine] using hr) ?_)).trans
        (.send _ e _ (by simpa [State.engine] using hr))
      · refine ⟨rfl, rfl, rfl, rfl, rfl, fun v hv => hv, fun v hv => ?_, fun hm =>
          absurd (ungated_running h.1.1) hm⟩
        rw [hw] at hv
        cases hv
        exact .inr (.inl ⟨h.2, _, rfl⟩)
      · intro j _
        exact ⟨.inl rfl, rfl⟩
  | stopLane l hl =>
    exact
      { KeptByServing.refl s with
        engines := fun e => .refl _
        lanes := fun q => by
          rw [lane_stopLane]
          split
          · rfl
          · exact .refl _
        running := fun hn => absurd hl hn
        jobs := .of_eq rfl
        sent := ⟨[], by simp⟩ }
  | reached es ls hl =>
    exact { KeptByServing.refl s with
      running := fun hn => absurd hl hn
      lineState := .inl rfl, engines := fun _ => .refl _, lanes := fun _ => .refl _, jobs := .of_eq rfl
      sent := ⟨[], by simp⟩ }
  | stopped hl =>
    exact { KeptByServing.refl s with
      running := fun hn => absurd hl hn
      lineState := .inr ⟨hl, rfl⟩, engines := fun _ => .refl _, lanes := fun _ => .refl _, jobs := .of_eq rfl
      sent := ⟨[], by simp⟩ }

/-- Serving the engines. -/
theorem Serves.kept {s t : State} (h : Serves s t) : KeptByServing s t := by
  induction h with
  | refl => exact .refl _
  | tail _ hu ih => exact ih.trans hu.kept

/-- What serving the engines leaves alone. -/
theorem serve_kept {s : State} (hs : JobsOrdered s) : KeptByServing s (serve s) ∧ PortsKept s (serve s) :=
  ⟨(serve_serves hs).kept, (serve_serves hs).ports_kept⟩

/-! ### Reactions -/

/-- Pages that are the same are kept. -/
theorem PagesKept.of_eq {s t : State} (h : t.pages = s.pages) : PagesKept s t := by
  intro n
  have : t.page? n = s.page? n := by unfold State.page?; rw [h]
  rw [this]
  exact ⟨id, fun r hr => .inl ⟨r.liveJobs, hr⟩⟩

/-- One after another. -/
theorem PagesKept.trans {s t u : State} (h : PagesKept s t) (k : PagesKept t u) : PagesKept s u := by
  intro n
  refine ⟨fun hn => (k n).1 ((h n).1 hn), fun r hr => ?_⟩
  rcases (h n).2 r hr with ⟨m, hm⟩ | ⟨hw, hm⟩
  · rcases (k n).2 _ hm with ⟨m', hm'⟩ | ⟨hw, hm'⟩
    · exact .inl ⟨m', hm'⟩
    · exact .inr ⟨hw, hm'⟩
  · exact .inr ⟨hw, (k n).1 hm⟩

/-- Slots that are the same are kept. -/
theorem SlotsKept.of_eq {s t : State} (h : t.slots = s.slots) : SlotsKept s t := by
  intro n
  have : t.slot? n = s.slot? n := by unfold State.slot?; rw [h]
  unfold SlotKept
  rw [this]
  exact ⟨id, fun r hr => .inl ⟨r.count, hr⟩⟩

/-- One after another, with what the first does to the pages. -/
theorem SlotsKept.trans {s t u : State} (h : SlotsKept s t) (hp : PagesKept s t) (k : SlotsKept t u) :
    SlotsKept s u := by
  intro n
  refine ⟨fun hn => (k n).1 ((h n).1 hn), fun r hr => ?_⟩
  rcases (h n).2 r hr with ⟨m, hm⟩ | ⟨hm, hw⟩
  · rcases (k n).2 _ hm with ⟨m', hm'⟩ | ⟨hm', hw⟩
    · exact .inl ⟨m', hm'⟩
    · refine .inr ⟨hm', hw.imp id ?_⟩
      rintro ⟨q, hq, hs⟩
      cases hps : s.page? n.page with
      | none => rw [(hp _).1 hps] at hq; cases hq
      | some q' =>
        rcases (hp _).2 q' hps with ⟨m'', hq'⟩ | ⟨hq', _⟩
        · rw [hq'] at hq
          cases hq
          exact ⟨q', rfl, hs⟩
        · exact ⟨q', rfl, hq'⟩
  · exact .inr ⟨(k n).1 hm, hw⟩

/-- Nothing happens to an engine. -/
theorem EngineKept.refl (x : Engine) : EngineKept x x := ⟨rfl, rfl, rfl, rfl, fun _ _ _ => rfl⟩

/-- Nothing happens to a lane. -/
theorem LaneKept.refl (x : Lane) : LaneKept x x := ⟨rfl, rfl, rfl, rfl, rfl, rfl, rfl, rfl, fun _ => rfl⟩

/-- Nothing happens to a press. -/
theorem PressKept.refl (x : Press) : PressKept x x := ⟨rfl, .rfl⟩

/-- Nothing happens to the plan. -/
theorem positions_same {s t : State} (h : t.plan = s.plan) :
    ∀ k, (s.pos? k = none → t.pos? k = none) ∧
      ∀ x, s.pos? k = some x → ∃ y, t.pos? k = some y ∧ PositionKept x y := by
  intro k
  have : t.pos? k = s.pos? k := by unfold State.pos?; rw [h]
  rw [this]
  exact ⟨id, fun x hx => ⟨x, hx, rfl, rfl, rfl, rfl⟩⟩

/-- A reaction that does nothing. -/
theorem KeptAside.refl (s : State) : KeptAside s s where
  clock := rfl
  stages := rfl
  racks := rfl
  shelves := rfl
  registers := rfl
  limits := rfl
  restart := rfl
  softResetDue := rfl
  deskSent := rfl
  pending := rfl
  policies := rfl
  stopTime := rfl
  lineState := .inl rfl
  served := rfl
  sorterHeld := rfl
  sorterLost := rfl
  busy _ h := h
  sorterIdle _ := rfl
  positions := positions_same rfl
  presses _ := .refl _
  engines _ := .refl _
  lanes _ := .refl _
  running _ := ⟨rfl, fun _ => rfl⟩
  pages := .of_eq rfl
  slots := .of_eq rfl
  sent := ⟨[], by simp⟩

/-- A reaction that does nothing. -/
theorem KeptByReacting.refl (s : State) : KeptByReacting s s :=
  ⟨.refl s, fun _ j h hu => ⟨j, h, hu⟩⟩

/-- One after another. -/
theorem KeptAside.trans {s t u : State} (h : KeptAside s t) (k : KeptAside t u) : KeptAside s u where
  clock := k.clock.trans h.clock
  stages := k.stages.trans h.stages
  racks := k.racks.trans h.racks
  shelves := k.shelves.trans h.shelves
  registers := k.registers.trans h.registers
  limits := k.limits.trans h.limits
  restart := k.restart.trans h.restart
  softResetDue := k.softResetDue.trans h.softResetDue
  deskSent := k.deskSent.trans h.deskSent
  pending := k.pending.trans h.pending
  policies := k.policies.trans h.policies
  stopTime := k.stopTime.trans h.stopTime
  lineState := by
    rcases k.lineState with k1 | ⟨k1, k2⟩ <;> rcases h.lineState with h1 | ⟨h1, h2⟩
    · exact .inl (k1.trans h1)
    · exact .inr ⟨h1, k1.trans h2⟩
    · exact .inr ⟨h1 ▸ k1, k2⟩
    · exact .inr ⟨h1, k2⟩
  served := k.served.trans h.served
  sorterHeld := k.sorterHeld.trans h.sorterHeld
  sorterLost := k.sorterLost.trans h.sorterLost
  busy d hd := k.busy d (h.busy d hd)
  sorterIdle hx := (k.sorterIdle fun l => ((h.lanes l).exit).trans (hx l)).trans (h.sorterIdle hx)
  positions n := by
    refine ⟨fun hn => (k.positions n).1 ((h.positions n).1 hn), fun x hx => ?_⟩
    obtain ⟨y, hy, h1, h2, h3, h4⟩ := (h.positions n).2 x hx
    obtain ⟨z, hz, k1, k2, k3, k4⟩ := (k.positions n).2 y hy
    exact ⟨z, hz, k1.trans h1, k2.trans h2, k3.trans h3, k4.trans h4⟩
  presses p := by
    obtain ⟨h1, h2⟩ := h.presses p
    obtain ⟨k1, k2⟩ := k.presses p
    exact ⟨by rw [k1, h1], k2.trans h2⟩
  engines e := by
    obtain ⟨h1, h2, h3, h4, h5⟩ := h.engines e
    obtain ⟨k1, k2, k3, k4, k5⟩ := k.engines e
    refine ⟨k1.trans h1, k2.trans h2, k3.trans h3, k4.trans h4, fun hm hn hp => ?_⟩
    have hc := h5 hm hn hp
    exact (k5 (by rw [h1]; exact hm) (by rw [hc]; exact hn) (by rw [hc]; exact hp)).trans hc
  lanes l := by
    obtain ⟨h1, h2, h3, h4, h5, h6, h7, h8, h9⟩ := h.lanes l
    obtain ⟨k1, k2, k3, k4, k5, k6, k7, k8, k9⟩ := k.lanes l
    refine ⟨k1.trans h1, k2.trans h2, k3.trans h3, k4.trans h4, k5.trans h5, k6.trans h6, k7.trans h7,
      k8.trans h8, fun hx => ?_⟩
    rw [k9 (h2.trans hx), h9 hx]
  running hr := by
    obtain ⟨h1, h2⟩ := h.running hr
    obtain ⟨k1, k2⟩ := k.running (by rw [h1]; exact hr)
    exact ⟨k1.trans h1, fun l => (k2 l).trans (h2 l)⟩
  pages := h.pages.trans k.pages
  slots := h.slots.trans h.pages k.slots
  sent := by
    obtain ⟨l, hl⟩ := h.sent
    obtain ⟨m, hm⟩ := k.sent
    exact ⟨l ++ m, by rw [hm, hl, List.append_assoc]⟩

/-- One after another. -/
theorem KeptByReacting.trans {s t u : State} (h : KeptByReacting s t) (k : KeptByReacting t u) :
    KeptByReacting s u :=
  ⟨h.toKeptAside.trans k.toKeptAside, fun n j hj hu => by
    obtain ⟨j', hj', hu'⟩ := k.uncertain n j hj hu
    exact h.uncertain n j' hj' hu'⟩

/-- Serving the engines leaves alone what the reactions do. -/
theorem KeptByServing.reacting {s t : State} (h : KeptByServing s t) : KeptByReacting s t where
  clock := h.clock
  stages := h.stages
  racks := h.racks
  shelves := h.shelves
  registers := h.registers
  limits := h.limits
  restart := h.restart
  softResetDue := h.softResetDue
  deskSent := h.deskSent
  pending := h.pending
  policies := h.policies
  stopTime := h.stopTime
  lineState := h.lineState
  served := by rw [h.sorter]
  sorterHeld := by rw [h.sorter]
  sorterLost := by rw [h.sorter]
  busy d hd := by rw [h.sorter]; exact hd
  sorterIdle _ := h.sorter
  positions := positions_same h.plan
  presses p := by
    have : t.press p = s.press p := by unfold State.press; rw [h.presses]
    rw [this]
    exact .refl _
  engines e := ⟨(h.engines e).status, (h.engines e).gates, (h.engines e).cassette, (h.engines e).current,
    fun hm _ _ => (h.engines e).idle hm⟩
  lanes l := by
    rw [show t.lane l = _ from h.lanes l]
    exact ⟨rfl, rfl, rfl, rfl, rfl, rfl, rfl, rfl, fun _ => rfl⟩
  running hr := by
    obtain ⟨h1, h2⟩ := h.running hr
    exact ⟨h1, fun l => by unfold State.lane; rw [h2]⟩
  pages := .of_eq h.pages
  slots := .of_eq h.slots
  uncertain n j hj hu := by
    cases hs : s.job? n with
    | none => rw [(h.jobs n).1 hs] at hj; cases hj
    | some j' =>
      obtain ⟨j1, h1, h2, _⟩ := (h.jobs n).2 j' hs
      rw [h1] at hj
      cases hj
      rcases h2 with h2 | ⟨_, h2⟩
      · exact ⟨j', rfl, h2 ▸ hu⟩
      · rw [h2] at hu; cases hu
  sent := h.sent

/-- One thing that a reaction does. -/
theorem ReactStep.kept {s t : State} (h : ReactStep D s t) : KeptByReacting s t := by
  have base := KeptByReacting.refl s
  cases h with
  | serve h => exact h.kept.reacting
  | job n f hD h =>
    exact { base with
            uncertain := fun m j hj hu => by
              rw [job?_modJob] at hj
              split at hj
              · subst m
                cases hs : s.job? n with
                | none => rw [hs] at hj; cases hj
                | some j' =>
                  rw [hs] at hj
                  cases hj
                  exact ⟨j', rfl, (h j' hs).uncertain hu⟩
              · exact ⟨j, hj, hu⟩ }
  | addJob n j hl hq hc hf =>
    exact { base with
            uncertain := fun m j' hj hu => by
              rw [job?_addJob] at hj
              split at hj
              · cases hj
                rw [hq] at hu
                cases hu
              · exact ⟨j', hj, hu⟩ }
  | dropJob n hD =>
    exact { base with
            uncertain := fun m j' hj hu => by
              rw [job?_dropJob] at hj
              split at hj
              · cases hj
              · exact ⟨j', hj, hu⟩ }
  | bump => exact { base with sent := base.sent }
  | work k f h =>
    exact { base with
            positions := fun m => by
              rw [pos?_modWork]
              split
              · refine ⟨fun hn => by rw [hn]; rfl, fun x hx => ⟨{ x with work := f x.work }, by rw [hx]; rfl, rfl, rfl, rfl, h _⟩⟩
              · exact base.positions m }
  | live n f =>
    exact { base with
            pages := fun m => by
              rw [page?_modLive]
              split
              · refine ⟨fun hn => by rw [hn]; rfl, fun x hx => .inl ⟨_, by rw [hx]; rfl⟩⟩
              · exact base.pages m }
  | dropPage n r h hw =>
    exact { base with
            pages := fun m => by
              rw [page?_dropPage]
              split
              · refine ⟨fun _ => rfl, fun x hx => .inr ⟨?_, rfl⟩⟩
                subst m
                rw [h] at hx
                cases hx
                exact hw
              · exact base.pages m }
  | count k f =>
    exact { base with
            slots := fun m => by
              unfold SlotKept
              rw [slot?_modCount]
              split
              · refine ⟨fun hn => by rw [hn]; rfl, fun x hx => .inl ⟨_, by rw [hx]; rfl⟩⟩
              · exact base.slots m }
  | dropSlot k h =>
    exact { base with
            slots := fun m => by
              unfold SlotKept
              rw [slot?_dropSlot]
              split
              · subst m
                refine ⟨fun _ => rfl, fun x hx => .inr ⟨rfl, ?_⟩⟩
                rcases h with ⟨y, hy, _, hc⟩ | h
                · rw [hy] at hx
                  cases hx
                  exact .inl hc
                · exact .inr h
              · exact base.slots m }
  | pressState p st h hst =>
    exact { base with
            presses := fun q => by
              rw [press_setPressState]
              split
              · subst q
                exact ⟨rfl, by constructor <;> intro h' <;> contradiction⟩
              · exact .refl _ }
  | unsatisfied p n =>
    exact { base with
            presses := fun q => by
              rw [press_setUnsatisfied]
              split
              · exact ⟨rfl, .rfl⟩
              · exact .refl _ }
  | ctx e f h =>
    exact { base with
            engines := fun q => by
              rw [engine_modCtx]
              split
              · subst q
                refine ⟨rfl, rfl, rfl, h.current, fun _ hn hp => ?_⟩
                obtain ⟨h1, h2, h3, h4⟩ := h
                have h4 := h4 hn hp
                rw [hn, hp] at h2
                rw [hp] at h3
                show f (s.engine e).ctx = (s.engine e).ctx
                generalize f (s.engine e).ctx = c' at h1 h2 h3 h4
                cases c'
                generalize (s.engine e).ctx = c at *
                cases c
                simp_all
              · exact .refl _ }
  | floor l f h hx =>
    exact { base with
            running := fun _ => ⟨rfl, fun q => by rw [lane_modFloor]; split <;> rfl⟩
            lanes := fun q => by
              rw [lane_modFloor]
              split
              · subst q
                exact ⟨(h _).1, (h _).2, rfl, rfl, rfl, rfl, rfl, rfl, fun hn => absurd hn hx⟩
              · exact .refl _ }
  | laneStep l hx =>
    exact { base with
            running := fun _ => ⟨rfl, fun q => by rw [lane_useLaneStep]; split <;> rfl⟩
            lanes := fun q => by
              rw [lane_useLaneStep]
              split
              · subst q
                exact ⟨rfl, rfl, rfl, rfl, rfl, rfl, rfl, rfl, fun hn => absurd hn hx⟩
              · exact .refl _ }
  | sorterStep l hx => exact { base with sorterIdle := fun hn => absurd (hn l) hx }
  | deliver d h hr hx =>
    have hb : ∀ d', s.sorter.delivery = some d' → (s.setDelivery (some d)).sorter.delivery = some d' := by
      intro d' hd
      rw [h] at hd
      cases hd
    have hn : (∀ l, (s.lane l).floor.exit = none) → (s.setDelivery (some d)).sorter = s.sorter := by
      intro hn
      obtain ⟨l, hl⟩ := hx
      rw [hn l] at hl
      cases hl
    exact { base with busy := hb, sorterIdle := hn }
  | send c => exact { base with sent := ⟨[c], by simp⟩ }

/-- Reactions. -/
theorem Reacts.kept {s t : State} (h : Reacts D s t) : KeptByReacting s t := by
  induction h with
  | refl => exact .refl _
  | tail _ hu ih => exact ih.trans hu.kept

/-! ### Jobs that a reaction does not take -/

/-- A job stays by nothing happening. -/
theorem JobStays.refl (j : Job) : JobStays j j := ⟨.inl rfl, rfl⟩

/-- One after another. -/
theorem JobStays.trans {a b c : Job} (h : JobStays a b) (k : JobStays b c) : JobStays a c := by
  obtain ⟨s1, e1⟩ := h
  obtain ⟨s2, e2⟩ := k
  refine ⟨?_, by rw [e2, e1]⟩
  rcases s1 with s1 | ⟨s1, s1'⟩
  · rw [s1] at s2; exact s2
  · rcases s2 with s2 | ⟨s2, _⟩
    · exact .inr ⟨s1, s2.trans s1'⟩
    · rw [s1'] at s2; cases s2

/-- A job that a reaction step does not take stays. -/
theorem ReactStep.job_stays {s t : State} (h : ReactStep D s t) {n : Nat} {j : Job} (hn : ¬ D n)
    (hj : s.job? n = some j) : ∃ j', t.job? n = some j' ∧ JobStays j j' := by
  have same : t.job? n = s.job? n → ∃ j', t.job? n = some j' ∧ JobStays j j' := fun he =>
    ⟨j, he.trans hj, .refl j⟩
  cases h with
  | serve h =>
    obtain ⟨j', h1, h2, h3⟩ := (h.kept.jobs n).2 j hj
    exact ⟨j', h1, h2, h3⟩
  | job m f hD h =>
    refine same ?_
    rw [job?_modJob, if_neg]
    rintro rfl
    exact hn hD
  | addJob m j' hl hq hc hf =>
    refine same ?_
    rw [job?_addJob, if_neg]
    · rfl
    · rintro rfl
      rw [hj] at hf
      cases hf
  | dropJob m hD =>
    refine same ?_
    rw [job?_dropJob, if_neg]
    rintro rfl
    exact hn hD
  | _ => exact same rfl

/-- A job that a reaction does not take stays. -/
theorem Reacts.job_stays {s t : State} (h : Reacts D s t) {n : Nat} {j : Job} (hn : ¬ D n)
    (hj : s.job? n = some j) : ∃ j', t.job? n = some j' ∧ JobStays j j' := by
  induction h with
  | refl => exact ⟨j, hj, .refl j⟩
  | tail _ hu ih =>
    obtain ⟨j1, h1, k1⟩ := ih
    obtain ⟨j2, h2, k2⟩ := hu.job_stays hn h1
    exact ⟨j2, h2, k1.trans k2⟩

/-- Every job that a reaction does not take stays. -/
theorem Reacts.others_stay {s t : State} (h : Reacts D s t) : OthersStay D s t :=
  fun _ _ hn hj => Reacts.job_stays h hn hj

end Sys2Proof.Machine
end

