-- ==== Sys2Proof/Laws/Notices.lean ====
section
/-! SUPPORT. Laws/Notices.lean: what raising notices does: it changes what the ports hold and nothing else, and a
port with room for them has them next in its output list (R180). -/

namespace Sys2Proof.Machine

open State

/-- A frame that a port has sent before does not change what it was told. -/
theorem Tells.kept {ns : List Notice} {s t u : State} (h : Tells ns s t) (k : PortsKept t u) : Tells ns s u := by
  intro q hq ho
  obtain ⟨l, hl⟩ := h q hq ho
  obtain ⟨m, hm, -⟩ := (k q).1.output
  exact ⟨l ++ m, by rw [hm, hl]; simp⟩

/-- Nothing to tell. -/
theorem Tells.none {s t : State} (k : PortsKept s t) : Tells [] s t := by
  intro q _ _
  obtain ⟨m, hm, -⟩ := (k q).1.output
  exact ⟨m, by rw [hm]; simp [framesFor]⟩

/-- Offering a notice touches one port only. -/
theorem port_offerTo (n : Notice) (p : PortId) (s : State) (q : PortId) :
    (offerTo n p s).port q = if q = p ∧ (s.port q).mask.has n.cls = true then
      { s.port q with link := Link.offer s.clock n (s.port q).link } else s.port q := by
  unfold offerTo
  by_cases hm : (s.port p).mask.has n.cls = true
  · rw [if_pos hm, port_modLink]
    by_cases hq : q = p
    · subst hq; simp [hm]
    · simp [hq]
  · rw [if_neg hm, if_neg]
    rintro ⟨rfl, h⟩
    exact hm h

/-- The clock does not move at a notice. -/
theorem clock_offerTo (n : Notice) (p : PortId) (s : State) : (offerTo n p s).clock = s.clock := by
  unfold offerTo; split <;> rfl

/-- A notice offers a copy to each port whose mask holds its class. -/
theorem port_raise (n : Notice) (s : State) (q : PortId) :
    (raise n s).port q = if (s.port q).mask.has n.cls = true then
      { s.port q with link := Link.offer s.clock n (s.port q).link } else s.port q := by
  unfold raise allPorts
  simp only [List.foldl_cons, List.foldl_nil, port_offerTo, clock_offerTo]
  by_cases hm : (s.port q).mask.has n.cls = true
  · fin_cases q <;> simp_all
  · simp_all

/-- A notice changes ports only. -/
theorem raise_same (n : Notice) (s : State) : Same s (raise n s) := by
  unfold Same raise allPorts
  simp only [List.foldl_cons, List.foldl_nil]
  unfold offerTo
  split <;> split <;> split <;> rfl

/-- One after another. -/
theorem Same.trans {s t u : State} (h : Same s t) (k : Same t u) : Same s u := by
  obtain ⟨x, rfl⟩ : ∃ x, t = { s with ports := x } := ⟨_, h⟩
  obtain ⟨y, rfl⟩ : ∃ y, u = { s with ports := y } := ⟨_, k⟩
  rfl

/-- Nothing happens. -/
theorem Same.refl (s : State) : Same s s := rfl

/-- Notices change ports only. -/
theorem raiseAll_same (ns : List Notice) (s : State) : Same s (raiseAll ns s) := by
  induction ns generalizing s with
  | nil => exact .refl s
  | cons n ns ih => exact (raise_same n s).trans (ih (raise n s))

/-- Notices keep the ports. -/
theorem raise_kept (n : Notice) (s : State) : PortsKept s (raise n s) := Reacts.ports_kept (D := AnyJob) (raise_reacts n s)

/-- Notices keep the ports. -/
theorem raiseAll_kept (ns : List Notice) (s : State) : PortsKept s (raiseAll ns s) :=
  Reacts.ports_kept (D := AnyJob) (raiseAll_reacts ns s)

/-- A notice counts as one at most. -/
theorem noticeCount_append (l : Link) (f : OutFrame) (o : Option Nat) (x : Option SendSource) :
    Link.noticeCount { l with output := l.output ++ [f], overrun := o, sending := x } =
      l.noticeCount + if f.isNotice then 1 else 0 := by
  unfold Link.noticeCount
  rw [List.filter_append, List.length_append]
  by_cases h : f.isNotice = true <;> simp [h]

/-- Notices raised are told. -/
theorem tells_raiseAll (ns : List Notice) (s : State) : Tells ns s (raiseAll ns s) := by
  induction ns generalizing s with
  | nil => exact .none (.refl s)
  | cons n ns ih =>
    intro q hq ho
    show ∃ l, ((raiseAll ns (raise n s)).port q).link.output = _
    have hp := port_raise n s q
    have hc : (raise n s).clock = s.clock := by rw [raise_same n s]
    by_cases hm : (s.port q).mask.has n.cls = true
    · rw [if_pos hm] at hp
      have hlt : (s.port q).link.noticeCount < Config.noticeQueue := by
        simp only [List.length_cons] at hq; omega
      have hl : Link.offer s.clock n (s.port q).link =
          Link.pump { (s.port q).link with output := (s.port q).link.output ++ [.notice s.clock n] } := by
        unfold Link.offer
        rw [if_pos hlt, ho]
        simp only [ho]
      obtain ⟨x, hx⟩ := pump_eq { (s.port q).link with output := (s.port q).link.output ++ [.notice s.clock n] }
      rw [hl, hx] at hp
      have hcount : ((raise n s).port q).link.noticeCount = (s.port q).link.noticeCount + 1 := by
        rw [hp]
        exact noticeCount_append _ (.notice s.clock n) _ _
      obtain ⟨l, hl'⟩ := ih (raise n s) q (by
        rw [hcount]; simp only [List.length_cons] at hq; omega) (by rw [hp]; exact ho)
      refine ⟨l, ?_⟩
      rw [hl', hp, hc]
      simp [framesFor, hm]
    · rw [if_neg hm] at hp
      obtain ⟨l, hl'⟩ := ih (raise n s) q (by
        rw [hp]; simp only [List.length_cons] at hq; omega) (by rw [hp]; exact ho)
      refine ⟨l, ?_⟩
      rw [hl', hp, hc]
      simp [framesFor, hm]

end Sys2Proof.Machine
end

