-- ==== Sys2Proof/Laws/Untouched.lean ====
section
/-! SUPPORT. Laws/Untouched.lean: what the job table's operations and a departure leave alone: the engine records,
until the engines are served; and the job table itself, while the press schedule is told. -/

namespace Sys2Proof.Machine

open State

/-- A fold of steps that each keep a part of the state keeps it. -/
theorem foldl_keeps {α β : Type} (g : State → β) {f : State → α → State} (l : List α) {s : State}
    (h : ∀ s x, g (f s x) = g s) : g (l.foldl f s) = g s := by
  induction l generalizing s with
  | nil => rfl
  | cons x l ih => exact ih.trans (h s x)

/-! ### Notices and the press schedule -/

/-- A notice changes no engine. -/
theorem engines_raise (n : Notice) (s : State) : (raise n s).engines = s.engines := by rw [raise_same n s]

/-- A notice changes no job. -/
theorem jobs_raise (n : Notice) (s : State) : (raise n s).jobs = s.jobs := by rw [raise_same n s]

/-- A press that takes its state from its counts changes no job and no engine. -/
theorem evalPress_keeps (p : PressId) (s : State) :
    (evalPress p s).jobs = s.jobs ∧ (evalPress p s).engines = s.engines := by
  unfold evalPress
  dsimp only
  generalize stateOfCounts (s.press p).positions (s.press p).unsatisfied = st
  split
  · exact ⟨rfl, rfl⟩
  · generalize (s.press p).state = x
    cases x <;> cases st <;> first | exact ⟨rfl, rfl⟩ | exact ⟨jobs_raise _ _, engines_raise _ _⟩

/-- Telling the press schedule changes no job and no engine. -/
theorem tellSatisfied_keeps (k : PosKey) (s : State) :
    (tellSatisfied k s).jobs = s.jobs ∧ (tellSatisfied k s).engines = s.engines := by
  unfold tellSatisfied
  split
  · exact ⟨rfl, rfl⟩
  · dsimp only
    split
    · exact ⟨rfl, rfl⟩
    · exact evalPress_keeps _ _

/-- The same for several positions. -/
theorem tellAll_keeps (ks : List PosKey) (s : State) :
    (tellAll ks s).jobs = s.jobs ∧ (tellAll ks s).engines = s.engines :=
  ⟨foldl_keeps State.jobs ks fun s k => (tellSatisfied_keeps k s).1,
    foldl_keeps State.engines ks fun s k => (tellSatisfied_keeps k s).2⟩

/-! ### References, creation and departure -/

/-- References are no business of an engine. -/
theorem engines_takeRefs (ks : List SlotKey) (s : State) : (takeRefs ks s).engines = s.engines :=
  foldl_keeps State.engines ks fun _ _ => rfl

/-- References are no business of an engine. -/
theorem engines_releaseRefs (ks : List SlotKey) (s : State) : (releaseRefs ks s).engines = s.engines :=
  foldl_keeps State.engines ks fun s k => by
    unfold releaseRef freeIfDone
    split
    · split <;> rfl
    · rfl

/-- The colour-starved condition changes no engine record. -/
theorem engines_evalStarved (s : State) : (evalStarved s).engines = s.engines := by
  unfold evalStarved
  split
  · split
    · rfl
    · exact engines_raise _ _
  · rfl

/-- A page's live-job count is no business of an engine. -/
theorem engines_lowerLive (n : Nat) (s : State) : (lowerLive n s).engines = s.engines := by
  unfold lowerLive
  dsimp only
  split
  · split
    · unfold removePage
      dsimp only
      rw [engines_raise]
      exact foldl_keeps (f := fun s k => s.dropSlot k) State.engines _ fun _ _ => rfl
    · rfl
  · rfl

/-- A need test changes no engine. -/
theorem engines_needTest (k : PosKey) (s : State) : (needTest k s).engines = s.engines := by
  unfold needTest
  split
  · rfl
  · split
    · split
      · unfold createJob
        dsimp only
        rw [engines_raise]
        refine (foldl_keeps (f := fun s p => s.modLive p (· + 1)) State.engines _ fun _ _ => rfl).trans ?_
        exact engines_takeRefs _ _
      · split
        · rfl
        · exact engines_raise _ _
    · rfl

/-- The first four steps of a departure change no engine. -/
theorem engines_departCore (n : Nat) (terminal : JobState) (s : State) :
    (departCore n terminal s).engines = s.engines := by
  unfold departCore
  split
  · rfl
  · rename_i j hj
    dsimp only
    refine (foldl_keeps State.engines _ fun s p => (tellAll_keeps _ s).2).trans ?_
    refine ((tellSatisfied_keeps _ _).2).trans ((engines_raise (.jobEnded n j.key terminal j.lastFault) _).trans ?_)
    have h1 : ∀ (b : Prop) [Decidable b] (t : State), (if b then evalStarved t else t).engines = t.engines :=
      fun b _ t => by split <;> [exact engines_evalStarved t; rfl]
    have h2 : ∀ (b : Bool) (t : State), (if b then releaseRefs j.slots t else t).engines = t.engines :=
      fun b t => by split <;> [exact engines_releaseRefs _ t; rfl]
    have h3 : ∀ (b : Bool) (t : State),
        (if b then evalStarved (needTest j.key (t.modWork j.key fun w => { w with current := none })) else t).engines =
          t.engines :=
      fun b t => by split <;> [exact (engines_evalStarved _).trans (engines_needTest _ _); rfl]
    exact (h3 _ _).trans ((foldl_keeps State.engines _ fun s p => engines_lowerLive p s).trans
      ((h2 _ _).trans (h1 _ _)))

/-- Serving deferred positions changes no engine, where the service of the engines does not. -/
theorem engines_serveFrom {look : State → State} (hl : ∀ s, (look s).engines = s.engines) (l : List PosKey) (s : State) :
    (serveFrom look l s).engines = s.engines := by
  induction l generalizing s with
  | nil => rfl
  | cons k l ih =>
    simp only [serveFrom]
    split
    · split
      · exact (ih _).trans ((hl _).trans (engines_needTest _ _))
      · exact (hl _).trans (engines_needTest _ _)
    · exact (ih _).trans (engines_needTest _ _)

/-- Nor does a departure. -/
theorem engines_departBy {look : State → State} (hl : ∀ s, (look s).engines = s.engines) (n : Nat)
    (terminal : JobState) (s : State) : (departBy look n terminal s).engines = s.engines :=
  (hl _).trans ((engines_serveFrom hl _ _).trans (engines_departCore _ _ _))

/-- A return to the queue changes no engine. -/
theorem engines_requeue (n a : Nat) (why : RequeueReason) (f : Option FaultRecord) (s : State) :
    (requeue n a why f s).engines = s.engines := by
  unfold requeue retakeRefs
  split
  · rfl
  · refine (engines_raise _ _).trans ?_
    unfold enterQueue
    split
    · rfl
    · exact engines_takeRefs _ _

/-- Nor does a spoil's decision. -/
theorem engines_spoilDecision (n : Nat) (s : State) : (spoilDecision n s).engines = s.engines := by
  unfold spoilDecision
  split
  · rfl
  · rename_i j hj
    have hr : (retakeRefs j s).engines = s.engines := by
      unfold retakeRefs
      split
      · rfl
      · exact engines_takeRefs _ _
    split
    · dsimp only
      split
      · exact (engines_raise _ _).trans hr
      · exact hr
    · unfold failJob
      rw [hj]
      dsimp only
      split
      · exact (engines_raise _ _).trans hr
      · exact hr

/-! ### The job that an engine fault names -/

/-- The job that an engine fault names returns or ends before any engine is served (R91 step 1). -/
theorem engines_namedReturns (e : EngineId) (n : Nat) (cause : FaultCause) (s : State) :
    (namedReturns e n cause s).engines = s.engines := by
  unfold namedReturns returnByFaultBy
  refine (engines_evalStarved _).trans ?_
  dsimp only
  split
  · rfl
  · split
    · exact engines_departBy engines_evalStarved _ _ _
    · exact engines_requeue _ _ _ _ _

/-- Its plate is spoiled, or it ends, before any engine is served (R91 step 1). -/
theorem engines_namedSpoils (e : EngineId) (n : Nat) (cause : FaultCause) (s : State) :
    (namedSpoils e n cause s).engines = s.engines := by
  unfold namedSpoils spoilBy
  refine (engines_evalStarved _).trans ?_
  dsimp only
  split
  · rfl
  · split
    · exact engines_departBy engines_evalStarved _ _ _
    · exact engines_spoilDecision _ _

end Sys2Proof.Machine
end

