-- ==== Sys2Proof/Laws/EngineLaws.lean ====
section
/-! SUPPORT. Laws/EngineLaws.lean: what the engine channels' and the register tracker's operations can do
(chapters 4 and 5). -/

namespace Sys2Proof.Machine

open State

variable {D : Nat → Prop}

/-! ### Contexts and modes (R73) -/

/-- Naming a job on the cancel list. -/
theorem listCancel_works (e : EngineId) (n : Nat) (cmd : CancelCommand) (s : State) :
    Works s (listCancel e n cmd s) :=
  (WorkStep.ctx s e (fun c => { c with cancel := addCancel ⟨n, (s.attemptOf n).getD 0, cmd⟩ c.cancel })
    fun h => ⟨h.1, h.2⟩).works

/-- Sending the command for a job taken out. -/
theorem cancelJob_works (e : EngineId) (n : Nat) (cmd : CancelCommand) (s : State) :
    Works s (cancelJob e n cmd s) :=
  (listCancel_works e n cmd s).tail (.react (.send _ _))

/-- Any mode fits empty contexts. -/
theorem modeFits_empty (m : EngineMode) : ModeFits m Contexts.empty := ⟨fun _ => ⟨rfl, rfl⟩, fun _ => rfl⟩

/-- Anything fits RUNNING. -/
theorem modeFits_running (c : Contexts) : ModeFits .running c :=
  ⟨fun h => absurd rfl h, fun h => by rcases h with h | h <;> cases h⟩

/-- FAULTED wants empty waiting contexts only. -/
theorem modeFits_faulted {c : Contexts} (h : c.next = none ∧ c.parked = none) : ModeFits .faulted c :=
  ⟨fun _ => h, fun h => by rcases h with h | h <;> cases h⟩

/-- A mode fits contexts that are all empty. -/
theorem modeFits_none (m : EngineMode) {c : Contexts} (h : c.next = none ∧ c.parked = none)
    (hc : c.current = none) : ModeFits m c := ⟨fun _ => h, fun _ => hc⟩

/-- Contexts that hold no more than others fit what those fit. -/
theorem ModeFits.less {m : EngineMode} {c c' : Contexts} (h : ModeFits m c)
    (hn : c.next = none → c'.next = none) (hp : c.parked = none → c'.parked = none)
    (hc : c.current = none → c'.current = none) : ModeFits m c' :=
  ⟨fun hm => ⟨hn (h.waiting hm).1, hp (h.waiting hm).2⟩, fun hm => hc (h.current hm)⟩

/-- A job taken out: the cancel list changes and nothing else does. -/
theorem engine_cancelJob (e : EngineId) (n : Nat) (cmd : CancelCommand) (s : State) :
    ((cancelJob e n cmd s).engine e).ctx.next = (s.engine e).ctx.next ∧
      ((cancelJob e n cmd s).engine e).ctx.parked = (s.engine e).ctx.parked ∧
      ((cancelJob e n cmd s).engine e).ctx.current = (s.engine e).ctx.current := by
  simp [cancelJob, listCancel, State.engine]

/-- A job taken out, if there is one. -/
theorem engine_forSome_cancel {α : Type} (x : Option α) (n : α → Nat) (cmd : α → CancelCommand) (e : EngineId)
    (s : State) :
    ((forSome x (fun w => cancelJob e (n w) (cmd w)) s).engine e).ctx.next = (s.engine e).ctx.next ∧
      ((forSome x (fun w => cancelJob e (n w) (cmd w)) s).engine e).ctx.parked = (s.engine e).ctx.parked ∧
      ((forSome x (fun w => cancelJob e (n w) (cmd w)) s).engine e).ctx.current =
        (s.engine e).ctx.current := by
  unfold forSome
  split
  · exact engine_cancelJob _ _ _ _
  · exact ⟨rfl, rfl, rfl⟩

/-- The current job leaves; the waiting jobs stay. -/
theorem engine_abortCurrent (e : EngineId) (s : State) :
    ((abortCurrent e s).engine e).ctx.next = (s.engine e).ctx.next ∧
      ((abortCurrent e s).engine e).ctx.parked = (s.engine e).ctx.parked ∧
      ((abortCurrent e s).engine e).ctx.current = none := by
  unfold abortCurrent
  have h := engine_forSome_cancel (s.engine e).ctx.current (fun w => w.job) (fun _ => .abort) e
    (s.modCtx e fun c => { c with current := none })
  refine ⟨h.1.trans ?_, h.2.1.trans ?_, h.2.2.trans ?_⟩ <;> simp [State.engine]

/-- The waiting jobs leave; the current one stays. -/
theorem engine_emptyWaiting (e : EngineId) (s : State) :
    ((emptyWaiting e s).engine e).ctx.next = none ∧ ((emptyWaiting e s).engine e).ctx.parked = none ∧
      ((emptyWaiting e s).engine e).ctx.current = (s.engine e).ctx.current := by
  unfold emptyWaiting
  dsimp only
  have h1 := engine_forSome_cancel (s.engine e).ctx.next (fun w => w.job) leaveCommand e
    (s.modCtx e fun c => { c with next := none, parked := none })
  have h2 := engine_forSome_cancel (s.engine e).ctx.parked (fun w => w.job) leaveCommand e
    (forSome (s.engine e).ctx.next (fun w => cancelJob e w.job (leaveCommand w))
      (s.modCtx e fun c => { c with next := none, parked := none }))
  refine ⟨(h2.1.trans h1.1).trans ?_, (h2.2.1.trans h1.2.1).trans ?_, (h2.2.2.trans h1.2.2).trans ?_⟩ <;>
    simp [State.engine]

/-- Doing something with a value that may be absent. -/
theorem forSome_works {α : Type} (x : Option α) (f : α → State → State) (s : State)
    (h : ∀ a s, Works s (f a s)) : Works s (forSome x f s) := by
  unfold forSome
  split
  · exact h _ _
  · exact .refl

/-- The current job leaves its context. -/
theorem abortCurrent_works (e : EngineId) (s : State) : Works s (abortCurrent e s) :=
  (WorkStep.ctx s e (fun c => { c with current := none }) fun h => h.less id id fun _ => rfl).works.trans
    (forSome_works _ _ _ fun _ _ => cancelJob_works _ _ _ _)

/-- The waiting jobs leave their contexts. -/
theorem emptyWaiting_works (e : EngineId) (s : State) : Works s (emptyWaiting e s) := by
  unfold emptyWaiting
  dsimp only
  exact ((WorkStep.ctx s e (fun c => { c with next := none, parked := none }) fun h =>
    h.less (fun _ => rfl) (fun _ => rfl) id).works.trans
      (forSome_works _ _ _ fun _ _ => cancelJob_works _ _ _ _)).trans
        (forSome_works _ _ _ fun _ _ => cancelJob_works _ _ _ _)

/-- No job taken from an engine ends UNCERTAIN. -/
theorem takenWaiting_ends (c : Contexts) : ∀ x ∈ takenWaiting c, x.2 ≠ .uncertain := by
  intro x hx
  unfold takenWaiting at hx
  cases hn : c.next <;> cases hp : c.parked <;> simp [hn, hp] at hx
  · subst hx; nofun
  · subst hx; nofun
  · rcases hx with rfl | rfl <;> nofun

/-- No job taken from an engine ends UNCERTAIN. -/
theorem takenAll_ends (c : Contexts) : ∀ x ∈ takenAll c, x.2 ≠ .uncertain := by
  intro x hx
  unfold takenAll at hx
  rw [List.mem_append] at hx
  rcases hx with hx | hx
  · cases hc : c.current <;> simp [hc] at hx
    subst hx; nofun
  · exact takenWaiting_ends c x hx

/-- The jobs taken return to QUEUED, or end. -/
theorem returnAll_reacts (l : List Taken) {s : State} (hs : JobsOrdered s) (hl : ∀ x ∈ l, x.2 ≠ .uncertain)
    (hD : ∀ x ∈ l, D x.1 := by intros; trivial) : Reacts D s (returnAll l s) :=
  foldl_reacts _ _ hs fun _ h x hx => returnTaken_reacts _ _ _ h (hl x hx) (hD x hx)

/-- What becomes of the job that an engine fault names: a reaction that changes no engine. -/
structure NamedFirst (named : State → State) : Prop where
  reacts : ∀ s, JobsOrdered s → Reacts AnyJob s (named s)
  engines : ∀ s, (named s).engines = s.engines

/-- A fault that names no job. -/
theorem namedFirst_id : NamedFirst id := ⟨fun _ _ => .refl, fun _ => rfl⟩

/-- The job named returns, or ends. -/
theorem namedFirst_returns (e : EngineId) (n : Nat) (cause : FaultCause) : NamedFirst (namedReturns e n cause) :=
  ⟨fun _ hs => (returnByFaultBy_reacts (fun _ _ => evalStarved_reacts _) _ _ _ _ hs).trans (evalStarved_reacts _),
    engines_namedReturns e n cause⟩

/-- The job named is spoiled, or ends. -/
theorem namedFirst_spoils (e : EngineId) (n : Nat) (cause : FaultCause) : NamedFirst (namedSpoils e n cause) :=
  ⟨fun _ hs => (spoilBy_reacts (fun _ _ => evalStarved_reacts _) _ _ _ hs).trans (evalStarved_reacts _),
    engines_namedSpoils e n cause⟩

/-- An engine is as the engine records say. -/
theorem engine_of_engines {s t : State} (h : t.engines = s.engines) (e : EngineId) : t.engine e = s.engine e := by
  unfold State.engine; rw [h]

/-- An engine fault, with what becomes of the job it names. -/
theorem engineFault_works (e : EngineId) (cause : EngineFaultCause) (job : Option Nat) (named : State → State)
    {s : State} (hs : JobsOrdered s) (hn : NamedFirst named) : Works s (engineFault e cause job named s) := by
  unfold engineFault
  dsimp only
  split
  · exact (hn.reacts _ hs).works.tail (WorkStep.status _ e _ fun h => h)
  · split
    · have h1 := (abortCurrent_works e s).trans (emptyWaiting_works e _)
      have f1 := engine_abortCurrent e s
      have f2 := engine_emptyWaiting e (abortCurrent e s)
      generalize emptyWaiting e (abortCurrent e s) = t at h1 f2
      have o1 := Works.jobs_ordered hs h1
      have h2 := (h1.trans (hn.reacts _ o1).works).tail (WorkStep.status _ e
        (fun t => { t with mode := .lockedOut, lastFault := some (cause, s.clock) })
        fun _ => by
          rw [engine_of_engines (hn.engines t)]
          exact modeFits_none _ ⟨f2.1, f2.2.1⟩ (f2.2.2.trans f1.2.2))
      have h3 := h2.trans ((raise_works (.engineLockedOut e cause job) _).trans (evalStarved_works _))
      have o3 := Works.jobs_ordered hs h3
      exact Works.serve hs (h3.trans (returnAll_reacts _ o3 (takenAll_ends _)).works)
    · have h1 := emptyWaiting_works e s
      have f2 := engine_emptyWaiting e s
      generalize emptyWaiting e s = t at h1 f2
      have o1 := Works.jobs_ordered hs h1
      have h2 := (h1.trans (hn.reacts _ o1).works).tail (WorkStep.status _ e
        (fun t => { t with mode := .faulted, faultFlag := true, lastFault := some (cause, s.clock) })
        fun _ => by
          rw [engine_of_engines (hn.engines t)]
          exact modeFits_faulted ⟨f2.1, f2.2.1⟩)
      have h3 := h2.trans ((raise_works (.engineFault e cause job) _).trans (evalStarved_works _))
      have o3 := Works.jobs_ordered hs h3
      exact Works.serve hs (h3.trans (returnAll_reacts _ o3 (takenWaiting_ends _)).works)

/-- An engine's contexts and cassette are dropped. -/
theorem dropEngine_works (e : EngineId) (s : State) : Works s (dropEngine e s) :=
  (WorkStep.ctx s e (fun _ => Contexts.empty) fun _ => modeFits_empty _).works.tail
    (WorkStep.cassette _ e _ fun _ _ => Nat.zero_le _)

/-- An engine dropped holds nothing. -/
theorem engine_dropEngine (e : EngineId) (s : State) : ((dropEngine e s).engine e).ctx = Contexts.empty := by
  simp [dropEngine, State.engine]

/-- An engine dropped, with any status after it. -/
theorem dropEngine_status_works (e : EngineId) (f : EngineStatus → EngineStatus) (s : State) :
    Works s ((dropEngine e s).modStatus e f) :=
  (dropEngine_works e s).tail (WorkStep.status _ e f fun _ => by
    rw [engine_dropEngine]; exact modeFits_empty _)

/-- A fault in which the engine has lost its jobs. -/
theorem engineLost_works (e : EngineId) (cause : EngineFaultCause) (m : EngineMode) {s : State}
    (hs : JobsOrdered s) : Works s (engineLost e cause m s) := by
  unfold engineLost
  dsimp only
  exact Works.then hs (((dropEngine_status_works e _ s).trans (raise_works _ _)).trans (evalStarved_works _))
    fun h => (returnAll_reacts _ h (takenAll_ends _)).works

/-- Link loss. -/
theorem engineLinkLoss_works (e : EngineId) {s : State} (hs : JobsOrdered s) :
    Works s (engineLinkLoss e s) := by
  unfold engineLinkLoss
  dsimp only
  split
  · exact Works.serve hs ((engineLost_works _ _ _ hs).trans (raise_works _ _))
  · exact Works.serve hs ((dropEngine_status_works e _ s).trans (raise_works _ _))

/-- HELLO of an engine that holds no job. -/
theorem greet_works (e : EngineId) {s : State} (hs : JobsOrdered s) : Works s (greet e s) := by
  unfold greet
  dsimp only
  exact Works.serve hs ((dropEngine_status_works e _ s).trans (raise_works _ _))

/-- HELLO. -/
theorem hello_works (e : EngineId) {s : State} (hs : JobsOrdered s) : Works s (hello e s) := by
  unfold hello
  dsimp only
  split
  · exact Works.then hs (engineLost_works _ _ _ hs) fun h => greet_works e h
  · exact greet_works e hs

/-- CASSETTE_LOADED. -/
theorem cassetteLoaded_works (e : EngineId) (format : Option PlateFormat) (count : Nat) {s : State}
    (hs : JobsOrdered s) : Works s (cassetteLoaded e format count s) := by
  unfold cassetteLoaded
  dsimp only
  split
  · exact .refl
  · split
    · exact engineFault_works _ _ _ _ hs namedFirst_id
    · rename_i h
      have h1 := (WorkStep.cassette s e (fun _ => ⟨format, count⟩) fun _ _ => by
        simp only [not_or, not_lt] at h; exact h.2).works
      split
      · exact Works.then hs h1 fun h => engineFault_works _ _ _ _ h namedFirst_id
      · exact Works.serve hs h1

/-- An entry of the cancel list goes. -/
theorem removeCancel_works (e : EngineId) (n : Nat) (s : State) : Works s (removeCancel e n s) :=
  (WorkStep.ctx s e (fun c => { c with cancel := c.cancel.filter fun x => x.job ≠ n })
    fun h => h.less id id id).works

/-- A report about a job. -/
theorem jobReport_works (e : EngineId) (n attempt : Nat) (removes : CancelCommand → Bool) (accepted : Bool)
    (effect : State → State) {s : State} (hs : JobsOrdered s)
    (h : (s.engine e).status.mode ≠ .offline → (s.engine e).status.mode ≠ .lockedOut → accepted = true →
      Works s (effect s)) : Works s (jobReport e n attempt removes accepted effect s) := by
  unfold jobReport
  split
  · split
    · exact Works.serve hs (removeCancel_works e n s)
    · exact .refl
  · split
    · exact .refl
    · exact .refl
    · rename_i h1 h2
      split
      · rename_i ha
        exact h h1 h2 ha
      · unfold unmatched
        split
        · exact engineFault_works _ _ _ _ hs namedFirst_id
        · exact .refl

/-- LOADED. -/
theorem loaded_works (e : EngineId) (n attempt : Nat) {s : State} (hs : JobsOrdered s) :
    Works s (loaded e n attempt s) :=
  jobReport_works _ _ _ _ _ _ hs fun _ _ _ => Works.serve hs
    (WorkStep.ctx s e (fun c => { c with next := markLoaded n c.next, parked := markLoaded n c.parked })
      fun h => h.less (fun h => by simp [h, markLoaded]) (fun h => by simp [h, markLoaded]) id).works

/-- A job leaves next or parked. -/
theorem withoutWaiting_works (e : EngineId) (n : Nat) (s : State) : Works s (s.modCtx e (withoutWaiting n)) :=
  (WorkStep.ctx s e (withoutWaiting n)
    fun h => h.less (fun h => by simp [withoutWaiting, h]) (fun h => by simp [withoutWaiting, h]) id).works

/-- A job leaves next or parked with a command. -/
theorem leaveWaiting_works (e : EngineId) (n : Nat) (cmd : CancelCommand) (s : State) :
    Works s (leaveWaiting e n cmd s) :=
  (withoutWaiting_works e n s).trans (cancelJob_works _ _ _ _)

/-- A slot is marked BAD. -/
theorem markBad_works (k : SlotKey) (n : Nat) (e : EngineId) (s : State) : Works s (markBad k n e s) := by
  unfold markBad
  dsimp only
  have h1 := (WorkStep.modSlot s k fun x => { x with bad := true }).works.trans (failJob_reacts n _).works
  generalize failJob n (s.modSlot k fun x => { x with bad := true }) = t at h1
  split
  · exact h1
  · exact h1.trans (raise_works _ _)

/-- LOAD_FAULT with cause RASTER_UNREADABLE. -/
theorem rasterUnreadable_works (e : EngineId) (n : Nat) (ref : U64) {s : State} (hs : JobsOrdered s) :
    Works s (rasterUnreadable e n ref s) := by
  unfold rasterUnreadable
  dsimp only
  have h1 := (leaveWaiting_works e n .discard s).trans (parkedReturn_reacts e _).works
  have o1 := Works.jobs_ordered hs h1
  generalize (leaveWaiting e n .discard s).modCtx e Contexts.parkedReturn = t at h1 o1
  refine h1.trans ?_
  split
  · exact serve_works o1
  · split
    · split
      · exact Works.then o1 (recordFault_reacts _ _ _ _).works fun h => (depart_reacts _ _ h).works
      · exact Works.serve o1 ((recordFault_reacts _ _ _ _).works.trans (markBad_works _ _ _ _))
    · exact Works.serve o1 (returnByFault_reacts _ _ _ _ o1).works

/-- LOAD_FAULT. -/
theorem loadFault_works (e : EngineId) (n attempt : Nat) (cause : LoadFaultCause) {s : State}
    (hs : JobsOrdered s) : Works s (loadFault e n attempt cause s) := by
  refine jobReport_works _ _ _ _ _ _ hs fun _ _ _ => ?_
  split
  · exact rasterUnreadable_works _ _ _ hs
  · exact Works.then hs (leaveWaiting_works e n .discard s) fun h =>
      engineFault_works _ _ _ _ h (namedFirst_returns _ _ _)

/-- A parked job's return to an empty next context takes nothing in. -/
theorem parkedReturn_next (c : Contexts) (hn : c.next = none) (hp : c.parked = none) :
    c.parkedReturn.next = none ∧ c.parkedReturn.parked = none ∧ c.parkedReturn.current = c.current := by
  simp [Contexts.parkedReturn, hn, hp]

/-- EXPOSE_STARTED for the next job. -/
theorem startExposure_works (e : EngineId) (w : WaitingCtx) {s : State} (hs : JobsOrdered s)
    (h1 : (s.engine e).status.mode ≠ .offline) (h2 : (s.engine e).status.mode ≠ .lockedOut) :
    Works s (startExposure e w s) := by
  unfold startExposure
  dsimp only
  have c1 := (WorkStep.ctx s e (fun c => Contexts.parkedReturn
      { c with current := some ⟨w.job, s.limits.expose, w.cut⟩, next := none }) fun h =>
    ⟨fun hm => by
      have := parkedReturn_next { (s.engine e).ctx with
        current := some ⟨w.job, s.limits.expose, w.cut⟩, next := none } rfl (h.waiting hm).2
      exact ⟨this.1, this.2.1⟩, fun hm => by rcases hm with hm | hm <;> contradiction⟩).works
  have c2 := c1.tail (.react (ReactStep.job _ w.job (fun j => { j with state := .exposing }) trivial fun j _ =>
    ⟨rfl, rfl, rfl, rfl, rfl, rfl, rfl, rfl, id, nofun⟩))
  have c3 := c2.tail (WorkStep.cassette _ e (fun c => { c with count := c.count - 1 })
    fun c h => (Nat.sub_le _ _).trans h)
  have c4 := c3.tail (WorkStep.gates _ e fun g => { g with allowance := false })
  refine Works.serve hs (c4.trans ?_)
  split
  · exact raise_works _ _
  · exact .refl

/-- EXPOSE_STARTED. -/
theorem exposeStarted_works (e : EngineId) (n attempt : Nat) {s : State} (hs : JobsOrdered s) :
    Works s (exposeStarted e n attempt s) := by
  refine jobReport_works _ _ _ _ _ _ hs fun h1 h2 _ => ?_
  unfold forSome
  split
  · exact startExposure_works _ _ hs h1 h2
  · exact .refl

/-- EXPOSE_DONE for the current job. -/
theorem endExposure_works (e : EngineId) (n : Nat) {s : State} (hs : JobsOrdered s) :
    Works s (endExposure e n s) := by
  unfold endExposure
  dsimp only
  have c1 := (WorkStep.ctx s e (fun c => { c with current := none }) fun h =>
    h.less id id fun _ => rfl).works
  have c2 := c1.trans (releaseRefs_reacts (((s.modCtx e fun c => { c with current := none }).job? n).map
    Job.slots |>.getD []) _).works
  have c3 := c2.tail (.react (ReactStep.job _ n (fun j => { j with state := .developing, lane := some (laneFed e) })
    trivial fun j _ => ⟨rfl, rfl, rfl, rfl, rfl, rfl, rfl, rfl, id, nofun⟩))
  exact Works.serve hs (c3.tail (WorkStep.floor _ _ _))

/-- EXPOSE_DONE. -/
theorem exposeDone_works (e : EngineId) (n attempt : Nat) {s : State} (hs : JobsOrdered s) :
    Works s (exposeDone e n attempt s) :=
  jobReport_works _ _ _ _ _ _ hs fun _ _ _ => endExposure_works _ _ hs

/-- A job leaves current, or next at stage EXPOSE_SENT. -/
theorem leaveExposure_works (e : EngineId) (n : Nat) (s : State) : Works s (leaveExposure e n s) :=
  (WorkStep.ctx s e (fun c => withoutWaiting n { c with current := c.current.filter fun w => w.job ≠ n })
    fun h => h.less (fun h => by simp [withoutWaiting, h]) (fun h => by simp [withoutWaiting, h])
      fun h => by simp [withoutWaiting, h]).works

/-- EXPOSE_FAULT. -/
theorem exposeFault_works (e : EngineId) (n attempt : Nat) (consumed : Bool) {s : State} (hs : JobsOrdered s) :
    Works s (exposeFault e n attempt consumed s) := by
  refine jobReport_works _ _ _ _ _ _ hs fun _ _ _ => ?_
  unfold exposureFault
  have h1 := leaveExposure_works e n s
  split
  · exact Works.serve hs (Works.then hs (h1.trans (parkedReturn_reacts e _).works) fun h =>
      (returnByFault_reacts _ _ _ _ h).works)
  · split
    · exact Works.then hs h1 fun h => engineFault_works _ _ _ _ h (namedFirst_spoils _ _ _)
    · exact Works.then hs h1 fun h => engineFault_works _ _ _ _ h (namedFirst_returns _ _ _)

/-- DISCARDED. -/
theorem discarded_works (e : EngineId) (n attempt : Nat) {s : State} (hs : JobsOrdered s) :
    Works s (discarded e n attempt s) :=
  jobReport_works _ _ _ _ _ _ hs fun _ _ _ => .refl

/-- The LOAD timer of a context expires. -/
theorem loadTimerExpiry_works (e : EngineId) (x : WaitingContext) {s : State} (hs : JobsOrdered s) :
    Works s (loadTimerExpiry e x s) := by
  unfold loadTimerExpiry
  split
  · split
    · exact Works.then hs (leaveWaiting_works _ _ _ s) fun h =>
        engineFault_works _ _ _ _ h (namedFirst_returns _ _ _)
    · exact .refl
  · exact .refl

/-- The EXPOSE timer expires. -/
theorem exposeTimerExpiry_works (e : EngineId) {s : State} (hs : JobsOrdered s) :
    Works s (exposeTimerExpiry e s) := by
  unfold exposeTimerExpiry
  split
  · exact .refl
  · exact Works.then hs (abortCurrent_works e s) fun h =>
      engineFault_works _ _ _ _ h (namedFirst_spoils _ _ _)

/-- CLEAR_ENGINE_FAULT. -/
theorem reqClearEngineFault_works (engine : Byte) {s : State} (hs : JobsOrdered s) :
    Works s (reqClearEngineFault engine s).1 := by
  unfold reqClearEngineFault
  split
  · exact .refl
  · rename_i e _
    dsimp only
    split
    · exact .refl
    · dsimp only
      refine Works.serve hs (Relation.ReflTransGen.trans ?_ (raise_works _ _))
      refine (WorkStep.status s e _ fun h => ?_).works
      split
      · exact modeFits_running _
      · exact h

/-- RESTORE_ENGINE. -/
theorem reqRestoreEngine_works (engine : Byte) {s : State} (hs : JobsOrdered s) :
    Works s (reqRestoreEngine engine s).1 := by
  unfold reqRestoreEngine
  split
  · exact .refl
  · rename_i e _
    dsimp only
    split
    · rename_i hm
      dsimp only
      refine Works.serve hs (Relation.ReflTransGen.trans ?_ (raise_works _ _))
      refine (WorkStep.status s e _ fun h => ?_).works
      rw [hm] at h
      exact modeFits_none _ (h.waiting (by simp)) (h.current (.inr rfl))
    · exact .refl

/-! ### The register tracker (chapter 5) -/

/-- A register record after POWER_ON fits. -/
theorem registerFits_initial : RegisterFits Register.initial :=
  ⟨Nat.zero_le _, by decide, by decide, Nat.zero_le _⟩

/-- REARM_REGISTER. -/
theorem rearm_works (e : EngineId) {s : State} (hs : JobsOrdered s) : Works s (rearm e s) :=
  Works.serve hs ((WorkStep.register s e Register.initial fun _ _ => registerFits_initial).works.trans
    (raise_works _ _))

/-- REARM_REGISTER. -/
theorem reqRearmRegister_works (engine : Byte) {s : State} (hs : JobsOrdered s) :
    Works s (reqRearmRegister engine s).1 := by
  unfold reqRearmRegister
  split
  · exact .refl
  · dsimp only
    exact rearm_works _ hs

/-- A window takes a sample and stays within 8. -/
theorem pushSample_length (w : List Offset) (d : Offset) (h : w.length ≤ Config.window) :
    (pushSample w d).length ≤ Config.window := by
  have hw : Config.window = 8 := rfl
  unfold pushSample
  split
  · rw [List.length_append, List.length_singleton]; omega
  · rw [List.length_append, List.length_singleton, List.length_drop]; omega

/-- A mean is held within range. -/
theorem clampAxis_range (i : Int) : -Config.offsetRange ≤ clampAxis i ∧ clampAxis i ≤ Config.offsetRange := by
  have h : Config.offsetRange = 4000 := rfl
  unfold clampAxis
  omega

/-- A record with a window within 8, the window's mean and a run in range fits. -/
theorem registerFits_mean (st : RegisterState) {w : List Offset} {n : Nat} (hw : w.length ≤ Config.window)
    (hn : n ≤ 8) : RegisterFits ⟨st, w, windowMean w, n⟩ :=
  ⟨hw, clampAxis_range _, clampAxis_range _, hn⟩

/-- The recover count is at most 8. -/
theorem recover_le {s : State} (h : Ranges s) : s.limits.recover ≤ 8 := by
  have := h.limits .recover 0
  simp only [inRange, limitValue, limitRange, Bool.and_eq_true] at this
  exact of_decide_eq_true this.2

/-- A sample beyond the drift limit. -/
theorem sampleBeyond_works (e : EngineId) (m d : Offset) {s : State} (hs : JobsOrdered s) :
    Works s (sampleBeyond e m d s) := by
  unfold sampleBeyond
  dsimp only
  have h1 := (WorkStep.register s e
    ⟨.drifted, pushSample (s.register e).window d, windowMean (pushSample (s.register e).window d), 0⟩
      fun _ h => registerFits_mean _ (pushSample_length _ _ h.window) (Nat.zero_le _)).works
  split
  · exact h1
  · exact Works.then hs (h1.trans (raise_works _ _)) fun h => (colourEvict_reacts e h).works

/-- A sample in TRACKING. -/
theorem sampleTracking_works (e : EngineId) (d : Offset) (s : State) : Works s (sampleTracking e d s) := by
  unfold sampleTracking
  dsimp only
  split
  · exact (WorkStep.register s e _ fun _ h =>
      registerFits_mean _ (pushSample_length _ _ h.window) h.run).works.trans (raise_works _ _)
  · exact (WorkStep.register s e _ fun _ h =>
      registerFits_mean _ (pushSample_length _ _ h.window) h.run).works

/-- A sample in LOCKED. -/
theorem sampleLocked_works (e : EngineId) (d : Offset) (s : State) : Works s (sampleLocked e d s) := by
  unfold sampleLocked
  dsimp only
  split
  · exact (WorkStep.register s e
      ⟨.locked, pushSample (s.register e).window d, (s.register e).correction, (s.register e).run⟩ fun _ h =>
      ⟨pushSample_length _ _ h.window, h.dx, h.dy, h.run⟩).works
  · refine (WorkStep.register s e ⟨.tracking, [d], windowMean [d], (s.register e).run⟩ fun _ h =>
      registerFits_mean _ ?_ h.run).works.trans (raise_works _ _)
    show 1 ≤ Config.window
    decide

/-- A sample in DRIFTED. -/
theorem sampleDrifted_works (e : EngineId) (d : Offset) (s : State) : Works s (sampleDrifted e d s) := by
  unfold sampleDrifted
  dsimp only
  split
  · rename_i hr
    exact (WorkStep.register s e _ fun hg h =>
      registerFits_mean _ (pushSample_length _ _ h.window) (by have := recover_le hg; omega)).works
  · exact (WorkStep.register s e _ fun _ h =>
      registerFits_mean _ (pushSample_length _ _ h.window) (Nat.zero_le _)).works.trans (raise_works _ _)

/-- Taking a sample. -/
theorem takeSample_works (e : EngineId) (m c : Offset) {s : State} (hs : JobsOrdered s) :
    Works s (takeSample e m c s) := by
  unfold takeSample
  dsimp only
  refine Works.serve hs ?_
  split
  · split
    · exact sampleTracking_works _ _ _
    · exact sampleLocked_works _ _ _
    · exact sampleDrifted_works _ _ _
  · exact sampleBeyond_works _ _ _ hs

end Sys2Proof.Machine
end

