-- ==== Sys2Proof/Laws/LineLaws.lean ====
section
/-! SUPPORT. Laws/LineLaws.lean: what the lanes', the sorter's, the presses' and line control's operations can
do (chapters 6 to 8). -/

namespace Sys2Proof.Machine

open State

/-! ### Lanes (chapter 6) -/

/-- An entry leaves a lane order. -/
theorem dropEntry_works (l : LaneId) (n : Nat) (s : State) : Works s (dropEntry l n s) :=
  (WorkStep.floor s l _).works

/-- A command is sent. -/
theorem send_works (c : LineCommand) (s : State) : Works s (s.send c) :=
  (WorkStep.react (ReactStep.send s c)).works

/-- A job's plate is spoiled once its entry is gone. -/
theorem dropSpoil_works (l : LaneId) (n : Nat) (c : FaultCause) (p : FaultParam) {s : State}
    (hs : JobsOrdered s) : Works s (serve (spoil n c p (dropEntry l n s))) :=
  Works.serve hs (Works.then hs (dropEntry_works l n s) fun h => (spoil_reacts _ _ _ h).works)

/-- An unreadable plate. -/
theorem decideUnreadable_works (l : LaneId) (r : InspectReport) {s : State} (hs : JobsOrdered s) :
    Works s (decideUnreadable l r s) := by
  unfold decideUnreadable
  dsimp only
  have h1 := send_works (.reject l 0) s
  split
  · exact Works.then hs h1 fun h => dropSpoil_works _ _ _ _ h
  · exact h1.trans (raise_works _ _)

/-- A sample is handed. -/
theorem handSample_works (j : Job) (m : Option Offset) {s : State} (hs : JobsOrdered s) :
    Works s (handSample j m s) := by
  unfold handSample
  split
  · exact takeSample_works _ _ _ hs
  · exact .refl

/-- A plate is passed. -/
theorem passPlate_works (l : LaneId) (n : Nat) (j : Job) (m : Offset) (s : State) :
    Works s (passPlate l n j m s) := by
  unfold passPlate
  dsimp only
  exact ((send_works _ s).tail (WorkStep.floor _ l _)).tail
    (.react (ReactStep.job _ n (fun x => { x with state := .finishing }) trivial fun j _ =>
      ⟨rfl, rfl, rfl, rfl, rfl, rfl, rfl, rfl, id, nofun⟩))

/-- A plate is rejected for register. -/
theorem rejectRegister_works (l : LaneId) (n : Nat) (m : Option Offset) {s : State} (hs : JobsOrdered s) :
    Works s (rejectRegister l n m s) := by
  unfold rejectRegister
  dsimp only
  exact Works.then hs (send_works _ s) fun h => dropSpoil_works _ _ _ _ h

/-- An identified plate is decided. -/
theorem decidePlate_works (l : LaneId) (n : Nat) (j : Job) (m : Option Offset) {s : State}
    (hs : JobsOrdered s) : Works s (decidePlate l n j m s) := by
  unfold decidePlate
  split
  · exact Works.then hs ((send_works _ s).trans (dropEntry_works l n _)) fun h =>
      (depart_reacts _ _ h).works
  · split
    · split
      · exact passPlate_works _ _ _ _ _
      · exact rejectRegister_works _ _ _ hs
    · exact rejectRegister_works _ _ _ hs

/-- An identified plate is decided, and its sample handed. -/
theorem decideIdentified_works (l : LaneId) (n : Nat) (m : Option Offset) {s : State} (hs : JobsOrdered s) :
    Works s (decideIdentified l n m s) := by
  unfold decideIdentified
  split
  · exact Works.then hs (decidePlate_works _ _ _ _ hs) fun h => handSample_works _ _ h
  · exact .refl

/-- Resynchronisation. -/
theorem resynchronise_works (l : LaneId) (n : Nat) {s : State} (hs : JobsOrdered s) :
    Works s (resynchronise l n s) :=
  foldl_works _ _ hs fun _ h _ _ => dropSpoil_works _ _ _ _ h

/-- A stray plate. -/
theorem decideStray_works (l : LaneId) (r : InspectReport) (why : StrayReason) (s : State) :
    Works s (decideStray l r why s) := (send_works _ s).trans (raise_works _ _)

/-- The decision of a report. -/
theorem decideReport_works (l : LaneId) (r : InspectReport) {s : State} (hs : JobsOrdered s) :
    Works s (decideReport l r s) := by
  unfold decideReport
  split
  · exact decideUnreadable_works _ _ hs
  · dsimp only
    split
    · exact Works.then hs (resynchronise_works _ _ hs) fun h => decideIdentified_works _ _ _ h
    · exact decideStray_works _ _ _ _

/-- An UNCERTAIN job is put at the end of a lane order. -/
theorem reclaim_works (l : LaneId) (n : Nat) (st : JobState) (stage : LaneStage) (s : State)
    (ht : st ≠ .uncertain := by decide) : Works s (reclaim l n st stage s) := by
  unfold reclaim
  dsimp only
  have h1 := (releaseRefs_reacts ((s.job? n).map Job.slots |>.getD []) s).works
  exact (h1.tail (.react (ReactStep.job _ n (fun j => { j with state := st }) trivial fun j _ =>
    ⟨rfl, rfl, rfl, rfl, rfl, rfl, rfl, rfl, id, fun h => absurd h ht⟩))).tail (WorkStep.floor _ l _)

/-- A reclaim is counted. -/
theorem countReclaimed_works (s : State) : Works s (countReclaimed s) := (WorkStep.restart s _).works

/-- The decision of a report in a clearing phase. -/
theorem decideClearing_works (l : LaneId) (r : InspectReport) {s : State} (hs : JobsOrdered s) :
    Works s (decideClearing l r s) := by
  unfold decideClearing
  split
  · exact decideStray_works _ _ _ _
  · dsimp only
    split
    · split
      · exact (Works.then hs (reclaim_works _ _ _ _ s) fun h => decideIdentified_works _ _ _ h).trans
          (countReclaimed_works _)
      · exact decideStray_works _ _ _ _
    · exact decideStray_works _ _ _ _

/-- A report is decided. -/
theorem decide1_works (l : LaneId) (r : InspectReport) {s : State} (hs : JobsOrdered s) :
    Works s (decide1 l r s) := by
  unfold decide1
  dsimp only
  have h1 : Works s (if (s.lane l).byStep then s.useLaneStep l else s) := by
    split
    · exact (WorkStep.lane s l (fun x => { x with gates := { x.gates with allowance := false } }) id rfl).works
    · exact .refl
  refine Works.then hs h1 fun h => ?_
  generalize (if (s.lane l).byStep then s.useLaneStep l else s) = t at h
  split
  · exact decideClearing_works _ _ h
  · exact decideReport_works _ _ h

/-- Pending inspections are decided. -/
theorem decidePending_works (l : LaneId) (fuel : Nat) {s : State} (hs : JobsOrdered s) :
    Works s (decidePending l fuel s) := by
  induction fuel generalizing s with
  | zero => exact .refl
  | succ fuel ih =>
    unfold decidePending
    split
    · split
      · rename_i r rest hr
        have h1 : Works s (s.modLane l fun x => { x with inspections := rest }) := by
          refine (WorkStep.lane s l _ (fun h => ?_) ?_).works
          · rw [hr, List.length_cons] at h
            exact Nat.le_of_succ_le h
          · rfl
        refine Works.then hs h1 fun h => ?_
        exact Works.then h (decide1_works l r h) fun h' => ih h'
      · exact .refl
    · exact .refl

/-- A lane may have become open. -/
theorem laneOpened_works (l : LaneId) {s : State} (hs : JobsOrdered s) : Works s (laneOpened l s) :=
  Works.serve hs ((decidePending_works _ _ hs).trans (sorterLook_works _))

/-- A lane report error. -/
theorem laneError_works (l : LaneId) (r : LaneReportKind) (named : Option (Nat × Nat)) (s : State) :
    Works s (laneError l r named s) := raise_works _ _

/-- AT_INSPECT. -/
theorem atInspect_works (l : LaneId) (r : InspectReport) {s : State} (hs : JobsOrdered s) :
    Works s (atInspect l r s) := by
  unfold atInspect
  dsimp only
  split
  · exact decide1_works _ _ hs
  · split
    · rename_i h
      refine (WorkStep.lane s l _ (fun _ => ?_) ?_).works
      · simp only [List.length_append, List.length_singleton]; omega
      · rfl
    · exact laneError_works _ _ _ _

/-- PUNCHED_BENT. -/
theorem punchedBent_works (l : LaneId) (n attempt : Nat) (s : State) : Works s (punchedBent l n attempt s) := by
  unfold punchedBent
  split
  · exact (WorkStep.floor s l _).works
  · split
    · exact .refl
    · exact laneError_works _ _ _ _

/-- PUNCH_FAULT. -/
theorem punchFault_works (l : LaneId) (n attempt : Nat) {s : State} (hs : JobsOrdered s) :
    Works s (punchFault l n attempt s) := by
  unfold punchFault
  split
  · exact dropSpoil_works _ _ _ _ hs
  · exact laneError_works _ _ _ _

/-- AT_EXIT. -/
theorem atExit_works (l : LaneId) (n attempt : Nat) (s : State) : Works s (atExit l n attempt s) := by
  unfold atExit
  split
  · exact laneError_works _ _ _ _
  · split
    · exact (WorkStep.floor s l _).works.trans (sorterLook_works _)
    · split
      · exact (((reclaim_works l n .finishing .atExit s).tail (WorkStep.floor _ l _)).trans
          (countReclaimed_works _)).trans (sorterLook_works _)
      · exact laneError_works _ _ _ _

/-- A transit timer expires. -/
theorem transitExpiry_works (l : LaneId) (n : Nat) {s : State} (hs : JobsOrdered s) :
    Works s (transitExpiry l n s) := by
  unfold transitExpiry
  split
  · exact dropSpoil_works _ _ _ _ hs
  · exact .refl

/-- Link loss of a lane. -/
theorem laneLinkLoss_works (l : LaneId) (s : State) : Works s (laneLinkLoss l s) :=
  (WorkStep.lane s l (fun x => { x with lost := true, inspections := [] }) (fun _ => Nat.zero_le _) rfl).works

/-- Restoration of a lane. -/
theorem laneRestoration_works (l : LaneId) {s : State} (hs : JobsOrdered s) :
    Works s (laneRestoration l s) :=
  Works.then hs (WorkStep.lane s l (fun x => { x with lost := false }) (fun h => h) rfl).works
    fun h => laneOpened_works l h

/-! ### The sorter (chapter 6) -/

/-- A delivery ends. -/
theorem endDelivery_works (l : LaneId) {s : State} (hs : JobsOrdered s) : Works s (endDelivery l s) := by
  unfold endDelivery
  dsimp only
  refine Works.serve hs (Relation.ReflTransGen.trans ?_ (sorterLook_works _))
  exact ((WorkStep.delivered s).works.tail (WorkStep.served _ l)).tail (WorkStep.floor _ l _)

/-- The plate of a delivery is lost. -/
theorem losePlate_works (d : Delivery) {s : State} (hs : JobsOrdered s) : Works s (losePlate d s) := by
  unfold losePlate
  refine Works.then hs (Works.then hs (dropEntry_works d.lane d.job s) fun h =>
    (spoil_reacts _ _ _ h).works.trans (evalStarved_works _)) fun h => endDelivery_works _ h

/-- SORT_FAULT. -/
theorem sortFault_works (n attempt : Nat) {s : State} (hs : JobsOrdered s) :
    Works s (sortFault n attempt s) := by
  unfold sortFault
  split
  · exact raise_works _ _
  · split
    · exact losePlate_works _ hs
    · exact raise_works _ _

/-- Link loss of the sorter. -/
theorem sorterLinkLoss_works {s : State} (hs : JobsOrdered s) : Works s (sorterLinkLoss s) := by
  unfold sorterLinkLoss
  dsimp only
  have h1 := (WorkStep.sorter s (fun x => { x with lost := true }) fun _ => .inr rfl).works
  split
  · exact Works.then hs h1 fun h => losePlate_works _ h
  · exact h1

/-- Restoration of the sorter. -/
theorem sorterRestoration_works (s : State) : Works s (sorterRestoration s) :=
  (WorkStep.sorter s (fun x => { x with lost := false }) fun _ => .inr rfl).works.trans (sorterLook_works _)

/-- A plate that has been added to its place: its job becomes RACKED. -/
theorem racked_reacts (l : LaneId) (n : Nat) (j : Job) (place : PlatePlace) (s : State) :
    Works s (racked l n j place s) := by
  unfold racked
  dsimp only
  have h1 := (WorkStep.react (ReactStep.job s n (fun x => { x with state := .racked }) trivial fun j _ =>
    ⟨rfl, rfl, rfl, rfl, rfl, rfl, rfl, rfl, id, nofun⟩)).works
  have h2 := (h1.trans (dropEntry_works l n _)).trans (raise_works (.plateRacked n j.key place j.superseded) _)
  split
  · exact h2.trans (raise_works _ _)
  · exact h2.trans (tellSatisfied_reacts _ _).works

/-- A change, or a plate entering the racks. -/
inductive SortStep : State → State → Prop
  | work {s t : State} (h : WorkStep s t) : SortStep s t
  | rack {s t : State} (h : RackStep s t) : SortStep s t

/-- Any step keeps the job table in order. -/
theorem SortStep.jobs_ordered {s t : State} (h : SortStep s t) (hs : JobsOrdered s) : JobsOrdered t := by
  cases h with
  | work h => exact h.jobs_ordered hs
  | rack h => cases h <;> exact hs

/-- A chain of any steps. -/
abbrev Sorts : State → State → Prop := Relation.ReflTransGen SortStep

/-- Works are any changes. -/
theorem Works.sorts {s t : State} (h : Works s t) : Sorts s t := by
  induction h with
  | refl => exact .refl
  | tail _ hu ih => exact ih.tail (.work hu)

/-- Any changes keep the job table in order. -/
theorem Sorts.jobs_ordered {s t : State} (hs : JobsOrdered s) (h : Sorts s t) : JobsOrdered t := by
  induction h with
  | refl => exact hs
  | tail _ hu ih => exact hu.jobs_ordered ih

/-- The sorter has placed the plate: at most one plate enters the racks, first of all. -/
theorem placePlate_sorts (d : Delivery) {s : State} (hs : JobsOrdered s) (hd : s.sorter.delivery = some d) :
    Sorts s (placePlate d s) := by
  unfold placePlate
  split
  · exact .refl
  · rename_i j _
    split
    · rename_i p q hq
      exact (Relation.ReflTransGen.single (SortStep.rack (RackStep.rack s d p q hd hq))).trans
        (racked_reacts _ _ _ _ _).sorts
    · rename_i p hp
      exact (Relation.ReflTransGen.single (SortStep.rack (RackStep.shelf s d p j.pos hd hp))).trans
        (racked_reacts _ _ _ _ _).sorts
    · exact (Works.then hs (dropEntry_works _ _ s) fun h => (depart_reacts _ _ h).works).sorts

/-- SORTED. -/
theorem sorted_sorts (n attempt : Nat) (dest : Destination) {s : State} (hs : JobsOrdered s) :
    Sorts s (sorted n attempt dest s) := by
  unfold sorted
  split
  · exact (raise_works _ _).sorts
  · rename_i d hd
    split
    · have h1 := placePlate_sorts d hs hd
      exact h1.trans (endDelivery_works _ (Sorts.jobs_ordered hs h1)).sorts
    · exact (raise_works _ _).sorts

/-! ### Racks, presses and the schedule (chapter 7) -/

/-- A plate leaves its slot or its shelf. -/
theorem takePlate_works (k : PosKey) (n : Nat) (s : State) : Works s (takePlate k n s) :=
  (WorkStep.takeRack s k _ (List.length_filter_le _ _)).works.tail
    (WorkStep.takeShelf _ k.press _ (List.length_filter_le _ _))

/-- PULL_CONFIRM. -/
theorem reqPullConfirm_works (press pos : Byte) {s : State} (hs : JobsOrdered s) :
    Works s (reqPullConfirm press pos s).1 := by
  unfold reqPullConfirm
  split
  · exact .refl
  · rename_i k _
    dsimp only
    split
    · exact .refl
    · dsimp only
      refine Relation.ReflTransGen.trans ?_ (sorterLook_works _)
      exact foldl_works _ _ hs fun s h n _ =>
        Works.then h (takePlate_works k n s) fun h' => (depart_reacts _ _ h').works

/-- A MOUNT that is taken. -/
theorem mountPlate_works (k : PosKey) (n : Nat) (old : Option Nat) {s : State} (hs : JobsOrdered s) :
    Works s (mountPlate k n old s) := by
  unfold mountPlate
  dsimp only
  have h1 := ((takePlate_works k n s).tail (.react (ReactStep.job _ n (fun j => { j with state := .mounted })
    trivial fun j _ => ⟨rfl, rfl, rfl, rfl, rfl, rfl, rfl, rfl, id, nofun⟩))).tail
      (WorkStep.work _ k fun w => { w with mounted := some n })
  refine Relation.ReflTransGen.trans ?_ (sorterLook_works _)
  refine Relation.ReflTransGen.trans ?_ (raise_works _ _)
  exact Works.then hs h1 fun h => (forSome_reacts _ _ h fun _ _ _ h' => depart_reacts _ _ h').works

/-- MOUNT. -/
theorem reqMount_works (press pos : Byte) {s : State} (hs : JobsOrdered s) :
    Works s (reqMount press pos s).1 := by
  unfold reqMount
  split
  · exact .refl
  · split
    · exact .refl
    · split
      · exact .refl
      · split
        · dsimp only
          exact mountPlate_works _ _ _ hs
        · exact .refl

/-- UNMOUNT. -/
theorem reqUnmount_works (press pos : Byte) {s : State} (hs : JobsOrdered s) :
    Works s (reqUnmount press pos s).1 := by
  unfold reqUnmount
  split
  · exact .refl
  · split
    · exact .refl
    · split
      · exact .refl
      · dsimp only
        exact ((retireMounted_works _ hs).trans (raise_works _ _)).trans (sorterLook_works _)

/-- A press starts. -/
theorem startPress_works (p : PressId) (force : Bool) (s : State) : Works s (startPress p force s) :=
  (WorkStep.pressState s p _).works.trans (raise_works _ _)

/-- PRESS_START. -/
theorem reqPressStart_works (press force : Byte) (s : State) : Works s (reqPressStart press force s).1 := by
  unfold reqPressStart
  split
  · dsimp only
    split
    · exact .refl
    · exact .refl
    · split
      · exact startPress_works _ _ _
      · exact .refl
    · exact startPress_works _ _ _
  · exact .refl

/-- PRESS_STOP. -/
theorem reqPressStop_works (press : Byte) (s : State) : Works s (reqPressStop press s).1 := by
  unfold reqPressStop
  split
  · exact .refl
  · split
    · unfold stopPress
      dsimp only
      split
      · exact ((WorkStep.pressState s _ _).works.trans (raise_works _ _)).trans (raise_works _ _)
      · exact (WorkStep.pressState s _ _).works.trans (raise_works _ _)
    · exact .refl

/-- A reading of four bytes is within the clock's range. -/
theorem toNat_le_maxClock (t : U32) : t.toNat ≤ Config.maxClock := by
  have : Config.maxClock = 4294967295 := rfl
  have := t.isLt
  omega

/-- SET_CLOCK. -/
theorem reqSetClock_works (t : U32) (s : State) : Works s (reqSetClock t s).1 :=
  (WorkStep.clock s t.toNat fun _ => toNat_le_maxClock t).works.trans (raise_works _ _)

/-- SET_PRESS_SCHEDULE. -/
theorem reqSetPressSchedule_works (press : Byte) (start : Option U32) (lead : U16) {s : State}
    (hs : JobsOrdered s) : Works s (reqSetPressSchedule press start lead s).1 := by
  unfold reqSetPressSchedule
  split
  · exact .refl
  · split
    · exact .refl
    · rename_i h
      dsimp only
      unfold schedulePress
      exact Works.serve hs ((WorkStep.press s _ _ fun _ _ => Nat.le_of_not_lt h).works.trans
        (raise_works _ _))

/-- The window alarm. -/
theorem windowAlarm_works (p : PressId) {s : State} (hs : JobsOrdered s) : Works s (windowAlarm p s) := by
  unfold windowAlarm
  dsimp only
  split
  · exact .refl
  · split
    · exact (Works.then hs (WorkStep.press s p (fun y => { y with windowArmed := false, window := true })
        fun _ h => h).works fun h => (promoteAll_reacts p h).works).trans (raise_works _ _)
    · exact .refl

/-- The start alarm. -/
theorem startAlarm_works (p : PressId) (s : State) : Works s (startAlarm p s) := by
  unfold startAlarm
  dsimp only
  split
  · exact .refl
  · split
    · have h1 := (WorkStep.press s p (fun y => { y with startArmed := false }) fun _ h => h).works
      split
      · exact h1
      · exact (h1.tail (WorkStep.press _ p (fun y => { y with late := true }) fun _ h => h)).trans
          (raise_works _ _)
    · exact .refl

/-- One second off an engine's timers. -/
theorem tickEngine_works (e : EngineId) (s : State) : Works s (tickEngine e s) :=
  (WorkStep.ctx s e _ fun h => h.less (fun h => by simp [tickWaiting, h]) (fun h => by simp [tickWaiting, h])
    fun h => by simp [h]).works

/-- One second off a lane's timers. -/
theorem tickLane_works (l : LaneId) (s : State) : Works s (tickLane l s) := by
  unfold tickLane
  split
  · exact (WorkStep.floor s l _).works
  · exact .refl

/-- CLOCK_TICK. -/
theorem clockTick_works {s : State} (hs : JobsOrdered s) : Works s (clockTick s) := by
  unfold clockTick
  have h1 : Works s (s.setClock (if s.clock < Config.maxClock then s.clock + 1 else s.clock)) :=
    (WorkStep.clock s _ fun h => by split <;> omega).works
  generalize s.setClock (if s.clock < Config.maxClock then s.clock + 1 else s.clock) = t at h1
  have h2 : Works s (tickTimers t) := by
    unfold tickTimers
    dsimp only
    refine Relation.ReflTransGen.tail ?_ (WorkStep.restart _ _)
    exact (h1.trans (foldl_chain _ _ _ fun s e _ => tickEngine_works e s)).trans
      (foldl_chain _ _ _ fun s l _ => tickLane_works l s)
  refine Works.then hs h2 fun h => ?_
  exact foldl_works _ _ h fun s h p _ => (windowAlarm_works p h).trans (startAlarm_works p _)

/-! ### Line control (chapter 8) -/

/-- The gates of a unit are set. -/
theorem setGates_works (u : UnitId) (held allowance : Bool) (s : State) :
    Works s (setGates u held allowance s) := by
  unfold setGates
  split
  · exact (WorkStep.gates s _ _).works
  · refine (WorkStep.lane s _ _ ?_ ?_).works
    · exact fun h => h
    · rfl
  · refine (WorkStep.sorter s _ ?_).works
    exact fun _ => .inr rfl

/-- What a unit does when a gate has cleared. -/
theorem unitOpened_works (u : UnitId) {s : State} (hs : JobsOrdered s) : Works s (unitOpened u s) := by
  unfold unitOpened
  split
  · exact serve_works hs
  · exact laneOpened_works _ hs
  · exact sorterLook_works _

/-- HOLD. -/
theorem reqHold_works (unit : Byte) (s : State) : Works s (reqHold unit s).1 := by
  unfold reqHold
  split
  · exact .refl
  · split
    · exact .refl
    · exact (setGates_works _ _ _ s).trans (raise_works _ _)

/-- RELEASE. -/
theorem reqRelease_works (unit : Byte) {s : State} (hs : JobsOrdered s) : Works s (reqRelease unit s).1 := by
  unfold reqRelease
  split
  · exact .refl
  · split
    · dsimp only
      exact Works.then hs ((setGates_works _ _ _ s).trans (raise_works _ _)) fun h =>
        unitOpened_works _ h
    · exact .refl

/-- STEP. -/
theorem reqStep_works (unit : Byte) {s : State} (hs : JobsOrdered s) : Works s (reqStep unit s).1 := by
  unfold reqStep
  split
  · exact .refl
  · split
    · dsimp only
      exact Works.then hs ((setGates_works _ _ _ s).trans (raise_works _ _)) fun h =>
        unitOpened_works _ h
    · exact .refl

/-- SET_STOP_POLICY. -/
theorem reqSetStopPolicy_works (unit policy : Byte) (s : State) :
    Works s (reqSetStopPolicy unit policy s).1 := by
  unfold reqSetStopPolicy
  split
  · split
    · exact .refl
    · dsimp only
      unfold setPolicy
      split
      · exact (WorkStep.line s _).works
      · refine (WorkStep.lane s _ _ ?_ ?_).works
        · exact fun h => h
        · rfl
      · exact .refl
  · exact .refl

/-- An engine under a CUT stop. -/
theorem cutEngine_works (e : EngineId) (s : State) : Works s (cutEngine e s) := by
  have h1 : Works s (cutCurrent e s) := by
    unfold cutCurrent
    split
    · exact .refl
    · rename_i w hw
      exact (WorkStep.ctx s e (fun c => { c with current := some { w with cut := true } }) fun h =>
        h.less id id fun hc => by rw [hw] at hc; cases hc).works.trans (send_works _ _)
  have h2 : ∀ s, Works s (cutNext e s) := by
    intro s
    unfold cutNext
    split
    · exact .refl
    · rename_i w hw
      split
      · exact (WorkStep.ctx s e (fun c => { c with next := some { w with cut := true } }) fun h =>
          h.less (fun hc => by rw [hw] at hc; cases hc) id id).works.trans (send_works _ _)
      · exact .refl
  unfold cutEngine
  split
  · exact h1.trans (h2 _)
  · exact .refl

/-- LINE_STOP. -/
theorem lineStop_works (s : State) : Works s (lineStop s) := by
  unfold lineStop
  dsimp only
  have h1 := (WorkStep.line s fun x => { clearMarks x with state := .stopping, stopTime := s.clock }).works
  generalize (s.modLine fun x => { clearMarks x with state := .stopping, stopTime := s.clock }) = t1 at h1
  have h2 := h1.trans (foldl_chain (fun s e => setEngineStop true e s) allEngines t1 fun s e _ =>
    (WorkStep.gates s e _).works)
  generalize allEngines.foldl (fun s e => setEngineStop true e s) t1 = t2 at h2
  have h3 := h2.trans (foldl_chain (fun s e => cutEngine e s) allEngines t2 fun s e _ => cutEngine_works e s)
  generalize allEngines.foldl (fun s e => cutEngine e s) t2 = t3 at h3
  have h4 := h3.trans (foldl_chain (fun s l => cutLane l s) allLanes t3 fun s l _ => by
    show Works s (cutLane l s)
    unfold cutLane
    split
    · exact (WorkStep.stopLane s l).works
    · exact .refl)
  generalize allLanes.foldl (fun s l => cutLane l s) t3 = t4 at h4
  have h5 := h4.trans (raise_works (stoppingNotice t4) t4)
  exact h5.trans (evalReached_serves _).reacts.works

/-- LINE_STOP. -/
theorem reqLineStop_works (s : State) : Works s (reqLineStop s).1 := by
  unfold reqLineStop
  split
  · dsimp only
    exact lineStop_works s
  · exact .refl

/-- LINE_RESUME. -/
theorem lineResume_works {s : State} (hs : JobsOrdered s) : Works s (lineResume s) := by
  unfold lineResume
  dsimp only
  have h1 := (WorkStep.line s fun x => { clearMarks x with state := .running }).works
  generalize (s.modLine fun x => { clearMarks x with state := .running }) = t1 at h1
  have h2 := h1.trans (foldl_chain (fun s l => unstopLane l s) allLanes t1 fun s l _ => by
    refine (WorkStep.lane s l _ ?_ ?_).works
    · exact fun h => h
    · rfl)
  generalize allLanes.foldl (fun s l => unstopLane l s) t1 = t2 at h2
  have o2 := Works.jobs_ordered hs h2
  have h3 := h2.trans (foldl_works (fun s l => decidePending l (s.lane l).inspections.length s) allLanes o2
    fun s h l _ => decidePending_works _ _ h)
  generalize allLanes.foldl (fun s l => decidePending l (s.lane l).inspections.length s) t2 = t3 at h3
  have h4 := h3.trans (sorterLook_works t3)
  generalize sorterLook t3 = t4 at h4
  have h5 := h4.trans (foldl_chain (fun s e => setEngineStop false e s) allEngines t4 fun s e _ =>
    (WorkStep.gates s e _).works)
  exact (Works.serve hs h5).trans (raise_works _ _)

/-- LINE_RESUME. -/
theorem reqLineResume_works {s : State} (hs : JobsOrdered s) : Works s (reqLineResume s).1 := by
  unfold reqLineResume
  split
  · exact .refl
  · dsimp only
    exact lineResume_works hs

end Sys2Proof.Machine
end

