-- ==== Sys2Proof/Laws/StepLaws.lean ====
section
/-! SUPPORT. Laws/StepLaws.lean: what restart control's and the desk ports' operations can do (chapters 9 and
10), what each command can do, and what one step can do. -/

namespace Sys2Proof.Machine

open State

/-! ### Rights and masks -/

/-- One thing that the deciding of a request does: an owning block's work, or a change of rights or of a mask. -/
inductive DeskStep : State → State → Prop
  | work {s t : State} (h : WorkStep s t) : DeskStep s t
  | rights (s : State) (p : PortId) (r : Rights) (h : maintAfter s p r = true) :
      DeskStep s (s.setRights p r)
  | mask (s : State) (p : PortId) (m : Mask) : DeskStep s (s.setMask p m)

/-- A chain of such steps. -/
abbrev Desks : State → State → Prop := Relation.ReflTransGen DeskStep

/-- A single step is a chain. -/
theorem DeskStep.desks {s t : State} (h : DeskStep s t) : Desks s t := Relation.ReflTransGen.single h

/-- The work of the owning blocks. -/
theorem Works.desks {s t : State} (h : Works s t) : Desks s t := by
  induction h with
  | refl => exact .refl
  | tail _ hu ih => exact ih.tail (.work hu)

/-! ### Restart control (chapter 9) -/

/-- Rights under which the port itself holds MAINT. -/
theorem maintAfter_self (s : State) (p : PortId) (r : Rights) (h : r.maint = true) : maintAfter s p r = true := by
  unfold maintAfter
  rw [List.any_eq_true]
  exact ⟨p, by fin_cases p <;> decide, by simp [h]⟩

/-- Rights while another port holds MAINT. -/
theorem maintAfter_other (s : State) (p q : PortId) (r : Rights) (hq : q ≠ p)
    (h : (s.port q).rights.maint = true) : maintAfter s p r = true := by
  unfold maintAfter
  rw [List.any_eq_true]
  exact ⟨q, by fin_cases q <;> decide, by simp [hq, h]⟩

/-- Loading the straps. -/
theorem loadAllStraps_desks (p1 p2 : StrapPair) (s : State) : Desks s (loadAllStraps p1 p2 s) := by
  have h0 : Desks s (loadStraps p1 p2 0 s) :=
    (DeskStep.rights s 0 _ (maintAfter_self _ _ _ rfl)).desks.tail (DeskStep.mask _ 0 _)
  have m0 : ((loadStraps p1 p2 0 s).port 0).rights.maint = true := by
    simp [loadStraps, State.port, portStraps, allRights]
  have h1 : Desks (loadStraps p1 p2 0 s) (loadStraps p1 p2 1 (loadStraps p1 p2 0 s)) :=
    (DeskStep.rights _ 1 _ (maintAfter_other _ 1 0 _ (by decide) m0)).desks.tail (DeskStep.mask _ 1 _)
  have m1 : ((loadStraps p1 p2 1 (loadStraps p1 p2 0 s)).port 0).rights.maint = true := by
    simp [loadStraps, State.port, portStraps, allRights]
  have h2 : Desks (loadStraps p1 p2 1 (loadStraps p1 p2 0 s))
      (loadStraps p1 p2 2 (loadStraps p1 p2 1 (loadStraps p1 p2 0 s))) :=
    (DeskStep.rights _ 2 _ (maintAfter_other _ 2 0 _ (by decide) m1)).desks.tail (DeskStep.mask _ 2 _)
  exact (h0.trans h1).trans h2

/-- An engine at a reset. -/
theorem resetEngine_works (e : EngineId) (s : State) : Works s (resetEngine e s) :=
  (dropEngine_status_works e _ s).tail (WorkStep.gates _ e _)

/-- A lane at a reset. -/
theorem resetLane_works (l : LaneId) (s : State) : Works s (resetLane l s) := by
  refine (WorkStep.lane s l _ (fun _ => ?_) ?_).works
  · exact Nat.zero_le _
  · rfl

/-- A live job at a reset. -/
theorem resetJob_works (n : Nat) {s : State} (hs : JobsOrdered s) : Works s (resetJob n s) := by
  unfold resetJob
  split
  · exact .refl
  · rename_i j _
    split
    · exact (returnByFault_reacts _ _ _ _ hs).works
    · exact (WorkStep.lose s n fun _ => laneOfExposing j).works
    · split
      · exact (depart_reacts _ _ hs).works
      · exact (takeRefs_reacts _ s).works.tail (WorkStep.lose _ n fun x => x.lane)
    · split
      · exact (depart_reacts _ _ hs).works
      · exact (takeRefs_reacts _ s).works.tail (WorkStep.lose _ n fun x => x.lane)
    · exact .refl

/-- An UNCERTAIN job is settled. -/
theorem settle_works (n : Nat) {s : State} (hs : JobsOrdered s) : Works s (settle n s) := by
  unfold settle
  split
  · exact .refl
  · refine Works.serve hs (Relation.ReflTransGen.tail ?_ (WorkStep.restart _ _))
    split
    · exact (depart_reacts _ _ hs).works
    · exact (returnByFault_reacts _ _ _ _ hs).works

/-- Jobs are settled in order. -/
theorem settleAll_works (l : List Nat) {s : State} (hs : JobsOrdered s) : Works s (settleAll l s) :=
  foldl_works _ _ hs fun _ h n _ => settle_works n h

/-- A lane's clearing flag clears. -/
theorem clearClearing_works (l : LaneId) (s : State) : Works s (clearClearing l s) := by
  refine (WorkStep.lane s l _ ?_ ?_).works
  · exact fun h => h
  · rfl

/-- A lane is open to exposures again. -/
theorem reopenLane_works (l : LaneId) {s : State} (hs : JobsOrdered s) : Works s (reopenLane l s) :=
  Works.serve hs (clearClearing_works l s)

/-- The clearing phases of lanes end, and jobs are settled. -/
theorem endPhases_works (lanes : List LaneId) (cause : EndCause) (jobs : List Nat) {s : State} (hs : JobsOrdered s) :
    Works s (endPhases lanes cause jobs s) := by
  unfold endPhases
  refine Works.then hs (foldl_works _ lanes hs fun _ h l _ => reopenLane_works l h) fun h => ?_
  exact Works.then h (settleAll_works jobs h) fun h => foldl_works _ lanes h fun _ _ l _ => raise_works _ _

/-- RECONCILING ends. -/
theorem endReconcile_works (cause : EndCause) (s : State) : Works s (endReconcile cause s) := by
  unfold endReconcile
  split
  · exact (WorkStep.restart s _).works.trans (raise_works _ _)
  · exact .refl

/-- A CLEAR that is accepted. -/
theorem acceptClear_works (l : LaneId) {s : State} (hs : JobsOrdered s) : Works s (acceptClear l s) := by
  unfold acceptClear
  have h2 := endPhases_works [l] .complete (uncertainJobs s fun j => j.lane = some l) hs
  generalize endPhases [l] .complete (uncertainJobs s fun j => j.lane = some l) s = u at h2
  dsimp only
  split
  · exact h2.trans (endReconcile_works _ _)
  · exact h2

/-- CLEAR. -/
theorem clear_works (l : LaneId) {s : State} (hs : JobsOrdered s) : Works s (clear l s) := by
  unfold clear
  split
  · split
    · exact acceptClear_works _ hs
    · exact laneError_works _ _ _ _
  · exact .refl

/-- Reconciliation ends. -/
theorem finishReconcile_works (cause : EndCause) {s : State} (hs : JobsOrdered s) :
    Works s (finishReconcile cause s) := by
  unfold finishReconcile
  exact (endPhases_works _ _ _ hs).trans (endReconcile_works _ _)

/-- RECONCILE_END. -/
theorem reqReconcileEnd_works {s : State} (hs : JobsOrdered s) : Works s (reqReconcileEnd s).1 := by
  unfold reqReconcileEnd
  split
  · dsimp only
    exact finishReconcile_works _ hs
  · exact .refl

/-- The reconcile timer expires. -/
theorem reconcileExpiry_works {s : State} (hs : JobsOrdered s) : Works s (reconcileExpiry s) := by
  unfold reconcileExpiry
  split
  · exact finishReconcile_works _ hs
  · exact .refl

/-! ### The desk ports (chapter 10) -/

/-- SET_RIGHTS. -/
theorem reqSetRights_desks (p : PortId) (target rights : Byte) (s : State) :
    Desks s (reqSetRights p target rights s).1 := by
  unfold reqSetRights
  split
  · split
    · exact (DeskStep.rights s _ _ (by assumption)).desks.trans (raise_works _ _).desks
    · exact .refl
  · exact .refl

/-- SET_LIMITS. -/
theorem reqSetLimits_works (limit : Byte) (value : U16) (lane : Option Byte) (s : State) :
    Works s (reqSetLimits limit value lane s).1 := by
  unfold reqSetLimits
  split
  · exact .refl
  · split
    · exact .refl
    · split
      · unfold takeLimit
        dsimp only
        exact (WorkStep.limit s _ _ _ (by assumption)).works.trans (raise_works _ _)
      · exact .refl

/-- The owning block decides a request. -/
theorem applyRequest_desks (p : PortId) (r : Request) {s : State} (hs : JobsOrdered s) :
    Desks s (applyRequest p r s).1 := by
  cases r with
  | separationArrived page v c x ref => exact (reqSeparationArrived_works page v c x ref hs).desks
  | withdrawPage page => exact (reqWithdrawPage_works page hs).desks
  | stagePosition pr q f a b x => exact (reqStagePosition_works p pr q f a b x s).desks
  | clearStagedPosition pr q => exact (reqClearStaged_works p pr q s).desks
  | discardStage pr => exact (reqDiscardStage_works p pr s).desks
  | commitPlan pr e => exact (reqCommitPlan_works p pr e hs).desks
  | holdPosition pr q => exact (reqHoldPosition_works pr q s).desks
  | releasePosition pr q => exact (reqReleasePosition_works pr q hs).desks
  | requeuePosition pr q => exact (reqRequeuePosition_works pr q hs).desks
  | clearEngineFault e => exact (reqClearEngineFault_works e hs).desks
  | restoreEngine e => exact (reqRestoreEngine_works e hs).desks
  | rearmRegister e => exact (reqRearmRegister_works e hs).desks
  | pullConfirm pr q => exact (reqPullConfirm_works pr q hs).desks
  | mount pr q => exact (reqMount_works pr q hs).desks
  | unmount pr q => exact (reqUnmount_works pr q hs).desks
  | pressStart pr f => exact (reqPressStart_works pr f s).desks
  | pressStop pr => exact (reqPressStop_works pr s).desks
  | setClock t => exact (reqSetClock_works t s).desks
  | setPressSchedule pr t l => exact (reqSetPressSchedule_works pr t l hs).desks
  | hold u => exact (reqHold_works u s).desks
  | release u => exact (reqRelease_works u hs).desks
  | step u => exact (reqStep_works u hs).desks
  | setStopPolicy u x => exact (reqSetStopPolicy_works u x s).desks
  | lineStop => exact (reqLineStop_works s).desks
  | lineResume => exact (reqLineResume_works hs).desks
  | reconcileEnd => exact (reqReconcileEnd_works hs).desks
  | softReset => exact .refl
  | setRights q x => exact reqSetRights_desks p q x s
  | setNoticeMask c => exact (DeskStep.mask s p _).desks
  | setLimits l v ln => exact (reqSetLimits_works l v ln s).desks
  | queryPage n => exact .refl
  | queryPosition pr q => exact .refl
  | queryJob n => exact .refl
  | queryEngine e => exact .refl
  | queryLane u => exact .refl
  | queryPress pr => exact .refl
  | queryPart => exact .refl

/-- A taken request is decided. -/
theorem decideRequest_desks (p : PortId) (r : Received) {s : State} (hs : JobsOrdered s) :
    Desks s (decideRequest p r s).1 := by
  unfold decideRequest
  split
  · exact .refl
  · split <;> exact .refl
  · split
    · exact applyRequest_desks _ _ hs
    · exact .refl

/-! ### What a command can do -/

/-- One thing that a command does: what the deciding of a request does, or a step of a port or of the whole
part. -/
inductive ChangeStep : State → State → Prop
  | desk {s t : State} (h : DeskStep s t) : ChangeStep s t
  | pop (s : State) (l : List Instr) : ChangeStep s { s with pending := l }
  | restart0 (s : State) :
      ChangeStep s { State.reset with lineSent := s.lineSent, deskSent := s.deskSent, pending := s.pending }
  | link (s : State) (p : PortId) (f : Link → Link) (h : ∀ l, LinkFits l → LinkFits (f l)) :
      ChangeStep s (s.modLink p f)
  | resetLinks (s : State) (p : PortId) (f : Link → Link) (h : ∀ l, LinkFits (f l)) :
      ChangeStep s (s.modLink p f)
  | queue (s : State) (p : PortId) (f : Link → Link)
      (h : LinkFits (s.port p).link → LinkFits (f (s.port p).link)) : ChangeStep s (s.modLink p f)
  | softDue (s : State) (b : Bool) : ChangeStep s (s.setSoftDue b)
  | logDesk (s : State) (p : PortId) (f : OutFrame) : ChangeStep s (s.logDesk p f)

/-- A chain of changes. -/
abbrev Changes : State → State → Prop := Relation.ReflTransGen ChangeStep

/-- A single step is a chain. -/
theorem ChangeStep.changes {s t : State} (h : ChangeStep s t) : Changes s t := Relation.ReflTransGen.single h

/-- The work of the owning blocks is a change. -/
theorem Works.changes {s t : State} (h : Works s t) : Changes s t := by
  induction h with
  | refl => exact .refl
  | tail _ hu ih => exact ih.tail (.desk (.work hu))

/-- The deciding of a request is a change. -/
theorem Desks.changes {s t : State} (h : Desks s t) : Changes s t := by
  induction h with
  | refl => exact .refl
  | tail _ hu ih => exact ih.tail (.desk hu)

/-- A reaction is a change. -/
theorem Reacts.changes {s t : State} (h : Reacts AnyJob s t) : Changes s t := h.works.changes

/-- Changes keep the job table in order. -/
theorem ChangeStep.jobs_ordered {s t : State} (h : ChangeStep s t) (hs : JobsOrdered s) : JobsOrdered t := by
  cases h with
  | desk h =>
    cases h with
    | work h => exact h.jobs_ordered hs
    | _ => exact hs
  | restart0 => exact List.Pairwise.nil
  | _ => exact hs

/-- Changes keep the job table in order. -/
theorem Changes.jobs_ordered {s t : State} (hs : JobsOrdered s) (h : Changes s t) : JobsOrdered t := by
  induction h with
  | refl => exact hs
  | tail _ hu ih => exact hu.jobs_ordered ih

/-- A chain, and then another that needs the table in order. -/
theorem Changes.then {s t u : State} (hs : JobsOrdered s) (h : Changes s t) (k : JobsOrdered t → Changes t u) :
    Changes s u := h.trans (k (Changes.jobs_ordered hs h))

/-! ### Resets -/

/-- A link after a reset fits. -/
theorem linkFits_afterReset (t : Nat) (n : Notice) : LinkFits (Link.afterReset t n) :=
  ⟨Nat.zero_le _, Nat.zero_le _, by show 1 ≤ Config.noticeQueue; decide⟩

/-- POWER_ON. -/
theorem powerOn_changes (p1 p2 : StrapPair) (s : State) : Changes s (powerOn p1 p2 s) :=
  (ChangeStep.restart0 s).changes.trans (loadAllStraps_desks p1 p2 _).changes

/-- What LINE_RESET and SOFT_RESET share. -/
theorem resetPart_changes (kind : ResetKind) {s : State} (hs : JobsOrdered s) : Changes s (resetPart kind s) := by
  unfold resetPart
  dsimp only
  generalize restartNotice kind s = note
  have h1 : Changes s (allPorts.foldl (fun s p => resetPort note p s) s) :=
    foldl_chain _ _ s fun s p _ => (ChangeStep.resetLinks s p _ fun _ => linkFits_afterReset _ _).changes
  have o1 := Changes.jobs_ordered hs h1
  generalize allPorts.foldl (fun s p => resetPort note p s) s = t1 at h1 o1
  have h2 : Works t1 _ := (foldl_chain (fun s e => resetEngine e s) allEngines t1 fun s e _ => resetEngine_works e s)
  generalize allEngines.foldl (fun s e => resetEngine e s) t1 = t2 at h2
  have h3 := h2.trans (foldl_chain (fun s l => resetLane l s) allLanes t2 fun s l _ => resetLane_works l s)
  generalize allLanes.foldl (fun s l => resetLane l s) t2 = t3 at h3
  have h4 : Works t1 (resetLineControl (resetSorter t3)) := by
    refine h3.trans ?_
    refine Relation.ReflTransGen.tail (WorkStep.works ?_) (WorkStep.line _ _)
    refine WorkStep.sorter t3 _ ?_
    exact fun _ => .inl rfl
  have o4 := Works.jobs_ordered o1 h4
  generalize resetLineControl (resetSorter t3) = t4 at h4 o4
  have h5 := h4.trans (foldl_works (fun s n => resetJob n s) (t4.jobs.map Prod.fst) o4
    fun _ h n _ => resetJob_works n h)
  generalize (t4.jobs.map Prod.fst).foldl (fun s n => resetJob n s) t4 = t5 at h5
  have h6 : Works t1 (startReconcile kind t5) := by
    refine h5.tail ?_
    unfold startReconcile
    dsimp only
    exact WorkStep.restart t5 _
  have h7 := (h1.trans h6.changes).tail (ChangeStep.softDue _ false)
  exact Changes.then hs h7 fun h => (serve_works h).changes

/-- LINE_RESET. -/
theorem lineReset_changes (p1 p2 : StrapPair) {s : State} (hs : JobsOrdered s) :
    Changes s (lineReset p1 p2 s) :=
  Changes.then hs (loadAllStraps_desks p1 p2 s).changes fun h => resetPart_changes _ h

/-! ### SORTED -/

/-- A change, or a plate entering the racks. -/
inductive AnyStep : State → State → Prop
  | change {s t : State} (h : ChangeStep s t) : AnyStep s t
  | rack {s t : State} (h : RackStep s t) : AnyStep s t

/-- Any step keeps the job table in order. -/
theorem AnyStep.jobs_ordered {s t : State} (h : AnyStep s t) (hs : JobsOrdered s) : JobsOrdered t := by
  cases h with
  | change h => exact h.jobs_ordered hs
  | rack h => cases h <;> exact hs

/-- A chain of any steps. -/
abbrev AnyChanges : State → State → Prop := Relation.ReflTransGen AnyStep

/-- Changes are any changes. -/
theorem Changes.any {s t : State} (h : Changes s t) : AnyChanges s t := by
  induction h with
  | refl => exact .refl
  | tail _ hu ih => exact ih.tail (.change hu)

/-- What SORTED does is any change. -/
theorem Sorts.any {s t : State} (h : Sorts s t) : AnyChanges s t := by
  induction h with
  | refl => exact .refl
  | tail _ hu ih =>
    refine ih.tail ?_
    cases hu with
    | work h => exact .change (.desk (.work h))
    | rack h => exact .rack h

/-- Any changes keep the job table in order. -/
theorem AnyChanges.jobs_ordered {s t : State} (hs : JobsOrdered s) (h : AnyChanges s t) : JobsOrdered t := by
  induction h with
  | refl => exact hs
  | tail _ hu ih => exact hu.jobs_ordered ih

/-! ### The desk ports (chapter 10) -/

/-- Starting the transmitter changes no list. -/
theorem linkFits_pump {l : Link} (h : LinkFits l) : LinkFits l.pump := by
  unfold Link.pump
  split
  · exact h
  · exact ⟨h.queue, h.refusals, h.notices⟩

/-- An answer counts among no notices. -/
theorem linkFits_answer {l : Link} (tag : Byte) (kind : U16) (a : Answer) (h : LinkFits l) :
    LinkFits (Link.answer tag kind a l) := by
  refine linkFits_pump ⟨h.queue, h.refusals, ?_⟩
  have := h.notices
  simp only [Link.noticeCount, List.filter_append] at this ⊢
  simpa [OutFrame.isNotice] using this

/-- A refusal joins a list that has room. -/
theorem linkFits_refuse {l : Link} (tag : Byte) (kind : U16) (c : AnswerCode) (h : LinkFits l) :
    LinkFits (Link.refuse tag kind c l) := by
  unfold Link.refuse
  split
  · rename_i hr
    refine linkFits_pump ⟨h.queue, ?_, h.notices⟩
    simp only [List.length_append, List.length_singleton]
    omega
  · exact h

/-- A notice joins a list that has room. -/
theorem linkFits_offer {l : Link} (time : Nat) (n : Notice) (h : LinkFits l) : LinkFits (Link.offer time n l) := by
  unfold Link.offer
  split
  · rename_i hr
    split
    · refine linkFits_pump ⟨h.queue, h.refusals, ?_⟩
      simp only [Link.noticeCount, List.filter_append, List.length_append] at hr ⊢
      have : ([OutFrame.notice time n].filter OutFrame.isNotice).length = 1 := rfl
      omega
    · exact h
  · exact ⟨h.queue, h.refusals, h.notices⟩

/-- A request is taken, decided and answered. -/
theorem takeRequest_changes (p : PortId) (r : Received) {s : State} (hs : JobsOrdered s) :
    Changes s (takeRequest p r s) := by
  unfold takeRequest
  dsimp only
  have h1 := (ChangeStep.link s p (fun l => { l with inHand := some r }) fun l h =>
    ⟨h.queue, h.refusals, h.notices⟩).changes
  have h2 := Changes.then hs h1 fun h => (decideRequest_desks p r h).changes
  exact h2.tail (ChangeStep.link _ p _ fun l h => linkFits_answer _ _ _ h)

/-- A port with no request in hand takes its next. -/
theorem takeNext_changes (p : PortId) {s : State} (hs : JobsOrdered s) : Changes s (takeNext p s) := by
  unfold takeNext
  dsimp only
  split
  · rename_i r rest _ hq
    split
    · exact .refl
    · have h1 := (ChangeStep.queue s p (fun l => { l with queue := rest }) fun h =>
        ⟨by have := h.queue; rw [hq, List.length_cons] at this; exact Nat.le_of_succ_le this,
          h.refusals, h.notices⟩).changes
      exact Changes.then hs h1 fun h => takeRequest_changes p r h
  · exact .refl

/-- A request is received whole. -/
theorem receive_changes (p : PortId) (r : Received) {s : State} (hs : JobsOrdered s) :
    Changes s (receive p r s) := by
  unfold receive
  split
  · rename_i hq
    have h1 := (ChangeStep.queue s p (fun l => { l with queue := l.queue ++ [r] }) fun h =>
      ⟨by simp only [List.length_append, List.length_singleton]; omega, h.refusals, h.notices⟩).changes
    exact Changes.then hs h1 fun h => takeNext_changes p h
  · exact (ChangeStep.link s p _ fun l h => linkFits_refuse _ _ _ h).changes

/-- The receiver changes. -/
theorem setReceiver_changes (p : PortId) (x : Receiver) (s : State) : Changes s (setReceiver p x s) :=
  (ChangeStep.link s p (fun l => { l with rx := x }) fun _ h => ⟨h.queue, h.refusals, h.notices⟩).changes

/-- A bad frame. -/
theorem badFrame_changes (p : PortId) (s : State) : Changes s (badFrame p s) :=
  (ChangeStep.link s p _ fun _ h => linkFits_refuse _ _ _ h).changes

/-- A frame has completed. -/
theorem frameReceived_changes (p : PortId) (f : Frame) {s : State} (hs : JobsOrdered s) :
    Changes s (frameReceived p f s) := by
  unfold frameReceived
  dsimp only
  have h1 := setReceiver_changes p .hunting s
  split
  · exact h1.trans (badFrame_changes _ _)
  · exact Changes.then hs h1 fun h => receive_changes _ _ h

/-- A byte of a desk link. -/
theorem deskLinkByte_changes (p : PortId) (b : Byte) {s : State} (hs : JobsOrdered s) :
    Changes s (deskLinkByte p b s) := by
  unfold deskLinkByte
  split
  · split
    · exact setReceiver_changes _ _ _
    · exact .refl
  · dsimp only
    split
    · exact (setReceiver_changes _ _ s).trans (badFrame_changes _ _)
    · split
      · exact frameReceived_changes _ _ hs
      · exact setReceiver_changes _ _ _

/-- A frame leaves its list. -/
theorem linkFits_sent {l : Link} (h : LinkFits l) : LinkFits l.sent := by
  unfold Link.sent
  split
  · refine linkFits_pump ⟨h.queue, ?_, h.notices⟩
    have := h.refusals
    simp only [List.length_tail]
    omega
  · rename_i f hs hf
    have hn := h.notices
    simp only [Link.current, hs] at hf
    obtain ⟨rest, hr⟩ : ∃ rest, l.output = f :: rest := by
      cases ho : l.output with
      | nil => rw [ho] at hf; cases hf
      | cons a b => rw [ho] at hf; simp only [List.head?_cons, Option.some.injEq] at hf; exact ⟨b, by rw [hf]⟩
    simp only [Link.noticeCount, hr] at hn
    apply linkFits_pump
    split
    · rename_i hfn
      rw [List.filter_cons_of_pos hfn, List.length_cons] at hn
      unfold Link.afterNotice
      dsimp only
      split
      · refine ⟨h.queue, h.refusals, ?_⟩
        simp only [Link.noticeCount, hr, List.tail_cons, List.filter_append, List.length_append]
        have : ∀ t, ([OutFrame.overrun t].filter OutFrame.isNotice).length = 1 := fun _ => rfl
        rw [this]
        omega
      · refine ⟨h.queue, h.refusals, ?_⟩
        simp only [Link.noticeCount, hr, List.tail_cons]
        omega
    · rename_i hfn
      rw [List.filter_cons_of_neg hfn] at hn
      refine ⟨h.queue, h.refusals, ?_⟩
      simp only [Link.noticeCount, hr, List.tail_cons]
      omega
  · exact ⟨h.queue, h.refusals, h.notices⟩

/-- The transmitter has sent a frame. -/
theorem frameSent_changes (p : PortId) {s : State} (hs : JobsOrdered s) : Changes s (frameSent p s) := by
  unfold frameSent
  dsimp only
  split
  · exact .refl
  · rename_i f _
    have h1 := (ChangeStep.link s p _ fun _ h => linkFits_sent h).changes.tail (ChangeStep.logDesk _ p f)
    split
    · have h2 := h1.tail (ChangeStep.link _ p (fun l => { l with inHand := none }) fun _ h =>
        ⟨h.queue, h.refusals, h.notices⟩)
      have o2 := Changes.jobs_ordered hs h2
      split
      · exact (h2.tail (ChangeStep.softDue _ true)).trans (takeNext_changes p o2)
      · exact h2.trans (takeNext_changes p o2)
    · exact h1

/-! ### Every command -/

/-- What a command answers. -/
theorem exec_next (c : Instr) (s : State) : ∃ t, exec c s = .next t := by cases c <;> exact ⟨_, rfl⟩

/-- The events of the machines, the clock and restart control, but for SORTED: what they do is the work of the
owning blocks. -/
def ofMachines : Instr → Bool
  | .hello .. | .cassetteLoaded .. | .loaded .. | .loadFault .. | .exposeStarted .. | .exposeDone ..
  | .exposeFault .. | .discarded .. | .engineLinkLoss .. | .loadTimerExpiry .. | .exposeTimerExpiry ..
  | .atInspect .. | .punchedBent .. | .punchFault .. | .atExit .. | .transitTimerExpiry ..
  | .laneLinkLoss .. | .laneRestoration .. | .sortFault .. | .sorterLinkLoss | .sorterRestoration
  | .clockTick | .windowAlarm .. | .startAlarm .. | .clear .. | .reconcileTimerExpiry => true
  | _ => false

/-- An event of the machines is a chain of the owning blocks' work. -/
theorem event_works (c : Instr) {s t : State} (hs : JobsOrdered s) (hc : ofMachines c = true)
    (h : exec c s = .next t) : Works s t := by
  have key : ∀ {u : State}, Works s u → (Host.Outcome.next u : Host.Outcome State Fault Refusal) = .next t →
      Works s t := by
    intro u hu he
    cases he
    exact hu
  cases c with
  | hello e => exact key (hello_works e hs) h
  | cassetteLoaded e f n => exact key (cassetteLoaded_works e f n hs) h
  | loaded e j a => exact key (loaded_works e _ _ hs) h
  | loadFault e j a c => exact key (loadFault_works e _ _ c hs) h
  | exposeStarted e j a => exact key (exposeStarted_works e _ _ hs) h
  | exposeDone e j a => exact key (exposeDone_works e _ _ hs) h
  | exposeFault e j a b => exact key (exposeFault_works e _ _ b hs) h
  | discarded e j a => exact key (discarded_works e _ _ hs) h
  | engineLinkLoss e => exact key (engineLinkLoss_works e hs) h
  | loadTimerExpiry e x => exact key (loadTimerExpiry_works e x hs) h
  | exposeTimerExpiry e => exact key (exposeTimerExpiry_works e hs) h
  | atInspect l r => exact key (atInspect_works l r hs) h
  | punchedBent l j a => exact key (punchedBent_works l _ _ s) h
  | punchFault l j a => exact key (punchFault_works l _ _ hs) h
  | atExit l j a => exact key (atExit_works l _ _ s) h
  | transitTimerExpiry l j => exact key (transitExpiry_works l _ hs) h
  | laneLinkLoss l => exact key (laneLinkLoss_works l s) h
  | laneRestoration l => exact key (laneRestoration_works l hs) h
  | sortFault j a => exact key (sortFault_works _ _ hs) h
  | sorterLinkLoss => exact key (sorterLinkLoss_works hs) h
  | sorterRestoration => exact key (sorterRestoration_works s) h
  | clockTick => exact key (clockTick_works hs) h
  | windowAlarm p => exact key (windowAlarm_works p hs) h
  | startAlarm p => exact key (startAlarm_works p s) h
  | clear l => exact key (clear_works l hs) h
  | reconcileTimerExpiry => exact key (reconcileExpiry_works hs) h
  | _ => cases hc

/-- Every command but SORTED is a chain of changes. -/
theorem exec_changes (c : Instr) {s t : State} (hs : JobsOrdered s) (hc : ∀ j a d, c ≠ .sorted j a d)
    (h : exec c s = .next t) : Changes s t := by
  have key : ∀ {u : State}, Changes s u → (Host.Outcome.next u : Host.Outcome State Fault Refusal) = .next t →
      Changes s t := by
    intro u hu he
    cases he
    exact hu
  cases c with
  | powerOn p1 p2 => exact key (powerOn_changes p1 p2 s) h
  | lineReset p1 p2 => exact key (lineReset_changes p1 p2 hs) h
  | softResetTaken => exact key (resetPart_changes _ hs) h
  | frameReceived p f => exact key (frameReceived_changes p f hs) h
  | interByteGapExpiry p => exact key (setReceiver_changes p _ s) h
  | frameSent p => exact key (frameSent_changes p hs) h
  | requestKindUnknown p t k => exact key (receive_changes p _ hs) h
  | hello e => exact key (hello_works e hs).changes h
  | cassetteLoaded e f n => exact key (cassetteLoaded_works e f n hs).changes h
  | loaded e j a => exact key (loaded_works e _ _ hs).changes h
  | loadFault e j a c => exact key (loadFault_works e _ _ c hs).changes h
  | exposeStarted e j a => exact key (exposeStarted_works e _ _ hs).changes h
  | exposeDone e j a => exact key (exposeDone_works e _ _ hs).changes h
  | exposeFault e j a b => exact key (exposeFault_works e _ _ b hs).changes h
  | discarded e j a => exact key (discarded_works e _ _ hs).changes h
  | engineLinkLoss e => exact key (engineLinkLoss_works e hs).changes h
  | loadTimerExpiry e x => exact key (loadTimerExpiry_works e x hs).changes h
  | exposeTimerExpiry e => exact key (exposeTimerExpiry_works e hs).changes h
  | atInspect l r => exact key (atInspect_works l r hs).changes h
  | punchedBent l j a => exact key (punchedBent_works l _ _ s).changes h
  | punchFault l j a => exact key (punchFault_works l _ _ hs).changes h
  | atExit l j a => exact key (atExit_works l _ _ s).changes h
  | transitTimerExpiry l j => exact key (transitExpiry_works l _ hs).changes h
  | laneLinkLoss l => exact key (laneLinkLoss_works l s).changes h
  | laneRestoration l => exact key (laneRestoration_works l hs).changes h
  | sorted j a d => exact absurd rfl (hc j a d)
  | sortFault j a => exact key (sortFault_works _ _ hs).changes h
  | sorterLinkLoss => exact key (sorterLinkLoss_works hs).changes h
  | sorterRestoration => exact key (sorterRestoration_works s).changes h
  | clockTick => exact key (clockTick_works hs).changes h
  | windowAlarm p => exact key (windowAlarm_works p hs).changes h
  | startAlarm p => exact key (startAlarm_works p s).changes h
  | clear l => exact key (clear_works l hs).changes h
  | reconcileTimerExpiry => exact key (reconcileExpiry_works hs).changes h
  | deskLinkByte p b => exact key (deskLinkByte_changes p b hs) h
  | _ => exact key (receive_changes _ _ hs) h

/-- Every command is a chain of changes and of plates entering the racks. -/
theorem exec_any (c : Instr) {s t : State} (hs : JobsOrdered s) (h : exec c s = .next t) : AnyChanges s t := by
  by_cases hc : ∃ j a d, c = .sorted j a d
  · obtain ⟨j, a, d, rfl⟩ := hc
    have e : sorted j.toNat a.toNat d s = t := by
      simpa [exec, execSorted] using h
    exact e ▸ (sorted_sorts _ _ _ hs).any
  · exact (exec_changes c hs (fun j a d hj => hc ⟨j, a, d, hj⟩) h).any

/-- Taking a command from the queue. -/
theorem pop_changes (s : State) (l : List Instr) : Changes s { s with pending := l } := (ChangeStep.pop s l).changes

/-- One step is a chain of changes and of plates entering the racks. -/
theorem step_any {s t : State} (hs : JobsOrdered s) (h : step s = .next t) : AnyChanges s t := by
  unfold step at h
  split at h
  · cases h; exact .refl
  · rename_i c rest _
    exact (pop_changes s rest).any.trans (exec_any c (s := { s with pending := rest }) hs h)

end Sys2Proof.Machine
end

