-- ==== Sys2Proof/Laws/DeskLaws.lean ====
section
/-! SUPPORT. Laws/DeskLaws.lean: how a request that comes to a free port is taken, decided and answered (R177,
R178), and what it takes to show that a command has one of the shapes of effect of Safety.lean. -/

namespace Sys2Proof.Machine

open State

/-! ### Links -/

/-- Two changes of a port's link are one. -/
theorem modLink_modLink (p : PortId) (f g : Link → Link) (s : State) :
    (s.modLink p f).modLink p g = s.modLink p fun l => g (f l) := by
  unfold State.modLink
  rw [vmod_vmod]

/-- Changes that do the same to the link they find are the same. -/
theorem modLink_congr (p : PortId) (f g : Link → Link) (s : State)
    (h : f (s.port p).link = g (s.port p).link) : s.modLink p f = s.modLink p g := by
  unfold State.modLink
  congr 1
  apply Vector.ext
  intro i hi
  rw [vmod_get_val, vmod_get_val]
  split
  · rename_i hh
    subst hh
    have : s.ports[p.val] = s.port p := rfl
    rw [this, h]
  · rfl

/-- A change that leaves the link it finds changes nothing. -/
theorem modLink_same (p : PortId) (f : Link → Link) (s : State) (h : f (s.port p).link = (s.port p).link) :
    s.modLink p f = s := by
  rw [modLink_congr p f id s h]
  unfold State.modLink
  rw [vmod_same _ _ _ rfl]

/-- A refusal joins the refusal list, or is dropped when the list is full. -/
theorem refuse_eq (tag : Byte) (kind : U16) (c : AnswerCode) (l : Link) :
    Link.refuse tag kind c l =
      if l.refusals.length < 8 then started { l with refusals := l.refusals ++ [.answer tag kind ⟨c, []⟩] } else l := by
  unfold Link.refuse
  rw [show Config.refusalList = 8 from rfl, pump_started]

/-! ### A request in hand -/

/-- A request is in hand at a port (R178): the state in which its owning block decides it. -/
abbrev holding (p : PortId) (r : Received) (s : State) : State := inHandAt p r s

/-- What does not read the requests in hand does not see it. -/
theorem holding_same (p : PortId) (r : Received) (s : State) : Same s (holding p r s) := rfl

/-- The ports with a request in hand at one of them. -/
theorem port_holding (p : PortId) (r : Received) (s : State) (q : PortId) :
    (holding p r s).port q =
      if q = p then { s.port q with link := { (s.port q).link with inHand := some r } } else s.port q :=
  port_modLink p _ s q

/-- A request received at a free port is taken at once. -/
theorem receive_free (p : PortId) (r : Received) (s : State) (h : Free p s) :
    receive p r s = takeRequest p r s := by
  unfold receive
  rw [h.queue, if_pos (by decide)]
  unfold takeNext
  have h1 : ((s.modLink p fun l => { l with queue := l.queue ++ [r] }).port p).link =
      { (s.port p).link with queue := [r] } := by
    rw [port_modLink, if_pos rfl, h.queue]; rfl
  rw [h1]
  dsimp only
  rw [h.hand]
  dsimp only
  rw [if_neg (by simp [h.due])]
  congr 1
  show State.modLink p _ (State.modLink p _ s) = s
  unfold State.modLink
  rw [vmod_vmod]
  have : (vmod s.ports p fun x =>
      { x with link := { x.link with queue := [] } }) = s.ports := by
    apply vmod_same
    have hq : s.ports[p].link.queue = [] := h.queue
    rw [← hq]
  dsimp only
  rw [this]

/-- The answer to a taken request. -/
theorem takeRequest_sound (p : PortId) (tag : Byte) (r : Request) (s : State)
    (ha : kindAllowed r.kind (s.port p).rights = true) :
    takeRequest p ⟨tag, r.kind, .sound r⟩ s =
      (applyRequest p r (holding p ⟨tag, r.kind, .sound r⟩ s)).1.modLink p
        (Link.answer tag r.kind (applyRequest p r (holding p ⟨tag, r.kind, .sound r⟩ s)).2) := by
  unfold takeRequest decideRequest
  dsimp only
  have : ((s.modLink p fun l => { l with inHand := some ⟨tag, r.kind, .sound r⟩ }).port p).rights =
      (s.port p).rights := by rw [port_modLink, if_pos rfl]
  rw [this, if_pos ha]
  rfl

/-- The rights of a request by its kind are those of the request summary. -/
theorem kindAllowed_kind (r : Request) (x : Rights) : kindAllowed r.kind x = r.allowed x := by
  cases r <;> rfl

/-- A request row is the reception of the request. -/
theorem exec_command (p : PortId) (tag : Byte) (r : Request) (s : State) :
    exec (r.command p tag) s = .next (receiveSound p tag r s) := by
  cases r <;> rfl

/-- A request that the port's rights allow, at a free port, is decided by its owning block and answered. -/
theorem exec_taken {p : PortId} {tag : Byte} {r : Request} {s : State} (h : Free p s)
    (ha : r.allowed (s.port p).rights = true) :
    exec (r.command p tag) s = .next
      ((applyRequest p r (holding p ⟨tag, r.kind, .sound r⟩ s)).1.modLink p
        (Link.answer tag r.kind (applyRequest p r (holding p ⟨tag, r.kind, .sound r⟩ s)).2)) := by
  rw [exec_command, receiveSound, receive_free p _ s h, takeRequest_sound p tag r s
    (by rw [kindAllowed_kind]; exact ha)]

/-! ### Answers -/

/-- An answer's joining the output list, with the transmitter started. -/
theorem answer_started (tag : Byte) (kind : U16) (a : Answer) (l : Link) :
    Link.answer tag kind a l = started { l with output := l.output ++ [.answer tag kind a] } := pump_started _

/-- The answer joins a port whose request is in hand. -/
theorem answeredAt_of {p : PortId} {tag : Byte} {kind : U16} {a : Answer} {r : Received} {u v : State}
    (ht : r.tag = tag) (hk : r.kind = kind) (h : PortsKept (holding p r u) v) :
    AnsweredAt p tag kind a u (v.modLink p (Link.answer tag kind a)) := by
  constructor
  · intro q
    rw [port_modLink]
    have hq := (h q).1
    rw [port_holding] at hq
    split
    · subst q
      rw [if_pos rfl] at hq
      rw [answer_started]
      obtain ⟨m, hm, hm'⟩ := hq.output
      refine ⟨hq.1, hq.2, hq.3, hq.4, hq.5, fun hx => ?_, hq.overrun, m, ?_, hm'⟩
      · have := hq.sending hx
        show ((v.port p).link.sending.or _) = _
        rw [this]
        cases hs : (u.port p).link.sending with
        | none => exact absurd hs hx
        | some y => rfl
      · show (v.port p).link.output ++ _ = _
        rw [hm]; simp
    · rename_i hne
      rw [if_neg hne] at hq
      exact hq
  · intro q hne
    rw [port_modLink, if_neg hne]
    have hq := (h q).2
    rw [port_holding, if_neg hne] at hq
    exact hq
  · refine ⟨r, ?_, ht, hk⟩
    rw [port_modLink, if_pos rfl, answer_started]
    have hq := (h p).2
    rw [port_holding, if_pos rfl] at hq
    exact hq

/-- What is told with a request in hand is told. -/
theorem Tells.holding {ns : List Notice} {p : PortId} {r : Received} {u v : State}
    (h : Tells ns (holding p r u) v) : Tells ns u v := by
  intro q hq ho
  have hp := port_holding p r u q
  have key : ((Machine.holding p r u).port q).mask = (u.port q).mask ∧
      ((Machine.holding p r u).port q).link.output = (u.port q).link.output ∧
      ((Machine.holding p r u).port q).link.overrun = (u.port q).link.overrun := by
    rw [hp]; split <;> exact ⟨rfl, rfl, rfl⟩
  obtain ⟨l, hl⟩ := h q (by unfold Link.noticeCount at hq ⊢; rw [key.2.1]; exact hq) (by rw [key.2.2]; exact ho)
  rw [key.1, key.2.1] at hl
  exact ⟨l, hl⟩

/-- An answer adds to what was told. -/
theorem Tells.answer {ns : List Notice} {p : PortId} {tag : Byte} {kind : U16} {a : Answer} {u v : State}
    (h : Tells ns u v) : Tells ns u (v.modLink p (Link.answer tag kind a)) := by
  intro q hq ho
  obtain ⟨l, hl⟩ := h q hq ho
  rw [port_modLink]
  split
  · obtain ⟨x, hx⟩ := pump_eq { (v.port q).link with output := (v.port q).link.output ++ [.answer tag kind a] }
    refine ⟨l ++ [.answer tag kind a], ?_⟩
    show (Link.pump _).output = _
    rw [hx]
    show (v.port q).link.output ++ _ = _
    rw [hl]
    simp
  · exact ⟨l, hl⟩

/-- A link's change keeps the rest of the state. -/
theorem Same.link {s t : State} (h : Same s t) (p : PortId) (f : Link → Link) : Same s (t.modLink p f) := by
  unfold Same at *
  rw [h]
  rfl

/-- A state with a request in hand is the same but for that. -/
theorem Same.of_holding {p : PortId} {r : Received} {u v : State} (h : Same (holding p r u) v) : Same u v := h

/-- Serving: a link's change is not among what it leaves alone. -/
theorem KeptByServing.andLink {s t : State} (h : KeptByServing s t) (p : PortId) (f : Link → Link) :
    KeptByServing s (t.modLink p f) := h.trans (.link t p f)

/-- Serving: a request in hand is not among what it leaves alone. -/
theorem KeptByServing.of_holding {p : PortId} {r : Received} {u v : State}
    (h : KeptByServing (holding p r u) v) : KeptByServing u v := (KeptByServing.link u p _).trans h

/-- Reactions: a link's change is not among what they leave alone. -/
theorem KeptByReacting.andLink {s t : State} (h : KeptByReacting s t) (p : PortId) (f : Link → Link) :
    KeptByReacting s (t.modLink p f) := h.trans (KeptByServing.link t p f).reacting

/-- Reactions: a request in hand is not among what they leave alone. -/
theorem KeptByReacting.of_holding {p : PortId} {r : Received} {u v : State}
    (h : KeptByReacting (holding p r u) v) : KeptByReacting u v := (KeptByServing.link u p _).reacting.trans h

/-! ### The shapes of a command's effect -/

/-- A taken request that writes the state and raises notices. -/
theorem answers_of {p : PortId} {tag : Byte} {r : Request} {s u : State} {ns : List Notice} {a : Answer}
    (h : Free p s) (ha : r.allowed (s.port p).rights = true)
    (hx : applyRequest p r (holding p ⟨tag, r.kind, .sound r⟩ s) =
      (raiseAll ns (holding p ⟨tag, r.kind, .sound r⟩ u), a)) :
    Answers (r.command p tag) p tag r.kind a ns s u := by
  refine ⟨⟨tag, r.kind, .sound r⟩, rfl, rfl, ?_⟩
  rw [exec_taken h ha, hx]
  show _ = Host.Outcome.next ((raiseAll ns (holding p ⟨tag, r.kind, .sound r⟩ u)).modLink p _)
  congr 2
  funext l
  exact answer_started tag r.kind a l

/-- A taken request that writes the state, raises notices and has the engines served. -/
theorem answersServing_of {p : PortId} {tag : Byte} {r : Request} {s u : State} {ns : List Notice} {a : Answer}
    (h : Free p s) (ha : r.allowed (s.port p).rights = true) (hu : JobsOrdered u)
    (hx : applyRequest p r (holding p ⟨tag, r.kind, .sound r⟩ s) =
      (serve (raiseAll ns (holding p ⟨tag, r.kind, .sound r⟩ u)), a)) :
    AnswersServing (r.command p tag) p tag r.kind a ns s u := by
  refine ⟨_, exec_taken h ha, ?_⟩
  rw [hx]
  generalize hv : holding p ⟨tag, r.kind, .sound r⟩ u = v
  have hj : JobsOrdered v := by rw [← hv]; exact hu
  have h1 := raiseAll_serves ns v
  have h2 : Serves _ _ := serve_serves (Serves.jobs_ordered hj h1)
  have h3 : Serves v (serve (raiseAll ns v)) := h1.trans h2
  have t3 : Tells ns v (serve (raiseAll ns v)) := (tells_raiseAll ns v).kept h2.ports_kept
  generalize serve (raiseAll ns v) = w at h3 t3
  have k3 := h3.kept
  have p3 := h3.ports_kept
  rw [← hv] at k3 p3 t3
  exact ⟨k3.of_holding.andLink p _, answeredAt_of rfl rfl p3, t3.holding.answer⟩

/-- An event that writes the state and raises notices. -/
theorem raises_of {c : Instr} {s u : State} {ns : List Notice} (h : exec c s = .next (raiseAll ns u)) :
    Raises c ns s u := h

/-- An event that writes the state, raises notices and has the engines served. -/
theorem raisesServing_of {c : Instr} {s u : State} {ns : List Notice} (hu : JobsOrdered u)
    (h : exec c s = .next (serve (raiseAll ns u))) : RaisesServing c ns s u := by
  have h1 := raiseAll_serves ns u
  have h2 := serve_serves (Serves.jobs_ordered hu h1)
  exact ⟨_, h, (Serves.kept (h1.trans h2)), (Serves.ports_kept (h1.trans h2)), (tells_raiseAll ns u).kept (Serves.ports_kept h2)⟩

/-- An event that writes the state, raises notices and sets reactions going. -/
theorem raisesReacting_of {D : Nat → Prop} {c : Instr} {s u t : State} {ns : List Notice} {P : State → Prop}
    (h : exec c s = .next t) (hr : Reacts D u t) (ht : Tells ns u t) (hp : P t) : RaisesReacting c ns s u D P :=
  ⟨t, h, Reacts.kept hr, Reacts.ports_kept hr, ht, Reacts.others_stay hr, hp⟩

/-- A taken request that writes the state, raises notices and sets reactions going. -/
theorem answersReacting_of {D : Nat → Prop} {p : PortId} {tag : Byte} {r : Request} {s u v : State}
    {ns : List Notice} {a : Answer} {P : State → Prop} (h : Free p s)
    (ha : r.allowed (s.port p).rights = true)
    (hx : applyRequest p r (holding p ⟨tag, r.kind, .sound r⟩ s) = (v, a))
    (hr : Reacts D (holding p ⟨tag, r.kind, .sound r⟩ u) v) (ht : Tells ns (holding p ⟨tag, r.kind, .sound r⟩ u) v)
    (hp : P (v.modLink p (Link.answer tag r.kind a))) :
    AnswersReacting (r.command p tag) p tag r.kind a ns s u D P := by
  refine ⟨_, exec_taken h ha, ?_⟩
  rw [hx]
  have ho : OthersStay D u (v.modLink p (Link.answer tag r.kind a)) := fun n j hn hj => Reacts.job_stays hr hn hj
  exact ⟨(Reacts.kept hr).of_holding.andLink p _, answeredAt_of rfl rfl (Reacts.ports_kept hr), ht.holding.answer,
    ho, hp⟩

/-! ### What a taken request keeps -/

/-- The owning blocks' work keeps the ports. -/
theorem WorkStep.ports_kept {s t : State} (h : WorkStep s t) : PortsKept s t := by
  cases h with
  | react h => exact h.ports_kept
  | limit x l v => cases x <;> exact .of_eq rfl
  | renew n r k x => 
    refine .of_eq ?_
    exact clearAllCurrent_keeps (P := fun t => t.ports = s.ports) n (fun _ _ _ h => h) (fun _ _ h => h) rfl
  | _ => exact .of_eq rfl

/-- The owning blocks' work keeps the ports. -/
theorem Works.ports_kept {s t : State} (h : Works s t) : PortsKept s t := by
  induction h with
  | refl => exact .refl _
  | tail _ hu ih => exact ih.trans hu.ports_kept

/-- What the deciding of a request keeps of a link. -/
structure LinkHeld (x y : Link) : Prop where
  rx : y.rx = x.rx
  queue : y.queue = x.queue
  inHand : y.inHand = x.inHand
  refusals : y.refusals = x.refusals
  output : ∃ l, y.output = x.output ++ l

/-- One after another. -/
theorem LinkHeld.trans {x y z : Link} (h : LinkHeld x y) (k : LinkHeld y z) : LinkHeld x z := by
  obtain ⟨l, hl⟩ := h.output
  obtain ⟨m, hm⟩ := k.output
  exact ⟨k.1.trans h.1, k.2.trans h.2, k.3.trans h.3, k.4.trans h.4, l ++ m, by rw [hm, hl, List.append_assoc]⟩

/-- Nothing happens to a link. -/
theorem LinkHeld.refl (x : Link) : LinkHeld x x := ⟨rfl, rfl, rfl, rfl, [], by simp⟩

/-- The deciding of a request keeps the links. -/
theorem DeskStep.links_held {s t : State} (h : DeskStep s t) (q : PortId) : LinkHeld (s.port q).link (t.port q).link := by
  cases h with
  | work h => 
    obtain ⟨⟨_, _, h3, h4, h5, _, _, l, h6, _⟩, h7⟩ := h.ports_kept q
    exact ⟨h3, h4, h7, h5, l, by rw [h6]; simp⟩
  | rights p r h => 
    have : ((s.setRights p r).port q).link = (s.port q).link := by
      simp only [State.port, State.setRights, vmod_get]; split <;> rfl
    rw [this]; exact .refl _
  | mask p m => 
    have : ((s.setMask p m).port q).link = (s.port q).link := by
      simp only [State.port, State.setMask, vmod_get]; split <;> rfl
    rw [this]; exact .refl _

/-- The deciding of a request keeps the links. -/
theorem Desks.links_held {s t : State} (h : Desks s t) (q : PortId) : LinkHeld (s.port q).link (t.port q).link := by
  induction h with
  | refl => exact .refl _
  | tail _ hu ih => exact ih.trans (hu.links_held q)

/-- A request that is taken is in hand, and its answer stands last in the output list (R178). -/
theorem takeRequest_answers (p : PortId) (r : Received) (s : State) (hs : JobsOrdered s) :
   ((takeRequest p r s).port p).link.inHand = some r ∧ ((takeRequest p r s).port p).link.queue = (s.port p).link.queue ∧
   ∃ a, ((takeRequest p r s).port p).link.output.getLast? = some (.answer r.tag r.kind a) := by
  unfold takeRequest
  dsimp only
  have hd := (decideRequest_desks p r (s := s.modLink p fun l => { l with inHand := some r }) hs).links_held p
  rw [port_modLink, if_pos rfl] at hd
  generalize decideRequest p r (s.modLink p fun l => { l with inHand := some r }) = x at hd
  rw [port_modLink, if_pos rfl]
  obtain ⟨y, hy⟩ := pump_eq { (x.1.port p).link with output := (x.1.port p).link.output ++ [.answer r.tag r.kind x.2] }
  have : (Link.answer r.tag r.kind x.2 (x.1.port p).link) = _ := hy
  rw [this]
  exact ⟨hd.inHand, hd.queue, x.2, by simp⟩

/-- The owning blocks' work does not touch what has left on a desk link, the queue of commands, or the note that
a soft reset is due. -/
theorem WorkStep.outside {s t : State} (h : WorkStep s t) :
    t.deskSent = s.deskSent ∧ t.pending = s.pending ∧ t.softResetDue = s.softResetDue := by
  cases h with
  | react h => exact ⟨h.kept.deskSent, h.kept.pending, h.kept.softResetDue⟩
  | limit x l v => cases x <;> exact ⟨rfl, rfl, rfl⟩
  | renew n r k x =>
    exact clearAllCurrent_keeps
      (P := fun t => t.deskSent = s.deskSent ∧ t.pending = s.pending ∧ t.softResetDue = s.softResetDue) n
      (fun _ _ _ h => h) (fun _ _ h => h) ⟨rfl, rfl, rfl⟩
  | _ => exact ⟨rfl, rfl, rfl⟩

/-- The same of one thing that the deciding of a request does. -/
theorem DeskStep.outside {s t : State} (h : DeskStep s t) :
    t.deskSent = s.deskSent ∧ t.pending = s.pending ∧ t.softResetDue = s.softResetDue := by
  cases h with
  | work h => exact h.outside
  | _ => exact ⟨rfl, rfl, rfl⟩

/-- The same of the deciding of a request. -/
theorem Desks.outside {s t : State} (h : Desks s t) :
    t.deskSent = s.deskSent ∧ t.pending = s.pending ∧ t.softResetDue = s.softResetDue := by
  induction h with
  | refl => exact ⟨rfl, rfl, rfl⟩
  | tail _ hu ih =>
    have h1 := hu.outside
    exact ⟨h1.1.trans ih.1, h1.2.1.trans ih.2.1, h1.2.2.trans ih.2.2⟩

/-- Taking a request does not touch what has left on a desk link, the queue of commands, or the note that a soft
reset is due. -/
theorem takeRequest_outside (p : PortId) (r : Received) {s : State} (hs : JobsOrdered s) :
    (takeRequest p r s).deskSent = s.deskSent ∧ (takeRequest p r s).pending = s.pending ∧
      (takeRequest p r s).softResetDue = s.softResetDue := by
  have h := Desks.outside (decideRequest_desks p r (s := s.modLink p fun l => { l with inHand := some r }) hs)
  exact h

end Sys2Proof.Machine
end

