-- ==== Sys2Proof/Laws/FormatLaws.lean ====
section
/-! SUPPORT. Laws/FormatLaws.lean: bytes joined again after they have been taken apart, and the reading of a
request's body that was written by the same encodings (R187). -/

namespace Sys2Proof.Machine

/-- Two bytes of a word, joined. -/
theorem le16_bytes (w : U16) :
    le16 (w.extractLsb' 0 8) (w.extractLsb' 8 8) = w := by
  unfold le16
  apply BitVec.eq_of_getLsbD_eq
  intro i hi
  simp only [BitVec.getLsbD_append, BitVec.getLsbD_extractLsb']
  by_cases h : i < 8
  · simp [h]
  · have a1 : i - 8 < 8 := by omega
    have a2 : 8 + (i - 8) = i := by omega
    simp [h, a1, a2]

/-- Four bytes of a word, joined. -/
theorem le32_bytes (w : U32) :
    le32 (w.extractLsb' 0 8) (w.extractLsb' 8 8) (w.extractLsb' 16 8)
      (w.extractLsb' 24 8) = w := by
  unfold le32
  apply BitVec.eq_of_getLsbD_eq
  intro i hi
  have : i < 8 ∨ (8 ≤ i ∧ i < 16) ∨ (16 ≤ i ∧ i < 24) ∨ 24 ≤ i := by omega
  simp only [BitVec.getLsbD_append, BitVec.getLsbD_extractLsb']
  rcases this with h | ⟨h, h'⟩ | ⟨h, h'⟩ | h
  · simp [h]
  · have a0 : ¬ i < 8 := by omega
    have a1 : i - 8 < 8 := by omega
    have a2 : 8 + (i - 8) = i := by omega
    simp [a0, a1, a2]
  · have a0 : ¬ i < 8 := by omega
    have a1 : ¬ i - 8 < 8 := by omega
    have a3 : i - 8 - 8 < 8 := by omega
    have a2 : 16 + (i - 8 - 8) = i := by omega
    simp [a0, a1, a2, a3]
  · have a0 : ¬ i < 8 := by omega
    have a1 : ¬ i - 8 < 8 := by omega
    have a3 : ¬ i - 8 - 8 < 8 := by omega
    have a4 : i - 8 - 8 - 8 < 8 := by omega
    have a2 : 24 + (i - 8 - 8 - 8) = i := by omega
    simp [a0, a1, a2, a3, a4]

/-- Eight bytes of a word, joined. -/
theorem le64_bytes (w : U64) : ∀ a b : U32, a = w.extractLsb' 0 32 → b = w.extractLsb' 32 32 →
    le64 (a.extractLsb' 0 8) (a.extractLsb' 8 8) (a.extractLsb' 16 8) (a.extractLsb' 24 8)
      (b.extractLsb' 0 8) (b.extractLsb' 8 8) (b.extractLsb' 16 8) (b.extractLsb' 24 8) = w := by
  intro a b ha hb
  have ea := le32_bytes a
  have eb := le32_bytes b
  unfold le32 at ea eb
  unfold le64
  have : (b.extractLsb' 24 8 ++ b.extractLsb' 16 8 ++ b.extractLsb' 8 8 ++ b.extractLsb' 0 8 : U32) ++
      (a.extractLsb' 24 8 ++ a.extractLsb' 16 8 ++ a.extractLsb' 8 8 ++ a.extractLsb' 0 8 : U32) = w := by
    rw [ea, eb, ha, hb]
    apply BitVec.eq_of_getLsbD_eq
    intro i hi
    simp only [BitVec.getLsbD_append, BitVec.getLsbD_extractLsb']
    by_cases h : i < 32
    · simp [h]
    · have a1 : i - 32 < 32 := by omega
      have a2 : 32 + (i - 32) = i := by omega
      simp [h, a1, a2]
  rw [← this]
  apply BitVec.eq_of_getLsbD_eq
  intro i hi
  simp only [BitVec.getLsbD_append]
  have : i < 8 ∨ (8 ≤ i ∧ i < 16) ∨ (16 ≤ i ∧ i < 24) ∨ (24 ≤ i ∧ i < 32) ∨ 32 ≤ i := by omega
  rcases this with h | ⟨h, h'⟩ | ⟨h, h'⟩ | ⟨h, h'⟩ | h
  · have : i < 32 := by omega
    simp [h, this]
  · have a0 : ¬ i < 8 := by omega
    have a1 : i - 8 < 8 := by omega
    have : i < 32 := by omega
    simp [a0, a1, this]
  · have a0 : ¬ i < 8 := by omega
    have a1 : ¬ i - 8 < 8 := by omega
    have a3 : i - 8 - 8 < 8 := by omega
    have : i < 32 := by omega
    simp [a0, a1, a3, this]
  · have a0 : ¬ i < 8 := by omega
    have a1 : ¬ i - 8 < 8 := by omega
    have a3 : ¬ i - 8 - 8 < 8 := by omega
    have a4 : i - 8 - 8 - 8 < 8 := by omega
    have : i < 32 := by omega
    simp [a0, a1, a3, a4, this]
  · have a0 : ¬ i < 8 := by omega
    have a1 : ¬ i - 8 < 8 := by omega
    have a3 : ¬ i - 8 - 8 < 8 := by omega
    have a4 : ¬ i - 8 - 8 - 8 < 8 := by omega
    have a5 : ¬ i < 32 := by omega
    have e1 : i - 8 - 8 - 8 - 8 = i - 32 := by omega
    simp only [a0, a1, a3, a4, a5, e1, if_false]

/-- The body of a request reads as that request. -/
theorem readRequest_bytes (r : Request) : readRequest r.kind r.bytes = .sound r := by
  cases r with
  | separationArrived page v c x ref =>
    have := le64_bytes ref _ _ rfl rfl
    have h16 := le16_bytes page
    show RequestContent.sound (.separationArrived (le16 _ _) v c x (le64 _ _ _ _ _ _ _ _)) = _
    rw [this, h16]
  | stagePosition pr q f a b x =>
    cases b with
    | none =>
      show RequestContent.sound (.stagePosition pr q f (le16 _ _) none x) = _
      rw [le16_bytes]
    | some b =>
      show RequestContent.sound (.stagePosition pr q f (le16 _ _) (some (le16 _ _)) x) = _
      rw [le16_bytes, le16_bytes]
  | setPressSchedule pr t l =>
    cases t with
    | none =>
      show RequestContent.sound (.setPressSchedule pr none (le16 _ _)) = _
      rw [le16_bytes]
    | some t =>
      show RequestContent.sound (.setPressSchedule pr (some (le32 _ _ _ _)) (le16 _ _)) = _
      rw [le16_bytes, le32_bytes]
  | setLimits l v n =>
    cases n with
    | none =>
      show RequestContent.sound (.setLimits l (le16 _ _) none) = _
      rw [le16_bytes]
    | some n =>
      show RequestContent.sound (.setLimits l (le16 _ _) (some n)) = _
      rw [le16_bytes]
  | setClock t =>
    show RequestContent.sound (.setClock (le32 _ _ _ _)) = _
    rw [le32_bytes]
  | withdrawPage n =>
    show RequestContent.sound (.withdrawPage (le16 _ _)) = _
    rw [le16_bytes]
  | queryPage n =>
    show RequestContent.sound (.queryPage (le16 _ _)) = _
    rw [le16_bytes]
  | queryJob n =>
    show RequestContent.sound (.queryJob (le16 _ _)) = _
    rw [le16_bytes]
  | _ => rfl

/-- No request's body is longer than SEPARATION_ARRIVED's. -/
theorem request_bytes_length (r : Request) : r.bytes.length ≤ 13 := by
  cases r with
  | stagePosition pr q f a b x => cases b <;> simp [Request.bytes, bytes16]
  | setPressSchedule pr t l => cases t <;> simp [Request.bytes, bytes16, bytes32]
  | setLimits l v n => cases n <;> simp [Request.bytes, bytes16]
  | _ => simp [Request.bytes, bytes16, bytes32]

end Sys2Proof.Machine
end

