-- ==== Sys2Proof/Laws/JobLaws.lean ====
section
/-! SUPPORT. Laws/JobLaws.lean: what becomes of one job: a return to its queue, a spoil, a departure (R50, R56,
R65, R66); and a job that what happens does not take. -/

namespace Sys2Proof.Machine

open State

variable {D : Nat → Prop}

/-! ### What does not touch the job table -/

/-- A notice changes no job. -/
theorem job?_raise (n : Notice) (s : State) (m : Nat) : (raise n s).job? m = s.job? m := by
  rw [raise_same n s]; rfl

/-- The job table is what a look at a job reads. -/
theorem job?_of_jobs {s t : State} (h : t.jobs = s.jobs) (n : Nat) : t.job? n = s.job? n := by
  unfold State.job?; rw [h]

/-- References are no business of a job's record. -/
theorem job?_retakeRefs (j : Job) (s : State) (m : Nat) : (retakeRefs j s).job? m = s.job? m := by
  unfold State.job?; rw [jobs_retakeRefs]

/-- References are no business of the clock. -/
theorem clock_takeRefs (ks : List SlotKey) (s : State) : (takeRefs ks s).clock = s.clock :=
  (Reacts.kept (D := AnyJob) (takeRefs_reacts ks s)).clock

/-! ### Jobs that stay, and jobs that have ended -/

/-- Serving takes no job while no engine runs. -/
theorem Reacts.job_rests {s t : State} (h : Reacts D s t) (hr : ∀ e, (s.engine e).status.mode ≠ .running)
    {n : Nat} {j : Job} (hn : ¬ D n) (hj : s.job? n = some j) : t.job? n = some j := by
  induction h with
  | refl => exact hj
  | @tail u v hu hv ih =>
    have hr' : ∀ e, (u.engine e).status.mode ≠ .running := fun e => by
      rw [((Reacts.kept hu).engines e).status]; exact hr e
    cases hv with
    | serve h =>
      have : v.jobs = u.jobs := (h.kept.idle hr').1
      unfold State.job?
      rw [this]
      exact ih
    | job m f hD h =>
      rw [job?_modJob, if_neg]
      · exact ih
      · rintro rfl; exact hn hD
    | addJob m j' hl hq hc hf =>
      rw [job?_addJob, if_neg]
      · exact ih
      · rintro rfl; rw [hf] at ih; cases ih
    | dropJob m hD =>
      rw [job?_dropJob, if_neg]
      · exact ih
      · rintro rfl; exact hn hD
    | _ => exact ih

/-- A reaction step gives places in the entry order, and takes none back (R56). -/
theorem ReactStep.entry_le {s t : State} (h : ReactStep D s t) : s.entryCount ≤ t.entryCount := by
  cases h with
  | serve h => exact h.kept.entryCount.ge
  | addJob => exact Nat.le_succ _
  | bump => exact Nat.le_succ _
  | _ => exact Nat.le_refl _

/-- Reactions give places in the entry order, and take none back (R56). -/
theorem Reacts.entry_le {s t : State} (h : Reacts D s t) : s.entryCount ≤ t.entryCount := by
  induction h with
  | refl => exact Nat.le_refl _
  | tail _ hu ih => exact ih.trans hu.entry_le

/-- A job created since a state has been created since each one before it. -/
theorem CreatedSince.since {b s : State} {j : Job} (h : CreatedSince s j) (hb : b.entryCount ≤ s.entryCount) :
    CreatedSince b j := ⟨hb.trans_lt h.order, h.superseded, h.attempt, h.state, h.fault⟩

/-- A job that has ended since a state has ended since each one before it. -/
theorem Ended.since {b s t : State} {n : Nat} (h : Ended n s t) (hb : b.entryCount ≤ s.entryCount) : Ended n b t :=
  fun j hj => (h j hj).since hb

/-- A job returned since a state has been returned since each one before it. -/
theorem Returned.since {b s t : State} {n a : Nat} {f : Option FaultRecord} {j : Job} (h : Returned n a f j s t)
    (hb : b.entryCount ≤ s.entryCount) : Returned n a f j b t := by
  obtain ⟨j', h1, h2, h3, h4⟩ := h
  exact ⟨j', h1, h2, hb.trans_lt h3, h4⟩

/-- A job created since a state that is served is one still. -/
theorem CreatedSince.stays {b : State} {j j' : Job} (h : CreatedSince b j) (k : JobStays j j') : CreatedSince b j' := by
  obtain ⟨k1, k2⟩ := k
  refine ⟨by rw [k2]; exact h.order, by rw [k2]; exact h.superseded, by rw [k2]; exact h.attempt, ?_, by rw [k2]; exact h.fault⟩
  rcases k1 with k1 | ⟨_, k1⟩
  · rw [k1]; exact h.state
  · exact .inr k1

/-- A number that names no job, or a job made since, does so after one more step that does not take it. -/
theorem ReactStep.ended {b s t : State} (h : ReactStep D s t) {n : Nat} (hn : ¬ D n) (hb : b.entryCount ≤ s.entryCount)
    (he : Ended n b s) : Ended n b t := by
  have same : t.job? n = s.job? n → Ended n b t := fun e j hj => he j (e ▸ hj)
  cases h with
  | serve h =>
    intro j hj
    cases hs : s.job? n with
    | none => rw [(h.kept.jobs n).1 hs] at hj; cases hj
    | some j' =>
      obtain ⟨j1, h1, h2, h3⟩ := (h.kept.jobs n).2 j' hs
      rw [h1] at hj
      cases hj
      exact (he j' hs).stays ⟨h2, h3⟩
  | job m f hD h =>
    refine same ?_
    rw [job?_modJob, if_neg]
    rintro rfl
    exact hn hD
  | addJob m j' hl hq hc hf =>
    intro j hj
    rw [job?_addJob] at hj
    split at hj
    · cases hj
      exact hc.since hb
    · exact he j hj
  | dropJob m hD =>
    refine same ?_
    rw [job?_dropJob, if_neg]
    rintro rfl
    exact hn hD
  | _ => exact same rfl

/-- The same after what does not take it. -/
theorem Reacts.ended {b s t : State} (h : Reacts D s t) {n : Nat} (hn : ¬ D n) (hb : b.entryCount ≤ s.entryCount)
    (he : Ended n b s) : Ended n b t := by
  induction h with
  | refl => exact he
  | tail hs hu ih => exact hu.ended hn (hb.trans (Reacts.entry_le hs)) ih

/-- Reactions that take no job. -/
abbrev NoJob : Nat → Prop := fun _ => False

/-- A job that has departed has ended (R50). -/
theorem depart_ended (n : Nat) (terminal : JobState) {s : State} (hs : JobsOrdered s)
    (ht : terminal ≠ .uncertain := by decide) : Ended n s (depart n terminal s) := by
  have core : Ended n s (departCore n terminal s) := by
    unfold departCore
    split
    · rename_i h
      intro j hj
      rw [h] at hj
      cases hj
    · rename_i j hj
      dsimp only
      have h0 : ∀ t : State, (tellSatisfied j.key (t.dropJob n)).job? n = none := by
        intro t
        rw [job?_of_jobs (tellSatisfied_keeps _ _).1, job?_dropJob, if_pos rfl]
      generalize raise (.jobEnded n j.key terminal j.lastFault) _ = t
      intro j' hj'
      rw [job?_of_jobs (foldl_keeps State.jobs _ fun s p => (tellAll_keeps _ s).1), h0] at hj'
      cases hj'
  have ho := Reacts.jobs_ordered hs (departCore_reacts (D := AnyJob) n terminal s ht)
  have h1 : Reacts NoJob _ _ := serveDeferred_reacts (fun _ h => serve_reacts h) ho
  exact Reacts.ended (h1.trans (serve_reacts (Reacts.jobs_ordered ho h1))) id
    (Reacts.entry_le (departCore_reacts (D := AnyJob) n terminal s ht)) core

/-! ### Returns to the queue -/

/-- A job that has been returned stays so through what does not take it. -/
theorem Returned.stays {b t u : State} {n a : Nat} {f : Option FaultRecord} {j : Job} (h : Returned n a f j b t)
    (hr : Reacts D t u) (hn : ¬ D n) : Returned n a f j b u := by
  obtain ⟨j1, h1, h2, ho, h3⟩ := h
  obtain ⟨j2, k1, k2, k3⟩ := Reacts.job_stays hr hn h1
  refine ⟨j2, k1, ?_, by rw [k3]; exact ho, by rw [k3, h3]⟩
  rcases k2 with k2 | ⟨_, k2⟩
  · rw [k2]; exact h2
  · exact .inr k2

/-- The record of a job that returns to its queue. -/
theorem requeue_job {n : Nat} {j : Job} (a : Nat) (why : RequeueReason) (f : Option FaultRecord) {s : State}
    (hj : s.job? n = some j) : ∃ o, s.entryCount < o ∧ (requeue n a why f s).job? n =
      some { j with state := .queued, attempt := a, lane := none, applied := none, entryOrder := o } := by
  unfold requeue
  rw [hj]
  dsimp only
  rw [job?_raise]
  refine ⟨(retakeRefs j s).entryCount + 1,
    Nat.lt_succ_of_le (Reacts.entry_le (retakeRefs_reacts (D := AnyJob) j s)), ?_⟩
  unfold enterQueue
  dsimp only
  rw [job?_modJob, if_pos rfl]
  show Option.map _ ((retakeRefs j s).job? n) = _
  rw [job?_retakeRefs, hj]
  rfl

/-- A job that returns to its queue has been returned. -/
theorem requeue_returned {n : Nat} {j : Job} (a : Nat) (why : RequeueReason) (f : Option FaultRecord) {s : State}
    (hj : s.job? n = some j) : Returned n a j.lastFault j s (requeue n a why f s) := by
  obtain ⟨o, hlt, ho⟩ := requeue_job a why f hj
  exact ⟨_, ho, .inl rfl, hlt, rfl⟩

/-- The record of a job whose fault has been recorded (R47). -/
theorem recordFault_job {n : Nat} {j : Job} (c : FaultCause) (p : FaultParam) {s : State}
    (hj : s.job? n = some j) :
    (recordFault n c p s).job? n = some { j with lastFault := some ⟨c, p, s.clock⟩ } := by
  unfold recordFault
  rw [job?_modJob, if_pos rfl, hj]
  rfl

/-- A fault of a job's own that costs no attempt returns it to its queue (R65). -/
theorem returnByFault_returned {n : Nat} {j : Job} (c : FaultCause) (p : FaultParam) (terminal : JobState)
    {s : State} (hj : s.job? n = some j) (hs : j.superseded = false) :
    Returned n j.attempt (some ⟨c, p, s.clock⟩) j s (returnByFault n c p terminal s) := by
  unfold returnByFault returnByFaultBy
  dsimp only
  have h := recordFault_job c p hj
  have hb := Reacts.entry_le (recordFault_reacts (D := AnyJob) n c p s)
  generalize recordFault n c p s = t at h hb
  rw [h]
  dsimp only
  rw [if_neg (by simp [hs])]
  exact (requeue_returned _ _ _ h).since hb

/-- It ends a job that is superseded (R63). -/
theorem returnByFault_ended {n : Nat} {j : Job} (c : FaultCause) (p : FaultParam) (terminal : JobState)
    {s : State} (ho : JobsOrdered s) (hj : s.job? n = some j) (hs : j.superseded = true)
    (ht : terminal ≠ .uncertain := by decide) : Ended n s (returnByFault n c p terminal s) := by
  unfold returnByFault returnByFaultBy
  dsimp only
  have h := recordFault_job c p hj
  have hb := Reacts.entry_le (recordFault_reacts (D := AnyJob) n c p s)
  have o := Reacts.jobs_ordered ho (recordFault_reacts (D := AnyJob) n c p s)
  generalize recordFault n c p s = t at h o hb
  rw [h]
  dsimp only
  rw [if_pos hs]
  exact (depart_ended _ _ o ht).since hb

/-- An event that takes a job returns it to its queue (R65). -/
theorem returnTaken_returned {n : Nat} {j : Job} (why : RequeueReason) (terminal : JobState) {s : State}
    (hj : s.job? n = some j) (hs : j.superseded = false) :
    Returned n j.attempt j.lastFault j s (returnTaken n why terminal s) := by
  unfold returnTaken
  rw [hj]
  dsimp only
  rw [if_neg (by simp [hs])]
  exact (requeue_returned _ _ _ hj).stays (D := NoJob) (evalStarved_reacts _) id

/-- It ends a job that is superseded (R63). -/
theorem returnTaken_ended {n : Nat} {j : Job} (why : RequeueReason) (terminal : JobState) {s : State}
    (ho : JobsOrdered s) (hj : s.job? n = some j) (hs : j.superseded = true)
    (ht : terminal ≠ .uncertain := by decide) : Ended n s (returnTaken n why terminal s) := by
  unfold returnTaken
  rw [hj]
  dsimp only
  rw [if_pos hs]
  exact depart_ended _ _ ho ht

/-! ### Spoils and failures -/

/-- The record of a job that becomes FAILED (R67). -/
theorem failJob_job {n : Nat} {j : Job} {s : State} (hj : s.job? n = some j) :
    (failJob n s).job? n = some { j with state := .failed } := by
  unfold failJob
  rw [hj]
  dsimp only
  have h : ((retakeRefs j s).modJob n fun x => { x with state := .failed }).job? n =
      some { j with state := .failed } := by
    rw [job?_modJob, if_pos rfl, job?_retakeRefs, hj]; rfl
  split
  · rw [job?_raise]; exact h
  · exact h

/-- A spoil below the third attempt returns the job to its queue at the next (R66). -/
theorem spoil_returned {n : Nat} {j : Job} (c : FaultCause) (p : FaultParam) {s : State}
    (hj : s.job? n = some j) (hs : j.superseded = false) (ha : j.attempt < 3) :
    Returned n (j.attempt + 1) (some ⟨c, p, s.clock⟩) j s (spoil n c p s) := by
  unfold spoil spoilBy
  dsimp only
  have h := recordFault_job c p hj
  have hb := Reacts.entry_le (recordFault_reacts (D := AnyJob) n c p s)
  generalize recordFault n c p s = t at h hb
  rw [h]
  dsimp only
  rw [if_neg (by simp [hs])]
  unfold spoilDecision
  rw [h]
  dsimp only
  rw [if_pos (by exact ha)]
  have key : ∃ o, s.entryCount < o ∧ (enterQueue n (j.attempt + 1)
      (retakeRefs { j with lastFault := some ⟨c, p, s.clock⟩ } t)).job? n =
        some { j with
          lastFault := some ⟨c, p, s.clock⟩, state := .queued, attempt := j.attempt + 1, lane := none
          applied := none, entryOrder := o } := by
    refine ⟨(retakeRefs { j with lastFault := some ⟨c, p, s.clock⟩ } t).entryCount + 1,
      Nat.lt_succ_of_le (hb.trans (Reacts.entry_le (retakeRefs_reacts (D := AnyJob) _ t))), ?_⟩
    unfold enterQueue
    dsimp only
    rw [job?_modJob, if_pos rfl]
    show Option.map _ ((retakeRefs _ t).job? n) = _
    rw [job?_retakeRefs, h]
    rfl
  obtain ⟨o, hlt, ho⟩ := key
  exact ⟨_, (job?_raise _ _ n).trans ho, .inl rfl, hlt, rfl⟩

/-- A spoil at the third attempt makes the job FAILED (R66, R67). -/
theorem spoil_failed {n : Nat} {j : Job} (c : FaultCause) (p : FaultParam) {s : State}
    (hj : s.job? n = some j) (hs : j.superseded = false) (ha : 3 ≤ j.attempt) :
    (spoil n c p s).job? n = some { j with state := .failed, lastFault := some ⟨c, p, s.clock⟩ } := by
  unfold spoil spoilBy
  dsimp only
  have h := recordFault_job c p hj
  generalize recordFault n c p s = t at h
  rw [h]
  dsimp only
  rw [if_neg (by simp [hs])]
  unfold spoilDecision
  rw [h]
  dsimp only
  rw [if_neg (by show ¬ _ < 3; simpa using ha)]
  exact failJob_job h

/-- A spoil ends a job that is superseded (R63). -/
theorem spoil_ended {n : Nat} {j : Job} (c : FaultCause) (p : FaultParam) {s : State} (ho : JobsOrdered s)
    (hj : s.job? n = some j) (hs : j.superseded = true) : Ended n s (spoil n c p s) := by
  unfold spoil spoilBy
  dsimp only
  have h := recordFault_job c p hj
  have hb := Reacts.entry_le (recordFault_reacts (D := AnyJob) n c p s)
  have o := Reacts.jobs_ordered ho (recordFault_reacts (D := AnyJob) n c p s)
  generalize recordFault n c p s = t at h o hb
  rw [h]
  dsimp only
  rw [if_pos hs]
  exact (depart_ended _ _ o).since hb

end Sys2Proof.Machine
end

