-- ==== Sys2Proof/Laws/RestartLaws.lean ====
section
/-! SUPPORT. Laws/RestartLaws.lean: what LINE_RESET and SOFT_RESET do, part by part: the blocks' own records, each
job by its state (R166), restart control's record (R167); and the straps (R182). -/

namespace Sys2Proof.Machine

open State

/-! ### Straps -/

/-- Loading one port's straps. -/
theorem port_loadStraps (p1 p2 p) (s : State) (q : PortId) : (loadStraps p1 p2 p s).port q = if q = p then { s.port q with rights := strapRightsOf p1 p2 q, mask := defaultClasses (strapRightsOf p1 p2 q) } else s.port q := by
  have hr : portStraps p1 p2 p = strapRightsOf p1 p2 p := by
    cases p1 <;> cases p2 <;> fin_cases p <;> rfl
  have hm : ∀ r, maskOfRights r = defaultClasses r := fun r => rfl
  unfold loadStraps
  rw [hr, hm]
  simp only [State.port, State.setRights, State.setMask, vmod_get]
  by_cases h : q = p
  · subst h; simp
  · simp [h]
/-- Loading the straps gives each port its rights and their default classes (R182). -/
theorem port_loadAllStraps (p1 p2) (s : State) (q : PortId) : (loadAllStraps p1 p2 s).port q = { s.port q with rights := strapRightsOf p1 p2 q, mask := defaultClasses (strapRightsOf p1 p2 q) } := by
  unfold loadAllStraps allPorts
  simp only [List.foldl_cons, List.foldl_nil, port_loadStraps]
  fin_cases q <;> simp

/-- Loading the straps changes ports only. -/
theorem loadAllStraps_same (p1 p2 : StrapPair) (s : State) : Same s (loadAllStraps p1 p2 s) := by
  unfold Same loadAllStraps allPorts
  simp only [List.foldl_cons, List.foldl_nil]
  unfold loadStraps State.setRights State.setMask
  rfl

/-! ### Resets -/

/-- An operation on each engine in turn changes every engine record. -/
theorem foldl_engines (f : EngineId → State → State) (g : Engine → Engine) (s : State)
    (h : ∀ e s, f e s = { s with engines := vmod s.engines e g }) :
    allEngines.foldl (fun s e => f e s) s = { s with engines := s.engines.map g } := by
  unfold allEngines
  simp only [List.foldl_cons, List.foldl_nil, h]
  congr 1
  apply Vector.ext
  intro i hi
  simp only [vmod_get_val, Vector.getElem_map]
  have : i = 0 ∨ i = 1 ∨ i = 2 ∨ i = 3 ∨ i = 4 ∨ i = 5 := by omega
  rcases this with rfl | rfl | rfl | rfl | rfl | rfl <;> simp

/-- An operation on each lane in turn changes every lane record. -/
theorem foldl_lanes (f : LaneId → State → State) (g : Lane → Lane) (s : State)
    (h : ∀ e s, f e s = { s with lanes := vmod s.lanes e g }) :
    allLanes.foldl (fun s e => f e s) s = { s with lanes := s.lanes.map g } := by
  unfold allLanes
  simp only [List.foldl_cons, List.foldl_nil, h]
  congr 1
  apply Vector.ext
  intro i hi
  simp only [vmod_get_val, Vector.getElem_map]
  have : i = 0 ∨ i = 1 := by omega
  rcases this with rfl | rfl <;> simp

/-- An operation on each port in turn changes every port record. -/
theorem foldl_ports (f : PortId → State → State) (g : Port → Port) (s : State) (P : State → Prop) (hs : P s)
    (hp : ∀ s v, P s → P { s with ports := v })
    (h : ∀ e s, P s → f e s = { s with ports := vmod s.ports e g }) :
    allPorts.foldl (fun s e => f e s) s = { s with ports := s.ports.map g } := by
  unfold allPorts
  simp only [List.foldl_cons, List.foldl_nil]
  rw [h 0 s hs, h 1 _ (hp _ _ hs), h 2 _ (hp _ _ (hp _ _ hs))]
  congr 1
  apply Vector.ext
  intro i hi
  simp only [vmod_get_val, Vector.getElem_map]
  have : i = 0 ∨ i = 1 ∨ i = 2 := by omega
  rcases this with rfl | rfl | rfl <;> simp

/-- The state when the blocks have set their own records, before the jobs are taken (R95, R111, R125, R165, R167). -/
def beforeJobs (kind : ResetKind) (s : State) : State :=
  { s with
    ports := s.ports.map fun x => { x with link := Link.afterReset s.clock (restartNotice kind s) }
    engines := s.engines.map fun x =>
        ⟨⟨if x.status.mode = .lockedOut then .lockedOut else .offline, false, x.status.faultFlag, x.status.lastFault⟩, ⟨false, false, false⟩, ⟨none, 0⟩, ⟨none, none, none, []⟩⟩
    lanes := s.lanes.map fun x => { x with floor := ⟨[], none, false⟩, gates := ⟨false, false, false⟩, inspections := [], clearing := true }
    sorter := ⟨none, none, false, false, s.sorter.lost⟩
    line := ⟨.running, s.line.policies, Vector.replicate 6 false, Vector.replicate 2 false, s.line.stopTime⟩ }

/-- A reset: the blocks' own records, then the jobs in ascending number, then restart control's record, then the
engines are served. -/
theorem resetPart_eq (kind : ResetKind) (s : State) : resetPart kind s =
   serve ((startReconcile kind ((s.jobs.map Prod.fst).foldl (fun s n => resetJob n s) (beforeJobs kind s))).setSoftDue false) := by
  have h1 : allPorts.foldl (fun t p => resetPort (restartNotice kind s) p t) s = { s with ports := s.ports.map fun x => { x with link := Link.afterReset s.clock (restartNotice kind s) } } :=
    foldl_ports _ _ s (fun t => t.clock = s.clock) rfl (fun _ _ h => h) (fun p t h => by unfold resetPort State.modLink; rw [h])
  have h2 : ∀ t, allEngines.foldl (fun s e => resetEngine e s) t = _ := fun t => foldl_engines resetEngine (fun x =>
        ⟨⟨if x.status.mode = .lockedOut then .lockedOut else .offline, false, x.status.faultFlag, x.status.lastFault⟩, ⟨false, false, false⟩, ⟨none, 0⟩, ⟨none, none, none, []⟩⟩) t
      (fun e t => by unfold resetEngine dropEngine State.modGates State.modStatus State.modCassette State.modCtx; simp only [vmod_vmod]; rfl)
  have h3 : ∀ t, allLanes.foldl (fun s e => resetLane e s) t = _ := fun t => foldl_lanes resetLane _ t (fun e t => rfl)
  unfold resetPart
  dsimp only
  rw [h1, h2, h3]
  rfl

/-- A job record is no business of what is kept beside the job table. -/
theorem KeptAside.modJob (s : State) (n : Nat) (f : Job → Job) : KeptAside s (s.modJob n f) := { KeptAside.refl s with sent := ⟨[], by simp⟩ }

/-- What a reset does to one job: reactions that take no other job, and a change of its record. -/
theorem resetJob_reacts (n : Nat) {s : State} (hs : JobsOrdered s) : 
   ∃ t f, Reacts (fun m => m = n) s t ∧ resetJob n s = t.modJob n f := by
  have hid : ∀ t : State, t = t.modJob n id := by
    intro t; unfold State.modJob
    have : tmod t.jobs n id = t.jobs := by
      unfold tmod
      conv_rhs => rw [← List.map_id t.jobs]
      congr 1; funext e; split <;> rfl
    rw [this]
  unfold resetJob
  split
  · exact ⟨s, id, .refl, hid s⟩
  · rename_i j hj
    split
    · exact ⟨_, id, returnByFault_reacts n _ _ _ hs (by decide) rfl, hid _⟩
    · exact ⟨s, _, .refl, rfl⟩
    · split
      · exact ⟨_, id, depart_reacts n _ hs (by decide) rfl, hid _⟩
      · exact ⟨_, _, takeRefs_reacts _ _, rfl⟩
    · split
      · exact ⟨_, id, depart_reacts n _ hs (by decide) rfl, hid _⟩
      · exact ⟨_, _, takeRefs_reacts _ _, rfl⟩
    · exact ⟨s, id, .refl, hid s⟩

/-- What the jobs' turns leave alone. -/
theorem resetJobs_aside (l : List Nat) {s : State} (hs : JobsOrdered s) :
   KeptAside s (l.foldl (fun s n => resetJob n s) s) ∧ PortsKept s (l.foldl (fun s n => resetJob n s) s) ∧ JobsOrdered (l.foldl (fun s n => resetJob n s) s) := by
  induction l generalizing s with
  | nil => exact ⟨.refl _, .refl _, hs⟩
  | cons n l ih =>
    rw [List.foldl_cons]
    obtain ⟨t, f, h1, h2⟩ := resetJob_reacts n hs
    have h3 : KeptAside s (resetJob n s) := by rw [h2]; exact h1.kept.toKeptAside.trans (.modJob t n f)
    have h4 : PortsKept s (resetJob n s) := by rw [h2]; exact h1.ports_kept
    have h5 : JobsOrdered (resetJob n s) := by rw [h2]; exact ordered_tmod (rank := id) n f (Reacts.jobs_ordered hs h1)
    obtain ⟨k1, k2, k3⟩ := ih h5
    exact ⟨h3.trans k1, h4.trans k2, k3⟩


/-- No engine runs. -/
def Idle (s : State) : Prop := ∀ e, (s.engine e).status.mode ≠ .running

/-- An idle part stays so. -/
theorem Idle.aside {s t : State} (h : Idle s) (k : KeptAside s t) : Idle t := fun e => by rw [(k.engines e).status]; exact h e

/-- Another job's turn leaves a job as it is. -/
theorem resetJob_keeps {n m : Nat} {s : State} (hs : JobsOrdered s) (hi : Idle s) (hne : n ≠ m) {j} (hj : s.job? n = some j) :
   (resetJob m s).job? n = some j := by
  obtain ⟨t, f, h1, h2⟩ := resetJob_reacts m hs
  rw [h2, job?_modJob, if_neg hne]
  exact Reacts.job_rests h1 hi (fun h => hne h) hj

/-- A job's turn takes back no place in the entry order. -/
theorem resetJob_entry (m : Nat) {s : State} (hs : JobsOrdered s) : s.entryCount ≤ (resetJob m s).entryCount := by
  obtain ⟨t, f, h1, h2⟩ := resetJob_reacts m hs
  rw [h2]
  show s.entryCount ≤ t.entryCount
  exact Reacts.entry_le h1

/-- Another job's turn leaves an ended job ended. -/
theorem resetJob_ended {n m : Nat} {b s : State} (hs : JobsOrdered s) (hne : n ≠ m)
    (hb : b.entryCount ≤ s.entryCount) (hj : Ended n b s) : Ended n b (resetJob m s) := by
  obtain ⟨t, f, h1, h2⟩ := resetJob_reacts m hs
  intro j h
  rw [h2, job?_modJob, if_neg hne] at h
  exact Reacts.ended h1 (fun h => hne h) hb hj j h

/-- A property of a job number that later resets of other jobs keep. -/
theorem resetJobs_other (n : Nat) (l : List Nat) (hn : n ∉ l) {b s : State} (hs : JobsOrdered s) (hi : Idle s)
    (hb : b.entryCount ≤ s.entryCount) :
   (∀ j, s.job? n = some j → (l.foldl (fun s n => resetJob n s) s).job? n = some j) ∧
   (Ended n b s → Ended n b (l.foldl (fun s n => resetJob n s) s)) := by
  induction l generalizing s with
  | nil => exact ⟨fun _ h => h, id⟩
  | cons m l ih =>
    rw [List.foldl_cons]
    simp only [List.mem_cons, not_or] at hn
    obtain ⟨h3, h4, h5⟩ := resetJobs_aside [m] hs
    have := ih hn.2 h5 (hi.aside h3) (hb.trans (resetJob_entry m hs))
    exact ⟨fun j h => this.1 j (resetJob_keeps hs hi hn.1 h), fun h => this.2 (resetJob_ended hs hn.1 hb h)⟩

/-- What a reset makes of one job (R166). -/
structure JobReset (n : Nat) (j : Job) (b t : State) : Prop where
  rest : j.state ≠ .assigned → j.state ≠ .exposing → j.state ≠ .developing → j.state ≠ .finishing → t.job? n = some j
  assigned : j.state = .assigned → j.superseded = false →
    Returned n j.attempt (some ⟨.contextLost, .engine (j.engine.getD 0), b.clock⟩) j b t
  exposing : j.state = .exposing → t.job? n = some { j with state := .uncertain, lane := j.engine.map laneFed }
  onLane : (j.state = .developing ∨ j.state = .finishing) → j.superseded = false → t.job? n = some { j with state := .uncertain }
  ends : (j.state = .assigned ∨ j.state = .developing ∨ j.state = .finishing) → j.superseded = true → Ended n b t

/-- A job's own turn. -/
theorem resetJob_own {n : Nat} {s : State} (hs : JobsOrdered s) {j} (hj : s.job? n = some j) : JobReset n j s (resetJob n s) := by
  have e : resetJob n s = (match j.state with
    | .assigned => returnByFault n .contextLost (.engine (j.engine.getD 0)) .cancelled s
    | .exposing => s.modJob n fun x => { x with state := .uncertain, lane := laneOfExposing j }
    | .developing | .finishing =>
      if j.superseded then depart n .discarded s
      else (takeRefs j.slots s).modJob n fun x => { x with state := .uncertain }
    | _ => s) := by
    cases h : j.state <;> simp only [resetJob, hj, h]
  constructor
  · intro h1 h2 h3 h4
    rw [e]; cases hst : j.state <;> simp_all
  · intro h1 h2
    rw [e, h1]; exact returnByFault_returned _ _ _ hj h2
  · intro h1
    rw [e, h1]; dsimp only; rw [job?_modJob, if_pos rfl, hj]; rfl
  · intro h1 h2
    have : resetJob n s = (takeRefs j.slots s).modJob n fun x => { x with state := .uncertain } := by
      rw [e]; rcases h1 with h1 | h1 <;> rw [h1] <;> simp [h2]
    rw [this, job?_modJob, if_pos rfl]
    have : (takeRefs j.slots s).job? n = some j := by unfold State.job?; rw [jobs_takeRefs]; exact hj
    rw [this]; rfl
  · intro h1 h2
    rw [e]
    rcases h1 with h1 | h1 | h1 <;> rw [h1] <;> dsimp only
    · exact returnByFault_ended _ _ _ hs hj h2
    · rw [if_pos h2]; exact depart_ended _ _ hs
    · rw [if_pos h2]; exact depart_ended _ _ hs

/-- What becomes of each job when the jobs have had their turns. -/
theorem resetJobs_each {n : Nat} {j : Job} (l : List Nat) (hl : l.Nodup) (hn : n ∈ l) {s : State} (hs : JobsOrdered s) (hi : Idle s) (hj : s.job? n = some j) :
   JobReset n j s (l.foldl (fun s n => resetJob n s) s) := by
  induction l generalizing s with
  | nil => cases hn
  | cons m l ih =>
    rw [List.foldl_cons]
    obtain ⟨h3, h4, h5⟩ := resetJobs_aside [m] hs
    rw [List.nodup_cons] at hl
    have hb := resetJob_entry m hs
    by_cases e : n = m
    · subst e
      have h := resetJob_own hs hj
      have ho := resetJobs_other n l hl.1 h5 (hi.aside h3) hb
      constructor
      · intro a b c d; exact ho.1 _ (h.rest a b c d)
      · intro a b
        obtain ⟨j', k1, k2, k3⟩ := h.assigned a b
        exact ⟨j', ho.1 _ k1, k2, k3⟩
      · intro a; exact ho.1 _ (h.exposing a)
      · intro a b; exact ho.1 _ (h.onLane a b)
      · intro a b; exact ho.2 (h.ends a b)
    · rcases List.mem_cons.mp hn with h | h
      · exact absurd h e
      · have k := ih hl.2 h h5 (hi.aside h3) (resetJob_keeps hs hi e hj)
        have hc : (resetJob m s).clock = s.clock := h3.clock
        exact ⟨k.rest, fun a b => by rw [← hc]; exact (k.assigned a b).since hb, k.exposing, k.onLane,
          fun a b => (k.ends a b).since hb⟩

/-- A table in order names a key once. -/
theorem keys_ascend {jobs : Table Nat Job} (h : Table.ordered id jobs) : (jobs.map Prod.fst).Nodup := by
  unfold Table.ordered at h
  rw [List.nodup_iff_pairwise_ne, List.pairwise_map]
  exact h.imp fun h => ne_of_lt h

/-- The state when the jobs have been taken. -/
def afterJobs (kind : ResetKind) (s : State) : State := (s.jobs.map Prod.fst).foldl (fun s n => resetJob n s) (beforeJobs kind s)
/-- The state when restart control has set its record. -/
def afterRecord (kind : ResetKind) (s : State) : State := (startReconcile kind (afterJobs kind s)).setSoftDue false

/-- After a reset no engine runs. -/
theorem idle_before (kind : ResetKind) (s : State) : Idle (beforeJobs kind s) := by
  intro e
  simp only [beforeJobs, State.engine, Fin.getElem_fin, Vector.getElem_map]
  split <;> simp

/-- What a reset's parts leave alone. -/
theorem resetPart_parts (kind : ResetKind) (s : State) (hs : JobsOrdered s) : let t := resetPart kind s
   KeptAside (beforeJobs kind s) (afterJobs kind s) ∧ PortsKept (beforeJobs kind s) t ∧ JobsOrdered (afterJobs kind s) ∧ KeptByServing (afterRecord kind s) t ∧
   t.jobs = (afterJobs kind s).jobs := by
  dsimp only
  obtain ⟨h3, h4, h5⟩ := resetJobs_aside (s.jobs.map Prod.fst) (s := beforeJobs kind s) hs
  have h6 : JobsOrdered (afterRecord kind s) := h5
  have h7 := serve_kept h6
  have h8 := h7.1
  rw [show serve (afterRecord kind s) = resetPart kind s from (resetPart_eq kind s).symm] at h7 h8
  refine ⟨h3, ?_, h5, h8, ?_⟩
  · have : PortsKept (afterJobs kind s) (afterRecord kind s) := .of_eq rfl
    exact (h4.trans this).trans h7.2
  · have hi : Idle (afterRecord kind s) := fun e => (Idle.aside (t := afterJobs kind s) (idle_before kind s) h3) e
    exact (h8.idle hi).1

/-- What a reset makes of each job (R166). -/
theorem resetPart_job (kind : ResetKind) (s : State) (hs : JobsOrdered s) {n j} (hj : s.job? n = some j) : JobReset n j (beforeJobs kind s) (afterJobs kind s) :=
  resetJobs_each (s := beforeJobs kind s) _ (keys_ascend hs) (by
     have : thas s.jobs n = true := by unfold thas; rw [show tget s.jobs n = some j from hj]; rfl
     exact mem_keys_of_thas this) hs (idle_before kind s) hj

/-- RESTARTED tells the reconcile state that the reset ends in (R165, R167). -/
theorem restarted_tells (kind : ResetKind) (s : State) (hs : JobsOrdered s) : 
  decide (0 < countJobs s becomesUncertain + countJobs s fun j => j.state = .uncertain) = (afterRecord kind s).restart.reconciling := by
  have hr : (afterRecord kind s).restart.reconciling = decide (countJobs (afterJobs kind s) (fun j => j.state = .uncertain) ≠ 0) := by
    unfold afterRecord startReconcile
    dsimp only [State.setSoftDue, State.modRestart]
    by_cases h : countJobs (afterJobs kind s) (fun j => j.state = .uncertain) = 0
    · rw [if_pos h]; simp [h]
    · rw [if_neg h]; simp [h]
  rw [hr, decide_eq_decide]
  have mem : ∀ (s : State) (hs : JobsOrdered s) (p : Job → Bool), countJobs s p ≠ 0 ↔ ∃ n j, s.job? n = some j ∧ p j = true := by
    intro s hs p
    unfold countJobs
    rw [Ne, List.length_eq_zero_iff, List.filter_eq_nil_iff]
    push Not
    constructor
    · rintro ⟨⟨n, j⟩, h1, h2⟩; exact ⟨n, j, tget_of_mem hs h1, h2⟩
    · rintro ⟨n, j, h1, h2⟩; exact ⟨(n, j), mem_of_tget h1, h2⟩
  rw [mem _ (resetPart_parts kind s hs).2.2.1]
  constructor
  · intro h
    have : countJobs s becomesUncertain ≠ 0 ∨ countJobs s (fun j => j.state = .uncertain) ≠ 0 := by omega
    rw [mem s hs, mem s hs] at this
    rcases this with ⟨n, j, h1, h2⟩ | ⟨n, j, h1, h2⟩
    · have := resetPart_job kind s hs h1
      unfold becomesUncertain at h2
      split at h2
      · rename_i hst; exact ⟨n, _, this.exposing hst, by simp⟩
      · rename_i hst; exact ⟨n, _, this.onLane (.inl hst) (by simpa using h2), by simp⟩
      · rename_i hst; exact ⟨n, _, this.onLane (.inr hst) (by simpa using h2), by simp⟩
      · cases h2
    · have h2' : j.state = .uncertain := by simpa using h2
      refine ⟨n, j, (resetPart_job kind s hs h1).rest ?_ ?_ ?_ ?_, h2⟩ <;> rw [h2'] <;> decide
  · rintro ⟨n, j, h1, h2⟩
    have h2 : j.state = .uncertain := by simpa using h2
    have : countJobs s becomesUncertain ≠ 0 ∨ countJobs s (fun j => j.state = .uncertain) ≠ 0 := by
      rw [mem s hs, mem s hs]
      cases h0 : s.job? n with
      | none =>
        exfalso
        have hn : n ∉ s.jobs.map Prod.fst := by
          intro hm
          obtain ⟨e, he, rfl⟩ := List.mem_map.mp hm
          rw [show s.job? e.1 = some e.2 from tget_of_mem hs he] at h0
          cases h0
        have he : Ended n (beforeJobs kind s) (afterJobs kind s) :=
          (resetJobs_other n _ hn (s := beforeJobs kind s) hs (idle_before kind s) (le_refl _)).2 (by
          intro j hj
          have : s.job? n = some j := hj
          rw [h0] at this; cases this)
        have := (he j h1).state
        rw [h2] at this
        rcases this with h | h <;> cases h
      | some j0 =>
        have hh := resetPart_job kind s hs h0
        have endc : Ended n (beforeJobs kind s) (afterJobs kind s) → False := by
          intro he
          have := (he j h1).state
          rw [h2] at this
          rcases this with h | h <;> cases h
        have unchanged : (afterJobs kind s).job? n = some j0 → (∃ n j, s.job? n = some j ∧ decide (j.state = .uncertain) = true) := by
          intro h; rw [h1] at h; cases h; exact ⟨n, j, h0, by simp [h2]⟩
        cases hst : j0.state with
        | assigned => 
          by_cases hsup : j0.superseded = true
          · exact (endc (hh.ends (.inl hst) hsup)).elim
          · obtain ⟨j', k1, k2, k3⟩ := hh.assigned hst (by simpa using hsup)
            rw [h1] at k1; cases k1; rw [h2] at k2; rcases k2 with h | h <;> cases h
        | exposing => exact .inl ⟨n, j0, h0, by simp [becomesUncertain, hst]⟩
        | developing => 
          by_cases hsup : j0.superseded = true
          · exact (endc (hh.ends (.inr (.inl hst)) hsup)).elim
          · exact .inl ⟨n, j0, h0, by simp [becomesUncertain, hst, hsup]⟩
        | finishing => 
          by_cases hsup : j0.superseded = true
          · exact (endc (hh.ends (.inr (.inr hst)) hsup)).elim
          · exact .inl ⟨n, j0, h0, by simp [becomesUncertain, hst, hsup]⟩
        | _ => exact .inr (unchanged (hh.rest (by rw [hst]; decide) (by rw [hst]; decide) (by rw [hst]; decide) (by rw [hst]; decide)))
    omega

/-- The jobs that a reset makes UNCERTAIN (R166). -/
theorem count_becomes (s : State) : countJobs s becomesUncertain = (s.jobs.filter fun e => e.2.state = .exposing ||
            (e.2.state = .developing || e.2.state = .finishing) && !e.2.superseded).length := by
  unfold countJobs
  congr 1
  apply List.filter_congr
  intro e _
  unfold becomesUncertain
  cases e.2.state <;> simp

end Sys2Proof.Machine
end

