-- ==== Sys2Proof/Laws/PlaceLaws.lean ====
section
/-! SUPPORT. Where the jobs of a state stand: `Placed` as a property of a view of the places alone (`placed_iff`), and what each
change of one place needs to keep it. -/

namespace Sys2Proof.Machine

open State

/-- Where the jobs of a state stand. -/
structure Spots where
  job : Nat → Option Job
  cur : EngineId → Option Nat
  next : EngineId → Option (Nat × LoadStage)
  parked : EngineId → Option (Nat × LoadStage)
  order : LaneId → List (Nat × LaneStage)
  delivery : Option Delivery
  rack : PosKey → List Nat
  shelf : PressId → List (Nat × PosId)
  work : PosKey → Option (Option Nat × Option Nat)

/-- A waiting job and its stage. -/
def waitSpot (w : Option WaitingCtx) : Option (Nat × LoadStage) := w.map fun w => (w.job, w.stage)

/-- The jobs of a lane order and their stages. -/
def orderSpots (o : List LaneEntry) : List (Nat × LaneStage) := o.map fun y => (y.job, y.stage)

/-- What a position holds of its jobs. -/
def workSpots (x : Option Position) : Option (Option Nat × Option Nat) :=
  x.map fun x => (x.work.current, x.work.mounted)

/-- Where the jobs of a state stand. -/
def spots (s : State) : Spots where
  job := s.job?
  cur := fun e => (s.engine e).ctx.current.map CurrentCtx.job
  next := fun e => waitSpot (s.engine e).ctx.next
  parked := fun e => waitSpot (s.engine e).ctx.parked
  order := fun l => orderSpots (s.lane l).floor.order
  delivery := s.sorter.delivery
  rack := s.rack
  shelf := s.shelf
  work := fun k => workSpots (s.pos? k)

namespace Spots

/-- A state in which a job has an engine and a correction. -/
abbrev isExposed (x : JobState) : Prop := x ∈ [JobState.exposing, .developing, .finishing, .uncertain]

/-- A waiting job as its place asks. -/
def Waits (v : Spots) (e : EngineId) (n : Nat) (x : LoadStage) : Prop :=
  ∃ j, v.job n = some j ∧ j.state = .assigned ∧ j.engine = some e ∧ (x = .exposeSent → j.applied ≠ none)

/-- A job in current as its place asks. -/
def Exposes (v : Spots) (e : EngineId) (n : Nat) : Prop :=
  ∃ j, v.job n = some j ∧ j.state = .exposing ∧ j.engine = some e ∧ j.applied ≠ none

/-- A job in a lane order as its place asks. -/
def Runs (v : Spots) (l : LaneId) (n : Nat) (x : LaneStage) : Prop :=
  ∃ j, v.job n = some j ∧ j.lane = some l ∧ j.state = if x = .inDeveloper then .developing else .finishing

/-- A job of a position in a state. -/
def Is (v : Spots) (n : Nat) (k : PosKey) (x : JobState) : Prop :=
  ∃ j, v.job n = some j ∧ j.key = k ∧ j.state = x

/-- `Placed`, of the places alone. -/
structure Ok (v : Spots) : Prop where
  next : ∀ e n x, v.next e = some (n, x) → v.Waits e n x
  parked : ∀ e n x, v.parked e = some (n, x) → v.Waits e n x
  apart : ∀ e n x m y, v.next e = some (n, x) → v.parked e = some (m, y) → n ≠ m
  current : ∀ e n, v.cur e = some n → v.Exposes e n
  order : ∀ l n x, (n, x) ∈ v.order l → v.Runs l n x
  once : ∀ l, ((v.order l).map Prod.fst).Nodup
  exposed : ∀ n j, v.job n = some j → isExposed j.state → j.engine ≠ none ∧ j.applied ≠ none
  delivery : ∀ d, v.delivery = some d → (d.job, .granted) ∈ v.order d.lane ∧ ∃ j, v.job d.job = some j ∧ Destined j d.dest
  racks : ∀ k n, n ∈ v.rack k → v.Is n k .racked
  shelves : ∀ p n q, (n, q) ∈ v.shelf p → v.Is n ⟨p, q⟩ .racked
  stacked : ∀ k, (v.rack k ++ ((v.shelf k.press).filter fun x => x.2 = k.pos).map Prod.fst).Nodup
  mounted : ∀ k c n, v.work k = some (c, some n) → v.Is n k .mounted
  own : ∀ k n m, v.work k = some (some n, m) → ∃ j, v.job n = some j ∧ j.key = k

end Spots

theorem waitSpot_some {w : Option WaitingCtx} {n x} : waitSpot w = some (n, x) ↔ ∃ y, w = some y ∧ y.job = n ∧ y.stage = x := by
  cases w <;> simp [waitSpot]

theorem workSpots_some {w : Option Position} {c m} :
    workSpots w = some (c, m) ↔ ∃ x, w = some x ∧ x.work.current = c ∧ x.work.mounted = m := by
  cases w <;> simp [workSpots]

theorem mem_orderSpots {o : List LaneEntry} {n x} : (n, x) ∈ orderSpots o ↔ ∃ y ∈ o, y.job = n ∧ y.stage = x := by
  simp [orderSpots]

theorem placed_iff (s : State) : Placed s ↔ (spots s).Ok := by
  constructor
  · intro h
    refine ⟨?_, ?_, ?_, ?_, ?_, ?_, h.exposed, ?_, h.racks, ?_, h.stacked, ?_, ?_⟩
    · rintro e n x hx
      obtain ⟨y, hy, rfl, rfl⟩ := waitSpot_some.1 hx
      exact h.next e y hy
    · rintro e n x hx
      obtain ⟨y, hy, rfl, rfl⟩ := waitSpot_some.1 hx
      exact h.parked e y hy
    · rintro e n x m y hx hy
      obtain ⟨a, ha, rfl, rfl⟩ := waitSpot_some.1 hx
      obtain ⟨b, hb, rfl, rfl⟩ := waitSpot_some.1 hy
      exact h.apart e a b ha hb
    · rintro e n hx
      simp only [spots, Option.map_eq_some_iff] at hx
      obtain ⟨w, hw, rfl⟩ := hx
      obtain ⟨j, h1, h2, h3, h4⟩ := h.current e w hw
      exact ⟨j, h1, h2, h3, h4 trivial⟩
    · rintro l n x hx
      obtain ⟨y, hy, rfl, rfl⟩ := mem_orderSpots.1 hx
      exact h.order l y hy
    · intro l
      simpa [spots, orderSpots, Function.comp_def] using h.once l
    · intro d hd
      obtain ⟨⟨y, hy, h1, h2⟩, h3⟩ := h.delivery d hd
      exact ⟨mem_orderSpots.2 ⟨y, hy, h1, h2⟩, h3⟩
    · exact fun p n q hx => h.shelves p (n, q) hx
    · intro k c n hx
      obtain ⟨x, h1, -, h2⟩ := workSpots_some.1 hx
      exact h.mounted k x n h1 h2
    · intro k n m hx
      obtain ⟨x, h1, h2, -⟩ := workSpots_some.1 hx
      exact h.own k x n h1 h2
  · intro h
    refine ⟨?_, ?_, ?_, ?_, ?_, ?_, h.exposed, ?_, h.racks, ?_, h.stacked, ?_, ?_⟩
    · exact fun e w hw => h.next e w.job w.stage (waitSpot_some.2 ⟨w, hw, rfl, rfl⟩)
    · exact fun e w hw => h.parked e w.job w.stage (waitSpot_some.2 ⟨w, hw, rfl, rfl⟩)
    · exact fun e v w hv hw => h.apart e _ _ _ _ (waitSpot_some.2 ⟨v, hv, rfl, rfl⟩) (waitSpot_some.2 ⟨w, hw, rfl, rfl⟩)
    · intro e w hw
      obtain ⟨j, h1, h2, h3, h4⟩ := h.current e w.job (by simp [spots, hw])
      exact ⟨j, h1, h2, h3, fun _ => h4⟩
    · exact fun l y hy => h.order l _ _ (mem_orderSpots.2 ⟨y, hy, rfl, rfl⟩)
    · intro l
      simpa [spots, orderSpots, Function.comp_def] using h.once l
    · intro d hd
      obtain ⟨h1, h2⟩ := h.delivery d hd
      obtain ⟨y, h3⟩ := mem_orderSpots.1 h1
      exact ⟨⟨y, h3⟩, h2⟩
    · exact fun p x hx => h.shelves p x.1 x.2 hx
    · exact fun k x n h1 h2 => h.mounted k x.work.current n (workSpots_some.2 ⟨x, h1, rfl, h2⟩)
    · exact fun k x n h1 h2 => h.own k n x.work.mounted (workSpots_some.2 ⟨x, h1, h2, rfl⟩)

namespace Spots

/-- A job stands nowhere. -/
structure Off (v : Spots) (n : Nat) : Prop where
  next : ∀ e x, v.next e ≠ some (n, x)
  parked : ∀ e x, v.parked e ≠ some (n, x)
  cur : ∀ e, v.cur e ≠ some n
  order : ∀ l x, (n, x) ∉ v.order l
  rack : ∀ k, n ∉ v.rack k
  shelf : ∀ p q, (n, q) ∉ v.shelf p
  mounted : ∀ k c, v.work k ≠ some (c, some n)

/-- Change a job. -/
def setJob (v : Spots) (n : Nat) (j : Option Job) : Spots := { v with job := Function.update v.job n j }

/-- Change an engine's contexts. -/
def setCtx (v : Spots) (e : EngineId) (c : Option Nat) (a b : Option (Nat × LoadStage)) : Spots :=
  { v with cur := Function.update v.cur e c, next := Function.update v.next e a, parked := Function.update v.parked e b }

/-- Change a lane order. -/
def setOrder (v : Spots) (l : LaneId) (o : List (Nat × LaneStage)) : Spots := { v with order := Function.update v.order l o }

/-- Change what a position holds. -/
def setWork (v : Spots) (k : PosKey) (w : Option (Option Nat × Option Nat)) : Spots :=
  { v with work := Function.update v.work k w }

/-- The new record of a job fits the places that the job holds. -/
structure Fits (v : Spots) (n : Nat) (j : Job) : Prop where
  next : ∀ e x, v.next e = some (n, x) → j.state = .assigned ∧ j.engine = some e ∧ (x = .exposeSent → j.applied ≠ none)
  parked : ∀ e x, v.parked e = some (n, x) → j.state = .assigned ∧ j.engine = some e ∧ (x = .exposeSent → j.applied ≠ none)
  cur : ∀ e, v.cur e = some n → j.state = .exposing ∧ j.engine = some e ∧ j.applied ≠ none
  order : ∀ l x, (n, x) ∈ v.order l → j.lane = some l ∧ j.state = if x = .inDeveloper then .developing else .finishing
  exposed : isExposed j.state → j.engine ≠ none ∧ j.applied ≠ none
  delivery : ∀ d, v.delivery = some d → d.job = n → Destined j d.dest
  rack : ∀ k, n ∈ v.rack k → j.key = k ∧ j.state = .racked
  shelf : ∀ p q, (n, q) ∈ v.shelf p → j.key = ⟨p, q⟩ ∧ j.state = .racked
  mounted : ∀ k c, v.work k = some (c, some n) → j.key = k ∧ j.state = .mounted
  own : ∀ k m, v.work k = some (some n, m) → j.key = k

theorem Ok.setJob {v : Spots} (h : v.Ok) {n : Nat} {j : Job} (hf : v.Fits n j) : (v.setJob n (some j)).Ok := by
  have key : ∀ {P : Job → Prop} m, (∃ i, v.job m = some i ∧ P i) → (m = n → P j) →
      ∃ i, (v.setJob n (some j)).job m = some i ∧ P i := by
    intro P m h1 h2
    by_cases e : m = n
    · subst e
      exact ⟨j, by simp [Spots.setJob], h2 rfl⟩
    · simpa [Spots.setJob, Function.update_of_ne e] using h1
  refine ⟨fun e m x hx => key m (h.next e m x hx) fun e' => ?_, fun e m x hx => key m (h.parked e m x hx) fun e' => ?_, h.apart,
    fun e m hx => key m (h.current e m hx) fun e' => ?_, fun l m x hx => key m (h.order l m x hx) fun e' => ?_, h.once, ?_,
    fun d hd => ⟨(h.delivery d hd).1, key d.job (h.delivery d hd).2 fun e' => hf.delivery d hd e'⟩,
    fun k m hx => key m (h.racks k m hx) fun e' => ?_, fun p m q hx => key m (h.shelves p m q hx) fun e' => ?_, h.stacked,
    fun k c m hx => key m (h.mounted k c m hx) fun e' => ?_, fun k m c hx => key m (h.own k m c hx) fun e' => ?_⟩
  · subst e'; exact hf.next e x hx
  · subst e'; exact hf.parked e x hx
  · subst e'; exact hf.cur e hx
  · subst e'; exact hf.order l x hx
  · intro m i hm
    by_cases e : m = n
    · subst e
      simp only [Spots.setJob, Function.update_self, Option.some.injEq] at hm
      subst hm
      exact hf.exposed
    · exact h.exposed m i (by simpa [Spots.setJob, Function.update_of_ne e] using hm)
  · subst e'; exact hf.rack k hx
  · subst e'; exact hf.shelf p q hx
  · subst e'; exact hf.mounted k c hx
  · subst e'; exact hf.own k c hx

theorem Off.fits {v : Spots} (h : v.Ok) {n : Nat} (ho : v.Off n) {i j : Job} (hi : v.job n = some i) (hk : j.key = i.key)
    (hx : isExposed j.state → j.engine ≠ none ∧ j.applied ≠ none) : v.Fits n j where
  next := fun e x hn => absurd hn (ho.next e x)
  parked := fun e x hn => absurd hn (ho.parked e x)
  cur := fun e hn => absurd hn (ho.cur e)
  order := fun l x hn => absurd hn (ho.order l x)
  exposed := hx
  delivery := fun d hd e => by
    have := (h.delivery d hd).1
    rw [e] at this
    exact absurd this (ho.order _ _)
  rack := fun k hn => absurd hn (ho.rack k)
  shelf := fun p q hn => absurd hn (ho.shelf p q)
  mounted := fun k c hn => absurd hn (ho.mounted k c)
  own := fun k m hn => by
    obtain ⟨i', h1, h2⟩ := h.own k n m hn
    rw [hi] at h1
    cases h1
    rw [hk, h2]

theorem Ok.fits_same {v : Spots} (h : v.Ok) {n : Nat} {i j : Job} (hi : v.job n = some i) (hk : j.key = i.key)
    (hs : j.state = i.state) (he : j.engine = i.engine) (hl : j.lane = i.lane)
    (ha : i.applied ≠ none → j.applied ≠ none) : v.Fits n j where
  next := fun e x hn => by
    obtain ⟨i', h1, h2, h3, h4⟩ := h.next e n x hn
    cases hi.symm.trans h1
    exact ⟨hs.trans h2, he.trans h3, fun hx => ha (h4 hx)⟩
  parked := fun e x hn => by
    obtain ⟨i', h1, h2, h3, h4⟩ := h.parked e n x hn
    cases hi.symm.trans h1
    exact ⟨hs.trans h2, he.trans h3, fun hx => ha (h4 hx)⟩
  cur := fun e hn => by
    obtain ⟨i', h1, h2, h3, h4⟩ := h.current e n hn
    cases hi.symm.trans h1
    exact ⟨hs.trans h2, he.trans h3, ha h4⟩
  order := fun l x hn => by
    obtain ⟨i', h1, h2, h3⟩ := h.order l n x hn
    cases hi.symm.trans h1
    exact ⟨hl.trans h2, hs.trans h3⟩
  exposed := fun hx => by
    rw [hs] at hx
    obtain ⟨h1, h2⟩ := h.exposed n i hi hx
    exact ⟨he ▸ h1, ha h2⟩
  delivery := fun d hd e => by
    obtain ⟨-, i', h1, h2⟩ := h.delivery d hd
    rw [e, hi] at h1
    cases h1
    have hp : j.press = i.press := congrArg PosKey.press hk
    unfold Destined at h2 ⊢
    split <;> simp_all
  rack := fun k hn => by
    obtain ⟨i', h1, h2, h3⟩ := h.racks k n hn
    cases hi.symm.trans h1
    exact ⟨hk.trans h2, hs.trans h3⟩
  shelf := fun p q hn => by
    obtain ⟨i', h1, h2, h3⟩ := h.shelves p n q hn
    cases hi.symm.trans h1
    exact ⟨hk.trans h2, hs.trans h3⟩
  mounted := fun k c hn => by
    obtain ⟨i', h1, h2, h3⟩ := h.mounted k c n hn
    cases hi.symm.trans h1
    exact ⟨hk.trans h2, hs.trans h3⟩
  own := fun k m hn => by
    obtain ⟨i', h1, h2⟩ := h.own k n m hn
    cases hi.symm.trans h1
    exact hk.trans h2

/-- A job whose record is not live, or that is in none of the states of a place, stands nowhere. -/
theorem Ok.off_of {v : Spots} (h : v.Ok) {n : Nat}
    (hn : ∀ j, v.job n = some j → j.state ∉ [.assigned, .exposing, .developing, .finishing, .racked, .mounted]) :
    v.Off n where
  next := fun e x hx => by
    obtain ⟨j, h1, h2, -⟩ := h.next e n x hx
    exact hn j h1 (by simp [h2])
  parked := fun e x hx => by
    obtain ⟨j, h1, h2, -⟩ := h.parked e n x hx
    exact hn j h1 (by simp [h2])
  cur := fun e hx => by
    obtain ⟨j, h1, h2, -⟩ := h.current e n hx
    exact hn j h1 (by simp [h2])
  order := fun l x hx => by
    obtain ⟨j, h1, -, h2⟩ := h.order l n x hx
    refine hn j h1 ?_
    rw [h2]; split <;> simp
  rack := fun k hx => by
    obtain ⟨j, h1, -, h2⟩ := h.racks k n hx
    exact hn j h1 (by simp [h2])
  shelf := fun p q hx => by
    obtain ⟨j, h1, -, h2⟩ := h.shelves p n q hx
    exact hn j h1 (by simp [h2])
  mounted := fun k c hx => by
    obtain ⟨j, h1, -, h2⟩ := h.mounted k c n hx
    exact hn j h1 (by simp [h2])

/-- The record of a job that is in no place may leave when no position has it as its current job. -/
theorem Ok.dropJob {v : Spots} (h : v.Ok) {n : Nat} (ho : v.Off n) (hc : ∀ k m, v.work k ≠ some (some n, m)) :
    (v.setJob n none).Ok := by
  have key : ∀ {P : Job → Prop} m, m ≠ n → (∃ i, v.job m = some i ∧ P i) → ∃ i, (v.setJob n none).job m = some i ∧ P i := by
    intro P m e h1
    simpa [Spots.setJob, Function.update_of_ne e] using h1
  refine ⟨fun e m x hx => key m ?_ (h.next e m x hx), fun e m x hx => key m ?_ (h.parked e m x hx), h.apart,
    fun e m hx => key m ?_ (h.current e m hx), fun l m x hx => key m ?_ (h.order l m x hx), h.once, ?_,
    fun d hd => ⟨(h.delivery d hd).1, key d.job ?_ (h.delivery d hd).2⟩,
    fun k m hx => key m ?_ (h.racks k m hx), fun p m q hx => key m ?_ (h.shelves p m q hx), h.stacked,
    fun k c m hx => key m ?_ (h.mounted k c m hx), fun k m c hx => key m ?_ (h.own k m c hx)⟩
  · rintro rfl; exact ho.next e x hx
  · rintro rfl; exact ho.parked e x hx
  · rintro rfl; exact ho.cur e hx
  · rintro rfl; exact ho.order l x hx
  · intro m i hm
    by_cases e : m = n
    · subst e; simp [Spots.setJob] at hm
    · exact h.exposed m i (by simpa [Spots.setJob, Function.update_of_ne e] using hm)
  · intro e; exact ho.order _ _ (e ▸ (h.delivery d hd).1)
  · rintro rfl; exact ho.rack k hx
  · rintro rfl; exact ho.shelf p q hx
  · rintro rfl; exact ho.mounted k c hx
  · rintro rfl; exact hc k c hx

/-- A record that enters under a free number. -/
theorem Ok.addJob {v : Spots} (h : v.Ok) {n : Nat} {j : Job} (hn : v.job n = none) (hx : ¬ isExposed j.state) :
    (v.setJob n (some j)).Ok := by
  refine h.setJob ⟨fun e x hx => ?_, fun e x hx => ?_, fun e hx => ?_, fun l x hx => ?_, fun h => absurd h hx, fun d hd e => ?_,
    fun k hx => ?_, fun p q hx => ?_, fun k c hx => ?_, fun k m hx => ?_⟩
  · obtain ⟨i, h1, -⟩ := h.next e n x hx; rw [hn] at h1; cases h1
  · obtain ⟨i, h1, -⟩ := h.parked e n x hx; rw [hn] at h1; cases h1
  · obtain ⟨i, h1, -⟩ := h.current e n hx; rw [hn] at h1; cases h1
  · obtain ⟨i, h1, -⟩ := h.order l n x hx; rw [hn] at h1; cases h1
  · obtain ⟨-, i, h1, -⟩ := h.delivery d hd; rw [e, hn] at h1; cases h1
  · obtain ⟨i, h1, -⟩ := h.racks k n hx; rw [hn] at h1; cases h1
  · obtain ⟨i, h1, -⟩ := h.shelves p n q hx; rw [hn] at h1; cases h1
  · obtain ⟨i, h1, -⟩ := h.mounted k c n hx; rw [hn] at h1; cases h1
  · obtain ⟨i, h1, -⟩ := h.own k n m hx; rw [hn] at h1; cases h1

/-- New contexts of an engine. -/
theorem Ok.setCtx {v : Spots} (h : v.Ok) (e : EngineId) {c : Option Nat} {a b : Option (Nat × LoadStage)}
    (hc : ∀ n, c = some n → v.Exposes e n) (ha : ∀ n x, a = some (n, x) → v.Waits e n x)
    (hb : ∀ n x, b = some (n, x) → v.Waits e n x) (hab : ∀ n x m y, a = some (n, x) → b = some (m, y) → n ≠ m) :
    (v.setCtx e c a b).Ok := by
  refine ⟨fun e' n x hx => ?_, fun e' n x hx => ?_, fun e' n x m y hx hy => ?_, fun e' n hx => ?_, h.order, h.once, h.exposed,
    h.delivery, h.racks, h.shelves, h.stacked, h.mounted, h.own⟩
  · simp only [Spots.setCtx, Function.update_apply] at hx
    split at hx
    · rename_i e2; subst e2; exact ha n x hx
    · exact h.next e' n x hx
  · simp only [Spots.setCtx, Function.update_apply] at hx
    split at hx
    · rename_i e2; subst e2; exact hb n x hx
    · exact h.parked e' n x hx
  · simp only [Spots.setCtx, Function.update_apply] at hx hy
    split at hx
    · rename_i e2; subst e2; simp only [if_true] at hy; exact hab n x m y hx hy
    · rename_i e2; simp only [e2, if_false] at hy; exact h.apart e' n x m y hx hy
  · simp only [Spots.setCtx, Function.update_apply] at hx
    split at hx
    · rename_i e2; subst e2; exact hc n hx
    · exact h.current e' n hx

/-- A new lane order, where the granted plate of the delivery stays. -/
theorem Ok.setOrder {v : Spots} (h : v.Ok) (l : LaneId) {o : List (Nat × LaneStage)}
    (ho : ∀ n x, (n, x) ∈ o → v.Runs l n x) (hn : (o.map Prod.fst).Nodup)
    (hd : ∀ d, v.delivery = some d → d.lane = l → (d.job, .granted) ∈ o) : (v.setOrder l o).Ok := by
  refine ⟨h.next, h.parked, h.apart, h.current, fun l' n x hx => ?_, fun l' => ?_, h.exposed,
    fun d hdel => ⟨?_, (h.delivery d hdel).2⟩, h.racks, h.shelves, h.stacked, h.mounted, h.own⟩
  · simp only [Spots.setOrder, Function.update_apply] at hx
    split at hx
    · rename_i e; subst e; exact ho n x hx
    · exact h.order l' n x hx
  · simp only [Spots.setOrder, Function.update_apply]
    split
    · exact hn
    · exact h.once l'
  · simp only [Spots.setOrder, Function.update_apply]
    split
    · rename_i e; exact hd d hdel e
    · exact (h.delivery d hdel).1

/-- No delivery. -/
theorem Ok.noDelivery {v : Spots} (h : v.Ok) : ({ v with delivery := none } : Spots).Ok :=
  ⟨h.next, h.parked, h.apart, h.current, h.order, h.once, h.exposed, nofun, h.racks, h.shelves, h.stacked, h.mounted, h.own⟩

/-- A delivery of a granted plate. -/
theorem Ok.deliver {v : Spots} (h : v.Ok) {d : Delivery} (h1 : (d.job, .granted) ∈ v.order d.lane)
    (h2 : ∃ j, v.job d.job = some j ∧ Destined j d.dest) : ({ v with delivery := some d } : Spots).Ok :=
  ⟨h.next, h.parked, h.apart, h.current, h.order, h.once, h.exposed, fun d' e => by cases e; exact ⟨h1, h2⟩, h.racks, h.shelves,
    h.stacked, h.mounted, h.own⟩

/-- Other plates in a rack slot or on a shelf. -/
theorem Ok.setStacks {v : Spots} (h : v.Ok) {r : PosKey → List Nat} {f : PressId → List (Nat × PosId)}
    (hr : ∀ k n, n ∈ r k → v.Is n k .racked) (hf : ∀ p n q, (n, q) ∈ f p → v.Is n ⟨p, q⟩ .racked)
    (hs : ∀ k, (r k ++ ((f k.press).filter fun x => x.2 = k.pos).map Prod.fst).Nodup) :
    ({ v with rack := r, shelf := f } : Spots).Ok :=
  ⟨h.next, h.parked, h.apart, h.current, h.order, h.once, h.exposed, h.delivery, hr, hf, hs, h.mounted, h.own⟩

/-- Other work at a position. -/
theorem Ok.setWork {v : Spots} (h : v.Ok) (k : PosKey) {w : Option (Option Nat × Option Nat)}
    (hm : ∀ c n, w = some (c, some n) → v.Is n k .mounted)
    (hc : ∀ n m, w = some (some n, m) → ∃ j, v.job n = some j ∧ j.key = k) : (v.setWork k w).Ok := by
  refine ⟨h.next, h.parked, h.apart, h.current, h.order, h.once, h.exposed, h.delivery, h.racks, h.shelves, h.stacked,
    fun k' c n hx => ?_, fun k' n m hx => ?_⟩
  · simp only [Spots.setWork, Function.update_apply] at hx
    split at hx
    · rename_i e; subst e; exact hm c n hx
    · exact h.mounted k' c n hx
  · simp only [Spots.setWork, Function.update_apply] at hx
    split at hx
    · rename_i e; subst e; exact hc n m hx
    · exact h.own k' n m hx

end Spots
end Sys2Proof.Machine
end

