-- ==== Sys2Proof/Laws/Queue.lean ====
section
/-! SUPPORT. Laws/Queue.lean: the requests that wait at a port have no part in what the machine does but for QUERY_PART:
every operation of a request gives the same whatever waits there, and leaves it waiting. -/

namespace Sys2Proof.Machine

open State

/-- These requests wait at a port, in place of those that did. -/
def putQueue (p : PortId) (q : List Received) (s : State) : State := s.modLink p fun l => { l with queue := q }

namespace PutQueue

variable (p : PortId) (q : List Received) (s : State)

/-! ### What is read -/

@[simp] theorem clock : (putQueue p q s).clock = s.clock := rfl
@[simp] theorem pages : (putQueue p q s).pages = s.pages := rfl
@[simp] theorem slots : (putQueue p q s).slots = s.slots := rfl
@[simp] theorem plan : (putQueue p q s).plan = s.plan := rfl
@[simp] theorem jobs : (putQueue p q s).jobs = s.jobs := rfl
@[simp] theorem starved : (putQueue p q s).starved = s.starved := rfl
@[simp] theorem sorter : (putQueue p q s).sorter = s.sorter := rfl
@[simp] theorem line : (putQueue p q s).line = s.line := rfl
@[simp] theorem limits : (putQueue p q s).limits = s.limits := rfl
@[simp] theorem restart : (putQueue p q s).restart = s.restart := rfl
@[simp] theorem job? (n : Nat) : (putQueue p q s).job? n = s.job? n := rfl
@[simp] theorem page? (n : Nat) : (putQueue p q s).page? n = s.page? n := rfl
@[simp] theorem pos? (k : PosKey) : (putQueue p q s).pos? k = s.pos? k := rfl
@[simp] theorem slot? (k : SlotKey) : (putQueue p q s).slot? k = s.slot? k := rfl
@[simp] theorem rack (k : PosKey) : (putQueue p q s).rack k = s.rack k := rfl
@[simp] theorem engine (e : EngineId) : (putQueue p q s).engine e = s.engine e := rfl
@[simp] theorem register (e : EngineId) : (putQueue p q s).register e = s.register e := rfl
@[simp] theorem lane (l : LaneId) : (putQueue p q s).lane l = s.lane l := rfl
@[simp] theorem press (x : PressId) : (putQueue p q s).press x = s.press x := rfl
@[simp] theorem stage (x : PressId) : (putQueue p q s).stage x = s.stage x := rfl
@[simp] theorem shelf (x : PressId) : (putQueue p q s).shelf x = s.shelf x := rfl
@[simp] theorem jobState (n : Nat) : (putQueue p q s).jobState n = s.jobState n := rfl
@[simp] theorem attemptOf (n : Nat) : (putQueue p q s).attemptOf n = s.attemptOf n := rfl
@[simp] theorem atAttempt (n a : Nat) : (putQueue p q s).atAttempt n a = s.atAttempt n a := rfl
@[simp] theorem required (x : Separation) (n : Nat) : (putQueue p q s).required x n = s.required x n := rfl
@[simp] theorem unused (c : Content) : (putQueue p q s).unused c = s.unused c := rfl
@[simp] theorem satisfied (x : Position) : (putQueue p q s).satisfied x = s.satisfied x := rfl
@[simp] theorem positionsOf (x : PressId) : (putQueue p q s).positionsOf x = s.positionsOf x := rfl
@[simp] theorem positionsNaming (n : Nat) : (putQueue p q s).positionsNaming n = s.positionsNaming n := rfl
@[simp] theorem offered (c : JobClass) : (putQueue p q s).offered c = s.offered c := rfl
@[simp] theorem eligible (e : EngineId) (n : Nat) (j : Job) : (putQueue p q s).eligible e n j = s.eligible e n j := rfl
@[simp] theorem laneLoad (l : LaneId) : (putQueue p q s).laneLoad l = s.laneLoad l := rfl
@[simp] theorem laneRoom (l : LaneId) : (putQueue p q s).laneRoom l = s.laneRoom l := rfl
@[simp] theorem exposeChoice (l : LaneId) : (putQueue p q s).exposeChoice l = s.exposeChoice l := rfl
@[simp] theorem runningEngines : (putQueue p q s).runningEngines = s.runningEngines := rfl
@[simp] theorem colourQueued : (putQueue p q s).colourQueued = s.colourQueued := rfl
@[simp] theorem colourStarvedNow : (putQueue p q s).colourStarvedNow = s.colourStarvedNow := rfl
@[simp] theorem destinationOf (j : Job) : (putQueue p q s).destinationOf j = s.destinationOf j := rfl
@[simp] theorem exitJob (l : LaneId) : (putQueue p q s).exitJob l = s.exitJob l := rfl
@[simp] theorem grantChoice : (putQueue p q s).grantChoice = s.grantChoice := rfl
@[simp] theorem slotsOfPage (n : Nat) : Machine.slotsOfPage (putQueue p q s) n = Machine.slotsOfPage s n := rfl
@[simp] theorem nextNumber : Machine.nextNumber (putQueue p q s) = Machine.nextNumber s := rfl
@[simp] theorem newJob (k : PosKey) (x : Position) : Machine.newJob (putQueue p q s) k x = Machine.newJob s k x := rfl
@[simp] theorem needsJob (x : Position) : Machine.needsJob (putQueue p q s) x = Machine.needsJob s x := rfl
@[simp] theorem loadRefs (j : Job) : Machine.loadRefs (putQueue p q s) j = Machine.loadRefs s j := rfl
@[simp] theorem firstFor (e : EngineId) : Machine.firstFor (putQueue p q s) e = Machine.firstFor s e := rfl
@[simp] theorem preemptChoice (n : Nat) (j : Job) :
    Machine.preemptChoice (putQueue p q s) n j = Machine.preemptChoice s n j := rfl
@[simp] theorem engineMarks : Machine.engineMarks (putQueue p q s) = Machine.engineMarks s := rfl
@[simp] theorem laneMarks : Machine.laneMarks (putQueue p q s) = Machine.laneMarks s := rfl
@[simp] theorem allAtRest : Machine.allAtRest (putQueue p q s) = Machine.allAtRest s := rfl
@[simp] theorem deferredOrder : Machine.deferredOrder (putQueue p q s) = Machine.deferredOrder s := rfl
@[simp] theorem contextOf (n : Nat) : Machine.contextOf (putQueue p q s) n = Machine.contextOf s n := rfl
@[simp] theorem sentExpose (n : Nat) : Machine.sentExpose (putQueue p q s) n = Machine.sentExpose s n := rfl
@[simp] theorem rackPlace (n : Nat) (j : Job) : Machine.rackPlace (putQueue p q s) n j = Machine.rackPlace s n j := rfl
@[simp] theorem evictNext (e : EngineId) : Machine.evictNext (putQueue p q s) e = Machine.evictNext s e := rfl
@[simp] theorem evictParked (e : EngineId) : Machine.evictParked (putQueue p q s) e = Machine.evictParked s e := rfl
@[simp] theorem evictCount (e : EngineId) : Machine.evictCount (putQueue p q s) e = Machine.evictCount s e := rfl
@[simp] theorem freeSlots : Machine.freeSlots (putQueue p q s) = Machine.freeSlots s := rfl
@[simp] theorem freePages : Machine.freePages (putQueue p q s) = Machine.freePages s := rfl
@[simp] theorem currentSlots (n : Nat) : Machine.currentSlots (putQueue p q s) n = Machine.currentSlots s n := rfl
@[simp] theorem arrivalAnswer (o n : Nat) :
    Machine.arrivalAnswer o n (putQueue p q s) = Machine.arrivalAnswer o n s := rfl
@[simp] theorem revisionRoom (n : Nat) : Machine.revisionRoom (putQueue p q s) n = Machine.revisionRoom s n := rfl
@[simp] theorem replacedJobs (k : SlotKey) : Machine.replacedJobs (putQueue p q s) k = Machine.replacedJobs s k := rfl
@[simp] theorem liveContent (k : PosKey) : Machine.liveContent (putQueue p q s) k = Machine.liveContent s k := rfl
@[simp] theorem stageCopy (x : PressId) : Machine.stageCopy (putQueue p q s) x = Machine.stageCopy s x := rfl
@[simp] theorem newPageIds (x : Stage) : Machine.newPageIds (putQueue p q s) x = Machine.newPageIds s x := rfl
@[simp] theorem addedPosition (n : Nat) (c : Content) :
    Machine.addedPosition (putQueue p q s) n c = Machine.addedPosition s n c := rfl
@[simp] theorem requeueAnswer (k : PosKey) : Machine.requeueAnswer (putQueue p q s) k = Machine.requeueAnswer s k := rfl
@[simp] theorem pullable (k : PosKey) : Machine.pullable (putQueue p q s) k = Machine.pullable s k := rfl
@[simp] theorem heldGate (u : UnitId) : Machine.heldGate (putQueue p q s) u = Machine.heldGate s u := by cases u <;> rfl
@[simp] theorem stepGate (u : UnitId) : Machine.stepGate (putQueue p q s) u = Machine.stepGate s u := by cases u <;> rfl
@[simp] theorem policyOfUnit (u : UnitId) : Machine.policyOfUnit (putQueue p q s) u = Machine.policyOfUnit s u := by
  cases u <;> rfl
@[simp] theorem stoppingNotice : Machine.stoppingNotice (putQueue p q s) = Machine.stoppingNotice s := rfl
@[simp] theorem hasEntry (l : LaneId) (n a : Nat) (x : LaneStage) :
    Machine.hasEntry (putQueue p q s) l n a x = Machine.hasEntry s l n a x := rfl
@[simp] theorem soundTagOf (r : InspectReport) : Machine.soundTagOf (putQueue p q s) r = Machine.soundTagOf s r := rfl
@[simp] theorem strayReason (l : LaneId) (n : Nat) :
    Machine.strayReason (putQueue p q s) l n = Machine.strayReason s l n := rfl
@[simp] theorem uncertainHere (l : LaneId) (n : Nat) :
    Machine.uncertainHere (putQueue p q s) l n = Machine.uncertainHere s l n := rfl
@[simp] theorem uncertainJobs (f : Job → Bool) :
    Machine.uncertainJobs (putQueue p q s) f = Machine.uncertainJobs s f := rfl
@[simp] theorem anyClearing : Machine.anyClearing (putQueue p q s) = Machine.anyClearing s := rfl
@[simp] theorem limitValue (x : LimitName) (l : LaneId) :
    Machine.limitValue (putQueue p q s) x l = Machine.limitValue s x l := by cases x <;> rfl
@[simp] theorem queryPage (n : U16) : Machine.queryPage n (putQueue p q s) = Machine.queryPage n s := rfl
@[simp] theorem queryPosition (a b : Byte) :
    Machine.queryPosition a b (putQueue p q s) = Machine.queryPosition a b s := rfl
@[simp] theorem queryJob (n : U16) : Machine.queryJob n (putQueue p q s) = Machine.queryJob n s := rfl
@[simp] theorem queryEngine (b : Byte) : Machine.queryEngine b (putQueue p q s) = Machine.queryEngine b s := rfl
@[simp] theorem queryLane (b : Byte) : Machine.queryLane b (putQueue p q s) = Machine.queryLane b s := rfl
@[simp] theorem queryPress (b : Byte) : Machine.queryPress b (putQueue p q s) = Machine.queryPress b s := rfl

/-- A port's rights. -/
@[simp] theorem rights (x : PortId) : ((putQueue p q s).port x).rights = (s.port x).rights := by
  rw [putQueue, port_modLink]; split <;> rfl

/-- A port's mask. -/
@[simp] theorem mask (x : PortId) : ((putQueue p q s).port x).mask = (s.port x).mask := by
  rw [putQueue, port_modLink]; split <;> rfl

end PutQueue

section

variable (p : PortId) (q : List Received) (s : State)

/-! ### What is written -/

@[simp] theorem send_putQueue (c : LineCommand) : (putQueue p q s).send c = putQueue p q (s.send c) := (rfl)
@[simp] theorem modCtx_putQueue (e : EngineId) (f : Contexts → Contexts) :
    (putQueue p q s).modCtx e f = putQueue p q (s.modCtx e f) := (rfl)
@[simp] theorem setStarved_putQueue (b : Bool) : (putQueue p q s).setStarved b = putQueue p q (s.setStarved b) := (rfl)
@[simp] theorem modJob_putQueue (n : Nat) (f : Job → Job) :
    (putQueue p q s).modJob n f = putQueue p q (s.modJob n f) := (rfl)
@[simp] theorem addJob_putQueue (n : Nat) (j : Job) : (putQueue p q s).addJob n j = putQueue p q (s.addJob n j) := (rfl)
@[simp] theorem dropJob_putQueue (n : Nat) : (putQueue p q s).dropJob n = putQueue p q (s.dropJob n) := (rfl)
@[simp] theorem bumpEntry_putQueue : (putQueue p q s).bumpEntry = putQueue p q s.bumpEntry := (rfl)
@[simp] theorem modWork_putQueue (k : PosKey) (f : PosWork → PosWork) :
    (putQueue p q s).modWork k f = putQueue p q (s.modWork k f) := (rfl)
@[simp] theorem modLive_putQueue (n : Nat) (f : Nat → Nat) :
    (putQueue p q s).modLive n f = putQueue p q (s.modLive n f) := (rfl)
@[simp] theorem dropPage_putQueue (n : Nat) : (putQueue p q s).dropPage n = putQueue p q (s.dropPage n) := (rfl)
@[simp] theorem modCount_putQueue (k : SlotKey) (f : Nat → Nat) :
    (putQueue p q s).modCount k f = putQueue p q (s.modCount k f) := (rfl)
@[simp] theorem dropSlot_putQueue (k : SlotKey) : (putQueue p q s).dropSlot k = putQueue p q (s.dropSlot k) := (rfl)
@[simp] theorem setPressState_putQueue (x : PressId) (st : PressState) :
    (putQueue p q s).setPressState x st = putQueue p q (s.setPressState x st) := (rfl)
@[simp] theorem setUnsatisfied_putQueue (x : PressId) (n : Nat) :
    (putQueue p q s).setUnsatisfied x n = putQueue p q (s.setUnsatisfied x n) := (rfl)
@[simp] theorem setRack_putQueue (k : PosKey) (l : List Nat) :
    (putQueue p q s).setRack k l = putQueue p q (s.setRack k l) := (rfl)
@[simp] theorem setShelf_putQueue (x : PressId) (l : List (Nat × PosId)) :
    (putQueue p q s).setShelf x l = putQueue p q (s.setShelf x l) := (rfl)
@[simp] theorem modFloor_putQueue (l : LaneId) (f : LaneFloor → LaneFloor) :
    (putQueue p q s).modFloor l f = putQueue p q (s.modFloor l f) := (rfl)
@[simp] theorem stopLane_putQueue (l : LaneId) : (putQueue p q s).stopLane l = putQueue p q (s.stopLane l) := (rfl)
@[simp] theorem useLaneStep_putQueue (l : LaneId) :
    (putQueue p q s).useLaneStep l = putQueue p q (s.useLaneStep l) := (rfl)
@[simp] theorem setDelivery_putQueue (d : Option Delivery) :
    (putQueue p q s).setDelivery d = putQueue p q (s.setDelivery d) := (rfl)
@[simp] theorem useSorterStep_putQueue : (putQueue p q s).useSorterStep = putQueue p q s.useSorterStep := (rfl)
@[simp] theorem setReached_putQueue (es : Vector Bool 6) (ls : Vector Bool 2) :
    (putQueue p q s).setReached es ls = putQueue p q (s.setReached es ls) := (rfl)
@[simp] theorem setStopped_putQueue : (putQueue p q s).setStopped = putQueue p q s.setStopped := (rfl)
@[simp] theorem setClock_putQueue (t : Nat) : (putQueue p q s).setClock t = putQueue p q (s.setClock t) := (rfl)
@[simp] theorem putPage_putQueue (n : Nat) (r : PageRec) :
    (putQueue p q s).putPage n r = putQueue p q (s.putPage n r) := (rfl)
@[simp] theorem putSlot_putQueue (k : SlotKey) (x : Slot) :
    (putQueue p q s).putSlot k x = putQueue p q (s.putSlot k x) := (rfl)
@[simp] theorem modSlot_putQueue (k : SlotKey) (f : Slot → Slot) :
    (putQueue p q s).modSlot k f = putQueue p q (s.modSlot k f) := (rfl)
@[simp] theorem modPos_putQueue (k : PosKey) (f : Position → Position) :
    (putQueue p q s).modPos k f = putQueue p q (s.modPos k f) := (rfl)
@[simp] theorem putPos_putQueue (k : PosKey) (x : Position) :
    (putQueue p q s).putPos k x = putQueue p q (s.putPos k x) := (rfl)
@[simp] theorem dropPos_putQueue (k : PosKey) : (putQueue p q s).dropPos k = putQueue p q (s.dropPos k) := (rfl)
@[simp] theorem setStage_putQueue (x : PressId) (t : Stage) :
    (putQueue p q s).setStage x t = putQueue p q (s.setStage x t) := (rfl)
@[simp] theorem modPress_putQueue (x : PressId) (f : Press → Press) :
    (putQueue p q s).modPress x f = putQueue p q (s.modPress x f) := (rfl)
@[simp] theorem modStatus_putQueue (e : EngineId) (f : EngineStatus → EngineStatus) :
    (putQueue p q s).modStatus e f = putQueue p q (s.modStatus e f) := (rfl)
@[simp] theorem modGates_putQueue (e : EngineId) (f : Gates → Gates) :
    (putQueue p q s).modGates e f = putQueue p q (s.modGates e f) := (rfl)
@[simp] theorem setRegister_putQueue (e : EngineId) (r : Register) :
    (putQueue p q s).setRegister e r = putQueue p q (s.setRegister e r) := (rfl)
@[simp] theorem modLane_putQueue (l : LaneId) (f : Lane → Lane) :
    (putQueue p q s).modLane l f = putQueue p q (s.modLane l f) := (rfl)
@[simp] theorem modSorter_putQueue (f : Sorter → Sorter) :
    (putQueue p q s).modSorter f = putQueue p q (s.modSorter f) := (rfl)
@[simp] theorem modLine_putQueue (f : LineControl → LineControl) :
    (putQueue p q s).modLine f = putQueue p q (s.modLine f) := (rfl)
@[simp] theorem modLimits_putQueue (f : Limits → Limits) :
    (putQueue p q s).modLimits f = putQueue p q (s.modLimits f) := (rfl)
@[simp] theorem modRestart_putQueue (f : Restart → Restart) :
    (putQueue p q s).modRestart f = putQueue p q (s.modRestart f) := (rfl)

/-- Two changes of the ports that agree port by port are the same. -/
theorem ports_ext {s t u : State} (hs : t = { s with ports := t.ports }) (hu : u = { s with ports := u.ports })
    (h : ∀ x, t.port x = u.port x) : t = u := by
  have hp : t.ports = u.ports := Vector.ext fun i hi => h ⟨i, hi⟩
  rw [hs, hu, hp]

/-- A change of a link that neither reads nor writes its queue. -/
theorem modLink_putQueue (x : PortId) (f : Link → Link) (h : ∀ l, f { l with queue := q } = { f l with queue := q }) :
    (putQueue p q s).modLink x f = putQueue p q (s.modLink x f) := by
  refine ports_ext (s := s) rfl rfl fun y => ?_
  simp only [putQueue, port_modLink]
  split <;> split <;> simp_all

@[simp] theorem setRights_putQueue (x : PortId) (r : Rights) :
    (putQueue p q s).setRights x r = putQueue p q (s.setRights x r) := by
  refine ports_ext (s := s) rfl rfl fun y => ?_
  simp only [putQueue, port_modLink, port_setRights]
  split <;> split <;> simp_all

@[simp] theorem setMask_putQueue (x : PortId) (m : Mask) :
    (putQueue p q s).setMask x m = putQueue p q (s.setMask x m) := by
  refine ports_ext (s := s) rfl rfl fun y => ?_
  simp only [putQueue, port_modLink, port_setMask]
  split <;> split <;> simp_all

/-- A frame joins the links it is offered to whatever waits there. -/
theorem offer_queue (time : Nat) (n : Notice) (l : Link) :
    Link.offer time n { l with queue := q } = { Link.offer time n l with queue := q } := by
  unfold Link.offer Link.pump Link.nextSource
  simp only [Link.noticeCount]
  split
  · split
    · split
      · rfl
      · rfl
    · rfl
  · rfl

/-- The answer to the request in hand joins the output list whatever waits. -/
theorem answer_queue (tag : Byte) (kind : U16) (a : Answer) (l : Link) :
    Link.answer tag kind a { l with queue := q } = { Link.answer tag kind a l with queue := q } := by
  unfold Link.answer Link.pump Link.nextSource
  dsimp only
  split <;> rfl

@[simp] theorem offerTo_putQueue (n : Notice) (x : PortId) :
    offerTo n x (putQueue p q s) = putQueue p q (offerTo n x s) := by
  unfold offerTo
  rw [PutQueue.mask, PutQueue.clock]
  split
  · exact modLink_putQueue p q s x _ (offer_queue q _ _)
  · rfl

end

/-- What is done in one case or the other. -/
@[simp] theorem ite_putQueue (p : PortId) (q : List Received) (c : Prop) {d : Decidable c} (s t : State) :
    (if c then putQueue p q s else putQueue p q t) = putQueue p q (if c then s else t) :=
  (apply_ite (putQueue p q) c s t).symm

/-- What is done in turn for each element of a list. -/
@[simp] theorem foldl_putQueue {α : Type} (p : PortId) (q : List Received) (f : State → α → State)
    (h : ∀ s a, f (putQueue p q s) a = putQueue p q (f s a)) (l : List α) (s : State) :
    l.foldl f (putQueue p q s) = putQueue p q (l.foldl f s) := by
  induction l generalizing s with
  | nil => rfl
  | cons a l ih => rw [List.foldl_cons, h, ih, List.foldl_cons]

section

variable (p : PortId) (q : List Received) (s : State)

@[simp] theorem raise_putQueue (n : Notice) : raise n (putQueue p q s) = putQueue p q (raise n s) := by simp [raise]

/-! ### The job table -/

@[simp] theorem freeIfDone_putQueue (k : SlotKey) : freeIfDone k (putQueue p q s) = putQueue p q (freeIfDone k s) := by
  unfold freeIfDone; simp only [PutQueue.slot?]; split <;> simp
@[simp] theorem takeRef_putQueue (k : SlotKey) : takeRef k (putQueue p q s) = putQueue p q (takeRef k s) := (rfl)
@[simp] theorem releaseRef_putQueue (k : SlotKey) : releaseRef k (putQueue p q s) = putQueue p q (releaseRef k s) := by
  simp [releaseRef]
@[simp] theorem takeRefs_putQueue (ks : List SlotKey) :
    takeRefs ks (putQueue p q s) = putQueue p q (takeRefs ks s) := by
  simp [takeRefs]
@[simp] theorem releaseRefs_putQueue (ks : List SlotKey) :
    releaseRefs ks (putQueue p q s) = putQueue p q (releaseRefs ks s) := by simp [releaseRefs]
@[simp] theorem evalPress_putQueue (x : PressId) : evalPress x (putQueue p q s) = putQueue p q (evalPress x s) := by
  unfold evalPress
  simp only [PutQueue.press, setPressState_putQueue]
  rw [apply_ite (putQueue p q)]
  congr 1
  split <;> simp
@[simp] theorem tellSatisfied_putQueue (k : PosKey) :
    tellSatisfied k (putQueue p q s) = putQueue p q (tellSatisfied k s) := by
  unfold tellSatisfied; simp only [PutQueue.pos?]; split <;> [rfl; (simp; rfl)]
@[simp] theorem tellAll_putQueue (ks : List PosKey) : tellAll ks (putQueue p q s) = putQueue p q (tellAll ks s) := by
  simp [tellAll]
@[simp] theorem removePage_putQueue (n : Nat) (r : PageRec) :
    removePage n r (putQueue p q s) = putQueue p q (removePage n r s) := by simp [removePage]
@[simp] theorem lowerLive_putQueue (n : Nat) : lowerLive n (putQueue p q s) = putQueue p q (lowerLive n s) := by
  unfold lowerLive; simp only [modLive_putQueue, PutQueue.page?]; split <;> simp
@[simp] theorem evalStarved_putQueue : evalStarved (putQueue p q s) = putQueue p q (evalStarved s) := by
  simp [evalStarved]
@[simp] theorem createJob_putQueue (k : PosKey) (x : Position) :
    createJob k x (putQueue p q s) = putQueue p q (createJob k x s) := by simp [createJob]
@[simp] theorem needTest_putQueue (k : PosKey) : needTest k (putQueue p q s) = putQueue p q (needTest k s) := by
  unfold needTest; simp only [PutQueue.pos?]; split <;> simp
@[simp] theorem departCore_putQueue (n : Nat) (x : JobState) :
    departCore n x (putQueue p q s) = putQueue p q (departCore n x s) := by
  unfold departCore; simp only [PutQueue.job?]; split <;> simp
@[simp] theorem recordFault_putQueue (n : Nat) (c : FaultCause) (x : FaultParam) :
    recordFault n c x (putQueue p q s) = putQueue p q (recordFault n c x s) := (rfl)
@[simp] theorem retakeRefs_putQueue (j : Job) : retakeRefs j (putQueue p q s) = putQueue p q (retakeRefs j s) := by
  simp [retakeRefs]
@[simp] theorem enterQueue_putQueue (n a : Nat) :
    enterQueue n a (putQueue p q s) = putQueue p q (enterQueue n a s) := (rfl)
@[simp] theorem requeue_putQueue (n a : Nat) (r : RequeueReason) (f : Option FaultRecord) :
    requeue n a r f (putQueue p q s) = putQueue p q (requeue n a r f s) := by
  unfold requeue; simp only [PutQueue.job?]; split <;> simp
@[simp] theorem failJob_putQueue (n : Nat) : failJob n (putQueue p q s) = putQueue p q (failJob n s) := by
  unfold failJob; simp only [PutQueue.job?]; split <;> [rfl; (split <;> simp)]
@[simp] theorem spoilDecision_putQueue (n : Nat) :
    spoilDecision n (putQueue p q s) = putQueue p q (spoilDecision n s) := by
  unfold spoilDecision
  simp only [PutQueue.job?]
  split
  · rfl
  · rw [apply_ite (putQueue p q)]
    congr 1
    · split <;> simp
    · simp

/-! ### The reactions -/

@[simp] theorem assign_putQueue (e : EngineId) (n : Nat) (j : Job) :
    assign e n j (putQueue p q s) = putQueue p q (assign e n j s) := by simp [assign]
@[simp] theorem fill_putQueue (e : EngineId) : fill e (putQueue p q s) = putQueue p q (fill e s) := by
  unfold fill
  rw [PutQueue.engine, PutQueue.firstFor, apply_ite (putQueue p q)]
  congr 1
  split <;> simp
@[simp] theorem fillAll_putQueue : fillAll (putQueue p q s) = putQueue p q (fillAll s) := by simp [fillAll]
@[simp] theorem preemptOn_putQueue (e : EngineId) (n : Nat) (j : Job) :
    preemptOn e n j (putQueue p q s) = putQueue p q (preemptOn e n j s) := by simp [preemptOn]
@[simp] theorem preemptFrom_putQueue (l : List (Nat × Job)) :
    preemptFrom l (putQueue p q s) = putQueue p q (preemptFrom l s) := by
  induction l generalizing s with
  | nil => rfl
  | cons x l ih => unfold preemptFrom; simp only [PutQueue.preemptChoice]; split <;> simp [ih]
@[simp] theorem preemptAll_putQueue : preemptAll (putQueue p q s) = putQueue p q (preemptAll s) := by simp [preemptAll]
@[simp] theorem sendExpose_putQueue (e : EngineId) : sendExpose e (putQueue p q s) = putQueue p q (sendExpose e s) := by
  unfold sendExpose; simp only [PutQueue.engine]; split <;> simp
@[simp] theorem exposeOnce_putQueue (l : LaneId) : exposeOnce l (putQueue p q s) = putQueue p q (exposeOnce l s) := by
  unfold exposeOnce
  rw [PutQueue.laneRoom, PutQueue.exposeChoice, apply_ite (putQueue p q)]
  congr 1
  split <;> simp
@[simp] theorem exposeLane_putQueue (l : LaneId) : exposeLane l (putQueue p q s) = putQueue p q (exposeLane l s) := by
  simp [exposeLane]
@[simp] theorem restLane_putQueue (l : LaneId) : restLane l (putQueue p q s) = putQueue p q (restLane l s) := by
  simp [restLane]
@[simp] theorem evalReached_putQueue : evalReached (putQueue p q s) = putQueue p q (evalReached s) := by
  simp [evalReached]
@[simp] theorem serveEngines_putQueue : serveEngines (putQueue p q s) = putQueue p q (serveEngines s) := by
  simp [serveEngines]
@[simp] theorem serve_putQueue : serve (putQueue p q s) = putQueue p q (serve s) := by simp [serve]
@[simp] theorem findBlocked_putQueue (l : LaneId) :
    findBlocked l (putQueue p q s) = putQueue p q (findBlocked l s) := by
  unfold findBlocked; simp only [PutQueue.exitJob]; split <;> simp
@[simp] theorem grant_putQueue (l : LaneId) (n : Nat) (j : Job) (d : Destination) :
    grant l n j d (putQueue p q s) = putQueue p q (grant l n j d s) := by
  simp [grant]
@[simp] theorem sorterLook_putQueue : sorterLook (putQueue p q s) = putQueue p q (sorterLook s) := by
  unfold sorterLook
  rw [PutQueue.sorter, apply_ite (putQueue p q)]
  congr 1
  simp only [findBlocked_putQueue, PutQueue.grantChoice]
  split <;> simp
theorem serveFrom_putQueue (look : State → State) (h : ∀ s, look (putQueue p q s) = putQueue p q (look s))
    (l : List PosKey) : serveFrom look l (putQueue p q s) = putQueue p q (serveFrom look l s) := by
  induction l generalizing s with
  | nil => rfl
  | cons k l ih => simp [serveFrom, h, ih]
theorem departBy_putQueue (look : State → State) (h : ∀ s, look (putQueue p q s) = putQueue p q (look s)) (n : Nat)
    (x : JobState) : departBy look n x (putQueue p q s) = putQueue p q (departBy look n x s) := by
  simp only [departBy, serveDeferred, departCore_putQueue, PutQueue.deferredOrder, serveFrom_putQueue p q _ look h, h]
@[simp] theorem depart_putQueue (n : Nat) (x : JobState) : depart n x (putQueue p q s) = putQueue p q (depart n x s) :=
  departBy_putQueue p q s serve (serve_putQueue p q) n x
@[simp] theorem returnByFault_putQueue (n : Nat) (c : FaultCause) (x : FaultParam) (t : JobState) :
    returnByFault n c x t (putQueue p q s) = putQueue p q (returnByFault n c x t s) := by
  unfold returnByFault returnByFaultBy
  simp only [recordFault_putQueue, PutQueue.job?, departBy_putQueue p q _ serve (serve_putQueue p q)]
  split <;> simp
@[simp] theorem spoil_putQueue (n : Nat) (c : FaultCause) (x : FaultParam) :
    spoil n c x (putQueue p q s) = putQueue p q (spoil n c x s) := by
  unfold spoil spoilBy
  simp only [recordFault_putQueue, PutQueue.job?, departBy_putQueue p q _ serve (serve_putQueue p q)]
  split <;> simp
@[simp] theorem listCancel_putQueue (e : EngineId) (n : Nat) (c : CancelCommand) :
    listCancel e n c (putQueue p q s) = putQueue p q (listCancel e n c s) := (rfl)
@[simp] theorem cancelJob_putQueue (e : EngineId) (n : Nat) (c : CancelCommand) :
    cancelJob e n c (putQueue p q s) = putQueue p q (cancelJob e n c s) := (rfl)
@[simp] theorem dropAssigned_putQueue (n : Nat) :
    dropAssigned n (putQueue p q s) = putQueue p q (dropAssigned n s) := by
  unfold dropAssigned; simp only [PutQueue.contextOf]; split <;> simp
@[simp] theorem supersedeEffect_putQueue (n : Nat) (j : Job) :
    supersedeEffect n j (putQueue p q s) = putQueue p q (supersedeEffect n j s) := by
  unfold supersedeEffect; split <;> simp
@[simp] theorem supersede_putQueue (k : PosKey) (n : Nat) :
    supersede k n (putQueue p q s) = putQueue p q (supersede k n s) := by
  unfold supersede; simp only [PutQueue.job?]; split <;> simp
@[simp] theorem supersedeAt_putQueue (k : PosKey) :
    supersedeAt k (putQueue p q s) = putQueue p q (supersedeAt k s) := by
  unfold supersedeAt; simp only [PutQueue.pos?]; split <;> simp
@[simp] theorem needAndServe_putQueue (k : PosKey) :
    needAndServe k (putQueue p q s) = putQueue p q (needAndServe k s) := by
  simp [needAndServe]

@[simp] theorem returnTaken_putQueue (n : Nat) (r : RequeueReason) (x : JobState) :
    returnTaken n r x (putQueue p q s) = putQueue p q (returnTaken n r x s) := by
  unfold returnTaken; simp only [PutQueue.job?]; split <;> simp

/-! ### The register tracker -/

@[simp] theorem dropNext_putQueue (e : EngineId) (w : WaitingCtx) :
    dropNext e w (putQueue p q s) = putQueue p q (dropNext e w s) := by simp [dropNext]
@[simp] theorem dropParked_putQueue (e : EngineId) (w : WaitingCtx) :
    dropParked e w (putQueue p q s) = putQueue p q (dropParked e w s) := (rfl)
@[simp] theorem takeEvicted_putQueue (n : Nat) : takeEvicted n (putQueue p q s) = putQueue p q (takeEvicted n s) := by
  unfold takeEvicted
  simp only [PutQueue.job?, departBy_putQueue p q _ serveEngines (serveEngines_putQueue p q)]
  split <;> simp
@[simp] theorem forSome_putQueue {α : Type} (x : Option α) (f : α → State → State)
    (h : ∀ a s, f a (putQueue p q s) = putQueue p q (f a s)) :
    forSome x f (putQueue p q s) = putQueue p q (forSome x f s) := by
  cases x
  · rfl
  · exact h _ _
@[simp] theorem colourEvict_putQueue (e : EngineId) :
    colourEvict e (putQueue p q s) = putQueue p q (colourEvict e s) := by
  simp [colourEvict]
@[simp] theorem sampleBeyond_putQueue (e : EngineId) (m d : Offset) :
    sampleBeyond e m d (putQueue p q s) = putQueue p q (sampleBeyond e m d s) := by simp [sampleBeyond]
@[simp] theorem sampleTracking_putQueue (e : EngineId) (d : Offset) :
    sampleTracking e d (putQueue p q s) = putQueue p q (sampleTracking e d s) := by simp [sampleTracking]
@[simp] theorem sampleLocked_putQueue (e : EngineId) (d : Offset) :
    sampleLocked e d (putQueue p q s) = putQueue p q (sampleLocked e d s) := by simp [sampleLocked]
@[simp] theorem sampleDrifted_putQueue (e : EngineId) (d : Offset) :
    sampleDrifted e d (putQueue p q s) = putQueue p q (sampleDrifted e d s) := by simp [sampleDrifted]
@[simp] theorem takeSample_putQueue (e : EngineId) (m c : Offset) :
    takeSample e m c (putQueue p q s) = putQueue p q (takeSample e m c s) := by
  unfold takeSample
  dsimp only
  rw [PutQueue.limits, PutQueue.register, ← serve_putQueue, apply_ite (putQueue p q)]
  congr 2
  · split <;> simp
  · exact sampleBeyond_putQueue ..
@[simp] theorem rearm_putQueue (e : EngineId) : rearm e (putQueue p q s) = putQueue p q (rearm e s) := by simp [rearm]

/-! ### The lanes -/

@[simp] theorem dropEntry_putQueue (l : LaneId) (n : Nat) :
    dropEntry l n (putQueue p q s) = putQueue p q (dropEntry l n s) :=
  (rfl)
@[simp] theorem decideUnreadable_putQueue (l : LaneId) (r : InspectReport) :
    decideUnreadable l r (putQueue p q s) = putQueue p q (decideUnreadable l r s) := by
  unfold decideUnreadable; simp only [send_putQueue, PutQueue.lane]; split <;> simp
@[simp] theorem handSample_putQueue (j : Job) (m : Option Offset) :
    handSample j m (putQueue p q s) = putQueue p q (handSample j m s) := by unfold handSample; split <;> simp
@[simp] theorem passPlate_putQueue (l : LaneId) (n : Nat) (j : Job) (m : Offset) :
    passPlate l n j m (putQueue p q s) = putQueue p q (passPlate l n j m s) := (rfl)
@[simp] theorem rejectRegister_putQueue (l : LaneId) (n : Nat) (m : Option Offset) :
    rejectRegister l n m (putQueue p q s) = putQueue p q (rejectRegister l n m s) := by simp [rejectRegister]
@[simp] theorem decidePlate_putQueue (l : LaneId) (n : Nat) (j : Job) (m : Option Offset) :
    decidePlate l n j m (putQueue p q s) = putQueue p q (decidePlate l n j m s) := by
  unfold decidePlate
  rw [apply_ite (putQueue p q)]
  refine ite_congr rfl (fun _ => by simp) fun _ => ?_
  split <;> simp
@[simp] theorem decideIdentified_putQueue (l : LaneId) (n : Nat) (m : Option Offset) :
    decideIdentified l n m (putQueue p q s) = putQueue p q (decideIdentified l n m s) := by
  unfold decideIdentified; simp only [PutQueue.job?]; split <;> simp
@[simp] theorem resynchronise_putQueue (l : LaneId) (n : Nat) :
    resynchronise l n (putQueue p q s) = putQueue p q (resynchronise l n s) := by simp [resynchronise]
@[simp] theorem decideStray_putQueue (l : LaneId) (r : InspectReport) (w : StrayReason) :
    decideStray l r w (putQueue p q s) = putQueue p q (decideStray l r w s) := by simp [decideStray]
@[simp] theorem decideReport_putQueue (l : LaneId) (r : InspectReport) :
    decideReport l r (putQueue p q s) = putQueue p q (decideReport l r s) := by
  unfold decideReport; simp only [PutQueue.soundTagOf]; split <;> simp
@[simp] theorem countReclaimed_putQueue : countReclaimed (putQueue p q s) = putQueue p q (countReclaimed s) := (rfl)
@[simp] theorem reclaim_putQueue (l : LaneId) (n : Nat) (x : JobState) (y : LaneStage) :
    reclaim l n x y (putQueue p q s) = putQueue p q (reclaim l n x y s) := by simp [reclaim]
@[simp] theorem decideClearing_putQueue (l : LaneId) (r : InspectReport) :
    decideClearing l r (putQueue p q s) = putQueue p q (decideClearing l r s) := by
  unfold decideClearing; simp only [PutQueue.soundTagOf]; split <;> simp
@[simp] theorem decide1_putQueue (l : LaneId) (r : InspectReport) :
    decide1 l r (putQueue p q s) = putQueue p q (decide1 l r s) := by simp [decide1]
@[simp] theorem decidePending_putQueue (l : LaneId) (n : Nat) :
    decidePending l n (putQueue p q s) = putQueue p q (decidePending l n s) := by
  induction n generalizing s with
  | zero => rfl
  | succ n ih =>
    unfold decidePending
    rw [PutQueue.lane, apply_ite (putQueue p q)]
    congr 1
    split <;> simp [ih]
@[simp] theorem laneOpened_putQueue (l : LaneId) : laneOpened l (putQueue p q s) = putQueue p q (laneOpened l s) := by
  simp [laneOpened]

/-! ### The request operations -/

@[simp] theorem arrivalSignal_putQueue (n : Nat) :
    arrivalSignal n (putQueue p q s) = putQueue p q (arrivalSignal n s) := by
  simp [arrivalSignal]
@[simp] theorem revisionSignal_putQueue (n : Nat) :
    revisionSignal n (putQueue p q s) = putQueue p q (revisionSignal n s) := by simp [revisionSignal]
@[simp] theorem withdrawAt_putQueue (n : Nat) (k : PosKey) :
    withdrawAt n k (putQueue p q s) = putQueue p q (withdrawAt n k s) := by
  unfold withdrawAt
  simp only [PutQueue.pos?, PutQueue.required, supersedeAt_putQueue, ite_putQueue, needAndServe_putQueue]
@[simp] theorem withdrawSignal_putQueue (n : Nat) :
    withdrawSignal n (putQueue p q s) = putQueue p q (withdrawSignal n s) := by simp [withdrawSignal]
@[simp] theorem clearAllCurrent_putQueue (n : Nat) :
    clearAllCurrent n (putQueue p q s) = putQueue p q (clearAllCurrent n s) := by simp [clearAllCurrent, clearCurrent]
@[simp] theorem writeArrival_putQueue (n v : Nat) (c : ColourClass) (a : SepSet) (x : Separation) (r : U64) (m : Nat) :
    writeArrival n v c a x r m (putQueue p q s) = putQueue p q (writeArrival n v c a x r m s) := (rfl)
@[simp] theorem tellComplete_putQueue (n v : Nat) (c : ColourClass) (a : SepSet) :
    tellComplete n v c a (putQueue p q s) = putQueue p q (tellComplete n v c a s) := by simp [tellComplete]
@[simp] theorem returnReplaced_putQueue (n : Nat) :
    returnReplaced n (putQueue p q s) = putQueue p q (returnReplaced n s) := by
  unfold returnReplaced; simp only [PutQueue.job?]; split <;> simp
@[simp] theorem editStage_putQueue (x : PressId) (y : PortId) (t : Table PosId Content) :
    editStage x y t (putQueue p q s) = putQueue p q (editStage x y t s) := by simp [editStage]
@[simp] theorem retireMounted_putQueue (k : PosKey) :
    retireMounted k (putQueue p q s) = putQueue p q (retireMounted k s) := by
  unfold retireMounted; simp only [PutQueue.pos?]; split <;> simp
@[simp] theorem commitRemoved_putQueue (k : PosKey) :
    commitRemoved k (putQueue p q s) = putQueue p q (commitRemoved k s) := by simp [commitRemoved]
@[simp] theorem commitAdded_putQueue (k : PosKey) (n : Nat) (c : Content) :
    commitAdded k n c (putQueue p q s) = putQueue p q (commitAdded k n c s) := by simp [commitAdded]
@[simp] theorem commitChanged_putQueue (k : PosKey) (n : Nat) (c : Content) :
    commitChanged k n c (putQueue p q s) = putQueue p q (commitChanged k n c s) := by simp [commitChanged]
theorem commitOne_putQueue (k : PosKey) (n : Nat) (o : CommitOutcome) (c : CommitCounts) :
    commitOne k n o (putQueue p q s, c) = (putQueue p q (commitOne k n o (s, c)).1, (commitOne k n o (s, c)).2) := by
  unfold commitOne; split <;> simp
theorem commitPass_putQueue (x : PressId) (n : Nat) (t : Table PosId Content) (c : CommitCounts) :
    commitPass x n t (putQueue p q s, c) = (putQueue p q (commitPass x n t (s, c)).1, (commitPass x n t (s, c)).2) := by
  unfold commitPass
  generalize allPositions = l
  induction l generalizing s c with
  | nil => rfl
  | cons y l ih =>
    rw [List.foldl_cons, List.foldl_cons]
    dsimp only
    rw [PutQueue.liveContent, commitOne_putQueue]
    exact ih ..
@[simp] theorem refreshStanding_putQueue (x : PressId) :
    refreshStanding x (putQueue p q s) = putQueue p q (refreshStanding x s) := by simp [refreshStanding]
@[simp] theorem refreshCounts_putQueue (x : PressId) :
    refreshCounts x (putQueue p q s) = putQueue p q (refreshCounts x s) := by simp [refreshCounts]
@[simp] theorem takePlate_putQueue (k : PosKey) (n : Nat) :
    takePlate k n (putQueue p q s) = putQueue p q (takePlate k n s) :=
  (rfl)
@[simp] theorem mountPlate_putQueue (k : PosKey) (n : Nat) (o : Option Nat) :
    mountPlate k n o (putQueue p q s) = putQueue p q (mountPlate k n o s) := by simp [mountPlate]
@[simp] theorem unmountPlate_putQueue (k : PosKey) (n : Nat) :
    unmountPlate k n (putQueue p q s) = putQueue p q (unmountPlate k n s) := by simp [unmountPlate]
@[simp] theorem startPress_putQueue (x : PressId) (b : Bool) :
    startPress x b (putQueue p q s) = putQueue p q (startPress x b s) := by simp [startPress]
@[simp] theorem stopPress_putQueue (x : PressId) : stopPress x (putQueue p q s) = putQueue p q (stopPress x s) := by
  simp [stopPress]
@[simp] theorem schedulePress_putQueue (x : PressId) (t : Option Nat) (n : Nat) :
    schedulePress x t n (putQueue p q s) = putQueue p q (schedulePress x t n s) := by simp [schedulePress]
@[simp] theorem setGates_putQueue (u : UnitId) (a b : Bool) :
    setGates u a b (putQueue p q s) = putQueue p q (setGates u a b s) := by cases u <;> rfl
@[simp] theorem unitOpened_putQueue (u : UnitId) : unitOpened u (putQueue p q s) = putQueue p q (unitOpened u s) := by
  cases u <;> simp [unitOpened]
@[simp] theorem setPolicy_putQueue (u : UnitId) (x : StopPolicy) :
    setPolicy u x (putQueue p q s) = putQueue p q (setPolicy u x s) := by cases u <;> rfl
@[simp] theorem cutCurrent_putQueue (e : EngineId) : cutCurrent e (putQueue p q s) = putQueue p q (cutCurrent e s) := by
  unfold cutCurrent; simp only [PutQueue.engine]; split <;> simp
@[simp] theorem cutNext_putQueue (e : EngineId) : cutNext e (putQueue p q s) = putQueue p q (cutNext e s) := by
  unfold cutNext; simp only [PutQueue.engine]; split <;> simp
@[simp] theorem cutEngine_putQueue (e : EngineId) : cutEngine e (putQueue p q s) = putQueue p q (cutEngine e s) := by
  simp [cutEngine]
@[simp] theorem cutLane_putQueue (l : LaneId) :
    cutLane l (putQueue p q s) = putQueue p q (cutLane l s) := by simp [cutLane]
@[simp] theorem setEngineStop_putQueue (b : Bool) (e : EngineId) :
    setEngineStop b e (putQueue p q s) = putQueue p q (setEngineStop b e s) := (rfl)
@[simp] theorem lineStop_putQueue : lineStop (putQueue p q s) = putQueue p q (lineStop s) := by simp [lineStop]
@[simp] theorem unstopLane_putQueue (l : LaneId) :
    unstopLane l (putQueue p q s) = putQueue p q (unstopLane l s) := (rfl)
@[simp] theorem lineResume_putQueue : lineResume (putQueue p q s) = putQueue p q (lineResume s) := by simp [lineResume]
@[simp] theorem countSettled_putQueue (b : Bool) :
    countSettled b (putQueue p q s) = putQueue p q (countSettled b s) := (rfl)
@[simp] theorem settle_putQueue (n : Nat) : settle n (putQueue p q s) = putQueue p q (settle n s) := by
  unfold settle; simp only [PutQueue.job?]; split <;> simp
@[simp] theorem settleAll_putQueue (l : List Nat) : settleAll l (putQueue p q s) = putQueue p q (settleAll l s) := by
  simp [settleAll]
@[simp] theorem reopenLane_putQueue (l : LaneId) : reopenLane l (putQueue p q s) = putQueue p q (reopenLane l s) := by
  simp [reopenLane, clearClearing]
@[simp] theorem endPhases_putQueue (ls : List LaneId) (c : EndCause) (jobs : List Nat) :
    endPhases ls c jobs (putQueue p q s) = putQueue p q (endPhases ls c jobs s) := by simp [endPhases]
@[simp] theorem endReconcile_putQueue (c : EndCause) :
    endReconcile c (putQueue p q s) = putQueue p q (endReconcile c s) := by simp [endReconcile]
@[simp] theorem finishReconcile_putQueue (c : EndCause) :
    finishReconcile c (putQueue p q s) = putQueue p q (finishReconcile c s) := by simp [finishReconcile]
@[simp] theorem setLimit_putQueue (x : LimitName) (l : LaneId) (n : Nat) :
    setLimit x l n (putQueue p q s) = putQueue p q (setLimit x l n s) := by cases x <;> rfl

/-! ### Requests: the state and the answer -/

/-- A request makes the same of the state and is answered the same whatever waits at a port, and leaves it waiting. -/
def Blind (f : State → State × Answer) : Prop :=
  ∀ (p : PortId) (q : List Received) (s : State), f (putQueue p q s) = (putQueue p q (f s).1, (f s).2)

/-- What is done and answered in one case or the other. -/
theorem ite_blind {c : Prop} {d : Decidable c} {x y : State × Answer} {f g : State × Answer}
    (h : x = (putQueue p q f.1, f.2)) (k : y = (putQueue p q g.1, g.2)) :
    (if c then x else y) = (putQueue p q (if c then f else g).1, (if c then f else g).2) := by
  split <;> assumption

theorem addArrival_putQueue (n v : Nat) (c : ColourClass) (a : SepSet) (x : Separation) (r : U64) (m : Nat) :
    Blind (addArrival n v c a x r m) := fun p q s => by simp [addArrival]

theorem revise_putQueue (n o v : Nat) (c : ColourClass) (x : Separation) (r : U64) (m : Nat) :
    Blind (revise n o v c x r m) := fun p q s => by simp [revise]

theorem replaceRaster_putQueue (k : SlotKey) (r : U64) : Blind (replaceRaster k r) := fun p q s => by
  simp [replaceRaster]

theorem arriveVersion_putQueue (n v u : Nat) (c : ColourClass) (x : Separation) (r : U64) (o : PageRec) :
    Blind (arriveVersion n v u c x r o) := fun p q s => by
  unfold arriveVersion
  simp only [PutQueue.slot?, PutQueue.freeSlots, PutQueue.revisionRoom, addArrival_putQueue _ _ _ _ _ _ _ p q s,
    revise_putQueue _ _ _ _ _ _ _ p q s, replaceRaster_putQueue _ _ p q s]
  repeat' first | with_reducible rfl | apply ite_blind

theorem arrive_putQueue (n v : Nat) (c : ColourClass) (x : Separation) (r : U64) : Blind (arrive n v c x r) :=
  fun p q s => by
  unfold arrive
  simp only [PutQueue.page?, PutQueue.freePages, PutQueue.freeSlots, PutQueue.revisionRoom,
    addArrival_putQueue _ _ _ _ _ _ _ p q s, revise_putQueue _ _ _ _ _ _ _ p q s,
    arriveVersion_putQueue _ _ _ _ _ _ _ p q s]
  split
  · repeat' first | with_reducible rfl | apply ite_blind
  · split <;> repeat' first | with_reducible rfl | apply ite_blind

theorem reqSeparationArrived_putQueue (n : U16) (v c x : Byte) (r : U64) : Blind (reqSeparationArrived n v c x r) :=
  fun p q s => by
  unfold reqSeparationArrived
  simp only [arrive_putQueue _ _ _ _ _ p q s]
  split <;> repeat' first | with_reducible rfl | apply ite_blind

theorem endWithdraw_putQueue (n : Nat) (r : PageRec) : Blind (endWithdraw n r) := fun p q s => by
  unfold endWithdraw
  apply ite_blind <;> simp

theorem reqWithdrawPage_putQueue (n : U16) : Blind (reqWithdrawPage n) := fun p q s => by
  unfold reqWithdrawPage
  apply ite_blind
  · rfl
  · rw [PutQueue.page?]
    split
    · rfl
    · apply ite_blind
      · rfl
      · unfold withdraw
        simp only [clearAllCurrent_putQueue, putPage_putQueue, withdrawSignal_putQueue, PutQueue.page?]
        split
        · exact endWithdraw_putQueue _ _ p q _
        · rfl

theorem reqStagePosition_putQueue (x : PortId) (a b c : Byte) (m : U16) (n : Option U16) (y : Byte) :
    Blind (reqStagePosition x a b c m n y) := fun p q s => by
  unfold reqStagePosition
  split
  · rw [PutQueue.stage]
    apply ite_blind
    · rfl
    · simp only [editStage_putQueue, PutQueue.liveContent]
      rfl
  · rfl

theorem reqClearStaged_putQueue (x : PortId) (a b : Byte) : Blind (reqClearStaged x a b) := fun p q s => by
  unfold reqClearStaged
  split
  · rfl
  · rw [PutQueue.stage]
    repeat' first | with_reducible rfl | apply ite_blind
    simp

theorem reqDiscardStage_putQueue (x : PortId) (a : Byte) : Blind (reqDiscardStage x a) := fun p q s => by
  unfold reqDiscardStage
  split
  · rfl
  · rw [PutQueue.stage]
    split
    · rfl
    · simp only [PutQueue.rights, PutQueue.stageCopy, setStage_putQueue, raise_putQueue]
      repeat' first | with_reducible rfl | apply ite_blind

theorem reqCommitPlan_putQueue (x : PortId) (a b : Byte) : Blind (reqCommitPlan x a b) := fun p q s => by
  unfold reqCommitPlan
  split
  · rfl
  · rename_i pr _
    have h : Blind fun s => commit x pr b.toNat (newPageIds s (s.stage pr)) s := fun p q s => by
      simp [commit, commitEnd, commitPass_putQueue]
    rw [PutQueue.stage, PutQueue.press, PutQueue.freePages, PutQueue.newPageIds]
    refine ite_blind p q rfl (ite_blind p q rfl (ite_blind p q rfl (ite_blind p q rfl ?_)))
    exact h p q s

theorem reqHoldPosition_putQueue (a b : Byte) : Blind (reqHoldPosition a b) := fun p q s => by
  unfold reqHoldPosition
  split
  · rfl
  · rw [PutQueue.pos?]
    split
    · rfl
    · apply ite_blind <;> simp

theorem reqReleasePosition_putQueue (a b : Byte) : Blind (reqReleasePosition a b) := fun p q s => by
  unfold reqReleasePosition
  split
  · rfl
  · rw [PutQueue.pos?]
    split
    · rfl
    · apply ite_blind <;> simp

theorem reqRequeuePosition_putQueue (a b : Byte) : Blind (reqRequeuePosition a b) := fun p q s => by
  unfold reqRequeuePosition
  split
  · rfl
  · rw [PutQueue.pos?]
    split
    · rfl
    · split
      · simp
      · rw [PutQueue.job?]
        split
        · rfl
        · apply ite_blind <;> simp

theorem reqClearEngineFault_putQueue (a : Byte) : Blind (reqClearEngineFault a) := fun p q s => by
  unfold reqClearEngineFault
  split
  · rfl
  · rw [PutQueue.engine]
    apply ite_blind <;> simp

theorem reqRestoreEngine_putQueue (a : Byte) : Blind (reqRestoreEngine a) := fun p q s => by
  unfold reqRestoreEngine
  split
  · rfl
  · rw [PutQueue.engine]
    apply ite_blind <;> simp

theorem reqRearmRegister_putQueue (a : Byte) : Blind (reqRearmRegister a) := fun p q s => by
  unfold reqRearmRegister
  split <;> simp

theorem reqPullConfirm_putQueue (a b : Byte) : Blind (reqPullConfirm a b) := fun p q s => by
  unfold reqPullConfirm
  split
  · rfl
  · rw [PutQueue.pullable]
    apply ite_blind <;> simp

theorem reqMount_putQueue (a b : Byte) : Blind (reqMount a b) := fun p q s => by
  unfold reqMount
  split
  · rfl
  · rw [PutQueue.pos?]
    split
    · rfl
    · split
      · rfl
      · rw [PutQueue.jobState]
        apply ite_blind <;> simp

theorem reqUnmount_putQueue (a b : Byte) : Blind (reqUnmount a b) := fun p q s => by
  unfold reqUnmount
  split
  · rfl
  · rw [PutQueue.pos?]
    split
    · rfl
    · split <;> simp

theorem reqPressStart_putQueue (a b : Byte) : Blind (reqPressStart a b) := fun p q s => by
  unfold reqPressStart
  split
  · rename_i x f _ _
    rw [PutQueue.press]
    cases h : (s.press x).state <;> simp only [h, startPress_putQueue]
    exact ite_blind p q rfl rfl
  · rfl

theorem reqPressStop_putQueue (a : Byte) : Blind (reqPressStop a) := fun p q s => by
  unfold reqPressStop
  split
  · rfl
  · rw [PutQueue.press]
    apply ite_blind <;> simp

theorem reqSetPressSchedule_putQueue (a : Byte) (t : Option U32) (n : U16) : Blind (reqSetPressSchedule a t n) :=
  fun p q s => by
  unfold reqSetPressSchedule
  split
  · rfl
  · apply ite_blind <;> simp

theorem reqHold_putQueue (a : Byte) : Blind (reqHold a) := fun p q s => by
  unfold reqHold
  split
  · rfl
  · rw [PutQueue.heldGate]
    apply ite_blind <;> simp

theorem reqRelease_putQueue (a : Byte) : Blind (reqRelease a) := fun p q s => by
  unfold reqRelease
  split
  · rfl
  · rw [PutQueue.heldGate]
    apply ite_blind <;> simp

theorem reqStep_putQueue (a : Byte) : Blind (reqStep a) := fun p q s => by
  unfold reqStep
  split
  · rfl
  · rw [PutQueue.heldGate, PutQueue.stepGate]
    apply ite_blind <;> simp

theorem reqSetStopPolicy_putQueue (a b : Byte) : Blind (reqSetStopPolicy a b) := fun p q s => by
  unfold reqSetStopPolicy
  split
  · apply ite_blind <;> simp
  · rfl

theorem reqLineStop_putQueue : Blind reqLineStop := fun p q s => by
  unfold reqLineStop
  rw [PutQueue.line]
  apply ite_blind <;> simp

theorem reqLineResume_putQueue : Blind reqLineResume := fun p q s => by
  unfold reqLineResume
  rw [PutQueue.line]
  apply ite_blind <;> simp

theorem reqReconcileEnd_putQueue : Blind reqReconcileEnd := fun p q s => by
  unfold reqReconcileEnd
  rw [PutQueue.restart, PutQueue.anyClearing]
  apply ite_blind <;> simp

theorem reqSetRights_putQueue (x : PortId) (a b : Byte) : Blind (reqSetRights x a b) := fun p q s => by
  unfold reqSetRights
  split
  · simp only [maintAfter, PutQueue.rights]
    apply ite_blind <;> simp
  · rfl

theorem reqSetNoticeMask_putQueue (x : PortId) (a : Byte) : Blind (reqSetNoticeMask x a) := fun p q s => by
  simp [reqSetNoticeMask]

theorem reqSetLimits_putQueue (a : Byte) (n : U16) (b : Option Byte) : Blind (reqSetLimits a n b) := fun p q s => by
  unfold reqSetLimits
  split
  · rfl
  · split
    · rfl
    · apply ite_blind <;> simp [takeLimit]

/-- Every request but QUERY_PART, which reports how many requests wait. -/
theorem applyRequest_putQueue (x : PortId) (r : Request) (h : r ≠ .queryPart) : Blind (applyRequest x r) := by
  cases r
  case queryPart => exact absurd rfl h
  case separationArrived => exact fun p q s => reqSeparationArrived_putQueue ..
  case withdrawPage => exact fun p q s => reqWithdrawPage_putQueue ..
  case stagePosition => exact fun p q s => reqStagePosition_putQueue ..
  case clearStagedPosition => exact fun p q s => reqClearStaged_putQueue ..
  case discardStage => exact fun p q s => reqDiscardStage_putQueue ..
  case commitPlan => exact fun p q s => reqCommitPlan_putQueue ..
  case holdPosition => exact fun p q s => reqHoldPosition_putQueue ..
  case releasePosition => exact fun p q s => reqReleasePosition_putQueue ..
  case requeuePosition => exact fun p q s => reqRequeuePosition_putQueue ..
  case clearEngineFault => exact fun p q s => reqClearEngineFault_putQueue ..
  case restoreEngine => exact fun p q s => reqRestoreEngine_putQueue ..
  case rearmRegister => exact fun p q s => reqRearmRegister_putQueue ..
  case pullConfirm => exact fun p q s => reqPullConfirm_putQueue ..
  case mount => exact fun p q s => reqMount_putQueue ..
  case unmount => exact fun p q s => reqUnmount_putQueue ..
  case pressStart => exact fun p q s => reqPressStart_putQueue ..
  case pressStop => exact fun p q s => reqPressStop_putQueue ..
  case setPressSchedule => exact fun p q s => reqSetPressSchedule_putQueue ..
  case hold => exact fun p q s => reqHold_putQueue ..
  case release => exact fun p q s => reqRelease_putQueue ..
  case step => exact fun p q s => reqStep_putQueue ..
  case setStopPolicy => exact fun p q s => reqSetStopPolicy_putQueue ..
  case lineStop => exact fun p q s => reqLineStop_putQueue ..
  case lineResume => exact fun p q s => reqLineResume_putQueue ..
  case reconcileEnd => exact fun p q s => reqReconcileEnd_putQueue ..
  case setRights => exact fun p q s => reqSetRights_putQueue ..
  case setNoticeMask => exact fun p q s => reqSetNoticeMask_putQueue ..
  case setLimits => exact fun p q s => reqSetLimits_putQueue ..
  all_goals exact fun p q s => by simp [applyRequest, asks, reqSetClock]

/-- A taken request, but QUERY_PART, has the same effect and the same answer whatever waits at a port, and leaves it
waiting. -/
theorem takeRequest_putQueue (x : PortId) (r : Received) (h : r.content ≠ .sound .queryPart) :
    takeRequest x r (putQueue p q s) = putQueue p q (takeRequest x r s) := by
  have hd : Blind (decideRequest x r) := fun p q s => by
    unfold decideRequest
    split
    · rfl
    · rw [PutQueue.rights]
      apply ite_blind <;> rfl
    · rename_i k hk
      rw [PutQueue.rights]
      exact ite_blind p q (applyRequest_putQueue x k (fun e => h (e ▸ hk)) p q s) rfl
  unfold takeRequest
  dsimp only
  rw [modLink_putQueue p q s x _ (fun _ => rfl), hd]
  exact modLink_putQueue p q _ x _ (answer_queue q _ _ _)

end

end Sys2Proof.Machine
end

