-- ==== Sys2Proof/Laws/Readings.lean ====
section
/-! SUPPORT. What the machine reads off the state (Machine/Flags.lean) is what the statements' own readings of the rules
(Safety.lean) say: one equation for each, to rewrite a meaning into the terms of a statement. -/

namespace Sys2Proof.Machine

open State

/-- The pages that a content requires (R25). -/
theorem State.required_eq_needsPage (s : State) (x : Separation) (n : Nat) : s.required x n = needsPage s x n := by
  unfold State.required needsPage classOfPage
  congr 1
  cases s.page? n with
  | none => rfl
  | some r =>
    change (r.cls != some .mono) = !decide (r.cls = some .mono)
    rcases r.cls with _ | _ | _ <;> rfl

/-- A position that is UNUSED (R25, R27). -/
theorem State.unused_eq (s : State) (c : Content) : s.unused c = !c.pages.any (needsPage s c.sep) := by
  unfold State.unused requiredPages
  simp only [funext (s.required_eq_needsPage c.sep)]
  induction c.pages <;> grind

/-- A position that can be made (R26). -/
theorem State.satisfiable_eq_makeable (s : State) (c : Content) : s.satisfiable c = makeable s c := by
  have arrived : ∀ n, s.arrived c.sep n = (s.page? n).any fun r => r.arrived.has c.sep := by
    intro n
    unfold State.arrived
    cases s.page? n <;> rfl
  unfold State.satisfiable makeable
  rw [unused_eq, Bool.not_not]
  congr 1
  unfold requiredPages
  simp only [List.all_filter, required_eq_needsPage, arrived]

/-- A position that is satisfied (R27). -/
theorem State.satisfied_eq_satisfies (s : State) (x : Position) : s.satisfied x = satisfies s x := by
  have jobs : x.work.current.bind s.jobState = (x.work.current.bind s.job?).map Job.state := by
    cases x.work.current <;> rfl
  unfold State.satisfied State.status satisfies
  rw [jobs]
  cases x.work.current.bind s.job? with
  | some j => cases h : j.state <;> simp [statusOfState, h]
  | none =>
    simp only [Option.map_none, unused_eq]
    cases x.content.pages.any (needsPage s x.content.sep) <;>
      cases s.satisfiable x.content <;> cases x.work.deferred <;> rfl

/-- The state that the counts give a press (R141). -/
theorem stateOfCounts_eq_countedState (m n : Nat) : stateOfCounts m n = countedState m n := rfl

/-- The load of a lane (R86). -/
theorem State.laneLoad_eq_loadOf (s : State) (l : LaneId) : s.laneLoad l = loadOf s l := by
  unfold State.laneLoad loadOf
  have sent : ∀ c : Contexts, c.exposeSent = c.next.any fun w => w.stage = .exposeSent := by
    intro c
    unfold Contexts.exposeSent
    cases c.next <;> rfl
  simp only [List.filter_filter, Bool.and_comm, sent]


/-- The order of the ready queues (R56). -/
theorem State.queueBefore_eq_aheadOf (s : State) (a b : Nat × Job) : s.queueBefore a b = aheadOf s a.2 b.2 := by
  unfold State.queueBefore aheadOf
  dsimp only
  rcases (s.press a.2.press).start with _ | t <;> rcases (s.press b.2.press).start with _ | u
  · rfl
  · rfl
  · rfl
  · by_cases h : t = u
    · simp [h]
    · simp [h, startBefore]

/-! ### Engines -/

/-- No gate keeps an engine from work (R74, R80, R85). -/
theorem Engine.ungated_iff_canWork (x : Engine) : x.ungated = true ↔ CanWork x := by
  constructor
  · intro h
    simp [Engine.ungated, Gates.isHeld, Engine.starved] at h
    exact ⟨h.1.1.1, by grind, h.1.2, h.2.1, by omega⟩
  · rintro ⟨h1, h2, h3, h4, h5⟩
    simp [Engine.ungated, Gates.isHeld, Engine.starved, h1, h3, h4]
    exact ⟨by grind, by omega⟩

/-- An engine is eligible for a job (R80). -/
theorem State.eligible_iff_eligibleFor (s : State) (e : EngineId) (n : Nat) (j : Job) :
    s.eligible e n j = true ↔ EligibleFor s e n j := by
  unfold State.eligible
  simp only [Bool.and_eq_true, Engine.ungated_iff_canWork]
  constructor
  · rintro ⟨⟨⟨h1, h2⟩, h3⟩, h4⟩
    exact ⟨h1, by simpa using h2, by simpa using h3, by simpa [Contexts.cancelled] using h4⟩
  · rintro ⟨h1, h2, h3, h4⟩
    exact ⟨⟨⟨h1, by simpa using h2⟩, by simpa using h3⟩, by simpa [Contexts.cancelled] using h4⟩

/-- What is offered to the dispatcher (R57, R80). -/
theorem State.mem_offered_iff {s : State} (hs : Table.ordered id s.jobs) (c : JobClass) (n : Nat) (j : Job) :
    (n, j) ∈ s.offered c ↔ Offered s n j ∧ j.cls = c := by
  have held : s.positionHeld j = false ↔ ∀ x, s.pos? j.key = some x → x.held = false := by
    unfold State.positionHeld
    cases s.pos? j.key <;> simp
  unfold State.offered State.readyQueue Offered
  simp only [List.mem_filter, mem_sortBy, Bool.and_eq_true, decide_eq_true_eq, Bool.not_eq_true', held]
  constructor
  · rintro ⟨⟨h1, h2, h3⟩, h4⟩
    exact ⟨⟨tget_of_mem hs h1, h2, h4⟩, h3⟩
  · rintro ⟨⟨h1, h2, h4⟩, h3⟩
    exact ⟨⟨mem_of_tget h1, h2, h3⟩, h4⟩

/-- Everything but the lane's room lets EXPOSE be sent (R85). -/
theorem State.exposeReady_iff_loaded (s : State) (e : EngineId) : s.exposeReady e = true ↔ ∃ w, Loaded s e w := by
  unfold State.exposeReady
  simp only [Bool.and_eq_true, Engine.ungated_iff_canWork]
  constructor
  · rintro ⟨⟨h1, h2⟩, h3⟩
    cases hw : (s.engine e).ctx.next with
    | none => rw [hw] at h3; cases h3
    | some w => exact ⟨w, h1, Option.isNone_iff_eq_none.1 h2, hw, by rw [hw] at h3; simpa using h3⟩
  · rintro ⟨w, h1, h2, h3, h4⟩
    rw [h2, h3]
    exact ⟨⟨h1, rfl⟩, by simpa using h4⟩

/-- The lane room test (R86). -/
theorem State.laneRoom_iff_hasLaneRoom (s : State) (l : LaneId) : s.laneRoom l = true ↔ HasLaneRoom s l := by
  unfold State.laneRoom HasLaneRoom
  simp only [laneLoad_eq_loadOf, Bool.and_eq_true, decide_eq_true_eq, Bool.not_eq_true']
  rfl

/-- An engine that has come to rest (R160). -/
theorem State.engineAtRest_eq_engineRests (s : State) (e : EngineId) : s.engineAtRest e = engineRests s e := by
  unfold State.engineAtRest engineRests Contexts.exposeSent
  cases (s.engine e).ctx.next <;> rfl

/-- What evaluating the reached marks does to the line record (R159, R160), `u` being the state once the lanes with no
load have their stopped gate set. -/
theorem line_evalReached (s : State) :
    (evalReached s).line =
      if s.line.state = .stopping then
        let u := restLane 1 (restLane 0 s)
        let marked := u.setReached (engineMarks u) (laneMarks u)
        if allAtRest marked then { clearMarks marked.line with state := .stopped } else marked.line
      else s.line := by
  unfold evalReached
  split
  · dsimp only
    split
    · rw [raise_same]
      rfl
    · rfl
  · rfl

/-! ### Presses -/

/-- A notice changes no press. -/
theorem press_raise (n : Notice) (s : State) (q : PressId) : (raise n s).press q = s.press q := by
  rw [raise_same n s]
  rfl

/-- What judging a press by its counts does to the press records (R141): a press that is not RUNNING then stands in the
state that its counts give, and nothing else of any press changes. -/
theorem press_evalPress (p q : PressId) (s : State) :
    (evalPress p s).press q =
      if q = p ∧ (s.press p).state ≠ .running then
        { s.press p with state := countedState (s.press p).positions (s.press p).unsatisfied }
      else s.press q := by
  have same : ∀ x : Press, x.state = stateOfCounts x.positions x.unsatisfied →
      { x with state := countedState x.positions x.unsatisfied } = x := by
    rintro ⟨⟩ h
    simp_all [stateOfCounts_eq_countedState]
  by_cases run : (s.press p).state = .running
  · simp [evalPress, run]
  by_cases eq : (s.press p).state = stateOfCounts (s.press p).positions (s.press p).unsatisfied
  · have : evalPress p s = s := by simp [evalPress, eq]
    rw [this]
    split
    · next h => rw [h.1, same _ eq]
    · rfl
  · have : (evalPress p s).press q =
        (s.setPressState p (stateOfCounts (s.press p).positions (s.press p).unsatisfied)).press q := by
      simp only [evalPress, run, eq, Bool.or_self, decide_false, Bool.false_eq_true, if_false]
      split <;> simp [press_raise]
    rw [this, press_setPressState]
    by_cases h : q = p <;> simp [h, run, stateOfCounts_eq_countedState]

end Sys2Proof.Machine
end

