-- ==== Sys2Proof/WellFormed.lean ====
section
/-! DEFINITION. WellFormed.lean: which commands can be sent. Most operands are in range by their type;
the rest is checked here. -/

namespace Sys2Proof

/-- A frame's body has the length its header gives, or is empty where the frame ended at a length above
1024 (R176). -/
def Frame.wf (f : Frame) : Bool :=
  if f.length.toNat ≤ Config.maxBody then f.body.length = f.length.toNat else f.body = []

/-- An engine cause code is 1 to 255 (R76). -/
def LoadFaultCause.wf : LoadFaultCause → Bool
  | .rasterUnreadable _ => true
  | .code c => c ≠ 0

/-- A command is well formed: its frame, its cause code, a kind that names no request (R178), and a job
that a timer's entry can name (R46). -/
def Instr.wf : Instr → Bool
  | .frameReceived _ f => f.wf
  | .loadFault _ _ _ c => c.wf
  | .requestKindUnknown _ _ kind => kind.toNat = 0 || decide (37 < kind.toNat)
  | .transitTimerExpiry _ job => job ≠ 0
  | _ => true

end Sys2Proof
end

