-- ==== Sys2Proof/Tests/Slice0.lean ====
section
/-! SUPPORT. Tests/Slice0.lean: tests on fixed values. The first part shows that WellFormed refuses what cannot
be sent; the second runs single commands on small states; the third gives, for each obligation that has
premises, states and operands that meet them, with a case for each clause at the edge of its range. -/

namespace Sys2Proof.Tests

open Sys2Proof Sys2Proof.Machine Sys2Proof.Machine.State

set_option Elab.async false

/-! ### Commands that cannot be sent -/

theorem test_wf_body_length : (Instr.frameReceived 0 ⟨2, 1, 0, 2, [7], 0⟩).wf = false := by decide
theorem test_wf_body_of_long_frame : (Instr.frameReceived 0 ⟨1025, 1, 0, 2, [7], 0⟩).wf = false := by decide
theorem test_wf_long_frame : (Instr.frameReceived 0 ⟨1025, 1, 0, 2, [], 0⟩).wf = true := by decide
theorem test_wf_cause_code : (Instr.loadFault 0 1 1 (.code 0)).wf = false := by decide
theorem test_wf_known_kind : (Instr.requestKindUnknown 0 0 37).wf = false := by decide
theorem test_wf_unknown_kind : (Instr.requestKindUnknown 0 0 38).wf = true := by decide
theorem test_wf_timer_job : (Instr.transitTimerExpiry 0 0).wf = false := by decide

/-! ### Small states -/

/-- A check that every table is in order. -/
def tablesOk (s : State) : Bool :=
  decide (s.pages.Pairwise fun a b => a.1 < b.1) &&
    decide (s.slots.Pairwise fun a b => a.1.rank < b.1.rank) &&
    decide (s.plan.Pairwise fun a b => a.1.rank < b.1.rank) &&
    decide (∀ p, (s.stage p).entries.Pairwise fun a b => a.1.val < b.1.val) &&
    decide (s.jobs.Pairwise fun a b => a.1 < b.1) &&
    decide (s.racks.Pairwise fun a b => a.1.rank < b.1.rank)

theorem tables_of_ok {s : State} (h : tablesOk s = true) : Tables s := by
  simp only [tablesOk, Bool.and_eq_true, decide_eq_true_eq] at h
  obtain ⟨⟨⟨⟨⟨h1, h2⟩, h3⟩, h4⟩, h5⟩, h6⟩ := h
  exact ⟨h1, h2, h3, h4, h5, h6⟩

/-- The one value of an option has a property, so every value of it has. -/
theorem forall_some_of {α : Type} {x : Option α} {a : α} {P : α → Prop} (h : x = some a) (hp : P a) :
    ∀ o, x = some o → P o := by
  intro o ho
  rw [h] at ho
  cases ho
  exact hp

/-- No value of an absent option. -/
theorem forall_some_of_none {α : Type} {x : Option α} {P : α → Prop} (h : x = none) : ∀ o, x = some o → P o := by
  intro o ho
  rw [h] at ho
  cases ho

/-- The state after a command. -/
def after (c : Instr) (s : State) : State :=
  match exec c s with
  | .next t => t
  | _ => s

/-- A job of page 7 at position 0 of press 0. -/
def jobIn (st : JobState) : Job where
  press := 0
  pos := 0
  pages := [(7, 1)]
  sep := .k
  format := .oneUp
  colourNeed := .mono
  slots := [⟨7, 1, .k⟩]
  cls := .normal
  origin := .first
  attempt := 1
  state := st
  superseded := false
  engine := none
  lane := none
  applied := none
  lastFault := none
  entryOrder := 1

/-- The position of that job. -/
def k0 : PosKey := ⟨0, 0⟩

/-- The raster slot of page 7. -/
def slot7 : SlotKey := ⟨7, 1, .k⟩

/-- What the position holds when job 1 is its current job. -/
def work1 : PosWork := ⟨some 1, none, false, false, false⟩

/-- The part with page 7, its raster, one live position, and job 1. -/
def plant (j : Job) : State :=
  { State.reset with
    pages := [(7, ⟨some .mono, some 1, ⟨true, false, false, false⟩, .complete, 1⟩)]
    slots := [(slot7, ⟨0x55, 1, true, false⟩)]
    plan := [(k0, ⟨⟨.oneUp, 7, none, .k⟩, 1, false, work1⟩)]
    jobs := [(1, j)]
    lastJob := 1
    entryCount := 1 }

/-- The same with other work at the position. -/
def working (w : PosWork) (j : Job) : State := (plant j).modWork k0 fun _ => w

/-- An engine record that is greeted and has plates. -/
def engineIn (m : EngineMode) (flag : Bool) (c : Contexts) : Engine :=
  ⟨⟨m, true, flag, none⟩, ⟨false, false, false⟩, ⟨some .oneUp, 5⟩, c⟩

/-- The plant with an engine 0 as said. -/
def engined (m : EngineMode) (flag : Bool) (c : Contexts) (j : Job) : State := withEngine 0 (engineIn m flag c) (plant j)

/-- Contexts with job 1 next, at a stage. -/
def nextAt (x : LoadStage) : Contexts := ⟨none, some ⟨1, x, if x = .loadSent then some 120 else none, false⟩, none, []⟩

/-- Contexts with job 1 current. -/
def exposing (cut : Bool) : Contexts := ⟨some ⟨1, 600, cut⟩, none, none, []⟩

/-- A job of an engine 0, in a state. -/
def jobAt0 (st : JobState) : Job := { jobIn st with engine := some 0, applied := some ⟨0, 0⟩ }

/-- The plant with job 1 in lane 0 at a stage. -/
def inLane (x : LaneStage) (j : Job) : State :=
  (plant j).modFloor 0 fun f => { f with order := [⟨1, x, if x = .inDeveloper then some 300 else none⟩] }

/-- The part with a number of live jobs, and a position that has none. -/
def crowded (m : Nat) : State :=
  { working ⟨none, none, false, false, false⟩ (jobIn .queued) with
    jobs := (List.range m).map fun n => (n + 1, jobIn .queued) }

/-- The part with a number of EXPECTED pages, from page 1 on. -/
def booked (m : Nat) : State :=
  { State.reset with pages := (List.range m).map fun n => (n + 1, ⟨none, none, ⟨false, false, false, false⟩, .expected, 0⟩) }

/-- A number of raster slots in use, one for each page from page 1 on. -/
def slotsFor (m count : Nat) : Table SlotKey Slot :=
  (List.range m).map fun n => (⟨n + 1, 1, .k⟩, ⟨0x55, count, true, false⟩)

theorem rising {α : Type} (f : Nat → Nat × α) (m : Nat) (h : ∀ i, (f i).1 = i + 1) :
    Table.ordered id ((List.range m).map f) := by
  unfold Table.ordered
  rw [List.pairwise_map]
  refine List.Pairwise.imp (fun {a b} hab => ?_) (List.pairwise_lt_range (n := m))
  simpa [h] using hab

theorem free_reset : Free 0 State.reset := ⟨rfl, rfl, rfl⟩

theorem tables_reset : Tables State.reset := tables_of_ok (by decide)

theorem tables_plant (j : Job) : Tables (plant j) :=
  ⟨List.pairwise_singleton _ _, List.pairwise_singleton _ _, List.pairwise_singleton _ _, tables_reset.stages,
    List.pairwise_singleton _ _, tables_reset.racks⟩

theorem tables_engined (m : EngineMode) (flag : Bool) (c : Contexts) (j : Job) : Tables (engined m flag c j) :=
  let h := tables_plant j
  ⟨h.pages, h.slots, h.plan, h.stages, h.jobs, h.racks⟩

theorem tables_inLane (x : LaneStage) (j : Job) : Tables (inLane x j) :=
  let h := tables_plant j
  ⟨h.pages, h.slots, h.plan, h.stages, h.jobs, h.racks⟩

theorem tables_working (w : PosWork) (j : Job) : Tables (working w j) :=
  let h := tables_plant j
  ⟨h.pages, h.slots, List.pairwise_singleton _ _, h.stages, h.jobs, h.racks⟩

theorem free_plant (j : Job) : Free 0 (plant j) := ⟨rfl, rfl, rfl⟩

theorem tables_crowded (m : Nat) : Tables (crowded m) :=
  let h := tables_working ⟨none, none, false, false, false⟩ (jobIn .queued)
  ⟨h.pages, h.slots, h.plan, h.stages, rising (fun n => (n + 1, jobIn .queued)) m fun _ => rfl, h.racks⟩

theorem tables_booked (m : Nat) : Tables (booked m) :=
  let h := tables_reset
  ⟨rising (fun n => (n + 1, (⟨none, none, ⟨false, false, false, false⟩, .expected, 0⟩ : PageRec))) m fun _ => rfl,
    h.slots, h.plan, h.stages, h.jobs, h.racks⟩

theorem slotsFor_ordered (m count : Nat) : Table.ordered SlotKey.rank (slotsFor m count) := by
  unfold Table.ordered slotsFor
  rw [List.pairwise_map]
  refine List.Pairwise.imp (fun {a b} h => ?_) (List.pairwise_lt_range (n := m))
  have h2 : a + 1 + 1 < b + 1 + 1 := by omega
  have := Nat.mul_lt_mul'' h2 h2
  simp only [SlotKey.rank, sepNumber]
  omega

theorem not_waits {c : Contexts} (h : c.next = none) (h' : c.parked = none) (n : Nat) : ¬ WaitsIn c n := by
  rintro (⟨w, e, _⟩ | ⟨w, e, _⟩)
  · rw [h] at e; cases e
  · rw [h'] at e; cases e

theorem not_held {c : Contexts} (h : c = ⟨none, none, none, []⟩) (n : Nat) : ¬ HeldIn c n := by
  subst h
  rintro (⟨w, e, _⟩ | h)
  · cases e
  · exact not_waits rfl rfl n h


/-! ### Single commands -/

theorem test_crc_of_nine_bytes : crc [0x31, 0x32, 0x33, 0x34, 0x35, 0x36, 0x37, 0x38, 0x39] = 0x29B1 := by
  decide +kernel

theorem test_powerOn_rights :
    ((after (.powerOn .bothClosed .firstClosed) (plant (jobIn .queued))).ports.toList.map Port.rights) =
      [⟨true, true, true, true⟩, ⟨true, true, true, false⟩, ⟨false, true, false, false⟩] := by decide +kernel

theorem test_lineReset_makes_exposing_uncertain :
    ((after (.lineReset .bothOpen .bothOpen) (plant (jobAt0 .exposing))).job? 1).map Job.state = some .uncertain := by
  decide +kernel

theorem test_softResetTaken_keeps_rights :
    (after .softResetTaken State.reset).ports.toList.map Port.rights = State.reset.ports.toList.map Port.rights := by
  decide +kernel

theorem test_separationArrived_completes_mono :
    (after (.separationArrived 0 0 9 1 0 0 0xAA) State.reset).page? 9 =
      some ⟨some .mono, some 1, ⟨true, false, false, false⟩, .complete, 0⟩ := by decide +kernel

theorem test_withdrawPage_supersedes :
    ((after (.withdrawPage 0 0 7) (plant (jobIn .queued))).page? 7) = none := by decide +kernel

theorem test_stagePosition_claims :
    ((after (.stagePosition 0 0 3 63 1 7 (some 8) 2) State.reset).stage 3) =
      ⟨some 0, [(63, ⟨.twoUp, 7, some 8, .m⟩)]⟩ := by decide +kernel

theorem test_commitPlan_creates_job :
    let s := (plant (jobIn .racked)).setStage 1 ⟨some 0, [(5, ⟨.oneUp, 7, none, .k⟩)]⟩
    ((after (.commitPlan 0 0 1 4) s).job? 2).map Job.pos = some 5 := by decide +kernel

theorem test_requeuePosition_resets_attempt :
    ((after (.requeuePosition 0 0 0 0) (plant { jobIn .failed with attempt := 3 })).job? 1).map
      (fun j => (j.state, j.attempt)) = some (.queued, 1) := by decide +kernel

theorem test_hello_takes_work :
    let s := withEngine 0 { engineIn .offline false ⟨none, none, none, []⟩ with cassette := ⟨none, 0⟩ } (plant (jobIn .queued))
    (after (.cassetteLoaded 0 (some .oneUp) 5) (after (.hello 0) s)).lineSent = [.load 0 1 1 k0 .oneUp [some 0x55]] := by
  decide +kernel

theorem test_loaded_sends_expose :
    (after (.loaded 0 1 1) (engined .running false (nextAt .loadSent) (jobAt0 .assigned))).lineSent =
      [.expose 0 1 1 ⟨0, 0⟩] := by decide +kernel

theorem test_exposeStarted_takes_a_plate :
    let t := after (.exposeStarted 0 1 1) (engined .running false (nextAt .exposeSent) (jobAt0 .assigned))
    (t.engine 0).cassette.count = 4 ∧ (t.engine 0).ctx.current = some ⟨1, 600, false⟩ := by decide +kernel

theorem test_exposeDone_joins_lane :
    (after (.exposeDone 0 1 1) (engined .running false (exposing false) (jobAt0 .exposing))).lane 0 =
      { Lane.initial with floor := ⟨[⟨1, .inDeveloper, some 300⟩], none, false⟩ } := by decide +kernel

theorem test_exposeFault_faults_engine :
    let t := after (.exposeFault 0 1 1 true) (engined .running false (exposing false) (jobAt0 .exposing))
    (t.engine 0).status = ⟨.faulted, true, true, some (.exposeFault, 0)⟩ ∧
      (t.job? 1).map Job.attempt = some 2 := by decide +kernel

theorem test_loadTimer_locks_out :
    ((after (.loadTimerExpiry 0 .next) (engined .running true (nextAt .loadSent) (jobAt0 .assigned))).engine 0).status.mode =
      .lockedOut := by decide +kernel

theorem test_engineLinkLoss_empties :
    ((after (.engineLinkLoss 0) (engined .running false (nextAt .loaded) (jobAt0 .assigned))).engine 0).ctx =
      ⟨none, none, none, []⟩ := by decide +kernel

theorem test_atInspect_passes :
    (after (.atInspect 0 ⟨.read (plateTag 1 (jobAt0 .developing)), some ⟨1500, -1500⟩⟩)
      (inLane .inDeveloper (jobAt0 .developing))).lineSent.head? = some (.pass 0 1 1 ⟨1500, -1500⟩) := by decide +kernel

theorem test_atInspect_rejects :
    (after (.atInspect 0 ⟨.read (plateTag 1 (jobAt0 .developing)), some ⟨1501, 0⟩⟩)
      (inLane .inDeveloper (jobAt0 .developing))).lineSent.head? = some (.reject 0 1) := by decide +kernel

theorem test_punchedBent_marks :
    ((after (.punchedBent 0 1 1) (inLane .punching (jobAt0 .finishing))).lane 0).floor.order =
      [⟨1, .bent, none⟩] := by decide +kernel

theorem test_atExit_delivers :
    (after (.atExit 0 1 1) (inLane .bent (jobAt0 .finishing))).lineSent = [.deliver 0 1 1 (.rackSlot 0 0)] := by
  decide +kernel

theorem test_sorted_racks :
    let s := (inLane .granted (jobAt0 .finishing)).setDelivery (some ⟨0, 1, 1, .rackSlot 0 0⟩)
    let t := after (.sorted 1 1 (.rackSlot 0 0)) s
    t.rack k0 = [1] ∧ (t.job? 1).map Job.state = some .racked ∧ t.sorter.lastServed = some 0 := by decide +kernel

/-- R27, R140, R141: the last plate that a press waits for makes it READY. -/
theorem test_sorted_readies_press :
    let s := ((inLane .granted (jobAt0 .finishing)).setDelivery (some ⟨0, 1, 1, .rackSlot 0 0⟩)).modPress 0 fun x =>
      { x with positions := 1, unsatisfied := 1, state := .makeready }
    let t := after (.sorted 1 1 (.rackSlot 0 0)) s
    (t.press 0).state = .ready ∧ (t.press 0).unsatisfied = 0 := by decide +kernel

theorem test_mount_takes_from_rack :
    let t := after (.mount 0 0 0 0) ((plant (jobIn .racked)).setRack k0 [1])
    t.racks = [] ∧ (t.job? 1).map Job.state = some .mounted := by decide +kernel

theorem test_clockTick_counts_down :
    let t := after .clockTick (engined .running false (exposing false) (jobAt0 .exposing))
    t.clock = 1 ∧ (t.engine 0).ctx.current = some ⟨1, 599, false⟩ := by decide +kernel

theorem test_lineStop_stops_an_empty_line : (after (.lineStop 0 0) State.reset).line.state = .stopped := by
  decide +kernel

theorem test_deskLinkByte_query :
    ((frameBytes (Request.queryPart.frame 5)).foldl (fun s b => after (.deskLinkByte 1 b) s) State.reset).port 1 =
      (after (.queryPart 1 5) State.reset).port 1 := by decide +kernel

/-! ### States that meet the premises of the obligations: the queue, the desk link, what every step keeps -/

theorem test_premises_StepRunsFront :
    (State.reset.withCommand .clockTick).pending = .clockTick :: [] ∧ State.reset.pending = [] := ⟨rfl, rfl⟩

/-- A link with a request in hand, a number of others queued, and a number of refusals. -/
def busy (queued refused : Nat) : State :=
  State.reset.modLink 0 fun l =>
    { l with
      inHand := some ⟨0, 37, .sound .queryPart⟩
      queue := List.replicate queued ⟨1, 37, .sound .queryPart⟩
      refusals := List.replicate refused (.answer 0 0 ⟨.badFrame, []⟩) }

theorem test_premises_BadFrames :
    1024 < (1025 : U16).toNat ∧ (2 : Byte) ≠ 1 ∧ (0 : U16) ≠ crc (bytes16 0 ++ [1, 0] ++ bytes16 37 ++ []) ∧
      (State.reset.port 0).link.rx = .hunting ∧ (0xD6 : Byte) ≠ 0xD7 ∧
      ((State.reset.modLink 0 fun l => { l with rx := .inFrame [1] }).port 0).link.rx = .inFrame [1] ∧
      1024 < (1 : Byte).toNat + 256 * (4 : Byte).toNat := by decide +kernel

theorem test_premises_RequestByBytes : (State.reset.port 2).link.rx = .hunting := by decide +kernel

theorem test_premises_RequestQueued :
    ((busy 7 8).port 0).link.inHand ≠ none ∧ ((busy 7 8).port 0).link.queue.length < 8 ∧
      8 ≤ ((busy 8 7).port 0).link.queue.length ∧ (State.reset.setSoftDue true).softResetDue = true := by
  decide +kernel

theorem test_premises_RequestRefused :
    Free 1 State.reset ∧ Request.lineStop.allowed (State.reset.port 1).rights = false ∧
      (Request.discardStage 0).allowed (State.reset.port 1).rights = false :=
  ⟨⟨rfl, rfl, rfl⟩, by decide +kernel⟩

/-- The clauses of RequestRefused about a frame: an unknown kind; and a body that no request of its kind has, at a
port with the right and at one without. -/
theorem test_premises_RequestRefused_frames :
    (∀ q, Free q State.reset) ∧ ¬ (1 ≤ (38 : U16).toNat ∧ (38 : U16).toNat ≤ 37) ∧
      (1 ≤ (24 : U16).toNat ∧ (24 : U16).toNat ≤ 37) ∧
      (∀ q, Request.lineStop.allowed (State.reset.port q).rights = decide (q = 0)) ∧
      ∀ r : Request, r.kind = 24 → r.bytes ≠ [7] ∧ r = .lineStop := by
  refine ⟨fun q => ⟨?_, ?_, rfl⟩, by decide, by decide, by decide +kernel, fun r h => ?_⟩
  · revert q; decide +kernel
  · revert q; decide +kernel
  · cases r <;> dsimp only [Request.kind] at h <;> first | exact absurd h (by decide) | exact ⟨nofun, rfl⟩

theorem test_premises_EveryRequestAnswered : Free 0 (plant (jobIn .queued)) ∧ Tables (plant (jobIn .queued)) :=
  ⟨free_plant _, tables_plant _⟩

/-- The part with a link whose transmitter sends from a list. -/
def sending (x : Option SendSource) (refusals output : List OutFrame) (queue : List Received) : State :=
  State.reset.modLink 0 fun l => { l with sending := x, refusals := refusals, output := output, queue := queue }

theorem test_premises_FramesLeave :
    ((sending none [] [] []).port 0).link.sending = none ∧
    (let s := sending (some .refusals) [.answer 0 0 ⟨.badFrame, []⟩] [] []
     (s.port 0).link.sending = some .refusals ∧ (s.port 0).link.refusals = [.answer 0 0 ⟨.badFrame, []⟩]) ∧
    (let f := OutFrame.notice 0 (.clockSet 0 1)
     let s := sending (some .output) [] [f] []
     (s.port 0).link.sending = some .output ∧ (s.port 0).link.output = [f] ∧ f.isNotice = true) ∧
    (let s := sending (some .output) [] [.answer 3 27 ⟨.ok, []⟩] [⟨1, 37, .sound .queryPart⟩]
     (s.port 0).link.sending = some .output ∧ (s.port 0).link.output = [.answer 3 27 ⟨.ok, []⟩] ∧
       (s.softResetDue || (decide ((27 : U16) = 27) && decide (AnswerCode.ok = .ok))) = true) ∧
    (let s := sending (some .output) [] [.answer 3 37 ⟨.ok, []⟩] [⟨1, 37, .sound .queryPart⟩]
     (s.port 0).link.queue = ⟨1, 37, .sound .queryPart⟩ :: [] ∧
       (s.softResetDue || (decide ((37 : U16) = 27) && decide (AnswerCode.ok = .ok))) = false ∧ Tables s) ∧
    (let answer := OutFrame.answer 3 37 ⟨.ok, []⟩
     ∀ c ∈ [RequestContent.sound .lineStop, .unknownKind, .malformed],
       let s := sending (some .output) [] [answer] [⟨1, 24, c⟩]
       (s.port 0).link.sending = some .output ∧ (s.port 0).link.output = [answer] ∧
         (s.port 0).link.queue = ⟨1, 24, c⟩ :: [] ∧ Request.lineStop.kind = 24 ∧
         Request.lineStop.allowed (s.port 0).rights = true ∧
         Request.lineStop.allowed ((s.setRights 0 ⟨true, false, false, false⟩).port 0).rights = false) :=
  ⟨by decide +kernel, by decide +kernel, by decide +kernel, by decide +kernel,
    ⟨by decide +kernel, by decide +kernel, tables_of_ok (by decide +kernel)⟩, by decide +kernel⟩

/-- The state after POWER_ON with a command that waits. -/
def ticking : State := State.reset.withCommand .clockTick

theorem ranges_ticking : Ranges ticking :=
  ⟨Nat.zero_le _, fun x l => by cases x <;> revert l <;> decide +kernel, by decide +kernel⟩

theorem capacities_ticking : Capacities ticking where
  pages := Nat.zero_le _
  slots := Nat.zero_le _
  jobs := Nat.zero_le _
  attempts := by intro n j h; cases h
  cassette := by decide +kernel
  registers := by
    intro e
    have h : ticking.register e = ⟨.tracking, [], ⟨0, 0⟩, 0⟩ := by revert e; decide +kernel
    refine ⟨?_, ?_, ?_, ?_⟩ <;> rw [h] <;> decide
  inspections := by decide +kernel
  links := by
    intro p
    refine ⟨?_, ?_, ?_⟩ <;> revert p <;> decide +kernel
  loads := by decide +kernel

theorem modes_ticking : ModesAgree ticking := by
  intro e
  refine ⟨?_, ?_⟩ <;> revert e <;> decide +kernel

theorem rack_ticking : RackRoom ticking where
  racks := fun _ => Nat.zero_le _
  shelves := by decide +kernel
  delivery := by intro d h; cases h

/-- Nothing is in an engine, a lane, the sorter, a rack or on a shelf. -/
structure Empty (s : State) : Prop where
  contexts : ∀ e, (s.engine e).ctx = ⟨none, none, none, []⟩
  order : ∀ l, (s.lane l).floor.order = []
  delivery : s.sorter.delivery = none
  racks : ∀ k, s.rack k = []
  shelves : ∀ p, s.shelf p = []

theorem placed_empty {s : State} (h : Empty s)
    (hj : ∀ n j, s.job? n = some j → j.state ∉ [.exposing, .developing, .finishing, .uncertain])
    (hp : ∀ k x, s.pos? k = some x → (∀ n, x.work.mounted = some n → JobIs s n k .mounted) ∧
      ∀ n, x.work.current = some n → ∃ j, s.job? n = some j ∧ j.key = k) : Placed s where
  next := fun e w x => by rw [h.contexts e] at x; cases x
  parked := fun e w x => by rw [h.contexts e] at x; cases x
  apart := fun e v w x => by rw [h.contexts e] at x; cases x
  current := fun e w x => by rw [h.contexts e] at x; cases x
  order := fun l y x => by rw [h.order l] at x; cases x
  once := fun l => by rw [h.order l]; exact List.nodup_nil
  exposed := fun n j x hm => absurd hm (hj n j x)
  delivery := fun d x => by rw [h.delivery] at x; cases x
  racks := fun k n x => by rw [h.racks k] at x; cases x
  shelves := fun p x hx => by rw [h.shelves p] at hx; cases hx
  stacked := fun k => by rw [h.racks k, h.shelves k.press]; exact List.nodup_nil
  mounted := fun k x n hx hm => (hp k x hx).1 n hm
  own := fun k x n hx hc => (hp k x hx).2 n hc

theorem housed_empty {s : State} (h : Empty s) (hj : ∀ n j, s.job? n = some j → j.state = .queued) : Housed s where
  assigned := fun n j x hs => by rw [hj n j x] at hs; cases hs
  exposing := fun n j x hs => by rw [hj n j x] at hs; cases hs
  inLane := fun n j x hs => by rw [hj n j x] at hs; rcases hs with hs | hs <;> cases hs
  racked := fun n j x hs => by rw [hj n j x] at hs; cases hs
  mounted := fun n j x hs => by rw [hj n j x] at hs; cases hs
  uncertain := fun n j x hs => by rw [hj n j x] at hs; cases hs
  exposed := fun e w x => by rw [h.contexts e] at x; cases x
  parked := fun e w x => by rw [h.contexts e] at x; cases x

theorem empty_ticking : Empty ticking :=
  ⟨by decide +kernel, by decide +kernel, rfl, fun _ => rfl, by decide +kernel⟩

/-- The plant with a job that is QUEUED, and a command that waits. -/
def busyPlant : State := (plant (jobIn .queued)).withCommand .clockTick

theorem jobs_plant {j i : Job} {n : Nat} (h : (plant j).job? n = some i) : n = 1 ∧ i = j := by
  simp only [plant, job?, tget] at h
  split at h
  · next e => exact ⟨e.symm, (Option.some.inj h).symm⟩
  · cases h

theorem pages_plant {j : Job} {n : Nat} {r : PageRec} (h : (plant j).page? n = some r) :
    n = 7 ∧ r = ⟨some .mono, some 1, ⟨true, false, false, false⟩, .complete, 1⟩ := by
  simp only [plant, page?, tget] at h
  split at h
  · next e => exact ⟨e.symm, (Option.some.inj h).symm⟩
  · cases h

theorem slots_plant {j : Job} {k : SlotKey} {o : Slot} (h : (plant j).slot? k = some o) :
    k = slot7 ∧ o = ⟨0x55, 1, true, false⟩ := by
  simp only [plant, slot?, tget] at h
  split at h
  · next e => exact ⟨e.symm, (Option.some.inj h).symm⟩
  · cases h

theorem positions_plant {j : Job} {k : PosKey} {x : Position} (h : (plant j).pos? k = some x) :
    k = k0 ∧ x = ⟨⟨.oneUp, 7, none, .k⟩, 1, false, work1⟩ := by
  simp only [plant, pos?, tget] at h
  split at h
  · next e => exact ⟨e.symm, (Option.some.inj h).symm⟩
  · cases h

theorem empty_plant (j : Job) : Empty (plant j) :=
  ⟨(by decide +kernel : ∀ e, (State.reset.engine e).ctx = ⟨none, none, none, []⟩),
    (by decide +kernel : ∀ l, (State.reset.lane l).floor.order = []), rfl, fun _ => rfl,
    (by decide +kernel : ∀ p, State.reset.shelf p = [])⟩

theorem placed_plant : Placed (plant (jobIn .queued)) :=
  placed_empty (empty_plant _) (fun n j h => by rw [(jobs_plant h).2]; decide) fun k x h => by
    obtain ⟨rfl, rfl⟩ := positions_plant h
    exact ⟨nofun, fun n hn => by cases hn; exact ⟨_, rfl, rfl⟩⟩

theorem housed_plant : Housed (plant (jobIn .queued)) :=
  housed_empty (empty_plant _) fun n j h => by rw [(jobs_plant h).2]; rfl

theorem filed_plant : Filed (plant (jobIn .queued)) where
  records := fun n r h => by
    obtain ⟨rfl, rfl⟩ := pages_plant h
    exact ⟨nofun, nofun, fun _ => ⟨nofun, nofun⟩, fun _ c hc => by cases hc; rfl, nofun,
      fun _ x hx => by cases x <;> first | rfl | exact absurd rfl hx⟩
  slots := fun k o h => by
    obtain ⟨rfl, rfl⟩ := slots_plant h
    exact ⟨_, 1, rfl, rfl, Nat.le_refl 1, fun _ _ => rfl⟩
  current := fun k o h _ => by
    obtain ⟨rfl, rfl⟩ := slots_plant h
    exact ⟨_, rfl, rfl, rfl⟩
  arrived := fun n r v x h hv hx => by
    obtain ⟨rfl, rfl⟩ := pages_plant h
    cases hv
    cases x <;> first | exact ⟨_, rfl, rfl⟩ | cases hx

theorem counted_plant {j : Job} (hj : j = jobIn .queued ∨ j = jobAt0 .exposing) : Counted (plant j) := by
  rcases hj with rfl | rfl <;> exact {
    live := fun n r h => by
      obtain ⟨rfl, rfl⟩ := pages_plant h
      decide +kernel
    counts := fun k o h => by
      obtain ⟨rfl, rfl⟩ := slots_plant h
      decide +kernel
    freed := fun k o h hc => by
      obtain ⟨rfl, rfl⟩ := slots_plant h
      cases hc
    named := fun n j h => by
      obtain ⟨rfl, rfl⟩ := jobs_plant h
      decide +kernel
    slots := fun n j h => by
      obtain ⟨rfl, rfl⟩ := jobs_plant h
      decide +kernel
    held := fun n j h _ => by
      obtain ⟨rfl, rfl⟩ := jobs_plant h
      decide +kernel }

theorem current_plant {j : Job} (hj : j = jobIn .queued ∨ j = jobAt0 .exposing) : Current (plant j) := by
  rcases hj with rfl | rfl <;> exact {
    live := fun n j h _ => by
      obtain ⟨rfl, rfl⟩ := jobs_plant h
      exact ⟨_, rfl, rfl, rfl, rfl⟩
    rasters := fun n j h _ k hk => by
      obtain ⟨rfl, rfl⟩ := jobs_plant h
      cases List.mem_singleton.1 hk
      exact ⟨by decide +kernel, _, rfl, rfl⟩
    settled := fun k x n h _ => by
      obtain ⟨rfl, rfl⟩ := positions_plant h
      rfl
    unflagged := fun k x n j _ _ h => by
      obtain ⟨rfl, rfl⟩ := jobs_plant h
      rfl
    ended := fun n j h hs => by
      obtain ⟨rfl, rfl⟩ := jobs_plant h
      cases hs }

theorem orders_plant (j : Job) (h : j.entryOrder ≤ 1) : EntryOrders (plant j) where
  given := fun n i hi => by
    obtain ⟨rfl, rfl⟩ := jobs_plant hi
    exact h
  apart := fun n m i i' hi hi' _ => (jobs_plant hi).1.trans (jobs_plant hi').1.symm

/-- The counts of press 0 with one live position, which is not satisfied. -/
def waiting (x : Press) : Press := { x with positions := 1, unsatisfied := 1, state := .makeready }

/-- The busy plant with the press told of its position. -/
def toldPlant : State := busyPlant.modPress 0 waiting

theorem tells_toldPlant : PressesTell toldPlant where
  told := fun k x h => by
    obtain ⟨rfl, rfl⟩ := positions_plant (j := jobIn .queued) h
    decide +kernel
  positions := by decide +kernel
  unsatisfied := by decide +kernel
  state := by decide +kernel

/-- The premises of TablesAndSettingsKept, CapacitiesKept and PlatesInPlace. -/
theorem test_premises_kept :
    let s := ticking
    Tables s ∧ MaintHeld s ∧ Ranges s ∧ Capacities s ∧ ModesAgree s ∧ RackRoom s ∧ Placed s ∧ Housed s ∧
      ∃ t, Machine.step s = .next t :=
  ⟨tables_of_ok (by decide +kernel), ⟨0, rfl⟩, ranges_ticking, capacities_ticking, modes_ticking,
    rack_ticking, placed_empty empty_ticking (fun n j h => by cases h) (fun k x h => by cases h),
    housed_empty empty_ticking (fun n j h => by cases h), _, rfl⟩

/-- The premise of TablesAndSettingsKept on entry orders, with a live job. -/
theorem test_premises_TablesAndSettingsKept :
    (plant (jobIn .queued)).job? 1 ≠ none ∧ Tables busyPlant ∧ EntryOrders busyPlant ∧
      ∃ t, Machine.step busyPlant = .next t :=
  have ht := tables_plant (jobIn .queued)
  have ho := orders_plant (jobIn .queued) (by decide)
  ⟨nofun, ⟨ht.1, ht.2, ht.3, ht.4, ht.5, ht.6⟩, ⟨ho.1, ho.2⟩, _, rfl⟩

/-- The premises of CountsKept, with a live job and a position that its press is told of. -/
theorem test_premises_CountsKept :
    (plant (jobIn .queued)).job? 1 ≠ none ∧ Placed toldPlant ∧ Housed toldPlant ∧ Filed toldPlant ∧
      Counted toldPlant ∧ Current toldPlant ∧ Tables toldPlant ∧ PressesTell toldPlant ∧
      ∃ t, Machine.step toldPlant = .next t :=
  have hp := placed_plant
  have hh := housed_plant
  have hf := filed_plant
  have hc := counted_plant (.inl rfl)
  have hu := current_plant (.inl rfl)
  have ht := tables_plant (jobIn .queued)
  ⟨nofun, ⟨hp.1, hp.2, hp.3, hp.4, hp.5, hp.6, hp.7, hp.8, hp.9, hp.10, hp.11, hp.12, hp.13⟩,
    ⟨hh.1, hh.2, hh.3, hh.4, hh.5, hh.6, hh.7, hh.8⟩, ⟨hf.1, hf.2, hf.3, hf.4⟩, ⟨hc.1, hc.2, hc.3, hc.4, hc.5, hc.6⟩,
    ⟨hu.1, hu.2, hu.3, hu.4, hu.5⟩, ⟨ht.1, ht.2, ht.3, ht.4, ht.5, ht.6⟩, tells_toldPlant, _, rfl⟩

/-- The plant with job 1 EXPOSING at engine 0 while the line is STOPPING: all but engine 0 and lane 0 have come to rest. -/
def halting : State :=
  let s := ((engined .running false (exposing false) (jobAt0 .exposing)).stopLane 1).withCommand .clockTick
  { s with line := { s.line with
      state := .stopping, reachedEngines := #v[false, true, true, true, true, true], reachedLanes := #v[false, true] } }

theorem placed_halting : Placed halting where
  next := fun e w h => by rw [(by decide +kernel : ∀ e, (halting.engine e).ctx.next = none) e] at h; cases h
  parked := fun e w h => by rw [(by decide +kernel : ∀ e, (halting.engine e).ctx.parked = none) e] at h; cases h
  apart := fun e v w h => by rw [(by decide +kernel : ∀ e, (halting.engine e).ctx.next = none) e] at h; cases h
  current := fun e w h => by
    have k : ∀ e, (halting.engine e).ctx.current = none ∨
        e = 0 ∧ (halting.engine e).ctx.current = some ⟨1, 600, false⟩ := by decide +kernel
    rcases k e with k | ⟨rfl, k⟩ <;> rw [k] at h <;> cases h
    exact ⟨_, rfl, rfl, rfl, nofun⟩
  order := fun l y h => by rw [(by decide +kernel : ∀ l, (halting.lane l).floor.order = []) l] at h; cases h
  once := fun l => by rw [(by decide +kernel : ∀ l, (halting.lane l).floor.order = []) l]; exact List.nodup_nil
  exposed := fun n j h _ => by
    obtain ⟨_, rfl⟩ := jobs_plant (show (plant (jobAt0 .exposing)).job? n = some j from h)
    exact ⟨nofun, nofun⟩
  delivery := fun d h => by cases h
  racks := fun k n h => by cases h
  shelves := fun p x h => by rw [(by decide +kernel : ∀ p, halting.shelf p = []) p] at h; cases h
  stacked := fun k => by
    rw [(rfl : halting.rack k = []), (by decide +kernel : ∀ p, halting.shelf p = []) k.press]
    exact List.nodup_nil
  mounted := fun k x n h hm => by
    obtain ⟨_, rfl⟩ := positions_plant (j := jobIn .queued) (show (plant (jobIn .queued)).pos? k = some x from h)
    cases hm
  own := fun k x n h hc => by
    obtain ⟨rfl, rfl⟩ := positions_plant (j := jobIn .queued) (show (plant (jobIn .queued)).pos? k = some x from h)
    cases hc
    exact ⟨_, rfl, rfl⟩

theorem housed_halting : Housed halting := by
  have jobs : ∀ {n j}, halting.job? n = some j → n = 1 ∧ j = jobAt0 .exposing := fun h =>
    jobs_plant (show (plant (jobAt0 .exposing)).job? _ = some _ from h)
  exact {
    assigned := fun n j h hs => by rw [(jobs h).2] at hs; cases hs
    exposing := fun n j h _ => by
      obtain ⟨rfl, rfl⟩ := jobs h
      exact ⟨0, _, rfl, rfl⟩
    inLane := fun n j h hs => by rw [(jobs h).2] at hs; rcases hs with hs | hs <;> cases hs
    racked := fun n j h hs => by rw [(jobs h).2] at hs; cases hs
    mounted := fun n j h hs => by rw [(jobs h).2] at hs; cases hs
    uncertain := fun n j h hs => by rw [(jobs h).2] at hs; cases hs
    exposed := fun e w h => by rw [(by decide +kernel : ∀ e, (halting.engine e).ctx.next = none) e] at h; cases h
    parked := fun e w h => by rw [(by decide +kernel : ∀ e, (halting.engine e).ctx.parked = none) e] at h; cases h }

theorem served_halting : Served halting where
  given := fun e n j _ h _ => by
    obtain ⟨_, rfl⟩ := jobs_plant (show (plant (jobAt0 .exposing)).job? n = some j from h.1)
    cases h.2.1
  exposed := fun e w h => by
    have := h.next
    rw [(by decide +kernel : ∀ e, (halting.engine e).ctx.next = none) e] at this
    cases this

theorem marked_halting : RestMarked halting :=
  ⟨by decide +kernel, by decide +kernel, by decide +kernel, by decide +kernel, fun h => absurd rfl h⟩

theorem modes_halting : ModesAgree halting := by
  have h : ∀ e, (halting.engine e).ctx.next = none ∧ (halting.engine e).ctx.parked = none ∧
      ((halting.engine e).status.mode = .offline ∨ (halting.engine e).status.mode = .lockedOut →
        (halting.engine e).ctx.current = none) := by decide +kernel
  exact fun e => ⟨fun _ => ⟨(h e).1, (h e).2.1⟩, (h e).2.2⟩

/-- The premises of EnginesKeptServed, while the line is STOPPING, and in another line state. -/
theorem test_premises_EnginesKeptServed :
    (Tables halting ∧ ModesAgree halting ∧ Placed halting ∧ Housed halting ∧ Filed halting ∧ Counted halting ∧
      Current halting ∧ Served halting ∧ RestMarked halting ∧ halting.line.state = .stopping ∧
      ∃ t, Machine.step halting = .next t) ∧
    ModesAgree busyPlant ∧ Served busyPlant ∧ RestMarked busyPlant ∧ busyPlant.line.state ≠ .stopping := by
  have hf := filed_plant
  have hc := counted_plant (.inr rfl)
  have hu := current_plant (.inr rfl)
  refine ⟨⟨tables_of_ok (by decide +kernel), modes_halting, placed_halting, housed_halting, ⟨hf.1, hf.2, hf.3, hf.4⟩,
    ⟨hc.1, hc.2, hc.3, hc.4, hc.5, hc.6⟩, ⟨hu.1, hu.2, hu.3, hu.4, hu.5⟩, served_halting, marked_halting, rfl, _, rfl⟩,
    fun e => ?_, ⟨fun e n j _ _ h => ?_, fun e w h => ?_⟩, ?_, by decide +kernel⟩
  · have h := (empty_plant (jobIn .queued)).1 e
    exact ⟨fun _ => ⟨congrArg Contexts.next h, congrArg Contexts.parked h⟩, fun _ => congrArg Contexts.current h⟩
  · exact absurd h.works.running ((by decide +kernel : ∀ e, (busyPlant.engine e).status.mode ≠ .running) e)
  · exact absurd h.works.running ((by decide +kernel : ∀ e, (busyPlant.engine e).status.mode ≠ .running) e)
  · have h : busyPlant.line.state ≠ .stopping := by decide +kernel
    exact ⟨fun k => absurd k h, fun k => absurd k h, fun k => absurd k h, fun k => absurd k h, fun _ => by decide +kernel⟩

/-- The premises of ResetLeaves and ResetTakesJobs, with a job in each state, superseded or not. -/
theorem test_premises_resets (st : JobState) (b : Bool) :
    let j := { jobAt0 st with superseded := b }
    Tables (plant j) ∧ (plant j).job? 1 = some j ∧ j.state = st ∧ j.superseded = b ∧ j.engine = some 0 ∧
      (b = false → ∀ n i, (plant j).job? n = some i → i.superseded = true →
        i.state ∉ [.assigned, .developing, .finishing]) :=
  ⟨tables_plant _, rfl, rfl, rfl, rfl, fun h n i hi hs => by rw [(jobs_plant hi).2] at hs; exact absurd (h.symm.trans hs) nofun⟩

/-- A deferred position, which the departure of a superseded job at a reset lets be served (R55). -/
def deferring : State := working ⟨none, none, true, true, false⟩ { jobAt0 .assigned with superseded := true }

theorem test_premises_ResetLeaves_deferred :
    Tables deferring ∧ (deferring.pos? k0).map Position.work = some ⟨none, none, true, true, false⟩ ∧
      (deferring.job? 1).map Job.superseded = some true :=
  ⟨tables_working _ _, rfl, rfl⟩

/-- R48, R52, R55, R56: the job made as the superseded one ends takes the next number and entry order, and its origin
from the mark. -/
theorem test_reset_serves_deferred :
    let t := after .softResetTaken deferring
    t.lastJob = 2 ∧ t.entryCount = 2 ∧ (t.job? 2).map Job.origin = some .remake ∧
      (t.pos? k0).map Position.work = some ⟨some 2, none, false, false, false⟩ := by decide +kernel

/-! ### Pages and rasters -/

theorem test_premises_SeparationAdded :
    (classOf 1 = some .colour ∧ sepOf 3 = some .y ∧ classOf 0 = some .mono ∧ sepOf 0 = some .k) ∧
    (Free 0 (booked 511) ∧ Tables (booked 511) ∧ (booked 511).slots.length < 1024 ∧
      ArrivalFinds (booked 511) 512 1 .colour .y ⟨false, false, false, false⟩ 0 ∧
      ArrivalFinds (booked 511) 511 255 .mono .k ⟨false, false, false, false⟩ 0) ∧
    (let s := (plant (jobIn .queued)).putPage 7 ⟨some .colour, some 1, ⟨true, false, false, false⟩, .partly, 1⟩
     Free 0 s ∧ Tables s ∧ ArrivalFinds s 7 1 .colour .y ⟨true, false, false, false⟩ 1 ∧
       ({ s with slots := slotsFor 1023 1 }).slots.length < 1024) :=
  ⟨by decide +kernel,
    ⟨⟨rfl, rfl, rfl⟩, tables_booked _, by decide +kernel,
      .nothing (by decide +kernel) (by simp only [booked, List.length_map, List.length_range]; decide),
      .expected ⟨none, none, ⟨false, false, false, false⟩, .expected, 0⟩ (by decide +kernel) rfl⟩,
    ⟨rfl, rfl, rfl⟩, tables_of_ok (by decide +kernel),
    .lacking ⟨some .colour, some 1, ⟨true, false, false, false⟩, .partly, 1⟩ (by decide +kernel) (.inl rfl) rfl rfl rfl,
    by simp only [slotsFor, List.length_map, List.length_range]; decide⟩

/-- The plant with a job that failed on the raster of page 7, which is BAD. -/
def badRaster : State :=
  (plant { jobIn .failed with lastFault := some ⟨.rasterUnreadable, .engine 0, 0⟩ }).modSlot slot7
    fun y => { y with bad := true }

theorem test_premises_SeparationReplaced :
    Free 0 badRaster ∧ Tables badRaster ∧ (badRaster.port 0).rights.pages = true ∧
      classOf 0 = some .mono ∧ sepOf 0 = some .k ∧
      badRaster.page? 7 = some ⟨some .mono, some 1, ⟨true, false, false, false⟩, .complete, 1⟩ ∧
      badRaster.slot? slot7 = some ⟨0x55, 1, true, true⟩ :=
  ⟨⟨rfl, rfl, rfl⟩, tables_of_ok (by decide +kernel), by decide +kernel⟩

set_option maxRecDepth 8000 in
theorem test_premises_SeparationRevised :
    let s := plant (jobIn .queued)
    let full := { s with slots := slotsFor 1024 0 }
    (Free 0 s ∧ Tables s ∧ Placed s ∧ (s.pos? k0).map (fun x => x.work.current) = some (some 1) ∧
      s.slots.length < 1024 ∧ s.page? 7 = some ⟨some .mono, some 1, ⟨true, false, false, false⟩, .complete, 1⟩ ∧ 1 < (2 : Byte).toNat) ∧
    (Free 0 full ∧ Tables full ∧ Placed full ∧ full.slot? ⟨7, 1, .k⟩ = some ⟨0x55, 0, true, false⟩) :=
  have h := tables_plant (jobIn .queued)
  have p := placed_plant
  ⟨⟨free_plant _, h, p, rfl, by decide +kernel⟩,
    ⟨⟨rfl, rfl, rfl⟩, ⟨h.pages, slotsFor_ordered _ _, h.plan, h.stages, h.jobs, h.racks⟩,
      ⟨p.1, p.2, p.3, p.4, p.5, p.6, p.7, p.8, p.9, p.10, p.11, p.12, p.13⟩, by decide +kernel⟩⟩

theorem test_premises_SeparationRefused :
    (Free 0 State.reset ∧ (State.reset.port 0).rights.pages = true ∧ 1 < (2 : Byte).toNat ∧ 3 < (4 : Byte).toNat ∧
      0 < (1 : Byte).toNat ∧ (3 : Byte).toNat ≤ 3) ∧
    ((booked 512).page? 513 = none ∧ 512 ≤ (booked 512).pages.length ∧
      (booked 511).page? 513 = none ∧ (booked 511).pages.length < 512 ∧ 1024 ≤ (slotsFor 1024 1).length ∧
      (booked 1).page? 1 = some ⟨none, none, ⟨false, false, false, false⟩, .expected, 0⟩) ∧
    (let s := { plant (jobIn .queued) with slots := slotsFor 1024 1 }
     let r : PageRec := ⟨some .mono, some 1, ⟨true, false, false, false⟩, .complete, 1⟩
     let withdrawn := s.putPage 7 { r with state := .withdrawn }
     let partly := s.putPage 7 ⟨some .colour, some 2, ⟨true, false, false, false⟩, .partly, 1⟩
     s.page? 7 = some r ∧ withdrawn.page? 7 = some { r with state := .withdrawn } ∧ (1 : Byte).toNat ≤ 1 ∧
       partly.page? 7 = some ⟨some .colour, some 2, ⟨true, false, false, false⟩, .partly, 1⟩ ∧ (1 : Byte).toNat < 2 ∧
       r.cls ≠ some .colour ∧ s.slot? ⟨7, 1, .k⟩ = some ⟨0x55, 1, true, false⟩ ∧ r.arrived.has .k = true ∧
       r.arrived.has .c = false ∧ r.state ≠ .expected ∧ 1 < (2 : Byte).toNat ∧
       ∀ e ∈ s.slots, e.1.page = 7 → e.2.current = true → e.2.count ≠ 0) :=
  ⟨⟨free_reset, by decide +kernel⟩, by decide +kernel, by decide +kernel⟩

theorem test_premises_PageWithdrawn :
    let r : PageRec := ⟨some .mono, some 1, ⟨true, false, false, false⟩, .complete, 1⟩
    let gone := (plant (jobIn .queued)).putPage 7 { r with state := .withdrawn }
    let other : SlotKey := ⟨8, 1, .k⟩
    let two := { plant (jobIn .queued) with slots := [(slot7, ⟨0x55, 1, true, false⟩), (other, ⟨0x66, 1, false, true⟩)] }
    (Tables two ∧ other.page ≠ 7 ∧ two.slot? other = some ⟨0x66, 1, false, true⟩) ∧
    Free 0 (plant (jobIn .queued)) ∧ Tables (plant (jobIn .queued)) ∧ Placed (plant (jobIn .queued)) ∧
      Filed (plant (jobIn .queued)) ∧ Counted (plant (jobIn .queued)) ∧ (plant (jobIn .queued)).page? 8 = none ∧
      (plant (jobIn .queued)).page? 7 = some r ∧ gone.page? 7 = some { r with state := .withdrawn } ∧ Free 0 gone ∧
      Tables gone :=
  ⟨⟨tables_of_ok (by decide +kernel), by decide +kernel⟩, free_plant _, tables_plant _, placed_plant, filed_plant,
    counted_plant (.inl rfl), by decide +kernel, by decide +kernel, by decide +kernel, ⟨rfl, rfl, rfl⟩,
    tables_of_ok (by decide +kernel)⟩

/-! ### The plate book -/

/-- The part with a stage of press 3. -/
def staged (x : Option PortId) : State := State.reset.setStage 3 ⟨x, [(63, ⟨.oneUp, 7, none, .k⟩)]⟩

theorem test_premises_StageRequests :
    (Free 1 State.reset ∧ (State.reset.port 1).rights.plan = false ∧ (State.reset.port 1).rights.maint = false) ∧
    (∀ x, Free 0 (staged x) ∧ ((staged x).port 0).rights.plan = true ∧ ((staged x).port 0).rights.maint = true ∧
      ((staged x).stage 3).holder = x ∧ tget ((staged x).stage 3).entries 63 = some ⟨.oneUp, 7, none, .k⟩ ∧
      tget ((staged x).stage 3).entries 62 = none) ∧
    SpellsContent 0 7 none 3 ⟨.oneUp, 7, none, .y⟩ ∧ SpellsContent 1 7 (some 8) 0 ⟨.twoUp, 7, some 8, .k⟩ ∧
    (∀ c, ¬ SpellsContent 1 7 (some 7) 0 c) ∧ 4 ≤ (4 : Byte).toNat ∧ 64 ≤ (64 : Byte).toNat ∧
    (let s := (staged (some 2)).setRights 0 ⟨false, true, false, false⟩
     Free 0 s ∧ (s.port 0).rights.plan = true ∧ (s.port 0).rights.maint = false ∧ (s.stage 3).holder = some 2) :=
  ⟨⟨⟨rfl, rfl, rfl⟩, by decide +kernel⟩, fun x => ⟨⟨rfl, rfl, rfl⟩, rfl, rfl, rfl, rfl, rfl⟩,
    ⟨rfl, ⟨by decide, rfl⟩, .inl ⟨rfl, rfl, rfl, rfl⟩⟩,
    ⟨rfl, ⟨by decide, rfl⟩, .inr ⟨rfl, 8, rfl, by decide, by decide, rfl, rfl⟩⟩,
    (by
      rintro c ⟨_, _, h | ⟨_, y, h, _, h', _⟩⟩
      · exact absurd h.1 (by decide)
      · cases h; exact h' rfl),
    by decide, by decide, ⟨rfl, rfl, rfl⟩, by decide +kernel⟩

set_option maxRecDepth 4000 in
theorem test_premises_commits :
    let s := (booked 511).setStage 3 ⟨some 0, [(63, ⟨.oneUp, 600, none, .k⟩)]⟩
    let full := (booked 512).setStage 3 ⟨some 0, [(63, ⟨.oneUp, 600, none, .k⟩)]⟩
    (Free 0 s ∧ Tables s ∧ Placed s ∧ (s.port 0).rights.plan = true ∧ (s.stage 3).holder = some 0 ∧
      (s.press 3).state ≠ .running ∧ s.pages.length + (newPageIds s (s.stage 3)).length ≤ 512) ∧
    (Free 0 full ∧ 512 < full.pages.length + (newPageIds full (full.stage 3)).length ∧ full.pages.length ≤ 512) ∧
    ((staged (some 1)).stage 3).holder = some 1 ∧ ((staged none).stage 3).holder = none ∧
    ((State.reset.setPressState 3 .running).press 3).state = .running :=
  have h := tables_booked 511
  have hs : Tables (State.reset.setStage 3 ⟨some 0, [(63, ⟨.oneUp, 600, none, .k⟩)]⟩) := tables_of_ok (by decide +kernel)
  ⟨⟨⟨rfl, rfl, rfl⟩, ⟨h.pages, h.slots, h.plan, hs.stages, h.jobs, h.racks⟩,
      placed_empty ⟨empty_ticking.1, empty_ticking.2, rfl, fun _ => rfl, empty_ticking.5⟩ (fun n j h => by cases h)
        (fun k x h => by cases h), by decide +kernel⟩,
    ⟨⟨rfl, rfl, rfl⟩, by decide +kernel⟩, by decide +kernel⟩

/-- The premises of CommitTaken with a position that is removed: its current job superseded, its mounted job retired. -/
theorem test_premises_CommitRemoves :
    (let s := plant (jobIn .queued)
     Free 0 s ∧ Tables s ∧ Placed s ∧ (s.pos? k0).map (fun x => x.work.current) = some (some 1) ∧
       tget (s.stage 0).entries 0 = none ∧ (s.stage 0).holder = none ∧ (s.press 0).state ≠ .running) ∧
    (let s := working ⟨some 1, some 1, false, false, false⟩ (jobIn .mounted)
     Free 0 s ∧ Tables s ∧ Placed s ∧ (s.pos? k0).map (fun x => x.work.mounted) = some (some 1) ∧
       tget (s.stage 0).entries 0 = none ∧ (s.stage 0).holder = none ∧ (s.press 0).state ≠ .running) := by
  refine ⟨⟨free_plant _, tables_plant _, placed_plant, by decide +kernel⟩, ⟨rfl, rfl, rfl⟩, tables_working _ _, ?_, by decide +kernel⟩
  have h := empty_plant (jobIn .mounted)
  refine placed_empty ⟨h.1, h.2, h.3, h.4, h.5⟩ (fun n j hj => ?_) fun k x hx => ?_
  · rw [(jobs_plant hj).2]
    decide
  · replace hx : (if k0 = k then some _ else none) = some x := hx
    split at hx
    · next e =>
      subst e
      cases hx
      exact ⟨fun n hn => by cases hn; exact ⟨_, rfl, rfl, rfl⟩, fun n hn => by cases hn; exact ⟨_, rfl, rfl⟩⟩
    · cases hx

theorem test_premises_PositionHolds :
    let s := plant (jobIn .queued)
    let held := s.modPos k0 fun y => { y with held := true }
    (Free 0 s ∧ Tables s ∧ (s.port 0).rights.room = true ∧ (s.pos? k0).map Position.held = some false) ∧
      (Free 0 held ∧ Tables held ∧ (held.pos? k0).map Position.held = some true) ∧ s.pos? ⟨3, 63⟩ = none :=
  ⟨⟨free_plant _, tables_plant _, by decide +kernel⟩, ⟨⟨rfl, rfl, rfl⟩, tables_of_ok (by decide +kernel), by decide +kernel⟩,
    by decide +kernel⟩

/-! ### Plate jobs -/

theorem test_premises_PositionRequeued :
    (∀ st, Free 0 (plant (jobIn st)) ∧ Tables (plant (jobIn st)) ∧ (plant (jobIn st)).pos? ⟨3, 63⟩ = none ∧
      ((plant (jobIn st)).pos? k0).map (fun x => x.work.current) = some (some 1) ∧
      (plant (jobIn st)).job? 1 = some (jobIn st) ∧ (jobIn st).state = st) ∧
    (∀ m, Free 0 (crowded m) ∧ Tables (crowded m) ∧ (crowded m).jobs.length = m ∧
      ((crowded m).pos? k0).map (fun x => (x.work.current, makeable (crowded m) x.content)) = some (none, true)) ∧
    (∀ m b, let s := (crowded m).modWork k0 fun w => { w with deferred := b }
     Free 0 s ∧ Tables s ∧ (s.pos? k0).map (fun x => (x.work.current, x.work.deferred)) = some (none, b)) ∧
    (let s := { crowded 0 with pages := [] }
     Free 0 s ∧ Tables s ∧ (s.pos? k0).map (fun x => (x.work.current, makeable s x.content)) = some (none, false)) :=
  ⟨fun _ => ⟨free_plant _, tables_plant _, rfl, rfl, rfl, rfl⟩,
    fun m => ⟨⟨rfl, rfl, rfl⟩, tables_crowded m, by rw [crowded, List.length_map, List.length_range], rfl⟩,
    fun m b => ⟨⟨rfl, rfl, rfl⟩, have h := tables_crowded m
      ⟨h.pages, h.slots, List.pairwise_singleton _ _, h.stages, h.jobs, h.racks⟩, rfl⟩,
    ⟨rfl, rfl, rfl⟩, tables_of_ok (by decide +kernel), by decide +kernel⟩

theorem test_premises_SupersedeByState :
    (∀ st, Tables (plant (jobIn st)) ∧ (plant (jobIn st)).job? 1 = some (jobIn st) ∧ (jobIn st).state = st ∧
      ((plant (jobIn st)).pos? k0).map (fun x => x.work.deferred) = some false) ∧
    (let s := engined .running false (nextAt .exposeSent) (jobAt0 .assigned)
     Tables s ∧ s.job? 1 = some (jobAt0 .assigned) ∧ WaitsAt (s.engine 0).ctx.next 1 .exposeSent) ∧
    (let s := plant (jobIn .assigned)
     ¬ ∃ e, WaitsAt (s.engine e).ctx.next 1 .exposeSent) ∧
    (((plant (jobIn .mounted)).press 0).state ≠ .running ∧
      (((plant (jobIn .mounted)).setPressState 0 .running).press 0).state = .running ∧
      (((plant (jobIn .racked)).setShelf 0 [(1, 0)]).shelf 0) = [(1, 0)]) ∧
    (∀ st, let s := (working ⟨some 1, none, false, false, true⟩ (jobIn st)).modPress 0 fun x =>
        { x with positions := 1, state := .ready }
     Tables s ∧ (s.pos? k0).map (fun x => (x.work.satisfied, x.content.pages.any (needsPage s x.content.sep))) =
       some (true, true) ∧ (s.press 0).state = .ready ∧ countedState (s.press 0).positions 1 = .makeready) :=
  ⟨fun _ => ⟨tables_plant _, rfl, rfl, rfl⟩, ⟨tables_engined _ _ _ _, rfl, ⟨_, rfl, rfl, rfl⟩⟩,
    (by
      intro s
      rintro ⟨e, y, h, _⟩
      have : ∀ e, ((plant (jobIn .assigned)).engine e).ctx.next = none := by decide +kernel
      rw [this e] at h
      cases h),
    by decide +kernel, fun st => ⟨have h := tables_working ⟨some 1, none, false, false, true⟩ (jobIn st)
      ⟨h.pages, h.slots, h.plan, h.stages, h.jobs, h.racks⟩, rfl, rfl, rfl⟩⟩

/-! ### Engines and the register tracker -/

/-- The plant with two jobs, of page 7, whose engines 0 and 1 stand as said; job 2 is as given. -/
def duo (x0 x1 : Engine) (j1 j2 : Job) : State :=
  withEngine 1 x1 (withEngine 0 x0 { plant j1 with jobs := [(1, j1), (2, { j2 with entryOrder := 2 })] })

/-- An engine that is RUNNING with plates of a format, and a job in its next context. -/
def worker (f : PlateFormat) (next : Option WaitingCtx) : Engine :=
  ⟨⟨.running, true, false, none⟩, ⟨false, false, false⟩, ⟨some f, 5⟩, ⟨none, next, none, []⟩⟩

theorem worker_can (f : PlateFormat) (w : Option WaitingCtx) : CanWork (worker f w) :=
  ⟨rfl, .inl rfl, rfl, nofun, Nat.succ_pos 4⟩

/-- The clauses of WorkGiven about what is offered and taken: the first job offered is passed over for its format. -/
theorem test_premises_WorkGiven_queue :
    let s := duo (worker .twoUp none) (worker .twoUp none) (jobIn .queued) { jobIn .queued with format := .twoUp }
    let queue := s.offered .urgent ++ s.offered .normal
    Tables s ∧ ((engined .running false (nextAt .loaded) (jobAt0 .assigned)).engine 0).ctx.next ≠ none ∧
      (∀ x ∈ (plant (jobIn .queued)).offered .normal,
        ¬ EligibleFor (plant (jobIn .queued)) 0 x.1 x.2) ∧
      (s.engine 0).ctx.next = none ∧ queue = [(1, jobIn .queued)] ++ (2, { jobIn .queued with format := .twoUp, entryOrder := 2 }) :: [] ∧
      (∀ x ∈ [(1, jobIn .queued)], ¬ EligibleFor s 0 x.1 x.2) ∧
      EligibleFor s 0 2 { jobIn .queued with format := .twoUp, entryOrder := 2 } := by
  refine ⟨tables_of_ok (by decide +kernel), by decide +kernel, fun x _ h => absurd h.works.running (by decide +kernel), rfl,
    by decide +kernel, fun x hx h => ?_, worker_can _ _, rfl, .inl rfl, nofun⟩
  cases List.mem_singleton.1 hx
  exact absurd h.format (by decide +kernel)

/-- The clauses of WorkGiven about preemption: engine 0 cannot be preempted, and engine 1 can. -/
theorem test_premises_WorkGiven_preempt :
    let urgent : Job := { jobIn .queued with cls := .urgent }
    let s := duo (worker .oneUp none) (worker .oneUp (some ⟨1, .loaded, none, false⟩)) (jobIn .assigned) urgent
    Preempts s 1 2 urgent ∧ (∀ e, e < 1 → ¬ Preempts s e 2 urgent) ∧ ∀ e n, ¬ Preempts (plant urgent) e n urgent := by
  refine ⟨⟨⟨worker_can _ _, rfl, .inl rfl, nofun⟩, ⟨_, jobIn .assigned, rfl, nofun, rfl, rfl⟩, rfl⟩, fun e he h => ?_,
    fun e n h => ?_⟩
  · obtain ⟨w, i, hw, _⟩ := h.next
    obtain rfl : e = 0 := (by decide : ∀ e : EngineId, e < 1 → e = 0) e he
    cases hw
  · obtain ⟨w, i, hw, _⟩ := h.next
    rw [(empty_plant _).1 e] at hw
    cases hw

/-- The clauses of WorkGiven about EXPOSE: two engines of lane 0 are LOADED, with jobs of the same class or not. -/
theorem test_premises_WorkGiven_expose (c : JobClass) :
    let w := fun n => (⟨n, .loaded, none, false⟩ : WaitingCtx)
    let s := duo (worker .oneUp (some (w 1))) (worker .oneUp (some (w 2))) (jobAt0 .assigned) { jobIn .assigned with cls := c }
    HasLaneRoom s 0 ∧ laneFed 0 = 0 ∧ laneFed 1 = 0 ∧ Loaded s 0 (w 1) ∧ Loaded s 1 (w 2) ∧
      s.job? 1 = some (jobAt0 .assigned) ∧ ¬ IsUrgent s (w 1) ∧ (IsUrgent s (w 2) ↔ c = .urgent) := by
  refine ⟨⟨by cases c <;> decide +kernel, rfl⟩, rfl, rfl, ⟨worker_can _ _, rfl, rfl, rfl⟩, ⟨worker_can _ _, rfl, rfl, rfl⟩, rfl, ?_, ?_, ?_⟩
  · rintro ⟨j, hj, h⟩
    cases hj
    cases h
  · rintro ⟨j, hj, h⟩
    cases hj
    exact h
  · intro h
    exact ⟨_, rfl, h⟩

/-- The clauses of EnginesServed about a STOPPING line: with an exposure running it stays so, and without it stops. -/
theorem test_serve_marks :
    (halting.line.state = .stopping ∧ (serve halting).line.state = .stopping ∧
      (serve halting).line.reachedEngines = #v[false, true, true, true, true, true]) ∧
    let s := halting.modCtx 0 fun _ => ⟨none, none, none, []⟩
    Tables s ∧ s.line.state = .stopping ∧ (serve s).line.state = .stopped ∧
      (serve s).line.reachedEngines = #v[false, false, false, false, false, false] :=
  ⟨by decide +kernel, tables_of_ok (by decide +kernel), by decide +kernel⟩

/-- The premises of EnginesServed: the colour-starved condition holds, or does not. -/
theorem test_premises_EnginesServed :
    let j := { jobIn .queued with colourNeed := ColourClass.colour }
    let s := (engined .running false ⟨none, none, none, []⟩ j).setRegister 0 ⟨.drifted, [], ⟨0, 0⟩, 0⟩
    Tables s ∧ ColourStarves s ∧ s.starved = false ∧ ColourStarves (s.setStarved true) ∧
      (s.setStarved true).starved = true ∧ ¬ ColourStarves (plant j) := by
  have hs : ∀ b, ColourStarves (((engined .running false ⟨none, none, none, []⟩
      { jobIn .queued with colourNeed := .colour }).setRegister 0 ⟨.drifted, [], ⟨0, 0⟩, 0⟩).setStarved b) := by
    intro b
    refine ⟨⟨0, rfl⟩, fun e he => ?_, 1, _, rfl, rfl, rfl⟩
    revert e
    cases b <;> decide +kernel
  refine ⟨tables_of_ok (by decide +kernel), hs false, rfl, hs true, rfl, ?_⟩
  rintro ⟨⟨e, he⟩, _⟩
  revert e
  decide +kernel

theorem test_premises_HelloTaken :
    (∀ m b, Tables (engined m b ⟨none, none, none, []⟩ (jobIn .queued)) ∧
      ((engined m b ⟨none, none, none, []⟩ (jobIn .queued)).engine 0).status = ⟨m, true, b, none⟩ ∧
      ∀ n, ¬ HeldIn ((engined m b ⟨none, none, none, []⟩ (jobIn .queued)).engine 0).ctx n) ∧
    (∀ b, ((engined .running b (nextAt .loaded) (jobAt0 .assigned)).engine 0).status.mode = .running ∧
      HeldIn ((engined .running b (nextAt .loaded) (jobAt0 .assigned)).engine 0).ctx 1) ∧
    (∀ b, ((engined .faulted b (exposing false) (jobAt0 .exposing)).engine 0).status.mode = .faulted ∧
      HeldIn ((engined .faulted b (exposing false) (jobAt0 .exposing)).engine 0).ctx 1) :=
  ⟨fun _ _ => ⟨tables_engined _ _ _ _, rfl, not_held rfl⟩, fun _ => ⟨rfl, .inr (.inl ⟨_, rfl, rfl⟩)⟩,
    fun _ => ⟨rfl, .inl ⟨_, rfl, rfl⟩⟩⟩

theorem test_premises_EngineLinkLost :
    let s := engined .running false (nextAt .loaded) (jobAt0 .assigned)
    Tables s ∧ (s.engine 0).status.mode ≠ .lockedOut ∧ HeldIn (s.engine 0).ctx 1 ∧
      ((engined .lockedOut true ⟨none, none, none, []⟩ (jobIn .queued)).engine 0).status.mode = .lockedOut :=
  ⟨tables_engined _ _ _ _, by decide +kernel, .inr (.inl ⟨_, rfl, rfl⟩), rfl⟩

theorem test_premises_CassetteTaken :
    250 < 251 ∧ ¬ 250 < 250 ∧ (some PlateFormat.oneUp ≠ none) ∧
    (∀ m, ((engined m true ⟨none, none, none, []⟩ (jobIn .queued)).engine 0).status.mode = m ∧
      Tables (engined m true ⟨none, none, none, []⟩ (jobIn .queued)) ∧
      ((engined m true ⟨none, none, none, []⟩ (jobIn .queued)).engine 0).cassette.format = some .oneUp) ∧
    (∀ m, some PlateFormat.twoUp ≠ ((engined m true (nextAt .loaded) (jobAt0 .assigned)).engine 0).cassette.format ∧
      WaitsIn ((engined m true (nextAt .loaded) (jobAt0 .assigned)).engine 0).ctx 1) :=
  ⟨by decide, by decide, by decide, fun _ => ⟨rfl, tables_engined _ _ _ _, rfl⟩,
    fun _ => ⟨by simp [engined, withEngine, engine, vmod, engineIn], .inl ⟨_, rfl, rfl⟩⟩⟩

theorem test_premises_ReportsMatched :
    let listed := fun x => (⟨none, none, none, [⟨1, 1, x⟩]⟩ : Contexts)
    ReportOf 0 1 1 (.discarded 0 1 1) (some .discard) ∧ ReportOf 0 1 1 (.loaded 0 1 1) none ∧
    (∀ m x, Tables (engined m false (listed x) (jobIn .queued)) ∧
      ((((engined m false (listed x) (jobIn .queued)).engine 0).ctx.cancel.find? fun y =>
        y.job = (1 : U16).toNat && y.attempt = (1 : Byte).toNat)) = some ⟨1, 1, x⟩) ∧
    (∀ m, ((engined m false ⟨none, none, none, []⟩ (jobIn .queued)).engine 0).status.mode = m ∧
      (∀ y ∈ ((engined m false ⟨none, none, none, []⟩ (jobIn .queued)).engine 0).ctx.cancel,
        y.job = (1 : U16).toNat → y.attempt ≠ (1 : Byte).toNat) ∧
      ¬ Takes ((engined m false ⟨none, none, none, []⟩ (jobIn .queued)).engine 0).ctx 1 (.discarded 0 1 1)) ∧
    Expected 0 1 1 (.loaded 0 1 1) (engined .running false (nextAt .loadSent) (jobAt0 .assigned)) :=
  ⟨.discarded, .loaded, fun _ _ => ⟨tables_engined _ _ _ _, rfl⟩, fun _ => ⟨rfl, nofun, id⟩,
    ⟨.inl rfl, nofun, .inl ⟨_, rfl, rfl, rfl⟩, ⟨_, rfl, rfl⟩⟩⟩

/-- The plant with job 1 in engine 0's next context, not loaded. -/
def loading : State := engined .running false (nextAt .loadSent) (jobAt0 .assigned)

theorem test_premises_RasterUnreadable :
    let late := engined .running false (nextAt .loadSent) { jobAt0 .assigned with superseded := true }
    Tables loading ∧ Expected 0 1 1 (.loadFault 0 1 1 (.rasterUnreadable 0x55)) loading ∧
      loading.job? 1 = some (jobAt0 .assigned) ∧ slot7 ∈ (jobAt0 .assigned).slots ∧
      loading.slot? slot7 = some ⟨0x55, 1, true, false⟩ ∧ (∀ k' ∈ (jobAt0 .assigned).slots, k' = slot7) ∧
      (∀ k' ∈ (jobAt0 .assigned).slots, ∀ o', loading.slot? k' = some o' → o'.ref ≠ 0x56) ∧
      Expected 0 1 1 (.loadFault 0 1 1 (.rasterUnreadable 0x55)) late ∧
      (late.job? 1).map Job.superseded = some true :=
  ⟨tables_engined _ _ _ _, ⟨.inl rfl, nofun, .inl ⟨_, rfl, rfl, rfl⟩, ⟨_, rfl, rfl⟩⟩, rfl, by decide, rfl,
    by decide,
    (by
      intro k' hk
      have : k' = slot7 := by revert k'; decide
      subst this
      exact forall_some_of (a := ⟨0x55, 1, true, false⟩) rfl (by decide)),
    ⟨.inl rfl, nofun, .inl ⟨_, rfl, rfl, rfl⟩, ⟨_, rfl, rfl⟩⟩, rfl⟩

/-- The job refers to two slots, of which the second, or both, have the reference that is unreadable. -/
theorem test_premises_RasterUnreadable_two (ref : U64) :
    let j : Job := { jobAt0 .assigned with slots := [⟨6, 1, .k⟩, slot7] }
    let s := { engined .running false (nextAt .loadSent) j with
      slots := [(⟨6, 1, .k⟩, ⟨ref, 1, true, true⟩), (slot7, ⟨0x55, 1, true, false⟩)] }
    Tables s ∧ Expected 0 1 1 (.loadFault 0 1 1 (.rasterUnreadable 0x55)) s ∧ s.job? 1 = some j ∧
      (ref = 0x54 → j.slots = [⟨6, 1, .k⟩] ++ slot7 :: [] ∧ s.slot? slot7 = some ⟨0x55, 1, true, false⟩ ∧
        ∀ k' ∈ [(⟨6, 1, .k⟩ : SlotKey)], ∀ o', s.slot? k' = some o' → o'.ref ≠ 0x55) ∧
      (ref = 0x55 → j.slots = [] ++ ⟨6, 1, .k⟩ :: [slot7] ∧ s.slot? ⟨6, 1, .k⟩ = some ⟨0x55, 1, true, true⟩) := by
  have e := tables_engined .running false (nextAt .loadSent) (jobAt0 .assigned)
  refine ⟨⟨e.pages, ?_, e.plan, e.stages, List.pairwise_singleton _ _, e.racks⟩,
    ⟨.inl rfl, nofun, .inl ⟨_, rfl, rfl, rfl⟩, ⟨_, rfl, rfl⟩⟩, rfl, ?_, ?_⟩
  · exact List.pairwise_pair.2 (by decide : (⟨6, 1, .k⟩ : SlotKey).rank < slot7.rank)
  · rintro rfl
    refine ⟨rfl, rfl, fun k' hk => ?_⟩
    cases List.mem_singleton.1 hk
    exact forall_some_of (a := ⟨0x54, 1, true, true⟩) rfl (by decide)
  · rintro rfl
    exact ⟨rfl, rfl⟩

theorem test_premises_LoadFails :
    let waits := (nextAt .loaded)
    Tables loading ∧ (loading.engine 0).status.mode = .running ∧ loading.job? 1 = some (jobAt0 .assigned) ∧
      Expected 0 1 1 (.loadFault 0 1 1 (.code 255)) loading ∧
      (loading.engine 0).ctx.next = some ⟨1, .loadSent, some 120, false⟩ ∧ (loading.engine 0).ctx.parked = none ∧
      (let s := engined .running true ⟨none, waits.next, waits.next, []⟩ (jobAt0 .assigned)
       Tables s ∧ (s.engine 0).ctx.parked = some ⟨1, .loaded, none, false⟩ ∧ s.job? 1 = some (jobAt0 .assigned)) ∧
      ((engined .running false ⟨none, none, none, []⟩ (jobIn .queued)).engine 0).ctx.next = none :=
  ⟨tables_engined _ _ _ _, rfl, rfl, ⟨.inl rfl, nofun, .inl ⟨_, rfl, rfl, rfl⟩, ⟨_, rfl, rfl⟩⟩, rfl, rfl,
    ⟨tables_engined _ _ _ _, rfl, rfl⟩, rfl⟩

/-- The plant with a COLOUR job next, and the engine, the one that runs, DRIFTED. -/
def starving : State :=
  (engined .running false (nextAt .loadSent) { jobAt0 .assigned with colourNeed := .colour }).setRegister 0
    ⟨.drifted, [], ⟨0, 0⟩, 0⟩

/-- The job named by an engine fault returns before the engine's record changes, so that COLOUR_STARVED is raised
while the engine is still RUNNING (R91 step 1, R106). -/
theorem test_loadFails_starves :
    starvedNotices starving 1 true = [.colourStarved [0] 1] ∧ starvedNotices starving 1 false = [] ∧
      starvedNotices loading 1 true = [] ∧
      ((after (.loadFault 0 1 1 (.code 3)) starving).port 0).link.output = (starving.port 0).link.output ++
        [.notice 0 (.jobRequeued 1 1 .fault (some ⟨.loadFault 3, .engine 0, 0⟩)), .notice 0 (.colourStarved [0] 1),
          .notice 0 (.engineFault 0 .loadFault (some 1))] := by decide +kernel

theorem test_premises_Exposures :
    let s := engined .running false (nextAt .exposeSent) (jobAt0 .assigned)
    let t := engined .faulted true (exposing true) (jobAt0 .exposing)
    (Tables s ∧ Expected 0 1 1 (.exposeStarted 0 1 1) s ∧
      (s.engine 0).ctx.next = some ⟨1, .exposeSent, none, false⟩) ∧
    (Tables t ∧ Expected 0 1 1 (.exposeDone 0 1 1) t ∧ t.job? 1 = some (jobAt0 .exposing)) :=
  ⟨⟨tables_engined _ _ _ _, ⟨.inl rfl, nofun, ⟨_, rfl, rfl, rfl⟩, ⟨_, rfl, rfl⟩⟩, rfl⟩,
    ⟨tables_engined _ _ _ _, ⟨.inr rfl, nofun, ⟨_, rfl, rfl⟩, ⟨_, rfl, rfl⟩⟩, rfl⟩⟩

theorem test_premises_ExposureFails :
    (∀ m, Tables (engined m true (exposing false) (jobAt0 .exposing)) ∧
      (engined m true (exposing false) (jobAt0 .exposing)).job? 1 = some (jobAt0 .exposing) ∧
      ((engined m true (exposing false) (jobAt0 .exposing)).engine 0).status.mode = m ∧
      ((engined m true (exposing false) (jobAt0 .exposing)).engine 0).ctx.current = some ⟨1, 600, false⟩ ∧
      ∀ n, ¬ WaitsIn ((engined m true (exposing false) (jobAt0 .exposing)).engine 0).ctx n) ∧
    (∀ b c, Expected 0 1 1 (.exposeFault 0 1 1 b) (engined .running true (exposing c) (jobAt0 .exposing)) ∧
      ((engined .running true (exposing c) (jobAt0 .exposing)).engine 0).ctx.current = some ⟨1, 600, c⟩) ∧
    ((loading).engine 0).ctx.current = none :=
  ⟨fun _ => ⟨tables_engined _ _ _ _, rfl, rfl, rfl, not_waits rfl rfl⟩,
    fun _ _ => ⟨⟨.inl rfl, nofun, .inl ⟨_, rfl, rfl⟩, ⟨_, rfl, rfl⟩⟩, rfl⟩, rfl⟩

theorem test_premises_EngineRequested (m : EngineMode) (b : Bool) :
    let s := engined m b ⟨none, none, none, []⟩ (jobIn .queued)
    Free 0 s ∧ Tables s ∧ (s.port 0).rights.room = true ∧ (s.port 0).rights.maint = true ∧
      (s.engine 0).status = ⟨m, true, b, none⟩ ∧ 6 ≤ (6 : Byte).toNat :=
  ⟨⟨rfl, rfl, rfl⟩, tables_engined _ _ _ _, rfl, rfl, rfl, by decide⟩

/-- The plant with a register record for engine 0. -/
def registered (x : RegisterState) (window : List Offset) (run : Nat) : State :=
  loading.setRegister 0 ⟨x, window, ⟨0, 0⟩, run⟩

theorem test_premises_SampleTaken :
    (∀ x, Tables (registered x (List.replicate 8 ⟨4000, -4000⟩) 8) ∧
      RegisterFits ((registered x (List.replicate 8 ⟨4000, -4000⟩) 8).register 0) ∧
      ((registered x (List.replicate 8 ⟨4000, -4000⟩) 8).register 0).state = x ∧
      Beyond (registered x (List.replicate 8 ⟨4000, -4000⟩) 8) ⟨401, 0⟩ ∧
      ¬ Beyond (registered x (List.replicate 8 ⟨4000, -4000⟩) 8) ⟨400, -400⟩) ∧
    (sampled (registered .tracking (List.replicate 7 ⟨5, 5⟩) 0) 0 ⟨5, 5⟩ ⟨0, 0⟩).state = .locked ∧
    (sampled (registered .locked [] 0) 0 ⟨61, 0⟩ ⟨0, 0⟩).state = .tracking ∧
    (sampled (registered .locked [] 0) 0 ⟨60, 0⟩ ⟨0, 0⟩).state = .locked ∧
    (sampled (registered .drifted [] 3) 0 ⟨400, 0⟩ ⟨0, 0⟩).state = .tracking :=
  ⟨fun x => ⟨have h := tables_engined .running false (nextAt .loadSent) (jobAt0 .assigned)
      ⟨h.pages, h.slots, h.plan, h.stages, h.jobs, h.racks⟩,
      ⟨by cases x <;> decide +kernel, by cases x <;> decide +kernel, by cases x <;> decide +kernel,
        by cases x <;> decide +kernel⟩, rfl,
      by cases x <;> decide +kernel, by cases x <;> decide +kernel⟩, by decide +kernel⟩

/-- The clause of SampleTaken about an eviction: a COLOUR job waits in an engine that is TRACKING. -/
theorem test_premises_SampleTaken_evicts :
    let s := engined .running false (nextAt .loaded) { jobAt0 .assigned with colourNeed := .colour }
    Tables s ∧ RegisterFits (s.register 0) ∧ Beyond s ⟨401, 0⟩ ∧ (s.register 0).state ≠ .drifted ∧
      (WaitsIn (s.engine 0).ctx 1 ∧ ∃ j, s.job? 1 = some j ∧ j.colourNeed = .colour) ∧
      ((takeSample 0 ⟨401, 0⟩ ⟨0, 0⟩ s).engine 0).ctx =
        ⟨none, none, none, [⟨1, 1, .discard⟩]⟩ :=
  ⟨tables_engined _ _ _ _, ⟨by decide +kernel, by decide +kernel, by decide +kernel, by decide +kernel⟩,
    by decide +kernel, by decide +kernel, ⟨.inl ⟨_, rfl, rfl⟩, _, rfl, rfl⟩, by decide +kernel⟩

/-! ### Lanes and the sorter -/

theorem opens_inLane (x : LaneStage) (j : Job) : ((inLane x j).lane 0).Opens := ⟨rfl, rfl, .inl rfl⟩

theorem heads_one : Heads [⟨1, .inDeveloper, some 300⟩] 1 :=
  ⟨[], ⟨1, .inDeveloper, some 300⟩, [], rfl, rfl, rfl, nofun, nofun⟩

theorem test_premises_PlateDecided (b : Bool) :
    let j := { jobAt0 .developing with superseded := b, attempt := 3 }
    let s := inLane .inDeveloper j
    Tables s ∧ (s.lane 0).Opens ∧ (s.lane 0).inspections = [] ∧ (s.lane 0).clearing = false ∧ s.job? 1 = some j ∧
      j.attempt ≤ 3 ∧ Heads (s.lane 0).floor.order 1 ∧ j.engine = some 0 ∧ j.applied = some ⟨0, 0⟩ ∧
      ¬ WaitsIn (s.engine 0).ctx 1 ∧ j.superseded = b ∧ Within 1500 ⟨1500, -1500⟩ ∧ ¬ Within 1500 ⟨1501, 0⟩ ∧
      Within 4000 ⟨4000, -4000⟩ ∧ ¬ Within 4000 ⟨0, -4001⟩ :=
  ⟨tables_inLane _ _, opens_inLane _ _, rfl, rfl, rfl, Nat.le_refl 3, heads_one, rfl, rfl, not_waits rfl rfl 1, rfl,
    by decide, by decide, by decide, by decide⟩

theorem test_premises_PlateNotIdentified :
    (∀ x, Tables (inLane x (jobAt0 .developing)) ∧ ((inLane x (jobAt0 .developing)).lane 0).Opens ∧
      (inLane x (jobAt0 .developing)).job? 1 = some (jobAt0 .developing) ∧
      ((((inLane x (jobAt0 .developing)).lane 0).floor.order.find? fun y => y.job = (1 : U16).toNat).map LaneEntry.stage) =
        some x) ∧
    Heads ((inLane .inDeveloper (jobAt0 .developing)).lane 0).floor.order 1 ∧
    ¬ Sound (inLane .bent (jobAt0 .finishing)) ⟨1, 1, 1, 0, 0⟩ ∧
    Sound (inLane .bent (jobAt0 .finishing)) (plateTag 1 (jobAt0 .finishing)) ∧
    Sound (inLane .bent (jobAt0 .finishing)) ⟨2, ~~~2, 3, 3, 63⟩ ∧
    Sound (inLane .inDeveloper (jobAt0 .developing)) ⟨1, ~~~1, 2, 0, 0⟩ ∧
    (∀ y ∈ ((inLane .bent (jobAt0 .finishing)).lane 0).floor.order, y.stage ≠ .inDeveloper ∧ y.job ≠ (2 : U16).toNat) ∧
    (∀ r m, Tables ((plant (jobIn .queued)).modLane 0 fun x => { x with inspections := List.replicate m r }) ∧
      (((plant (jobIn .queued)).modLane 0 fun x => { x with inspections := List.replicate m r }).lane 0).inspections.length = m) :=
  ⟨fun x => ⟨tables_inLane _ _, opens_inLane _ _, rfl, rfl⟩, heads_one, fun h => absurd h.check (by decide),
    ⟨by decide, by decide, by decide, forall_some_of (a := jobAt0 .finishing) rfl ⟨rfl, rfl⟩⟩,
    ⟨by decide, by decide, by decide, forall_some_of_none rfl⟩,
    ⟨by decide, by decide, by decide, forall_some_of (a := jobAt0 .developing) rfl ⟨rfl, rfl⟩⟩,
    by decide +kernel,
    fun r m => ⟨have h := tables_plant (jobIn .queued)
      ⟨h.pages, h.slots, h.plan, h.stages, h.jobs, h.racks⟩, List.length_replicate ..⟩⟩

/-- Job 1 stands in lane 0 ahead of job 2, which is as given. -/
def followed (j : Job) : State :=
  { plant (jobAt0 .developing) with jobs := [(1, jobAt0 .developing), (2, j)] }.modFloor 0
    fun f => { f with order := [⟨1, .inDeveloper, some 290⟩, ⟨2, .inDeveloper, some 300⟩] }

theorem test_premises_LaneResynchronised (b : Bool) :
    let j := { jobAt0 .developing with superseded := b }
    let y1 : LaneEntry := ⟨1, .inDeveloper, some 290⟩
    let y2 : LaneEntry := ⟨2, .inDeveloper, some 300⟩
    let s := followed j
    Tables s ∧ (s.lane 0).Opens ∧ (s.lane 0).inspections = [] ∧ (s.lane 0).clearing = false ∧
      s.job? 2 = some j ∧ j.superseded = b ∧ (s.lane 0).floor.order = [y1] ++ y2 :: [] ∧
      ((s.lane 0).floor.order.map LaneEntry.job).Nodup ∧ j.engine = some 0 ∧ j.applied = some ⟨0, 0⟩ ∧
      j.state = .developing ∧ ∀ n e, ¬ WaitsIn (s.engine e).ctx n := by
  intro j y1 y2 s
  have h : ∀ e, (s.engine e).ctx.next = none ∧ (s.engine e).ctx.parked = none := by cases b <;> decide +kernel
  exact ⟨tables_of_ok (by cases b <;> decide +kernel), ⟨rfl, rfl, .inl rfl⟩, rfl, rfl, rfl, rfl, rfl,
    by cases b <;> decide +kernel, rfl, rfl, rfl, fun n e => not_waits (h e).1 (h e).2 n⟩

/-- The plate that is found behind a missing one is passed, and the missing one is spoiled. -/
theorem test_resynchronised_passes :
    let s := after (.atInspect 0 ⟨.read (plateTag 2 (jobAt0 .developing)), some ⟨0, 0⟩⟩) (followed (jobAt0 .developing))
    (s.lane 0).floor.order = [⟨2, .punching, none⟩] ∧ (s.job? 1).map Job.attempt = some 2 ∧
      s.lineSent = [.pass 0 2 1 ⟨0, 0⟩] := by decide +kernel

/-- The plant while lane 0 is clearing. -/
def clearing (j : Job) : State := (plant j).modLane 0 fun x => { x with clearing := true }

/-- A job whose plate stands somewhere in lane 0. -/
def lostJob : Job := { jobAt0 .uncertain with lane := some 0 }

theorem test_premises_PlateReclaimed :
    Tables (clearing lostJob) ∧ (clearing lostJob).job? 1 = some lostJob ∧
      (∀ y ∈ ((clearing lostJob).lane 0).floor.order, y.job ≠ (1 : U16).toNat) ∧ ((clearing lostJob).lane 0).Opens ∧
      ((clearing lostJob).lane 0).clearing = true ∧ Reclaimable (clearing lostJob) 0 1 1 ∧
      lostJob.engine = some 0 ∧ lostJob.applied = some ⟨0, 0⟩ ∧ Within 1500 ⟨1500, 1500⟩ ∧
      ¬ WaitsIn ((clearing lostJob).engine 0).ctx 1 ∧
      (∀ k ∈ lostJob.slots, ∃ o, (clearing lostJob).slot? k = some o ∧ o.current = true ∧ lostJob.slots.count k ≤ o.count) ∧
      Reclaimable (clearing { lostJob with superseded := true }) 0 1 1 ∧
      ((clearing lostJob).lane 0).floor.exit = none ∧
      Sound (clearing lostJob) ⟨1, ~~~1, 2, 0, 0⟩ ∧ lostJob.attempt ≠ (2 : BitVec 2).toNat ∧
      Sound (clearing lostJob) ⟨2, ~~~2, 1, 0, 0⟩ ∧ (clearing lostJob).job? 2 = none ∧
      ¬ Sound (clearing lostJob) ⟨0, ~~~0, 1, 0, 0⟩ :=
  have h := tables_plant lostJob
  ⟨⟨h.pages, h.slots, h.plan, h.stages, h.jobs, h.racks⟩, rfl, nofun, ⟨rfl, rfl, .inl rfl⟩, rfl,
    ⟨rfl, _, rfl, rfl, rfl, rfl⟩, rfl, rfl, by decide, not_waits rfl rfl 1,
    (fun k hk => by cases List.mem_singleton.1 hk; exact ⟨_, rfl, rfl, Nat.le_refl 1⟩), ⟨rfl, _, rfl, rfl, rfl, rfl⟩, rfl,
    ⟨by decide, by decide, by decide, forall_some_of (a := lostJob) rfl ⟨rfl, rfl⟩⟩, by decide,
    ⟨by decide, by decide, by decide, forall_some_of_none rfl⟩, rfl, fun h => h.job rfl⟩

/-- The clauses of PlateReclaimed about a stray, with no live job at all. -/
theorem test_premises_PlateReclaimed_stray :
    let s := State.reset.modLane 1 fun x => { x with clearing := true }
    Tables s ∧ (s.lane 1).Opens ∧ (s.lane 1).inspections = [] ∧ (s.lane 1).clearing = true ∧
      Sound s ⟨65535, 0, 3, 3, 63⟩ ∧ s.job? 65535 = none ∧ ¬ Sound s ⟨65535, 0, 0, 3, 63⟩ :=
  have h := tables_reset
  ⟨⟨h.pages, h.slots, h.plan, h.stages, h.jobs, h.racks⟩, ⟨rfl, rfl, .inl rfl⟩, rfl, rfl,
    ⟨by decide, by decide, by decide, forall_some_of_none rfl⟩, rfl, fun h => h.attempt rfl⟩

theorem test_premises_PlatesInLane :
    (∀ x, Tables (inLane x (jobAt0 .finishing)) ∧ Stands (inLane x (jobAt0 .finishing)) 0 1 1 x ∧
      (inLane x (jobAt0 .finishing)).job? 1 = some (jobAt0 .finishing) ∧
      ¬ Reclaimable (inLane x (jobAt0 .finishing)) 0 1 1) ∧
    ¬ Stands (inLane .bent (jobAt0 .finishing)) 0 1 1 .punching ∧
    (∃ y ∈ ((inLane .inDeveloper (jobAt0 .developing)).lane 0).floor.order,
      y.job = (1 : U16).toNat ∧ y.stage = .inDeveloper ∧ y.timer ≠ none) ∧
    (∀ y ∈ ((inLane .bent (jobAt0 .finishing)).lane 0).floor.order,
      y.job = (1 : U16).toNat → y.stage = .inDeveloper → y.timer = none) ∧
    ¬ (((plant (jobIn .queued)).stopLane 0).lane 0).Opens ∧ ((plant (jobIn .queued)).lane 0).inspections = [] :=
  ⟨fun x => ⟨tables_inLane _ _, ⟨⟨_, List.mem_singleton.2 rfl, rfl, rfl⟩, _, rfl, rfl⟩, rfl, fun h => by cases h.1⟩,
    (fun ⟨⟨y, h, _, h'⟩, _⟩ => by cases List.mem_singleton.1 h; cases h'),
    by decide +kernel, by decide +kernel, (fun h => by cases h.2.1), rfl⟩

/-- The plant with a plate at the exit of each lane, job 1 of lane 0 and job 2 of lane 1. -/
def exits (c1 c2 : JobClass) (served : Option LaneId) : State :=
  let job := fun c (l : LaneId) => { jobAt0 .finishing with cls := c, lane := some l }
  let s : State := { plant (job c1 0) with jobs := [(1, job c1 0), (2, job c2 1)] }
  ((s.modFloor 0 fun _ => ⟨[⟨1, .atExit, none⟩], some 1, false⟩).modFloor 1 fun _ => ⟨[⟨2, .atExit, none⟩], some 2, false⟩).modSorter
    fun x => { x with lastServed := served }

/-- The arbitration clause of PlateAtExit: both lanes are candidates, and which is granted. -/
theorem test_premises_PlateAtExit_two (c1 c2 : JobClass) (served : Option LaneId) :
    let s := exits c1 c2 served
    Tables s ∧ SorterFree s ∧ (∃ j, Candidate s 0 1 j (.rackSlot 0 0) ∧ j.cls = c1) ∧
      (∃ j, Candidate s 1 2 j (.rackSlot 0 0) ∧ j.cls = c2) ∧
      ∀ j1 j2 : Job, j1.cls = c1 → j2.cls = c2 →
        (c1 = .urgent → c2 = .normal → GrantedBefore s 0 1 j1 j2) ∧ (c1 = .normal → c2 = .urgent → GrantedBefore s 1 0 j2 j1) ∧
        (c1 = c2 → (served = some 1 ∨ served = none → GrantedBefore s 0 1 j1 j2) ∧ (served = some 0 → GrantedBefore s 1 0 j2 j1)) := by
  refine ⟨⟨List.pairwise_singleton _ _, List.pairwise_singleton _ _, List.pairwise_singleton _ _, tables_reset.stages,
      List.pairwise_pair.2 (by decide : 1 < 2), tables_reset.racks⟩, ⟨rfl, rfl, .inl rfl⟩,
    ⟨_, ⟨⟨rfl, rfl, .inl rfl⟩, rfl, ⟨_, List.mem_singleton.2 rfl, rfl, rfl⟩, rfl, rfl⟩, rfl⟩,
    ⟨_, ⟨⟨rfl, rfl, .inl rfl⟩, rfl, ⟨_, List.mem_singleton.2 rfl, rfl, rfl⟩, rfl, rfl⟩, rfl⟩, ?_⟩
  rintro j1 j2 rfl rfl
  exact ⟨fun h h' => .inl ⟨h, h'⟩, fun h h' => .inl ⟨h', h⟩, fun h =>
    ⟨fun hs => .inr ⟨h, hs.imp id fun hn => ⟨hn, rfl⟩⟩, fun hs => .inr ⟨h.symm, .inl hs⟩⟩⟩

theorem test_premises_PlateAtExit :
    let s := inLane .bent (jobAt0 .finishing)
    let busy := s.modFloor 0 fun f => { f with exit := some 1 }
    let full := (s.setRack k0 [8, 9]).setShelf 0 (List.replicate 8 (9, 0))
    Tables s ∧ (busy.lane 0).floor.exit ≠ none ∧ (s.lane 0).floor.exit = none ∧ Stands s 0 1 1 .bent ∧
      ¬ Stands (inLane .punching (jobAt0 .finishing)) 0 1 1 .bent ∧
      ¬ Reclaimable (inLane .punching (jobAt0 .finishing)) 0 1 1 ∧ s.job? 1 = some (jobAt0 .finishing) ∧
      (s.lane 0).Opens ∧ (s.lane 1).floor.exit = none ∧ SorterFree s ∧
      placeFor s (jobAt0 .finishing) = some (.rackSlot 0 0) ∧
      placeFor s { jobAt0 .finishing with superseded := true } = some .rejectBin ∧
      placeFor (s.setRack k0 [8, 9]) (jobAt0 .finishing) = some (.shelf 0) ∧ placeFor full (jobAt0 .finishing) = none ∧
      (full.lane 0).floor.blocked = false ∧
      Tables full :=
  ⟨tables_inLane _ _, by decide +kernel, rfl, ⟨⟨_, List.mem_singleton.2 rfl, rfl, rfl⟩, _, rfl, rfl⟩,
    (fun ⟨⟨y, h, _, h'⟩, _⟩ => by cases List.mem_singleton.1 h; cases h'), (fun h => by cases h.1), rfl, opens_inLane _ _,
    rfl, ⟨rfl, rfl, .inl rfl⟩, by decide +kernel, by decide +kernel, by decide +kernel, by decide +kernel, rfl,
    tables_of_ok (by decide +kernel)⟩

theorem test_premises_SorterReported :
    (∀ x, Tables ((inLane .granted (jobAt0 .finishing)).setDelivery (some ⟨0, 1, 1, x⟩)) ∧
      ((inLane .granted (jobAt0 .finishing)).setDelivery (some ⟨0, 1, 1, x⟩)).sorter.delivery = some ⟨0, 1, 1, x⟩ ∧
      ((inLane .granted (jobAt0 .finishing)).setDelivery (some ⟨0, 1, 1, x⟩)).job? 1 = some (jobAt0 .finishing)) ∧
    (∀ x, let s := ((inLane .granted (jobAt0 .finishing)).setDelivery (some ⟨0, 1, 1, x⟩)).modPress 0 waiting
      Tables s ∧ s.sorter.delivery = some ⟨0, 1, 1, x⟩ ∧ s.job? 1 = some (jobAt0 .finishing) ∧
      (s.pos? k0).map (fun x => (x.work.current, x.work.satisfied)) = some (some 1, false) ∧
      countedState (s.press 0).positions ((s.press 0).unsatisfied - 1) = .ready) ∧
    (plant (jobIn .queued)).sorter.delivery = none ∧
    (⟨0, 1, 1, .rejectBin⟩ : Delivery) ≠ ⟨0, 1, 1, .shelf 0⟩ ∧ (1 : Nat) ≠ (2 : Byte).toNat :=
  ⟨fun x => ⟨have h := tables_plant (jobAt0 .finishing)
    ⟨h.pages, h.slots, h.plan, h.stages, h.jobs, h.racks⟩, rfl, rfl⟩,
    fun x => ⟨have h := tables_plant (jobAt0 .finishing)
      ⟨h.pages, h.slots, h.plan, h.stages, h.jobs, h.racks⟩, rfl, rfl, rfl, rfl⟩, rfl, by decide, by decide⟩

/-! ### Presses, the line, restart, settings -/

theorem test_premises_PlatesPulled :
    let gone := fun (s : State) => (s.rack k0 ++ ((s.shelf 0).filter fun x => x.2 = 0).map Prod.fst).filter fun n =>
      (s.job? n).any Job.superseded
    let s := (plant { jobIn .racked with superseded := true }).setRack k0 [1]
    let t := (plant { jobIn .racked with superseded := true }).setShelf 0 [(1, 0), (1, 3)]
    Free 0 s ∧ Tables s ∧ gone s = [1] ∧ Free 0 t ∧ Tables t ∧ gone t = [1] ∧ gone (plant (jobIn .racked)) = [] :=
  ⟨⟨rfl, rfl, rfl⟩, tables_of_ok (by decide +kernel), by decide +kernel, ⟨rfl, rfl, rfl⟩,
    tables_of_ok (by decide +kernel), by decide +kernel, by decide +kernel⟩

theorem test_premises_PlatesMounted :
    (∀ st w, Free 0 (working w (jobIn st)) ∧ Tables (working w (jobIn st)) ∧
      ((working w (jobIn st)).pos? k0).map Position.work = some w ∧
      (working w (jobIn st)).job? 1 = some (jobIn st) ∧ (jobIn st).state = st) ∧
    (plant (jobIn .racked)).pos? ⟨0, 1⟩ = none ∧
    Placed (working ⟨some 1, some 1, false, false, true⟩ (jobIn .mounted)) :=
  ⟨fun _ _ => ⟨⟨rfl, rfl, rfl⟩, tables_working _ _, rfl, rfl, rfl⟩, rfl,
    have h := empty_plant (jobIn .mounted)
    placed_empty ⟨h.contexts, h.order, h.delivery, h.racks, h.shelves⟩
      (fun n j h => by rw [(jobs_plant (j := jobIn .mounted) h).2]; decide) fun k x h => by
        change (if k0 = k then some _ else none) = some x at h
        split at h
        · next e =>
          subst e
          cases h
          exact ⟨fun n hn => by cases hn; exact ⟨_, rfl, rfl, rfl⟩, fun n hn => by cases hn; exact ⟨_, rfl, rfl⟩⟩
        · cases h⟩

theorem test_premises_PressRequests :
    (Free 1 State.reset ∧ (State.reset.port 1).rights.plan = false) ∧
    (∀ x, Free 0 (State.reset.setPressState 3 x) ∧ Tables (State.reset.setPressState 3 x) ∧
      ((State.reset.setPressState 3 x).port 0).rights.plan = true ∧ ((State.reset.setPressState 3 x).press 3).state = x) ∧
    (180 : U16).toNat ≤ 180 ∧ 180 < (181 : U16).toNat ∧ 4 ≤ (4 : Byte).toNat :=
  ⟨⟨⟨rfl, rfl, rfl⟩, by decide +kernel⟩,
    fun x => ⟨⟨rfl, rfl, rfl⟩, have h := tables_reset
      ⟨h.pages, h.slots, h.plan, h.stages, h.jobs, h.racks⟩, rfl, rfl⟩, by decide, by decide, by decide⟩

/-- The plant with a start of press 0 at 3600 and a clock. -/
def scheduled (clock : Nat) (x : PressState) : State :=
  ((plant (jobIn .queued)).modPress 0 fun y =>
    { y with start := some 3600, lead := 30, windowArmed := true, startArmed := true, state := x }).setClock clock

theorem test_premises_AlarmsTaken :
    Tables (scheduled 1800 .idle) ∧ WindowDue (scheduled 1800 .idle) 0 3600 ∧
      (∀ time, ¬ WindowDue (scheduled 1799 .idle) 0 time) ∧ StartDue (scheduled 3600 .running) 0 3600 ∧
      ((scheduled 3600 .running).press 0).state = .running ∧ StartDue (scheduled 3600 .ready) 0 3600 ∧
      ((scheduled 3600 .ready).press 0).state ≠ .running ∧ (∀ time, ¬ StartDue (scheduled 3599 .ready) 0 time) :=
  ⟨tables_of_ok (by decide +kernel), ⟨rfl, rfl, by decide +kernel⟩,
    (fun time h => by
      have e : (3600 : Nat) = time := Option.some.inj h.1
      subst e
      exact absurd h.2.2 (by decide +kernel)),
    ⟨rfl, rfl, by decide +kernel⟩, rfl, ⟨rfl, rfl, by decide +kernel⟩, by decide +kernel,
    fun time h => by
      have e : (3600 : Nat) = time := Option.some.inj h.1
      subst e
      exact absurd h.2.2 (by decide +kernel)⟩

/-- The plant with job 1, NORMAL, parked in engine 0, and the window alarm of its press due. -/
def parkedPlant (late : Bool) : State :=
  ((engined .running false ⟨none, none, some ⟨1, .loaded, none, false⟩, []⟩
    { jobAt0 .assigned with superseded := late }).modPress 0 fun y =>
      { y with start := some 3600, lead := 30, windowArmed := true }).setClock 1800

theorem placed_parkedPlant (late : Bool) : Placed (parkedPlant late) where
  next := fun e w h => by
    rw [(by cases late <;> decide +kernel : ∀ e, ((parkedPlant late).engine e).ctx.next = none) e] at h; cases h
  parked := fun e w h => by
    have k : ∀ e, ((parkedPlant late).engine e).ctx.parked = none ∨
        e = 0 ∧ ((parkedPlant late).engine e).ctx.parked = some ⟨1, .loaded, none, false⟩ := by
      cases late <;> decide +kernel
    rcases k e with k | ⟨rfl, k⟩ <;> rw [k] at h <;> cases h
    exact ⟨_, rfl, rfl, rfl, nofun⟩
  apart := fun e v w h => by
    rw [(by cases late <;> decide +kernel : ∀ e, ((parkedPlant late).engine e).ctx.next = none) e] at h; cases h
  current := fun e w h => by
    rw [(by cases late <;> decide +kernel : ∀ e, ((parkedPlant late).engine e).ctx.current = none) e] at h; cases h
  order := fun l y h => by
    rw [(by cases late <;> decide +kernel : ∀ l, ((parkedPlant late).lane l).floor.order = []) l] at h; cases h
  once := fun l => by
    rw [(by cases late <;> decide +kernel : ∀ l, ((parkedPlant late).lane l).floor.order = []) l]; exact List.nodup_nil
  exposed := fun n j h hm => by
    obtain ⟨_, rfl⟩ := jobs_plant (show (plant { jobAt0 .assigned with superseded := late }).job? n = some j from h)
    exact absurd hm (by cases late <;> decide)
  delivery := fun d h => by cases h
  racks := fun k n h => by cases h
  shelves := fun p x h => by
    rw [(by cases late <;> decide +kernel : ∀ p, (parkedPlant late).shelf p = []) p] at h; cases h
  stacked := fun k => by
    rw [(rfl : (parkedPlant late).rack k = []),
      (by cases late <;> decide +kernel : ∀ p, (parkedPlant late).shelf p = []) k.press]
    exact List.nodup_nil
  mounted := fun k x n h hm => by
    obtain ⟨_, rfl⟩ := positions_plant (j := jobIn .queued) (show (plant (jobIn .queued)).pos? k = some x from h)
    cases hm
  own := fun k x n h hc => by
    obtain ⟨rfl, rfl⟩ := positions_plant (j := jobIn .queued) (show (plant (jobIn .queued)).pos? k = some x from h)
    cases hc
    exact ⟨_, rfl, rfl⟩

/-- The clauses of AlarmsTaken about the NORMAL jobs: parked, superseded or not. -/
theorem test_premises_AlarmsTaken_parked (late : Bool) :
    let s := parkedPlant late
    Tables s ∧ WindowDue s 0 3600 ∧ Placed s ∧
      (∃ j, s.job? 1 = some j ∧ j.press = 0 ∧ j.cls = .normal ∧ j.superseded = late) ∧
      (∃ e w, (s.engine e).ctx.parked = some w ∧ w.job = 1) :=
  ⟨tables_of_ok (by cases late <;> decide +kernel), ⟨rfl, rfl, by cases late <;> decide +kernel⟩,
    placed_parkedPlant late, ⟨_, rfl, rfl, rfl, rfl⟩, 0, _, rfl, rfl⟩

theorem test_premises_ClockTicks :
    Tables (scheduled 3599 .ready) ∧ ¬ ∃ p time, WindowDue State.reset p time ∨ StartDue State.reset p time := by
  have h : ∀ p, (State.reset.press p).start = none := by decide +kernel
  refine ⟨tables_of_ok (by decide +kernel), ?_⟩
  rintro ⟨p, time, e | e⟩
  · rw [WindowDue, h p] at e; cases e.1
  · rw [StartDue, h p] at e; cases e.1

theorem test_premises_UnitGates :
    let s := State.reset
    let held := fun u b => setGates u true b s
    Free 0 s ∧ Tables s ∧ (s.port 0).rights.room = true ∧ heldGate s .sorter = false ∧
      (∀ b, heldGate (held (.engine 5) b) (.engine 5) = true ∧ stepGate (held (.engine 5) b) (.engine 5) = b ∧
        heldGate (held (.lane 1) b) (.lane 1) = true ∧ stepGate (held (.lane 1) b) (.lane 1) = b ∧
        ((held (.lane 1) b).lane 1).inspections = [] ∧ ((held (.lane 1) b).lane 1).gates.stopped = false ∧
        heldGate (held .sorter b) .sorter = true ∧ stepGate (held .sorter b) .sorter = b) ∧
      9 ≤ (9 : Byte).toNat :=
  ⟨free_reset, tables_reset, rfl, rfl, by decide +kernel, by decide⟩

theorem test_premises_LineStops :
    (Free 0 State.reset ∧ (State.reset.port 0).rights.room = true ∧ State.reset.line.state = .running) ∧
      State.reset.setStopped.line.state ≠ .running ∧ Free 0 State.reset.setStopped ∧ Tables State.reset.setStopped ∧
      (∀ l, (State.reset.setStopped.lane l).inspections = []) :=
  ⟨⟨free_reset, rfl, rfl⟩, by decide +kernel, ⟨rfl, rfl, rfl⟩, tables_of_ok (by decide +kernel), by decide +kernel⟩

/-- A line stop with an exposure running leaves the line STOPPING, with the marks of the units at rest; then the plate
goes through, and the line is STOPPED with no mark. -/
theorem test_lineStop_marks :
    let s := engined .running false (exposing false) (jobAt0 .exposing)
    let t := after (.lineStop 0 0) s
    Free 0 s ∧ (s.port 0).rights.room = true ∧ s.line.state = .running ∧ t.line.state = .stopping ∧
      t.line.reachedEngines = #v[false, true, true, true, true, true] ∧ t.line.reachedLanes = #v[false, true] ∧
      (after (.lineStop 0 0) State.reset).line.reachedLanes = #v[false, false] := by
  refine ⟨⟨rfl, rfl, rfl⟩, rfl, rfl, ?_⟩
  decide +kernel

theorem test_premises_LaneCleared :
    Tables (clearing lostJob) ∧ ((clearing lostJob).lane 0).clearing = true ∧
      ((∀ y ∈ ((clearing lostJob).lane 0).floor.order, y.stage = .granted) ∧
        ((clearing lostJob).lane 0).inspections = []) ∧
      (∃ j, (clearing lostJob).job? 1 = some j ∧ j.state = .uncertain ∧ j.lane = some 0) ∧
      ((plant lostJob).lane 0).clearing = false ∧
      (¬ ∀ y ∈ ((inLane .bent lostJob).lane 0).floor.order, y.stage = .granted) ∧
      ((clearing lostJob).modLane 1 fun x => { x with clearing := true }).lane 1 ≠ (clearing lostJob).lane 1 ∧
      ((clearing lostJob).modRestart fun x => { x with reconciling := true }).restart.reconciling = true :=
  have h := tables_plant lostJob
  ⟨⟨h.pages, h.slots, h.plan, h.stages, h.jobs, h.racks⟩, rfl, ⟨nofun, rfl⟩, ⟨_, rfl, rfl, rfl⟩, rfl,
    by decide +kernel, by decide +kernel, rfl⟩

/-- The plant while lane 0 is clearing: the URGENT job 1 is lost in it, and the NORMAL job 2 is LOADED at engine 0. -/
def reopening : State :=
  { withEngine 0 (engineIn .running false ⟨none, some ⟨2, .loaded, none, false⟩, none, []⟩) (clearing lostJob) with
    jobs := [(1, { lostJob with cls := .urgent }), (2, { jobAt0 .assigned with applied := none })] }

theorem test_premises_Reconsidered :
    Tables reopening ∧ (reopening.lane 0).clearing = true ∧ (reopening.lane 0).floor.order = [] ∧
      (reopening.lane 0).inspections = [] ∧ (∀ e ∈ reopening.jobs, e.2.state ≠ .queued) ∧ loadOf reopening 0 ≤ 9 ∧
      laneFed 0 = 0 ∧ Loaded reopening 0 ⟨2, .loaded, none, false⟩ :=
  ⟨tables_of_ok (by decide +kernel), rfl, rfl, rfl, by decide +kernel, by decide +kernel, rfl,
    ⟨⟨rfl, .inl rfl, rfl, nofun, by decide +kernel⟩, rfl, rfl, rfl⟩⟩

theorem test_clear_exposes_before_settling :
    let t := after (.clear 0) reopening
    (t.engine 0).ctx.next = some ⟨2, .exposeSent, some 120, false⟩ ∧ (t.engine 0).ctx.parked = none ∧
      (t.job? 1).map Job.state = some .queued := by decide +kernel

theorem test_reconcileEnd_exposes_before_settling :
    let t := after (.reconcileEnd 0 0) reopening
    (t.engine 0).ctx.next = some ⟨2, .exposeSent, some 120, false⟩ ∧ (t.engine 0).ctx.parked = none ∧
      (t.job? 1).map Job.state = some .queued := by decide +kernel

theorem test_premises_ReconciliationEnds :
    let s := (clearing lostJob).modRestart fun x => { x with reconciling := true, timer := some 900 }
    Tables s ∧ Free 0 s ∧ (s.port 0).rights.room = true ∧ s.restart.reconciling = true ∧ s.restart.timer ≠ none ∧
      s.job? 1 = some lostJob ∧ lostJob.state = .uncertain ∧ lostJob.lane = some 0 ∧ (s.lane 0).clearing = true ∧
      State.reset.restart.reconciling = false ∧ State.reset.restart.timer = none ∧
      (∀ l, (State.reset.lane l).clearing = false) :=
  ⟨tables_of_ok (by decide +kernel), ⟨rfl, rfl, rfl⟩, rfl, rfl, by decide +kernel, rfl, rfl, rfl, rfl, rfl, rfl,
    by decide +kernel⟩

theorem test_premises_SettingsTaken :
    let two := State.reset.setRights 2 ⟨false, false, false, true⟩
    Free 0 State.reset ∧ Free 0 two ∧ (State.reset.port 0).rights.maint = true ∧ (two.port 2).rights.maint = true ∧
      (∀ q, q ≠ 0 → (State.reset.port q).rights.maint = false) ∧ (State.reset.port 0).rights.room = true ∧
      inRange .drift 1500 = true ∧ inRange .drift 1501 = false ∧ inRange .recover 1 = true ∧
      inRange .recover 0 = false ∧ 3 ≤ (3 : Byte).toNat ∧ 16 ≤ (16 : Byte).toNat ∧ 8 ≤ (8 : Byte).toNat ∧
      9 ≤ (9 : Byte).toNat ∧ 2 ≤ (2 : Byte).toNat :=
  ⟨free_reset, ⟨rfl, rfl, rfl⟩, by decide +kernel⟩

theorem test_premises_AskedOnly :
    let s := (plant (jobIn .queued)).setStage 1 ⟨some 0, [(63, ⟨.oneUp, 7, none, .k⟩)]⟩
    Free 0 s ∧ (s.port 0).rights.maint = true ∧ s.page? 8 = none ∧
      s.page? 7 = some ⟨some .mono, some 1, ⟨true, false, false, false⟩, .complete, 1⟩ ∧
      (s.pos? ⟨3, 63⟩ = none ∧ tget (s.stage 3).entries 63 = none) ∧ tget (s.stage 1).entries 63 ≠ none ∧
      s.pos? k0 ≠ none ∧ s.job? 1 = some (jobIn .queued) ∧ s.job? 2 = none ∧ 64 ≤ (64 : Byte).toNat ∧ 6 ≤ (6 : Byte).toNat ∧
      8 < (9 : Byte).toNat ∧ Tables s ∧ EntryOrders s :=
  have h := orders_plant (jobIn .queued) (by decide)
  ⟨⟨rfl, rfl, rfl⟩, by decide +kernel, by decide +kernel, by decide +kernel, by decide +kernel, by decide +kernel,
    by decide +kernel, rfl, by decide +kernel, by decide, by decide, by decide, tables_of_ok (by decide +kernel),
    ⟨h.1, h.2⟩⟩

theorem test_premises_NoticeOffered :
    let n := Notice.clockSet 0 1
    let note := OutFrame.notice 0 n
    let full := fun m x => State.reset.modLink 0 fun l => { l with output := List.replicate m note, overrun := x }
    (State.reset.port 1).mask.has n.cls = false ∧ (State.reset.port 0).mask.has n.cls = true ∧
      ((full 63 none).port 0).link.noticeCount < 64 ∧ ((full 63 none).port 0).link.overrun = none ∧
      ((full 63 (some 0)).port 0).link.overrun ≠ none ∧ 64 ≤ ((full 64 none).port 0).link.noticeCount := by
  decide +kernel

theorem test_limit_ranges :
    ([.lockWindow, .relock, .drift, .recover, .load, .expose, .transit, .reconcile].map limitRange) =
      [(5, 100), (20, 250), (100, 1500), (1, 8), (10, 600), (60, 1800), (60, 900), (60, 3600)] := by decide

end Sys2Proof.Tests
end

section
/-! Proofs of chapter 1's statements: when the page register refuses a SEPARATION_ARRIVED (R11). Each refusal is an
equation of the owning block's function (`arriveVersion`, `arrive`, `reqSeparationArrived`) whose state is the one it
was given; `separationRefused` carries them to the command. -/

namespace Sys2Proof.Machine

open State

/-! ### Room -/

/-- The raster table is full (R6). -/
theorem freeSlots_eq_zero_iff (s : State) : freeSlots s = 0 ↔ 1024 ≤ s.slots.length :=
  Nat.sub_eq_zero_iff_le

/-- The page register is full (R1). -/
theorem freePages_eq_zero_iff (s : State) : freePages s = 0 ↔ 512 ≤ s.pages.length :=
  Nat.sub_eq_zero_iff_le

/-- A revision finds no slot: none is free, and a job holds each current slot of the page (R17). -/
theorem revisionRoom_eq_false_iff (s : State) (n : Nat) :
    revisionRoom s n = false ↔
      1024 ≤ s.slots.length ∧ ∀ e ∈ s.slots, e.1.page = n → e.2.current = true → e.2.count ≠ 0 := by
  simp [revisionRoom, freeSlots_eq_zero_iff]

/-! ### The operands (R11 steps 1 and 2) -/

/-- Only 0 and 1 name a colour class. -/
theorem classOf_eq_none {b : Byte} (h : 1 < b.toNat) : classOf b = none := by
  rw [classOf, if_neg (by omega), if_neg (by omega)]

/-- Only 0 to 3 name a separation. -/
theorem sepOf_eq_none {b : Byte} (h : 3 < b.toNat) : sepOf b = none := by
  rw [sepOf, if_neg (by omega), if_neg (by omega), if_neg (by omega), if_neg (by omega)]

/-- 1 to 3 name a separation other than K. -/
theorem sepOf_eq_some_of_pos {b : Byte} (h0 : 0 < b.toNat) (h3 : b.toNat ≤ 3) :
    ∃ x, sepOf b = some x ∧ x ≠ .k := by
  have : b.toNat = 1 ∨ b.toNat = 2 ∨ b.toNat = 3 := by omega
  rcases this with h | h | h <;> simp [sepOf, h]

section Operands

variable {page : U16} {version cls sep : Byte} (ref : U64) (s : State)

/-- An arrival with a value out of range (R11 step 1). -/
theorem reqSeparationArrived_outOfRange (h : page = 0 ∨ version = 0 ∨ 1 < cls.toNat ∨ 3 < sep.toNat) :
    reqSeparationArrived page version cls sep ref s = (s, bare .badValue) := by
  unfold reqSeparationArrived
  split
  next c x hc hx =>
    rcases h with rfl | rfl | h | h
    · rfl
    · simp
    · rw [classOf_eq_none h] at hc; cases hc
    · rw [sepOf_eq_none h] at hx; cases hx
  next => rfl

variable {c : ColourClass} {x : Separation} (hp : page ≠ 0) (hv : version ≠ 0)
  (hc : classOf cls = some c) (hx : sepOf sep = some x)

include hp hv hc hx

/-- An arrival whose values are in range goes by its class and separation, then by the page's record (R11). -/
theorem reqSeparationArrived_inRange :
    reqSeparationArrived page version cls sep ref s =
      if c = .mono ∧ x ≠ .k then (s, bare .wrongSeparation) else arrive page.toNat version.toNat c x ref s := by
  have hp' : page.toNat ≠ 0 := fun h => hp (BitVec.eq_of_toNat_eq h)
  have hv' : version.toNat ≠ 0 := fun h => hv (BitVec.eq_of_toNat_eq h)
  simp only [reqSeparationArrived, hc, hx, if_neg hp', if_neg hv']

/-- A separation outside the class (R11 step 2). -/
theorem reqSeparationArrived_wrongSeparation (hcx : c = .mono ∧ x ≠ .k) :
    reqSeparationArrived page version cls sep ref s = (s, bare .wrongSeparation) := by
  rw [reqSeparationArrived_inRange ref s hp hv hc hx, if_pos hcx]

/-- An arrival of a separation of its class is decided by the page's record (R11 steps 3 to 8). -/
theorem reqSeparationArrived_arrive (hcx : c = .mono → x = .k) :
    reqSeparationArrived page version cls sep ref s = arrive page.toNat version.toNat c x ref s := by
  rw [reqSeparationArrived_inRange ref s hp hv hc hx, if_neg fun h => h.2 (hcx h.1)]

end Operands

/-! ### The page's record (R11 steps 3 to 5) -/

section Record

variable {s : State} {n v cur : Nat} {c : ColourClass} {x : Separation} {ref : U64} {r : PageRec}

/-- No record, and none free (R4). -/
theorem arrive_registerFull (hr : s.page? n = none) (h : 512 ≤ s.pages.length) :
    arrive n v c x ref s = (s, bare .registerFull) := by
  simp only [arrive, hr, if_pos ((freePages_eq_zero_iff s).mpr h)]

/-- No record, one free, and no free slot (R4). -/
theorem arrive_storeFull_of_noRecord (hr : s.page? n = none) (hp : s.pages.length < 512) (h : 1024 ≤ s.slots.length) :
    arrive n v c x ref s = (s, bare .storeFull) := by
  have hp' : freePages s ≠ 0 := fun e => absurd ((freePages_eq_zero_iff s).mp e) (by omega)
  simp only [arrive, hr, if_neg hp', if_pos ((freeSlots_eq_zero_iff s).mpr h)]

/-- An EXPECTED record, and no free slot (R13). -/
theorem arrive_storeFull_of_expected (hr : s.page? n = some r) (hs : r.state = .expected)
    (h : 1024 ≤ s.slots.length) : arrive n v c x ref s = (s, bare .storeFull) := by
  simp only [arrive, hr, hs, if_pos ((freeSlots_eq_zero_iff s).mpr h)]

/-- An arrival at a WITHDRAWN record (R11 step 5). -/
theorem arrive_withdrawn (hr : s.page? n = some r) (hs : r.state = .withdrawn) (hv : r.version = some cur) :
    arrive n v c x ref s =
      if cur < v then
        if revisionRoom s n then revise n cur v c x ref r.liveJobs s else (s, bare .storeFull)
      else (s, versionAnswer .staleVersion r) := by
  simp only [arrive, hr, hs, hv]

/-- An arrival at a PARTIAL or COMPLETE record goes by its version (R11 steps 6 to 8). -/
theorem arrive_arrived (hr : s.page? n = some r) (hs : r.state = .partly ∨ r.state = .complete)
    (hv : r.version = some cur) : arrive n v c x ref s = arriveVersion n v cur c x ref r s := by
  rcases hs with hs | hs <;> simp only [arrive, hr, hs, hv]

/-! ### The record's version (R11 steps 6 to 8) -/

/-- A version below the record's (R16). -/
theorem arriveVersion_stale (h : v < cur) :
    arriveVersion n v cur c x ref r s = (s, versionAnswer .staleVersion r) := by
  rw [arriveVersion, if_pos h]

/-- The record's version with another class (R12). -/
theorem arriveVersion_otherClass (hc : r.cls ≠ some c) :
    arriveVersion n v v c x ref r s = (s, bare .badValue) := by
  rw [arriveVersion, if_neg v.lt_irrefl, if_pos rfl, if_pos hc]

/-- A separation that has arrived, in a slot that is not BAD (R15). -/
theorem arriveVersion_duplicate (hc : r.cls = some c) (hx : r.arrived.has x = true)
    (ho : ∀ o, s.slot? ⟨n, v, x⟩ = some o → o.bad = false) :
    arriveVersion n v v c x ref r s = (s, versionAnswer .duplicate r) := by
  have hb : ¬ (s.slot? ⟨n, v, x⟩).any Slot.bad = true := by
    simpa [Option.any_eq_true] using ho
  rw [arriveVersion, if_neg v.lt_irrefl, if_pos rfl, if_neg (not_not_intro hc), if_pos hx, if_neg hb]

/-- A separation that has not arrived, and no free slot (R14). -/
theorem arriveVersion_storeFull (hc : r.cls = some c) (hx : r.arrived.has x = false) (h : 1024 ≤ s.slots.length) :
    arriveVersion n v v c x ref r s = (s, bare .storeFull) := by
  rw [arriveVersion, if_neg v.lt_irrefl, if_pos rfl, if_neg (not_not_intro hc), if_neg (Bool.eq_false_iff.mp hx),
    if_pos ((freeSlots_eq_zero_iff s).mpr h)]

/-- A version above that of a record that is not EXPECTED, and no slot for the revision (R17). -/
theorem arrive_storeFull_of_revision (hr : s.page? n = some r) (hs : r.state ≠ .expected) (hv : r.version = some cur)
    (hlt : cur < v) (hroom : revisionRoom s n = false) : arrive n v c x ref s = (s, bare .storeFull) := by
  have hfull : ¬ revisionRoom s n = true := Bool.eq_false_iff.mp hroom
  have arrived (h : r.state = .partly ∨ r.state = .complete) : arrive n v c x ref s = (s, bare .storeFull) := by
    rw [arrive_arrived hr h hv, arriveVersion, if_neg hlt.asymm, if_neg hlt.ne', if_neg hfull]
  cases h : r.state with
  | expected => exact absurd h hs
  | partly => exact arrived (.inl h)
  | complete => exact arrived (.inr h)
  | withdrawn => rw [arrive_withdrawn hr h hv, if_pos hlt, if_neg hfull]

/-! ### What STALE_VERSION and DUPLICATE carry (R15, R16) -/

/-- The version and state of a WITHDRAWN record. -/
theorem versionAnswer_withdrawn (a : AnswerCode) (hs : r.state = .withdrawn) (hv : r.version = some cur) :
    versionAnswer a r = ⟨a, [.version cur, .enum 3]⟩ := by
  simp only [versionAnswer, hs, hv, numberField, pageStateCode]

/-- The version and state of a PARTIAL or COMPLETE record. -/
theorem versionAnswer_arrived (a : AnswerCode) (hs : r.state = .partly ∨ r.state = .complete)
    (hv : r.version = some cur) :
    versionAnswer a r = ⟨a, [.version cur, .enum (if r.state = .complete then 2 else 1)]⟩ := by
  rcases hs with hs | hs <;> simp [versionAnswer, hs, hv, numberField, pageStateCode]

end Record

/-! ### The command -/

/-- A taken request that its owning block answers and that changes nothing. -/
theorem answers_unchanged {p : PortId} {tag : Byte} {r : Request} {s : State} {a : Answer} (h : Free p s)
    (ha : r.allowed (s.port p).rights = true)
    (hx : applyRequest p r (holding p ⟨tag, r.kind, .sound r⟩ s) = (holding p ⟨tag, r.kind, .sound r⟩ s, a)) :
    Answers (r.command p tag) p tag r.kind a [] s s :=
  answers_of h ha hx

/-- Settles O21: the tests of R11 in their order. What the tests read of the state with the request in hand is what
they read of the state. -/
theorem separationRefused : Obligations.SeparationRefused := by
  intro p tag page version cls sep ref s hfree hright refused
  let t := holding p ⟨tag, 1, .sound (.separationArrived page version cls sep ref)⟩ s
  have refuse {a : Answer} (h : reqSeparationArrived page version cls sep ref t = (t, a)) : refused a :=
    answers_unchanged (r := .separationArrived page version cls sep ref) hfree hright h
  refine ⟨fun h => refuse (reqSeparationArrived_outOfRange ref t h), ?_, ?_⟩
  · rintro hp hv rfl h0 h3
    obtain ⟨x, hx, hk⟩ := sepOf_eq_some_of_pos h0 h3
    exact refuse (reqSeparationArrived_wrongSeparation ref t hp hv rfl hx ⟨rfl, hk⟩)
  intro c x hp hv hc hx hcx
  have byRecord {a : Answer} (h : arrive page.toNat version.toNat c x ref t = (t, a)) : refused a :=
    refuse ((reqSeparationArrived_arrive ref t hp hv hc hx hcx).trans h)
  refine ⟨fun hr => ⟨fun h => byRecord (arrive_registerFull hr h),
    fun h h' => byRecord (arrive_storeFull_of_noRecord hr h h')⟩, ?_⟩
  intro r (hr : t.page? page.toNat = some r)
  refine ⟨fun hs h => byRecord (arrive_storeFull_of_expected hr hs h), fun v hrv =>
    ⟨?withdrawn, ?arrived, ?revision⟩⟩
  case withdrawn =>
    intro hs hle
    rw [← versionAnswer_withdrawn .staleVersion hs hrv]
    exact byRecord ((arrive_withdrawn hr hs hrv).trans (if_neg hle.not_gt))
  case arrived =>
    intro hs st
    have byVersion {a : Answer} (h : arriveVersion page.toNat version.toNat v c x ref r t = (t, a)) : refused a :=
      byRecord ((arrive_arrived hr hs hrv).trans h)
    refine ⟨fun hlt => ?_, ?_, ?_, ?_⟩
    · rw [← versionAnswer_arrived .staleVersion hs hrv]
      exact byVersion (arriveVersion_stale hlt)
    · rintro rfl hcls
      exact byVersion (arriveVersion_otherClass hcls)
    · rintro rfl hcls hhas ho
      rw [← versionAnswer_arrived .duplicate hs hrv]
      exact byVersion (arriveVersion_duplicate hcls hhas ho)
    · rintro rfl hcls hhas hfull
      exact byVersion (arriveVersion_storeFull hcls hhas hfull)
  case revision =>
    intro hs hlt hfull hheld
    exact byRecord (arrive_storeFull_of_revision hr hs hrv hlt
      ((revisionRoom_eq_false_iff t page.toNat).mpr ⟨hfull, hheld⟩))

end Sys2Proof.Machine
end

section
/-! Proofs of chapter 2's statements: the staged plans (R33 to R35). Each outcome of a stage request is an equation of
the function that decides it (`reqStagePosition`, `reqClearStaged`, `reqDiscardStage`), which names the state written
and the notices raised; `stageRequests` carries them to the commands. -/

namespace Sys2Proof.Machine

open State

/-! ### A request that the port's rights do not allow -/

/-- A request outside the port's rights is refused, and nothing else happens (R178 step 2, R185). -/
theorem answers_refusedRights {p : PortId} {tag : Byte} {r : Request} {s : State} (h : Free p s)
    (ha : r.allowed (s.port p).rights = false) :
    Answers (r.command p tag) p tag r.kind ⟨.refusedRights, []⟩ [] s s := by
  refine ⟨⟨tag, r.kind, .sound r⟩, rfl, rfl, ?_⟩
  have hdec : decideRequest p ⟨tag, r.kind, .sound r⟩ (holding p ⟨tag, r.kind, .sound r⟩ s) =
      (holding p ⟨tag, r.kind, .sound r⟩ s, bare .refusedRights) := by
    have hk : ¬ kindAllowed r.kind ((holding p ⟨tag, r.kind, .sound r⟩ s).port p).rights = true := by
      rw [kindAllowed_kind, port_holding, if_pos rfl, ha]
      exact Bool.false_ne_true
    exact if_neg hk
  have htake : takeRequest p ⟨tag, r.kind, .sound r⟩ s =
      (holding p ⟨tag, r.kind, .sound r⟩ s).modLink p (Link.answer tag r.kind (bare .refusedRights)) :=
    congrArg (fun x : State × Answer => x.1.modLink p (Link.answer tag r.kind x.2)) hdec
  rw [exec_command, receiveSound, receive_free p _ s h, htake]
  exact congrArg (fun f => Host.Outcome.next (State.modLink p f _)) (funext (answer_started tag r.kind _))

/-! ### The operands (R33 step 1) -/

/-- A press's number names it. -/
@[simp] theorem pressOf_byteOf (pr : PressId) : pressOf (byteOf pr.val) = some pr := by
  revert pr
  decide

/-- A position's number names it. -/
@[simp] theorem posOf_byteOf (q : PosId) : posOf (byteOf q.val) = some q := by
  revert q
  decide

/-- The two numbers of a position name it. -/
@[simp] theorem keyOf_byteOf (k : PosKey) : keyOf (byteOf k.press.val) (byteOf k.pos.val) = some k := by
  simp [keyOf]

/-- Only 0 to 3 name a press. -/
theorem pressOf_eq_none {b : Byte} (h : 4 ≤ b.toNat) : pressOf b = none := dif_neg h.not_gt

/-- Only 0 to 63 name a position. -/
theorem posOf_eq_none {b : Byte} (h : 64 ≤ b.toNat) : posOf b = none := dif_neg h.not_gt

/-- A press or a position out of range names no position of a press. -/
theorem keyOf_eq_none {b1 b2 : Byte} (h : 4 ≤ b1.toNat ∨ 64 ≤ b2.toNat) : keyOf b1 b2 = none := by
  rcases h with h | h
  · simp [keyOf, pressOf_eq_none h]
  · simp [keyOf, posOf_eq_none h]

/-- A format is read from its number alone. -/
theorem formatOf_eq_some_iff (b : Byte) (f : PlateFormat) :
    formatOf b = some f ↔ b = 0 ∧ f = .oneUp ∨ b = 1 ∧ f = .twoUp := by
  revert b
  cases f <;> decide

/-- A separation is read from its number alone. -/
theorem sepOf_eq_some_iff (b : Byte) (x : Separation) : sepOf b = some x ↔ b = byteOf (sepNumber x) := by
  revert b
  cases x <;> decide

/-- The content a STAGE_POSITION gives is the one that its fields spell. -/
theorem contentOf_of_spells {f : Byte} {a : U16} {b : Option U16} {sep : Byte} {c : Content}
    (h : SpellsContent f a b sep c) : contentOf f a b sep = some c := by
  obtain ⟨format, pageA, pageB, x⟩ := c
  obtain ⟨hsep, ⟨ha, rfl⟩, hb⟩ := h
  have hx : sepOf sep = some x := (sepOf_eq_some_iff sep x).mpr hsep
  have ha' : a.toNat ≠ 0 := fun e => ha (BitVec.eq_of_toNat_eq e)
  rcases hb with ⟨rfl, rfl, rfl, rfl⟩ | ⟨rfl, y, rfl, hy, hya, rfl, rfl⟩
  · have hf : formatOf 0 = some .oneUp := rfl
    simp only [contentOf, hf, hx, if_neg ha']
  · have hf : formatOf 1 = some .twoUp := rfl
    have hy' : y.toNat ≠ 0 := fun e => hy (BitVec.eq_of_toNat_eq e)
    have hya' : y.toNat ≠ a.toNat := fun e => hya (BitVec.eq_of_toNat_eq e)
    simp only [contentOf, hf, hx, if_neg ha', if_neg hy', if_neg hya']

/-- The fields of a STAGE_POSITION that gives a content spell it. -/
theorem spells_of_contentOf {f : Byte} {a : U16} {b : Option U16} {sep : Byte} {c : Content}
    (h : contentOf f a b sep = some c) : SpellsContent f a b sep c := by
  have toNat_ne {x y : U16} (hn : ¬ x.toNat = y.toNat) : x ≠ y := fun e => hn (congrArg BitVec.toNat e)
  unfold contentOf at h
  split at h
  next format x hf hx =>
    have hsep := (sepOf_eq_some_iff sep x).mp hx
    split at h
    next => cases h
    next ha =>
      have ha' : a ≠ 0 := toNat_ne ha
      rcases (formatOf_eq_some_iff f format).mp hf with ⟨rfl, rfl⟩ | ⟨rfl, rfl⟩
      · cases b with
        | some y => cases h
        | none => cases h; exact ⟨hsep, ⟨ha', rfl⟩, .inl ⟨rfl, rfl, rfl, rfl⟩⟩
      · cases b with
        | none => cases h
        | some y =>
          dsimp only at h
          split at h
          next => cases h
          next hy =>
            split at h
            next => cases h
            next hya =>
              cases h
              exact ⟨hsep, ⟨ha', rfl⟩, .inr ⟨rfl, y, rfl, toNat_ne hy, toNat_ne hya, rfl, rfl⟩⟩
  next => cases h

/-- Fields that spell no content give none. -/
theorem contentOf_eq_none {f : Byte} {a : U16} {b : Option U16} {sep : Byte}
    (h : ∀ c, ¬ SpellsContent f a b sep c) : contentOf f a b sep = none :=
  Option.eq_none_iff_forall_ne_some.mpr fun c hc => h c (spells_of_contentOf hc)

/-! ### Holders (R32 to R34) -/

/-- A stage that is CLEAN, or HELD by the port, is open to the port's edits. -/
theorem heldByOther_eq_false {x : Stage} {p : PortId} (h : x.holder = none ∨ x.holder = some p) :
    heldByOther x p = false := by
  rcases h with h | h <;> simp [heldByOther, h]

/-- A stage that another port holds is not. -/
theorem heldByOther_eq_true {x : Stage} {p h : PortId} (hh : x.holder = some h) (hne : h ≠ p) :
    heldByOther x p = true := by
  simp [heldByOther, hh, hne]

/-- An edit writes the stage, HELD by the port, and claims it when it was CLEAN. -/
theorem editStage_eq (pr : PressId) (p : PortId) (entries : Table PosId Content) (s : State) :
    editStage pr p entries s =
      raiseAll (if (s.stage pr).holder = none then [.stageClaimed pr p] else [])
        (s.setStage pr ⟨some p, entries⟩) := by
  cases h : (s.stage pr).holder <;> simp [editStage, raiseAll, h]

/-! ### STAGE_POSITION (R33) -/

section StagePosition

variable {p : PortId} {b1 b2 f : Byte} {a : U16} {b : Option U16} {sep : Byte} {k : PosKey} {c : Content} (s : State)

/-- A press, position or content that the values do not name (R33 step 1). -/
theorem reqStagePosition_badValue (h : keyOf b1 b2 = none ∨ contentOf f a b sep = none) :
    reqStagePosition p b1 b2 f a b sep s = (s, bare .badValue) := by
  unfold reqStagePosition
  split
  next hk hc =>
    rcases h with h | h
    · cases h.symm.trans hk
    · cases h.symm.trans hc
  next => rfl

/-- A stage HELD by another port (R33 step 2). -/
theorem reqStagePosition_stageHeld {h : PortId} (hk : keyOf b1 b2 = some k) (hc : contentOf f a b sep = some c)
    (hh : (s.stage k.press).holder = some h) (hne : h ≠ p) :
    reqStagePosition p b1 b2 f a b sep s = (s, ⟨.stageHeld, [.port h]⟩) := by
  simp only [reqStagePosition, hk, hc, if_pos (heldByOther_eq_true hh hne), hh, Option.map_some, Option.toList_some]

/-- An edit of a stage that is CLEAN or HELD by the port (R33). -/
theorem reqStagePosition_ok (hk : keyOf b1 b2 = some k) (hc : contentOf f a b sep = some c)
    (hh : (s.stage k.press).holder = none ∨ (s.stage k.press).holder = some p) :
    reqStagePosition p b1 b2 f a b sep s =
      (raiseAll (if (s.stage k.press).holder = none then [.stageClaimed k.press p] else [])
        (s.setStage k.press ⟨some p, tput Fin.val (s.stage k.press).entries k.pos c⟩),
       okWith [.enum 1, .port p, .flag (liveContent s k = some c)]) := by
  simp only [reqStagePosition, hk, hc, heldByOther_eq_false hh, Bool.false_eq_true, if_false, editStage_eq]

end StagePosition

/-! ### CLEAR_STAGED_POSITION (R34) -/

section ClearStaged

variable {p : PortId} {b1 b2 : Byte} {k : PosKey} (s : State)

/-- A press or position out of range. -/
theorem reqClearStaged_badValue (h : keyOf b1 b2 = none) : reqClearStaged p b1 b2 s = (s, bare .badValue) := by
  simp only [reqClearStaged, h]

/-- A stage HELD by another port. -/
theorem reqClearStaged_stageHeld {h : PortId} (hk : keyOf b1 b2 = some k)
    (hh : (s.stage k.press).holder = some h) (hne : h ≠ p) :
    reqClearStaged p b1 b2 s = (s, bare .stageHeld) := by
  simp only [reqClearStaged, hk, if_pos (heldByOther_eq_true hh hne)]

variable (hk : keyOf b1 b2 = some k) (hh : (s.stage k.press).holder = none ∨ (s.stage k.press).holder = some p)

include hk hh

/-- No staged entry at the position. -/
theorem reqClearStaged_notFound (he : tget (s.stage k.press).entries k.pos = none) :
    reqClearStaged p b1 b2 s = (s, bare .notFound) := by
  simp only [reqClearStaged, hk, heldByOther_eq_false hh, thas, he, Option.isSome_none, Bool.false_eq_true, if_false]

/-- The staged entry at the position is removed. -/
theorem reqClearStaged_ok {c : Content} (he : tget (s.stage k.press).entries k.pos = some c) :
    reqClearStaged p b1 b2 s =
      (raiseAll (if (s.stage k.press).holder = none then [.stageClaimed k.press p] else [])
        (s.setStage k.press ⟨some p, tdel (s.stage k.press).entries k.pos⟩), bare .ok) := by
  simp only [reqClearStaged, hk, heldByOther_eq_false hh, thas, he, Option.isSome_some, Bool.false_eq_true, if_false,
    if_true, editStage_eq]

end ClearStaged

/-! ### DISCARD_STAGE (R35) -/

section DiscardStage

variable {p : PortId} {b : Byte} {pr : PressId} (s : State)

/-- A press out of range. -/
theorem reqDiscardStage_badValue (h : pressOf b = none) : reqDiscardStage p b s = (s, bare .badValue) := by
  simp only [reqDiscardStage, h]

variable (hb : pressOf b = some pr)

include hb

/-- A CLEAN stage stays. -/
theorem reqDiscardStage_clean (hh : (s.stage pr).holder = none) :
    reqDiscardStage p b s = (s, okWith [.enum 0]) := by
  simp only [reqDiscardStage, hb, hh]

/-- The holder discards its stage. -/
theorem reqDiscardStage_own (hh : (s.stage pr).holder = some p) :
    reqDiscardStage p b s = (s.setStage pr (stageCopy s pr), okWith [.enum 1]) := by
  simp only [reqDiscardStage, hb, hh, if_true]

/-- A stage that another port holds goes by the MAINT right. -/
theorem reqDiscardStage_other {h : PortId} (hh : (s.stage pr).holder = some h) (hne : h ≠ p) :
    reqDiscardStage p b s =
      if (s.port p).rights.maint then
        (raise (.stageDiscarded pr h p) (s.setStage pr (stageCopy s pr)), okWith [.enum 1])
      else (s, bare .stageHeld) := by
  simp only [reqDiscardStage, hb, hh, if_neg hne]

end DiscardStage

/-! ### The commands -/

/-- A request in hand is not among the rights. -/
theorem rights_holding (p : PortId) (r : Received) (s : State) :
    ((holding p r s).port p).rights = (s.port p).rights := by
  rw [port_holding, if_pos rfl]

/-- Settles O23: the rights first, then each request by the equations of the function that decides it. What those read
of the state with the request in hand is what they read of the state. -/
theorem stageRequests : Obligations.StageRequests := by
  refine ⟨?rights, ?edits, ?discards⟩
  case rights =>
    intro p tag b1 b2 s hfree
    refine ⟨fun hp => ?_, fun hp hm => ?_⟩
    · exact answers_refusedRights (r := .clearStagedPosition b1 b2) hfree hp
    · exact answers_refusedRights (r := .discardStage b1) hfree (Bool.or_eq_false_iff.mpr ⟨hp, hm⟩)
  case edits =>
    intro p tag k s hfree hplan x pr q claim
    have hk : keyOf pr q = some k := keyOf_byteOf k
    refine ⟨fun hh => ⟨?_, ?_, ?_⟩, fun h hh hne => ⟨?_, ?_⟩, ?_, fun b1 b2 hb => ⟨?_, ?_⟩⟩
    · intro f a b sep c hc
      exact answers_of (r := .stagePosition pr q f a b sep) hfree hplan
        (reqStagePosition_ok (holding p _ s) hk (contentOf_of_spells hc) hh)
    · intro c he
      exact answers_of (r := .clearStagedPosition pr q) hfree hplan (reqClearStaged_ok (holding p _ s) hk hh he)
    · intro he
      exact answers_unchanged (r := .clearStagedPosition pr q) hfree hplan
        (reqClearStaged_notFound (holding p _ s) hk hh he)
    · intro f a b sep c hc
      exact answers_unchanged (r := .stagePosition pr q f a b sep) hfree hplan
        (reqStagePosition_stageHeld (holding p _ s) hk (contentOf_of_spells hc) hh hne)
    · exact answers_unchanged (r := .clearStagedPosition pr q) hfree hplan
        (reqClearStaged_stageHeld (holding p _ s) hk hh hne)
    · intro f a b sep hc
      exact answers_unchanged (r := .stagePosition pr q f a b sep) hfree hplan
        (reqStagePosition_badValue (holding p _ s) (.inr (contentOf_eq_none hc)))
    · intro f a b sep
      exact answers_unchanged (r := .stagePosition b1 b2 f a b sep) hfree hplan
        (reqStagePosition_badValue (holding p _ s) (.inl (keyOf_eq_none hb)))
    · exact answers_unchanged (r := .clearStagedPosition b1 b2) hfree hplan
        (reqClearStaged_badValue (holding p _ s) (keyOf_eq_none hb))
  case discards =>
    intro p tag pr s hfree hright c copy
    have allowed (b : Byte) : (Request.discardStage b).allowed (s.port p).rights = true :=
      (Bool.or_eq_true _ _).mpr hright
    have hpr : pressOf (byteOf pr.val) = some pr := pressOf_byteOf pr
    let t := holding p ⟨tag, 5, .sound (.discardStage (byteOf pr.val))⟩ s
    have hmaint : (t.port p).rights.maint = (s.port p).rights.maint := congrArg Rights.maint (rights_holding p _ s)
    refine ⟨fun hh => ?_, fun hh => ?_, fun h hh hne => ⟨fun hm => ?_, fun hm => ?_⟩, fun b hb => ?_⟩
    · exact answers_unchanged hfree (allowed _) (reqDiscardStage_clean t hpr hh)
    · exact answers_of (ns := []) hfree (allowed _) (reqDiscardStage_own t hpr hh)
    · exact answers_of (ns := [.stageDiscarded pr h p]) hfree (allowed _)
        ((reqDiscardStage_other t hpr hh hne).trans (if_pos (hmaint.trans hm)))
    · exact answers_unchanged hfree (allowed _)
        ((reqDiscardStage_other t hpr hh hne).trans (if_neg (Bool.eq_false_iff.mp (hmaint.trans hm))))
    · exact answers_unchanged hfree (allowed b) (reqDiscardStage_badValue (holding p _ s) (pressOf_eq_none hb))

end Sys2Proof.Machine
end

section
/-! Proof of chapter 5's statement about a register sample (R99 to R105). A sample is an equation of `takeSample`: within
the drift limit, or beyond it in DRIFTED, the record is written, a notice may be raised, and the engines are served; on
entry to DRIFTED colour eviction stands between. The eviction is told in three parts: what it makes of the engine's
contexts and of the line (`evictContexts`), what the job table makes of the jobs (`takeEvicted`), and that no engine
that is served takes a job that its cancel list names (`CancelKept`). -/

namespace Sys2Proof.Machine

open State

variable {D : Nat → Prop}

/-! ### The tests of chapter 5 -/

/-- The machine's test of two offsets. -/
theorem nearBy_iff_near (limit : Nat) (a b : Offset) : nearBy limit a b = true ↔ Near limit a b := by
  simp [nearBy, Near]

/-- The drift test (R100). -/
theorem insideBy_drift_iff (s : State) (m : Offset) : insideBy s.limits.drift m = true ↔ ¬ Beyond s m := by
  simp [insideBy, nearBy, Beyond]

/-- A window that holds no more than 8 samples keeps the last 8 (R100, R101). -/
theorem pushSample_eq_drop {w : List Offset} (h : w.length ≤ Config.window) (d : Offset) :
    pushSample w d = (w ++ [d]).drop (w.length - 7) := by
  have h8 : w.length ≤ 8 := h
  unfold pushSample
  split
  next hlt =>
    have hlt' : w.length < 8 := hlt
    rw [Nat.sub_eq_zero_of_le (by omega), List.drop_zero]
  next hge =>
    have hge' : ¬ w.length < 8 := hge
    rw [show w.length - 7 = 1 by omega, List.drop_append_of_le_length (by omega)]

/-- The window mean (R101). -/
theorem windowMean_eq_meanOf (w : List Offset) :
    windowMean w = ⟨meanOf (w.map Offset.dx), meanOf (w.map Offset.dy)⟩ := by
  simp [windowMean, meanAxis, clampAxis, meanOf, Config.offsetRange]

/-- The lock test (R102). -/
theorem lockTest_iff (limit : Nat) (w : List Offset) (c : Offset) :
    lockTest limit w c = true ↔ w.length = 8 ∧ ∀ x ∈ w, Near limit x c := by
  simp only [lockTest, Bool.and_eq_true, decide_eq_true_eq, List.all_eq_true, nearBy_iff_near]
  rfl

/-! ### The record after a sample -/

/-- The notices of a sample within the drift limit, by its drift sample and the records before and after it (R102 to
R104). -/
def sampleNotices (e : EngineId) (d : Offset) (r r' : Register) : List Notice :=
  match r.state, r'.state with
  | .tracking, .locked => [.registerLocked e r'.correction]
  | .locked, .tracking => [.registerRelock e d r.correction]
  | .drifted, .tracking => [.registerRestored e r'.correction]
  | _, _ => []

section Notices

variable {e : EngineId} {d : Offset} {r r' : Register}

/-- The record enters LOCKED (R102). -/
theorem sampleNotices_locks (h : r.state = .tracking) (h' : r'.state = .locked) :
    sampleNotices e d r r' = [.registerLocked e r'.correction] := by
  simp only [sampleNotices, h, h']

/-- The record leaves LOCKED (R103). -/
theorem sampleNotices_relocks (h : r.state = .locked) (h' : r'.state = .tracking) :
    sampleNotices e d r r' = [.registerRelock e d r.correction] := by
  simp only [sampleNotices, h, h']

/-- The record leaves DRIFTED (R104). -/
theorem sampleNotices_restores (h : r.state = .drifted) (h' : r'.state = .tracking) :
    sampleNotices e d r r' = [.registerRestored e r'.correction] := by
  simp only [sampleNotices, h, h']

end Notices

section Record

variable {s : State} {e : EngineId} {m : Offset} (c : Offset) (hw : (s.register e).window.length ≤ Config.window)

include hw

/-- The record after a sample beyond the drift limit (R100). -/
theorem sampled_beyond (hb : Beyond s m) :
    sampled s e m c = ⟨.drifted, pushSample (s.register e).window (offsetAdd m c),
      windowMean (pushSample (s.register e).window (offsetAdd m c)), 0⟩ := by
  rw [sampled, if_pos hb, pushSample_eq_drop hw, windowMean_eq_meanOf]
  rfl

/-- A sample in TRACKING (R101, R102). -/
theorem sampleTracking_eq (hb : ¬ Beyond s m) (hs : (s.register e).state = .tracking) :
    sampleTracking e (offsetAdd m c) s =
      raiseAll (sampleNotices e (offsetAdd m c) (s.register e) (sampled s e m c))
        (s.setRegister e (sampled s e m c)) := by
  let w := pushSample (s.register e).window (offsetAdd m c)
  have hrec : sampled s e m c = ⟨if lockTest s.limits.lockWindow w (windowMean w) then .locked else .tracking, w,
      windowMean w, (s.register e).run⟩ := by
    simp only [sampled, if_neg hb, hs, lockTest_iff, w, pushSample_eq_drop hw, windowMean_eq_meanOf]
    rfl
  rw [hrec]
  simp only [sampleTracking, sampleNotices, hs, w]
  split <;> rfl

/-- A sample in LOCKED (R103). -/
theorem sampleLocked_eq (hb : ¬ Beyond s m) (hs : (s.register e).state = .locked) :
    sampleLocked e (offsetAdd m c) s =
      raiseAll (sampleNotices e (offsetAdd m c) (s.register e) (sampled s e m c))
        (s.setRegister e (sampled s e m c)) := by
  let d := offsetAdd m c
  have hrec : sampled s e m c =
      if nearBy s.limits.relock d (s.register e).correction then
        ⟨.locked, pushSample (s.register e).window d, (s.register e).correction, (s.register e).run⟩
      else ⟨.tracking, [d], windowMean [d], (s.register e).run⟩ := by
    simp only [sampled, if_neg hb, hs, nearBy_iff_near, d, pushSample_eq_drop hw, windowMean_eq_meanOf]
    rfl
  rw [hrec]
  simp only [sampleLocked, sampleNotices, hs, d]
  split <;> rfl

/-- A sample in DRIFTED (R104). -/
theorem sampleDrifted_eq (hb : ¬ Beyond s m) (hs : (s.register e).state = .drifted) :
    sampleDrifted e (offsetAdd m c) s =
      raiseAll (sampleNotices e (offsetAdd m c) (s.register e) (sampled s e m c))
        (s.setRegister e (sampled s e m c)) := by
  let w := pushSample (s.register e).window (offsetAdd m c)
  have hrec : sampled s e m c =
      if (s.register e).run + 1 < s.limits.recover then ⟨.drifted, w, windowMean w, (s.register e).run + 1⟩
      else ⟨.tracking, w, windowMean w, 0⟩ := by
    simp only [sampled, if_neg hb, hs, w, pushSample_eq_drop hw, windowMean_eq_meanOf]
    rfl
  rw [hrec]
  simp only [sampleDrifted, sampleNotices, hs, w]
  split <;> rfl

/-- A sample within the drift limit (R101 to R104): the record and its notices, and the engines are served. -/
theorem takeSample_within (hb : ¬ Beyond s m) :
    takeSample e m c s =
      serve (raiseAll (sampleNotices e (offsetAdd m c) (s.register e) (sampled s e m c))
        (s.setRegister e (sampled s e m c))) := by
  simp only [takeSample, if_pos ((insideBy_drift_iff s m).mpr hb)]
  congr 1
  split
  next hs => exact sampleTracking_eq c hw hb hs
  next hs => exact sampleLocked_eq c hw hb hs
  next hs => exact sampleDrifted_eq c hw hb hs

/-- A sample beyond the drift limit in DRIFTED (R100): the record, and the engines are served. -/
theorem takeSample_beyond_of_drifted (hb : Beyond s m) (hs : (s.register e).state = .drifted) :
    takeSample e m c s = serve (s.setRegister e (sampled s e m c)) := by
  simp only [takeSample, if_neg fun h => (insideBy_drift_iff s m).mp h hb, sampleBeyond, if_pos hs,
    sampled_beyond c hw hb]

/-- Entry to DRIFTED (R100, R105): the record, REGISTER_DRIFTED, colour eviction, and the engines are served. -/
theorem takeSample_drifts (hb : Beyond s m) (hs : (s.register e).state ≠ .drifted) :
    takeSample e m c s =
      serve (colourEvict e (raise (.registerDrifted e m (offsetAdd m c) (evictCount s e))
        (s.setRegister e (sampled s e m c)))) := by
  simp only [takeSample, if_neg fun h => (insideBy_drift_iff s m).mp h hb, sampleBeyond, if_neg hs,
    sampled_beyond c hw hb]

end Record

/-! ### The cancel list -/

/-- Jobs that leave after others join the cancel list after them (R79). -/
theorem joinCancel_append (l a b : List CancelEntry) : joinCancel l (a ++ b) = joinCancel (joinCancel l a) b :=
  List.foldl_append

/-- A job that the cancel list names, or that leaves, is named after others have joined (R79). -/
theorem named_joinCancel (n : Nat) (l gone : List CancelEntry)
    (h : (∃ x ∈ l, x.job = n) ∨ ∃ x ∈ gone, x.job = n) : ∃ x ∈ joinCancel l gone, x.job = n := by
  induction gone generalizing l with
  | nil => simpa [joinCancel] using h
  | cons x gone ih =>
    refine ih _ ?_
    by_cases hx : x.job = n
    · exact .inl ⟨x, by simp, hx⟩
    · rcases h with ⟨y, hy, hn⟩ | ⟨y, hy, hn⟩
      · exact .inl ⟨y, by simp [hy, hn, Ne.symm hx], hn⟩
      · rcases List.mem_cons.mp hy with rfl | hy
        · exact absurd hn hx
        · exact .inr ⟨y, hy, hn⟩

/-- The entry that a parked job leaves on the cancel list in an eviction (R105): DISCARD is sent for it. -/
def discarding (s : State) (w : Option WaitingCtx) : List CancelEntry :=
  w.toList.map fun w => ⟨w.job, (s.attemptOf w.job).getD 0, .discard⟩

/-- No ABORT is outstanding for a cut of the job (R105). -/
def uncut (w : WaitingCtx) : Bool := decide (w.stage ≠ .exposeSent) || !w.cut

/-! ### The contexts that an eviction leaves (R105) -/

section Drop

variable (e : EngineId) (s : State)

/-- The next job leaves its context: the cancel list names it, and its command is sent unless an ABORT is
outstanding. -/
theorem dropNext_eq (w : WaitingCtx) :
    dropNext e w s =
      let x : CancelEntry :=
        ⟨w.job, (s.attemptOf w.job).getD 0, if w.stage = .exposeSent then .abort else .discard⟩
      let u := s.modCtx e fun c => { c with next := none, cancel := addCancel x c.cancel }
      if uncut w then u.send (commandFor e x) else u := by
  simp only [dropNext, cancelJob, listCancel, modCtx_modCtx, uncut]
  by_cases h : w.stage = .exposeSent
  · by_cases hc : w.cut = true
    · simp [h, hc]
      rfl
    · simp [h, hc]
      rfl
  · simp [h]
    rfl

/-- The contexts that the next job leaves. -/
theorem dropNext_ctx (w : Option WaitingCtx) :
    ((forSome w (dropNext e) s).engine e).ctx =
      { (s.engine e).ctx with
        next := if w.isSome then none else (s.engine e).ctx.next
        cancel := joinCancel (s.engine e).ctx.cancel (leaving s w) } := by
  cases w with
  | none => rfl
  | some w =>
    simp only [forSome, dropNext_eq]
    split <;> simp [State.engine, joinCancel, leaving, addCancel]

/-- The command that is sent for the next job. -/
theorem dropNext_sent (w : Option WaitingCtx) :
    (forSome w (dropNext e) s).lineSent = s.lineSent ++ (leaving s (w.filter uncut)).map (commandFor e) := by
  cases w with
  | none => simp [forSome, leaving]
  | some w =>
    simp only [forSome, dropNext_eq, Option.filter_some]
    split <;> simp [leaving]

/-- The next job's record stays while it leaves its context. -/
theorem dropNext_jobs (w : Option WaitingCtx) : (forSome w (dropNext e) s).jobs = s.jobs := by
  cases w with
  | none => rfl
  | some w =>
    simp only [forSome, dropNext_eq]
    split <;> rfl

/-- The contexts that the parked job leaves. -/
theorem dropParked_ctx (w : Option WaitingCtx) :
    ((forSome w (dropParked e) s).engine e).ctx =
      { (s.engine e).ctx with
        parked := if w.isSome then none else (s.engine e).ctx.parked
        cancel := joinCancel (s.engine e).ctx.cancel (discarding s w) } := by
  cases w with
  | none => rfl
  | some w => simp [forSome, dropParked, cancelJob, listCancel, State.engine, joinCancel, discarding, addCancel]; rfl

/-- The command that is sent for the parked job. -/
theorem dropParked_sent (w : Option WaitingCtx) :
    (forSome w (dropParked e) s).lineSent = s.lineSent ++ (discarding s w).map (commandFor e) := by
  cases w with
  | none => simp [forSome, discarding]
  | some w => rfl

/-- The parked job's record stays while it leaves its context. -/
theorem dropParked_jobs (w : Option WaitingCtx) : (forSome w (dropParked e) s).jobs = s.jobs := by
  cases w <;> rfl

end Drop

/-- The entries of an engine's cancel list follow the job table (R79). -/
theorem discarding_of_jobs {s t : State} (h : t.jobs = s.jobs) (w : Option WaitingCtx) :
    discarding t w = discarding s w := by
  simp only [discarding, State.attemptOf, job?_of_jobs h]

/-- What is left where an option gives up what passes a test. -/
theorem ite_isSome_filter {α : Type} (o : Option α) (p : α → Bool) :
    (if (o.filter p).isSome then none else o) = o.filter fun a => !p a := by
  cases o with
  | none => rfl
  | some a => cases h : p a <;> simp [Option.filter_some, h]

/-- Both jobs of an eviction leave their contexts, and a parked job that stays moves to an empty next (R83, R105). -/
def evictContexts (e : EngineId) (s : State) : State :=
  (forSome (evictParked s e) (dropParked e) (forSome (evictNext s e) (dropNext e) s)).modCtx e Contexts.parkedReturn

/-- The entries by which the jobs of an eviction leave. -/
def evictionEntries (s : State) (e : EngineId) : List CancelEntry :=
  leaving s (evictNext s e) ++ discarding s (evictParked s e)

/-- The contexts after an eviction. -/
theorem evictContexts_ctx (e : EngineId) (s : State) :
    ((evictContexts e s).engine e).ctx =
      Contexts.parkedReturn { (s.engine e).ctx with
        next := (s.engine e).ctx.next.filter fun w => !needsColour s w.job
        parked := (s.engine e).ctx.parked.filter fun w => !needsColour s w.job
        cancel := joinCancel (s.engine e).ctx.cancel (evictionEntries s e) } := by
  rw [evictContexts, engine_modCtx, if_pos rfl, dropParked_ctx, dropNext_ctx,
    discarding_of_jobs (dropNext_jobs e s _), evictionEntries, joinCancel_append]
  rw [evictNext, evictParked, ite_isSome_filter, ite_isSome_filter]

/-- What an eviction sends. -/
theorem evictContexts_sent (e : EngineId) (s : State) :
    (evictContexts e s).lineSent = s.lineSent ++
      (leaving s ((evictNext s e).filter uncut) ++ discarding s (evictParked s e)).map (commandFor e) := by
  rw [evictContexts, lineSent_modCtx, dropParked_sent, dropNext_sent, discarding_of_jobs (dropNext_jobs e s _),
    List.map_append, List.append_assoc]

/-- A parked job's return takes no job in. -/
theorem waitsIn_parkedReturn {c : Contexts} {n : Nat} (h : WaitsIn c.parkedReturn n) : WaitsIn c n := by
  unfold Contexts.parkedReturn at h
  split at h
  · exact h
  · rcases h with h | ⟨w, hw, -⟩
    · exact .inr h
    · cases hw

/-- No COLOUR job waits in the engine after an eviction. -/
theorem not_waits_evictContexts {e : EngineId} {s : State} {n : Nat} (h : needsColour s n = true) :
    ¬ WaitsIn ((evictContexts e s).engine e).ctx n := by
  rw [evictContexts_ctx]
  intro waits
  rcases waitsIn_parkedReturn waits with ⟨w, hw, rfl⟩ | ⟨w, hw, rfl⟩ <;>
    simpa [h] using (Option.filter_eq_some_iff.mp hw).2

/-- A parked job's return is no business of the cancel list. -/
theorem cancel_parkedReturn (c : Contexts) : c.parkedReturn.cancel = c.cancel := by
  unfold Contexts.parkedReturn
  split <;> rfl

/-- The cancel list after an eviction. -/
theorem evictContexts_cancel (e : EngineId) (s : State) :
    ((evictContexts e s).engine e).ctx.cancel = joinCancel (s.engine e).ctx.cancel (evictionEntries s e) := by
  rw [evictContexts_ctx, cancel_parkedReturn]

/-! ### The jobs of an eviction -/

/-- The jobs that an eviction takes, in the order in which the job table takes them on (R105, R110). -/
def evictedJobs (s : State) (e : EngineId) : List Nat :=
  ((evictNext s e).toList ++ (evictParked s e).toList).map WaitingCtx.job

/-- The job table takes the jobs of an eviction on, one after another. -/
def takeAll (ns : List Nat) (s : State) : State := ns.foldl (fun s n => takeEvicted n s) s

/-- Colour eviction: the jobs leave their contexts, and then the job table takes them on. -/
theorem colourEvict_eq (e : EngineId) (s : State) :
    colourEvict e s = takeAll (evictedJobs s e) (evictContexts e s) := by
  unfold colourEvict evictContexts evictedJobs
  cases evictNext s e <;> cases evictParked s e <;> rfl

/-- A job's colour need is COLOUR (R46). -/
theorem needsColour_iff (s : State) (n : Nat) :
    needsColour s n = true ↔ ∃ j, s.job? n = some j ∧ j.colourNeed = .colour := by
  simp [needsColour, Option.any_eq_true]

/-- A job that an eviction takes is a COLOUR job that waits in the engine. -/
theorem evicted_iff (s : State) (e : EngineId) (n : Nat) :
    evicted s e n ↔ WaitsIn (s.engine e).ctx n ∧ needsColour s n = true := by
  have taken (o : Option WaitingCtx) : (∃ w, o.filter (fun w => needsColour s w.job) = some w ∧ w.job = n) ↔
      (∃ w, o = some w ∧ w.job = n) ∧ needsColour s n = true := by
    simp only [Option.filter_eq_some_iff]
    constructor
    · rintro ⟨w, ⟨ho, hc⟩, rfl⟩
      exact ⟨⟨w, ho, rfl⟩, hc⟩
    · rintro ⟨⟨w, ho, rfl⟩, hc⟩
      exact ⟨w, ⟨ho, hc⟩, rfl⟩
  rw [evicted, evictNext, evictParked, taken, taken, WaitsIn, or_and_right]

/-- The number of jobs that an eviction takes (R110). -/
theorem evictCount_eq (s : State) (e : EngineId) :
    evictCount s e = (((s.engine e).ctx.next.toList ++ (s.engine e).ctx.parked.toList).filter
      fun w => needsColour s w.job).length := by
  simp only [evictCount, evictNext, evictParked, List.filter_append, List.length_append, Option.toList_filter]

/-- The jobs of the list are those that the eviction takes. -/
theorem mem_evictedJobs (s : State) (e : EngineId) (n : Nat) : n ∈ evictedJobs s e ↔ evicted s e n := by
  simp [evictedJobs, evicted]

/-- The cancel list names each job that the eviction takes. -/
theorem named_evictContexts {e : EngineId} {s : State} {n : Nat} (h : evicted s e n) :
    ∃ x ∈ ((evictContexts e s).engine e).ctx.cancel, x.job = n := by
  rw [evictContexts_cancel]
  refine named_joinCancel n _ _ (.inr ?_)
  rcases h with ⟨w, hw, rfl⟩ | ⟨w, hw, rfl⟩
  · exact ⟨_, List.mem_append_left _ (List.mem_map_of_mem (Option.mem_toList.mpr hw)), rfl⟩
  · exact ⟨_, List.mem_append_right _ (List.mem_map_of_mem (Option.mem_toList.mpr hw)), rfl⟩

/-! ### Serving honours the cancel list (R79, R80) -/

/-- An engine keeps its cancel list, and no job that the list names comes to wait in it. -/
structure CancelKept (x y : Engine) : Prop where
  cancel : y.ctx.cancel = x.ctx.cancel
  listed : ∀ z ∈ x.ctx.cancel, WaitsIn y.ctx z.job → WaitsIn x.ctx z.job

/-- Nothing happens. -/
theorem CancelKept.refl (x : Engine) : CancelKept x x := ⟨rfl, fun _ _ => id⟩

/-- One after another. -/
theorem CancelKept.trans {x y z : Engine} (h : CancelKept x y) (k : CancelKept y z) : CancelKept x z :=
  ⟨k.cancel.trans h.cancel, fun c hc hw => h.listed c hc (k.listed c (h.cancel ▸ hc) hw)⟩

/-- Engine records that stay. -/
theorem CancelKept.of_engines {s t : State} (h : t.engines = s.engines) (e : EngineId) :
    CancelKept (s.engine e) (t.engine e) := by
  rw [engine_of_engines h]
  exact .refl _

/-- A change of an engine's waiting contexts that takes in no job that the cancel list names. -/
theorem CancelKept.modCtx {s : State} {e : EngineId} {f : Contexts → Contexts}
    (hc : (f (s.engine e).ctx).cancel = (s.engine e).ctx.cancel)
    (hw : ∀ z ∈ (s.engine e).ctx.cancel, WaitsIn (f (s.engine e).ctx) z.job → WaitsIn (s.engine e).ctx z.job)
    (q : EngineId) : CancelKept (s.engine q) ((s.modCtx e f).engine q) := by
  rw [engine_modCtx]
  split
  next h => exact h ▸ ⟨hc, hw⟩
  next => exact .refl _

/-- One thing that serving does: an engine takes only a job that it is eligible for. -/
theorem ServeStep.cancel_kept {s t : State} (h : ServeStep s t) (q : EngineId) :
    CancelKept (s.engine q) (t.engine q) := by
  cases h with
  | assign e n j hj hq he hn =>
    refine CancelKept.modCtx (f := fun c => { c with next := some ⟨n, .loadSent, some s.limits.load, false⟩ }) rfl ?_ q
    rintro z hz (⟨w, hw, hz'⟩ | hp)
    · cases hw
      exact absurd hz'.symm (((s.eligible_iff_eligibleFor e n j).mp he).cancel z hz)
    · exact .inr hp
  | park e w hu hw hs hp =>
    refine CancelKept.modCtx rfl ?_ q
    rintro z hz (⟨v, hv, -⟩ | hn)
    · cases hv
    · exact .inl hn
  | expose e h =>
    unfold sendExpose
    split
    next => exact .refl _
    next w hw =>
      refine CancelKept.modCtx
        (f := fun c => { c with next := some { w with stage := .exposeSent, timer := some s.limits.load } }) rfl ?_ q
      rintro z hz (⟨v, hv, hz'⟩ | hp)
      · cases hv
        exact .inl ⟨w, hw, hz'⟩
      · exact .inr hp
  | _ => exact .refl _

/-- Serving the engines. -/
theorem Serves.cancel_kept {s t : State} (h : Serves s t) (q : EngineId) : CancelKept (s.engine q) (t.engine q) := by
  induction h with
  | refl => exact .refl _
  | tail _ hu ih => exact ih.trans (hu.cancel_kept q)

/-- Serving deferred positions, by a service that honours the cancel lists. -/
theorem serveFrom_cancel_kept (l : List PosKey) {s : State} (hs : JobsOrdered s) (q : EngineId) :
    CancelKept (s.engine q) ((serveFrom serveEngines l s).engine q) := by
  induction l generalizing s with
  | nil => exact .refl _
  | cons k l ih =>
    have test : CancelKept (s.engine q) ((needTest k s).engine q) := .of_engines (engines_needTest k s) q
    have ht : JobsOrdered (needTest k s) := Reacts.jobs_ordered (D := AnyJob) hs (needTest_reacts k s)
    have serves := serveEngines_serves ht
    have look := test.trans (serves.cancel_kept q)
    simp only [serveFrom]
    split
    · split
      · exact look.trans (ih (Serves.jobs_ordered ht serves))
      · exact look
    · exact test.trans (ih ht)

/-- The whole departure of a job. -/
theorem departBy_cancel_kept (n : Nat) (terminal : JobState) {s : State} (hs : JobsOrdered s) (q : EngineId)
    (ht : terminal ≠ .uncertain := by decide) :
    CancelKept (s.engine q) ((departBy serveEngines n terminal s).engine q) := by
  have hc := Reacts.jobs_ordered hs (departCore_reacts (D := AnyJob) n terminal s ht)
  have hd := Reacts.jobs_ordered hc (serveDeferred_reacts (D := AnyJob) (fun _ h => serveEngines_reacts h) hc)
  exact ((CancelKept.of_engines (engines_departCore n terminal s) q).trans
    (serveFrom_cancel_kept _ hc q)).trans ((serveEngines_serves hd).cancel_kept q)

/-- The job table takes an evicted job on. -/
theorem takeEvicted_cancel_kept (n : Nat) {s : State} (hs : JobsOrdered s) (q : EngineId) :
    CancelKept (s.engine q) ((takeEvicted n s).engine q) := by
  unfold takeEvicted
  split
  · exact .refl _
  · split
    · exact departBy_cancel_kept n .cancelled hs q
    · exact .of_engines (engines_requeue ..) q

/-- The job table takes the jobs of an eviction on. -/
theorem takeAll_cancel_kept (ns : List Nat) {s : State} (hs : JobsOrdered s) (q : EngineId) :
    CancelKept (s.engine q) ((takeAll ns s).engine q) := by
  induction ns generalizing s with
  | nil => exact .refl _
  | cons n ns ih =>
    exact (takeEvicted_cancel_kept n hs q).trans
      (ih (Reacts.jobs_ordered hs (takeEvicted_reacts (D := AnyJob) n hs)))

/-! ### What becomes of a job that is taken off (R63, R65) -/

/-- A job stays taken off through what does not take it. -/
theorem TakenOff.stays {b t u : State} {n : Nat} (h : TakenOff n b t) (hb : b.entryCount ≤ t.entryCount)
    (hr : Reacts D t u) (hn : ¬ D n) : TakenOff n b u := fun j hj =>
  ⟨fun hs => ((h j hj).1 hs).stays hr hn, fun hs => Reacts.ended hr hn hb ((h j hj).2 hs)⟩

/-- A job is taken off a state in which it has the same record, and no later place in the entry order is given. -/
theorem TakenOff.since {b s t : State} {n : Nat} (h : TakenOff n s t) (hj : b.job? n = s.job? n)
    (hb : b.entryCount ≤ s.entryCount) : TakenOff n b t := fun j hj' =>
  ⟨fun hs => ((h j (hj ▸ hj')).1 hs).since hb, fun hs => ((h j (hj ▸ hj')).2 hs).since hb⟩

/-- A job is taken off a state if it is taken off one that what does not take it leads to. -/
theorem TakenOff.after {b s t : State} {n : Nat} (hr : Reacts D b s) (hn : ¬ D n) (h : TakenOff n s t) :
    TakenOff n b t := by
  intro j hj
  obtain ⟨i, hi, -, rest⟩ := Reacts.job_stays hr hn hj
  have hb := Reacts.entry_le hr
  obtain ⟨back, ended⟩ := h i hi
  rw [rest] at back ended
  refine ⟨fun hs => ?_, fun hs => (ended hs).since hb⟩
  obtain ⟨j', job, state, order, same⟩ := back hs
  exact ⟨j', job, state, hb.trans_lt order, same⟩

/-- A job that is not superseded returns to its queue. -/
theorem takeEvicted_of_current {n : Nat} {j : Job} {s : State} (hj : s.job? n = some j) (hs : j.superseded = false) :
    takeEvicted n s = requeue n j.attempt .colourEvicted none s := by
  simp only [takeEvicted, hj, hs, Bool.false_eq_true, if_false]

/-- A departure frees the job's number (R50 step 5). -/
theorem job?_departCore (n : Nat) (terminal : JobState) (s : State) : (departCore n terminal s).job? n = none := by
  unfold departCore
  split
  next h => exact h
  next j hj =>
    dsimp only
    generalize raise (.jobEnded n j.key terminal j.lastFault) _ = t
    have told : (tellSatisfied j.key (t.dropJob n)).job? n = none := by
      rw [job?_of_jobs (tellSatisfied_keeps _ _).1, job?_dropJob, if_pos rfl]
    rw [job?_of_jobs (foldl_keeps State.jobs _ fun s p => (tellAll_keeps _ s).1), told]

/-- A job that has departed has ended (R50), whatever service of the engines follows. -/
theorem departBy_ended {look : State → State} (hl : ∀ s, JobsOrdered s → Reacts NoJob s (look s)) (n : Nat)
    (terminal : JobState) {s : State} (hs : JobsOrdered s) (ht : terminal ≠ .uncertain := by decide) :
    Ended n s (departBy look n terminal s) := by
  have core : Reacts AnyJob s (departCore n terminal s) := departCore_reacts n terminal s ht
  have free : Ended n s (departCore n terminal s) := fun j hj => by
    rw [job?_departCore] at hj
    cases hj
  have hc := Reacts.jobs_ordered hs core
  have deferred := serveDeferred_reacts hl hc
  exact Reacts.ended (deferred.trans (hl _ (Reacts.jobs_ordered hc deferred))) id (Reacts.entry_le core) free

/-- The job table takes an evicted job on (R105): it returns to its queue or, superseded, ends. -/
theorem takeEvicted_takenOff (n : Nat) {s : State} (hs : JobsOrdered s) : TakenOff n s (takeEvicted n s) := by
  intro j hj
  refine ⟨fun h => ?_, fun h => ?_⟩
  · rw [takeEvicted_of_current hj h]
    exact requeue_returned _ _ _ hj
  · simp only [takeEvicted, hj, h, if_true]
    exact departBy_ended (fun _ h => serveEngines_reacts h) n .cancelled hs

/-- A job that is taken off already is taken on once more, where it waits in both contexts of the engine (which `Tables`
does not exclude): it returns to the end of its queue, and a job made since under its number does so in its place. -/
theorem TakenOff.again {b s : State} {n : Nat} (h : TakenOff n b s) (hb : b.entryCount ≤ s.entryCount) :
    TakenOff n b (takeEvicted n s) := by
  intro j hj
  obtain ⟨back, ended⟩ := h j hj
  refine ⟨fun hs => ?_, fun hs j' hj' => ?_⟩
  · obtain ⟨i, hi, -, -, rest⟩ := back hs
    have hi' : i.superseded = false := by rw [rest]; exact hs
    rw [takeEvicted_of_current hi hi']
    obtain ⟨o, ho, hq⟩ := requeue_job i.attempt .colourEvicted none hi
    exact ⟨_, hq, .inl rfl, hb.trans_lt ho, by rw [rest]⟩
  · cases hi : s.job? n with
    | none =>
      have : takeEvicted n s = s := by simp only [takeEvicted, hi]
      rw [this, hi] at hj'
      cases hj'
    | some i =>
      have made := ended hs i hi
      rw [takeEvicted_of_current hi made.superseded] at hj'
      obtain ⟨o, ho, hq⟩ := requeue_job i.attempt .colourEvicted none hi
      cases hq.symm.trans hj'
      exact ⟨hb.trans_lt ho, made.superseded, made.attempt, .inl rfl, made.fault⟩

/-- A job stays taken off while the job table takes jobs on. -/
theorem TakenOff.takeAll {b s : State} {n : Nat} (ns : List Nat) (h : TakenOff n b s) (hs : JobsOrdered s)
    (hb : b.entryCount ≤ s.entryCount) : TakenOff n b (takeAll ns s) := by
  induction ns generalizing s with
  | nil => exact h
  | cons m ns ih =>
    have step : Reacts (fun k => k = m) s (takeEvicted m s) := takeEvicted_reacts m hs rfl
    refine ih ?_ (Reacts.jobs_ordered hs step) (hb.trans (Reacts.entry_le step))
    by_cases hm : n = m
    · exact hm ▸ h.again hb
    · exact h.stays hb step hm

/-- Each job that the job table takes on is taken off. -/
theorem takeAll_takenOff {n : Nat} {ns : List Nat} (hn : n ∈ ns) {s : State} (hs : JobsOrdered s) :
    TakenOff n s (takeAll ns s) := by
  induction ns generalizing s with
  | nil => cases hn
  | cons m ns ih =>
    have step : Reacts (fun k => k = m) s (takeEvicted m s) := takeEvicted_reacts m hs rfl
    have hs' := Reacts.jobs_ordered hs step
    by_cases hm : n = m
    · subst hm
      exact (takeEvicted_takenOff n hs).takeAll ns hs' (Reacts.entry_le step)
    · exact .after step hm (ih ((List.mem_cons.mp hn).resolve_left hm) hs')

/-! ### Colour eviction whole (R105) -/

/-- The jobs of an eviction leave their contexts: a reaction that takes no job of the job table. -/
theorem evictContexts_reacts (e : EngineId) (s : State) : Reacts D s (evictContexts e s) := by
  have next : Reacts D s (forSome (evictNext s e) (dropNext e) s) := by
    cases hn : evictNext s e with
    | none => exact .refl
    | some w => exact dropNext_reacts e w s fun h => by simp [evictNext, h] at hn
  have parked : Reacts D (forSome (evictNext s e) (dropNext e) s)
      (forSome (evictParked s e) (dropParked e) (forSome (evictNext s e) (dropNext e) s)) := by
    cases hp : evictParked s e with
    | none => exact .refl
    | some w =>
      refine dropParked_reacts e w _ fun h => ?_
      have none : (s.engine e).ctx.parked = none := by rwa [dropNext_ctx] at h
      simp [evictParked, none] at hp
  exact (next.trans parked).trans (parkedReturn_reacts e _)

section Evict

variable {e : EngineId} {s : State} (hs : JobsOrdered s)

include hs

/-- The job table takes the jobs of an eviction on. -/
theorem takeAll_reacts (ns : List Nat) : Reacts AnyJob s (takeAll ns s) :=
  foldl_reacts _ ns hs fun _ h n _ => takeEvicted_reacts n h

/-- An eviction, and then the engines are served, takes none but the jobs that it evicts. -/
theorem evict_reacts : Reacts (evicted s e) s (serve (colourEvict e s)) :=
  Reacts.then hs (colourEvict_reacts e hs fun _ h => h) serve_reacts

/-- What follows once the contexts are left: the job table takes the jobs on, and the engines are served. -/
theorem afterContexts_reacts : Reacts AnyJob (evictContexts e s) (serve (colourEvict e s)) := by
  have hv : JobsOrdered (evictContexts e s) := Reacts.jobs_ordered hs (evictContexts_reacts (D := AnyJob) e s)
  rw [colourEvict_eq]
  exact Reacts.then hv (takeAll_reacts hv _) serve_reacts

/-- It honours the cancel lists. -/
theorem afterContexts_cancel_kept (q : EngineId) :
    CancelKept ((evictContexts e s).engine q) ((serve (colourEvict e s)).engine q) := by
  have hv : JobsOrdered (evictContexts e s) := Reacts.jobs_ordered hs (evictContexts_reacts (D := AnyJob) e s)
  rw [colourEvict_eq]
  exact (takeAll_cancel_kept _ hv q).trans
    ((serve_serves (Reacts.jobs_ordered hv (takeAll_reacts hv _))).cancel_kept q)

/-- The cancel list names the jobs evicted (R79, R105). -/
theorem evict_cancel : ((serve (colourEvict e s)).engine e).ctx.cancel =
    joinCancel (s.engine e).ctx.cancel (evictionEntries s e) :=
  (afterContexts_cancel_kept hs e).cancel.trans (evictContexts_cancel e s)

/-- The commands for the jobs evicted are sent first (R105). -/
theorem evict_sent : ∃ l, (serve (colourEvict e s)).lineSent = s.lineSent ++
    (leaving s ((evictNext s e).filter uncut) ++ discarding s (evictParked s e)).map (commandFor e) ++ l := by
  obtain ⟨l, hl⟩ := (Reacts.kept (afterContexts_reacts (e := e) hs)).sent
  exact ⟨l, by rw [hl, evictContexts_sent]⟩

variable {n : Nat} (hn : evicted s e n)

include hn

/-- No job evicted waits in the engine: the cancel list that names it keeps it out (R80, R105). -/
theorem evict_not_waits : ¬ WaitsIn ((serve (colourEvict e s)).engine e).ctx n := by
  obtain ⟨z, hz, rfl⟩ := named_evictContexts hn
  exact fun hw => not_waits_evictContexts ((evicted_iff s e z.job).mp hn).2
    ((afterContexts_cancel_kept hs e).listed z hz hw)

/-- Each job evicted is taken off (R63, R65, R105). -/
theorem evict_takenOff : TakenOff n s (serve (colourEvict e s)) := by
  have left : Reacts NoJob s (evictContexts e s) := evictContexts_reacts e s
  have hv := Reacts.jobs_ordered hs left
  have table := takeAll_reacts hv (evictedJobs s e)
  have taken := takeAll_takenOff ((mem_evictedJobs s e n).mpr hn) hv
  have served : Reacts NoJob _ _ := serve_reacts (Reacts.jobs_ordered hv table)
  rw [colourEvict_eq]
  exact .after left id (taken.stays (Reacts.entry_le table) served id)

end Evict

/-! ### The sample whole -/

/-- A sample takes none but the jobs of an eviction on entry to DRIFTED; the rest is a reaction to the new record. -/
theorem takeSample_reacts {s : State} {e : EngineId} {m : Offset} (c : Offset) (hs : JobsOrdered s)
    (hw : (s.register e).window.length ≤ Config.window) :
    Reacts (fun n => (Beyond s m ∧ (s.register e).state ≠ .drifted) ∧ evicted s e n)
      (s.setRegister e (sampled s e m c)) (takeSample e m c s) := by
  have hv : JobsOrdered (s.setRegister e (sampled s e m c)) := hs
  by_cases hb : Beyond s m
  · by_cases hd : (s.register e).state = .drifted
    · rw [takeSample_beyond_of_drifted c hw hb hd]
      exact serve_reacts hv
    · rw [takeSample_drifts c hw hb hd]
      refine Reacts.then hv (raise_reacts (.registerDrifted e m (offsetAdd m c) (evictCount s e)) _) fun hu => ?_
      refine Reacts.then hu (colourEvict_reacts e hu fun n hn => ⟨⟨hb, hd⟩, ?_⟩) serve_reacts
      rw [raise_same] at hn
      exact hn
  · rw [takeSample_within c hw hb]
    exact Reacts.then hv (raiseAll_reacts _ _) serve_reacts

/-- The notice of a sample within the drift limit, if there is one, comes first. -/
theorem takeSample_within_tells {s : State} {e : EngineId} {m : Offset} (c : Offset) (hs : JobsOrdered s)
    (hw : (s.register e).window.length ≤ Config.window) (hb : ¬ Beyond s m) :
    Tells (sampleNotices e (offsetAdd m c) (s.register e) (sampled s e m c)) s (takeSample e m c s) := by
  rw [takeSample_within c hw hb]
  have hv : JobsOrdered (s.setRegister e (sampled s e m c)) := hs
  have hu := Reacts.jobs_ordered hv (raiseAll_reacts (D := AnyJob)
    (sampleNotices e (offsetAdd m c) (s.register e) (sampled s e m c)) _)
  exact (tells_raiseAll _ (s.setRegister e (sampled s e m c))).kept (serve_kept hu).2

/-- REGISTER_DRIFTED comes first on entry to DRIFTED (R100, R105). -/
theorem takeSample_drifts_tells {s : State} {e : EngineId} {m : Offset} (c : Offset) (hs : JobsOrdered s)
    (hw : (s.register e).window.length ≤ Config.window) (hb : Beyond s m) (hd : (s.register e).state ≠ .drifted) :
    Tells [.registerDrifted e m (offsetAdd m c) (evictCount s e)] s (takeSample e m c s) := by
  rw [takeSample_drifts c hw hb hd]
  have hv : JobsOrdered (s.setRegister e (sampled s e m c)) := hs
  have hu := Reacts.jobs_ordered hv (raise_reacts (D := AnyJob)
    (.registerDrifted e m (offsetAdd m c) (evictCount s e)) _)
  exact (tells_raiseAll [.registerDrifted e m (offsetAdd m c) (evictCount s e)]
    (s.setRegister e (sampled s e m c))).kept (Reacts.ports_kept (evict_reacts hu))

/-- Settles O40. What a sample may change follows from its being a reaction to the new record (`takeSample_reacts`);
the record and its notices from the equations of the four kinds of sample; and what becomes of the engine and its COLOUR
jobs on entry to DRIFTED from the laws of eviction, of the state in which REGISTER_DRIFTED has been raised. -/
theorem sampleTaken : Obligations.SampleTaken := by
  intro e m c s ht hr r x d drifts takes colour parked uncut t
  have hs : JobsOrdered s := ht.jobs
  let v := s.setRegister e (sampled s e m c)
  have reacts := takeSample_reacts (m := m) c hs hr.window
  have takes_iff : ∀ n, takes n ↔ evicted s e n := fun n => by rw [evicted_iff, needsColour_iff]
  have others : OthersStay (fun n => drifts ∧ takes n) v t := by
    simp only [takes_iff]
    exact Reacts.others_stay reacts
  refine ⟨Reacts.kept reacts, (PortsKept.of_eq (t := v) rfl).trans (Reacts.ports_kept reacts), others, ?entry, ?within⟩
  case entry =>
    rintro ⟨hb, hd⟩
    have tells := takeSample_drifts_tells c hs hr.window hb hd
    rw [evictCount_eq] at tells
    obtain ⟨ports, told⟩ : ∃ ports,
        raise (.registerDrifted e m (offsetAdd m c) (evictCount s e)) v = { v with ports } := ⟨_, raise_same _ v⟩
    have hu : JobsOrdered { v with ports } := hs
    have after : t = serve (colourEvict e { v with ports }) :=
      told ▸ takeSample_drifts c hr.window hb hd
    have taken : ∀ n, takes n → TakenOff n s t ∧ ¬ WaitsIn (t.engine e).ctx n := fun n hn =>
      have hn : evicted { v with ports } e n := (takes_iff n).mp hn
      after ▸ ⟨(evict_takenOff hu hn).since rfl le_rfl, evict_not_waits hu hn⟩
    exact ⟨taken, after ▸ evict_cancel hu, after ▸ evict_sent hu, tells⟩
  case within =>
    intro hb
    have tells := takeSample_within_tells c hs hr.window hb
    exact ⟨fun h h' => sampleNotices_locks h h' ▸ tells, fun h h' => sampleNotices_relocks h h' ▸ tells,
      fun h h' => sampleNotices_restores h h' ▸ tells⟩

end Sys2Proof.Machine
end

section
/-! Proof of chapter 7's statement about starting and stopping a press, the plant clock and the schedule (R142, R143,
R145). Each outcome of a request is an equation of the function that decides it (`reqPressStart`, `reqPressStop`,
`reqSetPressSchedule`), which names the state written, the notices raised and the answer; `pressRequests` carries them
to the commands. -/

namespace Sys2Proof.Machine

open State

/-- A yes or no value's byte spells it. -/
@[simp] theorem flagOf_ite (force : Bool) : flagOf (if force then 1 else 0) = some force := by
  cases force <;> rfl

/-! ### PRESS_START (R142) -/

section PressStart

variable {b f : Byte} {pr : PressId} {force : Bool} (s : State)

/-- A press out of range. -/
theorem reqPressStart_badValue (hb : pressOf b = none) : reqPressStart b f s = (s, bare .badValue) := by
  simp only [reqPressStart, hb]

variable (hb : pressOf b = some pr) (hf : flagOf f = some force)

include hb hf

/-- A press that is RUNNING already. -/
theorem reqPressStart_running (h : (s.press pr).state = .running) :
    reqPressStart b f s = (s, bare .wrongState) := by
  simp only [reqPressStart, hb, hf, h]

/-- An IDLE press has nothing to print. -/
theorem reqPressStart_idle (h : (s.press pr).state = .idle) : reqPressStart b f s = (s, bare .notReady) := by
  simp only [reqPressStart, hb, hf, h]

/-- A press in MAKEREADY does not start without force. -/
theorem reqPressStart_notReady (h : (s.press pr).state = .makeready) (hforce : force = false) :
    reqPressStart b f s = (s, ⟨.notReady, [.count (s.press pr).unsatisfied]⟩) := by
  simp only [reqPressStart, hb, hf, h, hforce, Bool.false_eq_true, if_false]

/-- A press that is READY starts, and one in MAKEREADY starts by force. -/
theorem reqPressStart_ok
    (h : (s.press pr).state = .ready ∨ (s.press pr).state = .makeready ∧ force = true) :
    reqPressStart b f s =
      (raiseAll [.pressStarted pr (s.press pr).edition (s.press pr).unsatisfied force (s.press pr).late]
        (s.setPressState pr .running), okWith [.count (s.press pr).unsatisfied]) := by
  rcases h with h | ⟨h, hforce⟩
  · simp only [reqPressStart, hb, hf, h]
    rfl
  · simp only [reqPressStart, hb, hf, h, hforce, if_true]
    rfl

end PressStart

/-! ### PRESS_STOP (R143) -/

/-- A press that stops takes the state of its counts, with PRESS_STOPPED and, where that state is READY, PRESS_READY
after it. -/
theorem stopPress_eq (pr : PressId) (s : State) :
    stopPress pr s =
      let x := s.press pr
      let st := countedState x.positions x.unsatisfied
      raiseAll (.pressStopped pr st :: if st = .ready then [.pressReady pr x.edition x.positions] else [])
        (s.setPressState pr st) := by
  simp only [stopPress, stateOfCounts_eq_countedState]
  by_cases ready : countedState (s.press pr).positions (s.press pr).unsatisfied = .ready
  · simp only [if_pos ready, raiseAll, List.foldl_cons, List.foldl_nil]
    exact if_pos ready
  · simp only [if_neg ready, raiseAll, List.foldl_cons, List.foldl_nil]
    exact if_neg ready

section PressStop

variable {b : Byte} {pr : PressId} (s : State)

/-- A press out of range. -/
theorem reqPressStop_badValue (hb : pressOf b = none) : reqPressStop b s = (s, bare .badValue) := by
  simp only [reqPressStop, hb]

variable (hb : pressOf b = some pr)

include hb

/-- A press that is not RUNNING. -/
theorem reqPressStop_wrongState (h : (s.press pr).state ≠ .running) :
    reqPressStop b s = (s, bare .wrongState) := by
  simp only [reqPressStop, hb, if_neg h]

/-- A RUNNING press stops. -/
theorem reqPressStop_ok (h : (s.press pr).state = .running) : reqPressStop b s = (stopPress pr s, bare .ok) := by
  simp only [reqPressStop, hb, if_pos h]

end PressStop

/-! ### SET_CLOCK and SET_PRESS_SCHEDULE (R145) -/

/-- The clock is set; CLOCK_SET, raised after, is stamped with the new time. -/
theorem reqSetClock_eq (time : U32) (s : State) :
    reqSetClock time s = (raiseAll [.clockSet s.clock time.toNat] (s.setClock time.toNat), bare .ok) := rfl

section SetPressSchedule

variable {b : Byte} {pr : PressId} (start : Option U32) {lead : U16} (s : State)

/-- A press or a lead time out of range. -/
theorem reqSetPressSchedule_badValue (h : pressOf b = none ∨ 180 < lead.toNat) :
    reqSetPressSchedule b start lead s = (s, bare .badValue) := by
  unfold reqSetPressSchedule
  split
  next => rfl
  next hb =>
    rcases h with h | h
    · cases h.symm.trans hb
    · exact if_pos h

/-- A press and a lead time in range. -/
theorem reqSetPressSchedule_ok (hb : pressOf b = some pr) (h : lead.toNat ≤ 180) :
    reqSetPressSchedule b start lead s =
      (serve (raiseAll [.pressScheduled pr (start.map BitVec.toNat) lead.toNat]
        (s.modPress pr fun x => { x with
          start := start.map BitVec.toNat, lead := lead.toNat, window := false, late := false
          windowArmed := start.isSome, startArmed := start.isSome })), bare .ok) := by
  have inRange : ¬ Config.maxLead < lead.toNat := h.not_gt
  simp only [reqSetPressSchedule, hb, if_neg inRange, schedulePress, Option.isSome_map, raiseAll, List.foldl_cons,
    List.foldl_nil]

end SetPressSchedule

/-! ### The commands -/

/-- Settles O50: the rights first, then each request by the equations of the function that decides it. What those read
of the state with the request in hand is what they read of the state. -/
theorem pressRequests : Obligations.PressRequests := by
  refine ⟨?rights, ?presses, ?schedule⟩
  case rights =>
    intro p tag b f s hfree hplan
    exact ⟨answers_refusedRights (r := .pressStart b f) hfree hplan,
      answers_refusedRights (r := .pressStop b) hfree hplan⟩
  case presses =>
    intro p tag pr force s hfree hplan x start stop
    have hb : pressOf (byteOf pr.val) = some pr := pressOf_byteOf pr
    have hf : flagOf (if force then 1 else 0) = some force := flagOf_ite force
    let starting := Request.pressStart (byteOf pr.val) (if force then 1 else 0)
    let stopping := Request.pressStop (byteOf pr.val)
    refine ⟨fun hrun => ⟨?_, ?_⟩, fun hrun => ?_, fun hidle => ?_, fun hmake hforce => ?_, fun hgo => ?_,
      fun b f hbad => ⟨?_, ?_⟩⟩
    · exact answers_unchanged (r := starting) hfree hplan (reqPressStart_running (holding p _ s) hb hf hrun)
    · exact answers_of (r := stopping) hfree hplan
        ((reqPressStop_ok (holding p _ s) hb hrun).trans (congrArg (·, bare .ok) (stopPress_eq pr _)))
    · exact answers_unchanged (r := stopping) hfree hplan (reqPressStop_wrongState (holding p _ s) hb hrun)
    · exact answers_unchanged (r := starting) hfree hplan (reqPressStart_idle (holding p _ s) hb hf hidle)
    · exact answers_unchanged (r := starting) hfree hplan
        (reqPressStart_notReady (holding p _ s) hb hf hmake hforce)
    · exact answers_of (r := starting) hfree hplan (reqPressStart_ok (holding p _ s) hb hf hgo)
    · exact answers_unchanged (r := .pressStart b f) hfree hplan
        (reqPressStart_badValue (holding p _ s) (pressOf_eq_none hbad))
    · exact answers_unchanged (r := .pressStop b) hfree hplan
        (reqPressStop_badValue (holding p _ s) (pressOf_eq_none hbad))
  case schedule =>
    intro p tag s hfree htables hplan
    refine ⟨fun time => ?_, fun pr start lead hlead => ?_, fun b start lead hbad => ?_⟩
    · exact answers_of (r := .setClock time) (ns := [.clockSet s.clock time.toNat]) hfree hplan
        (reqSetClock_eq time (holding p _ s))
    · exact answersServing_of (r := .setPressSchedule (byteOf pr.val) start lead)
        (ns := [.pressScheduled pr (start.map BitVec.toNat) lead.toNat]) hfree hplan htables.jobs
        (reqSetPressSchedule_ok start (holding p _ s) (pressOf_byteOf pr) hlead)
    · exact answers_unchanged (r := .setPressSchedule b start lead) hfree hplan
        (reqSetPressSchedule_badValue start (holding p _ s) (hbad.imp pressOf_eq_none id))

end Sys2Proof.Machine
end

section
/-! Proofs of the desk link's statements (chapter 10), and of what a step and a notice are: one lemma for each thing
that reception and transmission can do, then the statements. -/

namespace Sys2Proof.Machine

open State

/-! ### The queue of commands, and notices -/

/-- Settles O1: the step function looks at the front of the queue and at nothing else. -/
theorem stepRunsFront : Obligations.StepRunsFront := by
  intro s c rest
  constructor
  · intro h
    rw [step, h]
  · intro h
    rw [step, h]

/-- An offer to a port that has room and has lost no notice. -/
theorem offer_room {time : Nat} {n : Notice} {l : Link} (h : l.noticeCount < 64) (ho : l.overrun = none) :
    Link.offer time n l = started { l with output := l.output ++ [.notice time n] } := by
  rw [Link.offer, if_pos (show l.noticeCount < Config.noticeQueue from h), ho, ← pump_started]

/-- An offer to a port that has room but has lost a notice. -/
theorem offer_lost {time : Nat} {n : Notice} {l : Link} (h : l.noticeCount < 64) (ho : l.overrun ≠ none) :
    Link.offer time n l = l := by
  rw [Link.offer, if_pos (show l.noticeCount < Config.noticeQueue from h)]
  cases hl : l.overrun with
  | none => exact absurd hl ho
  | some t => rfl

/-- An offer to a port whose notice queue is full. -/
theorem offer_full {time : Nat} {n : Notice} {l : Link} (h : 64 ≤ l.noticeCount) :
    Link.offer time n l = { l with overrun := some (l.overrun.getD time) } :=
  if_neg (show ¬ l.noticeCount < Config.noticeQueue from Nat.not_lt.mpr h)

/-- Settles O60: the cases of an offer, at each port by its own mask. -/
theorem noticeOffered : Obligations.NoticeOffered := by
  intro n s q
  refine ⟨raise_same n s, fun hm => ?_, fun hm => ⟨fun hr ho => ?_, fun hr ho => ?_, fun hf => ?_⟩⟩
  · rw [port_raise, if_neg (by rw [hm]; exact Bool.false_ne_true)]
  · rw [port_raise, if_pos hm, offer_room hr ho]
  · rw [port_raise, if_pos hm, offer_lost hr ho]
  · rw [port_raise, if_pos hm, offer_full hf]

/-! ### The layout of a frame -/

/-- Settles O8: the check by evaluation; the layout is that of `OutFrame.bytes`, with the body's head read off. -/
theorem frameLayout : Obligations.FrameLayout := by
  refine ⟨by decide +kernel, fun f => ⟨f.header.1, f.header.2.1, f.header.2.2, ?_, ?_⟩⟩
  · simp [OutFrame.bytes, coveredBytes, Config.sync]
  · cases f with
    | answer g k a => exact ⟨rfl, rfl, rfl, rfl⟩
    | notice t n => exact ⟨rfl, rfl, rfl, rfl⟩
    | overrun t => exact ⟨rfl, rfl, rfl, rfl⟩

/-! ### Reception -/

/-- A bad frame's answer, with the receiver hunting again. -/
theorem badFrame_hunting (p : PortId) (s : State) :
    badFrame p (setReceiver p .hunting s) = s.modLink p fun l =>
      if l.refusals.length < 8 then
        started { l with rx := .hunting, refusals := l.refusals ++ [.answer 0 0 ⟨.badFrame, []⟩] }
      else { l with rx := .hunting } := by
  unfold badFrame setReceiver
  rw [modLink_modLink]
  congr 1
  funext l
  exact refuse_eq 0 0 .badFrame _

/-- What makes a frame a bad one (R176). -/
theorem frameBad_iff (f : Frame) : frameBad f = true ↔
    1024 < f.length.toNat ∨ f.typ ≠ 1 ∨
      f.check ≠ crc (bytes16 f.length ++ [f.typ, f.tag] ++ bytes16 f.kind ++ f.body) := by
  simp only [frameBad, coveredBytes, Bool.or_eq_true, decide_eq_true_eq, bne_iff_ne, ne_eq, or_assoc]
  rfl

/-- A receiver that is hunting drops every byte but sync. -/
theorem deskLinkByte_hunting {p : PortId} {b : Byte} {s : State} (h : (s.port p).link.rx = .hunting) :
    deskLinkByte p b s = if b = 0xD7 then setReceiver p (.inFrame []) s else s := by
  rw [deskLinkByte, h]
  rfl

/-- A byte inside a frame that makes the length too long. -/
theorem deskLinkByte_tooLong {p : PortId} {b : Byte} {xs : List Byte} {s : State}
    (h : (s.port p).link.rx = .inFrame xs) (hl : lengthTooLong (xs ++ [b]) = true) :
    deskLinkByte p b s = badFrame p (setReceiver p .hunting s) := by
  rw [deskLinkByte, h]
  exact if_pos hl

/-- A byte inside a frame that completes it. -/
theorem deskLinkByte_completes {p : PortId} {b : Byte} {xs : List Byte} {f : Frame} {s : State}
    (h : (s.port p).link.rx = .inFrame xs) (hl : lengthTooLong (xs ++ [b]) = false)
    (hf : frameOf (xs ++ [b]) = some f) : deskLinkByte p b s = frameReceived p f s := by
  rw [deskLinkByte, h]
  dsimp only
  rw [hl, hf]
  rfl

/-- A byte inside a frame that leaves it partial. -/
theorem deskLinkByte_partial {p : PortId} {b : Byte} {xs : List Byte} {s : State}
    (h : (s.port p).link.rx = .inFrame xs) (hl : lengthTooLong (xs ++ [b]) = false)
    (hf : frameOf (xs ++ [b]) = none) : deskLinkByte p b s = setReceiver p (.inFrame (xs ++ [b])) s := by
  rw [deskLinkByte, h]
  dsimp only
  rw [hl, hf]
  rfl

/-- The number that two bytes spell. -/
theorem le16_toNat (a b : Byte) : (le16 a b).toNat = a.toNat + 256 * b.toNat := by
  have ha := a.isLt
  rw [le16, BitVec.toNat_append, Nat.shiftLeft_eq, Nat.mul_comm, show (256 : Nat) = 2 ^ 8 from rfl,
    ← Nat.two_pow_add_eq_or_of_lt ha, Nat.add_comm]

/-- Settles O2: the cases of a byte and of a completed frame. -/
theorem badFrames : Obligations.BadFrames := by
  refine ⟨fun p f s hbad => ?_, fun p b s => ⟨fun hr hb => ?_, fun hr hb => ?_, fun l0 hr hlong => ?_, rfl⟩⟩
  · have hf : frameReceived p f s = badFrame p (setReceiver p .hunting s) := if_pos ((frameBad_iff f).mpr hbad)
    rw [← badFrame_hunting, ← hf]
    rfl
  · have h := deskLinkByte_hunting (b := b) hr
    rw [if_neg hb] at h
    exact congrArg Host.Outcome.next h
  · have h := deskLinkByte_hunting (b := b) hr
    rw [if_pos hb] at h
    exact congrArg Host.Outcome.next h
  · have hl : lengthTooLong ([l0] ++ [b]) = true := by
      rw [← le16_toNat] at hlong
      exact decide_eq_true hlong
    have h := deskLinkByte_tooLong hr hl
    rw [badFrame_hunting] at h
    exact congrArg Host.Outcome.next h

/-! ### A request that waits or is refused -/

/-- A port whose request is in hand, or that waits for a soft reset, takes no other. -/
theorem takeNext_waits {p : PortId} {s : State} (h : (s.port p).link.inHand ≠ none ∨ s.softResetDue = true) :
    takeNext p s = s := by
  unfold takeNext
  dsimp only
  split
  · rename_i hh hq
    exact if_pos (h.resolve_left fun hn => hn hh)
  · rfl

/-- A request joins the queue of a port that takes none now. -/
theorem receive_joins {p : PortId} {r : Received} {s : State}
    (h : (s.port p).link.inHand ≠ none ∨ s.softResetDue = true) (hq : (s.port p).link.queue.length < 8) :
    receive p r s = s.modLink p fun l => { l with queue := l.queue ++ [r] } := by
  rw [receive, if_pos (show _ < Config.requestQueue from hq)]
  refine takeNext_waits (h.imp (fun hn => ?_) fun hd => hd)
  rw [port_modLink, if_pos rfl]
  exact hn

/-- A request that finds the queue full is refused. -/
theorem receive_full {p : PortId} {r : Received} {s : State} (hq : 8 ≤ (s.port p).link.queue.length) :
    receive p r s = s.modLink p fun l =>
      if l.refusals.length < 8 then
        started { l with refusals := l.refusals ++ [.answer r.tag r.kind ⟨.refusedBusy, []⟩] }
      else l := by
  rw [receive, if_neg (show ¬ _ < Config.requestQueue from Nat.not_lt.mpr hq)]
  congr 1
  funext l
  exact refuse_eq _ _ _ l

/-- Settles O4: a request joins the queue, or finds it full, whatever it holds. -/
theorem requestQueued : Obligations.RequestQueued := by
  intro p tag s
  refine ⟨fun r h hq => ?_, fun r hq => ?_, fun kind hq => ?_, fun kind h hq => ?_⟩
  · rw [exec_command]
    exact congrArg Host.Outcome.next (receive_joins h hq)
  · rw [exec_command]
    exact congrArg Host.Outcome.next (receive_full hq)
  · exact congrArg Host.Outcome.next (receive_full hq)
  · exact congrArg Host.Outcome.next (receive_joins h hq)

/-- Settles O6: what the deciding of a request keeps of its link. -/
theorem everyRequestAnswered : Obligations.EveryRequestAnswered := by
  intro p tag r s hfree ht
  obtain ⟨hhand, hqueue, hanswer⟩ := takeRequest_answers p ⟨tag, r.kind, .sound r⟩ s ht.jobs
  refine ⟨_, ?_, hhand, hqueue.trans hfree.queue, hanswer⟩
  rw [exec_command, receiveSound, receive_free p _ s hfree]

end Sys2Proof.Machine
end

section
/-! Proofs of the statements about a request's bytes (O3) and about the requests that are refused before their block
decides them (O5). The reading of a body is inverse to its writing, and a frame's bytes complete it only together. -/

namespace Sys2Proof.Machine

open State

/-! ### The reading of a body is the inverse of its writing -/

/-- A byte of a slice of a word is a byte of the word. -/
theorem byte_of_slice {n : Nat} (x : BitVec n) (i j : Nat) (h : j + 8 ≤ 32) :
    (x.extractLsb' i 32).extractLsb' j 8 = x.extractLsb' (i + j) 8 := by
  ext k hk
  simp only [BitVec.getElem_extractLsb', BitVec.getLsbD_extractLsb']
  have : j + k < 32 := by omega
  simp [this, Nat.add_assoc]
/-- A byte above the lowest is one of the bytes joined above it. -/
theorem byte_above {v : Nat} (hi : BitVec v) (lo : Byte) (i : Nat) :
    (hi ++ lo).extractLsb' (i + 8) 8 = hi.extractLsb' i 8 := by
  rw [BitVec.extractLsb'_append_eq_of_le (by omega), Nat.add_sub_cancel]

/-- The lowest byte is the byte joined last. -/
theorem byte_lowest {v : Nat} (hi : BitVec v) (lo : Byte) : (hi ++ lo).extractLsb' 0 8 = lo :=
  BitVec.extractLsb'_append_eq_right

/-- The bytes of a word that two bytes spell. -/
theorem bytes16_le16 (a b : Byte) : bytes16 (le16 a b) = [a, b] := by
  simp only [bytes16, le16, byte_above _ _ 0, byte_lowest, BitVec.extractLsb'_eq_self]
/-- The bytes of a word that four bytes spell. -/
theorem bytes32_le32 (a b c d : Byte) : bytes32 (le32 a b c d) = [a, b, c, d] := by
  simp only [bytes32, le32, byte_above _ _ 0, byte_above _ _ 8, byte_above _ _ 16, byte_lowest,
    BitVec.extractLsb'_eq_self]
/-- The bytes of the halves of a word that eight bytes spell. -/
theorem bytes32_le64 (a b c d e f g h : Byte) :
    bytes32 ((le64 a b c d e f g h).extractLsb' 0 32) = [a, b, c, d] ∧
      bytes32 ((le64 a b c d e f g h).extractLsb' 32 32) = [e, f, g, h] := by
  simp only [bytes32, le64, byte_of_slice, byte_above _ _ 0, byte_above _ _ 8, byte_above _ _ 16, byte_above _ _ 24,
    byte_above _ _ 32, byte_above _ _ 40, byte_above _ _ 48, byte_lowest, BitVec.extractLsb'_eq_self, Nat.reduceAdd, Nat.reduceLeDiff, and_self]

/-- An optional field is a byte 0, or a byte 1 and then its value. -/
theorem takeOptional_some {α : Type} {f : List Byte → Option (α × List Byte)} {l : List Byte} {x : Option α}
    {rest : List Byte} (h : takeOptional f l = some (x, rest)) :
    (x = none ∧ l = 0 :: rest) ∨ ∃ y tail, x = some y ∧ l = 1 :: tail ∧ f tail = some (y, rest) := by
  unfold takeOptional at h
  split at h
  · rename_i b tail
    split at h
    · rename_i hb
      have hb : b = 0 := BitVec.eq_of_toNat_eq hb
      left
      simp_all
    · split at h
      · rename_i hb
        have hb : b = 1 := BitVec.eq_of_toNat_eq hb
        right
        simp only [Option.map_eq_some_iff, Prod.exists, Prod.mk.injEq] at h
        obtain ⟨y, t, hf, hx, ht⟩ := h
        exact ⟨y, tail, hx.symm, by rw [hb], by rw [hf, ht]⟩
      · cases h
  · cases h






/-- A body that reads as a request of a kind is that request written out. -/
def Spells (k : Nat) (body : List Byte) : Prop :=
  ∀ r, readBody k body = some r → r.kind.toNat = k ∧ r.bytes = body

/-- The kinds with an empty body. -/
theorem spells_empty {k : Nat} (hk : k ∈ [24, 25, 26, 27, 37]) (body : List Byte) : Spells k body := by
  intro r h
  fin_cases hk
  all_goals
    match body, h with
    | [], h => cases h; exact ⟨rfl, rfl⟩

/-- The kinds whose body is one byte. -/
theorem spells_oneByte {k : Nat} (hk : k ∈ [5, 10, 11, 12, 17, 20, 21, 22, 29, 34, 35, 36]) (body : List Byte) :
    Spells k body := by
  intro r h
  fin_cases hk
  all_goals
    match body, h with
    | [_], h => cases h; exact ⟨rfl, rfl⟩

/-- The kinds whose body is two bytes. -/
theorem spells_twoBytes {k : Nat} (hk : k ∈ [4, 6, 7, 8, 9, 13, 14, 15, 16, 23, 28, 32]) (body : List Byte) :
    Spells k body := by
  intro r h
  fin_cases hk
  all_goals
    match body, h with
    | [_, _], h => cases h; exact ⟨rfl, rfl⟩

/-- The kinds whose body is a word. -/
theorem spells_word {k : Nat} (hk : k ∈ [2, 31, 33]) (body : List Byte) : Spells k body := by
  intro r h
  fin_cases hk
  all_goals
    match body, h with
    | [a, b], h => cases h; exact ⟨rfl, bytes16_le16 a b⟩

/-- SEPARATION_ARRIVED. -/
theorem spells_arrival (body : List Byte) : Spells 1 body := by
  intro r h
  match body, h with
  | [_, _, _, _, _, _, _, _, _, _, _, _, _], h =>
    cases h
    simp [Request.kind, Request.bytes, bytes16_le16, bytes32_le64]

/-- SET_CLOCK. -/
theorem spells_clock (body : List Byte) : Spells 18 body := by
  intro r h
  match body, h with
  | [a, b, c, d], h => cases h; exact ⟨rfl, bytes32_le32 a b c d⟩

/-- STAGE_POSITION, with its second page or without. -/
theorem spells_stage (body : List Byte) : Spells 3 body := by
  intro r h
  change readStagePosition body = some r at h
  unfold readStagePosition at h
  split at h
  · rename_i p q f a b rest
    split at h
    · rename_i x sep hx
      cases h
      rcases takeOptional_some hx with ⟨rfl, rfl⟩ | ⟨y, tail, rfl, rfl, ht⟩
      · simp [Request.kind, Request.bytes, bytes16_le16]
      · match tail, ht with
        | [c, d, e], ht =>
          cases ht
          simp [Request.kind, Request.bytes, bytes16_le16]
    · cases h
  · cases h

/-- SET_PRESS_SCHEDULE, with its start time or without. -/
theorem spells_schedule (body : List Byte) : Spells 19 body := by
  intro r h
  change readSchedule body = some r at h
  unfold readSchedule at h
  split at h
  · rename_i p rest
    split at h
    · rename_i x a b hx
      cases h
      rcases takeOptional_some hx with ⟨rfl, rfl⟩ | ⟨y, tail, rfl, rfl, ht⟩
      · simp [Request.kind, Request.bytes, bytes16_le16]
      · match tail, ht with
        | [c, d, e, f, _, _], ht =>
          cases ht
          simp [Request.kind, Request.bytes, bytes16_le16, bytes32_le32]
    · cases h
  · cases h

/-- SET_LIMITS, with its lane or without. -/
theorem spells_limits (body : List Byte) : Spells 30 body := by
  intro r h
  change readLimits body = some r at h
  unfold readLimits at h
  split at h
  · rename_i l a b rest
    split at h
    · rename_i x hx
      cases h
      rcases takeOptional_some hx with ⟨rfl, rfl⟩ | ⟨y, tail, rfl, rfl, ht⟩
      · simp [Request.kind, Request.bytes, bytes16_le16]
      · match tail, ht with
        | [c], ht =>
          cases ht
          simp [Request.kind, Request.bytes, bytes16_le16]
    · cases h
  · cases h

/-- Every kind of the request summary. -/
theorem spells_known {k : Nat} (h1 : 1 ≤ k) (h2 : k ≤ 37) (body : List Byte) : Spells k body := by
  have kinds : k = 1 ∨ k = 3 ∨ k = 18 ∨ k = 19 ∨ k = 30 ∨ k ∈ [24, 25, 26, 27, 37] ∨
      k ∈ [5, 10, 11, 12, 17, 20, 21, 22, 29, 34, 35, 36] ∨ k ∈ [4, 6, 7, 8, 9, 13, 14, 15, 16, 23, 28, 32] ∨
      k ∈ [2, 31, 33] := by
    interval_cases k <;> simp
  rcases kinds with rfl | rfl | rfl | rfl | rfl | h | h | h | h
  · exact spells_arrival body
  · exact spells_stage body
  · exact spells_clock body
  · exact spells_schedule body
  · exact spells_limits body
  · exact spells_empty h body
  · exact spells_oneByte h body
  · exact spells_twoBytes h body
  · exact spells_word h body

/-- A body that no request of its kind has is malformed. -/
theorem readRequest_malformed {kind : U16} {body : List Byte} (h1 : 1 ≤ kind.toNat) (h2 : kind.toNat ≤ 37)
    (h : ∀ r : Request, r.kind = kind → r.bytes ≠ body) : readRequest kind body = .malformed := by
  have hk : knownKind kind = true := by simp [knownKind, h1, h2]
  rw [readRequest, if_pos hk]
  cases hr : readBody kind.toNat body with
  | none => rfl
  | some r =>
    obtain ⟨hkind, hbytes⟩ := spells_known h1 h2 body r hr
    exact absurd hbytes (h r (BitVec.eq_of_toNat_eq hkind))

/-- A kind outside the request summary names none. -/
theorem readRequest_unknown {kind : U16} {body : List Byte} (h : ¬ (1 ≤ kind.toNat ∧ kind.toNat ≤ 37)) :
    readRequest kind body = .unknownKind := by
  refine if_neg fun hk => h ?_
  simpa [knownKind] using hk

/-- A request of each kind, in the order of the request summary. -/
def blankRequests : List Request :=
  [.separationArrived 0 0 0 0 0, .withdrawPage 0, .stagePosition 0 0 0 0 none 0, .clearStagedPosition 0 0,
    .discardStage 0, .commitPlan 0 0, .holdPosition 0 0, .releasePosition 0 0, .requeuePosition 0 0,
    .clearEngineFault 0, .restoreEngine 0, .rearmRegister 0, .pullConfirm 0 0, .mount 0 0, .unmount 0 0,
    .pressStart 0 0, .pressStop 0, .setClock 0, .setPressSchedule 0 none 0, .hold 0, .release 0, .step 0,
    .setStopPolicy 0 0, .lineStop, .lineResume, .reconcileEnd, .softReset, .setRights 0 0, .setNoticeMask 0,
    .setLimits 0 0 none, .queryPage 0, .queryPosition 0 0, .queryJob 0, .queryEngine 0, .queryLane 0, .queryPress 0,
    .queryPart]

/-- Every known kind is the kind of some request. -/
theorem exists_request {kind : U16} (h1 : 1 ≤ kind.toNat) (h2 : kind.toNat ≤ 37) : ∃ r : Request, r.kind = kind := by
  have hall : blankRequests.map (fun r => r.kind.toNat) = List.range' 1 37 := by decide
  have hmem : kind.toNat ∈ blankRequests.map fun r => r.kind.toNat := by
    rw [hall, List.mem_range'_1]
    omega
  obtain ⟨r, -, hr⟩ := List.mem_map.mp hmem
  exact ⟨r, BitVec.eq_of_toNat_eq hr⟩

/-! ### Requests that are refused -/

/-- A request that is answered as it is taken, and changes nothing, has this effect. -/
theorem takeRequest_answered {p : PortId} {r : Received} {a : Answer} {s : State}
    (h : decideRequest p r (holding p r s) = (holding p r s, a)) :
    takeRequest p r s = answerAt p r.tag r.kind a (inHandAt p r s) := by
  have hx : takeRequest p r s = (holding p r s).modLink p (Link.answer r.tag r.kind a) :=
    congrArg (fun x : State × Answer => x.1.modLink p (Link.answer r.tag r.kind x.2)) h
  rw [hx]
  exact congrArg (fun f => State.modLink p f _) (funext (answer_started r.tag r.kind a))

/-- A request of no known kind is decided. -/
theorem decideRequest_unknown (p : PortId) (tag : Byte) (kind : U16) (s : State) :
    decideRequest p ⟨tag, kind, .unknownKind⟩ s = (s, ⟨.badValue, []⟩) := rfl

/-- A request with a body that its kind does not have is decided (R178 steps 2 and 3). -/
theorem decideRequest_malformed (p : PortId) (tag : Byte) (kind : U16) (s : State) :
    decideRequest p ⟨tag, kind, .malformed⟩ s =
      (s, ⟨if kindAllowed kind (s.port p).rights = true then .badValue else .refusedRights, []⟩) := by
  unfold decideRequest
  dsimp only
  split <;> rfl

/-- A frame that is not bad, at a free port, is the taking of what it holds. -/
theorem frameReceived_free {p : PortId} {f : Frame} {s : State} (h : Free p s) (hf : frameBad f = false) :
    frameReceived p f s =
      takeRequest p ⟨f.tag, f.kind, readRequest f.kind f.body⟩ (s.modLink p fun l => { l with rx := .hunting }) := by
  have hfree : Free p (setReceiver p .hunting s) := by
    have hport := port_modLink p (fun l => { l with rx := .hunting }) s p
    rw [if_pos rfl] at hport
    exact ⟨(congrArg (fun x : Port => x.link.inHand) hport).trans h.hand,
      (congrArg (fun x : Port => x.link.queue) hport).trans h.queue, h.due⟩
  unfold frameReceived
  dsimp only
  rw [hf, if_neg Bool.false_ne_true, receive_free p _ _ hfree]
  rfl

/-- Settles O5: no kind, no right, or a body that no request of the kind has. -/
theorem requestRefused : Obligations.RequestRefused := by
  refine ⟨fun p tag kind s hfree => ?_, fun p tag r s hfree ha => answers_refusedRights hfree ha,
    fun p f s hfree hlen htyp hcheck => ?_⟩
  · refine ⟨⟨tag, kind, .unknownKind⟩, rfl, rfl, ?_⟩
    have h := (receive_free p ⟨tag, kind, .unknownKind⟩ s hfree).trans (takeRequest_answered rfl)
    exact congrArg Host.Outcome.next h
  · have hgood : frameBad f = false := by
      rw [Bool.eq_false_iff, ne_eq, frameBad_iff]
      rintro (h | h | h)
      · omega
      · exact h htyp
      · exact h hcheck
    have refuses : ∀ c : AnswerCode,
        decideRequest p ⟨f.tag, f.kind, readRequest f.kind f.body⟩
            (holding p ⟨f.tag, f.kind, readRequest f.kind f.body⟩ (s.modLink p fun l => { l with rx := .hunting })) =
          (holding p ⟨f.tag, f.kind, readRequest f.kind f.body⟩ (s.modLink p fun l => { l with rx := .hunting }),
            ⟨c, []⟩) →
        Answers (.frameReceived p f) p f.tag f.kind ⟨c, []⟩ [] s (s.modLink p fun l => { l with rx := .hunting }) := by
      intro c h
      refine ⟨⟨f.tag, f.kind, readRequest f.kind f.body⟩, rfl, rfl, ?_⟩
      exact congrArg Host.Outcome.next ((frameReceived_free hfree hgood).trans (takeRequest_answered h))
    refine ⟨fun hk => refuses _ ?_, fun hk hbody => ?_⟩
    · rw [readRequest_unknown hk, decideRequest_unknown]
    · obtain ⟨q, hq⟩ := exists_request hk.1 hk.2
      have hrights : ((holding p ⟨f.tag, f.kind, .malformed⟩
          (s.modLink p fun l => { l with rx := .hunting })).port p).rights = (s.port p).rights := by
        rw [rights_holding, port_modLink, if_pos rfl]
      have hallow : kindAllowed f.kind (s.port p).rights = q.allowed (s.port p).rights := by
        rw [← hq, kindAllowed_kind]
      refine ⟨fun hall => refuses _ ?_, fun hall => refuses _ ?_⟩
      · rw [readRequest_malformed hk.1 hk.2 hbody, decideRequest_malformed, hrights, hallow, hall q hq, if_pos rfl]
      · rw [readRequest_malformed hk.1 hk.2 hbody, decideRequest_malformed, hrights, hallow, hall q hq,
          if_neg Bool.false_ne_true]

/-! ### A request by its bytes -/

/-- Fewer bytes than a header, a body of its length and a check complete no frame. -/
theorem frameOf_short {l0 l1 : Byte} {rest : List Byte} (h : (l0 :: l1 :: rest).length < 8 + (le16 l0 l1).toNat) :
    frameOf (l0 :: l1 :: rest) = none := by
  match rest, h with
  | [], _ | [_], _ | [_, _], _ | [_, _, _], _ => rfl
  | t :: g :: k0 :: k1 :: rest, h =>
    unfold frameOf
    dsimp only
    split
    · rename_i c0 c1 hd
      have hlen := congrArg List.length hd
      simp only [List.length_drop, List.length_cons, List.length_nil] at hlen h
      omega
    · rfl

/-- A header, a body of its length and a check are a frame. -/
theorem frameOf_whole (f : Frame) (h : f.length.toNat = f.body.length) :
    frameOf (bytes16 f.length ++ [f.typ, f.tag] ++ bytes16 f.kind ++ f.body ++ bytes16 f.check) = some f := by
  unfold bytes16
  simp only [List.cons_append, List.nil_append, frameOf, le16_bytes, h, List.drop_left, List.take_left]

/-- The bytes of a frame but for the first two, from the third on. -/
def afterLength (f : Frame) : List Byte := [f.typ, f.tag] ++ bytes16 f.kind ++ f.body ++ bytes16 f.check

/-- How long a frame is. -/
theorem afterLength_length (f : Frame) : (afterLength f).length = 6 + f.body.length := by
  simp [afterLength, bytes16]
  omega

/-- A byte is received, and then the others. -/
theorem execAll_byte (p : PortId) (b : Byte) (bs : List Byte) (s : State) :
    execAll ((b :: bs).map (Instr.deskLinkByte p)) s = execAll (bs.map (Instr.deskLinkByte p)) (deskLinkByte p b s) :=
  rfl

/-- The rest of a frame's bytes, received after its length and some of it, is the reception of the frame. -/
theorem execAll_rest {p : PortId} {f : Frame} (hlen : f.length.toNat = f.body.length) :
    ∀ (todo seen : List Byte) (s : State), todo ≠ [] → seen ++ todo = afterLength f →
      (s.port p).link.rx = .inFrame (bytes16 f.length ++ seen) →
      execAll (todo.map (Instr.deskLinkByte p)) s = .next (frameReceived p f s)
  | [], _, _, hne, _, _ => absurd rfl hne
  | b :: todo, seen, s, _, hsplit, hrx => by
    have hlong : lengthTooLong (bytes16 f.length ++ seen ++ [b]) = false := by
      cases seen <;> rfl
    by_cases hlast : todo = []
    · subst hlast
      have hwhole : frameOf (bytes16 f.length ++ seen ++ [b]) = some f := by
        rw [List.append_assoc, hsplit, ← frameOf_whole f hlen]
        simp only [afterLength, List.append_assoc]
      have h := deskLinkByte_completes hrx hlong hwhole
      rw [execAll_byte, h]
      rfl
    · have hshort : frameOf (bytes16 f.length ++ seen ++ [b]) = none := by
        refine frameOf_short (rest := seen ++ [b]) ?_
        have htodo : 0 < todo.length := List.length_pos_iff.mpr hlast
        have := congrArg List.length hsplit
        rw [afterLength_length] at this
        rw [le16_bytes, hlen]
        simp only [List.length_append, List.length_cons, List.length_nil] at this ⊢
        omega
      have h := deskLinkByte_partial hrx hlong hshort
      have hnext := execAll_rest hlen todo (seen ++ [b]) (setReceiver p (.inFrame (bytes16 f.length ++ seen ++ [b])) s)
        hlast (by rw [List.append_assoc]; exact hsplit)
        (by rw [setReceiver, port_modLink, if_pos rfl, List.append_assoc])
      rw [execAll_byte, h, hnext]
      unfold frameReceived setReceiver
      dsimp only
      rw [modLink_modLink]

/-- The bytes of a whole frame, received while hunting, are the reception of the frame. -/
theorem execAll_frame {p : PortId} {f : Frame} {s : State} (hlen : f.length.toNat = f.body.length)
    (hmax : f.body.length ≤ 1024) (hrx : (s.port p).link.rx = .hunting) :
    execAll ((frameBytes f).map (Instr.deskLinkByte p)) s = .next (frameReceived p f s) := by
  have hbytes : frameBytes f =
      0xD7 :: f.length.extractLsb' 0 8 :: f.length.extractLsb' 8 8 :: afterLength f := by
    simp [frameBytes, afterLength, bytes16, Config.sync]
  have h0 : deskLinkByte p 0xD7 s = setReceiver p (.inFrame []) s := by
    rw [deskLinkByte_hunting hrx, if_pos rfl]
  have h1 : deskLinkByte p (f.length.extractLsb' 0 8) (setReceiver p (.inFrame []) s) =
      setReceiver p (.inFrame [f.length.extractLsb' 0 8]) (setReceiver p (.inFrame []) s) :=
    deskLinkByte_partial (xs := []) (by rw [setReceiver, port_modLink, if_pos rfl]) rfl rfl
  have hlong : lengthTooLong ([f.length.extractLsb' 0 8] ++ [f.length.extractLsb' 8 8]) = false := by
    refine decide_eq_false ?_
    rw [le16_bytes, hlen]
    exact Nat.not_lt.mpr hmax
  have h2 : deskLinkByte p (f.length.extractLsb' 8 8)
        (setReceiver p (.inFrame [f.length.extractLsb' 0 8]) (setReceiver p (.inFrame []) s)) =
      setReceiver p (.inFrame (bytes16 f.length))
        (setReceiver p (.inFrame [f.length.extractLsb' 0 8]) (setReceiver p (.inFrame []) s)) :=
    deskLinkByte_partial (xs := [f.length.extractLsb' 0 8]) (by rw [setReceiver, port_modLink, if_pos rfl]) hlong rfl
  have hne : afterLength f ≠ [] := by simp [afterLength]
  rw [hbytes, execAll_byte, execAll_byte, execAll_byte, h0, h1, h2, execAll_rest hlen _ [] _ hne rfl
    (by rw [setReceiver, port_modLink, if_pos rfl, List.append_nil])]
  unfold frameReceived setReceiver
  simp only [modLink_modLink]

/-- Settles O3: the body reads as its request, and the bytes of its frame are the frame. -/
theorem requestByBytes : Obligations.RequestByBytes := by
  intro p tag r s
  have hsmall := request_bytes_length r
  have hlen : (r.frame tag).length.toNat = (r.frame tag).body.length := by
    show (BitVec.ofNat 16 r.bytes.length).toNat = r.bytes.length
    rw [BitVec.toNat_ofNat]
    omega
  have hgood : frameBad (r.frame tag) = false := by
    rw [Bool.eq_false_iff, ne_eq, frameBad_iff]
    rintro (h | h | h)
    · rw [hlen] at h
      exact absurd (h.trans_le hsmall) (by decide)
    · exact h rfl
    · exact h rfl
  have hwhole : frameReceived p (r.frame tag) s =
      receiveSound p tag r (s.modLink p fun l => { l with rx := .hunting }) := by
    have h : frameReceived p (r.frame tag) s =
        receive p ⟨tag, r.kind, readRequest r.kind r.bytes⟩ (setReceiver p .hunting s) := by
      unfold frameReceived
      dsimp only
      rw [hgood, if_neg Bool.false_ne_true]
      rfl
    rw [h, readRequest_bytes]
    rfl
  refine ⟨?_, fun hrx => ?_⟩
  · rw [exec_command]
    exact congrArg Host.Outcome.next hwhole
  · rw [execAll_frame hlen (hsmall.trans (by decide)) hrx, hwhole, exec_command,
      modLink_same p _ s (by rw [← hrx])]

end Sys2Proof.Machine
end

section
/-! Proof of the statement about transmission (O7): what a link does when a frame has left it, what the deciding of a
request does to the transmitter, and what QUERY_PART answers. -/

namespace Sys2Proof.Machine

open State

/-! ### What the deciding of a request does to a link -/

section
variable {R : Link → Link → Prop} (hrefl : ∀ l, R l l) (htrans : ∀ {x y z}, R x y → R y z → R x z)
  (hoffer : ∀ time n l, R l (Link.offer time n l))
include hrefl hoffer

/-- A relation of links that an offer keeps holds over a step of serving. -/
theorem ServeStep.links {s t : State} (h : ServeStep s t) (q : PortId) : R (s.port q).link (t.port q).link := by
  cases h with
  | offer p n h =>
    rw [port_modLink]
    split
    · exact hoffer _ _ _
    · exact hrefl _
  | expose e =>
    unfold sendExpose
    split <;> exact hrefl _
  | _ => exact hrefl _

/-- The same over a step of the owning blocks' work. -/
theorem WorkStep.links {s t : State} (h : WorkStep s t) (q : PortId) : R (s.port q).link (t.port q).link := by
  cases h with
  | react h =>
    cases h with
    | serve h => exact h.links hrefl hoffer q
    | _ => exact hrefl _
  | limit x l v => cases x <;> exact hrefl _
  | renew n r k x =>
    have hports : (((clearAllCurrent n s).putPage n r).putSlot k x).ports = s.ports :=
      clearAllCurrent_keeps (P := fun t => t.ports = s.ports) n (fun _ _ _ h => h) (fun _ _ h => h) rfl
    have hport : (((clearAllCurrent n s).putPage n r).putSlot k x).port q = s.port q :=
      congrArg (fun ports : Vector Port 3 => ports[q]) hports
    rw [hport]
    exact hrefl _
  | _ => exact hrefl _

/-- The same over a step of the deciding of a request. -/
theorem DeskStep.links {s t : State} (h : DeskStep s t) (q : PortId) : R (s.port q).link (t.port q).link := by
  cases h with
  | work h => exact h.links hrefl hoffer q
  | rights p r h =>
    have : ((s.setRights p r).port q).link = (s.port q).link := by
      simp only [State.port, State.setRights, vmod_get]; split <;> rfl
    rw [this]; exact hrefl _
  | mask p m =>
    have : ((s.setMask p m).port q).link = (s.port q).link := by
      simp only [State.port, State.setMask, vmod_get]; split <;> rfl
    rw [this]; exact hrefl _

include htrans

/-- A relation of links that an offer keeps holds over the deciding of a request. -/
theorem Desks.links {s t : State} (h : Desks s t) (q : PortId) : R (s.port q).link (t.port q).link := by
  induction h with
  | refl => exact hrefl _
  | tail _ hu ih => exact htrans ih (hu.links hrefl hoffer q)

end

/-- What notices do to a transmitter: one that is sending goes on, and a free one with no refusals sends from the
output list or stays free. -/
structure StartsOutput (x y : Link) : Prop where
  refusals : y.refusals = x.refusals
  busy : x.sending ≠ none → y.sending = x.sending
  free : x.refusals = [] → x.sending = none → y.sending = none ∨ y.sending = some .output

/-- Nothing happens to a link. -/
theorem StartsOutput.refl (x : Link) : StartsOutput x x := ⟨rfl, fun _ => rfl, fun _ h => .inl h⟩

/-- One after another. -/
theorem StartsOutput.trans {x y z : Link} (h : StartsOutput x y) (k : StartsOutput y z) : StartsOutput x z := by
  refine ⟨k.refusals.trans h.refusals, fun hx => ?_, fun hr hx => ?_⟩
  · rw [k.busy (by rw [h.busy hx]; exact hx), h.busy hx]
  · rcases h.free hr hx with hy | hy
    · exact k.free (h.refusals.trans hr) hy
    · exact .inr ((k.busy (by rw [hy]; exact Option.some_ne_none _)).trans hy)

/-- A free transmitter with no refusals and something in the output list sends from that list. -/
theorem nextList_output {l : Link} (hr : l.refusals = []) (ho : l.output ≠ []) : nextList l = some .output := by
  unfold nextList
  split
  · rfl
  · rw [if_neg (not_not_intro hr)]

/-- Nothing to send from: no refusal waits. -/
theorem refusals_of_nextList {l : Link} (h : nextList l = none) : l.refusals = [] := by
  by_contra hne
  unfold nextList at h
  split at h
  · cases h
  · simp at h

/-- A transmitter with no refusals that is free or sends from the output list, once there is something in it. -/
theorem started_output {l : Link} (hr : l.refusals = []) (ho : l.output ≠ [])
    (hs : l.sending = none ∨ l.sending = some .output) : (Machine.started l).sending = some .output := by
  show l.sending.or _ = _
  rcases hs with h | h
  · rw [h, Option.none_or, nextList_output hr ho]
  · rw [h]
    rfl

/-- Starting a transmitter. -/
theorem StartsOutput.started {x y : Link} (hr : y.refusals = x.refusals) (hs : y.sending = x.sending)
    (ho : y.output ≠ []) : StartsOutput x (Machine.started y) := by
  refine ⟨hr, fun hx => ?_, fun hx hn => .inr ?_⟩
  · show y.sending.or _ = _
    rw [hs, Option.or_of_isSome (Option.isSome_iff_ne_none.mpr hx)]
  · show y.sending.or _ = _
    rw [hs, hn, Option.none_or, nextList_output (hr.trans hx) ho]

/-- An offer of a notice. -/
theorem StartsOutput.offer (time : Nat) (n : Notice) (l : Link) : StartsOutput l (Link.offer time n l) := by
  by_cases hc : l.noticeCount < 64
  · by_cases ho : l.overrun = none
    · rw [offer_room hc ho]
      exact .started rfl rfl (by simp)
    · rw [offer_lost hc ho]
      exact .refl l
  · rw [offer_full (Nat.not_lt.mp hc)]
    exact ⟨rfl, fun _ => rfl, fun _ h => .inl h⟩

/-- A request is taken at a port whose transmitter has gone on to the next list: the answer starts a transmitter
that found nothing to send. -/
theorem takeRequest_sending {p : PortId} {r : Received} {s : State} (hs : JobsOrdered s)
    (hgone : (s.port p).link.sending = nextList (s.port p).link) :
    ((takeRequest p r s).port p).link.sending = (nextList (s.port p).link).or (some .output) := by
  unfold takeRequest
  dsimp only
  have hd := (decideRequest_desks p r (s := s.modLink p fun l => { l with inHand := some r }) hs).links
    StartsOutput.refl StartsOutput.trans StartsOutput.offer p
  generalize decideRequest p r (s.modLink p fun l => { l with inHand := some r }) = x at hd
  rw [port_modLink, if_pos rfl] at hd
  have hd : StartsOutput { (s.port p).link with inHand := some r } (x.1.port p).link := hd
  rw [port_modLink, if_pos rfl]
  show (Link.answer r.tag r.kind x.2 (x.1.port p).link).sending = _
  rw [answer_started]
  cases hn : nextList (s.port p).link with
  | some y =>
    have hx := hd.trans (.started (y := { (x.1.port p).link with
      output := (x.1.port p).link.output ++ [.answer r.tag r.kind x.2] }) rfl rfl (by simp))
    exact (hx.busy (by rw [hgone, hn]; exact Option.some_ne_none _)).trans (hgone.trans hn)
  | none =>
    have hr : (s.port p).link.refusals = [] := refusals_of_nextList hn
    exact started_output (hd.refusals.trans hr) (by simp) (hd.free hr (hgone.trans hn))

/-! ### What QUERY_PART answers -/

/-- The line states are numbered as listed. -/
theorem enumOf_lineState (x : LineState) : enumOf [.running, .stopping, .stopped] x = .enum (lineStateCode x) := by
  cases x <;> rfl

/-- The stop policies are numbered as listed. -/
theorem enumOf_policy (x : StopPolicy) : enumOf policies x = .enum (policyCode x) := by
  cases x <;> rfl

/-- The reset kinds are numbered as listed. -/
theorem enumOf_resetKind (x : ResetKind) : enumOf [.powerOn, .lineReset, .softReset] x = .enum (resetCode x) := by
  cases x <;> rfl

/-- An optional group of fields, as the statements write it. -/
theorem optionalOf_eq (l : Option (List Field)) : optionalOf l = optFields l := by
  cases l <;> rfl

/-- An optional field is an optional group of one. -/
theorem optField_map {α : Type} (f : α → Field) (x : Option α) :
    optField (x.map f) = optFields (x.map fun y => [f y]) := by
  cases x <;> rfl

/-- A yes or no value as a number. -/
theorem toNat_eq_ite (b : Bool) : b.toNat = if b = true then 1 else 0 := by
  cases b <;> rfl

/-- A value is there, or is not. -/
theorem isSome_eq_decide {α : Type} [DecidableEq α] (x : Option α) : x.isSome = decide (x ≠ none) := by
  cases x <;> rfl

/-- The ready queues have the QUEUED jobs of their class. -/
theorem readyQueue_length (s : State) (c : JobClass) :
    (s.readyQueue c).length = (s.jobs.filter fun e => e.2.state = .queued && e.2.cls = c).length :=
  (sortBy_perm _ _).length_eq

/-- QUERY_PART answers with the fields of its rule (R185, R110). -/
theorem queryPart_eq (s : State) : queryPart s = ⟨.ok, partAnswered s⟩ := by
  simp only [queryPart, okWith, partAnswered, readyQueue_length, isSome_eq_decide, enumOf_lineState, enumOf_policy,
    enumOf_resetKind, portFields, freePages, freeSlots, reachedFields, optField_map, countFields, optionalOf_eq,
    toNat_eq_ite, List.append_assoc, List.cons_append, List.nil_append]
  rfl

/-- A request in hand is not among what QUERY_PART tells. -/
theorem partAnswered_holding (p : PortId) (r : Received) (s : State) :
    partAnswered (holding p r s) = partAnswered s := by
  have hports : ∀ q, [Field.rights ((holding p r s).port q).rights, .classes ((holding p r s).port q).mask,
        .flag (decide (((holding p r s).port q).link.overrun ≠ none)),
        .count ((holding p r s).port q).link.queue.length] =
      [Field.rights (s.port q).rights, .classes (s.port q).mask, .flag (decide ((s.port q).link.overrun ≠ none)),
        .count (s.port q).link.queue.length] := by
    intro q
    rw [port_holding]
    split <;> rfl
  unfold partAnswered
  simp only [hports]
  rfl

/-- A change of a link leaves the port's rights. -/
theorem rights_modLink (p : PortId) (f : Link → Link) (s : State) (q : PortId) :
    ((s.modLink p f).port q).rights = (s.port q).rights := by
  rw [port_modLink]
  split <;> rfl

/-! ### A frame has been sent -/

/-- Nothing is being sent. -/
theorem frameSent_idle {p : PortId} {s : State} (h : (s.port p).link.sending = none) : frameSent p s = s := by
  have hcur : (s.port p).link.current = none := by
    unfold Link.current
    rw [h]
  unfold frameSent
  dsimp only
  rw [hcur]

/-- A refusal has been sent: it leaves its list. -/
theorem frameSent_refusal {p : PortId} {f : OutFrame} {rest : List OutFrame} {s : State}
    (hs : (s.port p).link.sending = some .refusals) (hl : (s.port p).link.refusals = f :: rest) :
    frameSent p s =
      (s.modLink p fun l => started { l with refusals := rest, sending := none }).logDesk p f := by
  have hcur : (s.port p).link.current = some f := by
    unfold Link.current
    rw [hs, hl]
    rfl
  have hans : (s.port p).link.sendsAnswer = false := by
    unfold Link.sendsAnswer
    rw [hs]
  unfold frameSent
  dsimp only
  rw [hcur, hans]
  dsimp only
  rw [if_neg Bool.false_ne_true, modLink_congr p Link.sent]
  show Link.sent _ = _
  unfold Link.sent
  rw [hs, ← pump_started]
  dsimp only
  rw [hl]
  rfl

/-- What stands first in the output list is being sent. -/
theorem current_output {l : Link} {f : OutFrame} {rest : List OutFrame} (hs : l.sending = some .output)
    (hl : l.output = f :: rest) : l.current = some f := by
  unfold Link.current
  rw [hs, hl]
  rfl

/-- A frame of the output list has been sent: it leaves the list, and an OVERRUN frame takes a notice's place. -/
theorem sent_output {l : Link} {f : OutFrame} {rest : List OutFrame} (hs : l.sending = some .output)
    (hl : l.output = f :: rest) :
    l.sent = if f.isNotice = true then
        started { l with
          output := rest ++ (l.overrun.map OutFrame.overrun).toList, overrun := none, sending := none }
      else started { l with output := rest, sending := none } := by
  unfold Link.sent
  rw [hs, current_output hs hl]
  dsimp only
  rw [hl]
  split
  · unfold Link.afterNotice
    dsimp only
    cases l.overrun with
    | none => simp [pump_started]
    | some t => simp [pump_started]
  · exact pump_started _

/-- Only an answer of the output list is an answer to the request in hand. -/
theorem sendsAnswer_output {l : Link} {f : OutFrame} {rest : List OutFrame} (hs : l.sending = some .output)
    (hl : l.output = f :: rest) : l.sendsAnswer = match f with
      | .answer .. => true
      | _ => false := by
  unfold Link.sendsAnswer
  rw [hs, current_output hs hl]
  cases f <;> rfl

/-- A notice has been sent. -/
theorem frameSent_notice {p : PortId} {f : OutFrame} {rest : List OutFrame} {s : State}
    (hs : (s.port p).link.sending = some .output) (hl : (s.port p).link.output = f :: rest)
    (hf : f.isNotice = true) :
    frameSent p s = (s.modLink p fun l => started { l with
      output := rest ++ (l.overrun.map OutFrame.overrun).toList, overrun := none, sending := none }).logDesk p f := by
  have hans : (s.port p).link.sendsAnswer = false := by
    rw [sendsAnswer_output hs hl]
    cases f with
    | answer => cases hf
    | _ => rfl
  unfold frameSent
  dsimp only
  rw [current_output hs hl, hans]
  dsimp only
  rw [if_neg Bool.false_ne_true, modLink_congr p Link.sent]
  rw [sent_output hs hl, if_pos hf]

/-- The state once an answer has been sent, before the port takes its next request. -/
def answerGone (p : PortId) (f : OutFrame) (rest : List OutFrame) (due : Bool) (s : State) : State :=
  ((s.modLink p fun l => started { l with output := rest, inHand := none, sending := none }).logDesk p f).setSoftDue due

/-- An answer has been sent: the OK answer to a SOFT_RESET makes one due. -/
theorem frameSent_answer {p : PortId} {tag : Byte} {kind : U16} {a : Answer} {rest : List OutFrame} {s : State}
    (hs : (s.port p).link.sending = some .output) (hl : (s.port p).link.output = .answer tag kind a :: rest) :
    frameSent p s = takeNext p (answerGone p (.answer tag kind a) rest
      (s.softResetDue || (decide (kind = 27) && decide (a.code = .ok))) s) := by
  have hans : (s.port p).link.sendsAnswer = true := sendsAnswer_output hs hl
  have hgone : (s.modLink p Link.sent).modLink p (fun l => { l with inHand := none }) =
      s.modLink p fun l => started { l with output := rest, inHand := none, sending := none } := by
    rw [modLink_modLink]
    refine modLink_congr p _ _ s ?_
    rw [sent_output hs hl, if_neg (by exact Bool.false_ne_true)]
    rfl
  have hstate : ((s.modLink p Link.sent).logDesk p (.answer tag kind a)).modLink p (fun l => { l with inHand := none }) =
      (s.modLink p fun l => started { l with output := rest, inHand := none, sending := none }).logDesk p
        (.answer tag kind a) := by
    rw [← hgone]
    rfl
  unfold frameSent
  dsimp only
  rw [current_output hs hl, hans]
  dsimp only
  rw [if_pos rfl, hstate]
  unfold answerGone
  congr 1
  show (if (decide (kind = 27) && decide (a.code = .ok)) = true then _ else _) = _
  cases decide (kind = 27) && decide (a.code = .ok) with
  | false =>
    rw [Bool.or_false]
    rfl
  | true =>
    rw [Bool.or_true]
    rfl

/-- The link at the port once an answer has been sent. -/
theorem link_answerGone (p : PortId) (f : OutFrame) (rest : List OutFrame) (due : Bool) (s : State) :
    ((answerGone p f rest due s).port p).link =
      started { (s.port p).link with output := rest, inHand := none, sending := none } := by
  have h := port_modLink p (fun l => started { l with output := rest, inHand := none, sending := none }) s p
  rw [if_pos rfl] at h
  exact congrArg Port.link h

/-- Nothing is queued, or a soft reset is due: the port takes no request. -/
theorem takeNext_stops {p : PortId} {s : State} (h : (s.port p).link.queue = [] ∨ s.softResetDue = true) :
    takeNext p s = s := by
  unfold takeNext
  dsimp only
  split
  · rename_i hh hq
    refine if_pos (h.resolve_left fun hn => ?_)
    rw [hn] at hq
    cases hq
  · rfl

/-- The port takes the first request of its queue. -/
theorem takeNext_takes {p : PortId} {r : Received} {more : List Received} {s : State}
    (hh : (s.port p).link.inHand = none) (hq : (s.port p).link.queue = r :: more) (hd : s.softResetDue = false) :
    takeNext p s = takeRequest p r (putQueue p more s) := by
  unfold takeNext
  dsimp only
  rw [hh, hq]
  dsimp only
  rw [hd, if_neg Bool.false_ne_true]
  rfl

/-- The state once an answer has been sent, with nothing queued at the port. -/
def queueGone (p : PortId) (f : OutFrame) (rest : List OutFrame) (s : State) : State :=
  (s.modLink p fun l => started { l with output := rest, inHand := none, sending := none, queue := [] }).logDesk p f

/-- A port at which nothing is queued or in hand takes the next request. -/
theorem queueGone_free {p : PortId} {f : OutFrame} {rest : List OutFrame} {s : State} (hd : s.softResetDue = false) :
    Free p (queueGone p f rest s) := by
  have h := congrArg Port.link
    (port_modLink p (fun l => started { l with output := rest, inHand := none, sending := none, queue := [] }) s p)
  rw [if_pos rfl] at h
  exact ⟨congrArg Link.inHand h, congrArg Link.queue h, hd⟩

/-- The sending of a frame leaves the port's rights. -/
theorem rights_queueGone (p : PortId) (f : OutFrame) (rest : List OutFrame) (s : State) :
    ((queueGone p f rest s).port p).rights = (s.port p).rights :=
  rights_modLink p (fun l => started { l with output := rest, inHand := none, sending := none, queue := [] }) s p

/-- Writing the note of a soft reset as it stands. -/
theorem setSoftDue_same {s : State} {b : Bool} (h : s.softResetDue = b) : s.setSoftDue b = s := by
  subst h
  rfl

/-- With the rest of the queue put back, it is the state in which the port takes its next request. -/
theorem putQueue_gone {p : PortId} {f : OutFrame} {rest : List OutFrame} {more : List Received} {s : State}
    (hd : s.softResetDue = false) :
    putQueue p more (answerGone p f rest false s) = putQueue p more (queueGone p f rest s) := by
  unfold answerGone
  rw [setSoftDue_same (s := (s.modLink p _).logDesk p f) hd]
  have h : putQueue p more (s.modLink p fun l => started { l with output := rest, inHand := none, sending := none }) =
      putQueue p more
        (s.modLink p fun l => started { l with output := rest, inHand := none, sending := none, queue := [] }) := by
    unfold putQueue
    rw [modLink_modLink, modLink_modLink]
    rfl
  exact congrArg (State.logDesk p f) h

/-- An answer has been sent and a request is queued: the port takes it. -/
theorem frameSent_takes {p : PortId} {tag : Byte} {kind : U16} {a : Answer} {rest : List OutFrame} {r : Received}
    {more : List Received} {s : State} (hs : (s.port p).link.sending = some .output)
    (hl : (s.port p).link.output = .answer tag kind a :: rest) (hq : (s.port p).link.queue = r :: more)
    (hd : (s.softResetDue || (decide (kind = 27) && decide (a.code = .ok))) = false) :
    frameSent p s = takeRequest p r (putQueue p more (queueGone p (.answer tag kind a) rest s)) := by
  have hlink := link_answerGone p (.answer tag kind a) rest false s
  rw [frameSent_answer hs hl, hd, takeNext_takes (by rw [hlink]; rfl) (by rw [hlink]; exact hq) rfl,
    putQueue_gone (Bool.or_eq_false_iff.mp hd).1]

/-- Settles O7: each kind of frame that can have been sent; then, after an answer, what the port does next. A request
that is taken does not read the queue, unless it is QUERY_PART. -/
theorem framesLeave : Obligations.FramesLeave := by
  refine ⟨fun p f rest s => ⟨fun hs => ?_, fun hs hl => ?_, fun hs hl hf => ?_⟩,
    fun p tag kind a rest s hs hl => ⟨fun hstop => ?_, fun r more hqueue hdue => ?_⟩⟩
  · exact congrArg Host.Outcome.next (frameSent_idle hs)
  · exact congrArg Host.Outcome.next (frameSent_refusal hs hl)
  · exact congrArg Host.Outcome.next (frameSent_notice hs hl hf)
  · have hstays : ((answerGone p (.answer tag kind a) rest
        (s.softResetDue || (decide (kind = 27) && decide (a.code = .ok))) s).port p).link.queue = [] ∨ _ :=
      hstop.imp (fun hq => by rw [link_answerGone]; exact hq) id
    exact congrArg Host.Outcome.next ((frameSent_answer hs hl).trans (takeNext_stops hstays))
  have hd : s.softResetDue = false := (Bool.or_eq_false_iff.mp hdue).1
  have hsent : exec (.frameSent p) s =
      .next (takeRequest p r (putQueue p more (queueGone p (.answer tag kind a) rest s))) :=
    congrArg Host.Outcome.next (frameSent_takes hs hl hqueue hdue)
  have hlink : ((putQueue p more (queueGone p (.answer tag kind a) rest s)).port p).link =
      started { (s.port p).link with output := rest, inHand := none, sending := none, queue := more } := by
    rw [← putQueue_gone hd, putQueue, port_modLink, if_pos rfl]
    exact congrArg (fun l : Link => { l with queue := more }) (link_answerGone p (.answer tag kind a) rest false s)
  have hfree : Free p (queueGone p (.answer tag kind a) rest s) := queueGone_free hd
  have taken : r.content ≠ .sound .queryPart → ∀ c,
      exec c (queueGone p (.answer tag kind a) rest s) =
        .next (receive p r (queueGone p (.answer tag kind a) rest s)) →
      ∃ u, exec c (queueGone p (.answer tag kind a) rest s) = .next u ∧
        exec (.frameSent p) s = .next (putQueue p more u) := by
    intro hne c hc
    rw [receive_free p r _ hfree] at hc
    exact ⟨_, hc, by rw [hsent, takeRequest_putQueue p more _ p r hne]⟩
  have answered : ∀ {b : Answer}, decideRequest p r
        (holding p r (putQueue p more (queueGone p (.answer tag kind a) rest s))) =
      (holding p r (putQueue p more (queueGone p (.answer tag kind a) rest s)), b) →
      exec (.frameSent p) s = .next
        (answerAt p r.tag r.kind b (inHandAt p r (putQueue p more (queueGone p (.answer tag kind a) rest s)))) :=
    fun hb => hsent.trans (congrArg Host.Outcome.next (takeRequest_answered hb))
  refine ⟨fun ht => ?_, fun q hr hq => ?_, fun hr => ?_, fun hr => ?_, fun q hr => ?_⟩
  · have hjobs : JobsOrdered (putQueue p more (queueGone p (.answer tag kind a) rest s)) := ht.jobs
    obtain ⟨hhand, hmore, hanswer⟩ := takeRequest_answers p r _ hjobs
    have hsends := takeRequest_sending (p := p) (r := r) hjobs (by rw [hlink]; rfl)
    rw [hlink] at hmore hsends
    exact ⟨_, hsent, hhand, hmore, hsends, (takeRequest_outside p r hjobs).1, hanswer⟩
  · refine taken (fun h => hq ?_) _ ?_
    · rw [hr] at h
      exact RequestContent.sound.inj h
    · rw [exec_command, receiveSound, ← hr]
  · refine answered ?_
    rw [hr]
    have hpart : queryPart (holding p ⟨r.tag, 37, .sound .queryPart⟩
        (putQueue p more (queueGone p (.answer tag kind a) rest s))) = _ := queryPart_eq _
    rw [partAnswered_holding] at hpart
    exact congrArg (Prod.mk _) hpart
  · refine taken (fun h => ?_) _ ?_
    · rw [hr] at h
      cases h
    · exact congrArg (fun x => Host.Outcome.next (receive p x _)) hr.symm
  · have hrights : ((holding p r (putQueue p more (queueGone p (.answer tag kind a) rest s))).port p).rights =
        (s.port p).rights := by
      rw [rights_holding]
      exact (PutQueue.rights p more _ p).trans (rights_queueGone p _ rest s)
    refine ⟨fun ha => answered ?_, fun ha => answered ?_⟩
    · rw [hr, decideRequest_malformed, kindAllowed_kind, ← hr, hrights, if_pos ha]
    · rw [hr, decideRequest_malformed, kindAllowed_kind, ← hr, hrights, ha, if_neg Bool.false_ne_true]

end Sys2Proof.Machine
end

section
/-! Proofs of the statements about the state after POWER_ON (O9, O15). -/

namespace Sys2Proof.Machine

open State

/-! ### The state after POWER_ON -/

/-- Every engine record after POWER_ON. -/
theorem engine_reset (e : EngineId) : State.reset.engine e = Engine.initial := Vector.getElem_replicate _

/-- Every register record after POWER_ON. -/
theorem register_reset (e : EngineId) : State.reset.register e = Register.initial := Vector.getElem_replicate _

/-- Every lane record after POWER_ON. -/
theorem lane_reset (l : LaneId) : State.reset.lane l = Lane.initial := Vector.getElem_replicate _

/-- Every press record after POWER_ON. -/
theorem press_reset (p : PressId) : State.reset.press p = Press.initial := Vector.getElem_replicate _

/-- Every staged plan after POWER_ON. -/
theorem stage_reset (p : PressId) : State.reset.stage p = ⟨none, []⟩ := Vector.getElem_replicate _

/-- Every shelf after POWER_ON. -/
theorem shelf_reset (p : PressId) : State.reset.shelf p = [] := Vector.getElem_replicate _

/-- Every rack slot after POWER_ON. -/
theorem rack_reset (k : PosKey) : State.reset.rack k = [] := rfl

/-- No table of the part has an entry after POWER_ON. -/
theorem tables_reset : Tables State.reset where
  pages := ordered_nil
  slots := ordered_nil
  plan := ordered_nil
  stages p := by rw [stage_reset]; exact ordered_nil
  jobs := ordered_nil
  racks := ordered_nil

/-- The settable values after POWER_ON lie in their ranges. -/
theorem ranges_reset : Ranges State.reset where
  clock := by decide
  limits x l := by
    cases x with
    | transit => rw [limitValue, lane_reset]; rfl
    | _ => rfl
  lead p := by rw [press_reset]; decide

/-- Nothing that has a limit is anywhere near it after POWER_ON. -/
theorem capacities_reset : Capacities State.reset where
  pages := by decide
  slots := by decide
  jobs := by decide
  attempts n j h := by cases h
  cassette e := by rw [engine_reset]; decide
  registers e := by
    rw [register_reset]
    constructor <;> decide
  inspections l := by rw [lane_reset]; decide
  links p := by
    fin_cases p <;> constructor <;> decide
  loads l := by fin_cases l <;> decide

/-- No job stands anywhere after POWER_ON. -/
theorem placed_reset : Placed State.reset where
  next e w h := by rw [engine_reset] at h; cases h
  parked e w h := by rw [engine_reset] at h; cases h
  apart e v w h := by rw [engine_reset] at h; cases h
  current e w h := by rw [engine_reset] at h; cases h
  order l y h := by rw [lane_reset] at h; cases h
  once l := by rw [lane_reset]; exact List.nodup_nil
  exposed n j h := by cases h
  delivery d h := by cases h
  racks k n h := by cases h
  shelves p x h := by rw [shelf_reset] at h; cases h
  stacked k := by rw [shelf_reset]; exact List.nodup_nil
  mounted k x n h := by cases h
  own k x n h := by cases h

/-- No job needs a place after POWER_ON. -/
theorem housed_reset : Housed State.reset where
  assigned n j h := by cases h
  exposing n j h := by cases h
  inLane n j h := by cases h
  racked n j h := by cases h
  mounted n j h := by cases h
  uncertain n j h := by cases h
  exposed e w h := by rw [engine_reset] at h; cases h
  parked e w h := by rw [engine_reset] at h; cases h

/-- No page and no raster slot is in use after POWER_ON. -/
theorem filed_reset : Filed State.reset where
  records n r h := by cases h
  slots k o h := by cases h
  current k o h := by cases h
  arrived n r v x h := by cases h

/-- Nothing is counted after POWER_ON. -/
theorem counted_reset : Counted State.reset where
  live n r h := by cases h
  counts k o h := by cases h
  freed k o h := by cases h
  named n j h := by cases h
  slots n j h := by cases h
  held n j h := by cases h

/-- No position has a job after POWER_ON. -/
theorem current_reset : Current State.reset where
  live n j h := by cases h
  rasters n j h := by cases h
  settled k x n h := by cases h
  unflagged k x n j h := by cases h
  ended n j h := by cases h

/-- No press has a position after POWER_ON. -/
theorem pressesTell_reset : PressesTell State.reset where
  told k x h := by cases h
  positions p := by rw [press_reset]; rfl
  unsatisfied p := by rw [press_reset]; rfl
  state p h := by rw [press_reset]; rfl

/-- No engine runs and no job is offered after POWER_ON. -/
theorem served_reset : Served State.reset where
  given e n j h ho := by cases ho.1
  exposed e w h := by
    have := h.next
    rw [engine_reset] at this
    cases this

/-- The line runs after POWER_ON, and keeps no mark. -/
theorem restMarked_reset : RestMarked State.reset where
  drained h := by cases h
  engines h := by cases h
  lanes h := by cases h
  waits h := by cases h
  dropped _ := ⟨fun e => by fin_cases e <;> rfl, fun l => by fin_cases l <;> rfl⟩

/-- Settles O9: the records as they are written down, and each invariant from what is empty. -/
theorem resetState : Obligations.ResetState := by
  refine ⟨⟨⟨rfl, rfl, rfl, rfl, rfl, rfl, rfl, rfl, rfl, rfl⟩, fun p => ⟨stage_reset p, shelf_reset p, press_reset p⟩,
      fun e => ?_, fun l => ?_, rfl, rfl, rfl, rfl, rfl, fun q => ?_, rfl, rfl, rfl⟩,
    tables_reset, ⟨0, rfl⟩, ranges_reset, capacities_reset, fun e => ?_, ⟨fun k => ?_, fun p => ?_, fun d h => ?_⟩,
    placed_reset, housed_reset, filed_reset, counted_reset, current_reset, ⟨fun n j h => ?_, fun n m i j h => ?_⟩,
    pressesTell_reset, served_reset, restMarked_reset⟩
  · rw [engine_reset, register_reset]
    exact ⟨rfl, rfl, rfl, rfl, rfl, by fin_cases e <;> rfl, restMarked_reset.dropped (by decide) |>.1 e⟩
  · rw [lane_reset]
    exact ⟨rfl, restMarked_reset.dropped (by decide) |>.2 l⟩
  · fin_cases q <;> exact ⟨rfl, rfl, rfl⟩
  · rw [engine_reset]
    exact ⟨fun _ => ⟨rfl, rfl⟩, fun _ => rfl⟩
  · rw [rack_reset]; decide
  · rw [shelf_reset]; decide
  · cases h
  · cases h
  · cases h

/-- Settles O15: the starting state, with the straps loaded. -/
theorem powerOnResult : Obligations.PowerOnResult := by
  intro p1 p2 s
  refine ⟨powerOn p1 p2 s, rfl, loadAllStraps_same p1 p2 _, fun q => ?_⟩
  unfold powerOn
  rw [port_loadAllStraps]
  refine ⟨rfl, rfl, ?_⟩
  fin_cases q <;> rfl

end Sys2Proof.Machine
end

section
/-! Proof of the statement about rights, masks, limits and stop policies (O58): one equation for each outcome of each
request, then the statement. -/

namespace Sys2Proof.Machine

open State

/-! ### The bytes that name things -/

/-- A port's number names it. -/
@[simp] theorem portOf_byteOf (q : PortId) : portOf (byteOf q.val) = some q := by
  revert q
  decide

/-- An engine's number names it. -/
@[simp] theorem engineOf_byteOf (e : EngineId) : engineOf (byteOf e.val) = some e := by
  revert e
  decide

/-- Only 0 to 5 name an engine. -/
theorem engineOf_eq_none {b : Byte} (h : 6 ≤ b.toNat) : engineOf b = none := dif_neg h.not_gt

/-- Only 0 to 2 name a port. -/
theorem portOf_eq_none {b : Byte} (h : 3 ≤ b.toNat) : portOf b = none := dif_neg h.not_gt

/-- A unit's number names it. -/
@[simp] theorem unitOf_byteOf (u : UnitId) : unitOf (byteOf (unitCode u)) = some u := by
  cases u with
  | engine e => revert e; decide
  | lane l => revert l; decide
  | sorter => rfl

/-- Only 0 to 8 name a unit. -/
theorem unitOf_eq_none {b : Byte} (h : 9 ≤ b.toNat) : unitOf b = none := by
  unfold unitOf
  rw [dif_neg (by omega), if_neg (by omega), if_neg (by omega), if_neg (by omega)]

/-- A lane's number among the units names it. -/
@[simp] theorem laneOf_byteOf (l : LaneId) : laneOf (byteOf (6 + l.val)) = some l := by
  revert l
  decide

/-- Only 6 and 7 name a lane. -/
theorem laneOf_eq_none {b : Byte} (h6 : b ≠ 6) (h7 : b ≠ 7) : laneOf b = none := by
  revert b
  decide

/-- Only 0 to 15 name rights. -/
theorem rightsOf_eq_none {b : Byte} (h : 16 ≤ b.toNat) : rightsOf b = none := if_neg h.not_gt

/-- The byte of some rights. -/
theorem rightsOf_byteOf (r : Rights) :
    rightsOf (byteOf (r.pages.toNat + 2 * r.plan.toNat + 4 * r.room.toNat + 8 * r.maint.toNat)) = some r := by
  obtain ⟨a, b, c, d⟩ := r
  revert a b c d
  decide

/-- A limit's number names it. -/
@[simp] theorem limitOf_byteOf (x : LimitName) : limitOf (byteOf (limitCode x)) = some x := by
  cases x <;> rfl

/-- Only 0 to 7 name a limit. -/
theorem limitOf_eq_none {b : Byte} (h : 8 ≤ b.toNat) : limitOf b = none := by
  unfold limitOf
  repeat rw [if_neg (by omega)]

/-- Only 6 names the transit timeout. -/
theorem limitOf_eq_transit {b : Byte} : limitOf b = some .transit ↔ b = 6 := by
  revert b
  decide

/-- A stop policy's number names it. -/
@[simp] theorem policyOf_ite (x : StopPolicy) : policyOf (if x = .cut then 1 else 0) = some x := by
  cases x <;> rfl

/-- Only 0 and 1 name a stop policy. -/
theorem policyOf_eq_none {b : Byte} (h : 2 ≤ b.toNat) : policyOf b = none := by
  unfold policyOf
  rw [if_neg (by omega), if_neg (by omega)]

/-! ### A request in hand and what the requests write -/

/-- Rights are written beside a request in hand. -/
theorem setRights_holding (p q : PortId) (x : Received) (r : Rights) (s : State) :
    (holding p x s).setRights q r = holding p x (s.setRights q r) := by
  refine ports_ext (s := s) rfl rfl fun y => ?_
  rw [port_setRights, port_holding, port_holding, port_setRights]
  split <;> split <;> rfl

/-- A mask is written beside a request in hand. -/
theorem setMask_holding (p q : PortId) (x : Received) (m : Mask) (s : State) :
    (holding p x s).setMask q m = holding p x (s.setMask q m) := by
  refine ports_ext (s := s) rfl rfl fun y => ?_
  rw [port_setMask, port_holding, port_holding, port_setMask]
  split <;> split <;> rfl

/-- The mask of a port with a request in hand somewhere. -/
theorem mask_holding (p : PortId) (x : Received) (s : State) (q : PortId) :
    ((holding p x s).port q).mask = (s.port q).mask := by
  rw [port_holding]
  split <;> rfl

/-- The rights of a port with a request in hand somewhere. -/
theorem rightsAt_holding (p : PortId) (x : Received) (s : State) (q : PortId) :
    ((holding p x s).port q).rights = (s.port q).rights := rights_modLink p _ s q

/-! ### SET_RIGHTS (R183) -/

/-- Some port holds MAINT after a change of rights: the one that is changed, or another. -/
theorem maintAfter_iff (s : State) (q : PortId) (r : Rights) :
    maintAfter s q r = true ↔ r.maint = true ∨ ∃ q', q' ≠ q ∧ (s.port q').rights.maint = true := by
  constructor
  · intro h
    obtain ⟨q', -, hq'⟩ := List.any_eq_true.mp h
    by_cases hq : q' = q
    · rw [if_pos hq] at hq'
      exact .inl hq'
    · rw [if_neg hq] at hq'
      exact .inr ⟨q', hq, hq'⟩
  · rintro (h | ⟨q', hq, h⟩)
    · exact maintAfter_self s q r h
    · exact maintAfter_other s q q' r hq h

/-- What SET_RIGHTS tests does not see a request in hand. -/
theorem maintAfter_holding (p q : PortId) (x : Received) (r : Rights) (s : State) :
    maintAfter (holding p x s) q r = maintAfter s q r := by
  unfold maintAfter
  simp only [rightsAt_holding]

/-- A port or rights that are out of range. -/
theorem reqSetRights_badValue {p : PortId} {b1 b2 : Byte} {s : State} (h : 3 ≤ b1.toNat ∨ 16 ≤ b2.toNat) :
    reqSetRights p b1 b2 s = (s, ⟨.badValue, []⟩) := by
  unfold reqSetRights
  rcases h with h | h
  · rw [portOf_eq_none h]
    rfl
  · rw [rightsOf_eq_none h]
    cases portOf b1 <;> rfl

/-- No port would hold MAINT. -/
theorem reqSetRights_lastMaint {p q : PortId} {b : Byte} {r : Rights} {s : State} (hb : rightsOf b = some r)
    (h : maintAfter s q r = false) : reqSetRights p (byteOf q.val) b s = (s, ⟨.lastMaint, []⟩) := by
  unfold reqSetRights
  rw [portOf_byteOf, hb]
  dsimp only
  rw [h]
  rfl

/-- Rights that are given. -/
theorem reqSetRights_ok {p q : PortId} {b : Byte} {r : Rights} {s : State} (hb : rightsOf b = some r)
    (h : maintAfter s q r = true) : reqSetRights p (byteOf q.val) b s =
      (raise (.rightsChanged q (s.port q).rights r p) (s.setRights q r),
        ⟨.ok, [.rights (s.port q).rights, .rights r]⟩) := by
  unfold reqSetRights
  rw [portOf_byteOf, hb]
  dsimp only
  rw [h]
  rfl

/-! ### SET_LIMITS (R184) -/

/-- A limit is written beside a request in hand. -/
theorem setLimit_holding (p : PortId) (x : Received) (y : LimitName) (l : LaneId) (v : Nat) (s : State) :
    setLimit y l v (holding p x s) = holding p x (setLimit y l v s) := by
  cases y <;> rfl

/-- A limit in force does not see a request in hand. -/
theorem limitValue_holding (p : PortId) (x : Received) (y : LimitName) (l : LaneId) (s : State) :
    limitValue (holding p x s) y l = limitValue s y l := by
  cases y <;> rfl

/-- The lane of a SET_LIMITS that names one exactly for the transit timeout. -/
theorem limitLane_sound {x : LimitName} {lane : Option LaneId} (h : lane ≠ none ↔ x = .transit) :
    limitLane x (lane.map fun l => byteOf (6 + l.val)) = some lane := by
  cases lane with
  | none =>
    have hx : x ≠ .transit := fun hx => h.mpr hx rfl
    cases x with
    | transit => exact absurd rfl hx
    | _ => rfl
  | some l =>
    have hx : x = .transit := h.mp (Option.some_ne_none l)
    subst hx
    show (laneOf _).map some = _
    rw [laneOf_byteOf]
    rfl

/-- A SET_LIMITS whose lane is missing, is one too many, or names none. -/
theorem limitLane_bad {x : LimitName} {lane : Option Byte} (h : (x = .transit ∧ lane = none) ∨
    (x ≠ .transit ∧ lane ≠ none) ∨ ∃ y, lane = some y ∧ y ≠ 6 ∧ y ≠ 7) : limitLane x lane = none := by
  rcases h with ⟨rfl, rfl⟩ | ⟨hx, hl⟩ | ⟨y, rfl, h6, h7⟩
  · rfl
  · cases lane with
    | none => exact absurd rfl hl
    | some y => cases x with
      | transit => exact absurd rfl hx
      | _ => rfl
  · cases x with
    | transit =>
      show (laneOf y).map some = _
      rw [laneOf_eq_none h6 h7]
      rfl
    | _ => rfl

/-- SET_LIMITS is decided by its function. -/
theorem applyRequest_setLimits (p : PortId) (b : Byte) (v : U16) (lane : Option Byte) (s : State) :
    applyRequest p (.setLimits b v lane) s = reqSetLimits b v lane s := rfl

/-- A limit that is set. -/
theorem reqSetLimits_ok {x : LimitName} {v : U16} {lane : Option LaneId} {s : State}
    (hl : lane ≠ none ↔ x = .transit) (hv : inRange x v.toNat = true) :
    reqSetLimits (byteOf (limitCode x)) v (lane.map fun l => byteOf (6 + l.val)) s =
      (raise (.limitSet x lane (limitValue s x (lane.getD 0)) v.toNat) (setLimit x (lane.getD 0) v.toNat s),
        ⟨.ok, [.limitValue (limitValue s x (lane.getD 0)), .limitValue v.toNat]⟩) := by
  unfold reqSetLimits
  rw [limitOf_byteOf]
  dsimp only
  rw [limitLane_sound hl]
  dsimp only
  rw [hv]
  rfl

/-- A limit that is set beside a request in hand. -/
theorem applySetLimits_ok {p : PortId} {r : Received} {x : LimitName} {v : U16} {lane : Option LaneId} {s : State}
    (hl : lane ≠ none ↔ x = .transit) (hv : inRange x v.toNat = true) :
    reqSetLimits (byteOf (limitCode x)) v (lane.map fun l => byteOf (6 + l.val)) (holding p r s) =
      (raise (.limitSet x lane (limitValue s x (lane.getD 0)) v.toNat)
          (holding p r (setLimit x (lane.getD 0) v.toNat s)),
        ⟨.ok, [.limitValue (limitValue s x (lane.getD 0)), .limitValue v.toNat]⟩) := by
  rw [reqSetLimits_ok hl hv, setLimit_holding, limitValue_holding]

/-- A value out of the limit's range. -/
theorem reqSetLimits_outOfRange {x : LimitName} {v : U16} {lane : Option LaneId} {s : State}
    (hl : lane ≠ none ↔ x = .transit) (hv : inRange x v.toNat = false) :
    reqSetLimits (byteOf (limitCode x)) v (lane.map fun l => byteOf (6 + l.val)) s = (s, ⟨.badValue, []⟩) := by
  unfold reqSetLimits
  rw [limitOf_byteOf]
  dsimp only
  rw [limitLane_sound hl]
  dsimp only
  rw [hv]
  rfl

/-- SET_LIMITS with a value in range is answered with the value before and after. -/
theorem setLimits_answers {p : PortId} {tag : Byte} {x : LimitName} {v : U16} {lane : Option LaneId} {s : State}
    (hfree : Free p s) (hmaint : (s.port p).rights.maint = true) (hl : lane ≠ none ↔ x = .transit)
    (hv : inRange x v.toNat = true) :
    Answers (.setLimits p tag (byteOf (limitCode x)) v (lane.map fun l => byteOf (6 + l.val))) p tag 30
      ⟨.ok, [.limitValue (limitValue s x (lane.getD 0)), .limitValue v.toNat]⟩
      [.limitSet x lane (limitValue s x (lane.getD 0)) v.toNat] s (setLimit x (lane.getD 0) v.toNat s) := by
  have hanswers := answers_of (p := p) (tag := tag) (s := s) (u := setLimit x (lane.getD 0) v.toNat s)
    (r := .setLimits (byteOf (limitCode x)) v (lane.map fun l => byteOf (6 + l.val)))
    (ns := [.limitSet x lane (limitValue s x (lane.getD 0)) v.toNat])
    (a := ⟨.ok, [.limitValue (limitValue s x (lane.getD 0)), .limitValue v.toNat]⟩) hfree hmaint
    (by rw [applyRequest_setLimits, applySetLimits_ok hl hv]; rfl)
  exact hanswers

/-- SET_LIMITS with a value out of range is refused. -/
theorem setLimits_refused {p : PortId} {tag : Byte} {x : LimitName} {v : U16} {lane : Option LaneId} {s : State}
    (hfree : Free p s) (hmaint : (s.port p).rights.maint = true) (hl : lane ≠ none ↔ x = .transit)
    (hv : inRange x v.toNat = false) :
    Answers (.setLimits p tag (byteOf (limitCode x)) v (lane.map fun l => byteOf (6 + l.val))) p tag 30
      ⟨.badValue, []⟩ [] s s := by
  have hanswers := answers_unchanged (p := p) (tag := tag) (s := s) (a := ⟨.badValue, []⟩)
    (r := .setLimits (byteOf (limitCode x)) v (lane.map fun l => byteOf (6 + l.val))) hfree hmaint
    (by rw [applyRequest_setLimits, reqSetLimits_outOfRange hl hv])
  exact hanswers

/-- A limit or a lane that is named wrongly. -/
theorem reqSetLimits_badValue {b : Byte} {v : U16} {lane : Option Byte} {s : State}
    (h : 8 ≤ b.toNat ∨ (b = 6 ∧ lane = none) ∨ (b ≠ 6 ∧ lane ≠ none) ∨ ∃ y, lane = some y ∧ y ≠ 6 ∧ y ≠ 7) :
    reqSetLimits b v lane s = (s, ⟨.badValue, []⟩) := by
  unfold reqSetLimits
  cases hb : limitOf b with
  | none => rfl
  | some x =>
    have hlane : limitLane x lane = none := by
      rcases h with h | ⟨h, hl⟩ | ⟨h, hl⟩ | h
      · rw [limitOf_eq_none h] at hb
        cases hb
      · rw [limitOf_eq_transit.mpr h] at hb
        exact limitLane_bad (.inl ⟨(Option.some.inj hb).symm, hl⟩)
      · refine limitLane_bad (.inr (.inl ⟨fun hx => h (limitOf_eq_transit.mp ?_), hl⟩))
        rw [hb, hx]
      · exact limitLane_bad (.inr (.inr h))
    dsimp only
    rw [hlane]
    rfl

/-! ### SET_STOP_POLICY (R156) -/

/-- A unit or a policy that is out of range. -/
theorem reqSetStopPolicy_badValue {b1 b2 : Byte} {s : State} (h : 9 ≤ b1.toNat ∨ 2 ≤ b2.toNat) :
    reqSetStopPolicy b1 b2 s = (s, ⟨.badValue, []⟩) := by
  unfold reqSetStopPolicy
  rcases h with h | h
  · rw [unitOf_eq_none h]
    rfl
  · rw [policyOf_eq_none h]
    cases unitOf b1 <;> rfl

/-- A policy that a unit can have. -/
theorem reqSetStopPolicy_ok {u : UnitId} {x : StopPolicy} {s : State} (h : ¬ (u = .sorter ∧ x = .cut)) :
    reqSetStopPolicy (byteOf (unitCode u)) (if x = .cut then 1 else 0) s =
      (setPolicy u x s, ⟨.ok, [.enum (policyCode (policyOfUnit s u)), .enum (policyCode x)]⟩) := by
  unfold reqSetStopPolicy
  rw [unitOf_byteOf, policyOf_ite]
  exact if_neg h

/-- CUT for the sorter. -/
theorem reqSetStopPolicy_sorterCut {s : State} :
    reqSetStopPolicy (byteOf (unitCode .sorter)) (if StopPolicy.cut = .cut then 1 else 0) s = (s, ⟨.badValue, []⟩) := by
  rfl

/-- A policy's number. -/
theorem policyCode_eq (x : StopPolicy) : policyCode x = if x = .cut then 1 else 0 := by
  cases x <;> rfl

/-- A policy's number is its byte's. -/
theorem toNat_policyByte (x : StopPolicy) : (if x = .cut then (1 : Byte) else 0).toNat = policyCode x := by
  cases x <;> rfl

/-- Settles O58: each request by the equations of the function that decides it. -/
theorem settingsTaken : Obligations.SettingsTaken := by
  refine ⟨fun p tag s hfree => ⟨fun m => ?_, fun hmaint => ⟨fun q r => ?_, fun b1 b2 hb => ?_, fun x v lane hlane => ?_,
    fun b v lane hb => ?_⟩⟩, fun p tag x s hfree hroom => ?_⟩
  · refine answers_of (r := .setNoticeMask m) (ns := []) hfree rfl ?_
    show (State.setMask p (classesOf m) (holding p _ s), (⟨.ok, [.classes ((holding p _ s).port p).mask, _]⟩ : Answer)) = _
    rw [setMask_holding, mask_holding]
    rfl
  · intro b c
    have hb : rightsOf b = some r := rightsOf_byteOf r
    refine ⟨fun h => ?_, fun h hother => ?_⟩
    · refine answers_of (r := .setRights (byteOf q.val) b) (ns := [_]) hfree hmaint ?_
      refine (reqSetRights_ok hb ?_).trans ?_
      · rw [maintAfter_holding]
        exact (maintAfter_iff s q r).mpr h
      · rw [setRights_holding, rightsAt_holding]
        rfl
    · refine answers_unchanged (r := .setRights (byteOf q.val) b) hfree hmaint (reqSetRights_lastMaint hb ?_)
      rw [maintAfter_holding, Bool.eq_false_iff, ne_eq, maintAfter_iff]
      rintro (hr | ⟨q', hq, hr⟩)
      · rw [h] at hr
        cases hr
      · rw [hother q' hq] at hr
        cases hr
  · exact answers_unchanged (r := .setRights b1 b2) hfree hmaint (reqSetRights_badValue hb)
  · intro c before
    refine ⟨fun hv => ?_, fun hv => ?_⟩
    · exact setLimits_answers hfree hmaint hlane hv
    · exact setLimits_refused hfree hmaint hlane hv
  · exact answers_unchanged (r := .setLimits b v lane) hfree hmaint (reqSetLimits_badValue hb)
  · intro f c ok
    have answer : ∀ y, ok y = ⟨.ok, [.enum (policyCode y), .enum (policyCode x)]⟩ := fun y => by
      rw [policyCode_eq y, ← toNat_policyByte x]
    have sets : ∀ u, ¬ (u = .sorter ∧ x = .cut) → ∀ v, setPolicy u x s = v →
        (∀ r, setPolicy u x (holding p r s) = holding p r (setPolicy u x s)) →
        Answers (c u) p tag 23 (ok (policyOfUnit s u)) [] s v := by
      intro u hu v hv hcomm
      refine answers_of (r := .setStopPolicy (byteOf (unitCode u)) f) (ns := []) hfree hroom ?_
      refine (reqSetStopPolicy_ok hu).trans ?_
      rw [hcomm, hv, answer]
      cases u <;> rfl
    refine ⟨fun e => sets (.engine e) (by simp) _ rfl fun r => rfl, fun l => sets (.lane l) (by simp) _ rfl fun r => rfl,
      fun hx => sets .sorter (by simp [hx]) _ rfl fun r => rfl, fun hx => ?_, fun b1 b2 hb => ?_⟩
    · subst hx
      exact answers_unchanged (r := .setStopPolicy (byteOf (unitCode .sorter)) 1) hfree hroom reqSetStopPolicy_sorterCut
    · exact answers_unchanged (r := .setStopPolicy b1 b2) hfree hroom (reqSetStopPolicy_badValue hb)

end Sys2Proof.Machine
end

section
/-! Proof of the statement about the queries (O59): for each query, its answer as the rule lists it; then the
statement. A QUEUED job's place in its ready queue is the number of jobs ahead of it, since the queue is sorted by an
order in which no two of its jobs are equal. -/

namespace Sys2Proof.Machine

open State

/-! ### Enumerations as the statements list them -/

/-- The page states. -/
theorem enumOf_pageState (x : PageState) :
    enumOf [.expected, .partly, .complete, .withdrawn] x = .enum (pageStateCode x) := by
  cases x <;> rfl

/-- The colour classes. -/
theorem enumOf_class (x : ColourClass) : enumOf colourClasses x = .enum (classCode (some x)) := by
  cases x <;> rfl

/-- The plate formats. -/
theorem enumOf_format (x : PlateFormat) : enumOf formats x = .enum (formatCode (some x)) := by
  cases x <;> rfl

/-- The separations. -/
theorem enumOf_separation (x : Separation) : enumOf separations x = .enum (sepNumber x) := by
  cases x <;> rfl

/-- The job classes. -/
theorem enumOf_jobClass (x : JobClass) : enumOf jobClasses x = .enum (jobClassCode x) := by
  cases x <;> rfl

/-- The origins. -/
theorem enumOf_origin (x : Origin) : enumOf [.first, .remake] x = .enum (originCode x) := by
  cases x <;> rfl

/-- The job states. -/
theorem enumOf_jobState (x : JobState) : enumOf jobStates x = .enum (jobStateCode x) := by
  cases x <;> rfl

/-- The engine modes. -/
theorem enumOf_mode (x : EngineMode) : enumOf [.offline, .running, .faulted, .lockedOut] x = .enum (modeCode x) := by
  cases x <;> rfl

/-- The causes of an engine fault. -/
theorem enumOf_engineFault (x : EngineFaultCause) :
    enumOf [.loadFault, .loadTimeout, .exposeFault, .exposeInterrupted, .exposeTimeout, .protocol, .cassetteChanged,
      .linkLost, .engineRestarted] x = .enum (engineFaultCode x) := by
  cases x <;> rfl

/-- The stages of a waiting job. -/
theorem enumOf_loadStage (x : LoadStage) : enumOf [.loadSent, .loaded, .exposeSent] x = .enum (loadStageCode x) := by
  cases x <;> rfl

/-- The register states. -/
theorem enumOf_register (x : RegisterState) : enumOf [.tracking, .locked, .drifted] x = .enum (registerCode x) := by
  cases x <;> rfl

/-- The lane stages. -/
theorem enumOf_laneStage (x : LaneStage) :
    enumOf [.inDeveloper, .punching, .bent, .atExit, .granted] x = .enum (laneStageCode x) := by
  cases x <;> rfl

/-- The press states. -/
theorem enumOf_pressState (x : PressState) :
    enumOf [.idle, .makeready, .ready, .running] x = .enum (pressStateCode x) := by
  cases x <;> rfl

/-! ### Lists and optional fields -/

/-- A list of single fields. -/
theorem listField_map {α : Type} (f : α → Field) (l : List α) : listField (l.map f) = listOf (l.map fun x => [f x]) := by
  have hflat : (l.map fun x => [f x]).flatten = l.map f := by
    induction l with
    | nil => rfl
    | cons x l ih => rw [List.map_cons, List.flatten_cons, ih]; rfl
  rw [listField, listOf, hflat, List.length_map, List.length_map]

/-- What is there of an optional list of fields. -/
theorem getD_nil_eq {α : Type} (f : α → List Field) (x : Option α) :
    (x.map f).getD [] = (x.toList.map f).flatten := by
  cases x <;> simp

/-! ### The pages, the positions and the presses -/

/-- QUERY_PAGE of a page with a record (R21). -/
theorem queryPage_ok {n : U16} {r : PageRec} {s : State} (h : s.page? n.toNat = some r) :
    queryPage n s = ⟨.ok, pageAnswered s n.toNat r⟩ := by
  have hbad : ∀ x, (r.version.bind fun v => s.slot? ⟨n.toNat, v, x⟩).any Slot.bad =
      r.version.any fun v => (s.slot? ⟨n.toNat, v, x⟩).any Slot.bad := fun x => by
    cases r.version <;> rfl
  unfold queryPage
  rw [h]
  cases hc : r.cls with
  | none =>
    simp only [okWith, pageAnswered, enumOf_pageState, hc, optField_map, optionalOf_eq, separationStatus, heldSlots,
      hbad]
    rfl
  | some c =>
    simp only [okWith, pageAnswered, enumOf_pageState, hc, enumOf_class, optField_map, optionalOf_eq,
      separationStatus, heldSlots, hbad]
    rfl

/-- QUERY_PAGE of a page without a record. -/
theorem queryPage_notFound {n : U16} {s : State} (h : s.page? n.toNat = none) :
    queryPage n s = ⟨.notFound, []⟩ := by
  unfold queryPage
  rw [h]
  rfl

/-- The fields of a content. -/
theorem contentFields_eq : contentFields = contentAnswered := by
  funext c
  simp only [contentFields, contentAnswered, enumOf_format, enumOf_separation, optField_map, optionalOf_eq]

/-- A job's number and state. -/
theorem jobAndState_eq (s : State) : jobAndState s = stateAnswered s := by
  funext n
  unfold jobAndState stateAnswered
  cases s.job? n with
  | none => rfl
  | some j => simp [enumOf_jobState]

/-- A mounted job, with its mark. -/
theorem mountedFields_eq (s : State) :
    mountedFields s = fun n => stateAnswered s n ++ [.flag ((s.job? n).any Job.superseded)] := by
  funext n
  rw [mountedFields, jobAndState_eq]

/-- The number of a position's status. -/
theorem statusCode_eq (s : State) (x : Position) : statusCode (s.status x) = statusAnswered s x := by
  unfold State.status statusAnswered
  have hstate : x.work.current.bind s.jobState = (x.work.current.bind s.job?).map Job.state := by
    cases x.work.current <;> rfl
  rw [hstate]
  cases x.work.current.bind s.job? with
  | some j =>
    show statusCode (statusOfState j.state) = if j.state = .racked then 1 else if j.state = .mounted then 2 else
      if j.state = .failed then 3 else 0
    cases j.state <;> rfl
  | none =>
    simp only [Option.map_none, State.unused_eq, State.satisfiable_eq_makeable]
    cases x.content.pages.any (needsPage s x.content.sep) <;> cases makeable s x.content <;>
      cases x.work.deferred <;> rfl

/-- QUERY_POSITION of a position that is live or staged (R45). -/
theorem positionAnswer_eq (s : State) (k : PosKey) :
    positionAnswer s k (s.pos? k) (tget (s.stage k.press).entries k.pos) = ⟨.ok, positionAnswered s k⟩ := by
  have hpages : listField (((s.pos? k).map fun x => x.content.pages.map fun n =>
        Field.flag (s.required x.content.sep n)).getD []) =
      listOf ((s.pos? k).toList.map fun x => x.content.pages.map fun n =>
        [Field.flag (needsPage s x.content.sep n)]).flatten := by
    cases s.pos? k with
    | none => rfl
    | some x => simp [listField_map, State.required_eq_needsPage]
  have hstaged : ((tget (s.stage k.press).entries k.pos).isSome &&
        decide ((s.pos? k).map Position.content = tget (s.stage k.press).entries k.pos)) =
      decide (tget (s.stage k.press).entries k.pos ≠ none ∧
        (s.pos? k).map Position.content = tget (s.stage k.press).entries k.pos) := by
    cases tget (s.stage k.press).entries k.pos <;> simp
  simp only [positionAnswer, okWith, positionAnswered, hpages, hstaged, optionalOf_eq, optField_map, statusCode_eq,
    State.satisfiable_eq_makeable, keyFields, contentFields_eq, jobAndState_eq, mountedFields_eq, List.append_assoc]

/-- QUERY_POSITION of a position that is live or staged. -/
theorem queryPosition_ok {k : PosKey} {s : State}
    (h : s.pos? k ≠ none ∨ tget (s.stage k.press).entries k.pos ≠ none) :
    queryPosition (byteOf k.press.val) (byteOf k.pos.val) s = ⟨.ok, positionAnswered s k⟩ := by
  rw [← positionAnswer_eq]
  unfold queryPosition
  rw [keyOf_byteOf]
  refine if_neg ?_
  rw [Bool.and_eq_true, Option.isNone_iff_eq_none, Option.isNone_iff_eq_none]
  rintro ⟨hl, hs⟩
  exact h.elim (fun h => h hl) fun h => h hs

/-- QUERY_POSITION of a position that is neither live nor staged. -/
theorem queryPosition_notFound {k : PosKey} {s : State} (hl : s.pos? k = none)
    (hs : tget (s.stage k.press).entries k.pos = none) :
    queryPosition (byteOf k.press.val) (byteOf k.pos.val) s = ⟨.notFound, []⟩ := by
  unfold queryPosition
  rw [keyOf_byteOf]
  dsimp only
  rw [hl, hs]
  rfl

/-- QUERY_POSITION of a press or a position that is out of range. -/
theorem queryPosition_badValue {b b' : Byte} {s : State} (h : 4 ≤ b.toNat ∨ 64 ≤ b'.toNat) :
    queryPosition b b' s = ⟨.badValue, []⟩ := by
  unfold queryPosition
  rw [keyOf_eq_none h]
  rfl

/-- The superseded plates of a press (R150). -/
theorem supersededPlates_eq (s : State) (p : PressId) :
    supersededPlates s p =
      ((((s.racks.filter fun e => e.1.press = p).map Prod.snd).flatten ++ (s.shelf p).map Prod.fst).filter
        fun n => (s.job? n).any Job.superseded).length := by
  rw [List.filter_append, List.length_append, List.filter_map, List.length_map]
  rfl

/-- QUERY_PRESS (R150). -/
theorem pressAnswer_eq (s : State) (p : PressId) : pressAnswer s p = ⟨.ok, pressAnswered s p⟩ := by
  have hheld : ∀ h : Option PortId, (if h.isSome = true then 1 else 0) = if h = none then 0 else 1 := fun h => by
    cases h <;> rfl
  simp only [pressAnswer, okWith, pressAnswered, enumOf_pressState, optField_map, optionalOf_eq, hheld,
    supersededPlates_eq, isSuperseded, differing, liveContent, windowTime, listOf, List.length_map, Option.map_map,
    Function.comp_def, List.append_assoc, List.cons_append, List.nil_append]
  rfl

/-- QUERY_PRESS of a press. -/
theorem queryPress_ok (p : PressId) (s : State) : queryPress (byteOf p.val) s = ⟨.ok, pressAnswered s p⟩ := by
  unfold queryPress
  rw [pressOf_byteOf]
  exact pressAnswer_eq s p

/-- QUERY_PRESS of no press. -/
theorem queryPress_badValue {b : Byte} {s : State} (h : 4 ≤ b.toNat) : queryPress b s = ⟨.badValue, []⟩ := by
  unfold queryPress
  rw [pressOf_eq_none h]
  rfl

/-! ### The engines, the lanes and the sorter -/

/-- A job that an engine holds, with its attempt and class. -/
theorem contextFields_eq (s : State) (n : Nat) : contextFields s n = Field.jobNumber n ::
    ((s.job? n).toList.map fun j => [Field.attempt j.attempt, enumOf jobClasses j.cls]).flatten := by
  unfold contextFields
  rw [getD_nil_eq]
  simp only [enumOf_jobClass]
  rfl

/-- A waiting job, with its stage. -/
theorem waitingFields_eq (s : State) : waitingFields s = fun w => Field.jobNumber w.job ::
    ((s.job? w.job).toList.map fun j => [Field.attempt j.attempt, enumOf jobClasses j.cls]).flatten ++
      [enumOf [.loadSent, .loaded, .exposeSent] w.stage] := by
  funext w
  rw [waitingFields, contextFields_eq, enumOf_loadStage]

/-- An engine has no plate to draw. -/
theorem starved_eq (x : Engine) : x.starved = decide (x.cassette.format = none ∨ x.cassette.count = 0) := by
  unfold Engine.starved
  rw [Bool.decide_or]

/-- QUERY_ENGINE (R97, R110). -/
theorem engineAnswer_eq (s : State) (e : EngineId) : engineAnswer s e = ⟨.ok, engineAnswered s e⟩ := by
  cases hf : (s.engine e).cassette.format with
  | none =>
    simp only [engineAnswer, okWith, engineAnswered, enumOf_mode, enumOf_engineFault, hf, waitingFields_eq,
      enumOf_register, optField_map, optionalOf_eq, listField_map, contextFields_eq, starved_eq,
      State.laneLoad_eq_loadOf, Option.map_map, Function.comp_def, List.append_assoc, List.cons_append,
      List.nil_append]
    rfl
  | some f =>
    simp only [engineAnswer, okWith, engineAnswered, enumOf_mode, enumOf_engineFault, hf, enumOf_format,
      waitingFields_eq, enumOf_register, optField_map, optionalOf_eq, listField_map, contextFields_eq, starved_eq,
      State.laneLoad_eq_loadOf, Option.map_map, Function.comp_def, List.append_assoc, List.cons_append,
      List.nil_append]

/-- QUERY_ENGINE of an engine. -/
theorem queryEngine_ok (e : EngineId) (s : State) : queryEngine (byteOf e.val) s = ⟨.ok, engineAnswered s e⟩ := by
  unfold queryEngine
  rw [engineOf_byteOf]
  exact engineAnswer_eq s e

/-- QUERY_ENGINE of no engine. -/
theorem queryEngine_badValue {b : Byte} {s : State} (h : 6 ≤ b.toNat) : queryEngine b s = ⟨.badValue, []⟩ := by
  unfold queryEngine
  rw [engineOf_eq_none h]
  rfl

/-- A lane is open. -/
theorem isOpen_iff (x : Lane) : x.isOpen = true ↔ x.Opens := by
  unfold Lane.isOpen Lane.Opens Gates.isHeld
  cases x.lost <;> cases x.gates.stopped <;> cases x.gates.held <;> cases x.gates.allowance <;> simp

/-- A lane is open, as a flag. -/
theorem isOpen_eq (x : Lane) : x.isOpen = decide x.Opens := by
  rw [Bool.eq_iff_iff, isOpen_iff, decide_eq_true_eq]

/-- QUERY_LANE of a lane (R134). -/
theorem laneAnswer_eq (s : State) (l : LaneId) : laneAnswer s l = ⟨.ok, laneAnswered s l⟩ := by
  have hentry : entryFields s = fun y => [.jobNumber y.job] ++ ((s.job? y.job).toList.map fun j =>
        [.attempt j.attempt, enumOf jobClasses j.cls, .flag j.superseded]).flatten ++
      [enumOf [.inDeveloper, .punching, .bent, .atExit, .granted] y.stage] ++
      optionalOf (y.timer.map fun t => [.remaining t]) := by
    funext y
    simp only [entryFields, getD_nil_eq, enumOf_jobClass, enumOf_laneStage, optField_map, optionalOf_eq]
  simp only [laneAnswer, okWith, laneAnswered, hentry, optField_map, isOpen_eq, State.laneLoad_eq_loadOf, enumOf_policy,
    headOf, listOf, List.length_map, optionalOf_eq, List.append_assoc, List.cons_append, List.nil_append]

/-- A destination's place, as the sorter's look finds it. -/
theorem destinationOf_eq (s : State) (j : Job) : s.destinationOf j = placeFor s j := rfl

/-- The exit request of an open lane, whose plate has reached the exit. -/
theorem exitJob_eq_some_iff (s : State) (l : LaneId) (n : Nat) (j : Job) :
    s.exitJob l = some (n, j) ↔ (s.lane l).floor.exit = some n ∧ (s.lane l).Opens ∧
      (∃ y ∈ (s.lane l).floor.order, y.job = n ∧ y.stage = .atExit) ∧ s.job? n = some j := by
  unfold State.exitJob
  cases hx : (s.lane l).floor.exit with
  | none => simp
  | some m =>
    dsimp only
    have hstage : ((s.lane l).isOpen && (s.lane l).floor.order.any fun x => decide (x.job = m) &&
          decide (x.stage = .atExit)) = true ↔
        (s.lane l).Opens ∧ ∃ y ∈ (s.lane l).floor.order, y.job = m ∧ y.stage = .atExit := by
      rw [Bool.and_eq_true, isOpen_iff, List.any_eq_true]
      simp only [Bool.and_eq_true, decide_eq_true_eq]
    constructor
    · intro h
      split at h
      · rename_i hc
        obtain ⟨hopen, hentry⟩ := hstage.mp hc
        obtain ⟨i, hi, he⟩ := Option.map_eq_some_iff.mp h
        cases he
        exact ⟨rfl, hopen, hentry, hi⟩
      · cases h
    · rintro ⟨hm, hopen, hentry, hj⟩
      cases hm
      rw [if_pos (hstage.mpr ⟨hopen, hentry⟩), hj]
      rfl

/-- A lane is a candidate for the sorter's grant (R127). -/
theorem candidate_eq_some_iff (s : State) (l : LaneId) (n : Nat) (j : Job) (d : Destination) :
    s.candidate l = some (n, j, d) ↔ Candidate s l n j d := by
  unfold State.candidate
  constructor
  · intro h
    split at h
    · cases h
    · rename_i m i hi
      obtain ⟨hexit, hopen, hentry, hjob⟩ := (exitJob_eq_some_iff s l m i).mp hi
      obtain ⟨d', hd, he⟩ := Option.map_eq_some_iff.mp h
      cases he
      exact ⟨hopen, hexit, hentry, hjob, hd⟩
  · intro h
    have hexit := (exitJob_eq_some_iff s l n j).mpr ⟨h.exit, h.opens, h.stage, h.job⟩
    rw [hexit]
    have hplace : s.destinationOf j = some d := h.place
    dsimp only
    rw [hplace]
    rfl

/-- A lane is a candidate, whatever its plate. -/
theorem candidate_isSome_iff {s : State} {l : LaneId} {n : Nat} (hx : (s.lane l).floor.exit = some n) :
    (s.candidate l).isSome = true ↔ (s.lane l).Opens ∧
      (∃ y ∈ (s.lane l).floor.order, y.job = n ∧ y.stage = .atExit) ∧
        ((s.job? n).any fun j => (placeFor s j).isSome) = true := by
  rw [Option.isSome_iff_exists]
  constructor
  · rintro ⟨⟨m, j, d⟩, h⟩
    obtain ⟨hopen, hexit, hentry, hjob, hplace⟩ := (candidate_eq_some_iff s l m j d).mp h
    rw [hx] at hexit
    cases hexit
    exact ⟨hopen, hentry, by simp [hjob, hplace]⟩
  · rintro ⟨hopen, hentry, hplace⟩
    rw [Option.any_eq_true] at hplace
    obtain ⟨j, hj, hd⟩ := hplace
    obtain ⟨d, hd⟩ := Option.isSome_iff_exists.mp hd
    exact ⟨(n, j, d), (candidate_eq_some_iff s l n j d).mpr ⟨hopen, hx, hentry, hj, hd⟩⟩

/-- How a lane's exit is reported (R134). -/
theorem exitField_eq (s : State) (l : LaneId) : exitField s l = exitAnswered s l := by
  unfold exitField exitAnswered
  cases hx : (s.lane l).floor.exit with
  | none => simp [hx]
  | some n => simp only [hx, Option.isNone_some, Bool.false_eq_true, if_false, candidate_isSome_iff hx]

/-- QUERY_LANE of the sorter (R134). -/
theorem sorterAnswer_eq (s : State) : sorterAnswer s = ⟨.ok, sorterAnswered s⟩ := by
  have hdest : ∀ d : Destination, destinationFields d = (match d with
      | .rackSlot p q => [.enum 0, .press p, .position q]
      | .shelf p => [.enum 1, .press p]
      | .rejectBin => [.enum 2]) := fun d => by cases d <;> rfl
  simp only [sorterAnswer, okWith, sorterAnswered, hdest, optField_map, optionalOf_eq, isSome_eq_decide, allLanes,
    List.map_cons, List.map_nil, exitField_eq, List.append_assoc, List.cons_append, List.nil_append] <;> rfl

/-- QUERY_LANE of a lane. -/
theorem queryLane_lane (l : LaneId) (s : State) : queryLane (byteOf (6 + l.val)) s = ⟨.ok, laneAnswered s l⟩ := by
  have h : unitOf (byteOf (6 + l.val)) = some (.lane l) := unitOf_byteOf (.lane l)
  unfold queryLane
  rw [h]
  exact laneAnswer_eq s l

/-- QUERY_LANE of the sorter. -/
theorem queryLane_sorter (s : State) : queryLane 8 s = ⟨.ok, sorterAnswered s⟩ := sorterAnswer_eq s

/-- QUERY_LANE of a unit that is neither. -/
theorem queryLane_badValue {b : Byte} {s : State} (h : b.toNat < 6 ∨ 8 < b.toNat) :
    queryLane b s = ⟨.badValue, []⟩ := by
  unfold queryLane
  rcases h with h | h
  · have hu : unitOf b = some (.engine ⟨b.toNat, h⟩) := dif_pos h
    rw [hu]
    rfl
  · rw [unitOf_eq_none h]
    rfl

/-! ### A job's place in its ready queue -/

/-- Inserting into a sorted list keeps it sorted, in an order that tells the new element from each of the others. -/
theorem insertBy_sorted {α : Type} {lt : α → α → Bool} (htrans : ∀ a b c, lt a b = true → lt b c = true → lt a c = true)
    {x : α} {l : List α} (hl : l.Pairwise fun a b => lt a b = true)
    (hx : ∀ y ∈ l, lt y x = true ∨ lt x y = true) : (insertBy lt x l).Pairwise fun a b => lt a b = true := by
  induction l with
  | nil => exact List.pairwise_singleton _ _
  | cons y ys ih =>
    rw [List.pairwise_cons] at hl
    unfold insertBy
    by_cases hyx : lt y x = true
    · rw [if_pos hyx, List.pairwise_cons]
      refine ⟨fun z hz => ?_, ih hl.2 fun z hz => hx z (List.mem_cons_of_mem _ hz)⟩
      rcases (mem_insertBy lt x z ys).mp hz with rfl | hz
      · exact hyx
      · exact hl.1 z hz
    · have hxy := (hx y List.mem_cons_self).resolve_left hyx
      rw [if_neg hyx, List.pairwise_cons, List.pairwise_cons]
      refine ⟨fun z hz => ?_, hl⟩
      rcases List.mem_cons.mp hz with rfl | hz
      · exact hxy
      · exact htrans _ _ _ hxy (hl.1 z hz)

/-- A list sorted by an order that tells its elements apart. -/
theorem sortBy_sorted {α : Type} {lt : α → α → Bool} (htrans : ∀ a b c, lt a b = true → lt b c = true → lt a c = true)
    {l : List α} (hl : l.Pairwise fun a b => lt a b = true ∨ lt b a = true) :
    (sortBy lt l).Pairwise fun a b => lt a b = true := by
  induction l with
  | nil => exact List.Pairwise.nil
  | cons x xs ih =>
    rw [List.pairwise_cons] at hl
    refine insertBy_sorted htrans (ih hl.2) fun y hy => ?_
    exact (hl.1 y ((mem_sortBy lt y xs).mp hy)).symm

/-- In a sorted list, an element's place is one after the number of elements before it. -/
theorem placeOf_sorted {α : Type} {lt : α → α → Bool} (hasymm : ∀ a b, lt a b = true → lt b a = false) {p : α → Bool}
    {x : α} {l : List α} (hl : l.Pairwise fun a b => lt a b = true) (hx : x ∈ l) (hp : ∀ y ∈ l, p y = true ↔ y = x) :
    placeOf p l = some ((l.filter fun y => lt y x).length + 1) := by
  have hirrefl : lt x x = false := by
    cases h : lt x x with
    | false => rfl
    | true => rw [hasymm x x h] at h; cases h
  induction l with
  | nil => cases hx
  | cons y ys ih =>
    rw [List.pairwise_cons] at hl
    unfold placeOf
    by_cases hpy : p y = true
    · have hyx : y = x := (hp y List.mem_cons_self).mp hpy
      subst hyx
      have hnone : (y :: ys).filter (fun z => lt z y) = [] := by
        rw [List.filter_eq_nil_iff]
        intro z hz
        rw [Bool.not_eq_true]
        rcases List.mem_cons.mp hz with rfl | hz
        · exact hirrefl
        · exact hasymm _ _ (hl.1 z hz)
      rw [if_pos hpy, hnone]
      rfl
    · have hne : y ≠ x := fun h => hpy ((hp y List.mem_cons_self).mpr h)
      have hmem : x ∈ ys := (List.mem_cons.mp hx).resolve_left fun h => hne h.symm
      rw [if_neg hpy, ih hl.2 hmem fun z hz => hp z (List.mem_cons_of_mem _ hz), List.filter_cons,
        if_pos (hl.1 x hmem)]
      rfl

/-- The order of the ready queues goes on. -/
theorem queueBefore_trans (s : State) (a b c : Nat × Job) (hab : s.queueBefore a b = true)
    (hbc : s.queueBefore b c = true) : s.queueBefore a c = true := by
  rw [State.queueBefore_eq_aheadOf] at *
  unfold aheadOf at *
  cases ha : (s.press a.2.press).start <;> cases hb : (s.press b.2.press).start <;>
    cases hc : (s.press c.2.press).start <;> simp [ha, hb, hc] at * <;> omega

/-- The order of the ready queues goes one way. -/
theorem queueBefore_asymm (s : State) (a b : Nat × Job) (hab : s.queueBefore a b = true) :
    s.queueBefore b a = false := by
  rw [State.queueBefore_eq_aheadOf] at *
  unfold aheadOf at *
  cases ha : (s.press a.2.press).start <;> cases hb : (s.press b.2.press).start <;> simp [ha, hb] at * <;> omega

/-- The order of the ready queues tells two jobs with different entry orders apart. -/
theorem queueBefore_total (s : State) (a b : Nat × Job) (h : a.2.entryOrder ≠ b.2.entryOrder) :
    s.queueBefore a b = true ∨ s.queueBefore b a = true := by
  rw [State.queueBefore_eq_aheadOf, State.queueBefore_eq_aheadOf]
  unfold aheadOf
  cases (s.press a.2.press).start <;> cases (s.press b.2.press).start <;> simp <;> omega

/-- A QUEUED job's place in its ready queue (R56, R70). -/
theorem queuePlace_eq {s : State} {n : Nat} {j : Job} (ht : Tables s) (ho : EntryOrders s) (hj : s.job? n = some j)
    (hq : j.state = .queued) : queuePlace s n j =
      some ((s.jobs.filter fun e => e.2.state = .queued && e.2.cls = j.cls && aheadOf s e.2 j).length + 1) := by
  have hget : ∀ e ∈ s.jobs, s.job? e.1 = some e.2 := fun e he => tget_of_mem ht.jobs he
  have hmem : ∀ e, e ∈ s.readyQueue j.cls ↔ e ∈ s.jobs ∧ e.2.state = .queued ∧ e.2.cls = j.cls := fun e => by
    simp [State.readyQueue, mem_sortBy]
  have hsorted : (s.readyQueue j.cls).Pairwise fun a b => s.queueBefore a b = true := by
    refine sortBy_sorted (queueBefore_trans s) ?_
    refine List.Pairwise.imp_of_mem (R := fun a b => a.1 < b.1) (fun {a b} ha hb hab => ?_)
      (List.Pairwise.filter _ (show s.jobs.Pairwise fun a b => a.1 < b.1 from ht.jobs))
    refine queueBefore_total s a b fun he => ?_
    have := ho.apart a.1 b.1 a.2 b.2 (hget a (List.mem_filter.mp ha).1) (hget b (List.mem_filter.mp hb).1) he
    omega
  have hown : (n, j) ∈ s.readyQueue j.cls := (hmem _).mpr ⟨mem_of_tget hj, hq, rfl⟩
  have honly : ∀ y ∈ s.readyQueue j.cls, decide (y.1 = n) = true ↔ y = (n, j) := by
    intro y hy
    rw [decide_eq_true_eq]
    constructor
    · rintro rfl
      have := hget y ((hmem y).mp hy).1
      rw [hj] at this
      exact Prod.ext rfl (Option.some.inj this).symm
    · rintro rfl
      rfl
  unfold queuePlace
  rw [if_pos hq, placeOf_sorted (queueBefore_asymm s) hsorted hown honly]
  have hperm := ((sortBy_perm s.queueBefore
    (s.jobs.filter fun e => e.2.state = .queued && e.2.cls = j.cls)).filter fun y => s.queueBefore y (n, j)).length_eq
  rw [List.filter_filter] at hperm
  refine congrArg (fun m => some (m + 1)) (hperm.trans ?_)
  congr 1
  refine List.filter_congr fun e _ => ?_
  rw [State.queueBefore_eq_aheadOf, Bool.and_comm]

/-- The engine and the context of a job (R70). -/
theorem contextOf_eq (s : State) (n : Nat) :
    (contextOf s n).map (fun c => [Field.unit (.engine c.1), Field.enum (contextCode c.2)]) = contextAnswered s n := by
  have hholder : ∀ e : EngineId, ((((s.engine e).ctx.holder n).map fun c => (e, c)).map fun c =>
        [Field.unit (.engine c.1), Field.enum (contextCode c.2)]) =
      (if (s.engine e).ctx.current.any fun w => w.job = n then some [Field.unit (.engine e), .enum 0]
        else if (s.engine e).ctx.next.any fun w => w.job = n then some [Field.unit (.engine e), .enum 1]
        else if (s.engine e).ctx.parked.any fun w => w.job = n then some [Field.unit (.engine e), .enum 2]
        else none) := by
    intro e
    unfold Contexts.holder
    repeat' split
    all_goals rfl
  unfold contextOf contextAnswered
  rw [List.map_findSome?]
  congr 1
  funext e
  exact hholder e

/-- The rack place of a RACKED job (R70). -/
theorem rackPlace_eq (s : State) (n : Nat) (j : Job) :
    placeCode (rackPlace s n j) = if (s.shelf j.press).any (fun y => y.1 = n) then 1 else 0 := by
  unfold rackPlace
  split <;> rfl

/-- The fields of a job record (R46). -/
theorem jobFields_eq (n : Nat) (j : Job) : jobFields n j =
    [.jobNumber n, .press j.press, .position j.pos] ++
    listOf (j.pages.map fun p => [.pageId p.1, .version p.2]) ++
    [enumOf separations j.sep, enumOf formats j.format, enumOf colourClasses j.colourNeed] ++
    listOf (j.slots.map fun k => [.slotRef k]) ++
    [enumOf jobClasses j.cls, enumOf [.first, .remake] j.origin, .attempt j.attempt, enumOf jobStates j.state,
      .flag j.superseded] ++
    optionalOf (j.engine.map fun e => [.unit (.engine e)]) ++ optionalOf (j.lane.map fun l => [.unit (.lane l)]) ++
    optionalOf (j.applied.map fun o => [.offset o]) ++ optionalOf (j.lastFault.map fun f => [.fault f]) := by
  simp only [jobFields, keyFields, listField_map, enumOf_separation, enumOf_format, enumOf_class, enumOf_jobClass,
    enumOf_origin, enumOf_jobState, optField_map, optionalOf_eq, Job.key, listOf, List.length_map, List.append_assoc,
    List.cons_append, List.nil_append]

/-- QUERY_JOB of a live job (R70). -/
theorem jobAnswer_eq {s : State} {n : Nat} {j : Job} (hj : s.job? n = some j)
    (hq : j.state = .queued → Tables s ∧ EntryOrders s) : jobAnswer s n j = ⟨.ok, jobAnswered s n j⟩ := by
  have hplace : optField ((queuePlace s n j).map .count) =
      optionalOf (if j.state = .queued then some [.count ((s.jobs.filter fun e =>
        e.2.state = .queued && e.2.cls = j.cls && aheadOf s e.2 j).length + 1)] else none) := by
    by_cases h : j.state = .queued
    · rw [queuePlace_eq (hq h).1 (hq h).2 hj h, if_pos h]
      rfl
    · rw [queuePlace, if_neg h, if_neg h]
      rfl
  have hcontext : optFields ((jobContext s n j).map fun c => [.unit (.engine c.1), .enum (contextCode c.2)]) =
      optionalOf (if j.state = .assigned ∨ j.state = .exposing then contextAnswered s n else none) := by
    unfold jobContext
    rw [optionalOf_eq]
    split
    · rw [contextOf_eq]
    · rfl
  have hrack : optField ((jobRackPlace s n j).map fun p => .enum (placeCode p)) =
      optionalOf (if j.state = .racked then
        some [.enum (if (s.shelf j.press).any fun y => y.1 = n then 1 else 0)] else none) := by
    unfold jobRackPlace
    split
    · rw [Option.map_some, rackPlace_eq]
      rfl
    · rfl
  simp only [jobAnswer, okWith, hplace, hcontext, hrack, jobFields_eq, jobAnswered, optField_map, optionalOf_eq,
    List.append_assoc]

/-- QUERY_JOB of a live job. -/
theorem queryJob_ok {s : State} {n : U16} {j : Job} (hn : n ≠ 0) (hj : s.job? n.toNat = some j)
    (hq : j.state = .queued → Tables s ∧ EntryOrders s) : queryJob n s = ⟨.ok, jobAnswered s n.toNat j⟩ := by
  unfold queryJob
  rw [if_neg (show ¬ n.toNat = 0 from fun h => hn (BitVec.eq_of_toNat_eq h)), hj]
  exact jobAnswer_eq hj hq

/-- QUERY_JOB of a number that no live job has. -/
theorem queryJob_notFound {s : State} {n : U16} (hn : n ≠ 0) (hj : s.job? n.toNat = none) :
    queryJob n s = ⟨.notFound, []⟩ := by
  unfold queryJob
  rw [if_neg (show ¬ n.toNat = 0 from fun h => hn (BitVec.eq_of_toNat_eq h)), hj]
  rfl

/-- Settles O59: each query answers as its rule lists, and what it reads of the state with the request in hand is what
it reads of the state. -/
theorem askedOnly : Obligations.AskedOnly := by
  intro p tag s hfree answers
  have asked : ∀ (r : Request) (a : Answer), r.allowed (s.port p).rights = true →
      (∀ x, applyRequest p r (holding p x s) = (holding p x s, a)) →
      Answers (r.command p tag) p tag r.kind a [] s s := fun r a ha h => answers_unchanged hfree ha (h _)
  refine ⟨fun hmaint => asked .softReset _ hmaint fun _ => rfl, fun n => ⟨fun h => ?_, fun r h => ?_⟩,
    fun k => ⟨fun hl hs => ?_, fun h => ?_⟩, fun n => ⟨fun h => ?_, fun hn h => ?_, fun hn j h hq => ?_⟩, fun e => ?_,
    fun l => ?_, ?_, fun pr => ?_, ?_, fun b b' => ⟨fun h => ?_, fun h => ?_, fun h => ?_, fun h => ?_⟩⟩
  · exact asked (.queryPage n) _ rfl fun _ => congrArg (Prod.mk _) (queryPage_notFound h)
  · exact asked (.queryPage n) _ rfl fun _ => congrArg (Prod.mk _) (queryPage_ok h)
  · exact asked (.queryPosition _ _) _ rfl fun _ => congrArg (Prod.mk _) (queryPosition_notFound hl hs)
  · exact asked (.queryPosition _ _) _ rfl fun _ => congrArg (Prod.mk _) (queryPosition_ok h)
  · subst h
    exact asked (.queryJob 0) _ rfl fun _ => rfl
  · exact asked (.queryJob n) _ rfl fun _ => congrArg (Prod.mk _) (queryJob_notFound hn h)
  · exact asked (.queryJob n) _ rfl fun _ => congrArg (Prod.mk _) (queryJob_ok (s := s) hn h hq)
  · exact asked (.queryEngine _) _ rfl fun _ => congrArg (Prod.mk _) (queryEngine_ok e s)
  · exact asked (.queryLane _) _ rfl fun _ => congrArg (Prod.mk _) (queryLane_lane l s)
  · exact asked (.queryLane 8) _ rfl fun _ => congrArg (Prod.mk _) (queryLane_sorter s)
  · exact asked (.queryPress _) _ rfl fun _ => congrArg (Prod.mk _) (queryPress_ok pr s)
  · refine asked .queryPart _ rfl fun x => congrArg (Prod.mk _) ?_
    rw [queryPart_eq, partAnswered_holding]
  · exact asked (.queryPosition b b') _ rfl fun _ => congrArg (Prod.mk _) (queryPosition_badValue h)
  · exact asked (.queryEngine b) _ rfl fun _ => congrArg (Prod.mk _) (queryEngine_badValue h)
  · exact asked (.queryLane b) _ rfl fun _ => congrArg (Prod.mk _) (queryLane_badValue h)
  · exact asked (.queryPress b) _ rfl fun _ => congrArg (Prod.mk _) (queryPress_badValue h)

end Sys2Proof.Machine
end

section
/-! Proofs of the statements about the refusals of a commit (O25), about position holds (O26), and about what the room
asks of an engine (O39): one equation for each outcome of the function that decides the request, then the statement. -/

namespace Sys2Proof.Machine

open State

/-! ### COMMIT_PLAN refused (R36) -/

section CommitRefused

variable {p : PortId} {b edition : Byte} {pr : PressId} (s : State)

/-- A press out of range. -/
theorem reqCommitPlan_badPress (h : pressOf b = none) : reqCommitPlan p b edition s = (s, bare .badValue) := by
  simp only [reqCommitPlan, h]

variable (hb : pressOf b = some pr)

include hb

/-- The edition 0. -/
theorem reqCommitPlan_badEdition (h : edition.toNat = 0) : reqCommitPlan p b edition s = (s, bare .badValue) := by
  simp only [reqCommitPlan, hb, if_pos h]

variable (he : edition.toNat ≠ 0)

include he

/-- A stage HELD by another port. -/
theorem reqCommitPlan_stageHeld {h : PortId} (hh : (s.stage pr).holder = some h) (hne : h ≠ p) :
    reqCommitPlan p b edition s = (s, bare .stageHeld) := by
  simp only [reqCommitPlan, hb, if_neg he, if_pos (heldByOther_eq_true hh hne)]

variable (hh : (s.stage pr).holder = none ∨ (s.stage pr).holder = some p)

include hh

/-- A RUNNING press. -/
theorem reqCommitPlan_pressRunning (hr : (s.press pr).state = .running) :
    reqCommitPlan p b edition s = (s, bare .pressRunning) := by
  simp only [reqCommitPlan, hb, if_neg he, heldByOther_eq_false hh, Bool.false_eq_true, if_false, if_pos hr]

/-- More new pages than there are free records. -/
theorem reqCommitPlan_registerFull (hr : (s.press pr).state ≠ .running)
    (hf : freePages s < (newPageIds s (s.stage pr)).length) :
    reqCommitPlan p b edition s = (s, bare .registerFull) := by
  simp only [reqCommitPlan, hb, if_neg he, heldByOther_eq_false hh, Bool.false_eq_true, if_false, if_neg hr, if_pos hf]

end CommitRefused

/-- Settles O25: the tests of R36 in their order. -/
theorem commitRefused : Obligations.CommitRefused := by
  intro p tag pr edition s hfree hplan
  have refuse {b e : Byte} {c : AnswerCode}
      (h : reqCommitPlan p b e (holding p ⟨tag, 6, .sound (.commitPlan b e)⟩ s) =
        (holding p ⟨tag, 6, .sound (.commitPlan b e)⟩ s, bare c)) :
      Answers (.commitPlan p tag b e) p tag 6 ⟨c, []⟩ [] s s :=
    answers_unchanged (r := .commitPlan b e) hfree hplan h
  have hb := pressOf_byteOf pr
  refine ⟨fun b h => refuse (reqCommitPlan_badPress _ (pressOf_eq_none h)),
    refuse (reqCommitPlan_badEdition _ hb rfl), fun hne => ?_⟩
  have he : edition.toNat ≠ 0 := fun h => hne (BitVec.eq_of_toNat_eq h)
  refine ⟨fun h hh hp => refuse (reqCommitPlan_stageHeld _ hb he hh hp), fun hh => ⟨fun hr => ?_, fun hr hfull hle => ?_⟩⟩
  · exact refuse (reqCommitPlan_pressRunning _ hb he hh hr)
  · refine refuse (reqCommitPlan_registerFull _ hb he hh hr ?_)
    change 512 - s.pages.length < (newPageIds s (s.stage pr)).length
    omega

/-! ### Position holds (R43, R44) -/

section Holds

variable {b1 b2 : Byte} {k : PosKey} {x : Position} (s : State)

/-- A press or position out of range. -/
theorem reqHoldPosition_badValue (h : keyOf b1 b2 = none) : reqHoldPosition b1 b2 s = (s, bare .badValue) := by
  simp only [reqHoldPosition, h]

/-- A press or position out of range. -/
theorem reqReleasePosition_badValue (h : keyOf b1 b2 = none) : reqReleasePosition b1 b2 s = (s, bare .badValue) := by
  simp only [reqReleasePosition, h]

variable (hk : keyOf b1 b2 = some k)

include hk

/-- A position that is not live. -/
theorem reqHoldPosition_notFound (hx : s.pos? k = none) : reqHoldPosition b1 b2 s = (s, bare .notFound) := by
  simp only [reqHoldPosition, hk, hx]

/-- A position that is not live. -/
theorem reqReleasePosition_notFound (hx : s.pos? k = none) : reqReleasePosition b1 b2 s = (s, bare .notFound) := by
  simp only [reqReleasePosition, hk, hx]

variable (hx : s.pos? k = some x)

include hx

/-- What a hold does to a live position, by its flag. -/
theorem reqHoldPosition_live : reqHoldPosition b1 b2 s =
    if x.held = true then (s, bare .wrongState)
    else (raise (.positionHeld k x.work.current) (s.modPos k fun y => { y with held := true }), bare .ok) := by
  simp only [reqHoldPosition, hk, hx]

/-- What a release does to a live position, by its flag. -/
theorem reqReleasePosition_live : reqReleasePosition b1 b2 s =
    if x.held = true then
      (serve (raise (.positionReleased k x.work.current) (s.modPos k fun y => { y with held := false })), bare .ok)
    else (s, bare .wrongState) := by
  simp only [reqReleasePosition, hk, hx]

end Holds

/-- Settles O26: each request by the position's flag. -/
theorem positionHolds : Obligations.PositionHolds := by
  intro p tag k s hfree htab hroom hold release
  have hk : keyOf (byteOf k.press.val) (byteOf k.pos.val) = some k := keyOf_byteOf k
  refine ⟨fun x hx => ⟨fun hh => ⟨?_, ?_⟩, fun hh => ⟨?_, ?_⟩⟩, fun hx => ⟨?_, ?_⟩, fun b1 b2 hb => ⟨?_, ?_⟩⟩
  · refine answers_of (r := .holdPosition _ _) (ns := [_]) hfree hroom
      ((reqHoldPosition_live (holding p _ s) hk hx).trans (if_neg ?_))
    rw [hh]
    exact Bool.false_ne_true
  · refine answers_unchanged (r := .releasePosition _ _) hfree hroom
      ((reqReleasePosition_live (holding p _ s) hk hx).trans (if_neg ?_))
    rw [hh]
    exact Bool.false_ne_true
  · exact answers_unchanged (r := .holdPosition _ _) hfree hroom ((reqHoldPosition_live (holding p _ s) hk hx).trans (if_pos hh))
  · exact answersServing_of (r := .releasePosition _ _) (ns := [_]) hfree hroom htab.jobs
      ((reqReleasePosition_live (holding p _ s) hk hx).trans (if_pos hh))
  · exact answers_unchanged (r := .holdPosition _ _) hfree hroom (reqHoldPosition_notFound (holding p _ s) hk hx)
  · exact answers_unchanged (r := .releasePosition _ _) hfree hroom (reqReleasePosition_notFound (holding p _ s) hk hx)
  · exact answers_unchanged (r := .holdPosition b1 b2) hfree hroom (reqHoldPosition_badValue _ (keyOf_eq_none hb))
  · exact answers_unchanged (r := .releasePosition b1 b2) hfree hroom
      (reqReleasePosition_badValue _ (keyOf_eq_none hb))

/-! ### What the room asks of an engine (R94, R107) -/

section Engines

variable {b : Byte} {e : EngineId} (s : State)

/-- An engine out of range. -/
theorem reqClearEngineFault_badValue (h : engineOf b = none) : reqClearEngineFault b s = (s, bare .badValue) := by
  simp only [reqClearEngineFault, h]

/-- An engine out of range. -/
theorem reqRestoreEngine_badValue (h : engineOf b = none) : reqRestoreEngine b s = (s, bare .badValue) := by
  simp only [reqRestoreEngine, h]

/-- An engine out of range. -/
theorem reqRearmRegister_badValue (h : engineOf b = none) : reqRearmRegister b s = (s, bare .badValue) := by
  simp only [reqRearmRegister, h]

variable (hb : engineOf b = some e)

include hb

/-- An engine that is LOCKED_OUT, or has no fault. -/
theorem reqClearEngineFault_wrongState
    (h : (s.engine e).status.mode = .lockedOut ∨
      ((s.engine e).status.mode ≠ .faulted ∧ (s.engine e).status.faultFlag = false)) :
    reqClearEngineFault b s = (s, bare .wrongState) := by
  simp only [reqClearEngineFault, hb, if_pos h]

/-- A FAULTED engine runs again. -/
theorem reqClearEngineFault_faulted (h : (s.engine e).status.mode = .faulted) :
    reqClearEngineFault b s = (serve (raise (.engineCleared e .running)
      (s.modStatus e fun t => { t with mode := .running, faultFlag := false })), bare .ok) := by
  simp [reqClearEngineFault, hb, h]

/-- The flag of an engine that is not FAULTED clears. -/
theorem reqClearEngineFault_flag {m : EngineMode} (hm : (s.engine e).status.mode = m)
    (h : m = .running ∨ m = .offline) (hf : (s.engine e).status.faultFlag = true) :
    reqClearEngineFault b s = (serve (raise (.engineCleared e m)
      (s.modStatus e fun t => { t with mode := m, faultFlag := false })), bare .ok) := by
  rcases h with rfl | rfl <;> simp [reqClearEngineFault, hb, hm, hf]

/-- An engine that is not LOCKED_OUT. -/
theorem reqRestoreEngine_wrongState (h : (s.engine e).status.mode ≠ .lockedOut) :
    reqRestoreEngine b s = (s, bare .wrongState) := by
  simp only [reqRestoreEngine, hb, if_neg h]

/-- A LOCKED_OUT engine runs again, if it has greeted. -/
theorem reqRestoreEngine_ok (h : (s.engine e).status.mode = .lockedOut) :
    reqRestoreEngine b s = (serve (raise
      (.engineRestored e (if (s.engine e).status.greeted then .running else .offline))
      (s.modStatus e fun t =>
        { t with mode := if (s.engine e).status.greeted then .running else .offline, faultFlag := false })),
      bare .ok) := by
  simp only [reqRestoreEngine, hb, if_pos h]

/-- A register record is set back. -/
theorem reqRearmRegister_ok : reqRearmRegister b s =
    (serve (raise (.registerRearmed e (s.register e).state) (s.setRegister e Register.initial)), bare .ok) := by
  simp only [reqRearmRegister, hb, rearm]

end Engines

/-- A status record whose mode is written again. -/
theorem modStatus_sameMode {e : EngineId} {m : EngineMode} {s : State} (h : (s.engine e).status.mode = m) :
    (s.modStatus e fun t => { t with mode := m, faultFlag := false }) =
      s.modStatus e fun t => { t with faultFlag := false } := by
  subst h
  have : vmod s.engines e (fun x => { x with status := { x.status with mode := (s.engine e).status.mode, faultFlag := false } }) =
      vmod s.engines e fun x => { x with status := { x.status with faultFlag := false } } := by
    apply Vector.ext
    intro i hi
    rw [vmod_get_val, vmod_get_val]
    split
    next h => subst h; rfl
    next => rfl
  exact congrArg (fun v => ({ s with engines := v } : State)) this

/-- Settles O39: each request by the engine's mode and its fault flag. -/
theorem engineRequested : Obligations.EngineRequested := by
  refine ⟨fun p tag e s hfree htab => ?_, fun p tag e s hfree htab hroom => ⟨?_, fun b h => ?_⟩⟩
  · intro clear restore x
    have hb := engineOf_byteOf e
    refine ⟨fun hroom => ⟨fun b h => ?_, fun hm => ?_, fun hm => ⟨fun hf => ?_, fun hf => ?_⟩, fun hm => ?_⟩,
      fun hmaint => ⟨fun b h => ?_, fun hm => ?_, fun hm => ?_⟩⟩
    · exact answers_unchanged (r := .clearEngineFault b) hfree hroom
        (reqClearEngineFault_badValue _ (engineOf_eq_none h))
    · exact answersServing_of (r := .clearEngineFault _) (ns := [_]) hfree hroom htab.jobs
        (reqClearEngineFault_faulted (holding p _ s) hb hm)
    · rw [← modStatus_sameMode (m := x.mode) rfl]
      exact answersServing_of (r := .clearEngineFault _) (ns := [_]) hfree hroom htab.jobs
        (reqClearEngineFault_flag (holding p _ s) hb rfl hm hf)
    · refine answers_unchanged (r := .clearEngineFault _) hfree hroom
        (reqClearEngineFault_wrongState (holding p _ s) hb (.inr ⟨fun h => ?_, hf⟩))
      have hm' : x.mode = .faulted := h
      rw [hm'] at hm
      rcases hm with hm | hm <;> cases hm
    · exact answers_unchanged (r := .clearEngineFault _) hfree hroom (reqClearEngineFault_wrongState (holding p _ s) hb (.inl hm))
    · exact answers_unchanged (r := .restoreEngine b) hfree hmaint (reqRestoreEngine_badValue _ (engineOf_eq_none h))
    · exact answersServing_of (r := .restoreEngine _) (ns := [_]) hfree hmaint htab.jobs (reqRestoreEngine_ok (holding p _ s) hb hm)
    · exact answers_unchanged (r := .restoreEngine _) hfree hmaint (reqRestoreEngine_wrongState (holding p _ s) hb hm)
  · exact answersServing_of (r := .rearmRegister _) (ns := [_]) hfree hroom htab.jobs
      (reqRearmRegister_ok (holding p _ s) (engineOf_byteOf e))
  · exact answers_unchanged (r := .rearmRegister b) hfree hroom (reqRearmRegister_badValue _ (engineOf_eq_none h))

end Sys2Proof.Machine
end

section
/-! Proof of the statement about what the dispatcher and the engine channels give out (O29): the ready queues are in
order, and what is given to an engine, preempted for and exposed is what the rules name. -/

namespace Sys2Proof.Machine

open State

/-! ### The queues (R56) -/

section Sorting

variable {α : Type} {lt : α → α → Bool}

/-- Inserting into a list in which nothing is before what it follows keeps that so. -/
theorem insertBy_inOrder (hanti : ∀ a b, lt a b = true → lt b a = false)
    (htrans : ∀ a b c, lt b a = false → lt c b = false → lt c a = false) (x : α) {l : List α}
    (hl : l.Pairwise fun a b => lt b a = false) : (insertBy lt x l).Pairwise fun a b => lt b a = false := by
  induction l with
  | nil => exact List.pairwise_singleton _ _
  | cons a l ih =>
    rw [List.pairwise_cons] at hl
    unfold insertBy
    split
    next h =>
      refine List.pairwise_cons.2 ⟨fun y hy => ?_, ih hl.2⟩
      rcases (mem_insertBy lt x y l).mp hy with rfl | hy
      · exact hanti _ _ h
      · exact hl.1 y hy
    next h =>
      rw [Bool.not_eq_true] at h
      refine List.pairwise_cons.2 ⟨fun y hy => ?_, List.pairwise_cons.2 hl⟩
      rcases List.mem_cons.mp hy with rfl | hy
      · exact h
      · exact htrans _ _ _ h (hl.1 y hy)

/-- In a sorted list nothing is before what it follows. -/
theorem sortBy_inOrder (hanti : ∀ a b, lt a b = true → lt b a = false)
    (htrans : ∀ a b c, lt b a = false → lt c b = false → lt c a = false) (l : List α) :
    (sortBy lt l).Pairwise fun a b => lt b a = false := by
  induction l with
  | nil => exact List.Pairwise.nil
  | cons x xs ih => exact insertBy_inOrder hanti htrans x ih

end Sorting

/-- Not to be behind carries along in the order of the ready queues. -/
theorem notBehind_trans (s : State) (a b c : Nat × Job) (hba : s.queueBefore b a = false)
    (hcb : s.queueBefore c b = false) : s.queueBefore c a = false := by
  rw [State.queueBefore_eq_aheadOf] at *
  unfold aheadOf at *
  cases ha : (s.press a.2.press).start <;> cases hb : (s.press b.2.press).start <;>
    cases hc : (s.press c.2.press).start <;> simp [ha, hb, hc] at * <;> omega

/-- A ready queue stands in order (R56). -/
theorem readyQueue_inOrder (s : State) (c : JobClass) :
    (s.readyQueue c).Pairwise fun a b => aheadOf s b.2 a.2 = false := by
  have h := sortBy_inOrder (queueBefore_asymm s) (notBehind_trans s)
    (s.jobs.filter fun e => e.2.state = .queued && e.2.cls = c)
  simp only [State.queueBefore_eq_aheadOf] at h
  exact h

/-- No job is offered twice. -/
theorem offered_nodup {s : State} (hs : JobsOrdered s) (c : JobClass) : ((s.offered c).map Prod.fst).Nodup := by
  have hq : ((s.readyQueue c).map Prod.fst).Nodup := by
    refine ((sortBy_perm _ _).map _).nodup_iff.mpr ?_
    exact (keys_nodup hs).sublist (List.filter_sublist.map _)
  exact hq.sublist (List.filter_sublist.map _)

/-! ### What an engine is given (R81, R84) -/

/-- An assignment gives the job to the engine. -/
theorem assign_eq_given (e : EngineId) (n : Nat) (j : Job) (s : State) : assign e n j s = given e n j s := by
  have refs : loadRefs s j = j.pages.map fun p =>
      if SlotKey.mk p.1 p.2 j.sep ∈ j.slots then (s.slot? ⟨p.1, p.2, j.sep⟩).map Slot.ref else none := by
    unfold loadRefs
    refine List.map_congr_left fun p _ => ?_
    simp only [List.contains_iff_mem]
  unfold assign given
  rw [refs]

/-- The first job offered is the first of the two queues, one after the other, that the engine is eligible for. -/
theorem firstFor_eq (s : State) (e : EngineId) :
    firstFor s e = (s.offered .urgent ++ s.offered .normal).find? fun x => s.eligible e x.1 x.2 := by
  unfold firstFor
  rw [List.find?_append]
  cases (s.offered .urgent).find? fun x => s.eligible e x.1 x.2 <;> rfl

/-- An engine that has a next job, or is eligible for no job offered, is given none. -/
theorem fill_same {s : State} {e : EngineId}
    (h : (s.engine e).ctx.next ≠ none ∨
      ∀ x ∈ s.offered .urgent ++ s.offered .normal, ¬ EligibleFor s e x.1 x.2) : fill e s = s := by
  unfold fill
  rcases h with h | h
  · rw [if_neg (by simpa [Option.isNone_iff_eq_none] using h)]
  · have hf : firstFor s e = none := by
      rw [firstFor_eq, List.find?_eq_none]
      intro x hx
      rw [State.eligible_iff_eligibleFor]
      exact h x hx
    rw [hf]
    split <;> rfl

/-- An engine with no next job is given the first job offered that it is eligible for. -/
theorem fill_gives {s : State} {e : EngineId} {pre post : List (Nat × Job)} {n : Nat} {j : Job}
    (hn : (s.engine e).ctx.next = none) (hq : s.offered .urgent ++ s.offered .normal = pre ++ (n, j) :: post)
    (hpre : ∀ x ∈ pre, ¬ EligibleFor s e x.1 x.2) (hj : EligibleFor s e n j) : fill e s = given e n j s := by
  have hf : firstFor s e = some (n, j) := by
    have none : (pre.find? fun x => s.eligible e x.1 x.2) = none :=
      List.find?_eq_none.mpr fun x hx => by rw [State.eligible_iff_eligibleFor]; exact hpre x hx
    rw [firstFor_eq, hq, List.find?_append, none, Option.none_or]
    exact List.find?_cons_of_pos (p := fun x : Nat × Job => s.eligible e x.1 x.2)
      ((s.eligible_iff_eligibleFor e n j).mpr hj)
  unfold fill
  rw [if_pos (by simp [hn]), hf]
  exact assign_eq_given e n j s

/-! ### Engines by number -/

/-- The first engine by number that passes a test. -/
theorem findEngine_eq_some {p : EngineId → Bool} {e : EngineId} (he : p e = true) (h : ∀ e' < e, p e' = false) :
    allEngines.find? p = some e := by
  have hsplit : ∀ e : EngineId, allEngines = allEngines.take e ++ e :: allEngines.drop (e + 1) ∧
      ∀ e' ∈ allEngines.take e, e' < e := by decide
  obtain ⟨hl, hlt⟩ := hsplit e
  rw [hl, List.find?_append, List.find?_cons_of_pos he, List.find?_eq_none.mpr fun x hx => by simp [h x (hlt x hx)]]
  rfl

/-- No engine passes a test. -/
theorem findEngine_eq_none {p : EngineId → Bool} (h : ∀ e, p e = false) : allEngines.find? p = none :=
  List.find?_eq_none.mpr fun x _ => by simp [h x]

/-! ### Preemption (R82) -/

/-- The machine's test of an engine that can be preempted is the rule's. -/
theorem preempts_iff (s : State) (e : EngineId) (n : Nat) (j : Job) :
    (s.eligible e n j && s.preemptable e) = true ↔ Preempts s e n j := by
  have hp : s.preemptable e = true ↔ (∃ w i, (s.engine e).ctx.next = some w ∧ w.stage ≠ .exposeSent ∧
      s.job? w.job = some i ∧ i.cls = .normal) ∧ (s.engine e).ctx.parked = none := by
    unfold State.preemptable Contexts.displaceable State.classOfJob
    cases hn : (s.engine e).ctx.next with
    | none => simp
    | some w => 
      cases hj : s.job? w.job with
      | none => simp [hj]
      | some i => simp [hj]; tauto
  rw [Bool.and_eq_true, State.eligible_iff_eligibleFor, hp]
  exact ⟨fun ⟨h1, h2, h3⟩ => ⟨h1, h2, h3⟩, fun ⟨h1, h2, h3⟩ => ⟨h1, h2, h3⟩⟩

/-- The lowest-numbered engine that can be preempted is chosen. -/
theorem preemptChoice_eq_some {s : State} {e : EngineId} {n : Nat} {j : Job} (he : Preempts s e n j)
    (h : ∀ e', e' < e → ¬ Preempts s e' n j) : preemptChoice s n j = some e :=
  findEngine_eq_some ((preempts_iff s e n j).mpr he) fun e' hlt =>
    Bool.eq_false_iff.mpr fun hp => h e' hlt ((preempts_iff s e' n j).mp hp)

/-- With no engine that can be preempted, none is chosen. -/
theorem preemptChoice_eq_none {s : State} {n : Nat} {j : Job} (h : ∀ e, ¬ Preempts s e n j) :
    preemptChoice s n j = none :=
  findEngine_eq_none fun e => Bool.eq_false_iff.mpr fun hp => h e ((preempts_iff s e n j).mp hp)

/-! ### EXPOSE (R85, R86) -/

/-- Sending EXPOSE for an engine's next job. -/
theorem sendExpose_eq_exposed {s : State} {e : EngineId} {w : WaitingCtx} {j : Job}
    (hw : (s.engine e).ctx.next = some w) (hj : s.job? w.job = some j) : sendExpose e s = exposed e w j s := by
  have ha : s.attemptOf w.job = some j.attempt := by
    unfold State.attemptOf
    rw [hj]
    rfl
  unfold sendExpose exposed
  rw [hw]
  dsimp only
  rw [ha]
  rfl

/-- An engine of the lane that EXPOSE can be sent to. -/
def feedsReady (s : State) (l : LaneId) (e : EngineId) : Bool := decide (laneFed e = l) && s.exposeReady e

/-- The engine that a lane's room is granted to: the first that is ready with an URGENT job, or else the first ready. -/
theorem exposeChoice_eq (s : State) (l : LaneId) : s.exposeChoice l =
    (allEngines.find? fun e => feedsReady s l e && s.nextUrgent e).or (allEngines.find? (feedsReady s l)) := by
  have hu : (allEngines.find? fun e => feedsReady s l e && s.nextUrgent e) =
      ((allEngines.filter (feedsReady s l)).filter s.nextUrgent).head? := by
    rw [List.filter_filter, List.head?_filter]
    exact congrArg (allEngines.find? ·) (funext fun e => Bool.and_comm _ _)
  rw [hu, ← List.head?_filter]
  unfold State.exposeChoice
  change (match (allEngines.filter (feedsReady s l)).filter s.nextUrgent with
    | e :: _ => some e | [] => (allEngines.filter (feedsReady s l)).head?) = _
  cases (allEngines.filter (feedsReady s l)).filter s.nextUrgent <;> rfl

/-- An engine of the lane is ready when it has a next job that EXPOSE can be sent for. -/
theorem feedsReady_iff {s : State} {l : LaneId} {e : EngineId} :
    feedsReady s l e = true ↔ laneFed e = l ∧ ∃ w, Loaded s e w := by
  unfold feedsReady
  rw [Bool.and_eq_true, decide_eq_true_eq, State.exposeReady_iff_loaded]

/-- The machine's test of an URGENT next job is the rule's. -/
theorem nextUrgent_iff {s : State} {e : EngineId} {w : WaitingCtx} (hw : (s.engine e).ctx.next = some w) :
    s.nextUrgent e = true ↔ IsUrgent s w := by
  unfold State.nextUrgent IsUrgent State.classOfJob
  rw [hw]
  cases hj : s.job? w.job <;> simp [hj]

/-- A ready engine is granted the room before another when its job alone is URGENT, or else by its number (R86). -/
def GoesFirst (s : State) (e e' : EngineId) (w w' : WaitingCtx) : Prop :=
  (IsUrgent s w ∧ ¬ IsUrgent s w') ∨ ((IsUrgent s w ↔ IsUrgent s w') ∧ e < e')

/-- The engine that goes before every other that is ready is chosen. -/
theorem exposeChoice_eq_some {s : State} {l : LaneId} {e : EngineId} {w : WaitingCtx} (hl : laneFed e = l)
    (he : Loaded s e w)
    (hother : ∀ e' w', laneFed e' = l → e' ≠ e → Loaded s e' w' → GoesFirst s e e' w w') :
    s.exposeChoice l = some e := by
  have ready : feedsReady s l e = true := feedsReady_iff.mpr ⟨hl, w, he⟩
  rw [exposeChoice_eq]
  by_cases hu : IsUrgent s w
  · rw [findEngine_eq_some (e := e)]
    · rfl
    · rw [ready, (nextUrgent_iff he.next).mpr hu]
      rfl
    · intro e' hlt
      rw [Bool.eq_false_iff, ne_eq, Bool.and_eq_true, feedsReady_iff]
      rintro ⟨⟨hl', w', hw'⟩, hu'⟩
      rw [nextUrgent_iff hw'.next] at hu'
      rcases hother e' w' hl' hlt.ne hw' with ⟨_, h⟩ | ⟨_, h⟩
      · exact h hu'
      · exact absurd h (not_lt.mpr hlt.le)
  · have none : (allEngines.find? fun e => feedsReady s l e && s.nextUrgent e) = none := by
      refine findEngine_eq_none fun e' => ?_
      rw [Bool.eq_false_iff, ne_eq, Bool.and_eq_true, feedsReady_iff]
      rintro ⟨⟨hl', w', hw'⟩, hu'⟩
      rw [nextUrgent_iff hw'.next] at hu'
      by_cases hne : e' = e
      · subst hne
        have hww : w = w' := Option.some.inj (he.next.symm.trans hw'.next)
        exact hu (hww ▸ hu')
      · rcases hother e' w' hl' hne hw' with ⟨h, _⟩ | ⟨h, _⟩
        · exact hu h
        · exact hu (h.mpr hu')
    rw [none, Option.none_or, findEngine_eq_some ready]
    intro e' hlt
    rw [Bool.eq_false_iff, ne_eq, feedsReady_iff]
    rintro ⟨hl', w', hw'⟩
    rcases hother e' w' hl' hlt.ne hw' with ⟨h, _⟩ | ⟨_, h⟩
    · exact hu h
    · exact absurd h (not_lt.mpr hlt.le)

/-- A lane without room, or without a ready engine, grants none. -/
theorem exposeOnce_same {s : State} {l : LaneId}
    (h : ¬ HasLaneRoom s l ∨ ∀ e w, laneFed e = l → ¬ Loaded s e w) : exposeOnce l s = s := by
  unfold exposeOnce
  split
  next hr =>
    rcases h with h | h
    · exact absurd ((s.laneRoom_iff_hasLaneRoom l).mp hr) h
    · have hn : ∀ e, feedsReady s l e = false := fun e =>
        Bool.eq_false_iff.mpr fun hp => by
          obtain ⟨hl, w, hw⟩ := feedsReady_iff.mp hp
          exact h e w hl hw
      rw [exposeChoice_eq, findEngine_eq_none fun e => by rw [hn e]; rfl, findEngine_eq_none hn]
      rfl
  next => rfl

/-- The engine that goes first has EXPOSE sent for its next job. -/
theorem exposeOnce_grants {s : State} {l : LaneId} {e : EngineId} {w : WaitingCtx} {j : Job} (hr : HasLaneRoom s l)
    (hl : laneFed e = l) (he : Loaded s e w) (hj : s.job? w.job = some j)
    (hother : ∀ e' w', laneFed e' = l → e' ≠ e → Loaded s e' w' → GoesFirst s e e' w w') :
    exposeOnce l s = exposed e w j s := by
  unfold exposeOnce
  rw [if_pos ((s.laneRoom_iff_hasLaneRoom l).mpr hr), exposeChoice_eq_some hl he hother]
  exact sendExpose_eq_exposed he.next hj

/-- Settles O29: the queues, what an engine is given, preemption, EXPOSE, and the order of these. -/
theorem workGiven : Obligations.WorkGiven := by
  refine ⟨fun s c ht => ⟨offered_nodup ht.jobs c, fun n j => mem_offered_iff ht.jobs c n j, ?_⟩,
    fun s e => ⟨fill_same, fun pre n j post hn hq hpre hj => fill_gives hn hq hpre hj⟩,
    fun s => ⟨rfl, fun n j rest => ⟨fun h => ?_, fun e he h => ?_⟩⟩,
    fun s l => ⟨exposeOnce_same, fun e w j hr hl he hj h => exposeOnce_grants hr hl he hj h⟩, fun s => rfl⟩
  · exact (readyQueue_inOrder s c).sublist List.filter_sublist
  · rw [preemptFrom, preemptChoice_eq_none h]
  · rw [preemptFrom, preemptChoice_eq_some he h]
    exact congrArg (preemptFrom rest) (assign_eq_given e n j _)

end Sys2Proof.Machine
end

section
/-! Proof of the statement about the state in which serving leaves the engines (O30): no engine can be given work that
is offered, no EXPOSE can be sent, and a line that is STOPPING has its reached marks. -/

namespace Sys2Proof.Machine

open State

/-! ### Notices that a reaction raises -/

/-- A notice that has been told stays told. -/
theorem Told.kept {n : Notice} {s t u : State} (h : Told n s t) (k : PortsKept t u) : Told n s u := by
  intro q hq
  rcases h q hq with h | h
  · obtain ⟨l, hl, -⟩ := (k q).1.output
    exact .inl (by rw [hl]; simp [h])
  · exact .inr (by rw [(k q).1.overrun h]; exact h)

/-- What is told after a state is told after an earlier one of the same second. -/
theorem Told.since {n : Notice} {s t u : State} (h : Told n t u) (hp : PortsKept s t) (hc : t.clock = s.clock) :
    Told n s u := by
  intro q hq
  rw [← hc]
  exact h q (by rw [(hp q).1.mask]; exact hq)

/-- An offered notice stands in the list, or the overrun flag is set. -/
theorem offer_told (time : Nat) (n : Notice) (l : Link) :
    .notice time n ∈ (Link.offer time n l).output ∨ (Link.offer time n l).overrun ≠ none := by
  unfold Link.offer
  obtain ⟨x, hx⟩ := pump_eq { l with output := l.output ++ [.notice time n] }
  cases ho : l.overrun with
  | some r =>
    right
    split
    · rw [ho]
      exact Option.some_ne_none r
    · exact Option.some_ne_none _
  | none =>
    by_cases hroom : l.noticeCount < Config.noticeQueue
    · rw [if_pos hroom]
      rw [ho] at hx
      exact .inl (by simp only [hx]; simp)
    · rw [if_neg hroom]
      exact .inr (by simp)

/-- A notice that is raised is told. -/
theorem told_raise (n : Notice) (s : State) : Told n s (raise n s) := by
  intro q hq
  rw [port_raise, if_pos hq]
  exact offer_told s.clock n (s.port q).link

/-! ### The colour-starved condition (R106) -/

/-- The machine's test of the condition is the rule's. -/
theorem colourStarvedNow_iff {s : State} (hs : JobsOrdered s) : s.colourStarvedNow = true ↔ ColourStarves s := by
  have running : s.runningEngines ≠ [] ↔ ∃ e, (s.engine e).status.mode = .running := by
    unfold State.runningEngines
    rw [ne_eq, List.filter_eq_nil_iff]
    have all : ∀ e : EngineId, e ∈ allEngines := by decide
    simp [all]
  have drifted : s.runningEngines.all (fun e => (s.register e).state = .drifted) = true ↔
      ∀ e, (s.engine e).status.mode = .running → (s.register e).state = .drifted := by
    unfold State.runningEngines
    have all : ∀ e : EngineId, e ∈ allEngines := by decide
    simp [all, ← imp_iff_not_or]
  have queued : s.colourQueued ≠ 0 ↔ ∃ n j, s.job? n = some j ∧ j.state = .queued ∧ j.colourNeed = .colour := by
    unfold State.colourQueued
    rw [ne_eq, List.length_eq_zero_iff, List.filter_eq_nil_iff]
    simp only [Prod.forall, Bool.and_eq_true, decide_eq_true_eq, not_forall, not_not]
    exact ⟨fun ⟨n, j, hm, h⟩ => ⟨n, j, tget_of_mem hs hm, h⟩, fun ⟨n, j, hj, h⟩ => ⟨n, j, mem_of_tget hj, h⟩⟩
  unfold State.colourStarvedNow ColourStarves
  rw [Bool.and_eq_true, Bool.and_eq_true, decide_eq_true_eq, decide_eq_true_eq, running, drifted, queued, and_assoc]

/-! ### What serving leaves alone besides -/

/-- The lanes and the line control are left alone. -/
def FloorKept (s t : State) : Prop := t.lanes = s.lanes ∧ t.line = s.line ∧ t.sorter = s.sorter

/-- One after another. -/
theorem FloorKept.trans {s t u : State} (h : FloorKept s t) (k : FloorKept t u) : FloorKept s u :=
  ⟨k.1.trans h.1, k.2.1.trans h.2.1, k.2.2.trans h.2.2⟩

/-- What changes ports only leaves them alone. -/
theorem FloorKept.of_same {s t : State} (h : Same s t) : FloorKept s t := by
  rw [h]
  exact ⟨rfl, rfl, rfl⟩

/-- Judging the colour-starved condition. -/
theorem evalStarved_floor (s : State) : FloorKept s (evalStarved s) := by
  unfold evalStarved
  split
  · split
    · exact ⟨rfl, rfl, rfl⟩
    · exact FloorKept.trans (t := s.setStarved true) ⟨rfl, rfl, rfl⟩ (.of_same (raise_same _ _))
  · exact ⟨rfl, rfl, rfl⟩

/-- Filling an engine. -/
theorem fill_floor (e : EngineId) (s : State) : FloorKept s (fill e s) := by
  unfold fill
  split
  · cases firstFor s e <;> exact ⟨rfl, rfl, rfl⟩
  · exact ⟨rfl, rfl, rfl⟩

/-- A fold of what leaves them alone. -/
theorem foldl_floor {α : Type} (f : State → α → State) (h : ∀ s a, FloorKept s (f s a)) (l : List α) (s : State) :
    FloorKept s (l.foldl f s) := by
  induction l generalizing s with
  | nil => exact ⟨rfl, rfl, rfl⟩
  | cons a l ih => exact (h s a).trans (ih _)

/-- Preemption. -/
theorem preemptFrom_floor (l : List (Nat × Job)) (s : State) : FloorKept s (preemptFrom l s) := by
  induction l generalizing s with
  | nil => exact ⟨rfl, rfl, rfl⟩
  | cons x l ih =>
    obtain ⟨n, j⟩ := x
    unfold preemptFrom
    split
    next e _ => exact FloorKept.trans (t := preemptOn e n j s) ⟨rfl, rfl, rfl⟩ (ih _)
    next => exact ⟨rfl, rfl, rfl⟩

/-- Sending EXPOSE. -/
theorem sendExpose_floor (e : EngineId) (s : State) : FloorKept s (sendExpose e s) := by
  unfold sendExpose
  split <;> exact ⟨rfl, rfl, rfl⟩

/-- Granting a lane's room once. -/
theorem exposeOnce_floor (l : LaneId) (s : State) : FloorKept s (exposeOnce l s) := by
  unfold exposeOnce
  split
  · split
    · exact sendExpose_floor _ s
    · exact ⟨rfl, rfl, rfl⟩
  · exact ⟨rfl, rfl, rfl⟩

/-- Granting a lane's room. -/
theorem exposeLane_floor (l : LaneId) (s : State) : FloorKept s (exposeLane l s) :=
  ((exposeOnce_floor l s).trans (exposeOnce_floor l _)).trans (exposeOnce_floor l _)

/-! ### Next jobs are not taken away (R81) -/

/-- An engine that has a next job has one after. -/
def NextKept (s t : State) : Prop := ∀ e, (t.engine e).ctx.next = none → (s.engine e).ctx.next = none

/-- One after another. -/
theorem NextKept.trans {s t u : State} (h : NextKept s t) (k : NextKept t u) : NextKept s u :=
  fun e he => h e (k e he)

/-- The same contexts. -/
theorem NextKept.of_engines {s t : State} (h : t.engines = s.engines) : NextKept s t := fun e he => by
  rwa [engine_of_engines h] at he

/-- An assignment fills the next context. -/
theorem next_assign (e : EngineId) (n : Nat) (j : Job) (s : State) (q : EngineId) :
    ((assign e n j s).engine q).ctx.next =
      if q = e then some ⟨n, .loadSent, some s.limits.load, false⟩ else (s.engine q).ctx.next := by
  change ((s.modCtx e fun c => { c with next := some ⟨n, .loadSent, some s.limits.load, false⟩ }).engine q).ctx.next = _
  rw [engine_modCtx]
  split <;> rfl

/-- An assignment takes no next job away. -/
theorem assign_nextKept (e : EngineId) (n : Nat) (j : Job) (s : State) : NextKept s (assign e n j s) := by
  intro q hq
  rw [next_assign] at hq
  split at hq
  · cases hq
  · exact hq

/-- Filling takes no next job away. -/
theorem fill_nextKept (e : EngineId) (s : State) : NextKept s (fill e s) := by
  unfold fill
  split
  · cases firstFor s e with
    | none => exact fun _ h => h
    | some x => exact assign_nextKept e x.1 x.2 s
  · exact fun _ h => h

/-- A preemption leaves another next job. -/
theorem preemptOn_nextKept (e : EngineId) (n : Nat) (j : Job) (s : State) : NextKept s (preemptOn e n j s) := by
  intro q hq
  unfold preemptOn at hq
  rw [next_assign] at hq
  split at hq
  · cases hq
  next hne =>
    rw [engine_modCtx, if_neg hne] at hq
    exact hq

/-- Preemption takes no next job away. -/
theorem preemptFrom_nextKept (l : List (Nat × Job)) (s : State) : NextKept s (preemptFrom l s) := by
  induction l generalizing s with
  | nil => exact fun _ h => h
  | cons x l ih =>
    obtain ⟨n, j⟩ := x
    unfold preemptFrom
    split
    · exact (preemptOn_nextKept _ n j s).trans (ih _)
    · exact fun _ h => h

/-- The engines after EXPOSE has been sent. -/
theorem engine_sendExpose (e : EngineId) (s : State) (q : EngineId) : (sendExpose e s).engine q =
    if q = e then { s.engine q with ctx := { (s.engine q).ctx with
      next := (s.engine q).ctx.next.map fun w => { w with stage := .exposeSent, timer := some s.limits.load } } }
    else s.engine q := by
  unfold sendExpose
  split
  next h =>
    split
    next he =>
      subst he
      rw [h, Option.map_none]
      conv_rhs => rw [← h]
    next => rfl
  next w h =>
    change (s.modCtx e fun c =>
      { c with next := some { w with stage := .exposeSent, timer := some s.limits.load } }).engine q = _
    rw [engine_modCtx]
    split
    next he =>
      subst he
      rw [h]
      rfl
    next => rfl

/-- Sending EXPOSE takes no next job away. -/
theorem sendExpose_nextKept (e : EngineId) (s : State) : NextKept s (sendExpose e s) := by
  intro q hq
  rw [engine_sendExpose] at hq
  split at hq
  · simpa using hq
  · exact hq

/-- Granting a lane's room takes no next job away. -/
theorem exposeOnce_nextKept (l : LaneId) (s : State) : NextKept s (exposeOnce l s) := by
  unfold exposeOnce
  split
  · split
    · exact sendExpose_nextKept _ s
    · exact fun _ h => h
  · exact fun _ h => h

/-- Granting a lane's room takes no next job away. -/
theorem exposeLane_nextKept (l : LaneId) (s : State) : NextKept s (exposeLane l s) :=
  ((exposeOnce_nextKept l s).trans (exposeOnce_nextKept l _)).trans (exposeOnce_nextKept l _)

/-! ### No engine can be given work that is offered (R81) -/

/-- An engine with no next job is eligible for no job that is offered. -/
def GivenAt (s : State) (e : EngineId) : Prop :=
  ∀ n j, (s.engine e).ctx.next = none → Offered s n j → ¬ EligibleFor s e n j

/-- Serving more engines leaves it so. -/
theorem GivenAt.kept {s t : State} {e : EngineId} (h : GivenAt s e) (k : KeptByServing s t) (hn : NextKept s t) :
    GivenAt t e := by
  intro n j hnext hoff hel
  obtain ⟨hj, hq, hheld⟩ := hoff
  cases hi : s.job? n with
  | none => rw [(k.jobs n).1 hi] at hj; cases hj
  | some i =>
    obtain ⟨j', hj', hstate, hrec⟩ := (k.jobs n).2 i hi
    cases hj.symm.trans hj'
    have hiq : i.state = .queued := by
      rcases hstate with hs | hs
      · rw [← hs]; exact hq
      · rw [hq] at hs; cases hs.2
    have hkey : j.key = i.key := by rw [hrec]; rfl
    have hformat : j.format = i.format := by rw [hrec]
    have hcolour : j.colourNeed = i.colourNeed := by rw [hrec]
    have hpos : ∀ q, t.pos? q = s.pos? q := fun q => by unfold State.pos?; rw [k.plan]
    have hreg : t.register e = s.register e := by unfold State.register; rw [k.registers]
    refine h n i (hn e hnext) ⟨hi, hiq, fun x hx => hheld x ?_⟩ ?_
    · rw [hkey, hpos]; exact hx
    · obtain ⟨hworks, hfmt, hdrift, hcancel⟩ := hel
      have hE := k.engines e
      rw [hE.cassette, hformat] at hfmt
      rw [hcolour, hreg] at hdrift
      rw [hE.cancel] at hcancel
      refine ⟨⟨?_, ?_, ?_, ?_, ?_⟩, hfmt, hdrift, hcancel⟩
      · rw [← hE.status]; exact hworks.running
      · rw [← hE.gates]; exact hworks.held
      · rw [← hE.gates]; exact hworks.stopped
      · rw [← hE.cassette]; exact hworks.format
      · rw [← hE.cassette]; exact hworks.count

/-- An engine that has been filled can be given no more. -/
theorem fill_givenAt (e : EngineId) {s : State} (hs : JobsOrdered s) : GivenAt (fill e s) e := by
  intro n j hnext hoff hel
  unfold fill at hnext hoff hel
  by_cases hn : (s.engine e).ctx.next = none
  · rw [if_pos (by simp [hn])] at hnext hoff hel
    cases hf : firstFor s e with
    | some x =>
      rw [hf] at hnext
      dsimp only at hnext
      rw [next_assign, if_pos rfl] at hnext
      cases hnext
    | none =>
      rw [hf] at hoff hel
      rw [firstFor_eq, List.find?_eq_none] at hf
      refine hf (n, j) ?_ ((s.eligible_iff_eligibleFor e n j).mpr hel)
      rw [List.mem_append, mem_offered_iff hs, mem_offered_iff hs]
      cases hc : j.cls
      · exact .inr ⟨hoff, rfl⟩
      · exact .inl ⟨hoff, rfl⟩
  · rw [if_neg (by simpa [Option.isNone_iff_eq_none] using hn)] at hnext
    exact hn hnext

/-- Engines that have been filled one after another can be given no more. -/
theorem foldl_fill_givenAt (l : List EngineId) {s : State} (hs : JobsOrdered s) :
    (∀ e, GivenAt s e → GivenAt (l.foldl (fun s e => fill e s) s) e) ∧
      ∀ e ∈ l, GivenAt (l.foldl (fun s e => fill e s) s) e := by
  induction l generalizing s with
  | nil => exact ⟨fun _ h => h, fun _ h => by cases h⟩
  | cons a l ih =>
    have hserves := fill_serves hs a
    obtain ⟨keeps, gives⟩ := ih (Serves.jobs_ordered hs hserves)
    refine ⟨fun e h => keeps e (h.kept hserves.kept (fill_nextKept a s)), fun e he => ?_⟩
    rcases List.mem_cons.mp he with rfl | he
    · exact keeps e (fill_givenAt e hs)
    · exact gives e he

/-- Once the engines have been filled, none can be given more. -/
theorem fillAll_givenAt {s : State} (hs : JobsOrdered s) (e : EngineId) : GivenAt (fillAll s) e :=
  (foldl_fill_givenAt allEngines hs).2 e (by revert e; decide)

/-! ### No EXPOSE can be sent (R85, R86) -/

/-- A lane has no room, or none of its engines has a next job that EXPOSE can be sent for. -/
def Quiet (l : LaneId) (s : State) : Prop := ¬ HasLaneRoom s l ∨ ∀ e w, laneFed e = l → ¬ Loaded s e w

/-- The load of a lane is read off its order and its engines. -/
theorem loadOf_congr {s t : State} {l : LaneId} (he : ∀ e, laneFed e = l → (t.engine e).ctx = (s.engine e).ctx)
    (ho : (t.lane l).floor.order = (s.lane l).floor.order) : loadOf t l = loadOf s l := by
  have fed : ∀ e ∈ allEngines.filter fun e => laneFed e = l, (t.engine e).ctx = (s.engine e).ctx :=
    fun e h => he e (by simpa using (List.mem_filter.mp h).2)
  unfold loadOf
  dsimp only
  rw [ho]
  have current : (allEngines.filter fun e => laneFed e = l).filter (fun e => (t.engine e).ctx.current.isSome) =
      (allEngines.filter fun e => laneFed e = l).filter fun e => (s.engine e).ctx.current.isSome :=
    List.filter_congr fun e h => by rw [fed e h]
  have sent : (allEngines.filter fun e => laneFed e = l).filter
        (fun e => (t.engine e).ctx.next.any fun w => w.stage = .exposeSent) =
      (allEngines.filter fun e => laneFed e = l).filter
        fun e => (s.engine e).ctx.next.any fun w => w.stage = .exposeSent :=
    List.filter_congr fun e h => by rw [fed e h]
  rw [current, sent]

/-- A quiet lane stays so while its engines, its order and its clearing phase stay. -/
theorem Quiet.congr {s t : State} {l : LaneId} (h : Quiet l s) (he : ∀ e, laneFed e = l → t.engine e = s.engine e)
    (ho : (t.lane l).floor.order = (s.lane l).floor.order) (hc : (t.lane l).clearing = (s.lane l).clearing) :
    Quiet l t := by
  rcases h with h | h
  · refine .inl fun ⟨h1, h2⟩ => h ⟨?_, ?_⟩
    · rwa [loadOf_congr (fun e hl => congrArg Engine.ctx (he e hl)) ho] at h1
    · rwa [hc] at h2
  · refine .inr fun e w hl ⟨h1, h2, h3, h4⟩ => h e w hl ⟨?_, ?_, ?_, h4⟩
    · rwa [he e hl] at h1
    · rwa [he e hl] at h2
    · rwa [he e hl] at h3

/-- How many engines of a lane have a next job that EXPOSE can be sent for. -/
def readyCount (l : LaneId) (s : State) : Nat := (allEngines.filter (feedsReady s l)).length

/-- Three engines feed a lane (R72). -/
theorem readyCount_le (l : LaneId) (s : State) : readyCount l s ≤ 3 := by
  have three : ∀ l, (allEngines.filter fun e => laneFed e = l).length = 3 := by decide
  have sub : allEngines.filter (feedsReady s l) = (allEngines.filter fun e => laneFed e = l).filter s.exposeReady := by
    rw [List.filter_filter]
    exact List.filter_congr fun e _ => Bool.and_comm _ _
  rw [readyCount, sub, ← three l]
  exact List.length_filter_le _ _

/-- With no engine ready the lane is quiet. -/
theorem quiet_of_readyCount {l : LaneId} {s : State} (h : readyCount l s = 0) : Quiet l s := by
  refine .inr fun e w hl hw => ?_
  have all : ∀ e : EngineId, e ∈ allEngines := by decide
  rw [readyCount, List.length_eq_zero_iff, List.filter_eq_nil_iff] at h
  exact h e (all e) (feedsReady_iff.mpr ⟨hl, w, hw⟩)

/-- An engine for which EXPOSE has been sent is ready no longer, and the others are as before. -/
theorem feedsReady_sendExpose (e : EngineId) (s : State) (l : LaneId) (q : EngineId) :
    feedsReady (sendExpose e s) l q = (decide (q ≠ e) && feedsReady s l q) := by
  unfold feedsReady State.exposeReady
  rw [engine_sendExpose]
  by_cases h : q = e
  · subst h
    cases (s.engine q).ctx.next <;> simp
  · simp [h]

/-- A lane is granted its room for an engine of its own that is ready. -/
theorem feedsReady_of_choice {s : State} {l : LaneId} {e : EngineId} (h : s.exposeChoice l = some e) :
    feedsReady s l e = true := by
  rw [exposeChoice_eq, Option.or_eq_some_iff] at h
  rcases h with h | ⟨_, h⟩
  · exact (Bool.and_eq_true_iff.mp (List.find?_some (p := fun e => feedsReady s l e && s.nextUrgent e) h)).1
  · exact List.find?_some h

/-- Granting a lane's room once does nothing to a lane that is quiet, and leaves fewer engines ready in another. -/
theorem exposeOnce_quiet_or (l : LaneId) (s : State) :
    (Quiet l s ∧ exposeOnce l s = s) ∨ readyCount l (exposeOnce l s) < readyCount l s := by
  by_cases hq : Quiet l s
  · exact .inl ⟨hq, exposeOnce_same hq⟩
  · right
    have room : s.laneRoom l = true := (s.laneRoom_iff_hasLaneRoom l).mpr (by_contra fun h => hq (.inl h))
    unfold exposeOnce
    rw [if_pos room]
    cases hc : s.exposeChoice l with
    | none =>
      rw [exposeChoice_eq, Option.or_eq_none_iff] at hc
      have : readyCount l s = 0 := by
        rw [readyCount, List.length_eq_zero_iff, List.filter_eq_nil_iff]
        exact List.find?_eq_none.mp hc.2
      exact absurd (quiet_of_readyCount this) hq
    | some e =>
      have all : ∀ e : EngineId, e ∈ allEngines := by decide
      have fewer : allEngines.filter (feedsReady (sendExpose e s) l) =
          (allEngines.filter (feedsReady s l)).filter fun q => decide (q ≠ e) := by
        rw [List.filter_filter]
        exact List.filter_congr fun q _ => feedsReady_sendExpose e s l q
      dsimp only
      rw [readyCount, fewer]
      exact List.length_filter_lt_length_iff_exists.mpr
        ⟨e, List.mem_filter.mpr ⟨all e, feedsReady_of_choice hc⟩, by simp⟩

/-- Once a lane's room has been granted three times, the lane is quiet. -/
theorem exposeLane_quiet (l : LaneId) (s : State) : Quiet l (exposeLane l s) := by
  unfold exposeLane
  have le := readyCount_le l s
  rcases exposeOnce_quiet_or l s with ⟨hq, h⟩ | h1
  · rw [h, h, h]; exact hq
  rcases exposeOnce_quiet_or l (exposeOnce l s) with ⟨hq, h⟩ | h2
  · rw [h, h]; exact hq
  rcases exposeOnce_quiet_or l (exposeOnce l (exposeOnce l s)) with ⟨hq, h⟩ | h3
  · rw [h]; exact hq
  · exact quiet_of_readyCount (by omega)

/-- Granting a lane's room leaves the engines of the other lane. -/
theorem engine_exposeOnce {l : LaneId} {e : EngineId} (h : laneFed e ≠ l) (s : State) :
    (exposeOnce l s).engine e = s.engine e := by
  unfold exposeOnce
  split
  · cases hc : s.exposeChoice l with
    | none => rfl
    | some q =>
      dsimp only
      rw [engine_sendExpose, if_neg]
      rintro rfl
      exact h (feedsReady_iff.mp (feedsReady_of_choice hc)).1
  · rfl

/-- A lane whose engines are left alone stays quiet while the other is granted its room. -/
theorem Quiet.exposeLane {l l' : LaneId} {s : State} (h : Quiet l s) (hne : l ≠ l') : Quiet l (exposeLane l' s) := by
  have lane : (Machine.exposeLane l' s).lane l = s.lane l := by
    unfold State.lane
    rw [(exposeLane_floor l' s).1]
  refine h.congr (fun e he => ?_) (by rw [lane]) (by rw [lane])
  have hl : laneFed e ≠ l' := by rw [he]; exact hne
  unfold Machine.exposeLane
  rw [engine_exposeOnce hl, engine_exposeOnce hl, engine_exposeOnce hl]

/-! ### The reached marks (R151, R159, R160) -/

/-- The lanes with no load have their stopped gate set (R159). -/
def rested (s : State) : State := restLane 1 (restLane 0 s)

/-- The reached marks have been written (R160). -/
def marked (s : State) : State := (rested s).setReached (engineMarks (rested s)) (laneMarks (rested s))

/-- Setting the stopped gate changes lanes only. -/
theorem restLane_lanes (l : LaneId) (s : State) : ∃ v, restLane l s = { s with lanes := v } := by
  unfold restLane
  split
  · exact ⟨_, rfl⟩
  · exact ⟨s.lanes, rfl⟩

/-- A lane with no load has its stopped gate set. -/
theorem lane_restLane (l : LaneId) (s : State) (q : LaneId) : (restLane l s).lane q =
    if q = l ∧ loadOf s l = 0 then { s.lane q with gates := { (s.lane q).gates with stopped := true } }
    else s.lane q := by
  unfold restLane
  rw [laneLoad_eq_loadOf]
  split
  next h => rw [lane_stopLane]; simp [h]
  next h => rw [if_neg fun hq => h hq.2]

/-- Resting the lanes changes lanes only. -/
theorem rested_lanes (s : State) : ∃ v, rested s = { s with lanes := v } := by
  obtain ⟨v, h⟩ := restLane_lanes 0 s
  obtain ⟨w, k⟩ := restLane_lanes 1 (restLane 0 s)
  exact ⟨w, k.trans (by rw [h])⟩

/-- A lane once the lanes with no load have their stopped gate set. -/
theorem lane_rested (s : State) (l : LaneId) : (rested s).lane l =
    { s.lane l with gates := { (s.lane l).gates with
      stopped := (s.lane l).gates.stopped || decide (loadOf s l = 0) } } := by
  have load : loadOf (restLane 0 s) 1 = loadOf s 1 := loadOf_congr
    (fun e _ => by obtain ⟨v, h⟩ := restLane_lanes 0 s; rw [h]; rfl) (by rw [lane_restLane]; rfl)
  unfold rested
  rw [lane_restLane, load, lane_restLane]
  have two : l = 0 ∨ l = 1 := by revert l; decide
  rcases two with rfl | rfl
  · by_cases h : loadOf s 0 = 0 <;> simp [h]
  · by_cases h : loadOf s 1 = 0 <;> simp [h]

/-- Resting the lanes and writing the marks changes lanes and line control only. -/
theorem marked_parts (s : State) : ∃ v x, marked s = { s with lanes := v, line := x } := by
  obtain ⟨v, h⟩ := rested_lanes s
  exact ⟨v, _, by unfold marked; rw [h]; rfl⟩

/-- A notice changes ports only. -/
theorem raise_ports (n : Notice) (s : State) : ∃ p, raise n s = { s with ports := p } := ⟨_, raise_same n s⟩

/-- The line becomes STOPPED, and the notice of it is raised (R160). -/
def comesToRest (s : State) : State := raise (.lineStopped s.line.stopTime) s.setStopped

/-- A line that comes to rest changes in its line control and the ports only. -/
theorem comesToRest_parts (s : State) :
    ∃ p, comesToRest s = { s with line := { clearMarks s.line with state := .stopped }, ports := p } :=
  raise_ports _ _

/-- What evaluating the marks of a line that is STOPPING does. -/
theorem evalReached_stopping {s : State} (h : s.line.state = .stopping) : evalReached s =
    if allAtRest (marked s) then comesToRest (marked s) else marked s := by
  unfold evalReached
  rw [if_pos h]
  rfl

/-- What evaluating the marks of a line that is not STOPPING does. -/
theorem evalReached_other {s : State} (h : s.line.state ≠ .stopping) : evalReached s = s := by
  unfold evalReached
  rw [if_neg h]

/-- Evaluating the marks changes lanes, the line control and the ports only. -/
theorem evalReached_parts (s : State) : ∃ v x p, evalReached s = { s with lanes := v, line := x, ports := p } := by
  by_cases h : s.line.state = .stopping
  · obtain ⟨v, x, hm⟩ := marked_parts s
    rw [evalReached_stopping h, hm]
    split
    · obtain ⟨p, hp⟩ := comesToRest_parts { s with lanes := v, line := x }
      exact ⟨_, _, _, hp⟩
    · exact ⟨_, _, _, rfl⟩
  · exact ⟨_, _, _, evalReached_other h⟩

/-- Evaluating the marks changes no engine. -/
theorem engine_evalReached (s : State) (e : EngineId) : (evalReached s).engine e = s.engine e := by
  obtain ⟨v, x, p, h⟩ := evalReached_parts s
  rw [h]
  rfl

/-- Coming to rest changes no lane. -/
theorem lane_comesToRest (s : State) (l : LaneId) : (comesToRest s).lane l = s.lane l := by
  obtain ⟨p, h⟩ := comesToRest_parts s
  rw [h]
  rfl

/-- The lanes once the marks of a line that is STOPPING have been evaluated. -/
theorem lane_evalReached {s : State} (h : s.line.state = .stopping) (l : LaneId) : (evalReached s).lane l =
    { s.lane l with gates := { (s.lane l).gates with
      stopped := (s.lane l).gates.stopped || decide (loadOf s l = 0) } } := by
  have lane : (marked s).lane l = (rested s).lane l := by
    unfold marked State.lane
    rw [lanes_setReached]
  rw [← lane_rested, ← lane, evalReached_stopping h]
  split
  · exact lane_comesToRest _ l
  · rfl

/-- What evaluating the marks keeps of a lane. -/
theorem lane_evalReached_keeps (s : State) (l : LaneId) :
    ((evalReached s).lane l).floor = (s.lane l).floor ∧ ((evalReached s).lane l).clearing = (s.lane l).clearing := by
  by_cases h : s.line.state = .stopping
  · rw [lane_evalReached h]
    exact ⟨rfl, rfl⟩
  · rw [evalReached_other h]
    exact ⟨rfl, rfl⟩

/-- The marks of the engines. -/
theorem reachedEngines_marked (s : State) (e : EngineId) :
    (marked s).line.reachedEngines[e] = (s.line.reachedEngines[e] || engineRests s e) := by
  obtain ⟨v, h⟩ := rested_lanes s
  have marks : (marked s).line.reachedEngines = engineMarks (rested s) := rfl
  rw [marks, engineMarks, Fin.getElem_fin, Vector.getElem_ofFn, State.engineAtRest_eq_engineRests, h]
  rfl

/-- The marks of the lanes. -/
theorem reachedLanes_marked (s : State) (l : LaneId) :
    (marked s).line.reachedLanes[l] = (s.line.reachedLanes[l] || ((rested s).lane l).gates.stopped) := by
  obtain ⟨v, h⟩ := rested_lanes s
  have marks : (marked s).line.reachedLanes = laneMarks (rested s) := rfl
  rw [marks, laneMarks, Fin.getElem_fin, Vector.getElem_ofFn, h]

/-- Every unit has its mark and the sorter is not busy. -/
theorem allAtRest_iff (s : State) : allAtRest s = true ↔ (∀ e : EngineId, s.line.reachedEngines[e] = true) ∧
    (∀ l : LaneId, s.line.reachedLanes[l] = true) ∧ s.sorter.delivery = none := by
  have engines : ∀ e : EngineId, e ∈ allEngines := by decide
  have lanes : ∀ l : LaneId, l ∈ allLanes := by decide
  unfold allAtRest
  rw [Bool.and_eq_true, Bool.and_eq_true, List.all_eq_true, List.all_eq_true, Option.isNone_iff_eq_none, and_assoc]
  exact ⟨fun ⟨h1, h2, h3⟩ => ⟨fun e => h1 e (engines e), fun l => h2 l (lanes l), h3⟩,
    fun ⟨h1, h2, h3⟩ => ⟨fun e _ => h1 e, fun l _ => h2 l, h3⟩⟩

/-! ### Serving as a whole -/

/-- What serving has done before the reached marks are evaluated. -/
def worked (s : State) : State := exposeLane 1 (exposeLane 0 (preemptAll (fillAll (evalStarved s))))

/-- Serving evaluates the reached marks last. -/
theorem serve_eq (s : State) : serve s = evalReached (worked s) := rfl

/-- The dispatcher and the engine channels leave lanes, line control and sorter alone. -/
theorem worked_floor (s : State) : FloorKept s (worked s) :=
  ((((evalStarved_floor s).trans (foldl_floor _ (fun s e => fill_floor e s) _ _)).trans
    (preemptFrom_floor _ _)).trans (exposeLane_floor 0 _)).trans (exposeLane_floor 1 _)

/-- The dispatcher and the engine channels serve the engines. -/
theorem worked_serves {s : State} (hs : JobsOrdered s) : Serves s (worked s) := by
  have starved := evalStarved_serves s
  have hs1 := Serves.jobs_ordered hs starved
  have filled := fillAll_serves hs1
  have hs2 := Serves.jobs_ordered hs1 filled
  exact (((starved.trans filled).trans (preemptAll_serves hs2)).trans (exposeLane_serves 0 _)).trans
    (exposeLane_serves 1 _)

/-- Once the engines have been served none can be given more work, and no EXPOSE can be sent (R81, R85, R86). -/
theorem serve_served {s : State} (hs : JobsOrdered s) : Served (serve s) := by
  have hs1 := Serves.jobs_ordered hs (evalStarved_serves s)
  have hs2 := Serves.jobs_ordered hs1 (fillAll_serves hs1)
  have marks := evalReached_serves (worked s)
  rw [serve_eq]
  refine ⟨fun e n j hnext hoff hel => ?_, fun e w hw hroom => ?_⟩
  · have given : GivenAt (worked s) e := by
      have h0 := (fillAll_givenAt hs1 e).kept (preemptAll_serves hs2).kept (preemptFrom_nextKept _ _)
      have h1 := h0.kept (exposeLane_serves 0 _).kept (exposeLane_nextKept 0 _)
      exact h1.kept (exposeLane_serves 1 _).kept (exposeLane_nextKept 1 _)
    exact given.kept marks.kept (fun q hq => by rwa [engine_evalReached] at hq) n j hnext hoff hel
  · have quiet : ∀ l, Quiet l (worked s) := by
      intro l
      have two : l = 0 ∨ l = 1 := by revert l; decide
      rcases two with rfl | rfl
      · exact (exposeLane_quiet 0 _).exposeLane (by decide)
      · exact exposeLane_quiet 1 _
    have keeps := lane_evalReached_keeps (worked s) (laneFed e)
    have := (quiet (laneFed e)).congr (t := evalReached (worked s)) (fun e _ => engine_evalReached _ e)
      (by rw [keeps.1]) keeps.2
    rcases this with h | h
    · exact h hroom
    · exact h e w rfl hw

/-- An engine's rest is not changed by evaluating the marks. -/
theorem engineRests_evalReached (s : State) (e : EngineId) : engineRests (evalReached s) e = engineRests s e := by
  unfold engineRests
  rw [engine_evalReached]

/-- Whether a lane has its stopped gate set once the marks of a line that is STOPPING have been evaluated. -/
theorem stopped_evalReached {s : State} (h : s.line.state = .stopping) (l : LaneId) :
    ((evalReached s).lane l).gates.stopped = ((rested s).lane l).gates.stopped := by
  rw [lane_evalReached h, lane_rested]

/-- A lane's load is not changed by evaluating the marks. -/
theorem loadOf_evalReached (s : State) (l : LaneId) : loadOf (evalReached s) l = loadOf s l :=
  loadOf_congr (fun e _ => by rw [engine_evalReached]) (by rw [(lane_evalReached_keeps s l).1])

/-- Every unit is counted as having reached rest, and the sorter is not busy, once the marks of a line that was STOPPING
have been evaluated (R160). -/
structure AllReached (s t : State) : Prop where
  engines : ∀ e : EngineId, (s.line.reachedEngines[e] || engineRests t e) = true
  lanes : ∀ l : LaneId, (s.line.reachedLanes[l] || (t.lane l).gates.stopped) = true
  sorter : t.sorter.delivery = none

/-- The marks of a line that is STOPPING are all set when every unit counts as having reached rest. -/
theorem allAtRest_marked {s : State} (h : s.line.state = .stopping) :
    allAtRest (marked s) = true ↔ AllReached s (evalReached s) := by
  obtain ⟨v, x, p, hp⟩ := evalReached_parts s
  obtain ⟨w, y, hm⟩ := marked_parts s
  have sorter : (marked s).sorter = (evalReached s).sorter := by rw [hp, hm]
  rw [allAtRest_iff, sorter]
  simp only [reachedEngines_marked, reachedLanes_marked, ← engineRests_evalReached s, ← stopped_evalReached h]
  exact ⟨fun ⟨h1, h2, h3⟩ => ⟨h1, h2, h3⟩, fun ⟨h1, h2, h3⟩ => ⟨h1, h2, h3⟩⟩

/-- A line that comes to rest is STOPPED, with its notice, and keeps no mark (R151, R160). -/
theorem evalReached_rests {s : State} (h : s.line.state = .stopping) (hr : AllReached s (evalReached s)) :
    (evalReached s).line.state = .stopped ∧ Told (.lineStopped s.line.stopTime) s (evalReached s) ∧
      (∀ e : EngineId, (evalReached s).line.reachedEngines[e] = false) ∧
      ∀ l : LaneId, (evalReached s).line.reachedLanes[l] = false := by
  have eq : evalReached s = comesToRest (marked s) := by
    rw [evalReached_stopping h, if_pos ((allAtRest_marked h).mpr hr)]
  obtain ⟨p, hp⟩ := comesToRest_parts (marked s)
  obtain ⟨v, hv⟩ := rested_lanes s
  have stopTime : (marked s).line.stopTime = s.line.stopTime := by
    unfold marked
    rw [hv]
    rfl
  obtain ⟨w, y, hm⟩ := marked_parts s
  refine ⟨by rw [eq, hp], ?_, fun e => by rw [eq, hp]; simp [clearMarks], fun l => by rw [eq, hp]; simp [clearMarks]⟩
  rw [eq, ← stopTime]
  refine (told_raise _ (marked s).setStopped).since (.of_eq ?_) ?_
  · rw [hm]
    rfl
  · rw [hm]
    rfl

/-- A line in which something is still to come to rest is STOPPING, with the marks of those that have (R160). -/
theorem evalReached_waits {s : State} (h : s.line.state = .stopping) (hr : ¬ AllReached s (evalReached s)) :
    (evalReached s).line.state = .stopping ∧
      (∀ e : EngineId, (evalReached s).line.reachedEngines[e] =
        (s.line.reachedEngines[e] || engineRests (evalReached s) e)) ∧
      ∀ l : LaneId, (evalReached s).line.reachedLanes[l] =
        (s.line.reachedLanes[l] || ((evalReached s).lane l).gates.stopped) := by
  have eq : evalReached s = marked s := by
    rw [evalReached_stopping h, if_neg fun ha => hr ((allAtRest_marked h).mp ha)]
  obtain ⟨v, hv⟩ := rested_lanes s
  refine ⟨?_, fun e => ?_, fun l => ?_⟩
  · rw [eq]
    unfold marked
    rw [hv]
    exact h
  · rw [engineRests_evalReached, eq, reachedEngines_marked]
  · rw [stopped_evalReached h, eq, reachedLanes_marked]

/-- Settles O30: the condition that is judged first, what serving keeps, that nothing more can be given out, and the
marks of a line that is STOPPING. -/
theorem enginesServed : Obligations.EnginesServed := by
  intro s htab
  have starved := colourStarvedNow_iff htab.jobs
  obtain ⟨hlanes, hline, -⟩ := worked_floor s
  have hlane : ∀ l, (worked s).lane l = s.lane l := fun l => by
    unfold State.lane
    rw [hlanes]
  have hserves := worked_serves htab.jobs
  obtain ⟨hkept, hports⟩ := serve_kept htab.jobs
  have served := serve_served htab.jobs
  have stopped (hs : s.line.state = .stopping) (l : LaneId) :
      ((serve s).lane l).gates.stopped = ((s.lane l).gates.stopped || decide (loadOf (serve s) l = 0)) := by
    rw [serve_eq, lane_evalReached (by rw [hline]; exact hs), hlane, loadOf_evalReached]
  have rests (hs : s.line.state = .stopping) := evalReached_rests (s := worked s) (by rw [hline]; exact hs)
  have waits (hs : s.line.state = .stopping) := evalReached_waits (s := worked s) (by rw [hline]; exact hs)
  rw [← serve_eq, hline] at rests waits
  generalize serve s = u at *
  intro t engineMark laneMark reached
  have hall : AllReached (worked s) u ↔ reached := by
    refine ⟨fun ⟨h1, h2, h3⟩ => ⟨fun e => ?_, fun l => ?_, h3⟩, fun ⟨h1, h2, h3⟩ => ⟨fun e => ?_, fun l => ?_, h3⟩⟩
    · have := h1 e; rwa [hline] at this
    · have := h2 l; rwa [hline] at this
    · rw [hline]; exact h1 e
    · rw [hline]; exact h2 l
  refine ⟨fun h => ?_, fun h hf => ?_, fun h hf => ?_, hkept, hports, served,
    fun hs => ⟨stopped hs, fun hr => ?_, fun hr => waits hs fun h => hr (hall.mp h)⟩, fun hs hrest => ?_⟩
  · rw [evalStarved, if_neg fun hn => h (starved.mp hn)]
  · rw [evalStarved, if_pos (starved.mpr h), if_pos hf]
  · rw [evalStarved, if_pos (starved.mpr h), if_neg (by rw [hf]; exact Bool.false_ne_true)]
    rfl
  · obtain ⟨h1, h2, h3⟩ := rests hs (hall.mpr hr)
    exact ⟨h1, h2.since hserves.ports_kept hserves.kept.clock, h3⟩
  · obtain ⟨he, hl, hd⟩ := hrest
    have hs0 : s.line.state = .stopping := by
      rcases hkept.lineState with h | ⟨h, -⟩
      · rw [← h]; exact hs
      · exact h
    have hr : reached := ⟨fun e => by simp [engineMark, t, he e], fun l => by simp [laneMark, t, hl l], hd⟩
    have stopped : t.line.state = .stopped := (rests hs0 (hall.mpr hr)).1
    rw [stopped] at hs
    cases hs

end Sys2Proof.Machine
end

section
/-! What the job table does with a job that an engine's fault names does not look at the engines, but for the
colour-starved condition (R91, R106): it is a chain of reactions whatever records stand in the place of the engines'. So
the engine's record may as well have changed before. -/

namespace Sys2Proof.Machine

open State

variable {D : Nat → Prop}

/-- The state with other records in the place of the engines'. -/
def withEngines (E : Vector Engine 6) (s : State) : State := { s with engines := E }

namespace WithEngines

variable (E : Vector Engine 6) (s : State)

/-! ### What is read -/

@[simp] theorem clock : (withEngines E s).clock = s.clock := rfl
@[simp] theorem pages : (withEngines E s).pages = s.pages := rfl
@[simp] theorem slots : (withEngines E s).slots = s.slots := rfl
@[simp] theorem plan : (withEngines E s).plan = s.plan := rfl
@[simp] theorem jobs : (withEngines E s).jobs = s.jobs := rfl
@[simp] theorem job? (n : Nat) : (withEngines E s).job? n = s.job? n := rfl
@[simp] theorem page? (n : Nat) : (withEngines E s).page? n = s.page? n := rfl
@[simp] theorem pos? (k : PosKey) : (withEngines E s).pos? k = s.pos? k := rfl
@[simp] theorem slot? (k : SlotKey) : (withEngines E s).slot? k = s.slot? k := rfl
@[simp] theorem press (x : PressId) : (withEngines E s).press x = s.press x := rfl
@[simp] theorem port (q : PortId) : (withEngines E s).port q = s.port q := rfl
@[simp] theorem satisfied (x : Position) : (withEngines E s).satisfied x = s.satisfied x := rfl
@[simp] theorem positionsNaming (n : Nat) : (withEngines E s).positionsNaming n = s.positionsNaming n := rfl
@[simp] theorem slotsOfPage (n : Nat) : Machine.slotsOfPage (withEngines E s) n = Machine.slotsOfPage s n := rfl
@[simp] theorem nextNumber : Machine.nextNumber (withEngines E s) = Machine.nextNumber s := rfl
@[simp] theorem newJob (k : PosKey) (x : Position) : Machine.newJob (withEngines E s) k x = Machine.newJob s k x := rfl
@[simp] theorem needsJob (x : Position) : Machine.needsJob (withEngines E s) x = Machine.needsJob s x := rfl
@[simp] theorem deferredOrder : Machine.deferredOrder (withEngines E s) = Machine.deferredOrder s := rfl

end WithEngines

section

variable (E : Vector Engine 6) (s : State)

/-! ### What is written -/

@[simp] theorem modJob_withEngines (n : Nat) (f : Job → Job) :
    (withEngines E s).modJob n f = withEngines E (s.modJob n f) := (rfl)
@[simp] theorem addJob_withEngines (n : Nat) (j : Job) :
    (withEngines E s).addJob n j = withEngines E (s.addJob n j) := (rfl)
@[simp] theorem dropJob_withEngines (n : Nat) : (withEngines E s).dropJob n = withEngines E (s.dropJob n) := (rfl)
@[simp] theorem bumpEntry_withEngines : (withEngines E s).bumpEntry = withEngines E s.bumpEntry := (rfl)
@[simp] theorem modWork_withEngines (k : PosKey) (f : PosWork → PosWork) :
    (withEngines E s).modWork k f = withEngines E (s.modWork k f) := (rfl)
@[simp] theorem modLive_withEngines (n : Nat) (f : Nat → Nat) :
    (withEngines E s).modLive n f = withEngines E (s.modLive n f) := (rfl)
@[simp] theorem dropPage_withEngines (n : Nat) : (withEngines E s).dropPage n = withEngines E (s.dropPage n) := (rfl)
@[simp] theorem modCount_withEngines (k : SlotKey) (f : Nat → Nat) :
    (withEngines E s).modCount k f = withEngines E (s.modCount k f) := (rfl)
@[simp] theorem dropSlot_withEngines (k : SlotKey) : (withEngines E s).dropSlot k = withEngines E (s.dropSlot k) := (rfl)
@[simp] theorem setPressState_withEngines (x : PressId) (st : PressState) :
    (withEngines E s).setPressState x st = withEngines E (s.setPressState x st) := (rfl)
@[simp] theorem setUnsatisfied_withEngines (x : PressId) (n : Nat) :
    (withEngines E s).setUnsatisfied x n = withEngines E (s.setUnsatisfied x n) := (rfl)
@[simp] theorem setStarved_withEngines (b : Bool) :
    (withEngines E s).setStarved b = withEngines E (s.setStarved b) := (rfl)
@[simp] theorem modLink_withEngines (p : PortId) (f : Link → Link) :
    (withEngines E s).modLink p f = withEngines E (s.modLink p f) := (rfl)

/-- A choice between two states with the same records. -/
@[simp] theorem ite_withEngines (c : Prop) {d : Decidable c} (t : State) :
    (if c then withEngines E s else withEngines E t) = withEngines E (if c then s else t) :=
  (apply_ite (withEngines E) c s t).symm

/-- A fold of what does not look at the engines does not. -/
@[simp] theorem foldl_withEngines {α : Type} (f : State → α → State)
    (h : ∀ s a, f (withEngines E s) a = withEngines E (f s a)) (l : List α) :
    l.foldl f (withEngines E s) = withEngines E (l.foldl f s) := by
  induction l generalizing s with
  | nil => rfl
  | cons a l ih => rw [List.foldl_cons, List.foldl_cons, h, ih]

/-- Offering a notice. -/
@[simp] theorem offerTo_withEngines (n : Notice) (q : PortId) :
    offerTo n q (withEngines E s) = withEngines E (offerTo n q s) := by
  unfold offerTo
  rw [WithEngines.port]
  simp

/-- Raising a notice. -/
@[simp] theorem raise_withEngines (n : Notice) : raise n (withEngines E s) = withEngines E (raise n s) := by
  simp [raise]

/-! ### The job table -/

/-- Freeing a slot. -/
@[simp] theorem freeIfDone_withEngines (k : SlotKey) :
    freeIfDone k (withEngines E s) = withEngines E (freeIfDone k s) := by
  unfold freeIfDone
  rw [WithEngines.slot?]
  split <;> simp

/-- Releasing references. -/
@[simp] theorem releaseRefs_withEngines (ks : List SlotKey) :
    releaseRefs ks (withEngines E s) = withEngines E (releaseRefs ks s) := by
  simp [releaseRefs, releaseRef]

/-- Taking references. -/
@[simp] theorem takeRefs_withEngines (ks : List SlotKey) :
    takeRefs ks (withEngines E s) = withEngines E (takeRefs ks s) := by
  simp [takeRefs, takeRef]

/-- Judging a press by its counts. -/
@[simp] theorem evalPress_withEngines (p : PressId) :
    evalPress p (withEngines E s) = withEngines E (evalPress p s) := by
  unfold evalPress
  simp only [WithEngines.press, setPressState_withEngines]
  rw [apply_ite (withEngines E)]
  congr 1
  split <;> simp

/-- Telling a position's standing. -/
@[simp] theorem tellSatisfied_withEngines (k : PosKey) :
    tellSatisfied k (withEngines E s) = withEngines E (tellSatisfied k s) := by
  unfold tellSatisfied
  rw [WithEngines.pos?]
  split
  · rfl
  · rw [WithEngines.satisfied, WithEngines.press]
    simp

/-- Telling several. -/
@[simp] theorem tellAll_withEngines (ks : List PosKey) :
    tellAll ks (withEngines E s) = withEngines E (tellAll ks s) := by
  simp [tellAll]

/-- Removing a page. -/
@[simp] theorem removePage_withEngines (n : Nat) (r : PageRec) :
    removePage n r (withEngines E s) = withEngines E (removePage n r s) := by
  simp [removePage]

/-- Lowering a live-job count. -/
@[simp] theorem lowerLive_withEngines (n : Nat) :
    lowerLive n (withEngines E s) = withEngines E (lowerLive n s) := by
  unfold lowerLive
  rw [modLive_withEngines]
  dsimp only
  rw [WithEngines.page?]
  split <;> simp

/-- Creating a job. -/
@[simp] theorem createJob_withEngines (k : PosKey) (x : Position) :
    createJob k x (withEngines E s) = withEngines E (createJob k x s) := by
  simp [createJob]

/-- Testing a need. -/
@[simp] theorem needTest_withEngines (k : PosKey) :
    needTest k (withEngines E s) = withEngines E (needTest k s) := by
  unfold needTest
  rw [WithEngines.pos?]
  split
  · rfl
  · rw [WithEngines.needsJob, WithEngines.jobs]
    simp

/-- Taking references again. -/
@[simp] theorem retakeRefs_withEngines (j : Job) :
    retakeRefs j (withEngines E s) = withEngines E (retakeRefs j s) := by
  unfold retakeRefs
  simp

/-- Entering the queue. -/
@[simp] theorem enterQueue_withEngines (n a : Nat) :
    enterQueue n a (withEngines E s) = withEngines E (enterQueue n a s) := (rfl)

/-- Returning a job to its queue. -/
@[simp] theorem requeue_withEngines (n a : Nat) (why : RequeueReason) (f : Option FaultRecord) :
    requeue n a why f (withEngines E s) = withEngines E (requeue n a why f s) := by
  unfold requeue
  rw [WithEngines.job?]
  split <;> simp

/-- Failing a job. -/
@[simp] theorem failJob_withEngines (n : Nat) : failJob n (withEngines E s) = withEngines E (failJob n s) := by
  unfold failJob
  rw [WithEngines.job?]
  split
  · rfl
  · dsimp only
    split <;> simp

/-- Spoiling a plate. -/
@[simp] theorem spoilDecision_withEngines (n : Nat) :
    spoilDecision n (withEngines E s) = withEngines E (spoilDecision n s) := by
  unfold spoilDecision
  rw [WithEngines.job?]
  split
  · rfl
  · dsimp only
    split
    · split <;> simp
    · simp

end

/-! ### Chains of reactions that do not look at the engines -/

/-- What happens is a chain of reactions whatever records stand in the place of the engines'. -/
def Blindly (D : Nat → Prop) (s t : State) : Prop := ∀ E, Reacts D (withEngines E s) (withEngines E t)

/-- Nothing happens. -/
theorem Blindly.refl (s : State) : Blindly D s s := fun _ => .refl

/-- One after another. -/
theorem Blindly.trans {s t u : State} (h : Blindly D s t) (k : Blindly D t u) : Blindly D s u :=
  fun E => (h E).trans (k E)

/-- An operation that does not look at the engines, and is a chain of reactions. -/
theorem Blindly.of_comm (f : State → State) (s : State) (hr : ∀ s, Reacts D s (f s))
    (hc : ∀ E, f (withEngines E s) = withEngines E (f s)) : Blindly D s (f s) := fun E => by
  rw [← hc E]
  exact hr _

/-- The job table's order is no business of the engines. -/
theorem Blindly.jobs_ordered {s t : State} (hs : JobsOrdered s) (h : Blindly D s t) : JobsOrdered t :=
  Reacts.jobs_ordered (t := withEngines s.engines t) (s := withEngines s.engines s) hs (h s.engines)

/-- Judging the colour-starved condition: the notice and the mark. -/
theorem evalStarved_blindly (s : State) : Blindly D s (evalStarved s) := by
  intro E
  unfold evalStarved
  have mark (b : Bool) : Reacts D (withEngines E s) (withEngines E (s.setStarved b)) :=
    (ReactStep.serve (ServeStep.starved (withEngines E s) b)).reacts
  split
  · split
    · exact .refl
    · rw [← raise_withEngines]
      exact (mark true).trans (raise_reacts _ _)
  · exact mark false

/-- The first four steps of a departure. -/
theorem departCore_blindly (n : Nat) (terminal : JobState) (s : State) (ht : terminal ≠ .uncertain) (hD : D n) :
    Blindly D s (departCore n terminal s) := by
  unfold departCore
  cases s.job? n with
  | none => exact .refl s
  | some j =>
    have ends : Blindly D s (s.modJob n fun x => { x with state := terminal }) := fun E =>
      (ReactStep.job (withEngines E s) n (fun x => { x with state := terminal }) hD
        fun j _ => ⟨rfl, rfl, rfl, rfl, rfl, rfl, rfl, rfl, id, fun h => absurd h ht⟩).reacts
    refine ends.trans ?_
    generalize s.modJob n (fun x => { x with state := terminal }) = s0
    dsimp only
    have judged : Blindly D s0 (if j.state = .queued then evalStarved s0 else s0) := by
      split
      · exact evalStarved_blindly s0
      · exact .refl s0
    refine judged.trans ?_
    generalize (if j.state = .queued then evalStarved s0 else s0) = s1
    have released : Blindly D s1 (if j.state.holdsRefs then releaseRefs j.slots s1 else s1) := by
      split
      · exact .of_comm _ s1 (releaseRefs_reacts _) fun E => releaseRefs_withEngines E s1 _
      · exact .refl s1
    refine released.trans ?_
    generalize (if j.state.holdsRefs then releaseRefs j.slots s1 else s1) = s2
    have lowered : Blindly D s2 ((j.pages.map Prod.fst).foldl (fun s p => lowerLive p s) s2) :=
      .of_comm (fun s => (j.pages.map Prod.fst).foldl (fun s p => lowerLive p s) s) s2
        (fun s => foldl_chain _ _ _ fun s p _ => lowerLive_reacts p s)
        fun E => by simp
    refine lowered.trans ?_
    generalize (j.pages.map Prod.fst).foldl (fun s p => lowerLive p s) s2 = s3
    have renewed (b : Bool) : Blindly D s3
        (if b = true then evalStarved (needTest j.key (s3.modWork j.key fun w => { w with current := none }))
          else s3) := by
      split
      · refine Blindly.trans (.of_comm (fun s => needTest j.key (s.modWork j.key fun w => { w with current := none })) s3
          (fun s => (ReactStep.work s _ _ (by exact fun _ => rfl)).reacts.trans (needTest_reacts _ _)) fun E => ?_)
          (evalStarved_blindly _)
        simp
      · exact .refl s3
    refine (renewed (match s3.pos? j.key with
      | some x => decide (x.work.current = some n)
      | none => false)).trans ?_
    generalize (if (match s3.pos? j.key with
      | some x => decide (x.work.current = some n)
      | none => false) = true then _ else s3) = s4
    refine Blindly.trans (.of_comm (raise (.jobEnded n j.key terminal j.lastFault)) s4 (raise_reacts _)
      fun E => raise_withEngines E s4 _) ?_
    generalize raise (.jobEnded n j.key terminal j.lastFault) s4 = s5
    refine Blindly.trans (.of_comm (fun s => tellSatisfied j.key (s.dropJob n)) s5
      (fun s => (ReactStep.dropJob s n hD).reacts.trans (tellSatisfied_reacts _ _)) fun E => by simp) ?_
    exact .of_comm (fun s => (j.pages.map Prod.fst).foldl (fun s p => tellAll (s.positionsNaming p) s) s) _
      (fun s => foldl_chain _ _ _ fun s p _ => tellAll_reacts _ s)
      fun E => by simp

/-- Serving deferred positions, judging the condition after each creation. -/
theorem serveFrom_blindly (l : List PosKey) (s : State) : Blindly D s (serveFrom evalStarved l s) := by
  induction l generalizing s with
  | nil => exact .refl s
  | cons k l ih =>
    have tested : Blindly D s (needTest k s) :=
      .of_comm (needTest k) s (needTest_reacts k) fun E => needTest_withEngines E s k
    simp only [serveFrom]
    split
    · split
      · exact (tested.trans (evalStarved_blindly _)).trans (ih _)
      · exact tested.trans (evalStarved_blindly _)
    · exact tested.trans (ih _)

/-- A departure whole, with the condition judged at its end. -/
theorem departBy_blindly (n : Nat) (terminal : JobState) (s : State) (ht : terminal ≠ .uncertain) (hD : D n) :
    Blindly D s (departBy evalStarved n terminal s) :=
  ((departCore_blindly n terminal s ht hD).trans (serveFrom_blindly _ _)).trans (evalStarved_blindly _)

/-- Recording a fault. -/
theorem recordFault_blindly (n : Nat) (c : FaultCause) (p : FaultParam) (s : State) (hD : D n) :
    Blindly D s (recordFault n c p s) :=
  .of_comm (recordFault n c p) s (fun s => recordFault_reacts n c p s hD) fun _ => rfl

/-- The job that a fault names returns to its queue, or ends (R91 step 1). -/
theorem namedReturns_blindly (e : EngineId) (n : Nat) (c : FaultCause) (s : State) (hD : D n) :
    Blindly D s (namedReturns e n c s) := by
  refine Blindly.trans ?_ (evalStarved_blindly _)
  unfold returnByFaultBy
  refine (recordFault_blindly n c (.engine e) s hD).trans ?_
  generalize recordFault n c (.engine e) s = s1
  dsimp only
  cases hj : s1.job? n with
  | none => exact .refl s1
  | some j =>
    dsimp only
    split
    · exact departBy_blindly n .cancelled s1 (by decide) hD
    · intro E
      rw [← requeue_withEngines]
      exact requeue_reacts _ _ _ _ _ (sameAttempt hj) hD

/-- The job that a fault names is spoiled, or ends (R91 step 1). -/
theorem namedSpoils_blindly (e : EngineId) (n : Nat) (c : FaultCause) (s : State) (hD : D n) :
    Blindly D s (namedSpoils e n c s) := by
  refine Blindly.trans ?_ (evalStarved_blindly _)
  unfold spoilBy
  refine (recordFault_blindly n c (.engine e) s hD).trans ?_
  generalize recordFault n c (.engine e) s = s1
  dsimp only
  cases s1.job? n with
  | none => exact .refl s1
  | some j =>
    dsimp only
    split
    · exact departBy_blindly n .discarded s1 (by decide) hD
    · exact .of_comm (spoilDecision n) s1 (fun s => spoilDecision_reacts n s hD) fun E => spoilDecision_withEngines E s1 n

end Sys2Proof.Machine
end

section
/-! What an engine fault does (R90, R91, R106): the state once the jobs have left their contexts and the engine's record
is set is the one that `afterFault` writes out, and all that follows is a chain of reactions to it. -/

namespace Sys2Proof.Machine

open State

variable {D : Nat → Prop}

/-! ### The jobs that a reaction takes -/

/-- A step that takes some jobs is one that takes more. -/
theorem ReactStep.widen {D' : Nat → Prop} (h : ∀ n, D n → D' n) {s t : State} (k : ReactStep D s t) :
    ReactStep D' s t := by
  cases k with
  | serve k => exact .serve k
  | job n f hD hf => exact .job s n f (h n hD) hf
  | addJob n j hl hq hc hf => exact .addJob s n j hl hq hc hf
  | dropJob n hD => exact .dropJob s n (h n hD)
  | bump => exact .bump s
  | work k f hf => exact .work s k f hf
  | live n f => exact .live s n f
  | dropPage n r hr hw => exact .dropPage s n r hr hw
  | count k f => exact .count s k f
  | dropSlot k hk => exact .dropSlot s k hk
  | pressState p st hp hst => exact .pressState s p st hp hst
  | unsatisfied p n => exact .unsatisfied s p n
  | ctx e f hf => exact .ctx s e f hf
  | floor l f hf hx => exact .floor s l f hf hx
  | laneStep l hx => exact .laneStep s l hx
  | sorterStep l hx => exact .sorterStep s l hx
  | deliver d hd hr hx => exact .deliver s d hd hr hx
  | send c => exact .send s c

/-- A chain of reactions that takes some jobs is one that takes more. -/
theorem Reacts.widen {D' : Nat → Prop} (h : ∀ n, D n → D' n) {s t : State} (k : Reacts D s t) : Reacts D' s t :=
  Relation.ReflTransGen.mono (p := ReactStep D') (fun _ _ step => ReactStep.widen h step) _ _ k

/-! ### Notices in order -/

/-- The ports and the clock of the two states are the same. -/
def SameDesk (s t : State) : Prop := t.ports = s.ports ∧ t.clock = s.clock

/-- Nothing happens. -/
theorem SameDesk.refl (s : State) : SameDesk s s := ⟨rfl, rfl⟩

/-- One after another. -/
theorem SameDesk.trans {s t u : State} (h : SameDesk s t) (k : SameDesk t u) : SameDesk s u :=
  ⟨k.1.trans h.1, k.2.trans h.2⟩

/-- The ports are told the same wherever they and the clock are the same. -/
theorem SameDesk.raise {s t : State} (h : SameDesk s t) (n : Notice) : SameDesk (raise n s) (raise n t) := by
  have hport : ∀ q, t.port q = s.port q := fun q => by unfold State.port; rw [h.1]
  refine ⟨Vector.ext fun i hi => ?_, ?_⟩
  · have hq := port_raise n t ⟨i, hi⟩
    rw [hport, h.2, ← port_raise n s ⟨i, hi⟩] at hq
    exact hq
  · rw [raise_same n s, raise_same n t]
    exact h.2

/-- The same of several notices. -/
theorem SameDesk.raiseAll {s t : State} (h : SameDesk s t) (ns : List Notice) :
    SameDesk (raiseAll ns s) (raiseAll ns t) := by
  induction ns generalizing s t with
  | nil => exact h
  | cons n ns ih => exact ih (h.raise n)

/-- Notices one after another. -/
theorem raiseAll_append (a b : List Notice) (s : State) : raiseAll (a ++ b) s = raiseAll b (raiseAll a s) := by
  induction a generalizing s with
  | nil => rfl
  | cons n a ih => exact ih (Machine.raise n s)

/-- Notices that the ports have been told by now are told, whatever follows. -/
theorem SameDesk.tells {ns : List Notice} {s t u v : State} (h : SameDesk s u) (hu : SameDesk (Machine.raiseAll ns u) t)
    (hv : PortsKept t v) : Tells ns s v := by
  have told : Tells ns s t := by
    intro q hq ho
    obtain ⟨l, hl⟩ := tells_raiseAll ns s q hq ho
    have : t.port q = (Machine.raiseAll ns s).port q := by
      unfold State.port
      rw [hu.1, (h.raiseAll ns).1]
    exact ⟨l, by rw [this]; exact hl⟩
  exact told.kept hv

/-! ### The notice of the colour-starved condition (R106) -/

/-- The notice that judging the condition raises. -/
def starvedNotice (s : State) : List Notice :=
  if s.colourStarvedNow = true ∧ s.starved = false then [.colourStarved s.runningEngines s.colourQueued] else []

/-- Judging the condition raises its notice and nothing else. -/
theorem evalStarved_desk (s : State) : SameDesk (raiseAll (starvedNotice s) s) (evalStarved s) := by
  unfold evalStarved starvedNotice
  cases hs : s.colourStarvedNow with
  | false => exact ⟨rfl, rfl⟩
  | true =>
    cases hf : s.starved with
    | true => exact ⟨rfl, rfl⟩
    | false => exact SameDesk.raise (s := s) (t := s.setStarved true) ⟨rfl, rfl⟩ _

section Filter

variable {α : Type}

/-- Changing an entry leaves the others as they were. -/
theorem filter_tmod_other (t : Table Nat α) (n : Nat) (f : α → α) (p : Nat × α → Bool) :
    (tmod t n f).filter (fun e => e.1 ≠ n && p e) = t.filter fun e => e.1 ≠ n && p e := by
  induction t with
  | nil => rfl
  | cons e t ih =>
    unfold tmod at ih ⊢
    simp only [ne_eq, decide_not] at ih ⊢
    by_cases h : e.1 = n <;> simp [h, List.filter_cons, ih]

/-- How many entries pass a test: those of the other keys, and that of one key. -/
theorem length_filter_at {t : Table Nat α} (ht : Table.ordered id t) (n : Nat) (p : Nat × α → Bool) :
    (t.filter p).length = (t.filter fun e => e.1 ≠ n && p e).length + ((tget t n).any fun v => p (n, v)).toNat := by
  have hn := keys_nodup ht
  clear ht
  induction t with
  | nil => rfl
  | cons e t ih =>
    obtain ⟨m, v⟩ := e
    rw [List.map_cons, List.nodup_cons] at hn
    have tail := ih hn.2
    by_cases hm : m = n
    · subst hm
      have none : tget t m = none := by
        cases hg : tget t m with
        | none => rfl
        | some w => exact absurd (List.mem_map_of_mem (f := Prod.fst) (mem_of_tget hg)) hn.1
      rw [none] at tail
      have here : tget ((m, v) :: t) m = some v := by simp [tget]
      rw [here]
      cases hp : p (m, v) <;> simp [hp] at tail ⊢ <;> exact tail
    · have here : tget ((m, v) :: t) n = tget t n := by simp [tget, hm]
      rw [here]
      cases hp : p (m, v)
      · simpa [List.filter_cons, hm, hp] using tail
      · simp only [List.filter_cons, hm, hp, ne_eq, not_false_eq_true, decide_true, Bool.true_and, if_true,
          List.length_cons] at tail ⊢
        omega

end Filter

/-- The notice of the condition where one job has changed and the engines run as before. -/
theorem starvedNotice_eq {s t : State} {n : Nat} {f : Job → Job} {j : Job} (hs : JobsOrdered s)
    (hj : s.job? n = some j) (hjobs : t.jobs = tmod s.jobs n f)
    (hmode : ∀ e, (t.engine e).status.mode = (s.engine e).status.mode) (hreg : t.registers = s.registers)
    (hstarved : t.starved = s.starved) : starvedNotice t =
      starvedNotices s n (decide ((f j).state = .queued) && decide ((f j).colourNeed = .colour)) := by
  have running : t.runningEngines = allEngines.filter fun e => (s.engine e).status.mode = .running := by
    unfold State.runningEngines
    exact List.filter_congr fun e _ => by rw [hmode]
  have queued : t.colourQueued =
      (s.jobs.filter fun e => e.1 ≠ n && e.2.state = .queued && e.2.colourNeed = .colour).length +
        (decide ((f j).state = .queued) && decide ((f j).colourNeed = .colour)).toNat := by
    have ordered : Table.ordered id (tmod s.jobs n f) := ordered_tmod _ _ hs
    have here : tget (tmod s.jobs n f) n = some (f j) := by
      rw [tget_tmod, if_pos rfl]
      exact congrArg (Option.map f) hj
    unfold State.colourQueued
    rw [hjobs, length_filter_at ordered n, filter_tmod_other, here]
    simp [Bool.and_assoc]
  have drifted : t.runningEngines.all (fun e => (t.register e).state = .drifted) = true ↔
      ∀ e ∈ allEngines.filter fun e => (s.engine e).status.mode = .running, (s.register e).state = .drifted := by
    unfold State.register
    rw [running, hreg]
    simp [← imp_iff_not_or]
  unfold starvedNotice starvedNotices State.colourStarvedNow
  dsimp only
  rw [hstarved, ← queued, ← running] at *
  refine if_congr ?_ rfl rfl
  rw [Bool.and_eq_true, Bool.and_eq_true, drifted, decide_eq_true_eq, decide_eq_true_eq, Nat.pos_iff_ne_zero]
  tauto

/-! ### The engine's record at a fault (R91) -/

/-- A command takes a job out of its engine: the cancel list names it, and the command is sent. -/
theorem cancelJob_eq (e : EngineId) (n : Nat) (cmd : CancelCommand) (s : State) : cancelJob e n cmd s =
    { s with
      engines := vmod s.engines e fun x =>
        { x with ctx := { x.ctx with cancel := joinCancel x.ctx.cancel [⟨n, (s.attemptOf n).getD 0, cmd⟩] } }
      lineSent := s.lineSent ++ [commandFor e ⟨n, (s.attemptOf n).getD 0, cmd⟩] } := by
  cases cmd <;> rfl

/-- The state with a change of an engine's record and more commands sent. -/
def leaves (e : EngineId) (f : Engine → Engine) (l : List LineCommand) (s : State) : State :=
  { s with engines := vmod s.engines e f, lineSent := s.lineSent ++ l }

/-- One change after another. -/
theorem leaves_leaves (e : EngineId) (f g : Engine → Engine) (l m : List LineCommand) (s : State) :
    leaves e g m (leaves e f l s) = leaves e (fun x => g (f x)) (l ++ m) s := by
  unfold leaves
  simp only [vmod_vmod, List.append_assoc]

/-- An engine whose record changes. -/
theorem engine_leaves (e : EngineId) (f : Engine → Engine) (l : List LineCommand) (s : State) (q : EngineId) :
    (leaves e f l s).engine q = if q = e then f (s.engine q) else s.engine q := by
  unfold leaves State.engine
  exact vmod_get _ _ _ _

/-- Changes that agree on the record there is. -/
theorem leaves_congr {e : EngineId} {f g : Engine → Engine} {l m : List LineCommand} {s : State}
    (h : f (s.engine e) = g (s.engine e)) (hl : l = m) : leaves e f l s = leaves e g m s := by
  subst hl
  unfold leaves
  have : vmod s.engines e f = vmod s.engines e g := by
    apply Vector.ext
    intro i hi
    rw [vmod_get_val, vmod_get_val]
    split
    next hie => subst hie; exact h
    next => rfl
  rw [this]

/-- A job that an option holds leaves by a command. -/
theorem forSome_cancel_eq {α : Type} (w : Option α) (n : α → Nat) (cmd : α → CancelCommand) (e : EngineId) (s : State) :
    forSome w (fun a => cancelJob e (n a) (cmd a)) s =
      leaves e (fun x => { x with ctx := { x.ctx with
          cancel := joinCancel x.ctx.cancel (w.toList.map fun a => ⟨n a, (s.attemptOf (n a)).getD 0, cmd a⟩) } })
        ((w.toList.map fun a => ⟨n a, (s.attemptOf (n a)).getD 0, cmd a⟩).map (commandFor e)) s := by
  cases w with
  | some a => exact cancelJob_eq e (n a) (cmd a) s
  | none =>
    have : vmod s.engines e (fun x => { x with ctx := { x.ctx with cancel := x.ctx.cancel } }) = s.engines :=
      vmod_same _ _ _ rfl
    change s = { s with
      engines := vmod s.engines e fun x => { x with ctx := { x.ctx with cancel := x.ctx.cancel } }
      lineSent := s.lineSent ++ [] }
    rw [this, List.append_nil]

/-- The entry of a waiting job names the command of its stage. -/
theorem leaving_eq (s : State) (w : Option WaitingCtx) : leaving s w =
    w.toList.map fun w => ⟨w.job, (s.attemptOf w.job).getD 0, leaveCommand w⟩ := by
  unfold leaving leaveCommand
  cases w with
  | none => rfl
  | some w => cases hs : w.stage <;> simp [hs]

/-- The next and parked jobs leave. -/
theorem emptyWaiting_eq (e : EngineId) (s : State) : emptyWaiting e s =
    leaves e (fun x => { x with ctx := { x.ctx with
        next := none, parked := none
        cancel := joinCancel x.ctx.cancel (leaving s (s.engine e).ctx.next ++ leaving s (s.engine e).ctx.parked) } })
      ((leaving s (s.engine e).ctx.next ++ leaving s (s.engine e).ctx.parked).map (commandFor e)) s := by
  have empties : (s.modCtx e fun c => { c with next := none, parked := none }) =
      leaves e (fun x => { x with ctx := { x.ctx with next := none, parked := none } }) [] s := by
    unfold leaves
    rw [List.append_nil]
    rfl
  unfold emptyWaiting
  dsimp only
  rw [forSome_cancel_eq (s.engine e).ctx.next WaitingCtx.job leaveCommand, empties,
    forSome_cancel_eq (s.engine e).ctx.parked WaitingCtx.job leaveCommand, leaves_leaves, leaves_leaves, leaving_eq,
    leaving_eq]
  refine leaves_congr ?_ (by rw [List.nil_append, List.map_append]; rfl)
  dsimp only
  rw [joinCancel_append]
  rfl

/-- The current job leaves, and ABORT is sent for it. -/
theorem abortCurrent_eq (e : EngineId) (s : State) : abortCurrent e s =
    leaves e (fun x => { x with ctx := { x.ctx with
        current := none, cancel := joinCancel x.ctx.cancel (aborting s (s.engine e).ctx.current) } })
      ((aborting s (s.engine e).ctx.current).map (commandFor e)) s := by
  have empties : (s.modCtx e fun c => { c with current := none }) =
      leaves e (fun x => { x with ctx := { x.ctx with current := none } }) [] s := by
    unfold leaves
    rw [List.append_nil]
    rfl
  unfold abortCurrent
  rw [forSome_cancel_eq (s.engine e).ctx.current CurrentCtx.job fun _ => .abort, empties, leaves_leaves]
  exact leaves_congr rfl rfl

/-- The jobs that a fault takes off the engine have left their contexts (R91 steps 2 and 3). -/
def vacated (e : EngineId) (s : State) : State :=
  if (s.engine e).status.faultFlag then emptyWaiting e (abortCurrent e s) else emptyWaiting e s

/-- The entries by which they leave. -/
def vacating (e : EngineId) (s : State) : List CancelEntry :=
  (if (s.engine e).status.faultFlag then aborting s (s.engine e).ctx.current else []) ++
    leaving s (s.engine e).ctx.next ++ leaving s (s.engine e).ctx.parked

/-- The contexts that they leave. -/
theorem vacated_eq (e : EngineId) (s : State) : vacated e s =
    leaves e (fun x => { x with ctx :=
        ⟨if (s.engine e).status.faultFlag then none else x.ctx.current, none, none,
          joinCancel x.ctx.cancel (vacating e s)⟩ })
      ((vacating e s).map (commandFor e)) s := by
  unfold vacated vacating
  cases hf : (s.engine e).status.faultFlag
  · rw [if_neg Bool.false_ne_true, emptyWaiting_eq]
    exact leaves_congr rfl (by simp)
  · rw [if_pos rfl, emptyWaiting_eq, abortCurrent_eq, leaves_leaves]
    have same (w : Option WaitingCtx) (f : Engine → Engine) (l : List LineCommand) :
        leaving (leaves e f l s) w = leaving s w := rfl
    rw [same, same, engine_leaves, if_pos rfl]
    refine leaves_congr ?_ ?_
    · simp only [if_pos, List.append_assoc]
      rw [joinCancel_append (s.engine e).ctx.cancel]
    · simp [List.map_append]

/-- The status of an engine that faults (R91). -/
def faultStatus (cause : EngineFaultCause) (time : Nat) (x : EngineStatus) : EngineStatus :=
  { x with mode := if x.faultFlag then .lockedOut else .faulted, faultFlag := true, lastFault := some (cause, time) }

/-- Once the jobs have left and the engine's record is set, the state is the one that the statements write out. -/
theorem vacated_afterFault (e : EngineId) (cause : EngineFaultCause) (s : State) :
    (vacated e s).modStatus e (faultStatus cause s.clock) = afterFault e cause (s.engine e).ctx [] s := by
  have status : (vacated e s).modStatus e (faultStatus cause s.clock) =
      leaves e (fun x => { x with status := faultStatus cause s.clock x.status }) [] (vacated e s) := by
    unfold leaves
    rw [List.append_nil]
    rfl
  rw [status, vacated_eq, leaves_leaves, List.append_nil]
  have after : afterFault e cause (s.engine e).ctx [] s = leaves e (fun _ =>
      { s.engine e with
        status := faultStatus cause s.clock (s.engine e).status
        ctx := ⟨if (s.engine e).status.faultFlag then none else (s.engine e).ctx.current, none, none,
          joinCancel (s.engine e).ctx.cancel (vacating e s)⟩ })
      ((vacating e s).map (commandFor e)) s := rfl
  rw [after]
  exact leaves_congr rfl rfl

/-- The jobs that a fault takes off the engine, beside the one that it names (R91 steps 2 and 3). -/
def takenOf (x : Engine) : List Taken := if x.status.faultFlag then takenAll x.ctx else takenWaiting x.ctx

/-- A fault of an engine that is not LOCKED_OUT, in the order of R91. -/
theorem engineFault_eq {e : EngineId} (cause : EngineFaultCause) (job : Option Nat) {named : State → State} {s : State}
    (hm : (s.engine e).status.mode ≠ .lockedOut) (hn : (named (vacated e s)).engines = (vacated e s).engines) :
    engineFault e cause job named s = serve (returnAll (takenOf (s.engine e)) (evalStarved
      (raise (faultNotice s e cause job) ((named (vacated e s)).modStatus e (faultStatus cause s.clock))))) := by
  have flag : ((named (vacated e s)).engine e).status.faultFlag = (s.engine e).status.faultFlag := by
    rw [engine_of_engines hn, vacated_eq, engine_leaves, if_pos rfl]
  have status {f : EngineStatus → EngineStatus}
      (h : f ((named (vacated e s)).engine e).status =
        faultStatus cause s.clock ((named (vacated e s)).engine e).status) :
      (named (vacated e s)).modStatus e f = (named (vacated e s)).modStatus e (faultStatus cause s.clock) := by
    have := leaves_congr (l := []) (m := []) (s := named (vacated e s)) (e := e)
      (f := fun x => { x with status := f x.status })
      (g := fun x => { x with status := faultStatus cause s.clock x.status })
      (by simp only [h]) rfl
    unfold leaves at this
    rw [List.append_nil] at this
    exact this
  unfold engineFault takenOf faultNotice
  dsimp only
  rw [if_neg hm]
  cases hf : (s.engine e).status.faultFlag
  · rw [if_neg Bool.false_ne_true, if_neg Bool.false_ne_true, if_neg Bool.false_ne_true]
    have vac : emptyWaiting e s = vacated e s := by unfold vacated; rw [if_neg (by rw [hf]; exact Bool.false_ne_true)]
    rw [vac, status]
    rw [hf] at flag
    simp [faultStatus, flag]
  · rw [if_pos rfl, if_pos rfl, if_pos rfl]
    have vac : emptyWaiting e (abortCurrent e s) = vacated e s := by unfold vacated; rw [if_pos hf]
    rw [vac, status]
    rw [hf] at flag
    simp [faultStatus, flag]

/-! ### Jobs that come back, or end (R63, R65) -/

/-- A job comes back to its queue with the attempt and the last fault that `g` gives it, or ends if it is superseded. -/
def Back (n : Nat) (g : Job → Nat × Option FaultRecord) (s t : State) : Prop :=
  ∀ j, s.job? n = some j →
    (j.superseded = false → Returned n (g j).1 (g j).2 j s t) ∧ (j.superseded = true → Ended n s t)

/-- A job that an event takes off comes back as it is. -/
theorem takenOff_iff (n : Nat) (s t : State) : TakenOff n s t ↔ Back n (fun j => (j.attempt, j.lastFault)) s t := Iff.rfl

/-- A job that a fault takes at no cost comes back with the fault. -/
theorem takenBy_iff (n : Nat) (f : FaultRecord) (s t : State) :
    TakenBy n f s t ↔ Back n (fun j => (j.attempt, some f)) s t := Iff.rfl

section Back

variable {n : Nat} {g : Job → Nat × Option FaultRecord}

/-- A job that has come back stays so through what does not take it. -/
theorem Back.stays {b t u : State} (h : Back n g b t) (hb : b.entryCount ≤ t.entryCount) (hr : Reacts D t u)
    (hn : ¬ D n) : Back n g b u := fun j hj =>
  ⟨fun hs => ((h j hj).1 hs).stays hr hn, fun hs => Reacts.ended hr hn hb ((h j hj).2 hs)⟩

/-- A job comes back to a state in which it has the same record, and no later place in the entry order is given. -/
theorem Back.since {b s t : State} (h : Back n g s t) (hj : b.job? n = s.job? n) (hb : b.entryCount ≤ s.entryCount) :
    Back n g b t := fun j hj' =>
  ⟨fun hs => ((h j (hj ▸ hj')).1 hs).since hb, fun hs => ((h j (hj ▸ hj')).2 hs).since hb⟩

/-- A job that is not superseded is returned to its queue. -/
theorem returnTaken_of_current {j : Job} {s : State} (why : RequeueReason) (terminal : JobState)
    (hj : s.job? n = some j) (hs : j.superseded = false) :
    returnTaken n why terminal s = evalStarved (requeue n j.attempt why none s) := by
  simp only [returnTaken, hj, hs, Bool.false_eq_true, if_false]

/-- What a return to the queue makes of the job. -/
theorem returnTaken_job {j : Job} {s : State} (why : RequeueReason) (terminal : JobState)
    (hj : s.job? n = some j) (hs : j.superseded = false) : ∃ o, s.entryCount < o ∧
      (returnTaken n why terminal s).job? n =
        some { j with state := .queued, lane := none, applied := none, entryOrder := o } := by
  obtain ⟨o, ho, hq⟩ := requeue_job j.attempt why none hj
  obtain ⟨j', hj', hstate, hrec⟩ := (evalStarved_serves (requeue n j.attempt why none s)).kept.jobs n |>.2 _ hq
  have idle := (evalStarved_serves (requeue n j.attempt why none s)).kept
  refine ⟨o, ho, ?_⟩
  rw [returnTaken_of_current why terminal hj hs]
  have jobs : (evalStarved (requeue n j.attempt why none s)).jobs = (requeue n j.attempt why none s).jobs := by
    unfold evalStarved
    split
    · split
      · rfl
      · rw [jobs_raise]; rfl
    · rfl
  rw [job?_of_jobs jobs, hq]

/-- A job that has come back and is taken off once more comes back once more. -/
theorem Back.again {b s : State} (h : Back n g b s) (hb : b.entryCount ≤ s.entryCount) (why : RequeueReason)
    (terminal : JobState) : Back n g b (returnTaken n why terminal s) := by
  intro j hj
  obtain ⟨back, ended⟩ := h j hj
  refine ⟨fun hs => ?_, fun hs j' hj' => ?_⟩
  · obtain ⟨i, hi, -, -, rest⟩ := back hs
    have hi' : i.superseded = false := by rw [rest]; exact hs
    obtain ⟨o, ho, hq⟩ := returnTaken_job why terminal hi hi'
    exact ⟨_, hq, .inl rfl, hb.trans_lt ho, by rw [rest]⟩
  · cases hi : s.job? n with
    | none =>
      have same : returnTaken n why terminal s = s := by simp only [returnTaken, hi]
      rw [same, hi] at hj'
      cases hj'
    | some i =>
      have made := ended hs i hi
      obtain ⟨o, ho, hq⟩ := returnTaken_job why terminal hi made.superseded
      cases hq.symm.trans hj'
      exact ⟨hb.trans_lt ho, made.superseded, made.attempt, .inl rfl, made.fault⟩

/-- A job stays back while others, or it once more, are taken off. -/
theorem Back.returnAll {b s : State} {l : List Taken} (h : Back n g b s) (hs : JobsOrdered s)
    (hl : ∀ x ∈ l, x.2 ≠ .uncertain) (hb : b.entryCount ≤ s.entryCount) : Back n g b (Machine.returnAll l s) := by
  induction l generalizing s with
  | nil => exact h
  | cons x l ih =>
    have step : Reacts (fun m => m = x.1) s (returnTaken x.1 .engineFaulted x.2 s) :=
      returnTaken_reacts _ _ _ hs (hl x List.mem_cons_self) rfl
    refine ih ?_ (Reacts.jobs_ordered hs step) (fun y hy => hl y (List.mem_cons_of_mem _ hy))
      (hb.trans (Reacts.entry_le step))
    by_cases hm : n = x.1
    · exact hm ▸ (hm ▸ h).again hb _ _
    · exact h.stays hb step hm

end Back

/-- A job that is taken off comes back, or ends. -/
theorem returnTaken_takenOff (n : Nat) (why : RequeueReason) (terminal : JobState) {s : State} (hs : JobsOrdered s)
    (ht : terminal ≠ .uncertain) : TakenOff n s (returnTaken n why terminal s) := fun _ hj =>
  ⟨fun h => returnTaken_returned why terminal hj h, fun h => returnTaken_ended why terminal hs hj h ht⟩

/-- Each job that a fault takes off comes back, or ends. -/
theorem returnAll_takenOff {l : List Taken} (hl : ∀ x ∈ l, x.2 ≠ .uncertain) {n : Nat} (hn : ∃ x ∈ l, x.1 = n)
    {s : State} (hs : JobsOrdered s) : TakenOff n s (returnAll l s) := by
  induction l generalizing s with
  | nil => obtain ⟨x, hx, -⟩ := hn; cases hx
  | cons x l ih =>
    have hx := hl x List.mem_cons_self
    have hl' : ∀ y ∈ l, y.2 ≠ .uncertain := fun y hy => hl y (List.mem_cons_of_mem _ hy)
    have step : Reacts (fun m => m = x.1) s (returnTaken x.1 .engineFaulted x.2 s) :=
      returnTaken_reacts _ _ _ hs hx rfl
    have hs' := Reacts.jobs_ordered hs step
    by_cases hm : n = x.1
    · subst hm
      have here := (takenOff_iff _ _ _).mp (returnTaken_takenOff x.1 .engineFaulted x.2 hs hx)
      exact here.returnAll hs' hl' (Reacts.entry_le step)
    · obtain ⟨y, hy, hyn⟩ := hn
      rcases List.mem_cons.mp hy with rfl | hy
      · exact absurd hyn.symm hm
      · exact .after step hm (ih hl' ⟨y, hy, hyn⟩ hs')

/-- The jobs that a fault takes off, by the contexts they are taken from. -/
theorem mem_takenOf (x : Engine) (n : Nat) : (∃ y ∈ takenOf x, y.1 = n) ↔
    WaitsIn x.ctx n ∨ x.status.faultFlag = true ∧ ∃ w, x.ctx.current = some w ∧ w.job = n := by
  unfold takenOf takenAll takenWaiting WaitsIn
  cases x.status.faultFlag <;> cases x.ctx.current <;> cases x.ctx.next <;> cases x.ctx.parked <;> simp [or_comm]

/-- No plate that a fault takes off an engine becomes UNCERTAIN. -/
theorem takenOf_ends (x : Engine) : ∀ y ∈ takenOf x, y.2 ≠ .uncertain := by
  unfold takenOf
  split
  · exact takenAll_ends x.ctx
  · exact takenWaiting_ends x.ctx

/-! ### A fault whole -/

/-- What a fault needs of the operation on the job that it names: a chain of reactions that takes no other job, whatever
the engines, and changes none of them. -/
structure NamesOnly (job : Option Nat) (named : State → State) : Prop where
  blind : ∀ s, Blindly (fun n => job = some n) s (named s)
  engines : ∀ s, (named s).engines = s.engines

/-- A fault that names no job. -/
theorem namesOnly_id : NamesOnly none id := ⟨fun _ => .refl _, fun _ => rfl⟩

/-- A fault whose job returns. -/
theorem namesOnly_returns (e : EngineId) (n : Nat) (cause : FaultCause) :
    NamesOnly (some n) (namedReturns e n cause) :=
  ⟨fun s => namedReturns_blindly e n cause s rfl, engines_namedReturns e n cause⟩

/-- A fault whose job is spoiled. -/
theorem namesOnly_spoils (e : EngineId) (n : Nat) (cause : FaultCause) :
    NamesOnly (some n) (namedSpoils e n cause) :=
  ⟨fun s => namedSpoils_blindly e n cause s rfl, engines_namedSpoils e n cause⟩

/-- What follows the engine's record: its notice, the condition, the other jobs, and the service of the engines. -/
def faultRest (l : List Taken) (n : Notice) (s : State) : State := serve (returnAll l (evalStarved (raise n s)))

/-- What follows takes the jobs of its list. -/
theorem faultRest_reacts {l : List Taken} (hl : ∀ x ∈ l, x.2 ≠ .uncertain) (n : Notice) {s : State}
    (hs : JobsOrdered s) : Reacts (fun m => ∃ x ∈ l, x.1 = m) s (faultRest l n s) := by
  refine Reacts.then hs (raise_reacts n s) fun h1 => ?_
  refine Reacts.then h1 (evalStarved_reacts _) fun h2 => ?_
  exact Reacts.then h2 (returnAll_reacts l h2 hl fun x hx => ⟨x, hx, rfl⟩) serve_reacts

/-- Each job of the list is taken off. -/
theorem faultRest_takenOff {l : List Taken} (hl : ∀ x ∈ l, x.2 ≠ .uncertain) (n : Notice) {s : State}
    (hs : JobsOrdered s) {m : Nat} (hm : ∃ x ∈ l, x.1 = m) : TakenOff m s (faultRest l n s) := by
  have before : Reacts NoJob s (evalStarved (raise n s)) := (raise_reacts n s).trans (evalStarved_reacts _)
  have h2 := Reacts.jobs_ordered hs before
  have table : Reacts AnyJob _ (returnAll l (evalStarved (raise n s))) := returnAll_reacts l h2 hl
  have served : Reacts NoJob _ (faultRest l n s) := serve_reacts (Reacts.jobs_ordered h2 table)
  exact .after before id ((returnAll_takenOff hl hm h2).stays (Reacts.entry_le table) served id)

/-- A job that has come back already is back still. -/
theorem Back.faultRest {l : List Taken} {m : Nat} {g : Job → Nat × Option FaultRecord} {b s : State}
    (h : Back m g b s) (hl : ∀ x ∈ l, x.2 ≠ .uncertain) (n : Notice) (hs : JobsOrdered s)
    (hb : b.entryCount ≤ s.entryCount) : Back m g b (Machine.faultRest l n s) := by
  have before : Reacts NoJob s (evalStarved (raise n s)) := (raise_reacts n s).trans (evalStarved_reacts _)
  have h2 := Reacts.jobs_ordered hs before
  have hb2 := hb.trans (Reacts.entry_le before)
  have table : Reacts AnyJob _ (Machine.returnAll l (evalStarved (raise n s))) := returnAll_reacts l h2 hl
  have served : Reacts NoJob _ (Machine.faultRest l n s) := serve_reacts (Reacts.jobs_ordered h2 table)
  exact ((h.stays hb before id).returnAll h2 hl hb2).stays (hb2.trans (Reacts.entry_le table)) served id

/-- The state at which the engine's record is set and the job that the fault names has been dealt with. -/
def faulted (e : EngineId) (cause : EngineFaultCause) (named : State → State) (s : State) : State :=
  (named (vacated e s)).modStatus e (faultStatus cause s.clock)

section Fault

variable {e : EngineId} {cause : EngineFaultCause} {job : Option Nat} {named : State → State} {s : State}

/-- A fault of an engine that is not LOCKED_OUT. -/
theorem engineFault_faulted (hm : (s.engine e).status.mode ≠ .lockedOut) (hn : NamesOnly job named) :
    engineFault e cause job named s =
      faultRest (takenOf (s.engine e)) (faultNotice s e cause job) (faulted e cause named s) :=
  engineFault_eq cause job hm (hn.engines _)

/-- The job that a fault names is dealt with as though the engine's record had been set before. -/
theorem faulted_reacts (hn : NamesOnly job named) :
    Reacts (fun n => job = some n) (afterFault e cause (s.engine e).ctx [] s) (faulted e cause named s) := by
  have same : faulted e cause named s = withEngines ((vacated e s).modStatus e (faultStatus cause s.clock)).engines
      (named (vacated e s)) := by
    unfold faulted
    rw [engines_modStatus, ← hn.engines (vacated e s)]
    rfl
  rw [← vacated_afterFault, same]
  exact hn.blind (vacated e s) _

/-- Leaving the contexts is no business of the job table. -/
theorem jobs_vacated (e : EngineId) (s : State) : (vacated e s).jobs = s.jobs := by
  rw [vacated_eq]
  rfl

/-- A fault, with what it makes of the job that it names and of the others that it takes off (R91). `b` is the state that
the statement starts from, and `s` the same once the job named has left its context. -/
theorem engineFaults_of {c : Instr} {b o : State} {ctx : Contexts} {gone : List CancelEntry} {ns : List Notice}
    {P : State → Prop} (hexec : exec c o = .next (engineFault e cause job named s)) (hs : JobsOrdered s)
    (hm : (s.engine e).status.mode ≠ .lockedOut) (hn : NamesOnly job named)
    (hafter : afterFault e cause (s.engine e).ctx [] s = afterFault e cause ctx gone b)
    (htaken : ∀ n, (∃ x ∈ takenOf (s.engine e), x.1 = n) ↔
      WaitsIn ctx n ∨ (b.engine e).status.faultFlag = true ∧ ∃ w, ctx.current = some w ∧ w.job = n)
    (hjobs : s.jobs = o.jobs) (hentry : s.entryCount = o.entryCount)
    (htells : ∀ t, PortsKept (raise (faultNotice s e cause job) (faulted e cause named s)) t →
      Tells ns (afterFault e cause ctx gone b) t)
    (hP : P (faultRest (takenOf (s.engine e)) (faultNotice s e cause job) (faulted e cause named s))) :
    EngineFaults c e cause job ctx gone ns o b P := by
  have hends := takenOf_ends (s.engine e)
  have first := faulted_reacts (e := e) (cause := cause) (s := s) hn
  have hafterOrdered : JobsOrdered (afterFault e cause (s.engine e).ctx [] s) := hs
  have h1 := Reacts.jobs_ordered hafterOrdered first
  have rest := faultRest_reacts hends (faultNotice s e cause job) h1
  rw [engineFault_faulted hm hn] at hexec
  have whole := (first.widen (D' := fun n => job = some n ∨ WaitsIn ctx n ∨
      (b.engine e).status.faultFlag = true ∧ ∃ w, ctx.current = some w ∧ w.job = n) fun n h => .inl h).trans
    (rest.widen fun n h => .inr ((htaken n).mp h))
  rw [hafter] at whole
  refine raisesReacting_of hexec whole (htells _ ?_) ⟨fun n hn' hjob => ?_, hP⟩
  · have after : Reacts AnyJob (raise (faultNotice s e cause job) (faulted e cause named s))
        (faultRest (takenOf (s.engine e)) (faultNotice s e cause job) (faulted e cause named s)) := by
      have h2 := Reacts.jobs_ordered h1 (raise_reacts (D := AnyJob) (faultNotice s e cause job) _)
      refine Reacts.then h2 (evalStarved_reacts _) fun h3 => ?_
      exact Reacts.then h3 (returnAll_reacts _ h3 hends) serve_reacts
    exact after.ports_kept
  · have off : TakenOff n (afterFault e cause (s.engine e).ctx [] s) _ :=
      .after first hjob (faultRest_takenOff hends (faultNotice s e cause job) h1 ((htaken n).mpr hn'))
    refine off.since ?_ ?_
    · exact (job?_of_jobs (s := o) (t := afterFault e cause (s.engine e).ctx [] s) hjobs n).symm
    · exact hentry.symm.le

end Fault

end Sys2Proof.Machine
end

section
/-! Proofs of the statements about the cassette (O33) and about how reports are matched (O34). -/

namespace Sys2Proof.Machine

open State

/-! ### Faults that name no job -/

section Unnamed

variable {c : Instr} {e : EngineId} {cause : EngineFaultCause} {o s : State}

/-- A fault that names no job, of an engine that is not LOCKED_OUT: its notice is the first. -/
theorem engineFaults_unnamed {m : Notice} (hexec : exec c o = .next (engineFault e cause none id s)) (hs : JobsOrdered s)
    (hm : (s.engine e).status.mode ≠ .lockedOut) (hjobs : s.jobs = o.jobs) (hentry : s.entryCount = o.entryCount)
    (hnotice : faultNotice s e cause none = m) :
    EngineFaults c e cause none (s.engine e).ctx [] [m] o s fun _ => True := by
  subst hnotice
  refine engineFaults_of hexec hs hm namesOnly_id rfl (mem_takenOf _) hjobs hentry (fun t ht => ?_) trivial
  have same : faulted e cause id s = afterFault e cause (s.engine e).ctx [] s := vacated_afterFault e cause s
  rw [same] at ht
  exact (SameDesk.refl _).tells (.refl _) ht

/-- A fault of an engine that is LOCKED_OUT is recorded and nothing else happens. -/
theorem engineFault_lockedOut (hm : (s.engine e).status.mode = .lockedOut) :
    engineFault e cause none id s = s.modStatus e fun t => { t with lastFault := some (cause, s.clock) } := by
  unfold engineFault
  dsimp only
  rw [if_pos hm]
  rfl

end Unnamed

/-! ### The cassette (R75) -/

section Cassette

variable {e : EngineId} {format : Option PlateFormat} {count : Nat} {s : State}

/-- An OFFLINE engine's report of its cassette is ignored. -/
theorem cassetteLoaded_offline (h : (s.engine e).status.mode = .offline) : cassetteLoaded e format count s = s := by
  unfold cassetteLoaded
  exact if_pos h

variable (hm : (s.engine e).status.mode ≠ .offline)

include hm

/-- A value out of range is a PROTOCOL fault. -/
theorem cassetteLoaded_bad (h : format = none ∨ 250 < count) :
    cassetteLoaded e format count s = engineFault e .protocol none id s := by
  unfold cassetteLoaded
  exact (if_neg hm).trans (if_pos h)

variable (hb : ¬ (format = none ∨ 250 < count))

include hb

/-- A new format while a job waits is a CASSETTE_CHANGED fault. -/
theorem cassetteLoaded_changed (h : format ≠ (s.engine e).cassette.format)
    (hw : ∃ n, WaitsIn (s.engine e).ctx n) : cassetteLoaded e format count s =
      engineFault e .cassetteChanged none id (s.modCassette e fun _ => ⟨format, count⟩) := by
  have waits : (s.engine e).ctx.next.isSome = true ∨ (s.engine e).ctx.parked.isSome = true := by
    obtain ⟨n, ⟨w, hw, -⟩ | ⟨w, hw, -⟩⟩ := hw
    · exact .inl (by rw [hw]; rfl)
    · exact .inr (by rw [hw]; rfl)
  unfold cassetteLoaded
  refine (if_neg hm).trans ((if_neg hb).trans (if_pos ⟨h, ?_⟩))
  simpa using waits

/-- The record takes the format and the count, and the engines are served. -/
theorem cassetteLoaded_taken (h : ¬ (format ≠ (s.engine e).cassette.format ∧ ∃ n, WaitsIn (s.engine e).ctx n)) :
    cassetteLoaded e format count s = serve (s.modCassette e fun _ => ⟨format, count⟩) := by
  unfold cassetteLoaded
  refine (if_neg hm).trans ((if_neg hb).trans (if_neg fun hc => h ⟨hc.1, ?_⟩))
  have waits : (s.engine e).ctx.next.isSome = true ∨ (s.engine e).ctx.parked.isSome = true := by simpa using hc.2
  rcases waits with hw | hw
  · obtain ⟨w, hw⟩ := Option.isSome_iff_exists.mp hw
    exact ⟨w.job, .inl ⟨w, hw, rfl⟩⟩
  · obtain ⟨w, hw⟩ := Option.isSome_iff_exists.mp hw
    exact ⟨w.job, .inr ⟨w, hw, rfl⟩⟩

end Cassette

/-- Settles O33: the report by the engine's mode, its values and the jobs that wait. -/
theorem cassetteTaken : Obligations.CassetteTaken := by
  intro e format count s htab c x bad u last changed
  have exec_c : exec c s = .next (cassetteLoaded e format count s) := rfl
  have same : u.engine e = { x with cassette := ⟨format, count⟩ } := by
    change (s.modCassette e _).engine e = _
    rw [engine_modCassette, if_pos rfl]
  refine ⟨fun hm => ?_, fun hm hb hc => ?_, fun hm => ⟨fun hb => ?_, fun hb hc => ?_⟩,
    fun hm => ⟨fun hb => ?_, fun hb hc => ?_⟩⟩
  · rw [exec_c, cassetteLoaded_offline hm]
  · refine raisesServing_of (ns := []) htab.jobs (exec_c.trans ?_)
    rw [cassetteLoaded_taken hm hb hc]
    rfl
  · have hoff : x.status.mode ≠ .offline := by rcases hm with h | h <;> simp [h]
    have hout : x.status.mode ≠ .lockedOut := by rcases hm with h | h <;> simp [h]
    exact engineFaults_unnamed (exec_c.trans (by rw [cassetteLoaded_bad hoff hb])) htab.jobs hout rfl rfl rfl
  · have hoff : x.status.mode ≠ .offline := by rcases hm with h | h <;> simp [h]
    have hout : x.status.mode ≠ .lockedOut := by rcases hm with h | h <;> simp [h]
    have fault := engineFaults_unnamed (cause := .cassetteChanged) (s := u) (m := faultNotice s e .cassetteChanged none)
      (exec_c.trans (by rw [cassetteLoaded_changed hoff hb hc.1 hc.2])) htab.jobs (by rw [same]; exact hout) rfl rfl
      (by unfold faultNotice; rw [same])
    rw [same] at fault
    exact fault
  · have hoff : x.status.mode ≠ .offline := by rw [hm]; decide
    rw [exec_c, cassetteLoaded_bad hoff hb, engineFault_lockedOut hm]
  · have hoff : x.status.mode ≠ .offline := by rw [hm]; decide
    rw [exec_c, cassetteLoaded_changed hoff hb hc.1 hc.2]
    exact congrArg Host.Outcome.next (engineFault_lockedOut (by rw [same]; exact hm))

/-! ### Reports about jobs (R78, R79) -/

section Report

variable {e : EngineId} {n a : Nat} {removes : CancelCommand → Bool} {accepted : Bool} {effect : State → State}
  {s : State}

/-- A report that an entry of the cancel list matches. -/
theorem jobReport_listed {y : CancelEntry}
    (h : (s.engine e).ctx.cancel.find? (fun y => y.job = n && y.attempt = a) = some y) :
    jobReport e n a removes accepted effect s =
      if removes y.command = true then
        serve (s.modCtx e fun x => { x with cancel := x.cancel.filter fun z => z.job ≠ n }) else s := by
  unfold jobReport cancelEntry
  rw [h]
  rfl

variable (hc : ∀ y ∈ (s.engine e).ctx.cancel, y.job = n → y.attempt ≠ a)

include hc

/-- A report that no entry of the cancel list matches. -/
theorem cancelEntry_unlisted : cancelEntry s e n a = none := by
  unfold cancelEntry
  rw [List.find?_eq_none]
  intro y hy hm
  simp only [Bool.and_eq_true, decide_eq_true_eq] at hm
  exact hc y hy hm.1 hm.2

/-- A channel that is closed to reports. -/
theorem jobReport_closed (hm : (s.engine e).status.mode = .offline ∨ (s.engine e).status.mode = .lockedOut) :
    jobReport e n a removes accepted effect s = s := by
  unfold jobReport
  rw [cancelEntry_unlisted hc]
  rcases hm with h | h <;> simp only [h]

/-- A report that a context takes. -/
theorem jobReport_taken (hm : (s.engine e).status.mode = .running ∨ (s.engine e).status.mode = .faulted)
    (ha : accepted = true) : jobReport e n a removes accepted effect s = effect s := by
  unfold jobReport
  rw [cancelEntry_unlisted hc, ha]
  rcases hm with h | h <;> simp only [h, if_true]

/-- A report that no context takes: a PROTOCOL fault of a RUNNING engine. -/
theorem jobReport_protocol (hm : (s.engine e).status.mode = .running) (ha : accepted = false) :
    jobReport e n a removes accepted effect s = engineFault e .protocol none id s := by
  unfold jobReport unmatched
  rw [cancelEntry_unlisted hc, ha, hm]
  rfl

/-- A report that no context takes is ignored of a FAULTED engine. -/
theorem jobReport_ignored (hm : (s.engine e).status.mode = .faulted) (ha : accepted = false) :
    jobReport e n a removes accepted effect s = s := by
  unfold jobReport unmatched
  rw [cancelEntry_unlisted hc, ha, hm]
  rfl

end Report

/-- A job is at an attempt. -/
theorem atAttempt_iff (s : State) (n a : Nat) : s.atAttempt n a = true ↔ ∃ j, s.job? n = some j ∧ j.attempt = a := by
  unfold State.atAttempt State.attemptOf
  cases s.job? n <;> simp

/-- A waiting context takes a report. -/
theorem waitsAt_iff (s : State) (w : Option WaitingCtx) (n a : Nat) (x : LoadStage) :
    waitsAt s w n a x = true ↔ WaitsAt w n x ∧ ∃ j, s.job? n = some j ∧ j.attempt = a := by
  unfold waitsAt WaitsAt
  rw [Bool.and_eq_true, atAttempt_iff, Option.any_eq_true]
  simp only [Bool.and_eq_true, decide_eq_true_eq]

/-- The current context takes a report. -/
theorem inCurrent_iff (s : State) (e : EngineId) (n a : Nat) :
    inCurrent s e n a = true ↔
      (∃ w, (s.engine e).ctx.current = some w ∧ w.job = n) ∧ ∃ j, s.job? n = some j ∧ j.attempt = a := by
  unfold inCurrent
  rw [Bool.and_eq_true, atAttempt_iff, Option.any_eq_true]
  simp only [decide_eq_true_eq]

/-- How a report is read: which entries of the cancel list it removes, whether a context takes it, and what it then
does. -/
structure ReadAs (c : Instr) (e : EngineId) (n a : Nat) (removes : Option CancelCommand) (s : State)
    (effect : State → State) : Prop where
  read : ∃ rem acc, exec c s = .next (jobReport e n a rem acc effect s) ∧
    (∀ x, rem x = true ↔ removes = some x) ∧
    (acc = true ↔ Takes (s.engine e).ctx n c ∧ ∃ j, s.job? n = some j ∧ j.attempt = a)

/-- What a report does once a context has taken it. -/
def reportEffect (e : EngineId) : Instr → State → State
  | .loaded _ n _ => fun s => serve (s.modCtx e fun c =>
      { c with next := markLoaded n.toNat c.next, parked := markLoaded n.toNat c.parked })
  | .loadFault _ n _ (.rasterUnreadable ref) => rasterUnreadable e n.toNat ref
  | .loadFault _ n _ (.code x) => fun s =>
      engineFault e .loadFault (some n.toNat) (namedReturns e n.toNat (.loadFault x)) (leaveWaiting e n.toNat .discard s)
  | .exposeStarted .. => fun s => forSome (s.engine e).ctx.next (startExposure e) s
  | .exposeDone _ n _ => endExposure e n.toNat
  | .exposeFault _ n _ b => exposureFault e n.toNat b
  | _ => id

/-- Every report about a job is read in this way. -/
theorem report_read {e : EngineId} {n : U16} {a : Byte} {c : Instr} {removes : Option CancelCommand}
    (h : ReportOf e n a c removes) (s : State) :
    ReadAs c e n.toNat a.toNat removes s (reportEffect e c) := by
  have load : waitsLoad s e n.toNat a.toNat = true ↔
      (WaitsAt (s.engine e).ctx.next n.toNat .loadSent ∨ WaitsAt (s.engine e).ctx.parked n.toNat .loadSent) ∧
        ∃ j, s.job? n.toNat = some j ∧ j.attempt = a.toNat := by
    unfold waitsLoad
    rw [Bool.or_eq_true, waitsAt_iff, waitsAt_iff, or_and_right]
  cases h with
  | loaded => exact ⟨_, _, rfl, fun x => by simp, load⟩
  | loadFault cause => cases cause <;> exact ⟨_, _, rfl, fun x => by simp, load⟩
  | exposeStarted => exact ⟨_, _, rfl, fun x => by simp, waitsAt_iff s _ _ _ _⟩
  | exposeDone => exact ⟨_, _, rfl, fun x => by cases x <;> simp [removesAbort], inCurrent_iff s e _ _⟩
  | exposeFault b =>
    refine ⟨_, _, rfl, fun x => by cases x <;> simp [removesAbort], ?_⟩
    rw [Bool.or_eq_true, inCurrent_iff]
    exact (or_congr_right (waitsAt_iff s _ _ _ _)).trans or_and_right.symm
  | discarded =>
    exact ⟨_, _, rfl, fun x => by cases x <;> simp [removesDiscard], by simp [Takes]⟩

/-- A report that is expected does what it is for (R78). -/
theorem exec_expected {e : EngineId} {n : U16} {a : Byte} {c : Instr} {removes : Option CancelCommand}
    (h : ReportOf e n a c removes) {s : State} (hx : Expected e n.toNat a.toNat c s) :
    exec c s = .next (reportEffect e c s) := by
  obtain ⟨rem, acc, hexec, -, hacc⟩ := (report_read h s).read
  rw [hexec, jobReport_taken hx.unlisted hx.mode (hacc.mpr ⟨hx.takes, hx.attempt⟩)]

/-- Settles O34: the cancel list first, then the engine's mode, then the contexts; and LOADED, in its place. -/
theorem reportsMatched : Obligations.ReportsMatched := by
  intro e n a c removes s htab h x
  obtain ⟨rem, acc, hexec, hrem, hacc⟩ := (report_read h s).read
  refine ⟨fun y hy => ⟨fun hr => ?_, fun hr => ?_⟩, fun hc => ⟨fun hm => ?_, fun hn => ⟨fun hm => ?_, fun hm => ?_⟩⟩,
    fun hl hx => ?_⟩
  · refine raisesServing_of (ns := []) htab.jobs (hexec.trans ?_)
    rw [jobReport_listed hy, if_pos ((hrem _).mpr hr)]
    rfl
  · rw [hexec, jobReport_listed hy, if_neg fun h => hr ((hrem _).mp h)]
  · rw [hexec, jobReport_closed hc hm]
  · have hacc' : acc = false := by
      rw [Bool.eq_false_iff, ne_eq, hacc]
      rintro ⟨ht, j, hj, hja⟩
      exact hn.elim (fun h => h ht) fun h => h j hj hja
    rw [hexec, jobReport_ignored hc hm hacc']
  · have hacc' : acc = false := by
      rw [Bool.eq_false_iff, ne_eq, hacc]
      rintro ⟨ht, j, hj, hja⟩
      exact hn.elim (fun h => h ht) fun h => h j hj hja
    have hout : (s.engine e).status.mode ≠ .lockedOut := by rw [hm]; decide
    exact engineFaults_unnamed (hexec.trans (by rw [jobReport_protocol hc hm hacc'])) htab.jobs hout rfl rfl rfl
  · subst hl
    exact raisesServing_of (ns := []) htab.jobs (exec_expected h hx)

end Sys2Proof.Machine
end

section
/-! Faults that name a job: what the job becomes, what is raised, and proofs of the statements about them (O36, O38). -/

namespace Sys2Proof.Machine

open State

variable {D : Nat → Prop}

/-! ### Notices raised on the way -/

/-- The ports stand as after these notices, and the clock as before. -/
def Raised (ns : List Notice) (s t : State) : Prop := SameDesk (raiseAll ns s) t

/-- A change that leaves the ports and the clock. -/
theorem raised_nil {s t : State} (h : SameDesk s t) : Raised [] s t := h

/-- One notice. -/
theorem raised_one (n : Notice) (s : State) : Raised [n] s (raise n s) := .refl _

/-- Notices after notices. -/
theorem Raised.trans {a b : List Notice} {s t u : State} (h : Raised a s t) (k : Raised b t u) :
    Raised (a ++ b) s u := by
  unfold Raised
  rw [raiseAll_append]
  exact (h.raiseAll b).trans k

/-- A change that leaves the ports, before the notices. -/
theorem Raised.after {a : List Notice} {s t u : State} (h : SameDesk s t) (k : Raised a t u) : Raised a s u :=
  (raised_nil h).trans k

/-- A change that leaves the ports, after the notices. -/
theorem Raised.before {a : List Notice} {s t u : State} (h : Raised a s t) (k : SameDesk t u) : Raised a s u :=
  SameDesk.trans h k

/-- Judging the colour-starved condition. -/
theorem evalStarved_raised (s : State) : Raised (starvedNotice s) s (evalStarved s) := evalStarved_desk s

/-- The references of a job are no business of the ports. -/
theorem takeRefs_desk (ks : List SlotKey) (s : State) : SameDesk s (takeRefs ks s) := by
  unfold takeRefs
  induction ks generalizing s with
  | nil => exact .refl s
  | cons k ks ih => exact .trans ⟨rfl, rfl⟩ (ih (takeRef k s))

/-- The same where they may be held still. -/
theorem retakeRefs_desk (j : Job) (s : State) : SameDesk s (retakeRefs j s) := by
  unfold retakeRefs
  split
  · exact .refl s
  · exact takeRefs_desk _ s

/-- Entering a queue is no business of the ports. -/
theorem enterQueue_desk (n a : Nat) (s : State) : SameDesk s (enterQueue n a s) := ⟨rfl, rfl⟩

/-- A job that returns to its queue. -/
theorem requeue_eq {n : Nat} {j : Job} (a : Nat) (why : RequeueReason) (f : Option FaultRecord) {s : State}
    (hj : s.job? n = some j) :
    requeue n a why f s = raise (.jobRequeued n a why f) (enterQueue n a (retakeRefs j s)) := by
  unfold requeue
  rw [hj]

section Failing

variable {n : Nat} {j : Job} {f : FaultRecord} {s : State} (hj : s.job? n = some j) (hf : j.lastFault = some f)

include hj hf

/-- A job that becomes FAILED after a fault. -/
theorem failJob_eq : failJob n s = raise (.positionFailed j.key n j.attempt f)
    ((retakeRefs j s).modJob n fun x => { x with state := .failed }) := by
  unfold failJob
  rw [hj]
  simp only [hf]

/-- A spoil below the third attempt. -/
theorem spoilDecision_returns (ha : j.attempt < 3) : spoilDecision n s =
    raise (.jobSpoiled n (j.attempt + 1) f) (enterQueue n (j.attempt + 1) (retakeRefs j s)) := by
  unfold spoilDecision
  rw [hj]
  dsimp only
  rw [if_pos (show j.attempt < Config.attempts from ha)]
  simp only [hf]

omit hf in
/-- A spoil at the third attempt. -/
theorem spoilDecision_fails (ha : ¬ j.attempt < 3) : spoilDecision n s = failJob n s := by
  unfold spoilDecision
  rw [hj]
  exact if_neg (show ¬ j.attempt < Config.attempts from ha)

/-- A failure raises its notice. -/
theorem failJob_raised : Raised [.positionFailed j.key n j.attempt f] s (failJob n s) := by
  rw [failJob_eq hj hf]
  have failed : SameDesk (retakeRefs j s) ((retakeRefs j s).modJob n fun x => { x with state := .failed }) := ⟨rfl, rfl⟩
  exact .after ((retakeRefs_desk j s).trans failed) (raised_one _ _)

/-- A spoil raises its notice, by the attempt. -/
theorem spoilDecision_raised (hs : j.superseded = false) : Raised (spoilNotices n f j) s (spoilDecision n s) := by
  unfold spoilNotices
  rw [if_neg (by rw [hs]; exact Bool.false_ne_true)]
  by_cases ha : j.attempt < 3
  · rw [if_pos ha, spoilDecision_returns hj hf ha]
    exact .after ((retakeRefs_desk j s).trans (enterQueue_desk _ _ _)) (raised_one _ _)
  · rw [if_neg ha, spoilDecision_fails hj ha]
    exact failJob_raised hj hf

end Failing

/-- A return to the queue raises its notice. -/
theorem requeue_raised {n : Nat} {j : Job} (a : Nat) (why : RequeueReason) (f : Option FaultRecord) {s : State}
    (hj : s.job? n = some j) : Raised [.jobRequeued n a why f] s (requeue n a why f s) := by
  rw [requeue_eq a why f hj]
  exact .after ((retakeRefs_desk j s).trans (enterQueue_desk _ _ _)) (raised_one _ _)

/-! ### What the judgement of the condition reads -/

/-- One job has changed, and the engines run and the registers stand as before (R106). -/
structure JudgedAs (n : Nat) (f : Job → Job) (s t : State) : Prop where
  jobs : t.jobs = tmod s.jobs n f
  mode : ∀ e, (t.engine e).status.mode = (s.engine e).status.mode
  registers : t.registers = s.registers
  starved : t.starved = s.starved

/-- Its notice. -/
theorem JudgedAs.notice {n : Nat} {f : Job → Job} {j : Job} {s t : State} (h : JudgedAs n f s t) (hs : JobsOrdered s)
    (hj : s.job? n = some j) : starvedNotice t =
      starvedNotices s n (decide ((f j).state = .queued) && decide ((f j).colourNeed = .colour)) :=
  starvedNotice_eq hs hj h.jobs h.mode h.registers h.starved

/-- Two changes of a job are one. -/
theorem tmod_tmod {α : Type} (t : Table Nat α) (n : Nat) (f g : α → α) :
    tmod (tmod t n f) n g = tmod t n fun x => g (f x) := by
  unfold tmod
  rw [List.map_map]
  refine List.map_congr_left fun e _ => ?_
  by_cases h : e.1 = n <;> simp [h]

/-- A change of the job and then another. -/
theorem JudgedAs.trans {n : Nat} {f g : Job → Job} {s t u : State} (h : JudgedAs n f s t) (k : JudgedAs n g t u) :
    JudgedAs n (fun j => g (f j)) s u where
  jobs := by rw [k.jobs, h.jobs, tmod_tmod]
  mode e := (k.mode e).trans (h.mode e)
  registers := k.registers.trans h.registers
  starved := k.starved.trans h.starved

/-- A change of nothing that the judgement reads. -/
theorem JudgedAs.same {n : Nat} {s t : State} (hj : t.jobs = s.jobs)
    (hm : ∀ e, (t.engine e).status.mode = (s.engine e).status.mode) (hr : t.registers = s.registers)
    (hs : t.starved = s.starved) : JudgedAs n id s t where
  jobs := by
    rw [hj]
    unfold tmod
    simp
  mode := hm
  registers := hr
  starved := hs

/-- A change of the job. -/
theorem JudgedAs.modJob (n : Nat) (f : Job → Job) (s : State) : JudgedAs n f s (s.modJob n f) :=
  ⟨rfl, fun _ => rfl, rfl, rfl⟩

/-- A notice. -/
theorem JudgedAs.raise (n : Nat) (m : Notice) (s : State) : JudgedAs n id s (raise m s) := by
  rw [raise_same m s]
  exact .same rfl (fun _ => rfl) rfl rfl

/-- The references of a job. -/
theorem JudgedAs.takeRefs (n : Nat) (ks : List SlotKey) (s : State) : JudgedAs n id s (takeRefs ks s) := by
  unfold Machine.takeRefs
  induction ks generalizing s with
  | nil => exact .same rfl (fun _ => rfl) rfl rfl
  | cons k ks ih => exact .trans (.same (t := takeRef k s) rfl (fun _ => rfl) rfl rfl) (ih _)

/-- The same where they may be held still. -/
theorem JudgedAs.retakeRefs (n : Nat) (j : Job) (s : State) : JudgedAs n id s (retakeRefs j s) := by
  unfold Machine.retakeRefs
  split
  · exact .same rfl (fun _ => rfl) rfl rfl
  · exact .takeRefs n _ s

/-- A job enters its queue. -/
theorem enterQueue_judged (n a : Nat) (s : State) : JudgedAs n (fun j => { j with
    state := .queued, attempt := a, lane := none, applied := none, entryOrder := s.entryCount + 1 }) s
      (enterQueue n a s) := ⟨rfl, fun _ => rfl, rfl, rfl⟩

/-- A return to the queue makes the job QUEUED and leaves its colours. -/
theorem requeue_judged {n : Nat} {j : Job} (a : Nat) (why : RequeueReason) (r : Option FaultRecord) {s : State}
    (hj : s.job? n = some j) : ∃ f : Job → Job, (∀ j, (f j).state = .queued ∧ (f j).colourNeed = j.colourNeed) ∧
      JudgedAs n f s (requeue n a why r s) := by
  rw [requeue_eq a why r hj]
  refine ⟨_, ?_, ((JudgedAs.retakeRefs n j s).trans (enterQueue_judged n a _)).trans (.raise n _ _)⟩
  exact fun _ => ⟨rfl, rfl⟩

section Failing

variable {n : Nat} {j : Job} {r : FaultRecord} {s : State} (hj : s.job? n = some j) (hr : j.lastFault = some r)

include hj hr

/-- A failure makes the job FAILED. -/
theorem failJob_judged : ∃ f : Job → Job, (∀ j, (f j).state = .failed) ∧ JudgedAs n f s (failJob n s) := by
  rw [failJob_eq hj hr]
  refine ⟨_, ?_, ((JudgedAs.retakeRefs n j s).trans (.modJob n _ _)).trans (.raise n _ _)⟩
  exact fun _ => rfl

/-- A spoil makes the job QUEUED or FAILED, by its attempt. -/
theorem spoilDecision_judged : ∃ f : Job → Job, (∀ j',
    ((f j').state = .queued ↔ j.attempt < 3) ∧ (j.attempt < 3 → (f j').colourNeed = j'.colourNeed)) ∧
      JudgedAs n f s (spoilDecision n s) := by
  by_cases ha : j.attempt < 3
  · rw [spoilDecision_returns hj hr ha]
    refine ⟨_, ?_, ((JudgedAs.retakeRefs n j s).trans (enterQueue_judged n (j.attempt + 1) _)).trans (.raise n _ _)⟩
    exact fun _ => ⟨⟨fun _ => ha, fun _ => rfl⟩, fun _ => rfl⟩
  · rw [spoilDecision_fails hj ha]
    obtain ⟨f, hf, h⟩ := failJob_judged hj hr
    exact ⟨f, fun j' => ⟨by simp [hf, ha], fun h => absurd h ha⟩, h⟩

end Failing

/-! ### The job that a fault names: what is raised (R90, R106) -/

/-- A fault that is recorded is no business of the ports. -/
theorem recordFault_desk (n : Nat) (c : FaultCause) (p : FaultParam) (s : State) : SameDesk s (recordFault n c p s) :=
  ⟨rfl, rfl⟩

/-- A fault that is recorded changes the job alone. -/
theorem recordFault_judged (n : Nat) (c : FaultCause) (p : FaultParam) (s : State) :
    JudgedAs n (fun j => { j with lastFault := some ⟨c, p, s.clock⟩ }) s (recordFault n c p s) := .modJob n _ s

/-- A job that is not superseded returns, whatever would serve the engines. -/
theorem returnByFaultBy_current {n : Nat} {j : Job} (look : State → State) (c : FaultCause) (p : FaultParam)
    (terminal : JobState) {s : State} (hj : s.job? n = some j) (hs : j.superseded = false) :
    returnByFaultBy look n c p terminal s =
      requeue n j.attempt .fault (some ⟨c, p, s.clock⟩) (recordFault n c p s) := by
  unfold returnByFaultBy
  dsimp only
  rw [recordFault_job c p hj]
  exact if_neg (by rw [hs]; exact Bool.false_ne_true)

/-- A job that is not superseded is spoiled, whatever would serve the engines. -/
theorem spoilBy_current {n : Nat} {j : Job} (look : State → State) (c : FaultCause) (p : FaultParam) {s : State}
    (hj : s.job? n = some j) (hs : j.superseded = false) :
    spoilBy look n c p s = spoilDecision n (recordFault n c p s) := by
  unfold spoilBy
  dsimp only
  rw [recordFault_job c p hj]
  exact if_neg (by rw [hs]; exact Bool.false_ne_true)

section Told

variable {e : EngineId} {n : Nat} {cause : FaultCause} {j : Job} {o v : State} (hv : JudgedAs n id o v)
  (ho : JobsOrdered o) (hj : o.job? n = some j) (hs : j.superseded = false)

include hv ho hj hs

omit ho hs in
/-- The job's record is the same at the fault. -/
theorem JudgedAs.job : v.job? n = some j := by
  unfold State.job?
  rw [hv.jobs, tget_tmod, if_pos rfl]
  exact congrArg (Option.map id) hj

/-- The job returns, and the condition is judged. -/
theorem namedReturns_raised : Raised
    ([.jobRequeued n j.attempt .fault (some ⟨cause, .engine e, v.clock⟩)] ++
      starvedNotices o n (decide (j.colourNeed = .colour))) v (namedReturns e n cause v) := by
  unfold namedReturns
  rw [returnByFaultBy_current _ _ _ _ (hv.job hj) hs]
  have record := recordFault_job cause (.engine e) (hv.job hj)
  obtain ⟨f, hf, back⟩ := requeue_judged j.attempt .fault (some ⟨cause, .engine e, v.clock⟩) record
  have notice := ((hv.trans (recordFault_judged n cause (.engine e) v)).trans back).notice ho hj
  rw [(hf _).1, (hf _).2] at notice
  refine .trans (.after (recordFault_desk n cause _ v) (requeue_raised _ _ _ record)) ?_
  have judged := evalStarved_raised (requeue n j.attempt .fault (some ⟨cause, .engine e, v.clock⟩)
    (recordFault n cause (.engine e) v))
  rw [notice] at judged
  simpa using judged

/-- The job is spoiled, and the condition is judged. -/
theorem namedSpoils_raised : Raised (spoilNotices n ⟨cause, .engine e, v.clock⟩ j ++
      starvedNotices o n (decide (j.colourNeed = .colour) && decide (j.attempt < 3))) v (namedSpoils e n cause v) := by
  unfold namedSpoils
  rw [spoilBy_current _ _ _ (hv.job hj) hs]
  have record := recordFault_job cause (.engine e) (hv.job hj)
  obtain ⟨f, hf, back⟩ := spoilDecision_judged record rfl
  have notice := ((hv.trans (recordFault_judged n cause (.engine e) v)).trans back).notice ho hj
  have joins : (decide ((f { j with lastFault := some ⟨cause, .engine e, v.clock⟩ }).state = .queued) &&
      decide ((f { j with lastFault := some ⟨cause, .engine e, v.clock⟩ }).colourNeed = .colour)) =
        (decide (j.colourNeed = .colour) && decide (j.attempt < 3)) := by
    obtain ⟨queued, colour⟩ := hf { j with lastFault := some ⟨cause, .engine e, v.clock⟩ }
    by_cases ha : j.attempt < 3
    · rw [queued.mpr ha, colour ha]
      simp [ha]
    · simp [ha, queued]
  have raised := spoilDecision_raised record rfl hs
  have spoiled : Raised (spoilNotices n ⟨cause, .engine e, v.clock⟩ j) (recordFault n cause (.engine e) v) _ := raised
  refine .trans (.after (recordFault_desk n cause _ v) spoiled) ?_
  have judged := evalStarved_raised (spoilDecision n (recordFault n cause (.engine e) v))
  rw [notice] at judged
  exact joins ▸ judged

end Told

/-! ### The job that a fault names: what becomes of it (R63, R65 to R67) -/

/-- A fault of a job's own that costs no attempt returns it, or ends it. -/
theorem returnByFaultBy_back {look : State → State} (hl : ∀ s, JobsOrdered s → Reacts NoJob s (look s)) (n : Nat)
    (c : FaultCause) (p : FaultParam) (terminal : JobState) {s : State} (ho : JobsOrdered s)
    (ht : terminal ≠ .uncertain := by decide) :
    TakenBy n ⟨c, p, s.clock⟩ s (returnByFaultBy look n c p terminal s) := by
  intro j hj
  have record := recordFault_job c p hj
  have before := recordFault_reacts (D := AnyJob) n c p s
  refine ⟨fun hs => ?_, fun hs => ?_⟩
  · have same : returnByFaultBy look n c p terminal s = returnByFault n c p terminal s :=
      (returnByFaultBy_current look c p terminal hj hs).trans (returnByFaultBy_current serve c p terminal hj hs).symm
    rw [same]
    exact returnByFault_returned c p terminal hj hs
  · unfold returnByFaultBy
    dsimp only
    rw [record]
    dsimp only
    rw [if_pos hs]
    exact (departBy_ended hl n terminal (Reacts.jobs_ordered ho before) ht).since (Reacts.entry_le before)

/-- A spoil returns a job, makes it FAILED, or ends it. -/
theorem spoilBy_spoiled {look : State → State} (hl : ∀ s, JobsOrdered s → Reacts NoJob s (look s)) (n : Nat)
    (c : FaultCause) (p : FaultParam) {s : State} (ho : JobsOrdered s) :
    Spoiled n ⟨c, p, s.clock⟩ s (spoilBy look n c p s) := by
  intro j hj
  have record := recordFault_job c p hj
  have before := recordFault_reacts (D := AnyJob) n c p s
  have same (hs : j.superseded = false) : spoilBy look n c p s = spoil n c p s :=
    (spoilBy_current look c p hj hs).trans (spoilBy_current serve c p hj hs).symm
  refine ⟨fun hs ha => ?_, fun hs ha => ?_, fun hs => ?_⟩
  · rw [same hs]
    exact spoil_returned c p hj hs ha
  · rw [same hs]
    exact ⟨_, spoil_failed c p hj hs ha, .refl _⟩
  · unfold spoilBy
    dsimp only
    rw [record]
    dsimp only
    rw [if_pos hs]
    exact (departBy_ended hl n .discarded (Reacts.jobs_ordered ho before)).since (Reacts.entry_le before)

/-- A job that is spoiled stays so through what does not take it. -/
theorem Spoiled.stays {n : Nat} {f : FaultRecord} {b t u : State} (h : Spoiled n f b t)
    (hb : b.entryCount ≤ t.entryCount) (hr : Reacts D t u) (hn : ¬ D n) : Spoiled n f b u := by
  intro j hj
  obtain ⟨back, failed, ended⟩ := h j hj
  refine ⟨fun hs ha => (back hs ha).stays hr hn, fun hs ha => ?_, fun hs => Reacts.ended hr hn hb (ended hs)⟩
  obtain ⟨j', hj', stays⟩ := failed hs ha
  obtain ⟨i, hi, more⟩ := Reacts.job_stays hr hn hj'
  exact ⟨i, hi, stays.trans more⟩

/-- A job is spoiled since a state in which it has the same record, and no later place in the entry order is given. -/
theorem Spoiled.since {n : Nat} {f : FaultRecord} {b s t : State} (h : Spoiled n f s t) (hj : b.job? n = s.job? n)
    (hb : b.entryCount ≤ s.entryCount) : Spoiled n f b t := by
  intro j hj'
  obtain ⟨back, failed, ended⟩ := h j (hj ▸ hj')
  exact ⟨fun hs ha => (back hs ha).since hb, failed, fun hs => (ended hs).since hb⟩

/-- The condition is judged without taking a job. -/
theorem judging_reacts (s : State) (_ : JobsOrdered s) : Reacts NoJob s (evalStarved s) := evalStarved_reacts s

/-- The job that a fault names returns, or ends. -/
theorem namedReturns_takenBy (e : EngineId) (n : Nat) (cause : FaultCause) {s : State} (ho : JobsOrdered s) :
    TakenBy n ⟨cause, .engine e, s.clock⟩ s (namedReturns e n cause s) := by
  have back := (takenBy_iff _ _ _ _).mp (returnByFaultBy_back judging_reacts n cause (.engine e) .cancelled ho)
  have chain : Reacts AnyJob s (returnByFaultBy evalStarved n cause (.engine e) .cancelled s) :=
    returnByFaultBy_reacts (fun s _ => evalStarved_reacts s) n cause (.engine e) .cancelled ho
  exact back.stays (D := NoJob) (Reacts.entry_le chain) (evalStarved_reacts _) id

/-- The job that a fault names is spoiled. -/
theorem namedSpoils_spoiled (e : EngineId) (n : Nat) (cause : FaultCause) {s : State} (ho : JobsOrdered s) :
    Spoiled n ⟨cause, .engine e, s.clock⟩ s (namedSpoils e n cause s) := by
  have spoiled := spoilBy_spoiled judging_reacts n cause (.engine e) ho
  have chain : Reacts AnyJob s (spoilBy evalStarved n cause (.engine e) s) :=
    spoilBy_reacts (fun s _ => evalStarved_reacts s) n cause (.engine e) ho
  exact spoiled.stays (D := NoJob) (Reacts.entry_le chain) (evalStarved_reacts _) id

/-! ### The fault whole -/

/-- A state whose engine holds other contexts, its cancel list joined by these entries, for which the commands are
sent. -/
def leftBy (e : EngineId) (c : Contexts) (gone : List CancelEntry) (s : State) : State :=
  leaves e (fun x => { x with ctx := { c with cancel := joinCancel c.cancel gone } }) (gone.map (commandFor e)) s

section LeftBy

variable (e : EngineId) (c : Contexts) (gone : List CancelEntry) (s : State)

/-- The engine's record then. -/
theorem engine_leftBy : (leftBy e c gone s).engine e =
    { s.engine e with ctx := { c with cancel := joinCancel c.cancel gone } } := by
  unfold leftBy
  rw [engine_leaves, if_pos rfl]

/-- Where the engine then faults, the state is the one that the statements write out. -/
theorem afterFault_leftBy (cause : EngineFaultCause) :
    afterFault e cause ((leftBy e c gone s).engine e).ctx [] (leftBy e c gone s) = afterFault e cause c gone s := by
  have after (t : State) (d : Contexts) (g : List CancelEntry) : afterFault e cause d g t = leaves e (fun _ =>
      { t.engine e with
        status := faultStatus cause t.clock (t.engine e).status
        ctx := ⟨if (t.engine e).status.faultFlag then none else d.current, none, none, joinCancel d.cancel
          (g ++ (if (t.engine e).status.faultFlag then aborting t d.current else []) ++ leaving t d.next ++
            leaving t d.parked)⟩ })
      ((g ++ (if (t.engine e).status.faultFlag then aborting t d.current else []) ++ leaving t d.next ++
            leaving t d.parked).map (commandFor e)) t := rfl
  rw [after, after, engine_leftBy]
  unfold leftBy
  rw [leaves_leaves]
  refine leaves_congr ?_ ?_
  · dsimp only
    rw [← joinCancel_append, List.nil_append, List.append_assoc, List.append_assoc, List.append_assoc]
    rfl
  · rw [← List.map_append, List.nil_append, List.append_assoc, List.append_assoc, List.append_assoc]
    rfl

/-- The state once the engine's other jobs have left too. -/
theorem vacated_leftBy : ∃ (f : Engine → Engine) (l : List LineCommand), (∀ x, (f x).status = x.status) ∧
    vacated e (leftBy e c gone s) = leaves e f l s := by
  rw [vacated_eq]
  unfold leftBy
  rw [leaves_leaves]
  refine ⟨_, _, ?_, rfl⟩
  exact fun _ => rfl

/-- The judgement of the condition reads nothing of that. -/
theorem vacated_leftBy_judged (n : Nat) : JudgedAs n id s (vacated e (leftBy e c gone s)) := by
  obtain ⟨f, l, hf, h⟩ := vacated_leftBy e c gone s
  rw [h]
  refine .same rfl (fun q => ?_) rfl rfl
  rw [engine_leaves]
  split
  · rw [hf]
  · rfl

/-- Nor do the ports change, or the clock. -/
theorem vacated_leftBy_desk : SameDesk s (vacated e (leftBy e c gone s)) := by
  obtain ⟨f, l, -, h⟩ := vacated_leftBy e c gone s
  rw [h]
  exact ⟨rfl, rfl⟩

/-- Nor are places in the entry order given. -/
theorem vacated_leftBy_entry : (vacated e (leftBy e c gone s)).entryCount = s.entryCount := by
  obtain ⟨f, l, -, h⟩ := vacated_leftBy e c gone s
  rw [h]
  rfl

/-- Nor does a job change. -/
theorem vacated_leftBy_jobs : (vacated e (leftBy e c gone s)).jobs = s.jobs := jobs_vacated e (leftBy e c gone s)

end LeftBy

section Named

variable {e : EngineId} {cause : EngineFaultCause} {n : Nat} {j : Job} {f : FaultCause} {c : Contexts}
  {gone : List CancelEntry} {o : State}

/-- The state from which the engine's notice is raised. -/
abbrev atNotice (e : EngineId) (cause : EngineFaultCause) (named : State → State) (c : Contexts)
    (gone : List CancelEntry) (o : State) : State := faulted e cause named (leftBy e c gone o)

/-- Setting the engine's record is no business of the job table. -/
theorem jobsOrdered_faulted {named : State → State} {s : State} (h : JobsOrdered (named (vacated e s))) :
    JobsOrdered (faulted e cause named s) := h

/-- Nor does it give places in the entry order. -/
theorem entry_faulted {named : State → State} {s : State} {m : Nat} (h : m ≤ (named (vacated e s)).entryCount) :
    m ≤ (faulted e cause named s).entryCount := h

/-- Nor does it touch a job that has come back. -/
theorem back_faulted {named : State → State} {s b : State} {m : Nat} {g : Job → Nat × Option FaultRecord}
    (h : Back m g b (named (vacated e s))) : Back m g b (faulted e cause named s) := h

/-- Nor a job that has been spoiled. -/
theorem spoiled_faulted {named : State → State} {s b : State} {m : Nat} {r : FaultRecord}
    (h : Spoiled m r b (named (vacated e s))) : Spoiled m r b (faulted e cause named s) := h

/-- What the statement asks of the fault whole, from what the job named becomes and what is raised of it. -/
theorem engineFaults_named {i : Instr} {named : State → State} {ns : List Notice} {P : State → Prop}
    (hexec : exec i o = .next (engineFault e cause (some n) named (leftBy e c gone o))) (hs : JobsOrdered o)
    (hm : (o.engine e).status.mode ≠ .lockedOut) (hn : NamesOnly (some n) named)
    (htold : j.superseded = false → Raised ns (vacated e (leftBy e c gone o)) (named (vacated e (leftBy e c gone o))))
    (hP : ∀ t, t = faultRest (takenOf ((leftBy e c gone o).engine e))
      (faultNotice (leftBy e c gone o) e cause (some n)) (atNotice e cause named c gone o) → P t) :
    EngineFaults i e cause (some n) c gone
      (if j.superseded then [] else ns ++ [faultNotice o e cause (some n)]) o o P := by
  have record := engine_leftBy e c gone o
  have flag : faultNotice (leftBy e c gone o) e cause (some n) = faultNotice o e cause (some n) := by
    unfold faultNotice
    rw [record]
  refine engineFaults_of hexec hs (by rw [record]; exact hm) hn (afterFault_leftBy e c gone o cause) (fun m => ?_) rfl
    rfl (fun t ht => ?_) (hP _ rfl)
  · rw [mem_takenOf, record]
    rfl
  · rw [flag] at ht
    cases hsup : j.superseded with
    | true =>
      have first := faulted_reacts (e := e) (cause := cause) (s := leftBy e c gone o) hn
      rw [afterFault_leftBy] at first
      exact .none (first.ports_kept.trans
        ((raise_reacts (D := AnyJob) (faultNotice o e cause (some n)) _).ports_kept.trans ht))
    | false =>
      have same : SameDesk (afterFault e cause c gone o) (vacated e (leftBy e c gone o)) :=
        vacated_leftBy_desk e c gone o
      refine same.tells (ns := ns ++ [faultNotice o e cause (some n)]) ?_ ht
      have set : SameDesk (named (vacated e (leftBy e c gone o))) (atNotice e cause named c gone o) := ⟨rfl, rfl⟩
      exact ((htold hsup).before set).trans (raised_one (faultNotice o e cause (some n)) _)

/-- A fault whose job returns. -/
theorem engineFaults_returns {i : Instr}
    (hexec : exec i o = .next (engineFault e cause (some n) (namedReturns e n f) (leftBy e c gone o)))
    (hs : JobsOrdered o) (hm : (o.engine e).status.mode ≠ .lockedOut) (hj : o.job? n = some j) :
    EngineFaults i e cause (some n) c gone
      (if j.superseded then [] else [.jobRequeued n j.attempt .fault (some ⟨f, .engine e, o.clock⟩)] ++
        starvedNotices o n (decide (j.colourNeed = .colour)) ++ [faultNotice o e cause (some n)])
      o o (TakenBy n ⟨f, .engine e, o.clock⟩ o) := by
  have clock : (vacated e (leftBy e c gone o)).clock = o.clock := (vacated_leftBy_desk e c gone o).2
  have jobs := vacated_leftBy_jobs e c gone o
  have ordered : JobsOrdered (vacated e (leftBy e c gone o)) := by
    unfold JobsOrdered
    rw [jobs]
    exact hs
  have named := namedFirst_returns e n f
  refine engineFaults_named hexec hs hm (namesOnly_returns e n f) (fun hsup => ?_) fun t ht => ?_
  · rw [← clock]
    exact namedReturns_raised (vacated_leftBy_judged e c gone o n) hs hj hsup
  · have taken : Back n (fun j => (j.attempt, some ⟨f, .engine e, o.clock⟩)) _ _ :=
      clock ▸ namedReturns_takenBy e n f ordered
    have entry := Reacts.entry_le (named.reacts _ ordered)
    have set : Back n (fun j => (j.attempt, some ⟨f, .engine e, o.clock⟩)) (vacated e (leftBy e c gone o))
        (atNotice e cause (namedReturns e n f) c gone o) := back_faulted taken
    have entry := entry_faulted (e := e) (cause := cause) (named := namedReturns e n f) entry
    have named : JobsOrdered (atNotice e cause (namedReturns e n f) c gone o) :=
      jobsOrdered_faulted (Reacts.jobs_ordered ordered (named.reacts _ ordered))
    have rest := set.faultRest (takenOf_ends ((leftBy e c gone o).engine e))
      (faultNotice (leftBy e c gone o) e cause (some n)) named entry
    rw [← ht] at rest
    exact (takenBy_iff _ _ _ _).mpr
      (rest.since (job?_of_jobs jobs n).symm (vacated_leftBy_entry e c gone o).ge)

/-- A fault whose job is spoiled. -/
theorem engineFaults_spoils {i : Instr}
    (hexec : exec i o = .next (engineFault e cause (some n) (namedSpoils e n f) (leftBy e c gone o)))
    (hs : JobsOrdered o) (hm : (o.engine e).status.mode ≠ .lockedOut) (hj : o.job? n = some j)
    (hw : ¬ WaitsIn c n) (hc : ∀ w, c.current = some w → w.job ≠ n) :
    EngineFaults i e cause (some n) c gone
      (if j.superseded then [] else spoilNotices n ⟨f, .engine e, o.clock⟩ j ++
        starvedNotices o n (decide (j.colourNeed = .colour) && decide (j.attempt < 3)) ++
          [faultNotice o e cause (some n)])
      o o (Spoiled n ⟨f, .engine e, o.clock⟩ o) := by
  have clock : (vacated e (leftBy e c gone o)).clock = o.clock := (vacated_leftBy_desk e c gone o).2
  have jobs := vacated_leftBy_jobs e c gone o
  have ordered : JobsOrdered (vacated e (leftBy e c gone o)) := by
    unfold JobsOrdered
    rw [jobs]
    exact hs
  have named := namedFirst_spoils e n f
  refine engineFaults_named hexec hs hm (namesOnly_spoils e n f) (fun hsup => ?_) fun t ht => ?_
  · rw [← clock]
    exact namedSpoils_raised (vacated_leftBy_judged e c gone o n) hs hj hsup
  · have spoiled : Spoiled n ⟨f, .engine e, o.clock⟩ (vacated e (leftBy e c gone o))
        (atNotice e cause (namedSpoils e n f) c gone o) :=
      spoiled_faulted (clock ▸ namedSpoils_spoiled e n f ordered)
    have entry := Reacts.entry_le (named.reacts _ ordered)
    have entry := entry_faulted (e := e) (cause := cause) (named := namedSpoils e n f) entry
    have named : JobsOrdered (atNotice e cause (namedSpoils e n f) c gone o) :=
      jobsOrdered_faulted (Reacts.jobs_ordered ordered (named.reacts _ ordered))
    have rest := faultRest_reacts (takenOf_ends ((leftBy e c gone o).engine e))
      (faultNotice (leftBy e c gone o) e cause (some n)) named
    rw [← ht] at rest
    refine (spoiled.stays entry rest ?_).since (job?_of_jobs jobs n).symm (vacated_leftBy_entry e c gone o).ge
    rw [mem_takenOf, engine_leftBy]
    rintro (h | ⟨-, w, hw', hj'⟩)
    · exact hw h
    · exact hc w hw' hj'

end Named

end Sys2Proof.Machine
end

section
/-! Proofs of the statements about loads and exposures that end (O36, O37, O38) and about an unreadable raster (O35). -/

namespace Sys2Proof.Machine

open State

/-! ### A job leaves its context -/

section Leaving

variable (e : EngineId) (n : Nat) (s : State)

/-- A waiting job leaves with a command. -/
theorem leaveWaiting_eq (cmd : CancelCommand) : leaveWaiting e n cmd s =
    leftBy e ((s.engine e).ctx.without n) [⟨n, (s.attemptOf n).getD 0, cmd⟩] s := by
  have left : s.modCtx e (withoutWaiting n) =
      leaves e (fun x => { x with ctx := withoutWaiting n x.ctx }) [] s := by
    unfold leaves
    rw [List.append_nil]
    rfl
  unfold leaveWaiting leftBy
  have cancels := forSome_cancel_eq (some n) id (fun _ => cmd) e (s.modCtx e (withoutWaiting n))
  change cancelJob e n cmd (s.modCtx e (withoutWaiting n)) = _ at cancels
  rw [cancels, left, leaves_leaves]
  exact leaves_congr rfl rfl

/-- A job that is exposed, or about to be, leaves without one. -/
theorem leaveExposure_eq : leaveExposure e n s =
    leftBy e { (s.engine e).ctx.without n with current := (s.engine e).ctx.current.filter fun w => w.job ≠ n } [] s := by
  have left : leaveExposure e n s = leaves e (fun x =>
      { x with ctx := withoutWaiting n { x.ctx with current := x.ctx.current.filter fun w => w.job ≠ n } }) [] s := by
    unfold leaves
    rw [List.append_nil]
    rfl
  rw [left]
  exact leaves_congr rfl rfl

/-- The current job leaves with ABORT. -/
theorem abortCurrent_leftBy : abortCurrent e s =
    leftBy e { (s.engine e).ctx with current := none } (aborting s (s.engine e).ctx.current) s := by
  rw [abortCurrent_eq]
  exact leaves_congr rfl rfl

end Leaving

/-- The attempt of a live job. -/
theorem attemptOf_job {s : State} {n : Nat} {j : Job} (hj : s.job? n = some j) : (s.attemptOf n).getD 0 = j.attempt := by
  unfold State.attemptOf
  rw [hj]
  rfl

/-! ### LOAD_FAULT and the LOAD timer (R84, R90) -/

section LoadTimer

variable {e : EngineId} {s : State} {place : WaitingContext} {w : WaitingCtx}

/-- An empty context has no timer. -/
theorem loadTimerExpiry_empty (h : waitingOf (s.engine e).ctx place = none) : loadTimerExpiry e place s = s := by
  unfold loadTimerExpiry
  rw [h]

/-- A timer that does not run. -/
theorem loadTimerExpiry_stopped (h : waitingOf (s.engine e).ctx place = some w) (ht : w.timer = none) :
    loadTimerExpiry e place s = s := by
  unfold loadTimerExpiry
  rw [h]
  simp [ht]

/-- A timer that runs. -/
theorem loadTimerExpiry_runs (h : waitingOf (s.engine e).ctx place = some w) (ht : w.timer ≠ none) :
    loadTimerExpiry e place s = engineFault e .loadTimeout (some w.job) (namedReturns e w.job .loadTimeout)
      (leftBy e ((s.engine e).ctx.without w.job) (leaving s (some w)) s) := by
  unfold loadTimerExpiry loadTimeout
  rw [h]
  dsimp only
  rw [if_pos (Option.isSome_iff_ne_none.mpr ht), leaveWaiting_eq, leaving_eq]
  rfl

end LoadTimer

/-- Settles O36: a LOAD_FAULT and an expiry are faults whose job returns. -/
theorem loadFails : Obligations.LoadFails := by
  intro e s htab hm x ns
  have hout : (s.engine e).status.mode ≠ .lockedOut := by rw [hm]; decide
  refine ⟨?_, fun place w j hw hj => ?_, fun hn => ?_, fun hp => ?_⟩
  · intro n a code j hj c hx f
    refine engineFaults_returns ?_ htab.jobs hout hj
    rw [← attemptOf_job hj, ← leaveWaiting_eq]
    exact exec_expected (.loadFault (.code code)) hx
  · have hw : waitingOf x place = some w := by
      obtain ⟨rfl, hw⟩ | ⟨rfl, hw⟩ := hw <;> exact hw
    refine ⟨?_, fun ht => ?_⟩
    · intro ht f
      refine engineFaults_returns ?_ htab.jobs hout hj
      rw [← loadTimerExpiry_runs hw ht]
      rfl
    · exact congrArg Host.Outcome.next (loadTimerExpiry_stopped hw ht)
  · exact congrArg Host.Outcome.next (loadTimerExpiry_empty (place := .next) hn)
  · exact congrArg Host.Outcome.next (loadTimerExpiry_empty (place := .parked) hp)

/-! ### EXPOSE_FAULT and the EXPOSE timer (R87 to R90) -/

/-- The parked job moves to an empty next context. -/
theorem parkedReturn_eq (c : Contexts) : c.parkedReturn = c.settled := by
  unfold Contexts.parkedReturn Contexts.settled
  cases c.next <;> rfl

/-- A job has left, and the parked job moves to next. -/
theorem leftBy_settled (e : EngineId) (c : Contexts) (gone : List CancelEntry) (s : State) :
    (leftBy e c gone s).modCtx e Contexts.parkedReturn =
      { withEngine e { s.engine e with
          ctx := Contexts.settled { c with cancel := joinCancel c.cancel gone } } s with
        lineSent := s.lineSent ++ gone.map (commandFor e) } := by
  have moves : (leftBy e c gone s).modCtx e Contexts.parkedReturn =
      leaves e (fun x => { x with ctx := x.ctx.parkedReturn }) [] (leftBy e c gone s) := by
    unfold leaves
    rw [List.append_nil]
    rfl
  have written : ({ withEngine e { s.engine e with
      ctx := Contexts.settled { c with cancel := joinCancel c.cancel gone } } s with
        lineSent := s.lineSent ++ gone.map (commandFor e) } : State) =
      leaves e (fun _ => { s.engine e with ctx := Contexts.settled { c with cancel := joinCancel c.cancel gone } })
        (gone.map (commandFor e)) s := rfl
  rw [moves, written]
  unfold leftBy
  rw [leaves_leaves, List.append_nil]
  exact leaves_congr (by simp only [parkedReturn_eq]) rfl

/-- A job whose fault costs no attempt, and no engine its mode: it returns or ends, and what follows takes no job. -/
theorem returnByFault_reacting {c : Instr} {n : Nat} {cause : FaultCause} {p : FaultParam} {terminal : JobState}
    {j : Job} {s u v : State} (hexec : exec c s = .next v) (hv : Reacts NoJob (returnByFault n cause p terminal u) v)
    (ht : terminal ≠ .uncertain) (hs : JobsOrdered u) (hj : u.job? n = some j) (hjobs : u.jobs = s.jobs)
    (hentry : s.entryCount = u.entryCount) (hclock : u.clock = s.clock) :
    RaisesReacting c (if j.superseded then [] else [.jobRequeued n j.attempt .fault (some ⟨cause, p, s.clock⟩)]) s u
      (fun m => m = n) (TakenBy n ⟨cause, p, s.clock⟩ s) := by
  have chain : Reacts (fun m => m = n) u (returnByFault n cause p terminal u) :=
    returnByFault_reacts n cause p terminal hs ht rfl
  refine raisesReacting_of hexec (chain.trans (hv.widen fun _ => False.elim)) ?_ ?_
  · cases hsup : j.superseded with
    | true => exact .none (chain.ports_kept.trans hv.ports_kept)
    | false =>
      have returns : returnByFault n cause p terminal u = _ := returnByFaultBy_current serve cause p terminal hj hsup
      have raised := (requeue_raised j.attempt .fault (some ⟨cause, p, u.clock⟩) (recordFault_job cause p hj)).after
        (recordFault_desk n cause p u)
      rw [← returns, hclock] at raised
      exact SameDesk.tells (.refl u) raised hv.ports_kept
  · have back : TakenBy n ⟨cause, p, u.clock⟩ u (returnByFault n cause p terminal u) :=
      returnByFaultBy_back (fun _ h => serve_reacts h) n cause p terminal hs ht
    rw [hclock] at back
    have served := ((takenBy_iff _ _ _ _).mp back).stays (D := NoJob) (Reacts.entry_le chain) hv id
    exact (takenBy_iff _ _ _ _).mpr (served.since (job?_of_jobs hjobs n).symm hentry.le)

/-- The engines are served once the job has gone. -/
theorem served_reacts {n : Nat} {cause : FaultCause} {p : FaultParam} {terminal : JobState} {u : State}
    (hs : JobsOrdered u) (ht : terminal ≠ .uncertain) :
    Reacts NoJob (returnByFault n cause p terminal u) (serve (returnByFault n cause p terminal u)) :=
  serve_reacts (Reacts.jobs_ordered hs (returnByFault_reacts (D := AnyJob) n cause p terminal hs ht))

section ExposeFault

variable {e : EngineId} {n : Nat} {s : State}

/-- The cut mark of a job that is exposed, or about to be. -/
theorem isCut_iff : isCut s e n = true ↔ (∃ w, (s.engine e).ctx.current = some w ∧ w.job = n ∧ w.cut = true) ∨
    ∃ w, (s.engine e).ctx.next = some w ∧ w.job = n ∧ w.cut = true := by
  unfold isCut
  rw [Bool.or_eq_true, Option.any_eq_true, Option.any_eq_true]
  simp only [Bool.and_eq_true, decide_eq_true_eq]

/-- A cut job returns with no engine fault. -/
theorem exposureFault_cut {b : Bool} (h : isCut s e n = true) : exposureFault e n b s =
    serve (returnByFault n .cut (.engine e) .discarded ((leaveExposure e n s).modCtx e Contexts.parkedReturn)) := by
  unfold exposureFault
  exact if_pos h

/-- A plate that was consumed is spoiled. -/
theorem exposureFault_consumed (h : ¬ isCut s e n = true) : exposureFault e n true s =
    engineFault e .exposeFault (some n) (namedSpoils e n .exposeFault) (leaveExposure e n s) := by
  unfold exposureFault
  exact if_neg h

/-- A plate that was not consumed goes back. -/
theorem exposureFault_interrupted (h : ¬ isCut s e n = true) : exposureFault e n false s =
    engineFault e .exposeInterrupted (some n) (namedReturns e n .exposeInterrupted) (leaveExposure e n s) := by
  unfold exposureFault
  exact if_neg h

/-- No EXPOSE timer runs while current is empty. -/
theorem exposeTimerExpiry_empty (h : (s.engine e).ctx.current = none) : exposeTimerExpiry e s = s := by
  unfold exposeTimerExpiry
  rw [h]

/-- The EXPOSE timer of the current job. -/
theorem exposeTimerExpiry_current {w : CurrentCtx} (h : (s.engine e).ctx.current = some w) : exposeTimerExpiry e s =
    engineFault e .exposeTimeout (some w.job) (namedSpoils e w.job .exposeTimeout)
      (leftBy e { (s.engine e).ctx with current := none } (aborting s (some w)) s) := by
  unfold exposeTimerExpiry
  rw [h, abortCurrent_leftBy, h]

end ExposeFault

/-- No waiting context holds a job that has left. -/
theorem not_waitsIn_without (c : Contexts) (n : Nat) : ¬ WaitsIn (c.without n) n := by
  have left (w : Option WaitingCtx) : ∀ y, w.filter (fun w => w.job ≠ n) = some y → y.job ≠ n := by
    intro y hy
    rw [Option.filter_eq_some_iff] at hy
    exact of_decide_eq_true hy.2
  rintro (⟨w, hw, hn⟩ | ⟨w, hw, hn⟩) <;> exact left _ w hw hn

/-- Settles O38: a cut job returns; any other exposure that fails is a fault that names its job. -/
theorem exposureFails : Obligations.ExposureFails := by
  intro e s htab x
  refine ⟨?_, ?_, fun hc => congrArg Host.Outcome.next (exposeTimerExpiry_empty hc)⟩
  · intro n a consumed j hj c hx left fault cut returns
    have hexec : exec c s = .next (exposureFault e n.toNat consumed s) := exec_expected (.exposeFault consumed) hx
    have hout : (s.engine e).status.mode ≠ .lockedOut := by rcases hx.mode with h | h <;> simp [h]
    refine ⟨fun hc => ?_, fun hc hb => ?_, fun hc hb => ?_⟩
    · have same := leaveExposure_eq e n.toNat s
      have settled := leftBy_settled e left [] s
      rw [exposureFault_cut (isCut_iff.mpr hc), same, settled] at hexec
      have nothing : s.lineSent ++ [].map (commandFor e) = s.lineSent := List.append_nil _
      rw [nothing] at hexec
      exact returnByFault_reacting (terminal := .discarded) hexec (served_reacts htab.jobs (by decide)) (by decide) htab.jobs hj rfl rfl rfl
    · subst hb
      rw [exposureFault_consumed fun h => hc (isCut_iff.mp h), leaveExposure_eq] at hexec
      refine engineFaults_spoils hexec htab.jobs hout hj (not_waitsIn_without _ _) fun w hw => ?_
      rw [Option.filter_eq_some_iff] at hw
      exact of_decide_eq_true hw.2
    · subst hb
      rw [exposureFault_interrupted fun h => hc (isCut_iff.mp h), leaveExposure_eq] at hexec
      have whole := engineFaults_returns hexec htab.jobs hout hj
      cases hs : j.superseded <;> simpa only [returns, hs, if_true, Bool.false_eq_true, if_false] using whole
  · intro hm w j hc hj hw f
    refine engineFaults_spoils ?_ htab.jobs hm hj hw fun w h => by cases h
    rw [← exposeTimerExpiry_current hc]
    rfl

/-! ### An unreadable raster (R10, R90) -/

section Raster

variable {e : EngineId} {n : Nat} {ref : U64} {s u : State} {j : Job}

/-- The first slot of a job that holds the reference. -/
theorem slotHolding_first {pre post : List SlotKey} {k : SlotKey} {o : Slot} (hslots : j.slots = pre ++ k :: post)
    (hpre : ∀ k' ∈ pre, ∀ o', s.slot? k' = some o' → o'.ref ≠ ref) (ho : s.slot? k = some o) (href : o.ref = ref) :
    slotHolding s j ref = some k := by
  unfold slotHolding
  rw [hslots, List.find?_append]
  have none : pre.find? (fun k => (s.slot? k).any fun x => x.ref = ref) = none := by
    rw [List.find?_eq_none]
    intro k' hk' h
    obtain ⟨o', ho', hr⟩ := Option.any_eq_true .. |>.mp h
    exact hpre k' hk' o' ho' (of_decide_eq_true hr)
  rw [none, List.find?_cons, ho]
  simp [href]

/-- No slot of a job holds the reference. -/
theorem slotHolding_none (h : ∀ k' ∈ j.slots, ∀ o', s.slot? k' = some o' → o'.ref ≠ ref) :
    slotHolding s j ref = none := by
  unfold slotHolding
  rw [List.find?_eq_none]
  intro k' hk' hany
  obtain ⟨o', ho', hr⟩ := Option.any_eq_true .. |>.mp hany
  exact h k' hk' o' ho' (of_decide_eq_true hr)

variable (hu : (leaveWaiting e n .discard s).modCtx e Contexts.parkedReturn = u) (hj : u.job? n = some j)

include hu hj

/-- A slot of the job holds the reference: the slot is BAD and the job FAILED. -/
theorem rasterUnreadable_bad {k : SlotKey} (hk : slotHolding u j ref = some k) (hs : j.superseded = false) :
    rasterUnreadable e n ref s = serve (markBad k n e (recordFault n .rasterUnreadable (.engine e) u)) := by
  unfold rasterUnreadable
  dsimp only
  rw [hu, hj]
  simp only [hk]
  exact if_neg (by rw [hs]; exact Bool.false_ne_true)

/-- The job returns, or ends, and the engines are served, once more at the end of one that has ended. -/
theorem rasterUnreadable_returns (h : slotHolding u j ref = none) :
    rasterUnreadable e n ref s = serve (returnByFault n .rasterUnreadable (.engine e) .cancelled u) := by
  unfold rasterUnreadable
  dsimp only
  rw [hu, hj]
  simp only [h]

/-- A superseded job ends, with a slot that holds the reference. -/
theorem rasterUnreadable_ends {k : SlotKey} (hk : slotHolding u j ref = some k) (hs : j.superseded = true) :
    rasterUnreadable e n ref s = returnByFault n .rasterUnreadable (.engine e) .cancelled u := by
  unfold rasterUnreadable returnByFault returnByFaultBy
  dsimp only
  rw [hu, hj, recordFault_job .rasterUnreadable (.engine e) hj]
  simp only [hk, hs, if_true]
  rfl

end Raster

/-- Two changes of a job are one. -/
theorem modJob_modJob (n : Nat) (f g : Job → Job) (s : State) :
    (s.modJob n f).modJob n g = s.modJob n fun x => g (f x) :=
  congrArg (fun x => ({ s with jobs := x } : State)) (tmod_tmod s.jobs n f g)

/-- The BAD mark and the failure of an ASSIGNED job, with their notices. -/
theorem markBad_eq {k : SlotKey} {n : Nat} {e : EngineId} {s : State} {j : Job} {o : Slot} (hj : s.job? n = some j)
    (hstate : j.state = .assigned) (ho : s.slot? k = some o) :
    markBad k n e (recordFault n .rasterUnreadable (.engine e) s) =
      raiseAll (.positionFailed j.key n j.attempt ⟨.rasterUnreadable, .engine e, s.clock⟩ ::
          if o.bad then [] else [.rasterBad k n e])
        ((s.modSlot k fun x => { x with bad := true }).modJob n fun j =>
          { j with state := .failed, lastFault := some ⟨.rasterUnreadable, .engine e, s.clock⟩ }) := by
  have record : ((recordFault n .rasterUnreadable (.engine e) s).modSlot k fun x => { x with bad := true }).job? n =
      some { j with lastFault := some ⟨.rasterUnreadable, .engine e, s.clock⟩ } := recordFault_job _ _ hj
  have was : ((recordFault n .rasterUnreadable (.engine e) s).slot? k).any Slot.bad = o.bad := by
    change (s.slot? k).any Slot.bad = o.bad
    rw [ho]
    rfl
  have held (t : State) : retakeRefs { j with lastFault := some ⟨.rasterUnreadable, .engine e, s.clock⟩ } t = t := by
    unfold retakeRefs
    exact if_pos (by rw [hstate]; rfl)
  have twice : ((recordFault n .rasterUnreadable (.engine e) s).modSlot k fun x => { x with bad := true }).modJob n
      (fun x => { x with state := .failed }) = (s.modSlot k fun x => { x with bad := true }).modJob n fun j =>
        { j with state := .failed, lastFault := some ⟨.rasterUnreadable, .engine e, s.clock⟩ } :=
    modJob_modJob n (fun j => { j with lastFault := some ⟨.rasterUnreadable, .engine e, s.clock⟩ })
      (fun x => { x with state := .failed }) (s.modSlot k fun x => { x with bad := true })
  unfold markBad
  dsimp only
  rw [was, failJob_eq record rfl, held, twice]
  generalize (s.modSlot k fun x => { x with bad := true }).modJob n _ = t
  cases o.bad
  · rw [if_neg Bool.false_ne_true, if_neg Bool.false_ne_true]
    rw [raiseAll, List.foldl_cons, List.foldl_cons, List.foldl_nil]
    rfl
  · rw [if_pos rfl, if_pos rfl]
    rw [raiseAll, List.foldl_cons, List.foldl_nil]
    rfl

namespace Raster

/-- Settles O35: the job leaves its engine, and is FAILED with the slot BAD, or returns, or ends. -/
theorem rasterUnreadable : Obligations.RasterUnreadable := by
  intro e n a ref s j htab c hx hj x f left u
  have hu : (leaveWaiting e n.toNat .discard s).modCtx e Contexts.parkedReturn = u := by
    rw [leaveWaiting_eq, attemptOf_job hj, leftBy_settled]
    rfl
  have hexec : exec c s = .next (Machine.rasterUnreadable e n.toNat ref s) :=
    exec_expected (.loadFault (.rasterUnreadable ref)) hx
  refine ⟨fun pre k post o hstate hs hslots hpre ho href => ?_, fun h => ?_⟩
  · have hk : slotHolding u j ref = some k := slotHolding_first hslots hpre ho href
    have failed : Table.ordered id (tmod s.jobs n.toNat fun j =>
        { j with state := .failed, lastFault := some f }) := ordered_tmod _ _ htab.jobs
    refine raisesServing_of failed (hexec.trans ?_)
    rw [rasterUnreadable_bad hu hj hk hs, markBad_eq (s := u) (o := o) hj hstate ho]
    rfl
  · cases hk : slotHolding u j ref with
    | none =>
      rw [rasterUnreadable_returns hu hj hk] at hexec
      exact returnByFault_reacting (terminal := .cancelled) hexec (served_reacts htab.jobs (by decide)) (by decide) htab.jobs hj rfl rfl rfl
    | some k =>
      have hs : j.superseded = true := h.resolve_left fun h => by
        rw [slotHolding_none (s := u) h] at hk
        cases hk
      rw [rasterUnreadable_ends hu hj hk hs] at hexec
      exact returnByFault_reacting hexec .refl (by decide) htab.jobs hj rfl rfl rfl

end Raster

end Sys2Proof.Machine
end

section
/-! Proof of the statement about exposures that start and end (O37). -/

namespace Sys2Proof.Machine

open State

/-! ### References that are released (R8, R58) -/

/-- What is left of a slot when some references on it are released. -/
def Slot.releasing (m : Nat) (x : Slot) : Option Slot :=
  if x.count - m = 0 ∧ x.current = false then none else some { x with count := x.count - m }

/-- One reference and then more. -/
theorem Slot.releasing_succ (m : Nat) (x : Slot) : (x.releasing 1).bind (Slot.releasing m) = x.releasing (m + 1) := by
  unfold Slot.releasing
  by_cases h : x.count - 1 = 0 ∧ x.current = false
  · rw [if_pos h, if_pos ⟨by omega, h.2⟩]
    rfl
  · have one : x.count - 1 - m = x.count - (m + 1) := by omega
    rw [if_neg h, Option.bind_some, one]

/-- A slot is freed when nothing holds it. -/
theorem slot?_freeIfDone (k k' : SlotKey) (s : State) : (freeIfDone k s).slot? k' =
    if k' = k then (s.slot? k').bind (Slot.releasing 0) else s.slot? k' := by
  unfold freeIfDone
  cases hk : s.slot? k with
  | none =>
    by_cases h : k' = k
    · subst h
      simp [hk]
    · simp [h]
  | some x =>
    dsimp only
    by_cases hd : x.count = 0 ∧ x.current = false
    · rw [if_pos (by simp [hd]), slot?_dropSlot]
      by_cases h : k' = k
      · subst h
        simp [hk, Slot.releasing, hd]
      · simp [h]
    · rw [if_neg (by simpa using hd)]
      by_cases h : k' = k
      · subst h
        simp [hk, Slot.releasing, hd]
      · simp [h]

/-- One reference is released. -/
theorem slot?_releaseRef (k k' : SlotKey) (s : State) : (releaseRef k s).slot? k' =
    if k' = k then (s.slot? k').bind (Slot.releasing 1) else s.slot? k' := by
  unfold releaseRef
  rw [slot?_freeIfDone, slot?_modCount]
  by_cases h : k' = k
  · rw [if_pos h, if_pos h, if_pos h, Option.bind_map]
    rfl
  · rw [if_neg h, if_neg h, if_neg h]

/-- The references of a job are released. -/
theorem slot?_releaseRefs (ks : List SlotKey) (k : SlotKey) (s : State) : (releaseRefs ks s).slot? k =
    if k ∈ ks then (s.slot? k).bind (Slot.releasing (ks.count k)) else s.slot? k := by
  induction ks generalizing s with
  | nil => rfl
  | cons a ks ih =>
    have step : (releaseRefs (a :: ks) s).slot? k = (releaseRefs ks (releaseRef a s)).slot? k := rfl
    rw [step, ih, slot?_releaseRef]
    by_cases h : k = a
    · subst h
      rw [if_pos rfl, if_pos List.mem_cons_self, List.count_cons_self]
      by_cases hm : k ∈ ks
      · rw [if_pos hm, Option.bind_assoc]
        exact congrArg _ (funext (Slot.releasing_succ _))
      · rw [if_neg hm, List.count_eq_zero.mpr hm]
    · rw [if_neg h, List.count_cons_of_ne (Ne.symm h)]
      simp [h]

/-- Releasing is what the statements say of it. -/
theorem releaseRefs_released (ks : List SlotKey) (s : State) : Released ks s (releaseRefs ks s) := by
  intro k
  rw [slot?_releaseRefs]
  refine ⟨fun hk => ?_, fun x hx => ⟨fun h => ?_, fun h => ?_⟩⟩
  · rw [hk]
    split <;> rfl
  · rw [if_neg h, hx]
  · rw [if_pos h, hx]
    rfl

/-- Only the raster table changes. -/
theorem releaseRef_slots (k : SlotKey) (s : State) : ∃ v, releaseRef k s = { s with slots := v } := by
  unfold releaseRef freeIfDone
  split
  · split <;> exact ⟨_, rfl⟩
  · exact ⟨_, rfl⟩

/-- The same of several. -/
theorem releaseRefs_slots (ks : List SlotKey) (s : State) : ∃ v, releaseRefs ks s = { s with slots := v } := by
  induction ks generalizing s with
  | nil => exact ⟨_, rfl⟩
  | cons k ks ih =>
    obtain ⟨v, hv⟩ := releaseRef_slots k s
    obtain ⟨w, hw⟩ := ih (releaseRef k s)
    refine ⟨w, ?_⟩
    change releaseRefs ks (releaseRef k s) = _
    rw [hw, hv]

/-! ### An engine's record -/

/-- Changes that agree on the record there is. -/
theorem engines_congr {s : State} {e : EngineId} {f g : Engine → Engine} (h : f (s.engine e) = g (s.engine e)) :
    vmod s.engines e f = vmod s.engines e g :=
  congrArg State.engines (leaves_congr (l := []) (m := []) h rfl)

/-- The record written. -/
theorem engine_withEngine (e : EngineId) (x : Engine) (s : State) : (withEngine e x s).engine e = x := by
  unfold withEngine State.engine
  rw [vmod_get, if_pos rfl]

/-- A change of an engine's contexts writes its record. -/
theorem modCtx_withEngine (e : EngineId) (f : Contexts → Contexts) (s : State) :
    s.modCtx e f = withEngine e { s.engine e with ctx := f (s.engine e).ctx } s := by
  unfold State.modCtx withEngine
  rw [engines_congr (s := s) (e := e) (f := fun x => { x with ctx := f x.ctx })
    (g := fun _ => { s.engine e with ctx := f (s.engine e).ctx }) rfl]

/-- The record of an engine whose next job has become current. -/
def exposing (n expose : Nat) (cut : Bool) (x : Engine) : Engine :=
  { x with
    gates := { x.gates with allowance := false }
    cassette := { x.cassette with count := x.cassette.count - 1 }
    ctx := ⟨some ⟨n, expose, cut⟩, x.ctx.parked, none, x.ctx.cancel⟩ }

/-- Changes of the parts of an engine's record, and of a job, are one change. -/
theorem modGates_modCassette_modCtx (e : EngineId) (n : Nat) (f : Contexts → Contexts) (g : Cassette → Cassette)
    (h : Gates → Gates) (k : Job → Job) (s : State) :
    (((s.modCtx e f).modJob n k).modCassette e g).modGates e h = { s with
      engines := vmod s.engines e fun x => { x with ctx := f x.ctx, cassette := g x.cassette, gates := h x.gates }
      jobs := tmod s.jobs n k } := by
  unfold State.modCtx State.modJob State.modCassette State.modGates
  simp only [vmod_vmod]

/-- An exposure starts (R83, R87). -/
theorem startExposure_eq {e : EngineId} {w : WaitingCtx} {s : State} : startExposure e w s =
      serve (raiseAll (if (s.engine e).cassette.count = 1 then [.cassetteEmpty e (s.engine e).cassette.format] else [])
        ((withEngine e (exposing w.job s.limits.expose w.cut (s.engine e)) s).modJob w.job
          fun j => { j with state := .exposing })) := by
  have record : ((((s.modCtx e fun c => Contexts.parkedReturn
      { c with current := some ⟨w.job, s.limits.expose, w.cut⟩, next := none }).modJob w.job
        fun j => { j with state := .exposing }).modCassette e fun c => { c with count := c.count - 1 }).modGates e
          fun g => { g with allowance := false }) =
      (withEngine e (exposing w.job s.limits.expose w.cut (s.engine e)) s).modJob w.job fun j => { j with state := .exposing } := by
    rw [modGates_modCassette_modCtx]
    exact congrArg (fun v => ({ s with
      engines := v, jobs := tmod s.jobs w.job fun j => { j with state := .exposing } } : State)) (engines_congr rfl)
  unfold startExposure
  dsimp only
  rw [record]
  split
  · have read : (((withEngine e (exposing w.job s.limits.expose w.cut (s.engine e)) s).modJob w.job
        fun j => { j with state := .exposing }).engine e).cassette.format = (s.engine e).cassette.format := by
      change ((withEngine e (exposing w.job s.limits.expose w.cut (s.engine e)) s).engine e).cassette.format = _
      rw [engine_withEngine]
      rfl
    rw [read]
    rfl
  · rfl

/-- What is done for a value there is. -/
theorem forSome_some {α : Type} (a : α) (f : α → State → State) (s : State) : forSome (some a) f s = f a s := rfl

/-- Settles O37: the next job becomes current, and the current one goes to its lane. -/
theorem exposures : Obligations.Exposures := by
  refine ⟨?_, ?_⟩
  · intro e n a w s htab c hx hw x
    have hn : w.job = n.toNat := by
      obtain ⟨y, hy, hj, -⟩ := hx.takes
      rw [hw] at hy
      cases hy
      exact hj
    have hexec : exec c s = .next _ := exec_expected .exposeStarted hx
    have exposing : Table.ordered id (tmod s.jobs n.toNat fun j => { j with state := .exposing }) :=
      ordered_tmod _ _ htab.jobs
    dsimp only [reportEffect] at hexec
    rw [hw, forSome_some, startExposure_eq, hn] at hexec
    exact raisesServing_of exposing hexec
  · intro e n a j s htab c hx hj x l
    have hexec : exec c s = .next (endExposure e n.toNat s) := exec_expected .exposeDone hx
    set u := s.modCtx e fun c => { c with current := none } with hu
    have hju : u.job? n.toNat = some j := hj
    have engines : u = withEngine e { x with ctx := { x.ctx with current := none } } s := modCtx_withEngine _ _ _
    obtain ⟨v, hv⟩ := releaseRefs_slots j.slots u
    set w := ((releaseRefs j.slots u).modJob n.toNat fun j => { j with state := .developing, lane := some l }).modFloor l
      fun f => { f with order := f.order ++ [LaneEntry.mk n.toNat .inDeveloper (some (s.lane l).transit)] } with hw
    have ends : endExposure e n.toNat s = serve w := by
      unfold endExposure
      dsimp only
      rw [← hu, hju]
      rfl
    have ordered : JobsOrdered w := by
      have jobs : w.jobs = tmod s.jobs n.toNat fun j => { j with state := .developing, lane := some l } := by
        rw [hw, hv]
        rfl
      rw [JobsOrdered, jobs]
      exact ordered_tmod _ _ htab.jobs
    obtain ⟨kept, ports⟩ := serve_kept ordered
    rw [ends] at hexec
    refine ⟨_, hexec, ?_, ?_, fun k => ?_⟩
    · have slots : (serve w).slots = v := kept.slots.trans (by rw [hw, hv]; rfl)
      rw [slots, ← engines]
      rw [hw, hv] at kept ⊢
      exact kept
    · have desk : w.ports = s.ports := by
        rw [hw, hv]
        rfl
      exact (PortsKept.of_eq desk).trans ports
    · have slots (k : SlotKey) : (serve w).slot? k = (releaseRefs j.slots u).slot? k := by
        unfold State.slot?
        rw [kept.slots]
        rfl
      rw [slots]
      exact releaseRefs_released j.slots u k

end Sys2Proof.Machine
end

section
/-! Proofs of the statements about an engine's channel: HELLO (O31) and link loss (O32). -/

namespace Sys2Proof.Machine

open State

variable {D : Nat → Prop}

/-- Changes of two entries, or of one that commute. -/
theorem vmod_comm {α : Type} {n : Nat} (v : Vector α n) (i j : Fin n) {f g : α → α} (h : ∀ x, g (f x) = f (g x)) :
    vmod (vmod v i f) j g = vmod (vmod v j g) i f := by
  apply Vector.ext
  intro k hk
  rw [vmod_get_val, vmod_get_val, vmod_get_val, vmod_get_val]
  split <;> split
  · exact h _
  · rfl
  · rfl
  · rfl

/-! ### The greeted flag is read by nothing that reacts (R93) -/

/-- An engine is greeted. -/
def greets (e : EngineId) (s : State) : State := s.modStatus e fun t => { t with greeted := true }

section Greets

variable (e : EngineId) (s : State) (q : EngineId)

/-- Its record then. -/
theorem engine_greets : (greets e s).engine q =
    if q = e then { s.engine q with status := { (s.engine q).status with greeted := true } } else s.engine q :=
  engine_modStatus _ _ _ _

/-- Its contexts stay. -/
theorem ctx_greets : ((greets e s).engine q).ctx = (s.engine q).ctx := by
  rw [engine_greets]
  split <;> rfl

/-- Its cassette stays. -/
theorem cassette_greets : ((greets e s).engine q).cassette = (s.engine q).cassette := by
  rw [engine_greets]
  split <;> rfl

/-- So do its gates and its mode. -/
theorem ungated_greets : ((greets e s).engine q).ungated = (s.engine q).ungated := by
  rw [engine_greets]
  split <;> rfl

/-- It is eligible for the same jobs. -/
theorem eligible_greets (n : Nat) (j : Job) : (greets e s).eligible q n j = s.eligible q n j := by
  unfold State.eligible
  rw [ctx_greets, cassette_greets, ungated_greets]
  rfl

/-- It is as ready for EXPOSE. -/
theorem exposeReady_greets : (greets e s).exposeReady q = s.exposeReady q := by
  unfold State.exposeReady
  rw [ctx_greets, ungated_greets]

/-- A change of contexts comes before or after. -/
theorem modCtx_greets (f : Contexts → Contexts) : (greets e s).modCtx q f = greets e (s.modCtx q f) := by
  unfold greets State.modStatus State.modCtx
  dsimp only
  rw [vmod_comm s.engines e q (f := fun x => { x with status := { x.status with greeted := true } })
    (g := fun x => { x with ctx := f x.ctx }) fun _ => rfl]

/-- So does an assignment. -/
theorem assign_greets (n : Nat) (j : Job) : assign q n j (greets e s) = greets e (assign q n j s) := by
  unfold assign
  dsimp only
  rw [modCtx_greets]
  rfl

/-- And so does EXPOSE. -/
theorem sendExpose_greets : sendExpose q (greets e s) = greets e (sendExpose q s) := by
  unfold sendExpose
  rw [ctx_greets]
  cases (s.engine q).ctx.next with
  | none => rfl
  | some w =>
    dsimp only
    rw [modCtx_greets]
    rfl

end Greets

/-- What serving does to the one state, it does to the other. -/
theorem ServeStep.greets {s t : State} (h : ServeStep s t) (e : EngineId) :
    ServeStep (Machine.greets e s) (Machine.greets e t) := by
  cases h with
  | starved b => exact .starved (Machine.greets e s) b
  | offer p n h => exact .offer (Machine.greets e s) p n h
  | assign q n j hj hq he hn =>
    rw [← assign_greets]
    exact .assign _ q n j hj hq (by rw [eligible_greets]; exact he) (by rw [ctx_greets]; exact hn)
  | park q w hu hw hs hp =>
    rw [← modCtx_greets]
    exact .park _ q w (by rw [ungated_greets]; exact hu) (by rw [ctx_greets]; exact hw) hs (by rw [ctx_greets]; exact hp)
  | expose q h =>
    rw [← sendExpose_greets]
    exact .expose _ q (by rw [exposeReady_greets]; exact h)
  | stopLane l h => exact .stopLane (Machine.greets e s) l h
  | reached es ls h => exact .reached (Machine.greets e s) es ls h
  | stopped h => exact .stopped (Machine.greets e s) h

/-- What a reaction does to the one state, it does to the other. -/
theorem ReactStep.greets {s t : State} (h : ReactStep D s t) (e : EngineId) :
    ReactStep D (Machine.greets e s) (Machine.greets e t) := by
  cases h with
  | serve h => exact .serve (h.greets e)
  | job n f hD h => exact .job (Machine.greets e s) n f hD h
  | addJob n j hl hq hc hf => exact .addJob (Machine.greets e s) n j hl hq ⟨hc.order, hc.superseded, hc.attempt, hc.state, hc.fault⟩ hf
  | dropJob n hD => exact .dropJob (Machine.greets e s) n hD
  | bump => exact .bump (Machine.greets e s)
  | work k f h => exact .work (Machine.greets e s) k f h
  | live n f => exact .live (Machine.greets e s) n f
  | dropPage n r h hw => exact .dropPage (Machine.greets e s) n r h hw
  | count k f => exact .count (Machine.greets e s) k f
  | dropSlot k h => exact .dropSlot (Machine.greets e s) k h
  | pressState p st h hst => exact .pressState (Machine.greets e s) p st h hst
  | unsatisfied p n => exact .unsatisfied (Machine.greets e s) p n
  | ctx q f h =>
    rw [← modCtx_greets]
    exact .ctx _ q f (by rw [ctx_greets]; exact h)
  | floor l f h hx => exact .floor (Machine.greets e s) l f h hx
  | laneStep l hx => exact .laneStep (Machine.greets e s) l hx
  | sorterStep l hx => exact .sorterStep (Machine.greets e s) l hx
  | deliver d h hr hx =>
    have room : hasRoom (Machine.greets e s) d.dest := by
      cases hd : d.dest <;> (rw [hd] at hr; exact hr)
    exact .deliver (Machine.greets e s) d h room hx
  | send c => exact .send (Machine.greets e s) c

/-- What the reactions do to the one state, they do to the other. -/
theorem Reacts.greets {s t : State} (h : Reacts D s t) (e : EngineId) :
    Reacts D (Machine.greets e s) (Machine.greets e t) := by
  induction h with
  | refl => exact .refl
  | tail _ step ih => exact ih.tail (step.greets e)

/-! ### A record without jobs (R92) -/

/-- The jobs that an engine holds, by whether it holds any. -/
theorem holdsJob_iff (c : Contexts) : c.holdsJob = true ↔ ∃ n, HeldIn c n := by
  unfold Contexts.holdsJob HeldIn WaitsIn
  cases c.current <;> cases c.next <;> cases c.parked <;> simp

/-- The jobs that it loses with its link. -/
theorem mem_takenAll (c : Contexts) (n : Nat) : (∃ x ∈ takenAll c, x.1 = n) ↔ HeldIn c n := by
  unfold takenAll takenWaiting HeldIn WaitsIn
  cases c.current <;> cases c.next <;> cases c.parked <;> simp

/-- An engine that has lost its jobs and its cassette. -/
def bareEngine (t : EngineStatus) (g : Gates) : Engine := ⟨t, g, ⟨none, 0⟩, ⟨none, none, none, []⟩⟩

/-- The notice of the loss counts the jobs that return. -/
theorem returnedCount_eq (s : State) (e : EngineId) : returnedCount s e =
    (((s.engine e).ctx.current.toList.map CurrentCtx.job ++ (s.engine e).ctx.next.toList.map WaitingCtx.job ++
      (s.engine e).ctx.parked.toList.map WaitingCtx.job).filter
        fun n => (s.job? n).any fun j => !j.superseded).length := by
  have jobs (c : Contexts) : (takenAll c).map Prod.fst = c.current.toList.map CurrentCtx.job ++
      c.next.toList.map WaitingCtx.job ++ c.parked.toList.map WaitingCtx.job := by
    unfold takenAll takenWaiting
    cases c.current <;> cases c.next <;> cases c.parked <;> rfl
  unfold returnedCount
  rw [← jobs, List.filter_map, List.length_map]
  rfl

/-- The record after its buffers are dropped. -/
theorem dropEngine_modStatus (e : EngineId) (f : EngineStatus → EngineStatus) (s : State) :
    (dropEngine e s).modStatus e f = withEngine e (bareEngine (f (s.engine e).status) (s.engine e).gates) s := by
  unfold dropEngine State.modCtx State.modCassette State.modStatus withEngine
  simp only [vmod_vmod]
  exact congrArg (fun v => ({ s with engines := v } : State)) (engines_congr rfl)

/-- Notices raised by now are told, whatever follows. -/
theorem Raised.tells_of {ns : List Notice} {s t u : State} (h : Raised ns s t) (k : PortsKept t u) : Tells ns s u :=
  SameDesk.tells (.refl s) h k

/-! ### Jobs that are lost with the link (R92) -/

/-- An engine's jobs are lost: its notice is raised and they are taken off, from a state in which its record is set
already. -/
def losing (n : Notice) (l : List Taken) (s : State) : State := returnAll l (evalStarved (raise n s))

section Losing

variable {n : Notice} {x : Contexts} {s : State}

/-- That is a chain of reactions that takes those jobs. -/
theorem losing_reacts (hs : JobsOrdered s) : Reacts (HeldIn x) s (losing n (takenAll x) s) := by
  refine Reacts.then hs (raise_reacts n s) fun h1 => ?_
  refine Reacts.then h1 (evalStarved_reacts _) fun h2 => ?_
  exact returnAll_reacts _ h2 (takenAll_ends x) fun y hy => (mem_takenAll x y.1).mp ⟨y, hy, rfl⟩

/-- Each of them is taken off. -/
theorem losing_takenOff (hs : JobsOrdered s) {m : Nat} (hm : HeldIn x m) : TakenOff m s (losing n (takenAll x) s) := by
  have before : Reacts NoJob s (evalStarved (raise n s)) := (raise_reacts n s).trans (evalStarved_reacts _)
  exact .after before id
    (returnAll_takenOff (takenAll_ends x) ((mem_takenAll x m).mpr hm) (Reacts.jobs_ordered hs before))

/-- Its notice comes first. -/
theorem losing_tells (hs : JobsOrdered s) {t : State} (h : PortsKept (losing n (takenAll x) s) t) : Tells [n] s t := by
  have h1 := Reacts.jobs_ordered hs (raise_reacts (D := AnyJob) n s)
  have rest : Reacts AnyJob (raise n s) (losing n (takenAll x) s) :=
    Reacts.then h1 (evalStarved_reacts _) fun h2 => returnAll_reacts _ h2 (takenAll_ends x)
  exact (raised_one n s).tells_of (rest.ports_kept.trans h)

end Losing

/-- The record of an engine that has lost its jobs, and what follows. -/
theorem engineLost_eq (e : EngineId) (cause : EngineFaultCause) (m : EngineMode) (s : State) : engineLost e cause m s =
    losing (faultNotice s e cause none) (takenAll (s.engine e).ctx) (withEngine e
      (bareEngine ⟨if (s.engine e).status.faultFlag then .lockedOut else m, false, true, some (cause, s.clock)⟩
        (s.engine e).gates) s) := by
  unfold engineLost
  dsimp only
  rw [dropEngine_modStatus]
  rfl

section LinkLoss

variable {e : EngineId} {s : State}

/-- A channel without jobs is lost, or one of a LOCKED_OUT engine. -/
theorem engineLinkLoss_empty
    (h : (s.engine e).status.mode = .lockedOut ∨ ∀ n, ¬ HeldIn (s.engine e).ctx n) : engineLinkLoss e s =
      serve (raise (.engineOffline e 0) (withEngine e (bareEngine
        ⟨if (s.engine e).status.mode = .lockedOut then .lockedOut else .offline, false, (s.engine e).status.faultFlag,
          (s.engine e).status.lastFault⟩ (s.engine e).gates) s)) := by
  unfold engineLinkLoss
  dsimp only
  rw [if_neg ?_, dropEngine_modStatus]
  rintro ⟨hm, hj⟩
  obtain ⟨n, hn⟩ := (holdsJob_iff _).mp hj
  exact h.elim (fun h => hm h) fun h => h n hn

/-- A channel with jobs is lost. -/
theorem engineLinkLoss_jobs (hm : (s.engine e).status.mode ≠ .lockedOut)
    (hh : ∃ n, HeldIn (s.engine e).ctx n) : engineLinkLoss e s =
      serve (raise (.engineOffline e (returnedCount s e)) (engineLost e .linkLost .offline s)) := by
  unfold engineLinkLoss
  exact if_pos ⟨hm, (holdsJob_iff _).mpr hh⟩

end LinkLoss

/-- Settles O32: the channel's loss, without jobs and with them. -/
theorem engineLinkLost : Obligations.EngineLinkLost := by
  intro e s htab x dropped
  have exec_c : exec (.engineLinkLoss e) s = .next (engineLinkLoss e s) := rfl
  refine ⟨fun h => ?_, fun hm hh => ?_⟩
  · refine raisesServing_of htab.jobs (exec_c.trans ?_)
    rw [engineLinkLoss_empty h]
    rfl
  · rw [engineLinkLoss_jobs hm hh, engineLost_eq, returnedCount_eq] at exec_c
    set u := withEngine e (bareEngine ⟨if x.status.faultFlag then .lockedOut else .offline, false, true,
      some (.linkLost, s.clock)⟩ x.gates) s with hu
    have ordered : JobsOrdered u := htab.jobs
    set v := losing (faultNotice s e .linkLost none) (takenAll x.ctx) u with hv
    have lost : Reacts (HeldIn x.ctx) u v := losing_reacts ordered
    have after (n : Notice) : Reacts NoJob v (serve (raise n v)) :=
      Reacts.then (Reacts.jobs_ordered ordered lost) (raise_reacts n v) serve_reacts
    refine raisesReacting_of exec_c (lost.trans ((after _).widen fun _ => False.elim))
      (losing_tells ordered (after _).ports_kept) ⟨fun n hn => ?_, ?_⟩
    · have off (m : Notice) : TakenOff n u (serve (raise m v)) :=
        (losing_takenOff ordered hn).stays (Reacts.entry_le lost) (after m) id
      exact (off _).since rfl le_rfl
    · have raised (m : Notice) : Told m u (serve (raise m v)) :=
        ((told_raise m v).kept (serve_kept (Reacts.jobs_ordered (Reacts.jobs_ordered ordered lost)
          (raise_reacts (D := NoJob) m v))).2).since lost.ports_kept lost.kept.clock
      exact (raised _).since (.of_eq rfl) rfl

/-- A job that is taken off is so where the job table is the same. -/
theorem TakenOff.of_jobs {n : Nat} {s t u : State} (h : TakenOff n s t) (hu : u.jobs = t.jobs) : TakenOff n s u := by
  intro j hj
  have same := job?_of_jobs hu n
  obtain ⟨back, ended⟩ := h j hj
  refine ⟨fun hs => ?_, fun hs j' hj' => ended hs j' (same ▸ hj')⟩
  obtain ⟨j', hj', rest⟩ := back hs
  exact ⟨j', same.trans hj', rest⟩

section Hello

variable {e : EngineId} {s : State}

/-- HELLO of an engine without jobs, whose record it sets. -/
theorem greet_eq : greet e s = serve (raise
    (.engineOnline e (if (s.engine e).status.mode = .offline then .running else (s.engine e).status.mode)
      (s.engine e).status.faultFlag)
    (withEngine e (bareEngine ⟨if (s.engine e).status.mode = .offline then .running else (s.engine e).status.mode, true,
      (s.engine e).status.faultFlag, (s.engine e).status.lastFault⟩ (s.engine e).gates) s)) := by
  unfold greet
  dsimp only
  rw [dropEngine_modStatus, engine_withEngine]
  rfl

/-- The engine held no job, or no channel. -/
theorem hello_empty (h : (s.engine e).status.mode = .offline ∨ (s.engine e).status.mode = .lockedOut ∨
    ∀ n, ¬ HeldIn (s.engine e).ctx n) : hello e s = greet e s := by
  unfold hello
  refine if_neg ?_
  rintro ⟨hm, hj⟩
  obtain ⟨n, hn⟩ := (holdsJob_iff _).mp hj
  rcases h with h | h | h
  · rw [h] at hm
    simp at hm
  · rw [h] at hm
    simp at hm
  · exact h n hn

/-- The engine held jobs. -/
theorem hello_jobs (hm : (s.engine e).status.mode = .running ∨ (s.engine e).status.mode = .faulted)
    (hh : ∃ n, HeldIn (s.engine e).ctx n) : hello e s = greet e (engineLost e .engineRestarted .faulted s) := by
  unfold hello
  exact if_pos ⟨hm, (holdsJob_iff _).mpr hh⟩

/-- An engine whose buffers are empty, and that is not RUNNING, keeps its record through reactions. -/
theorem bare_kept {t : EngineStatus} {g : Gates} {v : State} (h : Reacts D (withEngine e (bareEngine t g) s) v)
    (hm : t.mode ≠ .running) : v.engine e = bareEngine t g := by
  have kept := (Reacts.kept h).engines e
  rw [engine_withEngine] at kept
  have ctx := kept.idle hm rfl rfl
  have same (x : Engine) : x = ⟨x.status, x.gates, x.cassette, x.ctx⟩ := rfl
  rw [same (v.engine e), kept.status, kept.gates, kept.cassette, ctx]

/-- HELLO of an engine whose buffers are empty already greets it. -/
theorem greet_bare {t : EngineStatus} {g : Gates} {v : State} (h : v.engine e = bareEngine t g)
    (hm : t.mode ≠ .offline) : greet e v = serve (raise (.engineOnline e t.mode t.faultFlag) (greets e v)) := by
  have same : greets e v = withEngine e (bareEngine { t with greeted := true } g) v := by
    unfold greets State.modStatus withEngine
    rw [engines_congr (s := v) (e := e) (g := fun _ => bareEngine { t with greeted := true } g) (by rw [h]; rfl)]
  rw [greet_eq, h, same]
  have mode : (bareEngine t g).status.mode ≠ .offline := hm
  rw [if_neg mode]
  rfl

/-- A record that is written and greeted. -/
theorem greets_withEngine (t : EngineStatus) (g : Gates) :
    greets e (withEngine e (bareEngine t g) s) = withEngine e (bareEngine { t with greeted := true } g) s := by
  unfold greets State.modStatus withEngine
  dsimp only
  rw [vmod_vmod]
  rfl

end Hello

/-- Settles O31: an engine without jobs is greeted; one that held jobs has lost them first. -/
theorem helloTaken : Obligations.HelloTaken := by
  intro e s htab x fresh mode
  have exec_c : exec (.hello e) s = .next (hello e s) := rfl
  refine ⟨fun h => ?_, ?_⟩
  · rw [hello_empty h, greet_eq] at exec_c
    exact raisesServing_of (ns := [_]) htab.jobs exec_c
  · intro hm hh after
    have away : after ≠ .running ∧ after ≠ .offline := by
      change (if x.status.faultFlag then EngineMode.lockedOut else .faulted) ≠ .running ∧
        (if x.status.faultFlag then EngineMode.lockedOut else .faulted) ≠ .offline
      split <;> exact ⟨by decide, by decide⟩
    set u := withEngine e (bareEngine ⟨after, false, true, some (.engineRestarted, s.clock)⟩ x.gates) s with hu
    have ordered : JobsOrdered u := htab.jobs
    set v := losing (faultNotice s e .engineRestarted none) (takenAll x.ctx) u with hv
    have lost : Reacts (HeldIn x.ctx) u v := losing_reacts ordered
    have lostRecord : engineLost e .engineRestarted .faulted s = v := engineLost_eq e .engineRestarted .faulted s
    have record : v.engine e = bareEngine ⟨after, false, true, some (.engineRestarted, s.clock)⟩ x.gates :=
      bare_kept lost away.1
    rw [hello_jobs hm hh, lostRecord, greet_bare record away.2] at exec_c
    have greeted : greets e u = fresh after true (some (.engineRestarted, s.clock)) := greets_withEngine _ _
    have chain := lost.greets e
    rw [greeted] at chain
    have freshOrdered : JobsOrdered (fresh after true (some (.engineRestarted, s.clock))) := htab.jobs
    have chainOrdered := Reacts.jobs_ordered freshOrdered chain
    have rest : Reacts NoJob (greets e v) (serve (raise (.engineOnline e after true) (greets e v))) :=
      Reacts.then chainOrdered (raise_reacts _ _) serve_reacts
    refine raisesReacting_of exec_c (chain.trans (rest.widen fun _ => False.elim)) ?_ ⟨fun n hn => ?_, ?_⟩
    · have told : Tells [faultNotice s e .engineRestarted none] u v := losing_tells ordered (PortsKept.refl v)
      have told' : Tells [faultNotice s e .engineRestarted none] (greets e u) (greets e v) := told
      rw [greeted] at told'
      exact told'.kept rest.ports_kept
    · have off : TakenOff n u (greets e v) := (losing_takenOff ordered hn).of_jobs rfl
      have entry := Reacts.entry_le lost
      exact (off.stays entry rest id).since rfl le_rfl
    · have raised : Told (.engineOnline e after true) (greets e v) _ := (told_raise _ (greets e v)).kept
        (serve_kept (Reacts.jobs_ordered chainOrdered (raise_reacts (D := NoJob) _ _))).2
      exact (raised.since chain.ports_kept chain.kept.clock).since (.of_eq rfl) rfl

end Sys2Proof.Machine
end

section
/-! What the press schedule is told of a position, what a need test makes, and the notices that serving the engines can
raise (R27, R51 to R54, R140, R141). -/

namespace Sys2Proof.Machine

open State

/-! ### The frames that join the output lists -/

/-- Only notices of a kind join the output lists. -/
def Adds (P : Notice → Prop) (s t : State) : Prop :=
  ∀ q f, f ∈ (t.port q).link.output → f ∈ (s.port q).link.output ∨ ∃ time n, f = .notice time n ∧ P n

section Adds

variable {P : Notice → Prop}

/-- None joins where the ports are the same. -/
theorem Adds.of_ports {s t : State} (h : t.ports = s.ports) : Adds P s t := by
  intro q f hf
  unfold State.port at hf ⊢
  rw [h] at hf
  exact .inl hf

/-- One change after another. -/
theorem Adds.trans {s t u : State} (h : Adds P s t) (k : Adds P t u) : Adds P s u := fun q f hf =>
  (k q f hf).elim (h q f) .inr

/-- A notice of the kind. -/
theorem Adds.raise {n : Notice} (h : P n) (s : State) : Adds P s (raise n s) := by
  intro q f hf
  rw [port_raise] at hf
  split at hf
  · unfold Link.offer at hf
    split at hf
    · split at hf
      · rw [(pump_eq _).choose_spec, List.mem_append, List.mem_singleton] at hf
        exact hf.imp_right fun h' => ⟨_, n, h', h⟩
      · exact .inl hf
    · exact .inl hf
  · exact .inl hf

/-- Several of the kind. -/
theorem Adds.raiseAll {ns : List Notice} (h : ∀ n ∈ ns, P n) (s : State) : Adds P s (raiseAll ns s) := by
  induction ns generalizing s with
  | nil => exact .of_ports rfl
  | cons n ns ih =>
    exact (Adds.raise (h n List.mem_cons_self) s).trans (ih (fun m hm => h m (List.mem_cons_of_mem _ hm)) _)

end Adds

/-! ### Serving raises no notice but two (R106, R160) -/

/-- The notices of the colour-starved condition and of a line that has come to rest. -/
def ServingNotice : Notice → Prop
  | .colourStarved .. | .lineStopped .. => True
  | _ => False

/-- Judging the condition. -/
theorem evalStarved_adds (s : State) : Adds ServingNotice s (evalStarved s) := by
  unfold evalStarved
  split
  · split
    · exact .of_ports rfl
    · exact Adds.trans (.of_ports (t := s.setStarved true) rfl)
        (.raise (n := .colourStarved s.runningEngines s.colourQueued) trivial _)
  · exact .of_ports rfl

/-- The dispatcher raises none. -/
theorem ports_fill (e : EngineId) (s : State) : (fill e s).ports = s.ports := by
  unfold fill
  split
  · split <;> rfl
  · rfl

/-- Nor does preemption. -/
theorem ports_preemptFrom (l : List (Nat × Job)) (s : State) : (preemptFrom l s).ports = s.ports := by
  induction l generalizing s with
  | nil => rfl
  | cons x l ih =>
    unfold preemptFrom
    split
    · exact ih _
    · rfl

/-- Nor does EXPOSE. -/
theorem ports_exposeOnce (l : LaneId) (s : State) : (exposeOnce l s).ports = s.ports := by
  unfold exposeOnce
  split
  · split
    · unfold sendExpose
      split <;> rfl
    · rfl
  · rfl

/-- Serving. -/
theorem serve_adds (s : State) : Adds ServingNotice s (serve s) := by
  have lane (l : LaneId) (t : State) : (exposeLane l t).ports = t.ports :=
    (ports_exposeOnce l _).trans ((ports_exposeOnce l _).trans (ports_exposeOnce l t))
  have filled (t : State) : (fillAll t).ports = t.ports := foldl_keeps State.ports allEngines fun t e => ports_fill e t
  have work : (worked s).ports = (evalStarved s).ports :=
    (lane 1 _).trans ((lane 0 _).trans ((ports_preemptFrom _ _).trans (filled _)))
  have rests (t : State) : Adds ServingNotice t (evalReached t) := by
    by_cases h : t.line.state = .stopping
    · rw [evalReached_stopping h]
      obtain ⟨v, x, hv⟩ := marked_parts t
      have same : (marked t).ports = t.ports := by rw [hv]
      generalize marked t = m at same ⊢
      split
      · exact Adds.trans (.of_ports (t := m.setStopped) same) (.raise (n := .lineStopped m.line.stopTime) trivial _)
      · exact .of_ports same
    · rw [evalReached_other h]
      exact .of_ports rfl
  rw [serve_eq]
  exact ((evalStarved_adds s).trans (.of_ports work)).trans (rests _)

/-! ### What a press is told (R27, R140, R141) -/

/-- The state of a press by its counts. -/
def pressStateOf (x : Press) : PressState :=
  if x.state = .running then .running else stateOfCounts x.positions x.unsatisfied

/-- The notice of a press that takes its state from its counts. -/
def pressNotice (p : PressId) (x : Press) : List Notice :=
  if x.state = .running ∨ x.state = stateOfCounts x.positions x.unsatisfied then []
  else if stateOfCounts x.positions x.unsatisfied = .ready then [.pressReady p x.edition x.positions]
  else if x.state = .ready ∧ stateOfCounts x.positions x.unsatisfied = .makeready then [.pressUnready p x.unsatisfied]
  else []

/-- A press takes its state from its counts. -/
theorem evalPress_eq (p : PressId) (s : State) : evalPress p s =
    raiseAll (pressNotice p (s.press p)) (s.setPressState p (pressStateOf (s.press p))) := by
  have stays (h : pressStateOf (s.press p) = (s.press p).state) :
      s.setPressState p (pressStateOf (s.press p)) = s := by
    unfold State.setPressState
    rw [vmod_same _ _ _ (by rw [h]; rfl)]
  unfold evalPress pressNotice
  dsimp only
  by_cases hr : (s.press p).state = .running
  · rw [if_pos (by simp [hr]), if_pos (.inl hr), stays (by simp [pressStateOf, hr])]
    rfl
  · by_cases hs : (s.press p).state = stateOfCounts (s.press p).positions (s.press p).unsatisfied
    · rw [if_pos (by simp [← hs]), if_pos (.inr hs), stays (by unfold pressStateOf; rw [if_neg hr, ← hs])]
      rfl
    · have state : pressStateOf (s.press p) = stateOfCounts (s.press p).positions (s.press p).unsatisfied := if_neg hr
      rw [if_neg (by simp [hr, hs]), if_neg (by simp [hr, hs]), state]
      generalize stateOfCounts (s.press p).positions (s.press p).unsatisfied = st at hs
      generalize (s.press p).state = x at hs hr
      cases st <;> cases x <;> rfl

/-- No position changes. -/
theorem pos?_evalPress (p : PressId) (s : State) (k : PosKey) : (evalPress p s).pos? k = s.pos? k := by
  rw [evalPress_eq, raiseAll_same]
  rfl

/-- The press schedule's count of a press, one up or one down. -/
def countTold (now : Bool) (n : Nat) : Nat := if now then n - 1 else n + 1

/-- The state once the press schedule has been told of a position that stands otherwise than it was told last. -/
def toldOf (k : PosKey) (now : Bool) (s : State) : State :=
  (s.modWork k fun w => { w with satisfied := now }).setUnsatisfied k.press (countTold now (s.press k.press).unsatisfied)

section Tell

variable {k : PosKey} {x : Position} {s : State}

/-- No position. -/
theorem tellSatisfied_none (h : s.pos? k = none) : tellSatisfied k s = s := by
  unfold tellSatisfied
  rw [h]

/-- A position that stands as it was told. -/
theorem tellSatisfied_same (hx : s.pos? k = some x) (h : x.work.satisfied = s.satisfied x) : tellSatisfied k s = s := by
  unfold tellSatisfied
  rw [hx]
  exact if_pos h

/-- A position that stands otherwise. -/
theorem tellSatisfied_differs (hx : s.pos? k = some x) (h : x.work.satisfied ≠ s.satisfied x) :
    tellSatisfied k s = evalPress k.press (toldOf k (s.satisfied x) s) := by
  unfold tellSatisfied
  rw [hx]
  exact if_neg h

/-- What telling changes. -/
theorem tellSatisfied_parts (k : PosKey) (s : State) :
    ∃ v w p, tellSatisfied k s = { s with plan := v, presses := w, ports := p } := by
  cases hx : s.pos? k with
  | none => exact ⟨_, _, _, tellSatisfied_none hx⟩
  | some x =>
    by_cases h : x.work.satisfied = s.satisfied x
    · exact ⟨_, _, _, tellSatisfied_same hx h⟩
    · rw [tellSatisfied_differs hx h, evalPress_eq, raiseAll_same]
      exact ⟨_, _, _, rfl⟩

/-- What a position holds then. -/
theorem pos?_tellSatisfied (k : PosKey) (s : State) (k' : PosKey) : (tellSatisfied k s).pos? k' =
    if k' = k then (s.pos? k').map fun x => { x with work := { x.work with satisfied := s.satisfied x } }
    else s.pos? k' := by
  cases hx : s.pos? k with
  | none =>
    rw [tellSatisfied_none hx]
    split
    next h => rw [h, hx]; rfl
    next => rfl
  | some x =>
    by_cases h : x.work.satisfied = s.satisfied x
    · rw [tellSatisfied_same hx h]
      split
      next hk => rw [hk, hx, Option.map_some, ← h]
      next => rfl
    · rw [tellSatisfied_differs hx h, pos?_evalPress]
      refine (pos?_modWork k (fun w => { w with satisfied := s.satisfied x }) s k').trans ?_
      split
      next hk => rw [hk, hx]; rfl
      next => rfl

/-- The notices of a press's readiness. -/
def ReadinessNotice : Notice → Prop
  | .pressReady .. | .pressUnready .. => True
  | _ => False

/-- A press that is told raises no other. -/
theorem tellSatisfied_adds (k : PosKey) (s : State) : Adds ReadinessNotice s (tellSatisfied k s) := by
  cases hx : s.pos? k with
  | none => rw [tellSatisfied_none hx]; exact .of_ports rfl
  | some x =>
    by_cases h : x.work.satisfied = s.satisfied x
    · rw [tellSatisfied_same hx h]
      exact .of_ports rfl
    · rw [tellSatisfied_differs hx h, evalPress_eq]
      have kind (p : PressId) (y : Press) : ∀ n ∈ pressNotice p y, ReadinessNotice n := by
        intro n hn
        unfold pressNotice at hn
        split at hn
        · cases hn
        · split at hn
          · rw [List.mem_singleton.mp hn]
            trivial
          · split at hn
            · rw [List.mem_singleton.mp hn]
              trivial
            · cases hn
      exact Adds.trans (.of_ports rfl) (.raiseAll (kind _ _) _)

end Tell

/-! ### The number of a new job (R48) -/

/-- The number after another is the following one. -/
theorem numberAfter_eq (n : Nat) : numberAfter n = following n := rfl

/-- The search for a free number passes over numbers that live jobs hold. -/
theorem freeNumber_passes (jobs : Table Nat Job) (last fuel i : Nat)
    (h : ∀ m < i, thas jobs (followingBy last m) = true) :
    ∃ i', freeNumber jobs fuel (followingBy last i) = followingBy last i' ∧
      ∀ m < i', thas jobs (followingBy last m) = true := by
  induction fuel generalizing i with
  | zero => exact ⟨i, rfl, h⟩
  | succ fuel ih =>
    unfold freeNumber
    split
    next hi =>
      refine ih (i + 1) fun m hm => ?_
      rcases Nat.lt_succ_iff_lt_or_eq.mp hm with hm | rfl
      · exact h m hm
      · exact hi
    next => exact ⟨i, rfl, h⟩

/-- The number that the next job takes. -/
theorem nextNumber_nextFree {s : State} (h : s.jobs.length < 768) : NextFree s (nextNumber s) := by
  obtain ⟨i, hi, hall⟩ := freeNumber_passes s.jobs s.lastJob s.jobs.length 0 fun m hm => absurd hm (Nat.not_lt_zero m)
  refine ⟨i, hi, nextNumber_fresh s h, fun m hm => ?_⟩
  have := hall m hm
  unfold thas at this
  exact Option.isSome_iff_ne_none.mp this

/-- It is a job number. -/
theorem nextNumber_range (s : State) : 1 ≤ nextNumber s ∧ nextNumber s ≤ 65535 := by
  obtain ⟨i, hi, -⟩ := freeNumber_passes s.jobs s.lastJob s.jobs.length 0 fun m hm => absurd hm (Nat.not_lt_zero m)
  have number : isNumber (followingBy s.lastJob i) := by cases i <;> exact numberAfter_isNumber _
  have next : nextNumber s = followingBy s.lastJob i := hi
  rw [next]
  exact number

/-! ### Creation (R51, R53) -/

/-- References that are taken change the raster table alone. -/
theorem takeRefs_slots (ks : List SlotKey) (s : State) : ∃ v, takeRefs ks s = { s with slots := v } := by
  induction ks generalizing s with
  | nil => exact ⟨_, rfl⟩
  | cons k ks ih =>
    obtain ⟨v, hv⟩ := ih (takeRef k s)
    exact ⟨v, hv⟩

/-- Live-job counts that rise change the page register alone. -/
theorem raiseLive_pages (ns : List Nat) (s : State) :
    ∃ w, ns.foldl (fun s p => s.modLive p (· + 1)) s = { s with pages := w } := by
  induction ns generalizing s with
  | nil => exact ⟨_, rfl⟩
  | cons n ns ih =>
    obtain ⟨w, hw⟩ := ih (s.modLive n (· + 1))
    exact ⟨w, hw⟩

/-- A job is created for a position: it enters the table, and the position holds it. -/
theorem createJob_eq (k : PosKey) (x : Position) (s : State) : ∃ v w, createJob k x s =
    raise (.jobCreated (nextNumber s) k (newJob s k x).cls (newJob s k x).origin (newJob s k x).colourNeed)
      (({ s.bumpEntry.addJob (nextNumber s) (newJob s k x) with slots := v, pages := w } : State).modWork k
        fun y => { y with current := some (nextNumber s), deferred := false, remake := false }) := by
  obtain ⟨v, hv⟩ := takeRefs_slots (newJob s k x).slots (s.bumpEntry.addJob (nextNumber s) (newJob s k x))
  obtain ⟨w, hw⟩ := raiseLive_pages ((newJob s k x).pages.map Prod.fst)
    { s.bumpEntry.addJob (nextNumber s) (newJob s k x) with slots := v }
  refine ⟨v, w, ?_⟩
  unfold createJob
  dsimp only
  rw [hv, hw]

section NeedTest

variable {k : PosKey} {x : Position} {s : State} (hx : s.pos? k = some x)

include hx

/-- A position that needs no job is not deferred. -/
theorem needTest_clears (h : needsJob s x = false) :
    needTest k s = s.modWork k fun w => { w with deferred := false } := by
  unfold needTest
  rw [hx]
  exact if_neg (by rw [h]; exact Bool.false_ne_true)

variable (h : needsJob s x = true)

include h

/-- A position that needs a job, with room for it. -/
theorem needTest_creates (hl : s.jobs.length < 768) : needTest k s = createJob k x s := by
  unfold needTest
  rw [hx]
  exact (if_pos h).trans (if_pos hl)

/-- A position that needs a job, with the table full: it is deferred, or is so already. -/
theorem needTest_full (hl : 768 ≤ s.jobs.length) : needTest k s = if x.work.deferred then s else
    raise (.positionDeferred k) (s.modWork k fun w => { w with deferred := true }) := by
  unfold needTest
  rw [hx]
  exact (if_pos h).trans (if_neg (Nat.not_lt.mpr hl))

end NeedTest

end Sys2Proof.Machine
end

section
/-! Proof of the statement about REQUEUE_POSITION (O27). -/

namespace Sys2Proof.Machine

open State

/-! ### What is told to the ports while a request is in hand -/

/-- A notice that is told stays so when the answer joins. -/
theorem Told.answered {n : Notice} {s t : State} (h : Told n s t) (p : PortId) (tag : Byte) (kind : U16) (a : Answer) :
    Told n s (t.modLink p (Link.answer tag kind a)) := by
  intro q hq
  rw [port_modLink]
  by_cases hp : q = p
  · rw [if_pos hp, answer_started]
    refine (h q hq).imp (fun h => ?_) id
    exact List.mem_append_left _ h
  · rw [if_neg hp]
    exact h q hq

/-- What is told after a request is in hand is told after the state before. -/
theorem Told.of_holding {n : Notice} {p : PortId} {r : Received} {s t : State} (h : Told n (holding p r s) t) :
    Told n s t := by
  intro q hq
  exact h q (by rw [mask_holding]; exact hq)

/-- Notices that joined by now are among those of a kind, whatever the answer is. -/
theorem Adds.answered {P : Notice → Prop} {p : PortId} {r : Received} {s t : State} (h : Adds P (holding p r s) t)
    (tag : Byte) (kind : U16) (a : Answer) (q : PortId) {time : Nat} {n : Notice} (hn : ¬ P n)
    (hm : .notice time n ∈ ((t.modLink p (Link.answer tag kind a)).port q).link.output) :
    .notice time n ∈ (s.port q).link.output := by
  have before : .notice time n ∈ (t.port q).link.output := by
    rw [port_modLink] at hm
    by_cases hp : q = p
    · rw [if_pos hp, answer_started] at hm
      have hm : OutFrame.notice time n ∈ (t.port q).link.output ++ [.answer tag kind a] := hm
      rw [List.mem_append, List.mem_singleton] at hm
      exact hm.resolve_right (by simp)
    · rw [if_neg hp] at hm
      exact hm
  rcases h q _ before with h | ⟨time', n', he, hP⟩
  · rw [port_holding] at h
    split at h <;> exact h
  · cases he
    exact absurd hP hn

/-- The answer changes no job. -/
theorem others_answered {D : Nat → Prop} {p : PortId} {r : Received} {u v : State} (h : Reacts D (holding p r u) v)
    (f : Link → Link) : OthersStay D u (v.modLink p f) := fun _ _ hn hj => Reacts.job_stays h hn hj

/-- A taken request, by what deciding it gives. -/
theorem exec_applied {p : PortId} {tag : Byte} {r : Request} {s v : State} {a : Answer} (h : Free p s)
    (ha : r.allowed (s.port p).rights = true)
    (hx : applyRequest p r (holding p ⟨tag, r.kind, .sound r⟩ s) = (v, a)) :
    exec (r.command p tag) s = .next (v.modLink p (Link.answer tag r.kind a)) := by
  rw [exec_taken h ha, hx]

/-! ### REQUEUE_POSITION (R68) -/

section Requeue

variable {b1 b2 : Byte} {k : PosKey} {x : Position} (s : State)

/-- A press or position out of range. -/
theorem reqRequeuePosition_badValue (h : keyOf b1 b2 = none) : reqRequeuePosition b1 b2 s = (s, bare .badValue) := by
  simp only [reqRequeuePosition, h]

variable (hk : keyOf b1 b2 = some k)

include hk

/-- A position that is not live. -/
theorem reqRequeuePosition_notFound (hx : s.pos? k = none) : reqRequeuePosition b1 b2 s = (s, bare .notFound) := by
  simp only [reqRequeuePosition, hk, hx]

variable (hx : s.pos? k = some x)

include hx

/-- A position without a job: its need is tested. -/
theorem reqRequeuePosition_tests (hc : x.work.current = none) :
    reqRequeuePosition b1 b2 s = (needAndServe k s, requeueAnswer (needTest k s) k) := by
  simp only [reqRequeuePosition, hk, hx, hc, needAndServe]

variable {n : Nat} {j : Job} (hc : x.work.current = some n) (hj : s.job? n = some j)

include hc hj

/-- A position with a FAILED job: it returns to its queue at its first attempt. -/
theorem reqRequeuePosition_failed (hf : j.state = .failed) : reqRequeuePosition b1 b2 s =
    (serve (requeue n 1 .requeuedByRoom j.lastFault s), okWith [.enum 0, .jobNumber n]) := by
  simp only [reqRequeuePosition, hk, hx, hc, hj, if_pos hf]

/-- A position with a job in another state. -/
theorem reqRequeuePosition_wrongState (hf : j.state ≠ .failed) : reqRequeuePosition b1 b2 s =
    (s, ⟨.wrongState, [.enum (jobStateCode j.state)]⟩) := by
  simp only [reqRequeuePosition, hk, hx, hc, hj, if_neg hf]

end Requeue

section Answer

variable {s : State} {k : PosKey} {y : Position} (hy : s.pos? k = some y)

include hy

/-- The answer where a job has been created. -/
theorem requeueAnswer_created {n : Nat} (hc : y.work.current = some n) :
    requeueAnswer s k = ⟨.ok, [.enum 1, .jobNumber n]⟩ := by
  unfold requeueAnswer
  simp only [hy, hc]
  rfl

/-- The answer where the position is deferred. -/
theorem requeueAnswer_deferred (hc : y.work.current = none) (hd : y.work.deferred = true) :
    requeueAnswer s k = ⟨.ok, [.enum 2]⟩ := by
  unfold requeueAnswer
  simp only [hy, hc, hd, if_true]
  rfl

/-- The answer where the position needs no job. -/
theorem requeueAnswer_none (hc : y.work.current = none) (hd : y.work.deferred = false) :
    requeueAnswer s k = ⟨.ok, [.enum 3]⟩ := by
  unfold requeueAnswer
  simp only [hy, hc, hd, Bool.false_eq_true, if_false]
  rfl

end Answer

/-- A FAILED job, which holds its references still, returns to its queue. -/
theorem requeue_failed {n a : Nat} {j : Job} {s : State} (why : RequeueReason) (f : Option FaultRecord)
    (hj : s.job? n = some j) (hf : j.state = .failed) : requeue n a why f s =
      raise (.jobRequeued n a why f) (s.bumpEntry.modJob n fun j => { j with
        state := .queued, attempt := a, lane := none, applied := none, entryOrder := s.entryCount + 1 }) := by
  have held : retakeRefs j s = s := by
    unfold retakeRefs
    exact if_pos (by rw [hf]; rfl)
  rw [requeue_eq a why f hj, held]
  rfl

/-! ### After a need test -/

section After

variable (k : PosKey) (s : State)

/-- The notices that may still be raised. -/
def AfterNeed (n : Notice) : Prop := ReadinessNotice n ∨ ServingNotice n

/-- A kind of notice within another. -/
theorem Adds.weaken {P Q : Notice → Prop} {s t : State} (h : Adds P s t) (hPQ : ∀ n, P n → Q n) : Adds Q s t :=
  fun q f hf => (h q f hf).imp_right fun ⟨time, n, he, hP⟩ => ⟨time, n, he, hPQ n hP⟩

/-- Once the need is tested, only those are raised. -/
theorem needAndServe_adds : Adds AfterNeed (needTest k s) (needAndServe k s) :=
  ((tellSatisfied_adds k _).weaken fun _ => .inl).trans ((serve_adds _).weaken fun _ => .inr)

/-- The ports are kept then. -/
theorem needAndServe_ports (hs : JobsOrdered (needTest k s)) : PortsKept (needTest k s) (needAndServe k s) :=
  (tellSatisfied_reacts (D := NoJob) k _).ports_kept.trans
    (serve_kept (Reacts.jobs_ordered hs (tellSatisfied_reacts (D := NoJob) k _))).2

/-- What the position holds then, but for its standing. -/
theorem needAndServe_pos {y : Position} (hs : JobsOrdered (needTest k s)) (hy : (needTest k s).pos? k = some y) :
    ∃ b, (needAndServe k s).pos? k = some { y with work := { y.work with satisfied := b } } := by
  have served : (needAndServe k s).plan = (tellSatisfied k (needTest k s)).plan :=
    (serve_kept (Reacts.jobs_ordered hs (tellSatisfied_reacts (D := NoJob) k _))).1.plan
  have told := pos?_tellSatisfied k (needTest k s) k
  rw [if_pos rfl, hy] at told
  refine ⟨(needTest k s).satisfied y, ?_⟩
  unfold State.pos? at told ⊢
  rw [served]
  exact told

end After

/-- The record of a new job, as the statement writes it. -/
theorem newJob_eq (s : State) (k : PosKey) (x : Position) : newJob s k x =
    { press := k.press, pos := k.pos
      pages := x.content.pages.map fun m => (m, versionOf s m)
      sep := x.content.sep, format := x.content.format
      colourNeed := if ∃ m ∈ x.content.pages, s.classOfPage m = some .colour then .colour else .mono
      slots := (x.content.pages.filter (needsPage s x.content.sep)).map fun m => ⟨m, versionOf s m, x.content.sep⟩
      cls := if x.work.remake = true ∨ (s.press k.press).state = .running ∨ (s.press k.press).window = true
        then .urgent else .normal
      origin := if x.work.remake then .remake else .first
      attempt := 1, state := .queued, superseded := false, engine := none, lane := none
      applied := none, lastFault := none, entryOrder := s.entryCount + 1 } := by
  have colour : (if x.content.pages.any (fun n => s.classOfPage n = some .colour) then ColourClass.colour else .mono) =
      if ∃ m ∈ x.content.pages, s.classOfPage m = some .colour then ColourClass.colour else .mono :=
    if_congr (by simp) rfl rfl
  have urgent : (if x.work.remake || s.pressUrgent k.press then JobClass.urgent else .normal) =
      if x.work.remake = true ∨ (s.press k.press).state = .running ∨ (s.press k.press).window = true
        then JobClass.urgent else .normal :=
    if_congr (by simp [State.pressUrgent]) rfl rfl
  unfold newJob requiredPages
  simp only [funext (s.required_eq_needsPage x.content.sep)]
  rw [colour, urgent]

/-- A notice changes no position. -/
theorem pos?_raise (n : Notice) (s : State) (k : PosKey) : (raise n s).pos? k = s.pos? k := by
  rw [raise_same n s]
  rfl

/-- A job that has been created, in the table. -/
theorem job?_created (k : PosKey) (x : Position) (s : State) :
    (createJob k x s).job? (nextNumber s) = some (newJob s k x) := by
  obtain ⟨v, w, h⟩ := createJob_eq k x s
  rw [h, job?_raise]
  exact (job?_addJob (nextNumber s) (newJob s k x) s.bumpEntry (nextNumber s)).trans (if_pos rfl)

/-- The position that holds it. -/
theorem pos?_created {k : PosKey} {x : Position} {s : State} (hx : s.pos? k = some x) :
    (createJob k x s).pos? k =
      some { x with work := { x.work with current := some (nextNumber s), deferred := false, remake := false } } := by
  obtain ⟨v, w, h⟩ := createJob_eq k x s
  rw [h, pos?_raise, pos?_modWork, if_pos rfl]
  exact congrArg (Option.map _) hx

/-- Settles O27: a FAILED job returns; without one the need is tested, with its three outcomes. -/
theorem positionRequeued : Obligations.PositionRequeued := by
  intro p tag k s hfree htab hroom c
  have hk : keyOf (byteOf k.press.val) (byteOf k.pos.val) = some k := keyOf_byteOf k
  refine ⟨fun hx => ?_, fun b1 b2 hb => ?_, fun x hx => ⟨fun n j hc hj => ⟨fun hf => ?_, fun hf => ?_⟩, fun hc => ?_⟩⟩
  · exact answers_unchanged (r := .requeuePosition _ _) hfree hroom (reqRequeuePosition_notFound (holding p _ s) hk hx)
  · exact answers_unchanged (r := .requeuePosition b1 b2) hfree hroom
      (reqRequeuePosition_badValue _ (keyOf_eq_none hb))
  · have ordered : Table.ordered id (tmod s.jobs n fun j => { j with
        state := .queued, attempt := 1, lane := none, applied := none, entryOrder := s.entryCount + 1 }) :=
      ordered_tmod _ _ htab.jobs
    refine answersServing_of (r := .requeuePosition _ _) (ns := [_]) hfree hroom ordered
      ((reqRequeuePosition_failed (holding p _ s) hk hx hc hj hf).trans ?_)
    rw [requeue_failed .requeuedByRoom j.lastFault (s := holding p _ s) hj hf]
    rfl
  · exact answers_unchanged (r := .requeuePosition _ _) hfree hroom
      (reqRequeuePosition_wrongState (holding p _ s) hk hx hc hj hf)
  · set r : Received := ⟨tag, 9, .sound (.requeuePosition (byteOf k.press.val) (byteOf k.pos.val))⟩ with hr
    set s0 := holding p r s with hs0
    have taken : exec c s = .next ((needAndServe k s0).modLink p (Link.answer tag 9 (requeueAnswer (needTest k s0) k))) := by
      have tests : applyRequest p (.requeuePosition (byteOf k.press.val) (byteOf k.pos.val)) s0 =
          (needAndServe k s0, requeueAnswer (needTest k s0) k) := reqRequeuePosition_tests s0 hk hx hc
      exact exec_applied (r := .requeuePosition _ _) hfree hroom tests
    have ordered : JobsOrdered s0 := htab.jobs
    have chain : Reacts (fun _ => False) s0 (needAndServe k s0) := needAndServe_reacts k ordered
    have tested : Reacts (fun _ => False) s0 (needTest k s0) := needTest_reacts k s0
    have testedOrdered := Reacts.jobs_ordered ordered tested
    have ports := needAndServe_ports k s0 testedOrdered
    have answered (a : Answer) : AnsweredAt p tag 9 a s ((needAndServe k s0).modLink p (Link.answer tag 9 a)) :=
      answeredAt_of (r := r) rfl rfl chain.ports_kept
    have pos_link (f : Link → Link) (v : State) : (v.modLink p f).pos? k = v.pos? k := rfl
    have last_link (f : Link → Link) (v : State) : (v.modLink p f).lastJob = v.lastJob := rfl
    have job_link {n : Nat} (f : Link → Link) (v : State) : (v.modLink p f).job? n = v.job? n := rfl
    have need : needsJob s0 x = makeable s x.content := by
      unfold needsJob
      rw [hc, satisfiable_eq_makeable]
      rfl
    refine ⟨_, taken, (chain.kept.of_holding).andLink p _, others_answered chain _, fun hm => ?_,
      fun hm hl => ?_, fun hm hl => ?_⟩
    · have clears := needTest_clears (s := s0) hx (need.trans hm)
      have pos : (needTest k s0).pos? k = some { x with work := { x.work with deferred := false } } := by
        rw [clears, pos?_modWork, if_pos rfl]
        exact congrArg (Option.map _) hx
      rw [requeueAnswer_none pos hc rfl]
      exact answered _
    · have full := needTest_full (s := s0) hx (need.trans hm) hl
      have pos : (needTest k s0).pos? k = some { x with work := { x.work with deferred := true } } := by
        rw [full]
        split
        next hd =>
          have same : x = { x with work := { x.work with deferred := true } } := by rw [← hd]
          rw [← same]
          exact hx
        next =>
          rw [pos?_raise, pos?_modWork, if_pos rfl]
          exact congrArg (Option.map _) hx
      rw [requeueAnswer_deferred pos hc rfl]
      refine ⟨answered _, fun hd => ?_, fun hd q time hmem => ?_, ?_⟩
      · rw [hd, if_neg Bool.false_ne_true] at full
        have raised := (told_raise (.positionDeferred k) (s0.modWork k fun w => { w with deferred := true }))
        rw [← full] at raised
        exact (((raised.since (s := s0) (.of_eq rfl) rfl).kept ports).answered p _ _ _).of_holding
      · rw [hd, if_pos rfl] at full
        have adds := needAndServe_adds k s0
        rw [full] at adds
        exact adds.answered tag 9 _ q (by rintro (h | h) <;> exact h) hmem
      · obtain ⟨b, hb⟩ := needAndServe_pos k s0 testedOrdered pos
        exact ⟨_, (pos_link _ _).trans hb, hc, rfl⟩
    · have creates := needTest_creates (s := s0) hx (need.trans hm) hl
      obtain ⟨low, high⟩ := nextNumber_range s0
      have free := nextNumber_nextFree (s := s0) hl
      have pos := pos?_created (s := s0) hx
      have made := job?_created k x s0
      obtain ⟨v, w, written⟩ := createJob_eq k x s0
      rw [← creates] at pos made written
      have after : Reacts NoJob (needTest k s0) (needAndServe k s0) :=
        Reacts.then testedOrdered (tellSatisfied_reacts k _) serve_reacts
      obtain ⟨j', hj', stays⟩ := after.job_stays id made
      obtain ⟨b, hb⟩ := needAndServe_pos k s0 testedOrdered pos
      have last : (needAndServe k s0).lastJob = nextNumber s0 := by
        obtain ⟨v', w', p', parts⟩ := tellSatisfied_parts k (needTest k s0)
        have told : (tellSatisfied k (needTest k s0)).lastJob = nextNumber s0 := by
          rw [parts, written, raise_same]
          rfl
        exact (serve_kept (Reacts.jobs_ordered testedOrdered (tellSatisfied_reacts (D := NoJob) k _))).1.lastJob.trans
          told
      rw [requeueAnswer_created pos rfl]
      refine ⟨nextNumber s0, _, newJob s0 k x, j', ?_, low, high, free, (last_link _ _).trans last, answered _,
        (pos_link _ _).trans hb, rfl, (job_link _ _).trans hj', stays, ?_,
        newJob_eq s k x⟩
      · obtain ⟨i, -, hnone, -⟩ := free
        exact hnone
      · have raised := told_raise (.jobCreated (nextNumber s0) k (newJob s0 k x).cls (newJob s0 k x).origin
          (newJob s0 k x).colourNeed)
            (({ s0.bumpEntry.addJob (nextNumber s0) (newJob s0 k x) with slots := v, pages := w } : State).modWork k
              fun y => { y with current := some (nextNumber s0), deferred := false, remake := false })
        rw [← written] at raised
        exact (((raised.since (s := s0) (.of_eq rfl) rfl).kept ports).answered p _ _ _).of_holding

end Sys2Proof.Machine
end

section
/-! What a departure leaves of a position (R50, R55), and that it tells its end. -/

namespace Sys2Proof.Machine

open State

variable {D : Nat → Prop}

/-! ### A position that stays as it is, but for its standing -/

/-- A position keeps all but the standing last told of it. -/
def StandsAs (k : PosKey) (s t : State) : Prop :=
  ∀ x, s.pos? k = some x → ∃ b, t.pos? k = some { x with work := { x.work with satisfied := b } }

/-- The plan is the same. -/
theorem StandsAs.of_plan {k : PosKey} {s t : State} (h : t.plan = s.plan) : StandsAs k s t := by
  intro x hx
  refine ⟨x.work.satisfied, ?_⟩
  unfold State.pos? at hx ⊢
  rw [h]
  exact hx

/-- One change after another. -/
theorem StandsAs.trans {k : PosKey} {s t u : State} (h : StandsAs k s t) (g : StandsAs k t u) : StandsAs k s u := by
  intro x hx
  obtain ⟨b, hb⟩ := h x hx
  obtain ⟨c, hc⟩ := g _ hb
  exact ⟨c, hc⟩

/-- A change of another position. -/
theorem StandsAs.modWork {k k' : PosKey} (h : k ≠ k') (f : PosWork → PosWork) (s : State) :
    StandsAs k s (s.modWork k' f) := by
  intro x hx
  exact ⟨x.work.satisfied, (pos?_modWork k' f s k).trans ((if_neg h).trans hx)⟩

/-- A fold of such changes. -/
theorem StandsAs.foldl {k : PosKey} {α : Type} (f : State → α → State) (l : List α)
    (h : ∀ s, ∀ a ∈ l, StandsAs k s (f s a)) (s : State) : StandsAs k s (l.foldl f s) := by
  induction l generalizing s with
  | nil => exact .of_plan rfl
  | cons a l ih =>
    exact (h s a List.mem_cons_self).trans (ih (fun s b hb => h s b (List.mem_cons_of_mem _ hb)) _)

/-- A notice. -/
theorem raise_standsAs (k : PosKey) (n : Notice) (s : State) : StandsAs k s (raise n s) :=
  .of_plan (by rw [raise_same n s])

/-- Telling the press schedule, of whichever position. -/
theorem tellSatisfied_standsAs (k k' : PosKey) (s : State) : StandsAs k s (tellSatisfied k' s) := by
  intro x hx
  have told := pos?_tellSatisfied k' s k
  by_cases h : k = k'
  · rw [if_pos h, hx] at told
    exact ⟨_, told⟩
  · rw [if_neg h, hx] at told
    exact ⟨x.work.satisfied, told⟩

/-- Judging the condition. -/
theorem evalStarved_standsAs (k : PosKey) (s : State) : StandsAs k s (evalStarved s) := by
  unfold evalStarved
  split
  · split
    · exact .of_plan rfl
    · exact StandsAs.trans (.of_plan (t := s.setStarved true) rfl) (raise_standsAs k _ _)
  · exact .of_plan rfl

/-- Serving the engines. -/
theorem serve_standsAs (k : PosKey) {s : State} (hs : JobsOrdered s) : StandsAs k s (serve s) :=
  .of_plan (serve_kept hs).1.plan

/-- References that are released. -/
theorem releaseRefs_standsAs (k : PosKey) (ks : List SlotKey) (s : State) : StandsAs k s (releaseRefs ks s) := by
  obtain ⟨v, hv⟩ := releaseRefs_slots ks s
  rw [hv]
  exact .of_plan rfl

/-- Slots that are freed. -/
theorem plan_dropSlots (ks : List SlotKey) (s : State) : (ks.foldl (fun s k => s.dropSlot k) s).plan = s.plan :=
  foldl_keeps State.plan ks fun _ _ => rfl

/-- A live-job count that falls. -/
theorem lowerLive_standsAs (k : PosKey) (n : Nat) (s : State) : StandsAs k s (lowerLive n s) := by
  unfold lowerLive
  dsimp only
  split
  · split
    · unfold removePage
      dsimp only
      refine StandsAs.trans (.of_plan ?_) (raise_standsAs k _ _)
      exact plan_dropSlots _ _
    · exact .of_plan rfl
  · exact .of_plan rfl

/-- A need test of another position. -/
theorem needTest_standsAs {k k' : PosKey} (h : k ≠ k') (s : State) : StandsAs k s (needTest k' s) := by
  cases hx : s.pos? k' with
  | none =>
    have same : needTest k' s = s := by unfold needTest; rw [hx]
    rw [same]
    exact .of_plan rfl
  | some x =>
    cases hn : needsJob s x with
    | false =>
      rw [needTest_clears hx hn]
      exact .modWork h _ s
    | true =>
      by_cases hl : s.jobs.length < 768
      · obtain ⟨v, w, made⟩ := createJob_eq k' x s
        rw [needTest_creates hx hn hl, made]
        refine StandsAs.trans ?_ (raise_standsAs k _ _)
        refine StandsAs.trans ?_ (.modWork h _ _)
        exact .of_plan rfl
      · rw [needTest_full hx hn (Nat.not_lt.mp hl)]
        split
        · exact .of_plan rfl
        · exact StandsAs.trans (.modWork h _ s) (raise_standsAs k _ _)

/-! ### Departure (R50, R55) -/

/-- A position that is not deferred is not served as one. -/
theorem not_mem_deferredOrder {k : PosKey} {x : Position} {s : State} (ht : Table.ordered PosKey.rank s.plan)
    (hx : s.pos? k = some x) (hd : x.work.deferred = false) : k ∉ deferredOrder s := by
  unfold deferredOrder
  rw [mem_sortBy]
  intro hm
  obtain ⟨⟨k', y⟩, hy, rfl⟩ := List.mem_map.mp hm
  rw [List.mem_filter] at hy
  have here := tget_of_mem ht hy.1
  have same : y = x := Option.some.inj (here.symm.trans hx)
  rw [same, hd] at hy
  exact absurd hy.2 Bool.false_ne_true

/-- Serving others leaves a position as it is. -/
theorem serveFrom_standsAs {k : PosKey} (l : List PosKey) (hk : k ∉ l) {s : State} (hs : JobsOrdered s) :
    StandsAs k s (serveFrom serve l s) := by
  induction l generalizing s with
  | nil => exact .of_plan rfl
  | cons a l ih =>
    have ha : k ≠ a := fun h => hk (h ▸ List.mem_cons_self)
    have hl : k ∉ l := fun h => hk (List.mem_cons_of_mem _ h)
    have tested := needTest_standsAs ha s
    have ordered := Reacts.jobs_ordered hs (needTest_reacts (D := NoJob) a s)
    have served := serve_standsAs k ordered
    have servedOrdered := Reacts.jobs_ordered ordered (serve_reacts (D := NoJob) ordered)
    unfold serveFrom
    dsimp only
    split
    · split
      · exact (tested.trans served).trans (ih hl servedOrdered)
      · exact tested.trans served
    · exact tested.trans (ih hl ordered)

/-- A job that leaves the table. -/
theorem dropJob_standsAs (k : PosKey) (n : Nat) (s : State) : StandsAs k s (s.dropJob n) := .of_plan rfl

/-- Telling several positions. -/
theorem tellAll_standsAs (k : PosKey) (ks : List PosKey) (s : State) : StandsAs k s (tellAll ks s) :=
  .foldl _ ks (fun s a _ => tellSatisfied_standsAs k a s) s

/-- A departure ends by telling the end of the job, and the positions it concerned. -/
theorem departCore_parts {n : Nat} {j : Job} (terminal : JobState) {s : State} (hj : s.job? n = some j)
    (ht : terminal ≠ .uncertain) :
    ∃ u, Reacts AnyJob s u ∧ (∀ k x, s.pos? k = some x → x.work.current ≠ some n → StandsAs k s u) ∧
      departCore n terminal s = (j.pages.map Prod.fst).foldl (fun s p => tellAll (s.positionsNaming p) s)
        (tellSatisfied j.key ((raise (.jobEnded n j.key terminal j.lastFault) u).dropJob n)) := by
  unfold departCore
  rw [hj]
  dsimp only
  have r1 : Reacts AnyJob s (s.modJob n fun x => { x with state := terminal }) :=
    (ReactStep.job s n (fun x => { x with state := terminal }) trivial
      fun j _ => ⟨rfl, rfl, rfl, rfl, rfl, rfl, rfl, rfl, id, fun h => absurd h ht⟩).reacts
  have h1 (k) : StandsAs k s (s.modJob n fun x => { x with state := terminal }) := .of_plan rfl
  generalize s.modJob n (fun x => { x with state := terminal }) = s1 at r1 h1 ⊢
  have r2 : Reacts AnyJob s (if j.state = .queued then evalStarved s1 else s1) := by
    split
    · exact r1.trans (evalStarved_reacts s1)
    · exact r1
  have h2 (k) : StandsAs k s (if j.state = .queued then evalStarved s1 else s1) := by
    split
    · exact (h1 k).trans (evalStarved_standsAs k s1)
    · exact h1 k
  generalize (if j.state = .queued then evalStarved s1 else s1) = s2 at r2 h2 ⊢
  have r3 : Reacts AnyJob s (if j.state.holdsRefs then releaseRefs j.slots s2 else s2) := by
    split
    · exact r2.trans (releaseRefs_reacts _ s2)
    · exact r2
  have h3 (k) : StandsAs k s (if j.state.holdsRefs then releaseRefs j.slots s2 else s2) := by
    split
    · exact (h2 k).trans (releaseRefs_standsAs k _ s2)
    · exact h2 k
  generalize (if j.state.holdsRefs then releaseRefs j.slots s2 else s2) = s3 at r3 h3 ⊢
  have r4 : Reacts AnyJob s ((j.pages.map Prod.fst).foldl (fun s p => lowerLive p s) s3) :=
    r3.trans (foldl_chain _ _ _ fun s p _ => lowerLive_reacts p s)
  have h4 (k) : StandsAs k s ((j.pages.map Prod.fst).foldl (fun s p => lowerLive p s) s3) :=
    (h3 k).trans (.foldl _ _ (fun s p _ => lowerLive_standsAs k p s) s3)
  generalize (j.pages.map Prod.fst).foldl (fun s p => lowerLive p s) s3 = s4 at r4 h4 ⊢
  cases hx : s4.pos? j.key with
  | none => exact ⟨s4, r4, fun k _ _ _ => h4 k, rfl⟩
  | some x =>
    by_cases hc : x.work.current = some n
    · refine ⟨evalStarved (needTest j.key (s4.modWork j.key fun w => { w with current := none })), ?_, ?_, ?_⟩
      · exact r4.trans (((ReactStep.work s4 _ _ (by exact fun _ => rfl)).reacts.trans (needTest_reacts _ _)).trans
          (evalStarved_reacts _))
      · intro k y hy hk
        have apart : k ≠ j.key := by
          rintro rfl
          obtain ⟨b, hb⟩ := h4 j.key y hy
          rw [hx] at hb
          rw [Option.some.inj hb] at hc
          exact hk hc
        exact (h4 k).trans ((StandsAs.modWork apart _ s4).trans ((needTest_standsAs apart _).trans
          (evalStarved_standsAs k _)))
      · dsimp only
        rw [if_pos (decide_eq_true hc)]
    · refine ⟨s4, r4, fun k _ _ _ => h4 k, ?_⟩
      dsimp only
      rw [if_neg (by simpa using hc)]

/-- A departure is no business of a position that does not hold the job, but for its standing. -/
theorem departCore_standsAs {k : PosKey} {x : Position} {n : Nat} {terminal : JobState} {s : State}
    (hx : s.pos? k = some x) (hk : x.work.current ≠ some n) (ht : terminal ≠ .uncertain) :
    StandsAs k s (departCore n terminal s) := by
  cases hj : s.job? n with
  | none =>
    have same : departCore n terminal s = s := by unfold departCore; rw [hj]
    rw [same]
    exact .of_plan rfl
  | some j =>
    obtain ⟨u, -, stands, parts⟩ := departCore_parts terminal hj ht
    rw [parts]
    have told : StandsAs k s (tellSatisfied j.key ((raise (.jobEnded n j.key terminal j.lastFault) u).dropJob n)) :=
      (((stands k x hx hk).trans (raise_standsAs k _ u)).trans (dropJob_standsAs k n _)).trans
        (tellSatisfied_standsAs k _ _)
    exact told.trans (.foldl _ _ (fun s p _ => tellAll_standsAs k _ s) _)

/-- The plan stays in order. -/
theorem Reacts.plan_ordered {s t : State} (h : Reacts D s t) (hs : Table.ordered PosKey.rank s.plan) :
    Table.ordered PosKey.rank t.plan := by
  induction h with
  | refl => exact hs
  | tail _ step ih =>
    cases step with
    | serve h => rw [h.kept.plan]; exact ih
    | work k f h => exact ordered_tmod k (fun x => { x with work := f x.work }) ih
    | _ => exact ih

/-- A departure leaves a position that does not hold the job, and is not deferred, but for its standing. -/
theorem depart_standsAs {k : PosKey} {x : Position} {n : Nat} {terminal : JobState} {s : State}
    (hs : JobsOrdered s) (hp : Table.ordered PosKey.rank s.plan) (hx : s.pos? k = some x) (hk : x.work.current ≠ some n) (hd : x.work.deferred = false)
    (ht : terminal ≠ .uncertain := by decide) : StandsAs k s (depart n terminal s) := by
  have core := departCore_standsAs hx hk ht
  have chain : Reacts AnyJob s (departCore n terminal s) := departCore_reacts n terminal s ht
  have ordered := Reacts.jobs_ordered hs chain
  obtain ⟨b, hb⟩ := core x hx
  have apart := not_mem_deferredOrder (Reacts.plan_ordered chain hp) hb hd
  have others := serveFrom_standsAs _ apart ordered
  have after : Reacts AnyJob _ (serveFrom serve (deferredOrder (departCore n terminal s)) (departCore n terminal s)) :=
    serveFrom_reacts (fun _ h => serve_reacts h) _ ordered
  exact (core.trans others).trans (serve_standsAs k (Reacts.jobs_ordered ordered after))

/-! ### The notice of a departure (R50) -/

/-- A departure tells the end of its job. -/
theorem departCore_told {n : Nat} {j : Job} {terminal : JobState} {s : State} (hj : s.job? n = some j)
    (ht : terminal ≠ .uncertain := by decide) :
    Told (.jobEnded n j.key terminal j.lastFault) s (departCore n terminal s) := by
  obtain ⟨u, chain, -, parts⟩ := departCore_parts terminal hj ht
  have told := (told_raise (.jobEnded n j.key terminal j.lastFault) u).since chain.ports_kept (Reacts.kept chain).clock
  have rest : PortsKept (raise (.jobEnded n j.key terminal j.lastFault) u) (departCore n terminal s) := by
    rw [parts]
    refine PortsKept.trans (.of_eq (t := (raise (.jobEnded n j.key terminal j.lastFault) u).dropJob n) rfl) ?_
    refine (tellSatisfied_reacts (D := AnyJob) j.key _).ports_kept.trans ?_
    exact Reacts.ports_kept (D := AnyJob) (foldl_chain _ _ _ fun s p _ => tellAll_reacts _ s)
  exact told.kept rest

/-- And the positions and the engines served after leave the notice (R50, R55). -/
theorem depart_told {n : Nat} {j : Job} {terminal : JobState} {s : State} (hs : JobsOrdered s)
    (hj : s.job? n = some j) (ht : terminal ≠ .uncertain := by decide) :
    Told (.jobEnded n j.key terminal j.lastFault) s (depart n terminal s) := by
  have ordered := Reacts.jobs_ordered hs (departCore_reacts (D := AnyJob) n terminal s ht)
  have served : Reacts AnyJob _ (serveDeferred serve (departCore n terminal s)) :=
    serveDeferred_reacts (fun _ h => serve_reacts h) ordered
  have after := served.ports_kept.trans (serve_kept (Reacts.jobs_ordered ordered served)).2
  exact (departCore_told hj ht).kept after

end Sys2Proof.Machine
end

section
/-! The supersede of a job, by its state (R52, R59 to R62). -/

namespace Sys2Proof.Machine

open State

variable {D : Nat → Prop}

/-- The positions of a plan that stays. -/
theorem pos?_of_plan {s t : State} (h : t.plan = s.plan) {k : PosKey} : t.pos? k = s.pos? k :=
  congrArg (fun p => tget p k) h

/-! ### A superseded job, taken off its position -/

/-- The state once a job is marked superseded and its position has no current job (R59, R52). -/
def detached (k : PosKey) (n : Nat) (j : Job) (s : State) : State :=
  (s.modJob n fun x => { x with superseded := true }).modWork k fun w =>
    { w with current := none, remake := w.remake || marksRemake j }

/-- The notice of a supersede. -/
def supersedeNotice (n : Nat) (j : Job) (x : SupersedeEffect) : Notice := .jobSuperseded n j.key j.state x

/-- A supersede: the effect, and the press schedule is told. -/
theorem supersede_eq {k : PosKey} {n : Nat} {j : Job} {s : State} (hj : s.job? n = some j) :
    supersede k n s = tellSatisfied k (supersedeEffect n j (detached k n j s)) := by
  unfold supersede
  rw [hj]
  rfl

section Detached

variable {k : PosKey} {n : Nat} {j : Job} {s : State}

/-- Its job. -/
theorem job?_detached (hj : s.job? n = some j) :
    (detached k n j s).job? n = some { j with superseded := true } := by
  unfold detached
  have plan : ∀ (f : PosWork → PosWork) (t : State), (t.modWork k f).job? n = t.job? n := fun _ _ => rfl
  rw [plan, job?_modJob, if_pos rfl, hj]
  rfl

/-- Its position. -/
theorem pos?_detached {x : Position} (hx : s.pos? k = some x) : (detached k n j s).pos? k =
    some { x with work := { x.work with current := none, remake := x.work.remake || marksRemake j } } := by
  unfold detached
  rw [pos?_modWork, if_pos rfl]
  exact congrArg (Option.map _) hx

/-- It is a reaction. -/
theorem detached_reacts : Reacts (fun m => m = n) s (detached k n j s) :=
  (ReactStep.job (D := fun m => m = n) s n (fun x => { x with superseded := true }) rfl fun _ _ =>
    ⟨rfl, rfl, rfl, rfl, rfl, rfl, rfl, rfl, id, id⟩).reacts.tail
      (ReactStep.work _ k (fun w => { w with current := none, remake := w.remake || marksRemake j }) fun _ => rfl)

/-- The ports stay. -/
theorem detached_desk : SameDesk s (detached k n j s) := ⟨rfl, rfl⟩

/-- A press that has a page of the position to make stands unsatisfied of it (R27). -/
theorem satisfied_detached {x : Position} {t : State} (hp : t.pages = s.pages)
    (hneed : x.content.pages.any (needsPage s x.content.sep) = true) (b : Bool) :
    t.satisfied { x with work := { x.work with current := none, remake := b } } = false := by
  rw [State.satisfied_eq_satisfies]
  have pages : needsPage t x.content.sep = needsPage s x.content.sep := by
    funext m
    unfold needsPage State.page?
    rw [hp]
  show (!x.content.pages.any (needsPage t x.content.sep)) = false
  rw [pages, hneed]
  rfl

end Detached

/-! ### The effect, by the job's state (R59 to R62) -/

section Effect

variable {n : Nat} {j : Job} {s : State}

/-- Every engine is one of them. -/
theorem mem_allEngines (e : EngineId) : e ∈ allEngines := by
  revert e
  decide

/-- EXPOSE has been sent for the job. -/
theorem sentExpose_iff : sentExpose s n = true ↔ ∃ e, WaitsAt (s.engine e).ctx.next n .exposeSent := by
  unfold sentExpose
  rw [List.any_eq_true]
  constructor
  · rintro ⟨e, -, he⟩
    refine ⟨e, ?_⟩
    cases hw : (s.engine e).ctx.next with
    | none => simp [hw] at he
    | some w => simpa [hw, WaitsAt] using he
  · rintro ⟨e, w, hw, hn, hs⟩
    exact ⟨e, mem_allEngines e, by simp [hw, hn, hs]⟩

/-- What leaving its engine changes: the engine's contexts, and what is sent to it. -/
theorem dropAssigned_parts : ∃ v l, dropAssigned n s = { s with engines := v, lineSent := l } := by
  unfold dropAssigned
  split
  · rw [cancelJob_eq]
    exact ⟨_, _, rfl⟩
  · rw [cancelJob_eq]
    exact ⟨_, _, rfl⟩
  · exact ⟨_, _, rfl⟩

/-- A QUEUED or FAILED job ends. -/
theorem supersedeEffect_ends (h : j.state = .queued ∨ j.state = .failed) :
    supersedeEffect n j s = depart n .cancelled (raise (supersedeNotice n j .cancelled) s) := by
  unfold supersedeEffect
  rcases h with h | h <;> rw [h] <;> exact congrArg (depart n .cancelled) (by rw [supersedeNotice, h])

/-- An ASSIGNED job that EXPOSE has not been sent for leaves its engine, and ends. -/
theorem supersedeEffect_unsent (h : j.state = .assigned) (hs : ¬ sentExpose s n = true) :
    supersedeEffect n j s = depart n .cancelled (raise (supersedeNotice n j .cancelled) (dropAssigned n s)) := by
  unfold supersedeEffect
  rw [h]
  exact (if_neg hs).trans (congrArg (depart n .cancelled) (by rw [supersedeNotice, h]))

/-- An ASSIGNED job that EXPOSE has been sent for, and one that is exposed or in its lane, or lost, stays. -/
theorem supersedeEffect_flags (h : j.state = .assigned ∧ sentExpose s n = true ∨
    j.state ∈ [.exposing, .developing, .uncertain]) :
    supersedeEffect n j s = raise (supersedeNotice n j .flagged) s := by
  unfold supersedeEffect
  rcases h with ⟨h, hs⟩ | h
  · rw [supersedeNotice, h]
    exact if_pos hs
  · simp only [List.mem_cons, List.not_mem_nil, or_false] at h
    rcases h with h | h | h <;> rw [supersedeNotice, h]

/-- A FINISHING job stays, and the sorter looks. -/
theorem supersedeEffect_finishing (h : j.state = .finishing) :
    supersedeEffect n j s = sorterLook (raise (supersedeNotice n j .flagged) s) := by
  unfold supersedeEffect
  rw [supersedeNotice, h]

/-- A RACKED plate is called back. -/
theorem supersedeEffect_racked (h : j.state = .racked) : supersedeEffect n j s =
    raiseAll [supersedeNotice n j .pullRequired, .pullRequired n j.key (rackPlace s n j)] s := by
  unfold supersedeEffect
  rw [raiseAll, List.foldl_cons, List.foldl_cons, List.foldl_nil, supersedeNotice, h]

/-- A MOUNTED plate of a RUNNING press is to be changed. -/
theorem supersedeEffect_running (h : j.state = .mounted) (hr : (s.press j.press).state = .running) :
    supersedeEffect n j s = raiseAll [supersedeNotice n j .changeRequired, .changeRequired n j.key] s := by
  unfold supersedeEffect
  rw [raiseAll, List.foldl_cons, List.foldl_cons, List.foldl_nil, supersedeNotice, h]
  exact if_pos hr

/-- A MOUNTED plate of another press is called back. -/
theorem supersedeEffect_standing (h : j.state = .mounted) (hr : (s.press j.press).state ≠ .running) :
    supersedeEffect n j s = raiseAll [supersedeNotice n j .pullRequired, .pullRequired n j.key .onPress] s := by
  unfold supersedeEffect
  rw [raiseAll, List.foldl_cons, List.foldl_cons, List.foldl_nil, supersedeNotice, h]
  exact if_neg hr

end Effect

/-! ### What notices and the sorter's look leave -/

/-- No position changes as a notice is raised. -/
theorem plan_raise (m : Notice) (s : State) : (raise m s).plan = s.plan := by rw [raise_same m s]

/-- No position changes as notices are raised. -/
theorem plan_raiseAll (ns : List Notice) (s : State) : (raiseAll ns s).plan = s.plan := by rw [raiseAll_same ns s]

/-- No position changes as a lane exit is found blocked. -/
theorem plan_findBlocked (l : LaneId) (s : State) : (findBlocked l s).plan = s.plan := by
  unfold findBlocked
  split
  · rfl
  · split
    · rw [raise_same]
      rfl
    · rfl

/-- No position changes as a lane exit is granted. -/
theorem plan_grant (l : LaneId) (n : Nat) (j : Job) (d : Destination) (s : State) : (grant l n j d s).plan = s.plan := by
  unfold grant
  dsimp only
  split <;> rfl

/-- No position changes. -/
theorem plan_sorterLook (s : State) : (sorterLook s).plan = s.plan := by
  have blocked := (plan_findBlocked 1 (findBlocked 0 s)).trans (plan_findBlocked 0 s)
  unfold sorterLook
  split
  · dsimp only
    split
    · exact (plan_grant _ _ _ _ _).trans blocked
    · exact blocked
  · rfl

/-! ### A supersede (R59) -/

section Supersede

variable {k : PosKey} {n : Nat} {j : Job} {s : State}

/-- EXPOSE has been sent for the job. -/
def SentExpose (s : State) (n : Nat) : Prop := ∃ e, WaitsAt (s.engine e).ctx.next n .exposeSent

/-- The job ends as it is superseded. -/
def EndsSuperseded (s : State) (n : Nat) (j : Job) : Prop :=
  j.state = .queued ∨ j.state = .failed ∨ (j.state = .assigned ∧ ¬ SentExpose s n)

/-- What has been sent stays as the job is taken off its position. -/
theorem sentExpose_detached : sentExpose (detached k n j s) n = true ↔ SentExpose s n := sentExpose_iff

/-- The effect on a job that ends. -/
theorem supersedeEffect_departs (h : EndsSuperseded s n j) : ∃ u,
    supersedeEffect n j (detached k n j s) = depart n .cancelled (raise (supersedeNotice n j .cancelled) u) ∧
    SameDesk s u ∧ u.jobs = (detached k n j s).jobs ∧ u.plan = (detached k n j s).plan ∧
    u.entryCount = s.entryCount := by
  rcases h with h | h | ⟨h, hs⟩
  · exact ⟨_, supersedeEffect_ends (.inl h), detached_desk, rfl, rfl, rfl⟩
  · exact ⟨_, supersedeEffect_ends (.inr h), detached_desk, rfl, rfl, rfl⟩
  · refine ⟨_, supersedeEffect_unsent h (fun hc => hs (sentExpose_detached.mp hc)), ?_⟩
    obtain ⟨v, l, parts⟩ := dropAssigned_parts (n := n) (s := detached k n j s)
    rw [parts]
    exact ⟨⟨rfl, rfl⟩, rfl, rfl, rfl⟩

/-- The effect on a job that stays. -/
theorem supersedeEffect_stays (hl : j.state ∉ [.retired, .cancelled, .discarded]) (h : ¬ EndsSuperseded s n j) :
    Reacts NoJob (detached k n j s) (supersedeEffect n j (detached k n j s)) ∧
      (supersedeEffect n j (detached k n j s)).plan = (detached k n j s).plan := by
  generalize hu : detached k n j s = u
  have flags (hf : j.state = .assigned ∧ sentExpose u n = true ∨ j.state ∈ [.exposing, .developing, .uncertain]) :
      Reacts NoJob u (supersedeEffect n j u) ∧ (supersedeEffect n j u).plan = u.plan := by
    rw [supersedeEffect_flags hf]
    exact ⟨raise_reacts _ _, plan_raise _ u⟩
  have told (ns : List Notice) (he : supersedeEffect n j u = raiseAll ns u) :
      Reacts NoJob u (supersedeEffect n j u) ∧ (supersedeEffect n j u).plan = u.plan := by
    rw [he]
    exact ⟨raiseAll_reacts _ _, plan_raiseAll _ u⟩
  cases hs : j.state with
  | queued => exact absurd (.inl hs) h
  | failed => exact absurd (.inr (.inl hs)) h
  | assigned =>
    have sent : SentExpose s n := by_contra fun hn => h (.inr (.inr ⟨hs, hn⟩))
    exact flags (.inl ⟨hs, hu ▸ sentExpose_detached.mpr sent⟩)
  | exposing | developing | uncertain => exact flags (.inr (by simp [hs]))
  | finishing =>
    rw [supersedeEffect_finishing hs]
    exact ⟨(raise_reacts _ _).trans (sorterLook_reacts _),
      (plan_sorterLook _).trans (plan_raise _ u)⟩
  | racked => exact told _ (supersedeEffect_racked hs)
  | mounted =>
    by_cases hr : (u.press j.press).state = .running
    · exact told _ (supersedeEffect_running hs hr)
    · exact told _ (supersedeEffect_standing hs hr)
  | retired | cancelled | discarded => exact absurd (by simp [hs]) hl

/-- The remake mark of a job that ends (R52). -/
theorem marksRemake_ends (h : EndsSuperseded s n j) : marksRemake j = decide (j.origin = .remake) := by
  unfold marksRemake
  rcases h with h | h | ⟨h, -⟩ <;> rw [h]

/-- The remake mark of a job that stays (R52). -/
theorem marksRemake_stays (hl : j.state ∉ [.retired, .cancelled, .discarded]) (h : ¬ EndsSuperseded s n j) :
    marksRemake j = (decide (j.state ≠ .assigned) || decide (j.origin = .remake)) := by
  unfold marksRemake
  cases hs : j.state with
  | queued => exact absurd (.inl hs) h
  | failed => exact absurd (.inr (.inl hs)) h
  | retired | cancelled | discarded => exact absurd (by simp [hs]) hl
  | _ => simp

/-- A job that ends: its end, its notices, and its position (R50, R52, R59). -/
theorem supersede_ends (hs : Tables s) (hj : s.job? n = some j) (h : EndsSuperseded s n j) :
    Ended n s (supersede k n s) ∧ Tells [supersedeNotice n j .cancelled] s (supersede k n s) ∧
      Told (.jobEnded n j.key .cancelled j.lastFault) s (supersede k n s) ∧
      ∀ x, s.pos? k = some x → x.work.deferred = false → ∃ y, (supersede k n s).pos? k = some y ∧
        y.work.current = none ∧ y.work.deferred = false ∧
        y.work.remake = (x.work.remake || decide (j.origin = .remake)) := by
  obtain ⟨u, effect, desk, jobs, plan, entry⟩ := supersedeEffect_departs (k := k) h
  rw [supersede_eq hj, effect]
  have ordered : JobsOrdered (raise (supersedeNotice n j .cancelled) u) := by
    rw [JobsOrdered, show (raise (supersedeNotice n j .cancelled) u).jobs = u.jobs by rw [raise_same _ u], jobs]
    exact Reacts.jobs_ordered hs.jobs detached_reacts
  have planned : Table.ordered PosKey.rank (raise (supersedeNotice n j .cancelled) u).plan := by
    rw [plan_raise, plan]
    exact Reacts.plan_ordered detached_reacts hs.plan
  have job : (raise (supersedeNotice n j .cancelled) u).job? n = some { j with superseded := true } :=
    (job?_raise _ u n).trans ((job?_of_jobs jobs n).trans (job?_detached hj))
  have place : (raise (supersedeNotice n j .cancelled) u).plan = (detached k n j s).plan := (plan_raise _ u).trans plan
  have raised : Raised [supersedeNotice n j .cancelled] s (raise (supersedeNotice n j .cancelled) u) :=
    .after desk (raised_one _ u)
  have entered : (raise (supersedeNotice n j .cancelled) u).entryCount = s.entryCount := by
    rw [raise_same _ u]
    exact entry
  have clock : (raise (supersedeNotice n j .cancelled) u).clock = s.clock := by
    rw [raise_same _ u]
    exact desk.2
  have early : PortsKept s (raise (supersedeNotice n j .cancelled) u) :=
    (PortsKept.of_eq desk.1).trans (Serves.ports_kept (raise_serves _ u))
  generalize raise (supersedeNotice n j .cancelled) u = v at ordered planned job place raised entered clock early ⊢
  have tell : Reacts NoJob (depart n .cancelled v) (tellSatisfied k (depart n .cancelled v)) := tellSatisfied_reacts k _
  have leaves : Reacts AnyJob v (depart n .cancelled v) := depart_reacts n .cancelled ordered
  refine ⟨?_, ?_, ?_, ?_⟩
  · have ended := (depart_ended n .cancelled ordered).since entered.ge
    exact Reacts.ended tell not_false (entered.symm.le.trans (Reacts.entry_le leaves)) ended
  · exact raised.tells_of (leaves.ports_kept.trans tell.ports_kept)
  · exact ((depart_told (terminal := .cancelled) ordered job (by decide)).since early clock).kept tell.ports_kept
  · intro x hx hd
    have held := (pos?_of_plan place).trans (pos?_detached (n := n) (j := j) hx)
    obtain ⟨b, hb⟩ := ((depart_standsAs (terminal := .cancelled) ordered planned held (by simp) hd (by decide)).trans (tellSatisfied_standsAs k k _)) _ held
    exact ⟨_, hb, rfl, hd, by rw [← marksRemake_ends h]⟩

/-- A job that stays: it is superseded for good, and its position has no current job (R52, R59). -/
theorem supersede_stays (hj : s.job? n = some j) (hl : j.state ∉ [.retired, .cancelled, .discarded])
    (h : ¬ EndsSuperseded s n j) :
    (∃ j', (supersede k n s).job? n = some j' ∧ JobStays { j with superseded := true } j') ∧
      ∀ x, s.pos? k = some x → ∃ y, (supersede k n s).pos? k = some y ∧ y.work.current = none ∧
        y.work.remake = (x.work.remake || decide (j.state ≠ .assigned) || decide (j.origin = .remake)) := by
  obtain ⟨chain, place⟩ := supersedeEffect_stays (k := k) hl h
  rw [supersede_eq hj]
  constructor
  · exact Reacts.job_stays (chain.trans (tellSatisfied_reacts k _)) not_false (job?_detached hj)
  · intro x hx
    have held := (pos?_of_plan place).trans (pos?_detached (n := n) (j := j) hx)
    obtain ⟨b, hb⟩ := tellSatisfied_standsAs k k _ _ held
    exact ⟨_, hb, rfl, by rw [Bool.or_assoc, ← marksRemake_stays hl h]⟩

/-- The first notices of a supersede are those of its effect (R59 to R62). -/
theorem supersede_tells {ns : List Notice} (hj : s.job? n = some j) {t : State}
    (hr : Raised ns (detached k n j s) t) (chain : Reacts AnyJob t (supersedeEffect n j (detached k n j s))) :
    Tells ns s (supersede k n s) := by
  rw [supersede_eq hj]
  exact (Raised.after detached_desk hr).tells_of (chain.ports_kept.trans (tellSatisfied_reacts (D := AnyJob) k _).ports_kept)

/-- Some notices are raised, and no other. -/
theorem raised_all (ns : List Notice) (s : State) : Raised ns s (raiseAll ns s) := SameDesk.refl _

/-- A plate that stands in a rack or on a press leaves a position that was satisfied by it unsatisfied (R27, R140,
R141). -/
theorem supersede_unsatisfies {ns : List Notice} {x : Position} (hj : s.job? n = some j) (hx : s.pos? k = some x)
    (hsat : x.work.satisfied = true) (hneed : x.content.pages.any (needsPage s x.content.sep) = true)
    (effect : supersedeEffect n j (detached k n j s) = raiseAll ns (detached k n j s)) :
    (supersede k n s).press k.press = { s.press k.press with
      unsatisfied := (s.press k.press).unsatisfied + 1
      state := if (s.press k.press).state = .running then .running
        else countedState (s.press k.press).positions ((s.press k.press).unsatisfied + 1) } ∧
    ((s.press k.press).state = .ready →
      countedState (s.press k.press).positions ((s.press k.press).unsatisfied + 1) = .makeready →
      Told (.pressUnready k.press ((s.press k.press).unsatisfied + 1)) s (supersede k n s)) := by
  rw [supersede_eq hj, effect]
  generalize hu : raiseAll ns (detached k n j s) = u
  have place : u.pos? k = some { x with work :=
      { x.work with current := none, remake := x.work.remake || marksRemake j } } := by
    rw [← hu, pos?_of_plan (plan_raiseAll ns _)]
    exact pos?_detached hx
  have press : u.press = s.press := by
    rw [← hu, raiseAll_same]
    rfl
  have pages : u.pages = s.pages := by
    rw [← hu, raiseAll_same]
    rfl
  have clock : u.clock = s.clock := by
    rw [← hu, raiseAll_same]
    rfl
  have ports : PortsKept s u := hu ▸ (PortsKept.of_eq detached_desk.1).trans (Serves.ports_kept (raiseAll_serves ns _))
  have unsatisfied := satisfied_detached (s := s) (x := x) (t := u) pages hneed (x.work.remake || marksRemake j)
  have differs : tellSatisfied k u = evalPress k.press (toldOf k false u) := by
    rw [tellSatisfied_differs place (by rw [unsatisfied]; simp [hsat]), unsatisfied]
  have counted : (toldOf k false u).press k.press =
      { s.press k.press with unsatisfied := (s.press k.press).unsatisfied + 1 } := by
    unfold toldOf
    rw [press_setUnsatisfied, if_pos rfl, show ∀ f, (u.modWork k f).press = u.press from fun _ => rfl, press]
    rfl
  rw [differs]
  constructor
  · rw [press_evalPress, counted]
    by_cases hr : (s.press k.press).state = .running <;> simp [hr]
  · intro hready hmake
    have notice : pressNotice k.press ((toldOf k false u).press k.press) =
        [.pressUnready k.press ((s.press k.press).unsatisfied + 1)] := by
      rw [counted]
      simp [pressNotice, hready, stateOfCounts_eq_countedState, hmake]
    rw [evalPress_eq, notice, raiseAll, List.foldl_cons, List.foldl_nil]
    generalize hv : (toldOf k false u).setPressState k.press (pressStateOf ((toldOf k false u).press k.press)) = v
    have desk : SameDesk u v := by
      rw [← hv]
      exact ⟨rfl, rfl⟩
    exact (told_raise _ v).since (ports.trans (.of_eq desk.1)) (desk.2.trans clock)

/-- The press after a plate that stands is superseded (R27, R140, R141). -/
def Unsatisfies (k : PosKey) (n : Nat) (s : State) : Prop :=
  ∀ x, s.pos? k = some x → x.work.satisfied = true → x.content.pages.any (needsPage s x.content.sep) = true →
    let y := s.press k.press
    let st := if y.state = .running then .running else countedState y.positions (y.unsatisfied + 1)
    (supersede k n s).press k.press = { y with unsatisfied := y.unsatisfied + 1, state := st } ∧
    (y.state = .ready → st = .makeready → Told (.pressUnready k.press (y.unsatisfied + 1)) s (supersede k n s))

/-- The notices of an effect that only raises some. -/
theorem supersede_raises {ns : List Notice} (hj : s.job? n = some j)
    (effect : supersedeEffect n j (detached k n j s) = raiseAll ns (detached k n j s)) :
    Tells ns s (supersede k n s) ∧ Unsatisfies k n s := by
  refine ⟨supersede_tells hj (raised_all ns _) (effect ▸ .refl), ?_⟩
  intro x hx hsat hneed
  obtain ⟨press, told⟩ := supersede_unsatisfies hj hx hsat hneed effect
  refine ⟨press, fun hready hmake => told hready ?_⟩
  rwa [if_neg (by rw [hready]; decide)] at hmake

/-- A job that stays where it is, with a mark (R60, R61). -/
theorem supersede_flags (hj : s.job? n = some j)
    (h : j.state = .assigned ∧ SentExpose s n ∨ j.state ∈ [.exposing, .developing, .finishing, .uncertain]) :
    Tells [supersedeNotice n j .flagged] s (supersede k n s) := by
  refine supersede_tells hj (raised_one _ _) ?_
  by_cases hf : j.state = .finishing
  · rw [supersedeEffect_finishing hf]
    exact sorterLook_reacts _
  · rw [supersedeEffect_flags]
    refine h.imp (fun ⟨hs, hsent⟩ => ⟨hs, sentExpose_detached.mpr hsent⟩) fun hm => ?_
    simpa [hf] using hm

end Supersede

/-- Settles O28: a supersede is its effect on a state in which the job is marked and taken off its position, and the
press schedule is told; by the job's state the effect is a departure, or notices, or the sorter's look. -/
theorem supersedeByState : Obligations.SupersedeByState := by
  intro k n j s hs hj hl t sent ends tell
  have chain : Reacts (fun m => m = n) s t := supersede_reacts k n hs.jobs rfl
  refine ⟨Reacts.kept chain, Reacts.ports_kept chain, Reacts.others_stay chain, supersede_ends hs hj,
    supersede_stays hj hl, supersede_flags hj, ?_, ?_, ?_, ?_⟩
  · intro hr
    have tells := (supersede_raises (k := k) hj (supersedeEffect_racked hr)).1
    have place : rackPlace (detached k n j s) n j =
        if ∃ x ∈ s.shelf j.press, x.1 = n then .shelf else .rackSlot := by
      simp only [rackPlace, List.any_eq_true, decide_eq_true_eq]
      rfl
    rwa [place] at tells
  · exact fun hm hr => (supersede_raises (k := k) hj (supersedeEffect_running hm hr)).1
  · exact fun hm hr => (supersede_raises (k := k) hj (supersedeEffect_standing hm hr)).1
  · intro h
    rcases h with hr | hm
    · exact (supersede_raises hj (supersedeEffect_racked hr)).2
    · by_cases hr : (s.press j.press).state = .running
      · exact (supersede_raises hj (supersedeEffect_running hm hr)).2
      · exact (supersede_raises hj (supersedeEffect_standing hm hr)).2

end Sys2Proof.Machine
end

section
/-! LINE_STOP (R157, R159, R160). -/

namespace Sys2Proof.Machine

open State

/-- Changes that agree on the record there is. -/
theorem vmod_congr {α : Type} {n : Nat} {v : Vector α n} {i : Fin n} {f g : α → α} (h : f v[i] = g v[i]) :
    vmod v i f = vmod v i g := by
  apply Vector.ext
  intro j hj
  rw [vmod_get_val, vmod_get_val]
  split
  next hij => subst hij; exact h
  next => rfl

/-! ### An engine under a CUT stop (R157 step 2) -/

/-- Nothing leaves an engine whose record stays. -/
theorem leaves_same {e : EngineId} {f : Engine → Engine} {s : State} (h : f (s.engine e) = s.engine e) :
    leaves e f [] s = s := by
  unfold leaves
  rw [vmod_same _ _ _ h, List.append_nil]

/-- The contexts of an engine under a CUT stop: its current job is marked cut, and its next where EXPOSE was sent. -/
def Contexts.cutShort (c : Contexts) : Contexts :=
  { c with
    current := c.current.map fun w => { w with cut := true }
    next := c.next.map fun w => if w.stage = .exposeSent then { w with cut := true } else w }

/-- The ABORTs that are sent for what an engine under a CUT stop exposes. -/
def cutAborts (s : State) (e : EngineId) : List LineCommand :=
  if s.line.policies[e] = .cut then
    (aborting s (s.engine e).ctx.current ++
      (leaving s (s.engine e).ctx.next).filter fun x => x.command = .abort).map (commandFor e)
  else []

/-- A current job marked cut. -/
def Contexts.cutCurrent (c : Contexts) : Contexts := { c with current := c.current.map fun w => { w with cut := true } }

/-- A next job marked cut, where EXPOSE was sent. -/
def Contexts.cutNext (c : Contexts) : Contexts :=
  { c with next := c.next.map fun w => if w.stage = .exposeSent then { w with cut := true } else w }

/-- With no current job nothing is marked. -/
theorem Contexts.cutCurrent_none {c : Contexts} (h : c.current = none) : c.cutCurrent = c := by
  obtain ⟨current, next, parked, cancel⟩ := c
  subst h
  rfl

/-- With no next job that EXPOSE was sent for nothing is marked. -/
theorem Contexts.cutNext_other {c : Contexts} (h : ∀ w, c.next = some w → w.stage ≠ .exposeSent) : c.cutNext = c := by
  obtain ⟨current, next, parked, cancel⟩ := c
  cases next with
  | none => rfl
  | some w =>
    unfold Contexts.cutNext
    simp only [Option.map_some, if_neg (h w rfl)]

/-- A change of an engine's contexts, and what is sent then. -/
theorem modCtx_send (e : EngineId) (f : Contexts → Contexts) (c : LineCommand) (s : State) :
    (s.modCtx e f).send c = leaves e (fun x => { x with ctx := f x.ctx }) [c] s := rfl

/-- The current job of an engine under a CUT stop. -/
theorem cutCurrent_eq (e : EngineId) (s : State) : cutCurrent e s =
    leaves e (fun x => { x with ctx := x.ctx.cutCurrent })
      ((aborting s (s.engine e).ctx.current).map (commandFor e)) s := by
  cases hw : (s.engine e).ctx.current with
  | none =>
    have same : cutCurrent e s = s := by
      unfold cutCurrent
      rw [hw]
    exact same.trans (leaves_same (by rw [Contexts.cutCurrent_none hw])).symm
  | some w =>
    have sends : cutCurrent e s = (s.modCtx e fun c => { c with current := some { w with cut := true } }).send
        (.abort e w.job ((s.attemptOf w.job).getD 0)) := by
      unfold cutCurrent
      rw [hw]
    rw [sends, modCtx_send]
    refine leaves_congr ?_ rfl
    unfold Contexts.cutCurrent
    rw [hw]
    rfl

/-- The next job of an engine under a CUT stop. -/
theorem cutNext_eq (e : EngineId) (s : State) : cutNext e s =
    leaves e (fun x => { x with ctx := x.ctx.cutNext })
      (((leaving s (s.engine e).ctx.next).filter fun x => x.command = .abort).map (commandFor e)) s := by
  cases hw : (s.engine e).ctx.next with
  | none =>
    have same : cutNext e s = s := by
      unfold cutNext
      rw [hw]
    exact same.trans (leaves_same (by rw [Contexts.cutNext_other fun w h => by rw [hw] at h; cases h])).symm
  | some w =>
    by_cases hs : w.stage = .exposeSent
    · have sends : cutNext e s = (s.modCtx e fun c => { c with next := some { w with cut := true } }).send
          (.abort e w.job ((s.attemptOf w.job).getD 0)) := by
        unfold cutNext
        rw [hw]
        exact if_pos hs
      rw [sends, modCtx_send]
      refine leaves_congr ?_ ?_
      · unfold Contexts.cutNext
        rw [hw, Option.map_some, if_pos hs]
      · simp [leaving, hs, commandFor]
    · have same : cutNext e s = s := by
        unfold cutNext
        rw [hw]
        exact if_neg hs
      have none : ((leaving s (some w)).filter fun x => x.command = .abort).map (commandFor e) = [] := by
        simp [leaving, hs]
      rw [same, none]
      exact (leaves_same (by rw [Contexts.cutNext_other fun y h => by rw [hw] at h; rwa [← Option.some.inj h]])).symm

/-- An engine under a stop. -/
theorem cutEngine_eq (e : EngineId) (s : State) : cutEngine e s =
    leaves e (fun x => { x with ctx := if s.line.policies[e] = .cut then x.ctx.cutShort else x.ctx })
      (cutAborts s e) s := by
  unfold cutEngine cutAborts
  by_cases h : s.line.policies[e] = .cut
  · rw [if_pos h, if_pos h, cutCurrent_eq, cutNext_eq, leaves_leaves]
    refine leaves_congr ?_ ?_
    · rw [if_pos h]
      rfl
    · rw [List.map_append, engine_leaves, if_pos rfl]
      rfl
  · rw [if_neg h, if_neg h]
    exact (leaves_same (by rw [if_neg h])).symm

/-- The engines under a stop, one after another. -/
theorem cutEngines_eq (es : List EngineId) (hes : es.Nodup) (s : State) :
    ∃ v, es.foldl (fun s e => cutEngine e s) s =
        { s with engines := v, lineSent := s.lineSent ++ (es.map (cutAborts s)).flatten } ∧
      ∀ e : EngineId, v[e] = if e ∈ es then { s.engine e with
        ctx := if s.line.policies[e] = .cut then (s.engine e).ctx.cutShort else (s.engine e).ctx } else s.engine e := by
  induction es generalizing s with
  | nil => exact ⟨s.engines, by simp, fun e => by simp [State.engine]⟩
  | cons a es ih =>
    obtain ⟨ha, hes⟩ := List.nodup_cons.mp hes
    rw [List.foldl_cons, cutEngine_eq]
    generalize hu : leaves a (fun x => { x with ctx := if s.line.policies[a] = .cut then x.ctx.cutShort else x.ctx })
      (cutAborts s a) s = u
    have engine (e : EngineId) : u.engine e = if e = a then { s.engine e with
        ctx := if s.line.policies[e] = .cut then (s.engine e).ctx.cutShort else (s.engine e).ctx } else s.engine e := by
      rw [← hu, engine_leaves]
      split
      · next h => subst h; rfl
      · rfl
    have parts : u = { s with engines := u.engines, lineSent := s.lineSent ++ cutAborts s a } := by
      rw [← hu]
      rfl
    have aborts : es.map (cutAborts u) = es.map (cutAborts s) := by
      refine List.map_congr_left fun e he => ?_
      have hne : e ≠ a := fun h => ha (h ▸ he)
      unfold cutAborts
      rw [engine e, if_neg hne, parts]
      rfl
    obtain ⟨v, hv, each⟩ := ih hes u
    refine ⟨v, ?_, fun e => ?_⟩
    · rw [hv, aborts, parts, List.map_cons, List.flatten_cons, List.append_assoc]
    · have policies : u.line.policies = s.line.policies := by rw [parts]
      rw [each e, policies, engine e]
      by_cases h : e = a
      · subst h
        simp [ha]
      · simp [h]

/-! ### A lane under a stop (R157 step 3) -/

/-- A lane whose policy is CUT has its stopped gate set. -/
def Lane.cutStop (x : Lane) : Lane :=
  { x with gates := { x.gates with stopped := x.gates.stopped || decide (x.policy = .cut) } }

/-- The lanes under a stop. -/
theorem cutLanes_eq (s : State) : allLanes.foldl (fun s l => cutLane l s) s = { s with lanes := s.lanes.map Lane.cutStop } := by
  refine foldl_lanes (fun l s => cutLane l s) Lane.cutStop s fun l t => ?_
  unfold cutLane
  split
  next h =>
    have same : (fun x : Lane => { x with gates := { x.gates with stopped := true } }) (t.lane l) = (t.lane l).cutStop := by
      unfold Lane.cutStop
      simp [h]
    exact congrArg (fun v => ({ t with lanes := v } : State)) (vmod_congr same)
  next h =>
    have same : (t.lane l).cutStop = t.lane l := by
      unfold Lane.cutStop
      simp [h]
    rw [vmod_same _ _ _ same]

/-! ### A stop that is taken (R157) -/

/-- The line as it is told to stop. -/
def stoppingLine (s : State) : LineControl := { clearMarks s.line with state := .stopping, stopTime := s.clock }

/-- The record of an engine as the line is told to stop. -/
def stoppedEngine (p : StopPolicy) (x : Engine) : Engine :=
  { x with gates := { x.gates with stopped := true }, ctx := if p = .cut then x.ctx.cutShort else x.ctx }

/-- The state of a line that has been told to stop, before the marks are evaluated. -/
structure StopsAs (s u : State) : Prop where
  rest : u = { s with
    line := stoppingLine s, engines := u.engines, lanes := u.lanes
    lineSent := s.lineSent ++ (allEngines.map (cutAborts s)).flatten }
  engine : ∀ e, u.engine e = stoppedEngine s.line.policies[e] (s.engine e)
  lane : ∀ l, u.lane l = (s.lane l).cutStop

/-- A stop tells its notice and evaluates the marks. -/
theorem lineStop_parts (s : State) : ∃ u, StopsAs s u ∧ lineStop s = evalReached (raise (stoppingNotice s) u) := by
  unfold lineStop
  dsimp only
  generalize h1 : s.modLine (fun x => { clearMarks x with state := .stopping, stopTime := s.clock }) = s1
  have gates := foldl_engines (fun e s => setEngineStop true e s)
    (fun x => { x with gates := { x.gates with stopped := true } }) s1 fun _ _ => rfl
  rw [gates]
  generalize h2 : ({ s1 with
    engines := s1.engines.map (fun x => { x with gates := { x.gates with stopped := true } }) } : State) = s2
  obtain ⟨v, cut, each⟩ := cutEngines_eq allEngines (by decide) s2
  rw [cut, cutLanes_eq]
  have rest : s2 = { s with line := stoppingLine s, engines := s2.engines } := by
    rw [← h2, ← h1]
    rfl
  have engine (e : EngineId) : s2.engine e = { s.engine e with gates := { (s.engine e).gates with stopped := true } } := by
    rw [← h2, ← h1]
    unfold State.engine
    simp
  have aborts : cutAborts s2 = cutAborts s := by
    funext e
    unfold cutAborts
    rw [engine e, rest]
    rfl
  generalize h3 : ({ s2 with engines := v, lineSent := s2.lineSent ++ (allEngines.map (cutAborts s2)).flatten } : State) = s3
  have notice : stoppingNotice ({ s3 with lanes := s3.lanes.map Lane.cutStop } : State) = stoppingNotice s := by
    have policies : s3.line.policies = s.line.policies := by
      rw [← h3, rest]
      rfl
    have lanes : (fun l => (({ s3 with lanes := s3.lanes.map Lane.cutStop } : State).lane l).policy) =
        fun l => (s.lane l).policy := by
      funext l
      rw [← h3, rest]
      unfold State.lane
      simp [Lane.cutStop]
    unfold stoppingNotice
    rw [lanes]
    exact congrArg (fun p : Vector StopPolicy 6 => Notice.lineStopping (allEngines.map fun e => p[e]) _) policies
  rw [notice]
  refine ⟨{ s3 with lanes := s3.lanes.map Lane.cutStop }, ⟨?_, ?_, ?_⟩, rfl⟩
  · rw [← h3, aborts, rest]
  · intro e
    have held : ({ s3 with lanes := s3.lanes.map Lane.cutStop } : State).engine e = v[e] := by
      rw [← h3]
      rfl
    rw [held, each e, if_pos (mem_allEngines e), engine e, show s2.line.policies = s.line.policies by rw [rest]; rfl]
    rfl
  · intro l
    have lanes : s3.lanes = s.lanes := by
      rw [← h3, rest]
    unfold State.lane
    simp [lanes]

/-! ### The line once it has been told to stop -/

section Stops

variable {s u : State}

/-- Every mark is clear as the line is told to stop. -/
theorem StopsAs.reached (h : StopsAs s u) : (∀ e : EngineId, u.line.reachedEngines[e] = false) ∧
    ∀ l : LaneId, u.line.reachedLanes[l] = false := by
  rw [h.rest]
  exact ⟨fun e => by simp [stoppingLine, clearMarks], fun l => by simp [stoppingLine, clearMarks]⟩

/-- The line is at rest when every unit has been reached. -/
theorem atRest_iff (he : ∀ e : EngineId, u.line.reachedEngines[e] = false)
    (hl : ∀ l : LaneId, u.line.reachedLanes[l] = false) : AllReached u (evalReached u) ↔ AtRest (evalReached u) := by
  constructor
  · rintro ⟨engines, lanes, sorter⟩
    exact ⟨fun e => by simpa [he e] using engines e, fun l => by simpa [hl l] using lanes l, sorter⟩
  · rintro ⟨engines, lanes, sorter⟩
    exact ⟨fun e => by simp [engines e], fun l => by simp [lanes l], sorter⟩

end Stops

/-- What changes ports only is kept by serving. -/
theorem KeptByServing.of_same {s t : State} (h : Same s t) : KeptByServing s t := by
  rw [show t = { s with ports := t.ports } from h]
  exact { KeptByServing.refl s with
    engines := fun _ => .refl _, lanes := fun _ => .refl _, jobs := .of_eq rfl, sent := ⟨[], by simp⟩ }

/-- A refused LINE_STOP. -/
theorem reqLineStop_wrongState {s : State} (h : s.line.state ≠ .running) : reqLineStop s = (s, bare .wrongState) :=
  if_neg h

/-- A LINE_STOP that is taken. -/
theorem reqLineStop_ok {s : State} (h : s.line.state = .running) : reqLineStop s = (lineStop s, bare .ok) := if_pos h

/-- A lane's load, by what its engines expose and its order. -/
theorem loadOf_occupied {s t : State} {l : LaneId}
    (hc : ∀ e, (t.engine e).ctx.current.isSome = (s.engine e).ctx.current.isSome)
    (hn : ∀ e, ((t.engine e).ctx.next.any fun w => w.stage = .exposeSent) =
      (s.engine e).ctx.next.any fun w => w.stage = .exposeSent)
    (ho : (t.lane l).floor.order = (s.lane l).floor.order) : loadOf t l = loadOf s l := by
  simp only [loadOf, hc, hn, ho]

/-- A stop changes no lane's load. -/
theorem StopsAs.load {s u : State} (h : StopsAs s u) (l : LaneId) : loadOf u l = loadOf s l := by
  refine loadOf_occupied (fun e => ?_) (fun e => ?_) (by rw [h.lane l]; rfl)
  · rw [h.engine e]
    unfold stoppedEngine Contexts.cutShort
    split <;> simp
  · rw [h.engine e]
    unfold stoppedEngine Contexts.cutShort
    split
    · cases (s.engine e).ctx.next with
      | none => rfl
      | some w =>
        by_cases hw : w.stage = .exposeSent <;> simp [hw]
    · rfl

/-- What a LINE_STOP gives (R157, R159, R160). -/
structure LineStopped (s t : State) : Prop where
  rest : Same { s with engines := t.engines, lanes := t.lanes, line := t.line, lineSent := t.lineSent } t
  sent : t.lineSent = s.lineSent ++ (allEngines.map (cutAborts s)).flatten
  engine : ∀ e, t.engine e = stoppedEngine s.line.policies[e] (s.engine e)
  lane : ∀ l, t.lane l = { s.lane l with gates := { (s.lane l).gates with
    stopped := (s.lane l).gates.stopped || decide ((s.lane l).policy = .cut) || decide (loadOf s l = 0) } }
  line : t.line.policies = s.line.policies ∧ t.line.stopTime = s.clock
  ends : AtRest t → t.line.state = .stopped ∧ Told (.lineStopped s.clock) s t ∧
    (∀ e : EngineId, t.line.reachedEngines[e] = false) ∧ ∀ l : LaneId, t.line.reachedLanes[l] = false
  waits : ¬ AtRest t → t.line.state = .stopping ∧
    (∀ e : EngineId, t.line.reachedEngines[e] = engineRests t e) ∧
    ∀ l : LaneId, t.line.reachedLanes[l] = (t.lane l).gates.stopped
  ports : PortsKept s t
  tells : Tells [stoppingNotice s] s t

/-- A stop sets its gates, tells its notice and evaluates the marks. -/
theorem lineStop_stopped (s : State) : LineStopped s (lineStop s) := by
  obtain ⟨u, stops, parts⟩ := lineStop_parts s
  have desk : SameDesk s u := by
    rw [stops.rest]
    exact ⟨rfl, rfl⟩
  have raised : Raised [stoppingNotice s] s (raise (stoppingNotice s) u) := .after desk (raised_one _ u)
  have early : PortsKept s (raise (stoppingNotice s) u) :=
    (PortsKept.of_eq desk.1).trans (Serves.ports_kept (raise_serves _ u))
  rw [parts]
  generalize hv : raise (stoppingNotice s) u = v at raised early ⊢
  have told : Same u v := hv ▸ raise_same _ u
  have line : v.line = stoppingLine s := by
    rw [told, stops.rest]
  have stopping : v.line.state = .stopping := by
    rw [line]
    rfl
  have reachedEngines (e : EngineId) : v.line.reachedEngines[e] = false := by
    rw [told]
    exact stops.reached.1 e
  have reachedLanes (l : LaneId) : v.line.reachedLanes[l] = false := by
    rw [told]
    exact stops.reached.2 l
  have clock : v.clock = s.clock := by
    rw [told]
    exact desk.2
  have load (l : LaneId) : loadOf v l = loadOf s l := by
    rw [told]
    exact stops.load l
  have lane (l : LaneId) : v.lane l = (s.lane l).cutStop := by
    rw [told]
    exact stops.lane l
  have marks : PortsKept v (evalReached v) := Serves.ports_kept (evalReached_serves v)
  have kept := Serves.kept (evalReached_serves v)
  obtain ⟨x, y, q, rest⟩ := evalReached_parts v
  refine ⟨?_, ?_, fun e => ?_, fun l => ?_, ⟨?_, ?_⟩, fun h => ?_, fun h => ?_, early.trans marks, raised.tells_of marks⟩
  · rw [rest, told, stops.rest]
    rfl
  · rw [rest, told, stops.rest]
  · rw [engine_evalReached, told]
    exact stops.engine e
  · rw [lane_evalReached stopping, load l, lane l]
    rfl
  · rw [kept.policies, line]
    rfl
  · rw [kept.stopTime, line]
    rfl
  · obtain ⟨stopped, told, marks⟩ := evalReached_rests stopping ((atRest_iff reachedEngines reachedLanes).mpr h)
    rw [line] at told
    exact ⟨stopped, told.since early clock, marks⟩
  · obtain ⟨waits, engines, lanes⟩ := evalReached_waits stopping fun hr => h ((atRest_iff reachedEngines reachedLanes).mp hr)
    exact ⟨waits, fun e => by rw [engines e, reachedEngines e, Bool.false_or],
      fun l => by rw [lanes l, reachedLanes l, Bool.false_or]⟩

/-- Settles O54: the stop sets its gates and sends its ABORTs, tells its notice, and evaluates the marks, which are
clear as it begins. -/
theorem lineStops : Obligations.LineStops := by
  intro p tag s hfree hroom c cuts aborts
  refine ⟨fun h => answers_unchanged (r := .lineStop) hfree hroom (reqLineStop_wrongState h), fun h => ?_⟩
  refine ⟨_, exec_applied (r := .lineStop) hfree hroom (reqLineStop_ok h), ?_⟩
  have stopped := lineStop_stopped (holding p ⟨tag, Request.lineStop.kind, .sound .lineStop⟩ s)
  generalize lineStop (holding p ⟨tag, Request.lineStop.kind, .sound .lineStop⟩ s) = t at stopped ⊢
  obtain ⟨rest, sent, engine, lane, line, ends, waits, ports, tells⟩ := stopped
  refine ⟨KeptByServing.of_same ?_, sent, engine, lane, line, fun h => ?_, waits, answeredAt_of rfl rfl ports,
    tells.holding.answer⟩
  · exact Same.link (Same.of_holding rest) p _
  · obtain ⟨stopped, told, marks⟩ := ends h
    exact ⟨stopped, told.of_holding.answered p _ _ _, marks⟩

end Sys2Proof.Machine
end

section
/-! Refutations of the statements about decided plates (O41, O43, O44). They bound no register window, and `sampled`,
which keeps the last 8 samples of any window, is what the tracker does only where a window holds at most 8 (R100): of a
longer one the tracker drops one sample for each that it takes. -/

namespace Sys2Proof.Machine

open State

namespace WideWindow

/-- A job whose plate has been exposed on engine 0, in a state, with a lane. -/
def exposedJob (x : JobState) (l : Option LaneId) : Job where
  press := 0
  pos := 0
  pages := []
  sep := .k
  format := .oneUp
  colourNeed := .mono
  slots := []
  cls := .normal
  origin := .first
  attempt := 1
  state := x
  superseded := false
  engine := some 0
  lane := l
  applied := some ⟨0, 0⟩
  lastFault := none
  entryOrder := 1

/-- Job 1 alone, and a window of nine samples in the register record of engine 0. -/
def base (j : Job) : State :=
  ({ State.reset with jobs := [(1, j)], lastJob := 1, entryCount := 1 } : State).setRegister 0
    ⟨.tracking, List.replicate 9 ⟨0, 0⟩, ⟨0, 0⟩, 0⟩

/-- The job whose plate is in the developer of lane 0. -/
def developing : Job := exposedJob .developing (some 0)

/-- Its plate comes to the inspection of lane 0. -/
def inspected : State := (base developing).modFloor 0 fun f => { f with order := [⟨1, .inDeveloper, some 300⟩] }

/-- The job that a reset has made UNCERTAIN. -/
def lost : Job := exposedJob .uncertain (some 0)

/-- Its plate comes to the inspection of lane 0, which is clearing. -/
def clearing : State := (base lost).modLane 0 fun x => { x with clearing := true }

/-- The report of the plate, with marks found at no offset. -/
def report (j : Job) : InspectReport := ⟨.read (plateTag 1 j), some ⟨0, 0⟩⟩

/-- The tables are in order. -/
theorem tables_base (j : Job) : Tables (base j) :=
  have h := tables_reset
  ⟨h.pages, h.slots, h.plan, h.stages, List.pairwise_singleton _ _, h.racks⟩

/-- The tables are in order as the plate is inspected. -/
theorem tables_inspected : Tables inspected :=
  have h := tables_base developing
  ⟨h.pages, h.slots, h.plan, h.stages, h.jobs, h.racks⟩

/-- The tables are in order as the lane clears. -/
theorem tables_clearing : Tables clearing :=
  have h := tables_base lost
  ⟨h.pages, h.slots, h.plan, h.stages, h.jobs, h.racks⟩

/-- No job waits in an engine. -/
theorem not_waits {s : State} (h : s.engines = State.reset.engines) (e : EngineId) (n : Nat) : ¬ WaitsIn (s.engine e).ctx n := by
  rw [show s.engine e = Engine.initial from (congrArg (fun v : Vector Engine 6 => v[e]) h).trans (engine_reset e)]
  rintro (⟨w, hw, -⟩ | ⟨w, hw, -⟩) <;> cases hw

/-- The tracker's window is one sample too long for `sampled`. -/
theorem window_inspected :
    ((atInspect 0 (report developing) inspected).register 0).window.length = 9 := by decide +kernel

/-- And so it is in a clearing lane. -/
theorem window_clearing : ((atInspect 0 (report lost) clearing).register 0).window.length = 9 := by decide +kernel

/-- No reaction leads there from the record that `sampled` gives. -/
theorem absurd_of_kept {s u t : State} (hu : u.register 0 = sampled s 0 ⟨0, 0⟩ ⟨0, 0⟩)
    (hs : (sampled s 0 ⟨0, 0⟩ ⟨0, 0⟩).window.length = 8) (ht : (t.register 0).window.length = 9)
    (h : KeptByReacting u t) : False := by
  have same : t.register 0 = u.register 0 := congrArg (fun v : Vector Register 6 => v[(0 : EngineId)]) h.registers
  rw [same, hu, hs] at ht
  cases ht

end WideWindow

open WideWindow

/-- Refutes O41: the plate is passed, and the window that its sample joins holds nine samples, of which one is dropped. -/
theorem not_plateDecided : ¬ Obligations.PlateDecided := by
  intro h
  have passes := (h 0 1 (some ⟨0, 0⟩) developing 0 ⟨0, 0⟩ inspected tables_inspected ⟨rfl, rfl, .inl rfl⟩ rfl rfl
    (by decide) rfl (by decide) (by decide) ⟨[], _, [], rfl, rfl, rfl, by simp, by simp⟩ rfl rfl
    (not_waits rfl 0 1)).1 ⟨0, 0⟩ rfl rfl (by decide)
  obtain ⟨t, hexec, kept, -⟩ := passes
  injection hexec with ht
  exact absurd_of_kept (s := inspected) rfl (by decide +kernel) (ht ▸ window_inspected) kept

/-- Refutes O43: nothing is skipped, and the plate is passed as in the refutation of O41. -/
theorem not_laneResynchronised : ¬ Obligations.LaneResynchronised := by
  intro h
  obtain ⟨t, hexec, -, -, decided⟩ := h 0 1 (some ⟨0, 0⟩) developing inspected [] [] ⟨1, .inDeveloper, some 300⟩
    tables_inspected ⟨rfl, rfl, .inl rfl⟩ rfl rfl (by decide) rfl (by decide) (by decide) rfl rfl rfl (by decide)
    (fun z hz => by cases hz)
  injection hexec with ht
  obtain ⟨kept, -⟩ := (decided 0 ⟨0, 0⟩ rfl rfl rfl fun e => not_waits rfl e 1).1 ⟨0, 0⟩ rfl rfl (by decide)
  exact absurd_of_kept (s := inspected) rfl (by decide +kernel) (ht ▸ window_inspected) kept

/-- Refutes O44: the UNCERTAIN job is reclaimed and its plate passed, with the window of the refutation of O41. -/
theorem not_plateReclaimed : ¬ Obligations.PlateReclaimed := by
  intro h
  have passes := ((h.1 0 1 0 lost clearing tables_clearing (by decide) rfl (by decide) (by decide)
    (fun y hy => by cases hy)).1 (some ⟨0, 0⟩) ⟨rfl, rfl, .inl rfl⟩ rfl rfl 0 ⟨0, 0⟩
    ⟨rfl, lost, rfl, rfl, rfl, rfl⟩ rfl rfl (not_waits rfl 0 1)).1 ⟨0, 0⟩ rfl rfl (by decide)
  obtain ⟨t, hexec, kept, -⟩ := passes
  injection hexec with ht
  exact absurd_of_kept (s := clearing) rfl (by decide +kernel) (ht ▸ window_clearing) kept

end Sys2Proof.Machine
end

section
/-! What deciding the plates of a lane leaves of the lanes and of the line: chains of reactions, changes of a lane's
order, steps used, register records and reclaim counts. -/

namespace Sys2Proof.Machine

open State

/-! ### The steps -/

/-- One thing that deciding a plate does. -/
inductive LaneStep : State → State → Prop
  | react {s t : State} (h : ReactStep AnyJob s t) : LaneStep s t
  | floor (s : State) (l : LaneId) (f : LaneFloor → LaneFloor) : LaneStep s (s.modFloor l f)
  | useStep (s : State) (l : LaneId) : LaneStep s (s.useLaneStep l)
  | register (s : State) (e : EngineId) (r : Register) : LaneStep s (s.setRegister e r)
  | restart (s : State) (f : Restart → Restart) : LaneStep s (s.modRestart f)

/-- A chain of them. -/
abbrev LaneSteps : State → State → Prop := Relation.ReflTransGen LaneStep

/-- A step is a chain. -/
theorem LaneStep.steps {s t : State} (h : LaneStep s t) : LaneSteps s t := Relation.ReflTransGen.single h

/-- Reactions are such a chain. -/
theorem Reacts.laneSteps {s t : State} (h : Reacts AnyJob s t) : LaneSteps s t :=
  Relation.ReflTransGen.mono (p := LaneStep) (fun _ _ k => LaneStep.react k) _ _ h

/-- The job table stays in order. -/
theorem LaneSteps.jobs_ordered {s t : State} (hs : JobsOrdered s) (h : LaneSteps s t) : JobsOrdered t := by
  induction h with
  | refl => exact hs
  | tail _ step ih =>
    cases step with
    | react h => exact h.jobs_ordered ih
    | _ => exact ih

/-- One chain after another. -/
theorem LaneSteps.then {s t u : State} (hs : JobsOrdered s) (h : LaneSteps s t) (k : JobsOrdered t → LaneSteps t u) :
    LaneSteps s u := h.trans (k (LaneSteps.jobs_ordered hs h))

/-- Chains over a list. -/
theorem foldl_laneSteps {α : Type} (f : State → α → State) (l : List α) {s : State} (hs : JobsOrdered s)
    (h : ∀ s, JobsOrdered s → ∀ x ∈ l, LaneSteps s (f s x)) : LaneSteps s (l.foldl f s) :=
  foldl_chain_of f (fun _ _ hs h => LaneSteps.jobs_ordered hs h) l s hs h

/-! ### What they leave -/

/-- What becomes of a lane: its held gate, its reports, its policy and its marks stay, and a step is not given it. -/
structure LaneRuns (x y : Lane) : Prop where
  held : y.gates.held = x.gates.held
  inspections : y.inspections = x.inspections
  policy : y.policy = x.policy
  clearing : y.clearing = x.clearing
  lost : y.lost = x.lost
  allowance : y.gates.allowance = true → x.gates.allowance = true

/-- A lane that stays. -/
theorem LaneRuns.refl (x : Lane) : LaneRuns x x := ⟨rfl, rfl, rfl, rfl, rfl, id⟩

/-- One after another. -/
theorem LaneRuns.trans {x y z : Lane} (h : LaneRuns x y) (k : LaneRuns y z) : LaneRuns x z :=
  ⟨k.held.trans h.held, k.inspections.trans h.inspections, k.policy.trans h.policy, k.clearing.trans h.clearing,
    k.lost.trans h.lost, fun ha => h.allowance (k.allowance ha)⟩

/-- No reaction gives a lane a step. -/
theorem ReactStep.allowance {D : Nat → Prop} {s t : State} (h : ReactStep D s t) (l : LaneId)
    (ha : (t.lane l).gates.allowance = true) : (s.lane l).gates.allowance = true := by
  cases h with
  | serve h =>
    have served : t.lane l = _ := h.kept.lanes l
    rw [served] at ha
    exact ha
  | floor m f hf =>
    rw [lane_modFloor] at ha
    split at ha <;> exact ha
  | laneStep m hx =>
    rw [lane_useLaneStep] at ha
    split at ha
    · exact absurd ha Bool.false_ne_true
    · exact ha
  | _ => exact ha

/-- One step. -/
theorem LaneStep.runs {s t : State} (h : LaneStep s t) (l : LaneId) : LaneRuns (s.lane l) (t.lane l) := by
  cases h with
  | react h =>
    have kept := h.kept.lanes l
    exact ⟨kept.held, kept.inspections, kept.policy, kept.clearing, kept.lost, h.allowance l⟩
  | floor m f =>
    rw [lane_modFloor]
    split
    · exact ⟨rfl, rfl, rfl, rfl, rfl, id⟩
    · exact .refl _
  | useStep m =>
    rw [lane_useLaneStep]
    split
    · exact ⟨rfl, rfl, rfl, rfl, rfl, fun ha => absurd ha Bool.false_ne_true⟩
    · exact .refl _
  | register e r => exact .refl _
  | restart f => exact .refl _

/-- A chain. -/
theorem LaneSteps.runs {s t : State} (h : LaneSteps s t) (l : LaneId) : LaneRuns (s.lane l) (t.lane l) := by
  induction h with
  | refl => exact .refl _
  | tail _ step ih => exact ih.trans (step.runs l)

/-- A line that is not STOPPING stays as it is, and so do the stopped gates. -/
theorem LaneSteps.line {s t : State} (h : LaneSteps s t) (hl : s.line.state ≠ .stopping) :
    t.line = s.line ∧ ∀ l, (t.lane l).gates.stopped = (s.lane l).gates.stopped := by
  induction h with
  | refl => exact ⟨rfl, fun _ => rfl⟩
  | @tail u v _ step ih =>
    obtain ⟨line, stopped⟩ := ih
    have one : v.line = u.line ∧ ∀ l, (v.lane l).gates.stopped = (u.lane l).gates.stopped := by
      cases step with
      | react h => exact h.kept.running (line ▸ hl)
      | floor m f =>
        refine ⟨rfl, fun l => ?_⟩
        rw [lane_modFloor]
        split <;> rfl
      | useStep m =>
        refine ⟨rfl, fun l => ?_⟩
        rw [lane_useLaneStep]
        split <;> rfl
      | register e r => exact ⟨rfl, fun _ => rfl⟩
      | restart f => exact ⟨rfl, fun _ => rfl⟩
    exact ⟨one.1.trans line, fun l => (one.2 l).trans (stopped l)⟩

/-- The ports are kept. -/
theorem LaneSteps.ports_kept {s t : State} (h : LaneSteps s t) : PortsKept s t := by
  induction h with
  | refl => exact .refl _
  | tail _ step ih =>
    refine ih.trans ?_
    cases step with
    | react h => exact h.ports_kept
    | _ => exact .of_eq rfl

/-- The clock and the engines' gates stay. -/
theorem LaneSteps.clock_gates {s t : State} (h : LaneSteps s t) :
    t.clock = s.clock ∧ ∀ e, (t.engine e).gates = (s.engine e).gates := by
  induction h with
  | refl => exact ⟨rfl, fun _ => rfl⟩
  | tail _ step ih =>
    cases step with
    | react h => exact ⟨h.kept.clock.trans ih.1, fun e => (h.kept.engines e).gates.trans (ih.2 e)⟩
    | _ => exact ih

/-! ### Deciding plates (R116 to R119, R169) -/

/-- A command is sent. -/
theorem send_laneSteps (c : LineCommand) (s : State) : LaneSteps s (s.send c) := (LaneStep.react (.send s c)).steps

/-- A notice. -/
theorem raise_laneSteps (n : Notice) (s : State) : LaneSteps s (raise n s) := (raise_reacts n s).laneSteps

/-- A job's plate is spoiled once its entry is gone. -/
theorem dropSpoil_laneSteps (l : LaneId) (n : Nat) (c : FaultCause) (p : FaultParam) {s : State} (hs : JobsOrdered s) :
    LaneSteps s (serve (spoil n c p (dropEntry l n s))) := by
  have dropped : JobsOrdered (dropEntry l n s) := hs
  exact (LaneStep.floor s l _).steps.trans
    (Reacts.then dropped (spoil_reacts n c p dropped) serve_reacts).laneSteps

/-- An unreadable plate. -/
theorem decideUnreadable_laneSteps (l : LaneId) (r : InspectReport) {s : State} (hs : JobsOrdered s) :
    LaneSteps s (decideUnreadable l r s) := by
  unfold decideUnreadable
  dsimp only
  have sent := send_laneSteps (.reject l 0) s
  split
  · exact LaneSteps.then hs sent fun h => dropSpoil_laneSteps _ _ _ _ h
  · exact sent.trans (raise_laneSteps _ _)

/-- A sample. -/
theorem takeSample_laneSteps (e : EngineId) (m c : Offset) {s : State} (hs : JobsOrdered s) :
    LaneSteps s (takeSample e m c s) := by
  have tells (r : Register) (n : Notice) : LaneSteps s (raise n (s.setRegister e r)) :=
    (LaneStep.register s e r).steps.trans (raise_laneSteps n _)
  have takes : LaneSteps s (if insideBy s.limits.drift m then
      match (s.register e).state with
      | .tracking => sampleTracking e (offsetAdd m c) s
      | .locked => sampleLocked e (offsetAdd m c) s
      | .drifted => sampleDrifted e (offsetAdd m c) s
    else sampleBeyond e m (offsetAdd m c) s) := by
    split
    · split
      · unfold sampleTracking
        dsimp only
        split
        · exact tells _ _
        · exact (LaneStep.register s e _).steps
      · unfold sampleLocked
        dsimp only
        split
        · exact (LaneStep.register s e _).steps
        · exact tells _ _
      · unfold sampleDrifted
        dsimp only
        split
        · exact (LaneStep.register s e _).steps
        · exact tells _ _
    · unfold sampleBeyond
      dsimp only
      split
      · exact (LaneStep.register s e _).steps
      · exact LaneSteps.then hs (tells _ _) fun h => (colourEvict_reacts e h).laneSteps
  exact LaneSteps.then hs takes fun h => (serve_reacts h).laneSteps

/-- A sample is handed. -/
theorem handSample_laneSteps (j : Job) (m : Option Offset) {s : State} (hs : JobsOrdered s) :
    LaneSteps s (handSample j m s) := by
  unfold handSample
  split
  · exact takeSample_laneSteps _ _ _ hs
  · exact .refl

/-- A plate is passed. -/
theorem passPlate_laneSteps (l : LaneId) (n : Nat) (j : Job) (m : Offset) (s : State) :
    LaneSteps s (passPlate l n j m s) := by
  unfold passPlate
  dsimp only
  exact ((send_laneSteps _ s).tail (.floor _ l _)).tail
    (.react (.job _ n (fun x => { x with state := .finishing }) trivial fun j _ =>
      ⟨rfl, rfl, rfl, rfl, rfl, rfl, rfl, rfl, id, nofun⟩))

/-- A plate is rejected for register. -/
theorem rejectRegister_laneSteps (l : LaneId) (n : Nat) (m : Option Offset) {s : State} (hs : JobsOrdered s) :
    LaneSteps s (rejectRegister l n m s) := by
  unfold rejectRegister
  dsimp only
  exact LaneSteps.then hs (send_laneSteps _ s) fun h => dropSpoil_laneSteps _ _ _ _ h

/-- An identified plate is decided. -/
theorem decidePlate_laneSteps (l : LaneId) (n : Nat) (j : Job) (m : Option Offset) {s : State} (hs : JobsOrdered s) :
    LaneSteps s (decidePlate l n j m s) := by
  unfold decidePlate
  split
  · exact LaneSteps.then hs ((send_laneSteps (.reject l n) s).trans (LaneStep.floor _ l _).steps) fun h =>
      (depart_reacts _ _ h).laneSteps
  · split
    · split
      · exact passPlate_laneSteps _ _ _ _ _
      · exact rejectRegister_laneSteps _ _ _ hs
    · exact rejectRegister_laneSteps _ _ _ hs

/-- An identified plate is decided, and its sample handed. -/
theorem decideIdentified_laneSteps (l : LaneId) (n : Nat) (m : Option Offset) {s : State} (hs : JobsOrdered s) :
    LaneSteps s (decideIdentified l n m s) := by
  unfold decideIdentified
  split
  · exact LaneSteps.then hs (decidePlate_laneSteps _ _ _ _ hs) fun h => handSample_laneSteps _ _ h
  · exact .refl

/-- Resynchronisation. -/
theorem resynchronise_laneSteps (l : LaneId) (n : Nat) {s : State} (hs : JobsOrdered s) :
    LaneSteps s (resynchronise l n s) :=
  foldl_laneSteps _ _ hs fun _ h _ _ => dropSpoil_laneSteps _ _ _ _ h

/-- A stray plate. -/
theorem decideStray_laneSteps (l : LaneId) (r : InspectReport) (why : StrayReason) (s : State) :
    LaneSteps s (decideStray l r why s) := (send_laneSteps _ s).trans (raise_laneSteps _ _)

/-- The decision of a report. -/
theorem decideReport_laneSteps (l : LaneId) (r : InspectReport) {s : State} (hs : JobsOrdered s) :
    LaneSteps s (decideReport l r s) := by
  unfold decideReport
  split
  · exact decideUnreadable_laneSteps _ _ hs
  · dsimp only
    split
    · exact LaneSteps.then hs (resynchronise_laneSteps _ _ hs) fun h => decideIdentified_laneSteps _ _ _ h
    · exact decideStray_laneSteps _ _ _ _

/-- An UNCERTAIN job is put at the end of a lane order. -/
theorem reclaim_laneSteps (l : LaneId) (n : Nat) (st : JobState) (stage : LaneStage) (s : State)
    (ht : st ≠ .uncertain := by decide) : LaneSteps s (reclaim l n st stage s) := by
  unfold reclaim
  dsimp only
  have released := (releaseRefs_reacts (D := AnyJob) ((s.job? n).map Job.slots |>.getD []) s).laneSteps
  exact (released.tail (.react (.job _ n (fun j => { j with state := st }) trivial fun j _ =>
    ⟨rfl, rfl, rfl, rfl, rfl, rfl, rfl, rfl, id, fun h => absurd h ht⟩))).tail (.floor _ l _)

/-- The decision of a report in a clearing phase. -/
theorem decideClearing_laneSteps (l : LaneId) (r : InspectReport) {s : State} (hs : JobsOrdered s) :
    LaneSteps s (decideClearing l r s) := by
  unfold decideClearing
  split
  · exact decideStray_laneSteps _ _ _ _
  · dsimp only
    split
    · split
      · exact (LaneSteps.then hs (reclaim_laneSteps _ _ _ _ s) fun h => decideIdentified_laneSteps _ _ _ h).tail
          (.restart _ _)
      · exact decideStray_laneSteps _ _ _ _
    · exact decideStray_laneSteps _ _ _ _

/-- The state in which a report is decided: a step through which alone the lane is open is used (R120). -/
def stepUsed (l : LaneId) (s : State) : State := if (s.lane l).byStep then s.useLaneStep l else s

/-- A report is decided, by whether the lane is clearing. -/
theorem decide1_eq (l : LaneId) (r : InspectReport) (s : State) : decide1 l r s =
    if ((stepUsed l s).lane l).clearing then decideClearing l r (stepUsed l s) else decideReport l r (stepUsed l s) := rfl

/-- A step is used. -/
theorem stepUsed_laneSteps (l : LaneId) (s : State) : LaneSteps s (stepUsed l s) := by
  unfold stepUsed
  split
  · exact (LaneStep.useStep s l).steps
  · exact .refl

/-- What is done once the step is used. -/
theorem decide1_after (l : LaneId) (r : InspectReport) {s : State} (hs : JobsOrdered s) :
    LaneSteps (stepUsed l s) (decide1 l r s) := by
  rw [decide1_eq]
  have h := LaneSteps.jobs_ordered hs (stepUsed_laneSteps l s)
  generalize stepUsed l s = t at h
  split
  · exact decideClearing_laneSteps _ _ h
  · exact decideReport_laneSteps _ _ h

/-- A report is decided. -/
theorem decide1_laneSteps (l : LaneId) (r : InspectReport) {s : State} (hs : JobsOrdered s) :
    LaneSteps s (decide1 l r s) := (stepUsed_laneSteps l s).trans (decide1_after l r hs)

/-! ### Pending reports (R120) -/

/-- The lane once its first reports are no longer pending. -/
def pendingLeft (l : LaneId) (rest : List InspectReport) (s : State) : State :=
  s.modLane l fun x => { x with inspections := rest }

/-- No report pends. -/
theorem decidePending_none {l : LaneId} {fuel : Nat} {s : State} (h : (s.lane l).inspections = []) :
    decidePending l fuel s = s := by
  cases fuel with
  | zero => rfl
  | succ fuel =>
    unfold decidePending
    split
    · rw [h]
    · rfl

/-- The lane is not open. -/
theorem decidePending_closed {l : LaneId} {fuel : Nat} {s : State} (h : (s.lane l).isOpen = false) :
    decidePending l fuel s = s := by
  cases fuel with
  | zero => rfl
  | succ fuel =>
    unfold decidePending
    rw [if_neg (by rw [h]; exact Bool.false_ne_true)]

/-- The first report of an open lane is decided. -/
theorem decidePending_first {l : LaneId} {fuel : Nat} {r : InspectReport} {rest : List InspectReport} {s : State}
    (ho : (s.lane l).isOpen = true) (h : (s.lane l).inspections = r :: rest) :
    decidePending l (fuel + 1) s = decidePending l fuel (decide1 l r (pendingLeft l rest s)) := by
  rw [decidePending, if_pos ho, h]
  rfl

/-- What deciding a lane's pending reports leaves: the lanes but for their orders, steps and reports, the reports of
the other lane, the ports, and a line that is not STOPPING. -/
structure PendingKept (l : LaneId) (s t : State) : Prop where
  ordered : JobsOrdered t
  ports : PortsKept s t
  lanes : ∀ m, LaneRuns { s.lane m with inspections := (t.lane m).inspections } (t.lane m)
  others : ∀ m, m ≠ l → (t.lane m).inspections = (s.lane m).inspections
  line : s.line.state ≠ .stopping → t.line = s.line ∧ ∀ m, (t.lane m).gates.stopped = (s.lane m).gates.stopped
  clock : t.clock = s.clock
  gates : ∀ e, (t.engine e).gates = (s.engine e).gates

/-- Nothing is decided. -/
theorem PendingKept.refl (l : LaneId) {s : State} (hs : JobsOrdered s) : PendingKept l s s :=
  ⟨hs, .refl s, fun _ => .refl _, fun _ _ => rfl, fun _ => ⟨rfl, fun _ => rfl⟩, rfl, fun _ => rfl⟩

/-- One after another. -/
theorem PendingKept.trans {l : LaneId} {s t u : State} (h : PendingKept l s t) (k : PendingKept l t u) :
    PendingKept l s u where
  ordered := k.ordered
  ports := h.ports.trans k.ports
  lanes m := by
    have first := h.lanes m
    have second := k.lanes m
    exact ⟨second.held.trans first.held, rfl, second.policy.trans first.policy, second.clearing.trans first.clearing,
      second.lost.trans first.lost, fun ha => first.allowance (second.allowance ha)⟩
  others m hm := (k.others m hm).trans (h.others m hm)
  line hl := by
    obtain ⟨line, stopped⟩ := h.line hl
    obtain ⟨line', stopped'⟩ := k.line (line ▸ hl)
    exact ⟨line'.trans line, fun m => (stopped' m).trans (stopped m)⟩
  clock := k.clock.trans h.clock
  gates e := (k.gates e).trans (h.gates e)

/-- Steps of deciding leave all that. -/
theorem LaneSteps.pendingKept {s t : State} (h : LaneSteps s t) (hs : JobsOrdered s) (l : LaneId) : PendingKept l s t where
  ordered := LaneSteps.jobs_ordered hs h
  ports := LaneSteps.ports_kept h
  lanes m := by
    have runs := LaneSteps.runs h m
    exact ⟨runs.held, rfl, runs.policy, runs.clearing, runs.lost, runs.allowance⟩
  others m _ := (LaneSteps.runs h m).inspections
  line := LaneSteps.line h
  clock := (LaneSteps.clock_gates h).1
  gates := (LaneSteps.clock_gates h).2

/-- The first reports are no longer pending. -/
theorem pendingLeft_kept (l : LaneId) (rest : List InspectReport) {s : State} (hs : JobsOrdered s) :
    PendingKept l s (pendingLeft l rest s) where
  ordered := hs
  ports := .of_eq rfl
  lanes m := by
    unfold pendingLeft
    rw [lane_modLane]
    split <;> exact .refl _
  others m hm := by
    unfold pendingLeft
    rw [lane_modLane, if_neg hm]
  line _ := by
    refine ⟨rfl, fun m => ?_⟩
    unfold pendingLeft
    rw [lane_modLane]
    split <;> rfl
  clock := rfl
  gates _ := rfl

/-- The lane of which they are decided. -/
theorem lane_pendingLeft (l : LaneId) (rest : List InspectReport) (s : State) :
    (pendingLeft l rest s).lane l = { s.lane l with inspections := rest } := by
  unfold pendingLeft
  rw [lane_modLane, if_pos rfl]

/-- A pending report is decided. -/
theorem decideFirst_kept (l : LaneId) (r : InspectReport) (rest : List InspectReport) {s : State} (hs : JobsOrdered s) :
    PendingKept l s (decide1 l r (pendingLeft l rest s)) :=
  (pendingLeft_kept l rest hs).trans ((decide1_laneSteps l r (pendingLeft_kept l rest hs).ordered).pendingKept
    (pendingLeft_kept l rest hs).ordered l)

/-- The rest pends on. -/
theorem decideFirst_inspections (l : LaneId) (r : InspectReport) (rest : List InspectReport) {s : State}
    (hs : JobsOrdered s) : ((decide1 l r (pendingLeft l rest s)).lane l).inspections = rest := by
  rw [(LaneSteps.runs (decide1_laneSteps l r (pendingLeft_kept l rest hs).ordered) l).inspections, lane_pendingLeft]

/-- Pending reports are decided. -/
theorem decidePending_kept (l : LaneId) (fuel : Nat) {s : State} (hs : JobsOrdered s) :
    PendingKept l s (decidePending l fuel s) := by
  induction fuel generalizing s with
  | zero => exact .refl l hs
  | succ fuel ih =>
    cases hi : (s.lane l).inspections with
    | nil => rw [decidePending_none hi]; exact .refl l hs
    | cons r rest =>
      cases ho : (s.lane l).isOpen with
      | false => rw [decidePending_closed ho]; exact .refl l hs
      | true =>
        rw [decidePending_first ho hi]
        have first := decideFirst_kept l r rest hs
        exact first.trans (ih first.ordered)

/-- A lane that neither line control nor its link closes, while the line is not STOPPING. -/
structure LaneFree (l : LaneId) (s : State) : Prop where
  line : s.line.state ≠ .stopping
  lost : (s.lane l).lost = false
  stopped : (s.lane l).gates.stopped = false

/-- It stays so. -/
theorem LaneFree.kept {l m : LaneId} {s t : State} (h : LaneFree l s) (k : PendingKept m s t) : LaneFree l t := by
  obtain ⟨line, stopped⟩ := k.line h.line
  exact ⟨line ▸ h.line, (k.lanes l).lost.trans h.lost, (stopped l).trans h.stopped⟩

/-- It is open while no hold closes it. -/
theorem LaneFree.isOpen {l : LaneId} {s : State} (h : LaneFree l s) : (s.lane l).isOpen = !(s.lane l).gates.isHeld := by
  unfold Lane.isOpen
  rw [h.lost, h.stopped]
  rfl

/-- A lane that is not held has all its reports decided. -/
theorem decidePending_all {l : LaneId} {fuel : Nat} {s : State} (hs : JobsOrdered s) (h : LaneFree l s)
    (hh : (s.lane l).gates.held = false) (hf : (s.lane l).inspections.length ≤ fuel) :
    ((decidePending l fuel s).lane l).inspections = [] := by
  induction fuel generalizing s with
  | zero => exact List.eq_nil_of_length_eq_zero (Nat.le_zero.mp hf)
  | succ fuel ih =>
    cases hi : (s.lane l).inspections with
    | nil => rw [decidePending_none hi, hi]
    | cons r rest =>
      have opens : (s.lane l).isOpen = true := by
        rw [h.isOpen]
        unfold Gates.isHeld
        rw [hh]
        rfl
      rw [decidePending_first opens hi]
      have first := decideFirst_kept l r rest hs
      refine ih first.ordered (h.kept first) ((first.lanes l).held.trans hh) ?_
      rw [decideFirst_inspections l r rest hs]
      rw [hi, List.length_cons] at hf
      exact Nat.le_of_succ_le_succ hf

/-- A held lane with a step has its first report decided. -/
theorem decidePending_step {l : LaneId} {s : State} (hs : JobsOrdered s) (h : LaneFree l s)
    (hh : (s.lane l).gates.held = true) (ha : (s.lane l).gates.allowance = true) :
    ((decidePending l (s.lane l).inspections.length s).lane l).inspections = (s.lane l).inspections.drop 1 := by
  cases hi : (s.lane l).inspections with
  | nil => rw [decidePending_none hi, hi]; rfl
  | cons r rest =>
    have opens : (s.lane l).isOpen = true := by
      rw [h.isOpen]
      unfold Gates.isHeld
      rw [hh, ha]
      rfl
    rw [List.length_cons, decidePending_first opens hi]
    have first := decideFirst_kept l r rest hs
    have used : ((stepUsed l (pendingLeft l rest s)).lane l).gates.allowance = false := by
      have byStep : ((pendingLeft l rest s).lane l).byStep = true := by
        rw [lane_pendingLeft]
        unfold Lane.byStep
        exact Bool.and_eq_true_iff.mpr ⟨hh, ha⟩
      unfold stepUsed
      rw [if_pos byStep, lane_useLaneStep, if_pos rfl]
    have closed : ((decide1 l r (pendingLeft l rest s)).lane l).isOpen = false := by
      have runs := LaneSteps.runs (decide1_after l r (pendingLeft_kept l rest hs).ordered) l
      have spent : ((decide1 l r (pendingLeft l rest s)).lane l).gates.allowance = false :=
        Bool.eq_false_iff.mpr fun hc => Bool.false_ne_true (used.symm.trans (runs.allowance hc))
      rw [(h.kept first).isOpen]
      unfold Gates.isHeld
      rw [spent, (first.lanes l).held]
      exact congrArg (fun b => !(b && !false)) hh
    rw [decidePending_closed closed, decideFirst_inspections l r rest hs]
    rfl

end Sys2Proof.Machine
end

section
/-! Plates in the lanes: the reports of the punch and the bender, the transit timers, and the lane's link (R113, R121,
R122, R124, R131). -/

namespace Sys2Proof.Machine

open State

variable {D : Nat → Prop}

/-! ### A spoil and what follows it (R66, R67) -/

section Spoil

variable {n : Nat} {j : Job} {c : FaultCause} {p : FaultParam} {s : State}

/-- A spoil tells its notice. -/
theorem spoil_tells (hs : JobsOrdered s) (hj : s.job? n = some j) {v : State} (hv : PortsKept (spoil n c p s) v) :
    Tells (spoilNotices n ⟨c, p, s.clock⟩ j) s v := by
  cases hsup : j.superseded with
  | true =>
    have none : spoilNotices n ⟨c, p, s.clock⟩ j = [] := if_pos hsup
    rw [none]
    have kept : PortsKept s (spoil n c p s) := Reacts.ports_kept (D := AnyJob) (spoil_reacts n c p hs)
    exact (raised_nil (.refl s)).tells_of (kept.trans hv)
  | false =>
    have record := recordFault_job c p hj
    have raised := spoilDecision_raised (f := ⟨c, p, s.clock⟩) record rfl hsup
    have decided : spoil n c p s = spoilDecision n (recordFault n c p s) := spoilBy_current serve c p hj hsup
    rw [decided] at hv
    exact (Raised.after (recordFault_desk n c p s) raised).tells_of hv

/-- A plate that is spoiled: what an event does whose whole effect, on a state in which the plate has left its place,
is the spoil and what follows from it. -/
theorem raisesReacting_spoil {i : Instr} {u v : State} (hexec : exec i s = .next v)
    (hv : Reacts NoJob (spoil n c p u) v) (hs : JobsOrdered u) (hj : s.job? n = some j) (hjobs : u.jobs = s.jobs)
    (hentry : s.entryCount = u.entryCount) (hclock : u.clock = s.clock) :
    RaisesReacting i (spoilNotices n ⟨c, p, s.clock⟩ j) s u (fun k => k = n) (Spoiled n ⟨c, p, s.clock⟩ s) := by
  have spoils : Reacts (fun k => k = n) u (spoil n c p u) := spoil_reacts n c p hs rfl
  have chain : Reacts (fun k => k = n) u v := spoils.trans (Reacts.widen (fun _ h => h.elim) hv)
  have job : u.job? n = some j := (job?_of_jobs hjobs n).trans hj
  refine raisesReacting_of hexec chain ?_ ?_
  · rw [← hclock]
    exact spoil_tells hs job (Reacts.ports_kept hv)
  · have spoiled : Spoiled n ⟨c, p, u.clock⟩ u (spoil n c p u) :=
      spoilBy_spoiled (fun s h => serve_reacts h) n c p hs
    rw [hclock] at spoiled
    have since := spoiled.since (b := s) (job?_of_jobs hjobs n).symm hentry.le
    exact since.stays (hentry.le.trans (Reacts.entry_le spoils)) hv not_false

end Spoil

/-! ### What the reports are matched with (R112, R121, R169, R170) -/

/-- The lane's entry that a report names. -/
theorem hasEntry_iff (s : State) (l : LaneId) (n a : Nat) (x : LaneStage) :
    hasEntry s l n a x = true ↔ Stands s l n a x := by
  unfold hasEntry Stands
  rw [Bool.and_eq_true, atAttempt_iff, List.any_eq_true]
  simp only [Bool.and_eq_true, decide_eq_true_eq]

/-- The job that a report of a clearing lane names. -/
theorem reclaimable_iff (s : State) (l : LaneId) (n a : Nat) :
    ((s.lane l).clearing && uncertainHere s l n && s.atAttempt n a) = true ↔ Reclaimable s l n a := by
  unfold uncertainHere Reclaimable
  simp only [Bool.and_eq_true, atAttempt_iff, Option.any_eq_true, decide_eq_true_eq]
  constructor
  · rintro ⟨⟨hc, j, hj, hs, hl⟩, i, hi, ha⟩
    cases hj.symm.trans hi
    exact ⟨hc, j, hj, hs, hl, ha⟩
  · rintro ⟨hc, j, hj, hs, hl, ha⟩
    exact ⟨⟨hc, j, hj, hs, hl⟩, j, hj, ha⟩

/-- An entry leaves the order. -/
theorem dropEntry_eq (l : LaneId) (n : Nat) (s : State) :
    dropEntry l n s = s.modFloor l fun f => { f with order := without n f.order } := rfl

section Reports

variable {l : LaneId} {n a : Nat} {s : State}

/-- PUNCHED_BENT of a plate that is punched. -/
theorem punchedBent_punched (h : Stands s l n a .punching) :
    punchedBent l n a s = s.modFloor l fun f => { f with order := markStage n .bent f.order } :=
  if_pos ((hasEntry_iff s l n a .punching).mpr h)

/-- PUNCHED_BENT of an UNCERTAIN job of a clearing lane. -/
theorem punchedBent_reclaimable (h : ¬ Stands s l n a .punching) (hr : Reclaimable s l n a) : punchedBent l n a s = s := by
  unfold punchedBent
  rw [if_neg fun hc => h ((hasEntry_iff s l n a .punching).mp hc), if_pos ((reclaimable_iff s l n a).mpr hr)]

/-- PUNCHED_BENT of any other. -/
theorem punchedBent_error (h : ¬ Stands s l n a .punching) (hr : ¬ Reclaimable s l n a) :
    punchedBent l n a s = raise (.laneProtocol (.lane l) .punchedBent (some (n, a))) s := by
  unfold punchedBent
  rw [if_neg fun hc => h ((hasEntry_iff s l n a .punching).mp hc),
    if_neg fun hc => hr ((reclaimable_iff s l n a).mp hc)]
  rfl

/-- PUNCH_FAULT of a plate that is punched. -/
theorem punchFault_punched (h : Stands s l n a .punching) :
    punchFault l n a s = serve (spoil n .punchFault (.lane l) (dropEntry l n s)) :=
  if_pos ((hasEntry_iff s l n a .punching).mpr h)

/-- PUNCH_FAULT of any other. -/
theorem punchFault_error (h : ¬ Stands s l n a .punching) :
    punchFault l n a s = raise (.laneProtocol (.lane l) .punchFault (some (n, a))) s :=
  if_neg fun hc => h ((hasEntry_iff s l n a .punching).mp hc)

/-- A transit timer that runs. -/
theorem transitExpiry_runs (ho : (s.lane l).Opens)
    (h : ∃ y ∈ (s.lane l).floor.order, y.job = n ∧ y.stage = .inDeveloper ∧ y.timer ≠ none) :
    transitExpiry l n s = serve (spoil n .transitTimeout (.lane l) (dropEntry l n s)) := by
  refine if_pos ?_
  obtain ⟨y, hy, hn, hst, ht⟩ := h
  rw [(isOpen_iff _).mpr ho, Bool.true_and, List.any_eq_true]
  exact ⟨y, hy, by simp [hn, hst, Option.isSome_iff_ne_none.mpr ht]⟩

/-- A transit timer that does not. -/
theorem transitExpiry_stopped (h : ¬ (s.lane l).Opens ∨
    ∀ y ∈ (s.lane l).floor.order, y.job = n → y.stage = .inDeveloper → y.timer = none) : transitExpiry l n s = s := by
  refine if_neg fun hc => ?_
  rw [Bool.and_eq_true, isOpen_iff, List.any_eq_true] at hc
  obtain ⟨ho, y, hy, hp⟩ := hc
  simp only [Bool.and_eq_true, decide_eq_true_eq] at hp
  obtain ⟨⟨hn, hst⟩, ht⟩ := hp
  rcases h with h | h
  · exact h ho
  · rw [h y hy hn hst] at ht
    exact absurd ht (by decide)

end Reports

/-- A lane opens with no report pending: the sorter looks, and the engines are served. -/
theorem laneOpened_idle {l : LaneId} {s : State} (h : (s.lane l).inspections = []) :
    laneOpened l s = serve (sorterLook s) := by
  unfold laneOpened
  rw [h]
  rfl

/-- What a lane that opens leaves of the lanes (R120). -/
theorem laneOpened_kept (l : LaneId) {s : State} (hs : JobsOrdered s) : PendingKept l s (laneOpened l s) := by
  have decided := decidePending_kept l (s.lane l).inspections.length hs
  have rest : Reacts AnyJob (decidePending l (s.lane l).inspections.length s) (laneOpened l s) :=
    Reacts.then decided.ordered (sorterLook_reacts _) serve_reacts
  exact decided.trans ((Reacts.laneSteps rest).pendingKept decided.ordered l)

/-- What follows the decisions leaves what pends. -/
theorem laneOpened_inspections (l m : LaneId) {s : State} (hs : JobsOrdered s) :
    ((laneOpened l s).lane m).inspections = ((decidePending l (s.lane l).inspections.length s).lane m).inspections := by
  have decided := decidePending_kept l (s.lane l).inspections.length hs
  have rest : Reacts AnyJob (decidePending l (s.lane l).inspections.length s) (laneOpened l s) :=
    Reacts.then decided.ordered (sorterLook_reacts _) serve_reacts
  exact (LaneSteps.runs (Reacts.laneSteps rest) m).inspections

/-- Settles O45: a report is matched with the lane's order; a plate that is spoiled has left it, and a lane whose link is
restored opens. -/
theorem platesInLane : Obligations.PlatesInLane := by
  refine ⟨fun l n a s hs => ?_, fun l s hs => ⟨rfl, fun hi => ?_, ?_⟩⟩
  · intro x error gone
    have spoils {i : Instr} {c : FaultCause} {j : Job} (hj : s.job? n.toNat = some j)
        (hexec : exec i s = .next (serve (spoil n.toNat c (.lane l) (dropEntry l n.toNat s)))) :
        RaisesReacting i (spoilNotices n.toNat ⟨c, .lane l, s.clock⟩ j) s gone (fun k => k = n.toNat)
          (Spoiled n.toNat ⟨c, .lane l, s.clock⟩ s) := by
      have dropped : JobsOrdered (dropEntry l n.toNat s) := hs.jobs
      have served : Reacts NoJob (spoil n.toNat c (.lane l) (dropEntry l n.toNat s)) _ :=
        serve_reacts (Reacts.jobs_ordered (D := AnyJob) dropped (spoil_reacts _ _ _ dropped))
      exact raisesReacting_spoil hexec served dropped hj rfl rfl rfl
    refine ⟨fun h => ⟨?_, fun j hj => ?_⟩, fun h => ⟨fun hr => ?_, ?_⟩, fun ho hr j hj => ?_, fun h => ?_⟩
    · exact congrArg Host.Outcome.next (punchedBent_punched h)
    · exact spoils hj (congrArg Host.Outcome.next (punchFault_punched h))
    · exact raises_of (congrArg Host.Outcome.next (punchedBent_error h hr))
    · exact raises_of (congrArg Host.Outcome.next (punchFault_error h))
    · exact spoils hj (congrArg Host.Outcome.next (transitExpiry_runs ho hr))
    · exact congrArg Host.Outcome.next (transitExpiry_stopped h)
  · have opens : laneRestoration l s = serve (sorterLook (s.modLane l fun x => { x with lost := false })) :=
      laneOpened_idle (by rw [lane_modLane, if_pos rfl]; exact hi)
    have found : JobsOrdered (s.modLane l fun x => { x with lost := false }) := hs.jobs
    have chain : Reacts (fun _ => False) (s.modLane l fun x => { x with lost := false }) (laneRestoration l s) :=
      opens ▸ Reacts.then found (sorterLook_reacts _) serve_reacts
    exact raisesReacting_of rfl chain ((raised_nil (.refl _)).tells_of (Reacts.ports_kept chain)) trivial
  · have found : JobsOrdered (s.modLane l fun x => { x with lost := false }) := hs.jobs
    have kept : PendingKept l _ (laneRestoration l s) := laneOpened_kept l found
    have restored : ((s.modLane l fun x => { x with lost := false }).lane l).lost = false := by
      rw [lane_modLane, if_pos rfl]
    exact ⟨_, rfl, (kept.lanes l).lost.trans restored, kept.ports⟩

end Sys2Proof.Machine
end

section
/-! HOLD, RELEASE, STEP and LINE_RESUME (R153 to R155, R161). -/

namespace Sys2Proof.Machine

open State

/-! ### The gates of a unit (R153 to R155) -/

section Gates

variable {p : PortId} {tag : Byte} {u : UnitId} {s : State}

/-- A byte that names no unit. -/
theorem reqHold_badValue {b : Byte} (h : unitOf b = none) : reqHold b s = (s, bare .badValue) := by
  unfold reqHold
  rw [h]

/-- A byte that names no unit. -/
theorem reqRelease_badValue {b : Byte} (h : unitOf b = none) : reqRelease b s = (s, bare .badValue) := by
  unfold reqRelease
  rw [h]

/-- A byte that names no unit. -/
theorem reqStep_badValue {b : Byte} (h : unitOf b = none) : reqStep b s = (s, bare .badValue) := by
  unfold reqStep
  rw [h]

/-- HOLD of a unit that is not held. -/
theorem reqHold_ok (h : heldGate s u = false) : reqHold (byteOf (unitCode u)) s =
    (raise (.unitHeld u) (setGates u true (stepGate s u) s), bare .ok) := by
  unfold reqHold
  rw [unitOf_byteOf]
  exact if_neg (by rw [h]; exact Bool.false_ne_true)

/-- HOLD of a unit that is held. -/
theorem reqHold_wrongState (h : heldGate s u = true) : reqHold (byteOf (unitCode u)) s = (s, bare .wrongState) := by
  unfold reqHold
  rw [unitOf_byteOf]
  exact if_pos h

/-- RELEASE of a unit that is held. -/
theorem reqRelease_ok (h : heldGate s u = true) : reqRelease (byteOf (unitCode u)) s =
    (unitOpened u (raise (.unitReleased u (stepGate s u)) (setGates u false false s)), bare .ok) := by
  unfold reqRelease
  rw [unitOf_byteOf]
  exact if_pos h

/-- RELEASE of a unit that is not held. -/
theorem reqRelease_wrongState (h : heldGate s u = false) : reqRelease (byteOf (unitCode u)) s = (s, bare .wrongState) := by
  unfold reqRelease
  rw [unitOf_byteOf]
  exact if_neg (by rw [h]; exact Bool.false_ne_true)

/-- STEP of a unit that is held and has none. -/
theorem reqStep_ok (h : heldGate s u = true) (ha : stepGate s u = false) : reqStep (byteOf (unitCode u)) s =
    (unitOpened u (raise (.unitStepped u) (setGates u true true s)), bare .ok) := by
  unfold reqStep
  rw [unitOf_byteOf]
  exact if_pos (by rw [h, ha]; rfl)

/-- STEP of any other. -/
theorem reqStep_wrongState (h : heldGate s u = false ∨ stepGate s u = true) :
    reqStep (byteOf (unitCode u)) s = (s, bare .wrongState) := by
  unfold reqStep
  rw [unitOf_byteOf]
  refine if_neg ?_
  rcases h with h | h <;> simp [h]

/-- A request in hand changes no gate. -/
theorem setGates_holding (p : PortId) (r : Received) (u : UnitId) (h a : Bool) (s : State) :
    setGates u h a (holding p r s) = holding p r (setGates u h a s) := by
  cases u <;> rfl

/-- A request in hand is no gate. -/
theorem heldGate_holding (p : PortId) (r : Received) (u : UnitId) (s : State) :
    heldGate (holding p r s) u = heldGate s u := by
  cases u <;> rfl

/-- A request in hand is no step. -/
theorem stepGate_holding (p : PortId) (r : Received) (u : UnitId) (s : State) :
    stepGate (holding p r s) u = stepGate s u := by
  cases u <;> rfl

/-- What a change of a unit's gates leaves. -/
theorem setGates_parts (u : UnitId) (h a : Bool) (s : State) :
    ∃ v w x, setGates u h a s = { s with engines := v, lanes := w, sorter := x } := by
  cases u <;> exact ⟨_, _, _, rfl⟩

end Gates

/-! ### A unit that opens (R154, R155) -/

section Opens

variable {p : PortId} {tag : Byte} {r : Request} {u : UnitId} {n : Notice} {held allowance : Bool} {s : State}

/-- A unit's gates have been set and its notice raised, with the request in hand. -/
def gatesSet (p : PortId) (tag : Byte) (r : Request) (u : UnitId) (n : Notice) (held allowance : Bool) (s : State) : State :=
  raise n (holding p ⟨tag, r.kind, .sound r⟩ (setGates u held allowance s))

/-- A request that opens a unit. -/
structure OpensUnit (p : PortId) (tag : Byte) (r : Request) (u : UnitId) (n : Notice) (held allowance : Bool) (s : State) :
    Prop where
  free : Free p s
  allowed : r.allowed (s.port p).rights = true
  jobs : JobsOrdered s
  applied : applyRequest p r (holding p ⟨tag, r.kind, .sound r⟩ s) =
    (unitOpened u (gatesSet p tag r u n held allowance s), bare .ok)

/-- The job table stays in order. -/
theorem OpensUnit.ordered (h : OpensUnit p tag r u n held allowance s) :
    JobsOrdered (holding p ⟨tag, r.kind, .sound r⟩ (setGates u held allowance s)) := by
  obtain ⟨v, w, x, parts⟩ := setGates_parts u held allowance s
  rw [parts]
  exact h.jobs

/-- An engine that opens: the engines are served. -/
theorem OpensUnit.engine (h : OpensUnit p tag r u n held allowance s) {e : EngineId} (he : u = .engine e) :
    AnswersServing (r.command p tag) p tag r.kind ⟨.ok, []⟩ [n] s (setGates u held allowance s) := by
  have ordered : JobsOrdered (setGates u held allowance s) := h.ordered
  refine answersServing_of h.free h.allowed ordered (h.applied.trans ?_)
  subst he
  rfl

/-- The sorter, or a lane with no report pending: the sorter looks, and reactions follow. -/
theorem OpensUnit.reacting (h : OpensUnit p tag r u n held allowance s)
    (hu : u = .sorter ∨ ∃ l, u = .lane l ∧ (s.lane l).inspections = []) :
    AnswersReacting (r.command p tag) p tag r.kind ⟨.ok, []⟩ [n] s (setGates u held allowance s) (fun _ => False)
      fun _ => True := by
  have raised : Reacts (fun _ => False) (holding p ⟨tag, r.kind, .sound r⟩ (setGates u held allowance s))
      (gatesSet p tag r u n held allowance s) := raise_reacts n _
  have ordered := Reacts.jobs_ordered h.ordered raised
  have opens : Reacts (fun _ => False) (gatesSet p tag r u n held allowance s)
      (unitOpened u (gatesSet p tag r u n held allowance s)) := by
    rcases hu with rfl | ⟨l, rfl, hi⟩
    · exact sorterLook_reacts _
    · have none : ((gatesSet p tag r (.lane l) n held allowance s).lane l).inspections = [] := by
        unfold gatesSet
        rw [raise_same]
        show ((s.modLane l _).lane l).inspections = []
        rw [lane_modLane, if_pos rfl]
        exact hi
      show Reacts _ _ (laneOpened l _)
      rw [laneOpened_idle none]
      exact Reacts.then ordered (sorterLook_reacts _) serve_reacts
  exact answersReacting_of h.free h.allowed h.applied (raised.trans opens)
    ((raised_one n _).tells_of (Reacts.ports_kept opens)) trivial

/-- The lane whose gates have been set. -/
theorem lane_gatesSet (l : LaneId) : (gatesSet p tag r (.lane l) n held allowance s).lane l =
    { s.lane l with gates := { (s.lane l).gates with held := held, allowance := allowance } } := by
  unfold gatesSet
  rw [raise_same]
  show (s.modLane l _).lane l = _
  rw [lane_modLane, if_pos rfl]

/-- The line as the gates of a lane are set. -/
theorem line_gatesSet (l : LaneId) : (gatesSet p tag r (.lane l) n held allowance s).line = s.line := by
  unfold gatesSet
  rw [raise_same]
  rfl

/-- A lane that opens has its pending reports decided: all of them, or the first if it opens by a step. -/
theorem OpensUnit.inspections {l : LaneId} (h : OpensUnit p tag r (.lane l) n held allowance s)
    (hstep : held = true → allowance = true) (hline : s.line.state ≠ .stopping) (hlost : (s.lane l).lost = false)
    (hstopped : (s.lane l).gates.stopped = false) :
    ((laneOpened l (gatesSet p tag r (.lane l) n held allowance s)).lane l).inspections =
      if held then (s.lane l).inspections.drop 1 else [] := by
  have ordered : JobsOrdered (gatesSet p tag r (.lane l) n held allowance s) :=
    Reacts.jobs_ordered h.ordered (raise_reacts (D := AnyJob) n _)
  have lane := lane_gatesSet (p := p) (tag := tag) (r := r) (n := n) (held := held) (allowance := allowance) (s := s) l
  have line := line_gatesSet (p := p) (tag := tag) (r := r) (n := n) (held := held) (allowance := allowance) (s := s) l
  generalize gatesSet p tag r (.lane l) n held allowance s = w at ordered lane line ⊢
  have free : LaneFree l w := ⟨line ▸ hline, by rw [lane]; exact hlost, by rw [lane]; exact hstopped⟩
  rw [laneOpened_inspections l l ordered]
  cases held with
  | false =>
    exact decidePending_all ordered free (by rw [lane]) (Nat.le_refl _)
  | true =>
    rw [decidePending_step ordered free (by rw [lane]) (by rw [lane]; exact hstep rfl), lane]
    rfl

/-- A lane opens. -/
theorem OpensUnit.lane {l : LaneId} (h : OpensUnit p tag r (.lane l) n held allowance s)
    (hstep : held = true → allowance = true) : Goes (r.command p tag) s fun t =>
      AnsweredAt p tag r.kind ⟨.ok, []⟩ s t ∧ Tells [n] s t ∧
      (t.lane l).gates.held = ((setGates (.lane l) held allowance s).lane l).gates.held ∧
      (s.line.state ≠ .stopping → (s.lane l).lost = false → (s.lane l).gates.stopped = false →
        (t.lane l).inspections = if ((setGates (.lane l) held allowance s).lane l).gates.held then
          (s.lane l).inspections.drop 1 else []) := by
  have set : ((setGates (.lane l) held allowance s).lane l).gates.held = held := by
    show ((s.modLane l _).lane l).gates.held = held
    rw [lane_modLane, if_pos rfl]
  rw [set]
  refine ⟨_, exec_applied h.free h.allowed h.applied, ?_⟩
  have raised : Reacts AnyJob (holding p ⟨tag, r.kind, .sound r⟩ (setGates (.lane l) held allowance s))
      (gatesSet p tag r (.lane l) n held allowance s) := raise_reacts n _
  have kept : PendingKept l _ (unitOpened (.lane l) (gatesSet p tag r (.lane l) n held allowance s)) :=
    laneOpened_kept l (Reacts.jobs_ordered h.ordered raised)
  have desk : PortsKept (holding p ⟨tag, r.kind, .sound r⟩ s)
      (holding p ⟨tag, r.kind, .sound r⟩ (setGates (.lane l) held allowance s)) := .of_eq rfl
  have told : Raised [n] (holding p ⟨tag, r.kind, .sound r⟩ s) (gatesSet p tag r (.lane l) n held allowance s) :=
    .after (t := holding p ⟨tag, r.kind, .sound r⟩ (setGates (.lane l) held allowance s)) ⟨rfl, rfl⟩ (raised_one n _)
  have hold := (kept.lanes l).held
  rw [lane_gatesSet] at hold
  have pending : s.line.state ≠ .stopping → (s.lane l).lost = false → (s.lane l).gates.stopped = false →
      ((unitOpened (.lane l) (gatesSet p tag r (.lane l) n held allowance s)).lane l).inspections =
        if held then (s.lane l).inspections.drop 1 else [] := h.inspections hstep
  generalize unitOpened (.lane l) (gatesSet p tag r (.lane l) n held allowance s) = w at kept hold pending ⊢
  exact ⟨answeredAt_of rfl rfl ((desk.trans (Reacts.ports_kept raised)).trans kept.ports),
    (told.tells_of kept.ports).holding.answer, hold, pending⟩

/-- What a request that opens a unit does, by the unit. -/
theorem OpensUnit.result (h : OpensUnit p tag r u n held allowance s) (hstep : held = true → allowance = true) :
    (∀ e, u = .engine e →
      AnswersServing (r.command p tag) p tag r.kind ⟨.ok, []⟩ [n] s (setGates u held allowance s)) ∧
    ((u = .sorter ∨ ∃ l, u = .lane l ∧ (s.lane l).inspections = []) →
      AnswersReacting (r.command p tag) p tag r.kind ⟨.ok, []⟩ [n] s (setGates u held allowance s) (fun _ => False)
        fun _ => True) ∧
    (∀ l, u = .lane l → Goes (r.command p tag) s fun t =>
      AnsweredAt p tag r.kind ⟨.ok, []⟩ s t ∧ Tells [n] s t ∧
      (t.lane l).gates.held = ((setGates u held allowance s).lane l).gates.held ∧
      (s.line.state ≠ .stopping → (s.lane l).lost = false → (s.lane l).gates.stopped = false →
        (t.lane l).inspections = if ((setGates u held allowance s).lane l).gates.held then
          (s.lane l).inspections.drop 1 else [])) := by
  refine ⟨fun e he => h.engine he, h.reacting, fun l hl => ?_⟩
  subst hl
  exact h.lane hstep

end Opens

/-- Settles O53: a request sets the gates of its unit and raises its notice; the unit that it opens is served, or its
pending reports are decided and the sorter looks. -/
theorem unitGates : Obligations.UnitGates := by
  intro p tag u s hfree hs hroom b wrong
  have held (r : Received) : heldGate (holding p r s) u = heldGate s u := heldGate_holding p r u s
  have step (r : Received) : stepGate (holding p r s) u = stepGate s u := stepGate_holding p r u s
  refine ⟨fun h => ⟨?_, ?_, ?_⟩, fun h => ⟨?_, fun ha => ?_, ?_⟩, fun b' hb => ⟨?_, ?_, ?_⟩⟩
  · refine answers_of (r := .hold b) (ns := [_]) hfree hroom ((reqHold_ok ((held _).trans h)).trans ?_)
    rw [step, setGates_holding]
    rfl
  · exact answers_unchanged (r := .release b) hfree hroom (reqRelease_wrongState ((held _).trans h))
  · exact answers_unchanged (r := .step b) hfree hroom (reqStep_wrongState (.inl ((held _).trans h)))
  · exact answers_unchanged (r := .hold b) hfree hroom (reqHold_wrongState ((held _).trans h))
  · exact answers_unchanged (r := .step b) hfree hroom (reqStep_wrongState (.inr ((step _).trans ha)))
  · rintro c kind n v (⟨rfl, rfl, rfl, rfl⟩ | ⟨rfl, ha, rfl, rfl, rfl⟩)
    · have opens : OpensUnit p tag (.release b) u (.unitReleased u (stepGate s u)) false false s := by
        refine ⟨hfree, hroom, hs.jobs, (reqRelease_ok ((held _).trans h)).trans ?_⟩
        rw [step, setGates_holding]
        rfl
      exact opens.result fun hc => absurd hc Bool.false_ne_true
    · have opens : OpensUnit p tag (.step b) u (.unitStepped u) true true s := by
        refine ⟨hfree, hroom, hs.jobs, (reqStep_ok ((held _).trans h) ((step _).trans ha)).trans ?_⟩
        rw [setGates_holding]
        rfl
      exact opens.result fun _ => rfl
  · exact answers_unchanged (r := .hold b') hfree hroom (reqHold_badValue (unitOf_eq_none hb))
  · exact answers_unchanged (r := .release b') hfree hroom (reqRelease_badValue (unitOf_eq_none hb))
  · exact answers_unchanged (r := .step b') hfree hroom (reqStep_badValue (unitOf_eq_none hb))

end Sys2Proof.Machine
end

section
/-! LINE_RESUME (R161). -/

namespace Sys2Proof.Machine

open State

/-! ### Reactions beside a change of the engines -/

/-- What is kept by reactions is kept beside any change of the engines, the lanes and the line that has been made. -/
theorem KeptByReacting.rebase {x c : State} (h : KeptByReacting x c) :
    KeptByReacting { x with engines := c.engines, lanes := c.lanes, line := c.line } c :=
  { h with
    policies := rfl
    stopTime := rfl
    lineState := .inl rfl
    sorterIdle := fun hx => h.sorterIdle fun l => (h.lanes l).exit.symm.trans (hx l)
    engines := fun _ => .refl _
    lanes := fun _ => .refl _
    running := fun _ => ⟨rfl, fun _ => rfl⟩ }

/-- The engines' records may be changed beside. -/
theorem KeptByReacting.withEngines {x c : State} (h : KeptByReacting x c) (v : Vector Engine 6) :
    KeptByReacting { x with engines := v } { c with engines := v } :=
  { h with engines := fun _ => .refl _ }

/-! ### The line as it is resumed -/

/-- The line runs again and no lane is stopped. -/
def unstopped (s : State) : State :=
  { s with
    line := { clearMarks s.line with state := .running }
    lanes := s.lanes.map fun x => { x with gates := { x.gates with stopped := false } } }

/-- What the lanes decide then, and the sorter's look. -/
def resumedLanes (s : State) : State :=
  sorterLook (allLanes.foldl (fun s l => decidePending l (s.lane l).inspections.length s) (unstopped s))

/-- The engines' stopped gates are clear. -/
def resumedEngines (s : State) : State :=
  { s with engines := s.engines.map fun x => { x with gates := { x.gates with stopped := false } } }

/-- A resume, step by step. -/
theorem lineResume_eq (s : State) :
    lineResume s = raise (.lineResumed s.line.state) (serve (resumedEngines (resumedLanes s))) := by
  have unstop := foldl_lanes unstopLane (fun x => { x with gates := { x.gates with stopped := false } })
    (s.modLine fun x => { clearMarks x with state := .running }) fun _ _ => rfl
  unfold lineResume
  dsimp only
  rw [unstop]
  have opens := foldl_engines (fun e s => setEngineStop false e s)
    (fun x => { x with gates := { x.gates with stopped := false } }) (resumedLanes s) fun _ _ => rfl
  exact congrArg (fun t => raise (.lineResumed s.line.state) (serve t)) opens

/-- There are two lanes. -/
theorem lane_zero_or_one (l : LaneId) : l = 0 ∨ l = 1 := by
  revert l
  decide

/-- Both lanes decide, in order. -/
theorem foldl_allLanes (f : State → LaneId → State) (s : State) : allLanes.foldl f s = f (f s 0) 1 := rfl

section Lanes

variable {s : State}

/-- A lane of the line as it is resumed. -/
theorem lane_unstopped (l : LaneId) : (unstopped s).lane l =
    { s.lane l with gates := { (s.lane l).gates with stopped := false } } := by
  unfold unstopped State.lane
  simp

/-- What the lanes' decisions leave, once the line is resumed. -/
structure DecidedLanes (s u : State) : Prop where
  ordered : JobsOrdered u
  ports : PortsKept s u
  clock : u.clock = s.clock
  line : u.line = { clearMarks s.line with state := .running }
  gates : ∀ e, (u.engine e).gates = (s.engine e).gates
  held : ∀ l, (u.lane l).gates.held = (s.lane l).gates.held
  stopped : ∀ l, (u.lane l).gates.stopped = false
  inspections : ∀ l, (s.lane l).lost = false → (s.lane l).gates.held = false → (u.lane l).inspections = []

/-- Reactions leave it. -/
theorem DecidedLanes.react {u v : State} (h : DecidedLanes s u) (k : Reacts AnyJob u v) : DecidedLanes s v := by
  have running : u.line.state ≠ .stopping := by
    rw [h.line]
    exact LineState.noConfusion
  have kept := (Reacts.laneSteps k).pendingKept h.ordered 0
  obtain ⟨line, stopped⟩ := kept.line running
  exact ⟨kept.ordered, h.ports.trans kept.ports, kept.clock.trans h.clock, line.trans h.line,
    fun e => (kept.gates e).trans (h.gates e), fun l => (kept.lanes l).held.trans (h.held l),
    fun l => (stopped l).trans (h.stopped l),
    fun l hl hh => (LaneSteps.runs (Reacts.laneSteps k) l).inspections.trans (h.inspections l hl hh)⟩

/-- The lanes decide what pends. -/
theorem decidedLanes (hs : JobsOrdered s) :
    DecidedLanes s (allLanes.foldl (fun s l => decidePending l (s.lane l).inspections.length s) (unstopped s)) := by
  rw [foldl_allLanes]
  have lane (l : LaneId) := lane_unstopped (s := s) l
  have ordered : JobsOrdered (unstopped s) := hs
  have ports : PortsKept s (unstopped s) := .of_eq rfl
  have clock : (unstopped s).clock = s.clock := rfl
  have line : (unstopped s).line = { clearMarks s.line with state := .running } := rfl
  have gates : ∀ e, ((unstopped s).engine e).gates = (s.engine e).gates := fun _ => rfl
  generalize unstopped s = u at lane ordered ports clock line gates ⊢
  have running : u.line.state ≠ .stopping := by
    rw [line]
    exact LineState.noConfusion
  have free (l : LaneId) (hl : (s.lane l).lost = false) : LaneFree l u := ⟨running, by rw [lane]; exact hl, by rw [lane]⟩
  have first := decidePending_kept 0 (u.lane 0).inspections.length ordered
  have done (hl : (s.lane 0).lost = false) (hh : (s.lane 0).gates.held = false) :=
    decidePending_all ordered (free 0 hl) (by rw [lane]; exact hh) (Nat.le_refl _)
  generalize decidePending 0 (u.lane 0).inspections.length u = v at first done ⊢
  have second := decidePending_kept 1 (v.lane 1).inspections.length first.ordered
  have done' (hl : (s.lane 1).lost = false) (hh : (s.lane 1).gates.held = false) :=
    decidePending_all first.ordered ((free 1 hl).kept first)
      ((first.lanes 1).held.trans (by rw [lane]; exact hh)) (Nat.le_refl _)
  generalize decidePending 1 (v.lane 1).inspections.length v = w at second done' ⊢
  obtain ⟨lineV, stoppedV⟩ := first.line running
  obtain ⟨lineW, stoppedW⟩ := second.line (lineV ▸ running)
  refine ⟨second.ordered, (ports.trans first.ports).trans second.ports, (second.clock.trans first.clock).trans clock,
    (lineW.trans lineV).trans line, fun e => ((second.gates e).trans (first.gates e)).trans (gates e), fun l => ?_,
    fun l => ?_, fun l hl hh => ?_⟩
  · rw [(second.lanes l).held, (first.lanes l).held, lane]
  · rw [stoppedW l, stoppedV l, lane]
  · rcases lane_zero_or_one l with rfl | rfl
    · exact (second.others 0 (by decide)).trans (done hl hh)
    · exact done' hl hh

/-- And the sorter looks. -/
theorem resumedLanes_decided (hs : JobsOrdered s) : DecidedLanes s (resumedLanes s) :=
  (decidedLanes hs).react (sorterLook_reacts _)

/-- With no report pending the sorter only looks. -/
theorem resumedLanes_idle (h : ∀ l, (s.lane l).inspections = []) : resumedLanes s = sorterLook (unstopped s) := by
  have none (l : LaneId) : ((unstopped s).lane l).inspections = [] := by
    rw [lane_unstopped]
    exact h l
  unfold resumedLanes
  rw [foldl_allLanes, decidePending_none (none 0), decidePending_none (none 1)]

end Lanes

/-! ### The resume whole (R161) -/

section Resume

variable {s : State}

/-- An engine once its stopped gate is clear. -/
theorem engine_resumedEngines (u : State) (e : EngineId) : (resumedEngines u).engine e =
    { u.engine e with gates := { (u.engine e).gates with stopped := false } } := by
  unfold resumedEngines State.engine
  simp

/-- What a LINE_RESUME gives. -/
structure LineRuns (s t : State) : Prop where
  line : t.line = ⟨.running, s.line.policies, Vector.replicate 6 false, Vector.replicate 2 false, s.line.stopTime⟩
  gates : ∀ e, (t.engine e).gates = { (s.engine e).gates with stopped := false }
  lanes : ∀ l, (t.lane l).gates.stopped = false ∧ (t.lane l).gates.held = (s.lane l).gates.held ∧
    ((s.lane l).lost = false → (s.lane l).gates.held = false → (t.lane l).inspections = [])
  idle : (∀ l, (s.lane l).inspections = []) →
    KeptByReacting { s with engines := t.engines, lanes := t.lanes, line := t.line } t ∧ OthersStay (fun _ => False) s t
  ports : PortsKept s t
  told : Told (.lineResumed s.line.state) s t

/-- A resume. -/
theorem lineResume_runs (hs : JobsOrdered s) : LineRuns s (lineResume s) := by
  have decided := resumedLanes_decided hs
  have idle : (∀ l, (s.lane l).inspections = []) → Reacts (fun _ => False) (unstopped s) (resumedLanes s) :=
    fun h => resumedLanes_idle h ▸ sorterLook_reacts _
  rw [lineResume_eq]
  generalize resumedLanes s = u at decided idle ⊢
  have ordered : JobsOrdered (resumedEngines u) := decided.ordered
  have served : Reacts (fun _ => False) (resumedEngines u) (serve (resumedEngines u)) := serve_reacts ordered
  have kept : KeptByReacting (resumedEngines u) (serve (resumedEngines u)) := Reacts.kept served
  have running : (resumedEngines u).line.state ≠ .stopping := by
    show u.line.state ≠ .stopping
    rw [decided.line]
    exact LineState.noConfusion
  have opened : DecidedLanes { s with engines := (resumedEngines u).engines } (resumedEngines u) :=
    ⟨ordered, decided.ports, decided.clock, decided.line, fun _ => rfl, decided.held, decided.stopped, decided.inspections⟩
  have after := (opened.react (Reacts.widen (fun _ _ => trivial) served)).react (raise_reacts (.lineResumed s.line.state) _)
  have early : PortsKept s (serve (resumedEngines u)) := decided.ports.trans (serve_kept ordered).2
  have clock : (serve (resumedEngines u)).clock = s.clock := kept.clock.trans decided.clock
  have told := (told_raise (.lineResumed s.line.state) (serve (resumedEngines u))).since early clock
  have last : Reacts (fun _ => False) (serve (resumedEngines u)) (raise (.lineResumed s.line.state) (serve (resumedEngines u))) :=
    raise_reacts _ _
  generalize serve (resumedEngines u) = w at served kept after told last ⊢
  generalize raise (.lineResumed s.line.state) w = t at after told last ⊢
  refine ⟨after.line, fun e => ?_, fun l => ⟨after.stopped l, after.held l, after.inspections l⟩, fun h => ⟨?_, ?_⟩,
    after.ports, told⟩
  · refine (after.gates e).trans ?_
    show ((resumedEngines u).engine e).gates = _
    rw [engine_resumedEngines, decided.gates e]
  · have before : KeptByReacting { unstopped s with engines := (resumedEngines u).engines, lanes := u.lanes, line := u.line }
        (resumedEngines u) := (Reacts.kept (idle h)).rebase.withEngines _
    exact (before.trans (kept.trans (Reacts.kept last))).rebase
  · intro n j hn hj
    obtain ⟨i, hi, stays⟩ := Reacts.job_stays (idle h) hn (show (unstopped s).job? n = some j from hj)
    obtain ⟨k, hk, stays'⟩ := Reacts.job_stays (served.trans last) hn (show (resumedEngines u).job? n = some i from hi)
    exact ⟨k, hk, stays.trans stays'⟩

/-- LINE_RESUME of a line that runs. -/
theorem reqLineResume_wrongState (h : s.line.state = .running) : reqLineResume s = (s, bare .wrongState) := if_pos h

/-- LINE_RESUME of any other. -/
theorem reqLineResume_ok (h : s.line.state ≠ .running) : reqLineResume s = (lineResume s, bare .ok) := if_neg h

end Resume

/-- Settles O55: the lanes decide what pends and the sorter looks before the engines' gates are clear. -/
theorem lineResumes : Obligations.LineResumes := by
  intro p tag s hfree hs hroom c
  refine ⟨fun h => answers_unchanged (r := .lineResume) hfree hroom (reqLineResume_wrongState h), fun h => ?_⟩
  refine ⟨_, exec_applied (r := .lineResume) hfree hroom (reqLineResume_ok h), ?_⟩
  have ordered : JobsOrdered (holding p ⟨tag, Request.lineResume.kind, .sound .lineResume⟩ s) := hs.jobs
  have runs := lineResume_runs ordered
  generalize lineResume (holding p ⟨tag, Request.lineResume.kind, .sound .lineResume⟩ s) = t at runs ⊢
  obtain ⟨line, gates, lanes, idle, ports, told⟩ := runs
  refine ⟨line, gates, lanes, fun hi => ⟨?_, ?_⟩, answeredAt_of rfl rfl ports, told.of_holding.answered p _ _ _⟩
  · exact KeptByReacting.andLink (KeptByReacting.of_holding (idle hi).1) p _
  · exact (idle hi).2

end Sys2Proof.Machine
end

section
/-! AT_INSPECT of a plate that is not identified (R115 to R118, R124). -/

namespace Sys2Proof.Machine

open State

/-! ### The tag (R115) -/

/-- The machine's test of a tag is the rule's. -/
theorem soundTag_iff (s : State) (t : TagFields) : soundTag s t = true ↔ Sound s t := by
  unfold soundTag
  simp only [Bool.and_eq_true, decide_eq_true_eq]
  constructor
  · rintro ⟨⟨⟨ha, hc⟩, hj⟩, hp⟩
    refine ⟨ha, hc, hj, fun j h => ?_⟩
    rw [h] at hp
    simpa using hp
  · rintro ⟨ha, hc, hj, hp⟩
    refine ⟨⟨⟨ha, hc⟩, hj⟩, ?_⟩
    cases h : s.job? t.job.toNat with
    | none => rfl
    | some j => simpa using hp j h

/-- The tag is judged by the job table alone. -/
theorem soundTagOf_of_jobs {s t : State} (h : t.jobs = s.jobs) (r : InspectReport) : soundTagOf t r = soundTagOf s r := by
  unfold soundTagOf soundTag State.job?
  rw [h]

/-- A tag that cannot be read, or is not sound. -/
theorem soundTagOf_none {s : State} {r : InspectReport} (h : r.tag = .unreadable ∨ ∃ t, r.tag = .read t ∧ ¬ Sound s t) :
    soundTagOf s r = none := by
  unfold soundTagOf
  rcases h with h | ⟨t, h, hs⟩
  · rw [h]
  · rw [h]
    exact if_neg fun hc => hs ((soundTag_iff s t).mp hc)

/-- A tag that is sound. -/
theorem soundTagOf_sound {s : State} {r : InspectReport} {t : TagFields} (h : r.tag = .read t) (hs : Sound s t) :
    soundTagOf s r = some t := by
  unfold soundTagOf
  rw [h]
  exact if_pos ((soundTag_iff s t).mpr hs)

/-! ### The state in which a report is decided (R120) -/

section Decide

variable {l : LaneId} {r : InspectReport} {s : State}

/-- A step through which alone the lane is open is used. -/
theorem stepUsed_eq (l : LaneId) (s : State) : stepUsed l s = usedStep l s := by
  unfold stepUsed usedStep
  split
  next h =>
    have used : (s.lane l).gates.held = true ∧ (s.lane l).gates.allowance = true := Bool.and_eq_true_iff.mp h
    refine congrArg (fun v => ({ s with lanes := v } : State)) (vmod_congr ?_)
    have spent : ((s.lane l).gates.allowance && !(s.lane l).gates.held) = false := by
      rw [used.1, used.2]
      rfl
    show ({ s.lane l with gates := { (s.lane l).gates with allowance := false } } : Lane) =
      { s.lane l with gates := { (s.lane l).gates with
        allowance := (s.lane l).gates.allowance && !(s.lane l).gates.held } }
    rw [spent]
  next h =>
    have same : ((s.lane l).gates.allowance && !(s.lane l).gates.held) = (s.lane l).gates.allowance := by
      unfold Lane.byStep at h
      cases ha : (s.lane l).gates.allowance <;> cases hh : (s.lane l).gates.held <;> simp_all
    refine (congrArg (fun v => ({ s with lanes := v } : State)) (vmod_same _ _ _ ?_)).symm
    show ({ s.lane l with gates := { (s.lane l).gates with
      allowance := (s.lane l).gates.allowance && !(s.lane l).gates.held } } : Lane) = s.lane l
    rw [same]

/-- The lane, once its step is used. -/
theorem lane_usedStep (l : LaneId) (s : State) : (usedStep l s).lane l =
    { s.lane l with gates := { (s.lane l).gates with
      allowance := (s.lane l).gates.allowance && !(s.lane l).gates.held } } := by
  unfold usedStep
  rw [lane_modLane, if_pos rfl]

/-- AT_INSPECT at a lane that is open, with no report pending. -/
theorem atInspect_open (ho : (s.lane l).Opens) (hi : (s.lane l).inspections = []) : atInspect l r s = decide1 l r s := by
  unfold atInspect
  exact if_pos (by rw [(isOpen_iff _).mpr ho, hi]; rfl)

/-- A report is decided, of a lane that is not clearing. -/
theorem decide1_report (hc : (s.lane l).clearing = false) : decide1 l r s = decideReport l r (usedStep l s) := by
  rw [decide1_eq, stepUsed_eq, lane_usedStep]
  exact if_neg (by rw [hc]; exact Bool.false_ne_true)

/-- A report waits at a lane that is not open, or at which one waits. -/
theorem atInspect_waits (h : ¬ (s.lane l).Opens ∨ (s.lane l).inspections ≠ []) (hlen : (s.lane l).inspections.length < 12) :
    atInspect l r s = s.modLane l fun x => { x with inspections := x.inspections ++ [r] } := by
  unfold atInspect
  refine (if_neg ?_).trans (if_pos hlen)
  rw [Bool.and_eq_true, isOpen_iff, decide_eq_true_eq]
  rintro ⟨ho, hi⟩
  exact h.elim (fun hn => hn ho) fun hn => hn hi

/-- A thirteenth is an error. -/
theorem atInspect_full (h : 12 ≤ (s.lane l).inspections.length) :
    atInspect l r s = raise (.laneProtocol (.lane l) .atInspect (tagNames r)) s := by
  unfold atInspect
  refine (if_neg ?_).trans (if_neg (Nat.not_lt.mpr h))
  rw [Bool.and_eq_true, decide_eq_true_eq]
  rintro ⟨-, hi⟩
  rw [hi] at h
  exact absurd h (by decide)

/-- The head of inspection. -/
theorem headOf_heads {order : List LaneEntry} {n : Nat} (h : Heads order n) :
    ∃ y, headOf order = some y ∧ y.job = n := by
  obtain ⟨pre, y, post, rfl, hn, hy, hpre, -⟩ := h
  refine ⟨y, ?_, hn⟩
  unfold headOf
  rw [List.find?_append, List.find?_eq_none.mpr fun z hz => by simpa using hpre z hz, Option.none_or,
    List.find?_cons_of_pos (by simp [hy])]

/-- A plate with no sound tag, and none to charge. -/
theorem decideReport_unreadable (ht : soundTagOf s r = none) (h : ∀ y ∈ (s.lane l).floor.order, y.stage ≠ .inDeveloper) :
    decideReport l r s = raise (.strayPlate l r.tag .unreadable) (s.send (.reject l 0)) := by
  have none : headOf ((s.send (.reject l 0)).lane l).floor.order = none := by
    unfold headOf
    exact List.find?_eq_none.mpr fun z hz => by simpa using h z hz
  unfold decideReport
  rw [ht]
  show decideUnreadable l r s = _
  unfold decideUnreadable
  dsimp only
  rw [none]

/-- A plate with no sound tag is charged to the head of inspection. -/
theorem decideReport_charged {n : Nat} (ht : soundTagOf s r = none) (h : Heads (s.lane l).floor.order n) :
    decideReport l r s = serve (spoil n .tagUnreadable (.lane l) (dropEntry l n (s.send (.reject l 0)))) := by
  obtain ⟨y, hy, hn⟩ := headOf_heads h
  have head : headOf ((s.send (.reject l 0)).lane l).floor.order = some y := hy
  unfold decideReport
  rw [ht]
  show decideUnreadable l r s = _
  unfold decideUnreadable
  dsimp only
  rw [head, ← hn]

/-- A plate whose tag names no entry that waits for inspection at its attempt. -/
theorem decideReport_stray {t : TagFields} (ht : soundTagOf s r = some t)
    (h : ¬ Stands s l t.job.toNat t.attempt.toNat .inDeveloper) :
    decideReport l r s = raise (.strayPlate l r.tag (strayReason s l t.job.toNat)) (s.send (.reject l 0)) := by
  unfold decideReport
  rw [ht]
  exact if_neg fun hc => h ((hasEntry_iff s l _ _ _).mp hc)

/-- The reason, by the entry that the tag names. -/
theorem strayReason_none {n : Nat} (h : ∀ y ∈ (s.lane l).floor.order, y.job ≠ n) : strayReason s l n = .notInOrder := by
  unfold strayReason
  rw [List.find?_eq_none.mpr fun z hz => by simpa using h z hz]

/-- The reason, by the entry that the tag names. -/
theorem strayReason_some {n : Nat} {y : LaneEntry} (h : ((s.lane l).floor.order.find? fun y => y.job = n) = some y) :
    strayReason s l n = if y.stage = .inDeveloper then .attemptMismatch else .pastInspection := by
  unfold strayReason
  rw [h]

end Decide

/-- Settles O42: with its step used, the lane charges an unreadable plate to the head of inspection, and reports any
other as a stray; a lane that is not open keeps the report. -/
theorem plateNotIdentified : Obligations.PlateNotIdentified := by
  intro l r s hs c x b
  refine ⟨fun ho hi hc => ?_, fun h => ⟨fun hlen => ?_, fun hlen => ?_⟩⟩
  · have decided : exec c s = .next (decideReport l r (usedStep l s)) :=
      congrArg Host.Outcome.next ((atInspect_open ho hi).trans (decide1_report hc))
    have order : ((usedStep l s).lane l).floor.order = x.floor.order := by rw [lane_usedStep]
    have tag : soundTagOf (usedStep l s) r = soundTagOf s r := soundTagOf_of_jobs rfl r
    refine ⟨fun ht => ⟨fun hnone => ?_, fun n j hh hj => ?_⟩, fun t ht hsound => ?_⟩
    · refine raises_of (decided.trans (congrArg _ ?_))
      exact decideReport_unreadable (tag.trans (soundTagOf_none ht)) (by rw [order]; exact hnone)
    · have ordered : JobsOrdered (dropEntry l n b) := hs.jobs
      have charged := decideReport_charged (l := l) (tag.trans (soundTagOf_none ht)) (order.symm ▸ hh)
      have served : Reacts NoJob (spoil n .tagUnreadable (.lane l) (dropEntry l n b)) _ :=
        serve_reacts (Reacts.jobs_ordered (D := AnyJob) ordered (spoil_reacts _ _ _ ordered))
      exact raisesReacting_spoil (decided.trans (congrArg _ charged)) served ordered hj rfl rfl rfl
    · have stray {why : StrayReason}
          (hn : ¬ Stands (usedStep l s) l t.job.toNat t.attempt.toNat .inDeveloper)
          (hwhy : strayReason (usedStep l s) l t.job.toNat = why) : Raises c [.strayPlate l r.tag why] s b :=
        raises_of (decided.trans (congrArg _ (hwhy ▸ decideReport_stray (tag.trans (soundTagOf_sound ht hsound)) hn)))
      refine ⟨fun hnone => ?_, fun y hy hone => ⟨fun hstage => ?_, fun hstage hattempt => ?_⟩⟩
      · refine stray ?_ (strayReason_none (by rw [order]; exact hnone))
        rintro ⟨⟨y, hy, hn, -⟩, -⟩
        rw [order] at hy
        exact hnone y hy hn
      · refine stray ?_ ((strayReason_some (y := y) (by rw [order]; exact hy)).trans (if_neg hstage))
        rintro ⟨⟨z, hz, hn, hst⟩, -⟩
        rw [order] at hz
        exact hstage (hone z hz hn ▸ hst)
      · refine stray ?_ ((strayReason_some (y := y) (by rw [order]; exact hy)).trans (if_pos hstage))
        rintro ⟨-, j, hj, ha⟩
        exact hattempt j hj ha
  · exact congrArg Host.Outcome.next (atInspect_waits h hlen)
  · obtain ⟨tag, marks⟩ := r
    cases tag <;> exact raises_of (congrArg Host.Outcome.next (atInspect_full hlen))

end Sys2Proof.Machine
end

section
/-! AT_EXIT and the sorter's grant (R123, R126 to R128). -/

namespace Sys2Proof.Machine

open State

/-! ### A lane exit that is found blocked (R128) -/

/-- Two states differ by the lanes' blocked marks and the ports alone. -/
structure BlocksOnly (s t : State) : Prop where
  rest : t = { s with lanes := t.lanes, ports := t.ports }
  lane : ∀ m, t.lane m = { s.lane m with floor := { (s.lane m).floor with blocked := (t.lane m).floor.blocked } }

/-- Nothing changes. -/
theorem BlocksOnly.refl (s : State) : BlocksOnly s s := ⟨rfl, fun _ => rfl⟩

/-- One after another. -/
theorem BlocksOnly.trans {s t u : State} (h : BlocksOnly s t) (k : BlocksOnly t u) : BlocksOnly s u where
  rest := by
    rw [k.rest, h.rest]
  lane m := by
    have second := k.lane m
    rw [h.lane m] at second
    exact second

/-- A notice leaves the lanes. -/
theorem lane_raise (m : Notice) (l : LaneId) (s : State) : (raise m s).lane l = s.lane l := by
  have lanes : (raise m s).lanes = s.lanes := by rw [raise_same m s]
  exact congrArg (fun v => v.get l) lanes

/-- A notice. -/
theorem BlocksOnly.raised (m : Notice) (s : State) : BlocksOnly s (raise m s) := by
  have lanes : (raise m s).lanes = s.lanes := by rw [raise_same m s]
  refine ⟨?_, fun k => ?_⟩
  · rw [lanes]
    exact raise_same m s
  · rw [lane_raise]

/-- A lane's mark. -/
theorem BlocksOnly.blocked (l : LaneId) (s : State) :
    BlocksOnly s (s.modFloor l fun f => { f with blocked := true }) := by
  refine ⟨rfl, fun m => ?_⟩
  rw [lane_modFloor]
  split <;> rfl

section Blocked

variable {l : LaneId} {n : Nat} {j : Job} {s : State}

/-- An exit with no place left is blocked. -/
theorem findBlocked_blocks (h : s.exitJob l = some (n, j)) (hd : s.destinationOf j = none)
    (hb : (s.lane l).floor.blocked = false) : findBlocked l s =
      raise (.rackBlocked l n j.key) (s.modFloor l fun f => { f with blocked := true }) := by
  unfold findBlocked
  rw [h]
  exact if_pos (by rw [hd, hb]; rfl)

/-- Any other exit stays as it is. -/
theorem findBlocked_same (h : ∀ n j, s.exitJob l = some (n, j) → s.destinationOf j ≠ none ∨ (s.lane l).floor.blocked = true) :
    findBlocked l s = s := by
  unfold findBlocked
  split
  · rfl
  next n j hx =>
    refine if_neg fun hc => ?_
    rw [Bool.and_eq_true, Option.isNone_iff_eq_none] at hc
    rcases h n j hx with hd | hb
    · exact hd hc.1
    · rw [hb] at hc
      exact Bool.false_ne_true hc.2

/-- Either case. -/
theorem findBlocked_cases (l : LaneId) (s : State) : findBlocked l s = s ∨ ∃ n j, s.exitJob l = some (n, j) ∧
    findBlocked l s = raise (.rackBlocked l n j.key) (s.modFloor l fun f => { f with blocked := true }) := by
  by_cases h : ∃ n j, s.exitJob l = some (n, j) ∧ s.destinationOf j = none ∧ (s.lane l).floor.blocked = false
  · obtain ⟨n, j, hx, hd, hb⟩ := h
    exact .inr ⟨n, j, hx, findBlocked_blocks hx hd hb⟩
  · refine .inl (findBlocked_same fun n j hx => ?_)
    by_contra hn
    rw [not_or, not_not, Bool.not_eq_true] at hn
    exact h ⟨n, j, hx, hn.1, hn.2⟩

/-- What becomes of the state. -/
theorem findBlocked_only (l : LaneId) (s : State) : BlocksOnly s (findBlocked l s) := by
  rcases findBlocked_cases l s with h | ⟨n, j, -, h⟩
  · rw [h]
    exact .refl s
  · rw [h]
    exact (BlocksOnly.blocked l s).trans (BlocksOnly.raised _ _)

/-- The other lane. -/
theorem findBlocked_other {m : LaneId} (hm : l ≠ m) (s : State) : (findBlocked m s).lane l = s.lane l := by
  rcases findBlocked_cases m s with h | ⟨n, j, -, h⟩
  · rw [h]
  · rw [h]
    rw [lane_raise, lane_modFloor, if_neg hm]

/-- No candidate is found blocked. -/
theorem findBlocked_candidate {d : Destination} (h : Candidate s l n j d) : findBlocked l s = s := by
  refine findBlocked_same fun n' j' hx => .inl ?_
  have here := (exitJob_eq_some_iff s l n j).mpr ⟨h.exit, h.opens, h.stage, h.job⟩
  rw [here] at hx
  cases hx
  rw [destinationOf_eq, h.place]
  exact Option.some_ne_none d

/-- The candidates stay. -/
theorem BlocksOnly.candidate {t : State} (h : BlocksOnly s t) (l : LaneId) (n : Nat) (j : Job) (d : Destination) :
    Candidate t l n j d ↔ Candidate s l n j d := by
  have opens : (t.lane l).Opens ↔ (s.lane l).Opens := by
    rw [h.lane l]
  have exit : (t.lane l).floor.exit = (s.lane l).floor.exit := by rw [h.lane l]
  have order : (t.lane l).floor.order = (s.lane l).floor.order := by rw [h.lane l]
  have job : t.job? n = s.job? n := by
    rw [h.rest]
    rfl
  have place : placeFor t j = placeFor s j := by
    rw [h.rest]
    rfl
  constructor
  · rintro ⟨ho, hx, hs, hj, hp⟩
    exact ⟨opens.mp ho, exit ▸ hx, order ▸ hs, job ▸ hj, place ▸ hp⟩
  · rintro ⟨ho, hx, hs, hj, hp⟩
    exact ⟨opens.mpr ho, exit.trans hx, by rw [order]; exact hs, job.trans hj, place.trans hp⟩

end Blocked

/-! ### The lane that is granted (R127) -/

section Grant

variable {l : LaneId} {n : Nat} {j : Job} {d : Destination} {s : State}

/-- A lane that is no candidate. -/
theorem candidate_none (h : ∀ n j d, ¬ Candidate s l n j d) : s.candidate l = none := by
  rw [Option.eq_none_iff_forall_ne_some]
  rintro ⟨n, j, d⟩ hc
  exact h n j d ((candidate_eq_some_iff s l n j d).mp hc)

/-- The lane that goes first is the choice. -/
theorem grantChoice_eq (h : Candidate s l n j d)
    (hother : ∀ l' n' j' d', l' ≠ l → Candidate s l' n' j' d' → GrantedBefore s l l' j j') :
    s.grantChoice = some (l, n, j, d) := by
  have here := (candidate_eq_some_iff s l n j d).mpr h
  unfold State.grantChoice
  rcases lane_zero_or_one l with rfl | rfl
  · rw [here]
    cases hc : s.candidate 1 with
    | none => rfl
    | some y =>
      obtain ⟨n', j', d'⟩ := y
      have before := hother 1 n' j' d' (by decide) ((candidate_eq_some_iff s 1 n' j' d').mp hc)
      rcases before with ⟨hu, hn⟩ | ⟨hsame, hserved⟩
      · simp [hu, hn]
      · rcases hserved with hserved | ⟨hserved, -⟩ <;> cases hj : j'.cls <;> simp [hsame, hserved, hj]
  · rw [here]
    cases hc : s.candidate 0 with
    | none => rfl
    | some y =>
      obtain ⟨n', j', d'⟩ := y
      have before := hother 0 n' j' d' (by decide) ((candidate_eq_some_iff s 0 n' j' d').mp hc)
      rcases before with ⟨hu, hn⟩ | ⟨hsame, hserved⟩
      · simp [hu, hn]
      · rcases hserved with hserved | ⟨-, hl⟩
        · cases hj : j'.cls <;> simp [hsame, hserved, hj]
        · exact absurd hl (by decide)

/-- With no candidate there is no choice. -/
theorem grantChoice_none (h : ∀ l n j d, ¬ Candidate s l n j d) : s.grantChoice = none := by
  unfold State.grantChoice
  rw [candidate_none (h 0), candidate_none (h 1)]

/-- What a grant gives. -/
structure Grants (l : LaneId) (n a : Nat) (d : Destination) (s t : State) : Prop where
  delivery : t.sorter.delivery = some ⟨l, n, a, d⟩
  allowance : t.sorter.allowance = false
  sent : t.lineSent = s.lineSent ++ [.deliver l n a d]
  lane : t.lane l = grantedLane (s.lane l) n
  other : ∀ l', l' ≠ l → t.lane l' = s.lane l'

/-- A grant. -/
theorem grant_grants : Grants l n j.attempt d s (grant l n j d s) := by
  generalize hu : (((s.setDelivery (some ⟨l, n, j.attempt, d⟩)).modFloor l fun f =>
    { f with order := markStage n .granted f.order, blocked := false }).send (.deliver l n j.attempt d)).useSorterStep = u
  have lane (m : LaneId) : u.lane m = if m = l then { s.lane m with floor := { (s.lane m).floor with
      order := markStage n .granted (s.lane m).floor.order, blocked := false } } else s.lane m := by
    rw [← hu]
    exact lane_modFloor l (fun f => { f with order := markStage n .granted f.order, blocked := false })
      (s.setDelivery (some ⟨l, n, j.attempt, d⟩)) m
  have parts : grant l n j d s = if (u.lane l).byStep then u.useLaneStep l else u := by
    rw [← hu]
    rfl
  have used : grant l n j d s = stepUsed l u := parts
  rw [used, stepUsed_eq]
  refine ⟨?_, ?_, ?_, ?_, fun l' hl' => ?_⟩
  · rw [← hu]
    rfl
  · rw [← hu]
    rfl
  · rw [← hu]
    rfl
  · rw [lane_usedStep, lane, if_pos rfl]
    rfl
  · unfold usedStep
    rw [lane_modLane, if_neg hl', lane, if_neg hl']

end Grant

/-! ### The look (R127, R128) -/

section Look

variable {l : LaneId} {n : Nat} {j : Job} {d : Destination} {s : State}

/-- A free sorter looks. -/
theorem sorterLook_free (h : SorterFree s) : sorterLook s =
    ((findBlocked 1 (findBlocked 0 s)).grantChoice.elim (findBlocked 1 (findBlocked 0 s)) fun x =>
      grant x.1 x.2.1 x.2.2.1 x.2.2.2 (findBlocked 1 (findBlocked 0 s))) := by
  obtain ⟨hd, hl, hh⟩ := h
  have free : s.sorter.isFree = true := by
    unfold Sorter.isFree
    rw [hd, hl]
    rcases hh with hh | hh <;> rw [hh] <;> simp
  unfold sorterLook
  rw [if_pos free]
  dsimp only
  generalize findBlocked 1 (findBlocked 0 s) = t
  cases t.grantChoice <;> rfl

/-- What both exits become. -/
theorem findBlocked_both (s : State) : BlocksOnly s (findBlocked 1 (findBlocked 0 s)) :=
  (findBlocked_only 0 s).trans (findBlocked_only 1 _)

/-- A candidate's lane is not blocked by the look. -/
theorem findBlocked_both_lane (h : Candidate s l n j d) : (findBlocked 1 (findBlocked 0 s)).lane l = s.lane l := by
  rcases lane_zero_or_one l with rfl | rfl
  · rw [findBlocked_other (by decide), findBlocked_candidate h]
  · rw [findBlocked_candidate (((findBlocked_only 0 s).candidate _ _ _ _).mpr h), findBlocked_other (by decide)]

/-- The grant of a free sorter that looks: `u` is the state once blocked exits are found. -/
theorem sorterLook_grants (hf : SorterFree s) (h : Candidate s l n j d)
    (hother : ∀ l' n' j' d', l' ≠ l → Candidate s l' n' j' d' → GrantedBefore s l l' j j') :
    ∃ u, BlocksOnly s u ∧ (∀ l n j d, Candidate s l n j d → u.lane l = s.lane l) ∧
      Grants l n j.attempt d u (sorterLook s) := by
  have only := findBlocked_both s
  have lanes : ∀ l n j d, Candidate s l n j d → (findBlocked 1 (findBlocked 0 s)).lane l = s.lane l :=
    fun _ _ _ _ hc => findBlocked_both_lane hc
  rw [sorterLook_free hf]
  generalize findBlocked 1 (findBlocked 0 s) = u at only lanes
  have sorter : u.sorter = s.sorter := by rw [only.rest]
  have choice : u.grantChoice = some (l, n, j, d) := by
    refine grantChoice_eq ((only.candidate _ _ _ _).mpr h) fun l' n' j' d' hl' hc => ?_
    unfold GrantedBefore
    rw [sorter]
    exact hother l' n' j' d' hl' ((only.candidate _ _ _ _).mp hc)
  rw [choice]
  exact ⟨u, only, lanes, grant_grants⟩

/-- With no candidate, the look finds blocked exits only. -/
theorem sorterLook_none (hf : SorterFree s) (h : ∀ l n j d, ¬ Candidate s l n j d) :
    sorterLook s = findBlocked 1 (findBlocked 0 s) := by
  have only := findBlocked_both s
  rw [sorterLook_free hf]
  generalize findBlocked 1 (findBlocked 0 s) = u at only
  rw [grantChoice_none fun l n j d hc => h l n j d ((only.candidate _ _ _ _).mp hc)]
  rfl

/-- A lane with no exit request is not found blocked. -/
theorem findBlocked_idle (h : (s.lane l).floor.exit = none) : findBlocked l s = s := by
  refine findBlocked_same fun n j hx => ?_
  rw [exitJob_eq_some_iff, h] at hx
  exact absurd hx.1 nofun

/-- One lane alone at its exit: what the look finds. -/
theorem findBlocked_both_single (h : ∀ l', l' ≠ l → (s.lane l').floor.exit = none) :
    findBlocked 1 (findBlocked 0 s) = findBlocked l s := by
  rcases lane_zero_or_one l with rfl | rfl
  · refine findBlocked_idle ?_
    rw [findBlocked_other (by decide)]
    exact h 1 (by decide)
  · rw [findBlocked_idle (h 0 (by decide))]

end Look

/-! ### AT_EXIT (R123, R170) -/

section Exit

variable {l : LaneId} {n a : Nat} {s : State}

/-- A plate at an exit that is free. -/
theorem atExit_bent (he : (s.lane l).floor.exit = none) (h : Stands s l n a .bent) :
    atExit l n a s = sorterLook (setExit l n s) := by
  unfold atExit
  rw [if_neg (by rw [he]; exact Bool.false_ne_true)]
  exact if_pos ((hasEntry_iff s l n a .bent).mpr h)

/-- A report that does not match. -/
theorem atExit_error (h : (s.lane l).floor.exit ≠ none ∨ ¬ Stands s l n a .bent ∧ ¬ Reclaimable s l n a) :
    atExit l n a s = raise (.laneProtocol (.lane l) .atExit (some (n, a))) s := by
  unfold atExit
  by_cases he : (s.lane l).floor.exit = none
  · obtain ⟨hb, hr⟩ := h.resolve_left fun hn => hn he
    rw [if_neg (by rw [he]; exact Bool.false_ne_true), if_neg fun hc => hb ((hasEntry_iff s l n a .bent).mp hc)]
    exact if_neg fun hc => hr ((reclaimable_iff s l n a).mp hc)
  · exact if_pos (Option.isSome_iff_ne_none.mpr he)

/-- The plate at its exit waits for the sorter. -/
theorem setExit_stage {x : LaneStage} (h : Stands s l n a x) :
    ∃ y ∈ ((setExit l n s).lane l).floor.order, y.job = n ∧ y.stage = .atExit := by
  obtain ⟨⟨y, hy, hn, -⟩, -⟩ := h
  refine ⟨{ y with stage := .atExit }, ?_, hn, rfl⟩
  unfold setExit
  rw [lane_modFloor, if_pos rfl]
  exact List.mem_map.mpr ⟨y, hy, if_pos hn⟩

/-- The grant of a lane whose plate has just come to its exit. -/
theorem grantedLane_setExit (l : LaneId) (n : Nat) (s : State) : grantedLane ((setExit l n s).lane l) n =
    grantedLane { s.lane l with floor := { (s.lane l).floor with exit := some n } } n := by
  have order : ((s.lane l).floor.order.map fun y => if y.job = n then { y with stage := LaneStage.atExit } else y).map
      (fun y => if y.job = n then { y with stage := LaneStage.granted } else y) =
      (s.lane l).floor.order.map fun y => if y.job = n then { y with stage := .granted } else y := by
    rw [List.map_map]
    refine List.map_congr_left fun y _ => ?_
    by_cases h : y.job = n <;> simp [h]
  unfold setExit grantedLane
  rw [lane_modFloor, if_pos rfl]
  unfold markStage
  dsimp only
  rw [order]

end Exit

/-- Settles O46: a free sorter that looks grants the lane that goes first, and AT_EXIT has it look. -/
theorem plateAtExit : Obligations.PlateAtExit := by
  unfold Obligations.PlateAtExit
  refine ⟨?_, ?_⟩
  · intro s l n j d hs hf hc hother t
    have chain : Reacts NoJob s t := sorterLook_reacts s
    obtain ⟨u, only, lanes, delivery, allowance, sent, lane, other⟩ := sorterLook_grants hf hc hother
    refine ⟨Reacts.kept chain, Reacts.ports_kept chain, Reacts.others_stay chain, delivery, allowance, ?_, ?_, ?_⟩
    · rw [sent, only.rest]
    · rw [lane, lanes _ _ _ _ hc]
    · intro l' n' j' d' hl' hc'
      rw [other l' hl', lanes _ _ _ _ hc']
  · intro l n a s hs c x error
    refine ⟨fun he => ?_, fun he hb hr => ?_, fun j he hb hj => ?_⟩
    · exact raises_of (congrArg Host.Outcome.next (atExit_error (.inl he)))
    · exact raises_of (congrArg Host.Outcome.next (atExit_error (.inr ⟨hb, hr⟩)))
    · have chain : Reacts NoJob (setExit l n.toNat s) (sorterLook (setExit l n.toNat s)) := sorterLook_reacts _
      refine raisesReacting_of (congrArg Host.Outcome.next (atExit_bent he hb)) chain
        ((raised_nil (.refl _)).tells_of (Reacts.ports_kept chain)) fun ho hexits hf => ?_
      have free : SorterFree (setExit l n.toNat s) := ⟨hf.idle, hf.lost, hf.held⟩
      have opens : ((setExit l n.toNat s).lane l).Opens := by
        unfold setExit
        rw [lane_modFloor, if_pos rfl]
        exact ho
      have exit : ((setExit l n.toNat s).lane l).floor.exit = some n.toNat := by
        unfold setExit
        rw [lane_modFloor, if_pos rfl]
      have exits : ∀ l', l' ≠ l → ((setExit l n.toNat s).lane l').floor.exit = none := by
        intro l' hl'
        unfold setExit
        rw [lane_modFloor, if_neg hl']
        exact hexits l' hl'
      have stage := setExit_stage hb
      have lone : ∀ l' n' j' d', l' ≠ l → ¬ Candidate (setExit l n.toNat s) l' n' j' d' := by
        intro l' n' j' d' hl' hc
        have none := exits l' hl'
        rw [hc.exit] at none
        cases none
      refine ⟨fun d hd => ?_, fun hd hbl => ?_⟩
      · have candidate : Candidate (setExit l n.toNat s) l n.toNat j d := ⟨opens, exit, stage, hj, hd⟩
        obtain ⟨u, only, lanes, delivery, allowance, sent, lane, -⟩ :=
          sorterLook_grants free candidate fun l' n' j' d' hl' hc' => absurd hc' (lone l' n' j' d' hl')
        refine ⟨delivery, allowance, ?_, ?_⟩
        · rw [sent, only.rest]
          rfl
        · rw [lane, lanes _ _ _ _ candidate, grantedLane_setExit]
      · have none : ∀ l' n' j' d', ¬ Candidate (setExit l n.toNat s) l' n' j' d' := by
          intro l' n' j' d' hc
          by_cases hl' : l' = l
          · subst hl'
            have number := Option.some.inj (hc.exit.symm.trans exit)
            subst number
            have job : some j' = some j := hc.job.symm.trans hj
            cases job
            exact absurd (hc.place.symm.trans hd) nofun
          · exact lone l' n' j' d' hl' hc
        have look : sorterLook (setExit l n.toNat s) = raise (.rackBlocked l n.toNat j.key)
            ((setExit l n.toNat s).modFloor l fun f => { f with blocked := true }) := by
          rw [sorterLook_none free none, findBlocked_both_single exits]
          refine findBlocked_blocks ((exitJob_eq_some_iff _ _ _ _).mpr ⟨exit, opens, stage, hj⟩) ?_ ?_
          · rw [destinationOf_eq]
            exact hd
          · unfold setExit
            rw [lane_modFloor, if_pos rfl]
            exact hbl
        have told : Told (.rackBlocked l n.toNat j.key) s (raise (.rackBlocked l n.toNat j.key)
            ((setExit l n.toNat s).modFloor l fun f => { f with blocked := true })) :=
          (told_raise _ _).since (.of_eq rfl) rfl
        rw [look]
        refine ⟨?_, ?_, told⟩
        · rw [raise_same]
          exact hf.idle
        · rw [lane_raise, lane_modFloor, if_pos rfl]

end Sys2Proof.Machine
end

section
/-! What the job table does, as a job is created, returns, fails or departs, changes tables, presses and ports alone; and
departures and spoils leave the sorter as it is, and the lanes but for their stopped gates (R50, R66). -/

namespace Sys2Proof.Machine

open State

/-! ### What changes tables, presses and ports alone -/

/-- Only the tables of pages, slots, positions and jobs, the numbers given, the presses, the colour-starved note and the
ports change. -/
def TableOnly (s t : State) : Prop :=
  t = { s with
    pages := t.pages, slots := t.slots, plan := t.plan, jobs := t.jobs, lastJob := t.lastJob
    entryCount := t.entryCount, presses := t.presses, starved := t.starved, ports := t.ports }

/-- Nothing happens. -/
theorem TableOnly.refl (s : State) : TableOnly s s := rfl

/-- One after another. -/
theorem TableOnly.trans {s t u : State} (h : TableOnly s t) (k : TableOnly t u) : TableOnly s u := by
  unfold TableOnly at h k
  rw [h] at k
  exact k

/-- A fold. -/
theorem TableOnly.foldl {α : Type} (f : State → α → State) (l : List α) (h : ∀ s, ∀ a ∈ l, TableOnly s (f s a))
    (s : State) : TableOnly s (l.foldl f s) := by
  induction l generalizing s with
  | nil => exact .refl s
  | cons a l ih =>
    exact (h s a List.mem_cons_self).trans (ih (fun s b hb => h s b (List.mem_cons_of_mem _ hb)) _)

/-- A notice. -/
theorem raise_tableOnly (n : Notice) (s : State) : TableOnly s (raise n s) := by
  rw [raise_same n s]
  rfl

/-- Judging the colour-starved condition. -/
theorem evalStarved_tableOnly (s : State) : TableOnly s (evalStarved s) := by
  have noted (b : Bool) : TableOnly s (s.setStarved b) := rfl
  unfold evalStarved
  split
  · split
    · exact .refl s
    · exact (noted true).trans (raise_tableOnly _ _)
  · exact noted false

/-- Telling the press schedule. -/
theorem tellSatisfied_tableOnly (k : PosKey) (s : State) : TableOnly s (tellSatisfied k s) := by
  obtain ⟨v, w, p, h⟩ := tellSatisfied_parts k s
  rw [h]
  rfl

/-- References that are released. -/
theorem releaseRefs_tableOnly (ks : List SlotKey) (s : State) : TableOnly s (releaseRefs ks s) := by
  obtain ⟨v, h⟩ := releaseRefs_slots ks s
  rw [h]
  rfl

/-- A live-job count that falls. -/
theorem lowerLive_tableOnly (n : Nat) (s : State) : TableOnly s (lowerLive n s) := by
  have lowered : TableOnly s (s.modLive n (· - 1)) := rfl
  unfold lowerLive
  dsimp only
  generalize s.modLive n (· - 1) = t at lowered ⊢
  split
  next r hr =>
    split
    · unfold removePage
      have freed := TableOnly.foldl (fun s k => s.dropSlot k) (slotsOfPage t n) (fun s k _ => rfl) t
      dsimp only
      generalize (slotsOfPage t n).foldl (fun s k => s.dropSlot k) t = u at freed ⊢
      have dropped : TableOnly u (u.dropPage n) := rfl
      exact (lowered.trans freed).trans (dropped.trans (raise_tableOnly _ _))
    · exact lowered
  · exact lowered

/-- A test of the need. -/
theorem needTest_tableOnly (k : PosKey) (s : State) : TableOnly s (needTest k s) := by
  cases hx : s.pos? k with
  | none =>
    have same : needTest k s = s := by unfold needTest; rw [hx]
    rw [same]
    exact .refl s
  | some x =>
    cases hn : needsJob s x with
    | false =>
      rw [needTest_clears hx hn]
      rfl
    | true =>
      by_cases hl : s.jobs.length < 768
      · obtain ⟨v, w, made⟩ := createJob_eq k x s
        rw [needTest_creates hx hn hl, made]
        refine TableOnly.trans ?_ (raise_tableOnly _ _)
        rfl
      · rw [needTest_full hx hn (Nat.not_lt.mp hl)]
        split
        · exact .refl s
        · refine TableOnly.trans ?_ (raise_tableOnly _ _)
          rfl

/-- A job that leaves the table. -/
theorem dropJob_tableOnly (n : Nat) (s : State) : TableOnly s (s.dropJob n) := rfl

/-- The first steps of a departure. -/
theorem departCore_tableOnly (n : Nat) (terminal : JobState) (s : State) : TableOnly s (departCore n terminal s) := by
  unfold departCore
  split
  · exact .refl s
  next j hj =>
    dsimp only
    have q1 : TableOnly s (s.modJob n fun x => { x with state := terminal }) := rfl
    generalize s.modJob n (fun x => { x with state := terminal }) = s1 at q1 ⊢
    have q2 : TableOnly s (if j.state = .queued then evalStarved s1 else s1) := by
      split
      · exact q1.trans (evalStarved_tableOnly s1)
      · exact q1
    generalize (if j.state = .queued then evalStarved s1 else s1) = s2 at q2 ⊢
    have q3 : TableOnly s (if j.state.holdsRefs then releaseRefs j.slots s2 else s2) := by
      split
      · exact q2.trans (releaseRefs_tableOnly _ s2)
      · exact q2
    generalize (if j.state.holdsRefs then releaseRefs j.slots s2 else s2) = s3 at q3 ⊢
    have q4 : TableOnly s ((j.pages.map Prod.fst).foldl (fun s p => lowerLive p s) s3) :=
      q3.trans (.foldl _ _ (fun s p _ => lowerLive_tableOnly p s) s3)
    generalize (j.pages.map Prod.fst).foldl (fun s p => lowerLive p s) s3 = s4 at q4 ⊢
    have ends (u : State) (hu : TableOnly s u) : TableOnly s ((j.pages.map Prod.fst).foldl
        (fun s p => tellAll (s.positionsNaming p) s)
        (tellSatisfied j.key ((raise (.jobEnded n j.key terminal j.lastFault) u).dropJob n))) := by
      have told := (hu.trans (raise_tableOnly (.jobEnded n j.key terminal j.lastFault) u)).trans
        (dropJob_tableOnly n _)
      refine (told.trans (tellSatisfied_tableOnly j.key _)).trans (.foldl _ _ (fun s p _ => ?_) _)
      exact .foldl _ _ (fun s k _ => tellSatisfied_tableOnly k s) s
    refine ends _ ?_
    have vacated : TableOnly s (s4.modWork j.key fun w => { w with current := none }) := q4.trans (t := s4) rfl
    have tested := (vacated.trans (needTest_tableOnly j.key _)).trans (evalStarved_tableOnly _)
    split <;> split
    · exact tested
    · exact q4
    · exact tested
    · exact q4

/-- References that are taken. -/
theorem takeRefs_tableOnly (ks : List SlotKey) (s : State) : TableOnly s (takeRefs ks s) :=
  TableOnly.foldl (fun s k => takeRef k s) ks (fun _ _ _ => rfl) s

/-- References that are taken again. -/
theorem retakeRefs_tableOnly (j : Job) (s : State) : TableOnly s (retakeRefs j s) := by
  unfold retakeRefs
  split
  · exact .refl s
  · exact takeRefs_tableOnly _ s

/-- A job that fails. -/
theorem failJob_tableOnly (n : Nat) (s : State) : TableOnly s (failJob n s) := by
  unfold failJob
  split
  · exact .refl s
  next j hj =>
    have failed : TableOnly s ((retakeRefs j s).modJob n fun x => { x with state := .failed }) :=
      (retakeRefs_tableOnly j s).trans rfl
    dsimp only
    split
    · exact failed.trans (raise_tableOnly _ _)
    · exact failed

/-- What is decided of a spoiled plate. -/
theorem spoilDecision_tableOnly (n : Nat) (s : State) : TableOnly s (spoilDecision n s) := by
  unfold spoilDecision
  split
  · exact .refl s
  next j hj =>
    have queued : TableOnly s (enterQueue n (j.attempt + 1) (retakeRefs j s)) :=
      (retakeRefs_tableOnly j s).trans rfl
    dsimp only
    split
    · split
      · exact queued.trans (raise_tableOnly _ _)
      · exact queued
    · exact failJob_tableOnly n s

/-- A job that returns to its queue. -/
theorem requeue_tableOnly (n a : Nat) (why : RequeueReason) (f : Option FaultRecord) (s : State) :
    TableOnly s (requeue n a why f s) := by
  unfold requeue
  split
  · exact .refl s
  next j hj =>
    have queued : TableOnly s (enterQueue n a (retakeRefs j s)) := (retakeRefs_tableOnly j s).trans rfl
    exact queued.trans (raise_tableOnly _ _)

/-! ### What leaves the lanes and the sorter alone -/

/-- The sorter stays, and each lane but for its stopped gate. -/
structure Unmoved (s t : State) : Prop where
  sorter : t.sorter = s.sorter
  lane : ∀ l, t.lane l = { s.lane l with gates := { (s.lane l).gates with stopped := (t.lane l).gates.stopped } }

/-- The sorter and the lanes are the same. -/
theorem Unmoved.of_eq {s t : State} (hs : t.sorter = s.sorter) (hl : t.lanes = s.lanes) : Unmoved s t := by
  refine ⟨hs, fun l => ?_⟩
  have same : t.lane l = s.lane l := congrArg (fun v => v.get l) hl
  rw [same]

/-- Nothing happens. -/
theorem Unmoved.refl (s : State) : Unmoved s s := .of_eq rfl rfl

/-- One after another. -/
theorem Unmoved.trans {s t u : State} (h : Unmoved s t) (k : Unmoved t u) : Unmoved s u where
  sorter := k.sorter.trans h.sorter
  lane l := by
    have second := k.lane l
    rw [h.lane l] at second
    exact second

/-- A fold. -/
theorem Unmoved.foldl {α : Type} (f : State → α → State) (l : List α) (h : ∀ s, ∀ a ∈ l, Unmoved s (f s a)) (s : State) :
    Unmoved s (l.foldl f s) := by
  induction l generalizing s with
  | nil => exact .refl s
  | cons a l ih =>
    exact (h s a List.mem_cons_self).trans (ih (fun s b hb => h s b (List.mem_cons_of_mem _ hb)) _)

/-- Where tables, presses and ports alone change. -/
theorem TableOnly.unmoved {s t : State} (h : TableOnly s t) : Unmoved s t := by
  rw [h]
  exact .of_eq rfl rfl

/-- A notice. -/
theorem raise_unmoved (n : Notice) (s : State) : Unmoved s (raise n s) := (raise_tableOnly n s).unmoved

/-- Some notices. -/
theorem raiseAll_unmoved (ns : List Notice) (s : State) : Unmoved s (raiseAll ns s) := by
  rw [raiseAll_same]
  exact .of_eq rfl rfl

/-- Serving the engines. -/
theorem serve_unmoved {s : State} (hs : JobsOrdered s) : Unmoved s (serve s) :=
  ⟨(serve_kept hs).1.sorter, (serve_kept hs).1.lanes⟩

/-- Judging the colour-starved condition. -/
theorem evalStarved_unmoved (s : State) : Unmoved s (evalStarved s) := (evalStarved_tableOnly s).unmoved

/-- Telling the press schedule. -/
theorem tellSatisfied_unmoved (k : PosKey) (s : State) : Unmoved s (tellSatisfied k s) :=
  (tellSatisfied_tableOnly k s).unmoved

/-- Serving the deferred positions. -/
theorem serveFrom_unmoved (l : List PosKey) {s : State} (hs : JobsOrdered s) : Unmoved s (serveFrom serve l s) := by
  induction l generalizing s with
  | nil => exact .refl s
  | cons k l ih =>
    have tested := (needTest_tableOnly k s).unmoved
    have ordered := Reacts.jobs_ordered hs (needTest_reacts (D := NoJob) k s)
    have served := serve_unmoved ordered
    have again := Reacts.jobs_ordered ordered (serve_reacts (D := NoJob) ordered)
    unfold serveFrom
    dsimp only
    split
    · split
      · exact (tested.trans served).trans (ih again)
      · exact tested.trans served
    · exact tested.trans (ih ordered)

/-- A departure. -/
theorem depart_unmoved (n : Nat) (terminal : JobState) {s : State} (hs : JobsOrdered s)
    (ht : terminal ≠ .uncertain := by decide) : Unmoved s (depart n terminal s) := by
  have core := (departCore_tableOnly n terminal s).unmoved
  have chain : Reacts AnyJob s (departCore n terminal s) := departCore_reacts n terminal s ht
  have ordered := Reacts.jobs_ordered hs chain
  unfold depart departBy serveDeferred
  generalize departCore n terminal s = u at core ordered ⊢
  have after : Reacts AnyJob u (serveFrom serve (deferredOrder u) u) :=
    serveFrom_reacts (fun _ h => serve_reacts h) _ ordered
  exact (core.trans (serveFrom_unmoved _ ordered)).trans (serve_unmoved (Reacts.jobs_ordered ordered after))

/-- A spoil. -/
theorem spoil_unmoved (n : Nat) (c : FaultCause) (p : FaultParam) {s : State} (hs : JobsOrdered s) :
    Unmoved s (spoil n c p s) := by
  have recorded : Unmoved s (recordFault n c p s) := .of_eq rfl rfl
  have ordered : JobsOrdered (recordFault n c p s) :=
    Reacts.jobs_ordered hs (recordFault_reacts (D := AnyJob) n c p s)
  unfold spoil spoilBy
  dsimp only
  split
  · exact recorded
  · split
    · exact recorded.trans (depart_unmoved n .discarded ordered)
    · exact recorded.trans (spoilDecision_tableOnly n _).unmoved

end Sys2Proof.Machine
end

section
/-! The sorter's reports, its link loss and its restoration (R129 to R131). -/

namespace Sys2Proof.Machine

open State

variable {D : Nat → Prop}

/-! ### The end of a delivery (R129) -/

/-- The sorter is no longer busy, its lane is the last served and has no exit request. -/
def undelivered (l : LaneId) (s : State) : State :=
  ((s.setDelivery none).setServed l).modFloor l fun f => { f with exit := none }

/-- The sorter then looks again, and the engines are served. -/
theorem endDelivery_eq (l : LaneId) (s : State) : endDelivery l s = serve (sorterLook (undelivered l s)) := rfl

/-- The job's entry has left the order too. -/
theorem delivered_eq (d : Delivery) (s : State) : delivered d s = undelivered d.lane (dropEntry d.lane d.job s) := by
  have lanes : (delivered d s).lanes = (undelivered d.lane (dropEntry d.lane d.job s)).lanes := by
    refine Eq.trans ?_ (vmod_vmod s.lanes d.lane (fun x => { x with floor :=
      { x.floor with order := x.floor.order.filter fun y => y.job ≠ d.job } }) fun x => { x with floor :=
      { x.floor with exit := none } }).symm
    rfl
  exact congrArg (fun v => ({ undelivered d.lane (dropEntry d.lane d.job s) with lanes := v } : State)) lanes

/-- A lane then. -/
theorem lane_undelivered (l m : LaneId) (s : State) : (undelivered l s).lane m =
    if m = l then { s.lane m with floor := { (s.lane m).floor with exit := none } } else s.lane m :=
  lane_modFloor l _ _ m

/-- What is kept before the delivery ends is kept beside its end, where the lanes and the sorter did not move. -/
theorem KeptByReacting.undelivered {a b : State} (h : KeptByReacting a b) (q : Unmoved a b) (l : LaneId) :
    KeptByReacting (undelivered l a) (undelivered l b) :=
  { h with
    served := rfl
    busy := nofun
    sorterIdle := fun _ => by
      show ({ b.sorter with delivery := none, lastServed := some l } : Sorter) = { a.sorter with delivery := none, lastServed := some l }
      rw [q.sorter]
    lanes := fun m => by
      rw [lane_undelivered, lane_undelivered, q.lane m]
      split <;> exact ⟨rfl, rfl, rfl, rfl, rfl, rfl, rfl, rfl, fun _ => rfl⟩
    running := fun hl => by
      obtain ⟨line, stopped⟩ := h.running hl
      refine ⟨line, fun m => ?_⟩
      rw [lane_undelivered, lane_undelivered]
      split <;> exact stopped m }

/-- A delivery ends: the look and the serving that follow. -/
theorem undelivered_reacts (l : LaneId) {b : State} (hb : JobsOrdered b) :
    Reacts D (undelivered l b) (endDelivery l b) := by
  have ordered : JobsOrdered (undelivered l b) := hb
  rw [endDelivery_eq]
  exact Reacts.then ordered (sorterLook_reacts _) serve_reacts

section End

variable {c : Instr} {d : Delivery} {ns : List Notice} {s a b : State} {P : State → Prop}

/-- What a delivery's end does, with what happened at it before (`b` is the state then, `a` the state with the plate out
of its lane). -/
theorem raisesReacting_delivered (hexec : exec c s = .next (endDelivery d.lane b)) (ha : JobsOrdered a)
    (h : Reacts D a b) (q : Unmoved a b)
    (ht : PortsKept b (endDelivery d.lane b) → Tells ns (undelivered d.lane a) (endDelivery d.lane b))
    (hP : Reacts NoJob (undelivered d.lane b) (endDelivery d.lane b) → P (endDelivery d.lane b)) :
    RaisesReacting c ns s (undelivered d.lane a) D P := by
  have ordered := Reacts.jobs_ordered ha h
  have after : Reacts NoJob (undelivered d.lane b) (endDelivery d.lane b) := undelivered_reacts d.lane ordered
  have kept : PortsKept (undelivered d.lane b) (endDelivery d.lane b) := Reacts.ports_kept after
  have early : PortsKept (undelivered d.lane a) (undelivered d.lane b) := h.ports_kept
  refine ⟨_, hexec, (KeptByReacting.undelivered h.kept q d.lane).trans (Reacts.kept after),
    early.trans kept, ht kept, fun n j hn hj => ?_, hP after⟩
  obtain ⟨j', hj', first⟩ := Reacts.job_stays h hn hj
  obtain ⟨j'', hj'', second⟩ := Reacts.job_stays after (n := n) (j := j') not_false hj'
  exact ⟨j'', hj'', first.trans second⟩

end End

/-! ### A position that becomes satisfied (R27, R140, R141) -/

/-- The press then: its count falls by one, and it has the state that the counts give it unless it is RUNNING; a press
that becomes READY raises its notice. -/
theorem tellSatisfied_satisfied {k : PosKey} {x : Position} {v : State} (hx : v.pos? k = some x)
    (hsat : x.work.satisfied = false) (hnow : v.satisfied x = true) :
    let y := v.press k.press
    let st := if y.state = .running then .running else countedState y.positions (y.unsatisfied - 1)
    (tellSatisfied k v).press k.press = { y with unsatisfied := y.unsatisfied - 1, state := st } ∧
    (y.state ≠ .ready → st = .ready → Told (.pressReady k.press y.edition y.positions) v (tellSatisfied k v)) := by
  intro y st
  have told : tellSatisfied k v = evalPress k.press (toldOf k true v) := by
    rw [tellSatisfied_differs hx (by rw [hsat, hnow]; exact Bool.false_ne_true), hnow]
  have counted : (toldOf k true v).press k.press = { y with unsatisfied := y.unsatisfied - 1 } := by
    unfold toldOf
    rw [press_setUnsatisfied, if_pos rfl]
    rfl
  rw [told]
  constructor
  · rw [press_evalPress, counted]
    by_cases hr : y.state = .running <;> simp [hr, st]
  · intro hnot hready
    have notrunning : y.state ≠ .running := by
      intro hr
      rw [show st = .running from if_pos hr] at hready
      cases hready
    have count : countedState y.positions (y.unsatisfied - 1) = .ready := (if_neg notrunning).symm.trans hready
    have notice : pressNotice k.press ((toldOf k true v).press k.press) =
        [.pressReady k.press y.edition y.positions] := by
      rw [counted]
      simp [pressNotice, notrunning, hnot, stateOfCounts_eq_countedState, count]
    rw [evalPress_eq, notice, raiseAll, List.foldl_cons, List.foldl_nil]
    generalize hu : (toldOf k true v).setPressState k.press (pressStateOf ((toldOf k true v).press k.press)) = u
    have desk : SameDesk v u := by
      rw [← hu]
      exact ⟨rfl, rfl⟩
    exact (told_raise _ u).since (.of_eq desk.1) desk.2

/-! ### What a report is matched with (R129, R130) -/

section Match

variable {n a : Nat} {d : Delivery} {dest : Destination} {s : State}

/-- SORTED of the delivery in progress. -/
theorem sorted_matches (hd : s.sorter.delivery = some d) (hn : d.job = n) (ha : d.attempt = a) :
    sorted n a d.dest s = endDelivery d.lane (placePlate d s) := by
  unfold sorted
  rw [hd]
  exact if_pos ⟨hn, ha, rfl⟩

/-- SORTED of any other. -/
theorem sorted_error (h : ∀ d, s.sorter.delivery = some d → d ≠ ⟨d.lane, n, a, dest⟩) :
    sorted n a dest s = raise (.laneProtocol .sorter .sorted (some (n, a))) s := by
  unfold sorted
  split
  · rfl
  next d hd =>
    refine if_neg fun hc => h d hd ?_
    obtain ⟨rfl, rfl, rfl⟩ := hc
    rfl

/-- SORT_FAULT of the delivery in progress. -/
theorem sortFault_matches (hd : s.sorter.delivery = some d) (hn : d.job = n) (ha : d.attempt = a) :
    sortFault n a s = losePlate d s := by
  unfold sortFault
  rw [hd]
  exact if_pos ⟨hn, ha⟩

/-- SORT_FAULT of any other. -/
theorem sortFault_error (h : ∀ d, s.sorter.delivery = some d → d.job = n → d.attempt ≠ a) :
    sortFault n a s = raise (.laneProtocol .sorter .sortFault (some (n, a))) s := by
  unfold sortFault
  split
  · rfl
  next d hd => exact if_neg fun hc => h d hd hc.1 hc.2

end Match

/-! ### A plate that is lost (R130, R131) -/

/-- The plate is spoiled and the delivery ends. -/
theorem losePlate_spoils {c : Instr} {d : Delivery} {j : Job} {s u : State} (hexec : exec c s = .next (losePlate d u))
    (hu : JobsOrdered u) (hj : u.job? d.job = some j) (hjobs : u.jobs = s.jobs) (hentry : s.entryCount = u.entryCount)
    (hclock : u.clock = s.clock) :
    RaisesReacting c (spoilNotices d.job ⟨.sortFault, .lane d.lane, s.clock⟩ j) s (delivered d u) (fun k => k = d.job)
      (Spoiled d.job ⟨.sortFault, .lane d.lane, s.clock⟩ s) := by
  rw [delivered_eq]
  have dropped : JobsOrdered (dropEntry d.lane d.job u) := hu
  have job : (dropEntry d.lane d.job u).job? d.job = some j := hj
  have clock : (dropEntry d.lane d.job u).clock = s.clock := hclock
  have since : ∀ t, Spoiled d.job ⟨.sortFault, .lane d.lane, s.clock⟩ (dropEntry d.lane d.job u) t →
      Spoiled d.job ⟨.sortFault, .lane d.lane, s.clock⟩ s t :=
    fun t h => h.since (job?_of_jobs hjobs d.job).symm hentry.le
  have entry : s.entryCount ≤ (dropEntry d.lane d.job u).entryCount := hentry.le
  unfold losePlate at hexec
  generalize dropEntry d.lane d.job u = a at hexec dropped job clock since entry ⊢
  have spoils : Reacts (fun k => k = d.job) a (spoil d.job .sortFault (.lane d.lane) a) := spoil_reacts _ _ _ dropped rfl
  have judged : Reacts NoJob (spoil d.job .sortFault (.lane d.lane) a) _ := evalStarved_reacts _
  have spoiled : Spoiled d.job ⟨.sortFault, .lane d.lane, a.clock⟩ a (spoil d.job .sortFault (.lane d.lane) a) :=
    spoilBy_spoiled (fun s h => serve_reacts h) d.job .sortFault (.lane d.lane) dropped
  have unmoved := (spoil_unmoved d.job .sortFault (.lane d.lane) dropped).trans (evalStarved_unmoved _)
  have tells {v : State} (hv : PortsKept (spoil d.job .sortFault (.lane d.lane) a) v) := spoil_tells dropped job hv
  rw [clock] at spoiled tells
  generalize spoil d.job .sortFault (.lane d.lane) a = b at hexec spoils judged spoiled unmoved tells
  refine raisesReacting_delivered hexec dropped (spoils.trans (judged.widen fun _ h => h.elim)) unmoved ?_ ?_
  · exact fun kept => tells (judged.ports_kept.trans kept)
  · have later := (entry.trans (Reacts.entry_le spoils)).trans (Reacts.entry_le judged)
    have mid := (since _ spoiled).stays (entry.trans (Reacts.entry_le spoils)) judged not_false
    generalize evalStarved b = v at later mid
    intro after
    have same : Spoiled d.job ⟨.sortFault, .lane d.lane, s.clock⟩ s (undelivered d.lane v) := mid
    exact same.stays later after not_false

/-! ### A plate that is placed (R129) -/

/-- The press schedule does not change as the sorter looks. -/
theorem presses_sorterLook (s : State) : (sorterLook s).presses = s.presses := by
  have blocked (l : LaneId) (s : State) : (findBlocked l s).presses = s.presses := by rw [(findBlocked_only l s).rest]
  have granted (l : LaneId) (n : Nat) (j : Job) (d : Destination) (s : State) : (grant l n j d s).presses = s.presses := by
    unfold grant
    dsimp only
    split <;> rfl
  have both := (blocked 1 (findBlocked 0 s)).trans (blocked 0 s)
  unfold sorterLook
  split
  · dsimp only
    split
    · exact (granted _ _ _ _ _).trans both
    · exact both
  · rfl

/-- Nor as a delivery ends. -/
theorem press_endDelivery (l : LaneId) {s : State} (hs : JobsOrdered s) : (endDelivery l s).press = s.press := by
  have undone : JobsOrdered (undelivered l s) := hs
  have looked : JobsOrdered (sorterLook (undelivered l s)) :=
    Reacts.jobs_ordered undone (sorterLook_reacts (D := NoJob) _)
  have same : (endDelivery l s).presses = s.presses := by
    rw [endDelivery_eq, (serve_kept looked).1.presses, presses_sorterLook]
    rfl
  unfold State.press
  rw [same]

/-- Two notices. -/
theorem raiseAll_pair (m n : Notice) (s : State) : raiseAll [m, n] s = raise n (raise m s) := rfl

/-- What is raised of a plate that is placed, and who is told. -/
def placed (n : Nat) (j : Job) (place : PlatePlace) (s : State) : State :=
  if j.superseded then raiseAll [.plateRacked n j.key place true, .pullRequired n j.key place] s
  else tellSatisfied j.key (raise (.plateRacked n j.key place false) s)

/-- A plate that is placed. -/
theorem racked_eq (l : LaneId) (n : Nat) (j : Job) (place : PlatePlace) (s : State) :
    racked l n j place s = placed n j place (dropEntry l n (s.modJob n fun x => { x with state := .racked })) := by
  unfold racked placed
  dsimp only
  generalize dropEntry l n (s.modJob n fun x => { x with state := .racked }) = a
  cases j.superseded with
  | true => exact (raiseAll_pair _ _ a).symm
  | false => exact if_neg Bool.false_ne_true

section Rack

variable {c : Instr} {d : Delivery} {j i : Job} {place : PlatePlace} {s a : State}

/-- A superseded plate is to be pulled. -/
theorem placed_superseded {P : State → Prop} (hexec : exec c s = .next (endDelivery d.lane (placed d.job j place a)))
    (ha : JobsOrdered a) (hsup : j.superseded = true) (hP : ∀ t, P t) :
    RaisesReacting c [.plateRacked d.job j.key place true, .pullRequired d.job j.key place] s (undelivered d.lane a)
      (fun _ => False) P := by
  have parts : placed d.job j place a =
      raiseAll [.plateRacked d.job j.key place true, .pullRequired d.job j.key place] a := if_pos hsup
  rw [parts] at hexec
  have undone : SameDesk (undelivered d.lane a) a := .refl a
  have raised := raised_all [.plateRacked d.job j.key place true, .pullRequired d.job j.key place] a
  have chain : Reacts (fun _ => False) a
      (raiseAll [.plateRacked d.job j.key place true, .pullRequired d.job j.key place] a) := raiseAll_reacts _ a
  have unmoved := raiseAll_unmoved [.plateRacked d.job j.key place true, .pullRequired d.job j.key place] a
  generalize raiseAll [.plateRacked d.job j.key place true, .pullRequired d.job j.key place] a = b
    at hexec raised chain unmoved
  exact raisesReacting_delivered hexec ha chain unmoved (fun kept => (Raised.after undone raised).tells_of kept)
    fun _ => hP _

/-- What the press of a plate that is not superseded becomes. -/
def RackedAt (n : Nat) (j : Job) (s t : State) : Prop :=
  ∀ y, s.pos? j.key = some y → y.work.current = some n → y.work.satisfied = false →
    let x := s.press j.press
    let st := if x.state = .running then .running else countedState x.positions (x.unsatisfied - 1)
    t.press j.press = { x with unsatisfied := x.unsatisfied - 1, state := st } ∧
    (x.state ≠ .ready → st = .ready → Told (.pressReady j.press x.edition x.positions) s t)

/-- A plate that is not superseded satisfies its position. -/
theorem placed_current (hexec : exec c s = .next (endDelivery d.lane (placed d.job j place a)))
    (ha : JobsOrdered a) (hsup : j.superseded = false) (hjob : a.job? d.job = some i) (hi : i.state = .racked)
    (hdesk : SameDesk s a) (hpress : a.press = s.press) (hplan : a.plan = s.plan) :
    RaisesReacting c [.plateRacked d.job j.key place false] s (undelivered d.lane a)
      (fun _ => False) (RackedAt d.job j s) := by
  have parts : placed d.job j place a = tellSatisfied j.key (raise (.plateRacked d.job j.key place false) a) :=
    if_neg (by rw [hsup]; exact Bool.false_ne_true)
  rw [parts] at hexec
  have undone : SameDesk (undelivered d.lane a) a := .refl a
  have raised := raised_one (.plateRacked d.job j.key place false) a
  have chain : Reacts NoJob a (raise (.plateRacked d.job j.key place false) a) := raise_reacts _ a
  have keeps : PortsKept s (raise (.plateRacked d.job j.key place false) a) :=
    (PortsKept.of_eq hdesk.1).trans (Reacts.ports_kept chain)
  have clock : (raise (.plateRacked d.job j.key place false) a).clock = s.clock :=
    (Reacts.kept chain).clock.trans hdesk.2
  have unmoved := raise_unmoved (.plateRacked d.job j.key place false) a
  have job := (job?_raise (.plateRacked d.job j.key place false) a d.job).trans hjob
  have press := (funext (press_raise (.plateRacked d.job j.key place false) a)).trans hpress
  have plan := (plan_raise (.plateRacked d.job j.key place false) a).trans hplan
  generalize raise (.plateRacked d.job j.key place false) a = v at hexec raised chain keeps clock unmoved job press plan
  have tells : Reacts NoJob v (tellSatisfied j.key v) := tellSatisfied_reacts _ v
  have ordered := Reacts.jobs_ordered ha (chain.trans tells)
  refine raisesReacting_delivered hexec ha (chain.trans tells) (unmoved.trans (tellSatisfied_unmoved _ v))
    (fun kept => (Raised.after undone raised).tells_of ((Reacts.ports_kept tells).trans kept))
    fun after y hy hc hsat => ?_
  have place : v.pos? j.key = some y := (pos?_of_plan plan).trans hy
  have now : v.satisfied y = true := by
    rw [State.satisfied_eq_satisfies]
    unfold satisfies
    rw [hc, Option.bind_some, job]
    simp [hi]
  obtain ⟨counted, told⟩ := tellSatisfied_satisfied place hsat now
  have kept : PortsKept (tellSatisfied j.key v) (endDelivery d.lane (tellSatisfied j.key v)) := after.ports_kept
  rw [press] at counted told
  rw [press_endDelivery d.lane ordered]
  exact ⟨counted, fun hnot hready => ((told hnot hready).since keeps clock).kept kept⟩

/-- A plate that is placed: `u` is the state with the plate in its place. -/
theorem racked_reports {u : State} (hexec : exec c s = .next (endDelivery d.lane (racked d.lane d.job j place u)))
    (hu : JobsOrdered u) (hj : u.job? d.job = some j) (hdesk : SameDesk s u) (hpress : u.press = s.press)
    (hplan : u.plan = s.plan) :
    RaisesReacting c
      (.plateRacked d.job j.key place j.superseded :: if j.superseded then [.pullRequired d.job j.key place] else [])
      s (delivered d (u.modJob d.job fun j => { j with state := .racked })) (fun _ => False)
      fun t => j.superseded = false → RackedAt d.job j s t := by
  have job : (u.modJob d.job fun j => { j with state := .racked }).job? d.job = some { j with state := .racked } := by
    rw [job?_modJob, if_pos rfl, hj]
    rfl
  have ordered : JobsOrdered (u.modJob d.job fun j => { j with state := .racked }) := 
    ordered_tmod (rank := id) d.job (fun j : Job => { j with state := .racked }) hu
  rw [delivered_eq]
  rw [racked_eq] at hexec
  cases hsup : j.superseded with
  | true => exact placed_superseded hexec ordered hsup fun _ h => absurd h nofun
  | false =>
    obtain ⟨t, next, kept, ports, tells, others, racked⟩ :=
      placed_current hexec ordered hsup (i := { j with state := .racked }) job rfl hdesk hpress hplan
    exact ⟨t, next, kept, ports, tells, others, fun _ => racked⟩

end Rack

section Place

variable {d : Delivery} {j : Job} {s : State}

/-- A plate for a rack slot. -/
theorem placePlate_slot {p : PressId} {q : PosId} (hj : s.job? d.job = some j) (h : d.dest = .rackSlot p q) :
    placePlate d s = racked d.lane d.job j .rackSlot (s.setRack ⟨p, q⟩ (s.rack ⟨p, q⟩ ++ [d.job])) := by
  unfold placePlate
  rw [hj, h]

/-- A plate for a shelf. -/
theorem placePlate_shelf {p : PressId} (hj : s.job? d.job = some j) (h : d.dest = .shelf p) :
    placePlate d s = racked d.lane d.job j .shelf (s.setShelf p (s.shelf p ++ [(d.job, j.pos)])) := by
  unfold placePlate
  rw [hj, h]

/-- A plate for the bin. -/
theorem placePlate_bin (hj : s.job? d.job = some j) (h : d.dest = .rejectBin) :
    placePlate d s = depart d.job .discarded (dropEntry d.lane d.job s) := by
  unfold placePlate
  rw [hj, h]

end Place

/-- A superseded plate that goes to the bin ends its job. -/
theorem binned {c : Instr} {d : Delivery} {s : State}
    (hexec : exec c s = .next (endDelivery d.lane (depart d.job .discarded (dropEntry d.lane d.job s))))
    (hs : JobsOrdered s) : RaisesReacting c [] s (delivered d s) (fun k => k = d.job) (Ended d.job s) := by
  have ordered : JobsOrdered (dropEntry d.lane d.job s) := hs
  have since : ∀ t, Ended d.job (dropEntry d.lane d.job s) t → Ended d.job s t := fun t h => h.since le_rfl
  have entry : s.entryCount ≤ (dropEntry d.lane d.job s).entryCount := le_rfl
  rw [delivered_eq]
  generalize dropEntry d.lane d.job s = a at hexec ordered since entry ⊢
  have chain : Reacts (fun k => k = d.job) a (depart d.job .discarded a) := depart_reacts _ _ ordered (by decide) rfl
  have unmoved := depart_unmoved d.job .discarded ordered
  have ended := depart_ended d.job .discarded ordered
  generalize depart d.job .discarded a = b at hexec chain unmoved ended
  have undone : SameDesk (undelivered d.lane a) a := .refl a
  have later := entry.trans (Reacts.entry_le chain)
  refine raisesReacting_delivered hexec ordered chain unmoved
    (fun kept => (raised_nil undone).tells_of ((Reacts.ports_kept chain).trans kept)) fun after => ?_
  have same : Ended d.job s (undelivered d.lane b) := since _ ended
  exact Reacts.ended after not_false later same

/-- Settles O47: a delivery ends with its plate in its place, in the bin or lost, and what became of the plate is told. -/
theorem sorterReported : Obligations.SorterReported := by
  refine ⟨fun n a s hs => ⟨fun d j hd hn ha hj => ?_, fun dest h => ?_, fun h => ?_⟩, fun s hs => ⟨fun hd => ?_,
    fun d j hd hj => ?_, ?_⟩⟩
  · rw [← hn] at hj ⊢
    intro racked
    have reported : exec (.sorted n a d.dest) s = .next (endDelivery d.lane (placePlate d s)) :=
      congrArg Host.Outcome.next (sorted_matches hd hn ha)
    refine ⟨fun p q hdest => ?_, fun p hdest => ?_, fun hdest => ?_, ?_⟩
    · rw [placePlate_slot hj hdest] at reported
      exact racked_reports (u := s.setRack ⟨p, q⟩ (s.rack ⟨p, q⟩ ++ [d.job])) reported hs.jobs hj (.refl s) rfl rfl
    · rw [placePlate_shelf hj hdest] at reported
      exact racked_reports (u := s.setShelf p (s.shelf p ++ [(d.job, j.pos)])) reported hs.jobs hj (.refl s) rfl rfl
    · rw [placePlate_bin hj hdest] at reported
      exact binned reported hs.jobs
    · exact losePlate_spoils (congrArg Host.Outcome.next (sortFault_matches hd hn ha)) hs.jobs hj rfl rfl rfl
  · exact raises_of (congrArg Host.Outcome.next (sorted_error h))
  · exact raises_of (congrArg Host.Outcome.next (sortFault_error h))
  · have none : (s.modSorter fun x => { x with lost := true }).sorter.delivery = none := hd
    refine congrArg Host.Outcome.next ?_
    unfold sorterLinkLoss
    dsimp only
    rw [none]
  · have some : (s.modSorter fun x => { x with lost := true }).sorter.delivery = some d := hd
    have loses : sorterLinkLoss s = losePlate d (s.modSorter fun x => { x with lost := true }) := by
      unfold sorterLinkLoss
      dsimp only
      rw [some]
    exact losePlate_spoils (congrArg Host.Outcome.next loses) hs.jobs hj rfl rfl rfl
  · have chain : Reacts (fun _ => False) (s.modSorter fun x => { x with lost := false })
        (sorterLook (s.modSorter fun x => { x with lost := false })) := sorterLook_reacts _
    exact raisesReacting_of rfl chain ((raised_nil (.refl _)).tells_of (Reacts.ports_kept chain)) trivial

end Sys2Proof.Machine
end

section
/-! PULL_CONFIRM (R137). -/

namespace Sys2Proof.Machine

open State

variable {D : Nat → Prop}

/-! ### Reactions between which plates leave their places -/

/-- A reaction, or a change of a rack slot or a shelf. -/
inductive PullStep (D : Nat → Prop) : State → State → Prop
  | react {s t : State} (h : ReactStep D s t) : PullStep D s t
  | rack (s : State) (k : PosKey) (l : List Nat) : PullStep D s (s.setRack k l)
  | shelf (s : State) (p : PressId) (l : List (Nat × PosId)) : PullStep D s (s.setShelf p l)

/-- A chain of them. -/
abbrev Pulls (D : Nat → Prop) : State → State → Prop := Relation.ReflTransGen (PullStep D)

/-- Reactions are such a chain. -/
theorem Reacts.pulls {s t : State} (h : Reacts D s t) : Pulls D s t :=
  Relation.ReflTransGen.mono (p := PullStep D) (fun _ _ k => PullStep.react k) _ _ h

section Chain

variable {s t : State}

/-- The job table stays in order. -/
theorem Pulls.jobs_ordered (hs : JobsOrdered s) (h : Pulls D s t) : JobsOrdered t := by
  induction h with
  | refl => exact hs
  | tail _ step ih =>
    cases step with
    | react h => exact h.jobs_ordered ih
    | _ => exact ih

/-- No entry number is given back. -/
theorem Pulls.entry_le (h : Pulls D s t) : s.entryCount ≤ t.entryCount := by
  induction h with
  | refl => exact le_rfl
  | tail _ step ih =>
    cases step with
    | react h => exact ih.trans h.entry_le
    | _ => exact ih

/-- The ports are kept. -/
theorem Pulls.ports_kept (h : Pulls D s t) : PortsKept s t := by
  induction h with
  | refl => exact .refl _
  | tail _ step ih =>
    cases step with
    | react h => exact ih.trans h.ports_kept
    | _ => exact ih

/-- The other jobs stay. -/
theorem Pulls.job_stays (h : Pulls D s t) {n : Nat} {j : Job} (hn : ¬ D n) (hj : s.job? n = some j) :
    ∃ j', t.job? n = some j' ∧ JobStays j j' := by
  induction h with
  | refl => exact ⟨j, hj, .refl j⟩
  | tail _ step ih =>
    obtain ⟨i, hi, first⟩ := ih
    cases step with
    | react h =>
      obtain ⟨i', hi', second⟩ := h.job_stays hn hi
      exact ⟨i', hi', first.trans second⟩
    | _ => exact ⟨i, hi, first⟩

/-- A job that has ended stays so. -/
theorem Pulls.ended {b : State} (h : Pulls D s t) {n : Nat} (hn : ¬ D n) (hb : b.entryCount ≤ s.entryCount)
    (he : Ended n b s) : Ended n b t := by
  induction h with
  | refl => exact he
  | tail before step ih =>
    cases step with
    | react h => exact h.ended hn (hb.trans (Pulls.entry_le before)) ih
    | _ => exact ih

/-- All else is kept, the places of plates apart. -/
theorem Pulls.kept (h : Pulls D s t) : KeptByReacting { s with racks := t.racks, shelves := t.shelves } t := by
  induction h with
  | refl => exact .refl _
  | @tail u v _ step ih =>
    cases step with
    | react h =>
      have kept := h.kept
      rw [kept.racks, kept.shelves]
      exact ih.trans kept
    | rack k l => exact { ih with racks := rfl }
    | shelf p l => exact { ih with shelves := rfl }

/-- The clock stands. -/
theorem Pulls.clock (h : Pulls D s t) : t.clock = s.clock := h.kept.clock

end Chain

/-! ### The plates of a position (R137) -/

/-- Plates leave their places and their jobs retire, one after another. -/
def pullAll (k : PosKey) (l : List Nat) (s : State) : State :=
  l.foldl (fun s n => depart n .retired (takePlate k n s)) s

/-- The first of them, and then the others. -/
theorem pullAll_cons (k : PosKey) (n : Nat) (l : List Nat) (s : State) :
    pullAll k (n :: l) s = pullAll k l (depart n .retired (takePlate k n s)) := List.foldl_cons ..

section Pull

variable {k : PosKey} {l : List Nat} {s : State}

/-- One plate. -/
theorem pullOne_pulls (k : PosKey) {n : Nat} (hs : JobsOrdered s) (hD : D n) :
    Pulls D s (depart n .retired (takePlate k n s)) := by
  have taken : Pulls D s (takePlate k n s) := .tail (.single (.rack s k _)) (.shelf _ k.press _)
  have ordered := Pulls.jobs_ordered hs taken
  have departs : Reacts D (takePlate k n s) (depart n .retired (takePlate k n s)) :=
    depart_reacts n .retired ordered (by decide) hD
  exact taken.trans departs.pulls

/-- All of them. -/
theorem pullAll_pulls (k : PosKey) (l : List Nat) (hs : JobsOrdered s) : Pulls (fun n => n ∈ l) s (pullAll k l s) :=
  foldl_chain_of _ (fun _ _ hs h => Pulls.jobs_ordered hs h) l s hs fun _ hs _ hn => pullOne_pulls k hs hn

/-- The plates have left the position's slot and the shelf of its press. -/
theorem pullAll_places (k : PosKey) (l : List Nat) (hs : JobsOrdered s) :
    (∀ k', (pullAll k l s).rack k' = if k' = k then (s.rack k).filter fun n => n ∉ l else s.rack k') ∧
    (∀ q, (pullAll k l s).shelf q = if q = k.press then (s.shelf q).filter fun x => x.1 ∉ l else s.shelf q) := by
  induction l generalizing s with
  | nil =>
    refine ⟨fun k' => ?_, fun q => ?_⟩
    · split
      next h => simp [pullAll, h]
      next => rfl
    · split <;> simp [pullAll]
  | cons n l ih =>
    have one : Pulls AnyJob s (depart n .retired (takePlate k n s)) := pullOne_pulls k hs trivial
    have ordered : JobsOrdered (takePlate k n s) := hs
    have departs : Reacts AnyJob (takePlate k n s) (depart n .retired (takePlate k n s)) := depart_reacts n .retired ordered
    have kept := Reacts.kept departs
    have rack (k' : PosKey) : (depart n .retired (takePlate k n s)).rack k' =
        if k' = k then (s.rack k).filter fun m => m ≠ n else s.rack k' := by
      refine (congrArg (fun v => (tget v k').getD []) kept.racks).trans ?_
      exact rack_setRack k _ s k'
    have shelf (q : PressId) : (depart n .retired (takePlate k n s)).shelf q =
        if q = k.press then (s.shelf q).filter fun x => x.1 ≠ n else s.shelf q := by
      refine (congrArg (fun v => v.get q) kept.shelves).trans ?_
      refine (shelf_setShelf k.press _ (s.setRack k _) q).trans ?_
      split
      next h => rw [h]
      next => rfl
    obtain ⟨racks, shelves⟩ := ih (Pulls.jobs_ordered hs one)
    rw [pullAll_cons]
    generalize depart n .retired (takePlate k n s) = u at rack shelf racks shelves ⊢
    refine ⟨fun k' => (racks k').trans ?_, fun q => (shelves q).trans ?_⟩
    · split
      next h =>
        rw [rack, if_pos rfl, List.filter_filter]
        refine List.filter_congr fun m _ => ?_
        simp [Bool.and_comm]
      next h => rw [rack, if_neg h]
    · split
      next h =>
        rw [shelf, if_pos h, List.filter_filter]
        refine List.filter_congr fun m _ => ?_
        simp [Bool.and_comm]
      next h => rw [shelf, if_neg h]

/-- Their jobs have ended. -/
theorem pullAll_ended (k : PosKey) (l : List Nat) (hs : JobsOrdered s) : ∀ n ∈ l, Ended n s (pullAll k l s) := by
  induction l generalizing s with
  | nil => exact fun n hn => nomatch hn
  | cons m l ih =>
    intro n hn
    have one : Pulls AnyJob s (depart m .retired (takePlate k m s)) := pullOne_pulls k hs trivial
    have ordered := Pulls.jobs_ordered hs one
    rw [pullAll_cons]
    have taken : JobsOrdered (takePlate k m s) := hs
    have gone : Ended m (takePlate k m s) (depart m .retired (takePlate k m s)) := depart_ended m .retired taken
    generalize depart m .retired (takePlate k m s) = u at one ordered gone ⊢
    by_cases hl : n ∈ l
    · exact (ih ordered n hl).since (Pulls.entry_le one)
    · have here : n = m := (List.mem_cons.mp hn).resolve_right hl
      have ended : Ended n s u := here ▸ gone.since le_rfl
      exact (pullAll_pulls k l ordered).ended hl (Pulls.entry_le one) ended

/-- Each end is told. -/
theorem pullAll_told (k : PosKey) (l : List Nat) (hs : JobsOrdered s) : ∀ n ∈ l, ∀ j, s.job? n = some j →
    Told (.jobEnded n j.key .retired j.lastFault) s (pullAll k l s) := by
  induction l generalizing s with
  | nil => exact fun n hn => nomatch hn
  | cons m l ih =>
    intro n hn j hj
    have one : Pulls (fun i => i = m) s (depart m .retired (takePlate k m s)) := pullOne_pulls k hs rfl
    have ordered := Pulls.jobs_ordered hs one
    have taken : JobsOrdered (takePlate k m s) := hs
    have told (i : Job) (hi : (takePlate k m s).job? m = some i) := depart_told (terminal := .retired) taken hi
    rw [pullAll_cons]
    generalize depart m .retired (takePlate k m s) = u at one ordered told ⊢
    by_cases here : n = m
    · subst here
      have first : Told (.jobEnded n j.key .retired j.lastFault) s u := (told j hj).since (.of_eq rfl) rfl
      exact first.kept (pullAll_pulls k l ordered).ports_kept
    · obtain ⟨j', hj', stays⟩ := one.job_stays here hj
      have told := ih ordered n ((List.mem_cons.mp hn).resolve_left here) j' hj'
      have key : j'.key = j.key := by rw [stays.2]; rfl
      have fault : j'.lastFault = j.lastFault := by rw [stays.2]
      rw [key, fault] at told
      exact told.since one.ports_kept one.clock

/-- PULL_CONFIRM at a position that has superseded plates. -/
theorem reqPullConfirm_pulls {b1 b2 : Byte} (hk : keyOf b1 b2 = some k) (h : pullable s k ≠ []) :
    reqPullConfirm b1 b2 s = (sorterLook (pullAll k (pullable s k) s),
      ⟨.ok, .count (pullable s k).length :: .listLen (pullable s k).length :: (pullable s k).map .jobNumber⟩) := by
  unfold reqPullConfirm
  rw [hk]
  dsimp only
  rw [if_neg h]
  unfold okWith listField
  rw [List.length_map]
  rfl

/-- PULL_CONFIRM at a position that has none. -/
theorem reqPullConfirm_noPlate {b1 b2 : Byte} (hk : keyOf b1 b2 = some k) (h : pullable s k = []) :
    reqPullConfirm b1 b2 s = (s, ⟨.noPlate, []⟩) := by
  unfold reqPullConfirm
  rw [hk]
  exact if_pos h

/-- PULL_CONFIRM of no position. -/
theorem reqPullConfirm_badValue {b1 b2 : Byte} (h : keyOf b1 b2 = none) : reqPullConfirm b1 b2 s = (s, ⟨.badValue, []⟩) := by
  unfold reqPullConfirm
  rw [h]
  rfl

end Pull

/-- Settles O48: the superseded plates leave their places one after another, each with the end of its job. -/
theorem platesPulled : Obligations.PlatesPulled := by
  intro p tag k s hfree htab hroom c gone
  have hk : keyOf (byteOf k.press.val) (byteOf k.pos.val) = some k := keyOf_byteOf k
  refine ⟨fun h => ?_, fun h => ?_, fun b1 b2 hb => ?_⟩
  · exact answers_unchanged (r := .pullConfirm _ _) hfree hroom (reqPullConfirm_noPlate (s := holding p _ s) hk h)
  · set r : Received := ⟨tag, 13, .sound (.pullConfirm (byteOf k.press.val) (byteOf k.pos.val))⟩ with hr
    set s0 := holding p r s with hs0
    have ordered : JobsOrdered s0 := htab.jobs
    have pulls := pullAll_pulls k gone ordered
    have places := pullAll_places k gone ordered
    have ended : ∀ n ∈ gone, Ended n s0 _ := pullAll_ended k gone ordered
    have told := pullAll_told k gone ordered
    have taken : exec c s = .next ((sorterLook (pullAll k gone s0)).modLink p (Link.answer tag 13
        ⟨.ok, .count gone.length :: .listLen gone.length :: gone.map .jobNumber⟩)) := by
      have tests : applyRequest p (.pullConfirm (byteOf k.press.val) (byteOf k.pos.val)) s0 = _ :=
        reqPullConfirm_pulls (s := s0) hk h
      exact exec_applied (r := .pullConfirm _ _) hfree hroom tests
    have look : Reacts NoJob (pullAll k gone s0) (sorterLook (pullAll k gone s0)) := sorterLook_reacts _
    generalize pullAll k gone s0 = u at pulls places ended told taken look
    have kept := Reacts.kept look
    generalize sorterLook u = v at taken look kept
    have whole : Pulls (fun n => n ∈ gone) s0 v := pulls.trans (Reacts.widen (fun _ h => h.elim) look).pulls
    refine ⟨_, taken, ?_, fun k' => ?_, fun q => ?_, fun n hn => ⟨?_, fun j hj => ?_⟩, fun n j hn hj => ?_, ?_⟩
    · have restored : KeptByReacting { s with racks := v.racks, shelves := v.shelves } v :=
        KeptByReacting.of_holding whole.kept
      exact restored.andLink p _
    · exact (congrArg (fun x => (tget x k').getD []) kept.racks).trans (places.1 k')
    · exact (congrArg (fun x => x.get q) kept.shelves).trans (places.2 q)
    · have after : Ended n s0 v := Reacts.ended look not_false (Pulls.entry_le pulls) (ended n hn)
      exact after.since (b := s) le_rfl
    · exact (((told n hn j hj).kept look.ports_kept).answered p _ _ _).of_holding
    · exact whole.job_stays hn hj
    · exact answeredAt_of (r := r) rfl rfl whole.ports_kept
  · exact answers_unchanged (r := .pullConfirm b1 b2) hfree hroom (reqPullConfirm_badValue (keyOf_eq_none hb))

end Sys2Proof.Machine
end

section
/-! The need of a position is met: what a need test, a departure and the service of deferred positions make of it (R30,
R50, R54, R55). -/

namespace Sys2Proof.Machine

open State

variable {D : Nat → Prop} {k : PosKey}

/-! ### Makeable contents (R26) -/

/-- Reactions make no content makeable. -/
theorem PagesKept.makeable {s t : State} (h : PagesKept s t) {c : Content} (ht : makeable t c = true) :
    makeable s c = true := by
  have page : ∀ n, (t.page? n = none ∧ (s.page? n = none ∨ s.page? n ≠ none)) ∨
      ∃ r m, s.page? n = some r ∧ t.page? n = some { r with liveJobs := m } := by
    intro n
    obtain ⟨none, some⟩ := h n
    cases hs : s.page? n with
    | none => exact .inl ⟨none hs, .inl rfl⟩
    | some r =>
      rcases some r hs with ⟨m, hm⟩ | ⟨-, hm⟩
      · exact .inr ⟨r, m, rfl, hm⟩
      · exact .inl ⟨hm, .inr (Option.some_ne_none r)⟩
  unfold Machine.makeable at ht ⊢
  rw [Bool.and_eq_true, List.any_eq_true, List.all_eq_true] at ht ⊢
  obtain ⟨⟨n, hn, hneed⟩, hall⟩ := ht
  have same : ∀ m ∈ c.pages, needsPage s c.sep m = needsPage t c.sep m ∧
      (needsPage t c.sep m = true → ((s.page? m).any fun r => r.arrived.has c.sep) = true) := by
    intro m hm
    have held := hall m hm
    unfold needsPage at held ⊢
    rcases page m with ⟨gone, -⟩ | ⟨r, i, hs, ht⟩
    · rw [gone] at held
      simp at held
    · rw [hs, ht]
      rw [ht] at held
      refine ⟨rfl, fun need => ?_⟩
      rw [need] at held
      simpa using held
  refine ⟨⟨n, hn, (same n hn).1.trans hneed⟩, fun m hm => ?_⟩
  obtain ⟨need, arrived⟩ := same m hm
  rw [need]
  cases hneed : needsPage t c.sep m with
  | false => rfl
  | true => exact arrived hneed

/-! ### A position that bides -/

/-- A position stays, but for its standing, and no content becomes makeable. -/
structure Bides (k : PosKey) (s t : State) : Prop where
  stands : StandsAs k s t
  absent : s.pos? k = none → t.pos? k = none
  pages : PagesKept s t

/-- One after another. -/
theorem Bides.trans {s t u : State} (h : Bides k s t) (g : Bides k t u) : Bides k s u where
  stands := h.stands.trans g.stands
  absent := g.absent ∘ h.absent
  pages := h.pages.trans g.pages

/-- Of reactions. -/
theorem Bides.of_reacts {s t : State} (h : Reacts D s t) (g : StandsAs k s t) : Bides k s t :=
  ⟨g, (h.kept.positions k).1, h.kept.pages⟩

/-- What the position is in the state before. -/
theorem Bides.before {s t : State} (h : Bides k s t) {y : Position} (hy : t.pos? k = some y) : ∃ x, s.pos? k = some x ∧
    y = { x with work := { x.work with satisfied := y.work.satisfied } } := by
  cases hx : s.pos? k with
  | none => rw [h.absent hx] at hy; cases hy
  | some x =>
    obtain ⟨b, hb⟩ := h.stands x hx
    rw [hb] at hy
    cases hy
    exact ⟨x, rfl, rfl⟩

/-- A position that needs a job and has none is deferred. -/
def Noted (k : PosKey) (s : State) : Prop :=
  ∀ y, s.pos? k = some y → y.work.current = none → makeable s y.content = true → y.work.deferred = true

/-- A position that needs a job and has none stays deferred. -/
theorem Noted.bides {s t : State} (h : Noted k s) (g : Bides k s t) : Noted k t := by
  intro y hy hc hm
  obtain ⟨x, hx, same⟩ := g.before hy
  rw [same] at hc hm ⊢
  exact h x hx hc (g.pages.makeable hm)

/-- An attended position is noted. -/
theorem Attended.noted {s : State} (h : Attended k s) : Noted k s := fun y hy hc hm => (h y hy hc hm).1

/-- A noted position is attended when the table is full. -/
theorem Noted.full {s : State} (h : Noted k s) (hl : 768 ≤ s.jobs.length) : Attended k s := fun y hy hc hm =>
  ⟨h y hy hc hm, hl⟩

/-- An attended position stays so while no job leaves. -/
theorem Attended.bides {s t : State} (h : Attended k s) (g : Bides k s t) (hl : s.jobs.length ≤ t.jobs.length) :
    Attended k t := by
  intro y hy hc hm
  obtain ⟨x, hx, same⟩ := g.before hy
  rw [same] at hc hm ⊢
  obtain ⟨deferred, full⟩ := h x hx hc (g.pages.makeable hm)
  exact ⟨deferred, full.trans hl⟩

/-- An entry that is put takes none away. -/
theorem le_length_tput {κ α : Type} (rank : κ → Nat) (t : Table κ α) (k : κ) (v : α) :
    t.length ≤ (tput rank t k v).length := by
  induction t with
  | nil => exact Nat.zero_le _
  | cons x t ih =>
    unfold tput
    split
    · exact Nat.le_succ _
    · split
      · exact le_rfl
      · exact Nat.succ_le_succ ih

/-- No job leaves the table by a reaction that takes none. -/
theorem ReactStep.grows {s t : State} (h : ReactStep NoJob s t) : s.jobs.length ≤ t.jobs.length := by
  cases h with
  | serve h =>
    cases h with
    | assign e n j =>
      simp only [Machine.assign, jobs_send, jobs_modJob, jobs_modCtx]
      exact (length_tmod s.jobs n _).ge
    | expose e =>
      unfold sendExpose
      split
      · exact le_rfl
      next w hw =>
        simp only [jobs_send, jobs_modJob, jobs_modCtx]
        exact (length_tmod s.jobs w.job _).ge
    | _ => exact le_rfl
  | job n f hD => exact hD.elim
  | addJob n j hl hq hc hf =>
    exact le_length_tput id s.jobs n j
  | dropJob n hD => exact hD.elim
  | _ => exact le_rfl

/-- A chain of them. -/
theorem Reacts.grows {s t : State} (h : Reacts NoJob s t) : s.jobs.length ≤ t.jobs.length := by
  induction h with
  | refl => exact le_rfl
  | tail _ step ih => exact ih.trans step.grows

/-- What reactions that take no job leave of an attended position that bides. -/
theorem Attended.reacts {s t : State} (h : Attended k s) (r : Reacts NoJob s t) (g : StandsAs k s t) : Attended k t :=
  h.bides (.of_reacts r g) (Reacts.grows r)

/-! ### The current job of a position -/

/-- The current job of a position is one of its own, with a property. -/
def Holds (P : Job → Prop) (k : PosKey) (s : State) : Prop :=
  ∀ y n, s.pos? k = some y → y.work.current = some n → ∃ j, s.job? n = some j ∧ j.key = k ∧ P j

/-- A property that jobs keep while they stay, and that those created since a state have. -/
structure Lasts (b : State) (P : Job → Prop) : Prop where
  stays : ∀ j j', P j → JobStays j j' → P j'
  made : ∀ s k x, b.entryCount ≤ s.entryCount → P (newJob s k x)

/-- Being created since a state. -/
theorem lasts_created (b : State) : Lasts b (CreatedSince b) where
  stays _ _ h g := h.stays g
  made _ _ _ hb := CreatedSince.since ⟨Nat.lt_succ_self _, rfl, rfl, .inl rfl, rfl⟩ hb

/-- Any property at all. -/
theorem lasts_any (b : State) : Lasts b fun _ => True := ⟨fun _ _ _ _ => trivial, fun _ _ _ _ => trivial⟩

/-- A position renewed since a state is renewed since an earlier one. -/
theorem Renewed.since {b s t : State} (h : Renewed k s t) (hb : b.entryCount ≤ s.entryCount) : Renewed k b t := by
  intro y n hy hc
  obtain ⟨j, hj, key, made⟩ := h y n hy hc
  exact ⟨j, hj, key, made.since hb⟩

/-- A renewed position is one that holds a job created since. -/
theorem renewed_iff (b s : State) : Renewed k b s ↔ Holds (CreatedSince b) k s := Iff.rfl

section Holds

variable {b : State} {P : Job → Prop} (lasts : Lasts b P)

include lasts

/-- A job that is not taken is held on. -/
theorem Holds.reacts {s t : State} (h : Holds P k s) (r : Reacts D s t) (g : StandsAs k s t)
    (hD : ∀ y n, s.pos? k = some y → y.work.current = some n → ¬ D n) : Holds P k t := by
  intro y n hy hc
  obtain ⟨x, hx, same⟩ := (Bides.of_reacts r g).before hy
  rw [same] at hc
  obtain ⟨j, hj, key, hP⟩ := h x n hx hc
  obtain ⟨j', hj', stays⟩ := Reacts.job_stays r (hD x n hx hc) hj
  refine ⟨j', hj', ?_, lasts.stays j j' hP stays⟩
  rw [stays.2]
  exact key

/-- A need test leaves a job held, or makes one. -/
theorem needTest_holds {s : State} (a : PosKey) (hb : b.entryCount ≤ s.entryCount) (h : Holds P k s) :
    Holds P k (needTest a s) := by
  have chain : Reacts NoJob s (needTest a s) := needTest_reacts a s
  by_cases ha : k = a
  · subst ha
    cases hx : s.pos? k with
    | none =>
      have same : needTest k s = s := by unfold needTest; rw [hx]
      rw [same]
      exact h
    | some x =>
      have deferred (v : Bool) : Holds P k (s.modWork k fun w => { w with deferred := v }) := by
        intro y n hy hc
        rw [pos?_modWork, if_pos rfl, hx] at hy
        cases hy
        exact h x n hx hc
      cases hn : needsJob s x with
      | false =>
        rw [needTest_clears hx hn]
        exact deferred false
      | true =>
        by_cases hl : s.jobs.length < 768
        · rw [needTest_creates hx hn hl]
          intro y n hy hc
          rw [pos?_created hx] at hy
          cases hy
          cases hc
          exact ⟨_, job?_created k x s, rfl, lasts.made s k x hb⟩
        · rw [needTest_full hx hn (Nat.not_lt.mp hl)]
          split
          · exact h
          · intro y n hy hc
            rw [pos?_raise] at hy
            obtain ⟨j, hj, rest⟩ := deferred true y n hy hc
            exact ⟨j, (job?_raise _ _ _).trans hj, rest⟩
  · exact h.reacts lasts chain (needTest_standsAs ha s) fun _ _ _ _ => not_false

end Holds

/-! ### Need tests (R30, R54) -/

/-- A position whose need has been tested is attended. -/
theorem needTest_attended (k : PosKey) (s : State) : Attended k (needTest k s) := by
  have pages : PagesKept s (needTest k s) := (needTest_reacts (D := NoJob) k s).kept.pages
  intro y hy hc hm
  have made := pages.makeable hm
  cases hx : s.pos? k with
  | none =>
    have same : needTest k s = s := by unfold needTest; rw [hx]
    rw [same, hx] at hy
    cases hy
  | some x =>
    cases hn : needsJob s x with
    | false =>
      rw [needTest_clears hx hn, pos?_modWork, if_pos rfl, hx] at hy
      cases hy
      unfold needsJob at hn
      rw [State.satisfiable_eq_makeable] at hn
      have none : x.work.current.isNone = true := by rw [show x.work.current = none from hc]; rfl
      have content : makeable s x.content = true := made
      rw [none, content] at hn
      cases hn
    | true =>
      by_cases hl : s.jobs.length < 768
      · rw [needTest_creates hx hn hl, pos?_created hx] at hy
        cases hy
        cases hc
      · have full := Nat.not_lt.mp hl
        have grown := full.trans (Reacts.grows (needTest_reacts (D := NoJob) k s))
        refine ⟨?_, grown⟩
        rw [needTest_full hx hn full] at hy
        split at hy
        next hd =>
          rw [hx] at hy
          cases hy
          exact hd
        next =>
          rw [pos?_raise, pos?_modWork, if_pos rfl, hx] at hy
          cases hy
          rfl

/-- A job that is created for a position has a number that was free. -/
theorem needTest_fresh {v : State} (vacant : ∀ y, v.pos? k = some y → y.work.current = none) {y : Position} {m : Nat}
    (hy : (needTest k v).pos? k = some y) (hm : y.work.current = some m) : v.job? m = none := by
  cases hx : v.pos? k with
  | none =>
    have same : needTest k v = v := by unfold needTest; rw [hx]
    rw [same, hx] at hy
    cases hy
  | some x =>
    have none := vacant x hx
    have kept (b : Bool) : (v.modWork k fun w => { w with deferred := b }).pos? k ≠ some y := by
      intro h
      rw [pos?_modWork, if_pos rfl, hx] at h
      cases h
      exact absurd (none.symm.trans hm) nofun
    cases hn : needsJob v x with
    | false =>
      rw [needTest_clears hx hn] at hy
      exact absurd hy (kept false)
    | true =>
      by_cases hl : v.jobs.length < 768
      · rw [needTest_creates hx hn hl, pos?_created hx] at hy
        cases hy
        cases hm
        exact nextNumber_fresh v hl
      · rw [needTest_full hx hn (Nat.not_lt.mp hl)] at hy
        split at hy
        · rw [hx] at hy
          cases hy
          exact absurd (none.symm.trans hm) nofun
        · rw [pos?_raise] at hy
          exact absurd hy (kept true)

/-- The service of deferred positions attends to those it is to serve. -/
theorem serveFrom_attended (l : List PosKey) {s : State} (hs : JobsOrdered s) (noted : Noted k s)
    (h : k ∈ l ∨ Attended k s) : Attended k (serveFrom serve l s) := by
  induction l generalizing s with
  | nil => exact h.resolve_left List.not_mem_nil
  | cons a l ih =>
    have tested : Reacts NoJob s (needTest a s) := needTest_reacts a s
    have ordered := Reacts.jobs_ordered hs tested
    have served : Reacts NoJob (needTest a s) (serve (needTest a s)) := serve_reacts ordered
    have serves := serve_standsAs k ordered
    have servedOrdered := Reacts.jobs_ordered ordered served
    have here : Noted k (needTest a s) ∧ (k ∈ l ∨ Attended k (needTest a s)) := by
      by_cases ha : k = a
      · subst ha
        exact ⟨(needTest_attended k s).noted, .inr (needTest_attended k s)⟩
      · have stands := needTest_standsAs ha s
        refine ⟨noted.bides (.of_reacts tested stands), ?_⟩
        rcases h with h | h
        · exact .inl ((List.mem_cons.mp h).resolve_left ha)
        · exact .inr (h.reacts tested stands)
    obtain ⟨notedHere, left⟩ := here
    unfold serveFrom
    dsimp only
    generalize needTest a s = t at *
    split
    · split
      · exact ih servedOrdered (notedHere.bides (.of_reacts served serves)) (left.imp_right fun h => h.reacts served serves)
      next hfull => exact (notedHere.full (Nat.not_lt.mp hfull)).reacts served serves
    · exact ih ordered notedHere left

/-- It leaves a job held, or makes one. -/
theorem serveFrom_holds {b : State} {P : Job → Prop} (lasts : Lasts b P) (l : List PosKey) {s : State}
    (hs : JobsOrdered s) (hb : b.entryCount ≤ s.entryCount) (h : Holds P k s) : Holds P k (serveFrom serve l s) := by
  induction l generalizing s with
  | nil => exact h
  | cons a l ih =>
    have tested : Reacts NoJob s (needTest a s) := needTest_reacts a s
    have ordered := Reacts.jobs_ordered hs tested
    have served : Reacts NoJob (needTest a s) (serve (needTest a s)) := serve_reacts ordered
    have serves := serve_standsAs k ordered
    have servedOrdered := Reacts.jobs_ordered ordered served
    have later := hb.trans (Reacts.entry_le tested)
    have here := needTest_holds lasts a hb h
    unfold serveFrom
    dsimp only
    generalize needTest a s = t at *
    have after : Holds P k (serve t) := here.reacts lasts served serves fun _ _ _ _ => not_false
    split
    · split
      · exact ih servedOrdered (later.trans (Reacts.entry_le served)) after
      · exact after
    · exact ih ordered later here

/-! ### Departures (R50, R55) -/

/-- A position that is deferred is served as one. -/
theorem mem_deferredOrder {x : Position} {s : State} (hx : s.pos? k = some x) (hd : x.work.deferred = true) :
    k ∈ deferredOrder s := by
  unfold deferredOrder
  rw [mem_sortBy]
  exact List.mem_map.mpr ⟨(k, x), List.mem_filter.mpr ⟨mem_of_tget hx, hd⟩, rfl⟩

/-- The service of all deferred positions attends to one that is noted. -/
theorem serveDeferred_attended {s : State} (hs : JobsOrdered s) (h : Noted k s) : Attended k (serveDeferred serve s) := by
  refine serveFrom_attended _ hs h ?_
  by_cases hd : ∃ x, s.pos? k = some x ∧ x.work.deferred = true
  · obtain ⟨x, hx, hd⟩ := hd
    exact .inl (mem_deferredOrder hx hd)
  · exact .inr fun y hy hc hm => absurd ⟨y, hy, h y hy hc hm⟩ hd

section Depart

variable {n : Nat} {j : Job} {terminal : JobState} {s : State}

/-- The rest of a departure: what its first steps noted is attended to, and what they left held is held. -/
theorem depart_rest {b : State} {P : Job → Prop} (lasts : Lasts b P) (hs : JobsOrdered s)
    (hb : b.entryCount ≤ s.entryCount) (ht : terminal ≠ .uncertain) :
    (Noted k (departCore n terminal s) → Attended k (depart n terminal s)) ∧
    (Holds P k (departCore n terminal s) → Holds P k (depart n terminal s)) := by
  have core : Reacts AnyJob s (departCore n terminal s) := departCore_reacts n terminal s ht
  have ordered := Reacts.jobs_ordered hs core
  have later := hb.trans (Reacts.entry_le core)
  unfold depart departBy
  generalize departCore n terminal s = u at ordered later ⊢
  have deferred : Reacts NoJob u (serveDeferred serve u) := serveDeferred_reacts (fun _ h => serve_reacts h) ordered
  have again := Reacts.jobs_ordered ordered deferred
  have served : Reacts NoJob (serveDeferred serve u) (serve (serveDeferred serve u)) := serve_reacts again
  have serves := serve_standsAs k again
  constructor
  · intro h
    exact (serveDeferred_attended ordered h).reacts served serves
  · intro h
    have held : Holds P k (serveDeferred serve u) := serveFrom_holds lasts _ ordered later h
    exact held.reacts lasts served serves fun _ _ _ _ => not_false

/-- A departure is no business of an attended position that does not hold the job. -/
theorem depart_attended (hs : JobsOrdered s) (h : Attended k s)
    (hk : ∀ x, s.pos? k = some x → x.work.current ≠ some n) (ht : terminal ≠ .uncertain := by decide) :
    Attended k (depart n terminal s) := by
  have core : Reacts AnyJob s (departCore n terminal s) := departCore_reacts n terminal s ht
  refine (depart_rest (lasts_any s) hs le_rfl ht).1 (h.noted.bides (.of_reacts core fun x hx => ?_))
  exact departCore_standsAs hx (hk x hx) ht x hx

/-- Nor of a position that holds another. -/
theorem depart_holds {b : State} {P : Job → Prop} (lasts : Lasts b P) (hs : JobsOrdered s)
    (hb : b.entryCount ≤ s.entryCount) (h : Holds P k s) (hk : ∀ x, s.pos? k = some x → x.work.current ≠ some n)
    (ht : terminal ≠ .uncertain := by decide) : Holds P k (depart n terminal s) := by
  have core : Reacts (fun m => m = n) s (departCore n terminal s) := departCore_reacts n terminal s ht rfl
  refine (depart_rest lasts hs hb ht).2 (h.reacts lasts core (fun x hx => ?_) fun x m hx hc hm => ?_)
  · exact departCore_standsAs hx (hk x hx) ht x hx
  · exact hk x hx (hm ▸ hc)

/-- The first steps of the departure of a position's current job: its need is tested (`v` is the state then), and the
rest does not concern it. -/
theorem departCore_vacates {x : Position} (hj : s.job? n = some j) (hx : s.pos? j.key = some x)
    (hc : x.work.current = some n) :
    ∃ v, (∀ y, v.pos? j.key = some y → y.work.current = none) ∧ v.job? n ≠ none ∧ s.entryCount ≤ v.entryCount ∧
      Reacts (fun m => m = n) (needTest j.key v) (departCore n terminal s) ∧
      StandsAs j.key (needTest j.key v) (departCore n terminal s) := by
  unfold departCore
  rw [hj]
  dsimp only
  have job1 : (s.modJob n fun x => { x with state := terminal }).job? n = some { j with state := terminal } := by
    rw [job?_modJob, if_pos rfl, hj]
    rfl
  have h1 : StandsAs j.key s (s.modJob n fun x => { x with state := terminal }) := .of_plan rfl
  have e1 : s.entryCount ≤ (s.modJob n fun x => { x with state := terminal }).entryCount := le_rfl
  generalize s.modJob n (fun x => { x with state := terminal }) = s1 at job1 h1 e1 ⊢
  have r2 : Reacts NoJob s1 (if j.state = .queued then evalStarved s1 else s1) := by
    split
    · exact evalStarved_reacts s1
    · exact .refl
  have h2 : StandsAs j.key s (if j.state = .queued then evalStarved s1 else s1) := by
    split
    · exact h1.trans (evalStarved_standsAs j.key s1)
    · exact h1
  generalize (if j.state = .queued then evalStarved s1 else s1) = s2 at r2 h2 ⊢
  have r3 : Reacts NoJob s1 (if j.state.holdsRefs then releaseRefs j.slots s2 else s2) := by
    split
    · exact r2.trans (releaseRefs_reacts _ s2)
    · exact r2
  have h3 : StandsAs j.key s (if j.state.holdsRefs then releaseRefs j.slots s2 else s2) := by
    split
    · exact h2.trans (releaseRefs_standsAs j.key _ s2)
    · exact h2
  generalize (if j.state.holdsRefs then releaseRefs j.slots s2 else s2) = s3 at r3 h3 ⊢
  have r4 : Reacts NoJob s1 ((j.pages.map Prod.fst).foldl (fun s p => lowerLive p s) s3) :=
    r3.trans (foldl_chain _ _ _ fun s p _ => lowerLive_reacts p s)
  have h4 : StandsAs j.key s ((j.pages.map Prod.fst).foldl (fun s p => lowerLive p s) s3) :=
    h3.trans (.foldl _ _ (fun s p _ => lowerLive_standsAs j.key p s) s3)
  generalize (j.pages.map Prod.fst).foldl (fun s p => lowerLive p s) s3 = s4 at r4 h4 ⊢
  have e4 : s.entryCount ≤ s4.entryCount := e1.trans (Reacts.entry_le r4)
  obtain ⟨b, hb⟩ := h4 x hx
  obtain ⟨i, hi, -⟩ := Reacts.job_stays r4 not_false job1
  rw [hb]
  dsimp only
  rw [if_pos (decide_eq_true hc)]
  refine ⟨s4.modWork j.key fun w => { w with current := none }, fun y hy => ?_, ?_, e4, ?_, ?_⟩
  · rw [pos?_modWork, if_pos rfl, hb] at hy
    cases hy
    rfl
  · exact fun hn => absurd (hi.symm.trans hn) nofun
  · generalize needTest j.key (s4.modWork j.key fun w => { w with current := none }) = w
    have judged : Reacts (fun m => m = n) w (evalStarved w) := evalStarved_reacts w
    have told := judged.trans (raise_reacts (.jobEnded n j.key terminal j.lastFault) (evalStarved w))
    have dropped := told.tail (ReactStep.dropJob _ n rfl)
    refine (dropped.trans (tellSatisfied_reacts j.key _)).trans ?_
    exact foldl_chain _ _ _ fun s p _ => tellAll_reacts _ s
  · generalize needTest j.key (s4.modWork j.key fun w => { w with current := none }) = w
    have told := (evalStarved_standsAs j.key w).trans (raise_standsAs j.key (.jobEnded n j.key terminal j.lastFault) _)
    refine ((told.trans (dropJob_standsAs j.key n _)).trans (tellSatisfied_standsAs j.key j.key _)).trans ?_
    exact .foldl _ _ (fun s p _ => tellAll_standsAs j.key _ s) _

/-- As the current job of a position departs, the position names it no longer, and its need is met. -/
theorem depart_vacates {x : Position} (hs : JobsOrdered s) (hj : s.job? n = some j) (hx : s.pos? j.key = some x)
    (hc : x.work.current = some n) (ht : terminal ≠ .uncertain := by decide) :
    Attended j.key (depart n terminal s) ∧ Renewed j.key s (depart n terminal s) := by
  obtain ⟨v, vacant, held, entry, chain, stands⟩ := departCore_vacates (terminal := terminal) hj hx hc
  have rest := depart_rest (k := j.key) (n := n) (terminal := terminal) (lasts_created s) hs le_rfl ht
  have attended := needTest_attended j.key v
  have renewed : Holds (CreatedSince s) j.key (needTest j.key v) :=
    needTest_holds (lasts_created s) j.key entry fun y m hy hm => by
      rw [vacant y hy] at hm
      cases hm
  have another : ∀ y m, (needTest j.key v).pos? j.key = some y → y.work.current = some m → m ≠ n := by
    rintro y m hy hm rfl
    exact held (needTest_fresh vacant hy hm)
  exact ⟨rest.1 (attended.noted.bides (.of_reacts chain stands)),
    rest.2 (renewed.reacts (lasts_created s) chain stands another)⟩

end Depart

end Sys2Proof.Machine
end

section
/-! MOUNT and UNMOUNT (R138, R139). -/

namespace Sys2Proof.Machine

open State

variable {D : Nat → Prop}

/-! ### The requests -/

section Requests

variable {b1 b2 : Byte} {k : PosKey} {x : Position} {n : Nat} {s : State}

/-- MOUNT of no position. -/
theorem reqMount_badValue (h : keyOf b1 b2 = none) : reqMount b1 b2 s = (s, ⟨.badValue, []⟩) := by
  unfold reqMount
  rw [h]
  rfl

/-- UNMOUNT of no position. -/
theorem reqUnmount_badValue (h : keyOf b1 b2 = none) : reqUnmount b1 b2 s = (s, ⟨.badValue, []⟩) := by
  unfold reqUnmount
  rw [h]
  rfl

variable (hk : keyOf b1 b2 = some k)

include hk

/-- MOUNT of a position that is not live. -/
theorem reqMount_notFound (hx : s.pos? k = none) : reqMount b1 b2 s = (s, ⟨.notFound, []⟩) := by
  unfold reqMount
  rw [hk]
  dsimp only
  rw [hx]
  rfl

/-- UNMOUNT of a position that is not live. -/
theorem reqUnmount_notFound (hx : s.pos? k = none) : reqUnmount b1 b2 s = (s, ⟨.notFound, []⟩) := by
  unfold reqUnmount
  rw [hk]
  dsimp only
  rw [hx]
  rfl

variable (hx : s.pos? k = some x)

include hx

/-- MOUNT of a position without a current job. -/
theorem reqMount_noJob (hc : x.work.current = none) : reqMount b1 b2 s = (s, ⟨.noPlate, [.present false]⟩) := by
  unfold reqMount
  rw [hk]
  dsimp only
  rw [hx]
  dsimp only
  rw [hc]
  rfl

/-- MOUNT of a RACKED plate. -/
theorem reqMount_racked {j : Job} (hc : x.work.current = some n) (hj : s.job? n = some j) (h : j.state = .racked) :
    reqMount b1 b2 s = (mountPlate k n x.work.mounted s, ⟨.ok, []⟩) := by
  unfold reqMount
  rw [hk]
  dsimp only
  rw [hx]
  dsimp only
  rw [hc]
  dsimp only
  refine (if_pos ?_).trans rfl
  unfold State.jobState
  rw [hj, Option.map_some, h]

/-- MOUNT of any other. -/
theorem reqMount_noPlate {j : Job} (hc : x.work.current = some n) (hj : s.job? n = some j) (h : j.state ≠ .racked) :
    reqMount b1 b2 s = (s, ⟨.noPlate, [.present true, .enum (jobStateCode j.state)]⟩) := by
  have state : s.jobState n = some j.state := by
    unfold State.jobState
    rw [hj, Option.map_some]
  unfold reqMount
  rw [hk]
  dsimp only
  rw [hx]
  dsimp only
  rw [hc]
  dsimp only
  rw [state]
  exact if_neg fun hs => h (Option.some.inj hs)

/-- UNMOUNT of a position without a mounted plate. -/
theorem reqUnmount_noPlate (hm : x.work.mounted = none) : reqUnmount b1 b2 s = (s, ⟨.noPlate, []⟩) := by
  unfold reqUnmount
  rw [hk]
  dsimp only
  rw [hx]
  dsimp only
  rw [hm]
  rfl

/-- UNMOUNT of a mounted plate. -/
theorem reqUnmount_mounted (hm : x.work.mounted = some n) : reqUnmount b1 b2 s =
    (sorterLook (raise (.plateUnmounted k n) (depart n .retired (s.modWork k fun w => { w with mounted := none }))),
      ⟨.ok, []⟩) := by
  unfold reqUnmount
  rw [hk]
  dsimp only
  rw [hx]
  dsimp only
  rw [hm]
  dsimp only
  unfold unmountPlate retireMounted
  rw [hx, Option.bind_some, hm]
  rfl

end Requests

/-! ### A plate that is mounted (R138) -/

/-- The state with a plate taken from its place and mounted. -/
def mounting (k : PosKey) (n : Nat) (s : State) : State :=
  ((takePlate k n s).modJob n fun j => { j with state := .mounted }).modWork k fun w => { w with mounted := some n }

section Mount

variable {k : PosKey} {n : Nat} {old : Option Nat} {j : Job} {s : State}

/-- The plate that was mounted before retires, and the sorter looks. -/
theorem mountPlate_eq : mountPlate k n old s =
    sorterLook (raise (.plateMounted k n old) (forSome old (fun m => depart m .retired) (mounting k n s))) := rfl

/-- The job table stays in order. -/
theorem mounting_ordered (hs : JobsOrdered s) : JobsOrdered (mounting k n s) :=
  ordered_tmod (rank := id) n (fun j : Job => { j with state := .mounted }) hs

/-- A job then. -/
theorem job?_mounting (m : Nat) : (mounting k n s).job? m =
    if m = n then (s.job? m).map fun j => { j with state := .mounted } else s.job? m :=
  job?_modJob n (fun j : Job => { j with state := .mounted }) (takePlate k n s) m

/-- The plates in the slots. -/
theorem rack_mounting (k' : PosKey) : (mounting k n s).rack k' =
    if k' = k then (s.rack k).filter fun m => m ≠ n else s.rack k' := rack_setRack k _ s k'

/-- The plates on the shelves. -/
theorem shelf_mounting (q : PressId) : (mounting k n s).shelf q =
    if q = k.press then (s.shelf q).filter fun x => x.1 ≠ n else s.shelf q := by
  refine (shelf_setShelf k.press _ (s.setRack k _) q).trans ?_
  split
  next h => rw [h]
  next => rfl

/-- The plate that was mounted before retires. -/
theorem retireOld_reacts (hs : JobsOrdered s) (old : Option Nat) :
    Reacts (fun m => old = some m) s (forSome old (fun m => depart m .retired) s) := by
  cases old with
  | none => exact .refl
  | some m =>
    unfold forSome
    exact depart_reacts m .retired hs (by decide) rfl

/-- Its end, and the notice of it. -/
theorem retireOld_ends {m : Nat} (hs : JobsOrdered s) (h : old = some m) :
    Ended m s (forSome old (fun m => depart m .retired) s) ∧ ∀ i, s.job? m = some i →
      Told (.jobEnded m i.key .retired i.lastFault) s (forSome old (fun m => depart m .retired) s) := by
  subst h
  unfold forSome
  exact ⟨depart_ended m .retired hs, fun _ hi => depart_told hs hi⟩

end Mount

/-- Settles O49: a RACKED plate is mounted and the one before it retires; a plate unmounted retires, and the position it
was made for has its need tested. -/
theorem platesMounted : Obligations.PlatesMounted := by
  intro p tag k s hfree htab hplan mount unmount
  have hk : keyOf (byteOf k.press.val) (byteOf k.pos.val) = some k := keyOf_byteOf k
  refine ⟨fun hx => ⟨?_, ?_⟩, fun x hx => ⟨fun n j hc hj => ⟨fun hr => ?_, fun hr => ?_⟩, fun hc => ?_, fun n hm => ?_,
    fun hm => ?_⟩, fun b1 b2 hb => ⟨?_, ?_⟩⟩
  · exact answers_unchanged (r := .mount _ _) hfree hplan (reqMount_notFound (s := holding p _ s) hk hx)
  · exact answers_unchanged (r := .unmount _ _) hfree hplan (reqUnmount_notFound (s := holding p _ s) hk hx)
  · set r : Received := ⟨tag, 14, .sound (.mount (byteOf k.press.val) (byteOf k.pos.val))⟩ with hr'
    set s0 := holding p r s with hs0
    have taken : exec mount s = .next ((sorterLook (raise (.plateMounted k n x.work.mounted)
        (forSome x.work.mounted (fun m => depart m .retired) (mounting k n s0)))).modLink p
          (Link.answer tag 14 ⟨.ok, []⟩)) := by
      have tests : applyRequest p (.mount (byteOf k.press.val) (byteOf k.pos.val)) s0 =
          (mountPlate k n x.work.mounted s0, ⟨.ok, []⟩) := reqMount_racked (s := s0) hk hx hc hj hr
      rw [mountPlate_eq] at tests
      exact exec_applied (r := .mount _ _) hfree hplan tests
    have ordered : JobsOrdered (mounting k n s0) := mounting_ordered htab.jobs
    have retires := retireOld_reacts ordered x.work.mounted
    have ends {m : Nat} := retireOld_ends (m := m) (old := x.work.mounted) ordered
    have early : SameDesk s0 (mounting k n s0) := ⟨rfl, rfl⟩
    have job (m : Nat) : (mounting k n s0).job? m = if m = n then (s.job? m).map fun j => { j with state := .mounted }
      else s.job? m := job?_mounting m
    have raised : Reacts NoJob (forSome x.work.mounted (fun m => depart m .retired) (mounting k n s0)) _ :=
      raise_reacts (.plateMounted k n x.work.mounted) _
    have told := told_raise (.plateMounted k n x.work.mounted)
      (forSome x.work.mounted (fun m => depart m .retired) (mounting k n s0))
    generalize forSome x.work.mounted (fun m => depart m .retired) (mounting k n s0) = w
      at taken retires ends raised told
    have look : Reacts NoJob (raise (.plateMounted k n x.work.mounted) w)
      (sorterLook (raise (.plateMounted k n x.work.mounted) w)) := sorterLook_reacts _
    generalize raise (.plateMounted k n x.work.mounted) w = y at taken raised told look
    generalize sorterLook y = v at taken look
    have after := raised.trans look
    have lasting := Reacts.entry_le retires
    have whole := retires.trans (Reacts.widen (fun _ h => h.elim) after)
    have entry : s0.entryCount ≤ w.entryCount := lasting
    have ports : PortsKept s0 v := (PortsKept.of_eq early.1).trans (Reacts.ports_kept whole)
    have keeps : PortsKept s0 w := (PortsKept.of_eq early.1).trans (Reacts.ports_kept retires)
    have kept := Reacts.kept whole
    refine ⟨_, taken, ?_, fun k' => ?_, fun q => ?_, fun m hm => ⟨?_, fun i hi => ?_⟩, fun m i hm hi => ?_, ?_, ?_⟩
    · have racks : v.racks = (mounting k n s).racks := kept.racks
      have shelves : v.shelves = (mounting k n s).shelves := kept.shelves
      have restored : KeptByReacting (mounting k n s) v := KeptByReacting.of_holding (p := p) (r := r) (u := mounting k n s) kept
      have same : mounting k n s = { (s.modJob n fun j => { j with state := .mounted }).modWork k fun w =>
          { w with mounted := some n } with racks := v.racks, shelves := v.shelves } := by
        rw [racks, shelves]
        rfl
      rw [same] at restored
      exact restored.andLink p _
    · exact (congrArg (fun x => (tget x k').getD []) kept.racks).trans (rack_mounting (s := s0) k')
    · exact (congrArg (fun x => x.get q) kept.shelves).trans (shelf_mounting (s := s0) q)
    · have ended : Ended m s0 v := Reacts.ended after not_false entry ((ends hm).1.since le_rfl)
      exact ended.since (b := s) le_rfl
    · have first : Told (.jobEnded m i.key .retired i.lastFault) s0 w := by
        by_cases hmn : m = n
        · have here := job m
          rw [if_pos hmn, hi] at here
          exact ((ends hm).2 _ here).since (.of_eq early.1) early.2
        · have here := job m
          rw [if_neg hmn, hi] at here
          exact ((ends hm).2 _ here).since (.of_eq early.1) early.2
      exact ((first.kept (Reacts.ports_kept after)).answered p _ _ _).of_holding
    · exact Reacts.job_stays whole hm hi
    · exact answeredAt_of (r := r) rfl rfl ports
    · have clock : w.clock = s0.clock := retires.kept.clock
      exact (((told.since keeps clock).kept (Reacts.ports_kept look)).answered p _ _ _).of_holding
  · exact answers_unchanged (r := .mount _ _) hfree hplan (reqMount_noPlate (s := holding p _ s) hk hx hc hj hr)
  · exact answers_unchanged (r := .mount _ _) hfree hplan (reqMount_noJob (s := holding p _ s) hk hx hc)
  · set r : Received := ⟨tag, 15, .sound (.unmount (byteOf k.press.val) (byteOf k.pos.val))⟩ with hr'
    set s0 := holding p r s with hs0
    have taken : exec unmount s = .next ((sorterLook (raise (.plateUnmounted k n)
        (depart n .retired (s0.modWork k fun w => { w with mounted := none })))).modLink p
          (Link.answer tag 15 ⟨.ok, []⟩)) := by
      have tests : applyRequest p (.unmount (byteOf k.press.val) (byteOf k.pos.val)) s0 = _ :=
        reqUnmount_mounted (s := s0) hk hx hm
      exact exec_applied (r := .unmount _ _) hfree hplan tests
    have ordered : JobsOrdered (s0.modWork k fun w => { w with mounted := none }) := htab.jobs
    have early : SameDesk s0 (s0.modWork k fun w => { w with mounted := none }) := ⟨rfl, rfl⟩
    have retires : Reacts (fun m => m = n) (s0.modWork k fun w => { w with mounted := none }) _ :=
      depart_reacts n .retired ordered (by decide) rfl
    have ended := depart_ended n .retired ordered
    have ends (i : Job) (hi : s.job? n = some i) := depart_told (terminal := .retired) ordered (j := i) hi
    have vacates (i : Job) (hi : s.job? n = some i) (hkey : i.key = k) (hc : x.work.current = some n) :
        Attended k (depart n .retired (s0.modWork k fun w => { w with mounted := none })) ∧
          Renewed k (s0.modWork k fun w => { w with mounted := none })
            (depart n .retired (s0.modWork k fun w => { w with mounted := none })) := by
      subst hkey
      have place : (s0.modWork i.key fun w => { w with mounted := none }).pos? i.key =
          some { x with work := { x.work with mounted := none } } := by
        rw [pos?_modWork, if_pos rfl]
        exact congrArg (Option.map _) hx
      exact depart_vacates ordered hi place hc
    have raised : Reacts NoJob (depart n .retired (s0.modWork k fun w => { w with mounted := none })) _ :=
      raise_reacts (.plateUnmounted k n) _
    have plan := plan_raise (.plateUnmounted k n) (depart n .retired (s0.modWork k fun w => { w with mounted := none }))
    have told := told_raise (.plateUnmounted k n) (depart n .retired (s0.modWork k fun w => { w with mounted := none }))
    generalize depart n .retired (s0.modWork k fun w => { w with mounted := none }) = w
      at taken retires ended ends vacates raised plan told
    have look : Reacts NoJob (raise (.plateUnmounted k n) w) (sorterLook (raise (.plateUnmounted k n) w)) :=
      sorterLook_reacts _
    have looked := plan_sorterLook (raise (.plateUnmounted k n) w)
    generalize raise (.plateUnmounted k n) w = y at taken raised plan told look looked
    generalize sorterLook y = v at taken look looked
    have after := raised.trans look
    have stands : StandsAs k w v := .of_plan (looked.trans plan)
    have lasting := Reacts.entry_le retires
    have whole := retires.trans (Reacts.widen (fun _ h => h.elim) after)
    have entry : s0.entryCount ≤ w.entryCount := lasting
    have ports : PortsKept s0 v := (PortsKept.of_eq early.1).trans (Reacts.ports_kept whole)
    have keeps : PortsKept s0 w := (PortsKept.of_eq early.1).trans (Reacts.ports_kept retires)
    have keeping := Reacts.kept whole
    refine ⟨_, taken, ?_, ?_, ?_, ?_, fun i hi => ?_, ?_, fun hplaced hc => ?_⟩
    · have restored : KeptByReacting (s.modWork k fun w => { w with mounted := none }) v :=
        
        KeptByReacting.of_holding (p := p) (r := r) (u := s.modWork k fun w => { w with mounted := none }) keeping
      exact restored.andLink p _
    · have gone : Ended n s0 v := Reacts.ended after not_false entry (ended.since le_rfl)
      exact gone.since (b := s) le_rfl
    · exact fun m i hm hi => Reacts.job_stays whole hm hi
    · exact answeredAt_of (r := r) rfl rfl ports
    · have first : Told (.jobEnded n i.key .retired i.lastFault) s0 w := (ends i hi).since (.of_eq early.1) early.2
      exact ((first.kept (Reacts.ports_kept after)).answered p _ _ _).of_holding
    · have clock : w.clock = s0.clock := retires.kept.clock
      exact (((told.since keeps clock).kept (Reacts.ports_kept look)).answered p _ _ _).of_holding
    · obtain ⟨i, hi, hkey⟩ := hplaced.own k x n hx hc
      obtain ⟨attended, renewed⟩ := vacates i hi hkey hc
      have renewed' : Renewed k s w := renewed.since le_rfl
      have held : Holds (CreatedSince s) k w := (renewed_iff s w).mp renewed'
      have lastly := (renewed_iff s v).mpr (held.reacts (lasts_created s) after stands fun _ _ _ _ => not_false)
      have still : Attended k v := attended.reacts after stands
      exact ⟨lastly, still⟩
  · exact answers_unchanged (r := .unmount _ _) hfree hplan (reqUnmount_noPlate (s := holding p _ s) hk hx hm)
  · exact answers_unchanged (r := .mount b1 b2) hfree hplan (reqMount_badValue (keyOf_eq_none hb))
  · exact answers_unchanged (r := .unmount b1 b2) hfree hplan (reqUnmount_badValue (keyOf_eq_none hb))

end Sys2Proof.Machine
end

section
/-! SEPARATION_ARRIVED that adds a separation, and the arrival signal (R4, R13, R14, R28). -/

namespace Sys2Proof.Machine

open State

variable {D : Nat → Prop}

/-! ### Need tests of several positions -/

section Signal

variable {k : PosKey} {s : State}

/-- Once its need is tested, a position stays attended. -/
theorem needAndServe_attended (k : PosKey) (hs : JobsOrdered s) : Attended k (needAndServe k s) := by
  have tested : Reacts NoJob s (needTest k s) := needTest_reacts k s
  have ordered := Reacts.jobs_ordered hs tested
  have attended := needTest_attended k s
  unfold needAndServe
  generalize needTest k s = t at ordered attended ⊢
  have told : Reacts NoJob t (tellSatisfied k t) := tellSatisfied_reacts k t
  have again := Reacts.jobs_ordered ordered told
  have here := attended.reacts told (tellSatisfied_standsAs k k t)
  generalize tellSatisfied k t = u at again here ⊢
  exact here.reacts (serve_reacts again) (serve_standsAs k again)

/-- The test of another's need leaves a position as it is. -/
theorem needAndServe_standsAs {a : PosKey} (h : k ≠ a) (hs : JobsOrdered s) : StandsAs k s (needAndServe a s) := by
  have tested : Reacts NoJob s (needTest a s) := needTest_reacts a s
  have ordered := Reacts.jobs_ordered hs tested
  have stands := needTest_standsAs h s
  unfold needAndServe
  generalize needTest a s = t at ordered stands ⊢
  have told : Reacts NoJob t (tellSatisfied a t) := tellSatisfied_reacts a t
  have again := Reacts.jobs_ordered ordered told
  exact (stands.trans (tellSatisfied_standsAs k a t)).trans (serve_standsAs k again)

/-- No need test leaves an attended position unattended. -/
theorem needAndServe_keeps (a : PosKey) (hs : JobsOrdered s) (h : Attended k s) : Attended k (needAndServe a s) := by
  by_cases ha : k = a
  · exact ha ▸ needAndServe_attended k hs
  · exact h.reacts (needAndServe_reacts a hs) (needAndServe_standsAs ha hs)

/-- A fold over positions attends to each, where one step attends to its position and leaves the others attended. -/
theorem foldl_attended {I : State → Prop} (f : State → PosKey → State) (l : List PosKey)
    (hI : ∀ s a, I s → I (f s a)) (attends : ∀ s k, I s → Attended k (f s k))
    (keeps : ∀ s a k, I s → Attended k s → Attended k (f s a)) {s : State} (hs : I s) {k : PosKey}
    (h : k ∈ l ∨ Attended k s) : Attended k (l.foldl f s) := by
  induction l generalizing s with
  | nil => exact h.resolve_left List.not_mem_nil
  | cons a l ih =>
    rw [List.foldl_cons]
    have inv := hI s a hs
    have here : k ∈ l ∨ Attended k (f s a) := by
      rcases h with h | h
      · rcases List.mem_cons.mp h with rfl | h
        · exact .inr (attends s k hs)
        · exact .inl h
      · exact .inr (keeps s a k hs h)
    generalize f s a = t at inv here ⊢
    exact ih inv here

/-- After an arrival signal the positions that name the page are attended. -/
theorem arrivalSignal_attended {n : Nat} (hs : JobsOrdered s) (hk : k ∈ s.positionsNaming n) :
    Attended k (arrivalSignal n s) :=
  foldl_attended (I := JobsOrdered) (fun s k => needAndServe k s) _
    (fun _ a hs => Reacts.jobs_ordered hs (needAndServe_reacts (D := NoJob) a hs))
    (fun _ k hs => needAndServe_attended k hs) (fun _ a _ hs h => needAndServe_keeps a hs h) hs (.inl hk)

/-- An arrival signal is a reaction. -/
theorem arrivalSignal_reacts (n : Nat) (hs : JobsOrdered s) : Reacts D s (arrivalSignal n s) :=
  foldl_reacts _ _ hs fun _ h k _ => needAndServe_reacts k h

/-- A position that names a page. -/
theorem mem_positionsNaming {x : Position} {n : Nat} (hx : s.pos? k = some x) (hn : n ∈ x.content.pages) :
    k ∈ s.positionsNaming n := by
  unfold State.positionsNaming
  exact List.mem_map.mpr ⟨(k, x), List.mem_filter.mpr ⟨mem_of_tget hx, by simpa using hn⟩, rfl⟩

/-- A position after reactions has the content that it had. -/
theorem named_before {t : State} (h : KeptByReacting s t) {y : Position} (hy : t.pos? k = some y) :
    ∃ x, s.pos? k = some x ∧ y.content = x.content := by
  cases hx : s.pos? k with
  | none => rw [(h.positions k).1 hx] at hy; cases hy
  | some x =>
    obtain ⟨y', hy', content, -⟩ := (h.positions k).2 x hx
    rw [hy'] at hy
    cases hy
    exact ⟨x, rfl, content⟩

end Signal

/-! ### An arrival that adds (R4, R13, R14, R18) -/

section Arrival

variable {n v : Nat} {c : ColourClass} {x : Separation} {a : SepSet} {ref : U64} {live : Nat} {s : State}

/-- An arrival that finds room for its separation. -/
theorem arrive_adds (h : ArrivalFinds s n v c x a live) (hroom : s.slots.length < 1024) :
    arrive n v c x ref s = addArrival n v c a x ref live s := by
  have slots : freeSlots s ≠ 0 := fun hz => absurd ((freeSlots_eq_zero_iff s).mp hz) (Nat.not_le.mpr hroom)
  cases h with
  | nothing h room =>
    have pages : freePages s ≠ 0 := fun hz => absurd ((freePages_eq_zero_iff s).mp hz) (Nat.not_le.mpr room)
    unfold arrive
    rw [h]
    exact (if_neg pages).trans (if_neg slots)
  | expected r h hst =>
    unfold arrive
    rw [h]
    dsimp only
    rw [hst]
    exact if_neg slots
  | lacking r h hst hv hc hx =>
    rw [arrive_arrived h hst hv]
    unfold arriveVersion
    rw [if_neg (Nat.lt_irrefl v), if_pos rfl, if_neg (not_not_intro hc), if_neg (Bool.eq_false_iff.mp hx)]
    exact if_neg slots

/-- The test of a whole class. -/
theorem arrivedState_eq (c : ColourClass) (a : SepSet) : arrivedState c a = stateFor c a := by
  unfold arrivedState wholeClass stateFor
  cases c <;> simp [Bool.and_assoc]

/-- PAGE_COMPLETE, where the arrival makes the class whole. -/
theorem tellComplete_eq (n v : Nat) (c : ColourClass) (a : SepSet) (s : State) :
    tellComplete n v c a s = raiseAll (completes n v c a) s := by
  unfold tellComplete completes
  rw [← arrivedState_eq, arrivedState]
  cases wholeClass c a <;> rfl

/-- The record and the slot of the arrival. -/
theorem writeArrival_eq : writeArrival n v c a x ref live s =
    (s.putPage n ⟨some c, some v, a.add x, stateFor c (a.add x), live⟩).putSlot ⟨n, v, x⟩ ⟨ref, 0, true, false⟩ := by
  rw [← arrivedState_eq]
  rfl

/-- PARTIAL or COMPLETE. -/
theorem stateFor_cases (c : ColourClass) (a : SepSet) : stateFor c a = .partly ∨ stateFor c a = .complete := by
  unfold stateFor
  split
  · exact .inr rfl
  · exact .inl rfl

/-- The answer of an arrival, by the page's record. -/
theorem arrivalAnswer_eq {r : PageRec} {o : Nat} (h : s.page? n = some r) (hs : r.state = .partly ∨ r.state = .complete)
    (hv : r.version = some v) : arrivalAnswer o n s =
      ⟨.ok, [.enum o, .enum (if r.state = .complete then 2 else 1), .version v, .sepSet r.arrived]⟩ := by
  unfold arrivalAnswer
  rw [h]
  dsimp only
  rw [hv]
  rcases hs with hs | hs <;> rw [hs] <;> rfl

/-- A record of an arrived page is kept by reactions but for its count. -/
theorem PagesKept.arrived {t : State} (h : PagesKept s t) {r : PageRec} (hr : s.page? n = some r)
    (hs : r.state = .partly ∨ r.state = .complete) : ∃ m, t.page? n = some { r with liveJobs := m } := by
  refine ((h n).2 r hr).resolve_right fun hw => ?_
  rcases hs with hs | hs <;> exact absurd (hs.symm.trans hw.1) nofun

end Arrival

/-- Settles O18: the record and the slot are written, and the positions that name the page have their needs tested. -/
theorem separationAdded : Obligations.SeparationAdded := by
  intro p tag page version cls sep ref s c x a live hfree htab hright hp hv hc hx hcx finds hroom
  set r : Received := ⟨tag, 1, .sound (.separationArrived page version cls sep ref)⟩ with hr
  set new : PageRec := ⟨some c, some version.toNat, a.add x, stateFor c (a.add x), live⟩ with hnew
  set u : State := (s.putPage page.toNat new).putSlot ⟨page.toNat, version.toNat, x⟩ ⟨ref, 0, true, false⟩ with hu
  have found : ArrivalFinds (holding p r s) page.toNat version.toNat c x a live := by
    cases finds with
    | nothing h room => exact .nothing h room
    | expected r h hs => exact .expected r h hs
    | lacking r h hs hv hc hx => exact .lacking r h hs hv hc hx
  have adds : applyRequest p (.separationArrived page version cls sep ref) (holding p r s) =
      addArrival page.toNat version.toNat c a x ref live (holding p r s) :=
    (reqSeparationArrived_arrive ref (holding p r s) hp hv hc hx hcx).trans (arrive_adds found hroom)
  have written : writeArrival page.toNat version.toNat c a x ref live (holding p r s) = holding p r u := writeArrival_eq
  unfold addArrival at adds
  rw [written, tellComplete_eq] at adds
  dsimp only at adds
  have record : (holding p r u).page? page.toNat = some new :=
    (page?_putPage page.toNat new s page.toNat).trans (if_pos rfl)
  have ordered : JobsOrdered (holding p r u) := htab.jobs
  have raised : Reacts NoJob (holding p r u) (raiseAll (completes page.toNat version.toNat c (a.add x)) (holding p r u)) :=
    raiseAll_reacts _ _
  have told := raised_all (completes page.toNat version.toNat c (a.add x)) (holding p r u)
  generalize raiseAll (completes page.toNat version.toNat c (a.add x)) (holding p r u) = w at adds raised told
  have orderedW := Reacts.jobs_ordered ordered raised
  have signals : Reacts NoJob w (arrivalSignal page.toNat w) := arrivalSignal_reacts _ orderedW
  have attended {k : PosKey} (hk : k ∈ w.positionsNaming page.toNat) := arrivalSignal_attended orderedW hk
  generalize arrivalSignal page.toNat w = v at adds signals attended
  have chain := raised.trans signals
  obtain ⟨m, hm⟩ := (Reacts.kept chain).pages.arrived record (stateFor_cases c (a.add x))
  rw [arrivalAnswer_eq hm (stateFor_cases c (a.add x)) rfl] at adds
  refine answersReacting_of (r := .separationArrived page version cls sep ref) hfree hright adds chain
    (told.tells_of (Reacts.ports_kept signals)) fun k y hy hn => ?_
  have here : v.pos? k = some y := hy
  obtain ⟨x, hx, content⟩ := named_before (Reacts.kept signals) here
  have still : Attended k v := attended (mem_positionsNaming hx (content ▸ hn))
  exact still

end Sys2Proof.Machine
end

section
/-! SEPARATION_ARRIVED that replaces a BAD raster (R15, R18). -/

namespace Sys2Proof.Machine

open State

variable {D : Nat → Prop}

/-! ### Jobs that return from FAILED (R15, R67) -/

/-- A job that stayed until it was returned has been returned as it was before. -/
theorem Returned.of_stays {n a : Nat} {f : Option FaultRecord} {j i : Job} {b s t : State} (h : Returned n a f i s t)
    (k : JobStays j i) (hb : b.entryCount ≤ s.entryCount) : Returned n a f j b t := by
  obtain ⟨j', hj', state, entry, same⟩ := h
  refine ⟨j', hj', state, hb.trans_lt entry, ?_⟩
  rw [k.2] at same
  exact same

section Replaced

variable {n : Nat} {j : Job} {s : State}

/-- One job: it returns, and the engines are served. -/
theorem returnReplaced_eq (hj : s.job? n = some j) :
    returnReplaced n s = serve (requeue n j.attempt .rasterReplaced j.lastFault s) := by
  unfold returnReplaced
  rw [hj]

/-- It is a reaction. -/
theorem returnReplaced_reacts (n : Nat) (hs : JobsOrdered s) (hD : D n) : Reacts D s (returnReplaced n s) := by
  cases hj : s.job? n with
  | none =>
    have same : returnReplaced n s = s := by unfold returnReplaced; rw [hj]
    rw [same]
  | some j =>
    rw [returnReplaced_eq hj]
    refine Reacts.then hs (requeue_reacts n j.attempt .rasterReplaced j.lastFault s (fun i hi => ?_) hD) serve_reacts
    cases hj.symm.trans hi
    exact id

/-- It has returned to its queue. -/
theorem returnReplaced_returned (hs : JobsOrdered s) (hj : s.job? n = some j) :
    Returned n j.attempt j.lastFault j s (returnReplaced n s) := by
  have requeued : Reacts AnyJob s (requeue n j.attempt .rasterReplaced j.lastFault s) :=
    requeue_reacts n j.attempt .rasterReplaced j.lastFault s fun i hi => by
      cases hj.symm.trans hi
      exact id
  have returned := requeue_returned j.attempt .rasterReplaced j.lastFault hj
  have ordered := Reacts.jobs_ordered hs requeued
  rw [returnReplaced_eq hj]
  generalize requeue n j.attempt .rasterReplaced j.lastFault s = t at returned ordered ⊢
  exact returned.stays (D := NoJob) (serve_reacts ordered) not_false

/-- Several of them, each returned as it was. -/
theorem returnAll_returned (l : List Nat) (hs : JobsOrdered s) (hl : l.Nodup) (hn : n ∈ l) (hj : s.job? n = some j) :
    Returned n j.attempt j.lastFault j s (l.foldl (fun s n => returnReplaced n s) s) := by
  induction l generalizing s j with
  | nil => exact nomatch hn
  | cons m l ih =>
    obtain ⟨absent, nodup⟩ := List.nodup_cons.mp hl
    have one : Reacts (fun k => k = m) s (returnReplaced m s) := returnReplaced_reacts m hs rfl
    have ordered := Reacts.jobs_ordered hs one
    rw [List.foldl_cons]
    by_cases here : n = m
    · subst here
      have returned := returnReplaced_returned hs hj
      generalize returnReplaced n s = t at ordered returned ⊢
      have rest : Reacts (fun k => k ∈ l) t (l.foldl (fun s n => returnReplaced n s) t) :=
        foldl_reacts _ _ ordered fun _ h k hk => returnReplaced_reacts k h hk
      exact returned.stays rest absent
    · obtain ⟨i, hi, stays⟩ := Reacts.job_stays one here hj
      have entry := Reacts.entry_le one
      generalize returnReplaced m s = t at ordered hi entry ⊢
      have returned := ih ordered nodup ((List.mem_cons.mp hn).resolve_left here) hi
      have same : i.attempt = j.attempt ∧ i.lastFault = j.lastFault := by
        rw [stays.2]
        exact ⟨rfl, rfl⟩
      rw [same.1, same.2] at returned
      exact returned.of_stays stays entry

/-- The jobs that a replaced raster frees (R15). -/
theorem mem_replacedJobs_iff (hs : JobsOrdered s) (k : SlotKey) (n : Nat) : n ∈ replacedJobs s k ↔
    ∃ j f, s.job? n = some j ∧ j.state = .failed ∧ j.lastFault = some f ∧ f.cause = .rasterUnreadable ∧ k ∈ j.slots ∧
      ∀ k' ∈ j.slots, ∀ y, s.slot? k' = some y → y.bad = false := by
  unfold replacedJobs
  rw [List.mem_map]
  constructor
  · rintro ⟨⟨m, j⟩, hm, rfl⟩
    rw [List.mem_filter] at hm
    obtain ⟨hmem, hp⟩ := hm
    simp only [Bool.and_eq_true, decide_eq_true_eq, Option.any_eq_true, List.contains_iff_mem, List.all_eq_true,
      Bool.not_eq_true'] at hp
    obtain ⟨⟨⟨state, f, fault, cause⟩, slot⟩, sound⟩ := hp
    refine ⟨j, f, tget_of_mem hs hmem, state, fault, cause, slot, fun k' hk' y hy => ?_⟩
    have clear := sound k' hk'
    rw [hy] at clear
    exact clear
  · rintro ⟨j, f, hj, state, fault, cause, slot, sound⟩
    refine ⟨(n, j), List.mem_filter.mpr ⟨mem_of_tget hj, ?_⟩, rfl⟩
    simp only [Bool.and_eq_true, decide_eq_true_eq, Option.any_eq_true, List.contains_iff_mem, List.all_eq_true,
      Bool.not_eq_true']
    refine ⟨⟨⟨state, f, fault, cause⟩, slot⟩, fun k' hk' => ?_⟩
    cases hy : s.slot? k' with
    | none => rfl
    | some y => exact sound k' hk' y hy

/-- No job is named twice. -/
theorem replacedJobs_nodup (hs : JobsOrdered s) (k : SlotKey) : (replacedJobs s k).Nodup :=
  (keys_nodup hs).sublist (List.Sublist.map _ List.filter_sublist)

end Replaced

/-- Settles O19: the slot takes the new raster, and the jobs it frees return one after another. -/
theorem separationReplaced : Obligations.SeparationReplaced := by
  intro p tag page version cls sep ref s c x rec o hfree htab hright hp hv hc hx hcx hpage hst hver hcls harr k hslot hbad
    u freed
  set r : Received := ⟨tag, 1, .sound (.separationArrived page version cls sep ref)⟩ with hr
  have bad : ((holding p r s).slot? k).any Slot.bad = true := by
    show (s.slot? k).any Slot.bad = true
    rw [hslot]
    exact hbad
  have replaces : applyRequest p (.separationArrived page version cls sep ref) (holding p r s) =
      replaceRaster k ref (holding p r s) := by
    refine (reqSeparationArrived_arrive ref (holding p r s) hp hv hc hx hcx).trans ?_
    rw [arrive_arrived (s := holding p r s) hpage hst hver]
    unfold arriveVersion
    rw [if_neg (Nat.lt_irrefl _), if_pos rfl, if_neg (not_not_intro hcls), if_pos harr]
    exact if_pos bad
  have written : (holding p r s).modSlot k (fun x => { x with ref := ref, bad := false }) = holding p r u := rfl
  unfold replaceRaster at replaces
  dsimp only at replaces
  rw [written] at replaces
  have ordered : JobsOrdered (holding p r u) := htab.jobs
  have raised : Reacts NoJob (holding p r u) (raise (.rasterReplaced k) (holding p r u)) := raise_reacts _ _
  have told := raised_one (.rasterReplaced k) (holding p r u)
  have same := raise_same (.rasterReplaced k) (holding p r u)
  generalize raise (.rasterReplaced k) (holding p r u) = w at replaces raised told same
  have orderedW := Reacts.jobs_ordered ordered raised
  have jobs (n : Nat) : w.job? n = s.job? n := by
    rw [same]
    rfl
  have slots (k : SlotKey) : w.slot? k = u.slot? k := by
    rw [same]
    rfl
  have freed_iff (n : Nat) : n ∈ replacedJobs w k ↔ freed n := by
    rw [mem_replacedJobs_iff orderedW]
    simp only [jobs, slots]
    rfl
  have nodup := replacedJobs_nodup orderedW k
  have each {n : Nat} {j : Job} (hn : n ∈ replacedJobs w k) (hj : w.job? n = some j) :=
    returnAll_returned _ orderedW nodup hn hj
  have returns : Reacts freed w ((replacedJobs w k).foldl (fun s n => returnReplaced n s) w) :=
    foldl_reacts _ _ orderedW fun _ h n hn => returnReplaced_reacts n h ((freed_iff n).mp hn)
  generalize (replacedJobs w k).foldl (fun s n => returnReplaced n s) w = v at replaces each returns
  have chain : Reacts freed (holding p r u) v := (raised.widen fun _ => False.elim).trans returns
  have record : (holding p r u).page? page.toNat = some rec := hpage
  obtain ⟨m, hm⟩ := (Reacts.kept chain).pages.arrived record hst
  rw [arrivalAnswer_eq (n := k.page) hm hst hver] at replaces
  refine answersReacting_of (r := .separationArrived page version cls sep ref) hfree hright replaces chain
    (told.tells_of (Reacts.ports_kept returns)) fun n j hj hn => ?_
  have returned : Returned n j.attempt j.lastFault j w v := each ((freed_iff n).mpr hn) ((jobs n).trans hj)
  have entry : s.entryCount ≤ w.entryCount := by rw [same]; exact le_rfl
  exact returned.since entry

end Sys2Proof.Machine
end

section
/-! Departures and returns leave the engines as serving does: a job that waits stays, is sent EXPOSE or is parked, and a
parked job stays (R50, R65, R81, R82, R85). -/

namespace Sys2Proof.Machine

open State

/-- Every engine is served at most. -/
def EnginesKept (s t : State) : Prop := ∀ e, EngineServed (s.engine e) (t.engine e)

/-- The engines are the same. -/
theorem EnginesKept.of_eq {s t : State} (h : t.engines = s.engines) : EnginesKept s t := fun e => by
  rw [engine_of_engines h e]
  exact .refl _

/-- Nothing happens. -/
theorem EnginesKept.refl (s : State) : EnginesKept s s := fun _ => .refl _

/-- One after another. -/
theorem EnginesKept.trans {s t u : State} (h : EnginesKept s t) (k : EnginesKept t u) : EnginesKept s u := fun e =>
  (h e).trans (k e)

/-- Where tables, presses and ports alone change. -/
theorem TableOnly.engines {s t : State} (h : TableOnly s t) : EnginesKept s t := by
  rw [h]
  exact .of_eq rfl

/-- Serving the engines. -/
theorem serve_engines {s : State} (hs : JobsOrdered s) : EnginesKept s (serve s) := (serve_kept hs).1.engines

/-- Serving the deferred positions. -/
theorem serveFrom_engines (l : List PosKey) {s : State} (hs : JobsOrdered s) : EnginesKept s (serveFrom serve l s) := by
  induction l generalizing s with
  | nil => exact .refl s
  | cons k l ih =>
    have tested := (needTest_tableOnly k s).engines
    have ordered := Reacts.jobs_ordered hs (needTest_reacts (D := NoJob) k s)
    have served := serve_engines ordered
    have again := Reacts.jobs_ordered ordered (serve_reacts (D := NoJob) ordered)
    unfold serveFrom
    dsimp only
    split
    · split
      · exact (tested.trans served).trans (ih again)
      · exact tested.trans served
    · exact tested.trans (ih ordered)

/-- A departure. -/
theorem depart_engines (n : Nat) (terminal : JobState) {s : State} (hs : JobsOrdered s)
    (ht : terminal ≠ .uncertain := by decide) : EnginesKept s (depart n terminal s) := by
  have core := (departCore_tableOnly n terminal s).engines
  have chain : Reacts AnyJob s (departCore n terminal s) := departCore_reacts n terminal s ht
  have ordered := Reacts.jobs_ordered hs chain
  unfold depart departBy serveDeferred
  generalize departCore n terminal s = u at core ordered ⊢
  have after : Reacts AnyJob u (serveFrom serve (deferredOrder u) u) :=
    serveFrom_reacts (fun _ h => serve_reacts h) _ ordered
  exact (core.trans (serveFrom_engines _ ordered)).trans (serve_engines (Reacts.jobs_ordered ordered after))

/-- A return by a fault of the job's own. -/
theorem returnByFault_engines (n : Nat) (c : FaultCause) (p : FaultParam) (terminal : JobState) {s : State}
    (hs : JobsOrdered s) (ht : terminal ≠ .uncertain := by decide) : EnginesKept s (returnByFault n c p terminal s) := by
  have recorded : EnginesKept s (recordFault n c p s) := .of_eq rfl
  have ordered : JobsOrdered (recordFault n c p s) :=
    Reacts.jobs_ordered hs (recordFault_reacts (D := AnyJob) n c p s)
  unfold returnByFault returnByFaultBy
  dsimp only
  split
  · exact recorded
  · split
    · exact recorded.trans (depart_engines n terminal ordered ht)
    · exact recorded.trans (requeue_tableOnly n _ _ _ _).engines

end Sys2Proof.Machine
end

section
/-! Where no URGENT job is queued, serving the engines sends EXPOSE for every next job that is loaded, while its lane has
room (R85, R86, R168). -/

namespace Sys2Proof.Machine

open State

/-- No URGENT job is queued. -/
def Calm (s : State) : Prop := ∀ n j, s.job? n = some j → j.state = .queued → j.cls = .normal

/-- Serving keeps it so. -/
theorem Calm.served {s t : State} (h : Calm s) (k : KeptByServing s t) : Calm t := by
  intro n i hi queued
  cases hj : s.job? n with
  | none => exact absurd hi (by rw [(k.jobs n).1 hj]; nofun)
  | some j =>
    obtain ⟨i', hi', state, same⟩ := (k.jobs n).2 j hj
    obtain rfl : i = i' := Option.some.inj (hi.symm.trans hi')
    have before : j.state = .queued := by
      rcases state with h | ⟨h, _⟩
      · exact h.symm.trans queued
      · exact h
    have cls : i.cls = j.cls := by rw [same]
    exact cls.trans (h n j hj before)

/-- A waiting job that has been sent EXPOSE. -/
def sentAs (load : Nat) (w : WaitingCtx) : WaitingCtx := { w with stage := .exposeSent, timer := some load }

/-- A next job stands as it was, or has been sent EXPOSE. -/
def NextOrSent (load : Nat) (w : WaitingCtx) (x : Option WaitingCtx) : Prop := x = some w ∨ x = some (sentAs load w)

section Next

variable {w : WaitingCtx} {e : EngineId}

/-- A place that holds a job is not filled. -/
theorem fill_nextOrSent (a : EngineId) {s : State} {load : Nat} (h : NextOrSent load w (s.engine e).ctx.next) :
    ((fill a s).engine e).ctx.next = (s.engine e).ctx.next := by
  by_cases ha : e = a
  · subst ha
    have taken : (s.engine e).ctx.next ≠ none := by rcases h with h | h <;> rw [h] <;> nofun
    rw [fill_same (.inl taken)]
  · unfold fill
    split
    · split
      · rw [next_assign, if_neg ha]
      · rfl
    · rfl

/-- Sending EXPOSE. -/
theorem sendExpose_nextOrSent (a : EngineId) {s : State} (h : NextOrSent s.limits.load w (s.engine e).ctx.next) :
    NextOrSent s.limits.load w ((sendExpose a s).engine e).ctx.next := by
  rw [engine_sendExpose]
  split
  · right
    rcases h with h | h
    · dsimp only
      rw [h]
      rfl
    · dsimp only
      rw [h]
      rfl
  · exact h

/-- The limits stay. -/
theorem limits_sendExpose (a : EngineId) (s : State) : (sendExpose a s).limits = s.limits := by
  unfold sendExpose
  split <;> rfl

/-- A step of a lane's exposures. -/
theorem exposeOnce_nextOrSent (l : LaneId) {load : Nat} {s : State}
    (h : s.limits.load = load ∧ NextOrSent load w (s.engine e).ctx.next) :
    (exposeOnce l s).limits.load = load ∧ NextOrSent load w ((exposeOnce l s).engine e).ctx.next := by
  obtain ⟨rfl, h⟩ := h
  unfold exposeOnce
  split
  · split
    · exact ⟨by rw [limits_sendExpose], sendExpose_nextOrSent _ h⟩
    · exact ⟨rfl, h⟩
  · exact ⟨rfl, h⟩

/-- A lane's exposures. -/
theorem exposeLane_nextOrSent (l : LaneId) {load : Nat} {s : State}
    (h : s.limits.load = load ∧ NextOrSent load w (s.engine e).ctx.next) :
    (exposeLane l s).limits.load = load ∧ NextOrSent load w ((exposeLane l s).engine e).ctx.next :=
  exposeOnce_nextOrSent l (exposeOnce_nextOrSent l (exposeOnce_nextOrSent l h))

/-- With no URGENT job offered none preempts. -/
theorem preemptAll_calm {s : State} (hs : JobsOrdered s) (h : Calm s) : preemptAll s = s := by
  have none : s.offered .urgent = [] := by
    refine List.eq_nil_iff_forall_not_mem.mpr fun x hx => ?_
    obtain ⟨⟨hj, queued, _⟩, urgent⟩ := (State.mem_offered_iff hs .urgent x.1 x.2).mp hx
    have normal := h x.1 x.2 hj queued
    rw [urgent] at normal
    exact nomatch normal
  unfold preemptAll
  rw [none]
  rfl

/-- Filling the engines' places. -/
theorem fillAll_nextOrSent {load : Nat} {s : State} (h : NextOrSent load w (s.engine e).ctx.next) :
    NextOrSent load w ((fillAll s).engine e).ctx.next := by
  unfold fillAll
  generalize allEngines = as
  induction as generalizing s with
  | nil => exact h
  | cons a as ih => exact ih (by rw [fill_nextOrSent a h]; exact h)

/-- The exposures of both lanes. -/
theorem exposeBoth_nextOrSent {load : Nat} {s : State} (hl : s.limits.load = load)
    (h : NextOrSent load w (s.engine e).ctx.next) :
    NextOrSent load w ((exposeLane 1 (exposeLane 0 s)).engine e).ctx.next := by
  have first := exposeLane_nextOrSent 0 ⟨hl, h⟩
  generalize exposeLane 0 s = t at first ⊢
  exact (exposeLane_nextOrSent 1 first).2

/-- Filling, with no URGENT job that preempts. -/
theorem preempted_calm {s : State} (hs : JobsOrdered s) (calm : Calm s) : preemptAll (fillAll s) = fillAll s := by
  have filled := fillAll_serves hs
  exact preemptAll_calm (Serves.jobs_ordered hs filled) (calm.served filled.kept)

/-- Filling, preempting and exposing. -/
theorem filled_nextOrSent {load : Nat} {s : State} (hs : JobsOrdered s) (calm : Calm s) (hl : s.limits.load = load)
    (h : NextOrSent load w (s.engine e).ctx.next) :
    NextOrSent load w ((exposeLane 1 (exposeLane 0 (preemptAll (fillAll s)))).engine e).ctx.next := by
  have filled : (fillAll s).limits.load = load := by rw [(fillAll_serves hs).kept.limits, hl]
  have stands := fillAll_nextOrSent h
  rw [preempted_calm hs calm]
  generalize fillAll s = t at filled stands ⊢
  exact exposeBoth_nextOrSent filled stands

/-- Serving the engines. -/
theorem serve_nextOrSent {load : Nat} {s : State} (hs : JobsOrdered s) (calm : Calm s) (hl : s.limits.load = load)
    (h : NextOrSent load w (s.engine e).ctx.next) : NextOrSent load w ((serve s).engine e).ctx.next := by
  have judged := evalStarved_serves s
  have ordered := Serves.jobs_ordered hs judged
  have limits : (evalStarved s).limits.load = load := by rw [judged.kept.limits, hl]
  have next : NextOrSent load w ((evalStarved s).engine e).ctx.next := by
    rw [engine_of_engines (engines_evalStarved s) e]
    exact h
  have after := filled_nextOrSent ordered (calm.served judged.kept) limits next
  have parts : worked s = exposeLane 1 (exposeLane 0 (preemptAll (fillAll (evalStarved s)))) := rfl
  rw [serve_eq, engine_evalReached, parts]
  exact after

end Next

/-! ### A lane's room (R86) -/

/-- The plates in a lane's order, and the exposures that run on its engines. -/
def occupied (s : State) (l : LaneId) : Nat :=
  (s.lane l).floor.order.length +
    ((allEngines.filter fun e => laneFed e = l).filter fun e => (s.engine e).ctx.current.isSome).length

/-- They are part of its load. -/
theorem occupied_le (s : State) (l : LaneId) : occupied s l ≤ loadOf s l := Nat.le_add_right _ _

/-- With an engine whose next job has not been sent EXPOSE, the load is at most two more. -/
theorem loadOf_le {s : State} {l : LaneId} {e : EngineId} (hl : laneFed e = l)
    (h : ((s.engine e).ctx.next.any fun w => w.stage = .exposeSent) = false) : loadOf s l ≤ occupied s l + 2 := by
  have three : ∀ l, (allEngines.filter fun e => laneFed e = l).length = 3 := by decide
  have fewer : ((allEngines.filter fun e => laneFed e = l).filter fun e =>
      (s.engine e).ctx.next.any fun w => w.stage = .exposeSent).length <
      (allEngines.filter fun e => laneFed e = l).length := by
    refine List.length_filter_lt_length_iff_exists.mpr ⟨e, ?_, by rw [h]; nofun⟩
    exact List.mem_filter.mpr ⟨mem_allEngines e, by simpa using hl⟩
  rw [three] at fewer
  exact Nat.add_le_add_left (Nat.le_of_lt_succ fewer) _

/-- An engine whose next job was loaded: it can expose it, or has been told to. -/
structure Readied (load : Nat) (w : WaitingCtx) (s : State) (e : EngineId) : Prop where
  works : CanWork (s.engine e)
  current : (s.engine e).ctx.current = none
  next : NextOrSent load w (s.engine e).ctx.next

/-- A loaded one is. -/
theorem Loaded.readied {s : State} {e : EngineId} {w : WaitingCtx} (h : Loaded s e w) : Readied s.limits.load w s e :=
  ⟨h.works, h.current, .inl h.next⟩

section Served

variable {load : Nat} {w : WaitingCtx} {e : EngineId}

/-- An engine that can work still can once it has been served. -/
theorem CanWork.served {x y : Engine} (h : CanWork x) (k : EngineServed x y) : CanWork y := by
  obtain ⟨running, held, stopped, format, count⟩ := h
  refine ⟨?_, ?_, ?_, ?_, ?_⟩
  · rw [k.status]; exact running
  · rw [k.gates]; exact held
  · rw [k.gates]; exact stopped
  · rw [k.cassette]; exact format
  · rw [k.cassette]; exact count

/-- Serving keeps what occupies a lane. -/
theorem occupied_served {s t : State} (k : KeptByServing s t) (l : LaneId) : occupied t l = occupied s l := by
  have order : (t.lane l).floor.order = (s.lane l).floor.order := by rw [k.lanes l]
  have current (e : EngineId) : (t.engine e).ctx.current = (s.engine e).ctx.current := (k.engines e).current
  unfold occupied
  simp only [order, current]

/-- Serving keeps an engine readied. -/
theorem Readied.served {s : State} (hs : JobsOrdered s) (calm : Calm s) (hl : s.limits.load = load)
    (h : Readied load w s e) : Readied load w (serve s) e :=
  have k := (serve_kept hs).1.engines e
  ⟨h.works.served k, k.current.trans h.current, serve_nextOrSent hs calm hl h.next⟩

/-- In an open lane with room for all three, serving sends EXPOSE for what is loaded. -/
theorem serve_sends {s : State} (hs : JobsOrdered s) (calm : Calm s) (hl : s.limits.load = load)
    (h : Readied load w s e) (hw : w.stage = .loaded) (room : occupied s (laneFed e) ≤ 9)
    (opened : (s.lane (laneFed e)).clearing = false) :
    ((serve s).engine e).ctx.next = some (sentAs load w) := by
  have kept := (serve_kept hs).1
  have after := h.served hs calm hl
  have served := serve_served hs
  rw [← occupied_served kept] at room
  have clearing : ((serve s).lane (laneFed e)).clearing = false := by rw [kept.lanes]; exact opened
  generalize serve s = t at after served room clearing ⊢
  refine after.next.resolve_left fun next => ?_
  have unsent : ((t.engine e).ctx.next.any fun w => w.stage = .exposeSent) = false := by
    rw [next]
    simp [hw]
  have load := loadOf_le rfl unsent
  exact served.exposed e w ⟨after.works, after.current, next, hw⟩ ⟨by omega, clearing⟩

/-- A job that has been sent EXPOSE stays next while the engines are served. -/
theorem EnginesKept.sent {s t : State} (k : EnginesKept s t) (h : (s.engine e).ctx.next = some (sentAs load w)) :
    (t.engine e).ctx.next = some (sentAs load w) := by
  rcases (k e).next _ h with h | ⟨h, _⟩ | ⟨h, _⟩
  · exact h
  · exact nomatch h
  · exact absurd rfl h

end Served

end Sys2Proof.Machine
end

section
/-! The end of clearing phases, and the settlement of UNCERTAIN jobs (R168, R171, R172). -/

namespace Sys2Proof.Machine

open State

variable {D : Nat → Prop} {L : LaneId → Prop}

/-! ### Reactions between which lanes are opened and settlements counted -/

/-- A reaction, an entry in restart control's record, or the end of a lane's clearing phase. -/
inductive SettleStep (D : Nat → Prop) (L : LaneId → Prop) : State → State → Prop
  | react {s t : State} (h : ReactStep D s t) : SettleStep D L s t
  | tally (s : State) (f : Restart → Restart) : SettleStep D L s (s.modRestart f)
  | opened (s : State) (l : LaneId) (h : L l) : SettleStep D L s (clearClearing l s)

/-- A chain of them. -/
abbrev Settles (D : Nat → Prop) (L : LaneId → Prop) : State → State → Prop := Relation.ReflTransGen (SettleStep D L)

/-- Reactions are such a chain. -/
theorem Reacts.settles {s t : State} (h : Reacts D s t) : Settles D L s t :=
  Relation.ReflTransGen.mono (p := SettleStep D L) (fun _ _ k => SettleStep.react k) _ _ h

/-- The lanes' clearing flags and restart control's record as they stand in another state. -/
def reopened (s t : State) : State :=
  { s with
    lanes := Vector.ofFn fun l => { s.lane l with clearing := (t.lane l).clearing }
    restart := t.restart }

/-- A lane of it. -/
theorem lane_reopened (s t : State) (l : LaneId) :
    (reopened s t).lane l = { s.lane l with clearing := (t.lane l).clearing } := by
  simp [reopened, State.lane]

/-- Nothing has been reopened. -/
theorem reopened_self (s : State) : reopened s s = s := by
  have lanes : (Vector.ofFn fun l => { s.lane l with clearing := (s.lane l).clearing }) = s.lanes := by
    apply Vector.ext
    intro i hi
    rw [Vector.getElem_ofFn]
    rfl
  unfold reopened
  rw [lanes]

section Chain

variable {s t : State}

/-- The job table stays in order. -/
theorem Settles.jobs_ordered (hs : JobsOrdered s) (h : Settles D L s t) : JobsOrdered t := by
  induction h with
  | refl => exact hs
  | tail _ step ih =>
    cases step with
    | react h => exact h.jobs_ordered ih
    | _ => exact ih

/-- No entry number is given back. -/
theorem Settles.entry_le (h : Settles D L s t) : s.entryCount ≤ t.entryCount := by
  induction h with
  | refl => exact le_rfl
  | tail _ step ih =>
    cases step with
    | react h => exact ih.trans h.entry_le
    | _ => exact ih

/-- The ports are kept. -/
theorem Settles.ports_kept (h : Settles D L s t) : PortsKept s t := by
  induction h with
  | refl => exact .refl _
  | tail _ step ih =>
    cases step with
    | react h => exact ih.trans h.ports_kept
    | _ => exact ih

/-- The other jobs stay. -/
theorem Settles.job_stays (h : Settles D L s t) {n : Nat} {j : Job} (hn : ¬ D n) (hj : s.job? n = some j) :
    ∃ j', t.job? n = some j' ∧ JobStays j j' := by
  induction h with
  | refl => exact ⟨j, hj, .refl j⟩
  | tail _ step ih =>
    obtain ⟨i, hi, first⟩ := ih
    cases step with
    | react h =>
      obtain ⟨i', hi', second⟩ := h.job_stays hn hi
      exact ⟨i', hi', first.trans second⟩
    | _ => exact ⟨i, hi, first⟩

/-- A job that has ended stays so. -/
theorem Settles.ended {b : State} (h : Settles D L s t) {n : Nat} (hn : ¬ D n) (hb : b.entryCount ≤ s.entryCount)
    (he : Ended n b s) : Ended n b t := by
  induction h with
  | refl => exact he
  | tail before step ih =>
    cases step with
    | react h => exact h.ended hn (hb.trans (Settles.entry_le before)) ih
    | _ => exact ih

/-- A job that has returned stays so. -/
theorem Settles.returned {b : State} (h : Settles D L s t) {n a : Nat} {f : Option FaultRecord} {j : Job} (hn : ¬ D n)
    (hr : Returned n a f j b s) : Returned n a f j b t := by
  induction h with
  | refl => exact hr
  | tail _ step ih =>
    cases step with
    | react h => exact ih.stays (.single h) hn
    | _ => exact ih

/-- The clearing phase of another lane does not end. -/
theorem Settles.clearing (h : Settles D L s t) {l : LaneId} (hl : ¬ L l) :
    (t.lane l).clearing = (s.lane l).clearing := by
  induction h with
  | refl => rfl
  | tail _ step ih =>
    cases step with
    | react h => exact (h.kept.lanes l).clearing.trans ih
    | tally => exact ih
    | opened a ha =>
      have other : l ≠ a := fun e => hl (e ▸ ha)
      unfold clearClearing
      rw [lane_modLane, if_neg other]
      exact ih

/-- All else is kept. -/
theorem Settles.kept (h : Settles D L s t) : KeptByReacting (reopened s t) t := by
  induction h with
  | refl =>
    rw [reopened_self]
    exact .refl _
  | @tail u v _ step ih =>
    cases step with
    | react h =>
      have kept := h.kept
      have same : reopened s v = reopened s u := by
        unfold reopened
        simp only [kept.restart, (kept.lanes _).clearing]
      rw [same]
      exact ih.trans kept
    | tally f => exact { ih with restart := rfl }
    | opened l _ =>
      have lane (q : LaneId) : LaneKept ((reopened s (clearClearing l u)).lane q) ((clearClearing l u).lane q) := by
        have kept := ih.lanes q
        rw [lane_reopened] at kept
        rw [lane_reopened]
        obtain ⟨order, exit, held, inspections, transit, policy, -, lost, idle⟩ := kept
        unfold clearClearing
        rw [lane_modLane]
        split
        · refine ⟨order, exit, held, inspections, transit, policy, rfl, lost, fun none => ?_⟩
          rw [idle none]
        · exact ⟨order, exit, held, inspections, transit, policy, rfl, lost, idle⟩
      have floors (q : LaneId) : ((reopened s (clearClearing l u)).lane q).floor = ((reopened s u).lane q).floor := by
        rw [lane_reopened, lane_reopened]
      have gates (q : LaneId) : ((reopened s (clearClearing l u)).lane q).gates = ((reopened s u).lane q).gates := by
        rw [lane_reopened, lane_reopened]
      have after (q : LaneId) : ((clearClearing l u).lane q).gates = (u.lane q).gates := by
        unfold clearClearing
        rw [lane_modLane]
        split <;> rfl
      refine { ih with lanes := lane, sorterIdle := fun none => ?_, running := fun h => ?_ }
      · exact ih.sorterIdle fun q => by rw [← floors q]; exact none q
      · obtain ⟨line, stopped⟩ := ih.running h
        exact ⟨line, fun q => by rw [after, gates]; exact stopped q⟩

/-- The clock stands. -/
theorem Settles.clock (h : Settles D L s t) : t.clock = s.clock := h.kept.clock

end Chain

/-! ### The settlement of jobs (R171) -/

/-- No lane. -/
abbrev NoLane : LaneId → Prop := fun _ => False

/-- What a settlement makes of a job: its fault is recorded and it returns to its queue, or ends if it is superseded. -/
def SettledAs (n : Nat) (j : Job) (b t : State) : Prop :=
  (j.superseded = false →
    Returned n j.attempt (some ⟨.plateNotFound, .lane (j.lane.getD 0), b.clock⟩) j b t) ∧
  (j.superseded = true → Ended n b t)

/-- It stays so through what does not take the job. -/
theorem SettledAs.stays {b s t : State} {n : Nat} {j : Job} (h : SettledAs n j b s) (hb : b.entryCount ≤ s.entryCount)
    (k : Settles D L s t) (hn : ¬ D n) : SettledAs n j b t :=
  ⟨fun hs => k.returned hn (h.1 hs), fun hs => k.ended hn hb (h.2 hs)⟩

/-- It is so since a state before, in which the job stood the same. -/
theorem SettledAs.since {b s t : State} {n : Nat} {j i : Job} (h : SettledAs n i s t) (k : JobStays j i)
    (hb : b.entryCount ≤ s.entryCount) (hc : s.clock = b.clock) : SettledAs n j b t := by
  have lane : i.lane = j.lane := by rw [k.2]
  have attempt : i.attempt = j.attempt := by rw [k.2]
  have superseded : i.superseded = j.superseded := by rw [k.2]
  obtain ⟨returned, ended⟩ := h
  rw [lane, attempt, superseded, hc] at returned
  rw [superseded] at ended
  exact ⟨fun hs => (returned hs).of_stays k hb, fun hs => (ended hs).since hb⟩

/-- The job's own part of a settlement. -/
def settledBare (n : Nat) (j : Job) (s : State) : State :=
  if j.superseded then depart n .discarded s
  else returnByFault n .plateNotFound (.lane (j.lane.getD 0)) .discarded s

section Settle

variable {n : Nat} {j : Job} {s : State}

/-- A settlement, step by step. -/
theorem settle_eq (hj : s.job? n = some j) : settle n s = serve (countSettled j.superseded (settledBare n j s)) := by
  unfold settle
  rw [hj]
  rfl

/-- The job's own part is a reaction. -/
theorem settledBare_reacts (hs : JobsOrdered s) (hD : D n) : Reacts D s (settledBare n j s) := by
  unfold settledBare
  split
  · exact depart_reacts n _ hs (by decide) hD
  · exact returnByFault_reacts n _ _ _ hs (by decide) hD

/-- A settlement is a chain that takes the job. -/
theorem settle_settles (n : Nat) (hs : JobsOrdered s) (hD : D n) : Settles D L s (settle n s) := by
  cases hj : s.job? n with
  | none =>
    have same : settle n s = s := by unfold settle; rw [hj]
    rw [same]
  | some j =>
    have bare : Reacts D s (settledBare n j s) := settledBare_reacts hs hD
    have ordered := Reacts.jobs_ordered hs bare
    have counted : Settles D L (settledBare n j s) (countSettled j.superseded (settledBare n j s)) :=
      .single (.tally _ _)
    have ordered' := Settles.jobs_ordered ordered counted
    have serves : Reacts D _ (serve (countSettled j.superseded (settledBare n j s))) := serve_reacts ordered'
    rw [settle_eq hj]
    exact (Reacts.settles bare).trans (counted.trans (Reacts.settles serves))

/-- What the job's own part makes of it. -/
theorem settledBare_settled (hs : JobsOrdered s) (hj : s.job? n = some j) : SettledAs n j s (settledBare n j s) := by
  unfold settledBare
  split
  next hsup => exact ⟨fun h => absurd hsup (by rw [h]; decide), fun _ => depart_ended n _ hs⟩
  next hsup =>
    have current : j.superseded = false := Bool.eq_false_iff.mpr hsup
    exact ⟨fun _ => returnByFault_returned _ _ _ hj current, fun h => absurd h hsup⟩

/-- What a settlement makes of its job. -/
theorem settle_settled (hs : JobsOrdered s) (hj : s.job? n = some j) : SettledAs n j s (settle n s) := by
  have bare : Reacts AnyJob s (settledBare n j s) := settledBare_reacts hs trivial
  have ordered := Reacts.jobs_ordered hs bare
  have settled := settledBare_settled hs hj
  have le := Reacts.entry_le bare
  rw [settle_eq hj]
  generalize settledBare n j s = u at ordered settled le ⊢
  have counted : Settles NoJob NoLane u (countSettled j.superseded u) := .single (.tally _ _)
  have serves : Reacts NoJob _ (serve (countSettled j.superseded u)) :=
    serve_reacts (Settles.jobs_ordered ordered counted)
  exact settled.stays le (counted.trans (Reacts.settles serves)) not_false

/-- The engines keep what they have been told. -/
theorem settle_engines (n : Nat) (hs : JobsOrdered s) : EnginesKept s (settle n s) := by
  cases hj : s.job? n with
  | none =>
    have same : settle n s = s := by unfold settle; rw [hj]
    rw [same]
    exact .refl s
  | some j =>
    have bare : Reacts AnyJob s (settledBare n j s) := settledBare_reacts hs trivial
    have ordered := Reacts.jobs_ordered hs bare
    have kept : EnginesKept s (settledBare n j s) := by
      unfold settledBare
      split
      · exact depart_engines n _ hs
      · exact returnByFault_engines n _ _ _ hs
    rw [settle_eq hj]
    generalize settledBare n j s = u at ordered kept ⊢
    have counted : EnginesKept u (countSettled j.superseded u) := .of_eq rfl
    exact (kept.trans counted).trans (serve_engines ordered)

/-- A settlement in restart control's counts. -/
def counted (superseded : Bool) (c : ReconcileCounts) : ReconcileCounts :=
  if superseded then { c with discarded := c.discarded + 1 } else { c with requeued := c.requeued + 1 }

/-- A settlement enters restart control's record. -/
theorem settle_restart (hs : JobsOrdered s) (hj : s.job? n = some j) :
    (settle n s).restart = { s.restart with counts := counted j.superseded s.restart.counts } := by
  have bare : Reacts AnyJob s (settledBare n j s) := settledBare_reacts hs trivial
  have ordered := Reacts.jobs_ordered hs bare
  have same := (Reacts.kept bare).restart
  rw [settle_eq hj]
  generalize settledBare n j s = u at ordered same ⊢
  have chain : Settles NoJob NoLane u (countSettled j.superseded u) := .single (.tally _ _)
  have served := (serve_kept (Settles.jobs_ordered ordered chain)).1.restart
  rw [served, ← same]
  unfold countSettled counted
  cases j.superseded <;> rfl

end Settle

/-! ### One after another -/

section All

variable {l : List Nat} {s : State}

/-- The first, and then the others. -/
theorem settleAll_cons (n : Nat) (l : List Nat) (s : State) : settleAll (n :: l) s = settleAll l (settle n s) :=
  List.foldl_cons ..

/-- The whole is a chain that takes the jobs. -/
theorem settleAll_settles (l : List Nat) (hs : JobsOrdered s) (hD : ∀ n ∈ l, D n) : Settles D L s (settleAll l s) :=
  foldl_chain_of _ (fun _ _ hs h => Settles.jobs_ordered hs h) l s hs fun _ hs n hn => settle_settles n hs (hD n hn)

/-- The engines keep what they have been told. -/
theorem settleAll_engines (l : List Nat) (hs : JobsOrdered s) : EnginesKept s (settleAll l s) := by
  induction l generalizing s with
  | nil => exact .refl s
  | cons n l ih =>
    have one : Settles AnyJob NoLane s (settle n s) := settle_settles n hs trivial
    rw [settleAll_cons]
    exact (settle_engines n hs).trans (ih (Settles.jobs_ordered hs one))

/-- What becomes of each job. -/
theorem settleAll_settled (l : List Nat) (hs : JobsOrdered s) (distinct : l.Nodup) {n : Nat} (hn : n ∈ l) {j : Job}
    (hj : s.job? n = some j) : SettledAs n j s (settleAll l s) := by
  induction l generalizing s j with
  | nil => exact nomatch hn
  | cons m l ih =>
    obtain ⟨hm, distinct⟩ := List.nodup_cons.mp distinct
    have one : Settles (fun i => i = m) NoLane s (settle m s) := settle_settles m hs rfl
    have ordered := Settles.jobs_ordered hs one
    rw [settleAll_cons]
    by_cases here : n = m
    · subst here
      have own := settle_settled hs hj
      have le := Settles.entry_le one
      generalize settle n s = u at ordered own le ⊢
      have rest : Settles (fun i => i ∈ l) NoLane u (settleAll l u) := settleAll_settles l ordered fun _ h => h
      exact own.stays le rest hm
    · obtain ⟨i, hi, stays⟩ := one.job_stays here hj
      exact (ih ordered distinct ((List.mem_cons.mp hn).resolve_left here) hi).since stays (Settles.entry_le one) one.clock

/-- How many of the jobs are superseded, or are not. -/
def settledCount (b : Bool) (l : List Nat) (s : State) : Nat :=
  (l.filter fun n => (s.job? n).any fun j => j.superseded == b).length

/-- It counts the first, and then the others. -/
theorem settledCount_cons {n : Nat} {j : Job} (hj : s.job? n = some j) (b : Bool) (l : List Nat) :
    settledCount b (n :: l) s = settledCount b l s + (j.superseded == b).toNat := by
  unfold settledCount
  rw [List.filter_cons, hj]
  cases h : j.superseded == b <;> simp [h]

/-- What stays is counted the same. -/
theorem settledCount_stays {t : State} (b : Bool) (h : ∀ n ∈ l, ∃ j j', s.job? n = some j ∧ t.job? n = some j' ∧ JobStays j j') :
    settledCount b l t = settledCount b l s := by
  unfold settledCount
  congr 1
  refine List.filter_congr fun n hn => ?_
  obtain ⟨j, j', hj, hj', stays⟩ := h n hn
  have same : j'.superseded = j.superseded := by rw [stays.2]
  rw [hj, hj', Option.any_some, Option.any_some, same]

/-- Restart control's counts with some settlements. -/
def tallied (c : ReconcileCounts) (requeued discarded : Nat) : ReconcileCounts :=
  ⟨c.uncertain, c.reclaimed, c.requeued + requeued, c.discarded + discarded⟩

/-- Every settlement enters restart control's record. -/
theorem settleAll_restart (l : List Nat) (hs : JobsOrdered s) (distinct : l.Nodup) (live : ∀ n ∈ l, ∃ j, s.job? n = some j) :
    (settleAll l s).restart = { s.restart with counts := tallied s.restart.counts (settledCount false l s) (settledCount true l s) } := by
  induction l generalizing s with
  | nil => rfl
  | cons m l ih =>
    obtain ⟨hm, distinct⟩ := List.nodup_cons.mp distinct
    obtain ⟨j, hj⟩ := live m List.mem_cons_self
    have one : Settles (fun i => i = m) NoLane s (settle m s) := settle_settles m hs rfl
    have ordered := Settles.jobs_ordered hs one
    have stay : ∀ n ∈ l, ∃ j j', s.job? n = some j ∧ (settle m s).job? n = some j' ∧ JobStays j j' := by
      intro n hn
      obtain ⟨i, hi⟩ := live n (List.mem_cons_of_mem _ hn)
      obtain ⟨i', hi', stays⟩ := one.job_stays (fun e => hm (e ▸ hn)) hi
      exact ⟨i, i', hi, hi', stays⟩
    have rest := ih ordered distinct fun n hn => by
      obtain ⟨_, i', _, hi', _⟩ := stay n hn
      exact ⟨i', hi'⟩
    rw [settleAll_cons, rest, settledCount_stays false stay, settledCount_stays true stay, settle_restart hs hj,
      settledCount_cons hj false, settledCount_cons hj true]
    unfold counted tallied
    cases j.superseded <;> simp <;> omega

end All

end Sys2Proof.Machine
end

section
/-! CLEAR, RECONCILE_END and the reconcile timer (R168, R171, R172). -/

namespace Sys2Proof.Machine

open State

variable {D : Nat → Prop} {L : LaneId → Prop}

/-! ### Lanes that are opened -/

/-- The clearing phases of some lanes end. -/
def reopenAll (lanes : List LaneId) (s : State) : State := lanes.foldl (fun s l => reopenLane l s) s

section Reopen

variable {s : State}

/-- The first, and then the others. -/
theorem reopenAll_cons (l : LaneId) (lanes : List LaneId) (s : State) :
    reopenAll (l :: lanes) s = reopenAll lanes (reopenLane l s) := List.foldl_cons ..

/-- A lane's clearing flag. -/
theorem clearing_clearClearing (l : LaneId) (s : State) (q : LaneId) :
    ((clearClearing l s).lane q).clearing = if q = l then false else (s.lane q).clearing := by
  unfold clearClearing
  rw [lane_modLane]
  split <;> rfl

/-- One lane is opened. -/
theorem reopenLane_settles (l : LaneId) (hs : JobsOrdered s) (hl : L l) : Settles D L s (reopenLane l s) := by
  have opened : Settles D L s (clearClearing l s) := .single (.opened s l hl)
  have ordered := Settles.jobs_ordered hs opened
  have serves : Reacts D (clearClearing l s) (serve (clearClearing l s)) := serve_reacts ordered
  exact opened.trans (Reacts.settles serves)

/-- Some lanes are opened. -/
theorem reopenAll_settles (lanes : List LaneId) (hs : JobsOrdered s) (hl : ∀ l ∈ lanes, L l) :
    Settles D L s (reopenAll lanes s) :=
  foldl_chain_of _ (fun _ _ hs h => Settles.jobs_ordered hs h) lanes s hs fun _ hs l h => reopenLane_settles l hs (hl l h)

/-- The flag of a lane once one is opened. -/
theorem clearing_reopenLane (l : LaneId) (hs : JobsOrdered s) (q : LaneId) :
    ((reopenLane l s).lane q).clearing = if q = l then false else (s.lane q).clearing := by
  have chain : Settles NoJob (fun _ => True) s (clearClearing l s) := .single (.opened s l trivial)
  have kept := (serve_kept (Settles.jobs_ordered hs chain)).1.lanes q
  unfold reopenLane
  rw [← clearing_clearClearing, kept]

/-- The flag of a lane once some are opened. -/
theorem clearing_reopenAll (lanes : List LaneId) (hs : JobsOrdered s) (q : LaneId) :
    ((reopenAll lanes s).lane q).clearing = if q ∈ lanes then false else (s.lane q).clearing := by
  induction lanes generalizing s with
  | nil => exact (if_neg List.not_mem_nil).symm
  | cons l lanes ih =>
    have one : Settles NoJob (fun _ => True) s (reopenLane l s) := reopenLane_settles l hs trivial
    rw [reopenAll_cons, ih (Settles.jobs_ordered hs one), clearing_reopenLane l hs]
    by_cases h : q ∈ lanes
    · rw [if_pos h, if_pos (List.mem_cons_of_mem _ h)]
    · rw [if_neg h]
      simp only [List.mem_cons, h, or_false]

/-- Restart control's record stays. -/
theorem restart_reopenAll (lanes : List LaneId) (hs : JobsOrdered s) : (reopenAll lanes s).restart = s.restart := by
  induction lanes generalizing s with
  | nil => rfl
  | cons l lanes ih =>
    have opened : Settles NoJob (fun _ => True) s (clearClearing l s) := .single (.opened s l trivial)
    have same : (reopenLane l s).restart = s.restart := (serve_kept (Settles.jobs_ordered hs opened)).1.restart
    have one : Settles NoJob (fun _ => True) s (reopenLane l s) := reopenLane_settles l hs trivial
    rw [reopenAll_cons, ih (Settles.jobs_ordered hs one), same]

/-- The engines keep what they have been told. -/
theorem reopenLane_engines (l : LaneId) (hs : JobsOrdered s) : EnginesKept s (reopenLane l s) := by
  have opened : EnginesKept s (clearClearing l s) := .of_eq rfl
  have chain : Settles NoJob (fun _ => True) s (clearClearing l s) := .single (.opened s l trivial)
  exact opened.trans (serve_engines (Settles.jobs_ordered hs chain))

/-- The engines keep what they have been told. -/
theorem reopenAll_engines (lanes : List LaneId) (hs : JobsOrdered s) : EnginesKept s (reopenAll lanes s) := by
  induction lanes generalizing s with
  | nil => exact .refl s
  | cons l lanes ih =>
    have one : Settles NoJob (fun _ => True) s (reopenLane l s) := reopenLane_settles l hs trivial
    rw [reopenAll_cons]
    exact (reopenLane_engines l hs).trans (ih (Settles.jobs_ordered hs one))

/-- What occupies a lane does not depend on its flags. -/
theorem occupied_clearClearing (l q : LaneId) (s : State) : occupied (clearClearing l s) q = occupied s q := by
  have order : ((clearClearing l s).lane q).floor = (s.lane q).floor := by
    unfold clearClearing
    rw [lane_modLane]
    split <;> rfl
  unfold occupied
  rw [order]
  rfl

/-- Where a lane is opened, EXPOSE is sent for what was loaded at its engines. -/
theorem reopenAll_sends {lanes : List LaneId} {load : Nat} {w : WaitingCtx} {e : EngineId} (hs : JobsOrdered s)
    (calm : Calm s) (hl : s.limits.load = load) (h : Readied load w s e) (hw : w.stage = .loaded)
    (room : occupied s (laneFed e) ≤ 9) (he : laneFed e ∈ lanes) :
    ((reopenAll lanes s).engine e).ctx.next = some (sentAs load w) := by
  induction lanes generalizing s with
  | nil => exact nomatch he
  | cons l lanes ih =>
    have opened : Settles NoJob (fun _ => True) s (clearClearing l s) := .single (.opened s l trivial)
    have ordered := Settles.jobs_ordered hs opened
    have again : JobsOrdered (reopenLane l s) :=
      Settles.jobs_ordered (D := NoJob) (L := fun _ => True) hs (reopenLane_settles l hs trivial)
    have calm' : Calm (clearClearing l s) := calm
    have limits : (clearClearing l s).limits.load = load := hl
    have ready : Readied load w (clearClearing l s) e := ⟨h.works, h.current, h.next⟩
    have space : occupied (clearClearing l s) (laneFed e) ≤ 9 := by rw [occupied_clearClearing]; exact room
    have flag := clearing_clearClearing l s (laneFed e)
    rw [reopenAll_cons]
    unfold reopenLane at again ⊢
    generalize clearClearing l s = u at ordered again calm' limits ready space flag ⊢
    by_cases here : laneFed e = l
    · rw [if_pos here] at flag
      exact (reopenAll_engines lanes again).sent (serve_sends ordered calm' limits ready hw space flag)
    · have kept := (serve_kept ordered).1
      refine ih again (calm'.served kept) (by rw [kept.limits, limits]) (ready.served ordered calm' limits) ?_
        ((List.mem_cons.mp he).resolve_left here)
      rw [occupied_served kept]
      exact space

end Reopen

/-! ### Phases that end (R168, R171, R172) -/

/-- Every notice of a list is told. -/
theorem raiseAll_told {ns : List Notice} {n : Notice} (hn : n ∈ ns) (s : State) : Told n s (raiseAll ns s) := by
  induction ns generalizing s with
  | nil => exact nomatch hn
  | cons m ns ih =>
    have rest : Reacts NoJob (raise m s) (raiseAll ns (raise m s)) := (raiseAll_serves ns _).reacts
    have first : Reacts NoJob s (raise m s) := raise_reacts m s
    rcases List.mem_cons.mp hn with rfl | h
    · exact (told_raise n s).kept rest.ports_kept
    · exact (ih h (raise m s)).since first.ports_kept (Reacts.kept first).clock

/-- The phases of some lanes have ended, for a cause, and some jobs have been settled. -/
structure PhasesEnded (lanes : List LaneId) (cause : EndCause) (jobs : List Nat) (s t : State) : Prop where
  chain : Settles (fun n => n ∈ jobs) (fun l => l ∈ lanes) s t
  settled : ∀ n ∈ jobs, ∀ j, s.job? n = some j → SettledAs n j s t
  told : ∀ l ∈ lanes, Told (.laneCleared l cause) s t
  reconsidered : ∀ l ∈ lanes, Reconsidered l s t
  clearing : ∀ l, (t.lane l).clearing = if l ∈ lanes then false else (s.lane l).clearing

/-- What ends the phases does that. -/
theorem endPhases_ends (lanes : List LaneId) (cause : EndCause) {jobs : List Nat} {s : State} (hs : JobsOrdered s)
    (distinct : jobs.Nodup) (live : ∀ n ∈ jobs, ∃ j, s.job? n = some j) :
    PhasesEnded lanes cause jobs s (endPhases lanes cause jobs s) ∧ (endPhases lanes cause jobs s).restart =
      { s.restart with counts := tallied s.restart.counts (settledCount false jobs s) (settledCount true jobs s) } := by
  have parts : endPhases lanes cause jobs s =
      raiseAll (lanes.map fun l => .laneCleared l cause) (settleAll jobs (reopenAll lanes s)) := by
    unfold raiseAll
    rw [List.foldl_map]
    rfl
  have opens (E : Nat → Prop) : Settles E (fun l => l ∈ lanes) s (reopenAll lanes s) :=
    reopenAll_settles lanes hs fun _ h => h
  have flags := clearing_reopenAll lanes hs
  have engines := reopenAll_engines lanes hs
  have restart := restart_reopenAll lanes hs
  have sends : ∀ l ∈ lanes, Reconsidered l s (reopenAll lanes s) := by
    intro l hl calm load e w he hw
    have room : occupied s (laneFed e) ≤ 9 := he ▸ (occupied_le s l).trans load
    exact reopenAll_sends hs calm rfl hw.readied hw.stage room (he ▸ hl)
  have ordered := Settles.jobs_ordered hs (opens NoJob)
  have stay : ∀ n ∈ jobs, ∃ j i, s.job? n = some j ∧ (reopenAll lanes s).job? n = some i ∧ JobStays j i := by
    intro n hn
    obtain ⟨j, hj⟩ := live n hn
    obtain ⟨i, hi, stays⟩ := (opens NoJob).job_stays not_false hj
    exact ⟨j, i, hj, hi, stays⟩
  have le := Settles.entry_le (opens NoJob)
  have clock := (opens NoJob).clock
  have chain := opens fun n => n ∈ jobs
  rw [parts]
  generalize reopenAll lanes s = u at flags engines restart sends ordered stay le clock chain ⊢
  have settles : Settles (fun n => n ∈ jobs) NoLane u (settleAll jobs u) := settleAll_settles jobs ordered fun _ h => h
  have settles' : Settles (fun n => n ∈ jobs) (fun l => l ∈ lanes) u (settleAll jobs u) :=
    settleAll_settles jobs ordered fun _ h => h
  have settled (n : Nat) (hn : n ∈ jobs) (i : Job) (hi : u.job? n = some i) : SettledAs n i u (settleAll jobs u) :=
    settleAll_settled jobs ordered distinct hn hi
  have tally := settleAll_restart jobs ordered distinct fun n hn => by
    obtain ⟨_, i, _, hi, _⟩ := stay n hn
    exact ⟨i, hi⟩
  have kept := settleAll_engines jobs ordered
  have flags' (l : LaneId) : ((settleAll jobs u).lane l).clearing = (u.lane l).clearing := settles.clearing not_false
  rw [restart, settledCount_stays false stay, settledCount_stays true stay] at tally
  generalize settleAll jobs u = v at settles settles' settled tally kept flags' ⊢
  have raised : Reacts NoJob v (raiseAll (lanes.map fun l => .laneCleared l cause) v) := (raiseAll_serves _ v).reacts
  have told (l : LaneId) (hl : l ∈ lanes) : Told (.laneCleared l cause) v (raiseAll (lanes.map fun l => .laneCleared l cause) v) :=
    raiseAll_told (List.mem_map_of_mem (f := fun l => Notice.laneCleared l cause) hl) v
  have before := chain.trans settles'
  have same : Same v (raiseAll (lanes.map fun l => .laneCleared l cause) v) := raiseAll_same _ _
  generalize raiseAll (lanes.map fun l => .laneCleared l cause) v = t at raised told same ⊢
  have raised' : Settles (fun n => n ∈ jobs) (fun l => l ∈ lanes) v t :=
    Reacts.settles (Reacts.widen (fun _ h => h.elim) raised)
  have engine (e : EngineId) : t.engine e = v.engine e := by rw [same]; rfl
  refine ⟨⟨before.trans raised', fun n hn j hj => ?_, fun l hl => ?_, fun l hl calm load e w he hw => ?_, fun l => ?_⟩, ?_⟩
  · obtain ⟨j', i, hj', hi, stays⟩ := stay n hn
    obtain rfl : j = j' := Option.some.inj (hj.symm.trans hj')
    have after : SettledAs n i u t := (settled n hn i hi).stays (Settles.entry_le settles) (Reacts.settles (L := NoLane) raised) not_false
    exact after.since stays le clock
  · exact (told l hl).since (Settles.ports_kept before) (Settles.clock before)
  · rw [engine]
    exact kept.sent (sends l hl calm load e w he hw)
  · have lane : t.lane l = v.lane l := by rw [same]; rfl
    rw [lane, flags', flags]
  · rw [same]
    exact tally

/-! ### Which jobs are settled -/

section Jobs

variable {s : State} {p : Job → Bool}

/-- The UNCERTAIN jobs of a sort. -/
theorem mem_uncertainJobs (hs : JobsOrdered s) (n : Nat) :
    n ∈ uncertainJobs s p ↔ ∃ j, s.job? n = some j ∧ j.state = .uncertain ∧ p j = true := by
  unfold uncertainJobs
  rw [List.mem_map]
  constructor
  · rintro ⟨⟨m, j⟩, hm, rfl⟩
    obtain ⟨mem, test⟩ := List.mem_filter.mp hm
    obtain ⟨state, sort⟩ := Bool.and_eq_true_iff.mp test
    exact ⟨j, tget_of_mem hs mem, of_decide_eq_true state, sort⟩
  · rintro ⟨j, hj, state, sort⟩
    exact ⟨(n, j), List.mem_filter.mpr ⟨mem_of_tget hj, by simp [state, sort]⟩, rfl⟩

/-- Each is listed once. -/
theorem uncertainJobs_nodup (hs : JobsOrdered s) : (uncertainJobs s p).Nodup :=
  (keys_ascend hs).sublist (List.filter_sublist.map Prod.fst)

/-- How many of them are superseded, or are not. -/
theorem settledCount_uncertainJobs (hs : JobsOrdered s) (b : Bool) : settledCount b (uncertainJobs s p) s =
    (s.jobs.filter fun e => e.2.state = .uncertain && p e.2 && (e.2.superseded == b)).length := by
  unfold settledCount uncertainJobs
  rw [List.filter_map, List.length_map, List.filter_filter]
  congr 1
  refine List.filter_congr fun e he => ?_
  have entry : s.job? e.1 = some e.2 := tget_of_mem hs he
  simp only [Function.comp_apply, entry, Option.any_some]
  exact Bool.and_comm _ _

/-- Reconciliation is complete. -/
theorem complete_iff (hs : JobsOrdered s) :
    complete s = true ↔ (∀ n j, s.job? n = some j → j.state ≠ .uncertain) ∧ ∀ l, (s.lane l).clearing = false := by
  have lanes : anyClearing s = false ↔ ∀ l, (s.lane l).clearing = false := by
    unfold anyClearing
    rw [List.any_eq_false]
    have all : ∀ l : LaneId, l ∈ allLanes := by decide
    exact ⟨fun h l => Bool.eq_false_iff.mpr (h l (all l)), fun h l _ => Bool.eq_false_iff.mp (h l)⟩
  have jobs : uncertainJobs s (fun _ => true) = [] ↔ ∀ n j, s.job? n = some j → j.state ≠ .uncertain := by
    rw [List.eq_nil_iff_forall_not_mem]
    simp only [mem_uncertainJobs hs, not_exists, not_and]
    exact ⟨fun h n j hj state => h n j hj state trivial, fun h n j hj state => absurd state (h n j hj)⟩
  unfold complete
  rw [Bool.and_eq_true_iff, decide_eq_true_iff, jobs, Bool.not_eq_true', lanes]

end Jobs

/-- The end of RECONCILING is a chain that takes no job. -/
theorem endReconcile_settles (cause : EndCause) (s : State) : Settles D L s (endReconcile cause s) := by
  unfold endReconcile
  split
  · exact .trans (.single (.tally s _)) (Reacts.settles (raise_reacts _ _))
  · exact .refl

/-- Restart control's record after it. -/
theorem endReconcile_restart (cause : EndCause) (s : State) : (endReconcile cause s).restart =
    if s.restart.reconciling then { s.restart with reconciling := false, timer := none } else s.restart := by
  unfold endReconcile
  split
  · rw [raise_same]
    rfl
  · rfl

/-- It is told. -/
theorem endReconcile_told {cause : EndCause} {s : State} (h : s.restart.reconciling = true) :
    Told (.reconcileEnded cause s.restart.counts) s (endReconcile cause s) := by
  unfold endReconcile
  rw [if_pos h]
  exact (told_raise _ _).since (.of_eq rfl) rfl

/-- No engine or lane is concerned. -/
theorem endReconcile_floor (cause : EndCause) (s : State) :
    (endReconcile cause s).engines = s.engines ∧ (endReconcile cause s).lanes = s.lanes := by
  unfold endReconcile
  split
  · rw [raise_same]
    exact ⟨rfl, rfl⟩
  · exact ⟨rfl, rfl⟩

/-- A chain that takes fewer jobs and opens fewer lanes. -/
theorem Settles.widen {D' : Nat → Prop} {L' : LaneId → Prop} {s t : State} (hD : ∀ n, D n → D' n) (hL : ∀ l, L l → L' l)
    (h : Settles D L s t) : Settles D' L' s t := by
  refine Relation.ReflTransGen.mono (fun _ _ step => ?_) _ _ h
  cases step with
  | react h => exact .react (h.widen hD)
  | tally f => exact .tally _ f
  | opened l h => exact .opened _ l (hL l h)

section Ended

variable {lanes : List LaneId} {cause : EndCause} {jobs : List Nat} {s t : State}

/-- The phases have ended once RECONCILING has ended too. -/
theorem PhasesEnded.endReconcile (h : PhasesEnded lanes cause jobs s t) (c : EndCause) :
    PhasesEnded lanes cause jobs s (endReconcile c t) := by
  have after : Settles NoJob NoLane t (Machine.endReconcile c t) := endReconcile_settles c t
  obtain ⟨engines, floor⟩ := endReconcile_floor c t
  generalize Machine.endReconcile c t = u at after engines floor ⊢
  obtain ⟨chain, settled, told, reconsidered, clearing⟩ := h
  refine ⟨chain.trans (after.widen (fun _ h => h.elim) fun _ h => h.elim),
    fun n hn j hj => (settled n hn j hj).stays (Settles.entry_le chain) after not_false,
    fun l hl => (told l hl).kept after.ports_kept, fun l hl calm load e w he hw => ?_, fun l => ?_⟩
  · rw [engine_of_engines engines e]
    exact reconsidered l hl calm load e w he hw
  · have same : u.lane l = t.lane l := congrArg (fun v => v.get l) floor
    rw [same, clearing]

/-- The UNCERTAIN jobs that are left. -/
theorem PhasesEnded.left (h : PhasesEnded lanes cause jobs s t) (n : Nat) : (∃ j, t.job? n = some j ∧ j.state = .uncertain) ↔
      n ∉ jobs ∧ ∃ j, s.job? n = some j ∧ j.state = .uncertain := by
  obtain ⟨chain, settled, -, -, -⟩ := h
  constructor
  · rintro ⟨j, hj, state⟩
    obtain ⟨i, hi, before⟩ := chain.kept.uncertain n j hj state
    refine ⟨fun hn => ?_, i, hi, before⟩
    obtain ⟨returned, ended⟩ := settled n hn i hi
    cases hsup : i.superseded with
    | false =>
      obtain ⟨j', hj', state', -⟩ := returned hsup
      obtain rfl : j = j' := Option.some.inj (hj.symm.trans hj')
      rw [state] at state'
      exact absurd state' (by decide)
    | true =>
      have created := (ended hsup j hj).state
      rw [state] at created
      exact absurd created (by decide)
  · rintro ⟨hn, j, hj, state⟩
    obtain ⟨i, hi, same⟩ := chain.job_stays hn hj
    refine ⟨i, hi, ?_⟩
    rcases same.1 with e | ⟨e, -⟩
    · exact e.trans state
    · exact absurd (state.symm.trans e) (by decide)

end Ended

/-- A taken job's record of what a settlement makes of it. -/
theorem SettledAs.takenBy {n : Nat} {b t : State} {l : LaneId}
    (h : ∀ j, b.job? n = some j → j.lane = some l ∧ SettledAs n j b t) :
    TakenBy n ⟨.plateNotFound, .lane l, b.clock⟩ b t := by
  intro j hj
  obtain ⟨lane, settled⟩ := h j hj
  unfold SettledAs at settled
  rw [lane] at settled
  exact settled

/-- The flags and restart control's record of another state, where one lane has been opened. -/
theorem reopened_one {s t : State} {l : LaneId}
    (h : ∀ q, (t.lane q).clearing = if q = l then false else (s.lane q).clearing) :
    reopened s t = { s.modLane l (fun x => { x with clearing := false }) with restart := t.restart } := by
  have lanes : (reopened s t).lanes = (s.modLane l fun x => { x with clearing := false }).lanes := by
    apply Vector.ext
    intro i hi
    have left := lane_reopened s t ⟨i, hi⟩
    have right := lane_modLane l (fun x => { x with clearing := false }) s ⟨i, hi⟩
    refine left.trans (Eq.trans ?_ right.symm)
    rw [h]
    split <;> rfl
  unfold reopened at lanes ⊢
  exact congrArg (fun v => { s with lanes := v, restart := t.restart }) lanes

/-- CLEAR, where the lane is clearing and empty. -/
theorem exec_clear {l : LaneId} {s : State} (hc : (s.lane l).clearing = true)
    (he : (∀ y ∈ (s.lane l).floor.order, y.stage = .granted) ∧ (s.lane l).inspections = []) :
    exec (.clear l) s = .next (acceptClear l s) := by
  have empty : laneEmpty (s.lane l) = true := by
    unfold laneEmpty
    rw [Bool.and_eq_true_iff, List.all_eq_true]
    exact ⟨fun y hy => decide_eq_true (he.1 y hy), decide_eq_true he.2⟩
  refine congrArg Host.Outcome.next (show clear l s = _ from ?_)
  unfold clear
  rw [if_pos hc, if_pos empty]

end Sys2Proof.Machine
end

section
/-! CLEAR, RECONCILE_END and the reconcile timer: what they do (R168, R171, R172). -/

namespace Sys2Proof.Machine

open State

section Ends

variable {lanes : List LaneId} {cause : EndCause} {jobs : List Nat} {s t : State}

/-- The other jobs stay. -/
theorem PhasesEnded.others_stay (h : PhasesEnded lanes cause jobs s t) : OthersStay (fun n => n ∈ jobs) s t :=
  fun _ _ hn hj => Settles.job_stays h.chain hn hj

/-- CLEAR ends RECONCILING where no job is UNCERTAIN elsewhere and no other lane is clearing. -/
theorem PhasesEnded.complete_iff {l : LaneId} (hs : JobsOrdered s) (h : PhasesEnded [l] cause jobs s t)
    (hjobs : ∀ n, n ∈ jobs ↔ ∃ j, s.job? n = some j ∧ j.state = .uncertain ∧ j.lane = some l) :
    complete t = true ↔ ¬ ((∃ n j, s.job? n = some j ∧ j.state = .uncertain ∧ j.lane ≠ some l) ∨
      ∃ q, q ≠ l ∧ (s.lane q).clearing = true) := by
  have elsewhere (n : Nat) : (∃ j, t.job? n = some j ∧ j.state = .uncertain) ↔
      ∃ j, s.job? n = some j ∧ j.state = .uncertain ∧ j.lane ≠ some l := by
    rw [h.left]
    constructor
    · rintro ⟨hn, j, hj, state⟩
      exact ⟨j, hj, state, fun lane => hn ((hjobs n).mpr ⟨j, hj, state, lane⟩)⟩
    · rintro ⟨j, hj, state, lane⟩
      refine ⟨fun hn => ?_, j, hj, state⟩
      obtain ⟨i, hi, -, here⟩ := (hjobs n).mp hn
      obtain rfl : j = i := Option.some.inj (hj.symm.trans hi)
      exact lane here
  have flags (q : LaneId) : (t.lane q).clearing = if q = l then false else (s.lane q).clearing := by
    rw [h.clearing]
    simp only [List.mem_singleton]
  rw [Machine.complete_iff (Settles.jobs_ordered hs h.chain), not_or]
  refine and_congr ⟨fun none => ?_, fun none n j hj state => ?_⟩ ⟨fun none => ?_, fun none q => ?_⟩
  · rintro ⟨n, j, hj, state, lane⟩
    obtain ⟨i, hi, state'⟩ := (elsewhere n).mpr ⟨j, hj, state, lane⟩
    exact none n i hi state'
  · obtain ⟨i, hi, state', lane⟩ := (elsewhere n).mp ⟨j, hj, state⟩
    exact none ⟨n, i, hi, state', lane⟩
  · rintro ⟨q, hq, flag⟩
    have after := none q
    rw [flags, if_neg hq, flag] at after
    exact nomatch after
  · rw [flags]
    split
    · rfl
    next hq => exact Bool.eq_false_iff.mpr fun flag => none ⟨q, hq, flag⟩

end Ends

/-- CLEAR, where the lane is not empty. -/
theorem exec_clear_full {l : LaneId} {s : State} (hc : (s.lane l).clearing = true)
    (he : ¬ ((∀ y ∈ (s.lane l).floor.order, y.stage = .granted) ∧ (s.lane l).inspections = [])) :
    exec (.clear l) s = .next (raise (.laneProtocol (.lane l) .clear none) s) := by
  have full : laneEmpty (s.lane l) ≠ true := by
    intro e
    unfold laneEmpty at e
    obtain ⟨order, inspections⟩ := Bool.and_eq_true_iff.mp e
    exact he ⟨fun y hy => of_decide_eq_true (List.all_eq_true.mp order y hy), of_decide_eq_true inspections⟩
  refine congrArg Host.Outcome.next (show clear l s = _ from ?_)
  unfold clear
  rw [if_pos hc, if_neg full]
  rfl

/-- Settles O56: an accepted CLEAR opens its lane and settles the lane's UNCERTAIN jobs; with none left, and no lane
clearing, reconciliation is complete. -/
theorem laneCleared : Obligations.LaneCleared := by
  intro l s htab x empty here left number r counts
  have ordered : JobsOrdered s := htab.jobs
  refine ⟨fun h => ?_, exec_clear_full, fun h he => ?_⟩
  · refine congrArg Host.Outcome.next (show clear l s = s from ?_)
    unfold clear
    rw [if_neg (Bool.eq_false_iff.mp h)]
  set jobs := uncertainJobs s fun j => decide (j.lane = some l) with hjobs
  have mem (n : Nat) : n ∈ jobs ↔ here n := by
    rw [hjobs, mem_uncertainJobs ordered]
    simp only [decide_eq_true_eq]
    rfl
  obtain ⟨phases, restart⟩ := endPhases_ends [l] .complete ordered (uncertainJobs_nodup ordered) (jobs := jobs)
    fun n hn => ((mem n).mp hn).imp fun _ h => h.1
  have requeued : settledCount false jobs s = number false := settledCount_uncertainJobs ordered false
  have discarded : settledCount true jobs s = number true := settledCount_uncertainJobs ordered true
  have taken : exec (.clear l) s = .next (if complete (endPhases [l] .complete jobs s)
      then endReconcile .complete (endPhases [l] .complete jobs s) else endPhases [l] .complete jobs s) :=
    exec_clear h he
  generalize endPhases [l] .complete jobs s = v at phases restart taken
  have record : v.restart = { r with counts := counts } := by rw [restart, requeued, discarded]; rfl
  have done : complete v = true ↔ ¬ left := phases.complete_iff ordered mem
  have parts (t : State) (ended : PhasesEnded [l] .complete jobs s t) :
      KeptByReacting { s.modLane l (fun x => { x with clearing := false }) with restart := t.restart } t ∧
      PortsKept s t ∧ OthersStay here s t ∧ (∀ n, here n → TakenBy n ⟨.plateNotFound, .lane l, s.clock⟩ s t) ∧
      Told (.laneCleared l .complete) s t ∧ Reconsidered l s t := by
    refine ⟨?_, Settles.ports_kept ended.chain, fun n j hn => ended.others_stay n j fun h => hn ((mem n).mp h),
      fun n hn => SettledAs.takenBy fun j hj => ?_, ended.told l (List.mem_singleton_self l),
      ended.reconsidered l (List.mem_singleton_self l)⟩
    · rw [← reopened_one fun q => by rw [ended.clearing]; simp only [List.mem_singleton]]
      exact Settles.kept ended.chain
    · obtain ⟨i, hi, -, lane⟩ := id hn
      obtain rfl : j = i := Option.some.inj (hj.symm.trans hi)
      exact ⟨lane, ended.settled n ((mem n).mpr hn) j hj⟩
  by_cases hd : complete v = true
  · rw [if_pos hd] at taken
    obtain ⟨kept, ports, others, by', cleared, opened⟩ := parts _ (phases.endReconcile .complete)
    have after := endReconcile_restart .complete v
    have told := endReconcile_told (cause := .complete) (s := v)
    rw [record] at after told
    refine ⟨_, taken, kept, ports, others, by', cleared, opened, fun h => ?_, fun _ hr => ⟨?_, ?_⟩⟩
    · rcases h with h | h
      · exact absurd h (done.mp hd)
      · rw [after, if_neg (Bool.eq_false_iff.mp h)]
    · rw [after, if_pos hr]
    · exact (told hr).since (Settles.ports_kept phases.chain) (Settles.clock phases.chain)
  · rw [if_neg hd] at taken
    obtain ⟨kept, ports, others, by', cleared, opened⟩ := parts v phases
    exact ⟨v, taken, kept, ports, others, by', cleared, opened, fun _ => record, fun h => absurd (done.mpr h) hd⟩

/-! ### RECONCILE_END and the reconcile timer (R172) -/

/-- The flags and restart control's record of another state, where every lane has been opened. -/
theorem reopened_all {s t : State} (h : ∀ q, (t.lane q).clearing = false) :
    reopened s t = { s with lanes := s.lanes.map fun x => { x with clearing := false }, restart := t.restart } := by
  have lanes : (reopened s t).lanes = s.lanes.map fun x => { x with clearing := false } := by
    apply Vector.ext
    intro i hi
    have left := lane_reopened s t ⟨i, hi⟩
    rw [h] at left
    refine left.trans ?_
    rw [Vector.getElem_map]
    rfl
  unfold reopened at lanes ⊢
  exact congrArg (fun v => { s with lanes := v, restart := t.restart }) lanes

/-- What the end of reconciliation does, whatever ends it. -/
structure ReconcileEnds (cause : EndCause) (s t : State) : Prop where
  phases : PhasesEnded (allLanes.filter fun l => (s.lane l).clearing) cause (uncertainJobs s fun _ => true) s t
  restart : t.restart =
    let c := tallied s.restart.counts (settledCount false (uncertainJobs s fun _ => true) s)
      (settledCount true (uncertainJobs s fun _ => true) s)
    if s.restart.reconciling then { s.restart with counts := c, reconciling := false, timer := none }
    else { s.restart with counts := c }
  told : s.restart.reconciling = true →
    Told (.reconcileEnded cause (tallied s.restart.counts (settledCount false (uncertainJobs s fun _ => true) s)
      (settledCount true (uncertainJobs s fun _ => true) s))) s t

/-- What finishes reconciliation does that. -/
theorem finishReconcile_ends (cause : EndCause) {s : State} (hs : JobsOrdered s) :
    ReconcileEnds cause s (finishReconcile cause s) := by
  obtain ⟨phases, restart⟩ := endPhases_ends (allLanes.filter fun l => (s.lane l).clearing) cause hs
    (uncertainJobs_nodup hs (p := fun _ => true)) fun n hn => ((mem_uncertainJobs hs n).mp hn).imp fun _ h => h.1
  unfold finishReconcile
  dsimp only
  generalize endPhases (allLanes.filter fun l => (s.lane l).clearing) cause (uncertainJobs s fun _ => true) s = v
    at phases restart ⊢
  have after := endReconcile_restart cause v
  have told := endReconcile_told (cause := cause) (s := v)
  rw [restart] at after told
  exact ⟨phases.endReconcile cause, after, fun hr =>
    (told hr).since (Settles.ports_kept phases.chain) (Settles.clock phases.chain)⟩

section Finish

variable {cause : EndCause} {s t : State}

/-- Every lane is open. -/
theorem ReconcileEnds.clearing (h : ReconcileEnds cause s t) (q : LaneId) : (t.lane q).clearing = false := by
  have all : ∀ l : LaneId, l ∈ allLanes := by decide
  rw [h.phases.clearing]
  split
  · rfl
  next hq => exact Bool.eq_false_iff.mpr fun flag => hq (List.mem_filter.mpr ⟨all q, flag⟩)

/-- The lanes and restart control apart, all is kept. -/
theorem ReconcileEnds.kept (h : ReconcileEnds cause s t) : KeptByReacting
    { s with lanes := s.lanes.map fun x => { x with clearing := false }, restart := t.restart } t := by
  have kept := Settles.kept h.phases.chain
  rw [reopened_all h.clearing] at kept
  exact kept

/-- A lane that was clearing is told and reconsidered. -/
theorem ReconcileEnds.lane (h : ReconcileEnds cause s t) {l : LaneId} (hl : (s.lane l).clearing = true) :
    Told (.laneCleared l cause) s t ∧ Reconsidered l s t := by
  have all : ∀ l : LaneId, l ∈ allLanes := by decide
  have mem : l ∈ allLanes.filter fun l => (s.lane l).clearing := List.mem_filter.mpr ⟨all l, hl⟩
  exact ⟨h.phases.told l mem, h.phases.reconsidered l mem⟩

/-- Every UNCERTAIN job is settled. -/
theorem ReconcileEnds.takes (h : ReconcileEnds cause s t) (hs : JobsOrdered s) {n : Nat} {j : Job} {l : LaneId}
    (hj : s.job? n = some j) (state : j.state = .uncertain) (lane : j.lane = some l) :
    TakenBy n ⟨.plateNotFound, .lane l, s.clock⟩ s t := by
  refine SettledAs.takenBy fun i hi => ?_
  obtain rfl : i = j := Option.some.inj (hi.symm.trans hj)
  exact ⟨lane, h.phases.settled n ((mem_uncertainJobs hs n).mpr ⟨i, hi, state, rfl⟩) i hi⟩

/-- The other jobs stay. -/
theorem ReconcileEnds.others_stay (h : ReconcileEnds cause s t) (hs : JobsOrdered s) :
    OthersStay (fun n => ∃ j, s.job? n = some j ∧ j.state = .uncertain) s t :=
  fun n j hn => h.phases.others_stay n j fun mem => by
    obtain ⟨i, hi, state, -⟩ := (mem_uncertainJobs hs n).mp mem
    exact hn ⟨i, hi, state⟩

end Finish

/-- RECONCILE_END is taken while RECONCILING, or while a lane is clearing. -/
theorem reqReconcileEnd_ends {s : State} (h : s.restart.reconciling = true ∨ ∃ l, (s.lane l).clearing = true) :
    reqReconcileEnd s =
      (finishReconcile .requested s, okWith (countFields (finishReconcile .requested s).restart.counts)) := by
  have test : (s.restart.reconciling || anyClearing s) = true := by
    rw [Bool.or_eq_true]
    have all : ∀ l : LaneId, l ∈ allLanes := by decide
    exact h.imp_right fun ⟨l, hl⟩ => List.any_eq_true.mpr ⟨l, all l, hl⟩
  unfold reqReconcileEnd
  rw [if_pos test]

/-- And it is refused otherwise. -/
theorem reqReconcileEnd_wrongState {s : State} (h : s.restart.reconciling = false)
    (hl : ∀ l, (s.lane l).clearing = false) : reqReconcileEnd s = (s, bare .wrongState) := by
  have lanes : anyClearing s = false := List.any_eq_false.mpr fun l _ => Bool.eq_false_iff.mp (hl l)
  unfold reqReconcileEnd
  rw [h, lanes]
  rfl

/-- Restart control's counts once every UNCERTAIN job has been settled. -/
def settledCounts (s : State) : ReconcileCounts :=
  let number := fun b => (s.jobs.filter fun e => e.2.state = .uncertain && (e.2.superseded == b)).length
  tallied s.restart.counts (number false) (number true)

/-- What the end of reconciliation leaves, as seen from a state that may differ in what the ports hold. -/
structure ReconcileDone (cause : EndCause) (s t : State) : Prop where
  kept : KeptByReacting
    { s with lanes := s.lanes.map fun x => { x with clearing := false }, restart := t.restart } t
  others : OthersStay (fun n => ∃ j, s.job? n = some j ∧ j.state = .uncertain) s t
  takes : ∀ n j l, s.job? n = some j → j.state = .uncertain → j.lane = some l →
    TakenBy n ⟨.plateNotFound, .lane l, s.clock⟩ s t
  lane : ∀ l, (s.lane l).clearing = true → Told (.laneCleared l cause) s t ∧ Reconsidered l s t
  restart : t.restart = if s.restart.reconciling then
      { s.restart with counts := settledCounts s, reconciling := false, timer := none }
    else { s.restart with counts := settledCounts s }
  told : s.restart.reconciling = true → Told (.reconcileEnded cause (settledCounts s)) s t

section Done

variable {cause : EndCause} {s t : State}

/-- The end of reconciliation leaves that. -/
theorem ReconcileEnds.done (h : ReconcileEnds cause s t) (hs : JobsOrdered s) : ReconcileDone cause s t := by
  have counts : tallied s.restart.counts (settledCount false (uncertainJobs s fun _ => true) s)
      (settledCount true (uncertainJobs s fun _ => true) s) = settledCounts s := by
    rw [settledCount_uncertainJobs hs, settledCount_uncertainJobs hs]
    simp only [Bool.and_true]
    rfl
  have restart := h.restart
  have told := h.told
  rw [counts] at told
  simp only [counts] at restart
  exact ⟨h.kept, h.others_stay hs, fun n j l => h.takes hs, fun l => h.lane, restart, told⟩

/-- The request in hand is not concerned. -/
theorem ReconcileDone.of_holding {p : PortId} {r : Received} (h : ReconcileDone cause (holding p r s) t) :
    ReconcileDone cause s t where
  kept := KeptByReacting.of_holding (p := p) (r := r)
    (u := { s with lanes := s.lanes.map fun x => { x with clearing := false }, restart := t.restart }) h.kept
  others := h.others
  takes n j l hj state at' := by
    have taken := (takenBy_iff n _ _ t).mp (h.takes n j l hj state at')
    exact (takenBy_iff n _ s t).mpr (taken.since rfl le_rfl)
  lane l hl := ⟨(h.lane l hl).1.of_holding, fun calm load e w he hw =>
    (h.lane l hl).2 calm load e w he ⟨hw.works, hw.current, hw.next, hw.stage⟩⟩
  restart := h.restart
  told hr := (h.told hr).of_holding

/-- Nor is the answer. -/
theorem ReconcileDone.answered (h : ReconcileDone cause s t) (p : PortId) (tag : Byte) (kind : U16) (a : Answer) :
    ReconcileDone cause s (t.modLink p (Link.answer tag kind a)) where
  kept := h.kept.andLink p _
  others := h.others
  takes := h.takes
  lane l hl := ⟨(h.lane l hl).1.answered p tag kind a, (h.lane l hl).2⟩
  restart := h.restart
  told hr := (h.told hr).answered p tag kind a

end Done

/-- Settles O57: RECONCILE_END and the reconcile timer open every lane, settle every UNCERTAIN job and end
RECONCILING. -/
theorem reconciliationEnds : Obligations.ReconciliationEnds := by
  intro s htab uncertain number r counts ends
  have ordered : JobsOrdered s := htab.jobs
  have whole {cause : EndCause} {t : State} (h : ReconcileDone cause s t) : ends cause t :=
    ⟨h.kept, h.others, h.takes, h.lane, h.restart, h.told⟩
  refine ⟨fun p tag hfree hroom => ⟨fun h => ?_, fun hr hl => ?_⟩, fun h => ?_, fun h => ?_⟩
  · set x : Received := ⟨tag, 26, .sound .reconcileEnd⟩ with hx
    have finished := finishReconcile_ends .requested (s := holding p x s) ordered
    have taken : exec (.reconcileEnd p tag) s = .next ((finishReconcile .requested (holding p x s)).modLink p
        (Link.answer tag 26 (okWith (countFields (finishReconcile .requested (holding p x s)).restart.counts)))) :=
      exec_applied (r := .reconcileEnd) hfree hroom (reqReconcileEnd_ends (s := holding p x s) h)
    generalize finishReconcile .requested (holding p x s) = v at finished taken
    have done := (finished.done ordered).of_holding
    have answer : okWith (countFields v.restart.counts) = ⟨.ok, [.count counts.uncertain, .count counts.reclaimed,
        .count counts.requeued, .count counts.discarded]⟩ := by
      rw [done.restart]
      split <;> rfl
    rw [answer] at taken
    exact ⟨_, taken, whole (done.answered p tag 26 _),
      answeredAt_of (r := x) rfl rfl (Settles.ports_kept finished.phases.chain)⟩
  · exact answers_unchanged (r := .reconcileEnd) hfree hroom (reqReconcileEnd_wrongState (s := holding p _ s) hr hl)
  · have finished := finishReconcile_ends .timeout ordered
    have taken : exec .reconcileTimerExpiry s = .next (finishReconcile .timeout s) := by
      refine congrArg Host.Outcome.next (show reconcileExpiry s = _ from ?_)
      unfold reconcileExpiry
      rw [if_pos (Option.isSome_iff_ne_none.mpr h)]
    exact ⟨_, taken, whole (finished.done ordered), Settles.ports_kept finished.phases.chain⟩
  · refine congrArg Host.Outcome.next (show reconcileExpiry s = s from ?_)
    have stands : s.restart.timer = none := h
    unfold reconcileExpiry
    rw [stands]
    rfl

end Sys2Proof.Machine
end

section
/-! What LINE_RESET and SOFT_RESET make of the live jobs (R166, R167). -/

namespace Sys2Proof.Machine

open State

/-! ### References that are taken (R58) -/

/-- A slot's count once references have been taken. -/
theorem slot?_takeRefs (ks : List SlotKey) (s : State) (k : SlotKey) :
    (takeRefs ks s).slot? k = (s.slot? k).map fun o => { o with count := o.count + ks.count k } := by
  induction ks generalizing s with
  | nil => exact (congrFun Option.map_id (s.slot? k)).symm
  | cons a ks ih =>
    have first : (takeRef a s).slot? k = if k = a then (s.slot? k).map fun o => { o with count := o.count + 1 } else s.slot? k :=
      slot?_modCount a (· + 1) s k
    refine (ih (takeRef a s)).trans ?_
    rw [first]
    by_cases h : k = a
    · subst h
      rw [if_pos rfl, Option.map_map, List.count_cons_self]
      congr 1
      funext o
      simp only [Function.comp_apply]
      congr 1
      omega
    · rw [if_neg h, List.count_cons_of_ne (Ne.symm h)]

section Taken

variable {n : Nat} {j : Job} {s : State}

/-- No superseded job ends at the reset: none stands at an engine or in a lane. -/
def NoneEnds (s : State) : Prop :=
  ∀ n j, s.job? n = some j → j.superseded = true → j.state ∉ [.assigned, .developing, .finishing]

/-- The references that a job takes at a reset. -/
def retaken (j : Job) : List SlotKey := if j.state ∈ [JobState.developing, .finishing] then j.slots else []

/-- The job's place in the entry order at a reset. -/
def requeued (j : Job) : Nat := if j.state = .assigned then 1 else 0

/-- A job that a reset leaves. -/
theorem resetJob_rests (hj : s.job? n = some j) (h : j.state ∉ [.assigned, .exposing, .developing, .finishing]) :
    resetJob n s = s := by
  unfold resetJob
  rw [hj]
  dsimp only
  split
  next e => exact absurd e (by intro e; rw [e] at h; exact h (by decide))
  next e => exact absurd e (by intro e; rw [e] at h; exact h (by decide))
  next e => exact absurd e (by intro e; rw [e] at h; exact h (by decide))
  next e => exact absurd e (by intro e; rw [e] at h; exact h (by decide))
  next => rfl

/-- A job that was given to an engine. -/
theorem resetJob_assigned (hj : s.job? n = some j) (h : j.state = .assigned) :
    resetJob n s = returnByFault n .contextLost (.engine (j.engine.getD 0)) .cancelled s := by
  unfold resetJob
  rw [hj]
  dsimp only
  rw [h]

/-- A job that was being exposed. -/
theorem resetJob_exposing (hj : s.job? n = some j) (h : j.state = .exposing) :
    resetJob n s = s.modJob n fun x => { x with state := .uncertain, lane := laneOfExposing j } := by
  unfold resetJob
  rw [hj]
  dsimp only
  rw [h]

/-- A job in a lane. -/
theorem resetJob_inLane (hj : s.job? n = some j) (h : j.state ∈ [JobState.developing, .finishing])
    (hs : j.superseded = false) :
    resetJob n s = (takeRefs j.slots s).modJob n fun x => { x with state := .uncertain } := by
  unfold resetJob
  rw [hj]
  dsimp only
  have two : j.state = .developing ∨ j.state = .finishing := by simpa using h
  rcases two with e | e <;> rw [e] <;> dsimp only <;> rw [hs] <;> rfl

/-- A job that returns to its queue by a fault while it holds its references. -/
theorem returnByFault_parts {c : FaultCause} {x : FaultParam} {terminal : JobState} (hj : s.job? n = some j)
    (hs : j.superseded = false) (hr : j.state.holdsRefs = true) : ∃ v p, returnByFault n c x terminal s =
      { s with jobs := v, ports := p, entryCount := s.entryCount + 1 } := by
  have job : (recordFault n c x s).job? n = some { j with lastFault := some ⟨c, x, s.clock⟩ } := recordFault_job c x hj
  have kept : retakeRefs { j with lastFault := some ⟨c, x, s.clock⟩ } (recordFault n c x s) = recordFault n c x s := by
    unfold retakeRefs
    exact if_pos hr
  have parts : returnByFault n c x terminal s = raise (.jobRequeued n j.attempt .fault (some ⟨c, x, s.clock⟩))
      (enterQueue n j.attempt (recordFault n c x s)) := by
    refine (returnByFaultBy_current serve c x terminal hj hs).trans ?_
    rw [requeue_eq _ _ _ job, kept]
  rw [raise_same] at parts
  exact ⟨_, _, parts⟩

/-- What a reset does with a job that does not end. -/
theorem resetJob_parts (hj : s.job? n = some j)
    (hs : j.superseded = true → j.state ∉ [.assigned, .developing, .finishing]) :
    ∃ v p, resetJob n s = { s with jobs := v, ports := p, entryCount := s.entryCount + requeued j
                                   slots := (takeRefs (retaken j) s).slots } := by
  by_cases ha : j.state = .assigned
  · have current : j.superseded = false := Bool.eq_false_iff.mpr fun e => hs e (by rw [ha]; decide)
    obtain ⟨v, p, parts⟩ := returnByFault_parts (c := .contextLost) (x := .engine (j.engine.getD 0))
      (terminal := .cancelled) hj current (by rw [ha]; rfl)
    refine ⟨v, p, (resetJob_assigned hj ha).trans (parts.trans ?_)⟩
    unfold requeued retaken
    rw [ha]
    rfl
  by_cases hx : j.state = .exposing
  · refine ⟨(s.modJob n fun x => { x with state := .uncertain, lane := laneOfExposing j }).jobs, s.ports,
      (resetJob_exposing hj hx).trans ?_⟩
    unfold requeued retaken
    rw [hx]
    rfl
  by_cases hl : j.state ∈ [JobState.developing, .finishing]
  · have current : j.superseded = false := Bool.eq_false_iff.mpr fun e => by
      have two : j.state = .developing ∨ j.state = .finishing := by simpa using hl
      exact hs e (by rcases two with e | e <;> rw [e] <;> decide)
    obtain ⟨v, slots⟩ := takeRefs_slots j.slots s
    refine ⟨((takeRefs j.slots s).modJob n fun x => { x with state := .uncertain }).jobs, s.ports,
      (resetJob_inLane hj hl current).trans ?_⟩
    unfold requeued retaken
    rw [if_neg ha, if_pos hl, slots]
    rfl
  · refine ⟨s.jobs, s.ports, (resetJob_rests hj ?_).trans ?_⟩
    · simp only [List.mem_cons, List.not_mem_nil, or_false, not_or] at hl ⊢
      exact ⟨ha, hx, hl⟩
    · unfold requeued retaken
      rw [if_neg ha, if_neg hl]
      rfl

end Taken

/-! ### All of them, where none ends -/

/-- The references are taken on the slots alone. -/
theorem slots_takeRefs {s t : State} (h : t.slots = s.slots) (ks : List SlotKey) :
    (takeRefs ks t).slots = (takeRefs ks s).slots := by
  induction ks generalizing s t with
  | nil => exact h
  | cons k ks ih =>
    have first : (takeRef k t).slots = (takeRef k s).slots :=
      congrArg (fun v => tmod v k fun x : Slot => { x with count := x.count + 1 }) h
    exact ih first

/-- The jobs' turns, where none ends: the jobs and the ports change, places in the entry order are given, and
references are taken. -/
theorem resetJobs_parts (es : List (Nat × Job)) {s : State} (hs : JobsOrdered s) (hi : Idle s)
    (live : ∀ e ∈ es, s.job? e.1 = some e.2) (distinct : (es.map Prod.fst).Nodup)
    (stay : ∀ e ∈ es, e.2.superseded = true → e.2.state ∉ [.assigned, .developing, .finishing]) :
    ∃ v p, (es.map Prod.fst).foldl (fun s n => resetJob n s) s =
      { s with jobs := v, ports := p, entryCount := s.entryCount + (es.map fun e => requeued e.2).sum
               slots := (takeRefs (es.map fun e => retaken e.2).flatten s).slots } := by
  induction es generalizing s with
  | nil => exact ⟨s.jobs, s.ports, rfl⟩
  | cons e es ih =>
    obtain ⟨v, p, one⟩ := resetJob_parts (live e List.mem_cons_self) (stay e List.mem_cons_self)
    have first : KeptAside s (resetJob e.1 s) ∧ PortsKept s (resetJob e.1 s) ∧ JobsOrdered (resetJob e.1 s) :=
      resetJobs_aside [e.1] hs
    obtain ⟨aside, -, ordered⟩ := first
    obtain ⟨fresh, distinct⟩ := List.nodup_cons.mp distinct
    have kept : ∀ x ∈ es, (resetJob e.1 s).job? x.1 = some x.2 := fun x hx =>
      resetJob_keeps hs hi (fun h => fresh (by rw [← h]; exact List.mem_map_of_mem hx)) (live x (List.mem_cons_of_mem _ hx))
    obtain ⟨v', p', rest⟩ := ih ordered (hi.aside aside) kept distinct fun x hx => stay x (List.mem_cons_of_mem _ hx)
    have slots : (takeRefs (es.map fun e => retaken e.2).flatten (resetJob e.1 s)).slots =
        (takeRefs ((e :: es).map fun e => retaken e.2).flatten s).slots := by
      rw [List.map_cons, List.flatten_cons]
      refine (slots_takeRefs (s := takeRefs (retaken e.2) s) (by rw [one]) _).trans ?_
      unfold takeRefs
      rw [List.foldl_append]
    have order : (resetJob e.1 s).entryCount + (es.map fun e => requeued e.2).sum =
        s.entryCount + ((e :: es).map fun e => requeued e.2).sum := by
      rw [one, List.map_cons, List.sum_cons]
      exact Nat.add_assoc _ _ _
    refine ⟨v', p', (List.foldl_cons ..).trans (rest.trans ?_)⟩
    rw [slots, order, one]

/-- A sum over the jobs is a number of them. -/
theorem sum_requeued (es : List (Nat × Job)) :
    (es.map fun e => requeued e.2).sum = (es.filter fun e => e.2.state = .assigned).length := by
  induction es with
  | nil => rfl
  | cons e es ih =>
    rw [List.map_cons, List.sum_cons, ih, List.filter_cons]
    unfold requeued
    by_cases h : e.2.state = .assigned <;> simp [h, Nat.add_comm]

/-- The table, the positions, presses and pages, and the numbers given, once the jobs have had their turns, where none
ends. -/
theorem afterJobs_parts (kind : ResetKind) {s : State} (hs : JobsOrdered s) (h : NoneEnds s) :
    ∃ v p, afterJobs kind s =
      { beforeJobs kind s with
        jobs := v, ports := p
        entryCount := s.entryCount + (s.jobs.filter fun e => e.2.state = .assigned).length
        slots := (takeRefs (s.jobs.map fun e => retaken e.2).flatten s).slots } := by
  have live : ∀ e ∈ s.jobs, (beforeJobs kind s).job? e.1 = some e.2 := fun e he => tget_of_mem hs he
  obtain ⟨v, p, parts⟩ := resetJobs_parts s.jobs (s := beforeJobs kind s) hs (idle_before kind s) live (keys_ascend hs)
    fun e he => h e.1 e.2 (tget_of_mem hs he)
  rw [sum_requeued, slots_takeRefs (t := beforeJobs kind s) (s := s) rfl] at parts
  exact ⟨v, p, parts⟩

/-! ### What a reset makes of the jobs -/

/-- The state from which a reset takes the part: the ports as they are, or as the straps set them. -/
theorem reset_from {c : Instr} {kind : ResetKind} {s : State}
    (hc : ((∃ p1 p2, c = .lineReset p1 p2) ∧ kind = .lineReset) ∨ (c = .softResetTaken ∧ kind = .softReset)) :
    ∃ u, exec c s = .next (resetPart kind u) ∧ Same s u ∧
      (∀ p1 p2, c = .lineReset p1 p2 → u = loadAllStraps p1 p2 s) ∧ (c = .softResetTaken → u = s) := by
  rcases hc with ⟨⟨p1, p2, rfl⟩, rfl⟩ | ⟨rfl, rfl⟩
  · refine ⟨loadAllStraps p1 p2 s, rfl, loadAllStraps_same p1 p2 s, fun q1 q2 h => ?_, nofun⟩
    injection h with h1 h2
    rw [h1, h2]
  · exact ⟨s, rfl, rfl, nofun, fun _ => rfl⟩

section Reset

variable {s : State}

/-- Restart control's record after a reset. -/
theorem restart_resetPart (kind : ResetKind) (hs : JobsOrdered s) :
    let waiting := ((resetPart kind s).jobs.filter fun e => e.2.state = .uncertain).length
    (resetPart kind s).restart = if waiting = 0 then ⟨kind, false, none, ⟨0, 0, 0, 0⟩⟩
      else ⟨kind, true, some s.limits.reconcile, ⟨waiting, 0, 0, 0⟩⟩ := by
  obtain ⟨aside, -, -, kept, jobs⟩ := resetPart_parts kind s hs
  have limits : (afterJobs kind s).limits = s.limits := aside.limits
  dsimp only
  rw [kept.restart, jobs, ← limits]
  rfl

/-- The raster slots after a reset at which no superseded job ends. -/
theorem slot?_resetPart (kind : ResetKind) (hs : JobsOrdered s) (h : NoneEnds s) (k : SlotKey) :
    (resetPart kind s).slot? k = (s.slot? k).map fun o => { o with
      count := o.count + (s.jobs.map fun e =>
        if e.2.state ∈ [JobState.developing, .finishing] then e.2.slots.count k else 0).sum } := by
  obtain ⟨-, -, -, kept, -⟩ := resetPart_parts kind s hs
  obtain ⟨v, p, parts⟩ := afterJobs_parts kind hs h
  have slots : (resetPart kind s).slots = (takeRefs (s.jobs.map fun e => retaken e.2).flatten s).slots := by
    have taken := congrArg State.slots parts
    exact kept.slots.trans taken
  have count : (s.jobs.map fun e => retaken e.2).flatten.count k = (s.jobs.map fun e =>
      if e.2.state ∈ [JobState.developing, .finishing] then e.2.slots.count k else 0).sum := by
    rw [List.count_flatten, List.map_map]
    refine congrArg List.sum (List.map_congr_left fun e _ => ?_)
    simp only [Function.comp_apply, retaken]
    split
    · rfl
    · exact List.count_nil
  rw [← count, ← slot?_takeRefs]
  exact congrArg (fun v => tget v k) slots

end Reset

/-- Settles O17: a reset takes each live job by its state, and restart control sets its record. -/
theorem resetTakesJobs : Obligations.ResetTakesJobs := by
  intro c kind s htab hc
  obtain ⟨u, taken, ports, -, -⟩ := reset_from hc
  have same : u = { s with ports := u.ports } := ports
  have jobs : u.jobs = s.jobs := by rw [same]
  have job (n : Nat) : u.job? n = s.job? n := congrArg (fun v => tget v n) jobs
  have slot (k : SlotKey) : u.slot? k = s.slot? k := congrArg (fun v => tget v k) (show u.slots = s.slots by rw [same])
  have limits : u.limits = s.limits := by rw [same]
  have clock : (beforeJobs kind u).clock = s.clock := show u.clock = s.clock by rw [same]
  have entry : s.entryCount ≤ (beforeJobs kind u).entryCount := (show u.entryCount = s.entryCount by rw [same]).ge
  have ordered : JobsOrdered u := by
    unfold JobsOrdered
    rw [jobs]
    exact htab.jobs
  obtain ⟨-, -, -, -, after⟩ := resetPart_parts kind u ordered
  have left (n : Nat) : (resetPart kind u).job? n = (afterJobs kind u).job? n := congrArg (fun v => tget v n) after
  have restart := restart_resetPart kind ordered
  have slots := slot?_resetPart kind ordered
  have each (n : Nat) (j : Job) (hj : s.job? n = some j) := resetPart_job kind u ordered ((job n).trans hj)
  simp only [slot, jobs, limits] at slots restart
  refine ⟨resetPart kind u, taken, fun n j hj => ?_, fun none k => slots (fun n j hj => none n j ((job n).symm.trans hj)) k,
    restart⟩
  generalize resetPart kind u = t at left
  obtain ⟨rest, assigned, exposing, onLane, ends⟩ := each n j hj
  refine ⟨fun h => ?_, fun h hs e he => ?_, fun h e he => ?_, fun h hs => ?_, fun h hs => ?_⟩
  · have other (x : JobState) (hx : x ∉ [JobState.queued, .racked, .mounted, .failed, .uncertain]) : j.state ≠ x :=
      fun e => hx (e ▸ h)
    exact (left n).trans (rest (other _ (by decide)) (other _ (by decide)) (other _ (by decide)) (other _ (by decide)))
  · obtain ⟨j', hj', state, order, same'⟩ := assigned h hs
    rw [he, clock] at same'
    exact ⟨j', (left n).trans hj', state, entry.trans_lt order, same'⟩
  · have lane : j.engine.map laneFed = some (laneFed e) := by rw [he]; rfl
    have after := exposing h
    rw [lane] at after
    exact (left n).trans after
  · exact (left n).trans (onLane (by simpa using h) hs)
  · intro i hi
    exact (ends (by simpa using h) hs i ((left n).symm.trans hi)).since entry

end Sys2Proof.Machine
end

section
/-! A departure phase by phase: what its steps keep, it keeps (R50, R55). -/

namespace Sys2Proof.Machine

open State

section Phases

variable {n : Nat} {terminal : JobState} {s : State}

/-- The first steps of a departure: `M` holds while the job stands in the table, in its terminal state, and `N` once it
has left. -/
theorem departCore_induct {M N : State → Prop} {j : Job} (hj : s.job? n = some j)
    (start : M (s.modJob n fun x => { x with state := terminal }))
    (judge : ∀ t, M t → M (evalStarved t))
    (release : ∀ t, M t → M (releaseRefs j.slots t))
    (lower : ∀ t p, M t → M (lowerLive p t))
    (vacate : ∀ t x, M t → t.pos? j.key = some x → x.work.current = some n →
      M (needTest j.key (t.modWork j.key fun w => { w with current := none })))
    (notice : ∀ t m, M t → M (raise m t))
    (drop : ∀ t, M t → N (t.dropJob n))
    (tell : ∀ t k, N t → N (tellSatisfied k t)) : N (departCore n terminal s) := by
  have lowerAll (l : List Nat) (t : State) (h : M t) : M (l.foldl (fun s p => lowerLive p s) t) := by
    induction l generalizing t with
    | nil => exact h
    | cons p l ih => exact ih _ (lower t p h)
  have tellAll (l : List PosKey) (t : State) (h : N t) : N (tellAll l t) := by
    unfold Machine.tellAll
    induction l generalizing t with
    | nil => exact h
    | cons k l ih => exact ih _ (tell t k h)
  have tellPages (l : List Nat) (t : State) (h : N t) :
      N (l.foldl (fun s p => Machine.tellAll (s.positionsNaming p) s) t) := by
    induction l generalizing t with
    | nil => exact h
    | cons p l ih => exact ih _ (tellAll _ t h)
  unfold departCore
  rw [hj]
  dsimp only
  generalize s.modJob n (fun x => { x with state := terminal }) = s1 at start ⊢
  have judged : M (if j.state = .queued then evalStarved s1 else s1) := by
    split
    · exact judge _ start
    · exact start
  generalize (if j.state = .queued then evalStarved s1 else s1) = s2 at judged ⊢
  have released : M (if j.state.holdsRefs then releaseRefs j.slots s2 else s2) := by
    split
    · exact release _ judged
    · exact judged
  generalize (if j.state.holdsRefs then releaseRefs j.slots s2 else s2) = s3 at released ⊢
  have lowered := lowerAll (j.pages.map Prod.fst) s3 released
  generalize (j.pages.map Prod.fst).foldl (fun s p => lowerLive p s) s3 = s4 at lowered ⊢
  refine tellPages _ _ (tell _ _ (drop _ (notice _ _ ?_)))
  split
  next x hx =>
    split
    next hc => exact judge _ (vacate s4 x lowered hx (of_decide_eq_true hc))
    next => exact lowered
  next => exact lowered

/-- The rest of a departure: the deferred positions are tested, and the engines are served. -/
theorem depart_induct {N : State → Prop} (core : N (departCore n terminal s))
    (test : ∀ t, ∀ k ∈ deferredOrder (departCore n terminal s), N t → N (needTest k t))
    (served : ∀ t, N t → N (serve t)) : N (depart n terminal s) := by
  unfold depart departBy serveDeferred
  generalize departCore n terminal s = u at core test ⊢
  have all (l : List PosKey) (t : State) (hl : ∀ k ∈ l, k ∈ deferredOrder u) (h : N t) : N (serveFrom serve l t) := by
    induction l generalizing t with
    | nil => exact h
    | cons k l ih =>
      have tested := test t k (hl k List.mem_cons_self) h
      have rest (k' : PosKey) (hk : k' ∈ l) := hl k' (List.mem_cons_of_mem _ hk)
      unfold serveFrom
      dsimp only
      split
      · split
        · exact ih _ rest (served _ tested)
        · exact served _ tested
      · exact ih _ rest tested
  exact served _ (all _ u (fun _ h => h) core)

end Phases

/-- Where no engine runs and the line is not stopping, serving judges the colour-starved condition alone. -/
theorem serve_idle {s : State} (hs : JobsOrdered s) (hi : Idle s) (hl : s.line.state ≠ .stopping) :
    serve s = s.setStarved false := by
  have judged : evalStarved s = s.setStarved false := by
    unfold evalStarved
    rw [if_neg fun h => ?_]
    obtain ⟨⟨e, he⟩, -⟩ := (colourStarvedNow_iff hs).mp h
    exact hi e he
  have idle : Idle (s.setStarved false) := hi
  have line : (s.setStarved false).line.state ≠ .stopping := hl
  rw [serve_eq]
  unfold worked
  rw [judged]
  generalize s.setStarved false = t at idle line ⊢
  have fills (e : EngineId) : fill e t = t := fill_same (.inr fun x _ h => idle e h.works.running)
  have filled : fillAll t = t := by
    unfold fillAll
    generalize allEngines = l
    induction l with
    | nil => rfl
    | cons e l ih => rw [List.foldl_cons, fills, ih]
  have preempts : preemptAll t = t := by
    unfold preemptAll
    cases t.offered .urgent with
    | nil => rfl
    | cons x l =>
      unfold preemptFrom
      rw [preemptChoice_eq_none fun e h => idle e h.eligible.works.running]
  have exposes (l : LaneId) : exposeOnce l t = t := exposeOnce_same (.inr fun e w _ h => idle e h.works.running)
  have exposed (l : LaneId) : exposeLane l t = t := by unfold exposeLane; rw [exposes, exposes, exposes]
  rw [filled, preempts, exposed, exposed, evalReached_other line]

end Sys2Proof.Machine
end

section
/-! What a reset leaves of the plan and of the numbers given, where superseded jobs end at it (R48, R52, R55). -/

namespace Sys2Proof.Machine

open State

/-! ### Jobs made on the way -/

/-- A number outside some names a job of a position that has been created since. -/
def Made (b : State) (X : Nat → Prop) (t : State) (k : PosKey) (m : Nat) : Prop :=
  ¬ X m ∧ ∃ j, t.job? m = some j ∧ j.key = k ∧ CreatedSince b j

/-- It stays through reactions that do not take it. -/
theorem Made.reacts {D X : Nat → Prop} {b t u : State} {k : PosKey} {m : Nat} (h : Made b X t k m) (r : Reacts D t u)
    (hm : ¬ D m) : Made b X u k m := by
  obtain ⟨hx, j, hj, key, created⟩ := h
  obtain ⟨i, hi, stays⟩ := Reacts.job_stays r hm hj
  refine ⟨hx, i, hi, ?_, (lasts_created b).stays j i created stays⟩
  rw [stays.2]
  exact key

/-- A step that takes no job gives no number, or a free one to a job that it creates. -/
theorem ReactStep.last {t u : State} (h : ReactStep NoJob t u) : u.lastJob = t.lastJob ∨
    (t.job? u.lastJob = none ∧ ∃ j, u.job? u.lastJob = some j ∧ CreatedSince t j) := by
  cases h with
  | serve h =>
    left
    cases h with
    | expose e =>
      unfold sendExpose
      split <;> rfl
    | _ => rfl
  | addJob n j _ _ created free =>
    right
    refine ⟨free, j, ?_, created⟩
    exact (job?_addJob n j t.bumpEntry n).trans (if_pos rfl)
  | _ => exact .inl rfl

/-- What a position holds of its jobs is as it was, but that it may be deferred no longer. -/
def WorkStays (x y : Position) : Prop :=
  y.work = { x.work with deferred := y.work.deferred, satisfied := y.work.satisfied } ∧
    (x.work.deferred = false → y.work.deferred = false)

/-- The current job of a position is not superseded. -/
def OwnsCurrent (b : State) (x : Position) : Prop :=
  ∀ n j, x.work.current = some n → b.job? n = some j → j.superseded = false

/-- A position holds of its jobs what it held, or it was deferred and has a new job. -/
def WorkKept (b : State) (X : Nat → Prop) (t : State) (k : PosKey) (x y : Position) : Prop :=
  WorkStays x y ∨ (x.work.deferred = true ∧ ∃ m, y.work.current = some m ∧ Made b X t k m)

/-- What a reset has left so far, with the jobs of `X` still to be taken: the last number given is an old one or names a
new job, and a position holds what it held, or was deferred and has a new job. -/
structure ResetKept (b : State) (X : Nat → Prop) (t : State) : Prop where
  jobs : JobsOrdered t
  plan : Table.ordered PosKey.rank t.plan
  idle : Idle t
  order : b.entryCount ≤ t.entryCount
  live : ∀ m, X m → t.job? m ≠ none
  last : t.lastJob = b.lastJob ∨ ∃ k, Made b X t k t.lastJob
  work : ∀ k x, b.pos? k = some x → OwnsCurrent b x → ∃ y, t.pos? k = some y ∧ WorkKept b X t k x y

section Kept

variable {b t u : State} {X Y : Nat → Prop}

/-- With fewer jobs still to be taken. -/
theorem ResetKept.fewer (h : ResetKept b X t) (sub : ∀ m, Y m → X m) : ResetKept b Y t := by
  have made {k : PosKey} {m : Nat} (h : Made b X t k m) : Made b Y t k m := ⟨fun hm => h.1 (sub m hm), h.2⟩
  refine ⟨h.jobs, h.plan, h.idle, h.order, fun m hm => h.live m (sub m hm), h.last.imp_right fun ⟨k, hk⟩ => ⟨k, made hk⟩,
    fun k x hx own => ?_⟩
  obtain ⟨y, hy, stands⟩ := h.work k x hx own
  exact ⟨y, hy, stands.imp_right fun ⟨deferred, m, current, hm⟩ => ⟨deferred, m, current, made hm⟩⟩

/-- Reactions that take no job keep the last number old or new. -/
theorem ResetKept.last_reacts (h : ResetKept b X t) (r : Reacts NoJob t u) :
    u.lastJob = b.lastJob ∨ ∃ k, Made b X u k u.lastJob := by
  have whole : b.entryCount ≤ u.entryCount ∧ (∀ m, X m → u.job? m ≠ none) ∧
      (u.lastJob = b.lastJob ∨ ∃ k, Made b X u k u.lastJob) := by
    induction r with
    | refl => exact ⟨h.order, h.live, h.last⟩
    | @tail v w _ step ih =>
      obtain ⟨order, live, last⟩ := ih
      have one : Reacts NoJob v w := .single step
      refine ⟨order.trans step.entry_le, fun m hm none => ?_, ?_⟩
      · obtain ⟨j, hj⟩ := Option.ne_none_iff_exists'.mp (live m hm)
        obtain ⟨i, hi, -⟩ := step.job_stays not_false hj
        exact nomatch none.symm.trans hi
      · rcases step.last with same | ⟨free, j, hj, created⟩
        · rw [same]
          exact last.imp_right fun ⟨k, hk⟩ => ⟨k, hk.reacts one not_false⟩
        · exact .inr ⟨j.key, fun hm => live _ hm free, j, hj, rfl, created.since order⟩
  exact whole.2.2

/-- Reactions that take no job, and after which each position stands so. -/
theorem ResetKept.reacts (h : ResetKept b X t) (r : Reacts NoJob t u)
    (work : ∀ k x y, b.pos? k = some x → OwnsCurrent b x → t.pos? k = some y →
      WorkKept b X t k x y → ∃ z, u.pos? k = some z ∧ WorkKept b X u k x z) :
    ResetKept b X u where
  jobs := Reacts.jobs_ordered h.jobs r
  plan := Reacts.plan_ordered r h.plan
  idle := h.idle.aside (Reacts.kept r).toKeptAside
  order := h.order.trans (Reacts.entry_le r)
  live m hm none := by
    obtain ⟨j, hj⟩ := Option.ne_none_iff_exists'.mp (h.live m hm)
    obtain ⟨i, hi, -⟩ := Reacts.job_stays r not_false hj
    exact nomatch none.symm.trans hi
  last := h.last_reacts r
  work k x hx own := by
    obtain ⟨y, hy, stands⟩ := h.work k x hx own
    exact work k x y hx own hy stands

/-- A position that stands as it was, but for its standing. -/
theorem stands_reacts {k : PosKey} {x y : Position} (r : Reacts NoJob t u) (g : StandsAs k t u) (hy : t.pos? k = some y)
    (h : WorkKept b X t k x y) : ∃ z, u.pos? k = some z ∧ WorkKept b X u k x z := by
  obtain ⟨c, hz⟩ := g y hy
  refine ⟨_, hz, ?_⟩
  rcases h with ⟨same, deferred⟩ | ⟨deferred, m, current, made⟩
  · refine .inl ⟨?_, deferred⟩
    rw [same]
  · exact .inr ⟨deferred, m, current, made.reacts r not_false⟩

/-- Reactions that take no job and concern no position. -/
theorem ResetKept.quiet (h : ResetKept b X t) (r : Reacts NoJob t u) (g : ∀ k, StandsAs k t u) : ResetKept b X u :=
  h.reacts r fun k _ _ _ _ hy stands => stands_reacts r (g k) hy stands

/-- A test of the need at a position that was deferred. -/
theorem ResetKept.test (h : ResetKept b X t) (a : PosKey)
    (ha : ∀ x, b.pos? a = some x → OwnsCurrent b x → x.work.deferred = true) : ResetKept b X (needTest a t) := by
  have r : Reacts NoJob t (needTest a t) := needTest_reacts a t
  refine h.reacts r fun k x y hx own hy stands => ?_
  by_cases hk : k = a
  · subst hk
    have deferred := ha x hx own
    cases hn : needsJob t y with
    | false =>
      rw [needTest_clears hy hn]
      have after : (t.modWork k fun w => { w with deferred := false }).pos? k =
          some { y with work := { y.work with deferred := false } } := by
        rw [pos?_modWork, if_pos rfl, hy]
        rfl
      refine ⟨_, after, ?_⟩
      rcases stands with ⟨same, -⟩ | ⟨_, m, current, made⟩
      · refine .inl ⟨?_, fun _ => rfl⟩
        rw [same]
      · exact .inr ⟨deferred, m, current, made⟩
    | true =>
      by_cases hl : t.jobs.length < 768
      · have free : t.job? (nextNumber t) = none := by
          obtain ⟨i, _, free, _⟩ := nextNumber_nextFree hl
          exact free
        rw [needTest_creates hy hn hl]
        refine ⟨_, pos?_created hy, .inr ⟨deferred, nextNumber t, rfl, fun hm => h.live _ hm free, newJob t k y,
          job?_created k y t, rfl, (lasts_created b).made t k y h.order⟩⟩
      · rw [needTest_full hy hn (Nat.not_lt.mp hl)]
        split
        · exact ⟨y, hy, stands⟩
        · have after : (raise (.positionDeferred k) (t.modWork k fun w => { w with deferred := true })).pos? k =
              some { y with work := { y.work with deferred := true } } := by
            rw [pos?_raise, pos?_modWork, if_pos rfl, hy]
            rfl
          refine ⟨_, after, ?_⟩
          rcases stands with ⟨same, -⟩ | ⟨_, m, current, -⟩
          · refine .inl ⟨?_, fun h => absurd (deferred.symm.trans h) (by decide)⟩
            rw [same]
          · have vacant : y.work.current = none := by
              have test := (Bool.and_eq_true_iff.mp hn).1
              exact Option.isNone_iff_eq_none.mp test
            exact nomatch vacant.symm.trans current
  · exact stands_reacts r (needTest_standsAs hk t) hy stands

/-- A job that ends at a reset: it is superseded, and it is its turn. -/
structure EndsAt (b : State) (X : Nat → Prop) (n : Nat) : Prop where
  turn : X n
  superseded : ∃ j, b.job? n = some j ∧ j.superseded = true

/-- Where a position's current job is not superseded, it is none that ends. -/
theorem ResetKept.apart {n : Nat} (h : ResetKept b X t) (hn : EndsAt b X n) {k : PosKey} {x y : Position}
    (hx : b.pos? k = some x) (own : OwnsCurrent b x) (hy : t.pos? k = some y) : y.work.current ≠ some n := by
  intro current
  obtain ⟨j, hj, superseded⟩ := hn.superseded
  obtain ⟨y', hy', stands⟩ := h.work k x hx own
  obtain rfl : y = y' := Option.some.inj (hy.symm.trans hy')
  rcases stands with ⟨same, -⟩ | ⟨-, m, current', made, -⟩
  · have before : x.work.current = some n := by
      rw [same] at current
      exact current
    exact absurd superseded (by rw [own n j before hj]; decide)
  · have here : m = n := Option.some.inj (current'.symm.trans current)
    exact made (here ▸ hn.turn)

/-- A change of the record of a job whose turn it is. -/
theorem ResetKept.modJob {n : Nat} (h : ResetKept b X t) (hn : X n) (f : Job → Job) : ResetKept b X (t.modJob n f) := by
  have made {k : PosKey} {m : Nat} (h : Made b X t k m) : Made b X (t.modJob n f) k m := by
    obtain ⟨hm, j, hj, key, created⟩ := h
    have other : m ≠ n := fun e => hm (e ▸ hn)
    exact ⟨hm, j, (job?_modJob n f t m).trans ((if_neg other).trans hj), key, created⟩
  refine ⟨ordered_tmod (rank := id) n f h.jobs, h.plan, h.idle, h.order, fun m hm none => ?_,
    h.last.imp_right fun ⟨k, hk⟩ => ⟨k, made hk⟩, fun k x hx own => ?_⟩
  · rw [job?_modJob] at none
    split at none
    · exact h.live m hm (Option.map_eq_none_iff.mp none)
    · exact h.live m hm none
  · obtain ⟨y, hy, stands⟩ := h.work k x hx own
    exact ⟨y, hy, stands.imp_right fun ⟨deferred, m, current, hm⟩ => ⟨deferred, m, current, made hm⟩⟩

/-- A job whose turn it is leaves the table. -/
theorem ResetKept.dropJob {n : Nat} (h : ResetKept b X t) (hn : X n) :
    ResetKept b (fun m => X m ∧ m ≠ n) (t.dropJob n) := by
  have made {k : PosKey} {m : Nat} (h : Made b X t k m) : Made b (fun m => X m ∧ m ≠ n) (t.dropJob n) k m := by
    obtain ⟨hm, j, hj, key, created⟩ := h
    have other : m ≠ n := fun e => hm (e ▸ hn)
    exact ⟨fun h => hm h.1, j, (job?_dropJob n t m).trans ((if_neg other).trans hj), key, created⟩
  refine ⟨ordered_tdel (rank := id) n h.jobs, h.plan, h.idle, h.order, fun m ⟨hm, other⟩ none => ?_,
    h.last.imp_right fun ⟨k, hk⟩ => ⟨k, made hk⟩, fun k x hx own => ?_⟩
  · rw [job?_dropJob, if_neg other] at none
    exact h.live m hm none
  · obtain ⟨y, hy, stands⟩ := h.work k x hx own
    exact ⟨y, hy, stands.imp_right fun ⟨deferred, m, current, hm⟩ => ⟨deferred, m, current, made hm⟩⟩

/-- A superseded job that departs in its turn. -/
theorem ResetKept.departs {n : Nat} (h : ResetKept b X t) (hn : EndsAt b X n) (terminal : JobState) :
    ResetKept b (fun m => X m ∧ m ≠ n) (depart n terminal t) := by
  obtain ⟨j, hj⟩ := Option.ne_none_iff_exists'.mp (h.live n hn.turn)
  have core : ResetKept b (fun m => X m ∧ m ≠ n) (departCore n terminal t) := by
    refine departCore_induct (M := ResetKept b X) hj (h.modJob hn.turn _)
      (fun v hv => hv.quiet (evalStarved_reacts v) fun k => evalStarved_standsAs k v)
      (fun v hv => hv.quiet (releaseRefs_reacts _ v) fun k => releaseRefs_standsAs k _ v)
      (fun v p hv => hv.quiet (lowerLive_reacts p v) fun k => lowerLive_standsAs k p v)
      (fun v y hv hy current => ?_)
      (fun v m hv => hv.quiet (raise_reacts m v) fun k => raise_standsAs k m v)
      (fun v hv => hv.dropJob hn.turn)
      (fun v k hv => hv.quiet (tellSatisfied_reacts k v) fun a => tellSatisfied_standsAs a k v)
    have vacated : Reacts NoJob v (v.modWork j.key fun w => { w with current := none }) :=
      .single (.work v j.key _ fun _ => rfl)
    have tested : Reacts NoJob v (needTest j.key (v.modWork j.key fun w => { w with current := none })) :=
      vacated.trans (needTest_reacts j.key _)
    refine hv.reacts tested fun k x z hx own hz stands => ?_
    have other : k ≠ j.key := fun e => by
      subst e
      obtain rfl : y = z := Option.some.inj (hy.symm.trans hz)
      exact hv.apart hn hx own hy current
    exact stands_reacts tested ((StandsAs.modWork other _ v).trans (needTest_standsAs other _)) hz stands
  refine depart_induct core (fun v k hk hv => hv.test k fun x hx own => ?_)
    (fun v hv => hv.quiet (serve_reacts hv.jobs) fun k => serve_standsAs k hv.jobs)
  obtain ⟨y, hy, stands⟩ := core.work k x hx own
  rcases stands with ⟨-, deferred⟩ | ⟨deferred, -⟩
  · cases hd : x.work.deferred with
    | true => rfl
    | false => exact absurd hk (not_mem_deferredOrder core.plan hy (deferred hd))
  · exact deferred

/-- A fault that is recorded in a job whose turn it is. -/
theorem ResetKept.recordFault {n : Nat} (h : ResetKept b X t) (hn : X n) (c : FaultCause) (p : FaultParam) :
    ResetKept b X (recordFault n c p t) := h.modJob hn _

/-- A job's turn at a reset. -/
theorem ResetKept.resetJob {n : Nat} {j : Job} (h : ResetKept b X t) (hn : X n) (hb : b.job? n = some j)
    (hj : t.job? n = some j) : ResetKept b (fun m => X m ∧ m ≠ n) (resetJob n t) := by
  by_cases ends : j.superseded = true ∧ j.state ∈ [JobState.assigned, .developing, .finishing]
  · obtain ⟨superseded, state⟩ := ends
    have ends : EndsAt b X n := ⟨hn, j, hb, superseded⟩
    by_cases ha : j.state = .assigned
    · have recorded := h.recordFault hn .contextLost (.engine (j.engine.getD 0))
      have left := recorded.departs ends .cancelled
      have turn : Machine.resetJob n t = depart n .cancelled (Machine.recordFault n .contextLost (.engine (j.engine.getD 0)) t) := by
        refine (resetJob_assigned hj ha).trans ?_
        unfold returnByFault returnByFaultBy
        dsimp only
        rw [recordFault_job _ _ hj]
        exact if_pos superseded
      rw [turn]
      exact left
    · have two : j.state = .developing ∨ j.state = .finishing := by simpa [ha] using state
      have turn : Machine.resetJob n t = depart n .discarded t := by
        unfold Machine.resetJob
        rw [hj]
        dsimp only
        rcases two with e | e <;> rw [e] <;> exact if_pos superseded
      rw [turn]
      exact h.departs ends .discarded
  · have stays : j.superseded = true → j.state ∉ [.assigned, .developing, .finishing] := fun e m => ends ⟨e, m⟩
    obtain ⟨v, p, parts⟩ := resetJob_parts hj stays
    obtain ⟨aside, -, ordered⟩ : KeptAside t (Machine.resetJob n t) ∧ PortsKept t (Machine.resetJob n t) ∧
      JobsOrdered (Machine.resetJob n t) := resetJobs_aside [n] h.jobs
    have made {k : PosKey} {m : Nat} (hm : Made b X t k m) : Made b (fun m => X m ∧ m ≠ n) (Machine.resetJob n t) k m := by
      obtain ⟨hx, i, hi, key, created⟩ := hm
      have other : m ≠ n := fun e => hx (e ▸ hn)
      exact ⟨fun h => hx h.1, i, resetJob_keeps h.jobs h.idle other hi, key, created⟩
    have plan : (Machine.resetJob n t).plan = t.plan := by rw [parts]
    have last : (Machine.resetJob n t).lastJob = t.lastJob := by rw [parts]
    refine ⟨ordered, by rw [plan]; exact h.plan, h.idle.aside aside, h.order.trans (resetJob_entry n h.jobs),
      fun m ⟨hm, other⟩ none => ?_, ?_, fun k x hx own => ?_⟩
    · obtain ⟨i, hi⟩ := Option.ne_none_iff_exists'.mp (h.live m hm)
      exact nomatch none.symm.trans (resetJob_keeps h.jobs h.idle other hi)
    · rw [last]
      exact h.last.imp_right fun ⟨k, hk⟩ => ⟨k, made hk⟩
    · obtain ⟨y, hy, stands⟩ := h.work k x hx own
      exact ⟨y, (pos?_of_plan plan).trans hy,
        stands.imp_right fun ⟨deferred, m, current, hm⟩ => ⟨deferred, m, current, made hm⟩⟩

/-- The jobs' turns at a reset. -/
theorem ResetKept.resetJobs (l : List Nat) (distinct : l.Nodup) (h : ResetKept b (fun n => n ∈ l) t)
    (same : ∀ n ∈ l, t.job? n = b.job? n) :
    ResetKept b (fun _ => False) (l.foldl (fun s n => Machine.resetJob n s) t) := by
  induction l generalizing t with
  | nil => exact h.fewer fun _ h => h.elim
  | cons n l ih =>
    obtain ⟨fresh, distinct⟩ := List.nodup_cons.mp distinct
    obtain ⟨j, hj⟩ := Option.ne_none_iff_exists'.mp (h.live n List.mem_cons_self)
    have turn := h.resetJob List.mem_cons_self ((same n List.mem_cons_self).symm.trans hj) hj
    have rest : ResetKept b (fun m => m ∈ l) (Machine.resetJob n t) :=
      turn.fewer fun m hm => ⟨List.mem_cons_of_mem _ hm, fun e => fresh (e ▸ hm)⟩
    refine ih distinct rest fun m hm => ?_
    have other : m ≠ n := fun e => fresh (e ▸ hm)
    obtain ⟨i, hi⟩ := Option.ne_none_iff_exists'.mp (h.live m (List.mem_cons_of_mem _ hm))
    rw [← same m (List.mem_cons_of_mem _ hm), hi]
    exact resetJob_keeps h.jobs h.idle other hi

end Kept

end Sys2Proof.Machine
end

section
/-! What LINE_RESET and SOFT_RESET leave of the part (R95, R111, R125, R164 to R168, R182). -/

namespace Sys2Proof.Machine

open State

/-! ### The ports at a reset (R165, R180) -/

section Links

variable {R : Link → Link → Prop} (hrefl : ∀ l, R l l) (htrans : ∀ {x y z}, R x y → R y z → R x z)
  (hoffer : ∀ time n l, R l (Link.offer time n l))
include hrefl htrans hoffer

/-- A relation of links that an offer keeps holds over reactions. -/
theorem Reacts.links {D : Nat → Prop} {s t : State} (h : Reacts D s t) (q : PortId) :
    R (s.port q).link (t.port q).link := by
  induction h with
  | refl => exact hrefl _
  | tail _ step ih =>
    refine htrans ih ?_
    cases step with
    | serve h => exact h.links hrefl hoffer q
    | _ => exact hrefl _

/-- And over the jobs' turns at a reset. -/
theorem resetJobs_links (l : List Nat) {s : State} (hs : JobsOrdered s) (q : PortId) :
    R (s.port q).link ((l.foldl (fun s n => resetJob n s) s).port q).link := by
  induction l generalizing s with
  | nil => exact hrefl _
  | cons n l ih =>
    obtain ⟨t, f, chain, turn⟩ := resetJob_reacts n hs
    have ordered : JobsOrdered (resetJob n s) := by
      rw [turn]
      exact ordered_tmod (rank := id) n f (Reacts.jobs_ordered hs chain)
    have one : R (s.port q).link ((resetJob n s).port q).link := by
      rw [turn]
      exact Reacts.links hrefl htrans hoffer chain q
    exact htrans one (ih ordered)

end Links

/-- A port whose overrun flag is set has a full list of notices. -/
def OverrunFull (l : Link) : Prop := l.overrun = none ∨ 64 ≤ l.noticeCount

/-- An offer keeps it so. -/
theorem OverrunFull.offer {l : Link} (h : OverrunFull l) (time : Nat) (n : Notice) :
    OverrunFull (Link.offer time n l) := by
  by_cases hc : l.noticeCount < 64
  · have clear : l.overrun = none := h.resolve_right (Nat.not_le.mpr hc)
    rw [offer_room hc clear]
    exact .inl clear
  · rw [offer_full (Nat.not_lt.mp hc)]
    exact .inr (Nat.not_lt.mp hc)

/-! ### The parts of a reset -/

section Parts

variable {kind : ResetKind} {s : State}

/-- A reset: the jobs' turns, then restart control's record; the part is idle then, and nothing is served. -/
theorem resetPart_idle (hs : JobsOrdered s) : resetPart kind s = (afterRecord kind s).setStarved false := by
  obtain ⟨aside, -, ordered, -, -⟩ := resetPart_parts kind s hs
  have taken : Idle (afterJobs kind s) := (idle_before kind s).aside aside
  have idle : Idle (afterRecord kind s) := taken
  have line : (afterRecord kind s).line.state ≠ .stopping := by
    have stands := (aside.running (show LineState.running ≠ .stopping by decide)).1
    have same : (afterRecord kind s).line = (afterJobs kind s).line := rfl
    rw [same, stands]
    show LineState.running ≠ .stopping
    decide
  have ordered' : JobsOrdered (afterRecord kind s) := ordered
  rw [resetPart_eq]
  exact serve_idle ordered' idle line

/-- Of the state after a reset all but restart control's record, the colour-starved note and the mark of a reset that
is due is as the jobs' turns leave it. -/
theorem resetPart_rest (hs : JobsOrdered s) : resetPart kind s = { afterJobs kind s with
    starved := false, softResetDue := false, restart := (afterRecord kind s).restart } := resetPart_idle hs

/-- What the jobs' turns leave alone. -/
theorem afterJobs_aside (hs : JobsOrdered s) :
    KeptAside (beforeJobs kind s) (afterJobs kind s) ∧ PortsKept (beforeJobs kind s) (afterJobs kind s) := by
  obtain ⟨aside, -⟩ := resetPart_parts kind s hs
  obtain ⟨-, ports, -⟩ := resetJobs_aside (s.jobs.map Prod.fst) (s := beforeJobs kind s) hs
  exact ⟨aside, ports⟩

/-- What the jobs' turns leave of the plan and of the numbers. -/
theorem afterJobs_kept (kind : ResetKind) (hs : Tables s) : ResetKept s (fun _ => False) (afterJobs kind s) := by
  have start : ResetKept s (fun n => n ∈ s.jobs.map Prod.fst) (beforeJobs kind s) := by
    refine ⟨hs.jobs, hs.plan, idle_before kind s, le_rfl, fun m hm none => ?_, .inl rfl, fun k x hx _ =>
      ⟨x, hx, .inl ⟨rfl, id⟩⟩⟩
    obtain ⟨e, he, rfl⟩ := List.mem_map.mp hm
    have here : s.job? e.1 = some e.2 := tget_of_mem hs.jobs he
    exact nomatch here.symm.trans none
  exact start.resetJobs _ (keys_ascend hs.jobs) fun _ _ => rfl

/-- An engine after a reset. -/
theorem engine_resetPart (hs : JobsOrdered s) (e : EngineId) : (resetPart kind s).engine e =
    ⟨⟨if (s.engine e).status.mode = .lockedOut then .lockedOut else .offline, false,
        (s.engine e).status.faultFlag, (s.engine e).status.lastFault⟩,
      ⟨false, false, false⟩, ⟨none, 0⟩, ⟨none, none, none, []⟩⟩ := by
  have before : (beforeJobs kind s).engine e =
      ⟨⟨if (s.engine e).status.mode = .lockedOut then .lockedOut else .offline, false,
          (s.engine e).status.faultFlag, (s.engine e).status.lastFault⟩,
        ⟨false, false, false⟩, ⟨none, 0⟩, ⟨none, none, none, []⟩⟩ := by
    unfold beforeJobs State.engine
    rw [Fin.getElem_fin, Vector.getElem_map]
    rfl
  have kept := (afterJobs_aside (kind := kind) hs).1.engines e
  have idle := idle_before kind s e
  rw [resetPart_rest hs]
  show (afterJobs kind s).engine e = _
  obtain ⟨status, gates, cassette, -, ctx⟩ := kept
  rw [before] at status gates cassette ctx idle
  have same := ctx idle rfl rfl
  generalize (afterJobs kind s).engine e = x at status gates cassette same ⊢
  obtain ⟨a, b, c, d⟩ := x
  dsimp only at status gates cassette same
  rw [status, gates, cassette, same]

/-- A lane after a reset. -/
theorem lane_resetPart (hs : JobsOrdered s) (l : LaneId) : (resetPart kind s).lane l =
    ⟨⟨[], none, false⟩, ⟨false, false, false⟩, [], (s.lane l).transit, (s.lane l).policy, true, (s.lane l).lost⟩ := by
  have before : (beforeJobs kind s).lane l =
      ⟨⟨[], none, false⟩, ⟨false, false, false⟩, [], (s.lane l).transit, (s.lane l).policy, true, (s.lane l).lost⟩ := by
    simp [beforeJobs, State.lane]
  obtain ⟨aside, -⟩ := afterJobs_aside (kind := kind) hs
  have idle := (aside.lanes l).idle
  have stopped := (aside.running (show LineState.running ≠ .stopping by decide)).2 l
  rw [resetPart_rest hs]
  show (afterJobs kind s).lane l = _
  rw [before] at idle stopped
  have same := idle rfl
  rw [stopped] at same
  exact same

/-- The sorter after a reset. -/
theorem sorter_resetPart (hs : JobsOrdered s) :
    (resetPart kind s).sorter = ⟨none, none, false, false, s.sorter.lost⟩ := by
  obtain ⟨aside, -⟩ := afterJobs_aside (kind := kind) hs
  rw [resetPart_rest hs]
  exact aside.sorterIdle fun l => by simp [beforeJobs, State.lane]

/-- Line control after a reset. -/
theorem line_resetPart (hs : JobsOrdered s) : (resetPart kind s).line =
    ⟨.running, s.line.policies, Vector.replicate 6 false, Vector.replicate 2 false, s.line.stopTime⟩ := by
  obtain ⟨aside, -⟩ := afterJobs_aside (kind := kind) hs
  rw [resetPart_rest hs]
  exact (aside.running (show LineState.running ≠ .stopping by decide)).1

/-- A port after a reset: RESTARTED stands first in its list, and it has begun to send. -/
theorem port_resetPart (hs : JobsOrdered s) (q : PortId) : ∃ l, ((resetPart kind s).port q).link.output =
      .notice s.clock (restartNotice kind s) :: l ∧
    OverrunFull ((resetPart kind s).port q).link ∧
    ((resetPart kind s).port q).link.sending = some .output ∧ ((resetPart kind s).port q).link.rx = .hunting ∧
    ((resetPart kind s).port q).link.queue = [] ∧ ((resetPart kind s).port q).link.inHand = none ∧
    ((resetPart kind s).port q).link.refusals = [] := by
  have before : ((beforeJobs kind s).port q).link = Link.afterReset s.clock (restartNotice kind s) := by
    simp [beforeJobs, State.port]
  obtain ⟨-, ports⟩ := afterJobs_aside (kind := kind) hs
  obtain ⟨kept, inHand⟩ := ports q
  obtain ⟨-, -, rx, queue, refusals, sending, -, l, output, -⟩ := kept
  have full : OverrunFull ((afterJobs kind s).port q).link :=
    resetJobs_links (R := fun x y => OverrunFull x → OverrunFull y) (fun _ => id) (fun h k x => k (h x))
      (fun time n _ h => h.offer time n) (s.jobs.map Prod.fst) (s := beforeJobs kind s) hs q (by
        rw [before]
        exact .inl rfl)
  rw [resetPart_rest hs]
  rw [before] at rx queue refusals sending inHand output
  refine ⟨l, ?_, full, sending nofun, rx, queue, inHand, refusals⟩
  rw [List.append_nil] at output
  exact output

/-- The rights and masks stay. -/
theorem rights_resetPart (hs : JobsOrdered s) (q : PortId) : ((resetPart kind s).port q).rights = (s.port q).rights ∧
    ((resetPart kind s).port q).mask = (s.port q).mask := by
  have before : ((beforeJobs kind s).port q).rights = (s.port q).rights ∧
      ((beforeJobs kind s).port q).mask = (s.port q).mask := by
    simp [beforeJobs, State.port]
  obtain ⟨-, ports⟩ := afterJobs_aside (kind := kind) hs
  obtain ⟨kept, -⟩ := ports q
  rw [resetPart_rest hs]
  exact ⟨kept.rights.trans before.1, kept.mask.trans before.2⟩

/-- Where no superseded job ends, the plan, the presses, the pages and the last number stay, and each ASSIGNED job takes a
place in the entry order. -/
theorem plan_resetPart (hs : JobsOrdered s) (h : NoneEnds s) : (resetPart kind s).plan = s.plan ∧
    (resetPart kind s).presses = s.presses ∧ (resetPart kind s).pages = s.pages ∧
    (resetPart kind s).lastJob = s.lastJob ∧
    (resetPart kind s).entryCount = s.entryCount + (s.jobs.filter fun e => e.2.state = .assigned).length := by
  obtain ⟨v, p, parts⟩ := afterJobs_parts kind hs h
  rw [resetPart_rest hs, parts]
  exact ⟨rfl, rfl, rfl, rfl, rfl⟩

end Parts

/-- Settles O16: what each block makes of its record at a reset, and what is retained. -/
theorem resetLeaves : Obligations.ResetLeaves := by
  intro c kind s htab hc
  obtain ⟨u, taken, ports, straps, soft⟩ := reset_from hc
  obtain ⟨v, rfl⟩ : ∃ v, u = { s with ports := v } := ⟨_, ports⟩
  have tables : Tables { s with ports := v } :=
    ⟨htab.pages, htab.slots, htab.plan, htab.stages, htab.jobs, htab.racks⟩
  have ordered : JobsOrdered { s with ports := v } := htab.jobs
  obtain ⟨aside, -⟩ := afterJobs_aside (kind := kind) ordered
  have kept := afterJobs_kept kind tables
  have tells := restarted_tells kind _ ordered
  have jobs := count_becomes { s with ports := v }
  have restart : (resetPart kind { s with ports := v }).restart = (afterRecord kind { s with ports := v }).restart := by
    rw [resetPart_rest ordered]
  have lines := engine_resetPart (kind := kind) ordered
  have lanes := lane_resetPart (kind := kind) ordered
  have sorter := sorter_resetPart (kind := kind) ordered
  have line := line_resetPart (kind := kind) ordered
  have plan := plan_resetPart (kind := kind) ordered
  have sends := port_resetPart (kind := kind) ordered
  have rights := rights_resetPart (kind := kind) ordered
  refine ⟨_, taken, lines, lanes, sorter, line, ?_, fun none => plan none, ?_, ?_, ?_, ?_, ?_,
    ?_, fun q => ?_, fun q => ⟨fun p1 p2 h => ?_, fun h => ?_⟩⟩
  · rw [resetPart_rest ordered]
    exact ⟨aside.clock, aside.stages, aside.racks, aside.shelves, aside.registers, aside.limits, rfl, rfl⟩
  · rw [resetPart_rest ordered]
    exact ⟨kept.order, kept.last.imp_right fun ⟨_, _, j, hj, _, created⟩ => ⟨j, hj, created.since le_rfl⟩⟩
  · intro k x y hx hy own
    have after : (resetPart kind { s with ports := v }).pos? k = (afterJobs kind { s with ports := v }).pos? k := by
      rw [resetPart_rest ordered]
      rfl
    obtain ⟨z, hz, stands⟩ := kept.work k x hx own
    obtain rfl : y = z := Option.some.inj (hy.symm.trans (after.trans hz))
    rcases stands with ⟨work, deferred⟩ | ⟨deferred, m, current, -, j, hj, key, created⟩
    · exact ⟨fun h => ⟨work, deferred h⟩, fun _ => .inl work⟩
    · refine ⟨fun h => absurd (deferred.symm.trans h) (by decide), fun _ => .inr ⟨m, j, current, ?_, key,
        created.since le_rfl⟩⟩
      rw [resetPart_rest ordered]
      exact hj
  · rw [resetPart_rest ordered]
    exact aside.presses
  · rw [resetPart_rest ordered]
    exact aside.pages
  · rw [resetPart_rest ordered]
    exact aside.slots
  · rw [resetPart_rest ordered]
    exact aside.positions
  · obtain ⟨l, output, full, sending, rx, queue, inHand, refusals⟩ := sends q
    refine ⟨l, ?_, full, sending, rx, queue, inHand, refusals⟩
    rw [output, restart, ← tells]
    unfold restartNotice
    rw [jobs]
  · have port := port_loadAllStraps p1 p2 s q
    rw [← straps p1 p2 h] at port
    rw [(rights q).1, (rights q).2, port]
    exact ⟨rfl, rfl⟩
  · have same := soft h
    rw [(rights q).1, (rights q).2, same]
    exact ⟨rfl, rfl⟩

end Sys2Proof.Machine
end

section
/-! The refutation of the statement about the places of jobs (O13). Its third part does not assume that the engines'
contexts agree with their modes, and a LOCKED_OUT engine that loses its link drops its contexts without returning the
jobs in them, since in agreement with its mode it has none (R73, R92). -/

namespace Sys2Proof.Machine

open State

namespace LockedOut

/-- The job that engine 0 has been sent to load. -/
def loading : Job := WideWindow.exposedJob .assigned none

/-- The contexts of engine 0: the job is in next. -/
def held : Contexts := { Contexts.empty with next := some ⟨1, .loadSent, none, false⟩ }

/-- Engine 0 LOCKED_OUT, and yet with a job in next; its link is lost. -/
def unlinked : State :=
  ((({ State.reset with
      jobs := [(1, loading)], lastJob := 1, entryCount := 1, pending := [.engineLinkLoss 0] } : State).modStatus 0
    fun x => { x with mode := .lockedOut }).modCtx 0 fun _ => held)

/-- The contexts of each engine. -/
theorem ctx_unlinked (e : EngineId) : (unlinked.engine e).ctx = if e = 0 then held else Contexts.empty := by
  fin_cases e <;> rfl

/-- Only engine 0 has a job in next, with LOAD_PLATE sent for it. -/
theorem next_unlinked {e : EngineId} {w : WaitingCtx} (h : (unlinked.engine e).ctx.next = some w) :
    e = 0 ∧ w = ⟨1, .loadSent, none, false⟩ := by
  rw [ctx_unlinked] at h
  split at h
  next same => exact ⟨same, Option.some.inj h.symm⟩
  next => cases h

/-- No engine has a parked job or a current one. -/
theorem rest_unlinked (e : EngineId) : (unlinked.engine e).ctx.parked = none ∧ (unlinked.engine e).ctx.current = none := by
  rw [ctx_unlinked]
  split <;> exact ⟨rfl, rfl⟩

/-- The only job. -/
theorem job_unlinked {n : Nat} {j : Job} (h : unlinked.job? n = some j) : n = 1 ∧ j = loading := by
  have found := List.mem_singleton.1 (mem_of_tget h)
  exact ⟨congrArg Prod.fst found, congrArg Prod.snd found⟩

/-- The tables are in order. -/
theorem tables_unlinked : Tables unlinked :=
  have h := tables_reset
  ⟨h.pages, h.slots, h.plan, h.stages, List.pairwise_singleton _ _, h.racks⟩

/-- The job stands in its place and in no other. -/
theorem placed_unlinked : Placed unlinked where
  next e w h := by
    obtain ⟨rfl, rfl⟩ := next_unlinked h
    exact ⟨loading, rfl, rfl, rfl, fun _ => Option.some_ne_none _⟩
  parked e w h := by cases (rest_unlinked e).1.symm.trans h
  apart e v w _ h := by cases (rest_unlinked e).1.symm.trans h
  current e w h := by cases (rest_unlinked e).2.symm.trans h
  order l y h := by rw [show unlinked.lane l = Lane.initial from lane_reset l] at h; cases h
  once := placed_reset.once
  exposed n j h _ := by
    obtain ⟨-, rfl⟩ := job_unlinked h
    exact ⟨Option.some_ne_none _, Option.some_ne_none _⟩
  delivery d h := by cases h
  racks k n h := by cases h
  shelves p x h := by rw [show unlinked.shelf p = [] from shelf_reset p] at h; cases h
  stacked := placed_reset.stacked
  mounted k x n h := by cases h
  own k x n h := by cases h

/-- The job is ASSIGNED, and stands in next. -/
theorem housed_unlinked : Housed unlinked where
  assigned n j h _ := by
    obtain ⟨rfl, -⟩ := job_unlinked h
    exact ⟨0, _, .inl rfl, rfl⟩
  exposing n j h hx := by obtain ⟨-, rfl⟩ := job_unlinked h; cases hx
  inLane n j h hx := by obtain ⟨-, rfl⟩ := job_unlinked h; rcases hx with hx | hx <;> cases hx
  racked n j h hx := by obtain ⟨-, rfl⟩ := job_unlinked h; cases hx
  mounted n j h hx := by obtain ⟨-, rfl⟩ := job_unlinked h; cases hx
  uncertain n j h hx := by obtain ⟨-, rfl⟩ := job_unlinked h; cases hx
  exposed e w _ _ := (rest_unlinked e).2
  parked e w h := by cases (rest_unlinked e).1.symm.trans h

/-- The state after the link loss. -/
def dropped : State := engineLinkLoss 0 { unlinked with pending := [] }

/-- The job is ASSIGNED as before. -/
theorem job_dropped : (dropped.job? 1).map Job.state = some .assigned := by decide +kernel

/-- No engine has it. -/
theorem ctx_dropped : ∀ e, (dropped.engine e).ctx.next = none ∧ (dropped.engine e).ctx.parked = none := by decide +kernel

end LockedOut

open LockedOut

/-- Refutes O13: the engine's contexts are dropped, and the job that was in next is ASSIGNED to no engine. -/
theorem not_platesInPlace : ¬ Obligations.PlatesInPlace := by
  rintro ⟨-, -, keeps⟩
  have housed : Housed dropped := keeps unlinked dropped tables_unlinked placed_unlinked housed_unlinked rfl
  obtain ⟨j, found, assigned⟩ := Option.map_eq_some_iff.1 job_dropped
  obtain ⟨e, w, waits, -⟩ := housed.assigned 1 j found assigned
  obtain ⟨next, parked⟩ := ctx_dropped e
  rcases waits with h | h
  · cases next.symm.trans h
  · cases parked.symm.trans h

end Sys2Proof.Machine
end

section
/-! What every step keeps of the tables, of the rights, and of the values in range (R1, R6, R23, R32, R46, R135, R145, R183,
R184). -/

namespace Sys2Proof.Machine

open State

/-! ### Tables -/

/-- Clearing current flags keeps every table in order. -/
theorem clearAllCurrent_tables (n : Nat) {s : State} (h : Tables s) : Tables (clearAllCurrent n s) := by
  refine clearAllCurrent_keeps n (fun s k f h => ?_) (fun s k h => ?_) h
  · exact ⟨h.pages, ordered_tmod _ _ h.slots, h.plan, h.stages, h.jobs, h.racks⟩
  · exact ⟨h.pages, ordered_tdel _ h.slots, h.plan, h.stages, h.jobs, h.racks⟩

/-- A rack slot that is written leaves the racks in order. -/
theorem setRack_tables (k : PosKey) (l : List Nat) {s : State} (h : Tables s) : Tables (s.setRack k l) := by
  refine ⟨h.pages, h.slots, h.plan, h.stages, h.jobs, ?_⟩
  unfold State.setRack
  dsimp only
  split
  · exact ordered_tdel _ h.racks
  · exact ordered_tput _ _ h.racks

/-- Serving the engines keeps every table in order. -/
theorem ServeStep.tables {s t : State} (h : ServeStep s t) (hs : Tables s) : Tables t := by
  have jobs := h.jobs_ordered hs.jobs
  cases h with
  | expose e =>
    unfold sendExpose at jobs ⊢
    split
    · exact hs
    next w hw =>
      rw [hw] at jobs
      exact ⟨hs.pages, hs.slots, hs.plan, hs.stages, jobs, hs.racks⟩
  | _ => exact ⟨hs.pages, hs.slots, hs.plan, hs.stages, jobs, hs.racks⟩

/-- Reactions keep every table in order. -/
theorem ReactStep.tables {D : Nat → Prop} {s t : State} (h : ReactStep D s t) (hs : Tables s) : Tables t := by
  have jobs := h.jobs_ordered hs.jobs
  cases h with
  | serve h => exact h.tables hs
  | work k f =>
    exact ⟨hs.pages, hs.slots, ordered_tmod k (fun x : Position => { x with work := f x.work }) hs.plan, hs.stages, jobs, hs.racks⟩
  | live n f =>
    exact ⟨ordered_tmod n (fun x : PageRec => { x with liveJobs := f x.liveJobs }) hs.pages, hs.slots, hs.plan, hs.stages, jobs, hs.racks⟩
  | dropPage n => exact ⟨ordered_tdel _ hs.pages, hs.slots, hs.plan, hs.stages, jobs, hs.racks⟩
  | count k f =>
    exact ⟨hs.pages, ordered_tmod k (fun x : Slot => { x with count := f x.count }) hs.slots, hs.plan, hs.stages, jobs, hs.racks⟩
  | dropSlot k => exact ⟨hs.pages, ordered_tdel _ hs.slots, hs.plan, hs.stages, jobs, hs.racks⟩
  | _ => exact ⟨hs.pages, hs.slots, hs.plan, hs.stages, jobs, hs.racks⟩

/-- The work of the owning blocks keeps every table in order. -/
theorem WorkStep.tables {s t : State} (h : WorkStep s t) (hs : Tables s) : Tables t := by
  have jobs := h.jobs_ordered hs.jobs
  cases h with
  | react h => exact h.tables hs
  | putPage n r => exact ⟨ordered_tput _ _ hs.pages, hs.slots, hs.plan, hs.stages, jobs, hs.racks⟩
  | dropPage n => exact ⟨ordered_tdel _ hs.pages, hs.slots, hs.plan, hs.stages, jobs, hs.racks⟩
  | putSlot k x => exact ⟨hs.pages, ordered_tput _ _ hs.slots, hs.plan, hs.stages, jobs, hs.racks⟩
  | renew n r k x =>
    have u := clearAllCurrent_tables n hs
    exact ⟨ordered_tput _ _ u.pages, ordered_tput _ _ u.slots, u.plan, u.stages, u.jobs, u.racks⟩
  | modSlot k f => exact ⟨hs.pages, ordered_tmod _ _ hs.slots, hs.plan, hs.stages, jobs, hs.racks⟩
  | dropSlot k => exact ⟨hs.pages, ordered_tdel _ hs.slots, hs.plan, hs.stages, jobs, hs.racks⟩
  | modPos k f => exact ⟨hs.pages, hs.slots, ordered_tmod _ _ hs.plan, hs.stages, jobs, hs.racks⟩
  | work k f =>
    exact ⟨hs.pages, hs.slots, ordered_tmod k (fun x : Position => { x with work := f x.work }) hs.plan, hs.stages, jobs, hs.racks⟩
  | putPos k x => exact ⟨hs.pages, hs.slots, ordered_tput _ _ hs.plan, hs.stages, jobs, hs.racks⟩
  | dropPos k => exact ⟨hs.pages, hs.slots, ordered_tdel _ hs.plan, hs.stages, jobs, hs.racks⟩
  | stage p x h =>
    refine ⟨hs.pages, hs.slots, hs.plan, fun q => ?_, jobs, hs.racks⟩
    rw [stage_setStage]
    split
    · exact h hs
    · exact hs.stages q
  | takeRack k l => exact setRack_tables k l hs
  | limit x l v => cases x <;> exact ⟨hs.pages, hs.slots, hs.plan, hs.stages, jobs, hs.racks⟩
  | _ => exact ⟨hs.pages, hs.slots, hs.plan, hs.stages, jobs, hs.racks⟩

/-- The state after POWER_ON has its tables in order. -/
theorem reset_tables (s : State) :
    Tables { State.reset with lineSent := s.lineSent, deskSent := s.deskSent, pending := s.pending } := by
  refine ⟨ordered_nil, ordered_nil, ordered_nil, fun p => ?_, ordered_nil, ordered_nil⟩
  fin_cases p <;> exact ordered_nil

/-- Every change keeps every table in order. -/
theorem AnyStep.tables {s t : State} (h : AnyStep s t) (hs : Tables s) : Tables t := by
  cases h with
  | rack h =>
    cases h with
    | rack d p q => exact setRack_tables _ _ hs
    | shelf d p q => exact ⟨hs.pages, hs.slots, hs.plan, hs.stages, hs.jobs, hs.racks⟩
  | change h =>
    cases h with
    | restart0 => exact reset_tables s
    | desk h =>
      cases h with
      | work h => exact h.tables hs
      | _ => exact ⟨hs.pages, hs.slots, hs.plan, hs.stages, hs.jobs, hs.racks⟩
    | _ => exact ⟨hs.pages, hs.slots, hs.plan, hs.stages, hs.jobs, hs.racks⟩

/-- Chains of changes keep every table in order. -/
theorem AnyChanges.tables {s t : State} (hs : Tables s) (h : AnyChanges s t) : Tables t := by
  induction h with
  | refl => exact hs
  | tail _ hu ih => exact hu.tables ih

/-! ### A right that is always held -/

/-- Every port has the rights it had, or one that holds MAINT holds it still. -/
theorem MaintHeld.of_rights {s t : State} (hs : MaintHeld s) (h : ∀ p, (t.port p).rights = (s.port p).rights) :
    MaintHeld t := by
  obtain ⟨p, hp⟩ := hs
  exact ⟨p, by rw [h p]; exact hp⟩

/-- A port that holds MAINT is left when a change of rights is allowed. -/
theorem setRights_maint {s : State} {p : PortId} {r : Rights} (h : maintAfter s p r = true) :
    MaintHeld (s.setRights p r) := by
  simp only [maintAfter, List.any_eq_true] at h
  obtain ⟨q, -, hq⟩ := h
  refine ⟨q, ?_⟩
  rw [port_setRights]
  split at hq
  next e => rw [if_pos e]; exact hq
  next e => rw [if_neg e]; exact hq

/-- After every change some port holds MAINT. -/
theorem AnyStep.maint {s t : State} (h : AnyStep s t) (hs : MaintHeld s) : MaintHeld t := by
  have links (p : PortId) (f : Link → Link) : MaintHeld (s.modLink p f) := by
    refine hs.of_rights fun q => ?_
    rw [port_modLink]
    split <;> rfl
  cases h with
  | rack h => cases h <;> exact hs
  | change h =>
    cases h with
    | desk h =>
      cases h with
      | work h => exact hs.of_rights fun q => (h.ports_kept q).1.rights
      | rights p r h => exact setRights_maint h
      | mask p m =>
        refine hs.of_rights fun q => ?_
        rw [port_setMask]
        split <;> rfl
    | restart0 => exact ⟨0, rfl⟩
    | link p f => exact links p f
    | resetLinks p f => exact links p f
    | queue p f => exact links p f
    | _ => exact hs

/-- After every chain of changes some port holds MAINT. -/
theorem AnyChanges.maint {s t : State} (hs : MaintHeld s) (h : AnyChanges s t) : MaintHeld t := by
  induction h with
  | refl => exact hs
  | tail _ hu ih => exact hu.maint ih

/-! ### Values in their ranges -/

/-- The values in range are read off the clock, the limits, the lanes' transit timeouts and the lead times. -/
theorem Ranges.of_eq {s t : State} (hs : Ranges s) (clock : t.clock = s.clock) (limits : t.limits = s.limits)
    (transit : ∀ l, (t.lane l).transit = (s.lane l).transit) (lead : ∀ p, (t.press p).lead = (s.press p).lead) :
    Ranges t := by
  refine ⟨by rw [clock]; exact hs.clock, fun x l => ?_, fun p => by rw [lead p]; exact hs.lead p⟩
  have same : limitValue t x l = limitValue s x l := by
    unfold limitValue
    rw [limits, transit]
  rw [same]
  exact hs.limits x l

/-- The lanes' transit timeouts stay where one lane keeps its own. -/
theorem modLane_transit {l : LaneId} {f : Lane → Lane} {s : State} (h : (f (s.lane l)).transit = (s.lane l).transit)
    (q : LaneId) : ((s.modLane l f).lane q).transit = (s.lane q).transit := by
  rw [lane_modLane]
  split
  next e => subst e; exact h
  next => rfl

/-- The lanes' transit timeouts stay where a lane's gates or order change. -/
theorem modFloor_transit (l : LaneId) (f : LaneFloor → LaneFloor) (s : State) (q : LaneId) :
    ((s.modFloor l f).lane q).transit = (s.lane q).transit := by
  rw [lane_modFloor]
  split <;> rfl

/-- The lead times stay where a press's state or count changes. -/
theorem setPressState_lead (p : PressId) (st : PressState) (s : State) (q : PressId) :
    ((s.setPressState p st).press q).lead = (s.press q).lead := by
  rw [press_setPressState]
  split <;> rfl

/-- Serving the engines keeps the values in their ranges. -/
theorem ServeStep.ranges {s t : State} (h : ServeStep s t) (hs : Ranges s) : Ranges t := by
  cases h with
  | expose e =>
    unfold sendExpose
    split
    · exact hs
    · exact hs.of_eq rfl rfl (fun _ => rfl) fun _ => rfl
  | stopLane l =>
    refine hs.of_eq rfl rfl (fun q => ?_) fun _ => rfl
    rw [lane_stopLane]
    split <;> rfl
  | _ => exact hs.of_eq rfl rfl (fun _ => rfl) fun _ => rfl

/-- Reactions keep the values in their ranges. -/
theorem ReactStep.ranges {D : Nat → Prop} {s t : State} (h : ReactStep D s t) (hs : Ranges s) : Ranges t := by
  cases h with
  | serve h => exact h.ranges hs
  | pressState p st => exact hs.of_eq rfl rfl (fun _ => rfl) (setPressState_lead p st s)
  | unsatisfied p n =>
    refine hs.of_eq rfl rfl (fun _ => rfl) fun q => ?_
    rw [press_setUnsatisfied]
    split <;> rfl
  | floor l f => exact hs.of_eq rfl rfl (modFloor_transit l f s) fun _ => rfl
  | laneStep l =>
    refine hs.of_eq rfl rfl (fun q => ?_) fun _ => rfl
    rw [lane_useLaneStep]
    split <;> rfl
  | _ => exact hs.of_eq rfl rfl (fun _ => rfl) fun _ => rfl

/-- A limit reads as it was set, or as it was. -/
theorem limitValue_setLimit (x y : LimitName) (l q : LaneId) (v : Nat) (s : State) :
    limitValue (setLimit x l v s) y q = limitValue s y q ∨ (x = y ∧ limitValue (setLimit x l v s) y q = v) := by
  cases x
  case transit =>
    cases y
    case transit =>
      simp only [setLimit, limitValue, lane_modLane]
      by_cases e : q = l <;> simp [e]
    all_goals exact .inl rfl
  all_goals cases y <;> simp [setLimit, limitValue, State.lane]

/-- A limit that is set within its range leaves every limit in its range. -/
theorem setLimit_ranges {x : LimitName} {l : LaneId} {v : Nat} {s : State} (h : inRange x v = true) (hs : Ranges s) :
    Ranges (setLimit x l v s) := by
  refine ⟨?_, fun y q => ?_, fun p => ?_⟩
  · cases x <;> exact hs.clock
  · obtain same | ⟨rfl, set⟩ := limitValue_setLimit x y l q v s
    · rw [same]; exact hs.limits y q
    · rw [set]; exact h
  · cases x <;> exact hs.lead p

/-- The work of the owning blocks keeps the values in their ranges. -/
theorem WorkStep.ranges {s t : State} (h : WorkStep s t) (hs : Ranges s) : Ranges t := by
  cases h with
  | react h => exact h.ranges hs
  | clock t h => exact ⟨h hs.clock, hs.limits, hs.lead⟩
  | renew n r k x =>
    refine clearAllCurrent_keeps (P := fun u => Ranges ((u.putPage n r).putSlot k x)) n ?_ ?_ ?_
    · exact fun u _ _ h => Ranges.of_eq h rfl rfl (fun _ => rfl) fun _ => rfl
    · exact fun u _ h => Ranges.of_eq h rfl rfl (fun _ => rfl) fun _ => rfl
    · exact hs.of_eq rfl rfl (fun _ => rfl) fun _ => rfl
  | press p f h =>
    refine ⟨hs.clock, hs.limits, fun q => ?_⟩
    rw [press_modPress]
    split
    · exact h _ (hs.lead q)
    · exact hs.lead q
  | pressState p st => exact hs.of_eq rfl rfl (fun _ => rfl) (setPressState_lead p st s)
  | lane l f _ ht => exact hs.of_eq rfl rfl (modLane_transit ht) fun _ => rfl
  | floor l f => exact hs.of_eq rfl rfl (modFloor_transit l f s) fun _ => rfl
  | stopLane l =>
    refine hs.of_eq rfl rfl (fun q => ?_) fun _ => rfl
    rw [lane_stopLane]
    split <;> rfl
  | limit x l v h => exact setLimit_ranges h hs
  | _ => exact hs.of_eq rfl rfl (fun _ => rfl) fun _ => rfl

/-- The state after POWER_ON has its values in their ranges. -/
theorem reset_ranges (s : State) :
    Ranges { State.reset with lineSent := s.lineSent, deskSent := s.deskSent, pending := s.pending } := by
  have base : Ranges State.reset := by
    refine ⟨Nat.zero_le _, fun x l => ?_, fun p => ?_⟩
    · fin_cases l <;> cases x <;> decide
    · fin_cases p <;> decide
  exact base.of_eq rfl rfl (fun _ => rfl) fun _ => rfl

/-- Every change keeps the values in their ranges. -/
theorem AnyStep.ranges {s t : State} (h : AnyStep s t) (hs : Ranges s) : Ranges t := by
  cases h with
  | rack h => cases h <;> exact hs.of_eq rfl rfl (fun _ => rfl) fun _ => rfl
  | change h =>
    cases h with
    | restart0 => exact reset_ranges s
    | desk h =>
      cases h with
      | work h => exact h.ranges hs
      | _ => exact hs.of_eq rfl rfl (fun _ => rfl) fun _ => rfl
    | _ => exact hs.of_eq rfl rfl (fun _ => rfl) fun _ => rfl

/-- Chains of changes keep the values in their ranges. -/
theorem AnyChanges.ranges {s t : State} (hs : Ranges s) (h : AnyChanges s t) : Ranges t := by
  induction h with
  | refl => exact hs
  | tail _ hu ih => exact hu.ranges ih

end Sys2Proof.Machine
end

section
/-! What every step keeps of the counts that the spec limits, of the rack slots and shelves, and of the contexts and modes of
the engines (R1, R6, R46, R66, R73, R75, R98, R116, R126, R135, R175, R177, R180). -/

namespace Sys2Proof.Machine

open State

/-! ### Counts -/

/-- No table, list or count of the part holds more than the spec gives it room for, but for the loads of the lanes. -/
structure WithinLimits (s : State) : Prop where
  pages : s.pages.length ≤ Config.pageRecords
  slots : s.slots.length ≤ Config.rasterSlots
  jobs : s.jobs.length ≤ Config.liveJobs
  attempts : ∀ n j, s.job? n = some j → 1 ≤ j.attempt ∧ j.attempt ≤ Config.attempts
  cassette : ∀ e, (s.engine e).cassette.count ≤ Config.maxCassette
  registers : ∀ e, RegisterFits (s.register e)
  inspections : ∀ l, (s.lane l).inspections.length ≤ Config.pendingInspections
  links : ∀ p, LinkFits (s.port p).link

/-- A record that is written leaves the register within its limit, where it was there or there is room. -/
theorem putPage_fits {s : State} (o : Table.ordered id s.pages) (hs : s.pages.length ≤ Config.pageRecords) {n : Nat}
    (r : PageRec) (h : thas s.pages n = true ∨ s.pages.length < Config.pageRecords) :
    (s.putPage n r).pages.length ≤ Config.pageRecords := by
  rw [pages_putPage]
  obtain h | h := h
  · obtain ⟨w, hw⟩ := Option.isSome_iff_exists.mp h
    rw [length_tput_of_has o hw]
    exact hs
  · exact (length_tput_le id s.pages n r).trans h

/-- A slot that is created leaves the raster table within its limit, where there is room. -/
theorem putSlot_fits {s : State} (k : SlotKey) (x : Slot) (h : s.slots.length < Config.rasterSlots) :
    (s.putSlot k x).slots.length ≤ Config.rasterSlots :=
  (length_tput_le SlotKey.rank s.slots k x).trans h

/-- The attempts stay in range where one job's does. -/
theorem modJob_attempts {s : State} {n : Nat} {f : Job → Job}
    (h : ∀ j, s.job? n = some j → 1 ≤ j.attempt ∧ j.attempt ≤ 3 → 1 ≤ (f j).attempt ∧ (f j).attempt ≤ 3)
    (hs : ∀ n j, s.job? n = some j → 1 ≤ j.attempt ∧ j.attempt ≤ 3) (m : Nat) (i : Job)
    (hi : (s.modJob n f).job? m = some i) : 1 ≤ i.attempt ∧ i.attempt ≤ 3 := by
  rw [job?_modJob] at hi
  split at hi
  next e =>
    subst e
    obtain ⟨j, hj, rfl⟩ := Option.map_eq_some_iff.mp hi
    exact h j hj (hs m j hj)
  next => exact hs m i hi

/-- Cassettes, registers and pending inspections stay within their limits where the engines, registers and lanes keep
theirs. -/
theorem WithinLimits.of_eq {s t : State} (h : WithinLimits s) (pages : t.pages.length ≤ Config.pageRecords)
    (slots : t.slots.length ≤ Config.rasterSlots) (jobs : t.jobs.length ≤ Config.liveJobs)
    (attempts : ∀ n j, t.job? n = some j → 1 ≤ j.attempt ∧ j.attempt ≤ Config.attempts)
    (cassette : ∀ e, (t.engine e).cassette = (s.engine e).cassette) (registers : t.registers = s.registers)
    (inspections : ∀ l, (t.lane l).inspections = (s.lane l).inspections) (links : t.ports = s.ports) :
    WithinLimits t where
  pages := pages
  slots := slots
  jobs := jobs
  attempts := attempts
  cassette := fun e => by rw [cassette e]; exact h.cassette e
  registers := fun e => by
    have same : t.register e = s.register e := by unfold State.register; rw [registers]
    rw [same]
    exact h.registers e
  inspections := fun l => by rw [inspections l]; exact h.inspections l
  links := fun p => by
    have same : t.port p = s.port p := by unfold State.port; rw [links]
    rw [same]
    exact h.links p

/-- The cassettes stay where an engine's contexts change. -/
theorem modCtx_cassette (e : EngineId) (f : Contexts → Contexts) (s : State) (q : EngineId) :
    ((s.modCtx e f).engine q).cassette = (s.engine q).cassette := by
  rw [engine_modCtx]
  split <;> rfl

/-- The pending inspections stay where a lane's order changes. -/
theorem modFloor_inspections (l : LaneId) (f : LaneFloor → LaneFloor) (s : State) (q : LaneId) :
    ((s.modFloor l f).lane q).inspections = (s.lane q).inspections := by
  rw [lane_modFloor]
  split <;> rfl

/-- The links fit where one port's does. -/
theorem modLink_fits {s : State} {p : PortId} {f : Link → Link} (h : LinkFits (s.port p).link → LinkFits (f (s.port p).link))
    (hs : ∀ p, LinkFits (s.port p).link) (q : PortId) : LinkFits ((s.modLink p f).port q).link := by
  rw [port_modLink]
  split
  next e => subst e; exact h (hs q)
  next => exact hs q

/-- A job that keeps its attempt in range leaves the counts within their limits. -/
theorem WithinLimits.modJob {s : State} (hs : WithinLimits s) (n : Nat) {f : Job → Job}
    (h : ∀ j, s.job? n = some j → 1 ≤ j.attempt ∧ j.attempt ≤ 3 → 1 ≤ (f j).attempt ∧ (f j).attempt ≤ 3) :
    WithinLimits (s.modJob n f) :=
  hs.of_eq hs.pages hs.slots ((length_tmod _ _ _).le.trans hs.jobs) (modJob_attempts h hs.attempts) (fun _ => rfl) rfl
    (fun _ => rfl) rfl

/-- An engine's contexts do not count. -/
theorem WithinLimits.modCtx {s : State} (hs : WithinLimits s) (e : EngineId) (f : Contexts → Contexts) :
    WithinLimits (s.modCtx e f) :=
  hs.of_eq hs.pages hs.slots hs.jobs hs.attempts (modCtx_cassette e f s) rfl (fun _ => rfl) rfl

/-- A command that is sent does not count. -/
theorem WithinLimits.send {s : State} (hs : WithinLimits s) (c : LineCommand) : WithinLimits (s.send c) :=
  hs.of_eq hs.pages hs.slots hs.jobs hs.attempts (fun _ => rfl) rfl (fun _ => rfl) rfl

/-- Serving the engines keeps the counts within their limits. -/
theorem ServeStep.limits {s t : State} (h : ServeStep s t) (hs : WithinLimits s) : WithinLimits t := by
  cases h with
  | offer p n => exact { hs with links := modLink_fits (linkFits_offer _ _) hs.links }
  | assign e n j =>
    unfold Machine.assign
    refine ((hs.modCtx e _).modJob n ?_).send _
    exact fun _ _ h => h
  | park e w => exact hs.modCtx e _
  | expose e =>
    unfold sendExpose
    split
    · exact hs
    next w hw =>
      refine ((hs.modCtx e _).modJob w.job ?_).send _
      exact fun _ _ h => h
  | stopLane l =>
    refine hs.of_eq hs.pages hs.slots hs.jobs hs.attempts (fun _ => rfl) rfl (fun q => ?_) rfl
    rw [lane_stopLane]
    split <;> rfl
  | _ => exact hs.of_eq hs.pages hs.slots hs.jobs hs.attempts (fun _ => rfl) rfl (fun _ => rfl) rfl

/-- Reactions keep the counts within their limits. -/
theorem ReactStep.limits {D : Nat → Prop} {s t : State} (h : ReactStep D s t) (hs : WithinLimits s) : WithinLimits t := by
  cases h with
  | serve h => exact h.limits hs
  | job n f _ h => exact hs.modJob n fun j hj => (h j hj).attempt
  | addJob n j hl _ hc =>
    refine hs.of_eq hs.pages hs.slots ((length_tput_le _ _ _ _).trans hl) (fun m i hi => ?_) (fun _ => rfl) rfl
      (fun _ => rfl) rfl
    rw [job?_addJob] at hi
    split at hi
    next =>
      cases hi
      rw [hc.attempt]
      decide
    next => exact hs.attempts m i hi
  | dropJob n =>
    refine hs.of_eq hs.pages hs.slots ((length_tdel_le _ _).trans hs.jobs) (fun m i hi => ?_) (fun _ => rfl) rfl
      (fun _ => rfl) rfl
    rw [job?_dropJob] at hi
    split at hi
    next => cases hi
    next => exact hs.attempts m i hi
  | live n f =>
    have same : (s.modLive n f).pages.length = s.pages.length := by rw [pages_modLive, length_tmod]
    exact hs.of_eq (same.le.trans hs.pages) hs.slots hs.jobs hs.attempts (fun _ => rfl) rfl (fun _ => rfl) rfl
  | dropPage n =>
    exact hs.of_eq ((length_tdel_le _ _).trans hs.pages) hs.slots hs.jobs hs.attempts (fun _ => rfl) rfl (fun _ => rfl) rfl
  | count k f =>
    have same : (s.modCount k f).slots.length = s.slots.length := by rw [slots_modCount, length_tmod]
    exact hs.of_eq hs.pages (same.le.trans hs.slots) hs.jobs hs.attempts (fun _ => rfl) rfl (fun _ => rfl) rfl
  | dropSlot k =>
    exact hs.of_eq hs.pages ((length_tdel_le _ _).trans hs.slots) hs.jobs hs.attempts (fun _ => rfl) rfl (fun _ => rfl) rfl
  | ctx e f => exact hs.modCtx e f
  | floor l f => exact hs.of_eq hs.pages hs.slots hs.jobs hs.attempts (fun _ => rfl) rfl (modFloor_inspections l f s) rfl
  | laneStep l =>
    refine hs.of_eq hs.pages hs.slots hs.jobs hs.attempts (fun _ => rfl) rfl (fun q => ?_) rfl
    rw [lane_useLaneStep]
    split <;> rfl
  | _ => exact hs.of_eq hs.pages hs.slots hs.jobs hs.attempts (fun _ => rfl) rfl (fun _ => rfl) rfl

/-- The work of the owning blocks keeps the counts within their limits. -/
theorem WorkStep.limits {s t : State} (h : WorkStep s t) (o : Tables s) (hr : Ranges s) (hs : WithinLimits s) :
    WithinLimits t := by
  cases h with
  | react h => exact h.limits hs
  | putPage n r h =>
    exact hs.of_eq (putPage_fits o.pages hs.pages r h) hs.slots hs.jobs hs.attempts (fun _ => rfl) rfl (fun _ => rfl) rfl
  | dropPage n =>
    exact hs.of_eq ((length_tdel_le _ _).trans hs.pages) hs.slots hs.jobs hs.attempts (fun _ => rfl) rfl (fun _ => rfl) rfl
  | putSlot k x h =>
    exact hs.of_eq hs.pages (putSlot_fits k x h) hs.jobs hs.attempts (fun _ => rfl) rfl (fun _ => rfl) rfl
  | renew n r k x h hp =>
    have free := revisionRoom_free o.slots hs.slots h
    have cleared : WithinLimits (clearAllCurrent n s) := by
      refine clearAllCurrent_keeps n (fun s k f h => ?_) (fun s k h => ?_) hs
      · exact { h with slots := (length_tmod _ _ _).le.trans h.slots }
      · exact { h with slots := (length_tdel_le _ _).trans h.slots }
    have pages := pages_clearAllCurrent n s
    have there : thas (clearAllCurrent n s).pages n = true := by rw [pages]; exact hp
    have ordered : Table.ordered id (clearAllCurrent n s).pages := by rw [pages]; exact o.pages
    generalize clearAllCurrent n s = u at free cleared there ordered
    exact cleared.of_eq (putPage_fits ordered cleared.pages r (.inl there)) (putSlot_fits (s := u.putPage n r) k x free)
      cleared.jobs cleared.attempts (fun _ => rfl) rfl (fun _ => rfl) rfl
  | modSlot k f =>
    exact hs.of_eq hs.pages ((length_tmod _ _ _).le.trans hs.slots) hs.jobs hs.attempts (fun _ => rfl) rfl (fun _ => rfl) rfl
  | dropSlot k =>
    exact hs.of_eq hs.pages ((length_tdel_le _ _).trans hs.slots) hs.jobs hs.attempts (fun _ => rfl) rfl (fun _ => rfl) rfl
  | lose n f => exact hs.modJob n fun _ _ h => h
  | status e f =>
    refine hs.of_eq hs.pages hs.slots hs.jobs hs.attempts (fun q => ?_) rfl (fun _ => rfl) rfl
    rw [engine_modStatus]
    split <;> rfl
  | gates e f =>
    refine hs.of_eq hs.pages hs.slots hs.jobs hs.attempts (fun q => ?_) rfl (fun _ => rfl) rfl
    rw [engine_modGates]
    split <;> rfl
  | cassette e f h =>
    refine { hs with cassette := fun q => ?_ }
    rw [engine_modCassette]
    split
    · exact h _ (hs.cassette q)
    · exact hs.cassette q
  | ctx e f => exact hs.modCtx e f
  | register e r h =>
    refine { hs with registers := fun q => ?_ }
    rw [register_setRegister]
    split
    next same => exact h hr (hs.registers e)
    next => exact hs.registers q
  | lane l f hi =>
    refine { hs with inspections := fun q => ?_ }
    rw [lane_modLane]
    split
    next e => subst e; exact hi (hs.inspections q)
    next => exact hs.inspections q
  | floor l f => exact hs.of_eq hs.pages hs.slots hs.jobs hs.attempts (fun _ => rfl) rfl (modFloor_inspections l f s) rfl
  | stopLane l =>
    refine hs.of_eq hs.pages hs.slots hs.jobs hs.attempts (fun _ => rfl) rfl (fun q => ?_) rfl
    rw [lane_stopLane]
    split <;> rfl
  | limit x l v =>
    cases x
    case transit =>
      refine hs.of_eq hs.pages hs.slots hs.jobs hs.attempts (fun _ => rfl) rfl (fun q => ?_) rfl
      show ((s.modLane l fun x => { x with transit := v }).lane q).inspections = _
      rw [lane_modLane]
      split <;> rfl
    all_goals exact hs.of_eq hs.pages hs.slots hs.jobs hs.attempts (fun _ => rfl) rfl (fun _ => rfl) rfl
  | _ => exact hs.of_eq hs.pages hs.slots hs.jobs hs.attempts (fun _ => rfl) rfl (fun _ => rfl) rfl

/-- The state after POWER_ON has its counts within their limits. -/
theorem reset_limits (s : State) :
    WithinLimits { State.reset with lineSent := s.lineSent, deskSent := s.deskSent, pending := s.pending } := by
  have base : WithinLimits State.reset := by
    refine ⟨Nat.zero_le _, Nat.zero_le _, Nat.zero_le _, fun n j h => (nomatch h), fun e => ?_, fun e => ?_, fun l => ?_,
      fun p => ?_⟩
    · fin_cases e <;> decide
    · fin_cases e <;> exact registerFits_initial
    · fin_cases l <;> decide
    · fin_cases p <;> exact linkFits_afterReset 0 restartedPowerOn
  exact base.of_eq base.pages base.slots base.jobs base.attempts (fun _ => rfl) rfl (fun _ => rfl) rfl

/-- Every change keeps the counts within their limits. -/
theorem AnyStep.limits {s t : State} (h : AnyStep s t) (o : Tables s) (hr : Ranges s) (hs : WithinLimits s) :
    WithinLimits t := by
  cases h with
  | rack h => cases h <;> exact hs.of_eq hs.pages hs.slots hs.jobs hs.attempts (fun _ => rfl) rfl (fun _ => rfl) rfl
  | change h =>
    cases h with
    | restart0 => exact reset_limits s
    | desk h =>
      cases h with
      | work h => exact h.limits o hr hs
      | rights p r =>
        refine { hs with links := fun q => ?_ }
        rw [port_setRights]
        split
        · exact hs.links q
        · exact hs.links q
      | mask p m =>
        refine { hs with links := fun q => ?_ }
        rw [port_setMask]
        split
        · exact hs.links q
        · exact hs.links q
    | link p f h => exact { hs with links := modLink_fits (h _) hs.links }
    | resetLinks p f h => exact { hs with links := modLink_fits (fun _ => h _) hs.links }
    | queue p f h => exact { hs with links := modLink_fits h hs.links }
    | _ => exact hs.of_eq hs.pages hs.slots hs.jobs hs.attempts (fun _ => rfl) rfl (fun _ => rfl) rfl

/-- Chains of changes keep the counts within their limits. -/
theorem AnyChanges.limits {s t : State} (o : Tables s) (hr : Ranges s) (hs : WithinLimits s) (h : AnyChanges s t) :
    WithinLimits t := by
  induction h with
  | refl => exact hs
  | tail hu step ih => exact step.limits (AnyChanges.tables o hu) (AnyChanges.ranges hr hu) ih

/-! ### Rack slots and shelves -/

/-- The rack slots and shelves hold what they held, and the delivery is the same or has ended. -/
theorem RackRoom.of_eq {s t : State} (hs : RackRoom s) (racks : t.racks = s.racks) (shelves : t.shelves = s.shelves)
    (delivery : t.sorter.delivery = none ∨ t.sorter.delivery = s.sorter.delivery) : RackRoom t := by
  have rack (k : PosKey) : t.rack k = s.rack k := by unfold State.rack; rw [racks]
  have shelf (p : PressId) : t.shelf p = s.shelf p := by unfold State.shelf; rw [shelves]
  have room (d : Destination) (h : hasRoom s d) : hasRoom t d := by
    cases d with
    | rackSlot p q => simpa only [hasRoom, rack] using h
    | shelf p => simpa only [hasRoom, shelf] using h
    | rejectBin => trivial
  refine ⟨fun k => by rw [rack k]; exact hs.racks k, fun p => by rw [shelf p]; exact hs.shelves p, fun d hd => ?_⟩
  obtain gone | same := delivery
  · rw [gone] at hd; cases hd
  · exact room _ (hs.delivery d (same ▸ hd))

/-- The plates of a rack slot and a shelf: no more than they held, but where the delivery is to. -/
theorem RackRoom.setRack {s : State} (hs : RackRoom s) {k : PosKey} {l : List Nat} (h : l.length ≤ (s.rack k).length) :
    RackRoom (s.setRack k l) := by
  have rack (m : PosKey) : ((s.setRack k l).rack m).length ≤ (s.rack m).length := by
    rw [rack_setRack]
    split
    next e => subst e; exact h
    next => exact le_rfl
  refine ⟨fun m => (rack m).trans (hs.racks m), hs.shelves, fun d hd => ?_⟩
  have old := hs.delivery d hd
  cases hdest : d.dest with
  | rackSlot p q => rw [hdest] at old; exact (rack _).trans_lt old
  | shelf p => rw [hdest] at old; exact old
  | rejectBin => trivial

/-- The same of a shelf. -/
theorem RackRoom.setShelf {s : State} (hs : RackRoom s) {p : PressId} {l : List (Nat × PosId)}
    (h : l.length ≤ (s.shelf p).length) : RackRoom (s.setShelf p l) := by
  have shelf (q : PressId) : ((s.setShelf p l).shelf q).length ≤ (s.shelf q).length := by
    rw [shelf_setShelf]
    split
    next e => subst e; exact h
    next => exact le_rfl
  refine ⟨hs.racks, fun q => (shelf q).trans (hs.shelves q), fun d hd => ?_⟩
  have old := hs.delivery d hd
  cases hdest : d.dest with
  | rackSlot p q => rw [hdest] at old; exact old
  | shelf p => rw [hdest] at old; exact (shelf _).trans_lt old
  | rejectBin => trivial

/-- Reactions keep the room in the racks. -/
theorem ReactStep.rackRoom {D : Nat → Prop} {s t : State} (h : ReactStep D s t) (hs : RackRoom s) : RackRoom t := by
  cases h with
  | serve h =>
    cases h with
    | expose e =>
      unfold sendExpose
      split
      · exact hs
      · exact hs.of_eq rfl rfl (.inr rfl)
    | _ => exact hs.of_eq rfl rfl (.inr rfl)
  | deliver d _ room =>
    refine ⟨hs.racks, hs.shelves, fun d' hd => ?_⟩
    cases hd
    exact room
  | _ => exact hs.of_eq rfl rfl (.inr rfl)

/-- The work of the owning blocks keeps the room in the racks. -/
theorem WorkStep.rackRoom {s t : State} (h : WorkStep s t) (hs : RackRoom s) : RackRoom t := by
  cases h with
  | react h => exact h.rackRoom hs
  | renew n r k x =>
    refine clearAllCurrent_keeps (P := fun u => RackRoom ((u.putPage n r).putSlot k x)) n ?_ ?_ ?_
    · exact fun u _ _ h => RackRoom.of_eq h rfl rfl (.inr rfl)
    · exact fun u _ h => RackRoom.of_eq h rfl rfl (.inr rfl)
    · exact hs.of_eq rfl rfl (.inr rfl)
  | sorter f h => exact hs.of_eq rfl rfl (h s.sorter)
  | delivered => exact hs.of_eq rfl rfl (.inl rfl)
  | limit x l v => cases x <;> exact hs.of_eq rfl rfl (.inr rfl)
  | takeRack k l h => exact hs.setRack h
  | takeShelf p l h => exact hs.setShelf h
  | _ => exact hs.of_eq rfl rfl (.inr rfl)

/-- Chains of work keep the room in the racks. -/
theorem Works.rackRoom {s t : State} (hs : RackRoom s) (h : Works s t) : RackRoom t := by
  induction h with
  | refl => exact hs
  | tail _ hu ih => exact hu.rackRoom ih

/-- Changes other than SORTED keep the room in the racks. -/
theorem ChangeStep.rackRoom {s t : State} (h : ChangeStep s t) (hs : RackRoom s) : RackRoom t := by
  cases h with
  | restart0 =>
    refine ⟨fun k => Nat.zero_le _, fun p => ?_, fun d hd => (nomatch hd)⟩
    fin_cases p <;> exact Nat.zero_le _
  | desk h =>
    cases h with
    | work h => exact h.rackRoom hs
    | _ => exact hs.of_eq rfl rfl (.inr rfl)
  | _ => exact hs.of_eq rfl rfl (.inr rfl)

/-- Chains of such changes keep the room in the racks. -/
theorem Changes.rackRoom {s t : State} (hs : RackRoom s) (h : Changes s t) : RackRoom t := by
  induction h with
  | refl => exact hs
  | tail _ hu ih => exact hu.rackRoom ih

/-- No rack slot and no shelf is overfull. -/
structure Stacked (s : State) : Prop where
  racks : ∀ k, (s.rack k).length ≤ Config.rackSlot
  shelves : ∀ p, (s.shelf p).length ≤ Config.shelf

/-- Where nothing is delivered, no more is asked. -/
theorem Stacked.rackRoom {s : State} (h : Stacked s) (idle : s.sorter.delivery = none) : RackRoom s :=
  ⟨h.racks, h.shelves, fun d hd => by rw [idle] at hd; cases hd⟩

/-- The plates of a rack slot and a shelf are read off the racks and the shelves. -/
theorem Stacked.of_eq {s t : State} (hs : Stacked s) (racks : t.racks = s.racks) (shelves : t.shelves = s.shelves) :
    Stacked t := by
  have rack (k : PosKey) : t.rack k = s.rack k := by unfold State.rack; rw [racks]
  have shelf (p : PressId) : t.shelf p = s.shelf p := by unfold State.shelf; rw [shelves]
  exact ⟨fun k => by rw [rack k]; exact hs.racks k, fun p => by rw [shelf p]; exact hs.shelves p⟩

/-- The notices and the standing that a racked plate brings leave the racks as they are. -/
theorem racked_stacks (l : LaneId) (n : Nat) (j : Job) (place : PlatePlace) (s : State) :
    (racked l n j place s).racks = s.racks ∧ (racked l n j place s).shelves = s.shelves := by
  unfold racked
  dsimp only
  have dropped : (dropEntry l n (s.modJob n fun x => { x with state := .racked })).racks = s.racks ∧
      (dropEntry l n (s.modJob n fun x => { x with state := .racked })).shelves = s.shelves := ⟨rfl, rfl⟩
  generalize dropEntry l n (s.modJob n fun x => { x with state := .racked }) = t at dropped ⊢
  obtain ⟨r1, f1⟩ := dropped
  obtain ⟨-, r2, f2⟩ := raise_sorter (.plateRacked n j.key place j.superseded) t
  generalize raise (.plateRacked n j.key place j.superseded) t = u at r2 f2 ⊢
  split
  · obtain ⟨-, r3, f3⟩ := raise_sorter (.pullRequired n j.key place) u
    exact ⟨by rw [r3, r2, r1], by rw [f3, f2, f1]⟩
  · have kept := (tellSatisfied_reacts (D := NoJob) j.key u).kept
    exact ⟨by rw [kept.racks, r2, r1], by rw [kept.shelves, f2, f1]⟩

/-- The end of a delivery leaves room for the next one. -/
theorem endDelivery_rackRoom (l : LaneId) {s : State} (o : JobsOrdered s) (hs : Stacked s) : RackRoom (endDelivery l s) := by
  unfold endDelivery
  dsimp only
  have idle : RackRoom (((s.setDelivery none).setServed l).modFloor l fun f => { f with exit := none }) :=
    Stacked.rackRoom (hs.of_eq rfl rfl) rfl
  have o' : JobsOrdered (((s.setDelivery none).setServed l).modFloor l fun f => { f with exit := none }) := o
  generalize ((s.setDelivery none).setServed l).modFloor l (fun f => { f with exit := none }) = u at idle o' ⊢
  exact Works.rackRoom idle (Works.serve o' (sorterLook_works u))

/-- A plate that joins its place fills it no further than the room that the delivery had. -/
theorem placePlate_stacked {d : Delivery} {s : State} (o : JobsOrdered s) (hs : RackRoom s)
    (hd : s.sorter.delivery = some d) : Stacked (placePlate d s) := by
  have room := hs.delivery d hd
  have still : Stacked s := ⟨hs.racks, hs.shelves⟩
  unfold placePlate
  split
  · exact still
  next j hj =>
    split
    next p q dest =>
      rw [dest] at room
      obtain ⟨racks, shelves⟩ := racked_stacks d.lane d.job j .rackSlot (s.setRack ⟨p, q⟩ (s.rack ⟨p, q⟩ ++ [d.job]))
      have grown : Stacked (s.setRack ⟨p, q⟩ (s.rack ⟨p, q⟩ ++ [d.job])) := by
        refine ⟨fun m => ?_, hs.shelves⟩
        rw [rack_setRack]
        split
        · rw [List.length_append]; exact room
        · exact hs.racks m
      exact grown.of_eq racks shelves
    next p dest =>
      rw [dest] at room
      obtain ⟨racks, shelves⟩ := racked_stacks d.lane d.job j .shelf (s.setShelf p (s.shelf p ++ [(d.job, j.pos)]))
      have grown : Stacked (s.setShelf p (s.shelf p ++ [(d.job, j.pos)])) := by
        refine ⟨hs.racks, fun m => ?_⟩
        rw [shelf_setShelf]
        split
        · rw [List.length_append]; exact room
        · exact hs.shelves m
      exact grown.of_eq racks shelves
    next =>
      have r : RackRoom (depart d.job .discarded (dropEntry d.lane d.job s)) := by
        refine Works.rackRoom ?_ (depart_reacts (D := AnyJob) d.job .discarded (s := dropEntry d.lane d.job s) o).works
        exact hs.of_eq rfl rfl (.inr rfl)
      exact ⟨r.racks, r.shelves⟩

/-- SORTED keeps the room in the racks. -/
theorem sorted_rackRoom (n attempt : Nat) (dest : Destination) {s : State} (o : JobsOrdered s) (hs : RackRoom s) :
    RackRoom (sorted n attempt dest s) := by
  unfold sorted
  split
  · exact Works.rackRoom hs (raise_works _ s)
  next d hd =>
    split
    · refine endDelivery_rackRoom d.lane ?_ (placePlate_stacked o hs hd)
      exact Sorts.jobs_ordered o (placePlate_sorts d o hd)
    · exact Works.rackRoom hs (raise_works _ s)

/-- Every step keeps the room in the racks. -/
theorem step_rackRoom {s t : State} (o : Tables s) (hs : RackRoom s) (h : step s = .next t) : RackRoom t := by
  unfold step at h
  split at h
  · cases h; exact hs
  next c rest hc =>
    have o' : JobsOrdered { s with pending := rest } := o.jobs
    have hs' : RackRoom { s with pending := rest } := hs.of_eq rfl rfl (.inr rfl)
    generalize ({ s with pending := rest } : State) = u at h o' hs'
    by_cases sort : ∃ n a d, c = .sorted n a d
    · obtain ⟨n, a, d, rfl⟩ := sort
      cases h
      exact sorted_rackRoom _ _ _ o' hs'
    · exact Changes.rackRoom hs' (exec_changes c o' (fun n a d e => sort ⟨n, a, d, e⟩) h)

/-! ### Contexts and modes -/

/-- The modes agree where every engine keeps its mode and its contexts. -/
theorem ModesAgree.of_eq {s t : State} (hs : ModesAgree s) (h : t.engines = s.engines) : ModesAgree t := by
  intro e
  have same : t.engine e = s.engine e := by unfold State.engine; rw [h]
  rw [same]
  exact hs e

/-- The modes agree where one engine's contexts change and fit its mode. -/
theorem ModesAgree.modCtx {s : State} (hs : ModesAgree s) {e : EngineId} {f : Contexts → Contexts}
    (h : ModeFits (s.engine e).status.mode (s.engine e).ctx → ModeFits (s.engine e).status.mode (f (s.engine e).ctx)) :
    ModesAgree (s.modCtx e f) := by
  intro q
  rw [engine_modCtx]
  split
  next e' => subst e'; exact h (hs q)
  next => exact hs q

/-- An engine that can work is RUNNING, and any contexts fit it. -/
theorem modeFits_ungated {x : Engine} (h : x.ungated = true) (c : Contexts) : ModeFits x.status.mode c := by
  simp only [Engine.ungated, Bool.and_eq_true, decide_eq_true_eq] at h
  rw [h.1.1.1]
  exact modeFits_running c

/-- Serving the engines keeps the contexts in agreement with the modes. -/
theorem ServeStep.modes {s t : State} (h : ServeStep s t) (hs : ModesAgree s) : ModesAgree t := by
  cases h with
  | assign e n j _ _ he =>
    have free : (s.engine e).ungated = true := by
      simp only [State.eligible, Bool.and_eq_true] at he
      exact he.1.1.1
    exact (hs.modCtx (e := e) (f := fun c => { c with next := some ⟨n, .loadSent, some s.limits.load, false⟩ })
      fun _ => modeFits_ungated free _).of_eq rfl
  | park e w hu => exact hs.modCtx fun _ => modeFits_ungated hu _
  | expose e h =>
    have free : (s.engine e).ungated = true := by
      simp only [State.exposeReady, Bool.and_eq_true] at h
      exact h.1.1
    unfold sendExpose
    split
    · exact hs
    next w _ =>
      exact (hs.modCtx (e := e)
        (f := fun c => { c with next := some { w with stage := .exposeSent, timer := some s.limits.load } })
        fun _ => modeFits_ungated free _).of_eq rfl
  | _ => exact hs.of_eq rfl

/-- Reactions keep the contexts in agreement with the modes. -/
theorem ReactStep.modes {D : Nat → Prop} {s t : State} (h : ReactStep D s t) (hs : ModesAgree s) : ModesAgree t := by
  cases h with
  | serve h => exact h.modes hs
  | ctx e f less =>
    refine hs.modCtx fun fits => ⟨fun m => ?_, fun m => ?_⟩
    · obtain ⟨next, parked⟩ := fits.waiting m
      have next' : (f (s.engine e).ctx).next = none := by
        obtain h | h | h := less.next
        · exact h
        · rw [h, next]
        · rw [h, parked]
      have parked' : (f (s.engine e).ctx).parked = none := by
        obtain h | h := less.parked
        · exact h
        · rw [h, parked]
      exact ⟨next', parked'⟩
    · rw [less.current]
      exact fits.current m
  | _ => exact hs.of_eq rfl

/-- The work of the owning blocks keeps the contexts in agreement with the modes. -/
theorem WorkStep.modes {s t : State} (h : WorkStep s t) (hs : ModesAgree s) : ModesAgree t := by
  cases h with
  | react h => exact h.modes hs
  | renew n r k x =>
    refine clearAllCurrent_keeps (P := fun u => ModesAgree ((u.putPage n r).putSlot k x)) n ?_ ?_ ?_
    · exact fun u _ _ h => ModesAgree.of_eq h rfl
    · exact fun u _ h => ModesAgree.of_eq h rfl
    · exact hs.of_eq rfl
  | status e f h =>
    intro q
    rw [engine_modStatus]
    split
    next e' => subst e'; exact h (hs q)
    next => exact hs q
  | gates e f =>
    intro q
    rw [engine_modGates]
    split
    · exact hs q
    · exact hs q
  | cassette e f =>
    intro q
    rw [engine_modCassette]
    split
    · exact hs q
    · exact hs q
  | ctx e f h => exact hs.modCtx h
  | limit x l v => cases x <;> exact hs.of_eq rfl
  | _ => exact hs.of_eq rfl

/-- Every change keeps the contexts in agreement with the modes. -/
theorem AnyStep.modes {s t : State} (h : AnyStep s t) (hs : ModesAgree s) : ModesAgree t := by
  cases h with
  | rack h => cases h <;> exact hs.of_eq rfl
  | change h =>
    cases h with
    | restart0 =>
      intro e
      fin_cases e <;> exact modeFits_empty _
    | desk h =>
      cases h with
      | work h => exact h.modes hs
      | _ => exact hs.of_eq rfl
    | _ => exact hs.of_eq rfl

/-- Chains of changes keep the contexts in agreement with the modes. -/
theorem AnyChanges.modes {s t : State} (hs : ModesAgree s) (h : AnyChanges s t) : ModesAgree t := by
  induction h with
  | refl => exact hs
  | tail _ hu ih => exact hu.modes ih

end Sys2Proof.Machine
end

section
/-! Where the jobs stand after each write (R49, R77, R112, R125, R135, R138), and what each write needs so that no job stands
in two places. -/

namespace Sys2Proof.Machine

open State

/-! ### The places after a write -/

/-- Two views of the places are the same when they agree in each place. -/
theorem Spots.same {v w : Spots} (job : ∀ n, v.job n = w.job n) (cur : ∀ e, v.cur e = w.cur e)
    (next : ∀ e, v.next e = w.next e) (parked : ∀ e, v.parked e = w.parked e) (order : ∀ l, v.order l = w.order l)
    (delivery : v.delivery = w.delivery) (rack : ∀ k, v.rack k = w.rack k) (shelf : ∀ p, v.shelf p = w.shelf p)
    (work : ∀ k, v.work k = w.work k) : v = w := by
  obtain ⟨a, b, c, d, e, f, i, j, k⟩ := v
  obtain ⟨a', b', c', d', e', f', i', j', k'⟩ := w
  obtain rfl : a = a' := funext job
  obtain rfl : b = b' := funext cur
  obtain rfl : c = c' := funext next
  obtain rfl : d = d' := funext parked
  obtain rfl : e = e' := funext order
  obtain rfl : f = f' := delivery
  obtain rfl : i = i' := funext rack
  obtain rfl : j = j' := funext shelf
  obtain rfl : k = k' := funext work
  rfl

theorem spots_modJob (n : Nat) (f : Job → Job) (s : State) :
    spots (s.modJob n f) = (spots s).setJob n ((s.job? n).map f) := by
  refine Spots.same (fun m => ?_) (fun _ => rfl) (fun _ => rfl) (fun _ => rfl) (fun _ => rfl) rfl (fun _ => rfl)
    (fun _ => rfl) (fun _ => rfl)
  show (s.modJob n f).job? m = Function.update s.job? n _ m
  rw [job?_modJob, Function.update_apply]
  split
  next e => rw [e]
  next => rfl

theorem spots_addJob (n : Nat) (j : Job) (s : State) : spots (s.addJob n j) = (spots s).setJob n (some j) := by
  refine Spots.same (fun m => ?_) (fun _ => rfl) (fun _ => rfl) (fun _ => rfl) (fun _ => rfl) rfl (fun _ => rfl)
    (fun _ => rfl) (fun _ => rfl)
  show (s.addJob n j).job? m = Function.update s.job? n _ m
  rw [job?_addJob, Function.update_apply]

theorem spots_dropJob (n : Nat) (s : State) : spots (s.dropJob n) = (spots s).setJob n none := by
  refine Spots.same (fun m => ?_) (fun _ => rfl) (fun _ => rfl) (fun _ => rfl) (fun _ => rfl) rfl (fun _ => rfl)
    (fun _ => rfl) (fun _ => rfl)
  show (s.dropJob n).job? m = Function.update s.job? n _ m
  rw [job?_dropJob, Function.update_apply]

theorem spots_modCtx (e : EngineId) (f : Contexts → Contexts) (s : State) :
    spots (s.modCtx e f) = (spots s).setCtx e ((f (s.engine e).ctx).current.map CurrentCtx.job)
      (waitSpot (f (s.engine e).ctx).next) (waitSpot (f (s.engine e).ctx).parked) := by
  refine Spots.same (fun _ => rfl) (fun q => ?_) (fun q => ?_) (fun q => ?_) (fun _ => rfl) rfl (fun _ => rfl)
    (fun _ => rfl) (fun _ => rfl)
  · show ((s.modCtx e f).engine q).ctx.current.map CurrentCtx.job = Function.update (spots s).cur e _ q
    rw [engine_modCtx, Function.update_apply]
    split
    next h => rw [h]
    next => rfl
  · show waitSpot ((s.modCtx e f).engine q).ctx.next = Function.update (spots s).next e _ q
    rw [engine_modCtx, Function.update_apply]
    split
    next h => rw [h]
    next => rfl
  · show waitSpot ((s.modCtx e f).engine q).ctx.parked = Function.update (spots s).parked e _ q
    rw [engine_modCtx, Function.update_apply]
    split
    next h => rw [h]
    next => rfl

theorem spots_modFloor (l : LaneId) (f : LaneFloor → LaneFloor) (s : State) :
    spots (s.modFloor l f) = (spots s).setOrder l (orderSpots (f (s.lane l).floor).order) := by
  refine Spots.same (fun _ => rfl) (fun _ => rfl) (fun _ => rfl) (fun _ => rfl) (fun q => ?_) rfl (fun _ => rfl)
    (fun _ => rfl) (fun _ => rfl)
  show orderSpots ((s.modFloor l f).lane q).floor.order = Function.update (spots s).order l _ q
  rw [lane_modFloor, Function.update_apply]
  split
  next h => rw [h]
  next => rfl

theorem spots_setDelivery (d : Option Delivery) (s : State) :
    spots (s.setDelivery d) = { spots s with delivery := d } := rfl

theorem spots_setRack (k : PosKey) (l : List Nat) (s : State) :
    spots (s.setRack k l) = { spots s with rack := Function.update s.rack k l } := by
  refine Spots.same (fun _ => rfl) (fun _ => rfl) (fun _ => rfl) (fun _ => rfl) (fun _ => rfl) rfl (fun m => ?_)
    (fun _ => rfl) (fun _ => rfl)
  show (s.setRack k l).rack m = Function.update s.rack k l m
  rw [rack_setRack, Function.update_apply]

theorem spots_setShelf (p : PressId) (l : List (Nat × PosId)) (s : State) :
    spots (s.setShelf p l) = { spots s with shelf := Function.update s.shelf p l } := by
  refine Spots.same (fun _ => rfl) (fun _ => rfl) (fun _ => rfl) (fun _ => rfl) (fun _ => rfl) rfl (fun _ => rfl)
    (fun q => ?_) (fun _ => rfl)
  show (s.setShelf p l).shelf q = Function.update s.shelf p l q
  rw [shelf_setShelf, Function.update_apply]

/-- What a position holds of its jobs alone is written where only a plan entry is. -/
theorem spots_plan {s t : State} (k : PosKey) (x : Option Position) (h : ∀ m, t.pos? m = if m = k then x else s.pos? m)
    (rest : spots t = { spots s with work := fun m => workSpots (t.pos? m) }) :
    spots t = (spots s).setWork k (workSpots x) := by
  rw [rest]
  refine Spots.same (fun _ => rfl) (fun _ => rfl) (fun _ => rfl) (fun _ => rfl) (fun _ => rfl) rfl (fun _ => rfl)
    (fun _ => rfl) (fun m => ?_)
  show workSpots (t.pos? m) = Function.update (spots s).work k _ m
  rw [h m, Function.update_apply]
  split <;> rfl

theorem spots_modPos (k : PosKey) (f : Position → Position) (s : State) :
    spots (s.modPos k f) = (spots s).setWork k (workSpots ((s.pos? k).map f)) := by
  refine spots_plan k _ (fun m => ?_) rfl
  rw [pos?_modPos]
  split
  next h => rw [h]
  next => rfl

theorem spots_modWork (k : PosKey) (f : PosWork → PosWork) (s : State) :
    spots (s.modWork k f) = (spots s).setWork k (workSpots ((s.pos? k).map fun x => { x with work := f x.work })) :=
  spots_modPos k _ s

theorem spots_putPos (k : PosKey) (x : Position) (s : State) :
    spots (s.putPos k x) = (spots s).setWork k (workSpots (some x)) :=
  spots_plan k _ (pos?_putPos k x s) rfl

theorem spots_dropPos (k : PosKey) (s : State) : spots (s.dropPos k) = (spots s).setWork k none :=
  spots_plan k none (pos?_dropPos k s) rfl

/-- Work that holds the same jobs stands at the same places. -/
theorem spots_modWork_same {k : PosKey} {f : PosWork → PosWork} {s : State}
    (h : ∀ x, s.pos? k = some x → (f x.work).current = x.work.current ∧ (f x.work).mounted = x.work.mounted) :
    spots (s.modWork k f) = spots s := by
  rw [spots_modWork]
  refine Spots.same (fun _ => rfl) (fun _ => rfl) (fun _ => rfl) (fun _ => rfl) (fun _ => rfl) rfl (fun _ => rfl)
    (fun _ => rfl) (fun m => ?_)
  show Function.update (spots s).work k _ m = workSpots (s.pos? m)
  rw [Function.update_apply]
  split
  next e =>
    subst e
    cases hx : s.pos? m with
    | none => rfl
    | some x =>
      obtain ⟨c, d⟩ := h x hx
      simp [workSpots, c, d]
  next => rfl

end Sys2Proof.Machine
end

section
/-! How the places of the jobs change when a job is given to an engine, exposed, put into a lane, racked, mounted or taken out
of its place: no job comes to stand in two places, and the jobs that have been taken out stand in none. -/

namespace Sys2Proof.Machine

open State

namespace Spots

/-! ### Standing nowhere -/

/-- A job stands nowhere when it is not in the places of its own state. -/
theorem Ok.off_by {v : Spots} (h : v.Ok) {n : Nat} {j : Job} (hj : v.job n = some j)
    (engine : j.state = .assigned ∨ j.state = .exposing →
      (∀ e, v.cur e ≠ some n) ∧ (∀ e x, v.next e ≠ some (n, x)) ∧ ∀ e x, v.parked e ≠ some (n, x))
    (lane : j.state = .developing ∨ j.state = .finishing → ∀ l x, (n, x) ∉ v.order l)
    (rack : j.state = .racked → (∀ k, n ∉ v.rack k) ∧ ∀ p q, (n, q) ∉ v.shelf p)
    (mounted : j.state = .mounted → ∀ k c, v.work k ≠ some (c, some n)) : v.Off n where
  next := fun e x hx => by
    obtain ⟨i, hi, state, -⟩ := h.next e n x hx
    cases hj.symm.trans hi
    exact (engine (.inl state)).2.1 e x hx
  parked := fun e x hx => by
    obtain ⟨i, hi, state, -⟩ := h.parked e n x hx
    cases hj.symm.trans hi
    exact (engine (.inl state)).2.2 e x hx
  cur := fun e hx => by
    obtain ⟨i, hi, state, -⟩ := h.current e n hx
    cases hj.symm.trans hi
    exact (engine (.inr state)).1 e hx
  order := fun l x hx => by
    obtain ⟨i, hi, -, state⟩ := h.order l n x hx
    cases hj.symm.trans hi
    refine lane ?_ l x hx
    rw [state]
    split
    · exact .inl rfl
    · exact .inr rfl
  rack := fun k hx => by
    obtain ⟨i, hi, -, state⟩ := h.racks k n hx
    cases hj.symm.trans hi
    exact (rack state).1 k hx
  shelf := fun p q hx => by
    obtain ⟨i, hi, -, state⟩ := h.shelves p n q hx
    cases hj.symm.trans hi
    exact (rack state).2 p q hx
  mounted := fun k c hx => by
    obtain ⟨i, hi, -, state⟩ := h.mounted k c n hx
    cases hj.symm.trans hi
    exact mounted state k c hx

/-- Standing nowhere does not depend on the records. -/
theorem Off.setJob {v : Spots} {n : Nat} (h : v.Off n) (m : Nat) (j : Option Job) : (v.setJob m j).Off n :=
  ⟨h.next, h.parked, h.cur, h.order, h.rack, h.shelf, h.mounted⟩

/-- A job stands nowhere when it is in none of an engine's new contexts. -/
theorem Off.setCtx {v : Spots} {n : Nat} (h : v.Off n) (e : EngineId) {c : Option Nat} {a b : Option (Nat × LoadStage)}
    (hc : c ≠ some n) (ha : ∀ x, a ≠ some (n, x)) (hb : ∀ x, b ≠ some (n, x)) : (v.setCtx e c a b).Off n := by
  refine ⟨fun q x => ?_, fun q x => ?_, fun q => ?_, h.order, h.rack, h.shelf, h.mounted⟩
  · simp only [Spots.setCtx, Function.update_apply]
    split
    · exact ha x
    · exact h.next q x
  · simp only [Spots.setCtx, Function.update_apply]
    split
    · exact hb x
    · exact h.parked q x
  · simp only [Spots.setCtx, Function.update_apply]
    split
    · exact hc
    · exact h.cur q

/-- A job stands nowhere when it is not in a lane's new order. -/
theorem Off.setOrder {v : Spots} {n : Nat} (h : v.Off n) (l : LaneId) {o : List (Nat × LaneStage)}
    (ho : ∀ x, (n, x) ∉ o) : (v.setOrder l o).Off n := by
  refine ⟨h.next, h.parked, h.cur, fun q x => ?_, h.rack, h.shelf, h.mounted⟩
  simp only [Spots.setOrder, Function.update_apply]
  split
  · exact ho x
  · exact h.order q x

/-- A job stands nowhere when it is not a position's new mounted job. -/
theorem Off.setWork {v : Spots} {n : Nat} (h : v.Off n) (k : PosKey) {w : Option (Option Nat × Option Nat)}
    (hw : ∀ c, w ≠ some (c, some n)) : (v.setWork k w).Off n := by
  refine ⟨h.next, h.parked, h.cur, h.order, h.rack, h.shelf, fun q c => ?_⟩
  simp only [Spots.setWork, Function.update_apply]
  split
  · exact hw c
  · exact h.mounted q c

/-! ### The places and the jobs taken out of them -/

/-- No job stands in two places, and the jobs of `L` have been taken out of theirs: they are live and stand nowhere. Those of
`P` may be plates of a rack or a press. -/
structure Fit (v : Spots) (L P : Nat → Prop) : Prop where
  ok : v.Ok
  off : ∀ n, L n → v.Off n ∧ ∃ j, v.job n = some j ∧ j.state ≠ .queued ∧ j.state ≠ .failed ∧
    (j.state = .racked ∨ j.state = .mounted → P n)

/-- A job at work is none of a queue, a rack or a press. -/
theorem atWork {x : JobState} {p : Prop} (h : x ∈ [JobState.assigned, .exposing, .developing, .finishing, .uncertain]) :
    x ≠ .queued ∧ x ≠ .failed ∧ (x = .racked ∨ x = .mounted → p) := by
  cases x <;> simp at h ⊢

/-- Fewer jobs taken out. -/
theorem Fit.fewer {v : Spots} {L M P : Nat → Prop} (h : v.Fit L P) (k : ∀ n, M n → L n) : v.Fit M P :=
  ⟨h.ok, fun n hn => h.off n (k n hn)⟩

/-- Another account of the plates among them. -/
theorem Fit.plates {v : Spots} {L P Q : Nat → Prop} (h : v.Fit L P) (k : ∀ n, L n → P n → Q n) : v.Fit L Q := by
  refine ⟨h.ok, fun n hn => ?_⟩
  obtain ⟨off, j, hj, queued, failed, plate⟩ := h.off n hn
  exact ⟨off, j, hj, queued, failed, fun s => k n hn (plate s)⟩

/-- A job that stands in a place has not been taken out. -/
theorem Fit.kept {v : Spots} {L P : Nat → Prop} (h : v.Fit L P) {n : Nat} (hn : ¬ v.Off n) : ¬ L n := fun l => hn (h.off n l).1

/-- A job that waits in its queue has not been taken out. -/
theorem Fit.queued {v : Spots} {L P : Nat → Prop} (h : v.Fit L P) {n : Nat} {j : Job} (hj : v.job n = some j)
    (hq : j.state = .queued) : ¬ L n := fun l => by
  obtain ⟨-, i, hi, state, -⟩ := h.off n l
  cases hj.symm.trans hi
  exact state hq

/-- A job keeps its place where its record changes in nothing that its place asks of it. -/
theorem Fit.keepJob {v : Spots} {L P : Nat → Prop} (h : v.Fit L P) {n : Nat} {i j : Job} (hi : v.job n = some i)
    (key : j.key = i.key) (state : j.state = i.state) (engine : j.engine = i.engine) (lane : j.lane = i.lane)
    (applied : i.applied ≠ none → j.applied ≠ none) : (v.setJob n (some j)).Fit L P := by
  refine ⟨h.ok.setJob (h.ok.fits_same hi key state engine lane applied), fun m hm => ?_⟩
  obtain ⟨off, r, hr, hs⟩ := h.off m hm
  refine ⟨off.setJob n _, ?_⟩
  by_cases e : m = n
  · subst e
    cases hi.symm.trans hr
    exact ⟨j, Function.update_self .., by rw [state]; exact hs⟩
  · exact ⟨r, (Function.update_of_ne e ..).trans hr, hs⟩

/-- A job that stands nowhere takes a new state. -/
theorem Fit.moveJob {v : Spots} {L P : Nat → Prop} (h : v.Fit L P) {n : Nat} {i j : Job} (hi : v.job n = some i)
    (off : v.Off n) (key : j.key = i.key) (exposed : isExposed j.state → j.engine ≠ none ∧ j.applied ≠ none) :
    (v.setJob n (some j)).Fit (fun m => L m ∧ m ≠ n) P := by
  refine ⟨h.ok.setJob (off.fits h.ok hi key exposed), fun m hm => ?_⟩
  obtain ⟨off', r, hr, hs⟩ := h.off m hm.1
  exact ⟨off'.setJob n _, r, (Function.update_of_ne hm.2 ..).trans hr, hs⟩

/-- A job enters the table. -/
theorem Fit.newJob {v : Spots} {L P : Nat → Prop} (h : v.Fit L P) {n : Nat} {j : Job} (free : v.job n = none)
    (hx : ¬ isExposed j.state) : (v.setJob n (some j)).Fit L P := by
  refine ⟨h.ok.addJob free hx, fun m hm => ?_⟩
  obtain ⟨off, r, hr, hs⟩ := h.off m hm
  have e : m ≠ n := by rintro rfl; rw [free] at hr; cases hr
  exact ⟨off.setJob n _, r, (Function.update_of_ne e ..).trans hr, hs⟩

/-- A job that stands nowhere, and that no position has for its current job, leaves the table. -/
theorem Fit.endJob {v : Spots} {L P : Nat → Prop} (h : v.Fit L P) {n : Nat} (off : v.Off n)
    (hc : ∀ k m, v.work k ≠ some (some n, m)) : (v.setJob n none).Fit (fun m => L m ∧ m ≠ n) P := by
  refine ⟨h.ok.dropJob off hc, fun m hm => ?_⟩
  obtain ⟨off', r, hr, hs⟩ := h.off m hm.1
  exact ⟨off'.setJob n _, r, (Function.update_of_ne hm.2 ..).trans hr, hs⟩

/-- New contexts of an engine. -/
theorem Fit.setCtx {v : Spots} {L P : Nat → Prop} (h : v.Fit L P) (e : EngineId) {c : Option Nat}
    {a b : Option (Nat × LoadStage)} (hc : ∀ n, c = some n → v.Exposes e n ∧ ¬ L n)
    (ha : ∀ n x, a = some (n, x) → v.Waits e n x ∧ ¬ L n) (hb : ∀ n x, b = some (n, x) → v.Waits e n x ∧ ¬ L n)
    (hab : ∀ n x m y, a = some (n, x) → b = some (m, y) → n ≠ m) : (v.setCtx e c a b).Fit L P := by
  refine ⟨h.ok.setCtx e (fun n hn => (hc n hn).1) (fun n x hn => (ha n x hn).1) (fun n x hn => (hb n x hn).1) hab,
    fun n hn => ?_⟩
  obtain ⟨off, live⟩ := h.off n hn
  refine ⟨off.setCtx e ?_ (fun x hx => (ha n x hx).2 hn) fun x hx => (hb n x hx).2 hn, live⟩
  exact fun hx => (hc n hx).2 hn

/-- A new lane order, where the granted plate of the delivery stays. -/
theorem Fit.setOrder {v : Spots} {L P : Nat → Prop} (h : v.Fit L P) (l : LaneId) {o : List (Nat × LaneStage)}
    (ho : ∀ n x, (n, x) ∈ o → v.Runs l n x ∧ ¬ L n) (hn : (o.map Prod.fst).Nodup)
    (hd : ∀ d, v.delivery = some d → d.lane = l → (d.job, .granted) ∈ o) : (v.setOrder l o).Fit L P := by
  refine ⟨h.ok.setOrder l (fun n x hx => (ho n x hx).1) hn hd, fun n hn => ?_⟩
  obtain ⟨off, live⟩ := h.off n hn
  exact ⟨off.setOrder l fun x hx => (ho n x hx).2 hn, live⟩

/-- Other work at a position. -/
theorem Fit.setWork {v : Spots} {L P : Nat → Prop} (h : v.Fit L P) (k : PosKey) {w : Option (Option Nat × Option Nat)}
    (hm : ∀ c n, w = some (c, some n) → v.Is n k .mounted ∧ ¬ L n)
    (hc : ∀ n m, w = some (some n, m) → ∃ j, v.job n = some j ∧ j.key = k) : (v.setWork k w).Fit L P := by
  refine ⟨h.ok.setWork k (fun c n hn => (hm c n hn).1) hc, fun n hn => ?_⟩
  obtain ⟨off, live⟩ := h.off n hn
  exact ⟨off.setWork k fun c hx => (hm c n hx).2 hn, live⟩

/-! ### Engines -/

/-- Contexts written twice. -/
theorem setCtx_setCtx (v : Spots) (e : EngineId) (c c' : Option Nat) (a a' b b' : Option (Nat × LoadStage)) :
    (v.setCtx e c a b).setCtx e c' a' b' = v.setCtx e c' a' b' := by
  simp only [Spots.setCtx, Function.update_idem]

/-- The contexts that an engine has. -/
theorem setCtx_same (v : Spots) (e : EngineId) : v.setCtx e (v.cur e) (v.next e) (v.parked e) = v := by
  simp only [Spots.setCtx, Function.update_eq_self]

/-- A job stands in a context of an engine. -/
def HeldAt (c : Option Nat) (a b : Option (Nat × LoadStage)) (n : Nat) : Prop :=
  c = some n ∨ (∃ x, a = some (n, x)) ∨ ∃ x, b = some (n, x)

/-- A job in a context of an engine is live, at that engine, and ASSIGNED or EXPOSING. -/
theorem Ok.held {v : Spots} (h : v.Ok) {e : EngineId} {n : Nat} (hn : HeldAt (v.cur e) (v.next e) (v.parked e) n) :
    ∃ j, v.job n = some j ∧ j.engine = some e ∧ (j.state = .assigned ∨ j.state = .exposing) := by
  obtain hn | ⟨x, hn⟩ | ⟨x, hn⟩ := hn
  · obtain ⟨j, hj, state, engine, -⟩ := h.current e n hn
    exact ⟨j, hj, engine, .inr state⟩
  · obtain ⟨j, hj, state, engine, -⟩ := h.next e n x hn
    exact ⟨j, hj, engine, .inl state⟩
  · obtain ⟨j, hj, state, engine, -⟩ := h.parked e n x hn
    exact ⟨j, hj, engine, .inl state⟩

/-- A job that leaves the contexts of its engine stands nowhere. -/
theorem Ok.off_left {v : Spots} (h : v.Ok) {e : EngineId} {n : Nat} (hn : HeldAt (v.cur e) (v.next e) (v.parked e) n)
    {c : Option Nat} {a b : Option (Nat × LoadStage)} (out : ¬ HeldAt c a b n) : (v.setCtx e c a b).Off n := by
  obtain ⟨j, hj, engine, state⟩ := h.held hn
  have other {q : EngineId} (hq : HeldAt (v.cur q) (v.next q) (v.parked q) n) : q = e := by
    obtain ⟨i, hi, engine', -⟩ := h.held hq
    cases hj.symm.trans hi
    exact Option.some.inj (engine'.symm.trans engine)
  refine ⟨fun q x hx => ?_, fun q x hx => ?_, fun q hx => ?_, fun l x hx => ?_, fun k hx => ?_, fun p q hx => ?_,
    fun k d hx => ?_⟩
  · simp only [Spots.setCtx, Function.update_apply] at hx
    split at hx
    · exact out (.inr (.inl ⟨x, hx⟩))
    next ne => exact ne (other (.inr (.inl ⟨x, hx⟩)))
  · simp only [Spots.setCtx, Function.update_apply] at hx
    split at hx
    · exact out (.inr (.inr ⟨x, hx⟩))
    next ne => exact ne (other (.inr (.inr ⟨x, hx⟩)))
  · simp only [Spots.setCtx, Function.update_apply] at hx
    split at hx
    · exact out (.inl hx)
    next ne => exact ne (other (.inl hx))
  · obtain ⟨i, hi, -, state'⟩ := h.order l n x hx
    cases hj.symm.trans hi
    rw [state'] at state
    split at state <;> simp at state
  · obtain ⟨i, hi, -, state'⟩ := h.racks k n hx
    cases hj.symm.trans hi
    simp [state'] at state
  · obtain ⟨i, hi, -, state'⟩ := h.shelves p n q hx
    cases hj.symm.trans hi
    simp [state'] at state
  · obtain ⟨i, hi, -, state'⟩ := h.mounted k d n hx
    cases hj.symm.trans hi
    simp [state'] at state

/-- The contexts of an engine hold fewer jobs than they held: each keeps its own or is emptied, but that a parked job may move
to next. -/
structure Less (c : Option Nat) (a b : Option (Nat × LoadStage)) (c' : Option Nat) (a' b' : Option (Nat × LoadStage)) : Prop where
  cur : c' = none ∨ c' = c
  next : a' = none ∨ a' = a ∨ (a' = b ∧ b' = none)
  parked : b' = none ∨ b' = b

/-- Fewer jobs in an engine's contexts; those that have left are taken out. -/
theorem Fit.less {v : Spots} {L P M : Nat → Prop} (h : v.Fit L P) (e : EngineId) {c : Option Nat} {a b : Option (Nat × LoadStage)}
    (less : Less (v.cur e) (v.next e) (v.parked e) c a b)
    (hM : ∀ n, M n → HeldAt (v.cur e) (v.next e) (v.parked e) n ∧ ¬ HeldAt c a b n) :
    (v.setCtx e c a b).Fit (fun n => L n ∨ M n) P := by
  have stay {n : Nat} (hn : HeldAt (v.cur e) (v.next e) (v.parked e) n) : ¬ L n := fun l => by
    obtain ⟨off, -⟩ := h.off n l
    obtain hn | ⟨x, hn⟩ | ⟨x, hn⟩ := hn
    · exact off.cur e hn
    · exact off.next e x hn
    · exact off.parked e x hn
  have fit : (v.setCtx e c a b).Fit L P := by
    refine h.setCtx e (fun n hn => ?_) (fun n x hn => ?_) (fun n x hn => ?_) fun n x m y ha hb => ?_
    · obtain none | same := less.cur
      · rw [none] at hn; cases hn
      · rw [same] at hn
        exact ⟨h.ok.current e n hn, stay (.inl hn)⟩
    · obtain none | same | ⟨same, -⟩ := less.next
      · rw [none] at hn; cases hn
      · rw [same] at hn
        exact ⟨h.ok.next e n x hn, stay (.inr (.inl ⟨x, hn⟩))⟩
      · rw [same] at hn
        exact ⟨h.ok.parked e n x hn, stay (.inr (.inr ⟨x, hn⟩))⟩
    · obtain none | same := less.parked
      · rw [none] at hn; cases hn
      · rw [same] at hn
        exact ⟨h.ok.parked e n x hn, stay (.inr (.inr ⟨x, hn⟩))⟩
    · obtain none | same | ⟨-, none⟩ := less.next
      · rw [none] at ha; cases ha
      · obtain none | same' := less.parked
        · rw [none] at hb; cases hb
        · rw [same] at ha
          rw [same'] at hb
          exact h.ok.apart e n x m y ha hb
      · rw [none] at hb; cases hb
  refine ⟨fit.ok, fun n hn => ?_⟩
  obtain hn | hn := hn
  · exact fit.off n hn
  · obtain ⟨was, out⟩ := hM n hn
    obtain ⟨j, hj, -, state⟩ := h.ok.held was
    exact ⟨h.ok.off_left was out, j, hj, atWork (by rcases state with s | s <;> simp [s])⟩

/-- A QUEUED job is given to an engine. -/
theorem Fit.assign {v : Spots} {L P : Nat → Prop} (h : v.Fit L P) {e : EngineId} {n : Nat} {i j : Job} (hi : v.job n = some i)
    (hq : i.state = .queued) (key : j.key = i.key) (state : j.state = .assigned) (engine : j.engine = some e) :
    ((v.setJob n (some j)).setCtx e (v.cur e) (some (n, .loadSent)) (v.parked e)).Fit L P := by
  have off : v.Off n := h.ok.off_of fun r hr => by
    cases hi.symm.trans hr
    simp [hq]
  have out : ¬ L n := h.queued hi hq
  have given : (v.setJob n (some j)).Fit L P :=
    (h.moveJob hi off key fun x => by simp [isExposed, state] at x).fewer fun m hm =>
      ⟨hm, fun e => out (e ▸ hm)⟩
  have off' := off.setJob n (some j)
  generalize hv : v.setJob n (some j) = u at given off'
  have cur : u.cur = v.cur := by rw [← hv]; rfl
  have parked : u.parked = v.parked := by rw [← hv]; rfl
  have job : u.job n = some j := by rw [← hv]; exact Function.update_self ..
  rw [← cur, ← parked]
  refine given.setCtx e (fun m hm => ⟨given.ok.current e m hm, given.kept fun o => o.cur e hm⟩) (fun m x hm => ?_)
    (fun m x hm => ⟨given.ok.parked e m x hm, given.kept fun o => o.parked e x hm⟩) fun m x m' y hm hm' => ?_
  · cases hm
    exact ⟨⟨j, job, state, engine, nofun⟩, out⟩
  · cases hm
    rintro rfl
    exact off'.parked e y hm'

/-- A job is parked. -/
theorem Fit.park {v : Spots} {L P : Nat → Prop} (h : v.Fit L P) (e : EngineId) :
    (v.setCtx e (v.cur e) none (v.next e)).Fit L P :=
  h.setCtx e (fun n hn => ⟨h.ok.current e n hn, h.kept fun o => o.cur e hn⟩) (fun n x hn => by cases hn)
    (fun n x hn => ⟨h.ok.next e n x hn, h.kept fun o => o.next e x hn⟩) fun n x m y hn => by cases hn

/-- The waiting jobs of an engine are at other stages; one at EXPOSE_SENT has a correction. -/
theorem Fit.stages {v : Spots} {L P : Nat → Prop} (h : v.Fit L P) (e : EngineId) {a b : Option (Nat × LoadStage)}
    (ha : ∀ n x, a = some (n, x) → ∃ y, v.next e = some (n, y) ∧ (x = .exposeSent →
      y = .exposeSent ∨ ∃ j, v.job n = some j ∧ j.applied ≠ none))
    (hb : ∀ n x, b = some (n, x) → ∃ y, v.parked e = some (n, y) ∧ (x = .exposeSent → y = .exposeSent)) :
    (v.setCtx e (v.cur e) a b).Fit L P := by
  refine h.setCtx e (fun n hn => ⟨h.ok.current e n hn, h.kept fun o => o.cur e hn⟩) (fun n x hn => ?_) (fun n x hn => ?_)
    fun n x m y hn hm => ?_
  · obtain ⟨y, hy, sent⟩ := ha n x hn
    obtain ⟨j, hj, state, engine, applied⟩ := h.ok.next e n y hy
    refine ⟨⟨j, hj, state, engine, fun hx => ?_⟩, h.kept fun o => o.next e y hy⟩
    obtain s | ⟨i, hi, a⟩ := sent hx
    · exact applied s
    · cases hj.symm.trans hi; exact a
  · obtain ⟨y, hy, sent⟩ := hb n x hn
    obtain ⟨j, hj, state, engine, applied⟩ := h.ok.parked e n y hy
    exact ⟨⟨j, hj, state, engine, fun hx => applied (sent hx)⟩, h.kept fun o => o.parked e y hy⟩
  · obtain ⟨x', hx', -⟩ := ha n x hn
    obtain ⟨y', hy', -⟩ := hb m y hm
    exact h.ok.apart e n x' m y' hx' hy'

/-- An exposure starts: the next job moves to current, and a parked job to next. -/
theorem Fit.start {v : Spots} {L P : Nat → Prop} (h : v.Fit L P) {e : EngineId} {n : Nat} {i j : Job}
    (hn : v.next e = some (n, .exposeSent)) (hi : v.job n = some i) (key : j.key = i.key) (state : j.state = .exposing)
    (engine : j.engine = i.engine) (applied : j.applied = i.applied) :
    ((v.setJob n (some j)).setCtx e (some n) (v.parked e) none).Fit L P := by
  have out : ¬ L n := h.kept fun o => o.next e _ hn
  obtain ⟨r, hr, -, eng, app⟩ := h.ok.next e n _ hn
  cases hi.symm.trans hr
  have left : ¬ HeldAt none (v.parked e) none n := by
    rintro (c | ⟨x, c⟩ | ⟨x, c⟩)
    · cases c
    · exact h.ok.apart e n _ n x hn c rfl
    · cases c
  have emptied : (v.setCtx e none (v.parked e) none).Fit L P :=
    (h.less (M := fun _ => False) e ⟨.inl rfl, .inr (.inr ⟨rfl, rfl⟩), .inl rfl⟩ fun _ f => f.elim).fewer fun m hm => .inl hm
  have off := h.ok.off_left (e := e) (n := n) (.inr (.inl ⟨_, hn⟩)) left
  have hi' : (v.setCtx e none (v.parked e) none).job n = some i := hi
  have moved : ((v.setCtx e none (v.parked e) none).setJob n (some j)).Fit L P :=
    (emptied.moveJob hi' off key fun _ => ⟨by rw [engine, eng]; simp, by rw [applied]; exact app rfl⟩).fewer
      fun m hm => ⟨hm, fun e => out (e ▸ hm)⟩
  have target : (v.setJob n (some j)).setCtx e (some n) (v.parked e) none =
      ((v.setCtx e none (v.parked e) none).setJob n (some j)).setCtx e (some n) (v.parked e) none :=
    (setCtx_setCtx (v.setJob n (some j)) e none (some n) (v.parked e) (v.parked e) none none).symm
  rw [target]
  have waits : ((v.setCtx e none (v.parked e) none).setJob n (some j)).next e = v.parked e := Function.update_self ..
  refine moved.setCtx e (fun m hm => ?_) (fun m x hm => ?_) (fun m x hm => by cases hm) fun m x m' y _ hm => by cases hm
  · cases hm
    exact ⟨⟨j, Function.update_self .., state, by rw [engine, eng], by rw [applied]; exact app rfl⟩, out⟩
  · rw [← waits] at hm
    exact ⟨moved.ok.next e m x hm, moved.kept fun o => o.next e x hm⟩

end Spots

end Sys2Proof.Machine
end

section
/-! How the places of the jobs change in the lanes, at the sorter, in the racks and on the presses. -/

namespace Sys2Proof.Machine

open State

namespace Spots

/-! ### Lanes -/

/-- Orders written twice. -/
theorem setOrder_setOrder (v : Spots) (l : LaneId) (o o' : List (Nat × LaneStage)) :
    (v.setOrder l o).setOrder l o' = v.setOrder l o' := by
  simp only [Spots.setOrder, Function.update_idem]

/-- A job in a lane order is live, in that lane, and DEVELOPING or FINISHING. -/
theorem Ok.inOrder {v : Spots} (h : v.Ok) {l : LaneId} {n : Nat} {x : LaneStage} (hn : (n, x) ∈ v.order l) :
    ∃ j, v.job n = some j ∧ j.lane = some l ∧ (j.state = .developing ∨ j.state = .finishing) := by
  obtain ⟨j, hj, lane, state⟩ := h.order l n x hn
  refine ⟨j, hj, lane, ?_⟩
  rw [state]
  split
  · exact .inl rfl
  · exact .inr rfl

/-- An entry of a lane order is the only one of its job. -/
theorem Ok.entry_unique {v : Spots} (h : v.Ok) {l : LaneId} {n : Nat} {x y : LaneStage} (hx : (n, x) ∈ v.order l)
    (hy : (n, y) ∈ v.order l) : x = y := by
  have nodup := h.once l
  generalize v.order l = o at hx hy nodup
  induction o with
  | nil => cases hx
  | cons z o ih =>
    rw [List.map_cons, List.nodup_cons] at nodup
    have fresh {w : LaneStage} (hw : (n, w) ∈ o) : z.1 ≠ n := fun e => nodup.1 (e ▸ List.mem_map_of_mem hw)
    obtain hx | hx := List.mem_cons.mp hx
    · obtain hy | hy := List.mem_cons.mp hy
      · exact (Prod.mk.inj (hx.trans hy.symm)).2
      · exact absurd (congrArg Prod.fst hx).symm (fresh hy)
    · obtain hy | hy := List.mem_cons.mp hy
      · exact absurd (congrArg Prod.fst hy).symm (fresh hx)
      · exact ih hx hy nodup.2

/-- A job that leaves a lane order is taken out. -/
theorem Fit.leave {v : Spots} {L P : Nat → Prop} (h : v.Fit L P) {l : LaneId} {n : Nat} {x : LaneStage}
    (hn : (n, x) ∈ v.order l) (hd : ∀ d, v.delivery = some d → d.lane = l → d.job ≠ n) :
    (v.setOrder l ((v.order l).filter fun y => y.1 ≠ n)).Fit (fun m => L m ∨ m = n) P := by
  have fit : (v.setOrder l ((v.order l).filter fun y => y.1 ≠ n)).Fit L P := by
    refine h.setOrder l (fun m y hm => ?_) ?_ fun d hdel lane => ?_
    · have hm := (List.mem_filter.mp hm).1
      exact ⟨h.ok.order l m y hm, h.kept fun o => o.order l y hm⟩
    · exact (h.ok.once l).sublist (List.filter_sublist.map Prod.fst)
    · refine List.mem_filter.mpr ⟨?_, by simpa using hd d hdel lane⟩
      rw [← lane]
      exact (h.ok.delivery d hdel).1
  refine ⟨fit.ok, fun m hm => ?_⟩
  obtain hm | rfl := hm
  · exact fit.off m hm
  obtain ⟨j, hj, lane, state⟩ := h.ok.inOrder hn
  refine ⟨fit.ok.off_by (j := j) hj (fun s => ?_) (fun _ q y hy => ?_) (fun s => ?_) fun s => ?_, j, hj,
    atWork (by rcases state with s | s <;> simp [s])⟩
  · exfalso
    obtain s | s := s <;> simp [s] at state
  · simp only [Spots.setOrder, Function.update_apply] at hy
    split at hy
    next => simp at hy
    next ne =>
      obtain ⟨i, hi, lane', -⟩ := h.ok.inOrder hy
      cases hj.symm.trans hi
      exact ne (Option.some.inj (lane'.symm.trans lane))
  · simp [s] at state
  · simp [s] at state

/-- A job that stands nowhere joins a lane order. -/
theorem Fit.join {v : Spots} {L P : Nat → Prop} (h : v.Fit L P) {l : LaneId} {n : Nat} {i j : Job} (x : LaneStage)
    (hi : v.job n = some i) (off : v.Off n) (out : ¬ L n) (key : j.key = i.key) (lane : j.lane = some l)
    (state : j.state = if x = .inDeveloper then .developing else .finishing)
    (exposed : j.engine ≠ none ∧ j.applied ≠ none) :
    ((v.setJob n (some j)).setOrder l (v.order l ++ [(n, x)])).Fit L P := by
  have moved : (v.setJob n (some j)).Fit L P :=
    (h.moveJob hi off key fun _ => exposed).fewer fun m hm => ⟨hm, fun e => out (e ▸ hm)⟩
  refine moved.setOrder l (fun m y hm => ?_) ?_ fun d hd e => ?_
  · obtain hm | hm := List.mem_append.mp hm
    · exact ⟨moved.ok.order l m y hm, moved.kept fun o => o.order l y hm⟩
    · cases List.mem_singleton.mp hm
      exact ⟨⟨j, Function.update_self .., lane, state⟩, out⟩
  · rw [List.map_append, List.map_singleton, List.nodup_append]
    refine ⟨h.ok.once l, List.nodup_singleton _, fun a ha b hb => ?_⟩
    cases List.mem_singleton.mp hb
    rintro rfl
    obtain ⟨⟨m, y⟩, hy, rfl⟩ := List.mem_map.mp ha
    exact off.order l y hy
  · rw [← e]
    exact List.mem_append_left _ (h.ok.delivery d hd).1

/-- The entries of a lane order take other stages, on the same side of inspection; a granted plate stays granted. -/
theorem Fit.restage {v : Spots} {L P : Nat → Prop} (h : v.Fit L P) {l : LaneId} {f : Nat × LaneStage → LaneStage}
    (side : ∀ y ∈ v.order l, f y = .inDeveloper ↔ y.2 = .inDeveloper)
    (granted : ∀ y ∈ v.order l, y.2 = .granted → f y = .granted) :
    (v.setOrder l ((v.order l).map fun y => (y.1, f y))).Fit L P := by
  refine h.setOrder l (fun n x hn => ?_) ?_ fun d hd e => ?_
  · obtain ⟨y, hy, e⟩ := List.mem_map.mp hn
    cases e
    refine ⟨?_, h.kept fun o => o.order l y.2 hy⟩
    obtain ⟨j, hj, lane, state⟩ := h.ok.order l y.1 y.2 hy
    refine ⟨j, hj, lane, ?_⟩
    rw [state]
    exact if_congr (side y hy).symm rfl rfl
  · rw [List.map_map]
    exact h.ok.once l
  · have old := (h.ok.delivery d hd).1
    rw [e] at old
    refine List.mem_map.mpr ⟨_, old, ?_⟩
    rw [granted _ old rfl]

/-- A plate is passed from inspection to the punch. -/
theorem Fit.pass {v : Spots} {L P : Nat → Prop} (h : v.Fit L P) {l : LaneId} {n : Nat} {i j : Job} (hi : v.job n = some i)
    (hn : (n, .inDeveloper) ∈ v.order l) (key : j.key = i.key) (state : j.state = .finishing) (engine : j.engine = i.engine)
    (lane : j.lane = i.lane) (applied : j.applied = i.applied) :
    ((v.setJob n (some j)).setOrder l
      ((v.order l).map fun y => (y.1, if y.1 = n then .punching else y.2))).Fit L P := by
  have out : ¬ L n := h.kept fun o => o.order l _ hn
  obtain ⟨r, hr, here, developing⟩ := h.ok.order l n _ hn
  cases hi.symm.trans hr
  have exposed := h.ok.exposed n i hi (by rw [developing]; simp [isExposed])
  have ungranted (d : Delivery) (hd : v.delivery = some d) (e : d.lane = l) : d.job ≠ n := by
    rintro rfl
    have g := (h.ok.delivery d hd).1
    rw [e] at g
    cases h.ok.entry_unique hn g
  have left := h.leave hn ungranted
  have off : (v.setOrder l ((v.order l).filter fun y => y.1 ≠ n)).Off n := (left.off n (.inr rfl)).1
  have hi' : (v.setOrder l ((v.order l).filter fun y => y.1 ≠ n)).job n = some i := hi
  have moved : ((v.setOrder l ((v.order l).filter fun y => y.1 ≠ n)).setJob n (some j)).Fit L P :=
    (left.moveJob hi' off key fun _ => ⟨by rw [engine]; exact exposed.1, by rw [applied]; exact exposed.2⟩).fewer
      fun m hm => ⟨.inl hm, fun e => out (e ▸ hm)⟩
  have target (o : List (Nat × LaneStage)) : (v.setJob n (some j)).setOrder l o =
      ((v.setOrder l ((v.order l).filter fun y => y.1 ≠ n)).setJob n (some j)).setOrder l o :=
    (setOrder_setOrder (v.setJob n (some j)) l _ o).symm
  rw [target]
  refine moved.setOrder l (fun m x hm => ?_) ?_ fun d hd e => ?_
  · obtain ⟨y, hy, e⟩ := List.mem_map.mp hm
    cases e
    by_cases e : y.1 = n
    · rw [if_pos e, e]
      exact ⟨⟨j, Function.update_self .., lane.trans here, state⟩, out⟩
    · rw [if_neg e]
      refine ⟨?_, h.kept fun o => o.order l y.2 hy⟩
      obtain ⟨i', hi', lane', state'⟩ := h.ok.order l y.1 y.2 hy
      exact ⟨i', (Function.update_of_ne e ..).trans hi', lane', state'⟩
  · rw [List.map_map]
    exact h.ok.once l
  · have old := (h.ok.delivery d hd).1
    rw [e] at old
    refine List.mem_map.mpr ⟨_, old, ?_⟩
    rw [if_neg (ungranted d hd e)]

/-! ### The sorter and the racks -/

/-- No delivery. -/
theorem Fit.noDelivery {v : Spots} {L P : Nat → Prop} (h : v.Fit L P) : ({ v with delivery := none } : Spots).Fit L P :=
  ⟨h.ok.noDelivery, fun n hn => ⟨⟨(h.off n hn).1.next, (h.off n hn).1.parked, (h.off n hn).1.cur, (h.off n hn).1.order,
    (h.off n hn).1.rack, (h.off n hn).1.shelf, (h.off n hn).1.mounted⟩, (h.off n hn).2⟩⟩

/-- A granted plate is delivered. -/
theorem Fit.deliver {v : Spots} {L P : Nat → Prop} (h : v.Fit L P) {d : Delivery} (h1 : (d.job, .granted) ∈ v.order d.lane)
    (h2 : ∃ j, v.job d.job = some j ∧ Destined j d.dest) : ({ v with delivery := some d } : Spots).Fit L P :=
  ⟨h.ok.deliver h1 h2, fun n hn => ⟨⟨(h.off n hn).1.next, (h.off n hn).1.parked, (h.off n hn).1.cur, (h.off n hn).1.order,
    (h.off n hn).1.rack, (h.off n hn).1.shelf, (h.off n hn).1.mounted⟩, (h.off n hn).2⟩⟩

/-- Other plates in the racks and on the shelves. -/
theorem Fit.setStacks {v : Spots} {L P : Nat → Prop} (h : v.Fit L P) {r : PosKey → List Nat} {f : PressId → List (Nat × PosId)}
    (hr : ∀ k n, n ∈ r k → v.Is n k .racked ∧ ¬ L n) (hf : ∀ p n q, (n, q) ∈ f p → v.Is n ⟨p, q⟩ .racked ∧ ¬ L n)
    (hs : ∀ k, (r k ++ ((f k.press).filter fun x => x.2 = k.pos).map Prod.fst).Nodup) :
    ({ v with rack := r, shelf := f } : Spots).Fit L P := by
  refine ⟨h.ok.setStacks (fun k n hn => (hr k n hn).1) (fun p n q hn => (hf p n q hn).1) hs, fun n hn => ?_⟩
  obtain ⟨off, live⟩ := h.off n hn
  exact ⟨⟨off.next, off.parked, off.cur, off.order, fun k hk => (hr k n hk).2 hn, fun p q hq => (hf p n q hq).2 hn,
    off.mounted⟩, live⟩

/-- A RACKED plate that stands nowhere is put into the slot of its position. -/
theorem Fit.rack {v : Spots} {L P : Nat → Prop} (h : v.Fit L P) {n : Nat} {k : PosKey} (is : v.Is n k .racked) (off : v.Off n)
    (out : ¬ L n) : ({ v with rack := Function.update v.rack k (v.rack k ++ [n]) } : Spots).Fit L P := by
  refine h.setStacks (f := v.shelf) (fun m i hi => ?_)
    (fun p i q hi => ⟨h.ok.shelves p i q hi, h.kept fun o => o.shelf p q hi⟩) fun m => ?_
  · rw [Function.update_apply] at hi
    split at hi
    next e =>
      subst e
      obtain hi | hi := List.mem_append.mp hi
      · exact ⟨h.ok.racks m i hi, h.kept fun o => o.rack m hi⟩
      · cases List.mem_singleton.mp hi
        exact ⟨is, out⟩
    next => exact ⟨h.ok.racks m i hi, h.kept fun o => o.rack m hi⟩
  · have old := h.ok.stacked m
    rw [Function.update_apply]
    split
    next e =>
      subst e
      have fresh : n ∉ v.rack m ++ ((v.shelf m.press).filter fun x => x.2 = m.pos).map Prod.fst := by
        intro hi
        obtain hi | hi := List.mem_append.mp hi
        · exact off.rack m hi
        · obtain ⟨y, hy, rfl⟩ := List.mem_map.mp hi
          exact off.shelf m.press y.2 (List.mem_filter.mp hy).1
      rw [List.append_assoc, List.singleton_append]
      exact List.nodup_middle.mpr (List.nodup_cons.mpr ⟨fresh, old⟩)
    next => exact old

/-- A RACKED plate that stands nowhere is put onto the shelf of its press. -/
theorem Fit.shelve {v : Spots} {L P : Nat → Prop} (h : v.Fit L P) {n : Nat} {k : PosKey} (is : v.Is n k .racked) (off : v.Off n)
    (out : ¬ L n) :
    ({ v with shelf := Function.update v.shelf k.press (v.shelf k.press ++ [(n, k.pos)]) } : Spots).Fit L P := by
  refine h.setStacks (r := v.rack) (fun m i hi => ⟨h.ok.racks m i hi, h.kept fun o => o.rack m hi⟩)
    (fun p i q hi => ?_) fun m => ?_
  · rw [Function.update_apply] at hi
    split at hi
    next e =>
      subst e
      obtain hi | hi := List.mem_append.mp hi
      · exact ⟨h.ok.shelves _ i q hi, h.kept fun o => o.shelf _ q hi⟩
      · cases List.mem_singleton.mp hi
        exact ⟨is, out⟩
    next => exact ⟨h.ok.shelves p i q hi, h.kept fun o => o.shelf p q hi⟩
  · have old := h.ok.stacked m
    rw [Function.update_apply]
    split
    next e =>
      rw [← e, List.filter_append, List.map_append, ← List.append_assoc, List.nodup_append]
      refine ⟨old, ?_, fun a ha b hb => ?_⟩
      · refine List.Nodup.sublist (List.filter_sublist.map Prod.fst) ?_
        exact List.nodup_singleton _
      · obtain ⟨y, hy, rfl⟩ := List.mem_map.mp hb
        cases List.mem_singleton.mp (List.mem_filter.mp hy).1
        rintro rfl
        obtain hi | hi := List.mem_append.mp ha
        · exact off.rack m hi
        · obtain ⟨z, hz, same⟩ := List.mem_map.mp hi
          exact off.shelf m.press z.2 (same ▸ (List.mem_filter.mp hz).1)
    next => exact old

/-- A plate is taken from its slot and from the shelf of its press. -/
theorem Fit.pull {v : Spots} {L P : Nat → Prop} (h : v.Fit L P) {n : Nat} {k : PosKey} (is : v.Is n k .racked) :
    ({ v with
        rack := Function.update v.rack k ((v.rack k).filter fun m => m ≠ n)
        shelf := Function.update v.shelf k.press ((v.shelf k.press).filter fun x => x.1 ≠ n) } : Spots).Fit
      (fun m => L m ∨ m = n) fun m => P m ∨ m = n := by
  have rack (m : PosKey) : (Function.update v.rack k ((v.rack k).filter fun m => m ≠ n) m).Sublist (v.rack m) := by
    rw [Function.update_apply]
    split
    next e => subst e; exact List.filter_sublist
    next => exact List.Sublist.refl _
  have shelf (p : PressId) :
      (Function.update v.shelf k.press ((v.shelf k.press).filter fun x => x.1 ≠ n) p).Sublist (v.shelf p) := by
    rw [Function.update_apply]
    split
    next e => subst e; exact List.filter_sublist
    next => exact List.Sublist.refl _
  have fit := h.setStacks (r := Function.update v.rack k ((v.rack k).filter fun m => m ≠ n))
    (f := Function.update v.shelf k.press ((v.shelf k.press).filter fun x => x.1 ≠ n))
    (fun m i hi => ⟨h.ok.racks m i ((rack m).subset hi), h.kept fun o => o.rack m ((rack m).subset hi)⟩)
    (fun p i q hi => ⟨h.ok.shelves p i q ((shelf p).subset hi), h.kept fun o => o.shelf p q ((shelf p).subset hi)⟩)
    fun m => (h.ok.stacked m).sublist ((rack m).append (((shelf m.press).filter _).map _))
  refine ⟨fit.ok, fun m hm => ?_⟩
  obtain hm | rfl := hm
  · exact (fit.plates (Q := fun m => P m ∨ m = n) fun _ _ p => .inl p).off m hm
  obtain ⟨j, hj, key, state⟩ := is
  refine ⟨fit.ok.off_by (j := j) hj (fun s => ?_) (fun s => ?_) (fun _ => ⟨fun q hq => ?_, fun p q hq => ?_⟩) fun s => ?_,
    j, hj, by rw [state]; simp, by rw [state]; simp, fun _ => .inr rfl⟩
  · exfalso
    obtain s | s := s <;> simp [state] at s
  · exfalso
    obtain s | s := s <;> simp [state] at s
  · obtain ⟨i, hi, key', -⟩ := h.ok.racks q m ((rack q).subset hq)
    cases hj.symm.trans hi
    have e : q = k := key'.symm.trans key
    subst e
    simp at hq
  · obtain ⟨i, hi, key', -⟩ := h.ok.shelves p m q ((shelf p).subset hq)
    cases hj.symm.trans hi
    have e : p = k.press := by rw [← key, key']
    subst e
    simp at hq
  · simp [state] at s

/-- A delivered plate joins its slot or shelf: its job is RACKED, and its entry has left the lane. -/
theorem Fit.delivered {v : Spots} {L P : Nat → Prop} (h : v.Fit L P) {d : Delivery} (hd : v.delivery = some d) {i j : Job}
    (hi : v.job d.job = some i) (key : j.key = i.key) (state : j.state = .racked) :
    ((({ v with delivery := none } : Spots).setOrder d.lane ((v.order d.lane).filter fun y => y.1 ≠ d.job)).setJob d.job
      (some j)).Fit L P ∧
    ((({ v with delivery := none } : Spots).setOrder d.lane ((v.order d.lane).filter fun y => y.1 ≠ d.job)).setJob d.job
      (some j)).Off d.job ∧ ¬ L d.job := by
  obtain ⟨granted, -⟩ := h.ok.delivery d hd
  have out : ¬ L d.job := h.kept fun o => o.order _ _ granted
  have left := h.noDelivery.leave granted (fun _ e => by cases e)
  have off := (left.off d.job (.inr rfl)).1
  refine ⟨(left.moveJob hi off key fun x => by simp [isExposed, state] at x).fewer fun m hm =>
    ⟨.inl hm, fun e => out (e ▸ hm)⟩, off.setJob _ _, out⟩

/-! ### Presses -/

/-- A pulled plate is mounted; the plate that was mounted is taken out. -/
theorem Fit.mount {v : Spots} {L P : Nat → Prop} (h : v.Fit L P) {n : Nat} {k : PosKey} {i j : Job} {c old : Option Nat}
    (hk : v.work k = some (c, old)) (hi : v.job n = some i) (racked : i.state = .racked) (off : v.Off n)
    (own : i.key = k) (key : j.key = i.key) (state : j.state = .mounted) :
    ((v.setJob n (some j)).setWork k (some (c, some n))).Fit (fun m => (L m ∧ m ≠ n) ∨ old = some m)
      fun m => P m ∨ old = some m := by
  have moved := h.moveJob hi off key fun x => by simp [isExposed, state] at x
  have fit : ((v.setJob n (some j)).setWork k (some (c, some n))).Fit (fun m => L m ∧ m ≠ n) P := by
    refine moved.setWork k (fun c' m hm => ?_) fun m m' hm => ?_
    · cases hm
      exact ⟨⟨j, Function.update_self .., key.trans own, state⟩, fun x => x.2 rfl⟩
    · cases hm
      exact moved.ok.own k m old hk
  refine ⟨fit.ok, fun m hm => ?_⟩
  obtain hm | rfl := hm
  · exact (fit.plates (Q := fun m => P m ∨ old = some m) fun _ _ p => .inl p).off m hm
  obtain ⟨r, hr, key', state'⟩ := h.ok.mounted k c m hk
  have ne : m ≠ n := by
    rintro rfl
    cases hi.symm.trans hr
    simp [racked] at state'
  have hr' : ((v.setJob n (some j)).setWork k (some (c, some n))).job m = some r := (Function.update_of_ne ne ..).trans hr
  refine ⟨fit.ok.off_by (j := r) hr' (fun s => ?_) (fun s => ?_) (fun s => ?_) fun _ q c' hq => ?_, r, hr',
    by rw [state']; simp, by rw [state']; simp, fun _ => .inr rfl⟩
  · exfalso
    obtain s | s := s <;> simp [state'] at s
  · exfalso
    obtain s | s := s <;> simp [state'] at s
  · simp [state'] at s
  · obtain ⟨r', hr'', key'', -⟩ := fit.ok.mounted q c' m hq
    cases hr'.symm.trans hr''
    have e : q = k := key''.symm.trans key'
    subst e
    have self : ((v.setJob n (some j)).setWork q (some (c, some n))).work q = some (c, some n) := Function.update_self ..
    rw [self] at hq
    cases hq
    exact ne rfl

/-- A mounted plate is taken off its press. -/
theorem Fit.unmount {v : Spots} {L P : Nat → Prop} (h : v.Fit L P) {k : PosKey} {c old : Option Nat}
    (hk : v.work k = some (c, old)) : (v.setWork k (some (c, none))).Fit (fun m => L m ∨ old = some m)
      fun m => P m ∨ old = some m := by
  have fit : (v.setWork k (some (c, none))).Fit L P := by
    refine h.setWork k (fun c' m hm => by cases hm) fun m m' hm => ?_
    cases hm
    exact h.ok.own k m old hk
  refine ⟨fit.ok, fun m hm => ?_⟩
  obtain hm | rfl := hm
  · exact (fit.plates (Q := fun m => P m ∨ old = some m) fun _ _ p => .inl p).off m hm
  obtain ⟨r, hr, key, state⟩ := h.ok.mounted k c m hk
  refine ⟨fit.ok.off_by (j := r) hr (fun s => ?_) (fun s => ?_) (fun s => ?_) fun _ q c' hq => ?_, r, hr,
    by rw [state]; simp, by rw [state]; simp⟩
  · exfalso
    obtain s | s := s <;> simp [state] at s
  · exfalso
    obtain s | s := s <;> simp [state] at s
  · simp [state] at s
  · obtain ⟨r', hr', key', -⟩ := fit.ok.mounted q c' m hq
    cases hr.symm.trans hr'
    have e : q = k := key'.symm.trans key
    subst e
    have self : (v.setWork q (some (c, none))).work q = some (c, none) := Function.update_self ..
    rw [self] at hq
    cases hq

/-- A position holds no current job. -/
theorem Fit.vacate {v : Spots} {L P : Nat → Prop} (h : v.Fit L P) {k : PosKey} {c m : Option Nat} (hk : v.work k = some (c, m)) :
    (v.setWork k (some (none, m))).Fit L P := by
  refine h.setWork k (fun c' n hn => ?_) fun n m' hn => by cases hn
  cases hn
  exact ⟨h.ok.mounted k c n hk, h.kept fun o => o.mounted k c hk⟩

/-- A position that holds no job takes a current one of its own. -/
theorem Fit.occupy {v : Spots} {L P : Nat → Prop} (h : v.Fit L P) {k : PosKey} {c m : Option Nat} {n : Nat} {j : Job}
    (hk : v.work k = some (c, m)) (hj : v.job n = some j) (own : j.key = k) : (v.setWork k (some (some n, m))).Fit L P := by
  refine h.setWork k (fun c' i hn => ?_) fun i m' hn => ?_
  · cases hn
    exact ⟨h.ok.mounted k c i hk, h.kept fun o => o.mounted k c hk⟩
  · cases hn
    exact ⟨j, hj, own⟩

/-! ### Resets -/

/-- Engines and lanes without a job, and no delivery. -/
def emptied (v : Spots) : Spots :=
  { v with
    cur := fun _ => none, next := fun _ => none, parked := fun _ => none, order := fun _ => [], delivery := none }

/-- A job in a state whose place is an engine or a lane. -/
abbrev inWork (x : JobState) : Prop := x ∈ [JobState.assigned, .exposing, .developing, .finishing]

/-- The jobs at the engines and in the lanes are taken out of them all. -/
theorem Fit.emptied {v : Spots} {L P : Nat → Prop} (h : v.Fit L P) :
    (Spots.emptied v).Fit (fun n => L n ∨ ∃ j, v.job n = some j ∧ inWork j.state) P := by
  have ok : (Spots.emptied v).Ok :=
    ⟨nofun, nofun, nofun, nofun, nofun, fun _ => List.nodup_nil, h.ok.exposed, nofun, h.ok.racks, h.ok.shelves, h.ok.stacked,
      h.ok.mounted, h.ok.own⟩
  refine ⟨ok, fun n hn => ?_⟩
  obtain hn | ⟨j, hj, state⟩ := hn
  · obtain ⟨off, live⟩ := h.off n hn
    exact ⟨⟨nofun, nofun, nofun, nofun, off.rack, off.shelf, off.mounted⟩, live⟩
  · refine ⟨ok.off_by (j := j) hj (fun _ => ⟨nofun, nofun, nofun⟩) (fun _ => nofun) (fun s => ?_) fun s => ?_, j, hj, atWork ?_⟩
    · simp [inWork, s] at state
    · simp [inWork, s] at state
    · revert state
      cases j.state <;> simp [inWork]

end Spots

end Sys2Proof.Machine
end

section
/-! Writes that leave the places of the jobs, the book, the pages and the counts as they are. -/

namespace Sys2Proof.Machine

open State

/-- Nothing of the jobs, of their places, of the plan, of the pages and slots, or of the press counts has changed; nor does a
lane begin or end its clearing phase. -/
structure Still (s t : State) : Prop where
  jobs : t.jobs = s.jobs
  entries : t.entryCount = s.entryCount
  spots : spots t = spots s
  plan : t.plan = s.plan
  pages : t.pages = s.pages
  slots : t.slots = s.slots
  counts : ∀ p, (t.press p).state = (s.press p).state ∧ (t.press p).positions = (s.press p).positions ∧
    (t.press p).unsatisfied = (s.press p).unsatisfied
  clearing : ∀ l, (t.lane l).clearing = (s.lane l).clearing
  racks : t.racks = s.racks
  stages : Tables s → ∀ p, Table.ordered Fin.val (t.stage p).entries

namespace Still

/-- Still writes keep every table in order. -/
theorem tables {s t : State} (h : Still s t) (o : Tables s) : Tables t :=
  ⟨by rw [h.pages]; exact o.pages, by rw [h.slots]; exact o.slots, by rw [h.plan]; exact o.plan, h.stages o,
    by rw [h.jobs]; exact o.jobs, by rw [h.racks]; exact o.racks⟩

theorem refl (s : State) : Still s s := ⟨rfl, rfl, rfl, rfl, rfl, rfl, fun _ => ⟨rfl, rfl, rfl⟩, fun _ => rfl, rfl, fun o => o.stages⟩

theorem trans {s t u : State} (h : Still s t) (k : Still t u) : Still s u where
  jobs := k.jobs.trans h.jobs
  entries := k.entries.trans h.entries
  spots := k.spots.trans h.spots
  plan := k.plan.trans h.plan
  pages := k.pages.trans h.pages
  slots := k.slots.trans h.slots
  counts := fun p =>
    ⟨(k.counts p).1.trans (h.counts p).1, (k.counts p).2.1.trans (h.counts p).2.1, (k.counts p).2.2.trans (h.counts p).2.2⟩
  clearing := fun l => (k.clearing l).trans (h.clearing l)
  racks := k.racks.trans h.racks
  stages := fun o => k.stages (h.tables o)

theorem foldl {α : Type} {f : State → α → State} (h : ∀ s x, Still s (f s x)) (l : List α) (s : State) :
    Still s (l.foldl f s) := by
  induction l generalizing s with
  | nil => exact refl s
  | cons x l ih => exact (h s x).trans (ih _)

/-- What is not looked at. -/
theorem of_eq {s t : State} (jobs : t.jobs = s.jobs) (entries : t.entryCount = s.entryCount) (engines : t.engines = s.engines)
    (lanes : t.lanes = s.lanes) (delivery : t.sorter.delivery = s.sorter.delivery) (racks : t.racks = s.racks)
    (shelves : t.shelves = s.shelves) (plan : t.plan = s.plan) (pages : t.pages = s.pages) (slots : t.slots = s.slots)
    (presses : t.presses = s.presses)
    (stages : t.stages = s.stages) : Still s t := by
  have lane (l : LaneId) : t.lane l = s.lane l := by unfold State.lane; rw [lanes]
  have press (p : PressId) : t.press p = s.press p := by unfold State.press; rw [presses]
  have engine (e : EngineId) : t.engine e = s.engine e := by unfold State.engine; rw [engines]
  refine ⟨jobs, entries, ?_, plan, pages, slots, fun p => by rw [press p]; exact ⟨rfl, rfl, rfl⟩,
    fun l => by rw [lane l], racks, fun o p => ?_⟩
  rotate_left
  · have stage : t.stage p = s.stage p := by unfold State.stage; rw [stages]
    rw [stage]
    exact o.stages p
  refine Spots.same (fun n => ?_) (fun e => ?_) (fun e => ?_) (fun e => ?_) (fun l => ?_) delivery (fun k => ?_)
    (fun p => ?_) fun k => ?_
  · exact congrArg (fun x => tget x n) jobs
  · exact congrArg (fun x : Engine => x.ctx.current.map CurrentCtx.job) (engine e)
  · exact congrArg (fun x : Engine => waitSpot x.ctx.next) (engine e)
  · exact congrArg (fun x : Engine => waitSpot x.ctx.parked) (engine e)
  · exact congrArg (fun x : Lane => orderSpots x.floor.order) (lane l)
  · exact congrArg (fun x => (tget x k).getD []) racks
  · exact congrArg (fun x : Vector (List (Nat × PosId)) 4 => x[p]) shelves
  · exact congrArg (fun x => workSpots (tget x k)) plan

theorem link (p : PortId) (f : Link → Link) (s : State) : Still s (s.modLink p f) :=
  of_eq rfl rfl rfl rfl rfl rfl rfl rfl rfl rfl rfl rfl

theorem raised (n : Notice) (s : State) : Still s (raise n s) := by
  refine foldl (fun s p => ?_) allPorts s
  unfold offerTo
  split
  · exact link p _ s
  · exact refl s

theorem raisedAll (ns : List Notice) (s : State) : Still s (raiseAll ns s) := foldl (fun s n => raised n s) ns s

theorem sent (c : LineCommand) (s : State) : Still s (s.send c) := of_eq rfl rfl rfl rfl rfl rfl rfl rfl rfl rfl rfl rfl

theorem starved (s : State) : Still s (evalStarved s) := by
  have mark (b : Bool) : Still s (s.setStarved b) := of_eq rfl rfl rfl rfl rfl rfl rfl rfl rfl rfl rfl rfl
  unfold evalStarved
  split
  · split
    · exact refl s
    · exact (mark true).trans (raised _ _)
  · exact mark false

/-- An engine's contexts hold the same jobs at the same stages. -/
theorem ctx {e : EngineId} {f : Contexts → Contexts} {s : State}
    (cur : (f (s.engine e).ctx).current.map CurrentCtx.job = (s.engine e).ctx.current.map CurrentCtx.job)
    (next : waitSpot (f (s.engine e).ctx).next = waitSpot (s.engine e).ctx.next)
    (parked : waitSpot (f (s.engine e).ctx).parked = waitSpot (s.engine e).ctx.parked) : Still s (s.modCtx e f) := by
  refine ⟨rfl, rfl, ?_, rfl, rfl, rfl, fun _ => ⟨rfl, rfl, rfl⟩, fun _ => rfl, rfl, fun o => o.stages⟩
  rw [spots_modCtx, cur, next, parked]
  exact (Machine.spots s).setCtx_same e

theorem status (e : EngineId) (f : EngineStatus → EngineStatus) (s : State) : Still s (s.modStatus e f) := by
  have kept (q : EngineId) : ((s.modStatus e f).engine q).ctx = (s.engine q).ctx := by
    rw [engine_modStatus]
    split <;> rfl
  refine ⟨rfl, rfl, ?_, rfl, rfl, rfl, fun _ => ⟨rfl, rfl, rfl⟩, fun _ => rfl, rfl, fun o => o.stages⟩
  exact Spots.same (fun _ => rfl) (fun q => congrArg (fun c : Contexts => c.current.map CurrentCtx.job) (kept q))
    (fun q => congrArg (fun c : Contexts => waitSpot c.next) (kept q))
    (fun q => congrArg (fun c : Contexts => waitSpot c.parked) (kept q)) (fun _ => rfl) rfl (fun _ => rfl) (fun _ => rfl)
    fun _ => rfl

theorem gates (e : EngineId) (f : Gates → Gates) (s : State) : Still s (s.modGates e f) := by
  have kept (q : EngineId) : ((s.modGates e f).engine q).ctx = (s.engine q).ctx := by
    rw [engine_modGates]
    split <;> rfl
  refine ⟨rfl, rfl, ?_, rfl, rfl, rfl, fun _ => ⟨rfl, rfl, rfl⟩, fun _ => rfl, rfl, fun o => o.stages⟩
  exact Spots.same (fun _ => rfl) (fun q => congrArg (fun c : Contexts => c.current.map CurrentCtx.job) (kept q))
    (fun q => congrArg (fun c : Contexts => waitSpot c.next) (kept q))
    (fun q => congrArg (fun c : Contexts => waitSpot c.parked) (kept q)) (fun _ => rfl) rfl (fun _ => rfl) (fun _ => rfl)
    fun _ => rfl

theorem cassette (e : EngineId) (f : Cassette → Cassette) (s : State) : Still s (s.modCassette e f) := by
  have kept (q : EngineId) : ((s.modCassette e f).engine q).ctx = (s.engine q).ctx := by
    rw [engine_modCassette]
    split <;> rfl
  refine ⟨rfl, rfl, ?_, rfl, rfl, rfl, fun _ => ⟨rfl, rfl, rfl⟩, fun _ => rfl, rfl, fun o => o.stages⟩
  exact Spots.same (fun _ => rfl) (fun q => congrArg (fun c : Contexts => c.current.map CurrentCtx.job) (kept q))
    (fun q => congrArg (fun c : Contexts => waitSpot c.next) (kept q))
    (fun q => congrArg (fun c : Contexts => waitSpot c.parked) (kept q)) (fun _ => rfl) rfl (fun _ => rfl) (fun _ => rfl)
    fun _ => rfl

/-- A lane keeps its order and its clearing flag. -/
theorem lane {l : LaneId} {f : Lane → Lane} {s : State}
    (order : orderSpots (f (s.lane l)).floor.order = orderSpots (s.lane l).floor.order)
    (clearing : (f (s.lane l)).clearing = (s.lane l).clearing) : Still s (s.modLane l f) := by
  refine ⟨rfl, rfl, ?_, rfl, rfl, rfl, fun _ => ⟨rfl, rfl, rfl⟩, fun q => ?_, rfl, fun o => o.stages⟩
  · refine Spots.same (fun _ => rfl) (fun _ => rfl) (fun _ => rfl) (fun _ => rfl) (fun q => ?_) rfl (fun _ => rfl)
      (fun _ => rfl) fun _ => rfl
    show orderSpots ((s.modLane l f).lane q).floor.order = orderSpots (s.lane q).floor.order
    rw [lane_modLane]
    split
    next e => subst e; exact order
    next => rfl
  · rw [lane_modLane]
    split
    next e => subst e; exact clearing
    next => rfl

/-- A lane's order holds the same jobs at the same stages. -/
theorem floor {l : LaneId} {f : LaneFloor → LaneFloor} {s : State}
    (order : orderSpots (f (s.lane l).floor).order = orderSpots (s.lane l).floor.order) : Still s (s.modFloor l f) :=
  lane (f := fun x => { x with floor := f x.floor }) order rfl

theorem laneStopped (l : LaneId) (s : State) : Still s (s.stopLane l) :=
  lane (f := fun x => { x with gates := { x.gates with stopped := true } }) rfl rfl

theorem laneStep (l : LaneId) (s : State) : Still s (s.useLaneStep l) :=
  lane (f := fun x => { x with gates := { x.gates with allowance := false } }) rfl rfl

theorem sorter {f : Sorter → Sorter} {s : State} (h : (f s.sorter).delivery = s.sorter.delivery) : Still s (s.modSorter f) :=
  of_eq rfl rfl rfl rfl h rfl rfl rfl rfl rfl rfl rfl

/-- A press keeps its state and its counts. -/
theorem press {p : PressId} {f : Press → Press} {s : State}
    (h : ∀ x : Press, (f x).state = x.state ∧ (f x).positions = x.positions ∧ (f x).unsatisfied = x.unsatisfied) :
    Still s (s.modPress p f) := by
  refine ⟨rfl, rfl, rfl, rfl, rfl, rfl, fun q => ?_, fun _ => rfl, rfl, fun o => o.stages⟩
  rw [press_modPress]
  split
  · exact h _
  · exact ⟨rfl, rfl, rfl⟩

/-- A staged plan in order. -/
theorem staged {p : PressId} {x : Stage} {s : State} (h : Tables s → Table.ordered Fin.val x.entries) :
    Still s (s.setStage p x) := by
  refine ⟨rfl, rfl, rfl, rfl, rfl, rfl, fun _ => ⟨rfl, rfl, rfl⟩, fun _ => rfl, rfl, fun o q => ?_⟩
  rw [stage_setStage]
  split
  · exact h o
  · exact o.stages q

theorem reached (s : State) : Still s (evalReached s) := by
  have rest (l : LaneId) (s : State) : Still s (restLane l s) := by
    unfold restLane
    split
    · exact laneStopped l s
    · exact refl s
  unfold evalReached
  split
  · dsimp only
    have rested : Still s (restLane 1 (restLane 0 s)) := (rest 0 s).trans (rest 1 _)
    generalize restLane 1 (restLane 0 s) = t at rested ⊢
    have marked : Still t (t.setReached (engineMarks t) (laneMarks t)) := of_eq rfl rfl rfl rfl rfl rfl rfl rfl rfl rfl rfl rfl
    generalize t.setReached (engineMarks t) (laneMarks t) = u at marked ⊢
    split
    · have stopped : Still u u.setStopped := of_eq rfl rfl rfl rfl rfl rfl rfl rfl rfl rfl rfl rfl
      exact ((rested.trans marked).trans stopped).trans (raised _ _)
    · exact rested.trans marked
  · exact refl s

end Still

end Sys2Proof.Machine
end

section
/-! What a command does, deed by deed. A deed is the least change after which the places of the jobs, the page register, the
raster table, the book and the counts of the presses agree again, but for what it leaves open (`Gaps`). Every command is a chain
of deeds (`At`), so what each deed keeps, every step keeps. -/

namespace Sys2Proof.Machine

open State

/-! ### What stands open in the middle of a command -/

/-- What stands open in the middle of a command: jobs that have been taken out of their places and stand nowhere yet, those of
them that were plates of a rack or a press, superseded jobs on their way out of the table, a delivery that has ended,
positions whose standing has not been told yet, positions whose current job has not been told of a change of its pages yet, presses whose plan is being committed, and pages that are being
withdrawn. -/
structure Gaps where
  loose : Nat → Prop
  plates : Nat → Prop
  doomed : Nat → Prop
  spent : Bool
  untold : PosKey → Prop
  behind : PosKey → Prop
  press : PressId → Prop
  page : Nat → Prop

namespace Gaps

/-- Nothing stands open. -/
def closed : Gaps := ⟨fun _ => False, fun _ => False, fun _ => False, false, fun _ => False, fun _ => False, fun _ => False, fun _ => False⟩

/-- Jobs are taken out of their places. -/
def take (g : Gaps) (M : Nat → Prop) : Gaps := { g with loose := fun n => g.loose n ∨ M n }

/-- Plates are taken out of their places. -/
def pull (g : Gaps) (M : Nat → Prop) : Gaps := { g.take M with plates := fun n => g.plates n ∨ M n }

/-- A job that had been taken out stands in a place or in its queue again. -/
def settle (g : Gaps) (n : Nat) : Gaps :=
  { g with loose := fun m => g.loose m ∧ m ≠ n, plates := fun m => g.plates m ∧ m ≠ n }

/-- A job has left the table. -/
def ended (g : Gaps) (n : Nat) : Gaps := { g.settle n with doomed := fun m => g.doomed m ∧ m ≠ n }

/-- The standing of positions is to be told. -/
def untell (g : Gaps) (M : PosKey → Prop) : Gaps := { g with untold := fun k => g.untold k ∨ M k }

/-- The standing of a position has been told. -/
def told (g : Gaps) (k : PosKey) : Gaps := { g with untold := fun q => g.untold q ∧ q ≠ k }

/-- The pages of positions have changed. -/
def fallBehind (g : Gaps) (M : PosKey → Prop) : Gaps := { g with behind := fun k => g.behind k ∨ M k }

/-- A position has no current job that its pages could have left behind. -/
def caught (g : Gaps) (k : PosKey) : Gaps := { g with behind := fun q => g.behind q ∧ q ≠ k }

end Gaps

/-! ### Changes of several writes -/

/-- The next job of an engine moves to current, and is EXPOSING; a parked job moves to next (R83, R87). -/
def startsAt (e : EngineId) (u : WaitingCtx) (s : State) : State :=
  (s.modCtx e fun c => Contexts.parkedReturn { c with current := some ⟨u.job, s.limits.expose, u.cut⟩, next := none }).modJob
    u.job fun j => { j with state := .exposing }

/-- The current job of an engine moves to the order of its lane, and is DEVELOPING (R88). -/
def developsAt (e : EngineId) (n : Nat) (s : State) : State :=
  ((releaseRefs ((s.job? n).map Job.slots |>.getD []) (s.modCtx e fun c => { c with current := none })).modJob n fun j =>
      { j with state := .developing, lane := some (laneFed e) }).modFloor (laneFed e) fun f =>
    { f with order := f.order ++ [⟨n, .inDeveloper, some (s.lane (laneFed e)).transit⟩] }

/-- A plate goes to the punch, and its job is FINISHING (R119). -/
def passesAt (l : LaneId) (n : Nat) (s : State) : State :=
  (s.modFloor l fun f => { f with order := f.order.map fun x =>
      if x.job = n then { x with stage := .punching, timer := none } else x }).modJob n fun x => { x with state := .finishing }

/-- A plate is granted and delivered (R127). -/
def grantsAt (l : LaneId) (n : Nat) (j : Job) (d : Destination) (s : State) : State :=
  (s.setDelivery (some ⟨l, n, j.attempt, d⟩)).modFloor l fun f =>
    { f with order := markStage n .granted f.order, blocked := false }

/-- A delivered plate's job is RACKED, and its entry leaves the lane (R129). -/
def landsAt (l : LaneId) (n : Nat) (s : State) : State := dropEntry l n (s.modJob n fun x => { x with state := .racked })

/-- A plate is taken from its slot or shelf and mounted (R138). -/
def mountsAt (k : PosKey) (n : Nat) (s : State) : State :=
  ((takePlate k n s).modJob n fun j => { j with state := .mounted }).modWork k fun w => { w with mounted := some n }

/-- The current job of a position is superseded (R59). -/
def flagsAt (k : PosKey) (n : Nat) (j : Job) (s : State) : State :=
  (s.modJob n fun x => { x with superseded := true }).modWork k fun w =>
    { w with current := none, remake := w.remake || marksRemake j }

/-- A position names a page. -/
def Names (s : State) (n : Nat) (k : PosKey) : Prop := ∃ x, s.pos? k = some x ∧ n ∈ x.content.pages

/-- A position requires a page. -/
def Requires (s : State) (n : Nat) (k : PosKey) : Prop :=
  ∃ x, s.pos? k = some x ∧ n ∈ x.content.pages ∧ needsPage s x.content.sep n = true

/-- The engines and the lanes have been emptied, the sorter is free, and every lane is clearing (R95, R111, R125). -/
structure Emptied (s t : State) : Prop where
  jobs : t.jobs = s.jobs
  entries : t.entryCount = s.entryCount
  spots : spots t = (spots s).emptied
  plan : t.plan = s.plan
  pages : t.pages = s.pages
  slots : t.slots = s.slots
  counts : ∀ p, (t.press p).state = (s.press p).state ∧ (t.press p).positions = (s.press p).positions ∧
    (t.press p).unsatisfied = (s.press p).unsatisfied
  clearing : ∀ l, (t.lane l).clearing = true
  racks : t.racks = s.racks
  stages : t.stages = s.stages

/-- The contexts of an engine hold fewer jobs than they held. -/
def CtxFewer (c c' : Contexts) : Prop :=
  Spots.Less (c.current.map CurrentCtx.job) (waitSpot c.next) (waitSpot c.parked) (c'.current.map CurrentCtx.job)
    (waitSpot c'.next) (waitSpot c'.parked)

/-- A job is in a context of an engine. -/
def Contexts.has (c : Contexts) (n : Nat) : Prop :=
  Spots.HeldAt (c.current.map CurrentCtx.job) (waitSpot c.next) (waitSpot c.parked) n

/-! ### The deeds -/

/-- One thing that a command does, and what it opens and closes. `w` says that it is known that no job stands in two places, and
`c` that no position with a current job is deferred. -/
inductive Deed (w c : Prop) : Gaps × State → Gaps × State → Prop
  | blind (g g' : Gaps) (s : State) (hw : ¬ w) : Deed w c (g, s) (g', s)
  | still {g : Gaps} {s t : State} (h : Still s t) : Deed w c (g, s) (g, t)
  -- the dispatcher
  | assign (g : Gaps) (s : State) (e : EngineId) (n : Nat) (j : Job) (hj : s.job? n = some j) (hq : j.state = .queued)
      (hn : (s.engine e).ctx.next = none) : Deed w c (g, s) (g, assign e n j s)
  | park (g : Gaps) (s : State) (e : EngineId) (u : WaitingCtx) (hu : (s.engine e).ctx.next = some u)
      (hs : u.stage ≠ .exposeSent) (hp : (s.engine e).ctx.parked = none) :
      Deed w c (g, s) (g, s.modCtx e fun c => { c with parked := c.next, next := none })
  | expose (g : Gaps) (s : State) (e : EngineId) (u : WaitingCtx) (hu : (s.engine e).ctx.next = some u)
      (h : s.exposeReady e = true) (hr : s.laneRoom (laneFed e) = true) : Deed w c (g, s) (g, sendExpose e s)
  -- jobs
  | create (g : Gaps) (s : State) (k : PosKey) (x : Position) (hx : s.pos? k = some x) (hn : needsJob s x = true)
      (hl : s.jobs.length < Config.liveJobs) : Deed w c (g, s) (g, createJob k x s)
  | defer (g : Gaps) (s : State) (k : PosKey) (b : Bool)
      (h : b = true → ∀ x, s.pos? k = some x → x.work.current = none) :
      Deed w c (g, s) (g, s.modWork k fun x => { x with deferred := b })
  | tell (g : Gaps) (s : State) (k : PosKey) : Deed w c (g, s) (g.told k, tellSatisfied k s)
  | core (g : Gaps) (s : State) (n : Nat) (j : Job) (t : JobState) (ht : t = .retired ∨ t = .cancelled ∨ t = .discarded)
      (hj : s.job? n = some j) (ho : w → (spots s).Off n) : Deed w c (g, s) (g.ended n, departCore n t s)
  | note (g : Gaps) (s : State) (n : Nat) (f : Job → Job)
      (hf : ∀ j, f j = { j with cls := (f j).cls, lastFault := (f j).lastFault }) : Deed w c (g, s) (g, s.modJob n f)
  | queue (g : Gaps) (s : State) (n a : Nat) (j : Job) (hj : s.job? n = some j) (ho : w → (spots s).Off n)
      (hs : j.superseded = false ∨ j.state = .failed) (hr : w → j.state ≠ .racked ∧ j.state ≠ .mounted)
      (hb : ∀ k, ¬ g.behind k) : Deed w c (g, s) (g.settle n, enterQueue n a (retakeRefs j s))
  | fail (g : Gaps) (s : State) (n : Nat) (j : Job) (hj : s.job? n = some j) (ho : w → (spots s).Off n)
      (hs : j.superseded = false) (hr : w → j.state ≠ .racked ∧ j.state ≠ .mounted) (hb : ∀ k, ¬ g.behind k) :
      Deed w c (g, s) (g.settle n, (retakeRefs j s).modJob n fun x => { x with state := .failed })
  -- engines
  | fewer (g : Gaps) (s : State) (e : EngineId) (f : Contexts → Contexts) (M : Nat → Prop)
      (hl : CtxFewer (s.engine e).ctx (f (s.engine e).ctx))
      (hM : w → ∀ n, M n → (s.engine e).ctx.has n ∧ ¬ (f (s.engine e).ctx).has n) : Deed w c (g, s) (g.take M, s.modCtx e f)
  | loaded (g : Gaps) (s : State) (e : EngineId) (n : Nat) :
      Deed w c (g, s) (g, s.modCtx e fun c => { c with next := markLoaded n c.next, parked := markLoaded n c.parked })
  | start (g : Gaps) (s : State) (e : EngineId) (u : WaitingCtx) (hu : (s.engine e).ctx.next = some u)
      (hs : u.stage = .exposeSent) : Deed w c (g, s) (g, startsAt e u s)
  | develop (g : Gaps) (s : State) (e : EngineId) (u : CurrentCtx) (hu : (s.engine e).ctx.current = some u) :
      Deed w c (g, s) (g, developsAt e u.job s)
  -- lanes
  | leave (g : Gaps) (s : State) (l : LaneId) (n : Nat)
      (hy : w → ∃ y ∈ (s.lane l).floor.order, y.job = n ∧ (g.spent = true ∨ y.stage ≠ .granted)) :
      Deed w c (g, s) (g.take fun m => m = n, dropEntry l n s)
  | pass (g : Gaps) (s : State) (l : LaneId) (n : Nat)
      (hy : w → ∃ y ∈ (s.lane l).floor.order, y.job = n ∧ y.stage = .inDeveloper) :
      Deed w c (g, s) (g, passesAt l n s)
  | reclaim (g : Gaps) (s : State) (l : LaneId) (n : Nat) (j : Job) (st : JobState) (x : LaneStage) (hj : s.job? n = some j)
      (hu : j.state = .uncertain) (hl : j.lane = some l) (out : ¬ g.loose n)
      (hst : (st, x) = (.developing, .inDeveloper) ∨ (st, x) = (.finishing, .atExit)) :
      Deed w c (g, s) (g, reclaim l n st x s)
  | mark (g : Gaps) (s : State) (l : LaneId) (n : Nat) (st : LaneStage) (f : LaneFloor → LaneFloor)
      (hf : (f (s.lane l).floor).order = markStage n st (s.lane l).floor.order) (hst : st ≠ .inDeveloper)
      (hy : w → ∀ y ∈ (s.lane l).floor.order, y.job = n → y.stage ≠ .inDeveloper ∧ y.stage ≠ .granted) :
      Deed w c (g, s) (g, s.modFloor l f)
  -- the sorter and the racks
  | grant (g : Gaps) (s : State) (l : LaneId) (n : Nat) (j : Job) (d : Destination) (hd : s.sorter.delivery = none)
      (hj : s.job? n = some j) (hy : ∃ y ∈ (s.lane l).floor.order, y.job = n ∧ y.stage = .atExit)
      (hx : s.destinationOf j = some d) : Deed w c (g, s) (g, grantsAt l n j d s)
  | rack (g : Gaps) (s : State) (d : Delivery) (p : PressId) (q : PosId) (j : Job) (hd : s.sorter.delivery = some d)
      (hx : d.dest = .rackSlot p q) (hj : s.job? d.job = some j) (hs : g.spent = false) :
      Deed w c (g, s) ({ g.untell fun k => k = j.key ∧ j.superseded = false with spent := true },
        landsAt d.lane d.job (s.setRack ⟨p, q⟩ (s.rack ⟨p, q⟩ ++ [d.job])))
  | shelve (g : Gaps) (s : State) (d : Delivery) (p : PressId) (j : Job) (hd : s.sorter.delivery = some d)
      (hx : d.dest = .shelf p) (hj : s.job? d.job = some j) (hs : g.spent = false) :
      Deed w c (g, s) ({ g.untell fun k => k = j.key ∧ j.superseded = false with spent := true },
        landsAt d.lane d.job (s.setShelf p (s.shelf p ++ [(d.job, j.pos)])))
  | spend (g : Gaps) (s : State) : Deed w c (g, s) ({ g with spent := true }, s)
  | finish (g : Gaps) (s : State) : Deed w c (g, s) ({ g with spent := false }, s.setDelivery none)
  | pull (g : Gaps) (s : State) (k : PosKey) (n : Nat) (is : w → (spots s).Is n k .racked) :
      Deed w c (g, s) (g.pull fun m => m = n, takePlate k n s)
  -- presses
  | mount (g : Gaps) (s : State) (k : PosKey) (x : Position) (n : Nat) (j : Job) (hx : s.pos? k = some x)
      (hc : x.work.current = some n) (hj : s.job? n = some j) (hr : j.state = .racked) (out : ¬ g.loose n) :
      Deed w c (g, s) (g.pull fun m => x.work.mounted = some m, mountsAt k n s)
  | unmount (g : Gaps) (s : State) (k : PosKey) (x : Position) (hx : s.pos? k = some x) :
      Deed w c (g, s) (g.pull fun m => x.work.mounted = some m, s.modWork k fun y => { y with mounted := none })
  | pressState (g : Gaps) (s : State) (p : PressId) (st : PressState)
      (h : st = .running ∨ st = stateOfCounts (s.press p).positions (s.press p).unsatisfied) :
      Deed w c (g, s) (g, s.setPressState p st)
  -- superseding
  | flag (g : Gaps) (s : State) (k : PosKey) (x : Position) (n : Nat) (j : Job) (hx : s.pos? k = some x)
      (hc : x.work.current = some n) (hj : s.job? n = some j) :
      Deed w c (g, s) ({ g.untell fun q => q = k with
          doomed := fun m => g.doomed m ∨ (m = n ∧ (j.state = .queued ∨ j.state = .failed)) }, flagsAt k n j s)
  | caught (g : Gaps) (s : State) (k : PosKey) (h : w → c → ∀ x, s.pos? k = some x → x.work.current = none) :
      Deed w c (g, s) (g.caught k, s)
  -- pages
  | arrive (g : Gaps) (s : State) (n v : Nat) (cl : ColourClass) (x : Separation) (a : SepSet) (live : Nat) (ref : U64)
      (hl : live = ((s.page? n).map PageRec.liveJobs).getD 0) (h : c → ArrivalFinds s n v cl x a live)
      (hm : cl = .mono → x = .k) (out : ¬ g.page n) :
      Deed w c (g, s) (g.untell (Names s n), writeArrival n v cl a x ref live s)
  | renew (g : Gaps) (s : State) (n old v : Nat) (cl : ColourClass) (x : Separation) (r : PageRec) (ref : U64)
      (hr : s.page? n = some r) (hs : r.state ≠ .expected) (hv : r.version = some old) (hlt : old < v)
      (hm : cl = .mono → x = .k) (out : ¬ g.page n) :
      Deed w c (g, s) ((g.untell (Names s n)).fallBehind (Names s n),
        writeArrival n v cl SepSet.empty x ref r.liveJobs (clearAllCurrent n s))
  | strip (g : Gaps) (s : State) (n : Nat) (r : PageRec) (hr : s.page? n = some r) (hs : r.state ≠ .withdrawn) :
      Deed w c (g, s) ({ g.fallBehind (Requires s n) with page := fun m => g.page m ∨ m = n },
        (clearAllCurrent n s).putPage n { r with arrived := SepSet.empty })
  | withdraw (g : Gaps) (s : State) (n : Nat) (r : PageRec) (hr : s.page? n = some r) (hp : g.page n) (hl : r.liveJobs ≠ 0) :
      Deed w c (g, s) ({ g with page := fun m => g.page m ∧ m ≠ n }, s.putPage n { r with state := .withdrawn })
  | remove (g : Gaps) (s : State) (n : Nat) (r : PageRec) (hr : s.page? n = some r) (hp : g.page n) (hl : r.liveJobs = 0) :
      Deed w c (g, s) ({ g.untell (Names s n) with page := fun m => g.page m ∧ m ≠ n }, removePage n r s)
  | expect (g : Gaps) (s : State) (n : Nat) (h : s.page? n = none) : Deed w c (g, s) (g, s.putPage n expectedPage)
  | blot (g : Gaps) (s : State) (k : SlotKey) (f : Slot → Slot)
      (hf : ∀ x, (f x).count = x.count ∧ (f x).current = x.current) : Deed w c (g, s) (g, s.modSlot k f)
  -- the plan
  | hold (g : Gaps) (s : State) (k : PosKey) (b : Bool) : Deed w c (g, s) (g, s.modPos k fun y => { y with held := b })
  | commit (g : Gaps) (s : State) (p : PressId) : Deed w c (g, s) ({ g with press := fun q => g.press q ∨ q = p }, s)
  | content (g : Gaps) (s : State) (k : PosKey) (con : Content) (edition : Nat)
      (h : w → c → ∀ x, s.pos? k = some x → x.work.current = none) (hp : g.press k.press) :
      Deed w c (g, s) (g, s.modPos k fun x => { x with content := con, edition := edition })
  | add (g : Gaps) (s : State) (k : PosKey) (x : Position) (h : s.pos? k = none)
      (hw : x.work.current = none ∧ x.work.mounted = none ∧ x.work.deferred = false) (hp : g.press k.press) :
      Deed w c (g, s) (g, s.putPos k x)
  | drop (g : Gaps) (s : State) (k : PosKey) (h : ∀ x, s.pos? k = some x → x.work.mounted = none)
      (hc : w → c → ∀ x, s.pos? k = some x → x.work.current = none) (hp : g.press k.press) : Deed w c (g, s) (g, s.dropPos k)
  | recount (g : Gaps) (s : State) (p : PressId) :
      Deed w c (g, s) ({ g with press := fun q => g.press q ∧ q ≠ p }, refreshCounts p s)
  -- restarts
  | reopen (g : Gaps) (s : State) (l : LaneId) :
      Deed w c (g, s) (g.take fun n => ∃ j, s.job? n = some j ∧ j.state = .uncertain ∧ j.lane = some l, clearClearing l s)
  | empty {s t : State} (h : Emptied s t) (hb : w → Housed s) :
      Deed w c (Gaps.closed, s) (Gaps.closed.take fun n => ∃ j, s.job? n = some j ∧ Spots.inWork j.state, t)
  | lose (g : Gaps) (s : State) (n : Nat) (j : Job) (hj : s.job? n = some j) (hs : j.state = .exposing)
      (ho : w → (spots s).Off n) (hc : ∀ l, (s.lane l).clearing = true) :
      Deed w c (g, s) (g.settle n, s.modJob n fun x => { x with state := .uncertain, lane := laneOfExposing j })
  | strand (g : Gaps) (s : State) (n : Nat) (j : Job) (hj : s.job? n = some j)
      (hs : j.state = .developing ∨ j.state = .finishing) (hx : j.superseded = false)
      (ho : w → (spots s).Off n) (hc : ∀ l, (s.lane l).clearing = true) (hb : ∀ k, ¬ g.behind k) :
      Deed w c (g, s) (g.settle n, (takeRefs j.slots s).modJob n fun x => { x with state := .uncertain })
  | restart (g : Gaps) (s : State) :
      Deed w c (g, s) (Gaps.closed, { State.reset with lineSent := s.lineSent, deskSent := s.deskSent, pending := s.pending })

end Sys2Proof.Machine
end

section
/-! Every deed keeps every table in order. -/

namespace Sys2Proof.Machine

open State

/-! ### Writes -/

namespace Tables

variable {s : State}

theorem modJob (o : Tables s) (n : Nat) (f : Job → Job) : Tables (s.modJob n f) :=
  ⟨o.pages, o.slots, o.plan, o.stages, ordered_tmod _ _ o.jobs, o.racks⟩

theorem modPos (o : Tables s) (k : PosKey) (f : Position → Position) : Tables (s.modPos k f) :=
  ⟨o.pages, o.slots, ordered_tmod _ _ o.plan, o.stages, o.jobs, o.racks⟩

theorem modWork (o : Tables s) (k : PosKey) (f : PosWork → PosWork) : Tables (s.modWork k f) :=
  ⟨o.pages, o.slots, ordered_tmod k (fun x : Position => { x with work := f x.work }) o.plan, o.stages, o.jobs, o.racks⟩

theorem putPage (o : Tables s) (n : Nat) (r : PageRec) : Tables (s.putPage n r) :=
  ⟨ordered_tput _ _ o.pages, o.slots, o.plan, o.stages, o.jobs, o.racks⟩

theorem modCtx (o : Tables s) (e : EngineId) (f : Contexts → Contexts) : Tables (s.modCtx e f) :=
  ⟨o.pages, o.slots, o.plan, o.stages, o.jobs, o.racks⟩

theorem modFloor (o : Tables s) (l : LaneId) (f : LaneFloor → LaneFloor) : Tables (s.modFloor l f) :=
  ⟨o.pages, o.slots, o.plan, o.stages, o.jobs, o.racks⟩

theorem setShelf (o : Tables s) (p : PressId) (l : List (Nat × PosId)) : Tables (s.setShelf p l) :=
  ⟨o.pages, o.slots, o.plan, o.stages, o.jobs, o.racks⟩

theorem setDelivery (o : Tables s) (d : Option Delivery) : Tables (s.setDelivery d) :=
  ⟨o.pages, o.slots, o.plan, o.stages, o.jobs, o.racks⟩

theorem send (o : Tables s) (c : LineCommand) : Tables (s.send c) := ⟨o.pages, o.slots, o.plan, o.stages, o.jobs, o.racks⟩

theorem bumpEntry (o : Tables s) : Tables s.bumpEntry := ⟨o.pages, o.slots, o.plan, o.stages, o.jobs, o.racks⟩

/-- Reactions keep every table in order. -/
theorem reacts {t : State} (o : Tables s) (h : Reacts AnyJob s t) : Tables t := AnyChanges.tables o h.changes.any

/-- The work of the owning blocks keeps every table in order. -/
theorem works {t : State} (o : Tables s) (h : Works s t) : Tables t := AnyChanges.tables o h.changes.any

theorem takeRefs (o : Tables s) (ks : List SlotKey) : Tables (takeRefs ks s) := o.reacts (takeRefs_reacts ks s)

theorem releaseRefs (o : Tables s) (ks : List SlotKey) : Tables (releaseRefs ks s) := o.reacts (releaseRefs_reacts ks s)

theorem retakeRefs (o : Tables s) (j : Job) : Tables (retakeRefs j s) := o.reacts (retakeRefs_reacts j s)

theorem takePlate (o : Tables s) (k : PosKey) (n : Nat) : Tables (takePlate k n s) :=
  (setRack_tables k _ o).setShelf _ _

theorem writeArrival (o : Tables s) (n v : Nat) (c : ColourClass) (a : SepSet) (x : Separation) (ref : U64) (live : Nat) :
    Tables (writeArrival n v c a x ref live s) :=
  ⟨ordered_tput _ _ o.pages, ordered_tput _ _ o.slots, o.plan, o.stages, o.jobs, o.racks⟩

end Tables

/-! ### Deeds -/

/-- Every deed keeps every table in order. -/
theorem Deed.tables {w c : Prop} {g g' : Gaps} {s t : State} (h : Deed w c (g, s) (g', t)) (o : Tables s) : Tables t := by
  cases h with
  | blind => exact o
  | still h => exact h.tables o
  | assign _ _ e n j =>
    unfold Machine.assign
    exact ((o.modCtx e _).modJob n _).send _
  | park _ _ e => exact o.modCtx e _
  | expose _ _ e u hu =>
    show Tables (sendExpose e s)
    rw [sendExpose, hu]
    exact ((o.modCtx e _).modJob u.job _).send _
  | create _ _ k x hx hn hl => exact o.reacts (createJob_reacts k x s hl)
  | defer _ _ k => exact o.modWork k _
  | tell _ _ k => exact o.reacts (tellSatisfied_reacts k s)
  | core _ _ n j t ht =>
    refine o.reacts (departCore_reacts n t s ?_)
    rintro rfl
    rcases ht with h | h | h <;> cases h
  | note _ _ n f => exact o.modJob n f
  | queue _ _ n a j =>
    unfold enterQueue
    exact (o.retakeRefs j).bumpEntry.modJob n _
  | fail _ _ n j => exact (o.retakeRefs j).modJob n _
  | fewer _ _ e f => exact o.modCtx e f
  | loaded _ _ e => exact o.modCtx e _
  | start _ _ e u => exact (o.modCtx e _).modJob u.job _
  | develop _ _ e u => exact (((o.modCtx e _).releaseRefs _).modJob u.job _).modFloor _ _
  | leave _ _ l => exact o.modFloor l _
  | pass _ _ l n => exact (o.modFloor l _).modJob n _
  | reclaim _ _ l n j st =>
    unfold Machine.reclaim
    exact ((o.releaseRefs _).modJob n _).modFloor l _
  | mark _ _ l n st f => exact o.modFloor l f
  | grant _ _ l => exact (o.setDelivery _).modFloor l _
  | rack _ _ d p q =>
    unfold landsAt dropEntry
    exact ((setRack_tables _ _ o).modJob _ _).modFloor _ _
  | shelve _ _ d p =>
    unfold landsAt dropEntry
    exact ((o.setShelf _ _).modJob _ _).modFloor _ _
  | spend _ _ => exact o
  | finish _ _ => exact o.setDelivery none
  | pull _ _ k n => exact o.takePlate k n
  | mount _ _ k x n => exact ((o.takePlate k n).modJob n _).modWork k _
  | unmount _ _ k => exact o.modWork k _
  | pressState _ _ p => exact ⟨o.pages, o.slots, o.plan, o.stages, o.jobs, o.racks⟩
  | flag _ _ k x n => exact (o.modJob n _).modWork k _
  | caught _ _ => exact o
  | arrive _ _ n v c x a live ref => exact o.writeArrival n v c a x ref live
  | renew _ _ n old v c x r ref => exact (clearAllCurrent_tables n o).writeArrival n v c _ x ref _
  | strip _ _ n r => exact (clearAllCurrent_tables n o).putPage n _
  | withdraw _ _ n r => exact o.putPage n _
  | remove _ _ n r => exact o.works (removePage_works n r s)
  | expect _ _ n => exact o.putPage n _
  | blot _ _ k f => exact ⟨o.pages, ordered_tmod k f o.slots, o.plan, o.stages, o.jobs, o.racks⟩
  | hold _ _ k => exact o.modPos k _
  | commit _ _ => exact o
  | content _ _ k => exact o.modPos k _
  | add _ _ k x => exact ⟨o.pages, o.slots, ordered_tput _ _ o.plan, o.stages, o.jobs, o.racks⟩
  | drop _ _ k => exact ⟨o.pages, o.slots, ordered_tdel _ o.plan, o.stages, o.jobs, o.racks⟩
  | recount _ _ p => exact o.works (refreshCounts_works p s)
  | reopen _ _ l => exact ⟨o.pages, o.slots, o.plan, o.stages, o.jobs, o.racks⟩
  | empty h =>
    have jobs := h.jobs
    exact ⟨by rw [h.pages]; exact o.pages, by rw [h.slots]; exact o.slots, by rw [h.plan]; exact o.plan,
      fun p => by unfold State.stage; rw [h.stages]; exact o.stages p, by rw [h.jobs]; exact o.jobs,
      by rw [h.racks]; exact o.racks⟩
  | lose _ _ n => exact o.modJob n _
  | strand _ _ n j => exact (o.takeRefs _).modJob n _
  | restart _ _ => exact reset_tables s

end Sys2Proof.Machine
end

section
/-! Writes of the page register and the raster table alone, and the parts of a departure. -/

namespace Sys2Proof.Machine

open State

/-! ### The page register and the raster table -/

/-- Only the page register and the raster table are written, and what the ports hold and the colour-starved mark. -/
def RegistersOnly (s t : State) : Prop :=
  t = { s with pages := t.pages, slots := t.slots, starved := t.starved, ports := t.ports }

namespace RegistersOnly

theorem refl (s : State) : RegistersOnly s s := rfl

theorem trans {s t u : State} (h : RegistersOnly s t) (k : RegistersOnly t u) : RegistersOnly s u := by
  unfold RegistersOnly at h k
  rw [h] at k
  exact k

theorem foldl {α : Type} {f : State → α → State} (h : ∀ s x, RegistersOnly s (f s x)) (l : List α) (s : State) :
    RegistersOnly s (l.foldl f s) := by
  induction l generalizing s with
  | nil => exact refl s
  | cons x l ih => exact (h s x).trans (ih _)

theorem raised (n : Notice) (s : State) : RegistersOnly s (raise n s) := by
  refine foldl (fun s p => ?_) allPorts s
  unfold offerTo
  split
  · exact rfl
  · exact refl s

theorem raisedAll (ns : List Notice) (s : State) : RegistersOnly s (raiseAll ns s) := foldl (fun s n => raised n s) ns s

theorem starved (s : State) : RegistersOnly s (evalStarved s) := by
  have mark (b : Bool) : RegistersOnly s (s.setStarved b) := rfl
  unfold evalStarved
  split
  · split
    · exact refl s
    · exact (mark true).trans (raised _ _)
  · exact mark false

theorem taken (ks : List SlotKey) (s : State) : RegistersOnly s (takeRefs ks s) := by
  obtain ⟨v, h⟩ := takeRefs_slots ks s
  rw [h]
  exact rfl

theorem released (ks : List SlotKey) (s : State) : RegistersOnly s (releaseRefs ks s) := by
  obtain ⟨v, h⟩ := releaseRefs_slots ks s
  rw [h]
  exact rfl

theorem retaken (j : Job) (s : State) : RegistersOnly s (retakeRefs j s) := by
  unfold retakeRefs
  split
  · exact refl s
  · exact taken _ s

theorem cleared (n : Nat) (s : State) : RegistersOnly s (clearAllCurrent n s) := by
  refine foldl (fun s k => ?_) _ s
  have unmarked : RegistersOnly s (s.modSlot k fun x => { x with current := false }) := rfl
  unfold clearCurrent freeIfDone
  generalize s.modSlot k (fun x => { x with current := false }) = t at unmarked ⊢
  split
  · split
    · have freed : RegistersOnly t (t.dropSlot k) := rfl
      exact unmarked.trans freed
    · exact unmarked
  · exact unmarked

theorem put (n : Nat) (r : PageRec) (s : State) : RegistersOnly s (s.putPage n r) := rfl

theorem removed (n : Nat) (r : PageRec) (s : State) : RegistersOnly s (removePage n r s) := by
  have freed := foldl (f := fun s k => State.dropSlot k s) (fun s k => rfl) (slotsOfPage s n) s
  unfold removePage
  dsimp only
  generalize (slotsOfPage s n).foldl (fun s k => State.dropSlot k s) s = t at freed ⊢
  have dropped : RegistersOnly t (t.dropPage n) := rfl
  exact (freed.trans dropped).trans (raised _ _)

theorem lowered (n : Nat) (s : State) : RegistersOnly s (lowerLive n s) := by
  have fewer : RegistersOnly s (s.modLive n (· - 1)) := rfl
  unfold lowerLive
  dsimp only
  generalize s.modLive n (· - 1) = t at fewer ⊢
  split
  · split
    · exact fewer.trans (removed n _ t)
    · exact fewer
  · exact fewer

theorem arrived (n v : Nat) (c : ColourClass) (a : SepSet) (x : Separation) (ref : U64) (live : Nat) (s : State) :
    RegistersOnly s (writeArrival n v c a x ref live s) := rfl

variable {s t : State}

theorem jobs (h : RegistersOnly s t) : t.jobs = s.jobs := by rw [h]

theorem plan (h : RegistersOnly s t) : t.plan = s.plan := by rw [h]

theorem entries (h : RegistersOnly s t) : t.entryCount = s.entryCount := by rw [h]

theorem presses (h : RegistersOnly s t) : t.presses = s.presses := by rw [h]

theorem spots (h : RegistersOnly s t) : spots t = spots s := by
  rw [h]
  exact rfl

end RegistersOnly

/-- A standing that is told moves no job. -/
theorem spots_tellSatisfied (k : PosKey) (s : State) : spots (tellSatisfied k s) = spots s := by
  obtain ⟨v, w, p, h⟩ := tellSatisfied_parts k s
  have work (m : PosKey) : workSpots ((tellSatisfied k s).pos? m) = workSpots (s.pos? m) := by
    rw [pos?_tellSatisfied]
    split
    · cases s.pos? m <;> rfl
    · rfl
  generalize tellSatisfied k s = t at h work
  refine Spots.same (fun n => ?_) (fun e => ?_) (fun e => ?_) (fun e => ?_) (fun l => ?_) ?_ (fun m => ?_) (fun p => ?_)
    fun m => work m
  all_goals rw [h]; rfl

/-- A job that is created joins the table, and is the current job of its position. -/
theorem spots_createJob (k : PosKey) (x : Position) (s : State) : spots (createJob k x s) =
    ((spots s).setJob (nextNumber s) (some (newJob s k x))).setWork k
      ((workSpots (s.pos? k)).map fun w => (some (nextNumber s), w.2)) := by
  obtain ⟨v, w, h⟩ := createJob_eq k x s
  rw [h, (RegistersOnly.raised _ _).spots, spots_modWork]
  have added : spots ({ s.bumpEntry.addJob (nextNumber s) (newJob s k x) with slots := v, pages := w } : State) =
      (spots s).setJob (nextNumber s) (some (newJob s k x)) := spots_addJob (nextNumber s) (newJob s k x) s.bumpEntry
  rw [added]
  have pos : ({ s.bumpEntry.addJob (nextNumber s) (newJob s k x) with slots := v, pages := w } : State).pos? k = s.pos? k :=
    rfl
  rw [pos]
  cases s.pos? k <;> rfl

/-! ### Departures, part by part -/

/-- A departure, phase by phase: `M l` holds while the live-job counts of the pages `l` are still to be lowered, `V` once the
job's position does not name it any longer, and `N` once the job has left. -/
theorem departCore_lowering {M : List Nat → State → Prop} {V N : State → Prop} {n : Nat} {j : Job} {terminal : JobState}
    {s : State} (hj : s.job? n = some j)
    (start : M (j.pages.map Prod.fst) (s.modJob n fun x => { x with state := terminal }))
    (judge : ∀ l t, M l t → M l (evalStarved t)) (release : ∀ l t, M l t → M l (releaseRefs j.slots t))
    (lower : ∀ l t p, M (p :: l) t → M l (lowerLive p t))
    (kept : ∀ t, M [] t → (∀ x, t.pos? j.key = some x → x.work.current ≠ some n) → V t)
    (vacate : ∀ t x, M [] t → t.pos? j.key = some x → x.work.current = some n →
      V (evalStarved (needTest j.key (t.modWork j.key fun w => { w with current := none }))))
    (notice : ∀ t m, V t → V (raise m t)) (drop : ∀ t, V t → N (t.dropJob n))
    (tell : ∀ t k, N t → N (tellSatisfied k t)) : N (departCore n terminal s) := by
  have lowerAll (l : List Nat) (t : State) (h : M l t) : M [] (l.foldl (fun s p => lowerLive p s) t) := by
    induction l generalizing t with
    | nil => exact h
    | cons p l ih => exact ih _ (lower l t p h)
  have tellAll (l : List PosKey) (t : State) (h : N t) : N (tellAll l t) := by
    unfold Machine.tellAll
    induction l generalizing t with
    | nil => exact h
    | cons k l ih => exact ih _ (tell t k h)
  have tellPages (l : List Nat) (t : State) (h : N t) :
      N (l.foldl (fun s p => Machine.tellAll (s.positionsNaming p) s) t) := by
    induction l generalizing t with
    | nil => exact h
    | cons p l ih => exact ih _ (tellAll _ t h)
  unfold departCore
  rw [hj]
  dsimp only
  generalize s.modJob n (fun x => { x with state := terminal }) = s1 at start ⊢
  have judged : M (j.pages.map Prod.fst) (if j.state = .queued then evalStarved s1 else s1) := by
    split
    · exact judge _ _ start
    · exact start
  generalize (if j.state = .queued then evalStarved s1 else s1) = s2 at judged ⊢
  have released : M (j.pages.map Prod.fst) (if j.state.holdsRefs then releaseRefs j.slots s2 else s2) := by
    split
    · exact release _ _ judged
    · exact judged
  generalize (if j.state.holdsRefs then releaseRefs j.slots s2 else s2) = s3 at released ⊢
  have lowered := lowerAll (j.pages.map Prod.fst) s3 released
  generalize (j.pages.map Prod.fst).foldl (fun s p => lowerLive p s) s3 = s4 at lowered ⊢
  refine tellPages _ _ (tell _ _ (drop _ (notice _ _ ?_)))
  cases hx : s4.pos? j.key with
  | none => exact kept s4 lowered fun x h => by rw [hx] at h; cases h
  | some x =>
    dsimp only
    split
    next current => exact vacate s4 x lowered hx (of_decide_eq_true current)
    next other =>
      refine kept s4 lowered fun y h => ?_
      cases hx.symm.trans h
      intro e
      exact other (decide_eq_true e)

/-- A departure, part by part (R50). `M` holds until the position lets the job go, `V` after that, and `N` when the job has left
the table. -/
theorem departCore_phases {M V N : State → Prop} {n : Nat} {j : Job} {terminal : JobState} {s : State}
    (hj : s.job? n = some j) (start : M (s.modJob n fun x => { x with state := terminal }))
    (judge : ∀ t, M t → M (evalStarved t)) (release : ∀ t, M t → M (releaseRefs j.slots t))
    (lower : ∀ t p, M t → M (lowerLive p t))
    (kept : ∀ t, M t → (∀ x, t.pos? j.key = some x → x.work.current ≠ some n) → V t)
    (vacate : ∀ t x, M t → t.pos? j.key = some x → x.work.current = some n →
      V (evalStarved (needTest j.key (t.modWork j.key fun w => { w with current := none }))))
    (notice : ∀ t m, V t → V (raise m t)) (drop : ∀ t, V t → N (t.dropJob n))
    (tell : ∀ t k, N t → N (tellSatisfied k t)) : N (departCore n terminal s) :=
  departCore_lowering (M := fun _ => M) hj start (fun _ => judge) (fun _ => release) (fun _ => lower) kept vacate notice drop tell

end Sys2Proof.Machine
end

section
/-! Every deed keeps each job in its place (R49, R77, R112, R125, R135, R138), but for the jobs that it leaves standing
nowhere. -/

namespace Sys2Proof.Machine

open State

namespace Spots

/-! ### Places in the middle of a command -/

/-- The places, but for a delivery that has ended. -/
def but (v : Spots) (spent : Bool) : Spots := { v with delivery := if spent then none else v.delivery }

theorem but_false (v : Spots) : v.but false = v := rfl

/-- Standing nowhere does not depend on the delivery. -/
theorem Off.but {v : Spots} {n : Nat} (h : v.Off n) (b : Bool) : (v.but b).Off n :=
  ⟨h.next, h.parked, h.cur, h.order, h.rack, h.shelf, h.mounted⟩

theorem Off.of_but {v : Spots} {n : Nat} {b : Bool} (h : (v.but b).Off n) : v.Off n :=
  ⟨h.next, h.parked, h.cur, h.order, h.rack, h.shelf, h.mounted⟩

/-- A delivery that has ended. -/
theorem Fit.end {v : Spots} {L P : Nat → Prop} {b : Bool} (h : (v.but b).Fit L P) : (v.but true).Fit L P := h.noDelivery

theorem setJob_same {v : Spots} {n : Nat} {j : Option Job} (h : v.job n = j) : v.setJob n j = v := by
  subst h
  simp only [Spots.setJob, Function.update_eq_self]

/-- A job that is not in work or with a plate stands nowhere. -/
theorem Ok.off_state {v : Spots} (h : v.Ok) {n : Nat} {j : Job} (hj : v.job n = some j)
    (hs : j.state ∉ [.assigned, .exposing, .developing, .finishing, .racked, .mounted]) : v.Off n :=
  h.off_of fun i hi => by
    cases hj.symm.trans hi
    exact hs

/-- An exposure ends: the job goes from current into the order of its lane. -/
theorem Fit.develop {v : Spots} {L P : Nat → Prop} (h : v.Fit L P) {e : EngineId} {l : LaneId} {n : Nat} {i j : Job}
    (hn : v.cur e = some n) (hi : v.job n = some i) (key : j.key = i.key) (state : j.state = .developing)
    (lane : j.lane = some l) (engine : j.engine = i.engine) (applied : j.applied = i.applied) :
    (((v.setCtx e none (v.next e) (v.parked e)).setJob n (some j)).setOrder l (v.order l ++ [(n, .inDeveloper)])).Fit L P := by
  have out : ¬ L n := h.kept fun o => o.cur e hn
  obtain ⟨r, hr, exposing, eng, app⟩ := h.ok.current e n hn
  cases hi.symm.trans hr
  have elsewhere {x : Option (Nat × LoadStage)} (hx : ∀ y, x = some (n, y) → i.state = .assigned) :
      ¬ ∃ y, x = some (n, y) := fun ⟨y, hy⟩ => by
    have state := hx y hy
    rw [exposing] at state
    cases state
  have left : ¬ HeldAt none (v.next e) (v.parked e) n := by
    rintro (c | c | c)
    · cases c
    · refine elsewhere (fun y hy => ?_) c
      obtain ⟨r, hr, state, -⟩ := h.ok.next e n y hy
      cases hi.symm.trans hr
      exact state
    · refine elsewhere (fun y hy => ?_) c
      obtain ⟨r, hr, state, -⟩ := h.ok.parked e n y hy
      cases hi.symm.trans hr
      exact state
  have emptied : (v.setCtx e none (v.next e) (v.parked e)).Fit L P :=
    (h.less (M := fun _ => False) e ⟨.inl rfl, .inr (.inl rfl), .inr rfl⟩ fun _ f => f.elim).fewer fun m hm => .inl hm
  have off := h.ok.off_left (e := e) (n := n) (.inl hn) left
  refine emptied.join .inDeveloper hi off out key lane state ⟨?_, ?_⟩
  · rw [engine, eng]
    simp
  · rw [applied]
    exact app

end Spots

/-- Each job stands in its place, but for those that stand open. -/
abbrev InPlace (g : Gaps) (s : State) : Prop := ((spots s).but g.spent).Fit g.loose g.plates

/-- With nothing open, each job stands in its place. -/
theorem inPlace_closed {s : State} : InPlace Gaps.closed s ↔ Placed s :=
  ⟨fun h => (placed_iff s).mpr h.ok, fun h => ⟨(placed_iff s).mp h, fun _ f => f.elim⟩⟩

/-- What a position holds. -/
theorem work_some {s : State} {k : PosKey} {x : Position} (hx : s.pos? k = some x) :
    (spots s).work k = some (x.work.current, x.work.mounted) := by
  show workSpots (s.pos? k) = _
  rw [hx]
  rfl

theorem work_none {s : State} {k : PosKey} (hx : s.pos? k = none) : (spots s).work k = none := by
  show workSpots (s.pos? k) = _
  rw [hx]
  rfl

/-- A need test moves no job, but that it may create one. -/
theorem spots_needTest (k : PosKey) (s : State) : spots (needTest k s) = spots s ∨
    ∃ x, s.pos? k = some x ∧ s.job? (nextNumber s) = none ∧ spots (needTest k s) =
      ((spots s).setJob (nextNumber s) (some (newJob s k x))).setWork k (some (some (nextNumber s), x.work.mounted)) := by
  unfold needTest
  split
  · exact .inl rfl
  next x hx =>
    split
    · split
      next hl =>
        refine .inr ⟨x, hx, nextNumber_fresh s hl, ?_⟩
        rw [spots_createJob, hx]
        rfl
      · split
        · exact .inl rfl
        · exact .inl ((RegistersOnly.raised _ _).spots.trans (spots_modWork_same fun _ _ => ⟨rfl, rfl⟩))
    · exact .inl (spots_modWork_same fun _ _ => ⟨rfl, rfl⟩)

section Writes

variable {b : Bool} {L P : Nat → Prop} {s : State} (h : ((spots s).but b).Fit L P)
include h

/-- A job's record changes in nothing that its place asks of it. -/
theorem fit_modJob {n : Nat} {f : Job → Job} (hf : ∀ j, s.job? n = some j → (f j).key = j.key ∧ (f j).state = j.state ∧
    (f j).engine = j.engine ∧ (f j).lane = j.lane ∧ (j.applied ≠ none → (f j).applied ≠ none)) :
    ((spots (s.modJob n f)).but b).Fit L P := by
  rw [spots_modJob]
  cases hj : s.job? n with
  | none =>
    show (((spots s).but b).setJob n none).Fit L P
    rw [Spots.setJob_same (v := (spots s).but b) hj]
    exact h
  | some j =>
    obtain ⟨key, state, engine, lane, applied⟩ := hf j hj
    exact h.keepJob hj key state engine lane applied

/-- A job that stands nowhere changes. -/
theorem fit_moveJob {n : Nat} {f : Job → Job} {j : Job} (hj : s.job? n = some j) (off : (spots s).Off n)
    (key : (f j).key = j.key) (exposed : Spots.isExposed (f j).state → (f j).engine ≠ none ∧ (f j).applied ≠ none) :
    ((spots (s.modJob n f)).but b).Fit (fun m => L m ∧ m ≠ n) fun m => P m ∧ m ≠ n := by
  rw [spots_modJob, hj]
  exact (h.moveJob hj (off.but b) key exposed).plates fun m l p => ⟨p, l.2⟩

/-- A position's work changes in nothing that its jobs stand by. -/
theorem fit_modWork {k : PosKey} {f : PosWork → PosWork}
    (hf : ∀ x, s.pos? k = some x → (f x.work).current = x.work.current ∧ (f x.work).mounted = x.work.mounted) :
    ((spots (s.modWork k f)).but b).Fit L P := by
  rw [spots_modWork_same hf]
  exact h

/-- A need test. -/
theorem fit_needTest {k : PosKey} : ((spots (needTest k s)).but b).Fit L P := by
  obtain same | ⟨x, hx, fresh, same⟩ := spots_needTest k s
  · rw [same]
    exact h
  · have created := h.newJob (j := newJob s k x) fresh (by simp [newJob, Spots.isExposed])
    rw [same]
    exact created.occupy (k := k) (c := x.work.current) (work_some hx) (Function.update_self ..) rfl

/-- A position holds its current job no more. -/
theorem fit_vacate {k : PosKey} {f : PosWork → PosWork} (hc : ∀ w, (f w).current = none) (hm : ∀ w, (f w).mounted = w.mounted) :
    ((spots (s.modWork k f)).but b).Fit L P := by
  rw [spots_modWork]
  cases hx : s.pos? k with
  | none =>
    show (((spots s).but b).setWork k none).Fit L P
    have same : ((spots s).but b).setWork k none = (spots s).but b := by
      rw [← work_none hx]
      simp only [Spots.setWork, Spots.but, Function.update_eq_self]
    rw [same]
    exact h
  | some x =>
    have e : workSpots ((some x).map fun x => { x with work := f x.work }) = some (none, x.work.mounted) := by
      simp [workSpots, hc, hm]
    rw [e]
    exact h.vacate (work_some hx)

end Writes

/-! ### Departures -/

namespace Spots

/-- A job of a position that stands nowhere any more, and is on its way out of the table. -/
structure Leaving (b : Bool) (L P : Nat → Prop) (n : Nat) (k : PosKey) (v : Spots) : Prop where
  fit : (v.but b).Fit L P
  off : v.Off n
  key : ∃ i, v.job n = some i ∧ i.key = k

/-- Only its own position can have it for a current job. -/
theorem Leaving.owned {b : Bool} {L P : Nat → Prop} {n : Nat} {k q : PosKey} {m : Option Nat} {v : Spots} (h : Leaving b L P n k v)
    (hq : v.work q = some (some n, m)) : q = k := by
  obtain ⟨i, hi, key⟩ := h.key
  obtain ⟨r, hr, hk⟩ := h.fit.ok.own q n m hq
  cases hi.symm.trans hr
  exact hk.symm.trans key

end Spots

/-- A position lets a leaving job go. -/
theorem leaving_vacate {b : Bool} {L P : Nat → Prop} {n : Nat} {k : PosKey} {s : State} (h : (spots s).Leaving b L P n k) :
    (spots (s.modWork k fun w => { w with current := none })).Leaving b L P n k ∧
      ∀ q m, (spots (s.modWork k fun w => { w with current := none })).work q ≠ some (some n, m) := by
  have vacated := fit_vacate (k := k) (f := fun w => { w with current := none }) h.fit (fun _ => rfl) fun _ => rfl
  refine ⟨⟨vacated, ?_, h.key⟩, fun q m hq => ?_⟩
  · rw [spots_modWork]
    refine h.off.setWork k fun c hc => ?_
    cases hx : s.pos? k with
    | none =>
      rw [hx] at hc
      cases hc
    | some x =>
      rw [hx] at hc
      simp only [workSpots, Option.map_some, Option.some.injEq, Prod.mk.injEq] at hc
      exact h.off.mounted k x.work.current (by rw [work_some hx, hc.2])
  · rw [spots_modWork] at hq
    simp only [Spots.setWork, Function.update_apply] at hq
    split at hq
    · cases hx : s.pos? k with
      | none => rw [hx] at hq; cases hq
      | some x => rw [hx] at hq; simp [workSpots] at hq
    next ne => exact ne (h.owned hq)

/-- A need test leaves a leaving job on its way. -/
theorem leaving_needTest {b : Bool} {L P : Nat → Prop} {n : Nat} {k q : PosKey} {s : State} (h : (spots s).Leaving b L P n k)
    (gone : ∀ q m, (spots s).work q ≠ some (some n, m)) :
    (spots (needTest q s)).Leaving b L P n k ∧ ∀ p m, (spots (needTest q s)).work p ≠ some (some n, m) := by
  have fit := fit_needTest (k := q) h.fit
  obtain same | ⟨x, hx, fresh, same⟩ := spots_needTest q s
  · rw [same]
    exact ⟨h, gone⟩
  · obtain ⟨i, hi, key⟩ := h.key
    have ne : n ≠ nextNumber s := by
      rintro rfl
      rw [show (spots s).job _ = s.job? _ from rfl, fresh] at hi
      cases hi
    rw [same] at fit ⊢
    refine ⟨⟨fit, (h.off.setJob _ _).setWork _ fun c hc => ?_, i, (Function.update_of_ne ne ..).trans hi, key⟩, fun p m hp => ?_⟩
    · simp only [Option.some.injEq, Prod.mk.injEq] at hc
      exact h.off.mounted q x.work.current (by rw [work_some hx, hc.2])
    · simp only [Spots.setWork, Function.update_apply] at hp
      split at hp
      · simp only [Option.some.injEq, Prod.mk.injEq] at hp
        exact ne hp.1.symm
      · exact gone p m hp

/-- A job that stands nowhere leaves the table. -/
theorem fit_departCore {b : Bool} {L P : Nat → Prop} {n : Nat} {j : Job} {t : JobState} {s : State}
    (h : ((spots s).but b).Fit L P) (ht : t = .retired ∨ t = .cancelled ∨ t = .discarded) (hj : s.job? n = some j)
    (off : (spots s).Off n) : ((spots (departCore n t s)).but b).Fit (fun m => L m ∧ m ≠ n)
      fun m => P m ∧ m ≠ n := by
  have ended : ¬ Spots.isExposed t := by
    rcases ht with rfl | rfl | rfl <;> simp [Spots.isExposed]
  have kept {u v : State} (k : RegistersOnly u v) {P : Spots → Prop} (p : P (spots u)) : P (spots v) := k.spots ▸ p
  refine departCore_phases (M := fun u => (spots u).Leaving b (fun m => L m ∧ m ≠ n) (fun m => P m ∧ m ≠ n) n j.key)
    (V := fun u => (spots u).Leaving b (fun m => L m ∧ m ≠ n) (fun m => P m ∧ m ≠ n) n j.key ∧ ∀ q m, (spots u).work q ≠ some (some n, m))
    (N := fun u => ((spots u).but b).Fit (fun m => L m ∧ m ≠ n) fun m => P m ∧ m ≠ n) hj ⟨?_, ?_, ?_⟩
    (fun u hu => kept (.starved u) hu) (fun u hu => kept (.released _ u) hu) (fun u p hu => kept (.lowered p u) hu)
    (fun u hu other => ⟨hu, fun q m hq => ?_⟩) (fun u x hu hx current => ?_) (fun u m hu => ?_) (fun u hu => ?_) fun u k hu => ?_
  · exact fit_moveJob (f := fun x => { x with state := t }) h hj off rfl fun x => absurd x ended
  · rw [spots_modJob]
    exact off.setJob n _
  · rw [spots_modJob, hj]
    exact ⟨_, Function.update_self .., rfl⟩
  · have e := hu.owned hq
    subst e
    obtain ⟨x, hx, current, -⟩ := workSpots_some.mp hq
    exact other x hx current
  · obtain ⟨vacated, gone⟩ := leaving_vacate hu
    rw [(RegistersOnly.starved _).spots]
    exact leaving_needTest vacated gone
  · rw [(RegistersOnly.raised m u).spots]
    exact hu
  · obtain ⟨leaving, gone⟩ := hu
    rw [spots_dropJob]
    exact (leaving.fit.endJob (leaving.off.but b) gone).fewer fun m hm => ⟨hm, hm.2⟩
  · rw [spots_tellSatisfied]
    exact hu

end Sys2Proof.Machine
end

section
/-! Every deed keeps each job in its place. -/

namespace Sys2Proof.Machine

open State

/-! ### Lane orders -/

theorem orderSpots_append (o p : List LaneEntry) : orderSpots (o ++ p) = orderSpots o ++ orderSpots p := List.map_append

theorem orderSpots_filter (n : Nat) (o : List LaneEntry) :
    orderSpots (o.filter fun x => x.job ≠ n) = (orderSpots o).filter fun y => y.1 ≠ n := by
  unfold orderSpots
  rw [List.filter_map]
  rfl

/-- Entries that take other stages. -/
theorem orderSpots_map {f : LaneEntry → LaneEntry} {g : Nat × LaneStage → LaneStage}
    (h : ∀ x, (f x).job = x.job ∧ (f x).stage = g (x.job, x.stage)) (o : List LaneEntry) :
    orderSpots (o.map f) = (orderSpots o).map fun y => (y.1, g y) := by
  unfold orderSpots
  rw [List.map_map, List.map_map]
  refine List.map_congr_left fun x _ => ?_
  obtain ⟨job, stage⟩ := h x
  simp [job, stage]

/-- A stage that an order marks. -/
def markedStage (n : Nat) (st : LaneStage) (y : Nat × LaneStage) : LaneStage := if y.1 = n then st else y.2

theorem orderSpots_mark (n : Nat) (st : LaneStage) (o : List LaneEntry) :
    orderSpots (markStage n st o) = (orderSpots o).map fun y => (y.1, markedStage n st y) := by
  refine orderSpots_map (fun x => ?_) o
  unfold markedStage
  split <;> exact ⟨rfl, rfl⟩

/-- A plate at a lane is at another stage past inspection, and not yet granted before. -/
theorem fit_mark {b : Bool} {L P : Nat → Prop} {s : State} (h : ((spots s).but b).Fit L P) {l : LaneId} {n : Nat} {st : LaneStage}
    {f : LaneFloor → LaneFloor} (hf : (f (s.lane l).floor).order = markStage n st (s.lane l).floor.order)
    (hst : st ≠ .inDeveloper)
    (hy : ∀ y ∈ (s.lane l).floor.order, y.job = n → y.stage ≠ .inDeveloper ∧ (y.stage = .granted → st = .granted)) :
    ((spots (s.modFloor l f)).but b).Fit L P := by
  rw [spots_modFloor, hf, orderSpots_mark]
  refine h.restage (f := markedStage n st) (fun y hm => ?_) fun y hm granted => ?_
  · obtain ⟨z, hz, job, stage⟩ := mem_orderSpots.mp hm
    unfold markedStage
    split
    next e => simp [hst, ← stage, (hy z hz (job.trans e)).1]
    next => rfl
  · obtain ⟨z, hz, job, stage⟩ := mem_orderSpots.mp hm
    unfold markedStage
    split
    next e => exact (hy z hz (job.trans e)).2 (stage.trans granted)
    next => exact granted

/-! ### Writes that move no job -/

theorem spots_send (c : LineCommand) (s : State) : spots (s.send c) = spots s := rfl

/-- Counts that are set afresh move no job. -/
theorem spots_refreshCounts (p : PressId) (s : State) : spots (refreshCounts p s) = spots s := by
  have standing : spots (refreshStanding p s) = spots s := by
    unfold refreshStanding
    generalize s.positionsOf p = l
    induction l generalizing s with
    | nil => rfl
    | cons x l ih => exact (ih _).trans (spots_modWork_same fun _ _ => ⟨rfl, rfl⟩)
  unfold refreshCounts
  dsimp only
  rw [evalPress_eq, (Still.raisedAll _ _).spots]
  exact standing

/-! ### Deeds -/

section

variable {g : Gaps} {s : State} (h : InPlace g s)
include h

theorem inPlace_expose {e : EngineId} {u : WaitingCtx} (hu : (s.engine e).ctx.next = some u) :
    InPlace g (sendExpose e s) := by
  have waits : (spots s).next e = some (u.job, u.stage) := by
    show waitSpot (s.engine e).ctx.next = _
    rw [hu]
    rfl
  obtain ⟨i, hi, -⟩ := h.ok.next e _ _ waits
  rw [sendExpose, hu]
  dsimp only
  have corrected := h.keepJob (j := { i with applied := some (s.register e).correction }) hi rfl rfl rfl rfl (by simp)
  unfold InPlace
  rw [spots_send, spots_modJob, spots_modCtx]
  have live : (s.modCtx e fun c => { c with
      next := some { u with stage := .exposeSent, timer := some s.limits.load } }).job? u.job = some i := hi
  rw [live]
  refine corrected.stages e (a := some (u.job, .exposeSent)) (b := waitSpot (s.engine e).ctx.parked) (fun n x hn => ?_)
    fun n x hn => ⟨x, hn, id⟩
  cases hn
  refine ⟨u.stage, waits, fun _ => .inr ⟨_, Function.update_self .., ?_⟩⟩
  simp

theorem inPlace_loaded (e : EngineId) (n : Nat) :
    InPlace g (s.modCtx e fun c => { c with next := markLoaded n c.next, parked := markLoaded n c.parked }) := by
  have stage (w : Option WaitingCtx) (m : Nat) (x : LoadStage) (hm : waitSpot (markLoaded n w) = some (m, x)) :
      ∃ y, waitSpot w = some (m, y) ∧ (x = .exposeSent → y = .exposeSent) := by
    cases w with
    | none => cases hm
    | some w =>
      unfold markLoaded at hm
      simp only [Option.map_some, waitSpot] at hm
      split at hm
      · cases hm
        exact ⟨w.stage, rfl, nofun⟩
      · cases hm
        exact ⟨w.stage, rfl, id⟩
  unfold InPlace
  rw [spots_modCtx]
  refine h.stages e (fun m x hm => ?_) fun m x hm => ?_
  · obtain ⟨y, hy, sent⟩ := stage _ m x hm
    exact ⟨y, hy, fun e => .inl (sent e)⟩
  · exact stage _ m x hm

theorem inPlace_start {e : EngineId} {u : WaitingCtx} (hu : (s.engine e).ctx.next = some u) (hs : u.stage = .exposeSent) :
    InPlace g (startsAt e u s) := by
  have waits : (spots s).next e = some (u.job, .exposeSent) := by
    show waitSpot (s.engine e).ctx.next = _
    rw [hu, ← hs]
    rfl
  obtain ⟨i, hi, -⟩ := h.ok.next e _ _ waits
  have live : (s.modCtx e fun c => Contexts.parkedReturn { c with current := some ⟨u.job, s.limits.expose, u.cut⟩, next := none }).job?
      u.job = some i := hi
  unfold startsAt InPlace
  rw [spots_modJob, spots_modCtx, live]
  exact h.start (j := { i with state := .exposing }) waits hi rfl rfl rfl rfl

theorem inPlace_develop {e : EngineId} {u : CurrentCtx} (hu : (s.engine e).ctx.current = some u) :
    InPlace g (developsAt e u.job s) := by
  have here : (spots s).cur e = some u.job := by
    show (s.engine e).ctx.current.map CurrentCtx.job = _
    rw [hu]
    rfl
  obtain ⟨i, hi, -⟩ := h.ok.current e _ here
  have released := RegistersOnly.released ((s.job? u.job).map Job.slots |>.getD []) (s.modCtx e fun c => { c with current := none })
  unfold developsAt InPlace
  have lane : ((releaseRefs ((s.job? u.job).map Job.slots |>.getD [])
      (s.modCtx e fun c => { c with current := none })).modJob u.job fun j =>
        { j with state := .developing, lane := some (laneFed e) }).lane (laneFed e) = s.lane (laneFed e) := by
    unfold RegistersOnly at released
    rw [released]
    rfl
  have live : (releaseRefs ((s.job? u.job).map Job.slots |>.getD []) (s.modCtx e fun c => { c with current := none })).job? u.job =
      some i := by
    show tget _ u.job = _
    rw [released.jobs]
    exact hi
  rw [spots_modFloor, lane, orderSpots_append, spots_modJob, live, released.spots, spots_modCtx]
  exact h.develop (j := { i with state := .developing, lane := some (laneFed e) }) here hi rfl rfl rfl rfl rfl

theorem inPlace_leave {l : LaneId} {y : LaneEntry} (hy : y ∈ (s.lane l).floor.order) (hd : g.spent = true ∨ y.stage ≠ .granted) :
    InPlace (g.take fun m => m = y.job) (dropEntry l y.job s) := by
  have entry : (y.job, y.stage) ∈ ((spots s).but g.spent).order l := mem_orderSpots.mpr ⟨y, hy, rfl, rfl⟩
  unfold dropEntry InPlace
  rw [spots_modFloor, orderSpots_filter]
  refine h.leave entry fun d hdel lane job => ?_
  subst lane
  have granted := (h.ok.delivery d hdel).1
  rw [job] at granted
  obtain spent | stage := hd
  · simp [Spots.but, spent] at hdel
  · exact stage (h.ok.entry_unique entry granted)

theorem inPlace_pass {l : LaneId} {n : Nat} (hy : ∃ y ∈ (s.lane l).floor.order, y.job = n ∧ y.stage = .inDeveloper) :
    InPlace g (passesAt l n s) := by
  have entry : (n, LaneStage.inDeveloper) ∈ ((spots s).but g.spent).order l := mem_orderSpots.mpr hy
  obtain ⟨i, hi, -⟩ := h.ok.order l n _ entry
  unfold passesAt InPlace
  have live : (s.modFloor l fun f => { f with order := f.order.map fun x =>
      if x.job = n then { x with stage := .punching, timer := none } else x }).job? n = some i := hi
  rw [spots_modJob, live, spots_modFloor, orderSpots_map (g := markedStage n .punching) fun x => ?_]
  · exact h.pass (j := { i with state := .finishing }) hi entry rfl rfl rfl rfl rfl
  · unfold markedStage
    split <;> exact ⟨rfl, rfl⟩

theorem inPlace_reclaim {l : LaneId} {n : Nat} {j : Job} {st : JobState} {x : LaneStage} (hj : s.job? n = some j)
    (hu : j.state = .uncertain) (hl : j.lane = some l) (out : ¬ g.loose n)
    (hst : (st, x) = (.developing, .inDeveloper) ∨ (st, x) = (.finishing, .atExit)) : InPlace g (Machine.reclaim l n st x s) := by
  have off : ((spots s).but g.spent).Off n := h.ok.off_state hj (by simp [hu])
  have exposed := h.ok.exposed n j hj (by simp [Spots.isExposed, hu])
  have released := RegistersOnly.released ((s.job? n).map Job.slots |>.getD []) s
  unfold Machine.reclaim InPlace
  dsimp only
  generalize releaseRefs ((s.job? n).map Job.slots |>.getD []) s = t at released
  have lane : (t.modJob n fun j => { j with state := st }).lane l = s.lane l := by
    unfold RegistersOnly at released
    rw [released]
    rfl
  have live : t.job? n = some j := by
    show tget _ n = _
    rw [released.jobs]
    exact hj
  rw [spots_modFloor, lane, orderSpots_append, spots_modJob, live, released.spots]
  refine h.join (j := { j with state := st }) x hj off out rfl hl ?_ exposed
  rcases hst with e | e <;> cases e <;> simp

theorem inPlace_grant {l : LaneId} {n : Nat} {j : Job} {d : Destination} (hj : s.job? n = some j) (hy : ∃ y ∈ (s.lane l).floor.order, y.job = n ∧ y.stage = .atExit)
    (hx : s.destinationOf j = some d) : InPlace g (grantsAt l n j d s) := by
  obtain ⟨y, hy, job, stage⟩ := hy
  have entry : (n, LaneStage.atExit) ∈ ((spots s).but g.spent).order l := mem_orderSpots.mpr ⟨y, hy, job, stage⟩
  have marked : ((spots (s.modFloor l fun f => { f with order := markStage n .granted f.order, blocked := false })).but
      g.spent).Fit g.loose g.plates := by
    refine fit_mark h rfl (by simp) fun z hz e => ⟨?_, fun _ => rfl⟩
    have other : (n, z.stage) ∈ ((spots s).but g.spent).order l := mem_orderSpots.mpr ⟨z, hz, e, rfl⟩
    rw [← h.ok.entry_unique entry other]
    simp
  have destined : Destined j d := by
    unfold destinationOf at hx
    split at hx
    · cases hx
      exact trivial
    · split at hx
      · cases hx
        exact rfl
      · split at hx
        · cases hx
          exact rfl
        · cases hx
  have placed : (n, LaneStage.granted) ∈
      (spots (s.modFloor l fun f => { f with order := markStage n .granted f.order, blocked := false })).order l := by
    rw [spots_modFloor, orderSpots_mark]
    simp only [Spots.setOrder, Function.update_self]
    refine List.mem_map.mpr ⟨_, entry, ?_⟩
    simp [markedStage]
  cases hs : g.spent with
  | true =>
    unfold InPlace
    rw [hs] at marked ⊢
    exact marked
  | false =>
    unfold InPlace
    rw [hs] at marked ⊢
    exact marked.deliver (d := ⟨l, n, j.attempt, d⟩) placed ⟨j, hj, destined⟩

end

/-! ### Plates -/

section

variable {g : Gaps} {s : State} (h : InPlace g s)
include h

/-- The places when a plate has been delivered: its entry has left the lane, and it stands nowhere yet. -/
theorem fit_delivered {d : Delivery} {j : Job} (hs : g.spent = false) (hd : s.sorter.delivery = some d)
    (hj : s.job? d.job = some j) :
    ((spots (landsAt d.lane d.job s)).but true).Fit g.loose g.plates ∧ (spots (landsAt d.lane d.job s)).Off d.job ∧ ¬ g.loose d.job := by
  unfold InPlace at h
  rw [hs] at h
  have same : (spots (landsAt d.lane d.job s)).but true =
      (({ spots s with delivery := none } : Spots).setOrder d.lane
        (((spots s).order d.lane).filter fun y => y.1 ≠ d.job)).setJob d.job (some { j with state := .racked }) := by
    unfold landsAt dropEntry
    rw [spots_modFloor, orderSpots_filter, spots_modJob, hj]
    rfl
  obtain ⟨fit, off, out⟩ := h.delivered (j := { j with state := .racked }) hd hj rfl rfl
  refine ⟨?_, ?_, out⟩
  · rw [same]
    exact fit
  · refine Spots.Off.of_but (b := true) ?_
    rw [same]
    exact off

theorem inPlace_rack {d : Delivery} {p : PressId} {q : PosId} {j : Job} {M : PosKey → Prop} (hd : s.sorter.delivery = some d)
    (hx : d.dest = .rackSlot p q) (hj : s.job? d.job = some j) (hs : g.spent = false) :
    InPlace { g.untell M with spent := true } (landsAt d.lane d.job (s.setRack ⟨p, q⟩ (s.rack ⟨p, q⟩ ++ [d.job]))) := by
  obtain ⟨fit, off, out⟩ := fit_delivered h hs hd hj
  have own : j.key = ⟨p, q⟩ := by
    unfold InPlace at h
    rw [hs] at h
    obtain ⟨-, i, hi, destined⟩ := h.ok.delivery d hd
    cases hj.symm.trans hi
    rw [hx] at destined
    exact destined
  have is : ((spots (landsAt d.lane d.job s)).but true).Is d.job ⟨p, q⟩ .racked := by
    unfold landsAt dropEntry
    rw [spots_modFloor, spots_modJob, hj]
    exact ⟨_, Function.update_self .., own, rfl⟩
  have same : spots (landsAt d.lane d.job (s.setRack ⟨p, q⟩ (s.rack ⟨p, q⟩ ++ [d.job]))) =
      { spots (landsAt d.lane d.job s) with
        rack := Function.update (spots (landsAt d.lane d.job s)).rack ⟨p, q⟩
          ((spots (landsAt d.lane d.job s)).rack ⟨p, q⟩ ++ [d.job]) } := by
    unfold landsAt dropEntry
    rw [spots_modFloor, spots_modJob, spots_setRack, spots_modFloor, spots_modJob]
    rfl
  unfold InPlace
  rw [same]
  exact fit.rack is (off.but true) out

theorem inPlace_shelve {d : Delivery} {p : PressId} {j : Job} {M : PosKey → Prop} (hd : s.sorter.delivery = some d)
    (hx : d.dest = .shelf p) (hj : s.job? d.job = some j) (hs : g.spent = false) :
    InPlace { g.untell M with spent := true } (landsAt d.lane d.job (s.setShelf p (s.shelf p ++ [(d.job, j.pos)]))) := by
  obtain ⟨fit, off, out⟩ := fit_delivered h hs hd hj
  have own : j.press = p := by
    unfold InPlace at h
    rw [hs] at h
    obtain ⟨-, i, hi, destined⟩ := h.ok.delivery d hd
    cases hj.symm.trans hi
    rw [hx] at destined
    exact destined
  subst own
  have is : ((spots (landsAt d.lane d.job s)).but true).Is d.job ⟨j.press, j.pos⟩ .racked := by
    unfold landsAt dropEntry
    rw [spots_modFloor, spots_modJob, hj]
    exact ⟨_, Function.update_self .., rfl, rfl⟩
  have same : spots (landsAt d.lane d.job (s.setShelf j.press (s.shelf j.press ++ [(d.job, j.pos)]))) =
      { spots (landsAt d.lane d.job s) with
        shelf := Function.update (spots (landsAt d.lane d.job s)).shelf j.press
          ((spots (landsAt d.lane d.job s)).shelf j.press ++ [(d.job, j.pos)]) } := by
    unfold landsAt dropEntry
    rw [spots_modFloor, spots_modJob, spots_setShelf, spots_modFloor, spots_modJob]
    rfl
  unfold InPlace
  rw [same]
  exact fit.shelve is (off.but true) out

theorem inPlace_pull {k : PosKey} {n : Nat} (is : (spots s).Is n k .racked) :
    InPlace (g.pull fun m => m = n) (takePlate k n s) := by
  have same : spots (takePlate k n s) = { spots s with
      rack := Function.update (spots s).rack k (((spots s).rack k).filter fun m => m ≠ n)
      shelf := Function.update (spots s).shelf k.press (((spots s).shelf k.press).filter fun x => x.1 ≠ n) } := by
    unfold takePlate
    rw [spots_setShelf, spots_setRack]
    rfl
  unfold InPlace
  rw [same]
  exact h.pull is

theorem inPlace_mount {k : PosKey} {x : Position} {n : Nat} {j : Job} (hx : s.pos? k = some x) (hc : x.work.current = some n)
    (hj : s.job? n = some j) (hr : j.state = .racked) (out : ¬ g.loose n) :
    InPlace (g.pull fun m => x.work.mounted = some m) (mountsAt k n s) := by
  obtain ⟨i, hi, own⟩ := h.ok.own k n x.work.mounted (by rw [← hc]; exact work_some hx)
  cases hj.symm.trans hi
  have pulled := inPlace_pull h (k := k) (n := n) ⟨j, hj, own, hr⟩
  have off := (pulled.off n (.inr rfl)).1
  have hx' : (spots (takePlate k n s)).work k = some (x.work.current, x.work.mounted) := work_some (s := takePlate k n s) hx
  have hj' : (spots (takePlate k n s)).job n = some j := hj
  have mounted := pulled.mount (j := { j with state := .mounted }) hx' hj' hr off own rfl rfl
  unfold mountsAt InPlace
  have live : (takePlate k n s).job? n = some j := hj
  have stands : ((takePlate k n s).modJob n fun j => { j with state := .mounted }).pos? k = some x := hx
  rw [spots_modWork, stands, spots_modJob, live]
  have fewer := mounted.fewer (M := fun m => g.loose m ∨ x.work.mounted = some m) fun m hm =>
    hm.imp (fun hm => ⟨.inl hm, fun e => out (e ▸ hm)⟩) id
  refine fewer.plates fun m hm plate => ?_
  obtain (plate | rfl) | plate := plate
  · exact .inl plate
  · exact hm.elim (fun hm => absurd hm out) .inr
  · exact .inr plate

theorem inPlace_unmount {k : PosKey} {x : Position} (hx : s.pos? k = some x) :
    InPlace (g.pull fun m => x.work.mounted = some m) (s.modWork k fun y => { y with mounted := none }) := by
  unfold InPlace
  rw [spots_modWork, hx]
  exact h.unmount (work_some hx)

/-- Positions that hold no job. -/
theorem inPlace_setWork {k : PosKey} {t : State} {w : Option (Option Nat × Option Nat)} (same : spots t = (spots s).setWork k w)
    (hw : ∀ c m, w = some (c, m) → c = none ∧ m = none) : InPlace g t := by
  unfold InPlace
  rw [same]
  refine h.setWork k (fun c n e => ?_) fun n m e => ?_
  · cases (hw _ _ e).2
  · cases (hw _ _ e).1

theorem inPlace_reopen (l : LaneId) :
    InPlace (g.take fun n => ∃ j, s.job? n = some j ∧ j.state = .uncertain ∧ j.lane = some l) (clearClearing l s) := by
  have still : spots (clearClearing l s) = spots s := by
    refine Spots.same (fun _ => rfl) (fun _ => rfl) (fun _ => rfl) (fun _ => rfl) (fun q => ?_) rfl (fun _ => rfl)
      (fun _ => rfl) fun _ => rfl
    show orderSpots ((clearClearing l s).lane q).floor.order = orderSpots (s.lane q).floor.order
    unfold clearClearing
    rw [lane_modLane]
    split
    next e => rw [e]
    next => rfl
  unfold InPlace
  rw [still]
  refine ⟨h.ok, fun n hn => ?_⟩
  obtain hn | ⟨j, hj, uncertain, -⟩ := hn
  · exact h.off n hn
  · exact ⟨h.ok.off_state hj (by simp [uncertain]), j, hj, by simp [uncertain], by simp [uncertain]⟩

end

theorem inPlace_empty {s t : State} (h : InPlace Gaps.closed s) (e : Emptied s t) :
    InPlace (Gaps.closed.take fun n => ∃ j, s.job? n = some j ∧ Spots.inWork j.state) t := by
  unfold InPlace
  rw [e.spots]
  exact Spots.Fit.emptied (v := (spots s).but false) h

/-- The state after POWER_ON has each job in its place. -/
theorem inPlace_restart (s : State) :
    InPlace Gaps.closed { State.reset with lineSent := s.lineSent, deskSent := s.deskSent, pending := s.pending } := by
  have placed : Placed State.reset := resetState.2.2.2.2.2.2.2.1
  exact (inPlace_closed (s := State.reset)).mpr placed

/-! ### All deeds -/

/-- Every deed keeps each job in its place. -/
theorem Deed.inPlace {w c : Prop} {g g' : Gaps} {s t : State} (d : Deed w c (g, s) (g', t)) (hw : w) (h : InPlace g s) :
    InPlace g' t := by
  have same {u v : State} (k : RegistersOnly u v) {g : Gaps} (p : InPlace g u) : InPlace g v := by
    unfold InPlace
    rw [k.spots]
    exact p
  cases d with
  | blind _ _ _ hn => exact absurd hw hn
  | still k =>
    unfold InPlace
    rw [k.spots]
    exact h
  | assign _ _ e n j hj hq hn =>
    unfold Machine.assign InPlace
    dsimp only
    rw [spots_send, spots_modJob, spots_modCtx]
    have live : (s.modCtx e fun c => { c with next := some ⟨n, .loadSent, some s.limits.load, false⟩ }).job? n = some j := hj
    rw [live]
    exact h.assign (j := { j with state := .assigned, engine := some e }) hj hq rfl rfl rfl
  | park _ _ e u hu hs hp =>
    unfold InPlace
    rw [spots_modCtx]
    exact h.park e
  | expose _ _ e u hu => exact inPlace_expose h hu
  | create _ _ k x hx hn hl =>
    have created := h.newJob (j := newJob s k x) (nextNumber_fresh s hl) (by simp [newJob, Spots.isExposed])
    unfold InPlace
    rw [spots_createJob, hx]
    exact created.occupy (k := k) (c := x.work.current) (m := x.work.mounted) (work_some hx) (Function.update_self ..) rfl
  | defer _ _ k b => exact fit_modWork h fun _ _ => ⟨rfl, rfl⟩
  | tell _ _ k =>
    unfold InPlace
    rw [spots_tellSatisfied]
    exact h
  | core _ _ n j t ht hj ho => exact fit_departCore h ht hj (ho hw)
  | note _ _ n f hf =>
    refine fit_modJob h fun j _ => ?_
    rw [hf j]
    exact ⟨rfl, rfl, rfl, rfl, id⟩
  | queue _ _ n a j hj ho hs hr =>
    have retaken := RegistersOnly.retaken j s
    have h' := same retaken h
    unfold enterQueue
    refine fit_moveJob (s := (retakeRefs j s).bumpEntry) (j := j) h' ?_ ?_ rfl fun x => by simp [Spots.isExposed] at x
    · show tget _ n = _
      exact (congrArg (fun t => tget t n) retaken.jobs).trans hj
    · show (spots (retakeRefs j s)).Off n
      rw [retaken.spots]
      exact ho hw
  | fail _ _ n j hj ho hs hr =>
    have retaken := RegistersOnly.retaken j s
    have h' := same retaken h
    refine fit_moveJob (j := j) h' ?_ ?_ rfl fun x => by simp [Spots.isExposed] at x
    · exact (congrArg (fun t => tget t n) retaken.jobs).trans hj
    · rw [retaken.spots]
      exact ho hw
  | fewer _ _ e f M hl hM =>
    unfold InPlace
    rw [spots_modCtx]
    exact h.less e hl fun n hn => hM hw n hn
  | loaded _ _ e n => exact inPlace_loaded h e n
  | start _ _ e u hu hs => exact inPlace_start h hu hs
  | develop _ _ e u hu => exact inPlace_develop h hu
  | leave _ _ l n hy =>
    obtain ⟨y, mem, rfl, hd⟩ := hy hw
    exact inPlace_leave h mem hd
  | pass _ _ l n hy => exact inPlace_pass h (hy hw)
  | reclaim _ _ l n j st x hj hu hl out hst => exact inPlace_reclaim h hj hu hl out hst
  | mark _ _ l n st f hf hst hy =>
    exact fit_mark h hf hst fun y hm e => ⟨(hy hw y hm e).1, fun granted => absurd granted (hy hw y hm e).2⟩
  | grant _ _ l n j d hd hj hy hx => exact inPlace_grant h hj hy hx
  | rack _ _ d p q j hd hx hj hs => exact inPlace_rack h hd hx hj hs
  | shelve _ _ d p j hd hx hj hs => exact inPlace_shelve h hd hx hj hs
  | spend => exact Spots.Fit.end h
  | finish =>
    unfold InPlace
    rw [spots_setDelivery]
    exact Spots.Fit.noDelivery (v := (spots s).but g.spent) h
  | pull _ _ k n is => exact inPlace_pull h (is hw)
  | mount _ _ k x n j hx hc hj hr out => exact inPlace_mount h hx hc hj hr out
  | unmount _ _ k x hx => exact inPlace_unmount h hx
  | pressState _ _ p st => exact h
  | flag _ _ k x n j hx hc hj =>
    have flagged : InPlace g (s.modJob n fun x => { x with superseded := true }) :=
      fit_modJob h fun _ _ => ⟨rfl, rfl, rfl, rfl, id⟩
    exact fit_vacate flagged (fun _ => rfl) fun _ => rfl
  | caught => exact h
  | arrive _ _ n v c x a live ref => exact same (.arrived n v c a x ref live s) (g := g) h
  | renew _ _ n old v c x r ref =>
    exact same ((RegistersOnly.cleared n s).trans (.arrived n v c _ x ref _ _)) (g := g) h
  | strip _ _ n r => exact same ((RegistersOnly.cleared n s).trans (.put n _ _)) (g := g) h
  | withdraw _ _ n r => exact same (.put n _ s) (g := g) h
  | remove _ _ n r => exact same (.removed n r s) (g := g) h
  | expect _ _ n => exact h
  | blot _ _ k f => exact h
  | hold _ _ k b =>
    unfold InPlace
    rw [spots_modPos]
    have kept : workSpots ((s.pos? k).map fun y => { y with held := b }) = (spots s).work k := by
      show _ = workSpots (s.pos? k)
      cases s.pos? k <;> rfl
    rw [kept]
    have e : (spots s).setWork k ((spots s).work k) = spots s := by simp only [Spots.setWork, Function.update_eq_self]
    rw [e]
    exact h
  | commit => exact h
  | content _ _ k c edition =>
    unfold InPlace
    rw [spots_modPos]
    have kept : workSpots ((s.pos? k).map fun x => { x with content := c, edition := edition }) = (spots s).work k := by
      show _ = workSpots (s.pos? k)
      cases s.pos? k <;> rfl
    rw [kept]
    have e : (spots s).setWork k ((spots s).work k) = spots s := by simp only [Spots.setWork, Function.update_eq_self]
    rw [e]
    exact h
  | add _ _ k x hk hx =>
    obtain ⟨current, mounted, -⟩ := hx
    refine inPlace_setWork h (spots_putPos k x s) fun c m e => ?_
    simp only [workSpots, Option.map_some, Option.some.injEq, Prod.mk.injEq] at e
    exact ⟨e.1.symm.trans current, e.2.symm.trans mounted⟩
  | drop _ _ k hk hc => exact inPlace_setWork h (spots_dropPos k s) fun c m e => by cases e
  | recount _ _ p =>
    unfold InPlace
    rw [spots_refreshCounts]
    exact h
  | reopen _ _ l => exact inPlace_reopen h l
  | empty e => exact inPlace_empty h e
  | lose _ _ n j hj hs ho hc =>
    have exposed := h.ok.exposed n j hj (by simp [Spots.isExposed, hs])
    exact fit_moveJob h hj (ho hw) rfl fun _ => exposed
  | strand _ _ n j hj hs hx ho hc =>
    have exposed := h.ok.exposed n j hj (by rcases hs with e | e <;> simp [Spots.isExposed, e])
    have taken := RegistersOnly.taken j.slots s
    refine fit_moveJob (j := j) (same taken h) ?_ ?_ rfl fun _ => exposed
    · exact (congrArg (fun t => tget t n) taken.jobs).trans hj
    · rw [taken.spots]
      exact ho hw
  | restart => exact inPlace_restart s

end Sys2Proof.Machine
end

section
/-! Every deed keeps a position with a current job from being deferred (R54). -/

namespace Sys2Proof.Machine

open State

/-- No position with a current job is deferred (R54). -/
def Undeferred (s : State) : Prop := ∀ k x n, s.pos? k = some x → x.work.current = some n → x.work.deferred = false

namespace Undeferred

variable {s t : State}

theorem of_plan (h : Undeferred s) (plan : t.plan = s.plan) : Undeferred t := fun k x n hx =>
  h k x n ((pos?_of_plan plan).symm.trans hx)

/-- One position changes. -/
theorem modPos (h : Undeferred s) {k : PosKey} {f : Position → Position}
    (hf : ∀ x, s.pos? k = some x → (∀ n, x.work.current = some n → x.work.deferred = false) →
      ∀ n, (f x).work.current = some n → (f x).work.deferred = false) : Undeferred (s.modPos k f) := by
  intro m y n hy current
  rw [pos?_modPos] at hy
  split at hy
  next e =>
    subst e
    obtain ⟨x, hx, rfl⟩ := Option.map_eq_some_iff.mp hy
    exact hf x hx (fun n => h m x n hx) n current
  next => exact h m y n hy current

theorem modWork (h : Undeferred s) {k : PosKey} {f : PosWork → PosWork}
    (hf : ∀ x, s.pos? k = some x → (∀ n, x.work.current = some n → x.work.deferred = false) →
      ∀ n, (f x.work).current = some n → (f x.work).deferred = false) : Undeferred (s.modWork k f) := h.modPos hf

theorem registers (h : Undeferred s) (k : RegistersOnly s t) : Undeferred t := h.of_plan k.plan

theorem tellSatisfied (h : Undeferred s) (k : PosKey) : Undeferred (tellSatisfied k s) := by
  intro m y n hy current
  rw [pos?_tellSatisfied] at hy
  split at hy
  · obtain ⟨x, hx, rfl⟩ := Option.map_eq_some_iff.mp hy
    exact h m x n hx current
  · exact h m y n hy current

theorem createJob (h : Undeferred s) (k : PosKey) (x : Position) : Undeferred (createJob k x s) := by
  obtain ⟨v, w, e⟩ := createJob_eq k x s
  rw [e]
  refine registers (modWork (h.of_plan (t := { s.bumpEntry.addJob (nextNumber s) (newJob s k x) with slots := v, pages := w }) rfl)
    fun _ _ _ _ _ => rfl) (.raised _ _)

theorem needTest (h : Undeferred s) (k : PosKey) : Undeferred (needTest k s) := by
  unfold Machine.needTest
  split
  · exact h
  next x hx =>
    split
    next needs =>
      obtain ⟨none, -⟩ := Bool.and_eq_true_iff.mp needs
      have none := Option.isNone_iff_eq_none.mp none
      split
      · exact h.createJob k x
      · split
        · exact h
        · refine registers (h.modWork fun y hy _ n current => ?_) (.raised _ _)
          cases hx.symm.trans hy
          rw [none] at current
          cases current
    · exact h.modWork fun _ _ _ _ _ => rfl

theorem departCore (h : Undeferred s) {n : Nat} {j : Job} {t : JobState} (hj : s.job? n = some j) :
    Undeferred (departCore n t s) :=
  departCore_phases (M := Undeferred) (V := Undeferred) (N := Undeferred) hj (h.of_plan rfl)
    (fun _ h => h.registers (.starved _)) (fun _ h => h.registers (.released _ _)) (fun _ _ h => h.registers (.lowered _ _))
    (fun _ h _ => h)
    (fun t x h _ _ => registers ((h.modWork (f := fun w => { w with current := none }) fun _ _ _ _ c => by cases c).needTest j.key)
      (.starved _))
    (fun _ _ h => h.registers (.raised _ _)) (fun _ h => h.of_plan rfl) fun _ k h => h.tellSatisfied k

theorem refreshCounts (h : Undeferred s) (p : PressId) : Undeferred (refreshCounts p s) := by
  have standing : Undeferred (refreshStanding p s) := by
    unfold refreshStanding
    generalize s.positionsOf p = l
    induction l generalizing s with
    | nil => exact h
    | cons x l ih => exact ih (h.modWork fun _ _ h => h)
  unfold Machine.refreshCounts
  dsimp only
  rw [evalPress_eq]
  exact standing.of_plan (plan_raiseAll _ _)

end Undeferred

/-- Every deed keeps a position with a current job from being deferred. -/
theorem Deed.undeferred {w c : Prop} {g g' : Gaps} {s t : State} (d : Deed w c (g, s) (g', t)) (h : Undeferred s) :
    Undeferred t := by
  cases d with
  | still k => exact h.of_plan k.plan
  | expose _ _ e u hu =>
    rw [sendExpose, hu]
    exact h.of_plan rfl
  | create _ _ k x => exact h.createJob k x
  | defer _ _ k b hb =>
    refine h.modWork fun x hx _ n current => ?_
    cases b with
    | true =>
      have none := hb rfl x hx
      rw [none] at current
      cases current
    | false => rfl
  | tell _ _ k => exact h.tellSatisfied k
  | core _ _ n j t ht hj => exact h.departCore hj
  | queue _ _ n a j => exact (h.registers (.retaken j s)).of_plan rfl
  | fail _ _ n j => exact (h.registers (.retaken j s)).of_plan rfl
  | develop _ _ e u =>
    have left : Undeferred (s.modCtx e fun c => { c with current := none }) := h.of_plan rfl
    have released := left.registers (.released ((s.job? u.job).map Job.slots |>.getD []) _)
    exact released.of_plan rfl
  | reclaim _ _ l n j =>
    have released := h.registers (.released ((s.job? n).map Job.slots |>.getD []) s)
    exact released.of_plan rfl
  | mount _ _ k x n =>
    have moved : Undeferred ((takePlate k n s).modJob n fun j => { j with state := .mounted }) := h.of_plan rfl
    exact moved.modWork fun _ _ h => h
  | unmount _ _ k x => exact h.modWork fun _ _ h => h
  | flag _ _ k x n j =>
    have flagged : Undeferred (s.modJob n fun x => { x with superseded := true }) := h.of_plan rfl
    exact flagged.modWork fun _ _ _ _ c => by cases c
  | renew _ _ n old v cl x r ref => exact (h.registers (.cleared n s)).registers (.arrived n v cl _ x ref _ _)
  | strip _ _ n r => exact (h.registers (.cleared n s)).registers (.put n _ _)
  | remove _ _ n r => exact h.registers (.removed n r s)
  | hold _ _ k b => exact h.modPos fun _ _ h => h
  | content _ _ k => exact h.modPos fun _ _ h => h
  | add _ _ k x _ hx =>
    intro m y n hy current
    rw [pos?_putPos] at hy
    split at hy
    · cases hy
      rw [hx.1] at current
      cases current
    · exact h m y n hy current
  | drop _ _ k =>
    intro m y n hy current
    rw [pos?_dropPos] at hy
    split at hy
    · cases hy
    · exact h m y n hy current
  | recount _ _ p => exact h.refreshCounts p
  | empty e => exact h.of_plan e.plan
  | strand _ _ n j => exact (h.registers (.taken j.slots s)).of_plan rfl
  | restart => exact nofun
  | _ => exact h.of_plan rfl

end Sys2Proof.Machine
end

section
/-! Commands as chains of deeds: serving the engines, need tests, departures and returns to the queue. -/

namespace Sys2Proof.Machine

open State

/-! ### Chains of deeds -/

/-- A state that a chain of deeds has led to, with what stands open there: its tables are in order, each job stands in its place
where that held at the start, and no position with a current job is deferred where that held. -/
structure At (w c : Prop) (b : Gaps × State) (g : Gaps) (s : State) : Prop where
  tables : Tables s
  place : w → InPlace g s
  undeferred : c → Undeferred s
  way : Relation.ReflTransGen (Deed w c) b (g, s)

variable {w c : Prop} {b : Gaps × State} {g : Gaps} {s : State}

namespace At

/-- The start. -/
theorem start (o : Tables s) (p : w → Placed s) (d : c → Undeferred s) : At w c (Gaps.closed, s) Gaps.closed s :=
  ⟨o, fun hw => inPlace_closed.mpr (p hw), d, .refl⟩

/-- A deed. -/
theorem deed {g' : Gaps} {t : State} (h : At w c b g s) (d : Deed w c (g, s) (g', t)) : At w c b g' t :=
  ⟨d.tables h.tables, fun hw => d.inPlace hw (h.place hw), fun hc => d.undeferred (h.undeferred hc), h.way.tail d⟩

/-- Writes that leave everything as it is. -/
theorem still {t : State} (h : At w c b g s) (k : Still s t) : At w c b g t := h.deed (.still k)

/-- Where it is not known that each job stands in its place, nothing is said of what stands open. -/
theorem blind (h : At w c b g s) (hw : ¬ w) (g' : Gaps) : At w c b g' s := h.deed (.blind g g' s hw)

/-- The same gaps, said differently. -/
theorem same {g' : Gaps} (h : At w c b g s) (e : g = g') : At w c b g' s := e ▸ h

theorem raised (h : At w c b g s) (n : Notice) : At w c b g (raise n s) := h.still (.raised n s)

theorem starved (h : At w c b g s) : At w c b g (evalStarved s) := h.still (.starved s)

theorem sent (h : At w c b g s) (x : LineCommand) : At w c b g (s.send x) := h.still (.sent x s)

/-- A fold of chains. -/
theorem foldl {α : Type} {f : State → α → State} {G : List α → Gaps} (l : List α) (h : At w c b (G l) s)
    (step : ∀ x l s, At w c b (G (x :: l)) s → At w c b (G l) (f s x)) : At w c b (G []) (l.foldl f s) := by
  induction l generalizing s with
  | nil => exact h
  | cons x l ih => exact ih (step x l s h)

/-- A fold of chains that leave the same things open. -/
theorem foldl_same {α : Type} {f : State → α → State} (l : List α) (h : At w c b g s)
    (step : ∀ s, ∀ x ∈ l, At w c b g s → At w c b g (f s x)) : At w c b g (l.foldl f s) := by
  induction l generalizing s with
  | nil => exact h
  | cons x l ih => exact ih (step s x (by simp) h) fun s y hy => step s y (List.mem_cons_of_mem _ hy)

end At

/-! ### What stands open -/

namespace Gaps

/-- Two accounts of what stands open. -/
theorem ext {g h : Gaps} (loose : ∀ n, g.loose n ↔ h.loose n) (plates : ∀ n, g.plates n ↔ h.plates n)
    (doomed : ∀ n, g.doomed n ↔ h.doomed n)
    (spent : g.spent = h.spent) (untold : ∀ k, g.untold k ↔ h.untold k) (behind : ∀ k, g.behind k ↔ h.behind k)
    (press : ∀ p, g.press p ↔ h.press p) (page : ∀ n, g.page n ↔ h.page n) : g = h := by
  obtain ⟨a, p, b, c, d, e, f, i⟩ := g
  obtain ⟨a', p', b', c', d', e', f', i'⟩ := h
  obtain rfl : a = a' := funext fun n => propext (loose n)
  obtain rfl : p = p' := funext fun n => propext (plates n)
  obtain rfl : b = b' := funext fun n => propext (doomed n)
  obtain rfl : c = c' := spent
  obtain rfl : d = d' := funext fun n => propext (untold n)
  obtain rfl : e = e' := funext fun n => propext (behind n)
  obtain rfl : f = f' := funext fun n => propext (press n)
  obtain rfl : i = i' := funext fun n => propext (page n)
  rfl

/-- Leaving one thing out of a predicate that does not hold of it. -/
theorem without {α : Type} {P : α → Prop} {a : α} (h : ¬ P a) (x : α) : P x ∧ x ≠ a ↔ P x :=
  ⟨And.left, fun p => ⟨p, fun e => h (e ▸ p)⟩⟩

theorem ended_eq {g : Gaps} {n : Nat} (h : ¬ g.doomed n) : g.ended n = g.settle n :=
  ext (fun _ => Iff.rfl) (fun _ => Iff.rfl) (without h) rfl (fun _ => Iff.rfl) (fun _ => Iff.rfl) (fun _ => Iff.rfl) fun _ => Iff.rfl

theorem settle_eq {g : Gaps} {n : Nat} (h : ¬ g.loose n) (hp : ¬ g.plates n) : g.settle n = g :=
  ext (without h) (without hp) (fun _ => Iff.rfl) rfl (fun _ => Iff.rfl) (fun _ => Iff.rfl) (fun _ => Iff.rfl) fun _ => Iff.rfl

theorem told_eq {g : Gaps} {k : PosKey} (h : ¬ g.untold k) : g.told k = g :=
  ext (fun _ => Iff.rfl) (fun _ => Iff.rfl) (fun _ => Iff.rfl) rfl (without h) (fun _ => Iff.rfl) (fun _ => Iff.rfl)
    fun _ => Iff.rfl

theorem caught_eq {g : Gaps} {k : PosKey} (h : ¬ g.behind k) : g.caught k = g :=
  ext (fun _ => Iff.rfl) (fun _ => Iff.rfl) (fun _ => Iff.rfl) rfl (fun _ => Iff.rfl) (without h) (fun _ => Iff.rfl)
    fun _ => Iff.rfl

/-- No job is taken. -/
theorem take_none {g : Gaps} {M : Nat → Prop} (h : ∀ n, ¬ M n) : g.take M = g :=
  ext (fun n => ⟨fun l => l.resolve_right (h n), .inl⟩) (fun _ => Iff.rfl) (fun _ => Iff.rfl) rfl (fun _ => Iff.rfl)
    (fun _ => Iff.rfl) (fun _ => Iff.rfl) fun _ => Iff.rfl

/-- The same jobs are taken. -/
theorem take_congr {g : Gaps} {M N : Nat → Prop} (h : ∀ n, M n ↔ N n) : g.take M = g.take N := by
  rw [show M = N from funext fun n => propext (h n)]

theorem take_take {g : Gaps} {M N : Nat → Prop} : (g.take M).take N = g.take fun n => M n ∨ N n :=
  ext (fun _ => or_assoc) (fun _ => Iff.rfl) (fun _ => Iff.rfl) rfl (fun _ => Iff.rfl) (fun _ => Iff.rfl) (fun _ => Iff.rfl)
    fun _ => Iff.rfl

/-- A job that was taken stands in a place again. -/
theorem take_settle {g : Gaps} {M N : Nat → Prop} {n : Nat} (hn : ¬ g.loose n) (hp : ¬ g.plates n)
    (h : ∀ m, M m ∧ m ≠ n ↔ N m) : (g.take M).settle n = g.take N :=
  ext (fun m => ⟨fun ⟨l, ne⟩ => l.imp id fun l => (h m).mp ⟨l, ne⟩, fun l => l.elim (fun l => ⟨.inl l, fun e => hn (e ▸ l)⟩)
    fun l => ⟨.inr ((h m).mpr l).1, ((h m).mpr l).2⟩⟩) (without hp) (fun _ => Iff.rfl) rfl (fun _ => Iff.rfl) (fun _ => Iff.rfl)
    (fun _ => Iff.rfl) fun _ => Iff.rfl

/-- A single job that was taken stands in a place again. -/
theorem take_settle_single {g : Gaps} {n : Nat} (hn : ¬ g.loose n) (hp : ¬ g.plates n) :
    (g.take fun m => m = n).settle n = g :=
  (take_settle hn hp (N := fun _ => False) fun _ => ⟨fun h => h.2 h.1, False.elim⟩).trans (take_none fun _ h => h)

/-- A single plate that was taken stands in a place again. -/
theorem pull_settle_single {g : Gaps} {n : Nat} {M : Nat → Prop} (hM : ∀ m, M m ↔ m = n) (hn : ¬ g.loose n)
    (hp : ¬ g.plates n) : (g.pull M).settle n = g := by
  refine ext (fun m => ?_) (fun m => ?_) (fun _ => Iff.rfl) rfl (fun _ => Iff.rfl) (fun _ => Iff.rfl) (fun _ => Iff.rfl)
    fun _ => Iff.rfl
  · exact ⟨fun ⟨l, ne⟩ => l.resolve_right fun e => ne ((hM m).mp e), fun l => ⟨.inl l, fun e => hn (e ▸ l)⟩⟩
  · exact ⟨fun ⟨l, ne⟩ => l.resolve_right fun e => ne ((hM m).mp e), fun l => ⟨.inl l, fun e => hp (e ▸ l)⟩⟩

/-- A position's standing was open and has been told. -/
theorem untell_told {g : Gaps} {k : PosKey} : (g.untell fun q => q = k).told k = g.told k :=
  ext (fun _ => Iff.rfl) (fun _ => Iff.rfl) (fun _ => Iff.rfl) rfl
    (fun _ => ⟨fun h => ⟨h.1.resolve_right h.2, h.2⟩, fun h => ⟨.inl h.1, h.2⟩⟩) (fun _ => Iff.rfl) (fun _ => Iff.rfl)
    fun _ => Iff.rfl

/-- The standings of positions have been told. -/
def toldAll (g : Gaps) (ks : List PosKey) : Gaps := ks.foldl told g

theorem toldAll_eq {g : Gaps} (ks : List PosKey) :
    g.toldAll ks = { g with untold := fun k => g.untold k ∧ k ∉ ks } := by
  induction ks generalizing g with
  | nil =>
    exact ext (fun _ => Iff.rfl) (fun _ => Iff.rfl) (fun _ => Iff.rfl) rfl (fun _ => ⟨fun u => ⟨u, nofun⟩, And.left⟩) (fun _ => Iff.rfl)
      (fun _ => Iff.rfl) fun _ => Iff.rfl
  | cons q ks ih =>
    refine (ih (g := g.told q)).trans (ext (fun _ => Iff.rfl) (fun _ => Iff.rfl) (fun _ => Iff.rfl) rfl (fun k => ?_) (fun _ => Iff.rfl)
      (fun _ => Iff.rfl) fun _ => Iff.rfl)
    show (g.untold k ∧ k ≠ q) ∧ k ∉ ks ↔ g.untold k ∧ k ∉ q :: ks
    rw [List.mem_cons, not_or, and_assoc]

/-- Every standing that was open has been told. -/
theorem untell_toldAll {g : Gaps} {M : PosKey → Prop} {ks : List PosKey} (hM : ∀ k, M k → k ∈ ks)
    (hg : ∀ k ∈ ks, ¬ g.untold k) : (g.untell M).toldAll ks = g := by
  rw [toldAll_eq]
  exact ext (fun _ => Iff.rfl) (fun _ => Iff.rfl) (fun _ => Iff.rfl) rfl
    (fun k => ⟨fun u => u.1.resolve_right fun m => u.2 (hM k m), fun u => ⟨.inl u, fun m => hg k m u⟩⟩) (fun _ => Iff.rfl)
    (fun _ => Iff.rfl) fun _ => Iff.rfl

end Gaps

/-! ### Serving the engines -/

theorem fill_at (h : At w c b g s) (e : EngineId) : At w c b g (fill e s) := by
  unfold fill
  split
  next hn =>
    split
    next x hx =>
      obtain ⟨live, queued, -⟩ := firstFor_spec h.tables.jobs hx
      exact h.deed (.assign g s e x.1 x.2 live queued (by simpa using hn))
    next => exact h
  next => exact h

theorem preemptFrom_at (l : List (Nat × Job)) (h : At w c b g s)
    (hl : ∀ x ∈ l, s.job? x.1 = some x.2 ∧ x.2.state = .queued) (hd : (l.map Prod.fst).Nodup) :
    At w c b g (preemptFrom l s) := by
  induction l generalizing s with
  | nil => exact h
  | cons x l ih =>
    obtain ⟨n, j⟩ := x
    rw [List.map_cons, List.nodup_cons] at hd
    simp only [preemptFrom]
    split
    next e he =>
      unfold preemptChoice at he
      obtain ⟨-, preemptable⟩ := Bool.and_eq_true_iff.mp (List.find?_some (p := fun e => s.eligible e n j && s.preemptable e) he)
      obtain ⟨displaceable, -⟩ := Bool.and_eq_true_iff.mp preemptable
      obtain ⟨live, queued⟩ := hl (n, j) (by simp)
      unfold Contexts.displaceable at displaceable
      split at displaceable
      next u hu =>
        obtain ⟨stage, parked⟩ := Bool.and_eq_true_iff.mp displaceable
        have parks := h.deed (.park g s e u hu (of_decide_eq_true stage) (Option.isNone_iff_eq_none.mp parked))
        have assigned : At w c b g (preemptOn e n j s) := parks.deed (.assign g _ e n j live queued (by simp [State.engine]))
        refine ih assigned (fun y hy => ?_) hd.2
        obtain ⟨live', queued'⟩ := hl y (by simp [hy])
        have other : y.1 ≠ n := fun e => hd.1 (List.mem_map.mpr ⟨y, hy, e⟩)
        refine ⟨?_, queued'⟩
        simp only [preemptOn, Machine.assign, State.job?, jobs_send, jobs_modJob, jobs_modCtx, tget_tmod, if_neg other]
        exact live'
      next => cases displaceable
    next => exact h

theorem preemptAll_at (h : At w c b g s) : At w c b g (preemptAll s) := by
  refine preemptFrom_at _ h (fun x hx => ?_) ?_
  · obtain ⟨mem, queued⟩ := mem_offered hx
    exact ⟨tget_of_mem h.tables.jobs mem, queued⟩
  · have distinct : ((s.readyQueue .urgent).map Prod.fst).Nodup := by
      unfold State.readyQueue
      rw [((sortBy_perm _ _).map Prod.fst).nodup_iff]
      exact (keys_nodup h.tables.jobs).sublist (List.filter_sublist.map _)
    exact distinct.sublist (List.filter_sublist.map _)

theorem exposeOnce_at (h : At w c b g s) (l : LaneId) : At w c b g (exposeOnce l s) := by
  unfold exposeOnce
  split
  next room =>
    split
    next e he =>
      have feeds := feedsReady_of_choice he
      unfold feedsReady at feeds
      obtain ⟨lane, ready⟩ := Bool.and_eq_true_iff.mp feeds
      have lane : laneFed e = l := of_decide_eq_true lane
      subst lane
      have held : ∃ u, (s.engine e).ctx.next = some u := by
        unfold State.exposeReady at ready
        cases hu : (s.engine e).ctx.next with
        | none => rw [hu] at ready; simp at ready
        | some u => exact ⟨u, rfl⟩
      obtain ⟨u, hu⟩ := held
      exact h.deed (.expose g s e u hu ready room)
    next => exact h
  next => exact h

theorem serveEngines_at (h : At w c b g s) : At w c b g (serveEngines s) := by
  unfold serveEngines
  have filled : At w c b g (fillAll s) := h.foldl_same _ fun s e _ h => fill_at h e
  have lane (l : LaneId) {s : State} (h : At w c b g s) : At w c b g (exposeLane l s) :=
    exposeOnce_at (exposeOnce_at (exposeOnce_at h l) l) l
  exact (lane 1 (lane 0 (preemptAll_at filled))).still (.reached _)

theorem serve_at (h : At w c b g s) : At w c b g (serve s) := serveEngines_at h.starved

/-! ### Need tests -/

theorem needTest_at (h : At w c b g s) (k : PosKey) : At w c b g (needTest k s) := by
  unfold needTest
  split
  next => exact h
  next x hx =>
    split
    next needs =>
      split
      next room => exact h.deed (.create g s k x hx needs room)
      next =>
        split
        next => exact h
        next =>
          refine (h.deed (.defer g s k true fun _ y hy => ?_)).raised _
          cases hx.symm.trans hy
          obtain ⟨none, -⟩ := Bool.and_eq_true_iff.mp needs
          exact Option.isNone_iff_eq_none.mp none
    next => exact h.deed (.defer g s k false nofun)

theorem tellSatisfied_at (h : At w c b g s) (k : PosKey) : At w c b (g.told k) (tellSatisfied k s) := h.deed (.tell g s k)

theorem tellAll_at (h : At w c b g s) (ks : List PosKey) : At w c b (g.toldAll ks) (tellAll ks s) := by
  unfold tellAll
  induction ks generalizing g s with
  | nil => exact h
  | cons k ks ih => exact ih (tellSatisfied_at h k)

theorem needAndServe_at (h : At w c b g s) (k : PosKey) : At w c b (g.told k) (needAndServe k s) :=
  serve_at (tellSatisfied_at (needTest_at h k) k)

/-! ### Departures -/

theorem serveFrom_at {look : State → State} (hlook : ∀ s, At w c b g s → At w c b g (look s)) (l : List PosKey) (h : At w c b g s) :
    At w c b g (serveFrom look l s) := by
  induction l generalizing s with
  | nil => exact h
  | cons k l ih =>
    have tested := needTest_at h k
    unfold serveFrom
    dsimp only
    split
    · split
      · exact ih (hlook _ tested)
      · exact hlook _ tested
    · exact ih tested

theorem departBy_at {look : State → State} {n : Nat} {j : Job} {t : JobState}
    (hlook : ∀ s, At w c b (g.ended n) s → At w c b (g.ended n) (look s)) (h : At w c b g s)
    (ht : t = .retired ∨ t = .cancelled ∨ t = .discarded) (hj : s.job? n = some j) (off : w → (spots s).Off n) :
    At w c b (g.ended n) (departBy look n t s) :=
  hlook _ (serveFrom_at hlook _ (h.deed (.core g s n j t ht hj off)))

theorem depart_at {n : Nat} {j : Job} {t : JobState} (h : At w c b g s) (ht : t = .retired ∨ t = .cancelled ∨ t = .discarded)
    (hj : s.job? n = some j) (off : w → (spots s).Off n) : At w c b (g.ended n) (depart n t s) :=
  departBy_at (fun _ => serve_at) h ht hj off

end Sys2Proof.Machine
end

section
/-! Returns to the queue, failures, the sorter's look and supersedes as chains of deeds. -/

namespace Sys2Proof.Machine

open State

variable {w c : Prop} {b : Gaps × State} {g : Gaps} {s : State} {n : Nat}

/-! ### Jobs that have been taken out -/

namespace At

/-- A job that has been taken out stands nowhere, and is live. -/
theorem taken (h : At w c b g s) (hl : w → g.loose n) (hw : w) :
    (spots s).Off n ∧ ∃ j, s.job? n = some j ∧ j.state ≠ .queued ∧ j.state ≠ .failed ∧
      (j.state = .racked ∨ j.state = .mounted → g.plates n) := by
  obtain ⟨off, live⟩ := (h.place hw).off n (hl hw)
  exact ⟨off.of_but, live⟩

theorem taken_off (h : At w c b g s) (hl : w → g.loose n) (hw : w) : (spots s).Off n := (h.taken hl hw).1

/-- A job that was at work when it was taken is no plate of a rack or a press. -/
theorem taken_state (h : At w c b g s) (hl : w → g.loose n) (hp : ¬ g.plates n) {j : Job} (hj : s.job? n = some j) (hw : w) :
    j.state ≠ .racked ∧ j.state ≠ .mounted := by
  obtain ⟨-, i, hi, -, -, plate⟩ := h.taken hl hw
  cases hj.symm.trans hi
  exact ⟨fun e => hp (plate (.inl e)), fun e => hp (plate (.inr e))⟩

/-- A job that has been taken out is live. -/
theorem gone (h : At w c b g s) (hl : w → g.loose n) (hj : s.job? n = none) (g' : Gaps) : At w c b g' s := by
  by_cases hw : w
  · obtain ⟨-, j, hj', -⟩ := h.taken hl hw
    rw [hj] at hj'
    cases hj'
  · exact h.blind hw g'

end At

/-! ### Faults and returns -/

theorem recordFault_at (h : At w c b g s) (n : Nat) (cause : FaultCause) (p : FaultParam) :
    At w c b g (recordFault n cause p s) := h.deed (.note g s n _ fun _ => rfl)

theorem requeue_at (h : At w c b g s) {j : Job} (hj : s.job? n = some j) (off : w → (spots s).Off n)
    (hs : j.superseded = false ∨ j.state = .failed) (hr : w → j.state ≠ .racked ∧ j.state ≠ .mounted)
    (hb : ∀ k, ¬ g.behind k) (a : Nat) (why : RequeueReason) (f : Option FaultRecord) : At w c b (g.settle n) (requeue n a why f s) := by
  rw [requeue_eq a why f hj]
  exact (h.deed (.queue g s n a j hj off hs hr hb)).raised _

theorem failJob_at (h : At w c b g s) {j : Job} (hj : s.job? n = some j) (off : w → (spots s).Off n)
    (hs : j.superseded = false) (hr : w → j.state ≠ .racked ∧ j.state ≠ .mounted)
    (hb : ∀ k, ¬ g.behind k) : At w c b (g.settle n) (failJob n s) := by
  have failed := h.deed (.fail g s n j hj off hs hr hb)
  unfold failJob
  rw [hj]
  dsimp only
  split
  · exact failed.raised _
  · exact failed

theorem spoilDecision_at (hl : w → g.loose n) (hp : ¬ g.plates n) (hb : ∀ k, ¬ g.behind k) (h : At w c b g s) {j : Job} (hj : s.job? n = some j) (hs : j.superseded = false) :
    At w c b (g.settle n) (spoilDecision n s) := by
  unfold spoilDecision
  rw [hj]
  dsimp only
  split
  · have queued := h.deed (.queue g s n (j.attempt + 1) j hj (h.taken_off hl) (.inl hs) (h.taken_state hl hp hj) hb)
    split
    · exact queued.raised _
    · exact queued
  · exact failJob_at h hj (h.taken_off hl) hs (h.taken_state hl hp hj) hb

section Taken

variable (hl : w → g.loose n) (hp : ¬ g.plates n) (hd : ¬ g.doomed n) (hb : ∀ k, ¬ g.behind k)
include hl hd

theorem departTaken_at {look : State → State} {j : Job} {t : JobState}
    (hlook : ∀ s, At w c b (g.settle n) s → At w c b (g.settle n) (look s)) (h : At w c b g s)
    (ht : t = .retired ∨ t = .cancelled ∨ t = .discarded) (hj : s.job? n = some j) :
    At w c b (g.settle n) (departBy look n t s) := by
  rw [← Gaps.ended_eq hd] at hlook ⊢
  exact departBy_at hlook h ht hj (h.taken_off hl)

include hp hb

theorem returnTaken_at (h : At w c b g s) (why : RequeueReason) {t : JobState}
    (ht : t = .retired ∨ t = .cancelled ∨ t = .discarded) : At w c b (g.settle n) (returnTaken n why t s) := by
  unfold returnTaken
  split
  next hj => exact h.gone hl hj _
  next j hj =>
    split
    · exact departTaken_at hl hd (fun _ => serve_at) h ht hj
    next hs =>
      exact (requeue_at h hj (h.taken_off hl) (.inl (by simpa using hs)) (h.taken_state hl hp hj) hb j.attempt why none).starved

theorem returnByFaultBy_at {look : State → State}
    (hlook : ∀ s, At w c b (g.settle n) s → At w c b (g.settle n) (look s)) (h : At w c b g s) (cause : FaultCause)
    (p : FaultParam) {t : JobState} (ht : t = .retired ∨ t = .cancelled ∨ t = .discarded) :
    At w c b (g.settle n) (returnByFaultBy look n cause p t s) := by
  have recorded := recordFault_at h n cause p
  unfold returnByFaultBy
  dsimp only
  generalize recordFault n cause p s = u at recorded
  split
  next hj => exact recorded.gone hl hj _
  next j hj =>
    split
    · exact departTaken_at hl hd hlook recorded ht hj
    next hs =>
      exact requeue_at recorded hj (recorded.taken_off hl) (.inl (by simpa using hs)) (recorded.taken_state hl hp hj) hb j.attempt
        .fault j.lastFault

theorem spoilBy_at {look : State → State} (hlook : ∀ s, At w c b (g.settle n) s → At w c b (g.settle n) (look s))
    (h : At w c b g s) (cause : FaultCause) (p : FaultParam) : At w c b (g.settle n) (spoilBy look n cause p s) := by
  have recorded := recordFault_at h n cause p
  unfold spoilBy
  dsimp only
  generalize recordFault n cause p s = u at recorded
  split
  next hj => exact recorded.gone hl hj _
  next j hj =>
    split
    · exact departTaken_at hl hd hlook recorded (.inr (.inr rfl)) hj
    next hs => exact spoilDecision_at hl hp hb recorded hj (by simpa using hs)

end Taken

/-! ### The sorter's look -/

theorem findBlocked_at (h : At w c b g s) (l : LaneId) : At w c b g (findBlocked l s) := by
  rcases findBlocked_cases l s with e | ⟨n, j, -, e⟩
  · rw [e]
    exact h
  · rw [e]
    exact (h.still (.floor rfl)).raised _

/-- The lane that is granted is a candidate. -/
theorem candidate_of_choice {l : LaneId} {n : Nat} {j : Job} {d : Destination} (h : s.grantChoice = some (l, n, j, d)) :
    s.candidate l = some (n, j, d) := by
  unfold State.grantChoice at h
  cases h0 : s.candidate 0 <;> cases h1 : s.candidate 1 <;> rw [h0, h1] at h <;> dsimp only at h
  · cases h
  · cases h
    exact h1
  · cases h
    exact h0
  · split at h
    · cases h
      exact h0
    · split at h
      · cases h
        exact h1
      · split at h
        · cases h
          exact h1
        · cases h
          exact h0

theorem sorterLook_at (h : At w c b g s) : At w c b g (sorterLook s) := by
  unfold sorterLook
  split
  next free =>
    have looked := findBlocked_at (findBlocked_at h 0) 1
    have idle : (findBlocked 1 (findBlocked 0 s)).sorter.delivery = none := by
      rw [(findBlocked_both s).rest]
      unfold Sorter.isFree at free
      obtain ⟨idle, -⟩ := Bool.and_eq_true_iff.mp free
      obtain ⟨idle, -⟩ := Bool.and_eq_true_iff.mp idle
      exact Option.isNone_iff_eq_none.mp idle
    dsimp only
    generalize findBlocked 1 (findBlocked 0 s) = u at looked idle
    split
    next l n j d choice =>
      have candidate := (candidate_eq_some_iff u l n j d).mp (candidate_of_choice choice)
      have place : u.destinationOf j = some d := by
        rw [destinationOf_eq]
        exact candidate.place
      have granted := looked.deed (.grant g u l n j d idle candidate.job candidate.stage place)
      unfold Machine.grant
      dsimp only
      have used (t : State) : Still t t.useSorterStep := .of_eq rfl rfl rfl rfl rfl rfl rfl rfl rfl rfl rfl rfl
      have sent := (granted.sent (.deliver l n j.attempt d)).still (used _)
      split
      · exact sent.still (.laneStep l _)
      · exact sent
    next => exact looked
  next => exact h

end Sys2Proof.Machine
end

section
/-! Jobs that leave the contexts of their engine, as deeds (R77, R79, R83). -/

namespace Sys2Proof.Machine

open State

/-! ### What an engine's contexts hold -/

/-- A job is in a context of an engine. -/
theorem has_iff (x : Contexts) (n : Nat) : x.has n ↔ (∃ u, x.current = some u ∧ u.job = n) ∨
    (∃ u, x.next = some u ∧ u.job = n) ∨ ∃ u, x.parked = some u ∧ u.job = n := by
  unfold Contexts.has Spots.HeldAt
  refine or_congr Option.map_eq_some_iff (or_congr ?_ ?_)
  · constructor
    · rintro ⟨y, hy⟩
      obtain ⟨u, hu, job, -⟩ := waitSpot_some.mp hy
      exact ⟨u, hu, job⟩
    · rintro ⟨u, hu, rfl⟩
      exact ⟨u.stage, waitSpot_some.mpr ⟨u, hu, rfl, rfl⟩⟩
  · constructor
    · rintro ⟨y, hy⟩
      obtain ⟨u, hu, job, -⟩ := waitSpot_some.mp hy
      exact ⟨u, hu, job⟩
    · rintro ⟨u, hu, rfl⟩
      exact ⟨u.stage, waitSpot_some.mpr ⟨u, hu, rfl, rfl⟩⟩

/-- Contexts that hold fewer jobs. -/
theorem ctxFewer_of {x y : Contexts} (current : y.current = none ∨ y.current = x.current)
    (next : y.next = none ∨ y.next = x.next ∨ (y.next = x.parked ∧ y.parked = none))
    (parked : y.parked = none ∨ y.parked = x.parked) : CtxFewer x y := by
  refine ⟨?_, ?_, ?_⟩
  · exact current.imp (fun e => by rw [e]; rfl) fun e => by rw [e]
  · refine next.imp (fun e => by rw [e]; rfl) (Or.imp (fun e => by rw [e]) fun e => ⟨by rw [e.1], by rw [e.2]; rfl⟩)
  · exact parked.imp (fun e => by rw [e]; rfl) fun e => by rw [e]

/-- A parked job that moves to next. -/
theorem ctxFewer_parkedReturn (x : Contexts) : CtxFewer x x.parkedReturn := by
  unfold Contexts.parkedReturn
  split
  · exact ctxFewer_of (.inr rfl) (.inr (.inl rfl)) (.inr rfl)
  · exact ctxFewer_of (.inr rfl) (.inr (.inr ⟨rfl, rfl⟩)) (.inl rfl)

/-- It stays at its engine. -/
theorem has_parkedReturn (x : Contexts) (n : Nat) : x.parkedReturn.has n ↔ x.has n := by
  rw [has_iff, has_iff]
  unfold Contexts.parkedReturn
  split
  · exact Iff.rfl
  next none =>
    dsimp only
    rw [none]
    simp

/-- Two jobs of an engine are different. -/
structure Apart (x : Contexts) : Prop where
  waiting : ∀ u v, x.next = some u → x.parked = some v → u.job ≠ v.job
  next : ∀ u v, x.current = some u → x.next = some v → u.job ≠ v.job
  parked : ∀ u v, x.current = some u → x.parked = some v → u.job ≠ v.job

theorem InPlace.ctx_apart {g : Gaps} {s : State} (h : InPlace g s) (e : EngineId) : Apart (s.engine e).ctx := by
  have at_current (u : CurrentCtx) (hu : (s.engine e).ctx.current = some u) : (spots s).cur e = some u.job :=
    congrArg (Option.map CurrentCtx.job) hu
  have at_next (u : WaitingCtx) (hu : (s.engine e).ctx.next = some u) : (spots s).next e = some (u.job, u.stage) :=
    congrArg waitSpot hu
  have at_parked (u : WaitingCtx) (hu : (s.engine e).ctx.parked = some u) : (spots s).parked e = some (u.job, u.stage) :=
    congrArg waitSpot hu
  refine ⟨fun u v hu hv => h.ok.apart e _ _ _ _ (at_next u hu) (at_parked v hv), fun u v hu hv same => ?_,
    fun u v hu hv same => ?_⟩
  · obtain ⟨i, hi, exposing, -⟩ := h.ok.current e _ (at_current u hu)
    obtain ⟨j, hj, assigned, -⟩ := h.ok.next e _ _ (at_next v hv)
    rw [same] at hi
    cases hi.symm.trans hj
    rw [exposing] at assigned
    cases assigned
  · obtain ⟨i, hi, exposing, -⟩ := h.ok.current e _ (at_current u hu)
    obtain ⟨j, hj, assigned, -⟩ := h.ok.parked e _ _ (at_parked v hv)
    rw [same] at hi
    cases hi.symm.trans hj
    rw [exposing] at assigned
    cases assigned

/-! ### Leaving -/

variable {w c : Prop} {b : Gaps × State} {g : Gaps} {s : State} {n : Nat}

namespace At

/-- The same jobs are taken, where each job is known to stand in its place. -/
theorem taking {M N : Nat → Prop} (h : At w c b (g.take M) s) (hM : w → ∀ n, M n ↔ N n) : At w c b (g.take N) s := by
  by_cases hw : w
  · exact h.same (Gaps.take_congr (hM hw))
  · exact h.blind hw _

/-- The contexts of an engine hold fewer jobs. -/
theorem fewer {M : Nat → Prop} (h : At w c b g s) {e : EngineId} {f : Contexts → Contexts}
    (hl : CtxFewer (s.engine e).ctx (f (s.engine e).ctx))
    (hM : w → ∀ n, M n ↔ (s.engine e).ctx.has n ∧ ¬ (f (s.engine e).ctx).has n) : At w c b (g.take M) (s.modCtx e f) :=
  h.deed (.fewer g s e f M hl fun hw n => (hM hw n).mp)

theorem parkedReturn (h : At w c b g s) (e : EngineId) : At w c b g (s.modCtx e Contexts.parkedReturn) :=
  (h.fewer (M := fun _ => False) (ctxFewer_parkedReturn _) fun _ n =>
    ⟨False.elim, fun ⟨before, after⟩ => after ((has_parkedReturn _ n).mpr before)⟩).same (Gaps.take_none fun _ h => h)

theorem listCancel (h : At w c b g s) (e : EngineId) (n : Nat) (cmd : CancelCommand) :
    At w c b g (Machine.listCancel e n cmd s) := by
  unfold Machine.listCancel
  exact h.still (.ctx rfl rfl rfl)

theorem cancelJob (h : At w c b g s) (e : EngineId) (n : Nat) (cmd : CancelCommand) :
    At w c b g (Machine.cancelJob e n cmd s) := (h.listCancel e n cmd).sent _

/-- The next job leaves its context. -/
theorem dropNext (h : At w c b g s) {e : EngineId} {u : WaitingCtx} (hu : (s.engine e).ctx.next = some u) :
    At w c b (g.take fun m => m = u.job) (s.modCtx e fun x => { x with next := none }) := by
  refine h.fewer (ctxFewer_of (.inr rfl) (.inl rfl) (.inr rfl)) fun hw m => ?_
  have apart := InPlace.ctx_apart (h.place hw) e
  rw [has_iff, has_iff]
  dsimp only
  constructor
  · rintro rfl
    refine ⟨.inr (.inl ⟨u, hu, rfl⟩), ?_⟩
    rintro (⟨v, hv, same⟩ | ⟨v, hv, -⟩ | ⟨v, hv, same⟩)
    · exact apart.next v u hv hu same
    · cases hv
    · exact apart.waiting u v hu hv same.symm
  · rintro ⟨in_current | ⟨v, hv, same⟩ | in_parked, out⟩
    · exact absurd (.inl in_current) out
    · cases hu.symm.trans hv
      exact same.symm
    · exact absurd (.inr (.inr in_parked)) out

/-- The parked job leaves its context. -/
theorem dropParked (h : At w c b g s) {e : EngineId} {u : WaitingCtx} (hu : (s.engine e).ctx.parked = some u) :
    At w c b (g.take fun m => m = u.job) (s.modCtx e fun x => { x with parked := none }) := by
  refine h.fewer (ctxFewer_of (.inr rfl) (.inr (.inl rfl)) (.inl rfl)) fun hw m => ?_
  have apart := InPlace.ctx_apart (h.place hw) e
  rw [has_iff, has_iff]
  dsimp only
  constructor
  · rintro rfl
    refine ⟨.inr (.inr ⟨u, hu, rfl⟩), ?_⟩
    rintro (⟨v, hv, same⟩ | ⟨v, hv, same⟩ | ⟨v, hv, -⟩)
    · exact apart.parked v u hv hu same
    · exact apart.waiting v u hv hu same
    · cases hv
  · rintro ⟨in_current | in_next | ⟨v, hv, same⟩, out⟩
    · exact absurd (.inl in_current) out
    · exact absurd (.inr (.inl in_next)) out
    · cases hu.symm.trans hv
      exact same.symm

end At

end Sys2Proof.Machine
end

section
/-! Supersedes and promotions as chains of deeds (R59 to R63, R69). -/

namespace Sys2Proof.Machine

open State

variable {w c : Prop} {b : Gaps × State} {g : Gaps} {s : State} {n : Nat}

/-- A job that no engine's contexts are found to hold. -/
theorem contextOf_none (h : contextOf s n = none) (e : EngineId) : ¬ (s.engine e).ctx.has n := by
  unfold contextOf at h
  have none : (s.engine e).ctx.holder n = Option.none :=
    Option.map_eq_none_iff.mp (List.findSome?_eq_none_iff.mp h e (mem_allEngines e))
  unfold Contexts.holder at none
  rw [has_iff]
  split at none
  · cases none
  next c1 =>
    split at none
    · cases none
    next c2 =>
      split at none
      · cases none
      next c3 =>
        rintro (⟨u, hu, same⟩ | ⟨u, hu, same⟩ | ⟨u, hu, same⟩)
        · exact c1 (by simp [hu, same])
        · exact c2 (by simp [hu, same])
        · exact c3 (by simp [hu, same])

/-- An ASSIGNED job that no engine's contexts are found to hold stands nowhere. -/
theorem off_unheld {g : Gaps} {j : Job} (h : InPlace g s) (hj : s.job? n = some j) (hs : j.state = .assigned)
    (none : ∀ e, ¬ (s.engine e).ctx.has n) : (spots s).Off n := by
  refine (h.ok.off_by hj (fun _ => ⟨fun e he => none e (.inl he), fun e x he => none e (.inr (.inl ⟨x, he⟩)),
    fun e x he => none e (.inr (.inr ⟨x, he⟩))⟩) (fun e => ?_) (fun e => ?_) fun e => ?_).of_but
  · exfalso
    rcases e with e | e <;> simp [hs] at e
  · simp [hs] at e
  · simp [hs] at e

/-- An ASSIGNED job leaves its engine, and stands nowhere then. -/
theorem dropAssigned_at {j : Job} (h : At w c b g s) (hj : s.job? n = some j) (hs : j.state = .assigned) :
    ∃ g', (g' = g ∨ g' = g.take fun m => m = n) ∧ At w c b g' (dropAssigned n s) ∧
      (w → (spots (dropAssigned n s)).Off n) := by
  have left (taken : At w c b (g.take fun m => m = n) (dropAssigned n s)) :
      ∃ g', (g' = g ∨ g' = g.take fun m => m = n) ∧ At w c b g' (dropAssigned n s) ∧
        (w → (spots (dropAssigned n s)).Off n) := ⟨_, .inr rfl, taken, taken.taken_off fun _ => .inr rfl⟩
  have stays (unmoved : dropAssigned n s = s) (off : w → (spots s).Off n) :
      ∃ g', (g' = g ∨ g' = g.take fun m => m = n) ∧ At w c b g' (dropAssigned n s) ∧
        (w → (spots (dropAssigned n s)).Off n) := by
    rw [unmoved]
    exact ⟨g, .inl rfl, h, off⟩
  cases hc : contextOf s n with
  | none =>
    have unmoved : dropAssigned n s = s := by
      unfold dropAssigned
      rw [hc]
    exact stays unmoved fun hw => off_unheld (h.place hw) hj hs (contextOf_none hc)
  | some x =>
    obtain ⟨e, x⟩ := x
    obtain ⟨in_current, in_next, in_parked⟩ := contextOf_spec hc
    cases x with
    | current =>
      have unmoved : dropAssigned n s = s := by
        unfold dropAssigned
        rw [hc]
      refine stays unmoved fun hw => ?_
      obtain ⟨u, hu, rfl⟩ := in_current rfl
      obtain ⟨i, hi, exposing, -⟩ := (h.place hw).ok.current e u.job (congrArg (Option.map CurrentCtx.job) hu)
      cases hj.symm.trans hi
      rw [hs] at exposing
      cases exposing
    | next =>
      obtain ⟨u, hu, rfl⟩ := in_next rfl
      refine left ?_
      unfold dropAssigned
      rw [hc]
      exact ((h.dropNext hu).cancelJob e u.job .discard).parkedReturn e
    | parked =>
      obtain ⟨u, hu, rfl⟩ := in_parked rfl
      refine left ?_
      unfold dropAssigned
      rw [hc]
      exact (h.dropParked hu).cancelJob e u.job .discard

/-- An ASSIGNED job leaves its engine, and the table. -/
theorem dropAssigned_departs {j : Job} {m : Notice} (h : At w c b g s) (hj : s.job? n = some j) (hs : j.state = .assigned) :
    At w c b (g.ended n) (depart n .cancelled (raise m (dropAssigned n s))) := by
  have live : (raise m (dropAssigned n s)).job? n = some j := by
    obtain ⟨v, l, parts⟩ := dropAssigned_parts (n := n) (s := s)
    rw [job?_raise, parts]
    exact hj
  obtain ⟨g', gaps, left, off⟩ := dropAssigned_at h hj hs
  have gone : At w c b (g'.ended n) (depart n .cancelled (raise m (dropAssigned n s))) := by
    refine depart_at (left.raised m) (.inr (.inl rfl)) live fun hw => ?_
    rw [(Still.raised m _).spots]
    exact off hw
  refine gone.same ?_
  rcases gaps with rfl | rfl
  · rfl
  · refine Gaps.ext (fun m => ?_) (fun _ => Iff.rfl) (fun _ => Iff.rfl) rfl (fun _ => Iff.rfl) (fun _ => Iff.rfl)
      (fun _ => Iff.rfl) fun _ => Iff.rfl
    exact ⟨fun ⟨l, ne⟩ => ⟨l.resolve_right ne, ne⟩, fun ⟨l, ne⟩ => ⟨.inl l, ne⟩⟩

/-- What stands open once a position's current job has been flagged. -/
def Gaps.flagged (g : Gaps) (k : PosKey) (n : Nat) (x : JobState) : Gaps :=
  { g.untell fun q => q = k with doomed := fun m => g.doomed m ∨ (m = n ∧ (x = .queued ∨ x = .failed)) }

/-- The effect of a supersede for the job's state (R59, R60 to R62). -/
theorem supersedeEffect_at {k : PosKey} {j : Job} (h : At w c b (g.flagged k n j.state) s)
    (hj : s.job? n = some { j with superseded := true }) (hd : ¬ g.doomed n) (hl : ¬ g.loose n) (hp : ¬ g.plates n) :
    At w c b (g.untell fun q => q = k) (supersedeEffect n j s) := by
  have ended : (g.flagged k n j.state).ended n = g.untell fun q => q = k := by
    refine Gaps.ext (Gaps.without hl) (Gaps.without hp) (fun m => ?_) rfl (fun _ => Iff.rfl) (fun _ => Iff.rfl) (fun _ => Iff.rfl)
      fun _ => Iff.rfl
    exact ⟨fun ⟨d, ne⟩ => d.resolve_right fun e => ne e.1, fun d => ⟨.inl d, fun e => hd (e ▸ d)⟩⟩
  by_cases waits : j.state = .queued ∨ j.state = .failed
  · rw [supersedeEffect_ends waits, ← ended]
    have told := h.raised (supersedeNotice n j .cancelled)
    refine depart_at (j := { j with superseded := true }) told (.inr (.inl rfl)) ?_ fun hw => ?_
    · rw [job?_raise]
      exact hj
    · rw [(Still.raised _ s).spots]
      exact ((h.place hw).ok.off_state hj (by rcases waits with e | e <;> simp [e])).of_but
  have plain : g.flagged k n j.state = g.untell fun q => q = k := by
    refine Gaps.ext (fun _ => Iff.rfl) (fun _ => Iff.rfl) (fun m => ?_) rfl (fun _ => Iff.rfl) (fun _ => Iff.rfl)
      (fun _ => Iff.rfl) fun _ => Iff.rfl
    exact ⟨fun d => d.resolve_right fun e => waits e.2, .inl⟩
  cases hs : j.state with
  | queued => exact absurd (.inl hs) waits
  | failed => exact absurd (.inr hs) waits
  | assigned =>
    by_cases sent : sentExpose s n = true
    · rw [supersedeEffect_flags (.inl ⟨hs, sent⟩)]
      exact (h.same plain).raised _
    · rw [supersedeEffect_unsent hs sent, ← ended]
      exact dropAssigned_departs h hj hs
  | exposing | developing | uncertain =>
    rw [supersedeEffect_flags (.inr (by simp [hs]))]
    exact (h.same plain).raised _
  | finishing =>
    rw [supersedeEffect_finishing hs]
    exact sorterLook_at ((h.same plain).raised _)
  | racked =>
    rw [supersedeEffect_racked hs]
    exact (h.same plain).still (.raisedAll _ s)
  | mounted =>
    by_cases running : (s.press j.press).state = .running
    · rw [supersedeEffect_running hs running]
      exact (h.same plain).still (.raisedAll _ s)
    · rw [supersedeEffect_standing hs running]
      exact (h.same plain).still (.raisedAll _ s)
  | retired | cancelled | discarded =>
    unfold supersedeEffect
    rw [hs]
    exact (h.same plain).raised _

/-- A position's current job is a live job of its own. -/
theorem At.own {k : PosKey} {x : Position} (h : At w c b g s) (hw : w) (hx : s.pos? k = some x)
    (hc : x.work.current = some n) : ∃ j, s.job? n = some j ∧ j.key = k :=
  (h.place hw).ok.own k n x.work.mounted (by rw [← hc]; exact work_some hx)

/-- A position's current job is superseded (R59). -/
theorem supersede_at {k : PosKey} {x : Position} (h : At w c b g s) (hx : s.pos? k = some x) (hc : x.work.current = some n)
    (hd : ¬ g.doomed n) (hl : ¬ g.loose n) (hp : ¬ g.plates n) : At w c b (g.told k) (supersede k n s) := by
  cases hj : s.job? n with
  | none =>
    have none : ¬ w := fun hw => by
      obtain ⟨i, hi, -⟩ := h.own hw hx hc
      rw [hj] at hi
      cases hi
    unfold supersede
    rw [hj]
    exact h.blind none _
  | some j =>
    rw [supersede_eq hj, ← Gaps.untell_told]
    have flagged : At w c b (g.flagged k n j.state) (detached k n j s) := h.deed (.flag g s k x n j hx hc hj)
    exact tellSatisfied_at (supersedeEffect_at flagged (job?_detached hj) hd hl hp) k

/-- The position has no current job then, and is not deferred, where no position with a current job was deferred. -/
theorem supersede_leaves {k : PosKey} {x : Position} (o : Tables s) (hx : s.pos? k = some x)
    (own : s.job? n ≠ none) (hd : x.work.deferred = false) :
    ∀ y, (supersede k n s).pos? k = some y → y.work.current = none ∧ y.work.deferred = false := by
  intro y hy
  cases hj : s.job? n with
  | none => exact absurd hj own
  | some j =>
    by_cases ends : EndsSuperseded s n j
    · obtain ⟨-, -, -, place⟩ := supersede_ends (k := k) o hj ends
      obtain ⟨z, hz, current, deferred, -⟩ := place x hx hd
      cases hy.symm.trans hz
      exact ⟨current, deferred⟩
    · have plan : (supersedeEffect n j (detached k n j s)).plan = (detached k n j s).plan := by
        by_cases live : j.state ∈ [.retired, .cancelled, .discarded]
        · have flagged : supersedeEffect n j (detached k n j s) =
              raise (.jobSuperseded n j.key j.state .flagged) (detached k n j s) := by
            unfold supersedeEffect
            simp only [List.mem_cons, List.not_mem_nil, or_false] at live
            rcases live with e | e | e <;> rw [e]
          rw [flagged]
          exact plan_raise _ _
        · exact (supersedeEffect_stays live ends).2
      have held := (pos?_of_plan plan).trans (pos?_detached (n := n) (j := j) hx)
      obtain ⟨b, hb⟩ := tellSatisfied_standsAs k k _ _ held
      rw [supersede_eq hj] at hy
      cases hy.symm.trans hb
      exact ⟨rfl, hd⟩

/-- Superseding the current job of a position, if it has one. -/
theorem supersedeAt_at (h : At w c b g s) (k : PosKey) (hd : ∀ n, ¬ g.doomed n) (hl : ∀ n, ¬ g.loose n)
    (hp : ∀ n, ¬ g.plates n) : At w c b g (supersedeAt k s) ∨ At w c b (g.told k) (supersedeAt k s) := by
  unfold supersedeAt
  split
  next n hn =>
    obtain ⟨x, hx, current⟩ := Option.bind_eq_some_iff.mp hn
    exact .inr (supersede_at h hx current (hd n) (hl n) (hp n))
  next => exact .inl h

/-- The position has no current job then. -/
theorem supersedeAt_leaves (h : At w c b g s) (k : PosKey) (hw : w) (hc : c) :
    ∀ y, (supersedeAt k s).pos? k = some y → y.work.current = none := by
  unfold supersedeAt
  split
  next n hn =>
    obtain ⟨x, hx, current⟩ := Option.bind_eq_some_iff.mp hn
    refine fun y hy => (supersede_leaves h.tables hx (fun none => ?_) (h.undeferred hc k x n hx current) y hy).1
    obtain ⟨i, hi, -⟩ := h.own hw hx current
    rw [none] at hi
    cases hi
  next hn =>
    intro y hy
    rw [hy] at hn
    exact hn

/-! ### Deadline promotion (R69) -/

theorem promote_at (h : At w c b g s) (n : Nat) (hd : ¬ g.doomed n) (hl : ¬ g.loose n) (hp : ¬ g.plates n)
    (hb : ∀ k, ¬ g.behind k) :
    At w c b g (promote n s) := by
  have urgent : At w c b g (s.modJob n fun j => { j with cls := .urgent }) := h.deed (.note g s n _ fun _ => rfl)
  unfold promote
  dsimp only
  generalize s.modJob n (fun j => { j with cls := .urgent }) = u at urgent
  split
  next e hc =>
    obtain ⟨v, hv, rfl⟩ := (contextOf_spec hc).2.2 rfl
    have taken := (urgent.dropParked hv).cancelJob e v.job .discard
    refine serve_at ((returnTaken_at (g := g.take fun m => m = v.job) (fun _ => .inr rfl) hp hd hb taken .promoted (.inr (.inl rfl))).same ?_)
    exact Gaps.take_settle_single hl hp
  next => exact serve_at urgent

theorem promoteAll_at (h : At w c b g s) (p : PressId) (hd : ∀ n, ¬ g.doomed n) (hl : ∀ n, ¬ g.loose n)
    (hp : ∀ n, ¬ g.plates n) (hb : ∀ k, ¬ g.behind k) : At w c b g (promoteAll p s) :=
  sorterLook_at (h.foldl_same _ fun _ n _ h => promote_at h n (hd n) (hl n) (hp n) hb)

end Sys2Proof.Machine
end

section
/-! The engine channels as chains of deeds (R75 to R95). -/

namespace Sys2Proof.Machine

open State

variable {w c : Prop} {b : Gaps × State} {g : Gaps} {s : State} {n : Nat}

/-! ### Jobs that a fault takes (R91) -/

/-- No job stands open, and no position's pages have left its job behind. -/
structure Gaps.Ready (g : Gaps) : Prop where
  loose : ∀ n, ¬ g.loose n
  plates : ∀ n, ¬ g.plates n
  doomed : ∀ n, ¬ g.doomed n
  behind : ∀ k, ¬ g.behind k

theorem Gaps.ready_closed : Gaps.closed.Ready := ⟨fun _ h => h, fun _ h => h, fun _ h => h, fun _ h => h⟩

/-- The jobs of a list of taken ones. -/
abbrev among (l : List Taken) : Nat → Prop := fun n => n ∈ l.map Prod.fst

theorem among_waiting (x : Contexts) (n : Nat) : among (takenWaiting x) n ↔
    (∃ u, x.next = some u ∧ u.job = n) ∨ ∃ u, x.parked = some u ∧ u.job = n := by
  unfold takenWaiting
  cases x.next <;> cases x.parked <;> simp [among, eq_comm]

theorem among_all (x : Contexts) (n : Nat) : among (takenAll x) n ↔ x.has n := by
  rw [has_iff]
  unfold takenAll takenWaiting
  cases x.current <;> cases x.next <;> cases x.parked <;> simp [among, eq_comm]

/-- What a fault takes from an engine is different jobs, that are not ended otherwise. -/
theorem takenAll_nodup {x : Contexts} (h : Apart x) : ((takenAll x).map Prod.fst).Nodup := by
  obtain ⟨waiting, next, parked⟩ := h
  unfold takenAll takenWaiting
  cases hc : x.current <;> cases hn : x.next <;> cases hp : x.parked <;>
    simp_all

theorem takenWaiting_nodup {x : Contexts} (h : Apart x) : ((takenWaiting x).map Prod.fst).Nodup := by
  have all := takenAll_nodup h
  unfold takenAll at all
  rw [List.map_append] at all
  exact (List.nodup_append.mp all).2.1

theorem takenAll_terminal (x : Contexts) : ∀ y ∈ takenAll x, y.2 = .retired ∨ y.2 = .cancelled ∨ y.2 = .discarded := by
  unfold takenAll takenWaiting
  cases x.current <;> cases x.next <;> cases x.parked <;> simp

theorem takenWaiting_terminal (x : Contexts) :
    ∀ y ∈ takenWaiting x, y.2 = .retired ∨ y.2 = .cancelled ∨ y.2 = .discarded := fun y hy =>
  takenAll_terminal x y (List.mem_append_right _ hy)

/-- The jobs that have been taken return to their queue, or end, one after another. -/
theorem returnAll_at (l : List Taken) (ready : g.Ready) (h : At w c b (g.take (among l)) s)
    (distinct : w → (l.map Prod.fst).Nodup) (terminal : ∀ y ∈ l, y.2 = .retired ∨ y.2 = .cancelled ∨ y.2 = .discarded) :
    At w c b g (returnAll l s) := by
  unfold returnAll
  induction l generalizing s with
  | nil => exact h.same (Gaps.take_none fun n hn => by simp [among] at hn)
  | cons y l ih =>
    have returned := returnTaken_at (g := g.take (among (y :: l))) (n := y.1) (fun _ => .inr (by simp [among])) (ready.plates _) (ready.doomed _) ready.behind h .engineFaulted
      (terminal y (by simp))
    refine ih ?_ (fun hw => (List.nodup_cons.mp (distinct hw)).2) fun z hz => terminal z (List.mem_cons_of_mem _ hz)
    by_cases hw : w
    · refine returned.same (Gaps.take_settle (ready.loose _) (ready.plates _) fun m => ?_)
      have fresh := (List.nodup_cons.mp (distinct hw)).1
      simp only [among, List.map_cons, List.mem_cons]
      exact ⟨fun ⟨hm, ne⟩ => hm.resolve_left ne, fun hm => ⟨.inr hm, fun e => fresh (e ▸ hm)⟩⟩
    · exact returned.blind hw _

/-! ### Faults (R90 to R92) -/

/-- The current job leaves its context, and ABORT is sent for it. -/
theorem abortCurrent_at (h : At w c b g s) (e : EngineId) :
    At w c b (g.take fun m => ∃ u, (s.engine e).ctx.current = some u ∧ u.job = m) (abortCurrent e s) := by
  have left : At w c b (g.take fun m => ∃ u, (s.engine e).ctx.current = some u ∧ u.job = m)
      (s.modCtx e fun x => { x with current := none }) := by
    refine h.fewer (ctxFewer_of (.inl rfl) (.inr (.inl rfl)) (.inr rfl)) fun hw m => ?_
    have apart := InPlace.ctx_apart (h.place hw) e
    rw [has_iff, has_iff]
    dsimp only
    constructor
    · rintro ⟨u, hu, rfl⟩
      refine ⟨.inl ⟨u, hu, rfl⟩, ?_⟩
      rintro (⟨v, hv, -⟩ | ⟨v, hv, same⟩ | ⟨v, hv, same⟩)
      · cases hv
      · exact apart.next u v hu hv same.symm
      · exact apart.parked u v hu hv same.symm
    · rintro ⟨here | there, out⟩
      · exact here
      · exact absurd (.inr there) out
  unfold abortCurrent forSome
  split
  · exact left.cancelJob e _ _
  · exact left

/-- The waiting jobs leave their contexts, each with its command. -/
theorem emptyWaiting_at (h : At w c b g s) (e : EngineId) :
    At w c b (g.take (among (takenWaiting (s.engine e).ctx))) (emptyWaiting e s) := by
  have left : At w c b (g.take (among (takenWaiting (s.engine e).ctx)))
      (s.modCtx e fun x => { x with next := none, parked := none }) := by
    refine h.fewer (ctxFewer_of (.inr rfl) (.inl rfl) (.inl rfl)) fun hw m => ?_
    have apart := InPlace.ctx_apart (h.place hw) e
    rw [has_iff, has_iff, among_waiting]
    dsimp only
    constructor
    · intro waits
      refine ⟨.inr waits, ?_⟩
      rintro (⟨v, hv, same⟩ | ⟨v, hv, -⟩ | ⟨v, hv, -⟩)
      · rcases waits with ⟨u, hu, same'⟩ | ⟨u, hu, same'⟩
        · exact apart.next v u hv hu (same.trans same'.symm)
        · exact apart.parked v u hv hu (same.trans same'.symm)
      · cases hv
      · cases hv
    · rintro ⟨here | there, out⟩
      · exact absurd (.inl here) out
      · exact there
  unfold emptyWaiting forSome
  dsimp only
  split
  · split
    · exact (left.cancelJob e _ _).cancelJob e _ _
    · exact left.cancelJob e _ _
  · split
    · exact left.cancelJob e _ _
    · exact left

/-- What deals with the jobs `N` that an engine fault names, whatever else has been taken. -/
def Deals (w c : Prop) (b : Gaps × State) (g : Gaps) (N : Nat → Prop) (named : State → State) : Prop :=
  ∀ M u, (w → ∀ m, N m → ¬ M m) → At w c b (g.take fun m => N m ∨ M m) u → At w c b (g.take M) (named u)

/-- A fault that names no job. -/
theorem deals_id : Deals w c b g (fun _ => False) id := fun _ _ _ h =>
  h.same (Gaps.take_congr fun _ => ⟨fun x => x.resolve_left id, .inr⟩)

/-- What remains when a named job stands in a place again. -/
theorem deals_settle (ready : g.Ready) {M : Nat → Prop} (hM : w → ∀ m, m = n → ¬ M m) {f : State → State} {u : State}
    (h : At w c b ((g.take fun m => m = n ∨ M m).settle n) (f u)) : At w c b (g.take M) (f u) := by
  by_cases hw : w
  · refine h.same (Gaps.take_settle (ready.loose _) (ready.plates _) fun m => ?_)
    exact ⟨fun ⟨hm, ne⟩ => hm.resolve_left ne, fun hm => ⟨.inr hm, fun e => hM hw m e hm⟩⟩
  · exact h.blind hw _

theorem deals_returns (ready : g.Ready) (e : EngineId) (n : Nat) (cause : FaultCause) :
    Deals w c b g (fun m => m = n) (namedReturns e n cause) := fun M u hM h => by
  have returned := returnByFaultBy_at (g := g.take fun m => m = n ∨ M m) (look := evalStarved) (n := n) (fun _ => .inr (.inl rfl)) (ready.plates _) (ready.doomed _) ready.behind
    (fun _ h => h.starved) h cause (.engine e) (.inr (.inl rfl))
  exact deals_settle ready hM (f := namedReturns e n cause) returned.starved

theorem deals_spoils (ready : g.Ready) (e : EngineId) (n : Nat) (cause : FaultCause) :
    Deals w c b g (fun m => m = n) (namedSpoils e n cause) := fun M u hM h => by
  have spoiled := spoilBy_at (g := g.take fun m => m = n ∨ M m) (look := evalStarved) (n := n) (fun _ => .inr (.inl rfl)) (ready.plates _) (ready.doomed _) ready.behind
    (fun _ h => h.starved) h cause (.engine e)
  exact deals_settle ready hM (f := namedSpoils e n cause) spoiled.starved

/-- An engine fault (R91). -/
theorem engineFault_at {N : Nat → Prop} {named : State → State} (ready : g.Ready) (deals : Deals w c b g N named)
    (h : At w c b (g.take N) s) (e : EngineId) (cause : EngineFaultCause) (job : Option Nat) :
    At w c b g (engineFault e cause job named s) := by
  have kept {M : Nat → Prop} (hM : ∀ m, M m → (s.engine e).ctx.has m) : w → ∀ m, N m → ¬ M m := fun hw m hn held => by
    obtain ⟨off, -⟩ := (h.place hw).off m (.inr hn)
    rcases hM m held with at_current | ⟨x, at_next⟩ | ⟨x, at_parked⟩
    · exact off.cur e at_current
    · exact off.next e x at_next
    · exact off.parked e x at_parked
  have apart (hw : w) := InPlace.ctx_apart (h.place hw) e
  unfold engineFault
  dsimp only
  split
  · have dealt := deals (fun _ => False) s (fun _ _ _ => id) (h.same (Gaps.take_congr fun m => ⟨.inl, fun x => x.resolve_right id⟩))
    exact (dealt.same (Gaps.take_none fun _ => id)).still (.status e _ _)
  · split
    · have emptied := emptyWaiting_at (abortCurrent_at h e) e
      have same : ((abortCurrent e s).engine e).ctx.next = (s.engine e).ctx.next ∧
          ((abortCurrent e s).engine e).ctx.parked = (s.engine e).ctx.parked := by
        unfold abortCurrent forSome
        split
        · dsimp only
          rw [cancelJob_eq]
          simp [State.engine]
        · simp [State.engine]
      have taken : At w c b (g.take fun m => N m ∨ among (takenAll (s.engine e).ctx) m) (emptyWaiting e (abortCurrent e s)) := by
        rw [Gaps.take_take, Gaps.take_take] at emptied
        refine emptied.same (Gaps.take_congr fun m => ?_)
        rw [among_all, has_iff, among_waiting, same.1, same.2]
      have dealt := deals _ _ (kept fun m hm => (among_all _ m).mp hm) taken
      have noted (f : EngineStatus → EngineStatus) := ((dealt.still (.status e f _)).raised (.engineLockedOut e cause job)).starved
      exact serve_at (returnAll_at _ ready (noted _) (fun hw => takenAll_nodup (apart hw)) (takenAll_terminal _))
    · have emptied := emptyWaiting_at h e
      rw [Gaps.take_take] at emptied
      have dealt := deals _ _ (kept fun m hm => (has_iff _ m).mpr (.inr ((among_waiting _ m).mp hm))) emptied
      have noted (f : EngineStatus → EngineStatus) := ((dealt.still (.status e f _)).raised (.engineFault e cause job)).starved
      exact serve_at (returnAll_at _ ready (noted _) (fun hw => takenWaiting_nodup (apart hw)) (takenWaiting_terminal _))

/-- The records of an engine whose channel is lost. -/
theorem dropEngine_at (h : At w c b g s) (e : EngineId) :
    At w c b (g.take (among (takenAll (s.engine e).ctx))) (dropEngine e s) := by
  have left : At w c b (g.take (among (takenAll (s.engine e).ctx))) (s.modCtx e fun _ => Contexts.empty) := by
    refine h.fewer (ctxFewer_of (.inl rfl) (.inl rfl) (.inl rfl)) fun _ m => ?_
    rw [among_all]
    refine ⟨fun held => ⟨held, ?_⟩, And.left⟩
    rw [has_iff]
    rintro (⟨v, hv, -⟩ | ⟨v, hv, -⟩ | ⟨v, hv, -⟩) <;> cases hv
  exact left.still (.cassette e _ _)

theorem engineLost_at (ready : g.Ready) (h : At w c b g s) (e : EngineId) (cause : EngineFaultCause) (m : EngineMode) :
    At w c b g (engineLost e cause m s) := by
  have dropped := dropEngine_at h e
  unfold engineLost
  dsimp only
  have noted (x : EngineStatus) (y : Notice) := ((dropped.still (.status e (fun _ => x) _)).raised y).starved
  exact returnAll_at _ ready (noted _ _) (fun hw => takenAll_nodup (InPlace.ctx_apart (h.place hw) e)) (takenAll_terminal _)

/-- An engine that holds no job is dropped with nothing taken. -/
theorem dropEngine_idle (h : At w c b g s) {e : EngineId} (idle : ∀ n, ¬ (s.engine e).ctx.has n) : At w c b g (dropEngine e s) :=
  (dropEngine_at h e).same (Gaps.take_none fun n hn => idle n ((among_all _ n).mp hn))

end Sys2Proof.Machine
end

section
/-! What waits in the engines through a reaction: a plate is loaded, and EXPOSE is sent for it, only by the reports that say
so (R77, R78, R85). -/

namespace Sys2Proof.Machine

open State

variable {D : Nat → Prop} {s t : State} {n : Nat}

/-! ### Plates that have been loaded -/

/-- A job waits in an engine, and its plate has been loaded there. -/
def Loads (s : State) (n : Nat) : Prop :=
  ∃ e w, ((s.engine e).ctx.next = some w ∨ (s.engine e).ctx.parked = some w) ∧ w.job = n ∧ w.stage ≠ .loadSent

/-- A job whose EXPOSE has been sent has been loaded. -/
theorem SentExpose.loads (h : SentExpose s n) : Loads s n := by
  obtain ⟨e, w, hw, job, stage⟩ := h
  exact ⟨e, w, .inl hw, job, by rw [stage]; decide⟩

theorem Loads.of_engines (h : Loads t n) (same : t.engines = s.engines) : Loads s n := by
  obtain ⟨e, w, hw, rest⟩ := h
  have at_engine : t.engine e = s.engine e := congrArg (fun v : Vector Engine 6 => v[e]) same
  exact ⟨e, w, at_engine ▸ hw, rest⟩

/-- An engine's contexts are written, and hold no loaded plate that they did not hold. -/
theorem Loads.of_ctx {e : EngineId} {f : Contexts → Contexts} (h : Loads (s.modCtx e f) n)
    (hf : ∀ w, (f (s.engine e).ctx).next = some w ∨ (f (s.engine e).ctx).parked = some w → w.stage = .loadSent ∨
      ∃ w', ((s.engine e).ctx.next = some w' ∨ (s.engine e).ctx.parked = some w') ∧ w'.job = w.job ∧ w'.stage ≠ .loadSent) :
    Loads s n := by
  obtain ⟨q, w, hw, job, stage⟩ := h
  rw [engine_modCtx] at hw
  split at hw
  next same =>
    subst same
    obtain ⟨w', hw', same, stage'⟩ := (hf w hw).resolve_left stage
    exact ⟨q, w', hw', same.trans job, stage'⟩
  next => exact ⟨q, w, hw, job, stage⟩

/-- Serving loads no plate. -/
theorem ServeStep.loads (h : ServeStep s t) (l : Loads t n) : Loads s n := by
  cases h with
  | assign e m j hj hq he hn =>
    refine Loads.of_ctx (l.of_engines (s := s.modCtx e fun c => { c with next := some ⟨m, .loadSent, some s.limits.load, false⟩ }) rfl)
      fun w hw => ?_
    rcases hw with hw | hw
    · cases hw
      exact .inl rfl
    · by_cases stage : w.stage = .loadSent
      · exact .inl stage
      · exact .inr ⟨w, .inr hw, rfl, stage⟩
  | park e w hu hw hs hp =>
    refine Loads.of_ctx l fun v hv => ?_
    by_cases stage : v.stage = .loadSent
    · exact .inl stage
    · rcases hv with hv | hv
      · cases hv
      · exact .inr ⟨v, .inl hv, rfl, stage⟩
  | expose e ready =>
    obtain ⟨w, loaded⟩ := (State.exposeReady_iff_loaded s e).mp ready
    unfold sendExpose at l
    rw [loaded.next] at l
    refine Loads.of_ctx (l.of_engines (s := s.modCtx e fun c =>
      { c with next := some { w with stage := .exposeSent, timer := some s.limits.load } }) rfl) fun v hv => ?_
    rcases hv with hv | hv
    · cases hv
      exact .inr ⟨w, .inl loaded.next, rfl, by rw [loaded.stage]; decide⟩
    · by_cases stage : v.stage = .loadSent
      · exact .inl stage
      · exact .inr ⟨v, .inr hv, rfl, stage⟩
  | _ => exact l.of_engines rfl

/-- A reaction loads no plate. -/
theorem ReactStep.loads (h : ReactStep D s t) (l : Loads t n) : Loads s n := by
  cases h with
  | serve h => exact h.loads l
  | ctx e f less =>
    refine Loads.of_ctx l fun w hw => ?_
    by_cases stage : w.stage = .loadSent
    · exact .inl stage
    · refine .inr ⟨w, ?_, rfl, stage⟩
      rcases hw with hw | hw
      · rcases less.next with e | e | e <;> rw [e] at hw
        · cases hw
        · exact .inl hw
        · exact .inr hw
      · rcases less.parked with e | e <;> rw [e] at hw
        · cases hw
        · exact .inr hw
  | _ => exact l.of_engines rfl

theorem Reacts.loads (h : Reacts D s t) (l : Loads t n) : Loads s n := by
  induction h with
  | refl => exact l
  | tail _ step ih => exact ih (step.loads l)

/-- A job that is in no table is loaded nowhere. -/
theorem InPlace.not_loads {g : Gaps} (h : InPlace g s) (hn : s.job? n = none) : ¬ Loads s n := by
  rintro ⟨e, w, hw | hw, rfl, -⟩
  · obtain ⟨j, hj, -⟩ := h.ok.next e w.job w.stage (congrArg waitSpot hw)
    cases hn.symm.trans hj
  · obtain ⟨j, hj, -⟩ := h.ok.parked e w.job w.stage (congrArg waitSpot hw)
    cases hn.symm.trans hj

/-- Nor is one that stands nowhere. -/
theorem off_not_loads (h : (spots s).Off n) : ¬ Loads s n := by
  rintro ⟨e, w, hw | hw, rfl, -⟩
  · exact h.next e w.stage (congrArg waitSpot hw)
  · exact h.parked e w.stage (congrArg waitSpot hw)

/-! ### Plates that EXPOSE has been sent for -/

theorem SentExpose.of_engines (h : SentExpose s n) (same : t.engines = s.engines) : SentExpose t n := by
  obtain ⟨e, w, hw, rest⟩ := h
  have at_engine : t.engine e = s.engine e := congrArg (fun v : Vector Engine 6 => v[e]) same
  exact ⟨e, w, at_engine ▸ hw, rest⟩

/-- An engine's contexts are written, and next holds on to a job that EXPOSE has been sent for. -/
theorem SentExpose.modCtx {e : EngineId} {f : Contexts → Contexts} (h : SentExpose s n)
    (hf : WaitsAt (s.engine e).ctx.next n .exposeSent → WaitsAt (f (s.engine e).ctx).next n .exposeSent) :
    SentExpose (s.modCtx e f) n := by
  obtain ⟨q, hq⟩ := h
  refine ⟨q, ?_⟩
  rw [engine_modCtx]
  split
  next same =>
    subst same
    exact hf hq
  next => exact hq

/-- Serving leaves it in next. -/
theorem ServeStep.sent (h : ServeStep s t) (l : SentExpose s n) : SentExpose t n := by
  cases h with
  | assign e m j hj hq he hn =>
    refine SentExpose.of_engines (s := s.modCtx e fun c => { c with next := some ⟨m, .loadSent, some s.limits.load, false⟩ })
      (l.modCtx ?_) rfl
    rintro ⟨w, hw, -⟩
    cases hn.symm.trans hw
  | park e w hu hw hs hp =>
    refine l.modCtx ?_
    rintro ⟨v, hv, -, stage⟩
    cases hw.symm.trans hv
    exact absurd stage hs
  | expose e ready =>
    obtain ⟨w, loaded⟩ := (State.exposeReady_iff_loaded s e).mp ready
    unfold sendExpose
    rw [loaded.next]
    refine SentExpose.of_engines (s := s.modCtx e fun c =>
      { c with next := some { w with stage := .exposeSent, timer := some s.limits.load } }) (l.modCtx ?_) rfl
    rintro ⟨v, hv, -, stage⟩
    cases loaded.next.symm.trans hv
    rw [loaded.stage] at stage
    cases stage
  | _ => exact l.of_engines rfl

theorem Serves.sent (h : Serves s t) (l : SentExpose s n) : SentExpose t n := by
  induction h with
  | refl => exact l
  | tail _ step ih => exact step.sent ih

theorem serve_sent (hs : JobsOrdered s) (l : SentExpose s n) : SentExpose (serve s) n := (serve_serves hs).sent l

theorem needTest_sent (k : PosKey) (l : SentExpose s n) : SentExpose (needTest k s) n := l.of_engines (engines_needTest k s)

theorem tellSatisfied_sent (k : PosKey) (l : SentExpose s n) : SentExpose (tellSatisfied k s) n :=
  l.of_engines (tellSatisfied_keeps k s).2

theorem needAndServe_sent (k : PosKey) (hs : JobsOrdered s) (l : SentExpose s n) : SentExpose (needAndServe k s) n := by
  have ordered := Reacts.jobs_ordered hs ((needTest_reacts (D := NoJob) k s).trans (tellSatisfied_reacts k _))
  exact serve_sent ordered (tellSatisfied_sent k (needTest_sent k l))

theorem serveFrom_sent (l : List PosKey) (hs : JobsOrdered s) (h : SentExpose s n) : SentExpose (serveFrom serve l s) n := by
  induction l generalizing s with
  | nil => exact h
  | cons a l ih =>
    have ordered := Reacts.jobs_ordered hs (needTest_reacts (D := NoJob) a s)
    have tested := needTest_sent a h
    have served := serve_sent ordered tested
    have again := Reacts.jobs_ordered ordered (serve_reacts (D := NoJob) ordered)
    unfold serveFrom
    dsimp only
    split
    · split
      · exact ih again served
      · exact served
    · exact ih ordered tested

theorem depart_sent (m : Nat) (x : JobState) (hs : JobsOrdered s) (ht : x ≠ .uncertain) (h : SentExpose s n) :
    SentExpose (depart m x s) n := by
  have core := Reacts.jobs_ordered hs (departCore_reacts (D := AnyJob) m x s ht)
  have rest := serveDeferred_reacts (D := NoJob) (look := serve) (fun _ h => serve_reacts h) core
  have sent : SentExpose (departCore m x s) n := h.of_engines (engines_departCore m x s)
  unfold depart departBy serveDeferred
  unfold serveDeferred at rest
  generalize departCore m x s = u at core rest sent ⊢
  exact serve_sent (Reacts.jobs_ordered core rest) (serveFrom_sent _ core sent)

theorem parkedReturn_sent (e : EngineId) (h : SentExpose s n) : SentExpose (s.modCtx e Contexts.parkedReturn) n := by
  refine h.modCtx ?_
  rintro ⟨w, hw, rest⟩
  unfold Contexts.parkedReturn
  rw [hw]
  exact ⟨w, hw, rest⟩

theorem cancelJob_sent (e : EngineId) (m : Nat) (x : CancelCommand) (h : SentExpose s n) : SentExpose (cancelJob e m x s) n := by
  unfold cancelJob listCancel
  exact SentExpose.of_engines (h.modCtx (e := e) (f := fun c => { c with cancel := addCancel ⟨m, (s.attemptOf m).getD 0, x⟩ c.cancel }) id) rfl

/-- Another job leaves its engine. -/
theorem dropAssigned_sent {m : Nat} (other : n ≠ m) (h : SentExpose s n) : SentExpose (dropAssigned m s) n := by
  unfold dropAssigned
  split
  next e hc =>
    obtain ⟨u, hu, same⟩ := (contextOf_spec hc).2.1 rfl
    refine parkedReturn_sent e (cancelJob_sent e m .discard (h.modCtx ?_))
    rintro ⟨w, hw, job, -⟩
    cases hu.symm.trans hw
    exact absurd (job.symm.trans same) other
  next e hc => exact cancelJob_sent e m .discard (h.modCtx id)
  next => exact h

theorem engines_findBlocked (l : LaneId) (s : State) : (findBlocked l s).engines = s.engines := by
  unfold findBlocked
  split
  · rfl
  · split
    · exact engines_raise _ _
    · rfl

theorem engines_grant (l : LaneId) (m : Nat) (j : Job) (d : Destination) (s : State) : (grant l m j d s).engines = s.engines := by
  unfold grant
  dsimp only
  split <;> rfl

theorem engines_sorterLook (s : State) : (sorterLook s).engines = s.engines := by
  have blocked := (engines_findBlocked 1 (findBlocked 0 s)).trans (engines_findBlocked 0 s)
  unfold sorterLook
  split
  · dsimp only
    split
    · exact (engines_grant _ _ _ _ _).trans blocked
    · exact blocked
  · rfl

end Sys2Proof.Machine
end

section
/-! What one event does to all positions: need tests, departures and supersedes, with the jobs that positions are given by
them (R30, R50, R54, R55, R59). -/

namespace Sys2Proof.Machine

open State

variable {w c : Prop} {b : Gaps × State} {g : Gaps} {s t u : State} {n : Nat} {k : PosKey}

/-! ### Jobs that are made -/

/-- A job has been created since a state, and its plate has not been loaded. -/
structure FreshJob (b : State) (n : Nat) (s : State) : Prop where
  job : ∃ j, s.job? n = some j ∧ CreatedSince b j
  waits : ¬ Loads s n

/-- It stays so while it is not taken. -/
theorem FreshJob.stays {b' : State} (h : FreshJob s n t) (entries : b'.entryCount ≤ s.entryCount)
    (stays : ∀ j, t.job? n = some j → ∃ j', u.job? n = some j' ∧ JobStays j j') (loads : Loads u n → Loads t n) :
    FreshJob b' n u := by
  obtain ⟨⟨j, hj, created⟩, waits⟩ := h
  obtain ⟨j', hj', k⟩ := stays j hj
  exact ⟨⟨j', hj', (created.stays k).since entries⟩, fun l => waits (loads l)⟩

/-- It ends when it is superseded. -/
theorem FreshJob.ends {j : Job} (h : FreshJob s n t) (hj : t.job? n = some j) : EndsSuperseded t n j := by
  obtain ⟨⟨i, hi, created⟩, waits⟩ := h
  cases hi.symm.trans hj
  rcases created.state with e | e
  · exact .inl e
  · exact .inr (.inr ⟨e, fun sent => waits sent.loads⟩)

/-- What a position's current job may be after an event: the one it had, which the event does not take, or one that has been
made, of a number that was free or came free. -/
def Renews (N : Nat → Prop) (k : PosKey) (s t : State) : Prop :=
  ∀ y m, t.pos? k = some y → y.work.current = some m →
    (∃ x, s.pos? k = some x ∧ x.work.current = some m ∧ ¬ N m) ∨ ((s.job? m = none ∨ N m) ∧ FreshJob s m t)

/-- The position keeps what it has. -/
theorem renews_of_standsAs {D N : Nat → Prop} (r : Reacts D s t) (h : StandsAs k s t)
    (gone : ∀ x m, s.pos? k = some x → x.work.current = some m → ¬ N m) : Renews N k s t := by
  intro y m hy hm
  obtain ⟨x, hx, same⟩ := (Bides.of_reacts r h).before hy
  rw [same] at hm
  exact .inl ⟨x, hx, hm, gone x m hx hm⟩

/-- One event after another, of which the second takes no job. -/
theorem Renews.trans {N : Nat → Prop} (h : Renews N k s t) (entry : s.entryCount ≤ t.entryCount)
    (freed : ∀ m, t.job? m = none → s.job? m = none ∨ N m) (r : Reacts NoJob t u)
    (g : Renews NoJob k t u) : Renews N k s u := by
  intro y m hy hm
  rcases g y m hy hm with ⟨x, hx, hxm, -⟩ | ⟨free, made⟩
  · refine (h x m hx hxm).imp_right fun ⟨free, made⟩ => ⟨free, ?_⟩
    exact made.stays le_rfl (fun j hj => Reacts.job_stays r not_false hj) (Reacts.loads r)
  · exact .inr ⟨freed m (free.resolve_right not_false), made.stays entry (fun j hj => ⟨j, hj, .refl j⟩) id⟩

/-- A need test gives a position without a current job one that has been made. -/
theorem needTest_renews (place : InPlace g s) (a k : PosKey) : Renews NoJob k s (needTest a s) := by
  have chain : Reacts NoJob s (needTest a s) := needTest_reacts a s
  by_cases other : k = a
  · subst other
    intro y m hy hm
    by_cases had : ∃ x, s.pos? k = some x ∧ x.work.current = some m
    · obtain ⟨x, hx, hxm⟩ := had
      exact .inl ⟨x, hx, hxm, not_false⟩
    · right
      cases hx : s.pos? k with
      | none =>
        have same : needTest k s = s := by unfold needTest; rw [hx]
        rw [same, hx] at hy
        cases hy
      | some x =>
        have kept (v : Bool) : (s.modWork k fun w => { w with deferred := v }).pos? k ≠ some y := by
          intro h
          rw [pos?_modWork, if_pos rfl, hx] at h
          cases h
          exact had ⟨x, hx, hm⟩
        cases hn : needsJob s x with
        | false =>
          rw [needTest_clears hx hn] at hy
          exact absurd hy (kept false)
        | true =>
          by_cases room : s.jobs.length < 768
          · have free := nextNumber_fresh s room
            have unheld : ¬ Loads (needTest k s) m := by
              rw [needTest_creates hx hn room, pos?_created hx] at hy
              cases hy
              cases hm
              exact fun l => place.not_loads free (Reacts.loads chain l)
            rw [needTest_creates hx hn room] at hy unheld ⊢
            rw [pos?_created hx] at hy
            cases hy
            cases hm
            exact ⟨.inl free, ⟨_, job?_created k x s, Nat.lt_succ_self _, rfl, rfl, .inl rfl, rfl⟩, unheld⟩
          · rw [needTest_full hx hn (Nat.not_lt.mp room)] at hy
            split at hy
            · rw [hx] at hy
              cases hy
              exact absurd ⟨_, hx, hm⟩ had
            · rw [pos?_raise] at hy
              exact absurd hy (kept true)
  · exact renews_of_standsAs chain (needTest_standsAs other s) fun _ _ _ _ => not_false

theorem serve_renews (hs : JobsOrdered s) (k : PosKey) : Renews NoJob k s (serve s) :=
  renews_of_standsAs (serve_reacts (D := NoJob) hs) (serve_standsAs k hs) fun _ _ _ _ => not_false

theorem tellSatisfied_renews (a k : PosKey) (s : State) : Renews NoJob k s (tellSatisfied a s) :=
  renews_of_standsAs (tellSatisfied_reacts (D := NoJob) a s) (tellSatisfied_standsAs k a s) fun _ _ _ _ => not_false

/-- Events that take no job, one after another. -/
theorem Renews.trans_noJob (r : Reacts NoJob s t) (h : Renews NoJob k s t) (q : Reacts NoJob t u) (g : Renews NoJob k t u) :
    Renews NoJob k s u := by
  refine h.trans (Reacts.entry_le r) (fun m hm => .inl ?_) q g
  by_contra live
  obtain ⟨j, hj⟩ := Option.ne_none_iff_exists'.mp live
  obtain ⟨j', hj', -⟩ := Reacts.job_stays r not_false hj
  cases hm.symm.trans hj'

/-- The service of deferred positions. -/
theorem serveFrom_renews (l : List PosKey) (h : At w c b g s) (hw : w) (k : PosKey) :
    Renews NoJob k s (serveFrom serve l s) := by
  induction l generalizing s with
  | nil => exact fun y m hy hm => .inl ⟨y, hy, hm, not_false⟩
  | cons a l ih =>
    have tested := needTest_at h a
    have first : Reacts NoJob s (needTest a s) := needTest_reacts a s
    have renews := needTest_renews (h.place hw) a k
    have served : Reacts NoJob (needTest a s) (serve (needTest a s)) := serve_reacts tested.tables.jobs
    have both := renews.trans_noJob first served (serve_renews tested.tables.jobs k)
    have next {t : State} (o : JobsOrdered t) : Reacts NoJob t (serveFrom serve l t) :=
      serveFrom_reacts (fun _ h => serve_reacts h) l o
    unfold serveFrom
    dsimp only
    split
    · split
      · exact both.trans_noJob (first.trans served) (next (serve_at tested).tables.jobs) (ih (serve_at tested))
      · exact both
    · exact renews.trans_noJob first (next tested.tables.jobs) (ih tested)

/-! ### Departures -/

/-- A job leaves that no position has for its current one. -/
theorem depart_renews {j : Job} {x : JobState} (h : At w c b g s) (hw : w) (hx : x = .retired ∨ x = .cancelled ∨ x = .discarded)
    (hj : s.job? n = some j) (off : (spots s).Off n) (gone : ∀ k y, s.pos? k = some y → y.work.current ≠ some n) (k : PosKey) :
    Renews (fun m => m = n) k s (depart n x s) := by
  have ht : x ≠ .uncertain := by rcases hx with e | e | e <;> rw [e] <;> decide
  have core : Reacts (fun m => m = n) s (departCore n x s) := departCore_reacts n x s ht rfl
  have kept : Renews (fun m => m = n) k s (departCore n x s) := by
    refine renews_of_standsAs core (fun y hy => departCore_standsAs hy (gone k y hy) ht y hy) ?_
    rintro y m hy hm rfl
    exact gone k y hy hm
  have left : At w c b (g.ended n) (departCore n x s) := h.deed (.core g s n j x hx hj fun _ => off)
  unfold depart departBy
  generalize departCore n x s = a at core kept left ⊢
  have deferred := serveFrom_renews (deferredOrder a) left hw k
  have first : Reacts NoJob a (serveDeferred serve a) := serveDeferred_reacts (fun _ h => serve_reacts h) left.tables.jobs
  unfold serveDeferred at first ⊢
  have ordered := Reacts.jobs_ordered left.tables.jobs first
  have rest := deferred.trans_noJob first (serve_reacts ordered) (serve_renews ordered k)
  refine kept.trans (Reacts.entry_le core) (fun m hm => ?_) (first.trans (serve_reacts ordered)) rest
  by_cases same : m = n
  · exact .inr same
  · refine .inl ?_
    by_contra live
    obtain ⟨i, hi⟩ := Option.ne_none_iff_exists'.mp live
    obtain ⟨i', hi', -⟩ := Reacts.job_stays core same hi
    cases hm.symm.trans hi'

/-! ### Supersedes -/

/-- No position has the job of a detached one for its current job. -/
theorem detached_gone {j : Job} {x : Position} (h : At w c b g s) (hw : w) (hx : s.pos? k = some x)
    (hc : x.work.current = some n) : ∀ q y, (detached k n j s).pos? q = some y → y.work.current ≠ some n := by
  intro q y hy hm
  unfold detached at hy
  rw [pos?_modWork] at hy
  split at hy
  next same =>
    obtain ⟨z, -, rfl⟩ := Option.map_eq_some_iff.mp hy
    cases hm
  next other =>
    obtain ⟨i, hi, key⟩ := h.own hw (k := q) hy hm
    obtain ⟨i', hi', key'⟩ := h.own hw hx hc
    cases hi.symm.trans hi'
    exact other (key.symm.trans key')

/-- What a position has for its current job when another is detached. -/
theorem detached_renews {j : Job} {x : Position} (h : At w c b g s) (hw : w) (hx : s.pos? k = some x)
    (hc : x.work.current = some n) (q : PosKey) {y : Position} {m : Nat} (hy : (detached k n j s).pos? q = some y)
    (hm : y.work.current = some m) : ∃ x, s.pos? q = some x ∧ x.work.current = some m ∧ m ≠ n := by
  have other : m ≠ n := fun e => detached_gone h hw hx hc q y hy (e ▸ hm)
  unfold detached at hy
  rw [pos?_modWork] at hy
  split at hy
  next same =>
    obtain ⟨z, -, rfl⟩ := Option.map_eq_some_iff.mp hy
    cases hm
  next => exact ⟨y, hy, hm, other⟩

/-! ### Turns -/

/-- What an event that takes some jobs does to all others, and to all positions. -/
structure Turn (N : Nat → Prop) (s t : State) : Prop where
  stays : ∀ m j, ¬ N m → s.job? m = some j → ∃ j', t.job? m = some j' ∧ JobStays j j'
  ended : ∀ (b : State) (m : Nat), ¬ N m → b.entryCount ≤ s.entryCount → Ended m b s → Ended m b t
  entry : s.entryCount ≤ t.entryCount
  loads : ∀ m, Loads t m → Loads s m
  renews : ∀ k, Renews N k s t
  sent : ∀ m, ¬ N m → SentExpose s m → SentExpose t m
  attended : ∀ k, (∀ x m, s.pos? k = some x → x.work.current = some m → ¬ N m) → Attended k s → Attended k t
  remains : ∀ k x m, s.pos? k = some x → x.work.current = some m → ¬ N m → ∃ y, t.pos? k = some y ∧ y.work.current = some m

namespace Turn

variable {M N : Nat → Prop}

/-- The number of a job that is not there has been free, or the job has been taken. -/
theorem freed (h : Turn N s t) (m : Nat) (hm : t.job? m = none) : s.job? m = none ∨ N m := by
  by_contra live
  obtain ⟨free, out⟩ := not_or.mp live
  obtain ⟨j, hj⟩ := Option.ne_none_iff_exists'.mp free
  obtain ⟨j', hj', -⟩ := h.stays m j out hj
  cases hm.symm.trans hj'

/-- One event after another, of which the second takes no job that is a position's current one. -/
theorem trans (h : Turn N s t) (g : Turn M t u) (sub : ∀ m, M m → N m)
    (gone : ∀ k y m, t.pos? k = some y → y.work.current = some m → ¬ M m) : Turn N s u where
  stays m j out hj := by
    obtain ⟨i, hi, k⟩ := h.stays m j out hj
    obtain ⟨i', hi', k'⟩ := g.stays m i (fun e => out (sub m e)) hi
    exact ⟨i', hi', k.trans k'⟩
  ended b m out hb ended := g.ended b m (fun e => out (sub m e)) (hb.trans h.entry) (h.ended b m out hb ended)
  entry := h.entry.trans g.entry
  loads m l := h.loads m (g.loads m l)
  renews k y m hy hm := by
    rcases g.renews k y m hy hm with ⟨x, hx, hxm, out⟩ | ⟨free, made⟩
    · exact (h.renews k x m hx hxm).imp_right fun ⟨free, made⟩ =>
        ⟨free, made.stays le_rfl (fun j hj => g.stays m j out hj) (g.loads m)⟩
    · refine .inr ⟨free.elim (h.freed m) fun e => .inr (sub m e), ?_⟩
      exact made.stays h.entry (fun j hj => ⟨j, hj, .refl j⟩) id
  sent m out hs := g.sent m (fun e => out (sub m e)) (h.sent m out hs)
  attended k hk a := g.attended k (gone k) (h.attended k hk a)
  remains k x m hx hm out := by
    obtain ⟨y, hy, hym⟩ := h.remains k x m hx hm out
    exact g.remains k y m hy hym fun e => out (sub m e)

/-- An event that reactions make. -/
theorem of_reacts {D : Nat → Prop} (r : Reacts D s t) (renews : ∀ k, Renews D k s t)
    (sent : ∀ m, ¬ D m → SentExpose s m → SentExpose t m)
    (attended : ∀ k, (∀ x m, s.pos? k = some x → x.work.current = some m → ¬ D m) → Attended k s → Attended k t)
    (remains : ∀ k x m, s.pos? k = some x → x.work.current = some m → ¬ D m →
      ∃ y, t.pos? k = some y ∧ y.work.current = some m) : Turn D s t where
  stays _ _ out hj := Reacts.job_stays r out hj
  ended _ _ out hb h := Reacts.ended r out hb h
  entry := Reacts.entry_le r
  loads _ := Reacts.loads r
  renews := renews
  sent := sent
  attended := attended
  remains := remains

/-- Reactions that take no job, and leave each position the jobs that it has. -/
theorem of_stands (r : Reacts NoJob s t) (stands : ∀ k, StandsAs k s t) (sent : ∀ m, SentExpose s m → SentExpose t m) :
    Turn NoJob s t := by
  refine of_reacts r (fun k => renews_of_standsAs r (stands k) fun _ _ _ _ => not_false) (fun m _ => sent m)
    (fun k _ h => h.reacts r (stands k)) fun k x m hx hm _ => ?_
  obtain ⟨b, hb⟩ := stands k x hx
  exact ⟨_, hb, hm⟩

/-- An event that leaves the position records. -/
theorem of_plan {D : Nat → Prop} (r : Reacts D s t) (plan : t.plan = s.plan) (length : s.jobs.length ≤ t.jobs.length)
    (gone : ∀ k x m, s.pos? k = some x → x.work.current = some m → ¬ D m)
    (sent : ∀ m, ¬ D m → SentExpose s m → SentExpose t m) : Turn D s t :=
  of_reacts r (fun k => renews_of_standsAs r (.of_plan plan) (gone k)) sent
    (fun _ _ h => h.bides (.of_reacts r (.of_plan plan)) length) fun _ x _ hx hm _ => ⟨x, (pos?_of_plan plan).trans hx, hm⟩

end Turn

theorem tellSatisfied_turn (a : PosKey) (s : State) : Turn NoJob s (tellSatisfied a s) :=
  .of_stands (tellSatisfied_reacts a s) (fun k => tellSatisfied_standsAs k a s) fun _ => tellSatisfied_sent a

theorem serve_turn (hs : JobsOrdered s) : Turn NoJob s (serve s) :=
  .of_stands (serve_reacts hs) (fun k => serve_standsAs k hs) fun _ => serve_sent hs

/-- A need test leaves a position the current job that it has. -/
theorem needTest_remains (a : PosKey) {x : Position} {m : Nat} (hx : s.pos? k = some x) (hm : x.work.current = some m) :
    ∃ y, (needTest a s).pos? k = some y ∧ y.work.current = some m := by
  by_cases other : k = a
  · subst other
    have none : needsJob s x = false := by
      unfold needsJob
      rw [hm]
      rfl
    rw [needTest_clears hx none, pos?_modWork, if_pos rfl, hx]
    exact ⟨_, rfl, hm⟩
  · obtain ⟨b, hb⟩ := needTest_standsAs other s x hx
    exact ⟨_, hb, hm⟩

theorem needTest_turn (place : InPlace g s) (a : PosKey) : Turn NoJob s (needTest a s) := by
  refine .of_reacts (needTest_reacts a s) (needTest_renews place a) (fun _ _ => needTest_sent a) (fun k _ h => ?_)
    fun _ _ _ hx hm _ => needTest_remains a hx hm
  by_cases other : k = a
  · exact other ▸ needTest_attended k s
  · exact h.reacts (needTest_reacts a s) (needTest_standsAs other s)

theorem needAndServe_turn (h : At w c b g s) (hw : w) (a : PosKey) : Turn NoJob s (needAndServe a s) := by
  have tested := needTest_at h a
  have told := tellSatisfied_at tested a
  exact ((needTest_turn (h.place hw) a).trans (tellSatisfied_turn a _) (fun _ => id) fun _ _ _ _ _ => not_false).trans
    (serve_turn told.tables.jobs) (fun _ => id) fun _ _ _ _ _ => not_false

theorem serveFrom_remains (l : List PosKey) (hs : JobsOrdered s) {x : Position} {m : Nat} (hx : s.pos? k = some x)
    (hm : x.work.current = some m) : ∃ y, (serveFrom serve l s).pos? k = some y ∧ y.work.current = some m := by
  induction l generalizing s x with
  | nil => exact ⟨x, hx, hm⟩
  | cons a l ih =>
    have ordered := Reacts.jobs_ordered hs (needTest_reacts (D := NoJob) a s)
    obtain ⟨y, hy, hym⟩ := needTest_remains a hx hm
    obtain ⟨v, hv⟩ := serve_standsAs k ordered y hy
    have again := Reacts.jobs_ordered ordered (serve_reacts (D := NoJob) ordered)
    unfold serveFrom
    dsimp only
    split
    · split
      · exact ih again hv hym
      · exact ⟨_, hv, hym⟩
    · exact ih ordered hy hym

theorem depart_turn {j : Job} {x : JobState} (h : At w c b g s) (hw : w) (hx : x = .retired ∨ x = .cancelled ∨ x = .discarded)
    (hj : s.job? n = some j) (off : (spots s).Off n) (gone : ∀ k y, s.pos? k = some y → y.work.current ≠ some n) :
    Turn (fun m => m = n) s (depart n x s) := by
  have ht : x ≠ .uncertain := by rcases hx with e | e | e <;> rw [e] <;> decide
  have r : Reacts (fun m => m = n) s (depart n x s) := depart_reacts n x h.tables.jobs ht rfl
  refine .of_reacts r (depart_renews h hw hx hj off gone) (fun _ _ => depart_sent n x h.tables.jobs ht)
    (fun k _ a => depart_attended h.tables.jobs a (gone k) ht) fun k y m hy hm _ => ?_
  have core := Reacts.jobs_ordered h.tables.jobs (departCore_reacts (D := AnyJob) n x s ht)
  obtain ⟨v, hv⟩ := departCore_standsAs hy (gone k y hy) ht y hy
  unfold depart departBy serveDeferred
  generalize departCore n x s = a at core hv ⊢
  obtain ⟨z, hz, hzm⟩ := serveFrom_remains (deferredOrder a) core hv hm
  have rest : Reacts NoJob a (serveFrom serve (deferredOrder a) a) := serveFrom_reacts (fun _ h => serve_reacts h) _ core
  obtain ⟨v', hv'⟩ := serve_standsAs k (Reacts.jobs_ordered core rest) z hz
  exact ⟨_, hv', hzm⟩

/-- A job that stays as it is superseded stays where it is in its engine. -/
theorem engines_supersedeEffect {j : Job} {q : PosKey} (ends : ¬ EndsSuperseded s n j) :
    (supersedeEffect n j (detached q n j s)).engines = (detached q n j s).engines := by
  by_cases sent : j.state = .assigned ∧ sentExpose (detached q n j s) n = true
  · rw [supersedeEffect_flags (.inl sent)]
    exact engines_raise _ _
  · unfold supersedeEffect
    dsimp only
    split
    next e => exact absurd (.inl e) ends
    next e => exact absurd (.inr (.inl e)) ends
    next e => exact absurd (.inr (.inr ⟨e, fun l => sent ⟨e, sentExpose_detached.mpr l⟩⟩)) ends
    next => exact (engines_raise _ _).trans (engines_raise _ _)
    next =>
      split
      · exact (engines_raise _ _).trans (engines_raise _ _)
      · exact (engines_raise _ _).trans (engines_raise _ _)
    next => exact (engines_sorterLook _).trans (engines_raise _ _)
    next => exact engines_raise _ _

section Supersede

variable {j : Job} {x : Position} (h : At w c b g s) (hw : w) (hx : s.pos? k = some x) (hc : x.work.current = some n)

include h hw hx hc

/-- A job is marked superseded, and its position has no current job. -/
theorem detached_turn : Turn (fun m => m = n) s (detached k n j s) := by
  refine .of_reacts detached_reacts ?_ (fun _ _ l => l.of_engines rfl) ?_ ?_
  · exact fun q y m hy hm => .inl (detached_renews h hw hx hc q hy hm)
  · intro q hq a
    have other : q ≠ k := fun e => hq x n (e ▸ hx) hc rfl
    have stands : StandsAs q s (detached k n j s) :=
      (StandsAs.of_plan (t := s.modJob n fun x => { x with superseded := true }) rfl).trans (.modWork other _ _)
    have length : s.jobs.length ≤ (detached k n j s).jobs.length := by
      have jobs : (detached k n j s).jobs = tmod s.jobs n fun x => { x with superseded := true } := rfl
      rw [jobs, length_tmod]
    exact a.bides (.of_reacts detached_reacts stands) length
  · intro q y m hy hm out
    have other : q ≠ k := by
      rintro rfl
      cases hx.symm.trans hy
      exact out (Option.some.inj (hm.symm.trans hc))
    refine ⟨y, ?_, hm⟩
    unfold detached
    rw [pos?_modWork, if_neg other]
    exact hy

/-- Before a superseded job departs it stands nowhere, and no position has it for its current job. -/
theorem supersede_leaving (hj : s.job? n = some j) (ends : EndsSuperseded s n j) : ∃ g' v,
    supersedeEffect n j (detached k n j s) = depart n .cancelled v ∧ Turn (fun m => m = n) s v ∧ At w c b g' v ∧
      v.job? n = some { j with superseded := true } ∧ (spots v).Off n ∧ v.plan = (detached k n j s).plan := by
  have flagged : At w c b (g.flagged k n j.state) (detached k n j s) := h.deed (.flag g s k x n j hx hc hj)
  have detaches := detached_turn (j := j) h hw hx hc
  have tell {v : State} (m : Notice) (turn : Turn (fun m => m = n) s v) : Turn (fun m => m = n) s (raise m v) :=
    turn.trans (.of_stands (raise_reacts m v) (fun _ => .of_plan (plan_raise m v)) fun _ l => l.of_engines (engines_raise m v))
      (fun _ => False.elim) fun _ _ _ _ _ => not_false
  have live := job?_detached (k := k) hj
  rcases or_assoc.mpr ends with waits | ⟨assigned, unsent⟩
  · refine ⟨_, _, supersedeEffect_ends waits, tell _ detaches, flagged.raised _, (job?_raise _ _ n).trans live, ?_, plan_raise _ _⟩
    rw [(Still.raised _ _).spots]
    exact ((flagged.place hw).ok.off_state live (by rcases waits with e | e <;> simp [e])).of_but
  · obtain ⟨g', -, left, off⟩ := dropAssigned_at flagged live assigned
    obtain ⟨v, l, parts⟩ := dropAssigned_parts (n := n) (s := detached k n j s)
    have plan : (dropAssigned n (detached k n j s)).plan = (detached k n j s).plan := by rw [parts]
    have jobs : (dropAssigned n (detached k n j s)).jobs = (detached k n j s).jobs := by rw [parts]
    have gone (q : PosKey) (y : Position) (m : Nat) (hy : (detached k n j s).pos? q = some y) (hm : y.work.current = some m) :
        m ≠ n := fun e => detached_gone h hw hx hc q y hy (e ▸ hm)
    have drops : Turn (fun m => m = n) s (dropAssigned n (detached k n j s)) :=
      detaches.trans (.of_plan (dropAssigned_reacts n _) plan (by rw [jobs]) gone fun m other l => dropAssigned_sent other l)
        (fun _ => id) gone
    refine ⟨g', _, supersedeEffect_unsent assigned (fun e => unsent (sentExpose_detached.mp e)), tell _ drops, left.raised _,
      ?_, ?_, (plan_raise _ _).trans plan⟩
    · rw [job?_raise, job?_of_jobs jobs]
      exact live
    · rw [(Still.raised _ _).spots]
      exact off hw

/-- A position's current job is superseded (R59). -/
theorem supersede_turn : Turn (fun m => m = n) s (supersede k n s) := by
  obtain ⟨j, hj, -⟩ := h.own hw hx hc
  have gone (q : PosKey) (y : Position) (m : Nat) (hy : (detached k n j s).pos? q = some y) (hm : y.work.current = some m) :
      m ≠ n := fun e => detached_gone h hw hx hc q y hy (e ▸ hm)
  have stays (r : Reacts NoJob (detached k n j s) (supersedeEffect n j (detached k n j s)))
      (plan : (supersedeEffect n j (detached k n j s)).plan = (detached k n j s).plan)
      (engines : (supersedeEffect n j (detached k n j s)).engines = (detached k n j s).engines) :
      Turn (fun m => m = n) s (supersedeEffect n j (detached k n j s)) :=
    (detached_turn h hw hx hc).trans (.of_stands r (fun _ => .of_plan plan) fun _ l => l.of_engines engines)
      (fun _ => False.elim) fun _ _ _ _ _ => not_false
  rw [supersede_eq hj]
  refine Turn.trans ?_ (tellSatisfied_turn k _) (fun _ => False.elim) fun _ _ _ _ _ => not_false
  by_cases ends : EndsSuperseded s n j
  · obtain ⟨g', v, leaves, turn, left, live, off, plan⟩ := supersede_leaving h hw hx hc hj ends
    have out (q : PosKey) (y : Position) (m : Nat) (hy : v.pos? q = some y) (hm : y.work.current = some m) : m ≠ n :=
      gone q y m ((pos?_of_plan plan).symm.trans hy) hm
    rw [leaves]
    exact turn.trans (depart_turn left hw (.inr (.inl rfl)) live off fun q y hy e => out q y n hy e rfl) (fun _ => id) out
  · by_cases terminal : j.state ∈ [.retired, .cancelled, .discarded]
    · have flagged : supersedeEffect n j (detached k n j s) =
          raise (.jobSuperseded n j.key j.state .flagged) (detached k n j s) := by
        unfold supersedeEffect
        simp only [List.mem_cons, List.not_mem_nil, or_false] at terminal
        rcases terminal with e | e | e <;> rw [e]
      refine stays ?_ ?_ ?_
      · rw [flagged]
        exact raise_reacts _ _
      · rw [flagged]
        exact plan_raise _ _
      · rw [flagged]
        exact engines_raise _ _
    · obtain ⟨chain, plan⟩ := supersedeEffect_stays (k := k) terminal ends
      exact stays chain plan (engines_supersedeEffect ends)

end Supersede

end Sys2Proof.Machine
end

section
/-! What a run of such events makes of the jobs and positions of the state before it (R54, R59). -/

namespace Sys2Proof.Machine

open State

variable {w c : Prop} {b : Gaps × State} {g : Gaps} {s t u v : State} {n : Nat} {k : PosKey}

/-! ### Supersedes that last -/

/-- A supersede lasts while its job is not taken again. -/
theorem Superseded.stays (h : Superseded n v u) (ended : Ended n v u → Ended n v t)
    (stays : ∀ j, u.job? n = some j → ∃ j', t.job? n = some j' ∧ JobStays j j') : Superseded n v t := by
  intro j hj
  obtain ⟨waits, assigned, unsent, sent, later⟩ := h j hj
  have on : (∃ j', u.job? n = some j' ∧ JobStays { j with superseded := true } j') →
      ∃ j', t.job? n = some j' ∧ JobStays { j with superseded := true } j' := fun ⟨i, hi, k⟩ => by
    obtain ⟨i', hi', k'⟩ := stays i hi
    exact ⟨i', hi', k.trans k'⟩
  exact ⟨fun e => ended (waits e), fun e => (assigned e).imp ended on, fun e l => ended (unsent e l), fun e l => on (sent e l),
    fun e => on (later e)⟩

/-- It lasts where its number has been given to a new job, and that one ends. -/
theorem Superseded.again (h : Superseded n v u) (fresh : FreshJob v n u) (ended : Ended n v t) : Superseded n v t := by
  intro j hj
  obtain ⟨waits, assigned, unsent, sent, later⟩ := h j hj
  obtain ⟨⟨i, hi, created⟩, -⟩ := fresh
  have never : ¬ ∃ j', u.job? n = some j' ∧ JobStays { j with superseded := true } j' := by
    rintro ⟨i', hi', k⟩
    cases hi.symm.trans hi'
    have flagged : i.superseded = true := by rw [k.2]
    rw [created.superseded] at flagged
    cases flagged
  exact ⟨fun _ => ended, fun _ => .inl ended, fun _ _ => ended, fun e l => absurd (sent e l) never,
    fun e => absurd (later e) never⟩

/-- A current job is superseded: it ends, or stays with its mark. -/
theorem supersede_superseded (o : Tables s) : Superseded n s (supersede k n s) := by
  intro j hj
  have stays (l : j.state ∉ [.retired, .cancelled, .discarded]) (e : ¬ EndsSuperseded s n j) :=
    (supersede_stays (k := k) hj l e).1
  have ends (e : EndsSuperseded s n j) : Ended n s (supersede k n s) := (supersede_ends o hj e).1
  refine ⟨fun e => ends (e.imp id .inl), fun e => ?_, fun e l => ends (.inr (.inr ⟨e, ?_⟩)), fun e l => stays (by simp [e]) ?_,
    fun e => stays ?_ ?_⟩
  · by_cases sent : SentExpose s n
    · refine .inr (stays (by simp [e]) ?_)
      rintro (e' | e' | ⟨-, e'⟩)
      · rw [e] at e'; cases e'
      · rw [e] at e'; cases e'
      · exact e' sent
    · exact .inl (ends (.inr (.inr ⟨e, sent⟩)))
  · rintro ⟨q, u, hu, job, stage⟩
    rw [l q u (.inl hu) job] at stage
    cases stage
  · rintro (e' | e' | ⟨-, e'⟩)
    · rw [e] at e'; cases e'
    · rw [e] at e'; cases e'
    · exact e' l
  · simp only [List.mem_cons, List.not_mem_nil, or_false] at e ⊢
    rcases e with e | e | e | e | e | e <;> simp [e]
  · simp only [List.mem_cons, List.not_mem_nil, or_false] at e
    unfold EndsSuperseded
    rcases e with e | e | e | e | e | e <;> simp [e]

/-- The job that it is superseded as stays the same. -/
theorem Superseded.of_stays {j j' : Job} (h : Superseded n u t) (hj : v.job? n = some j) (hj' : u.job? n = some j')
    (stays : JobStays j j') (entry : v.entryCount ≤ u.entryCount) (loads : Loads u n → Loads v n)
    (placed : Placed v) (sent : SentExpose v n → SentExpose u n) : Superseded n v t := by
  intro i hi
  cases hj.symm.trans hi
  obtain ⟨waits, assigned, unsent, sends, later⟩ := h j' hj'
  have flagged : (∃ i, t.job? n = some i ∧ JobStays { j' with superseded := true } i) → j'.state = j.state →
      ∃ i, t.job? n = some i ∧ JobStays { j with superseded := true } i := by
    rintro ⟨i, hi, k⟩ same
    refine ⟨i, hi, ?_, ?_⟩
    · exact k.1.imp (fun e => e.trans same) fun e => ⟨same.symm.trans e.1, e.2⟩
    · rw [k.2, stays.2]
  have unsent' (e : j'.state = .assigned) (l : ¬ Loads u n) : Ended n u t := by
    refine unsent e fun e w hw job => ?_
    by_contra stage
    exact l ⟨e, w, hw, job, stage⟩
  have same (e : j.state ≠ .queued) : j'.state = j.state := stays.1.resolve_right fun h => e h.1
  refine ⟨fun e => ?_, fun e => ?_, fun e l => ?_, fun e l => ?_, fun e => ?_⟩
  · rcases e with e | e
    · rcases stays.1 with e' | ⟨-, e'⟩
      · exact (waits (.inl (e'.trans e))).since entry
      · refine (unsent' e' fun l => ?_).since entry
        obtain ⟨q, u, hu, rfl, -⟩ := loads l
        have waiting : ∃ i, v.job? u.job = some i ∧ i.state = .assigned := by
          rcases hu with hu | hu
          · obtain ⟨i, hi, st, -⟩ := placed.next q u hu
            exact ⟨i, hi, st⟩
          · obtain ⟨i, hi, st, -⟩ := placed.parked q u hu
            exact ⟨i, hi, st⟩
        obtain ⟨i, hi, st⟩ := waiting
        cases hj.symm.trans hi
        rw [e] at st
        cases st
    · exact (waits (.inr ((same (by rw [e]; decide)).trans e))).since entry
  · have e' := same (by rw [e]; decide)
    exact (assigned (e'.trans e)).imp (fun h => h.since entry) fun h => flagged h e'
  · have e' := same (by rw [e]; decide)
    refine (unsent' (e'.trans e) fun h => ?_).since entry
    obtain ⟨q, u, hu, job, stage⟩ := loads h
    exact stage (l q u hu job)
  · have e' := same (by rw [e]; decide)
    exact flagged (sends (e'.trans e) (sent l)) e'
  · have e' := same (by rintro e'; rw [e'] at e; simp at e)
    exact flagged (later (by rw [e']; exact e)) e'

/-! ### A run of events -/

/-- A run of events so far. `D` are the jobs of the start that the run may take, and `R` those of them that it retires; `W`
are the positions that it has superseded no job of, `A` those whose needs it has met, `E` the jobs that it has retired. -/
structure Since (D R : Nat → Prop) (v : State) (W A : PosKey → Prop) (E : Nat → Prop) (u : State) : Prop where
  entry : v.entryCount ≤ u.entryCount
  loads : ∀ m, Loads u m → Loads v m
  others : ∀ m j, ¬ D m → v.job? m = some j → ∃ j', u.job? m = some j' ∧ JobStays j j'
  current : ∀ k y m, u.pos? k = some y → y.work.current = some m →
    (W k ∧ ∃ x, v.pos? k = some x ∧ x.work.current = some m) ∨ ((v.job? m = none ∨ D m) ∧ FreshJob v m u)
  remains : ∀ k x m, W k → v.pos? k = some x → x.work.current = some m →
    (∃ y, u.pos? k = some y ∧ y.work.current = some m) ∧
      (∀ j, v.job? m = some j → ∃ j', u.job? m = some j' ∧ JobStays j j') ∧ (SentExpose v m → SentExpose u m)
  superseded : ∀ k x m, ¬ W k → v.pos? k = some x → x.work.current = some m → ¬ R m → Superseded m v u
  attended : ∀ k, A k → Attended k u
  ended : ∀ m, E m → Ended m v u

/-- A position's current job is a live job of its own. -/
def Owned (s : State) : Prop := ∀ k x n, s.pos? k = some x → x.work.current = some n → ∃ j, s.job? n = some j ∧ j.key = k

/-- Two positions with the same current job are the same. -/
theorem Owned.same (h : Owned s) {p q : PosKey} {x y : Position} (hx : s.pos? p = some x) (hy : s.pos? q = some y)
    (hxn : x.work.current = some n) (hyn : y.work.current = some n) : p = q := by
  obtain ⟨i, hi, key⟩ := h p x n hx hxn
  obtain ⟨j, hj, key'⟩ := h q y n hy hyn
  cases hi.symm.trans hj
  exact key.symm.trans key'

theorem At.owned (h : At w c b g s) (hw : w) : Owned s := fun _ _ _ hx hn => h.own hw hx hn

namespace Since

variable {D R : Nat → Prop} {W A : PosKey → Prop} {E : Nat → Prop}

/-- The start of a run. -/
theorem start (v : State) : Since D R v (fun _ => True) (fun _ => False) (fun _ => False) v where
  entry := le_rfl
  loads _ := id
  others _ j _ hj := ⟨j, hj, .refl j⟩
  current _ y _ hy hm := .inl ⟨trivial, y, hy, hm⟩
  remains _ x _ _ hx hm := ⟨⟨x, hx, hm⟩, fun j hj => ⟨j, hj, .refl j⟩, id⟩
  superseded _ _ _ hW := absurd trivial hW
  attended _ := False.elim
  ended _ := False.elim

/-- The needs of another position have been met. -/
theorem attend (h : Since D R v W A E u) (hk : Attended k u) : Since D R v W (fun q => A q ∨ q = k) E u :=
  { h with attended := fun q hq => hq.elim (h.attended q) fun e => e ▸ hk }

/-- Less is said. -/
theorem weaken {A' : PosKey → Prop} (h : Since D R v W A E u) (hA : ∀ q, A' q → A q) : Since D R v W A' E u :=
  { h with attended := fun q hq => h.attended q (hA q hq) }

/-- An event that takes no job that is a position's current one. -/
theorem turn {N : Nat → Prop} (h : Since D R v W A E u) (turn : Turn N u t)
    (gone : ∀ k y m, u.pos? k = some y → y.work.current = some m → ¬ N m) (retired : ∀ m, N m → R m) (taken : ∀ m, N m → D m)
    (ends : ∀ m, N m → Ended m v t) : Since D R v W A (fun m => E m ∨ N m) t where
  entry := h.entry.trans turn.entry
  loads m l := h.loads m (turn.loads m l)
  others m j out hj := by
    obtain ⟨j', hj', k⟩ := h.others m j out hj
    obtain ⟨j'', hj'', k'⟩ := turn.stays m j' (fun e => out (taken m e)) hj'
    exact ⟨j'', hj'', k.trans k'⟩
  current k y m hy hm := by
    rcases turn.renews k y m hy hm with ⟨x, hx, hxm, out⟩ | ⟨free, fresh⟩
    · exact (h.current k x m hx hxm).imp_right fun ⟨free, fresh⟩ =>
        ⟨free, fresh.stays le_rfl (fun j hj => turn.stays m j out hj) (turn.loads m)⟩
    · refine .inr ⟨?_, fresh.stays h.entry (fun j hj => ⟨j, hj, .refl j⟩) id⟩
      by_contra live
      obtain ⟨free', out⟩ := not_or.mp live
      obtain ⟨j, hj⟩ := Option.ne_none_iff_exists'.mp free'
      obtain ⟨j', hj', -⟩ := h.others m j out hj
      exact free.elim (fun e => by cases e.symm.trans hj') fun e => out (taken m e)
  remains k x m hW hx hm := by
    obtain ⟨⟨y, hy, hym⟩, stays, sent⟩ := h.remains k x m hW hx hm
    have out := gone k y m hy hym
    refine ⟨turn.remains k y m hy hym out, fun j hj => ?_, fun l => turn.sent m out (sent l)⟩
    obtain ⟨j', hj', k⟩ := stays j hj
    obtain ⟨j'', hj'', k'⟩ := turn.stays m j' out hj'
    exact ⟨j'', hj'', k.trans k'⟩
  superseded k x m hW hx hm hR := by
    have out : ¬ N m := fun e => hR (retired m e)
    exact (h.superseded k x m hW hx hm hR).stays (turn.ended v m out h.entry) fun j hj => turn.stays m j out hj
  attended k hA := turn.attended k (fun y m hy hm => gone k y m hy hm) (h.attended k hA)
  ended m hE := by
    by_cases out : N m
    · exact ends m out
    · exact turn.ended v m out h.entry (h.ended m (hE.resolve_right out))

/-- An event that takes no job. -/
theorem quiet (h : Since D R v W A E u) (turn : Turn NoJob u t) : Since D R v W A E t :=
  { h.turn turn (fun _ _ _ _ _ => not_false) (fun _ => False.elim) (fun _ => False.elim) (fun _ => False.elim) with
    ended := fun m hE => turn.ended v m not_false h.entry (h.ended m hE) }

/-- A position's current job is superseded. -/
theorem supersede {y : Position} (h : Since D R v W A E u) (turn : Turn (fun m => m = n) u t) (o : Owned v) (o' : Owned u)
    (placed : Placed v) (hy : u.pos? k = some y) (hn : y.work.current = some n) (out : Superseded n u t)
    (taken : ∀ x m, v.pos? k = some x → x.work.current = some m → D m) 
    (unended : ∀ m, E m → ∀ x, v.pos? k = some x → x.work.current ≠ some m) :
    Since D R v (fun q => W q ∧ q ≠ k) (fun q => A q ∧ q ≠ k) E t := by
  have free (q : PosKey) (z : Position) (hz : u.pos? q = some z) (hq : q ≠ k) (m : Nat) (hm : z.work.current = some m) :
      m ≠ n := fun e => hq (o'.same hz hy hm (e ▸ hn))
  have whose := h.current k y n hy hn
  have takes : v.job? n = none ∨ D n :=
    whose.elim (fun ⟨_, x, hx, hxn⟩ => .inr (taken x n hx hxn)) And.left
  have freshEnds (fresh : FreshJob v n u) : Ended n v t := by
    obtain ⟨⟨j, hj, created⟩, waits⟩ := fresh
    obtain ⟨ends, -, unsent, -⟩ := out j hj
    rcases created.state with e | e
    · exact (ends (.inl e)).since h.entry
    · refine (unsent e fun q w hw job => ?_).since h.entry
      by_contra stage
      exact waits ⟨q, w, hw, job, stage⟩
  refine
    { entry := h.entry.trans turn.entry
      loads := fun m l => h.loads m (turn.loads m l)
      others := fun m j hD hj => ?_
      current := fun q z m hz hm => ?_
      remains := fun q x m hW hx hm => ?_
      superseded := fun q x m hW hx hm hR => ?_
      attended := fun q hq => turn.attended q (fun z m hz hm => free q z hz hq.2 m hm) (h.attended q hq.1)
      ended := fun m hE => ?_ }
  · obtain ⟨j', hj', k⟩ := h.others m j hD hj
    have other : m ≠ n := by
      rintro rfl
      exact takes.elim (fun e => by cases e.symm.trans hj) hD
    obtain ⟨j'', hj'', k'⟩ := turn.stays m j' other hj'
    exact ⟨j'', hj'', k.trans k'⟩
  · rcases turn.renews q z m hz hm with ⟨x, hx, hxm, other⟩ | ⟨free', fresh⟩
    · have out : q ≠ k := by
        rintro rfl
        cases hy.symm.trans hx
        exact other (Option.some.inj (hxm.symm.trans hn))
      exact (h.current q x m hx hxm).imp (fun ⟨hW, hv⟩ => ⟨⟨hW, out⟩, hv⟩) fun ⟨free, fresh⟩ =>
        ⟨free, fresh.stays le_rfl (fun j hj => turn.stays m j other hj) (turn.loads m)⟩
    · refine .inr ⟨?_, fresh.stays h.entry (fun j hj => ⟨j, hj, .refl j⟩) id⟩
      by_contra live
      obtain ⟨free'', outD⟩ := not_or.mp live
      obtain ⟨j, hj⟩ := Option.ne_none_iff_exists'.mp free''
      obtain ⟨j', hj', -⟩ := h.others m j outD hj
      rcases free' with e | rfl
      · cases e.symm.trans hj'
      · exact live takes
  · obtain ⟨⟨z, hz, hzm⟩, stays, sent⟩ := h.remains q x m hW.1 hx hm
    have other := free q z hz hW.2 m hzm
    refine ⟨turn.remains q z m hz hzm other, fun j hj => ?_, fun l => turn.sent m other (sent l)⟩
    obtain ⟨j', hj', k⟩ := stays j hj
    obtain ⟨j'', hj'', k'⟩ := turn.stays m j' other hj'
    exact ⟨j'', hj'', k.trans k'⟩
  · by_cases hWq : W q
    · have same : q = k := not_not.mp fun e => hW ⟨hWq, e⟩
      subst same
      obtain ⟨⟨z, hz, hzm⟩, stays, sent⟩ := h.remains q x m hWq hx hm
      cases hy.symm.trans hz
      cases hn.symm.trans hzm
      obtain ⟨j, hj, -⟩ := o q x n hx hm
      obtain ⟨j', hj', k⟩ := stays j hj
      exact out.of_stays hj hj' k h.entry (h.loads n) placed sent
    · have before := h.superseded q x m hWq hx hm hR
      by_cases other : m = n
      · subst other
        rcases whose with ⟨hWk, x', hx', hxm'⟩ | ⟨-, fresh⟩
        · exact absurd (o.same hx hx' hm hxm' ▸ hWk) hWq
        · exact before.again fresh (freshEnds fresh)
      · exact before.stays (turn.ended v m other h.entry) fun j hj => turn.stays m j other hj
  · by_cases other : m = n
    · subst other
      rcases whose with ⟨-, x, hx, hxm⟩ | ⟨-, fresh⟩
      · exact absurd hxm (unended m hE x hx)
      · exact freshEnds fresh
    · exact turn.ended v m other h.entry (h.ended m hE)

/-- A position without a current job has none to supersede. -/
theorem vacant (h : Since D R v W A E u) (hk : ∀ y, u.pos? k = some y → y.work.current = none) :
    Since D R v (fun q => W q ∧ q ≠ k) A E u :=
  { h with
    current := fun q y m hy hm => by
      refine (h.current q y m hy hm).imp_left fun ⟨hW, hv⟩ => ⟨⟨hW, ?_⟩, hv⟩
      rintro rfl
      cases (hk y hy).symm.trans hm
    remains := fun q x m hW => h.remains q x m hW.1
    superseded := fun q x m hW hx hm hR => by
      by_cases hWq : W q
      · have same : q = k := not_not.mp fun e => hW ⟨hWq, e⟩
        subst same
        obtain ⟨⟨y, hy, hym⟩, -⟩ := h.remains q x m hWq hx hm
        cases (hk y hy).symm.trans hym
      · exact h.superseded q x m hWq hx hm hR }

/-- A position's current job is superseded, if it has one. -/
theorem supersedeAt (h : Since D R v W A E u) (a : At w c b g u) (hw : w) (o : Owned v) (placed : Placed v) (k : PosKey)
    (taken : ∀ x m, v.pos? k = some x → x.work.current = some m → D m)
    (unended : ∀ m, E m → ∀ x, v.pos? k = some x → x.work.current ≠ some m) :
    Since D R v (fun q => W q ∧ q ≠ k) (fun q => A q ∧ q ≠ k) E (supersedeAt k u) := by
  unfold Machine.supersedeAt
  split
  next n hn =>
    obtain ⟨y, hy, current⟩ := Option.bind_eq_some_iff.mp hn
    exact h.supersede (supersede_turn a hw hy current) o (a.owned hw) placed hy current (supersede_superseded a.tables) taken unended
  next hn =>
    refine (h.vacant fun y hy => ?_).weaken fun q hq => hq.1
    rw [hy] at hn
    exact hn

/-- A need is tested, and met. -/
theorem needAndServe (h : Since D R v W A E u) (a : At w c b g u) (hw : w) (k : PosKey) :
    Since D R v W (fun q => A q ∨ q = k) E (needAndServe k u) :=
  (h.quiet (needAndServe_turn a hw k)).attend (needAndServe_attended k a.tables.jobs)

/-- A position's current job is superseded, and its need met. -/
theorem revised (h : Since D R v W A E u) (a : At w c b Gaps.closed u) (hw : w) (o : Owned v) (placed : Placed v) (k : PosKey)
    (taken : ∀ x m, v.pos? k = some x → x.work.current = some m → D m)
    (unended : ∀ m, E m → ∀ x, v.pos? k = some x → x.work.current ≠ some m) :
    Since D R v (fun q => W q ∧ q ≠ k) (fun q => A q ∨ q = k) E (Machine.needAndServe k (Machine.supersedeAt k u)) := by
  have superseded := h.supersedeAt a hw o placed k taken unended
  have met : Since D R v (fun q => W q ∧ q ≠ k) (fun q => (A q ∧ q ≠ k) ∨ q = k) E
      (Machine.needAndServe k (Machine.supersedeAt k u)) := by
    rcases supersedeAt_at a k (fun _ => id) (fun _ => id) (fun _ => id) with a' | a'
    · exact superseded.needAndServe a' hw k
    · exact superseded.needAndServe a' hw k
  exact met.weaken fun q hq => hq.elim (fun hA => (em (q = k)).elim .inr fun e => .inl ⟨hA, e⟩) .inr

end Since

/-! ### Signals (R29, R31) -/

/-- Nothing stands open after a revised position. -/
theorem revised_at (a : At w c b Gaps.closed u) (k : PosKey) : At w c b Gaps.closed (needAndServe k (supersedeAt k u)) := by
  have told : Gaps.closed.told k = Gaps.closed := Gaps.told_eq id
  rcases supersedeAt_at a k (fun _ => id) (fun _ => id) (fun _ => id) with a' | a'
  · exact (needAndServe_at a' k).same told
  · exact (needAndServe_at (a'.same told) k).same told

/-- Revising a position is a reaction. -/
theorem revised_reacts (k : PosKey) (hs : JobsOrdered u) : Reacts AnyJob u (needAndServe k (supersedeAt k u)) :=
  Reacts.then hs (supersedeAt_reacts k hs) fun h => needAndServe_reacts k h

/-- The positions of a list are signalled in turn: each has its need tested, and some have their current jobs superseded before
that. -/
theorem signal_since {D : Nat → Prop} {P : PosKey → Prop} {f : State → PosKey → State} {l : List PosKey} {v : State}
    (a : At w c b Gaps.closed v) (hw : w) (placed : Placed v)
    (flags : ∀ u, Reacts AnyJob v u → ∀ k ∈ l, P k → f u k = needAndServe k (supersedeAt k u))
    (tests : ∀ u, Reacts AnyJob v u → ∀ k ∈ l, ¬ P k → f u k = needAndServe k u)
    (taken : ∀ k ∈ l, P k → ∀ x m, v.pos? k = some x → x.work.current = some m → D m) :
    Since D (fun _ => False) v (fun q => ¬ (q ∈ l ∧ P q)) (fun q => q ∈ l) (fun _ => False) (l.foldl f v) ∧
      At w c b Gaps.closed (l.foldl f v) ∧ Reacts AnyJob v (l.foldl f v) := by
  have o : Owned v := a.owned hw
  have told (k : PosKey) : Gaps.closed.told k = Gaps.closed := Gaps.told_eq id
  suffices step : ∀ (todo : List PosKey) (W A : PosKey → Prop) (u : State), (∀ k ∈ todo, k ∈ l) →
      Since D (fun _ => False) v W A (fun _ => False) u → At w c b Gaps.closed u → Reacts AnyJob v u →
      Since D (fun _ => False) v (fun q => W q ∧ ¬ (q ∈ todo ∧ P q)) (fun q => A q ∨ q ∈ todo) (fun _ => False) (todo.foldl f u) ∧
        At w c b Gaps.closed (todo.foldl f u) ∧ Reacts AnyJob v (todo.foldl f u) by
    obtain ⟨since, rest⟩ := step l _ _ v (fun _ => id) (.start v) a .refl
    refine ⟨?_, rest⟩
    have same : (fun q => True ∧ ¬ (q ∈ l ∧ P q)) = fun q => ¬ (q ∈ l ∧ P q) := funext fun q => true_and _
    rw [same] at since
    exact since.weaken fun q => .inr
  intro todo
  induction todo with
  | nil =>
    intro W A u _ since at_u chain
    have same : (fun q => W q ∧ ¬ (q ∈ ([] : List PosKey) ∧ P q)) = W := funext fun q => by simp
    rw [same]
    exact ⟨since.weaken fun q hq => hq.resolve_right List.not_mem_nil, at_u, chain⟩
  | cons k todo ih =>
    intro W A u sub since at_u chain
    have hk := sub k (by simp)
    have rest := fun q hq => sub q (List.mem_cons_of_mem k hq)
    rw [List.foldl_cons]
    have finish {W' : PosKey → Prop} (hW : ∀ q, (W' q ∧ ¬ (q ∈ todo ∧ P q)) ↔ (W q ∧ ¬ (q ∈ k :: todo ∧ P q)))
        (since : Since D (fun _ => False) v W' (fun q => A q ∨ q = k) (fun _ => False) (f u k))
        (at_t : At w c b Gaps.closed (f u k)) (chain : Reacts AnyJob v (f u k)) :
        Since D (fun _ => False) v (fun q => W q ∧ ¬ (q ∈ k :: todo ∧ P q)) (fun q => A q ∨ q ∈ k :: todo) (fun _ => False)
          (todo.foldl f (f u k)) ∧ At w c b Gaps.closed (todo.foldl f (f u k)) ∧ Reacts AnyJob v (todo.foldl f (f u k)) := by
      obtain ⟨since, at_t, chain⟩ := ih W' _ (f u k) rest since at_t chain
      rw [funext fun q => propext (hW q)] at since
      exact ⟨since.weaken fun q hq => by simpa [or_assoc] using hq, at_t, chain⟩
    by_cases hP : P k
    · have step := flags u chain k hk hP
      refine finish (W' := fun q => W q ∧ q ≠ k) (fun q => ?_) ?_ ?_ ?_
      · rw [List.mem_cons]
        constructor
        · rintro ⟨⟨hW, ne⟩, out⟩
          exact ⟨hW, fun ⟨e, hp⟩ => e.elim ne fun e => out ⟨e, hp⟩⟩
        · rintro ⟨hW, out⟩
          exact ⟨⟨hW, fun e => out ⟨.inl e, e ▸ hP⟩⟩, fun ⟨e, hp⟩ => out ⟨.inr e, hp⟩⟩
      · rw [step]
        exact since.revised at_u hw o placed k (taken k hk hP) fun _ => False.elim
      · rw [step]
        exact revised_at at_u k
      · rw [step]
        exact chain.trans (revised_reacts k at_u.tables.jobs)
    · have step := tests u chain k hk hP
      refine finish (W' := W) (fun q => ?_) ?_ ?_ ?_
      · rw [List.mem_cons]
        constructor
        · rintro ⟨hW, out⟩
          exact ⟨hW, fun ⟨e, hp⟩ => e.elim (fun e => hP (e ▸ hp)) fun e => out ⟨e, hp⟩⟩
        · rintro ⟨hW, out⟩
          exact ⟨hW, fun ⟨e, hp⟩ => out ⟨.inr e, hp⟩⟩
      · rw [step]
        exact since.needAndServe at_u hw k
      · rw [step]
        exact (needAndServe_at at_u k).same (told k)
      · rw [step]
        exact chain.trans (needAndServe_reacts k at_u.tables.jobs)

/-- What a run makes of a position whose job it has superseded. -/
theorem Since.renewed {D R E : Nat → Prop} {W A : PosKey → Prop} (h : Since D R v W A E u) (o : Owned u) (hk : ¬ W k) :
    Renewed k v u := by
  intro y m hy hm
  obtain ⟨-, ⟨j, hj, created⟩, -⟩ := (h.current k y m hy hm).resolve_left fun e => hk e.1
  obtain ⟨i, hi, key⟩ := o k y m hy hm
  cases hj.symm.trans hi
  exact ⟨j, hj, key, created⟩

end Sys2Proof.Machine
end

section
/-! SEPARATION_ARRIVED that revises a page, and the revision signal (R9, R17, R18, R29). -/

namespace Sys2Proof.Machine

open State

variable {s t u v : State}

/-! ### Slots that are current no longer (R9) -/

/-- What is left of a slot that loses its current flag. -/
def Slot.uncurrent (x : Slot) : Option Slot := if x.count = 0 then none else some { x with current := false }

/-- It loses it once. -/
theorem Slot.uncurrent_again (x : Slot) : x.uncurrent.bind Slot.uncurrent = x.uncurrent := by
  unfold Slot.uncurrent
  by_cases h : x.count = 0 <;> simp [h]

/-- A slot loses its current flag. -/
theorem slot?_clearCurrent (k k' : SlotKey) (s : State) : (clearCurrent k s).slot? k' =
    if k' = k then (s.slot? k').bind Slot.uncurrent else s.slot? k' := by
  unfold clearCurrent
  rw [slot?_freeIfDone, slot?_modSlot]
  by_cases h : k' = k
  · rw [if_pos h, if_pos h, if_pos h, Option.bind_map]
    congr 1
    funext x
    simp [Slot.releasing, Slot.uncurrent]
  · rw [if_neg h, if_neg h, if_neg h]

/-- Some slots lose their current flags. -/
theorem slot?_clearEach (ks : List SlotKey) (k : SlotKey) (s : State) : (ks.foldl (fun s k => clearCurrent k s) s).slot? k =
    if k ∈ ks then (s.slot? k).bind Slot.uncurrent else s.slot? k := by
  induction ks generalizing s with
  | nil => rfl
  | cons a ks ih =>
    rw [List.foldl_cons, ih, slot?_clearCurrent]
    by_cases h : k = a
    · rw [if_pos h, if_pos (List.mem_cons.mpr (.inl h))]
      split
      · rw [Option.bind_assoc]
        exact congrArg _ (funext Slot.uncurrent_again)
      · rfl
    · simp [h]

/-- The current slots of a page. -/
theorem mem_currentSlots_iff (h : Table.ordered SlotKey.rank s.slots) (n : Nat) (k : SlotKey) :
    k ∈ currentSlots s n ↔ k.page = n ∧ ∃ x, s.slot? k = some x ∧ x.current = true := by
  unfold currentSlots
  rw [List.mem_map]
  constructor
  · rintro ⟨⟨k, x⟩, hx, rfl⟩
    obtain ⟨mem, is⟩ := List.mem_filter.mp hx
    obtain ⟨page, current⟩ := Bool.and_eq_true_iff.mp is
    exact ⟨of_decide_eq_true page, x, tget_of_mem h mem, current⟩
  · rintro ⟨page, x, hx, current⟩
    exact ⟨(k, x), List.mem_filter.mpr ⟨mem_of_tget hx, by simp [page, current]⟩, rfl⟩

/-- No slot of the page is current then. -/
theorem slot?_clearAllCurrent (h : Table.ordered SlotKey.rank s.slots) (n : Nat) (k : SlotKey) :
    (clearAllCurrent n s).slot? k =
      if k.page = n ∧ ∃ x, s.slot? k = some x ∧ x.current = true then (s.slot? k).bind Slot.uncurrent else s.slot? k := by
  unfold clearAllCurrent
  rw [slot?_clearEach]
  simp only [mem_currentSlots_iff h n k]

/-- A slot of the page that is left was there, and is current no longer. -/
theorem cleared_before (h : Table.ordered SlotKey.rank s.slots) {n : Nat} {k : SlotKey} {o : Slot}
    (ho : (clearAllCurrent n s).slot? k = some o) (hk : k.page = n) :
    o.current = false ∧ ∃ o', s.slot? k = some o' ∧ o.ref = o'.ref ∧ o.bad = o'.bad := by
  rw [slot?_clearAllCurrent h] at ho
  split at ho
  next hc =>
    obtain ⟨-, x, hx, -⟩ := hc
    rw [hx, Option.bind_some] at ho
    unfold Slot.uncurrent at ho
    split at ho
    · cases ho
    · cases ho
      exact ⟨rfl, x, hx, rfl, rfl⟩
  next hc =>
    refine ⟨?_, o, ho, rfl, rfl⟩
    by_contra current
    exact hc ⟨hk, o, ho, by simpa using current⟩

/-- A current slot of the page that nothing holds is freed. -/
theorem cleared_freed (h : Table.ordered SlotKey.rank s.slots) {n : Nat} {k : SlotKey} {o : Slot} (ho : s.slot? k = some o)
    (hk : k.page = n) (current : o.current = true) (count : o.count = 0) : (clearAllCurrent n s).slot? k = none := by
  rw [slot?_clearAllCurrent h, if_pos ⟨hk, o, ho, current⟩, ho, Option.bind_some]
  exact if_pos count

/-- The slots of other pages stay. -/
theorem cleared_other (h : Table.ordered SlotKey.rank s.slots) {n : Nat} {k : SlotKey} (hk : k.page ≠ n) :
    (clearAllCurrent n s).slot? k = s.slot? k := by
  rw [slot?_clearAllCurrent h, if_neg fun e => hk e.1]

/-! ### What reactions after a write of the registers leave (R9) -/

/-- All but the registers is left as it was. -/
theorem KeptByReacting.aside (h : KeptByReacting u t) (same : RegistersOnly s u) :
    KeptAside { s with pages := t.pages, slots := t.slots } t := by
  obtain ⟨pages, slots, starved, ports, rfl⟩ : ∃ pages slots starved ports,
      u = { s with pages := pages, slots := slots, starved := starved, ports := ports } := ⟨_, _, _, _, same⟩
  exact { h.toKeptAside with
    pages := fun _ => ⟨id, fun r hr => .inl ⟨r.liveJobs, hr⟩⟩
    slots := fun _ => ⟨id, fun x hx => .inl ⟨x.count, hx⟩⟩ }

/-- What is signalled after a write of the registers is signalled to the state before it. -/
theorem Signalled.registers {n : Nat} {needs : Position → Prop} (h : Signalled n needs u t) (same : RegistersOnly s u) :
    Signalled n needs s t := by
  obtain ⟨pages, slots, starved, ports, rfl⟩ : ∃ pages slots starved ports,
      u = { s with pages := pages, slots := slots, starved := starved, ports := ports } := ⟨_, _, _, _, same⟩
  obtain ⟨superseded, renewed, attended, others⟩ := h
  refine ⟨fun k x m hx hn need hm j hj => ?_, fun k x hx hn need => (renewed k x hx hn need).since le_rfl, attended, others⟩
  obtain ⟨waits, assigned, unsent, sent, later⟩ := superseded k x m hx hn need hm j hj
  exact ⟨fun e => (waits e).since le_rfl, fun e => (assigned e).imp_left fun e => e.since le_rfl,
    fun e l => (unsent e l).since le_rfl, sent, later⟩

/-! ### Signals -/

/-- A run that has signalled the positions that name a page. -/
theorem signalled_of_since {w c : Prop} {b : Gaps × State} {g : Gaps} {n : Nat} {needs : Position → Prop} {P : PosKey → Prop}
    (h : Since (fun m => ∃ k x, u.pos? k = some x ∧ n ∈ x.content.pages ∧ needs x ∧ x.work.current = some m) (fun _ => False) u
      (fun q => ¬ (q ∈ u.positionsNaming n ∧ P q)) (fun q => q ∈ u.positionsNaming n) (fun _ => False) t)
    (a : At w c b g t) (hw : w) (hP : ∀ k x, u.pos? k = some x → n ∈ x.content.pages → needs x → P k) :
    Signalled n needs u t := by
  have flagged {k : PosKey} {x : Position} (hx : u.pos? k = some x) (hn : n ∈ x.content.pages) (need : needs x) :
      ¬ ¬ (k ∈ u.positionsNaming n ∧ P k) := not_not_intro ⟨mem_positionsNaming hx hn, hP k x hx hn need⟩
  refine ⟨fun k x m hx hn need hm => ?_, fun k x hx hn need => ?_, fun k x hx hn => ?_, fun m j out hj => ?_⟩
  · exact h.superseded k x m (flagged hx hn need) hx hm id
  · exact h.renewed (a.owned hw) (flagged hx hn need)
  · exact h.attended k (mem_positionsNaming hx hn)
  · exact h.others m j out hj

/-- A revision signal (R29). -/
theorem revisionSignal_signalled (o : Tables u) (placed : Placed u) (n : Nat) :
    Signalled n (fun _ => True) u (revisionSignal n u) ∧ Reacts AnyJob u (revisionSignal n u) := by
  have a : At True False (Gaps.closed, u) Gaps.closed u := .start o (fun _ => placed) False.elim
  have named {k : PosKey} (hk : k ∈ u.positionsNaming n) : ∀ x, u.pos? k = some x → n ∈ x.content.pages := by
    intro x hx
    unfold State.positionsNaming at hk
    obtain ⟨⟨k', y⟩, hy, rfl⟩ := List.mem_map.mp hk
    obtain ⟨mem, is⟩ := List.mem_filter.mp hy
    cases hx.symm.trans (tget_of_mem o.plan mem)
    simpa using is
  obtain ⟨since, at_t, chain⟩ := signal_since (D := fun m => ∃ k x, u.pos? k = some x ∧ n ∈ x.content.pages ∧ True ∧
      x.work.current = some m) (P := fun _ => True) (f := fun s k => needAndServe k (supersedeAt k s))
    (l := u.positionsNaming n) a trivial placed (fun _ _ _ _ _ => rfl) (fun _ _ _ _ h => absurd trivial h)
    fun k hk _ x m hx hm => ⟨k, x, hx, named hk x hx, trivial, hm⟩
  exact ⟨signalled_of_since since at_t trivial fun _ _ _ _ _ => trivial, chain⟩

/-! ### A revision (R17, R18) -/

section Revision

variable {n old ver : Nat} {c : ColourClass} {x : Separation} {ref : U64} {r : PageRec}

/-- A revision that finds room. -/
theorem arrive_revises (hr : s.page? n = some r) (hs : r.state ≠ .expected) (hv : r.version = some old) (hlt : old < ver)
    (room : revisionRoom s n = true) : arrive n ver c x ref s = revise n old ver c x ref r.liveJobs s := by
  have arrived (h : r.state = .partly ∨ r.state = .complete) :
      arrive n ver c x ref s = revise n old ver c x ref r.liveJobs s := by
    rw [arrive_arrived hr h hv, arriveVersion, if_neg hlt.asymm, if_neg hlt.ne', if_pos room]
  cases h : r.state with
  | expected => exact absurd h hs
  | partly => exact arrived (.inl h)
  | complete => exact arrived (.inr h)
  | withdrawn => rw [arrive_withdrawn hr h hv, if_pos hlt, if_pos room]

/-- The record of a page that is revised. -/
def revisedRecord (ver : Nat) (c : ColourClass) (x : Separation) (live : Nat) : PageRec :=
  ⟨some c, some ver, (⟨false, false, false, false⟩ : SepSet).add x, stateFor c ((⟨false, false, false, false⟩ : SepSet).add x),
    live⟩

/-- The registers once a revision has been written. -/
def revisedAt (n ver : Nat) (c : ColourClass) (x : Separation) (ref : U64) (live : Nat) (s : State) : State :=
  ((clearAllCurrent n s).putPage n (revisedRecord ver c x live)).putSlot ⟨n, ver, x⟩ ⟨ref, 0, true, false⟩

/-- A revision writes the registers, raises its notices, signals and answers. -/
theorem revise_eq (n old ver : Nat) (c : ColourClass) (x : Separation) (ref : U64) (live : Nat) (s : State) :
    revise n old ver c x ref live s =
      let ns := .pageRevised n old ver c :: completes n ver c ((⟨false, false, false, false⟩ : SepSet).add x)
      let t := revisionSignal n (raiseAll ns (revisedAt n ver c x ref live s))
      (t, arrivalAnswer 1 n t) := by
  unfold revise
  dsimp only
  rw [tellComplete_eq, writeArrival_eq]
  rfl

theorem revisedAt_registers (live : Nat) (s : State) : RegistersOnly s (revisedAt n ver c x ref live s) := by
  have cleared := RegistersOnly.cleared n s
  unfold revisedAt
  generalize clearAllCurrent n s = t at cleared ⊢
  have written : RegistersOnly t ((t.putPage n (revisedRecord ver c x live)).putSlot ⟨n, ver, x⟩ ⟨ref, 0, true, false⟩) := rfl
  exact cleared.trans written

theorem revisedAt_desk (live : Nat) (s : State) : SameDesk s (revisedAt n ver c x ref live s) :=
  clearAllCurrent_keeps (P := fun t => SameDesk s ((t.putPage n (revisedRecord ver c x live)).putSlot ⟨n, ver, x⟩
    ⟨ref, 0, true, false⟩)) n (fun _ _ _ h => h) (fun _ _ h => h) ⟨rfl, rfl⟩

theorem revisedAt_tables (o : Tables s) (live : Nat) : Tables (revisedAt n ver c x ref live s) := by
  have cleared := clearAllCurrent_tables n o
  have written : revisedAt n ver c x ref live s = writeArrival n ver c ⟨false, false, false, false⟩ x ref live (clearAllCurrent n s) :=
    writeArrival_eq.symm
  rw [written]
  exact cleared.writeArrival n ver c _ x ref live

theorem revisedAt_page? (live m : Nat) (s : State) : (revisedAt n ver c x ref live s).page? m =
    (s.putPage n (revisedRecord ver c x live)).page? m := by
  have pages := pages_clearAllCurrent n s
  unfold revisedAt
  have slot : ∀ k o (t : State), (t.putSlot k o).page? m = t.page? m := fun _ _ _ => rfl
  rw [slot, page?_putPage, page?_putPage]
  unfold State.page?
  rw [pages]

theorem revisedAt_slot? (live : Nat) (s : State) (k : SlotKey) : (revisedAt n ver c x ref live s).slot? k =
    if k = ⟨n, ver, x⟩ then some ⟨ref, 0, true, false⟩ else (clearAllCurrent n s).slot? k := by
  unfold revisedAt
  rw [slot?_putSlot]
  rfl

/-- The writes of a revision leave every job where it is. -/
theorem RegistersOnly.placed (h : RegistersOnly s t) (placed : Placed s) : Placed t := by
  rw [placed_iff, h.spots]
  exact (placed_iff s).mp placed

/-- Room for a revision (R17). -/
theorem revisionRoom_of (h : s.slots.length < 1024 ∨
    ∃ k o, s.slot? k = some o ∧ k.page = n ∧ o.current = true ∧ o.count = 0) : revisionRoom s n = true := by
  by_contra none
  obtain ⟨full, held⟩ := (revisionRoom_eq_false_iff s n).mp (by simpa using none)
  rcases h with room | ⟨k, o, ho, page, current, count⟩
  · exact absurd full (Nat.not_le.mpr room)
  · exact held (k, o) (mem_of_tget ho) page current count

/-! ### The slots after a revision -/

section Slots

variable {live : Nat} (o : Table.ordered SlotKey.rank s.slots) (h : KeptByReacting (revisedAt n ver c x ref live s) v)

include h

/-- The new slot is current. -/
theorem revised_current : ∃ m, v.slot? ⟨n, ver, x⟩ = some ⟨ref, m, true, false⟩ := by
  have new : (revisedAt n ver c x ref live s).slot? ⟨n, ver, x⟩ = some ⟨ref, 0, true, false⟩ :=
    (revisedAt_slot? live s _).trans (if_pos rfl)
  have page : (revisedAt n ver c x ref live s).page? n = some (revisedRecord ver c x live) :=
    (revisedAt_page? live n s).trans ((page?_putPage _ _ _ _).trans (if_pos rfl))
  refine ((h.slots _).2 _ new).resolve_right ?_
  rintro ⟨-, current | ⟨r, hr, withdrawn⟩⟩
  · cases current
  · cases page.symm.trans hr
    rcases stateFor_cases c ((⟨false, false, false, false⟩ : SepSet).add x) with e | e <;> cases e.symm.trans withdrawn

include o

/-- What is left of the page's other slots is current no longer. -/
theorem revised_left {k : SlotKey} {a : Slot} (ha : v.slot? k = some a) (hk : k.page = n) (other : k ≠ ⟨n, ver, x⟩) :
    a.current = false ∧ ∃ a', s.slot? k = some a' ∧ a.ref = a'.ref ∧ a.bad = a'.bad := by
  have slot := (revisedAt_slot? (n := n) (ver := ver) (c := c) (x := x) (ref := ref) live s k).trans (if_neg other)
  cases before : (clearAllCurrent n s).slot? k with
  | none => cases ((h.slots k).1 (slot.trans before)).symm.trans ha
  | some a' =>
    obtain ⟨m, hm⟩ := ((h.slots k).2 a' (slot.trans before)).resolve_right fun e => by cases e.1.symm.trans ha
    cases ha.symm.trans hm
    have left := cleared_before o before hk
    exact left

/-- The page's current slots that nothing held are freed. -/
theorem revised_freed {k : SlotKey} {a : Slot} (ha : s.slot? k = some a) (hk : k.page = n) (other : k ≠ ⟨n, ver, x⟩)
    (current : a.current = true) (count : a.count = 0) : v.slot? k = none :=
  (h.slots k).1 (((revisedAt_slot? live s k).trans (if_neg other)).trans (cleared_freed o ha hk current count))

/-- The slots of other pages stay, or are freed as reactions free them. -/
theorem revised_other {k : SlotKey} (hk : k.page ≠ n) : SlotKept s v k := by
  have other : k ≠ ⟨n, ver, x⟩ := fun e => hk (congrArg SlotKey.page e)
  have slot : (revisedAt n ver c x ref live s).slot? k = s.slot? k :=
    ((revisedAt_slot? live s k).trans (if_neg other)).trans (cleared_other o hk)
  have page : (revisedAt n ver c x ref live s).page? k.page = s.page? k.page :=
    (revisedAt_page? live _ s).trans ((page?_putPage _ _ _ _).trans (if_neg hk))
  have kept := h.slots k
  unfold SlotKept at kept ⊢
  rw [slot, page] at kept
  exact kept

end Slots

end Revision

/-- Settles O20: the registers are written, and the positions that name the page have their current jobs superseded and their
needs tested. -/
theorem separationRevised : Obligations.SeparationRevised := by
  intro p tag page version cls sep ref s c x r old hfree htab hplaced hright hp hc hx hcx hr hst hv hlt room
  set rec : Received := ⟨tag, 1, .sound (.separationArrived page version cls sep ref)⟩
  set n := page.toNat
  set ver := version.toNat
  set ns : List Notice := .pageRevised n old ver c :: completes n ver c ((⟨false, false, false, false⟩ : SepSet).add x)
  set u : State := revisedAt n ver c x ref r.liveJobs (holding p rec s) with hu
  have held : (holding p rec s).slot? = s.slot? := rfl
  have notZero : version ≠ 0 := by
    rintro rfl
    exact absurd hlt (Nat.not_lt_zero _)
  have revises : applyRequest p (.separationArrived page version cls sep ref) (holding p rec s) =
      (revisionSignal n (raiseAll ns u), arrivalAnswer 1 n (revisionSignal n (raiseAll ns u))) :=
    ((reqSeparationArrived_arrive ref (holding p rec s) hp notZero hc hx hcx).trans
      (arrive_revises (s := holding p rec s) hr hst hv hlt (revisionRoom_of room))).trans (revise_eq n old ver c x ref r.liveJobs _)
  have heldTables : Tables (holding p rec s) := ⟨htab.pages, htab.slots, htab.plan, htab.stages, htab.jobs, htab.racks⟩
  have registers : RegistersOnly s (holding p rec s) := rfl
  have same : RegistersOnly (holding p rec s) u := revisedAt_registers r.liveJobs _
  have raised := RegistersOnly.trans same (RegistersOnly.raisedAll ns u)
  have tables : Tables u := revisedAt_tables heldTables r.liveJobs
  have first : Reacts AnyJob u (raiseAll ns u) := raiseAll_reacts ns u
  obtain ⟨signals, rest⟩ := revisionSignal_signalled (tables.reacts first) (raised.placed (registers.placed hplaced)) n
  have told := raised_all ns u
  generalize hv' : revisionSignal n (raiseAll ns u) = v at revises signals rest
  have chain : Reacts AnyJob u v := first.trans rest
  have kept := Reacts.kept chain
  have record : u.page? n = some (revisedRecord ver c x r.liveJobs) :=
    (revisedAt_page? _ n _).trans ((page?_putPage _ _ _ _).trans (if_pos rfl))
  have state := stateFor_cases c ((⟨false, false, false, false⟩ : SepSet).add x)
  obtain ⟨m, hm⟩ := kept.pages.arrived record state
  have answer : arrivalAnswer 1 n v = ⟨.ok, [.enum 1,
      .enum (if stateFor c ((⟨false, false, false, false⟩ : SepSet).add x) = .complete then 2 else 1), .version ver,
      .sepSet ((⟨false, false, false, false⟩ : SepSet).add x)]⟩ := arrivalAnswer_eq hm state rfl
  rw [answer] at revises
  have slots : Table.ordered SlotKey.rank (holding p rec s).slots := htab.slots
  have desk : SameDesk (holding p rec s) u := revisedAt_desk _ _
  refine ⟨_, exec_applied (r := .separationArrived page version cls sep ref) hfree hright revises,
    (kept.andLink p _).aside (registers.trans same), answeredAt_of (r := rec) rfl rfl ?_, ?_, fun m => ?_,
    revised_current (kept.andLink p _), fun k o ho hk other => revised_left slots (kept.andLink p _) ho hk other,
    fun k o ho hk other current count => revised_freed slots (kept.andLink p _) ho hk other current count, ?_,
    fun k hk => revised_other slots (kept.andLink p _) hk⟩
  · exact (PortsKept.of_eq desk.1).trans (Reacts.ports_kept chain)
  · exact ((told.after desk).tells_of (Reacts.ports_kept rest)).holding.answer
  · have pages := kept.pages m
    rw [revisedAt_page?] at pages
    exact pages
  · have signalled : Signalled n (fun _ => True) s v := signals.registers (registers.trans raised)
    exact signalled

end Sys2Proof.Machine
end

section
/-! How many live jobs name a page, and what the page's record says of it (R3). -/

namespace Sys2Proof.Machine

open State

/-! ### Sums over tables -/

section Sums

variable {κ α : Type} [DecidableEq κ] {rank : κ → Nat} (f : κ × α → Nat)

/-- An entry of a new key. -/
theorem sum_tput {t : Table κ α} {k : κ} {v : α} (inj : Function.Injective rank) (new : tget t k = none) :
    ((tput rank t k v).map f).sum = (t.map f).sum + f (k, v) := by
  induction t with
  | nil => simp [tput]
  | cons e t ih =>
    obtain ⟨a, w⟩ := e
    have other : a ≠ k := by
      rintro rfl
      simp [tget] at new
    have rest : tget t k = none := by simpa [tget, other] using new
    unfold tput
    split
    · simp only [List.map_cons, List.sum_cons]
      omega
    · split
      next same => exact absurd (inj same).symm other
      next =>
        rw [List.map_cons, List.sum_cons, ih rest, List.map_cons, List.sum_cons]
        omega

/-- The entry of another key. -/
theorem tdel_of_none {t : Table κ α} {k : κ} (h : tget t k = none) : tdel t k = t := by
  induction t with
  | nil => rfl
  | cons e t ih =>
    obtain ⟨a, w⟩ := e
    have other : a ≠ k := by
      rintro rfl
      simp [tget] at h
    have rest : tget t k = none := by simpa [tget, other] using h
    unfold tdel at ih ⊢
    rw [List.filter_cons_of_pos (by simp [other]), ih rest]

theorem tmod_of_none {t : Table κ α} {k : κ} (g : α → α) (h : tget t k = none) : tmod t k g = t := by
  induction t with
  | nil => rfl
  | cons e t ih =>
    obtain ⟨a, w⟩ := e
    have other : a ≠ k := by
      rintro rfl
      simp [tget] at h
    have rest : tget t k = none := by simpa [tget, other] using h
    have step : tmod ((a, w) :: t) k g = (if a = k then (a, g w) else (a, w)) :: tmod t k g := rfl
    rw [step, if_neg other, ih rest]

/-- The first entry of a table in order is the only one of its key. -/
theorem tget_rest {t : Table κ α} {k : κ} {v : α} (o : Table.ordered rank ((k, v) :: t)) : tget t k = none := by
  by_contra some
  obtain ⟨x, hx⟩ := Option.ne_none_iff_exists'.mp some
  exact absurd ((List.pairwise_cons.mp o).1 _ (mem_of_tget hx)) (Nat.lt_irrefl _)

/-- An entry that is removed. -/
theorem sum_tdel {t : Table κ α} {k : κ} {v : α} (o : Table.ordered rank t) (h : tget t k = some v) :
    ((tdel t k).map f).sum + f (k, v) = (t.map f).sum := by
  induction t with
  | nil => cases h
  | cons e t ih =>
    obtain ⟨a, w⟩ := e
    have rest := (List.pairwise_cons.mp o).2
    by_cases same : a = k
    · subst same
      have value : w = v := by simpa [tget] using h
      subst value
      have removed : tdel ((a, w) :: t) a = t := by
        have left := tdel_of_none (tget_rest o)
        unfold tdel at left ⊢
        rw [List.filter_cons_of_neg (by simp), left]
      rw [removed, List.map_cons, List.sum_cons]
      omega
    · have found : tget t k = some v := by simpa [tget, same] using h
      have kept : tdel ((a, w) :: t) k = (a, w) :: tdel t k := by
        unfold tdel
        rw [List.filter_cons_of_pos (by simp [same])]
      rw [kept, List.map_cons, List.sum_cons, List.map_cons, List.sum_cons, ← ih rest found]
      omega

/-- An entry that is changed. -/
theorem sum_tmod {t : Table κ α} {k : κ} {v : α} {g : α → α} (o : Table.ordered rank t) (h : tget t k = some v) :
    ((tmod t k g).map f).sum + f (k, v) = (t.map f).sum + f (k, g v) := by
  induction t with
  | nil => cases h
  | cons e t ih =>
    obtain ⟨a, w⟩ := e
    have rest := (List.pairwise_cons.mp o).2
    have step : tmod ((a, w) :: t) k g = (if a = k then (a, g w) else (a, w)) :: tmod t k g := rfl
    rw [step, List.map_cons, List.sum_cons, List.map_cons, List.sum_cons]
    by_cases same : a = k
    · subst same
      have value : w = v := by simpa [tget] using h
      subst value
      rw [if_pos rfl, tmod_of_none g (tget_rest o)]
      omega
    · have found : tget t k = some v := by simpa [tget, same] using h
      rw [if_neg same]
      have := ih rest found
      omega

/-- A change that what is counted does not see. -/
theorem sum_tmod_same {t : Table κ α} {k : κ} {g : α → α} (h : ∀ v, tget t k = some v → f (k, g v) = f (k, v))
    (o : Table.ordered rank t) : ((tmod t k g).map f).sum = (t.map f).sum := by
  cases hv : tget t k with
  | none => rw [tmod_of_none g hv]
  | some v =>
    have := sum_tmod (g := g) f o hv
    rw [h v hv] at this
    omega

end Sums

/-! ### Jobs and the pages that they name -/

section Namers

variable {s t : State} {n m : Nat} {j : Job}

/-- A job that is added. -/
theorem namers_addJob (free : s.job? m = none) (n : Nat) :
    namers (s.addJob m j) n = namers s n + (j.pages.map Prod.fst).count n :=
  sum_tput _ Function.injective_id free

/-- A job that leaves. -/
theorem namers_dropJob (o : Table.ordered id s.jobs) (hj : s.job? m = some j) (n : Nat) :
    namers (s.dropJob m) n + (j.pages.map Prod.fst).count n = namers s n :=
  sum_tdel (fun e : Nat × Job => (e.2.pages.map Prod.fst).count n) o hj

/-- A job that names the same pages. -/
theorem namers_modJob (o : Table.ordered id s.jobs) {f : Job → Job} (h : ∀ j, s.job? m = some j → (f j).pages = j.pages)
    (n : Nat) : namers (s.modJob m f) n = namers s n :=
  sum_tmod_same (fun e : Nat × Job => (e.2.pages.map Prod.fst).count n) (fun j hj => by rw [h j hj]) o

/-- The same jobs. -/
theorem namers_of_jobs (h : t.jobs = s.jobs) (n : Nat) : namers t n = namers s n := by
  unfold namers
  rw [h]

/-- A live job's pages are among those named. -/
theorem count_le_namers (hj : s.job? m = some j) (n : Nat) : (j.pages.map Prod.fst).count n ≤ namers s n :=
  List.le_sum_of_mem (List.mem_map.mpr ⟨(m, j), mem_of_tget hj, rfl⟩)

end Namers

end Sys2Proof.Machine
end

section
/-! The live-job counts of the page records agree with the job table (R3), deed by deed. -/

namespace Sys2Proof.Machine

open State

variable {w c : Prop} {b : Gaps × State} {g g' : Gaps} {s t : State} {n m : Nat} {j : Job} {P L : List Nat}

/-! ### What the records say -/

/-- The records' live-job counts are the numbers of the jobs that name the pages, where a job that is leaving is counted for the
pages of `L` alone of all its pages `P`; and no page without a record is named. -/
def Lives (P L : List Nat) (s : State) : Prop :=
  ∀ n, (s.page? n = none → namers s n + L.count n = P.count n) ∧
    ∀ r, s.page? n = some r → r.liveJobs + P.count n = namers s n + L.count n

/-- Where no job is leaving. -/
theorem Lives.count (h : Lives [] [] s) {r : PageRec} (hr : s.page? n = some r) : r.liveJobs = namers s n := (h n).2 r hr

/-- A page that is named has a record. -/
theorem Lives.named (h : Lives [] [] s) (hn : namers s n ≠ 0) : s.page? n ≠ none := fun none => hn ((h n).1 none)

/-- The counts of a state in which they agree with the job table. -/
theorem Lives.of_counted (h : Counted s) (o : Tables s) : Lives [] [] s := by
  refine fun n => ⟨fun none => ?_, fun r hr => h.live n r hr⟩
  show namers s n = 0
  unfold namers
  refine List.sum_eq_zero fun i hi => ?_
  obtain ⟨⟨m, j⟩, hm, rfl⟩ := List.mem_map.mp hi
  refine List.count_eq_zero.mpr fun named => ?_
  obtain ⟨p, hp, rfl⟩ := List.mem_map.mp named
  exact h.named m j (tget_of_mem o.jobs hm) p hp none

/-- What is counted stays the same. -/
structure SameLives (s t : State) : Prop where
  namers : ∀ n, namers t n = namers s n
  pages : ∀ n, (t.page? n).map PageRec.liveJobs = (s.page? n).map PageRec.liveJobs

theorem Lives.same (h : Lives P L s) (k : SameLives s t) : Lives P L t := by
  intro n
  have counts := k.pages n
  rw [k.namers n]
  cases hs : s.page? n with
  | none =>
    rw [hs, Option.map_none, Option.map_eq_none_iff] at counts
    exact ⟨fun _ => (h n).1 hs, fun r hr => by cases counts.symm.trans hr⟩
  | some r =>
    rw [hs, Option.map_some] at counts
    obtain ⟨r', hr', live⟩ := Option.map_eq_some_iff.mp counts
    refine ⟨fun none => (by cases none.symm.trans hr'), fun r'' hr'' => ?_⟩
    cases hr'.symm.trans hr''
    rw [live]
    exact (h n).2 r hs

namespace SameLives

theorem of_eq (jobs : t.jobs = s.jobs) (pages : t.pages = s.pages) : SameLives s t :=
  ⟨fun n => namers_of_jobs jobs n, fun n => by unfold State.page?; rw [pages]⟩

theorem trans {u : State} (h : SameLives s t) (k : SameLives t u) : SameLives s u :=
  ⟨fun n => (k.namers n).trans (h.namers n), fun n => (k.pages n).trans (h.pages n)⟩

/-- A job that names the same pages. -/
theorem modJob (o : Tables s) (n : Nat) {f : Job → Job} (h : ∀ j, s.job? n = some j → (f j).pages = j.pages) :
    SameLives s (s.modJob n f) := ⟨namers_modJob o.jobs h, fun _ => rfl⟩

/-- A record that is written over with the same count. -/
theorem putPage {r r' : PageRec} (hr : s.page? n = some r) (live : r'.liveJobs = r.liveJobs) :
    SameLives s (s.putPage n r') := by
  refine ⟨fun n => namers_of_jobs rfl n, fun m => ?_⟩
  rw [page?_putPage]
  split
  next same => rw [same, hr, Option.map_some, Option.map_some, live]
  next => rfl

/-- The same with a slot that is written. -/
theorem putArrival {r r' : PageRec} {k : SlotKey} {y : Slot} (hr : s.page? n = some r) (live : r'.liveJobs = r.liveJobs) :
    SameLives s ((s.putPage n r').putSlot k y) := (SameLives.putPage hr live).trans (.of_eq rfl rfl)

end SameLives

/-- Still work. -/
theorem Still.lives (h : Still s t) : SameLives s t := .of_eq h.jobs h.pages

/-- A record of a page that nothing names. -/
theorem Lives.put_new (h : Lives [] [] s) (none : s.page? n = none) {r : PageRec} (live : r.liveJobs = 0) :
    Lives [] [] (s.putPage n r) := by
  intro m
  have named : namers (s.putPage n r) m = namers s m := namers_of_jobs rfl m
  rw [page?_putPage, named]
  split
  next same =>
    subst same
    refine ⟨fun e => (by cases e), fun r' hr' => ?_⟩
    cases hr'
    rw [live]
    exact ((h m).1 none).symm
  next => exact h m

/-! ### The pages of what writes no page -/

theorem pages_takeRefs (ks : List SlotKey) (s : State) : (takeRefs ks s).pages = s.pages := by
  obtain ⟨v, hv⟩ := takeRefs_slots ks s
  rw [hv]

theorem pages_releaseRefs (ks : List SlotKey) (s : State) : (releaseRefs ks s).pages = s.pages := by
  unfold releaseRefs
  induction ks generalizing s with
  | nil => rfl
  | cons k ks ih =>
    rw [List.foldl_cons, ih]
    exact pages_freeIfDone k (s.modCount k (· - 1))

theorem pages_retakeRefs (j : Job) (s : State) : (retakeRefs j s).pages = s.pages := by
  unfold retakeRefs
  split
  · rfl
  · exact pages_takeRefs _ _

theorem pages_evalStarved (s : State) : (evalStarved s).pages = s.pages := (Still.starved s).pages

/-! ### A job that is created -/

theorem page?_raiseLive (l : List Nat) (s : State) (n : Nat) : (l.foldl (fun s p => s.modLive p (· + 1)) s).page? n =
    (s.page? n).map fun r => { r with liveJobs := r.liveJobs + l.count n } := by
  induction l generalizing s with
  | nil => exact (congrFun Option.map_id (s.page? n)).symm
  | cons p l ih =>
    rw [List.foldl_cons, ih, page?_modLive]
    by_cases h : n = p
    · subst h
      rw [if_pos rfl, Option.map_map, List.count_cons_self]
      congr 1
      funext r
      simp only [Function.comp_apply]
      congr 1
      omega
    · rw [if_neg h, List.count_cons_of_ne (Ne.symm h)]

/-- The pages that a new job names. -/
theorem newJob_pages (s : State) (k : PosKey) (x : Position) : (newJob s k x).pages.map Prod.fst = x.content.pages := by
  unfold newJob
  rw [List.map_map]
  exact List.map_id'' (fun _ => rfl) _

theorem page?_createJob (k : PosKey) (x : Position) (s : State) (n : Nat) : (createJob k x s).page? n =
    (s.page? n).map fun r => { r with liveJobs := r.liveJobs + x.content.pages.count n } := by
  have taken : (takeRefs (newJob s k x).slots (s.bumpEntry.addJob (nextNumber s) (newJob s k x))).page? n = s.page? n :=
    congrArg (fun t => tget t n) (pages_takeRefs (newJob s k x).slots (s.bumpEntry.addJob (nextNumber s) (newJob s k x)))
  unfold createJob
  dsimp only
  have noticed (m : Notice) (t : State) : (raise m t).page? n = t.page? n := congrArg (fun t => tget t n) (Still.raised m t).pages
  have worked (f : PosWork → PosWork) (t : State) : (t.modWork k f).page? n = t.page? n := rfl
  rw [noticed, worked, page?_raiseLive, taken, newJob_pages]

theorem jobs_createJob (k : PosKey) (x : Position) (s : State) :
    (createJob k x s).jobs = (s.addJob (nextNumber s) (newJob s k x)).jobs := by
  obtain ⟨v, w, e⟩ := createJob_eq k x s
  rw [e, (Still.raised _ _).jobs]
  rfl

/-- A page of a content that can be made has a record. -/
theorem makeable_known {con : Content} (h : makeable s con = true) (hn : n ∈ con.pages) : s.page? n ≠ none := by
  intro none
  have arrived := List.all_eq_true.mp (Bool.and_eq_true_iff.mp h).2 n hn
  simp [needsPage, none] at arrived

/-- A job is created. -/
theorem Lives.createJob {k : PosKey} {x : Position} (h : Lives P L s) (free : s.job? (nextNumber s) = none)
    (can : makeable s x.content = true) : Lives P L (createJob k x s) := by
  intro n
  have named : namers (Machine.createJob k x s) n = namers s n + x.content.pages.count n := by
    rw [namers_of_jobs (jobs_createJob k x s), namers_addJob free, newJob_pages]
  rw [page?_createJob, named]
  cases hs : s.page? n with
  | none =>
    have out : x.content.pages.count n = 0 := List.count_eq_zero.mpr fun hn => makeable_known can hn hs
    refine ⟨fun _ => ?_, fun r hr => by cases hr⟩
    rw [out]
    exact (h n).1 hs
  | some r =>
    refine ⟨fun e => (by cases e), fun r' hr' => ?_⟩
    cases hr'
    have before := (h n).2 r hs
    show r.liveJobs + x.content.pages.count n + P.count n = _
    omega

theorem Lives.needTest (h : Lives P L s) (k : PosKey) : Lives P L (needTest k s) := by
  have work (f : PosWork → PosWork) : SameLives s (s.modWork k f) := .of_eq rfl rfl
  cases hx : s.pos? k with
  | none =>
    unfold Machine.needTest
    rw [hx]
    exact h
  | some x =>
    cases hn : needsJob s x with
    | false =>
      rw [needTest_clears hx hn]
      exact h.same (work _)
    | true =>
      by_cases room : s.jobs.length < 768
      · rw [needTest_creates hx hn room]
        refine h.createJob (nextNumber_fresh s room) ?_
        rw [← State.satisfiable_eq_makeable]
        exact (Bool.and_eq_true_iff.mp hn).2
      · rw [needTest_full hx hn (Nat.not_lt.mp room)]
        split
        · exact h
        · exact h.same ((work _).trans (Still.raised _ _).lives)

theorem Lives.tellSatisfied (h : Lives P L s) (k : PosKey) : Lives P L (tellSatisfied k s) := by
  obtain ⟨v, w, p, e⟩ := tellSatisfied_parts k s
  rw [e]
  exact h.same (.of_eq rfl rfl)

/-! ### A job that leaves -/

/-- A record that is removed counted no job. -/
theorem Lives.removePage (h : Lives P L s) {r r' : PageRec} (hr : s.page? n = some r) (zero : r.liveJobs = 0) :
    Lives P L (removePage n r' s) := by
  have jobs : (Machine.removePage n r' s).jobs = s.jobs := (RegistersOnly.removed n r' s).jobs
  intro m
  rw [namers_of_jobs jobs]
  have page : (Machine.removePage n r' s).page? m = if m = n then none else s.page? m := by
    unfold Machine.removePage
    dsimp only
    have noticed (x : Notice) (t : State) : (raise x t).page? m = t.page? m :=
      congrArg (fun t => tget t m) (Still.raised x t).pages
    rw [noticed, page?_dropPage]
    split
    · rfl
    · have dropped (ks : List SlotKey) (t : State) : (ks.foldl (fun s k => s.dropSlot k) t).page? m = t.page? m := by
        induction ks generalizing t with
        | nil => rfl
        | cons k ks ih => exact ih _
      exact dropped _ _
  rw [page]
  split
  next same =>
    subst same
    refine ⟨fun _ => ?_, fun r hr => by cases hr⟩
    have := (h m).2 r hr
    omega
  next => exact h m

/-- A live-job count is lowered. -/
theorem Lives.lowerLive (h : Lives P (n :: L) s) (named : P.count n ≤ namers s n) : Lives P L (lowerLive n s) := by
  have lowered : Lives P L (s.modLive n (· - 1)) := by
    intro m
    have same : namers (s.modLive n (· - 1)) m = namers s m := namers_of_jobs rfl m
    rw [page?_modLive, same]
    by_cases e : m = n
    · subst e
      rw [if_pos rfl]
      obtain ⟨without, counts⟩ := h m
      rw [List.count_cons_self] at without counts
      cases hs : s.page? m with
      | none =>
        have := without hs
        omega
      | some r =>
        refine ⟨fun e => (by cases e), fun r' hr' => ?_⟩
        cases hr'
        have := counts r hs
        show r.liveJobs - 1 + P.count m = _
        omega
    · rw [if_neg e]
      have before := h m
      rw [List.count_cons_of_ne (Ne.symm e)] at before
      exact before
  unfold Machine.lowerLive
  dsimp only
  split
  next r hr =>
    split
    next gone =>
      obtain ⟨-, zero⟩ := Bool.and_eq_true_iff.mp gone
      exact lowered.removePage hr (of_decide_eq_true zero)
    next => exact lowered
  next => exact lowered

/-- The job that is leaving is in the table still. -/
structure LeavingLives (n : Nat) (P L : List Nat) (s : State) : Prop where
  lives : Lives P L s
  tables : Tables s
  job : ∃ j, s.job? n = some j ∧ j.pages.map Prod.fst = P

theorem LeavingLives.same (h : LeavingLives n P L s) (k : SameLives s t) (o : Tables t) (jobs : t.jobs = s.jobs) :
    LeavingLives n P L t := by
  obtain ⟨j, hj, pages⟩ := h.job
  exact ⟨h.lives.same k, o, j, (congrArg (fun t => tget t n) jobs).trans hj, pages⟩

/-- A need test as a job is leaving. -/
theorem LeavingLives.needTest (h : LeavingLives n P L s) (k : PosKey) : LeavingLives n P L (needTest k s) := by
  obtain ⟨j, hj, pages⟩ := h.job
  have chain : Reacts NoJob s (Machine.needTest k s) := needTest_reacts k s
  obtain ⟨j', hj', kept⟩ := Reacts.job_stays chain not_false hj
  refine ⟨h.lives.needTest k, h.tables.reacts (needTest_reacts k s), j', hj', ?_⟩
  rw [← pages, kept.2]

/-- A departure. -/
theorem Lives.departCore {x : JobState} (h : Lives [] [] s) (o : Tables s) (hj : s.job? n = some j) :
    Lives [] [] (departCore n x s) := by
  have start : LeavingLives n (j.pages.map Prod.fst) (j.pages.map Prod.fst) (s.modJob n fun y => { y with state := x }) := by
    refine ⟨?_, o.modJob n _, { j with state := x }, ?_, rfl⟩
    · have same : SameLives s (s.modJob n fun y => { y with state := x }) := .modJob o n fun _ _ => rfl
      intro m
      obtain ⟨without, counts⟩ := h.same same m
      exact ⟨fun e => by have := without e; simpa using this, fun r hr => by have := counts r hr; simpa using this⟩
    · rw [job?_modJob, if_pos rfl, hj, Option.map_some]
  refine departCore_lowering (M := LeavingLives n (j.pages.map Prod.fst)) (V := LeavingLives n (j.pages.map Prod.fst) [])
    (N := Lives [] []) hj start ?_ ?_ ?_ ?_ ?_ ?_ ?_ ?_
  · exact fun l t m => m.same (Still.starved t).lives ((Still.starved t).tables m.tables) (Still.starved t).jobs
  · exact fun l t m => m.same (.of_eq (RegistersOnly.released _ _).jobs (pages_releaseRefs _ _)) (m.tables.releaseRefs _)
      (RegistersOnly.released _ _).jobs
  · intro l t p m
    obtain ⟨i, hi, pages⟩ := m.job
    refine ⟨m.lives.lowerLive ?_, m.tables.reacts (lowerLive_reacts p t), i, ?_, pages⟩
    · rw [← pages]
      exact count_le_namers hi p
    · exact (congrArg (fun t => tget t n) (RegistersOnly.lowered p t).jobs).trans hi
  · exact fun t m _ => m
  · intro t y m hy hc
    have vacated : LeavingLives n (j.pages.map Prod.fst) [] (t.modWork j.key fun w => { w with current := none }) :=
      m.same (.of_eq rfl rfl) (m.tables.modWork _ _) rfl
    have tested := vacated.needTest j.key
    exact tested.same (Still.starved _).lives ((Still.starved _).tables tested.tables) (Still.starved _).jobs
  · exact fun t y m => m.same (Still.raised y t).lives ((Still.raised y t).tables m.tables) (Still.raised y t).jobs
  · intro t m k
    obtain ⟨i, hi, pages⟩ := m.job
    have dropped := namers_dropJob m.tables.jobs hi k
    rw [pages] at dropped
    have page : (t.dropJob n).page? k = t.page? k := rfl
    obtain ⟨without, counts⟩ := m.lives k
    rw [page]
    refine ⟨fun e => ?_, fun r hr => ?_⟩
    · have := without e
      simp only [List.count_nil, Nat.add_zero] at this ⊢
      omega
    · have := counts r hr
      simp only [List.count_nil, Nat.add_zero] at this ⊢
      omega
  · exact fun t k m => m.tellSatisfied k


/-! ### Deeds -/

/-- The same jobs but for one of them, which names the same pages. -/
theorem SameLives.of_modJob {u : State} (o : Tables s) {f : Job → Job} (jobs : u.jobs = tmod s.jobs n f)
    (pages : u.pages = s.pages) (h : ∀ j, s.job? n = some j → (f j).pages = j.pages) : SameLives s u :=
  (SameLives.modJob o n h).trans (.of_eq jobs pages)

/-- The counts of a press are no business of the pages. -/
theorem refreshCounts_lives (p : PressId) (s : State) : SameLives s (refreshCounts p s) := by
  have standing : SameLives s (refreshStanding p s) := by
    unfold refreshStanding
    generalize s.positionsOf p = l
    induction l generalizing s with
    | nil => exact .of_eq rfl rfl
    | cons x l ih => exact SameLives.trans (t := s.modWork x.1 _) (.of_eq rfl rfl) (ih _)
  unfold refreshCounts
  dsimp only
  rw [evalPress_eq]
  refine standing.trans (SameLives.trans ?_ (Still.raisedAll _ _).lives)
  exact .of_eq rfl rfl

/-- Every deed keeps the live-job counts right. -/
theorem Deed.lives (d : Deed w c (g, s) (g', t)) (o : Tables s) (h : Lives [] [] s) : Lives [] [] t := by
  have registers {u : State} (k : RegistersOnly s u) (pages : u.pages = s.pages) : SameLives s u := .of_eq k.jobs pages
  cases d with
  | blind => exact h
  | still k => exact h.same k.lives
  | assign _ _ e m j => exact h.same (.of_modJob (f := fun x => { x with state := .assigned, engine := some e }) (n := m) o rfl rfl fun _ _ => rfl)
  | park => exact h.same (.of_eq rfl rfl)
  | expose _ _ e u hu =>
    unfold sendExpose
    rw [hu]
    exact h.same (.of_modJob (f := fun x => { x with applied := some (s.register e).correction }) (n := u.job) o rfl rfl fun _ _ => rfl)
  | create _ _ k x hx hn hl =>
    refine h.createJob (nextNumber_fresh s hl) ?_
    rw [← State.satisfiable_eq_makeable]
    exact (Bool.and_eq_true_iff.mp hn).2
  | defer => exact h.same (.of_eq rfl rfl)
  | tell _ _ k => exact h.tellSatisfied k
  | core _ _ m j x hx hj => exact h.departCore o hj
  | note _ _ m f hf =>
    refine h.same (.modJob o m fun j _ => ?_)
    rw [hf j]
  | queue _ _ m a j hj =>
    have retaken := RegistersOnly.retaken j s
    have same := registers retaken (pages_retakeRefs j s)
    exact h.same (same.trans (.of_modJob (f := fun x => { x with
      state := .queued, attempt := a, lane := none, applied := none, entryOrder := (retakeRefs j s).entryCount + 1 }) (o.retakeRefs j) (n := m) rfl rfl fun _ _ => rfl))
  | fail _ _ m j hj =>
    have same := registers (RegistersOnly.retaken j s) (pages_retakeRefs j s)
    exact h.same (same.trans (.modJob (o.retakeRefs j) m fun _ _ => rfl))
  | fewer => exact h.same (.of_eq rfl rfl)
  | loaded => exact h.same (.of_eq rfl rfl)
  | start _ _ e u => exact h.same (.of_modJob (f := fun j => { j with state := .exposing }) (n := u.job) o rfl rfl fun _ _ => rfl)
  | develop _ _ e u =>
    have cleared : SameLives s (s.modCtx e fun c => { c with current := none }) := .of_eq rfl rfl
    have o' := o.modCtx e fun c => { c with current := none }
    unfold developsAt
    generalize s.modCtx e (fun c => { c with current := none }) = v at cleared o'
    have released (ks : List SlotKey) : SameLives v (releaseRefs ks v) :=
      .of_eq (RegistersOnly.released ks v).jobs (pages_releaseRefs ks v)
    exact h.same ((cleared.trans (released _)).trans (.of_modJob (f := fun j => { j with state := .developing, lane := some (laneFed e) }) (o'.releaseRefs _) (n := u.job) rfl rfl fun _ _ => rfl))
  | leave => exact h.same (.of_eq rfl rfl)
  | pass _ _ l m => exact h.same (.of_modJob (f := fun x => { x with state := .finishing }) (n := m) o rfl rfl fun _ _ => rfl)
  | reclaim _ _ l m j x =>
    unfold Machine.reclaim
    have released (ks : List SlotKey) : SameLives s (releaseRefs ks s) :=
      .of_eq (RegistersOnly.released ks s).jobs (pages_releaseRefs ks s)
    exact h.same ((released _).trans (.of_modJob (f := fun j => { j with state := x }) (o.releaseRefs _) (n := m) rfl rfl fun _ _ => rfl))
  | mark => exact h.same (.of_eq rfl rfl)
  | grant => exact h.same (.of_eq rfl rfl)
  | rack _ _ d => exact h.same (.of_modJob (f := fun x => { x with state := .racked }) (n := d.job) o rfl rfl fun _ _ => rfl)
  | shelve _ _ d => exact h.same (.of_modJob (f := fun x => { x with state := .racked }) (n := d.job) o rfl rfl fun _ _ => rfl)
  | spend => exact h
  | finish => exact h.same (.of_eq rfl rfl)
  | pull => exact h.same (.of_eq rfl rfl)
  | mount _ _ k x m => exact h.same (.of_modJob (f := fun j => { j with state := .mounted }) (n := m) o rfl rfl fun _ _ => rfl)
  | unmount => exact h.same (.of_eq rfl rfl)
  | pressState => exact h.same (.of_eq rfl rfl)
  | flag _ _ k x m => exact h.same (.of_modJob (f := fun x => { x with superseded := true }) (n := m) o rfl rfl fun _ _ => rfl)
  | caught => exact h
  | arrive _ _ m v cl x a live ref hl =>
    rw [writeArrival_eq]
    cases hr : s.page? m with
    | none => exact (h.put_new hr (hl.trans (by rw [hr]; rfl))).same (.of_eq rfl rfl)
    | some r => exact h.same (.putArrival hr (hl.trans (by rw [hr]; rfl)))
  | renew _ _ m old v cl x r ref hr =>
    have cleared := registers (.cleared m s) (pages_clearAllCurrent m s)
    have record : (clearAllCurrent m s).page? m = some r := (congrArg (fun t => tget t m) (pages_clearAllCurrent m s)).trans hr
    rw [writeArrival_eq]
    exact h.same (cleared.trans (.putArrival record rfl))
  | strip _ _ m r hr =>
    have cleared := registers (.cleared m s) (pages_clearAllCurrent m s)
    have record : (clearAllCurrent m s).page? m = some r := (congrArg (fun t => tget t m) (pages_clearAllCurrent m s)).trans hr
    exact h.same (cleared.trans (SameLives.putPage record rfl))
  | withdraw _ _ m r hr => exact h.same (SameLives.putPage hr rfl)
  | remove _ _ m r hr hp hl => exact h.removePage hr hl
  | expect _ _ m none => exact h.put_new none rfl
  | blot => exact h.same (.of_eq rfl rfl)
  | hold => exact h.same (.of_eq rfl rfl)
  | commit => exact h
  | content => exact h.same (.of_eq rfl rfl)
  | add => exact h.same (.of_eq rfl rfl)
  | drop => exact h.same (.of_eq rfl rfl)
  | recount _ _ p => exact h.same (refreshCounts_lives p s)
  | reopen => exact h.same (.of_eq rfl rfl)
  | empty e => exact h.same (.of_eq e.jobs e.pages)
  | lose _ _ m => exact h.same (.modJob o m fun _ _ => rfl)
  | strand _ _ m j =>
    have taken : SameLives s (takeRefs j.slots s) := .of_eq (RegistersOnly.taken j.slots s).jobs (pages_takeRefs j.slots s)
    exact h.same (taken.trans (.modJob (o.takeRefs j.slots) m fun _ _ => rfl))
  | restart => exact fun n => ⟨fun _ => rfl, fun r hr => by cases hr⟩

/-- At every point of a command the live-job counts are right, if they were at its start. -/
theorem At.lives (a : At w c b g s) (o : Tables b.2) (h : Lives [] [] b.2) : Lives [] [] s := by
  have way := a.way
  suffices both : ∀ x : Gaps × State, Relation.ReflTransGen (Deed w c) b x → Tables x.2 ∧ Lives [] [] x.2 from (both (g, s) way).2
  intro x way
  induction way with
  | refl => exact ⟨o, h⟩
  | tail _ d ih => exact ⟨d.tables ih.1, d.lives ih.1 ih.2⟩

end Sys2Proof.Machine
end

section
/-! WITHDRAW_PAGE (R19, R20, R31). -/

namespace Sys2Proof.Machine

open State

variable {s t u v : State} {n : Nat} {r : PageRec}

/-! ### A page that is stripped, and signalled -/

/-- The record of a page that is being withdrawn: nothing has arrived. -/
def strippedRecord (r : PageRec) : PageRec := { r with arrived := ⟨false, false, false, false⟩ }

/-- The registers once a page has been stripped. -/
def strippedAt (n : Nat) (r : PageRec) (s : State) : State := (clearAllCurrent n s).putPage n (strippedRecord r)

theorem strippedAt_registers : RegistersOnly s (strippedAt n r s) :=
  (RegistersOnly.cleared n s).trans (.put n _ _)

theorem strippedAt_desk : SameDesk s (strippedAt n r s) :=
  clearAllCurrent_keeps (P := fun t => SameDesk s (t.putPage n (strippedRecord r))) n (fun _ _ _ h => h) (fun _ _ h => h)
    ⟨rfl, rfl⟩

theorem strippedAt_tables (o : Tables s) : Tables (strippedAt n r s) := (clearAllCurrent_tables n o).putPage n _

theorem strippedAt_page? (m : Nat) : (strippedAt n r s).page? m = if m = n then some (strippedRecord r) else s.page? m := by
  unfold strippedAt
  rw [page?_putPage]
  split
  · rfl
  · exact congrArg (fun t => tget t m) (pages_clearAllCurrent n s)

theorem strippedAt_slot? (k : SlotKey) : (strippedAt n r s).slot? k = (clearAllCurrent n s).slot? k := rfl

theorem strippedAt_lives (hr : s.page? n = some r) : SameLives s (strippedAt n r s) := by
  have cleared : SameLives s (clearAllCurrent n s) := .of_eq (RegistersOnly.cleared n s).jobs (pages_clearAllCurrent n s)
  have record : (clearAllCurrent n s).page? n = some r := (congrArg (fun t => tget t n) (pages_clearAllCurrent n s)).trans hr
  exact cleared.trans (.putPage record rfl)

/-- The pages that a position requires are the same by a record of the same class. -/
theorem needsPage_of_class {r' : PageRec} (hs : s.page? n = some r) (ht : t.page? n = some r') (cls : r'.cls = r.cls)
    (x : Separation) : needsPage t x n = needsPage s x n := by
  unfold needsPage
  rw [hs, ht, Option.any_some, Option.any_some, cls]

/-- A position is flagged at a withdrawal: it requires the page. -/
def RequiresAt (u : State) (n : Nat) (k : PosKey) : Prop :=
  ∃ x, u.pos? k = some x ∧ needsPage u x.content.sep n = true

/-- The positions that name a page. -/
theorem mem_positionsNaming_iff (o : Tables u) {k : PosKey} :
    k ∈ u.positionsNaming n ↔ ∃ x, u.pos? k = some x ∧ n ∈ x.content.pages := by
  unfold State.positionsNaming
  rw [List.mem_map]
  constructor
  · rintro ⟨⟨q, x⟩, hx, rfl⟩
    obtain ⟨mem, is⟩ := List.mem_filter.mp hx
    exact ⟨x, tget_of_mem o.plan mem, by simpa using is⟩
  · rintro ⟨x, hx, named⟩
    exact ⟨(k, x), List.mem_filter.mpr ⟨mem_of_tget hx, by simpa using named⟩, rfl⟩

/-- A withdraw signal does to a position what its page's class says (R31): the class stays while the signal runs. -/
theorem withdrawAt_eq (hr : u.page? n = some r) (hs : r.state ≠ .withdrawn) (chain : Reacts AnyJob u v) {k : PosKey}
    {x : Position} (hx : u.pos? k = some x) : withdrawAt n k v =
      if needsPage u x.content.sep n = true then needAndServe k (supersedeAt k v) else needAndServe k v := by
  have kept := Reacts.kept chain
  obtain ⟨y, hy, content, -⟩ := (kept.positions k).2 x hx
  obtain ⟨m, hm⟩ := ((kept.pages n).2 r hr).resolve_right fun e => hs e.1
  have required : v.required y.content.sep n = needsPage u x.content.sep n := by
    rw [State.required_eq_needsPage, needsPage_of_class hr hm rfl, content]
  unfold withdrawAt
  rw [hy]
  dsimp only
  rw [Option.any_some, required]
  split <;> rfl

/-- A withdraw signal (R31). -/
theorem withdrawSignal_since (o : Tables u) (placed : Placed u) (hr : u.page? n = some r) (hs : r.state ≠ .withdrawn) :
    Since (fun m => ∃ k x, u.pos? k = some x ∧ n ∈ x.content.pages ∧ needsPage u x.content.sep n = true ∧
        x.work.current = some m) (fun _ => False) u
      (fun q => ¬ (q ∈ u.positionsNaming n ∧ RequiresAt u n q)) (fun q => q ∈ u.positionsNaming n) (fun _ => False)
        (withdrawSignal n u) ∧
      At True False (Gaps.closed, u) Gaps.closed (withdrawSignal n u) ∧ Reacts AnyJob u (withdrawSignal n u) := by
  have a : At True False (Gaps.closed, u) Gaps.closed u := .start o (fun _ => placed) False.elim
  refine signal_since (f := fun s k => withdrawAt n k s) a trivial placed ?_ ?_ ?_
  · rintro v chain k - ⟨x, hx, need⟩
    exact (withdrawAt_eq hr hs chain hx).trans (if_pos need)
  · intro v chain k hk out
    obtain ⟨x, hx, -⟩ := (mem_positionsNaming_iff o).mp hk
    exact (withdrawAt_eq hr hs chain hx).trans (if_neg fun need => out ⟨x, hx, need⟩)
  · rintro k hk ⟨x, hx, need⟩ y m hy hm
    cases hx.symm.trans hy
    obtain ⟨z, hz, named⟩ := (mem_positionsNaming_iff o).mp hk
    cases hx.symm.trans hz
    exact ⟨k, x, hx, named, need, hm⟩

/-! ### The end of a withdrawal (R19, R20) -/

/-- A record of the same class, with the same separations arrived, makes the same contents. -/
theorem makeable_putPage {r' : PageRec} (hr : s.page? n = some r) (cls : r'.cls = r.cls) (arrived : r'.arrived = r.arrived)
    (con : Content) : makeable (s.putPage n r') con = makeable s con := by
  have needs (m : Nat) : needsPage (s.putPage n r') con.sep m = needsPage s con.sep m := by
    by_cases h : m = n
    · subst h
      exact needsPage_of_class hr ((page?_putPage _ _ _ _).trans (if_pos rfl)) cls _
    · unfold needsPage
      rw [page?_putPage, if_neg h]
  have has (m : Nat) : ((s.putPage n r').page? m).any (fun r => r.arrived.has con.sep) =
      (s.page? m).any fun r => r.arrived.has con.sep := by
    rw [page?_putPage]
    split
    next h => rw [h, hr, Option.any_some, Option.any_some, arrived]
    next => rfl
  unfold makeable
  rw [funext needs]
  simp only [has]

/-- A page becomes WITHDRAWN. -/
theorem putPage_turn {r' : PageRec} (hr : s.page? n = some r) (cls : r'.cls = r.cls) (arrived : r'.arrived = r.arrived) :
    Turn NoJob s (s.putPage n r') where
  stays _ j _ hj := ⟨j, hj, .refl j⟩
  ended _ _ _ _ h := h
  entry := le_rfl
  loads _ := id
  renews _ y _ hy hm := .inl ⟨y, hy, hm, not_false⟩
  sent _ _ := id
  attended _ _ h y hy none made := h y hy none ((makeable_putPage hr cls arrived _).symm.trans made)
  remains _ x _ hx hm _ := ⟨x, hx, hm⟩

/-- A key that is set and then removed. -/
theorem tdel_tput {κ α : Type} [DecidableEq κ] {rank : κ → Nat} (inj : Function.Injective rank) (t : Table κ α) (k : κ) (v : α) :
    tdel (tput rank t k v) k = tdel t k := by
  induction t with
  | nil => simp [tput, tdel]
  | cons e t ih =>
    obtain ⟨a, w⟩ := e
    unfold tput
    split
    · simp [tdel]
    · split
      next same =>
        rw [inj same]
        simp [tdel]
      next =>
        unfold tdel at ih ⊢
        rw [List.filter_cons, List.filter_cons, ih]

/-- A record that is removed is gone, whatever it was last. -/
theorem removePage_putPage (r r' : PageRec) : removePage n r' (s.putPage n r) = removePage n r' s := by
  have dropped (ks : List SlotKey) (u : State) : (ks.foldl (fun s k => s.dropSlot k) (u.putPage n r)).dropPage n =
      (ks.foldl (fun s k => s.dropSlot k) u).dropPage n := by
    induction ks generalizing u with
    | nil =>
      have pages : tdel (tput id u.pages n r) n = tdel u.pages n := tdel_tput Function.injective_id _ _ _
      show ({ u with pages := tdel (tput id u.pages n r) n } : State) = { u with pages := tdel u.pages n }
      rw [pages]
    | cons k ks ih => exact ih (u.dropSlot k)
  unfold removePage
  dsimp only
  exact congrArg _ (dropped (slotsOfPage s n) s)

/-- The record of a page once its positions have been signalled. -/
def withdrawnRecord (r : PageRec) (m : Nat) : PageRec :=
  { r with arrived := ⟨false, false, false, false⟩, state := .withdrawn, liveJobs := m }

/-- A withdrawal from the state in which its record is WITHDRAWN on: the record is removed where no live job names the page. -/
def withdrawalEnd (n : Nat) (r : PageRec) (m : Nat) (s : State) : State :=
  if m = 0 then
    serve (tellAll ((removePage n (withdrawnRecord r m) s).positionsNaming n) (removePage n (withdrawnRecord r m) s))
  else raise (.pageWithdrawn n r.version m) s

theorem endWithdraw_eq (m : Nat) : endWithdraw n { strippedRecord r with liveJobs := m } s =
    (withdrawalEnd n r m (s.putPage n (withdrawnRecord r m)),
      if m = 0 then ⟨.ok, [.enum 1, .count 0]⟩ else ⟨.ok, [.enum 0, .count m]⟩) := by
  unfold endWithdraw withdrawalEnd
  dsimp only
  split
  · rw [removePage_putPage]
    rfl
  · rfl

/-- The registers are no business of the engines. -/
theorem RegistersOnly.engines (h : RegistersOnly s t) : t.engines = s.engines := by
  unfold RegistersOnly at h
  rw [h]

/-- The removal of a WITHDRAWN page takes no job. -/
theorem removePage_turn (hr : s.page? n = some r) (hs : r.state = .withdrawn) : Turn NoJob s (removePage n r s) := by
  have only := RegistersOnly.removed n r s
  exact .of_plan (removePage_reacts n r s hr hs) only.plan (by rw [only.jobs]) (fun _ _ _ _ _ => not_false)
    fun _ _ sent => sent.of_engines only.engines

/-- No slot of a page that is removed is left (R20). -/
theorem slot?_removePage {k : SlotKey} (hk : k.page = n) : (removePage n r s).slot? k = none := by
  have dropped (ks : List SlotKey) (u : State) : (ks.foldl (fun s k => s.dropSlot k) u).slot? k =
      if k ∈ ks then none else u.slot? k := by
    induction ks generalizing u with
    | nil => rfl
    | cons q ks ih =>
      rw [List.foldl_cons, ih, slot?_dropSlot]
      by_cases h : k = q <;> simp [h]
  have same (x : Notice) (u : State) : (raise x (u.dropPage n)).slot? k = u.slot? k :=
    congrArg (fun t => tget t k) (Still.raised x (u.dropPage n)).slots
  unfold removePage
  dsimp only
  rw [same, dropped]
  split
  · rfl
  next out =>
    by_contra some
    obtain ⟨o, ho⟩ := Option.ne_none_iff_exists'.mp some
    exact out (List.mem_map.mpr ⟨(k, o), List.mem_filter.mpr ⟨mem_of_tget ho, by simpa using hk⟩, rfl⟩)

theorem page?_removePage : (removePage n r s).page? n = none := by
  have same (x : Notice) (u : State) : (raise x (u.dropPage n)).page? n = none :=
    (congrArg (fun t => tget t n) (Still.raised x (u.dropPage n)).pages).trans ((page?_dropPage n u n).trans (if_pos rfl))
  exact same _ _

theorem tellAll_turn (l : List PosKey) (s : State) : Turn NoJob s (tellAll l s) := by
  unfold tellAll
  induction l generalizing s with
  | nil => exact .of_plan .refl rfl le_rfl (fun _ _ _ _ _ => not_false) fun _ _ => id
  | cons k l ih => exact (tellSatisfied_turn k s).trans (ih _) (fun _ => id) fun _ _ _ _ _ => not_false

/-- What the last part of a withdrawal does. -/
structure WithdrawalEnds (n : Nat) (r : PageRec) (m : Nat) (s t : State) : Prop where
  turn : Turn NoJob s t
  reacts : Reacts NoJob s t
  lives : Lives [] [] s → Lives [] [] t
  tables : Tables t
  placed : Placed s → Placed t
  removed : m = 0 → t.page? n = none ∧ (∀ k : SlotKey, k.page = n → t.slot? k = none) ∧ Told (.pageRemoved n r.version) s t
  stays : m ≠ 0 → t.page? n = some (withdrawnRecord r m) ∧ Told (.pageWithdrawn n r.version m) s t

theorem withdrawalEnd_ends {m : Nat} (o : Tables s) (hr : s.page? n = some (withdrawnRecord r m)) :
    WithdrawalEnds n r m s (withdrawalEnd n r m s) := by
  unfold withdrawalEnd
  split
  next zero =>
    have first : Reacts NoJob s (removePage n (withdrawnRecord r m) s) := removePage_reacts n _ s hr rfl
    have gone : (removePage n (withdrawnRecord r m) s).page? n = none := page?_removePage
    have freed (k : SlotKey) (hk : k.page = n) : (removePage n (withdrawnRecord r m) s).slot? k = none := slot?_removePage hk
    have told : Told (.pageRemoved n r.version) s (removePage n (withdrawnRecord r m) s) := by
      have dropped : SameDesk s (((slotsOfPage s n).foldl (fun s k => s.dropSlot k) s).dropPage n) := by
        have all (ks : List SlotKey) (u : State) : SameDesk u (ks.foldl (fun s k => s.dropSlot k) u) := by
          induction ks generalizing u with
          | nil => exact .refl u
          | cons k ks ih => exact ih (u.dropSlot k)
        exact all _ s
      exact (told_raise _ _).since (.of_eq dropped.1) dropped.2
    have turn := removePage_turn hr rfl
    have lives (h : Lives [] [] s) : Lives [] [] (removePage n (withdrawnRecord r m) s) := h.removePage hr zero
    have tables : Tables (removePage n (withdrawnRecord r m) s) := o.works (removePage_works n _ s)
    have placed (h : Placed s) : Placed (removePage n (withdrawnRecord r m) s) := (RegistersOnly.removed n _ s).placed h
    generalize removePage n (withdrawnRecord r m) s = v at first gone freed told turn lives tables placed
    have tell : Reacts NoJob v (tellAll (v.positionsNaming n) v) := tellAll_reacts _ v
    have ordered := Reacts.jobs_ordered tables.jobs tell
    have served : Reacts NoJob v (serve (tellAll (v.positionsNaming n) v)) := tell.trans (serve_reacts ordered)
    have kept := Reacts.kept served
    refine ⟨?_, first.trans served, fun h => ?_, tables.reacts ((tellAll_reacts _ v).trans (serve_reacts ordered)), fun h => ?_, fun _ => ⟨(kept.pages n).1 gone, fun k hk => (kept.slots k).1 (freed k hk), ?_⟩,
      fun h => absurd zero h⟩
    · exact (turn.trans (tellAll_turn _ v) (fun _ => id) fun _ _ _ _ _ => not_false).trans (serve_turn ordered) (fun _ => id)
        fun _ _ _ _ _ => not_false
    · have start : At False False (Gaps.closed, v) Gaps.closed v := .start tables False.elim False.elim
      exact At.lives (serve_at (tellAll_at start (v.positionsNaming n))) tables (lives h)
    · have start : At True False (Gaps.closed, v) Gaps.closed v := .start tables (fun _ => placed h) False.elim
      have place := (serve_at (tellAll_at start (v.positionsNaming n))).place trivial
      rw [Gaps.toldAll_eq] at place
      exact inPlace_closed.mp place
    · exact told.kept (Reacts.ports_kept served)
  next live =>
    have raised := Still.raised (.pageWithdrawn n r.version m) s
    refine ⟨.of_plan (raise_reacts _ s) raised.plan (by rw [raised.jobs]) (fun _ _ _ _ _ => not_false)
      fun _ _ sent => sent.of_engines ?_, raise_reacts _ s, fun h => h.same raised.lives,
      raised.tables o, (RegistersOnly.raised _ s).placed, fun h => absurd h live, fun _ => ⟨?_, told_raise _ s⟩⟩
    · exact RegistersOnly.engines (.raised _ s)
    · exact (congrArg (fun t => tget t n) raised.pages).trans hr

/-! ### A withdrawal that is taken -/

section Withdrawal

variable {m : Nat}

/-- Its record, once the positions have been signalled. -/
theorem signalled_record (hs : r.state ≠ .withdrawn) (h : PagesKept (strippedAt n r s) v) :
    ∃ m, v.page? n = some { strippedRecord r with liveJobs := m } :=
  ((h n).2 _ ((strippedAt_page? n).trans (if_pos rfl))).resolve_right fun e => hs e.1

theorem withdraw_eq (hm : (withdrawSignal n (strippedAt n r s)).page? n = some { strippedRecord r with liveJobs := m }) :
    withdraw n r s = (withdrawalEnd n r m ((withdrawSignal n (strippedAt n r s)).putPage n (withdrawnRecord r m)),
      if m = 0 then ⟨.ok, [.enum 1, .count 0]⟩ else ⟨.ok, [.enum 0, .count m]⟩) := by
  have signalled : withdraw n r s = endWithdraw n { strippedRecord r with liveJobs := m } (withdrawSignal n (strippedAt n r s)) := by
    show (match (withdrawSignal n (strippedAt n r s)).page? n with
      | some r' => endWithdraw n r' (withdrawSignal n (strippedAt n r s))
      | none => (withdrawSignal n (strippedAt n r s), okWith [.enum 1, .count 0])) = _
    rw [hm]
  rw [signalled, endWithdraw_eq]

theorem reqWithdrawPage_takes {page : U16} (hp : page ≠ 0) (hr : s.page? page.toNat = some r) (hs : r.state ≠ .withdrawn) :
    reqWithdrawPage page s = withdraw page.toNat r s := by
  have number : page.toNat ≠ 0 := fun e => hp (BitVec.eq_of_toNat_eq e)
  unfold reqWithdrawPage
  rw [if_neg number, hr]
  exact if_neg hs

/-- The state before a withdrawal, with its registers as the withdrawal leaves them but for their counts. -/
def withdrawing (n : Nat) (r : PageRec) (s : State) : State :=
  { s with pages := (s.putPage n (withdrawnRecord r r.liveJobs)).pages, slots := (clearAllCurrent n s).slots }

theorem withdrawing_page? (k : Nat) : (withdrawing n r s).page? k =
    if k = n then some (withdrawnRecord r r.liveJobs) else s.page? k := page?_putPage n _ s k

/-- The signal of a withdrawal leaves all else as it was. -/
theorem signalled_aside (h : KeptByReacting (strippedAt n r s) v) :
    KeptAside (withdrawing n r s) (v.putPage n (withdrawnRecord r m)) := by
  refine { h.aside strippedAt_registers with pages := fun k => ?_, slots := fun k => ?_ }
  · rw [withdrawing_page?, page?_putPage]
    split
    next => exact ⟨fun e => (by cases e), fun a ha => .inl ⟨m, by cases ha; rfl⟩⟩
    next other =>
      have kept := h.pages k
      rw [strippedAt_page?, if_neg other] at kept
      exact kept
  · obtain ⟨absent, kept⟩ : SlotKept (strippedAt n r s) v k := h.slots k
    refine ⟨absent, fun a ha => (kept a ha).imp id fun ⟨gone, why⟩ => ⟨gone, why.imp id ?_⟩⟩
    rintro ⟨i, hi, withdrawn⟩
    rw [strippedAt_page?] at hi
    rw [withdrawing_page?]
    split at hi
    next same => exact ⟨_, if_pos same, rfl⟩
    next other => exact ⟨i, (if_neg other).trans hi, withdrawn⟩

/-- The slots after a withdrawal. -/
theorem withdrawn_slots (o : Table.ordered SlotKey.rank s.slots) (h : SlotsKept (withdrawing n r s) t) :
    (∀ k o, t.slot? k = some o → k.page = n → o.current = false ∧
      ∃ o', s.slot? k = some o' ∧ o.ref = o'.ref ∧ o.bad = o'.bad) ∧
    (∀ k o, s.slot? k = some o → k.page = n → o.current = true → o.count = 0 → t.slot? k = none) ∧
    ∀ k, k.page ≠ n → SlotKept s t k := by
  refine ⟨fun k a ha hk => ?_, fun k a ha hk current count => (h k).1 (cleared_freed o ha hk current count), fun k hk => ?_⟩
  · cases before : (clearAllCurrent n s).slot? k with
    | none => cases ((h k).1 before).symm.trans ha
    | some a' =>
      obtain ⟨i, hi⟩ := ((h k).2 a' before).resolve_right fun e => by cases e.1.symm.trans ha
      cases ha.symm.trans hi
      have left := cleared_before o before hk
      exact left
  · have slot : (withdrawing n r s).slot? k = s.slot? k := cleared_other o hk
    have page : (withdrawing n r s).page? k.page = s.page? k.page := (withdrawing_page? k.page).trans (if_neg hk)
    have kept := h k
    unfold SlotKept at kept ⊢
    rw [slot, page] at kept
    exact kept

end Withdrawal

theorem reqWithdrawPage_zero : reqWithdrawPage 0 s = (s, bare .badValue) := if_pos rfl

theorem reqWithdrawPage_unknown {page : U16} (hp : page ≠ 0) (h : s.page? page.toNat = none) :
    reqWithdrawPage page s = (s, bare .notFound) := by
  have number : page.toNat ≠ 0 := fun e => hp (BitVec.eq_of_toNat_eq e)
  unfold reqWithdrawPage
  rw [if_neg number, h]

theorem reqWithdrawPage_withdrawn {page : U16} (hp : page ≠ 0) (hr : s.page? page.toNat = some r) (hs : r.state = .withdrawn) :
    reqWithdrawPage page s = (s, bare .wrongState) := by
  have number : page.toNat ≠ 0 := fun e => hp (BitVec.eq_of_toNat_eq e)
  unfold reqWithdrawPage
  rw [if_neg number, hr]
  exact if_pos hs

/-- What a withdrawal does. -/
structure Withdraws (n : Nat) (r : PageRec) (m : Nat) (s t : State) : Prop where
  ports : PortsKept s t
  aside : KeptAside (withdrawing n r s) t
  signalled : Signalled n (fun x => needsPage s x.content.sep n = true) s t
  lives : Lives [] [] s → Lives [] [] t
  removed : m = 0 → t.page? n = none ∧ (∀ k : SlotKey, k.page = n → t.slot? k = none) ∧ Told (.pageRemoved n r.version) s t
  stays : m ≠ 0 → t.page? n = some (withdrawnRecord r m) ∧ Told (.pageWithdrawn n r.version m) s t

theorem withdraw_withdraws (o : Tables s) (placed : Placed s) (hr : s.page? n = some r) (hs : r.state ≠ .withdrawn) :
    ∃ m t, withdraw n r s = (t, if m = 0 then ⟨.ok, [.enum 1, .count 0]⟩ else ⟨.ok, [.enum 0, .count m]⟩) ∧
      Withdraws n r m s t := by
  have stripped : RegistersOnly s (strippedAt n r s) := strippedAt_registers
  have desk : SameDesk s (strippedAt n r s) := strippedAt_desk
  have record : (strippedAt n r s).page? n = some (strippedRecord r) := (strippedAt_page? n).trans (if_pos rfl)
  have tables : Tables (strippedAt n r s) := strippedAt_tables o
  obtain ⟨since, at_w, chain⟩ := withdrawSignal_since tables (stripped.placed placed) record hs
  have kept := Reacts.kept chain
  obtain ⟨m, hm⟩ := signalled_record hs kept.pages
  have same : SameLives s (strippedAt n r s) := strippedAt_lives hr
  refine ⟨m, _, withdraw_eq hm, ?_⟩
  have aside := signalled_aside (m := m) kept
  have ported : PortsKept s (withdrawSignal n (strippedAt n r s)) := (PortsKept.of_eq desk.1).trans (Reacts.ports_kept chain)
  have ports : PortsKept s ((withdrawSignal n (strippedAt n r s)).putPage n (withdrawnRecord r m)) := ported
  have clock : ((withdrawSignal n (strippedAt n r s)).putPage n (withdrawnRecord r m)).clock = s.clock := aside.clock
  have needs (x : Separation) : needsPage (strippedAt n r s) x n = needsPage s x n := needsPage_of_class hr record rfl x
  have lives (h : Lives [] [] s) : Lives [] [] ((withdrawSignal n (strippedAt n r s)).putPage n (withdrawnRecord r m)) :=
    (at_w.lives tables (h.same same)).same (.putPage hm rfl)
  generalize withdrawSignal n (strippedAt n r s) = v at since at_w chain kept hm aside ported ports clock lives
  have ends : WithdrawalEnds n r m (v.putPage n (withdrawnRecord r m)) (withdrawalEnd n r m (v.putPage n (withdrawnRecord r m))) :=
    withdrawalEnd_ends (at_w.tables.putPage n _) ((page?_putPage _ _ _ _).trans (if_pos rfl))
  have written : Turn NoJob v (v.putPage n (withdrawnRecord r m)) := putPage_turn hm rfl rfl
  have placed_u : Placed (v.putPage n (withdrawnRecord r m)) :=
    (RegistersOnly.put n _ v).placed (inPlace_closed.mp (at_w.place trivial))
  generalize v.putPage n (withdrawnRecord r m) = u at aside ports clock lives ends written placed_u
  have since' := (since.quiet written).quiet ends.turn
  refine ⟨ports.trans (Reacts.ports_kept ends.reacts), aside.trans (Reacts.kept ends.reacts).toKeptAside, ?_,
    fun h => ends.lives (lives h), fun zero => ?_, fun live => ?_⟩
  · have at_t : At True False (Gaps.closed, withdrawalEnd n r m u) Gaps.closed (withdrawalEnd n r m u) :=
      .start ends.tables (fun _ => ends.placed placed_u) False.elim
    have signalled := signalled_of_since since' at_t trivial fun k x hx _ need => ⟨x, hx, need⟩
    simp only [needs] at signalled
    exact signalled.registers stripped
  · obtain ⟨none, slots, told⟩ := ends.removed zero
    exact ⟨none, slots, told.since ports clock⟩
  · obtain ⟨stays, told⟩ := ends.stays live
    exact ⟨stays, told.since ports clock⟩

/-- Settles O22: the page is stripped, the positions that name it are signalled, and its record is removed or WITHDRAWN. -/
theorem pageWithdrawn : Obligations.PageWithdrawn := by
  intro p tag page s hfree htab hplaced hright n refused
  set rec : Received := ⟨tag, 2, .sound (.withdrawPage page)⟩
  have unchanged {a : Answer} (h : reqWithdrawPage page (holding p rec s) = (holding p rec s, a)) :
      Answers (.withdrawPage p tag page) p tag 2 a [] s s := answers_unchanged (r := .withdrawPage page) hfree hright h
  refine ⟨fun zero => unchanged (zero ▸ reqWithdrawPage_zero), fun hp h => unchanged (reqWithdrawPage_unknown hp h),
    fun r hp hr => ⟨fun withdrawn => unchanged (reqWithdrawPage_withdrawn hp hr withdrawn), fun hs => ?_⟩⟩
  have heldTables : Tables (holding p rec s) := ⟨htab.pages, htab.slots, htab.plan, htab.stages, htab.jobs, htab.racks⟩
  have registers : RegistersOnly s (holding p rec s) := rfl
  obtain ⟨m, t, result, done⟩ := withdraw_withdraws (n := n) (r := r) heldTables (registers.placed hplaced) hr hs
  have applied : applyRequest p (.withdrawPage page) (holding p rec s) = (t,
      if m = 0 then ⟨.ok, [.enum 1, .count 0]⟩ else ⟨.ok, [.enum 0, .count m]⟩) :=
    (reqWithdrawPage_takes (s := holding p rec s) hp hr hs).trans result
  refine ⟨_, exec_applied (r := .withdrawPage page) hfree hright applied, ?_⟩
  have linked (a : Answer) : KeptAside t (t.modLink p (Link.answer tag 2 a)) := (KeptByServing.link t p _).reacting.toKeptAside
  generalize ha : (if m = 0 then ⟨.ok, [.enum 1, .count 0]⟩ else ⟨.ok, [.enum 0, .count m]⟩ : Answer) = a
  have aside := done.aside.trans (linked a)
  obtain ⟨left, freed, others⟩ := withdrawn_slots (s := holding p rec s) heldTables.slots aside.slots
  have answered : AnsweredAt p tag 2 a s (t.modLink p (Link.answer tag 2 a)) := answeredAt_of (r := rec) rfl rfl done.ports
  refine ⟨?_, aside.pages, left, freed, others, ?_, fun _ counted => ?_, ?_⟩
  · exact { aside with
      pages := fun _ => ⟨id, fun r hr => .inl ⟨r.liveJobs, hr⟩⟩
      slots := fun _ => ⟨id, fun x hx => .inl ⟨x.count, hx⟩⟩ }
  · have signalled : Signalled n (fun x => needsPage s x.content.sep n = true) s t := done.signalled.registers registers
    exact signalled
  · have lives : Lives [] [] t := done.lives ((Lives.of_counted counted htab).same (.of_eq rfl rfl))
    refine ⟨⟨fun none => (lives n).1 none, fun zero => ?_⟩, fun r' hr' => lives.count hr'⟩
    by_cases empty : m = 0
    · exact (done.removed empty).1
    · exact absurd ((lives.count (done.stays empty).1).trans zero) empty
  · by_cases empty : m = 0
    · obtain ⟨none, slots, told⟩ := done.removed empty
      rw [if_pos empty] at ha
      exact .inl ⟨none, slots, (told.answered p tag 2 a).of_holding, ha ▸ answered⟩
    · obtain ⟨stays, told⟩ := done.stays empty
      rw [if_neg empty] at ha
      exact .inr ⟨m, Nat.pos_of_ne_zero empty, stays, (told.answered p tag 2 a).of_holding, ha ▸ answered⟩

end Sys2Proof.Machine
end

section
/-! Which jobs come to be parked: only NORMAL ones (R82, R83). -/

namespace Sys2Proof.Machine

open State

variable {D : Nat → Prop} {s t u : State} {n : Nat} {e : EngineId}

/-- What a run does to the parked contexts: a parked job stays, and only a NORMAL job comes to be parked. The jobs of `D` are
those that the run takes. -/
structure Parks (D : Nat → Prop) (s t : State) : Prop where
  cls : ∀ m j, ¬ D m → s.job? m = some j → ∃ j', t.job? m = some j' ∧ j'.cls = j.cls
  parked : ∀ e w, ¬ D w.job → (t.engine e).ctx.parked = some w →
    (s.engine e).ctx.parked = some w ∨ ∀ j, s.job? w.job = some j → j.cls = .normal
  remains : ∀ e w, ¬ D w.job → (s.engine e).ctx.parked = some w → (t.engine e).ctx.parked = some w

/-- Every parked context is the same. -/
def SameParked (s t : State) : Prop := ∀ e, (t.engine e).ctx.parked = (s.engine e).ctx.parked

theorem SameParked.trans (h : SameParked s t) (k : SameParked t u) : SameParked s u := fun e => (k e).trans (h e)

theorem SameParked.of_engines (h : t.engines = s.engines) : SameParked s t := fun e => by rw [engine_of_engines h]

theorem SameParked.modCtx {f : Contexts → Contexts} (h : ∀ c, (f c).parked = c.parked) (e : EngineId) (s : State) :
    SameParked s (s.modCtx e f) := by
  intro q
  rw [engine_modCtx]
  split
  · exact h _
  · rfl

theorem SameParked.foldl {α : Type} {f : State → α → State} (h : ∀ s x, SameParked s (f s x)) (l : List α) (s : State) :
    SameParked s (l.foldl f s) := by
  induction l generalizing s with
  | nil => exact fun _ => rfl
  | cons x l ih => exact (h s x).trans (ih _)

namespace Parks

theorem trans (h : Parks D s t) (k : Parks D t u) : Parks D s u where
  cls m j out hj := by
    obtain ⟨i, hi, same⟩ := h.cls m j out hj
    obtain ⟨i', hi', same'⟩ := k.cls m i out hi
    exact ⟨i', hi', same'.trans same⟩
  parked e w out hw := by
    rcases k.parked e w out hw with before | normal
    · exact h.parked e w out before
    · refine .inr fun j hj => ?_
      obtain ⟨i, hi, same⟩ := h.cls w.job j out hj
      exact same.symm.trans (normal i hi)
  remains e w out hw := k.remains e w out (h.remains e w out hw)

/-- Reactions that leave the parked contexts. -/
theorem of_same (r : Reacts D s t) (same : SameParked s t) : Parks D s t where
  cls m j out hj := by
    obtain ⟨i, hi, -, kept⟩ := Reacts.job_stays r out hj
    exact ⟨i, hi, by rw [kept]⟩
  parked e w _ hw := .inl ((same e).symm.trans hw)
  remains e w _ hw := (same e).trans hw

theorem of_engines (r : Reacts D s t) (same : t.engines = s.engines) : Parks D s t := of_same r (.of_engines same)

theorem mono {E : Nat → Prop} (h : Parks D s t) (sub : ∀ m, D m → E m) : Parks E s t where
  cls m j out := h.cls m j fun d => out (sub m d)
  parked e w out := h.parked e w fun d => out (sub _ d)
  remains e w out := h.remains e w fun d => out (sub _ d)

/-- A job stays out of the parked contexts, once it is URGENT. -/
theorem unparked (h : Parks D s t) (out : ¬ D n) {j : Job} (hj : s.job? n = some j) (urgent : j.cls = .urgent)
    (off : ∀ e w, (s.engine e).ctx.parked = some w → w.job ≠ n) : ∀ e w, (t.engine e).ctx.parked = some w → w.job ≠ n := by
  rintro e w hw rfl
  rcases h.parked e w out hw with before | normal
  · exact off e w before rfl
  · have cls := (normal j hj).symm.trans urgent
    cases cls

end Parks

/-! ### Serving (R81, R82, R85) -/

theorem assign_parked (e : EngineId) (m : Nat) (j : Job) (s : State) : SameParked s (assign e m j s) :=
  (SameParked.modCtx (f := fun c => { c with next := some ⟨m, .loadSent, some s.limits.load, false⟩ }) (fun _ => rfl) e s).trans
    (.of_engines rfl)

theorem fill_parked (e : EngineId) (s : State) : SameParked s (fill e s) := by
  unfold fill
  split
  · split
    · exact assign_parked _ _ _ s
    · exact fun _ => rfl
  · exact fun _ => rfl

theorem sendExpose_parked (e : EngineId) (s : State) : SameParked s (sendExpose e s) := by
  intro q
  rw [engine_sendExpose]
  split <;> rfl

theorem exposeLane_parked (l : LaneId) (s : State) : SameParked s (exposeLane l s) := by
  have once (s : State) : SameParked s (exposeOnce l s) := by
    unfold exposeOnce
    split
    · split
      · exact sendExpose_parked _ s
      · exact fun _ => rfl
    · exact fun _ => rfl
  exact ((once s).trans (once _)).trans (once _)

/-- A job that is given to an engine keeps its class. -/
theorem assign_parks (e : EngineId) (m : Nat) (j : Job) (s : State) : Parks D s (assign e m j s) where
  cls k i _ hi := by
    have job : (assign e m j s).job? k = (s.modJob m fun x => { x with state := .assigned, engine := some e }).job? k := rfl
    rw [job, job?_modJob, hi]
    split
    · exact ⟨_, rfl, rfl⟩
    · exact ⟨i, rfl, rfl⟩
  parked q _ _ hw := .inl ((assign_parked e m j s q).symm.trans hw)
  remains q _ _ hw := (assign_parked e m j s q).trans hw

/-- A NORMAL job that waits is parked. -/
theorem displace_parks {w : WaitingCtx} (hw : (s.engine e).ctx.next = some w) (free : (s.engine e).ctx.parked = none)
    (normal : ∀ j, s.job? w.job = some j → j.cls = .normal) :
    Parks D s (s.modCtx e fun c => { c with parked := c.next, next := none }) where
  cls _ j _ hj := ⟨j, hj, rfl⟩
  parked q v _ hv := by
    rw [engine_modCtx] at hv
    split at hv
    next same =>
      subst same
      cases hw.symm.trans hv
      exact .inr normal
    next => exact .inl hv
  remains q v _ hv := by
    rw [engine_modCtx]
    split
    next same =>
      subst same
      cases free.symm.trans hv
    next => exact hv

/-- Preempting parks NORMAL jobs. -/
theorem preemptFrom_parks (l : List (Nat × Job)) (s : State) : Parks NoJob s (preemptFrom l s) := by
  induction l generalizing s with
  | nil => exact .of_engines .refl rfl
  | cons x l ih =>
    obtain ⟨n, j⟩ := x
    simp only [preemptFrom]
    split
    next e he =>
      unfold preemptChoice at he
      obtain ⟨-, preemptable⟩ := Bool.and_eq_true_iff.mp (List.find?_some (p := fun e => s.eligible e n j && s.preemptable e) he)
      unfold State.preemptable Contexts.displaceable at preemptable
      have first : Parks NoJob s (preemptOn e n j s) := by
        cases hw : (s.engine e).ctx.next with
        | none =>
          rw [hw] at preemptable
          cases preemptable
        | some w =>
          rw [hw] at preemptable
          obtain ⟨displaceable, normal⟩ := Bool.and_eq_true_iff.mp preemptable
          obtain ⟨-, free⟩ := Bool.and_eq_true_iff.mp displaceable
          refine (displace_parks hw (Option.isNone_iff_eq_none.mp free) fun i hi => ?_).trans (assign_parks e n j _)
          have cls : s.classOfJob w.job = some i.cls := congrArg (Option.map Job.cls) hi
          exact Option.some.inj (cls.symm.trans (of_decide_eq_true normal))
      exact first.trans (ih _)
    next => exact .of_engines .refl rfl

theorem serve_parks (hs : JobsOrdered s) : Parks NoJob s (serve s) := by
  have starved := evalStarved_serves s
  have first : Parks NoJob s (evalStarved s) := .of_engines starved.reacts (RegistersOnly.starved s).engines
  have o1 := Serves.jobs_ordered hs starved
  unfold serve serveEngines
  generalize evalStarved s = u at first o1
  have filled : Parks NoJob u (fillAll u) := .of_same (fillAll_serves o1).reacts (SameParked.foldl (fun s e => fill_parked e s) _ _)
  have exposed (l : LaneId) (v : State) : Parks NoJob v (exposeLane l v) := .of_same (exposeLane_serves l v).reacts (exposeLane_parked l v)
  have reached (v : State) : Parks NoJob v (evalReached v) :=
    .of_same (evalReached_serves v).reacts fun e => by rw [engine_evalReached]
  exact ((((first.trans filled).trans (preemptFrom_parks _ _)).trans (exposed 0 _)).trans (exposed 1 _)).trans (reached _)

/-! ### Departures and returns -/

theorem needTest_parks (k : PosKey) (s : State) : Parks NoJob s (needTest k s) :=
  .of_engines (needTest_reacts k s) (engines_needTest k s)

theorem serveFrom_parks (l : List PosKey) (hs : JobsOrdered s) : Parks NoJob s (serveFrom serve l s) := by
  induction l generalizing s with
  | nil => exact .of_engines .refl rfl
  | cons k l ih =>
    have tested := needTest_parks k s
    have ordered := Reacts.jobs_ordered hs (needTest_reacts (D := NoJob) k s)
    have again := Reacts.jobs_ordered ordered (serve_reacts (D := NoJob) ordered)
    unfold serveFrom
    dsimp only
    split
    · split
      · exact (tested.trans (serve_parks ordered)).trans (ih again)
      · exact tested.trans (serve_parks ordered)
    · exact tested.trans (ih ordered)

theorem depart_parks (m : Nat) (x : JobState) (hs : JobsOrdered s) (ht : x ≠ .uncertain) :
    Parks (fun k => k = m) s (depart m x s) := by
  have core : Reacts (fun k => k = m) s (departCore m x s) := departCore_reacts m x s ht rfl
  have first : Parks (fun k => k = m) s (departCore m x s) := .of_engines core (engines_departCore m x s)
  have ordered := Reacts.jobs_ordered hs core
  have rest := serveDeferred_reacts (D := NoJob) (look := serve) (fun _ h => serve_reacts h) ordered
  unfold depart departBy serveDeferred
  unfold serveDeferred at rest
  generalize departCore m x s = u at core first ordered rest
  exact first.trans (((serveFrom_parks _ ordered).trans (serve_parks (Reacts.jobs_ordered ordered rest))).mono fun _ => False.elim)

/-- What changes the tables alone changes no engine. -/
theorem TableOnly.same_engines (h : TableOnly s t) : t.engines = s.engines := by
  unfold TableOnly at h
  rw [h]

theorem returnTaken_parks (m : Nat) (why : RequeueReason) (x : JobState) (hs : JobsOrdered s) (ht : x ≠ .uncertain) :
    Parks (fun k => k = m) s (returnTaken m why x s) := by
  have chain : Reacts (fun k => k = m) s (returnTaken m why x s) := returnTaken_reacts m why x hs ht rfl
  unfold returnTaken at chain ⊢
  split
  · exact .of_engines .refl rfl
  next j hj =>
    rw [hj] at chain
    dsimp only at chain
    split
    · exact depart_parks m x hs ht
    next on =>
      rw [if_neg on] at chain
      refine .of_engines chain ((RegistersOnly.starved _).engines.trans ?_)
      exact (requeue_tableOnly m j.attempt why none s).same_engines

/-! ### Promotion (R69) -/

theorem cancelJob_parked (e : EngineId) (m : Nat) (x : CancelCommand) (s : State) : SameParked s (cancelJob e m x s) := by
  unfold cancelJob listCancel
  exact (SameParked.modCtx (f := fun c => { c with cancel := addCancel ⟨m, (s.attemptOf m).getD 0, x⟩ c.cancel }) (fun _ => rfl)
    e s).trans (.of_engines rfl)

/-- A job leaves the parked context. -/
theorem unpark_parks {w : WaitingCtx} (hw : (s.engine e).ctx.parked = some w) :
    Parks (fun k => k = w.job) s (s.modCtx e fun c => { c with parked := none }) where
  cls _ j _ hj := ⟨j, hj, rfl⟩
  parked q v _ hv := by
    rw [engine_modCtx] at hv
    split at hv
    · cases hv
    · exact .inl hv
  remains q v out hv := by
    rw [engine_modCtx]
    split
    next same =>
      subst same
      cases hw.symm.trans hv
      exact absurd rfl out
    next => exact hv

theorem promote_parks (m : Nat) (hs : JobsOrdered s) : Parks (fun k => k = m) s (promote m s) := by
  have urgent : Parks (fun k => k = m) s (s.modJob m fun j => { j with cls := .urgent }) := by
    refine ⟨fun k j out hj => ⟨j, ?_, rfl⟩, fun _ _ _ hw => .inl hw, fun _ _ _ hw => hw⟩
    rw [job?_modJob, if_neg out]
    exact hj
  have ordered : JobsOrdered (s.modJob m fun j => { j with cls := .urgent }) := ordered_tmod (rank := id) m (fun j : Job => { j with cls := .urgent }) hs
  unfold promote
  dsimp only
  generalize s.modJob m (fun j => { j with cls := .urgent }) = u at urgent ordered
  split
  next e hc =>
    obtain ⟨w, hw, rfl⟩ := (contextOf_spec hc).2.2 rfl
    have unparked := unpark_parks hw
    have taken : Parks (fun k => k = w.job) (u.modCtx e fun c => { c with parked := none })
        (cancelJob e w.job .discard (u.modCtx e fun c => { c with parked := none })) :=
      ⟨fun _ j _ hj => ⟨j, hj, rfl⟩, fun q _ _ h => .inl ((cancelJob_parked _ _ _ _ q).symm.trans h),
        fun q _ _ h => (cancelJob_parked _ _ _ _ q).trans h⟩
    have o : JobsOrdered (cancelJob e w.job .discard (u.modCtx e fun c => { c with parked := none })) := ordered
    have returned := returnTaken_parks w.job .promoted .cancelled o (by decide)
    have back : Reacts (fun k => k = w.job) _ _ := returnTaken_reacts w.job .promoted .cancelled o (by decide) rfl
    exact (((urgent.trans unparked).trans taken).trans returned).trans
      ((serve_parks (Reacts.jobs_ordered o back)).mono fun _ => False.elim)
  next => exact urgent.trans ((serve_parks ordered).mono fun _ => False.elim)

end Sys2Proof.Machine
end

section
/-! The alarms of a press (R69, R147, R148). -/

namespace Sys2Proof.Machine

open State

variable {w c : Prop} {b : Gaps × State} {D : Nat → Prop} {s t u v : State} {n m : Nat} {j : Job} {p : PressId}

/-! ### What a promotion makes of a job (R69) -/

/-- A job that is promoted. -/
abbrev Job.urgent (j : Job) : Job := { j with cls := .urgent }

/-- It is in a parked context. -/
def ParkedIn (s : State) (n : Nat) : Prop := ∃ e w, (s.engine e).ctx.parked = some w ∧ w.job = n

/-- It stays where it stands. -/
def StaysUrgent (n : Nat) (j : Job) (t : State) : Prop := ∃ j', t.job? n = some j' ∧ JobStays j.urgent j'

/-- What the promotion of a press's jobs makes of one of them. -/
structure PromotedTo (n : Nat) (j : Job) (s t : State) : Prop where
  outside : j.state ∉ [.queued, .assigned] → StaysUrgent n j t
  superseded : j.superseded = true → Ended n s t ∨ StaysUrgent n j t
  current : j.superseded = false → StaysUrgent n j t ∨ Returned n j.attempt j.lastFault j.urgent s t
  unparked : j.superseded = false → ¬ ParkedIn t n
  back : j.superseded = false → ParkedIn s n →
    Returned n j.attempt j.lastFault j.urgent s t ∧ Told (.jobRequeued n j.attempt .promoted none) s t

theorem StaysUrgent.later (h : StaysUrgent n j t) (r : Reacts D t u) (out : ¬ D n) : StaysUrgent n j u := by
  obtain ⟨i, hi, k⟩ := h
  obtain ⟨i', hi', k'⟩ := Reacts.job_stays r out hi
  exact ⟨i', hi', k.trans k'⟩

namespace PromotedTo

/-- What comes after it leaves the job so. -/
theorem later (h : PromotedTo n j s t) (r : Reacts D t u) (parks : Parks D t u) (out : ¬ D n) (entry : s.entryCount ≤ t.entryCount) :
    PromotedTo n j s u where
  outside hs := (h.outside hs).later r out
  superseded hs := (h.superseded hs).imp (Reacts.ended r out entry) fun k => k.later r out
  current hs := (h.current hs).imp (fun k => k.later r out) fun k => k.stays r out
  unparked hs := by
    have live : ∃ i, t.job? n = some i ∧ i.cls = .urgent := by
      rcases h.current hs with ⟨i, hi, -, same⟩ | ⟨i, hi, -, -, same⟩
      · exact ⟨i, hi, by rw [same]⟩
      · exact ⟨i, hi, by rw [same]⟩
    obtain ⟨i, hi, urgent⟩ := live
    rintro ⟨e, w, hw, same⟩
    exact parks.unparked out hi urgent (fun e w hw same => h.unparked hs ⟨e, w, hw, same⟩) e w hw same
  back hs parked := by
    obtain ⟨returned, told⟩ := h.back hs parked
    exact ⟨returned.stays r out, told.kept (Reacts.ports_kept r)⟩

/-- What comes before it has left the job, and its place. -/
theorem earlier {j' : Job} (h : PromotedTo n j' t u) (stays : JobStays j j') (r : Reacts D s t) (parks : Parks D s t) (out : ¬ D n) :
    PromotedTo n j s u := by
  have entry := Reacts.entry_le r
  have urgent : JobStays j.urgent j'.urgent := ⟨stays.1, by
    show { j' with cls := .urgent } = _
    rw [stays.2]⟩
  have on (k : StaysUrgent n j' u) : StaysUrgent n j u := by
    obtain ⟨i, hi, k⟩ := k
    exact ⟨i, hi, urgent.trans k⟩
  have attempt : j'.attempt = j.attempt := by rw [stays.2]
  have fault : j'.lastFault = j.lastFault := by rw [stays.2]
  have flag : j'.superseded = j.superseded := by rw [stays.2]
  have back (k : Returned n j'.attempt j'.lastFault j'.urgent t u) : Returned n j.attempt j.lastFault j.urgent s u := by
    rw [attempt, fault] at k
    exact k.of_stays urgent entry
  refine ⟨fun hs => on (h.outside ?_), fun hs => ?_, fun hs => ?_, fun hs => h.unparked (flag.trans hs), fun hs parked => ?_⟩
  · rcases stays.1 with e | ⟨e, -⟩
    · rw [e]
      exact hs
    · exact absurd (by simp [e]) hs
  · exact (h.superseded (flag.trans hs)).imp (fun k => k.since entry) on
  · exact (h.current (flag.trans hs)).imp on back
  · obtain ⟨e, w, hw, same⟩ := parked
    have still : ParkedIn t n := ⟨e, w, parks.remains e w (same ▸ out) hw, same⟩
    obtain ⟨returned, told⟩ := h.back (flag.trans hs) still
    rw [attempt] at told
    exact ⟨back returned, told.since (Reacts.ports_kept r) (Reacts.kept r).clock⟩

end PromotedTo

/-! ### One promotion -/

/-- The contexts of one engine alone hold a job. -/
theorem has_engine (place : InPlace Gaps.closed s) {e q : EngineId} (he : (s.engine e).ctx.has n) (hq : (s.engine q).ctx.has n) :
    q = e := by
  obtain ⟨i, hi, at_e, -⟩ := place.ok.held (e := e) he
  obtain ⟨i', hi', at_q, -⟩ := place.ok.held (e := q) hq
  cases hi.symm.trans hi'
  exact Option.some.inj (at_q.symm.trans at_e)

/-- The context of a job that is parked. -/
theorem contextOf_parked (place : InPlace Gaps.closed s) {e : EngineId} {x : WaitingCtx} (hx : (s.engine e).ctx.parked = some x) :
    contextOf s x.job = some (e, .parked) := by
  have here : (s.engine e).ctx.has x.job := (has_iff _ _).mpr (.inr (.inr ⟨x, hx, rfl⟩))
  have apart := place.ctx_apart e
  cases found : contextOf s x.job with
  | none => exact absurd here (contextOf_none found e)
  | some at_q =>
    obtain ⟨q, c⟩ := at_q
    obtain ⟨current, next, parked⟩ := contextOf_spec found
    cases c with
    | current =>
      obtain ⟨y, hy, same⟩ := current rfl
      cases has_engine place here ((has_iff _ _).mpr (.inl ⟨y, hy, same⟩))
      exact absurd same (apart.parked y x hy hx)
    | next =>
      obtain ⟨y, hy, same⟩ := next rfl
      cases has_engine place here ((has_iff _ _).mpr (.inr (.inl ⟨y, hy, same⟩)))
      exact absurd same (apart.waiting y x hy hx)
    | parked =>
      obtain ⟨y, hy, same⟩ := parked rfl
      cases has_engine place here ((has_iff _ _).mpr (.inr (.inr ⟨y, hy, same⟩)))
      rfl

/-- A job that is not parked stays where it is, and the engines are served. -/
theorem promote_off (h : ¬ ParkedIn s n) : promote n s = serve (s.modJob n Job.urgent) := by
  unfold promote
  dsimp only
  split
  next e hc =>
    obtain ⟨w, hw, same⟩ := (contextOf_spec hc).2.2 rfl
    exact absurd ⟨e, w, hw, same⟩ h
  next => rfl

theorem promote_promoted_off (hs : JobsOrdered s) (hj : s.job? n = some j) (h : ¬ ParkedIn s n) : PromotedTo n j s (promote n s) := by
  have ordered : JobsOrdered (s.modJob n Job.urgent) := ordered_tmod (rank := id) n Job.urgent hs
  have urgent : (s.modJob n Job.urgent).job? n = some j.urgent := by
    rw [job?_modJob, if_pos rfl, hj]
    rfl
  have served : Reacts NoJob (s.modJob n Job.urgent) (serve (s.modJob n Job.urgent)) := serve_reacts ordered
  have stays : StaysUrgent n j (serve (s.modJob n Job.urgent)) := Reacts.job_stays served not_false urgent
  have off : ¬ ParkedIn (serve (s.modJob n Job.urgent)) n := by
    rintro ⟨e, w, hw, same⟩
    exact (serve_parks ordered).unparked not_false urgent rfl (fun e w hw same => h ⟨e, w, hw, same⟩) e w hw same
  rw [promote_off h]
  exact ⟨fun _ => stays, fun _ => .inr stays, fun _ => .inl stays, fun _ => off, fun _ parked => absurd parked h⟩

/-- A return to the queue is told. -/
theorem requeue_told {a : Nat} {why : RequeueReason} {f : Option FaultRecord} (hj : s.job? n = some j) :
    Told (.jobRequeued n a why f) s (requeue n a why f s) := by
  have same : SameDesk s (enterQueue n a (retakeRefs j s)) := by
    unfold retakeRefs
    split
    · exact ⟨rfl, rfl⟩
    · obtain ⟨v, hv⟩ := takeRefs_slots j.slots s
      rw [hv]
      exact ⟨rfl, rfl⟩
  unfold requeue
  rw [hj]
  exact (told_raise _ _).since (.of_eq same.1) same.2

/-- The state in which a parked job has been taken from its engine. -/
def unparkedAt (e : EngineId) (n : Nat) (s : State) : State :=
  cancelJob e n .discard ((s.modJob n Job.urgent).modCtx e fun c => { c with parked := none })

theorem promote_parked (place : InPlace Gaps.closed s) {e : EngineId} {x : WaitingCtx} (hx : (s.engine e).ctx.parked = some x) :
    promote x.job s = serve (returnTaken x.job .promoted .cancelled (unparkedAt e x.job s)) := by
  have found : contextOf (s.modJob x.job Job.urgent) x.job = some (e, .parked) := contextOf_parked place hx
  unfold promote
  show (match contextOf (s.modJob x.job Job.urgent) x.job with
    | some (e, .parked) => _
    | _ => _) = _
  rw [found]
  rfl

theorem promote_promoted_parked (hs : JobsOrdered s) (place : InPlace Gaps.closed s) {e : EngineId} {x : WaitingCtx}
    (hx : (s.engine e).ctx.parked = some x) (hj : s.job? x.job = some j) : PromotedTo x.job j s (promote x.job s) := by
  have ordered : JobsOrdered (unparkedAt e x.job s) := ordered_tmod (rank := id) x.job Job.urgent hs
  have urgent : (unparkedAt e x.job s).job? x.job = some j.urgent := by
    show (s.modJob x.job Job.urgent).job? x.job = _
    rw [job?_modJob, if_pos rfl, hj]
    rfl
  have back : Reacts (fun m => m = x.job) (unparkedAt e x.job s) (returnTaken x.job .promoted .cancelled (unparkedAt e x.job s)) :=
    returnTaken_reacts x.job .promoted .cancelled ordered (by decide) rfl
  have ordered' := Reacts.jobs_ordered ordered back
  have served : Reacts NoJob _ _ := serve_reacts ordered'
  have assigned : j.state = .assigned := by
    obtain ⟨i, hi, state, -⟩ := (inPlace_closed.mp place).parked e x hx
    cases hj.symm.trans hi
    exact state
  rw [promote_parked place hx]
  have entry : (unparkedAt e x.job s).entryCount = s.entryCount := rfl
  cases flag : j.superseded with
  | true =>
    have ended := returnTaken_ended .promoted .cancelled ordered urgent flag (by decide)
    have none (h : j.superseded = false) : False := by cases flag.symm.trans h
    refine ⟨fun out => absurd (by simp [assigned]) out, fun _ => .inl ?_, fun h => (none h).elim, fun h => (none h).elim,
      fun h => (none h).elim⟩
    exact (Reacts.ended served not_false (Reacts.entry_le back) ended).since entry.ge
  | false =>
    have returned := returnTaken_returned .promoted .cancelled urgent flag
    have later : Returned x.job j.attempt j.lastFault j.urgent s _ := (returned.stays served not_false).of_stays (.refl _) entry.ge
    have requeued := returnTaken_of_current .promoted .cancelled urgent flag
    have told : Told (.jobRequeued x.job j.attempt .promoted none) s
        (serve (returnTaken x.job .promoted .cancelled (unparkedAt e x.job s))) := by
      have taken : PortsKept s (unparkedAt e x.job s) := .of_eq rfl
      rw [requeued] at ordered' ⊢
      exact (((requeue_told urgent).kept (Serves.ports_kept (evalStarved_serves _))).kept (Serves.ports_kept (serve_serves ordered'))).since
        taken rfl
    refine ⟨fun out => absurd (by simp [assigned]) out, fun h => (by cases flag.symm.trans h), fun _ => .inr later, ?_,
      fun _ _ => ⟨later, told⟩⟩
    rintro - ⟨q, y, hy, same⟩
    obtain ⟨i, hi, -, -, record⟩ := returned
    refine (serve_parks ordered').unparked not_false hi (by rw [record]) ?_ q y hy same
    intro q y hy same
    have engines : (returnTaken x.job .promoted .cancelled (unparkedAt e x.job s)).engines = (unparkedAt e x.job s).engines := by
      rw [requeued]
      exact (RegistersOnly.starved _).engines.trans (requeue_tableOnly x.job _ .promoted none _).same_engines
    rw [engine_of_engines engines] at hy
    have before := (cancelJob_parked _ _ _ _ q).symm.trans hy
    rw [engine_modCtx] at before
    split at before
    · cases before
    next other => exact other (has_engine place ((has_iff _ _).mpr (.inr (.inr ⟨x, hx, rfl⟩)))
        ((has_iff _ _).mpr (.inr (.inr ⟨y, before, same⟩))))

theorem promote_promoted (hs : JobsOrdered s) (place : InPlace Gaps.closed s) (hj : s.job? n = some j) :
    PromotedTo n j s (promote n s) := by
  by_cases parked : ParkedIn s n
  · obtain ⟨e, x, hx, rfl⟩ := parked
    exact promote_promoted_parked hs place hx hj
  · exact promote_promoted_off hs hj parked

/-! ### The promotion of a press's jobs -/

/-- The promotions of other jobs leave a job as it has been promoted. -/
theorem promotions_later (l : List Nat) (out : n ∉ l) (o : JobsOrdered t) (entry : s.entryCount ≤ t.entryCount)
    (h : PromotedTo n j s t) : PromotedTo n j s (l.foldl (fun s m => promote m s) t) := by
  induction l generalizing t with
  | nil => exact h
  | cons k l ih =>
    have step : Reacts (fun i => i = k) t (promote k t) := promote_reacts k o rfl
    have other : ¬ n = k := fun e => out (e ▸ List.mem_cons_self)
    exact ih (fun e => out (List.mem_cons_of_mem _ e)) (Reacts.jobs_ordered o step) (entry.trans (Reacts.entry_le step))
      (h.later step (promote_parks k o) other entry)

/-- Each job of a list is promoted, in turn. -/
theorem promotions_promoted (l : List Nat) (a : At w c b Gaps.closed s) (hw : w) (distinct : l.Nodup) (hn : n ∈ l)
    (hj : s.job? n = some j) : PromotedTo n j s (l.foldl (fun s m => promote m s) s) := by
  induction l generalizing s j with
  | nil => cases hn
  | cons m l ih =>
    obtain ⟨out, rest⟩ := List.nodup_cons.mp distinct
    rw [List.foldl_cons]
    have first : Reacts (fun k => k = m) s (promote m s) := promote_reacts m a.tables.jobs rfl
    have next : At w c b Gaps.closed (promote m s) := promote_at a m id id id fun _ => id
    by_cases same : n = m
    · subst same
      exact promotions_later l out next.tables.jobs (Reacts.entry_le first) (promote_promoted a.tables.jobs (a.place hw) hj)
    · obtain ⟨i, hi, stays⟩ := Reacts.job_stays first same hj
      exact (ih next rest ((List.mem_cons.mp hn).resolve_left same) hi).earlier stays first (promote_parks m a.tables.jobs) same

/-! ### The alarms (R147, R148) -/

/-- A live NORMAL job of a press. -/
def NormalOf (p : PressId) (s : State) (n : Nat) : Prop := ∃ j, s.job? n = some j ∧ j.press = p ∧ j.cls = .normal

theorem mem_promotable_iff (o : Tables s) : n ∈ promotable s p ↔ NormalOf p s n := by
  unfold promotable
  rw [List.mem_map]
  constructor
  · rintro ⟨⟨m, j⟩, hm, rfl⟩
    obtain ⟨mem, is⟩ := List.mem_filter.mp hm
    obtain ⟨press, normal⟩ := Bool.and_eq_true_iff.mp is
    exact ⟨j, tget_of_mem o.jobs mem, of_decide_eq_true press, of_decide_eq_true normal⟩
  · rintro ⟨j, hj, press, normal⟩
    exact ⟨(n, j), List.mem_filter.mpr ⟨mem_of_tget hj, by simp [press, normal]⟩, rfl⟩

theorem promotable_nodup (o : Tables s) : (promotable s p).Nodup := (keys_nodup o.jobs).sublist (List.filter_sublist.map _)

/-- The promotion of a press's jobs takes none but its NORMAL ones. -/
theorem promoteAll_takes (o : Tables s) : Reacts (NormalOf p s) s (promoteAll p s) :=
  (foldl_reacts _ _ o.jobs fun _ h n hn => promote_reacts n h ((mem_promotable_iff o).mp hn)).trans (sorterLook_reacts _)

theorem exec_windowAlarm (p : PressId) (s : State) : exec (.windowAlarm p) s = .next (windowAlarm p s) := rfl

theorem exec_startAlarm (p : PressId) (s : State) : exec (.startAlarm p) s = .next (startAlarm p s) := rfl

/-- The press once its window alarm has been taken. -/
def windowOpens (p : PressId) (s : State) : State := s.modPress p fun x => { x with windowArmed := false, window := true }

theorem windowAlarm_due {time : Nat} (h : WindowDue s p time) : windowAlarm p s =
    raise (.deadlineWindow p time (time - 60 * (s.press p).lead)
      (s.jobs.filter fun e => e.2.press = p && e.2.cls = .normal).length) (promoteAll p (windowOpens p s)) := by
  obtain ⟨start, armed, reached⟩ := h
  have count : (promotable (windowOpens p s) p).length =
      (s.jobs.filter fun e => e.2.press = p && e.2.cls = .normal).length := List.length_map _
  unfold windowAlarm
  dsimp only
  rw [start, ← count]
  dsimp only
  rw [if_pos (by simp [armed, windowTime, reached])]
  rfl

theorem windowAlarm_quiet (h : ∀ time, ¬ WindowDue s p time) : windowAlarm p s = s := by
  unfold windowAlarm
  dsimp only
  split
  · rfl
  next time start =>
    refine if_neg fun due => h time ?_
    obtain ⟨armed, reached⟩ := Bool.and_eq_true_iff.mp due
    exact ⟨start, armed, of_decide_eq_true reached⟩

theorem startAlarm_running {time : Nat} (h : StartDue s p time) (running : (s.press p).state = .running) :
    startAlarm p s = s.modPress p fun x => { x with startArmed := false } := by
  obtain ⟨start, armed, reached⟩ := h
  unfold startAlarm
  dsimp only
  rw [start]
  dsimp only
  rw [if_pos (by simp [armed, reached]), if_pos running]

theorem startAlarm_late {time : Nat} (h : StartDue s p time) (idle : (s.press p).state ≠ .running) :
    startAlarm p s = raise (.pressLate p (s.press p).state time (s.press p).unsatisfied)
      (s.modPress p fun x => { x with startArmed := false, late := true }) := by
  obtain ⟨start, armed, reached⟩ := h
  have twice : (s.modPress p fun y => { y with startArmed := false }).modPress p (fun y => { y with late := true }) =
      s.modPress p fun x => { x with startArmed := false, late := true } :=
    congrArg (fun v => ({ s with presses := v } : State)) (vmod_vmod s.presses p (fun y => { y with startArmed := false })
      fun y => { y with late := true })
  unfold startAlarm
  dsimp only
  rw [start]
  dsimp only
  rw [if_pos (by simp [armed, reached]), if_neg idle, twice]

theorem startAlarm_quiet (h : ∀ time, ¬ StartDue s p time) : startAlarm p s = s := by
  unfold startAlarm
  dsimp only
  split
  · rfl
  next time start =>
    refine if_neg fun due => h time ?_
    obtain ⟨armed, reached⟩ := Bool.and_eq_true_iff.mp due
    exact ⟨start, armed, of_decide_eq_true reached⟩

/-- What becomes of a press's jobs and of its notice, once its window alarm has been taken. -/
theorem windowAlarm_promotes (o : Tables s) {time : Nat} (due : WindowDue s p time) (placed : Placed s) (hj : s.job? n = some j)
    (press : j.press = p) (normal : j.cls = .normal) : PromotedTo n j (windowOpens p s) (windowAlarm p s) := by
  have tables : Tables (windowOpens p s) := ⟨o.pages, o.slots, o.plan, o.stages, o.jobs, o.racks⟩
  have same : Placed (windowOpens p s) := (placed_iff _).mpr ((placed_iff s).mp placed)
  have a : At True False (Gaps.closed, windowOpens p s) Gaps.closed (windowOpens p s) := .start tables (fun _ => same) False.elim
  have promoted := promotions_promoted (promotable (windowOpens p s) p) a trivial (promotable_nodup tables)
    ((mem_promotable_iff tables).mpr ⟨j, hj, press, normal⟩) hj
  have chain : Reacts AnyJob (windowOpens p s) ((promotable (windowOpens p s) p).foldl (fun s m => promote m s) (windowOpens p s)) :=
    foldl_reacts _ _ tables.jobs fun _ h n _ => promote_reacts n h
  have entry := Reacts.entry_le chain
  rw [windowAlarm_due due]
  unfold promoteAll
  generalize (promotable (windowOpens p s) p).foldl (fun s m => promote m s) (windowOpens p s) = v at promoted entry
  have looked : Reacts NoJob v (sorterLook v) := sorterLook_reacts v
  have seen := promoted.later looked (.of_engines looked (engines_sorterLook v)) id entry
  exact seen.later (D := NoJob) (raise_reacts _ _) (.of_engines (raise_reacts _ _) (engines_raise _ _)) id
    (entry.trans (Reacts.entry_le looked))

/-- Settles O51: a window alarm promotes the press's NORMAL jobs one by one, and a start alarm tells that the press is late. -/
theorem alarmsTaken : Obligations.AlarmsTaken := by
  intro p s o normal
  refine ⟨fun time due => ⟨_, exec_windowAlarm p s, ?_⟩, fun quiet => by rw [exec_windowAlarm, windowAlarm_quiet quiet],
    fun time due => ⟨fun running => ?_, fun idle => ?_⟩, fun quiet => by rw [exec_startAlarm, startAlarm_quiet quiet]⟩
  · have tables : Tables (windowOpens p s) := ⟨o.pages, o.slots, o.plan, o.stages, o.jobs, o.racks⟩
    have chain : Reacts (NormalOf p (windowOpens p s)) (windowOpens p s) (windowAlarm p s) := by
      rw [windowAlarm_due due]
      exact (promoteAll_takes tables).trans (raise_reacts _ _)
    have told : Told (.deadlineWindow p time (time - 60 * (s.press p).lead)
        (s.jobs.filter fun e => e.2.press = p && e.2.cls = .normal).length) s (windowAlarm p s) := by
      rw [windowAlarm_due due]
      have promoted : Reacts (NormalOf p (windowOpens p s)) (windowOpens p s) (promoteAll p (windowOpens p s)) :=
        promoteAll_takes tables
      exact (told_raise _ _).since (PortsKept.trans (t := windowOpens p s) (.of_eq rfl) (Reacts.ports_kept promoted)) (Reacts.kept promoted).clock
    have promotes := fun placed n j hj press normal => windowAlarm_promotes (n := n) (j := j) o due placed hj press normal
    generalize windowAlarm p s = t at chain told promotes
    refine ⟨Reacts.kept chain, Reacts.ports_kept chain, SameDesk.tells (.refl _) (.refl _) (Reacts.ports_kept chain),
      fun n j out hj => Reacts.job_stays chain out hj, fun placed n j hj press normal => ?_, told⟩
    have promoted := promotes placed n j hj press normal
    refine ⟨promoted.outside, fun h => (promoted.superseded h).imp_left fun k => k.since le_rfl, fun h => ⟨?_, ?_, fun parked => ?_⟩⟩
    · exact (promoted.current h).imp_right fun k => k.of_stays (.refl _) le_rfl
    · exact fun e w hw same => promoted.unparked h ⟨e, w, hw, same⟩
    · obtain ⟨returned, back⟩ := promoted.back h parked
      exact ⟨returned.of_stays (.refl _) le_rfl, back.since (.of_eq rfl) rfl⟩
  · rw [exec_startAlarm, startAlarm_running due running]
  · exact (exec_startAlarm p s).trans (by rw [startAlarm_late due idle]; rfl)

end Sys2Proof.Machine
end

section
/-! CLOCK_TICK (R145, R146). -/

namespace Sys2Proof.Machine

open State

variable {s t u v : State} {p q : PressId}

/-! ### One second off the timers -/

/-- The engines' timers lose a second. -/
def Engine.ticked (x : Engine) : Engine :=
  { x with ctx := { x.ctx with
    current := x.ctx.current.map fun w => { w with timer := w.timer - 1 }
    next := x.ctx.next.map fun w => { w with timer := lessOne w.timer }
    parked := x.ctx.parked.map fun w => { w with timer := lessOne w.timer } } }

theorem engine_tickEngine (e q : EngineId) (s : State) :
    (tickEngine e s).engine q = if q = e then (s.engine q).ticked else s.engine q := by
  unfold tickEngine
  rw [engine_modCtx]
  rfl

theorem engine_tickEngines (l : List EngineId) (distinct : l.Nodup) (q : EngineId) (s : State) :
    (l.foldl (fun s e => tickEngine e s) s).engine q = if q ∈ l then (s.engine q).ticked else s.engine q := by
  induction l generalizing s with
  | nil => rfl
  | cons e l ih =>
    obtain ⟨out, rest⟩ := List.nodup_cons.mp distinct
    rw [List.foldl_cons, ih rest, engine_tickEngine]
    by_cases same : q = e
    · subst same
      simp [out]
    · simp [same]

/-- The transit timers of a lane lose a second, if it is open. -/
def Lane.ticked (x : Lane) : Lane :=
  if x.Opens then { x with floor := { x.floor with order := x.floor.order.map fun y => { y with timer := lessOne y.timer } } }
  else x

theorem lane_tickLane (l q : LaneId) (s : State) : (tickLane l s).lane q = if q = l then (s.lane q).ticked else s.lane q := by
  unfold tickLane Lane.ticked
  by_cases same : q = l
  · subst same
    rw [if_pos rfl]
    by_cases h : (s.lane q).Opens
    · rw [if_pos ((isOpen_iff _).mpr h), if_pos h, lane_modFloor, if_pos rfl]
      rfl
    · rw [if_neg fun e => h ((isOpen_iff _).mp e), if_neg h]
  · rw [if_neg same]
    split
    · rw [lane_modFloor, if_neg same]
    · rfl

theorem lane_tickLanes (l : List LaneId) (distinct : l.Nodup) (q : LaneId) (s : State) :
    (l.foldl (fun s e => tickLane e s) s).lane q = if q ∈ l then (s.lane q).ticked else s.lane q := by
  induction l generalizing s with
  | nil => rfl
  | cons e l ih =>
    obtain ⟨out, rest⟩ := List.nodup_cons.mp distinct
    rw [List.foldl_cons, ih rest, lane_tickLane]
    by_cases same : q = e
    · subst same
      simp [out]
    · simp [same]

/-- The engines and lanes alone lose a second. -/
theorem ticked_rest (es : List EngineId) (ls : List LaneId) (s : State) : ∃ v w,
    ls.foldl (fun s l => tickLane l s) (es.foldl (fun s e => tickEngine e s) s) = { s with engines := v, lanes := w } := by
  have engines : ∃ v, es.foldl (fun s e => tickEngine e s) s = { s with engines := v } := by
    induction es generalizing s with
    | nil => exact ⟨_, rfl⟩
    | cons e es ih =>
      obtain ⟨v, hv⟩ := ih (tickEngine e s)
      exact ⟨v, hv⟩
  have lanes (t : State) : ∃ w, ls.foldl (fun s l => tickLane l s) t = { t with lanes := w } := by
    induction ls generalizing t with
    | nil => exact ⟨_, rfl⟩
    | cons l ls ih =>
      obtain ⟨w, hw⟩ := ih (tickLane l t)
      refine ⟨w, hw.trans ?_⟩
      unfold tickLane
      split <;> rfl
  obtain ⟨v, hv⟩ := engines
  obtain ⟨w, hw⟩ := lanes { s with engines := v }
  exact ⟨v, w, by rw [hv, hw]⟩

/-- The state a second later, before the alarms. -/
def secondOn (s : State) : State := tickTimers (s.setClock (if s.clock < Config.maxClock then s.clock + 1 else s.clock))

theorem secondOn_later (s : State) : SecondLater s (secondOn s) := by
  have clock : (if s.clock < Config.maxClock then s.clock + 1 else s.clock) = min (s.clock + 1) (max s.clock 4294967295) := by
    have most : Config.maxClock = 4294967295 := rfl
    rw [most]
    split <;> omega
  unfold SecondLater secondOn tickTimers
  rw [clock]
  generalize min (s.clock + 1) (max s.clock 4294967295) = c
  have engine (e : EngineId) : (allLanes.foldl (fun s l => tickLane l s) (allEngines.foldl (fun s e => tickEngine e s)
      (s.setClock c))).engine e = (s.engine e).ticked := by
    have kept (l : LaneId) (t : State) : (tickLane l t).engines = t.engines := by
      unfold tickLane
      split <;> rfl
    rw [engine_of_engines (foldl_keeps State.engines allLanes fun t l => kept l t), engine_tickEngines allEngines (by decide),
      if_pos (mem_allEngines e)]
    rfl
  have lane (l : LaneId) : (allLanes.foldl (fun s l => tickLane l s) (allEngines.foldl (fun s e => tickEngine e s)
      (s.setClock c))).lane l = (s.lane l).ticked := by
    have all : ∀ l : LaneId, l ∈ allLanes := by decide
    have kept : (allEngines.foldl (fun s e => tickEngine e s) (s.setClock c)).lanes = s.lanes :=
      foldl_keeps State.lanes allEngines fun _ _ => rfl
    rw [lane_tickLanes allLanes (by decide), if_pos (all l)]
    unfold State.lane
    rw [kept]
  obtain ⟨v, w, rest⟩ := ticked_rest allEngines allLanes (s.setClock c)
  generalize allLanes.foldl (fun s l => tickLane l s) (allEngines.foldl (fun s e => tickEngine e s) (s.setClock c)) = t
    at engine lane rest ⊢
  refine ⟨by rw [rest]; rfl, engine, fun l => ?_⟩
  show (_ → t.lane l = _) ∧ (_ → t.lane l = _)
  rw [lane l]
  unfold Lane.ticked
  exact ⟨fun h => if_pos h, fun h => if_neg h⟩

theorem secondOn_tables (o : Tables s) : Tables (secondOn s) := by
  obtain ⟨same, -⟩ := secondOn_later s
  rw [same]
  exact ⟨o.pages, o.slots, o.plan, o.stages, o.jobs, o.racks⟩

/-- A tick is a second, and the alarms of the presses in order. -/
theorem clockTick_eq (s : State) : clockTick s = alarmCheck (secondOn s) := rfl

/-! ### The flags of the presses -/

/-- What the alarms of other presses leave of a press. -/
structure PressWaits (p : PressId) (s t : State) : Prop where
  start : (t.press p).start = (s.press p).start
  lead : (t.press p).lead = (s.press p).lead
  running : (t.press p).state = .running ↔ (s.press p).state = .running
  windowArmed : (t.press p).windowArmed = (s.press p).windowArmed
  window : (t.press p).window = (s.press p).window
  startArmed : (t.press p).startArmed = (s.press p).startArmed
  late : (t.press p).late = (s.press p).late

/-- What the alarms of a press make of it. -/
structure PressAlarmed (p : PressId) (s t : State) : Prop where
  start : (t.press p).start = (s.press p).start
  lead : (t.press p).lead = (s.press p).lead
  running : (t.press p).state = .running ↔ (s.press p).state = .running
  opens : ∀ time, WindowDue s p time → (t.press p).windowArmed = false ∧ (t.press p).window = true
  tells : ∀ time, StartDue s p time → (t.press p).startArmed = false ∧ ((s.press p).state ≠ .running → (t.press p).late = true)
  closed : (∀ time, ¬ WindowDue s p time) → (t.press p).windowArmed = (s.press p).windowArmed ∧
    (t.press p).window = (s.press p).window
  quiet : (∀ time, ¬ StartDue s p time) → (t.press p).startArmed = (s.press p).startArmed ∧ (t.press p).late = (s.press p).late

namespace PressWaits

theorem refl (p : PressId) (s : State) : PressWaits p s s := ⟨rfl, rfl, Iff.rfl, rfl, rfl, rfl, rfl⟩

theorem trans (h : PressWaits p s t) (k : PressWaits p t u) : PressWaits p s u :=
  ⟨k.start.trans h.start, k.lead.trans h.lead, k.running.trans h.running, k.windowArmed.trans h.windowArmed,
    k.window.trans h.window, k.startArmed.trans h.startArmed, k.late.trans h.late⟩

/-- Reactions leave the flags of a press. -/
theorem of_kept (h : PressKept (s.press p) (t.press p)) : PressWaits p s t := by
  obtain ⟨same, running⟩ := h
  exact ⟨by rw [same], by rw [same], running, by rw [same], by rw [same], by rw [same], by rw [same]⟩

theorem of_eq (h : t.press p = s.press p) : PressWaits p s t := by
  constructor <;> rw [h]

theorem due (h : PressWaits p s t) (clock : t.clock = s.clock) (time : Nat) :
    (WindowDue t p time ↔ WindowDue s p time) ∧ (StartDue t p time ↔ StartDue s p time) := by
  unfold WindowDue StartDue
  rw [h.start, h.lead, h.windowArmed, h.startArmed, clock]
  exact ⟨Iff.rfl, Iff.rfl⟩

end PressWaits

/-- What alarms leave alone: all but the presses, as reactions leave it. -/
structure AlarmKept (s t : State) : Prop where
  kept : KeptByReacting { s with presses := t.presses } t
  ports : PortsKept s t
  tables : Tables s → Tables t

namespace AlarmKept

theorem clock (h : AlarmKept s t) : t.clock = s.clock := h.kept.clock

theorem refl (s : State) : AlarmKept s s := ⟨.refl s, .refl s, id⟩

theorem trans (h : AlarmKept s t) (k : AlarmKept t u) : AlarmKept s u := by
  refine ⟨?_, h.ports.trans k.ports, fun o => k.tables (h.tables o)⟩
  have first : KeptByReacting { s with presses := u.presses } { t with presses := u.presses } :=
    { h.kept with presses := fun p => ⟨rfl, Iff.rfl⟩ }
  exact first.trans k.kept

/-- A press is changed, and reactions follow. -/
theorem of_reacts (f : Press → Press) (p : PressId) (r : Reacts AnyJob (s.modPress p f) t) : AlarmKept s t := by
  have kept := Reacts.kept r
  have ports := Reacts.ports_kept r
  refine ⟨{ kept with presses := fun p => ⟨rfl, Iff.rfl⟩ }, ?_, fun o => ?_⟩
  · exact PortsKept.trans (t := s.modPress p f) (.of_eq rfl) ports
  · have tables : Tables (s.modPress p f) := ⟨o.pages, o.slots, o.plan, o.stages, o.jobs, o.racks⟩
    exact tables.reacts r

end AlarmKept

/-- A window alarm (R147). -/
theorem windowAlarm_alarms (o : Tables s) (p : PressId) : AlarmKept s (windowAlarm p s) ∧
    ((∃ time, WindowDue s p time) → ∀ q, PressWaits q (windowOpens p s) (windowAlarm p s)) := by
  by_cases due : ∃ time, WindowDue s p time
  · obtain ⟨time, due⟩ := due
    have tables : Tables (windowOpens p s) := ⟨o.pages, o.slots, o.plan, o.stages, o.jobs, o.racks⟩
    have chain : Reacts AnyJob (windowOpens p s) (windowAlarm p s) := by
      rw [windowAlarm_due due]
      exact (promoteAll_reacts p tables.jobs).trans (raise_reacts _ _)
    exact ⟨.of_reacts _ p chain, fun _ q => .of_kept ((Reacts.kept chain).presses q)⟩
  · rw [windowAlarm_quiet fun time h => due ⟨time, h⟩]
    exact ⟨.refl s, fun h => absurd h due⟩

/-- The press once its start alarm has been taken. -/
def startTaken (p : PressId) (s : State) : State :=
  if (s.press p).state = .running then s.modPress p fun x => { x with startArmed := false }
  else s.modPress p fun x => { x with startArmed := false, late := true }

/-- A start alarm (R148). -/
theorem startAlarm_alarms (p : PressId) (s : State) : AlarmKept s (startAlarm p s) ∧
    ((∃ time, StartDue s p time) → ∀ q, PressWaits q (startTaken p s) (startAlarm p s)) := by
  by_cases due : ∃ time, StartDue s p time
  · obtain ⟨time, due⟩ := due
    unfold startTaken
    by_cases running : (s.press p).state = .running
    · rw [startAlarm_running due running, if_pos running]
      exact ⟨.of_reacts _ p .refl, fun _ q => .refl q _⟩
    · rw [startAlarm_late due running, if_neg running]
      exact ⟨.of_reacts _ p (raise_reacts _ _), fun _ q => .of_kept ((Reacts.kept (D := AnyJob) (raise_reacts _ _)).presses q)⟩
  · rw [startAlarm_quiet fun time h => due ⟨time, h⟩]
    exact ⟨.refl s, fun h => absurd h due⟩

theorem press_windowOpens (p q : PressId) (s : State) : (windowOpens p s).press q =
    if q = p then { s.press q with windowArmed := false, window := true } else s.press q := press_modPress p _ s q

/-- What a window alarm makes of the presses. -/
structure WindowTaken (p : PressId) (s t : State) : Prop where
  others : ∀ q, q ≠ p → PressWaits q s t
  start : (t.press p).start = (s.press p).start
  lead : (t.press p).lead = (s.press p).lead
  running : (t.press p).state = .running ↔ (s.press p).state = .running
  startArmed : (t.press p).startArmed = (s.press p).startArmed
  late : (t.press p).late = (s.press p).late
  opens : ∀ time, WindowDue s p time → (t.press p).windowArmed = false ∧ (t.press p).window = true
  closed : (∀ time, ¬ WindowDue s p time) → (t.press p).windowArmed = (s.press p).windowArmed ∧
    (t.press p).window = (s.press p).window

theorem windowAlarm_taken (o : Tables s) (p : PressId) : WindowTaken p s (windowAlarm p s) := by
  by_cases due : ∃ time, WindowDue s p time
  · have waits := (windowAlarm_alarms o p).2 due
    have own := press_windowOpens p p s
    rw [if_pos rfl] at own
    obtain ⟨start, lead, running, armed, window, startArmed, late⟩ := waits p
    rw [own] at start lead running armed window startArmed late
    refine ⟨fun q other => .trans (.of_eq ((press_windowOpens p q s).trans (if_neg other))) (waits q), start, lead, running,
      startArmed, late, fun _ _ => ⟨armed, window⟩, fun quiet => ?_⟩
    obtain ⟨time, due⟩ := due
    exact absurd due (quiet time)
  · rw [windowAlarm_quiet fun time h => due ⟨time, h⟩]
    exact ⟨fun q _ => .refl q s, rfl, rfl, Iff.rfl, rfl, rfl, fun time h => absurd ⟨time, h⟩ due, fun _ => ⟨rfl, rfl⟩⟩

/-- What a start alarm makes of the presses. -/
structure StartTaken (p : PressId) (s t : State) : Prop where
  others : ∀ q, q ≠ p → PressWaits q s t
  start : (t.press p).start = (s.press p).start
  lead : (t.press p).lead = (s.press p).lead
  running : (t.press p).state = .running ↔ (s.press p).state = .running
  windowArmed : (t.press p).windowArmed = (s.press p).windowArmed
  window : (t.press p).window = (s.press p).window
  tells : ∀ time, StartDue s p time → (t.press p).startArmed = false ∧ ((s.press p).state ≠ .running → (t.press p).late = true)
  quiet : (∀ time, ¬ StartDue s p time) → (t.press p).startArmed = (s.press p).startArmed ∧ (t.press p).late = (s.press p).late

theorem startAlarm_taken (p : PressId) (s : State) : StartTaken p s (startAlarm p s) := by
  by_cases due : ∃ time, StartDue s p time
  · have waits := (startAlarm_alarms p s).2 due
    have press (q : PressId) : (startTaken p s).press q = if q = p then
        { s.press q with startArmed := false, late := if (s.press q).state = .running then (s.press q).late else true }
        else s.press q := by
      unfold startTaken
      by_cases running : (s.press p).state = .running
      · rw [if_pos running, press_modPress]
        split
        next same => rw [same, if_pos running]
        next => rfl
      · rw [if_neg running, press_modPress]
        split
        next same => rw [same, if_neg running]
        next => rfl
    have own := press p
    rw [if_pos rfl] at own
    obtain ⟨start, lead, running, armed, window, startArmed, late⟩ := waits p
    rw [own] at start lead running armed window startArmed late
    refine ⟨fun q other => .trans (.of_eq ((press q).trans (if_neg other))) (waits q), start, lead, running, armed, window,
      fun _ _ => ⟨startArmed, fun idle => late.trans (if_neg idle)⟩, fun quiet => ?_⟩
    obtain ⟨time, due⟩ := due
    exact absurd due (quiet time)
  · rw [startAlarm_quiet fun time h => due ⟨time, h⟩]
    exact ⟨fun q _ => .refl q s, rfl, rfl, Iff.rfl, rfl, rfl, fun time h => absurd ⟨time, h⟩ due, fun _ => ⟨rfl, rfl⟩⟩

/-- The alarms of one press. -/
theorem alarms_press (o : Tables s) (p : PressId) : AlarmKept s (startAlarm p (windowAlarm p s)) ∧
    PressAlarmed p s (startAlarm p (windowAlarm p s)) ∧ ∀ q, q ≠ p → PressWaits q s (startAlarm p (windowAlarm p s)) := by
  have first := (windowAlarm_alarms o p).1
  have second := (startAlarm_alarms p (windowAlarm p s)).1
  have window := windowAlarm_taken o p
  have start := startAlarm_taken p (windowAlarm p s)
  generalize windowAlarm p s = v at first second window start ⊢
  have due (time : Nat) : StartDue v p time ↔ StartDue s p time := by
    unfold StartDue
    rw [window.start, window.startArmed, first.clock]
  refine ⟨first.trans second, ⟨start.start.trans window.start, start.lead.trans window.lead, start.running.trans window.running,
    fun time h => ?_, fun time h => ?_, fun h => ?_, fun h => ?_⟩, fun q other => (window.others q other).trans (start.others q other)⟩
  · obtain ⟨armed, opened⟩ := window.opens time h
    exact ⟨start.windowArmed.trans armed, start.window.trans opened⟩
  · obtain ⟨armed, late⟩ := start.tells time ((due time).mpr h)
    exact ⟨armed, fun idle => late fun running => idle (window.running.mp running)⟩
  · obtain ⟨armed, closed⟩ := window.closed h
    exact ⟨start.windowArmed.trans armed, start.window.trans closed⟩
  · obtain ⟨armed, late⟩ := start.quiet fun time e => h time ((due time).mp e)
    exact ⟨armed.trans window.startArmed, late.trans window.late⟩

/-! ### The alarms of all presses (R146) -/

theorem PressAlarmed.earlier (h : PressAlarmed p t u) (k : PressWaits p s t) (clock : t.clock = s.clock) : PressAlarmed p s u := by
  have due := k.due clock
  refine ⟨h.start.trans k.start, h.lead.trans k.lead, h.running.trans k.running, fun time e => h.opens time ((due time).1.mpr e),
    fun time e => ?_, fun e => ?_, fun e => ?_⟩
  · obtain ⟨armed, late⟩ := h.tells time ((due time).2.mpr e)
    exact ⟨armed, fun idle => late fun running => idle (k.running.mp running)⟩
  · obtain ⟨armed, window⟩ := h.closed fun time d => e time ((due time).1.mp d)
    exact ⟨armed.trans k.windowArmed, window.trans k.window⟩
  · obtain ⟨armed, late⟩ := h.quiet fun time d => e time ((due time).2.mp d)
    exact ⟨armed.trans k.startArmed, late.trans k.late⟩

theorem PressAlarmed.later (h : PressAlarmed p s t) (k : PressWaits p t u) : PressAlarmed p s u := by
  refine ⟨k.start.trans h.start, k.lead.trans h.lead, k.running.trans h.running, fun time e => ?_, fun time e => ?_, fun e => ?_,
    fun e => ?_⟩
  · obtain ⟨armed, window⟩ := h.opens time e
    exact ⟨k.windowArmed.trans armed, k.window.trans window⟩
  · obtain ⟨armed, late⟩ := h.tells time e
    exact ⟨k.startArmed.trans armed, fun idle => k.late.trans (late idle)⟩
  · obtain ⟨armed, window⟩ := h.closed e
    exact ⟨k.windowArmed.trans armed, k.window.trans window⟩
  · obtain ⟨armed, late⟩ := h.quiet e
    exact ⟨k.startArmed.trans armed, k.late.trans late⟩

/-- The alarms of some presses, in turn. -/
theorem alarms_presses (l : List PressId) (distinct : l.Nodup) (o : Tables s) :
    AlarmKept s (l.foldl (fun s p => startAlarm p (windowAlarm p s)) s) ∧
      ∀ p, (p ∈ l → PressAlarmed p s (l.foldl (fun s p => startAlarm p (windowAlarm p s)) s)) ∧
        (p ∉ l → PressWaits p s (l.foldl (fun s p => startAlarm p (windowAlarm p s)) s)) := by
  induction l generalizing s with
  | nil => exact ⟨.refl s, fun p => ⟨fun h => absurd h List.not_mem_nil, fun _ => .refl p s⟩⟩
  | cons q l ih =>
    obtain ⟨out, rest⟩ := List.nodup_cons.mp distinct
    obtain ⟨kept, alarmed, others⟩ := alarms_press o q
    rw [List.foldl_cons]
    generalize startAlarm q (windowAlarm q s) = v at kept alarmed others ⊢
    obtain ⟨kept', presses⟩ := ih rest (kept.tables o)
    refine ⟨kept.trans kept', fun p => ⟨fun h => ?_, fun h => ?_⟩⟩
    · by_cases same : p = q
      · subst same
        exact alarmed.later ((presses p).2 out)
      · exact ((presses p).1 ((List.mem_cons.mp h).resolve_left same)).earlier (others p same) kept.clock
    · obtain ⟨other, h⟩ := not_or.mp fun e => h (List.mem_cons.mpr e)
      exact (others p other).trans ((presses p).2 h)

/-- Alarms that are not due do nothing. -/
theorem alarms_quiet (l : List PressId) (h : ∀ p time, ¬ WindowDue s p time ∧ ¬ StartDue s p time) :
    l.foldl (fun s p => startAlarm p (windowAlarm p s)) s = s := by
  induction l with
  | nil => rfl
  | cons p l ih =>
    rw [List.foldl_cons, windowAlarm_quiet fun time => (h p time).1, startAlarm_quiet fun time => (h p time).2]
    exact ih

theorem exec_clockTick (s : State) : exec .clockTick s = .next (clockTick s) := rfl

/-- Settles O52: a second passes, and the alarms of the presses are taken in turn. -/
theorem clockTicks : Obligations.ClockTicks := by
  intro s o
  have tables := secondOn_tables o
  obtain ⟨kept, presses⟩ := alarms_presses allPresses (by decide) tables
  have all : ∀ p : PressId, p ∈ allPresses := by decide
  refine ⟨secondOn s, secondOn_later s, tables, ?_, fun quiet => ?_, clockTick s, exec_clockTick s, kept.kept, kept.ports,
    fun p => ?_⟩
  · rw [exec_clockTick, clockTick_eq]
    generalize secondOn s = u
    simp only [execAll, exec_windowAlarm, exec_startAlarm, alarmCheck, allPresses, List.foldl_cons, List.foldl_nil]
  · rw [exec_clockTick, clockTick_eq, alarmCheck, alarms_quiet allPresses quiet]
  · have alarmed := (presses p).1 (all p)
    exact ⟨alarmed.opens, alarmed.tells, alarmed.closed, alarmed.quiet, alarmed.start, alarmed.lead, alarmed.running⟩

end Sys2Proof.Machine
end

section
/-! The reports, timers and requests of the engines as chains of deeds (R75 to R95). -/

namespace Sys2Proof.Machine

open State

variable {w c : Prop} {b : Gaps × State} {g : Gaps} {s : State} {n : Nat}

/-! ### Contexts that hold fewer jobs -/

/-- The contexts of an engine hold fewer jobs, and of those that have left them nothing more is said. -/
theorem At.forget (h : At w c b g s) {e : EngineId} {f : Contexts → Contexts}
    (less : CtxFewer (s.engine e).ctx (f (s.engine e).ctx)) : At w c b g (s.modCtx e f) :=
  (h.deed (.fewer g s e f (fun _ => False) less fun _ _ => False.elim)).same (Gaps.take_none fun _ => id)

theorem dropEngine_keeps (h : At w c b g s) (e : EngineId) : At w c b g (dropEngine e s) :=
  (h.forget (e := e) (f := fun _ => Contexts.empty) (ctxFewer_of (.inl rfl) (.inl rfl) (.inl rfl))).still (.cassette e _ _)

/-- A context without one job. -/
theorem filter_fewer {α : Type} (x : Option α) (p : α → Bool) : x.filter p = none ∨ x.filter p = x := by
  cases x with
  | none => exact .inl rfl
  | some a => by_cases h : p a = true <;> simp [Option.filter, h]

theorem filter_other {α : Type} {x : Option α} {f : α → Nat} {n m : Nat} :
    (∃ u, x.filter (fun a => decide (f a ≠ n)) = some u ∧ f u = m) ↔ (∃ u, x = some u ∧ f u = m) ∧ m ≠ n := by
  cases x with
  | none => simp
  | some a =>
    by_cases h : f a = n
    · simp only [Option.filter, h, ne_eq, not_true_eq_false, decide_false, Bool.false_eq_true, if_false]
      constructor
      · rintro ⟨u, hu, -⟩
        cases hu
      · rintro ⟨⟨u, hu, rfl⟩, ne⟩
        cases hu
        exact absurd h ne
    · simp only [Option.filter, h, ne_eq, not_false_eq_true, decide_true, if_true]
      constructor
      · rintro ⟨u, hu, rfl⟩
        cases hu
        exact ⟨⟨a, rfl, rfl⟩, h⟩
      · rintro ⟨⟨u, hu, rfl⟩, -⟩
        exact ⟨u, hu, rfl⟩

/-- A job leaves next or parked. -/
theorem At.withoutWaiting (h : At w c b g s) {e : EngineId} {u : WaitingCtx}
    (hu : (s.engine e).ctx.next = some u ∨ (s.engine e).ctx.parked = some u) :
    At w c b (g.take fun m => m = u.job) (s.modCtx e (withoutWaiting u.job)) := by
  refine h.fewer (ctxFewer_of (.inr rfl) ((filter_fewer _ _).imp id .inl) (filter_fewer _ _)) fun hw m => ?_
  have apart := InPlace.ctx_apart (h.place hw) e
  rw [has_iff, has_iff]
  unfold Machine.withoutWaiting
  dsimp only
  rw [filter_other, filter_other]
  constructor
  · rintro rfl
    refine ⟨.inr (hu.imp (fun hu => ⟨u, hu, rfl⟩) fun hu => ⟨u, hu, rfl⟩), ?_⟩
    rintro (⟨v, hv, same⟩ | ⟨-, ne⟩ | ⟨-, ne⟩)
    · exact hu.elim (fun hu => apart.next v u hv hu same) fun hu => apart.parked v u hv hu same
    · exact ne rfl
    · exact ne rfl
  · rintro ⟨held, out⟩
    by_contra ne
    exact out (held.imp id (Or.imp (fun held => ⟨held, ne⟩) fun held => ⟨held, ne⟩))

theorem leaveWaiting_at (h : At w c b g s) {e : EngineId} {u : WaitingCtx}
    (hu : (s.engine e).ctx.next = some u ∨ (s.engine e).ctx.parked = some u) (cmd : CancelCommand) :
    At w c b (g.take fun m => m = u.job) (leaveWaiting e u.job cmd s) := (h.withoutWaiting hu).cancelJob e u.job cmd

/-- A job leaves current or next. -/
theorem leaveExposure_at (h : At w c b g s) {e : EngineId}
    (held : (s.engine e).ctx.has n) : At w c b (g.take fun m => m = n) (leaveExposure e n s) := by
  refine h.fewer (ctxFewer_of (filter_fewer _ _) ((filter_fewer _ _).imp id .inl) (filter_fewer _ _)) fun hw m => ?_
  rw [has_iff] at held ⊢
  rw [has_iff]
  unfold Machine.withoutWaiting
  dsimp only
  rw [filter_other, filter_other, filter_other]
  constructor
  · rintro rfl
    refine ⟨held, ?_⟩
    rintro (⟨-, ne⟩ | ⟨-, ne⟩ | ⟨-, ne⟩) <;> exact ne rfl
  · rintro ⟨held, out⟩
    by_contra ne
    exact out (held.imp (fun held => ⟨held, ne⟩) (Or.imp (fun held => ⟨held, ne⟩) fun held => ⟨held, ne⟩))

/-! ### The channel (R75, R92, R93) -/

theorem engineLinkLoss_at (ready : g.Ready) (h : At w c b g s) (e : EngineId) : At w c b g (engineLinkLoss e s) := by
  unfold engineLinkLoss
  dsimp only
  split
  · exact serve_at ((engineLost_at ready h e _ _).raised _)
  · exact serve_at (((dropEngine_keeps h e).still (.status e _ _)).raised _)

theorem greet_at (h : At w c b g s) (e : EngineId) : At w c b g (greet e s) :=
  serve_at (((dropEngine_keeps h e).still (.status e _ _)).raised _)

theorem hello_at (ready : g.Ready) (h : At w c b g s) (e : EngineId) : At w c b g (hello e s) := by
  unfold hello
  dsimp only
  split
  · exact greet_at (engineLost_at ready h e _ _) e
  · exact greet_at h e

/-- A fault that names no job. -/
theorem bareFault_at (ready : g.Ready) (h : At w c b g s) (e : EngineId) (cause : EngineFaultCause) :
    At w c b g (engineFault e cause none id s) :=
  engineFault_at ready deals_id (h.same (Gaps.take_none fun _ => id).symm) e cause none

theorem cassetteLoaded_at (ready : g.Ready) (h : At w c b g s) (e : EngineId) (format : Option PlateFormat) (count : Nat) :
    At w c b g (cassetteLoaded e format count s) := by
  have stocked : At w c b g (s.modCassette e fun _ => ⟨format, count⟩) := h.still (.cassette e _ s)
  unfold cassetteLoaded
  dsimp only
  split
  · exact h
  · split
    · exact bareFault_at ready h e _
    · split
      · exact bareFault_at ready stocked e _
      · exact serve_at stocked

/-! ### Reports about jobs (R78, R79) -/

/-- A report about a job is as its effect is where a context takes it. -/
theorem jobReport_at (ready : g.Ready) (h : At w c b g s) {e : EngineId} {n attempt : Nat} {removes : CancelCommand → Bool}
    {accepted : Bool} {effect : State → State} (taken : accepted = true → At w c b g (effect s)) :
    At w c b g (jobReport e n attempt removes accepted effect s) := by
  have reported : At w c b g (if accepted then effect s else unmatched e s) := by
    split
    next yes => exact taken yes
    next =>
      unfold unmatched
      split
      · exact bareFault_at ready h e _
      · exact h
  unfold jobReport
  split
  · split
    · exact serve_at (h.still (.ctx rfl rfl rfl))
    · exact h
  · split
    · exact h
    · exact h
    · exact reported

/-- A job that waits. -/
theorem waitsAt_spec {x : Option WaitingCtx} {n attempt : Nat} {stage : LoadStage} (h : waitsAt s x n attempt stage = true) :
    ∃ u, x = some u ∧ u.job = n ∧ u.stage = stage := by
  unfold waitsAt at h
  obtain ⟨waits, -⟩ := Bool.and_eq_true_iff.mp h
  obtain ⟨u, hu, at_stage⟩ := (Option.any_eq_true _ _).mp waits
  obtain ⟨job, stage⟩ := Bool.and_eq_true_iff.mp at_stage
  exact ⟨u, hu, of_decide_eq_true job, of_decide_eq_true stage⟩

theorem waitsLoad_spec {e : EngineId} {n attempt : Nat} (h : waitsLoad s e n attempt = true) :
    ∃ u, ((s.engine e).ctx.next = some u ∨ (s.engine e).ctx.parked = some u) ∧ u.job = n := by
  unfold waitsLoad at h
  rcases Bool.or_eq_true_iff.mp h with x | x
  · obtain ⟨u, hu, job, -⟩ := waitsAt_spec x
    exact ⟨u, .inl hu, job⟩
  · obtain ⟨u, hu, job, -⟩ := waitsAt_spec x
    exact ⟨u, .inr hu, job⟩

theorem inCurrent_spec {e : EngineId} {n attempt : Nat} (h : inCurrent s e n attempt = true) :
    ∃ u, (s.engine e).ctx.current = some u ∧ u.job = n := by
  unfold inCurrent at h
  obtain ⟨u, hu, job⟩ := (Option.any_eq_true _ _).mp (Bool.and_eq_true_iff.mp h).1
  exact ⟨u, hu, of_decide_eq_true job⟩

theorem loaded_at (ready : g.Ready) (h : At w c b g s) (e : EngineId) (n attempt : Nat) : At w c b g (loaded e n attempt s) :=
  jobReport_at ready h fun _ => serve_at (h.deed (.loaded g s e n))

/-- A job whose raster cannot be read is FAILED, or ends (R10, R67, R90). -/
theorem markBad_at {j : Job} (ready : g.Ready) (h : At w c b (g.take fun m => m = n) s) (hj : s.job? n = some j)
    (hs : j.superseded = false) (k : SlotKey) (e : EngineId) : At w c b g (markBad k n e s) := by
  have marked := h.deed (.blot _ s k (fun x => { x with bad := true }) fun _ => ⟨rfl, rfl⟩)
  have failed := failJob_at marked hj (marked.taken_off fun _ => .inr rfl) hs
    (marked.taken_state (fun _ => .inr rfl) (ready.plates n) hj) ready.behind
  have settled := failed.same (Gaps.take_settle_single (ready.loose n) (ready.plates n))
  unfold markBad
  dsimp only
  split
  · exact settled
  · exact settled.raised _

theorem rasterUnreadable_at (ready : g.Ready) (h : At w c b g s) {e : EngineId} {u : WaitingCtx}
    (hu : (s.engine e).ctx.next = some u ∨ (s.engine e).ctx.parked = some u) (ref : U64) :
    At w c b g (rasterUnreadable e u.job ref s) := by
  have left := (leaveWaiting_at h hu .discard).parkedReturn e
  have single : (g.take fun m => m = u.job).settle u.job = g := Gaps.take_settle_single (ready.loose _) (ready.plates _)
  unfold rasterUnreadable
  dsimp only
  generalize (leaveWaiting e u.job .discard s).modCtx e Contexts.parkedReturn = v at left ⊢
  split
  next none => exact serve_at (left.gone (fun _ => .inr rfl) none g)
  next j hj =>
    have recorded := recordFault_at left u.job .rasterUnreadable (.engine e)
    have found : (recordFault u.job .rasterUnreadable (.engine e) v).job? u.job =
        some { j with lastFault := some ⟨.rasterUnreadable, .engine e, v.clock⟩ } := by
      unfold recordFault
      rw [job?_modJob, if_pos rfl, hj, Option.map_some]
    split
    next k _ =>
      split
      next superseded =>
        exact (departTaken_at (g := g.take fun m => m = u.job) (fun _ => .inr rfl) (ready.doomed u.job)
          (fun _ => serve_at) recorded (.inr (.inl rfl)) found).same single
      next unflagged => exact serve_at (markBad_at ready recorded found (by simpa using unflagged) k e)
    next =>
      exact serve_at ((returnByFaultBy_at (g := g.take fun m => m = u.job) (fun _ => .inr rfl) (ready.plates u.job)
        (ready.doomed u.job) ready.behind (fun _ => serve_at) left .rasterUnreadable (.engine e) (.inr (.inl rfl))).same single)

theorem loadFault_at (ready : g.Ready) (h : At w c b g s) (e : EngineId) (n attempt : Nat) (cause : LoadFaultCause) :
    At w c b g (loadFault e n attempt cause s) := by
  refine jobReport_at ready h fun waits => ?_
  obtain ⟨u, hu, rfl⟩ := waitsLoad_spec waits
  cases cause with
  | rasterUnreadable ref => exact rasterUnreadable_at ready h hu ref
  | code x => exact engineFault_at ready (deals_returns ready e u.job _) (leaveWaiting_at h hu .discard) e _ _

theorem startExposure_at (h : At w c b g s) {e : EngineId} {u : WaitingCtx} (hu : (s.engine e).ctx.next = some u)
    (hs : u.stage = .exposeSent) : At w c b g (startExposure e u s) := by
  have started := ((h.deed (.start g s e u hu hs)).still (.cassette e (fun c => { c with count := c.count - 1 }) _)).still
    (.gates e (fun g => { g with allowance := false }) _)
  unfold startsAt at started
  unfold startExposure
  dsimp only
  split
  · exact serve_at (started.raised _)
  · exact serve_at started

theorem exposeStarted_at (ready : g.Ready) (h : At w c b g s) (e : EngineId) (n attempt : Nat) :
    At w c b g (exposeStarted e n attempt s) := by
  refine jobReport_at ready h fun waits => ?_
  obtain ⟨u, hu, -, stage⟩ := waitsAt_spec waits
  unfold forSome
  rw [hu]
  exact startExposure_at h hu stage

theorem exposeDone_at (ready : g.Ready) (h : At w c b g s) (e : EngineId) (n attempt : Nat) :
    At w c b g (exposeDone e n attempt s) := by
  refine jobReport_at ready h fun current => ?_
  obtain ⟨u, hu, rfl⟩ := inCurrent_spec current
  exact serve_at (h.deed (.develop g s e u hu))

theorem exposureFault_at (ready : g.Ready) (h : At w c b g s) {e : EngineId} (held : (s.engine e).ctx.has n)
    (consumed : Bool) : At w c b g (exposureFault e n consumed s) := by
  have left := leaveExposure_at h held
  unfold exposureFault
  split
  · refine serve_at ((returnByFaultBy_at (g := g.take fun m => m = n) (fun _ => .inr rfl) (ready.plates n) (ready.doomed n)
      ready.behind (fun _ => serve_at) (left.parkedReturn e) .cut (.engine e) (.inr (.inr rfl))).same ?_)
    exact Gaps.take_settle_single (ready.loose n) (ready.plates n)
  · split
    · exact engineFault_at ready (deals_spoils ready e n _) left e _ _
    · exact engineFault_at ready (deals_returns ready e n _) left e _ _

theorem exposeFault_at (ready : g.Ready) (h : At w c b g s) (e : EngineId) (n attempt : Nat) (consumed : Bool) :
    At w c b g (exposeFault e n attempt consumed s) := by
  refine jobReport_at ready h fun found => exposureFault_at ready h ?_ consumed
  rw [has_iff]
  rcases Bool.or_eq_true_iff.mp found with x | x
  · exact .inl (inCurrent_spec x)
  · obtain ⟨u, hu, job, -⟩ := waitsAt_spec x
    exact .inr (.inl ⟨u, hu, job⟩)

theorem discarded_at (ready : g.Ready) (h : At w c b g s) (e : EngineId) (n attempt : Nat) :
    At w c b g (discarded e n attempt s) := jobReport_at ready h nofun

/-! ### Timers (R84, R87, R90) -/

theorem loadTimerExpiry_at (ready : g.Ready) (h : At w c b g s) (e : EngineId) (x : WaitingContext) :
    At w c b g (loadTimerExpiry e x s) := by
  unfold loadTimerExpiry
  split
  next u hu =>
    split
    · have held : (s.engine e).ctx.next = some u ∨ (s.engine e).ctx.parked = some u := by
        cases x with
        | next => exact .inl hu
        | parked => exact .inr hu
      exact engineFault_at ready (deals_returns ready e u.job _) (leaveWaiting_at h held _) e _ _
    · exact h
  next => exact h

theorem exposeTimerExpiry_at (ready : g.Ready) (h : At w c b g s) (e : EngineId) : At w c b g (exposeTimerExpiry e s) := by
  unfold exposeTimerExpiry
  split
  · exact h
  next u hu =>
    refine engineFault_at ready (deals_spoils ready e u.job _) ((abortCurrent_at h e).same (Gaps.take_congr fun m => ?_)) e _ _
    rw [hu]
    simp [eq_comm]

/-! ### The requests (R94, R107) -/

theorem clearEngineFault_at (h : At w c b g s) (engine : Byte) : At w c b g (reqClearEngineFault engine s).1 := by
  unfold reqClearEngineFault
  split
  · exact h
  · dsimp only
    split
    · exact h
    · dsimp only
      exact serve_at ((h.still (.status _ _ _)).raised _)

theorem restoreEngine_at (h : At w c b g s) (engine : Byte) : At w c b g (reqRestoreEngine engine s).1 := by
  unfold reqRestoreEngine
  split
  · exact h
  · dsimp only
    split
    · dsimp only
      exact serve_at ((h.still (.status _ _ _)).raised _)
    · exact h

theorem Still.register (e : EngineId) (x : Register) (s : State) : Still s (s.setRegister e x) :=
  .of_eq rfl rfl rfl rfl rfl rfl rfl rfl rfl rfl rfl rfl

theorem rearmRegister_at (h : At w c b g s) (engine : Byte) : At w c b g (reqRearmRegister engine s).1 := by
  unfold reqRearmRegister rearm
  split
  · exact h
  · dsimp only
    exact serve_at ((h.still (.register _ _ s)).raised _)

end Sys2Proof.Machine
end

section
/-! Samples and colour eviction as chains of deeds (R99 to R105). -/

namespace Sys2Proof.Machine

open State

variable {w c : Prop} {b : Gaps × State} {g : Gaps} {s : State} {n : Nat}

/-! ### Colour eviction (R105) -/

/-- The evicted next job leaves its context. -/
theorem dropNext_at (h : At w c b g s) {e : EngineId} {u : WaitingCtx} (hu : (s.engine e).ctx.next = some u) :
    At w c b (g.take fun m => m = u.job) (dropNext e u s) := by
  have left := h.dropNext hu
  unfold Machine.dropNext
  dsimp only
  split
  · split
    · exact left.listCancel e _ _
    · exact left.cancelJob e _ _
  · exact left.cancelJob e _ _

/-- The evicted parked job leaves its context. -/
theorem dropParked_at (h : At w c b g s) {e : EngineId} {u : WaitingCtx} (hu : (s.engine e).ctx.parked = some u) :
    At w c b (g.take fun m => m = u.job) (dropParked e u s) := (h.dropParked hu).cancelJob e _ _

/-- The job table takes an evicted job on. -/
theorem takeEvicted_at (hl : w → g.loose n) (hp : ¬ g.plates n) (hd : ¬ g.doomed n) (hb : ∀ k, ¬ g.behind k)
    (h : At w c b g s) : At w c b (g.settle n) (takeEvicted n s) := by
  unfold takeEvicted
  split
  next hj => exact h.gone hl hj _
  next j hj =>
    split
    · exact departTaken_at hl hd (fun _ => serveEngines_at) h (.inr (.inl rfl)) hj
    next hs =>
      exact requeue_at h hj (h.taken_off hl) (.inl (by simpa using hs)) (h.taken_state hl hp hj) hb j.attempt _ _

/-- The job of a context, if it holds one. -/
abbrev JobIn (x : Option WaitingCtx) (n : Nat) : Prop := ∃ u, x = some u ∧ u.job = n

/-- The job that one context held is taken on. -/
theorem forEvicted_at {M : Nat → Prop} (ready : g.Ready) (x : Option WaitingCtx)
    (apart : w → ∀ n, JobIn x n → ¬ M n) (h : At w c b (g.take fun m => JobIn x m ∨ M m) s) :
    At w c b (g.take M) (forSome x (fun u => takeEvicted u.job) s) := by
  cases x with
  | none => exact h.same (Gaps.take_congr fun m => ⟨fun x => x.resolve_left fun ⟨_, hu, _⟩ => (by cases hu), .inr⟩)
  | some u =>
    have single (m : Nat) : JobIn (some u) m ↔ m = u.job :=
      ⟨fun ⟨v, hv, job⟩ => (by cases hv; exact job.symm), fun same => ⟨u, rfl, same.symm⟩⟩
    have evicted := takeEvicted_at (g := g.take fun m => JobIn (some u) m ∨ M m) (n := u.job) (fun _ => .inr (.inl ⟨u, rfl, rfl⟩))
      (ready.plates _) (ready.doomed _) ready.behind h
    exact deals_settle (n := u.job) (f := takeEvicted u.job) ready (fun hw m same => apart hw m ((single m).mpr same))
      (evicted.same (congrArg (fun t => Gaps.settle t u.job) (Gaps.take_congr fun m => or_congr (single m) Iff.rfl)))

/-- What is evicted was in the context. -/
theorem filter_held {α : Type} {x : Option α} {p : α → Bool} {u : α} (h : x.filter p = some u) : x = some u := by
  cases x with
  | none => cases h
  | some v =>
    by_cases hp : p v = true
    · simpa [Option.filter, hp] using h
    · simp [Option.filter, hp] at h

theorem colourEvict_at (ready : g.Ready) (h : At w c b g s) (e : EngineId) : At w c b g (colourEvict e s) := by
  have next_held (u : WaitingCtx) (hu : evictNext s e = some u) : (s.engine e).ctx.next = some u := filter_held hu
  have parked_held (u : WaitingCtx) (hu : evictParked s e = some u) : (s.engine e).ctx.parked = some u := filter_held hu
  have apart : w → ∀ n, JobIn (evictNext s e) n → ¬ JobIn (evictParked s e) n := by
    rintro hw n ⟨u, hu, rfl⟩ ⟨v, hv, same⟩
    exact (InPlace.ctx_apart (h.place hw) e).waiting u v (next_held u hu) (parked_held v hv) same.symm
  unfold colourEvict
  dsimp only
  generalize evictNext s e = nx at next_held apart ⊢
  generalize evictParked s e = pk at parked_held apart ⊢
  have dropped : At w c b (g.take (JobIn nx)) (forSome nx (dropNext e) s) ∧
      ((forSome nx (dropNext e) s).engine e).ctx.parked = (s.engine e).ctx.parked := by
    cases nx with
    | none => exact ⟨h.same (Gaps.take_none fun _ ⟨_, hu, _⟩ => by cases hu).symm, rfl⟩
    | some u =>
      refine ⟨(dropNext_at h (next_held u rfl)).same (Gaps.take_congr fun m => ?_), dropNext_parked e u s⟩
      exact ⟨fun same => ⟨u, rfl, same.symm⟩, fun ⟨v, hv, job⟩ => by cases hv; exact job.symm⟩
  generalize forSome nx (dropNext e) s = v at dropped ⊢
  obtain ⟨dropped, parked⟩ := dropped
  have both : At w c b (g.take fun m => JobIn nx m ∨ JobIn pk m) (forSome pk (dropParked e) v) := by
    cases pk with
    | none => exact dropped.same (Gaps.take_congr fun m => ⟨.inl, fun x => x.resolve_right fun ⟨_, hu, _⟩ => by cases hu⟩)
    | some u =>
      refine (dropParked_at dropped (parked.trans (parked_held u rfl))).same ?_
      rw [Gaps.take_take]
      refine Gaps.take_congr fun m => or_congr Iff.rfl ?_
      exact ⟨fun same => ⟨u, rfl, same.symm⟩, fun ⟨v, hv, job⟩ => by cases hv; exact job.symm⟩
  generalize forSome pk (dropParked e) v = x at both ⊢
  have first := forEvicted_at ready nx apart (both.parkedReturn e)
  have second := forEvicted_at (M := fun _ => False) ready pk (fun _ _ _ => id)
    (first.same (Gaps.take_congr fun m => ⟨.inl, fun x => x.resolve_right id⟩))
  exact second.same (Gaps.take_none fun _ => id)

/-! ### Samples (R99 to R104) -/

theorem takeSample_at (ready : g.Ready) (h : At w c b g s) (e : EngineId) (m x : Offset) : At w c b g (takeSample e m x s) := by
  have wrote (r : Register) : At w c b g (s.setRegister e r) := h.still (.register e r s)
  unfold takeSample
  dsimp only
  refine serve_at ?_
  split
  · split
    · unfold sampleTracking
      dsimp only
      split
      · exact (wrote _).raised _
      · exact wrote _
    · unfold sampleLocked
      dsimp only
      split
      · exact wrote _
      · exact (wrote _).raised _
    · unfold sampleDrifted
      dsimp only
      split
      · exact wrote _
      · exact (wrote _).raised _
  · unfold sampleBeyond
    dsimp only
    split
    · exact wrote _
    · exact colourEvict_at ready ((wrote _).raised _) e

end Sys2Proof.Machine
end

section
/-! The lanes' reports as chains of deeds (R112 to R123, R131, R169, R170). -/

namespace Sys2Proof.Machine

open State

variable {w c : Prop} {b : Gaps × State} {g : Gaps} {s t : State} {l : LaneId} {n : Nat}

/-! ### Entries of a lane order -/

/-- A job's entry in a lane order. -/
abbrev EntryAt (s : State) (l : LaneId) (n : Nat) (x : LaneStage) : Prop :=
  ∃ y ∈ (s.lane l).floor.order, y.job = n ∧ y.stage = x

/-- An entry that has been found. -/
theorem hasEntry_spec {attempt : Nat} {x : LaneStage} (h : hasEntry s l n attempt x = true) : EntryAt s l n x := by
  unfold hasEntry at h
  obtain ⟨y, hy, found⟩ := List.any_eq_true.mp (Bool.and_eq_true_iff.mp h).1
  obtain ⟨job, stage⟩ := Bool.and_eq_true_iff.mp found
  exact ⟨y, hy, of_decide_eq_true job, of_decide_eq_true stage⟩

/-- The job of an entry is DEVELOPING before inspection, and FINISHING after it. -/
theorem InPlace.entry_state (h : InPlace g s) {y : LaneEntry} (hy : y ∈ (s.lane l).floor.order) :
    ∃ j, s.job? y.job = some j ∧ j.lane = some l ∧ j.state = if y.stage = .inDeveloper then .developing else .finishing :=
  h.ok.order l y.job y.stage (mem_orderSpots.mpr ⟨y, hy, rfl, rfl⟩)

/-- A job has one entry. -/
theorem InPlace.entry_unique (h : InPlace g s) {x y : LaneEntry} (hx : x ∈ (s.lane l).floor.order)
    (hy : y ∈ (s.lane l).floor.order) (same : x.job = y.job) : x.stage = y.stage :=
  h.ok.entry_unique (mem_orderSpots.mpr ⟨x, hx, rfl, rfl⟩) (mem_orderSpots.mpr ⟨y, hy, same.symm, rfl⟩)

/-- A job that is DEVELOPING in a lane. -/
structure Develops (s : State) (l : LaneId) (n : Nat) : Prop where
  entry : n ∈ (s.lane l).floor.order.map LaneEntry.job
  state : ∃ j, s.job? n = some j ∧ j.state = .developing

/-- Its entry is before inspection. -/
theorem Develops.stands (h : Develops s l n) (p : InPlace g s) : EntryAt s l n .inDeveloper := by
  obtain ⟨y, hy, rfl⟩ := List.mem_map.mp h.entry
  obtain ⟨j, hj, state⟩ := h.state
  obtain ⟨i, hi, -, side⟩ := p.entry_state hy
  cases hj.symm.trans hi
  refine ⟨y, hy, rfl, ?_⟩
  by_contra other
  rw [if_neg other, state] at side
  cases side

theorem Develops.of_entry (p : InPlace g s) (h : EntryAt s l n .inDeveloper) : Develops s l n := by
  obtain ⟨y, hy, rfl, stage⟩ := h
  obtain ⟨j, hj, -, side⟩ := p.entry_state hy
  rw [if_pos stage] at side
  exact ⟨List.mem_map.mpr ⟨y, hy, rfl⟩, j, hj, side⟩

/-- What does not concern the job leaves it there. -/
theorem Develops.reacts {D : Nat → Prop} (h : Develops s l n) (r : Reacts D s t) (hn : ¬ D n) : Develops t l n := by
  obtain ⟨j, hj, state⟩ := h.state
  obtain ⟨j', hj', stays, -⟩ := r.job_stays hn hj
  refine ⟨?_, j', hj', ?_⟩
  · rw [((Reacts.kept r).lanes l).order]
    exact h.entry
  · rcases stays with e | ⟨e, -⟩
    · rw [e, state]
    · rw [e] at state
      cases state

/-! ### Plates that are spoiled in a lane (R66, R117, R119, R122) -/

/-- The plate of an entry is spoiled. -/
theorem spoilEntry_at (ready : g.Ready) (h : At w c b g s)
    (hy : w → ∃ y ∈ (s.lane l).floor.order, y.job = n ∧ (g.spent = true ∨ y.stage ≠ .granted)) (cause : FaultCause)
    (p : FaultParam) : At w c b g (spoil n cause p (dropEntry l n s)) :=
  (spoilBy_at (g := g.take fun m => m = n) (fun _ => .inr rfl) (ready.plates n) (ready.doomed n) ready.behind
    (fun _ => serve_at) (h.deed (.leave g s l n hy)) cause p).same (Gaps.take_settle_single (ready.loose n) (ready.plates n))

/-- The plate of an entry at a stage before the exit. -/
theorem spoilAt_at {x : LaneStage} (ready : g.Ready) (h : At w c b g s) (hy : w → EntryAt s l n x) (hx : x ≠ .granted)
    (cause : FaultCause) (p : FaultParam) : At w c b g (serve (spoil n cause p (dropEntry l n s))) := by
  refine serve_at (spoilEntry_at ready h (fun hw => ?_) cause p)
  obtain ⟨y, mem, job, stage⟩ := hy hw
  exact ⟨y, mem, job, .inr (stage ▸ hx)⟩

/-- A superseded job's plate is rejected, and the job ends. -/
theorem rejectEnded_at {x : LaneStage} {j : Job} (ready : g.Ready) (h : At w c b g s) (hy : w → EntryAt s l n x)
    (hx : x ≠ .granted) (hj : s.job? n = some j) : At w c b g (depart n .discarded (dropEntry l n s)) := by
  have left := h.deed (.leave g s l n fun hw => by
    obtain ⟨y, mem, job, stage⟩ := hy hw
    exact ⟨y, mem, job, .inr (stage ▸ hx)⟩)
  exact (departTaken_at (g := g.take fun m => m = n) (fun _ => .inr rfl) (ready.doomed n) (fun _ => serve_at) left
    (.inr (.inr rfl)) hj).same (Gaps.take_settle_single (ready.loose n) (ready.plates n))

/-! ### Decisions (R116 to R119) -/

theorem decideUnreadable_at (ready : g.Ready) (h : At w c b g s) (r : InspectReport) :
    At w c b g (decideUnreadable l r s) := by
  unfold decideUnreadable
  dsimp only
  have sent := h.sent (.reject l 0)
  split
  next y hy =>
    have mem : y ∈ ((s.send (.reject l 0)).lane l).floor.order := List.mem_of_find?_eq_some hy
    have stage : y.stage = .inDeveloper := of_decide_eq_true (List.find?_some (p := fun x : LaneEntry => decide (x.stage = .inDeveloper)) hy)
    exact spoilAt_at ready sent (fun _ => ⟨y, mem, rfl, stage⟩) nofun _ _
  next => exact sent.raised _

theorem handSample_at (ready : g.Ready) (h : At w c b g s) (j : Job) (m : Option Offset) : At w c b g (handSample j m s) := by
  unfold handSample
  split
  · exact takeSample_at ready h _ _ _
  · exact h

theorem passPlate_at (h : At w c b g s) (hy : w → EntryAt s l n .inDeveloper) (j : Job) (m : Offset) :
    At w c b g (passPlate l n j m s) := (h.sent (.pass l n j.attempt m)).deed (.pass g _ l n hy)

theorem rejectRegister_at (ready : g.Ready) (h : At w c b g s) (hy : w → EntryAt s l n .inDeveloper) (m : Option Offset) :
    At w c b g (rejectRegister l n m s) := spoilAt_at ready (h.sent (.reject l n)) hy nofun _ _

theorem decidePlate_at {j : Job} (ready : g.Ready) (h : At w c b g s) (hy : w → EntryAt s l n .inDeveloper)
    (hj : s.job? n = some j) (m : Option Offset) : At w c b g (decidePlate l n j m s) := by
  unfold decidePlate
  split
  · exact rejectEnded_at ready (h.sent (.reject l n)) hy nofun hj
  · split
    · split
      · exact passPlate_at h hy j _
      · exact rejectRegister_at ready h hy _
    · exact rejectRegister_at ready h hy _

theorem decideIdentified_at (ready : g.Ready) (h : At w c b g s) (hy : w → EntryAt s l n .inDeveloper) (m : Option Offset) :
    At w c b g (decideIdentified l n m s) := by
  unfold decideIdentified
  split
  next j hj => exact handSample_at ready (decidePlate_at ready h hy hj m) j m
  next => exact h

/-! ### Resynchronisation (R117) -/

/-- One plate that was skipped is spoiled; the others stay before inspection. -/
theorem spoilSkipped_develops (o : Tables s) {m : Nat} (h : Develops s l m) (ne : m ≠ n) (cause : FaultCause) (p : FaultParam) :
    Develops (serve (spoil n cause p (dropEntry l n s))) l m := by
  have dropped : Develops (dropEntry l n s) l m := by
    obtain ⟨y, hy, rfl⟩ := List.mem_map.mp h.entry
    refine ⟨List.mem_map.mpr ⟨y, ?_, rfl⟩, h.state⟩
    unfold dropEntry
    rw [lane_modFloor, if_pos rfl]
    exact List.mem_filter.mpr ⟨hy, by simpa using ne⟩
  have ordered : JobsOrdered (dropEntry l n s) := o.jobs
  have chain : Reacts (Eq n) (dropEntry l n s) (serve (spoil n cause p (dropEntry l n s))) :=
    (spoil_reacts n cause p ordered rfl).then ordered serve_reacts
  exact dropped.reacts chain ne.symm

theorem resynchroniseFold_at (ready : g.Ready) (es : List LaneEntry) (h : At w c b g s)
    (hd : w → (es.map LaneEntry.job).Nodup) (he : w → ∀ x ∈ es, Develops s l x.job) (hn : w → Develops s l n)
    (apart : w → n ∉ es.map LaneEntry.job) :
    At w c b g (es.foldl (fun s x => serve (spoil x.job .missingFromLane (.lane l) (dropEntry l x.job s))) s) ∧
      (w → Develops (es.foldl (fun s x => serve (spoil x.job .missingFromLane (.lane l) (dropEntry l x.job s))) s) l n) := by
  induction es generalizing s with
  | nil => exact ⟨h, hn⟩
  | cons x es ih =>
    have spoiled : At w c b g (serve (spoil x.job .missingFromLane (.lane l) (dropEntry l x.job s))) :=
      spoilAt_at ready h (fun hw => (he hw x (by simp)).stands (h.place hw)) nofun _ _
    have rest {m : Nat} (hw : w) (d : Develops s l m) (ne : m ≠ x.job) :=
      spoilSkipped_develops h.tables d ne .missingFromLane (.lane l)
    rw [List.foldl_cons]
    generalize serve (spoil x.job .missingFromLane (.lane l) (dropEntry l x.job s)) = v at spoiled rest ⊢
    refine ih spoiled (fun hw => (List.nodup_cons.mp (hd hw)).2) (fun hw y hy => ?_) (fun hw => ?_) fun hw => ?_
    · have other : y.job ≠ x.job := fun e => (List.nodup_cons.mp (hd hw)).1 (e ▸ List.mem_map_of_mem hy)
      exact rest hw (he hw y (List.mem_cons_of_mem _ hy)) other
    · exact rest hw (hn hw) fun e => apart hw (by rw [List.map_cons, e]; exact List.mem_cons_self)
    · exact fun mem => apart hw (List.mem_cons_of_mem _ mem)

theorem resynchronise_at (ready : g.Ready) (h : At w c b g s) (hy : w → EntryAt s l n .inDeveloper) :
    At w c b g (resynchronise l n s) ∧ (w → Develops (resynchronise l n s) l n) := by
  have sub : (skippedBy n (s.lane l).floor.order).Sublist (s.lane l).floor.order :=
    List.filter_sublist.trans (List.takeWhile_sublist _)
  refine resynchroniseFold_at ready _ h (fun hw => ?_) (fun hw x hx => ?_) (fun hw => .of_entry (h.place hw) (hy hw)) fun _ => ?_
  · have once : ((orderSpots (s.lane l).floor.order).map Prod.fst).Nodup := (h.place hw).ok.once l
    unfold orderSpots at once
    rw [List.map_map] at once
    exact once.sublist (sub.map _)
  · obtain ⟨-, stage⟩ := List.mem_filter.mp hx
    exact .of_entry (h.place hw) ⟨x, sub.subset hx, rfl, of_decide_eq_true stage⟩
  · intro mem
    obtain ⟨x, hx, job⟩ := List.mem_map.mp mem
    have other := List.mem_takeWhile_imp (List.mem_filter.mp hx).1
    simp [job] at other

theorem decideStray_at (h : At w c b g s) (r : InspectReport) (why : StrayReason) : At w c b g (decideStray l r why s) :=
  (h.sent _).raised _

theorem decideReport_at (ready : g.Ready) (h : At w c b g s) (r : InspectReport) : At w c b g (decideReport l r s) := by
  unfold decideReport
  split
  · exact decideUnreadable_at ready h r
  · dsimp only
    split
    next found =>
      obtain ⟨again, stands⟩ := resynchronise_at ready h fun _ => hasEntry_spec found
      exact decideIdentified_at ready again (fun hw => (stands hw).stands (again.place hw)) _
    next => exact decideStray_at h r _

/-! ### A clearing phase (R169, R170) -/

theorem uncertainHere_spec (h : uncertainHere s l n = true) : ∃ j, s.job? n = some j ∧ j.state = .uncertain ∧ j.lane = some l := by
  unfold uncertainHere at h
  obtain ⟨j, hj, found⟩ := (Option.any_eq_true _ _).mp h
  obtain ⟨state, lane⟩ := Bool.and_eq_true_iff.mp found
  exact ⟨j, hj, of_decide_eq_true state, of_decide_eq_true lane⟩

theorem Still.restart (f : Restart → Restart) (s : State) : Still s (s.modRestart f) :=
  .of_eq rfl rfl rfl rfl rfl rfl rfl rfl rfl rfl rfl rfl

/-- An UNCERTAIN job is put at the end of the lane order. -/
theorem reclaim_entry (st : JobState) (x : LaneStage) : EntryAt (reclaim l n st x s) l n x := by
  refine ⟨⟨n, x, none⟩, ?_, rfl, rfl⟩
  unfold reclaim
  dsimp only
  rw [lane_modFloor, if_pos rfl]
  exact List.mem_append_right _ (List.mem_singleton_self _)

theorem decideClearing_at (ready : g.Ready) (h : At w c b g s) (r : InspectReport) : At w c b g (decideClearing l r s) := by
  unfold decideClearing
  split
  · exact decideStray_at h r _
  · dsimp only
    split
    next found =>
      obtain ⟨j, hj, state, lane⟩ := uncertainHere_spec found
      split
      · refine At.still ?_ (.restart _ _)
        exact decideIdentified_at ready (h.deed (.reclaim g s l _ j .developing .inDeveloper hj state lane (ready.loose _) (.inl rfl)))
          (fun _ => reclaim_entry _ _) _
      · exact decideStray_at h r _
    next => exact decideStray_at h r _

theorem decide1_at (ready : g.Ready) (h : At w c b g s) (r : InspectReport) : At w c b g (decide1 l r s) := by
  have used : At w c b g (stepUsed l s) := by
    unfold stepUsed
    split
    · exact h.still (.laneStep l s)
    · exact h
  rw [decide1_eq]
  split
  · exact decideClearing_at ready used r
  · exact decideReport_at ready used r

theorem decidePending_at (ready : g.Ready) (fuel : Nat) (h : At w c b g s) : At w c b g (decidePending l fuel s) := by
  induction fuel generalizing s with
  | zero => exact h
  | succ fuel ih =>
    unfold decidePending
    split
    · split
      next r rest _ => exact ih (decide1_at ready (h.still (.lane (f := fun x => { x with inspections := rest }) rfl rfl)) r)
      next => exact h
    · exact h

theorem laneOpened_at (ready : g.Ready) (h : At w c b g s) (l : LaneId) : At w c b g (laneOpened l s) :=
  serve_at (sorterLook_at (decidePending_at ready _ h))

/-! ### Reports (R114, R121 to R123, R131) -/

theorem laneError_at (h : At w c b g s) (k : LaneReportKind) (named : Option (Nat × Nat)) : At w c b g (laneError l k named s) :=
  h.raised _

theorem atInspect_at (ready : g.Ready) (h : At w c b g s) (l : LaneId) (r : InspectReport) : At w c b g (atInspect l r s) := by
  unfold atInspect
  dsimp only
  split
  · exact decide1_at ready h r
  · split
    · exact h.still (.lane (f := fun x => { x with inspections := x.inspections ++ [r] }) rfl rfl)
    · exact laneError_at h _ _

/-- The entry of a job moves on to another stage after inspection. -/
theorem markEntry_at {x st : LaneStage} {f : LaneFloor → LaneFloor} (h : At w c b g s) (hy : EntryAt s l n x) (hx : x ≠ .inDeveloper ∧ x ≠ .granted)
    (hf : (f (s.lane l).floor).order = markStage n st (s.lane l).floor.order) (hst : st ≠ .inDeveloper) :
    At w c b g (s.modFloor l f) := by
  refine h.deed (.mark g s l n st f hf hst fun hw z hz job => ?_)
  obtain ⟨y, mem, job', rfl⟩ := hy
  rw [InPlace.entry_unique (h.place hw) hz mem (job.trans job'.symm)]
  exact hx

theorem punchedBent_at (h : At w c b g s) (l : LaneId) (n attempt : Nat) : At w c b g (punchedBent l n attempt s) := by
  unfold punchedBent
  split
  next found => exact markEntry_at h (hasEntry_spec found) ⟨nofun, nofun⟩ rfl nofun
  · split
    · exact h
    · exact laneError_at h _ _

theorem punchFault_at (ready : g.Ready) (h : At w c b g s) (l : LaneId) (n attempt : Nat) :
    At w c b g (punchFault l n attempt s) := by
  unfold punchFault
  split
  next found => exact spoilAt_at ready h (fun _ => hasEntry_spec found) nofun _ _
  · exact laneError_at h _ _

theorem atExit_at (ready : g.Ready) (h : At w c b g s) (l : LaneId) (n attempt : Nat) : At w c b g (atExit l n attempt s) := by
  unfold atExit
  split
  · exact laneError_at h _ _
  · split
    next found => exact sorterLook_at (markEntry_at h (hasEntry_spec found) ⟨nofun, nofun⟩ rfl nofun)
    next =>
      split
      next found =>
        obtain ⟨j, hj, state, lane⟩ := uncertainHere_spec (Bool.and_eq_true_iff.mp (Bool.and_eq_true_iff.mp found).1).2
        have reclaimed := h.deed (.reclaim g s l n j .finishing .atExit hj state lane (ready.loose _) (.inr rfl))
        exact sorterLook_at ((markEntry_at (st := .atExit) reclaimed (reclaim_entry _ _) ⟨nofun, nofun⟩ rfl nofun).still (.restart _ _))
      next => exact laneError_at h _ _

theorem transitExpiry_at (ready : g.Ready) (h : At w c b g s) (l : LaneId) (n : Nat) : At w c b g (transitExpiry l n s) := by
  unfold transitExpiry
  split
  next due =>
    obtain ⟨y, hy, found⟩ := List.any_eq_true.mp (Bool.and_eq_true_iff.mp due).2
    obtain ⟨job, stage⟩ := Bool.and_eq_true_iff.mp (Bool.and_eq_true_iff.mp found).1
    exact spoilAt_at ready h (fun _ => ⟨y, hy, of_decide_eq_true job, of_decide_eq_true stage⟩) nofun _ _
  next => exact h

theorem laneLinkLoss_at (h : At w c b g s) (l : LaneId) : At w c b g (laneLinkLoss l s) :=
  h.still (.lane (f := fun x => { x with lost := true, inspections := [] }) rfl rfl)

theorem laneRestoration_at (ready : g.Ready) (h : At w c b g s) (l : LaneId) : At w c b g (laneRestoration l s) :=
  laneOpened_at ready (h.still (.lane (f := fun x => { x with lost := false }) rfl rfl)) l

end Sys2Proof.Machine
end

section
/-! The sorter's reports and the requests and alarms of the press room as chains of deeds (R129 to R148). -/

namespace Sys2Proof.Machine

open State

variable {w c : Prop} {b : Gaps × State} {g : Gaps} {s t : State} {n : Nat} {k : PosKey}

/-! ### The sorter (R129 to R131) -/

/-- A delivery has ended, and the sorter holds it still. -/
def Gaps.delivered : Gaps := { Gaps.closed with spent := true }

theorem Gaps.ready_delivered : Gaps.delivered.Ready := ⟨fun _ h => h, fun _ h => h, fun _ h => h, fun _ h => h⟩

theorem endDelivery_at {x : Bool} (h : At w c b { Gaps.closed with spent := x } s) (l : LaneId) :
    At w c b Gaps.closed (endDelivery l s) := by
  have finished : At w c b Gaps.closed (s.setDelivery none) := h.deed (.finish _ s)
  have served := finished.still (t := (s.setDelivery none).setServed l) (.of_eq rfl rfl rfl rfl rfl rfl rfl rfl rfl rfl rfl rfl)
  exact serve_at (sorterLook_at (served.still (.floor (f := fun f => { f with exit := none }) rfl)))

/-- The standing of the position of a plate that has been racked is told, if the plate is its own. -/
theorem racked_at {l : LaneId} {j : Job} (place : PlatePlace)
    (h : At w c b { Gaps.closed.untell fun q => q = j.key ∧ j.superseded = false with spent := true } (landsAt l n s)) :
    At w c b Gaps.delivered (racked l n j place s) := by
  have noticed := h.raised (.plateRacked n j.key place j.superseded)
  unfold racked
  unfold landsAt at noticed
  dsimp only
  split
  next superseded =>
    refine (noticed.raised _).same (Gaps.ext (fun _ => Iff.rfl) (fun _ => Iff.rfl) (fun _ => Iff.rfl) rfl (fun q => ?_)
      (fun _ => Iff.rfl) (fun _ => Iff.rfl) fun _ => Iff.rfl)
    exact ⟨fun u => u.elim id fun own => (by rw [superseded] at own; cases own.2), .inl⟩
  next =>
    refine (tellSatisfied_at noticed j.key).same (Gaps.ext (fun _ => Iff.rfl) (fun _ => Iff.rfl) (fun _ => Iff.rfl) rfl
      (fun q => ?_) (fun _ => Iff.rfl) (fun _ => Iff.rfl) fun _ => Iff.rfl)
    exact ⟨fun ⟨u, ne⟩ => u.elim id fun own => ne own.1, False.elim⟩

/-- The plate that the sorter delivers stands in its lane's order still. -/
theorem At.granted {d : Delivery} (h : At w c b Gaps.closed s) (hw : w) (hd : s.sorter.delivery = some d) :
    EntryAt s d.lane d.job .granted :=
  mem_orderSpots.mp ((h.place hw).ok.delivery d hd).1

theorem placePlate_at {d : Delivery} (h : At w c b Gaps.closed s) (hd : s.sorter.delivery = some d) :
    At w c b Gaps.delivered (placePlate d s) := by
  have spent : At w c b Gaps.delivered s := h.deed (.spend _ s)
  unfold placePlate
  split
  · exact spent
  next j hj =>
    split
    next p q hx => exact racked_at _ (h.deed (.rack _ s d p q j hd hx hj rfl))
    next p hx => exact racked_at _ (h.deed (.shelve _ s d p j hd hx hj rfl))
    next =>
      have left := spent.deed (.leave Gaps.delivered s d.lane d.job fun hw => by
        obtain ⟨y, mem, job, -⟩ := h.granted hw hd
        exact ⟨y, mem, job, .inl rfl⟩)
      exact (departTaken_at (g := Gaps.delivered.take fun m => m = d.job) (fun _ => .inr rfl) (fun x => x)
        (fun _ => serve_at) left (.inr (.inr rfl)) hj).same (Gaps.take_settle_single (fun x => x) fun x => x)

theorem sorted_at (h : At w c b Gaps.closed s) (n attempt : Nat) (d : Destination) :
    At w c b Gaps.closed (sorted n attempt d s) := by
  unfold sorted
  split
  · exact h.raised _
  next x hx =>
    split
    · exact endDelivery_at (placePlate_at h hx) _
    · exact h.raised _

theorem losePlate_at {d : Delivery} (h : At w c b Gaps.closed s) (hd : s.sorter.delivery = some d) :
    At w c b Gaps.closed (losePlate d s) := by
  have spoiled := spoilEntry_at Gaps.ready_delivered (h.deed (.spend _ s)) (fun hw => by
    obtain ⟨y, mem, job, -⟩ := h.granted hw hd
    exact ⟨y, mem, job, .inl rfl⟩) .sortFault (.lane d.lane)
  exact endDelivery_at spoiled.starved d.lane

theorem sortFault_at (h : At w c b Gaps.closed s) (n attempt : Nat) : At w c b Gaps.closed (sortFault n attempt s) := by
  unfold sortFault
  split
  · exact h.raised _
  next x hx =>
    split
    · exact losePlate_at h hx
    · exact h.raised _

theorem sorterLinkLoss_at (h : At w c b Gaps.closed s) : At w c b Gaps.closed (sorterLinkLoss s) := by
  have lost := h.still (.sorter (f := fun x => { x with lost := true }) rfl)
  unfold sorterLinkLoss
  dsimp only
  split
  next x hx => exact losePlate_at lost hx
  next => exact lost

theorem sorterRestoration_at (h : At w c b g s) : At w c b g (sorterRestoration s) :=
  sorterLook_at (h.still (.sorter (f := fun x => { x with lost := false }) rfl))

/-! ### Plates (R136 to R139) -/

/-- A plate that has been taken out retires. -/
theorem retire_at {M : Nat → Prop} (ready : g.Ready) (hM : ∀ m, M m ↔ m = n) (h : At w c b (g.pull M) s) :
    At w c b g (depart n .retired s) := by
  have settled : (g.pull M).ended n = g := by
    exact (Gaps.ended_eq (g := g.pull M) (ready.doomed n)).trans
      (Gaps.pull_settle_single hM (ready.loose n) (ready.plates n))
  have loose : w → (g.pull M).loose n := fun _ => .inr ((hM n).mpr rfl)
  cases hj : s.job? n with
  | none =>
    have closed := h.gone loose hj g
    unfold depart departBy departCore
    rw [hj]
    exact serve_at (serveFrom_at (fun _ => serve_at) _ closed)
  | some j => exact (depart_at h (.inl rfl) hj (h.taken_off loose)).same settled

/-- The superseded plates of a position are taken off one after another. -/
theorem pullFold_at (ready : g.Ready) (l : List Nat) (h : At w c b g s) (hd : w → l.Nodup)
    (hr : w → ∀ n ∈ l, (spots s).Is n k .racked) :
    At w c b g (l.foldl (fun s n => depart n .retired (takePlate k n s)) s) := by
  induction l generalizing s with
  | nil => exact h
  | cons n l ih =>
    have pulled := h.deed (.pull g s k n fun hw => hr hw n (by simp))
    have retired := retire_at ready (fun _ => Iff.rfl) pulled
    have chain : Reacts (Eq n) (takePlate k n s) (depart n .retired (takePlate k n s)) :=
      depart_reacts n .retired h.tables.jobs (by decide) rfl
    rw [List.foldl_cons]
    generalize depart n .retired (takePlate k n s) = v at retired chain ⊢
    refine ih retired (fun hw => (List.nodup_cons.mp (hd hw)).2) fun hw m hm => ?_
    obtain ⟨j, hj, key, state⟩ := hr hw m (List.mem_cons_of_mem _ hm)
    have other : ¬ n = m := fun e => (List.nodup_cons.mp (hd hw)).1 (e ▸ hm)
    obtain ⟨j', hj', stays, rest⟩ := chain.job_stays other hj
    refine ⟨j', hj', ?_, ?_⟩
    · rw [← key, rest]
      rfl
    · rcases stays with e | ⟨e, -⟩
      · rw [e, state]
      · rw [e] at state
        cases state

/-- The plates of a position that stand in its slot and on the shelf are RACKED, and different. -/
theorem pullable_racked (h : InPlace g s) : (pullable s k).Nodup ∧ ∀ n ∈ pullable s k, (spots s).Is n k .racked := by
  unfold pullable
  refine ⟨(h.ok.stacked k).sublist List.filter_sublist, fun n hn => ?_⟩
  rcases List.mem_append.mp (List.mem_filter.mp hn).1 with slot | shelf
  · exact h.ok.racks k n slot
  · obtain ⟨⟨m, q⟩, mem, rfl⟩ := List.mem_map.mp shelf
    obtain ⟨mem, pos⟩ := List.mem_filter.mp mem
    have is := h.ok.shelves k.press m q mem
    rw [show q = k.pos from of_decide_eq_true pos] at is
    exact is

theorem pullConfirm_at (ready : g.Ready) (h : At w c b g s) (press pos : Byte) :
    At w c b g (reqPullConfirm press pos s).1 := by
  unfold reqPullConfirm
  split
  · exact h
  next k _ =>
    have pulled := pullFold_at (k := k) ready (pullable s k) h (fun hw => (pullable_racked (h.place hw)).1)
      fun hw => (pullable_racked (h.place hw)).2
    dsimp only
    generalize (pullable s k).foldl (fun s n => depart n .retired (takePlate k n s)) s = v at pulled ⊢
    split
    · exact h
    · exact sorterLook_at pulled

/-- A position's mounted job retires, if it has one. -/
theorem retireMounted_at (ready : g.Ready) (h : At w c b g s) (k : PosKey) : At w c b g (retireMounted k s) := by
  unfold retireMounted
  split
  next n hn =>
    obtain ⟨x, hx, mounted⟩ := Option.bind_eq_some_iff.mp hn
    refine retire_at (n := n) ready (fun m => ?_) (h.deed (.unmount g s k x hx))
    rw [mounted, Option.some_inj]
    exact eq_comm
  next => exact h

/-- A position's former plate retires, if it had one. -/
theorem retireOld_at {old : Option Nat} (ready : g.Ready) (h : At w c b (g.pull fun m => old = some m) s) :
    At w c b g (forSome old (fun m => depart m .retired) s) := by
  cases old with
  | none =>
    refine h.same (Gaps.ext (fun i => ?_) (fun i => ?_) (fun _ => Iff.rfl) rfl (fun _ => Iff.rfl) (fun _ => Iff.rfl)
      (fun _ => Iff.rfl) fun _ => Iff.rfl)
    · exact ⟨fun x => x.resolve_right nofun, .inl⟩
    · exact ⟨fun x => x.resolve_right nofun, .inl⟩
  | some m =>
    unfold forSome
    dsimp only
    refine retire_at (n := m) ready (fun i => ?_) h
    rw [Option.some_inj]
    exact eq_comm

theorem mountPlate_at {x : Position} {j : Job} (ready : g.Ready) (h : At w c b g s) (hx : s.pos? k = some x)
    (hc : x.work.current = some n) (hj : s.job? n = some j) (hr : j.state = .racked) :
    At w c b g (mountPlate k n x.work.mounted s) := by
  have mounted := h.deed (.mount g s k x n j hx hc hj hr (ready.loose n))
  unfold mountsAt at mounted
  unfold mountPlate
  dsimp only
  generalize ((takePlate k n s).modJob n fun j => { j with state := .mounted }).modWork k (fun w => { w with mounted := some n }) =
    v at mounted ⊢
  have retired := retireOld_at ready mounted
  generalize forSome x.work.mounted (fun m => depart m .retired) v = u at retired ⊢
  exact sorterLook_at (retired.raised _)

theorem mount_at (ready : g.Ready) (h : At w c b g s) (press pos : Byte) : At w c b g (reqMount press pos s).1 := by
  unfold reqMount
  split
  · exact h
  · split
    · exact h
    next x hx =>
      split
      · exact h
      next n hn =>
        split
        next racked =>
          obtain ⟨j, hj, state⟩ := Option.map_eq_some_iff.mp racked
          dsimp only
          exact mountPlate_at ready h hx hn hj state
        next => exact h

theorem unmountPlate_at (ready : g.Ready) (h : At w c b g s) (k : PosKey) (n : Nat) : At w c b g (unmountPlate k n s) := by
  have retired := retireMounted_at ready h k
  unfold unmountPlate
  generalize retireMounted k s = v at retired ⊢
  exact sorterLook_at (retired.raised _)

theorem unmount_at (ready : g.Ready) (h : At w c b g s) (press pos : Byte) : At w c b g (reqUnmount press pos s).1 := by
  unfold reqUnmount
  split
  · exact h
  · split
    · exact h
    · split
      · exact h
      · dsimp only
        exact unmountPlate_at ready h _ _

/-! ### Starting and stopping (R142, R143) -/

theorem startPress_at (h : At w c b g s) (p : PressId) (force : Bool) : At w c b g (startPress p force s) :=
  (h.deed (.pressState g s p .running (.inl rfl))).raised _

theorem pressStart_at (h : At w c b g s) (press force : Byte) : At w c b g (reqPressStart press force s).1 := by
  unfold reqPressStart
  split
  · dsimp only
    split
    · exact h
    · exact h
    · split
      · exact startPress_at h _ _
      · exact h
    · exact startPress_at h _ _
  · exact h

theorem pressStop_at (h : At w c b g s) (press : Byte) : At w c b g (reqPressStop press s).1 := by
  unfold reqPressStop
  split
  · exact h
  next p _ =>
    split
    · have stopped := (h.deed (.pressState g s p _ (.inr rfl))).raised
        (.pressStopped p (stateOfCounts (s.press p).positions (s.press p).unsatisfied))
      unfold stopPress
      dsimp only
      split
      · exact stopped.raised _
      · exact stopped
    · exact h

/-! ### The clock, the schedule and the alarms (R145 to R148) -/

theorem Still.clock (x : Nat) (s : State) : Still s (s.setClock x) :=
  .of_eq rfl rfl rfl rfl rfl rfl rfl rfl rfl rfl rfl rfl

theorem setClock_at (h : At w c b g s) (time : U32) : At w c b g (reqSetClock time s).1 := (h.still (.clock _ s)).raised _

theorem schedulePress_at (h : At w c b g s) (p : PressId) (start : Option Nat) (lead : Nat) :
    At w c b g (schedulePress p start lead s) := by
  have set : At w c b g (s.modPress p fun x => { x with
      start := start, lead := lead, window := false, late := false, windowArmed := start.isSome, startArmed := start.isSome }) :=
    h.still (.press fun _ => ⟨rfl, rfl, rfl⟩)
  exact serve_at (set.raised _)

theorem schedule_at (h : At w c b g s) (press : Byte) (start : Option U32) (lead : U16) :
    At w c b g (reqSetPressSchedule press start lead s).1 := by
  unfold reqSetPressSchedule
  split
  · exact h
  · split
    · exact h
    · dsimp only
      exact schedulePress_at h _ _ _

theorem windowAlarm_at (ready : g.Ready) (h : At w c b g s) (p : PressId) : At w c b g (windowAlarm p s) := by
  have opened : At w c b g (s.modPress p fun y => { y with windowArmed := false, window := true }) :=
    h.still (.press fun _ => ⟨rfl, rfl, rfl⟩)
  have promoted := promoteAll_at opened p ready.doomed ready.loose ready.plates ready.behind
  unfold windowAlarm
  dsimp only
  generalize s.modPress p (fun y => { y with windowArmed := false, window := true }) = v at promoted ⊢
  generalize promoteAll p v = u at promoted ⊢
  split
  · exact h
  · split
    · exact promoted.raised _
    · exact h

theorem startAlarm_at (h : At w c b g s) (p : PressId) : At w c b g (startAlarm p s) := by
  have disarmed : At w c b g (s.modPress p fun y => { y with startArmed := false }) := h.still (.press fun _ => ⟨rfl, rfl, rfl⟩)
  unfold startAlarm
  dsimp only
  generalize s.modPress p (fun y => { y with startArmed := false }) = v at disarmed ⊢
  have late : At w c b g (v.modPress p fun y => { y with late := true }) := disarmed.still (.press fun _ => ⟨rfl, rfl, rfl⟩)
  split
  · exact h
  · split
    · split
      · exact disarmed
      · exact late.raised _
    · exact h

theorem alarmCheck_at (ready : g.Ready) (h : At w c b g s) : At w c b g (alarmCheck s) :=
  h.foldl_same _ fun _ p _ h => startAlarm_at (windowAlarm_at ready h p) p

theorem waitSpot_tick (x : Option WaitingCtx) : waitSpot (tickWaiting x) = waitSpot x := by
  cases x <;> rfl

theorem tickEngine_still (e : EngineId) (s : State) : Still s (tickEngine e s) := by
  refine .ctx ?_ (waitSpot_tick _) (waitSpot_tick _)
  rw [Option.map_map]
  rfl

theorem tickLane_still (l : LaneId) (s : State) : Still s (tickLane l s) := by
  unfold tickLane
  split
  · refine .floor ?_
    unfold orderSpots
    rw [List.map_map]
    rfl
  · exact .refl s

theorem tickTimers_still (s : State) : Still s (tickTimers s) := by
  have engines : Still s (allEngines.foldl (fun s e => tickEngine e s) s) := Still.foldl (fun s e => tickEngine_still e s) _ s
  unfold tickTimers
  dsimp only
  generalize allEngines.foldl (fun s e => tickEngine e s) s = v at engines ⊢
  have lanes : Still v (allLanes.foldl (fun s l => tickLane l s) v) := Still.foldl (fun s l => tickLane_still l s) _ v
  generalize allLanes.foldl (fun s l => tickLane l s) v = u at lanes ⊢
  exact (engines.trans lanes).trans (.restart _ _)

theorem clockTick_at (ready : g.Ready) (h : At w c b g s) : At w c b g (clockTick s) :=
  alarmCheck_at ready ((h.still (.clock _ s)).still (tickTimers_still _))

end Sys2Proof.Machine
end

section
/-! The line's requests, the resets and the ends of the clearing phases as chains of deeds (R151 to R172). -/

namespace Sys2Proof.Machine

open State

variable {w c : Prop} {b : Gaps × State} {g : Gaps} {s t : State} {n : Nat} {G : Nat → Prop}

/-! ### Holds, steps and policies (R152 to R156) -/

theorem setGates_still (u : UnitId) (held allowance : Bool) (s : State) : Still s (setGates u held allowance s) := by
  cases u with
  | engine e => exact .gates e (fun g => { g with held := held, allowance := allowance }) s
  | lane l => exact .lane (f := fun x => { x with gates := { x.gates with held := held, allowance := allowance } }) rfl rfl
  | sorter => exact .sorter (f := fun x => { x with held := held, allowance := allowance }) rfl

theorem unitOpened_at (ready : g.Ready) (h : At w c b g s) (u : UnitId) : At w c b g (unitOpened u s) := by
  cases u with
  | engine e => exact serve_at h
  | lane l => exact laneOpened_at ready h l
  | sorter => exact sorterLook_at h

theorem hold_at (h : At w c b g s) (unit : Byte) : At w c b g (reqHold unit s).1 := by
  unfold reqHold
  split
  · exact h
  · split
    · exact h
    · exact (h.still (setGates_still _ _ _ s)).raised _

theorem release_at (ready : g.Ready) (h : At w c b g s) (unit : Byte) : At w c b g (reqRelease unit s).1 := by
  unfold reqRelease
  split
  · exact h
  · split
    · exact unitOpened_at ready ((h.still (setGates_still _ _ _ s)).raised _) _
    · exact h

theorem step_at_unit (ready : g.Ready) (h : At w c b g s) (unit : Byte) : At w c b g (reqStep unit s).1 := by
  unfold reqStep
  split
  · exact h
  · split
    · exact unitOpened_at ready ((h.still (setGates_still _ _ _ s)).raised _) _
    · exact h

theorem Still.line (f : LineControl → LineControl) (s : State) : Still s (s.modLine f) :=
  .of_eq rfl rfl rfl rfl rfl rfl rfl rfl rfl rfl rfl rfl

theorem setStopPolicy_at (h : At w c b g s) (unit policy : Byte) : At w c b g (reqSetStopPolicy unit policy s).1 := by
  unfold reqSetStopPolicy
  split
  next u p _ _ =>
    split
    · exact h
    · refine h.still ?_
      cases u with
      | engine e => exact .line (fun x => { x with policies := vmod x.policies e fun _ => p }) s
      | lane l => exact .lane (f := fun x => { x with policy := p }) rfl rfl
      | sorter => exact .refl s
  · exact h

/-! ### Line stop and resume (R157, R161) -/

theorem cutCurrent_still (e : EngineId) (s : State) : Still s (cutCurrent e s) := by
  unfold cutCurrent
  split
  · exact .refl s
  next u hu =>
    refine Still.trans (t := s.modCtx e fun x => { x with current := some { u with cut := true } }) (.ctx ?_ rfl rfl) (.sent _ _)
    rw [hu]
    rfl

theorem cutNext_still (e : EngineId) (s : State) : Still s (cutNext e s) := by
  unfold cutNext
  split
  · exact .refl s
  next u hu =>
    split
    · refine Still.trans (t := s.modCtx e fun x => { x with next := some { u with cut := true } }) (.ctx rfl ?_ rfl) (.sent _ _)
      rw [hu]
      rfl
    · exact .refl s

theorem cutEngine_still (e : EngineId) (s : State) : Still s (cutEngine e s) := by
  unfold cutEngine
  split
  · exact (cutCurrent_still e s).trans (cutNext_still e _)
  · exact .refl s

theorem cutLane_still (l : LaneId) (s : State) : Still s (cutLane l s) := by
  unfold cutLane
  split
  · exact .laneStopped l s
  · exact .refl s

theorem engineStops_still (x : Bool) (s : State) : Still s (allEngines.foldl (fun s e => setEngineStop x e s) s) :=
  Still.foldl (fun s e => .gates e (fun g => { g with stopped := x }) s) _ s

theorem lineStop_still (s : State) : Still s (lineStop s) := by
  have marked : Still s (s.modLine fun x => { clearMarks x with state := .stopping, stopTime := s.clock }) := .line _ s
  unfold lineStop
  dsimp only
  generalize s.modLine (fun x => { clearMarks x with state := .stopping, stopTime := s.clock }) = s1 at marked ⊢
  have stopped := marked.trans (engineStops_still true s1)
  generalize allEngines.foldl (fun s e => setEngineStop true e s) s1 = s2 at stopped ⊢
  have cut : Still s2 (allEngines.foldl (fun s e => cutEngine e s) s2) := Still.foldl (fun s e => cutEngine_still e s) _ s2
  generalize allEngines.foldl (fun s e => cutEngine e s) s2 = s3 at cut ⊢
  have lanes : Still s3 (allLanes.foldl (fun s l => cutLane l s) s3) := Still.foldl (fun s l => cutLane_still l s) _ s3
  generalize allLanes.foldl (fun s l => cutLane l s) s3 = s4 at lanes ⊢
  exact (((stopped.trans cut).trans lanes).trans (.raised _ _)).trans (.reached _)

theorem lineStop_at (h : At w c b g s) : At w c b g (reqLineStop s).1 := by
  unfold reqLineStop
  split
  · dsimp only
    exact h.still (lineStop_still s)
  · exact h

theorem lineResumed_at (ready : g.Ready) (h : At w c b g s) : At w c b g (lineResume s) := by
  have marked : At w c b g (s.modLine fun x => { clearMarks x with state := .running }) := h.still (.line _ s)
  unfold lineResume
  dsimp only
  generalize s.modLine (fun x => { clearMarks x with state := .running }) = s1 at marked ⊢
  have lanes : Still s1 (allLanes.foldl (fun s l => unstopLane l s) s1) :=
    Still.foldl (fun s l => .lane (f := fun x => { x with gates := { x.gates with stopped := false } }) rfl rfl) _ s1
  have opened := marked.still lanes
  generalize allLanes.foldl (fun s l => unstopLane l s) s1 = s2 at opened ⊢
  have decided : At w c b g (allLanes.foldl (fun s l => decidePending l (s.lane l).inspections.length s) s2) :=
    opened.foldl_same _ fun s l _ h => decidePending_at ready _ h
  generalize allLanes.foldl (fun s l => decidePending l (s.lane l).inspections.length s) s2 = s3 at decided ⊢
  have looked := sorterLook_at decided
  generalize sorterLook s3 = s4 at looked ⊢
  have freed := looked.still (engineStops_still false s4)
  generalize allEngines.foldl (fun s e => setEngineStop false e s) s4 = s5 at freed ⊢
  exact (serve_at freed).raised _

theorem lineResume_at (ready : g.Ready) (h : At w c b g s) : At w c b g (reqLineResume s).1 := by
  unfold reqLineResume
  split
  · exact h
  · dsimp only
    exact lineResumed_at ready h

/-! ### The ends of clearing phases (R168, R171, R172) -/

/-- An UNCERTAIN job is settled. -/
theorem settle_at (h : At w c b (Gaps.closed.take G) s) (hu : w → ∃ j, s.job? n = some j ∧ j.state = .uncertain) :
    At w c b (Gaps.closed.take fun m => G m ∧ m ≠ n) (settle n s) := by
  have gap : (Gaps.closed.take G).settle n = Gaps.closed.take fun m => G m ∧ m ≠ n :=
    Gaps.take_settle (fun x => x) (fun x => x) fun _ => Iff.rfl
  unfold settle
  cases hj : s.job? n with
  | none =>
    refine h.blind (fun hw => ?_) _
    obtain ⟨j, hj', -⟩ := hu hw
    cases hj.symm.trans hj'
  | some j =>
    dsimp only
    have uncertain (hw : w) : j.state = .uncertain := by
      obtain ⟨i, hi, state⟩ := hu hw
      cases hj.symm.trans hi
      exact state
    have off (hw : w) : (spots s).Off n := ((h.place hw).ok.off_state hj (by simp [uncertain hw])).of_but
    split
    next superseded =>
      refine serve_at (At.still ?_ (.restart _ _))
      refine (depart_at h (.inr (.inr rfl)) hj off).same ?_
      rw [Gaps.ended_eq (g := Gaps.closed.take G) (fun x => x)]
      exact gap
    next unflagged =>
      refine serve_at (At.still ?_ (.restart _ _))
      have recorded := recordFault_at h n .plateNotFound (.lane (j.lane.getD 0))
      have found := recordFault_job .plateNotFound (.lane (j.lane.getD 0)) hj
      have off' (hw : w) : (spots (recordFault n .plateNotFound (.lane (j.lane.getD 0)) s)).Off n :=
        ((recorded.place hw).ok.off_state found (by simp [uncertain hw])).of_but
      unfold returnByFault returnByFaultBy
      dsimp only
      rw [found]
      dsimp only
      rw [if_neg unflagged, ← gap]
      exact requeue_at recorded found off' (.inl (by simpa using unflagged)) (fun hw => by simp [uncertain hw]) (fun _ x => x) _ _ _

theorem settleAll_at (l : List Nat) (h : At w c b (Gaps.closed.take G) s) (hd : w → l.Nodup)
    (hu : w → ∀ n ∈ l, ∃ j, s.job? n = some j ∧ j.state = .uncertain) :
    At w c b (Gaps.closed.take fun m => G m ∧ m ∉ l) (settleAll l s) := by
  induction l generalizing s G with
  | nil => exact h.same (Gaps.take_congr fun m => ⟨fun x => ⟨x, nofun⟩, And.left⟩)
  | cons n l ih =>
    have settled := settle_at (n := n) h fun hw => hu hw n (by simp)
    have chain : Settles (Eq n) NoLane s (settle n s) := settle_settles n h.tables.jobs rfl
    rw [settleAll_cons]
    generalize settle n s = v at settled chain ⊢
    refine (ih settled (fun hw => (List.nodup_cons.mp (hd hw)).2) fun hw m hm => ?_).same (Gaps.take_congr fun m => ?_)
    · have other : ¬ n = m := fun e => (List.nodup_cons.mp (hd hw)).1 (e ▸ hm)
      obtain ⟨j, hj, state⟩ := hu hw m (List.mem_cons_of_mem _ hm)
      obtain ⟨j', hj', stays, -⟩ := chain.job_stays other hj
      refine ⟨j', hj', ?_⟩
      rcases stays with e | ⟨e, -⟩
      · rw [e, state]
      · rw [e] at state
        cases state
    · rw [List.mem_cons, not_or, and_assoc]

/-- An UNCERTAIN job of a lane. -/
def UncertainOf (s : State) (l : LaneId) (n : Nat) : Prop := ∃ j, s.job? n = some j ∧ j.state = .uncertain ∧ j.lane = some l

/-- It was one before, as what does not concern it was done. -/
theorem UncertainOf.before {l : LaneId} (h : UncertainOf t l n) (r : Reacts NoJob s t) : UncertainOf s l n := by
  obtain ⟨j, hj, state, lane⟩ := h
  obtain ⟨i, hi, state'⟩ := (Reacts.kept r).uncertain n j hj state
  obtain ⟨j', hj', -, rest⟩ := r.job_stays not_false hi
  cases hj.symm.trans hj'
  refine ⟨i, hi, state', ?_⟩
  rw [← lane, rest]

/-- The phases of lanes end: their UNCERTAIN jobs stand open. -/
theorem reopenAll_at (lanes : List LaneId) (h : At w c b (Gaps.closed.take G) s) (s0 : State)
    (back : ∀ l n, UncertainOf s l n → UncertainOf s0 l n) (hG : ∀ n, G n → ∃ l, UncertainOf s0 l n)
    (every : List LaneId) (sub : ∀ l ∈ lanes, l ∈ every) (hG' : ∀ n, G n → ∃ l ∈ every, UncertainOf s0 l n) :
    ∃ G', At w c b (Gaps.closed.take G') (reopenAll lanes s) ∧ ∀ n, G' n → ∃ l ∈ every, UncertainOf s0 l n := by
  induction lanes generalizing s G with
  | nil => exact ⟨G, h, hG'⟩
  | cons l lanes ih =>
    have opened := h.deed (.reopen _ s l)
    rw [Gaps.take_take] at opened
    have served := serve_at opened
    have chain : Reacts NoJob (clearClearing l s) (serve (clearClearing l s)) := serve_reacts h.tables.jobs
    rw [reopenAll_cons]
    unfold reopenLane
    generalize serve (clearClearing l s) = v at served chain ⊢
    have held (n : Nat) (hn : G n ∨ ∃ j, s.job? n = some j ∧ j.state = .uncertain ∧ j.lane = some l) :
        ∃ l ∈ every, UncertainOf s0 l n := hn.elim (hG' n) fun here => ⟨l, sub l (by simp), back l n here⟩
    refine ih served (fun q n u => back q n ((u.before chain : UncertainOf (clearClearing l s) q n))) (fun n hn => ?_) (fun q hq => sub q (List.mem_cons_of_mem _ hq)) held
    obtain ⟨q, -, u⟩ := held n hn
    exact ⟨q, u⟩

theorem endPhases_at (lanes : List LaneId) (cause : EndCause) {jobs : List Nat} (h : At w c b Gaps.closed s) (hd : jobs.Nodup)
    (hu : ∀ n ∈ jobs, ∃ j, s.job? n = some j ∧ j.state = .uncertain) (all : ∀ l ∈ lanes, ∀ n, UncertainOf s l n → n ∈ jobs) :
    At w c b Gaps.closed (endPhases lanes cause jobs s) := by
  have parts : endPhases lanes cause jobs s =
      raiseAll (lanes.map fun l => .laneCleared l cause) (settleAll jobs (reopenAll lanes s)) := by
    unfold raiseAll
    rw [List.foldl_map]
    rfl
  have opens : Settles NoJob (fun l => l ∈ lanes) s (reopenAll lanes s) := reopenAll_settles lanes h.tables.jobs fun _ h => h
  obtain ⟨G, opened, open_⟩ := reopenAll_at (G := fun _ => False) lanes (h.same (Gaps.take_none fun _ => id).symm) s
    (fun _ _ => id) (fun _ => False.elim) lanes (fun _ => id) fun _ => False.elim
  rw [parts]
  generalize reopenAll lanes s = v at opens opened ⊢
  have settled := settleAll_at jobs opened (fun _ => hd) fun _ n hn => by
    obtain ⟨j, hj, state⟩ := hu n hn
    obtain ⟨j', hj', stays, -⟩ := opens.job_stays not_false hj
    refine ⟨j', hj', ?_⟩
    rcases stays with e | ⟨e, -⟩
    · rw [e, state]
    · rw [e] at state
      cases state
  have closed := settled.same (Gaps.take_none fun n ⟨hn, out⟩ => by
    obtain ⟨l, hl, u⟩ := open_ n hn
    exact out (all l hl n u))
  generalize settleAll jobs v = u at closed ⊢
  exact closed.still (.raisedAll _ u)

theorem endReconcile_at (h : At w c b g s) (cause : EndCause) : At w c b g (endReconcile cause s) := by
  unfold endReconcile
  split
  · exact (h.still (.restart _ s)).raised _
  · exact h

theorem acceptClear_at (h : At w c b Gaps.closed s) (l : LaneId) : At w c b Gaps.closed (acceptClear l s) := by
  have ended := endPhases_at [l] .complete (jobs := uncertainJobs s fun j => j.lane = some l) h (uncertainJobs_nodup h.tables.jobs)
    (fun n hn => by
      obtain ⟨j, hj, state, -⟩ := (mem_uncertainJobs h.tables.jobs n).mp hn
      exact ⟨j, hj, state⟩)
    (fun q hq n ⟨j, hj, state, lane⟩ => by
      rw [List.mem_singleton] at hq
      exact (mem_uncertainJobs h.tables.jobs n).mpr ⟨j, hj, state, by rw [lane, hq]; simp⟩)
  unfold acceptClear
  dsimp only
  generalize endPhases [l] .complete (uncertainJobs s fun j => j.lane = some l) s = v at ended ⊢
  split
  · exact endReconcile_at ended _
  · exact ended

theorem clear_at (h : At w c b Gaps.closed s) (l : LaneId) : At w c b Gaps.closed (clear l s) := by
  unfold clear
  split
  · split
    · exact acceptClear_at h l
    · exact h.raised _
  · exact h

theorem finishReconcile_at (h : At w c b Gaps.closed s) (cause : EndCause) : At w c b Gaps.closed (finishReconcile cause s) := by
  have ended := endPhases_at (allLanes.filter fun l => (s.lane l).clearing) cause (jobs := uncertainJobs s fun _ => true) h
    (uncertainJobs_nodup h.tables.jobs)
    (fun n hn => by
      obtain ⟨j, hj, state, -⟩ := (mem_uncertainJobs h.tables.jobs n).mp hn
      exact ⟨j, hj, state⟩)
    (fun q _ n ⟨j, hj, state, _⟩ => (mem_uncertainJobs h.tables.jobs n).mpr ⟨j, hj, state, rfl⟩)
  exact endReconcile_at ended cause

theorem reconcileEnd_at (h : At w c b Gaps.closed s) : At w c b Gaps.closed (reqReconcileEnd s).1 := by
  have finished := finishReconcile_at h .requested
  unfold reqReconcileEnd
  dsimp only
  generalize finishReconcile .requested s = v at finished ⊢
  split
  · exact finished
  · exact h

theorem reconcileExpiry_at (h : At w c b Gaps.closed s) : At w c b Gaps.closed (reconcileExpiry s) := by
  unfold reconcileExpiry
  split
  · exact finishReconcile_at h _
  · exact h

/-! ### Resets (R163 to R167) -/

/-- What the blocks' own records become at a reset. -/
theorem emptied_beforeJobs (kind : ResetKind) (s : State) : Emptied s (beforeJobs kind s) := by
  have engine (e : EngineId) : ((beforeJobs kind s).engine e).ctx = ⟨none, none, none, []⟩ := by
    simp [beforeJobs, State.engine]
  have lane (l : LaneId) : ((beforeJobs kind s).lane l).floor.order = [] ∧ ((beforeJobs kind s).lane l).clearing = true := by
    simp [beforeJobs, State.lane]
  refine ⟨rfl, rfl, ?_, rfl, rfl, rfl, fun _ => ⟨rfl, rfl, rfl⟩, fun l => (lane l).2, rfl, rfl⟩
  refine Spots.same (fun _ => rfl) (fun e => ?_) (fun e => ?_) (fun e => ?_) (fun l => ?_) rfl (fun _ => rfl) (fun _ => rfl) fun _ => rfl
  · exact congrArg (fun x : Contexts => x.current.map CurrentCtx.job) (engine e)
  · exact congrArg (fun x : Contexts => waitSpot x.next) (engine e)
  · exact congrArg (fun x : Contexts => waitSpot x.parked) (engine e)
  · exact congrArg orderSpots (lane l).1

/-- A live job at a reset. -/
theorem resetJob_at {j : Job} (hG : w → Spots.inWork j.state → G n) (h : At w c b (Gaps.closed.take G) s) (hj : s.job? n = some j)
    (clearing : ∀ l, (s.lane l).clearing = true) (rests : ¬ Spots.inWork j.state → ¬ G n) :
    At w c b (Gaps.closed.take fun m => G m ∧ m ≠ n) (resetJob n s) := by
  have gap : (Gaps.closed.take G).settle n = Gaps.closed.take fun m => G m ∧ m ≠ n :=
    Gaps.take_settle (fun x => x) (fun x => x) fun _ => Iff.rfl
  by_cases work : Spots.inWork j.state
  · have loose : w → (Gaps.closed.take G).loose n := fun hw => .inr (hG hw work)
    have off := h.taken_off loose
    rw [← gap]
    unfold resetJob
    rw [hj]
    dsimp only
    split
    · exact returnByFaultBy_at loose (fun x => x) (fun x => x) (fun _ x => x) (fun _ => serve_at) h _ _ (.inr (.inl rfl))
    next state => exact h.deed (.lose _ s n j hj state off clearing)
    next state =>
      split
      next superseded => exact departTaken_at loose (fun x => x) (fun _ => serve_at) h (.inr (.inr rfl)) hj
      next unflagged => exact h.deed (.strand _ s n j hj (.inl state) (by simpa using unflagged) off clearing fun _ x => x)
    next state =>
      split
      next superseded => exact departTaken_at loose (fun x => x) (fun _ => serve_at) h (.inr (.inr rfl)) hj
      next unflagged => exact h.deed (.strand _ s n j hj (.inr state) (by simpa using unflagged) off clearing fun _ x => x)
    · exact h.deed (.blind _ _ s fun hw => by
        obtain ⟨-, i, hi, queued, failed, plates⟩ := h.taken loose hw
        cases hj.symm.trans hi
        simp only [Spots.inWork, List.mem_cons, List.not_mem_nil, or_false] at work
        rcases work with e | e | e | e <;> simp_all)
  · rw [resetJob_rests hj work]
    exact h.same (Gaps.take_congr fun m => ⟨fun hm => ⟨hm, fun e => rests work (e ▸ hm)⟩, And.left⟩)

/-- The jobs that stand open after the reset of the blocks. -/
theorem resetJobs_at (b0 : State) (l : List Nat) (h : At w c b
      (Gaps.closed.take fun n => n ∈ l ∧ ∃ j, b0.job? n = some j ∧ Spots.inWork j.state) s) (idle : Idle s)
    (clearing : ∀ q, (s.lane q).clearing = true) (hd : l.Nodup) (live : ∀ n ∈ l, ∃ j, b0.job? n = some j ∧ s.job? n = some j) :
    At w c b Gaps.closed (l.foldl (fun s n => resetJob n s) s) := by
  induction l generalizing s with
  | nil => exact h.same (Gaps.take_none fun n hn => by simp at hn)
  | cons n l ih =>
    obtain ⟨j, hb, hj⟩ := live n (by simp)
    have same (i : Job) (hi : b0.job? n = some i) : i = j := Option.some_inj.mp (hi.symm.trans hb)
    have reset := resetJob_at (n := n) (fun _ work => ⟨by simp, j, hb, work⟩) h hj clearing
      fun rest ⟨_, i, hi, work⟩ => rest (same i hi ▸ work)
    have aside := resetJobs_aside [n] h.tables.jobs
    have kept (m : Nat) (i : Job) (ne : m ≠ n) (hi : s.job? m = some i) : (resetJob n s).job? m = some i :=
      resetJob_keeps h.tables.jobs idle ne hi
    rw [List.foldl_cons]
    simp only [List.foldl_cons, List.foldl_nil] at aside
    generalize resetJob n s = v at reset aside kept ⊢
    obtain ⟨out, nodup⟩ := List.nodup_cons.mp hd
    refine ih (reset.same (Gaps.take_congr fun m => ?_)) (idle.aside aside.1)
      (fun q => ((aside.1.lanes q).clearing).trans (clearing q)) nodup fun m hm => ?_
    · constructor
      · rintro ⟨⟨hm, i, hi, work⟩, ne⟩
        exact ⟨(List.mem_cons.mp hm).resolve_left ne, i, hi, work⟩
      · rintro ⟨hm, i, hi, work⟩
        exact ⟨⟨List.mem_cons_of_mem _ hm, i, hi, work⟩, fun e => out (e ▸ hm)⟩
    · obtain ⟨i, hi, hi'⟩ := live m (List.mem_cons_of_mem _ hm)
      exact ⟨i, hi, kept m i (fun e => out (e ▸ hm)) hi'⟩

theorem resetPart_at (kind : ResetKind) (h : At w c b Gaps.closed s) (house : w → Housed s) :
    At w c b Gaps.closed (resetPart kind s) := by
  have emptied := h.deed (.empty (emptied_beforeJobs kind s) house)
  have live (n : Nat) (hn : n ∈ s.jobs.map Prod.fst) : ∃ j, s.job? n = some j ∧ (beforeJobs kind s).job? n = some j := by
    obtain ⟨⟨m, j⟩, hm, rfl⟩ := List.mem_map.mp hn
    exact ⟨j, tget_of_mem h.tables.jobs hm, tget_of_mem h.tables.jobs hm⟩
  have jobs := resetJobs_at s (s.jobs.map Prod.fst) (emptied.same (Gaps.take_congr fun n => ?_)) (idle_before kind s)
    (fun q => (emptied_beforeJobs kind s).clearing q) (keys_ascend h.tables.jobs) live
  · rw [resetPart_eq]
    generalize (s.jobs.map Prod.fst).foldl (fun s n => resetJob n s) (beforeJobs kind s) = v at jobs ⊢
    have started : At w c b Gaps.closed (startReconcile kind v) := by
      unfold startReconcile
      exact jobs.still (.restart _ v)
    exact serve_at (started.still (.of_eq rfl rfl rfl rfl rfl rfl rfl rfl rfl rfl rfl rfl))
  · exact ⟨fun ⟨j, hj, work⟩ => ⟨List.mem_map.mpr ⟨(n, j), mem_of_tget hj, rfl⟩, j, hj, work⟩, And.right⟩

/-- Nothing but what the ports hold has changed. -/
theorem Same.still (h : Same s t) : Still s t := by
  rw [h]
  exact .of_eq rfl rfl rfl rfl rfl rfl rfl rfl rfl rfl rfl rfl

theorem Same.housed (h : Same s t) (house : Housed s) : Housed t := by
  rw [h]
  exact { house with }

theorem lineReset_at (p1 p2 : StrapPair) (h : At w c b Gaps.closed s) (house : w → Housed s) :
    At w c b Gaps.closed (lineReset p1 p2 s) :=
  resetPart_at .lineReset (h.still (loadAllStraps_same p1 p2 s).still) fun hw => (loadAllStraps_same p1 p2 s).housed (house hw)

theorem powerOn_at (p1 p2 : StrapPair) (h : At w c b Gaps.closed s) : At w c b Gaps.closed (powerOn p1 p2 s) :=
  (h.deed (.restart _ s)).still (loadAllStraps_same p1 p2 _).still

end Sys2Proof.Machine
end

section
/-! The register's commands as chains of deeds: separations that arrive, pages that are withdrawn. -/

namespace Sys2Proof.Machine

open State

variable {w c : Prop} {b : Gaps × State} {g : Gaps} {s t u : State} {n : Nat}

/-! ### Signals -/

/-- Positions have been signalled: they have been told, and no page leaves their current jobs behind. -/
def Gaps.signalled (g : Gaps) (ks : List PosKey) : Gaps :=
  { g with untold := fun k => g.untold k ∧ k ∉ ks, behind := fun k => g.behind k ∧ k ∉ ks }

theorem Gaps.signalled_nil : g.signalled [] = g :=
  ext (fun _ => Iff.rfl) (fun _ => Iff.rfl) (fun _ => Iff.rfl) rfl (fun _ => ⟨And.left, fun h => ⟨h, List.not_mem_nil⟩⟩)
    (fun _ => ⟨And.left, fun h => ⟨h, List.not_mem_nil⟩⟩) (fun _ => Iff.rfl) fun _ => Iff.rfl

theorem Gaps.signalled_cons (k : PosKey) (ks : List PosKey) : ((g.told k).caught k).signalled ks = g.signalled (k :: ks) := by
  have one (P : PosKey → Prop) (q : PosKey) : (P q ∧ q ≠ k) ∧ q ∉ ks ↔ P q ∧ q ∉ k :: ks := by
    rw [List.mem_cons, not_or, and_assoc]
  exact ext (fun _ => Iff.rfl) (fun _ => Iff.rfl) (fun _ => Iff.rfl) rfl (one _) (one _) (fun _ => Iff.rfl) fun _ => Iff.rfl

/-- After a signal to all the positions that it concerns nothing of it is left open. -/
theorem Gaps.signalled_all {M N : PosKey → Prop} {ks : List PosKey} (hM : ∀ k, M k → k ∈ ks) (hN : ∀ k, N k → k ∈ ks)
    (hg : ∀ k, ¬ g.untold k) (hb : ∀ k, ¬ g.behind k) : ((g.untell M).fallBehind N).signalled ks = g :=
  ext (fun _ => Iff.rfl) (fun _ => Iff.rfl) (fun _ => Iff.rfl) rfl
    (fun k => ⟨fun h => h.1.elim (fun e => absurd e (hg k)) fun e => absurd (hM k e) h.2, fun e => absurd e (hg k)⟩)
    (fun k => ⟨fun h => h.1.elim (fun e => absurd e (hb k)) fun e => absurd (hN k e) h.2, fun e => absurd e (hb k)⟩)
    (fun _ => Iff.rfl) fun _ => Iff.rfl

/-- A position's current job is superseded and its need met. -/
theorem revisedAt_at (h : At w c b g s) (k : PosKey) (hd : ∀ n, ¬ g.doomed n) (hl : ∀ n, ¬ g.loose n)
    (hp : ∀ n, ¬ g.plates n) : At w c b ((g.told k).caught k) (needAndServe k (supersedeAt k s)) := by
  have leaves := supersedeAt_leaves h k
  have twice : (g.told k).told k = g.told k := Gaps.told_eq fun e => e.2 rfl
  rcases supersedeAt_at h k hd hl hp with a | a
  · have caught := a.deed (.caught g _ k leaves)
    generalize supersedeAt k s = t at caught ⊢
    exact needAndServe_at caught k
  · have caught := a.deed (.caught _ _ k leaves)
    generalize supersedeAt k s = t at caught ⊢
    refine (needAndServe_at caught k).same ?_
    show ((g.told k).told k).caught k = (g.told k).caught k
    rw [twice]

/-- Signals to positions: some have their current jobs superseded, and each has its need tested. -/
theorem signal_at {f : State → PosKey → State} {P : PosKey → Prop} (ks : List PosKey) (hd : ∀ n, ¬ g.doomed n)
    (hl : ∀ n, ¬ g.loose n) (hp : ∀ n, ¬ g.plates n) (h : At w c b g s)
    (flags : ∀ u, Reacts AnyJob s u → ∀ k ∈ ks, P k → f u k = needAndServe k (supersedeAt k u))
    (tests : ∀ u, Reacts AnyJob s u → ∀ k ∈ ks, ¬ P k → f u k = needAndServe k u)
    (left : ∀ k ∈ ks, ¬ P k → ¬ g.behind k) : At w c b (g.signalled ks) (ks.foldl f s) := by
  suffices run : ∀ (l : List PosKey) (g : Gaps) (u : State), (∀ n, ¬ g.doomed n) → (∀ n, ¬ g.loose n) → (∀ n, ¬ g.plates n) →
      At w c b g u → Reacts AnyJob s u → (∀ k ∈ l, k ∈ ks) → (∀ k ∈ l, ¬ P k → ¬ g.behind k) →
      At w c b (g.signalled l) (l.foldl f u) from run ks g s hd hl hp h .refl (fun _ => id) left
  intro l
  induction l with
  | nil =>
    intro g u _ _ _ h _ _ _
    exact h.same Gaps.signalled_nil.symm
  | cons k l ih =>
    intro g u hd hl hp h chain sub left
    have hk := sub k (by simp)
    have step : At w c b ((g.told k).caught k) (f u k) ∧ Reacts AnyJob s (f u k) := by
      by_cases hP : P k
      · rw [flags u chain k hk hP]
        exact ⟨revisedAt_at h k hd hl hp, chain.trans (revised_reacts k h.tables.jobs)⟩
      · rw [tests u chain k hk hP]
        refine ⟨(needAndServe_at h k).same ?_, chain.trans (needAndServe_reacts k h.tables.jobs)⟩
        exact (Gaps.caught_eq (g := g.told k) (left k (by simp) hP)).symm
    obtain ⟨at_t, chain⟩ := step
    rw [List.foldl_cons]
    exact (ih ((g.told k).caught k) (f u k) hd hl hp at_t chain (fun q hq => sub q (List.mem_cons_of_mem k hq))
      fun q hq out e => left q (List.mem_cons_of_mem k hq) out e.1).same (Gaps.signalled_cons k l)

/-! ### Arrivals -/

section Arrival

variable {v old live : Nat} {cl : ColourClass} {x : Separation} {a : SepSet} {ref : U64} {r : PageRec}

theorem named_listed (o : Tables t) {k : PosKey} (same : t.plan = s.plan) (h : Names s n k) : k ∈ t.positionsNaming n := by
  obtain ⟨y, hy, named⟩ := h
  exact (mem_positionsNaming_iff o).mpr ⟨y, (pos?_of_plan same).trans hy, named⟩

theorem tellComplete_at (h : At w c b g s) (a : SepSet) : At w c b g (tellComplete n v cl a s) := by
  unfold tellComplete
  split
  · exact h.raised _
  · exact h

theorem plan_tellComplete (a : SepSet) (s : State) : (tellComplete n v cl a s).plan = s.plan := by
  unfold tellComplete
  split
  · exact plan_raise _ _
  · rfl

theorem addArrival_at (h : At w c b Gaps.closed s) (hl : live = ((s.page? n).map PageRec.liveJobs).getD 0)
    (finds : c → ArrivalFinds s n v cl x a live) (hm : cl = .mono → x = .k) :
    At w c b Gaps.closed (addArrival n v cl a x ref live s).1 := by
  have told := tellComplete_at (n := n) (v := v) (cl := cl) (h.deed (.arrive _ s n v cl x a live ref hl finds hm id)) (a.add x)
  have plan : (tellComplete n v cl (a.add x) (writeArrival n v cl a x ref live s)).plan = s.plan := plan_tellComplete _ _
  unfold addArrival
  dsimp only
  generalize tellComplete n v cl (a.add x) (writeArrival n v cl a x ref live s) = t at told plan
  have signalled := signal_at (f := fun s k => needAndServe k s) (P := fun _ => False) (t.positionsNaming n) (fun _ => id)
    (fun _ => id) (fun _ => id) told (fun _ _ _ _ => False.elim) (fun _ _ _ _ _ => rfl) fun _ _ _ => id
  refine signalled.same ?_
  have none : (Gaps.closed.untell (Names s n)).fallBehind (fun _ => False) = Gaps.closed.untell (Names s n) :=
    Gaps.ext (fun _ => Iff.rfl) (fun _ => Iff.rfl) (fun _ => Iff.rfl) rfl (fun _ => Iff.rfl) (fun _ => ⟨fun e => e.resolve_right id, .inl⟩)
      (fun _ => Iff.rfl) fun _ => Iff.rfl
  rw [← none]
  exact Gaps.signalled_all (fun k hk => named_listed told.tables plan hk) (fun _ => False.elim) (fun _ => id) fun _ => id

theorem revise_at (h : At w c b Gaps.closed s) (hr : s.page? n = some r) (hs : r.state ≠ .expected) (hv : r.version = some old)
    (hlt : old < v) (hm : cl = .mono → x = .k) : At w c b Gaps.closed (revise n old v cl x ref r.liveJobs s).1 := by
  have written := h.deed (.renew _ s n old v cl x r ref hr hs hv hlt hm id)
  have told := tellComplete_at (n := n) (v := v) (cl := cl) (written.raised (.pageRevised n old v cl)) (SepSet.empty.add x)
  have plan : (tellComplete n v cl (SepSet.empty.add x) (raise (.pageRevised n old v cl)
      (writeArrival n v cl SepSet.empty x ref r.liveJobs (clearAllCurrent n s)))).plan = s.plan := by
    rw [plan_tellComplete, plan_raise]
    have cleared : (clearAllCurrent n s).plan = s.plan := RegistersOnly.plan (.cleared n s)
    exact cleared
  unfold revise
  dsimp only
  generalize tellComplete n v cl (SepSet.empty.add x) (raise (.pageRevised n old v cl)
      (writeArrival n v cl SepSet.empty x ref r.liveJobs (clearAllCurrent n s))) = t at told plan
  have signalled := signal_at (f := fun s k => needAndServe k (supersedeAt k s)) (P := fun _ => True) (t.positionsNaming n)
    (fun _ => id) (fun _ => id) (fun _ => id) told (fun _ _ _ _ _ => rfl) (fun _ _ _ _ out => absurd trivial out)
    fun _ _ out => absurd trivial out
  refine signalled.same ?_
  have listed (k : PosKey) (hk : Names s n k) : k ∈ t.positionsNaming n := named_listed told.tables plan hk
  exact Gaps.signalled_all listed listed (fun _ => id) fun _ => id

/-- FAILED jobs that a replaced raster returns to their queues. -/
theorem returnReplaced_at (h : At w c b Gaps.closed s) (failed : ∀ j, s.job? n = some j → j.state = .failed) :
    At w c b Gaps.closed (returnReplaced n s) := by
  cases hj : s.job? n with
  | none =>
    unfold returnReplaced
    rw [hj]
    exact h
  | some j =>
    have is := failed j hj
    rw [returnReplaced_eq hj]
    have off (hw : w) : (spots s).Off n := (inPlace_closed.mp (h.place hw) |> (placed_iff s).mp).off_state hj (by simp [is])
    refine serve_at ((requeue_at h hj off (.inr is) (fun _ => by simp [is]) (fun _ => id) _ _ _).same ?_)
    exact Gaps.settle_eq id id

theorem replaceRaster_at (h : At w c b Gaps.closed s) (k : SlotKey) : At w c b Gaps.closed (replaceRaster k ref s).1 := by
  have written := (h.deed (.blot _ s k (fun x => { x with ref := ref, bad := false }) fun _ => ⟨rfl, rfl⟩)).raised
    (.rasterReplaced k)
  unfold replaceRaster
  dsimp only
  generalize raise (.rasterReplaced k) (s.modSlot k fun x => { x with ref := ref, bad := false }) = t at written
  have failed : ∀ n ∈ replacedJobs t k, ∃ j, t.job? n = some j ∧ j.state = .failed := fun n hn => by
    obtain ⟨j, -, hj, state, -⟩ := (mem_replacedJobs_iff written.tables.jobs k n).mp hn
    exact ⟨j, hj, state⟩
  have nodup := replacedJobs_nodup written.tables.jobs k
  generalize replacedJobs t k = l at failed nodup
  induction l generalizing t with
  | nil => exact written
  | cons m l ih =>
    obtain ⟨absent, nodup⟩ := List.nodup_cons.mp nodup
    have one : Reacts (fun k => k = m) t (returnReplaced m t) := returnReplaced_reacts m written.tables.jobs rfl
    obtain ⟨i, hi, state⟩ := failed m (by simp)
    have returned := returnReplaced_at (n := m) written fun j hj => by
      cases hi.symm.trans hj
      exact state
    rw [List.foldl_cons]
    refine ih _ returned (fun n hn => ?_) nodup
    obtain ⟨j, hj, state⟩ := failed n (List.mem_cons_of_mem m hn)
    obtain ⟨j', hj', stays⟩ := Reacts.job_stays one (fun e => absent (e ▸ hn)) hj
    refine ⟨j', hj', (stays.1.resolve_right fun e => ?_).trans state⟩
    rw [state] at e
    exact nomatch e.1

theorem arriveVersion_at (h : At w c b Gaps.closed s) (hr : s.page? n = some r) (hs : r.state = .partly ∨ r.state = .complete)
    (hv : r.version = some old) (hm : cl = .mono → x = .k) :
    At w c b Gaps.closed (arriveVersion n v old cl x ref r s).1 := by
  have known : r.state ≠ .expected := by rcases hs with e | e <;> rw [e] <;> decide
  unfold arriveVersion
  split
  · exact h
  · split
    next same =>
      split
      · exact h
      next cls =>
        split
        · split
          · exact replaceRaster_at h _
          · exact h
        next lacks =>
          split
          · exact h
          · refine addArrival_at h (by rw [hr]; rfl) (fun _ => ?_) hm
            exact .lacking r hr hs (same ▸ hv) (not_not.mp cls) (by simpa using lacks)
    next =>
      split
      · exact revise_at h hr known hv (by omega) hm
      · exact h

theorem arrive_at (h : At w c b Gaps.closed s) (filed : c → Filed s) (hm : cl = .mono → x = .k) :
    At w c b Gaps.closed (arrive n v cl x ref s).1 := by
  cases hr : s.page? n with
  | none =>
    unfold arrive
    rw [hr]
    dsimp only
    split
    · exact h
    next room =>
      split
      · exact h
      · refine addArrival_at h (by rw [hr]; rfl) (fun _ => .nothing hr ?_) hm
        by_contra full
        exact room ((freePages_eq_zero_iff s).mpr (not_lt.mp full))
  | some r =>
    have unknown (hs : r.state ≠ .expected) (hv : r.version = none) : At w c b Gaps.closed (arrive n v cl x ref s).1 := by
      have never (hc : c) : ArrivalFinds s n v cl x SepSet.empty r.liveJobs :=
        absurd hv (((filed hc).records n r hr).known hs).1
      have same : arrive n v cl x ref s =
          if freeSlots s = 0 then (s, bare .storeFull) else addArrival n v cl SepSet.empty x ref r.liveJobs s := by
        unfold arrive
        rw [hr]
        dsimp only
        rw [hv]
        cases hs : r.state <;> rfl
      rw [same]
      split
      · exact h
      · exact addArrival_at h (by rw [hr]; rfl) never hm
    cases hs : r.state with
    | expected =>
      unfold arrive
      rw [hr]
      dsimp only
      rw [hs]
      dsimp only
      split
      · exact h
      · exact addArrival_at h (by rw [hr]; rfl) (fun _ => .expected r hr hs) hm
    | partly | complete =>
      cases hv : r.version with
      | none => exact unknown (by simp [hs]) hv
      | some old =>
        rw [arrive_arrived hr (by simp [hs]) hv]
        exact arriveVersion_at h hr (by simp [hs]) hv hm
    | withdrawn =>
      cases hv : r.version with
      | none => exact unknown (by simp [hs]) hv
      | some old =>
        rw [arrive_withdrawn hr hs hv]
        split
        next hlt =>
          split
          · exact revise_at h hr (by simp [hs]) hv hlt hm
          · exact h
        next => exact h

theorem separationArrived_at (h : At w c b Gaps.closed s) (filed : c → Filed s) (page : U16) (version cls sep : Byte) :
    At w c b Gaps.closed (reqSeparationArrived page version cls sep ref s).1 := by
  unfold reqSeparationArrived
  split
  next cl x _ _ =>
    split
    · exact h
    · split
      · exact h
      · split
        · exact h
        next fits => exact arrive_at h filed fun mono => not_not.mp fun other => fits ⟨mono, other⟩
  · exact h

end Arrival

/-! ### Withdrawals -/

section Withdrawal

variable {r : PageRec}

/-- A page is being withdrawn. -/
def Gaps.withdrawing (n : Nat) : Gaps := { Gaps.closed with page := fun m => m = n }

theorem Gaps.withdrawing_ends (n : Nat) :
    { Gaps.withdrawing n with page := fun m => (Gaps.withdrawing n).page m ∧ m ≠ n } = Gaps.closed :=
  ext (fun _ => Iff.rfl) (fun _ => Iff.rfl) (fun _ => Iff.rfl) rfl (fun _ => Iff.rfl) (fun _ => Iff.rfl) (fun _ => Iff.rfl)
    fun _ => ⟨fun e => e.2 e.1, False.elim⟩

/-- A withdraw signal is a reaction. -/
theorem withdrawSignal_reacts (o : JobsOrdered u) (n : Nat) : Reacts AnyJob u (withdrawSignal n u) := by
  refine foldl_reacts _ _ o fun v hv k _ => ?_
  unfold withdrawAt
  dsimp only
  split
  · exact revised_reacts k hv
  · exact needAndServe_reacts k hv

theorem withdrawSignal_at (h : At w c b Gaps.closed s) (hr : s.page? n = some r) (hs : r.state ≠ .withdrawn) :
    At w c b (Gaps.withdrawing n) (withdrawSignal n (strippedAt n r s)) := by
  have stripped : At w c b { Gaps.closed.fallBehind (Requires s n) with page := fun m => False ∨ m = n } (strippedAt n r s) :=
    h.deed (.strip _ s n r hr hs)
  have record : (strippedAt n r s).page? n = some (strippedRecord r) := (strippedAt_page? n).trans (if_pos rfl)
  have same (k : PosKey) : (strippedAt n r s).pos? k = s.pos? k := pos?_of_plan strippedAt_registers.plan
  have required {k : PosKey} (hk : Requires s n k) : k ∈ (strippedAt n r s).positionsNaming n ∧ RequiresAt (strippedAt n r s) n k := by
    obtain ⟨x, hx, named, need⟩ := hk
    refine ⟨(mem_positionsNaming_iff stripped.tables).mpr ⟨x, (same k).trans hx, named⟩, x, (same k).trans hx, ?_⟩
    exact (needsPage_of_class hr record rfl _).trans need
  have signalled := signal_at (f := fun s k => withdrawAt n k s) (P := RequiresAt (strippedAt n r s) n)
    ((strippedAt n r s).positionsNaming n) (fun _ => id) (fun _ => id) (fun _ => id) stripped ?_ ?_ ?_
  · refine signalled.same ?_
    exact Gaps.ext (fun _ => Iff.rfl) (fun _ => Iff.rfl) (fun _ => Iff.rfl) rfl (fun _ => ⟨And.left, False.elim⟩)
      (fun k => ⟨fun e => e.1.elim id fun hk => e.2 (required hk).1, False.elim⟩) (fun _ => Iff.rfl)
      fun _ => ⟨fun e => e.resolve_left id, .inr⟩
  · rintro v chain k - ⟨x, hx, need⟩
    exact (withdrawAt_eq record hs chain hx).trans (if_pos need)
  · intro v chain k hk out
    obtain ⟨x, hx, -⟩ := (mem_positionsNaming_iff stripped.tables).mp hk
    exact (withdrawAt_eq record hs chain hx).trans (if_neg fun need => out ⟨x, hx, need⟩)
  · rintro k - out (e | hk)
    · exact e
    · exact out (required hk).2

theorem endWithdraw_at (h : At w c b (Gaps.withdrawing n) s) (hr : s.page? n = some r) :
    At w c b Gaps.closed (endWithdraw n r s).1 := by
  unfold endWithdraw
  split
  next zero =>
    have removed := h.deed (.remove _ s n r hr rfl zero)
    have plan : (removePage n r s).plan = s.plan := RegistersOnly.plan (.removed n r s)
    dsimp only
    generalize removePage n r s = t at removed plan
    refine serve_at ((tellAll_at removed (t.positionsNaming n)).same ?_)
    rw [Gaps.toldAll_eq]
    exact Gaps.ext (fun _ => Iff.rfl) (fun _ => Iff.rfl) (fun _ => Iff.rfl) rfl
      (fun k => ⟨fun e => e.1.elim id fun hk => e.2 (named_listed removed.tables plan hk), False.elim⟩) (fun _ => Iff.rfl)
      (fun _ => Iff.rfl) fun _ => ⟨fun e => e.2 e.1, False.elim⟩
  next live =>
    have written := h.deed (.withdraw _ s n r hr rfl live)
    exact (written.same (Gaps.withdrawing_ends n)).raised _

theorem withdraw_at (h : At w c b Gaps.closed s) (hr : s.page? n = some r) (hs : r.state ≠ .withdrawn) :
    At w c b Gaps.closed (withdraw n r s).1 := by
  have signalled := withdrawSignal_at h hr hs
  have tables : Tables (strippedAt n r s) := strippedAt_tables h.tables
  obtain ⟨m, hm⟩ := signalled_record (v := withdrawSignal n (strippedAt n r s)) hs
    (Reacts.kept (withdrawSignal_reacts tables.jobs n)).pages
  have ends : withdraw n r s = endWithdraw n { strippedRecord r with liveJobs := m } (withdrawSignal n (strippedAt n r s)) := by
    unfold withdraw
    dsimp only
    change (match (withdrawSignal n (strippedAt n r s)).page? n with
      | some r' => endWithdraw n r' (withdrawSignal n (strippedAt n r s))
      | none => (withdrawSignal n (strippedAt n r s), okWith [.enum 1, .count 0])) = _
    rw [hm]
  rw [ends]
  exact endWithdraw_at signalled hm

theorem withdrawPage_at (h : At w c b Gaps.closed s) (page : U16) : At w c b Gaps.closed (reqWithdrawPage page s).1 := by
  unfold reqWithdrawPage
  split
  · exact h
  · split
    · exact h
    next r hr =>
      split
      · exact h
      next standing => exact withdraw_at h hr standing

end Withdrawal

end Sys2Proof.Machine
end

section
/-! The plate book's commands as chains of deeds: staged plans, the commit, and the positions' holds and requeues. -/

namespace Sys2Proof.Machine

open State

variable {w c : Prop} {b : Gaps × State} {g : Gaps} {s t u : State} {k : PosKey}

/-! ### Staged plans -/

theorem editStage_at (h : At w c b g s) (pr : PressId) (p : PortId) {entries : Table PosId Content}
    (ordered : Tables s → Table.ordered Fin.val entries) : At w c b g (editStage pr p entries s) := by
  have staged := h.still (.staged (p := pr) (x := ⟨some p, entries⟩) ordered)
  unfold editStage
  dsimp only
  split
  · exact staged.raised _
  · exact staged

theorem stagePosition_at (h : At w c b g s) (p : PortId) (press pos format : Byte) (pageA : U16) (pageB : Option U16)
    (sep : Byte) : At w c b g (reqStagePosition p press pos format pageA pageB sep s).1 := by
  unfold reqStagePosition
  split
  · dsimp only
    split
    · exact h
    · exact editStage_at h _ p fun o => ordered_tput _ _ (o.stages _)
  · exact h

theorem clearStaged_at (h : At w c b g s) (p : PortId) (press pos : Byte) : At w c b g (reqClearStaged p press pos s).1 := by
  unfold reqClearStaged
  split
  · exact h
  · dsimp only
    split
    · exact h
    · split
      · exact editStage_at h _ p fun o => ordered_tdel _ (o.stages _)
      · exact h

theorem stageCopy_at (h : At w c b g s) (pr : PressId) : At w c b g (s.setStage pr (stageCopy s pr)) :=
  h.still (.staged (stageCopy_ordered s pr))

theorem discardStage_at (h : At w c b g s) (p : PortId) (press : Byte) : At w c b g (reqDiscardStage p press s).1 := by
  unfold reqDiscardStage
  split
  · exact h
  · split
    · exact h
    · split
      · exact stageCopy_at h _
      · split
        · exact (stageCopy_at h _).raised _
        · exact h

/-! ### The commit -/

/-- The plan of a press is being committed. -/
def Gaps.committing (p : PressId) : Gaps := { Gaps.closed with press := fun q => q = p }

theorem Gaps.ready_committing (p : PressId) : (Gaps.committing p).Ready :=
  ⟨fun _ => id, fun _ => id, fun _ => id, fun _ => id⟩

theorem Gaps.told_committing (p : PressId) (k : PosKey) : (Gaps.committing p).told k = Gaps.committing p := Gaps.told_eq id

theorem supersedeAt_committing {p : PressId} (h : At w c b (Gaps.committing p) s) (k : PosKey) :
    At w c b (Gaps.committing p) (supersedeAt k s) :=
  (supersedeAt_at h k (fun _ => id) (fun _ => id) fun _ => id).elim id fun a => a.same (Gaps.told_committing p k)

theorem needAndServe_committing {p : PressId} (h : At w c b (Gaps.committing p) s) (k : PosKey) :
    At w c b (Gaps.committing p) (needAndServe k s) := (needAndServe_at h k).same (Gaps.told_committing p k)

theorem commitChanged_at {p : PressId} (h : At w c b (Gaps.committing p) s) (hk : k.press = p) (edition : Nat) (con : Content) :
    At w c b (Gaps.committing p) (commitChanged k edition con s) := by
  have leaves := supersedeAt_leaves h k
  have superseded := supersedeAt_committing h k
  unfold commitChanged
  generalize supersedeAt k s = t at leaves superseded
  exact needAndServe_committing (superseded.deed (.content _ t k con edition leaves hk)) k

theorem commitAdded_at {p : PressId} (h : At w c b (Gaps.committing p) s) (hk : k.press = p) (none : s.pos? k = none)
    (edition : Nat) (con : Content) : At w c b (Gaps.committing p) (commitAdded k edition con s) :=
  needAndServe_committing (h.deed (.add _ s k (addedPosition s edition con) none ⟨rfl, rfl, rfl⟩ hk)) k

/-- A position that is not deferred has no current job once that is superseded, and is not deferred. -/
theorem supersedeAt_clears (h : At w c b g s) (hw : w) (hd : ∀ x, s.pos? k = some x → x.work.deferred = false) :
    ∀ y, (supersedeAt k s).pos? k = some y → y.work.current = none ∧ y.work.deferred = false := by
  unfold supersedeAt
  split
  next n hn =>
    obtain ⟨x, hx, current⟩ := Option.bind_eq_some_iff.mp hn
    refine fun y hy => supersede_leaves h.tables hx (fun none => ?_) (hd x hx) y hy
    obtain ⟨i, hi, -⟩ := h.own hw hx current
    cases none.symm.trans hi
  next hn =>
    intro y hy
    rw [hy] at hn
    exact ⟨hn, hd y hy⟩

/-- Retiring the mounted job of a position leaves it none. -/
theorem retireMounted_mounted (o : JobsOrdered s) : ∀ y, (retireMounted k s).pos? k = some y → y.work.mounted = none := by
  unfold retireMounted
  split
  next n hn =>
    obtain ⟨x, hx, mounted⟩ := Option.bind_eq_some_iff.mp hn
    have cleared : (s.modWork k fun w => { w with mounted := none }).pos? k =
        some { x with work := { x.work with mounted := none } } := by
      rw [pos?_modWork, if_pos rfl, hx, Option.map_some]
    have kept := (Reacts.kept (depart_reacts (D := AnyJob) n .retired (s := s.modWork k fun w => { w with mounted := none }) o)).positions k
    intro y hy
    obtain ⟨z, hz, -, -, -, same⟩ := kept.2 _ cleared
    cases hy.symm.trans hz
    exact same
  next none =>
    intro y hy
    rw [hy] at none
    exact none

/-- A position that has no current job and is not deferred has none once its mounted job has retired. -/
theorem retireMounted_current (o : Tables s)
    (h : ∀ x, s.pos? k = some x → x.work.current = none ∧ x.work.deferred = false) :
    ∀ y, (retireMounted k s).pos? k = some y → y.work.current = none := by
  unfold retireMounted
  split
  next n hn =>
    obtain ⟨x, hx, mounted⟩ := Option.bind_eq_some_iff.mp hn
    obtain ⟨current, deferred⟩ := h x hx
    have cleared : (s.modWork k fun w => { w with mounted := none }).pos? k =
        some { x with work := { x.work with mounted := none } } := by
      rw [pos?_modWork, if_pos rfl, hx, Option.map_some]
    have o' := o.modWork k fun w => { w with mounted := none }
    intro y hy
    obtain ⟨b, hb⟩ := depart_standsAs (terminal := .retired) o'.jobs o'.plan cleared (by rw [current]; exact nofun) deferred (by decide) _ cleared
    cases hy.symm.trans hb
    exact current
  next => exact fun y hy => (h y hy).1

theorem commitRemoved_at {p : PressId} (h : At w c b (Gaps.committing p) s) (hk : k.press = p) :
    At w c b (Gaps.committing p) (commitRemoved k s) := by
  have cleared := h.deed (.defer _ s k false nofun)
  have undeferred (x : Position) (hx : (s.modWork k fun w => { w with deferred := false }).pos? k = some x) :
      x.work.deferred = false := by
    rw [pos?_modWork, if_pos rfl] at hx
    obtain ⟨y, -, rfl⟩ := Option.map_eq_some_iff.mp hx
    rfl
  unfold commitRemoved
  dsimp only
  generalize s.modWork k (fun w => { w with deferred := false }) = t at cleared undeferred
  have clears (hw : w) := supersedeAt_clears cleared hw undeferred
  have superseded := supersedeAt_committing cleared k
  generalize supersedeAt k t = u at clears superseded
  exact (retireMounted_at (Gaps.ready_committing p) superseded k).deed (.drop _ _ k (retireMounted_mounted superseded.tables.jobs)
    (fun hw _ => retireMounted_current superseded.tables (clears hw)) hk)

theorem commitOne_at {p : PressId} {a : State × CommitCounts} (h : At w c b (Gaps.committing p) a.1) (hk : k.press = p)
    (edition : Nat) (staged : Option Content) :
    At w c b (Gaps.committing p) (commitOne k edition (commitOutcome (liveContent a.1 k) staged) a).1 := by
  cases hx : a.1.pos? k with
  | none =>
    cases staged with
    | none =>
      unfold liveContent
      rw [hx]
      exact h
    | some con =>
      unfold liveContent
      rw [hx]
      dsimp only [Option.map_none, commitOutcome, commitOne]
      exact commitAdded_at h hk hx edition con
  | some x =>
    cases staged with
    | none =>
      unfold liveContent
      rw [hx]
      dsimp only [Option.map_some, commitOutcome, commitOne]
      exact commitRemoved_at h hk
    | some con =>
      unfold liveContent
      rw [hx]
      dsimp only [Option.map_some, commitOutcome]
      split
      · exact h
      · dsimp only [commitOne]
        exact commitChanged_at h hk edition con

theorem commitPass_at {p : PressId} {a : State × CommitCounts} (h : At w c b (Gaps.committing p) a.1) (edition : Nat)
    (staged : Table PosId Content) : At w c b (Gaps.committing p) (commitPass p edition staged a).1 := by
  unfold commitPass
  generalize allPositions = qs
  induction qs generalizing a with
  | nil => exact h
  | cons q qs ih => exact ih (commitOne_at h rfl edition (tget staged q))

theorem commitEnd_at {p : PressId} {a : State × CommitCounts} (h : At w c b (Gaps.committing p) a.1) (q : PortId)
    (edition : Nat) : At w c b Gaps.closed (commitEnd q p edition a).1 := by
  have dated := h.still (.press (p := p) (f := fun x => { x with edition := some edition, window := false, late := false })
    fun _ => ⟨rfl, rfl, rfl⟩)
  have closed : { Gaps.committing p with press := fun q => (Gaps.committing p).press q ∧ q ≠ p } = Gaps.closed :=
    Gaps.ext (fun _ => Iff.rfl) (fun _ => Iff.rfl) (fun _ => Iff.rfl) rfl (fun _ => Iff.rfl) (fun _ => Iff.rfl)
      (fun _ => ⟨fun e => e.2 e.1, False.elim⟩) fun _ => Iff.rfl
  unfold commitEnd
  dsimp only
  generalize a.1.modPress p (fun x => { x with edition := some edition, window := false, late := false }) = t at dated
  exact (((stageCopy_at dated p).deed (.recount _ _ p)).same closed).raised _

/-- The pages that a plan names first: each is new once. -/
theorem newPageIds_nodup (s : State) (x : Stage) : (newPageIds s x).Nodup := by
  unfold newPageIds
  generalize (x.entries.map fun e => e.2.pages).flatten.filter (fun n => !thas s.pages n) = l
  induction hl : l.length using Nat.strong_induction_on generalizing l with
  | _ m ih =>
    cases l with
    | nil => exact List.nodup_nil
    | cons a l =>
      rw [List.eraseDups_cons, List.nodup_cons]
      refine ⟨fun mem => ?_, ih _ ?_ _ rfl⟩
      · have other := List.mem_filter.mp (List.mem_eraseDups.mp mem)
        simp at other
      · have shorter := List.length_filter_le (fun b => !b == a) l
        rw [← hl, List.length_cons]
        omega

theorem newPageIds_new {n : Nat} {x : Stage} (h : n ∈ newPageIds s x) : s.page? n = none := by
  have new := (List.mem_filter.mp (List.mem_eraseDups.mp h)).2
  simpa [thas, State.page?] using new

theorem putExpected_at (l : List Nat) (h : At w c b g s) (distinct : l.Nodup) (new : ∀ n ∈ l, s.page? n = none) :
    At w c b g (l.foldl (fun s n => s.putPage n expectedPage) s) := by
  induction l generalizing s with
  | nil => exact h
  | cons n l ih =>
    obtain ⟨absent, distinct⟩ := List.nodup_cons.mp distinct
    refine ih (h.deed (.expect g s n (new n (by simp)))) distinct fun m hm => ?_
    rw [page?_putPage, if_neg (ne_of_mem_of_not_mem hm absent)]
    exact new m (List.mem_cons_of_mem n hm)

theorem commitPlan_at (h : At w c b Gaps.closed s) (p : PortId) (press edition : Byte) :
    At w c b Gaps.closed (reqCommitPlan p press edition s).1 := by
  unfold reqCommitPlan
  split
  · exact h
  next pr _ =>
    split
    · exact h
    · split
      · exact h
      · split
        · exact h
        · split
          · exact h
          · have expected := putExpected_at _ h (newPageIds_nodup s (s.stage pr)) fun n => newPageIds_new
            have opened := expected.deed (.commit _ _ pr)
            unfold commit
            dsimp only
            generalize (newPageIds s (s.stage pr)).foldl (fun s n => s.putPage n expectedPage) s = t at opened
            have committing : { Gaps.closed with press := fun q => Gaps.closed.press q ∨ q = pr } = Gaps.committing pr :=
              Gaps.ext (fun _ => Iff.rfl) (fun _ => Iff.rfl) (fun _ => Iff.rfl) rfl (fun _ => Iff.rfl) (fun _ => Iff.rfl)
                (fun _ => ⟨fun e => e.resolve_left id, .inr⟩) fun _ => Iff.rfl
            exact commitEnd_at (commitPass_at (a := (t, _)) (opened.same committing) _ _) p _

/-! ### Positions -/

theorem holdPosition_at (h : At w c b g s) (press pos : Byte) : At w c b g (reqHoldPosition press pos s).1 := by
  unfold reqHoldPosition
  split
  · exact h
  next k _ =>
    split
    · exact h
    · split
      · exact h
      · exact (h.deed (.hold g s k true)).raised _

theorem releasePosition_at (h : At w c b g s) (press pos : Byte) : At w c b g (reqReleasePosition press pos s).1 := by
  unfold reqReleasePosition
  split
  · exact h
  next k _ =>
    split
    · exact h
    · split
      · dsimp only
        exact serve_at ((h.deed (.hold g s k false)).raised _)
      · exact h

theorem requeuePosition_at (h : At w c b Gaps.closed s) (press pos : Byte) :
    At w c b Gaps.closed (reqRequeuePosition press pos s).1 := by
  unfold reqRequeuePosition
  split
  · exact h
  next k _ =>
    split
    · exact h
    · split
      · dsimp only
        exact serve_at ((tellSatisfied_at (needTest_at h k) k).same (Gaps.told_eq id))
      · split
        · exact h
        next n _ _ j hj =>
          split
          next failed =>
            dsimp only
            have off (hw : w) : (spots s).Off n :=
              (inPlace_closed.mp (h.place hw) |> (placed_iff s).mp).off_state hj (by simp [failed])
            exact serve_at ((requeue_at h hj off (.inr failed) (fun _ => by simp [failed]) (fun _ => id) 1 _ _).same
              (Gaps.settle_eq id id))
          · exact h

end Sys2Proof.Machine
end

section
/-! Every step is a chain of deeds. -/

namespace Sys2Proof.Machine

open State

variable {w c : Prop} {b : Gaps × State} {s t : State}

/-! ### Requests -/

/-- The register and the raster table stay as they are. -/
theorem Filed.of_eq (h : Filed s) (pages : t.pages = s.pages) (slots : t.slots = s.slots) : Filed t := by
  have page (n : Nat) : t.page? n = s.page? n := by unfold State.page?; rw [pages]
  have slot (k : SlotKey) : t.slot? k = s.slot? k := by unfold State.slot?; rw [slots]
  refine ⟨fun n r hr => h.records n r ((page n).symm.trans hr), fun k o ho => ?_, fun k o ho => ?_, fun n r v x hr => ?_⟩
  · rw [page]
    exact h.slots k o ((slot k).symm.trans ho)
  · rw [page]
    exact h.current k o ((slot k).symm.trans ho)
  · rw [slot]
    exact h.arrived n r v x ((page n).symm.trans hr)

theorem setRights_at (h : At w c b Gaps.closed s) (p : PortId) (target rights : Byte) :
    At w c b Gaps.closed (reqSetRights p target rights s).1 := by
  unfold reqSetRights
  split
  next q r _ _ =>
    have set : Still s (s.setRights q r) := .of_eq rfl rfl rfl rfl rfl rfl rfl rfl rfl rfl rfl rfl
    split
    · exact (h.still set).raised _
    · exact h
  · exact h

theorem setLimit_still (x : LimitName) (l : LaneId) (v : Nat) (s : State) : Still s (setLimit x l v s) := by
  cases x with
  | transit => exact .lane rfl rfl
  | _ => exact .of_eq rfl rfl rfl rfl rfl rfl rfl rfl rfl rfl rfl rfl

theorem setLimits_at (h : At w c b Gaps.closed s) (limit : Byte) (value : U16) (lane : Option Byte) :
    At w c b Gaps.closed (reqSetLimits limit value lane s).1 := by
  unfold reqSetLimits
  split
  · exact h
  · split
    · exact h
    · split
      · exact (h.still (setLimit_still _ _ _ s)).raised _
      · exact h

/-- Every request that an owning block takes is a chain of deeds. -/
theorem applyRequest_at (h : At w c b Gaps.closed s) (filed : c → Filed s) (p : PortId) (r : Request) :
    At w c b Gaps.closed (applyRequest p r s).1 := by
  cases r with
  | separationArrived page v cl x ref => exact separationArrived_at h filed page v cl x
  | withdrawPage page => exact withdrawPage_at h page
  | stagePosition pr q f a b x => exact stagePosition_at h p pr q f a b x
  | clearStagedPosition pr q => exact clearStaged_at h p pr q
  | discardStage pr => exact discardStage_at h p pr
  | commitPlan pr e => exact commitPlan_at h p pr e
  | holdPosition pr q => exact holdPosition_at h pr q
  | releasePosition pr q => exact releasePosition_at h pr q
  | requeuePosition pr q => exact requeuePosition_at h pr q
  | clearEngineFault e => exact clearEngineFault_at h e
  | restoreEngine e => exact restoreEngine_at h e
  | rearmRegister e => exact rearmRegister_at h e
  | pullConfirm pr q => exact pullConfirm_at Gaps.ready_closed h pr q
  | mount pr q => exact mount_at Gaps.ready_closed h pr q
  | unmount pr q => exact unmount_at Gaps.ready_closed h pr q
  | pressStart pr f => exact pressStart_at h pr f
  | pressStop pr => exact pressStop_at h pr
  | setClock x => exact setClock_at h x
  | setPressSchedule pr x l => exact schedule_at h pr x l
  | hold u => exact hold_at h u
  | release u => exact release_at Gaps.ready_closed h u
  | step u => exact step_at_unit Gaps.ready_closed h u
  | setStopPolicy u x => exact setStopPolicy_at h u x
  | lineStop => exact lineStop_at h
  | lineResume => exact lineResume_at Gaps.ready_closed h
  | reconcileEnd => exact reconcileEnd_at h
  | softReset => exact h
  | setRights q x => exact setRights_at h p q x
  | setNoticeMask x => exact h.still (.of_eq rfl rfl rfl rfl rfl rfl rfl rfl rfl rfl rfl rfl)
  | setLimits l v ln => exact setLimits_at h l v ln
  | queryPage | queryPosition | queryJob | queryEngine | queryLane | queryPress | queryPart => exact h

theorem decideRequest_at (h : At w c b Gaps.closed s) (filed : c → Filed s) (p : PortId) (r : Received) :
    At w c b Gaps.closed (decideRequest p r s).1 := by
  unfold decideRequest
  split
  · exact h
  · split <;> exact h
  · split
    · exact applyRequest_at h filed p _
    · exact h

/-! ### The desk ports -/

theorem link_at (h : At w c b Gaps.closed s) (p : PortId) (f : Link → Link) : At w c b Gaps.closed (s.modLink p f) :=
  h.still (.link p f s)

theorem takeRequest_at (h : At w c b Gaps.closed s) (filed : c → Filed s) (p : PortId) (r : Received) :
    At w c b Gaps.closed (takeRequest p r s) :=
  link_at (decideRequest_at (link_at h p _) (fun hc => (filed hc).of_eq rfl rfl) p r) p _

theorem takeNext_at (h : At w c b Gaps.closed s) (filed : c → Filed s) (p : PortId) : At w c b Gaps.closed (takeNext p s) := by
  unfold takeNext
  dsimp only
  split
  · split
    · exact h
    · exact takeRequest_at (link_at h p _) (fun hc => (filed hc).of_eq rfl rfl) p _
  · exact h

theorem receive_at (h : At w c b Gaps.closed s) (filed : c → Filed s) (p : PortId) (r : Received) :
    At w c b Gaps.closed (receive p r s) := by
  unfold receive
  split
  · exact takeNext_at (link_at h p _) (fun hc => (filed hc).of_eq rfl rfl) p
  · exact link_at h p _

theorem frameReceived_at (h : At w c b Gaps.closed s) (filed : c → Filed s) (p : PortId) (f : Frame) :
    At w c b Gaps.closed (frameReceived p f s) := by
  unfold frameReceived setReceiver badFrame
  dsimp only
  split
  · exact link_at (link_at h p _) p _
  · exact receive_at (link_at h p _) (fun hc => (filed hc).of_eq rfl rfl) p _

theorem deskLinkByte_at (h : At w c b Gaps.closed s) (filed : c → Filed s) (p : PortId) (x : Byte) :
    At w c b Gaps.closed (deskLinkByte p x s) := by
  unfold deskLinkByte setReceiver badFrame
  dsimp only
  split
  · split
    · exact link_at h p _
    · exact h
  · split
    · exact link_at (link_at h p _) p _
    · split
      · exact frameReceived_at h filed p _
      · exact link_at h p _

theorem frameSent_at (h : At w c b Gaps.closed s) (filed : c → Filed s) (p : PortId) : At w c b Gaps.closed (frameSent p s) := by
  unfold frameSent
  dsimp only
  split
  · exact h
  next f _ =>
    have logged : Still s ((s.modLink p Link.sent).logDesk p f) := .of_eq rfl rfl rfl rfl rfl rfl rfl rfl rfl rfl rfl rfl
    have cleared := link_at (h.still logged) p fun l => { l with inHand := none }
    have kept : ∀ u : State, u.pages = s.pages → u.slots = s.slots → c → Filed u := fun u pages slots hc =>
      (filed hc).of_eq pages slots
    have pages : (((s.modLink p Link.sent).logDesk p f).modLink p fun l => { l with inHand := none }).pages = s.pages := rfl
    have slots : (((s.modLink p Link.sent).logDesk p f).modLink p fun l => { l with inHand := none }).slots = s.slots := rfl
    split
    · generalize (((s.modLink p Link.sent).logDesk p f).modLink p fun l => { l with inHand := none }) = v at cleared pages slots
      split
      · have due : Still v (v.setSoftDue true) := .of_eq rfl rfl rfl rfl rfl rfl rfl rfl rfl rfl rfl rfl
        exact takeNext_at (cleared.still due) (kept _ pages slots) p
      · exact takeNext_at cleared (kept v pages slots) p
    · exact h.still logged

/-! ### Commands -/

/-- Every command is a chain of deeds. -/
theorem exec_at (h : At w c b Gaps.closed s) (house : w → Housed s) (filed : c → Filed s) (i : Instr)
    (e : exec i s = .next t) : At w c b Gaps.closed t := by
  have key {u : State} (a : At w c b Gaps.closed u) (e : (Host.Outcome.next u : Host.Outcome State Fault Refusal) = .next t) :
      At w c b Gaps.closed t := by
    cases e
    exact a
  have ready := Gaps.ready_closed
  cases i with
  | powerOn p1 p2 => exact key (powerOn_at p1 p2 h) e
  | lineReset p1 p2 => exact key (lineReset_at p1 p2 h house) e
  | softResetTaken => exact key (resetPart_at .softReset h house) e
  | frameReceived p f => exact key (frameReceived_at h filed p f) e
  | interByteGapExpiry p => exact key (link_at h p fun l => { l with rx := .hunting }) e
  | frameSent p => exact key (frameSent_at h filed p) e
  | requestKindUnknown p x k => exact key (receive_at h filed p _) e
  | hello q => exact key (hello_at ready h q) e
  | cassetteLoaded q f n => exact key (cassetteLoaded_at ready h q f n) e
  | loaded q j a => exact key (loaded_at ready h q _ _) e
  | loadFault q j a x => exact key (loadFault_at ready h q _ _ x) e
  | exposeStarted q j a => exact key (exposeStarted_at ready h q _ _) e
  | exposeDone q j a => exact key (exposeDone_at ready h q _ _) e
  | exposeFault q j a x => exact key (exposeFault_at ready h q _ _ x) e
  | discarded q j a => exact key (discarded_at ready h q _ _) e
  | engineLinkLoss q => exact key (engineLinkLoss_at ready h q) e
  | loadTimerExpiry q x => exact key (loadTimerExpiry_at ready h q x) e
  | exposeTimerExpiry q => exact key (exposeTimerExpiry_at ready h q) e
  | atInspect l r => exact key (atInspect_at ready h l r) e
  | punchedBent l j a => exact key (punchedBent_at h l _ _) e
  | punchFault l j a => exact key (punchFault_at ready h l _ _) e
  | atExit l j a => exact key (atExit_at ready h l _ _) e
  | transitTimerExpiry l j => exact key (transitExpiry_at ready h l _) e
  | laneLinkLoss l => exact key (laneLinkLoss_at h l) e
  | laneRestoration l => exact key (laneRestoration_at ready h l) e
  | sorted j a d => exact key (sorted_at h _ _ d) e
  | sortFault j a => exact key (sortFault_at h _ _) e
  | sorterLinkLoss => exact key (sorterLinkLoss_at h) e
  | sorterRestoration => exact key (sorterRestoration_at h) e
  | clockTick => exact key (clockTick_at ready h) e
  | windowAlarm p => exact key (windowAlarm_at ready h p) e
  | startAlarm p => exact key (startAlarm_at h p) e
  | clear l => exact key (clear_at h l) e
  | reconcileTimerExpiry => exact key (reconcileExpiry_at h) e
  | deskLinkByte p x => exact key (deskLinkByte_at h filed p x) e
  | _ => exact key (receive_at h filed _ _) e

/-- Every step is a chain of deeds that leaves nothing open. -/
theorem step_at (o : Tables s) (placed : w → Placed s) (house : w → Housed s) (undeferred : c → Undeferred s)
    (filed : c → Filed s) (h : step s = .next t) : At w c (Gaps.closed, s) Gaps.closed t := by
  have start : At w c (Gaps.closed, s) Gaps.closed s := .start o placed undeferred
  unfold step at h
  split at h
  next =>
    cases h
    exact start
  next i rest _ =>
    refine exec_at (s := { s with pending := rest }) (start.still (.of_eq rfl rfl rfl rfl rfl rfl rfl rfl rfl rfl rfl rfl)) (fun hw => ?_)
      (fun hc => (filed hc).of_eq rfl rfl) i h
    exact { house hw with }

end Sys2Proof.Machine
end

section
/-! Every deed keeps the entry orders apart (R56). -/

namespace Sys2Proof.Machine

open State

variable {w c : Prop} {b : Gaps × State} {g g' : Gaps} {s t u : State} {n : Nat}

/-! ### Writes of the jobs -/

/-- The jobs that are there were there before, in the entry orders that they have. -/
structure OrdersKept (s t : State) : Prop where
  count : s.entryCount ≤ t.entryCount
  jobs : ∀ n j, t.job? n = some j → ∃ i, s.job? n = some i ∧ j.entryOrder = i.entryOrder

namespace OrdersKept

theorem of_eq (jobs : t.jobs = s.jobs) (entries : t.entryCount = s.entryCount) : OrdersKept s t :=
  ⟨entries.ge, fun n j hj => ⟨j, (congrArg (tget · n) jobs).symm.trans hj, rfl⟩⟩

theorem trans (h : OrdersKept s t) (k : OrdersKept t u) : OrdersKept s u := by
  refine ⟨h.count.trans k.count, fun n j hj => ?_⟩
  obtain ⟨i, hi, same⟩ := k.jobs n j hj
  obtain ⟨i', hi', same'⟩ := h.jobs n i hi
  exact ⟨i', hi', same.trans same'⟩

/-- A job is written, but not its entry order. -/
theorem of_modJob {f : Job → Job} (jobs : t.jobs = (s.modJob n f).jobs) (entries : t.entryCount = s.entryCount)
    (h : ∀ j, (f j).entryOrder = j.entryOrder) : OrdersKept s t := by
  refine ⟨entries.ge, fun m j hj => ?_⟩
  have written : (s.modJob n f).job? m = some j := (congrArg (tget · m) jobs).symm.trans hj
  rw [job?_modJob] at written
  split at written
  · obtain ⟨i, hi, rfl⟩ := Option.map_eq_some_iff.mp written
    exact ⟨i, hi, h i⟩
  · exact ⟨j, written, rfl⟩

theorem modJob (n : Nat) (f : Job → Job) (h : ∀ j, (f j).entryOrder = j.entryOrder) : OrdersKept s (s.modJob n f) :=
  of_modJob rfl rfl h

theorem dropJob (n : Nat) (s : State) : OrdersKept s (s.dropJob n) := by
  refine ⟨le_rfl, fun m j hj => ?_⟩
  rw [job?_dropJob] at hj
  split at hj
  · cases hj
  · exact ⟨j, hj, rfl⟩

theorem registers (h : RegistersOnly s t) : OrdersKept s t := of_eq h.jobs h.entries

end OrdersKept

namespace EntryOrders

theorem kept (h : EntryOrders s) (k : OrdersKept s t) : EntryOrders t := by
  refine ⟨fun n j hj => ?_, fun n m i j hi hj same => ?_⟩
  · obtain ⟨i, hi, e⟩ := k.jobs n j hj
    exact (e ▸ h.given n i hi).trans k.count
  · obtain ⟨i', hi', e⟩ := k.jobs n i hi
    obtain ⟨j', hj', e'⟩ := k.jobs m j hj
    exact h.apart n m i' j' hi' hj' (e.symm.trans (same.trans e'))

/-- One job takes a new entry order. -/
theorem taken (h : EntryOrders s) (count : t.entryCount = s.entryCount + 1)
    (taken : ∀ j, t.job? n = some j → j.entryOrder = s.entryCount + 1) (others : ∀ m, m ≠ n → t.job? m = s.job? m) :
    EntryOrders t := by
  have older (m : Nat) (other : m ≠ n) (j : Job) (hj : t.job? m = some j) : s.job? m = some j ∧ j.entryOrder ≤ s.entryCount := by
    have hj' := (others m other).symm.trans hj
    exact ⟨hj', h.given m j hj'⟩
  refine ⟨fun m j hj => ?_, fun m k i j hi hj same => ?_⟩
  · by_cases e : m = n
    · subst e
      exact (taken j hj).le.trans count.ge
    · have := (older m e j hj).2
      omega
  · by_cases e : m = n
    · subst e
      by_cases e' : k = m
      · exact e'.symm
      · have := (older k e' j hj).2
        have := taken i hi
        omega
    · by_cases e' : k = n
      · subst e'
        have := (older m e i hi).2
        have := taken j hj
        omega
      · exact h.apart m k i j (older m e i hi).1 (older k e' j hj).1 same

theorem createJob (h : EntryOrders s) (k : PosKey) (x : Position) : EntryOrders (createJob k x s) := by
  have jobs := jobs_createJob k x s
  have job (m : Nat) : (Machine.createJob k x s).job? m = if m = nextNumber s then some (newJob s k x) else s.job? m := by
    rw [← job?_addJob]
    exact congrArg (tget · m) jobs
  refine h.taken (n := nextNumber s) ?_ (fun j hj => ?_) fun m other => ?_
  · obtain ⟨v, w, e⟩ := createJob_eq k x s
    rw [e, (Still.raised _ _).entries]
    rfl
  · rw [job, if_pos rfl] at hj
    cases hj
    rfl
  · rw [job, if_neg other]

end EntryOrders

/-- What a need test keeps. -/
theorem needTest_keeps {P : State → Prop} (k : PosKey) (h : P s)
    (creates : ∀ x, s.pos? k = some x → needsJob s x = true → s.jobs.length < 768 → P (createJob k x s))
    (defers : ∀ b, P (s.modWork k fun x => { x with deferred := b })) (raises : ∀ t n, P t → P (raise n t)) :
    P (needTest k s) := by
  cases hx : s.pos? k with
  | none =>
    unfold needTest
    rw [hx]
    exact h
  | some x =>
    cases hn : needsJob s x with
    | false =>
      rw [needTest_clears hx hn]
      exact defers false
    | true =>
      by_cases room : s.jobs.length < 768
      · rw [needTest_creates hx hn room]
        exact creates x hx hn room
      · rw [needTest_full hx hn (Nat.not_lt.mp room)]
        split
        · exact h
        · exact raises _ _ (defers true)

namespace EntryOrders

theorem needTest (h : EntryOrders s) (k : PosKey) : EntryOrders (needTest k s) :=
  needTest_keeps k h (fun x _ _ _ => h.createJob k x) (fun _ => h.kept (.of_eq rfl rfl))
    fun _ n h => h.kept (.registers (.raised n _))

theorem tellSatisfied (h : EntryOrders s) (k : PosKey) : EntryOrders (tellSatisfied k s) := by
  obtain ⟨v, w, p, e⟩ := tellSatisfied_parts k s
  rw [e]
  exact h.kept (.of_eq rfl rfl)

theorem departCore (h : EntryOrders s) {j : Job} {x : JobState} (hj : s.job? n = some j) : EntryOrders (departCore n x s) :=
  departCore_phases (M := EntryOrders) (V := EntryOrders) (N := EntryOrders) hj (h.kept (.modJob n _ fun _ => rfl))
    (fun _ h => h.kept (.registers (.starved _))) (fun _ h => h.kept (.registers (.released _ _)))
    (fun _ _ h => h.kept (.registers (.lowered _ _))) (fun _ h _ => h)
    (fun t _ h _ _ => by
      have vacated : EntryOrders (t.modWork j.key fun w => { w with current := none }) := h.kept (.of_eq rfl rfl)
      exact (vacated.needTest j.key).kept (.registers (.starved _)))
    (fun _ _ h => h.kept (.registers (.raised _ _))) (fun t h => h.kept (.dropJob n t)) fun _ k h => h.tellSatisfied k

theorem enterQueue (h : EntryOrders s) (n a : Nat) : EntryOrders (enterQueue n a s) := by
  have job (m : Nat) : (Machine.enterQueue n a s).job? m = if m = n then (s.job? m).map fun j =>
      { j with state := .queued, attempt := a, lane := none, applied := none, entryOrder := s.entryCount + 1 } else s.job? m :=
    job?_modJob n _ s.bumpEntry m
  refine h.taken (n := n) rfl (fun j hj => ?_) fun m other => ?_
  · rw [job, if_pos rfl] at hj
    obtain ⟨i, -, rfl⟩ := Option.map_eq_some_iff.mp hj
    rfl
  · rw [job, if_neg other]

end EntryOrders

/-! ### Deeds -/

theorem refreshCounts_orders (p : PressId) (s : State) : OrdersKept s (refreshCounts p s) := by
  have standing : OrdersKept s (refreshStanding p s) := by
    unfold refreshStanding
    generalize s.positionsOf p = l
    induction l generalizing s with
    | nil => exact .of_eq rfl rfl
    | cons x l ih => exact OrdersKept.trans (t := s.modWork x.1 _) (.of_eq rfl rfl) (ih _)
  unfold refreshCounts
  dsimp only
  rw [evalPress_eq]
  refine standing.trans (OrdersKept.trans ?_ (.registers (.raisedAll _ _)))
  exact .of_eq rfl rfl

/-- Every deed keeps the entry orders apart. -/
theorem Deed.orders (d : Deed w c (g, s) (g', t)) (h : EntryOrders s) : EntryOrders t := by
  cases d with
  | still k => exact h.kept (.of_eq k.jobs k.entries)
  | assign _ _ e n j => exact h.kept (.of_modJob (n := n) (f := fun x => { x with state := .assigned, engine := some e }) rfl rfl fun _ => rfl)
  | expose _ _ e u hu =>
    rw [sendExpose, hu]
    exact h.kept (.of_modJob (n := u.job) (f := fun x => { x with applied := some (s.register e).correction }) rfl rfl fun _ => rfl)
  | create _ _ k x => exact h.createJob k x
  | tell _ _ k => exact h.tellSatisfied k
  | core _ _ n j x hx hj => exact h.departCore hj
  | note _ _ n f hf => exact h.kept (.modJob n f fun j => by rw [hf j])
  | queue _ _ n a j => exact (h.kept (.registers (.retaken j s))).enterQueue n a
  | fail _ _ n j => exact (h.kept (.registers (.retaken j s))).kept (.modJob n _ fun _ => rfl)
  | start _ _ e u => exact h.kept (.of_modJob (n := u.job) (f := fun j => { j with state := .exposing }) rfl rfl fun _ => rfl)
  | develop _ _ e u =>
    have cleared : OrdersKept s (s.modCtx e fun c => { c with current := none }) := .of_eq rfl rfl
    unfold developsAt
    generalize s.modCtx e (fun c => { c with current := none }) = v at cleared
    have released (ks : List SlotKey) : OrdersKept v (releaseRefs ks v) := .registers (.released ks v)
    exact (h.kept (cleared.trans (released _))).kept (.of_modJob (n := u.job)
      (f := fun j => { j with state := .developing, lane := some (laneFed e) }) rfl rfl fun _ => rfl)
  | pass _ _ l n => exact h.kept (.of_modJob (n := n) (f := fun x => { x with state := .finishing }) rfl rfl fun _ => rfl)
  | reclaim _ _ l n j x =>
    unfold Machine.reclaim
    have released (ks : List SlotKey) : OrdersKept s (releaseRefs ks s) := .registers (.released ks s)
    exact (h.kept (released _)).kept (.of_modJob (n := n) (f := fun j => { j with state := x }) rfl rfl fun _ => rfl)
  | rack _ _ d | shelve _ _ d =>
    exact h.kept (.of_modJob (n := d.job) (f := fun x => { x with state := .racked }) rfl rfl fun _ => rfl)
  | mount _ _ k x n => exact h.kept (.of_modJob (n := n) (f := fun x => { x with state := .mounted }) rfl rfl fun _ => rfl)
  | flag _ _ k x n => exact h.kept (.of_modJob (n := n) (f := fun x => { x with superseded := true }) rfl rfl fun _ => rfl)
  | renew _ _ n old v cl x r ref => exact (h.kept (.registers (.cleared n s))).kept (.registers (.arrived n v cl _ x ref _ _))
  | strip _ _ n r => exact (h.kept (.registers (.cleared n s))).kept (.registers (.put n _ _))
  | remove _ _ n r => exact h.kept (.registers (.removed n r s))
  | recount _ _ p => exact h.kept (refreshCounts_orders p s)
  | empty e => exact h.kept (.of_eq e.jobs e.entries)
  | lose _ _ n j => exact h.kept (.modJob n _ fun _ => rfl)
  | strand _ _ n j => exact (h.kept (.registers (.taken j.slots s))).kept (.modJob n _ fun _ => rfl)
  | restart => exact ⟨fun _ _ hj => (by cases hj), fun _ _ _ _ hi => (by cases hi)⟩
  | blind => exact h
  | _ => exact h.kept (.of_eq rfl rfl)

theorem At.orders (a : At w c b g s) (h : EntryOrders b.2) : EntryOrders s := by
  have way := a.way
  suffices ends : ∀ x : Gaps × State, Relation.ReflTransGen (Deed w c) b x → EntryOrders x.2 from ends (g, s) way
  intro x way
  induction way with
  | refl => exact h
  | tail _ d ih => exact d.orders ih

end Sys2Proof.Machine
end

section
/-! What only the settings' own commands write: the rights, the clock, the limits, the transit timeouts and the lead times
(R111, R140, R145, R183, R184). Whatever else a command does leaves them alone, in any state. -/

namespace Sys2Proof.Machine

open State

variable {s : State}

/-- What is set at the desk and by the straps. -/
structure Settings where
  rights : PortId → Rights
  clock : Nat
  limits : Limits
  transit : LaneId → Nat
  lead : PressId → Nat

/-- The settings of a state. -/
def settings (s : State) : Settings :=
  ⟨fun p => (s.port p).rights, s.clock, s.limits, fun l => (s.lane l).transit, fun p => (s.press p).lead⟩

/-! ### Writes -/

@[simp] theorem settings_modLink (p : PortId) (f : Link → Link) : settings (s.modLink p f) = settings s := by
  unfold settings
  congr 1
  funext q
  rw [port_modLink]
  split <;> rfl

@[simp] theorem settings_modLane (l : LaneId) (f : Lane → Lane) (h : ∀ x, (f x).transit = x.transit) :
    settings (s.modLane l f) = settings s := by
  unfold settings
  congr 1
  funext q
  rw [lane_modLane]
  split
  next e => rw [h]
  next => rfl

@[simp] theorem settings_modPress (p : PressId) (f : Press → Press) (h : ∀ x, (f x).lead = x.lead) :
    settings (s.modPress p f) = settings s := by
  unfold settings
  congr 1
  funext q
  rw [press_modPress]
  split
  next e => rw [h]
  next => rfl

@[simp] theorem settings_modFloor (l : LaneId) (f : LaneFloor → LaneFloor) : settings (s.modFloor l f) = settings s :=
  settings_modLane l (fun x => { x with floor := f x.floor }) fun _ => rfl

@[simp] theorem settings_stopLane (l : LaneId) : settings (s.stopLane l) = settings s :=
  settings_modLane l (fun x => { x with gates := { x.gates with stopped := true } }) fun _ => rfl

@[simp] theorem settings_useLaneStep (l : LaneId) : settings (s.useLaneStep l) = settings s :=
  settings_modLane l (fun x => { x with gates := { x.gates with allowance := false } }) fun _ => rfl

@[simp] theorem settings_setPressState (p : PressId) (x : PressState) : settings (s.setPressState p x) = settings s :=
  settings_modPress p (fun y => { y with state := x }) fun _ => rfl

@[simp] theorem settings_setUnsatisfied (p : PressId) (n : Nat) : settings (s.setUnsatisfied p n) = settings s :=
  settings_modPress p (fun y => { y with unsatisfied := n }) fun _ => rfl

@[simp] theorem settings_send (c : LineCommand) : settings (s.send c) = settings s := rfl
@[simp] theorem settings_modCtx (e : EngineId) (f : Contexts → Contexts) : settings (s.modCtx e f) = settings s := rfl
@[simp] theorem settings_setStarved (b : Bool) : settings (s.setStarved b) = settings s := rfl
@[simp] theorem settings_modJob (n : Nat) (f : Job → Job) : settings (s.modJob n f) = settings s := rfl
@[simp] theorem settings_addJob (n : Nat) (j : Job) : settings (s.addJob n j) = settings s := rfl
@[simp] theorem settings_dropJob (n : Nat) : settings (s.dropJob n) = settings s := rfl
@[simp] theorem settings_bumpEntry : settings s.bumpEntry = settings s := rfl
@[simp] theorem settings_modWork (k : PosKey) (f : PosWork → PosWork) : settings (s.modWork k f) = settings s := rfl
@[simp] theorem settings_modLive (n : Nat) (f : Nat → Nat) : settings (s.modLive n f) = settings s := rfl
@[simp] theorem settings_dropPage (n : Nat) : settings (s.dropPage n) = settings s := rfl
@[simp] theorem settings_modCount (k : SlotKey) (f : Nat → Nat) : settings (s.modCount k f) = settings s := rfl
@[simp] theorem settings_dropSlot (k : SlotKey) : settings (s.dropSlot k) = settings s := rfl
@[simp] theorem settings_setRack (k : PosKey) (l : List Nat) : settings (s.setRack k l) = settings s := rfl
@[simp] theorem settings_setShelf (p : PressId) (l : List (Nat × PosId)) : settings (s.setShelf p l) = settings s := rfl
@[simp] theorem settings_setDelivery (d : Option Delivery) : settings (s.setDelivery d) = settings s := rfl
@[simp] theorem settings_setServed (l : LaneId) : settings (s.setServed l) = settings s := rfl
@[simp] theorem settings_useSorterStep : settings s.useSorterStep = settings s := rfl
@[simp] theorem settings_setReached (es : Vector Bool 6) (ls : Vector Bool 2) : settings (s.setReached es ls) = settings s := rfl
@[simp] theorem settings_setStopped : settings s.setStopped = settings s := rfl
@[simp] theorem settings_putPage (n : Nat) (r : PageRec) : settings (s.putPage n r) = settings s := rfl
@[simp] theorem settings_putSlot (k : SlotKey) (x : Slot) : settings (s.putSlot k x) = settings s := rfl
@[simp] theorem settings_modSlot (k : SlotKey) (f : Slot → Slot) : settings (s.modSlot k f) = settings s := rfl
@[simp] theorem settings_modPos (k : PosKey) (f : Position → Position) : settings (s.modPos k f) = settings s := rfl
@[simp] theorem settings_putPos (k : PosKey) (x : Position) : settings (s.putPos k x) = settings s := rfl
@[simp] theorem settings_dropPos (k : PosKey) : settings (s.dropPos k) = settings s := rfl
@[simp] theorem settings_setStage (p : PressId) (x : Stage) : settings (s.setStage p x) = settings s := rfl
@[simp] theorem settings_modStatus (e : EngineId) (f : EngineStatus → EngineStatus) : settings (s.modStatus e f) = settings s := rfl
@[simp] theorem settings_modGates (e : EngineId) (f : Gates → Gates) : settings (s.modGates e f) = settings s := rfl
@[simp] theorem settings_modCassette (e : EngineId) (f : Cassette → Cassette) : settings (s.modCassette e f) = settings s := rfl
@[simp] theorem settings_setRegister (e : EngineId) (x : Register) : settings (s.setRegister e x) = settings s := rfl
@[simp] theorem settings_modSorter (f : Sorter → Sorter) : settings (s.modSorter f) = settings s := rfl
@[simp] theorem settings_modLine (f : LineControl → LineControl) : settings (s.modLine f) = settings s := rfl
@[simp] theorem settings_modRestart (f : Restart → Restart) : settings (s.modRestart f) = settings s := rfl
@[simp] theorem settings_setSoftDue (b : Bool) : settings (s.setSoftDue b) = settings s := rfl
@[simp] theorem settings_logDesk (p : PortId) (f : OutFrame) : settings (s.logDesk p f) = settings s := rfl

@[simp] theorem settings_setMask (p : PortId) (m : Mask) : settings (s.setMask p m) = settings s := by
  unfold settings
  congr 1
  funext q
  rw [port_setMask]
  split <;> rfl

/-! ### Notices, references and the job table -/

theorem settings_foldl {α : Type} {f : State → α → State} (l : List α) (h : ∀ s x, settings (f s x) = settings s) (s : State) :
    settings (l.foldl f s) = settings s := foldl_keeps settings l h

@[simp] theorem settings_raise (n : Notice) : settings (raise n s) = settings s := by
  refine settings_foldl _ (fun t p => ?_) s
  unfold offerTo
  split <;> simp

@[simp] theorem settings_raiseAll (ns : List Notice) : settings (raiseAll ns s) = settings s :=
  settings_foldl _ (fun _ n => settings_raise n) s

@[simp] theorem settings_freeIfDone (k : SlotKey) : settings (freeIfDone k s) = settings s := by
  unfold freeIfDone
  split
  · split <;> simp
  · rfl

@[simp] theorem settings_takeRefs (ks : List SlotKey) : settings (takeRefs ks s) = settings s :=
  settings_foldl (f := fun s k => takeRef k s) _ (fun _ _ => rfl) s

@[simp] theorem settings_releaseRefs (ks : List SlotKey) : settings (releaseRefs ks s) = settings s :=
  settings_foldl _ (fun s k => by simp [releaseRef]) s

@[simp] theorem settings_evalPress (p : PressId) : settings (evalPress p s) = settings s := by
  rw [evalPress_eq]
  simp

@[simp] theorem settings_tellSatisfied (k : PosKey) : settings (tellSatisfied k s) = settings s := by
  unfold tellSatisfied
  split
  · rfl
  · dsimp only
    split <;> simp

@[simp] theorem settings_tellAll (ks : List PosKey) : settings (tellAll ks s) = settings s :=
  settings_foldl _ (fun _ k => settings_tellSatisfied k) s

@[simp] theorem settings_removePage (n : Nat) (r : PageRec) : settings (removePage n r s) = settings s := by
  unfold removePage
  simp only [settings_raise, settings_dropPage]
  exact settings_foldl (f := fun s k => s.dropSlot k) _ (fun _ _ => rfl) s

@[simp] theorem settings_lowerLive (n : Nat) : settings (lowerLive n s) = settings s := by
  unfold lowerLive
  dsimp only
  split
  · split <;> simp
  · simp

@[simp] theorem settings_evalStarved : settings (evalStarved s) = settings s := by
  unfold evalStarved
  split
  · split <;> simp
  · simp

@[simp] theorem settings_createJob (k : PosKey) (x : Position) : settings (createJob k x s) = settings s := by
  unfold createJob
  simp only [settings_raise, settings_modWork]
  refine (settings_foldl (f := fun s p => s.modLive p (· + 1)) _ (fun _ _ => rfl) _).trans ?_
  simp

@[simp] theorem settings_needTest (k : PosKey) : settings (needTest k s) = settings s :=
  needTest_keeps (P := fun t => settings t = settings s) k rfl (fun _ _ _ _ => by simp) (fun _ => by simp) fun _ _ h => by simpa using h

@[simp] theorem settings_departCore (n : Nat) (x : JobState) : settings (departCore n x s) = settings s := by
  cases hj : s.job? n with
  | none =>
    unfold departCore
    rw [hj]
  | some j =>
    exact departCore_phases (M := fun t => settings t = settings s) (V := fun t => settings t = settings s)
      (N := fun t => settings t = settings s) hj (by simp) (fun _ h => by simpa using h) (fun _ h => by simpa using h)
      (fun _ _ h => by simpa using h) (fun _ h _ => h) (fun _ _ h _ _ => by simpa using h) (fun _ _ h => by simpa using h)
      (fun _ h => by simpa using h) fun _ _ h => by simpa using h

@[simp] theorem settings_recordFault (n : Nat) (c : FaultCause) (p : FaultParam) : settings (recordFault n c p s) = settings s := rfl

@[simp] theorem settings_retakeRefs (j : Job) : settings (retakeRefs j s) = settings s := by
  unfold retakeRefs
  split <;> simp

@[simp] theorem settings_enterQueue (n a : Nat) : settings (enterQueue n a s) = settings s := rfl

@[simp] theorem settings_requeue (n a : Nat) (why : RequeueReason) (f : Option FaultRecord) :
    settings (requeue n a why f s) = settings s := by
  unfold requeue
  split <;> simp

@[simp] theorem settings_failJob (n : Nat) : settings (failJob n s) = settings s := by
  unfold failJob
  split
  · rfl
  · dsimp only
    split <;> simp

@[simp] theorem settings_spoilDecision (n : Nat) : settings (spoilDecision n s) = settings s := by
  unfold spoilDecision
  split
  · rfl
  · dsimp only
    split
    · split <;> simp
    · simp

/-! ### The dispatcher and the reactions -/

@[simp] theorem settings_assign (e : EngineId) (n : Nat) (j : Job) : settings (assign e n j s) = settings s := rfl

@[simp] theorem settings_fill (e : EngineId) : settings (fill e s) = settings s := by
  unfold fill
  split
  · split <;> simp
  · rfl

@[simp] theorem settings_preemptFrom (l : List (Nat × Job)) : settings (preemptFrom l s) = settings s := by
  induction l generalizing s with
  | nil => rfl
  | cons x l ih =>
    unfold preemptFrom
    split
    · rw [ih]
      rfl
    · rfl

@[simp] theorem settings_sendExpose (e : EngineId) : settings (sendExpose e s) = settings s := by
  unfold sendExpose
  split <;> rfl

@[simp] theorem settings_exposeOnce (l : LaneId) : settings (exposeOnce l s) = settings s := by
  unfold exposeOnce
  split
  · split <;> simp
  · rfl

@[simp] theorem settings_evalReached : settings (evalReached s) = settings s := by
  have rest (l : LaneId) (t : State) : settings (restLane l t) = settings t := by
    unfold restLane
    split <;> simp
  unfold evalReached
  split
  · dsimp only
    split <;> simp [rest]
  · rfl

@[simp] theorem settings_serveEngines : settings (serveEngines s) = settings s := by
  have filled : settings (fillAll s) = settings s := settings_foldl _ (fun _ e => settings_fill e) s
  simp [serveEngines, exposeLane, preemptAll, filled]

@[simp] theorem settings_serve : settings (serve s) = settings s := by simp [serve]

@[simp] theorem settings_findBlocked (l : LaneId) : settings (findBlocked l s) = settings s := by
  unfold findBlocked
  split
  · rfl
  · split <;> simp

@[simp] theorem settings_grant (l : LaneId) (n : Nat) (j : Job) (d : Destination) : settings (grant l n j d s) = settings s := by
  unfold grant
  dsimp only
  split <;> simp

@[simp] theorem settings_sorterLook : settings (sorterLook s) = settings s := by
  unfold sorterLook
  split
  · dsimp only
    split <;> simp
  · rfl

section Looks

variable {look : State → State} (hl : ∀ s, settings (look s) = settings s)

include hl

theorem settings_serveFrom (l : List PosKey) (s : State) : settings (serveFrom look l s) = settings s := by
  induction l generalizing s with
  | nil => rfl
  | cons k l ih =>
    unfold serveFrom
    dsimp only
    split
    · split <;> simp [ih, hl]
    · simp [ih]

theorem settings_departBy (n : Nat) (x : JobState) (s : State) : settings (departBy look n x s) = settings s := by
  simp [departBy, serveDeferred, hl, settings_serveFrom hl]

theorem settings_returnByFaultBy (n : Nat) (c : FaultCause) (p : FaultParam) (x : JobState) (s : State) :
    settings (returnByFaultBy look n c p x s) = settings s := by
  unfold returnByFaultBy
  dsimp only
  split
  · simp
  · split <;> simp [settings_departBy hl]

theorem settings_spoilBy (n : Nat) (c : FaultCause) (p : FaultParam) (s : State) :
    settings (spoilBy look n c p s) = settings s := by
  unfold spoilBy
  dsimp only
  split
  · simp
  · split <;> simp [settings_departBy hl]

end Looks

@[simp] theorem settings_depart (n : Nat) (x : JobState) : settings (depart n x s) = settings s :=
  settings_departBy (fun _ => settings_serve) n x s

@[simp] theorem settings_returnByFault (n : Nat) (c : FaultCause) (p : FaultParam) (x : JobState) :
    settings (returnByFault n c p x s) = settings s := settings_returnByFaultBy (fun _ => settings_serve) n c p x s

@[simp] theorem settings_spoil (n : Nat) (c : FaultCause) (p : FaultParam) : settings (spoil n c p s) = settings s :=
  settings_spoilBy (fun _ => settings_serve) n c p s

@[simp] theorem settings_returnTaken (n : Nat) (why : RequeueReason) (x : JobState) :
    settings (returnTaken n why x s) = settings s := by
  unfold returnTaken
  split
  · rfl
  · split <;> simp

@[simp] theorem settings_listCancel (e : EngineId) (n : Nat) (c : CancelCommand) : settings (listCancel e n c s) = settings s := rfl

@[simp] theorem settings_cancelJob (e : EngineId) (n : Nat) (c : CancelCommand) : settings (cancelJob e n c s) = settings s := rfl

@[simp] theorem settings_dropAssigned (n : Nat) : settings (dropAssigned n s) = settings s := by
  unfold dropAssigned
  split <;> simp

@[simp] theorem settings_supersedeEffect (n : Nat) (j : Job) : settings (supersedeEffect n j s) = settings s := by
  unfold supersedeEffect
  dsimp only
  split
  · simp
  · simp
  · split <;> simp
  · simp
  · split <;> simp
  · simp
  · simp

@[simp] theorem settings_supersede (k : PosKey) (n : Nat) : settings (supersede k n s) = settings s := by
  unfold supersede
  split <;> simp

@[simp] theorem settings_supersedeAt (k : PosKey) : settings (supersedeAt k s) = settings s := by
  unfold supersedeAt
  split <;> simp

@[simp] theorem settings_needAndServe (k : PosKey) : settings (needAndServe k s) = settings s := by simp [needAndServe]

@[simp] theorem settings_promote (n : Nat) : settings (promote n s) = settings s := by
  unfold promote
  dsimp only
  split <;> simp

@[simp] theorem settings_promoteAll (p : PressId) : settings (promoteAll p s) = settings s := by
  unfold promoteAll
  rw [settings_sorterLook]
  exact settings_foldl _ (fun _ n => settings_promote n) s

theorem settings_forSome {α : Type} (x : Option α) {f : α → State → State} (h : ∀ a s, settings (f a s) = settings s) :
    settings (forSome x f s) = settings s := by
  unfold forSome
  split
  · exact h _ s
  · rfl

end Sys2Proof.Machine
end

section
/-! The machines' commands and the requests leave the settings alone. -/

namespace Sys2Proof.Machine

open State

variable {s : State}

/-! ### Engines -/

theorem settings_cancelAll {α : Type} (x : Option α) (e : EngineId) (job : α → Nat) (cmd : α → CancelCommand) (s : State) :
    settings (forSome x (fun w => cancelJob e (job w) (cmd w)) s) = settings s := settings_forSome x fun _ _ => rfl

@[simp] theorem settings_abortCurrent (e : EngineId) : settings (abortCurrent e s) = settings s :=
  settings_cancelAll _ e _ _ _

@[simp] theorem settings_emptyWaiting (e : EngineId) : settings (emptyWaiting e s) = settings s :=
  (settings_cancelAll _ e _ _ _).trans (settings_cancelAll _ e _ _ _)

@[simp] theorem settings_returnAll (l : List Taken) : settings (returnAll l s) = settings s :=
  settings_foldl (f := fun s (x : Taken) => returnTaken x.1 .engineFaulted x.2 s) l (fun _ _ => by simp) s

@[simp] theorem settings_namedReturns (e : EngineId) (n : Nat) (c : FaultCause) : settings (namedReturns e n c s) = settings s := by
  simp [namedReturns, settings_returnByFaultBy]

@[simp] theorem settings_namedSpoils (e : EngineId) (n : Nat) (c : FaultCause) : settings (namedSpoils e n c s) = settings s := by
  simp [namedSpoils, settings_spoilBy]

theorem settings_engineFault {named : State → State} (h : ∀ s, settings (named s) = settings s) (e : EngineId)
    (cause : EngineFaultCause) (job : Option Nat) (s : State) : settings (engineFault e cause job named s) = settings s := by
  unfold engineFault
  dsimp only
  split
  · simp [h]
  · split <;> simp [h]

@[simp] theorem settings_bareFault (e : EngineId) (cause : EngineFaultCause) (job : Option Nat) :
    settings (engineFault e cause job id s) = settings s := settings_engineFault (fun _ => rfl) e cause job s

@[simp] theorem settings_dropEngine (e : EngineId) : settings (dropEngine e s) = settings s := rfl

@[simp] theorem settings_engineLost (e : EngineId) (c : EngineFaultCause) (m : EngineMode) :
    settings (engineLost e c m s) = settings s := by simp [engineLost]

@[simp] theorem settings_engineLinkLoss (e : EngineId) : settings (engineLinkLoss e s) = settings s := by
  unfold engineLinkLoss
  dsimp only
  split <;> simp

@[simp] theorem settings_greet (e : EngineId) : settings (greet e s) = settings s := by simp [greet]

@[simp] theorem settings_hello (e : EngineId) : settings (hello e s) = settings s := by
  unfold hello
  dsimp only
  split <;> simp

@[simp] theorem settings_cassetteLoaded (e : EngineId) (f : Option PlateFormat) (n : Nat) :
    settings (cassetteLoaded e f n s) = settings s := by
  unfold cassetteLoaded
  dsimp only
  split
  · rfl
  · split
    · simp
    · split <;> simp

theorem settings_jobReport {effect : State → State} (h : ∀ s, settings (effect s) = settings s) (e : EngineId) (n a : Nat)
    (removes : CancelCommand → Bool) (accepted : Bool) (s : State) :
    settings (jobReport e n a removes accepted effect s) = settings s := by
  unfold jobReport removeCancel unmatched
  split
  · split <;> simp
  · split
    · rfl
    · rfl
    · split
      · exact h s
      · split <;> simp

@[simp] theorem settings_loaded (e : EngineId) (n a : Nat) : settings (loaded e n a s) = settings s :=
  settings_jobReport (fun _ => by simp) e n a _ _ s

@[simp] theorem settings_leaveWaiting (e : EngineId) (n : Nat) (c : CancelCommand) : settings (leaveWaiting e n c s) = settings s := rfl

@[simp] theorem settings_markBad (k : SlotKey) (n : Nat) (e : EngineId) : settings (markBad k n e s) = settings s := by
  unfold markBad
  dsimp only
  split <;> simp

@[simp] theorem settings_rasterUnreadable (e : EngineId) (n : Nat) (ref : U64) :
    settings (rasterUnreadable e n ref s) = settings s := by
  unfold rasterUnreadable
  dsimp only
  split
  · simp
  · split
    · split <;> simp
    · simp

@[simp] theorem settings_loadFault (e : EngineId) (n a : Nat) (c : LoadFaultCause) : settings (loadFault e n a c s) = settings s := by
  refine settings_jobReport (fun t => ?_) e n a _ _ s
  cases c with
  | rasterUnreadable ref => exact settings_rasterUnreadable e n ref
  | code x => exact settings_engineFault (fun _ => settings_namedReturns e n _) e _ _ _

@[simp] theorem settings_startExposure (e : EngineId) (w : WaitingCtx) : settings (startExposure e w s) = settings s := by
  unfold startExposure
  dsimp only
  split <;> simp

@[simp] theorem settings_exposeStarted (e : EngineId) (n a : Nat) : settings (exposeStarted e n a s) = settings s :=
  settings_jobReport (fun _ => settings_forSome _ fun w _ => settings_startExposure e w) e n a _ _ s

@[simp] theorem settings_exposeDone (e : EngineId) (n a : Nat) : settings (exposeDone e n a s) = settings s :=
  settings_jobReport (fun _ => by simp [endExposure]) e n a _ _ s

@[simp] theorem settings_exposeFault (e : EngineId) (n a : Nat) (b : Bool) : settings (exposeFault e n a b s) = settings s := by
  refine settings_jobReport (fun t => ?_) e n a _ _ s
  unfold exposureFault leaveExposure
  split
  · simp
  · split
    · exact settings_engineFault (fun _ => settings_namedSpoils e n _) e _ _ _
    · exact settings_engineFault (fun _ => settings_namedReturns e n _) e _ _ _

@[simp] theorem settings_discarded (e : EngineId) (n a : Nat) : settings (discarded e n a s) = settings s :=
  settings_jobReport (fun _ => rfl) e n a _ _ s

@[simp] theorem settings_loadTimerExpiry (e : EngineId) (x : WaitingContext) : settings (loadTimerExpiry e x s) = settings s := by
  unfold loadTimerExpiry
  split
  · split
    · exact settings_engineFault (fun _ => settings_namedReturns e _ _) e _ _ _
    · rfl
  · rfl

@[simp] theorem settings_exposeTimerExpiry (e : EngineId) : settings (exposeTimerExpiry e s) = settings s := by
  unfold exposeTimerExpiry
  split
  · rfl
  · exact (settings_engineFault (fun _ => settings_namedSpoils e _ _) e _ _ _).trans (settings_abortCurrent e)

theorem settings_clearEngineFault (x : Byte) : settings (reqClearEngineFault x s).1 = settings s := by
  unfold reqClearEngineFault
  split
  · rfl
  · dsimp only
    split <;> simp

theorem settings_restoreEngine (x : Byte) : settings (reqRestoreEngine x s).1 = settings s := by
  unfold reqRestoreEngine
  split
  · rfl
  · dsimp only
    split <;> simp

theorem settings_rearmRegister (x : Byte) : settings (reqRearmRegister x s).1 = settings s := by
  unfold reqRearmRegister rearm
  split <;> simp

/-! ### The register tracker -/

@[simp] theorem settings_takeEvicted (n : Nat) : settings (takeEvicted n s) = settings s := by
  unfold takeEvicted
  split
  · rfl
  · split <;> simp [settings_departBy]

@[simp] theorem settings_dropNext (e : EngineId) (w : WaitingCtx) : settings (dropNext e w s) = settings s := by
  unfold dropNext
  dsimp only
  split
  · split <;> rfl
  · rfl

@[simp] theorem settings_colourEvict (e : EngineId) : settings (colourEvict e s) = settings s := by
  have evicted (x : Option WaitingCtx) (t : State) : settings (forSome x (fun w => takeEvicted w.job) t) = settings t :=
    settings_forSome x fun w _ => settings_takeEvicted w.job
  have next (x : Option WaitingCtx) (t : State) : settings (forSome x (dropNext e) t) = settings t :=
    settings_forSome x fun w _ => settings_dropNext e w
  have parked (x : Option WaitingCtx) (t : State) : settings (forSome x (dropParked e) t) = settings t :=
    settings_forSome x fun _ _ => rfl
  simp [colourEvict, evicted, next, parked]

@[simp] theorem settings_takeSample (e : EngineId) (m x : Offset) : settings (takeSample e m x s) = settings s := by
  unfold takeSample sampleTracking sampleLocked sampleDrifted sampleBeyond
  dsimp only
  rw [settings_serve]
  split
  · split
    · split <;> simp
    · split <;> simp
    · split <;> simp
  · split <;> simp

/-! ### Lanes -/

@[simp] theorem settings_dropEntry (l : LaneId) (n : Nat) : settings (dropEntry l n s) = settings s := settings_modFloor l _

@[simp] theorem settings_laneError (l : LaneId) (k : LaneReportKind) (x : Option (Nat × Nat)) :
    settings (laneError l k x s) = settings s := settings_raise _

@[simp] theorem settings_decideStray (l : LaneId) (r : InspectReport) (why : StrayReason) :
    settings (decideStray l r why s) = settings s := settings_raise _

@[simp] theorem settings_decideUnreadable (l : LaneId) (r : InspectReport) : settings (decideUnreadable l r s) = settings s := by
  unfold decideUnreadable
  dsimp only
  split <;> simp

@[simp] theorem settings_handSample (j : Job) (m : Option Offset) : settings (handSample j m s) = settings s := by
  unfold handSample
  split <;> simp

@[simp] theorem settings_passPlate (l : LaneId) (n : Nat) (j : Job) (m : Offset) : settings (passPlate l n j m s) = settings s := by
  simp [passPlate]

@[simp] theorem settings_rejectRegister (l : LaneId) (n : Nat) (m : Option Offset) :
    settings (rejectRegister l n m s) = settings s := by simp [rejectRegister]

@[simp] theorem settings_decideIdentified (l : LaneId) (n : Nat) (m : Option Offset) :
    settings (decideIdentified l n m s) = settings s := by
  unfold decideIdentified decidePlate
  split
  · rw [settings_handSample]
    split
    · simp
    · split
      · split <;> simp
      · simp
  · rfl

@[simp] theorem settings_resynchronise (l : LaneId) (n : Nat) : settings (resynchronise l n s) = settings s :=
  settings_foldl _ (fun _ _ => by simp) s

@[simp] theorem settings_reclaim (l : LaneId) (n : Nat) (st : JobState) (x : LaneStage) :
    settings (reclaim l n st x s) = settings s := by simp [reclaim]

@[simp] theorem settings_countReclaimed : settings (countReclaimed s) = settings s := rfl

@[simp] theorem settings_decide1 (l : LaneId) (r : InspectReport) : settings (decide1 l r s) = settings s := by
  have report (t : State) : settings (decideReport l r t) = settings t := by
    unfold decideReport
    split
    · simp
    · dsimp only
      split <;> simp
  have clearing (t : State) : settings (decideClearing l r t) = settings t := by
    unfold decideClearing
    split
    · simp
    · dsimp only
      split
      · split <;> simp
      · simp
  have used : settings (if (s.lane l).byStep then s.useLaneStep l else s) = settings s := by split <;> simp
  unfold decide1
  dsimp only
  generalize (if (s.lane l).byStep then s.useLaneStep l else s) = t at used ⊢
  split
  · exact (clearing _).trans used
  · exact (report _).trans used

@[simp] theorem settings_decidePending (l : LaneId) (fuel : Nat) : settings (decidePending l fuel s) = settings s := by
  induction fuel generalizing s with
  | zero => rfl
  | succ fuel ih =>
    unfold decidePending
    split
    · split
      · simp [ih]
      · rfl
    · rfl

@[simp] theorem settings_laneOpened (l : LaneId) : settings (laneOpened l s) = settings s := by simp [laneOpened]

@[simp] theorem settings_atInspect (l : LaneId) (r : InspectReport) : settings (atInspect l r s) = settings s := by
  unfold atInspect
  dsimp only
  split
  · simp
  · split <;> simp

@[simp] theorem settings_punchedBent (l : LaneId) (n a : Nat) : settings (punchedBent l n a s) = settings s := by
  unfold punchedBent
  split
  · simp
  · split <;> simp

@[simp] theorem settings_punchFault (l : LaneId) (n a : Nat) : settings (punchFault l n a s) = settings s := by
  unfold punchFault
  split <;> simp

@[simp] theorem settings_atExit (l : LaneId) (n a : Nat) : settings (atExit l n a s) = settings s := by
  unfold atExit setExit
  split
  · simp
  · split
    · simp
    · split <;> simp

@[simp] theorem settings_transitExpiry (l : LaneId) (n : Nat) : settings (transitExpiry l n s) = settings s := by
  unfold transitExpiry
  split <;> simp

@[simp] theorem settings_laneLinkLoss (l : LaneId) : settings (laneLinkLoss l s) = settings s := by simp [laneLinkLoss]

@[simp] theorem settings_laneRestoration (l : LaneId) : settings (laneRestoration l s) = settings s := by simp [laneRestoration]

/-! ### The sorter -/

@[simp] theorem settings_endDelivery (l : LaneId) : settings (endDelivery l s) = settings s := by simp [endDelivery]

@[simp] theorem settings_racked (l : LaneId) (n : Nat) (j : Job) (p : PlatePlace) : settings (racked l n j p s) = settings s := by
  unfold racked
  dsimp only
  split <;> simp

@[simp] theorem settings_placePlate (d : Delivery) : settings (placePlate d s) = settings s := by
  unfold placePlate
  split
  · rfl
  · split <;> simp

@[simp] theorem settings_losePlate (d : Delivery) : settings (losePlate d s) = settings s := by simp [losePlate]

@[simp] theorem settings_sorted (n a : Nat) (d : Destination) : settings (sorted n a d s) = settings s := by
  unfold sorted sorterError
  split
  · simp
  · split <;> simp

@[simp] theorem settings_sortFault (n a : Nat) : settings (sortFault n a s) = settings s := by
  unfold sortFault sorterError
  split
  · simp
  · split <;> simp

@[simp] theorem settings_sorterLinkLoss : settings (sorterLinkLoss s) = settings s := by
  unfold sorterLinkLoss
  dsimp only
  split <;> simp

@[simp] theorem settings_sorterRestoration : settings (sorterRestoration s) = settings s := by simp [sorterRestoration]

/-! ### The press room -/

@[simp] theorem settings_takePlate (k : PosKey) (n : Nat) : settings (takePlate k n s) = settings s := rfl

theorem settings_pullConfirm (x y : Byte) : settings (reqPullConfirm x y s).1 = settings s := by
  unfold reqPullConfirm
  split
  · rfl
  · dsimp only
    split
    · rfl
    · rw [settings_sorterLook]
      exact settings_foldl _ (fun _ _ => by simp) s

@[simp] theorem settings_mountPlate (k : PosKey) (n : Nat) (old : Option Nat) : settings (mountPlate k n old s) = settings s := by
  have retired (t : State) : settings (forSome old (fun m => depart m .retired) t) = settings t :=
    settings_forSome old fun _ _ => settings_depart _ _
  simp [mountPlate, retired]

theorem settings_mount (x y : Byte) : settings (reqMount x y s).1 = settings s := by
  unfold reqMount
  split
  · rfl
  · split
    · rfl
    · split
      · rfl
      · split <;> simp

@[simp] theorem settings_retireMounted (k : PosKey) : settings (retireMounted k s) = settings s := by
  unfold retireMounted
  split <;> simp

theorem settings_unmount (x y : Byte) : settings (reqUnmount x y s).1 = settings s := by
  unfold reqUnmount unmountPlate
  split
  · rfl
  · split
    · rfl
    · split <;> simp

theorem settings_pressStart (x y : Byte) : settings (reqPressStart x y s).1 = settings s := by
  unfold reqPressStart startPress
  split
  · dsimp only
    split
    · rfl
    · rfl
    · split <;> simp
    · simp
  · rfl

theorem settings_pressStop (x : Byte) : settings (reqPressStop x s).1 = settings s := by
  unfold reqPressStop stopPress
  split
  · rfl
  · split
    · dsimp only
      split <;> simp
    · rfl

@[simp] theorem settings_windowAlarm (p : PressId) : settings (windowAlarm p s) = settings s := by
  unfold windowAlarm
  dsimp only
  split
  · rfl
  · split <;> simp

@[simp] theorem settings_startAlarm (p : PressId) : settings (startAlarm p s) = settings s := by
  unfold startAlarm
  dsimp only
  split
  · rfl
  · split
    · split <;> simp
    · rfl

@[simp] theorem settings_alarmCheck : settings (alarmCheck s) = settings s := settings_foldl _ (fun _ _ => by simp) s

@[simp] theorem settings_tickTimers : settings (tickTimers s) = settings s := by
  have lane (l : LaneId) (t : State) : settings (tickLane l t) = settings t := by
    unfold tickLane
    split <;> simp
  exact (settings_foldl _ (fun t l => lane l t) _).trans (settings_foldl (f := fun s e => tickEngine e s) _ (fun _ _ => rfl) s)

/-! ### Line control -/

@[simp] theorem settings_setGates (u : UnitId) (a b : Bool) : settings (setGates u a b s) = settings s := by
  unfold setGates
  split <;> simp

@[simp] theorem settings_unitOpened (u : UnitId) : settings (unitOpened u s) = settings s := by
  unfold unitOpened
  split <;> simp

theorem settings_hold (x : Byte) : settings (reqHold x s).1 = settings s := by
  unfold reqHold
  split
  · rfl
  · split <;> simp

theorem settings_release (x : Byte) : settings (reqRelease x s).1 = settings s := by
  unfold reqRelease
  split
  · rfl
  · split <;> simp

theorem settings_step (x : Byte) : settings (reqStep x s).1 = settings s := by
  unfold reqStep
  split
  · rfl
  · split <;> simp

theorem settings_setStopPolicy (x y : Byte) : settings (reqSetStopPolicy x y s).1 = settings s := by
  unfold reqSetStopPolicy setPolicy
  split
  · split
    · rfl
    · split <;> simp
  · rfl

theorem settings_lineStop : settings (reqLineStop s).1 = settings s := by
  have current (e : EngineId) (t : State) : settings (cutCurrent e t) = settings t := by
    unfold cutCurrent
    split <;> rfl
  have next (e : EngineId) (t : State) : settings (cutNext e t) = settings t := by
    unfold cutNext
    split
    · rfl
    · split <;> rfl
  have engine (e : EngineId) (t : State) : settings (cutEngine e t) = settings t := by
    unfold cutEngine
    split
    · rw [next, current]
    · rfl
  have lane (l : LaneId) (t : State) : settings (cutLane l t) = settings t := by
    unfold cutLane
    split <;> simp
  unfold reqLineStop lineStop
  split
  · simp only [settings_evalReached, settings_raise]
    refine (settings_foldl _ (fun t l => lane l t) _).trans ((settings_foldl _ (fun t e => engine e t) _).trans ?_)
    exact settings_foldl (f := fun s e => setEngineStop true e s) _ (fun _ _ => rfl) _
  · rfl

theorem settings_lineResume : settings (reqLineResume s).1 = settings s := by
  unfold reqLineResume lineResume
  split
  · rfl
  · simp only [settings_raise, settings_serve]
    refine (settings_foldl (f := fun s e => setEngineStop false e s) _ (fun _ _ => rfl) _).trans ?_
    rw [settings_sorterLook]
    refine (settings_foldl (f := fun s l => decidePending l (s.lane l).inspections.length s) _ (fun _ _ => by simp) _).trans ?_
    exact settings_foldl (f := fun s l => unstopLane l s) _ (fun _ _ => by simp [unstopLane]) _

/-! ### Restarts and reconciliation -/

@[simp] theorem settings_resetJob (n : Nat) : settings (resetJob n s) = settings s := by
  unfold resetJob
  split
  · rfl
  · split
    · simp
    · simp
    · split <;> simp
    · split <;> simp
    · rfl

@[simp] theorem settings_resetPart (kind : ResetKind) : settings (resetPart kind s) = settings s := by
  have started (t : State) : settings (startReconcile kind t) = settings t := rfl
  unfold resetPart
  simp only [settings_serve, settings_setSoftDue, started]
  refine (settings_foldl _ (fun _ n => settings_resetJob n) _).trans ?_
  have lanes (t : State) : settings (allLanes.foldl (fun s l => resetLane l s) t) = settings t :=
    settings_foldl _ (fun _ _ => by simp [resetLane]) t
  have engines (t : State) : settings (allEngines.foldl (fun s e => resetEngine e s) t) = settings t :=
    settings_foldl (f := fun s e => resetEngine e s) _ (fun _ _ => rfl) t
  have ports (t : State) : settings (allPorts.foldl (fun s p => resetPort (restartNotice kind t) p s) t) = settings t :=
    settings_foldl _ (fun _ _ => by simp [resetPort]) t
  simp [resetLineControl, resetSorter, lanes, engines, ports]

@[simp] theorem settings_settle (n : Nat) : settings (settle n s) = settings s := by
  have counted (b : Bool) (t : State) : settings (countSettled b t) = settings t := rfl
  unfold settle
  split
  · rfl
  · rw [settings_serve, counted]
    split <;> simp

@[simp] theorem settings_endReconcile (c : EndCause) : settings (endReconcile c s) = settings s := by
  unfold endReconcile
  split <;> simp

@[simp] theorem settings_endPhases (lanes : List LaneId) (c : EndCause) (jobs : List Nat) :
    settings (endPhases lanes c jobs s) = settings s := by
  have reopened (t : State) : settings (lanes.foldl (fun s l => reopenLane l s) t) = settings t :=
    settings_foldl _ (fun _ _ => by simp [reopenLane, clearClearing]) t
  have settled (t : State) : settings (settleAll jobs t) = settings t := settings_foldl _ (fun _ _ => by simp) t
  unfold endPhases
  refine (settings_foldl _ (fun _ _ => settings_raise _) _).trans ?_
  rw [settled, reopened]

@[simp] theorem settings_clear (l : LaneId) : settings (clear l s) = settings s := by
  unfold clear acceptClear
  split
  · split
    · dsimp only
      split <;> simp
    · simp
  · rfl

@[simp] theorem settings_finishReconcile (c : EndCause) : settings (finishReconcile c s) = settings s := by simp [finishReconcile]

theorem settings_reconcileEnd : settings (reqReconcileEnd s).1 = settings s := by
  unfold reqReconcileEnd
  split <;> simp

@[simp] theorem settings_reconcileExpiry : settings (reconcileExpiry s) = settings s := by
  unfold reconcileExpiry
  split <;> simp

/-! ### The page register and the plate book -/

@[simp] theorem settings_clearAllCurrent (n : Nat) : settings (clearAllCurrent n s) = settings s :=
  settings_foldl _ (fun _ _ => by simp [clearCurrent]) s

@[simp] theorem settings_tellComplete (n v : Nat) (c : ColourClass) (a : SepSet) : settings (tellComplete n v c a s) = settings s := by
  unfold tellComplete
  split <;> simp

@[simp] theorem settings_writeArrival (n v : Nat) (c : ColourClass) (a : SepSet) (x : Separation) (ref : U64) (live : Nat) :
    settings (writeArrival n v c a x ref live s) = settings s := rfl

theorem settings_arrive (n v : Nat) (c : ColourClass) (x : Separation) (ref : U64) : settings (arrive n v c x ref s).1 = settings s := by
  have adds (a : SepSet) (live : Nat) : settings (addArrival n v c a x ref live s).1 = settings s := by
    unfold addArrival arrivalSignal
    exact (settings_foldl _ (fun _ _ => by simp) _).trans (by simp)
  have revises (old live : Nat) : settings (revise n old v c x ref live s).1 = settings s := by
    unfold revise revisionSignal
    exact (settings_foldl _ (fun _ _ => by simp) _).trans (by simp)
  have replaces (k : SlotKey) : settings (replaceRaster k ref s).1 = settings s := by
    have returned (n : Nat) (t : State) : settings (returnReplaced n t) = settings t := by
      unfold returnReplaced
      split <;> simp
    unfold replaceRaster
    exact (settings_foldl _ (fun t n => returned n t) _).trans (by simp)
  have versions (cur : Nat) (r : PageRec) : settings (arriveVersion n v cur c x ref r s).1 = settings s := by
    unfold arriveVersion
    split
    · rfl
    · split
      · split
        · rfl
        · split
          · split
            · exact replaces _
            · rfl
          · split
            · rfl
            · exact adds _ _
      · split
        · exact revises _ _
        · rfl
  unfold arrive
  split
  · split
    · rfl
    · split
      · rfl
      · exact adds _ _
  · split
    · split
      · split
        · exact revises _ _
        · rfl
      · rfl
    · exact versions _ _
    · exact versions _ _
    · split
      · rfl
      · exact adds _ _

theorem settings_separationArrived (page : U16) (v c x : Byte) (ref : U64) :
    settings (reqSeparationArrived page v c x ref s).1 = settings s := by
  unfold reqSeparationArrived
  split
  · split
    · rfl
    · split
      · rfl
      · split
        · rfl
        · exact settings_arrive _ _ _ _ _
  · rfl

theorem settings_withdrawPage (page : U16) : settings (reqWithdrawPage page s).1 = settings s := by
  have signal (n : Nat) (t : State) : settings (withdrawSignal n t) = settings t := by
    refine settings_foldl _ (fun t k => ?_) t
    unfold withdrawAt
    dsimp only
    split <;> simp
  have ends (n : Nat) (r : PageRec) (t : State) : settings (endWithdraw n r t).1 = settings t := by
    unfold endWithdraw
    split <;> simp
  unfold reqWithdrawPage withdraw
  split
  · rfl
  · split
    · rfl
    · split
      · rfl
      · dsimp only
        split
        · rw [ends, signal]
          simp
        · rw [signal]
          simp

@[simp] theorem settings_editStage (pr : PressId) (p : PortId) (x : Table PosId Content) :
    settings (editStage pr p x s) = settings s := by
  unfold editStage
  dsimp only
  split <;> simp

theorem settings_stagePosition (p : PortId) (a b f : Byte) (n : U16) (m : Option U16) (x : Byte) :
    settings (reqStagePosition p a b f n m x s).1 = settings s := by
  unfold reqStagePosition
  split
  · dsimp only
    split <;> simp
  · rfl

theorem settings_clearStaged (p : PortId) (a b : Byte) : settings (reqClearStaged p a b s).1 = settings s := by
  unfold reqClearStaged
  split
  · rfl
  · dsimp only
    split
    · rfl
    · split <;> simp

theorem settings_discardStage (p : PortId) (a : Byte) : settings (reqDiscardStage p a s).1 = settings s := by
  unfold reqDiscardStage
  split
  · rfl
  · split
    · rfl
    · split
      · simp
      · split <;> simp

theorem settings_commitOne (k : PosKey) (e : Nat) (o : CommitOutcome) (a : State × CommitCounts) :
    settings (commitOne k e o a).1 = settings a.1 := by
  cases o with
  | unchanged => rfl
  | changed c => simp [commitOne, commitChanged]
  | added c => simp [commitOne, commitAdded]
  | removed => simp [commitOne, commitRemoved]
  | uncounted => rfl

theorem settings_commitPass (pr : PressId) (e : Nat) (staged : Table PosId Content) (a : State × CommitCounts) :
    settings (commitPass pr e staged a).1 = settings a.1 := by
  unfold commitPass
  generalize allPositions = qs
  induction qs generalizing a with
  | nil => rfl
  | cons q qs ih => exact (ih _).trans (settings_commitOne _ _ _ a)

@[simp] theorem settings_refreshCounts (p : PressId) : settings (refreshCounts p s) = settings s := by
  have standing : settings (refreshStanding p s) = settings s := by
    unfold refreshStanding
    generalize s.positionsOf p = l
    induction l generalizing s with
    | nil => rfl
    | cons x l ih => exact ih
  simp [refreshCounts, standing]

theorem settings_commitPlan (p : PortId) (x e : Byte) : settings (reqCommitPlan p x e s).1 = settings s := by
  have expected (l : List Nat) (t : State) : settings (l.foldl (fun s n => s.putPage n expectedPage) t) = settings t :=
    settings_foldl (f := fun s n => s.putPage n expectedPage) l (fun _ _ => rfl) t
  unfold reqCommitPlan commit commitEnd
  split
  · rfl
  · split
    · rfl
    · split
      · rfl
      · split
        · rfl
        · split
          · rfl
          · simp [settings_commitPass, expected]

theorem settings_holdPosition (x y : Byte) : settings (reqHoldPosition x y s).1 = settings s := by
  unfold reqHoldPosition
  split
  · rfl
  · split
    · rfl
    · split <;> simp

theorem settings_releasePosition (x y : Byte) : settings (reqReleasePosition x y s).1 = settings s := by
  unfold reqReleasePosition
  split
  · rfl
  · split
    · rfl
    · split <;> simp

theorem settings_requeuePosition (x y : Byte) : settings (reqRequeuePosition x y s).1 = settings s := by
  unfold reqRequeuePosition
  split
  · rfl
  · split
    · rfl
    · split
      · simp
      · split
        · rfl
        · split <;> simp

end Sys2Proof.Machine
end

section
/-! Every step keeps some port holding MAINT, and the settings in their ranges (R183, R184). -/

namespace Sys2Proof.Machine

open State

variable {s t u : State}

/-- Some port holds MAINT if one held it, and the settings are in their ranges if they were. -/
structure SettingsHold (s t : State) : Prop where
  maint : MaintHeld s → MaintHeld t
  ranges : Ranges s → Ranges t

namespace SettingsHold

theorem refl (s : State) : SettingsHold s s := ⟨id, id⟩

theorem trans (h : SettingsHold s t) (k : SettingsHold t u) : SettingsHold s u := ⟨k.maint ∘ h.maint, k.ranges ∘ h.ranges⟩

/-- They are the same. -/
theorem of_settings (h : settings t = settings s) : SettingsHold s t := by
  have rights := congrFun (congrArg Settings.rights h)
  have transit := congrFun (congrArg Settings.transit h)
  have lead := congrFun (congrArg Settings.lead h)
  exact ⟨fun m => m.of_rights rights, fun r => r.of_eq (congrArg Settings.clock h) (congrArg Settings.limits h) transit lead⟩

theorem link (p : PortId) (f : Link → Link) (s : State) : SettingsHold s (s.modLink p f) := of_settings (settings_modLink p f)

theorem raised (h : SettingsHold s t) (n : Notice) : SettingsHold s (raise n t) := h.trans (of_settings (settings_raise n))

theorem clock {x : Nat} (h : x ≤ Config.maxClock ∨ x ≤ s.clock) : SettingsHold s (s.setClock x) :=
  ⟨id, fun r => ⟨h.elim id fun e => e.trans r.clock, r.limits, r.lead⟩⟩

end SettingsHold

/-! ### The commands that write them -/

theorem setClock_holds (x : U32) : SettingsHold s (reqSetClock x s).1 :=
  (SettingsHold.clock (.inl (by have := x.isLt; unfold Config.maxClock; omega))).raised _

theorem clockTick_holds : SettingsHold s (clockTick s) := by
  have ticked : SettingsHold s (s.setClock (if s.clock < Config.maxClock then s.clock + 1 else s.clock)) := by
    refine .clock ?_
    split <;> omega
  refine ticked.trans (.of_settings ?_)
  unfold clockTick
  rw [settings_alarmCheck, settings_tickTimers]

theorem setSchedule_holds (x : Byte) (start : Option U32) (lead : U16) : SettingsHold s (reqSetPressSchedule x start lead s).1 := by
  unfold reqSetPressSchedule
  split
  · exact .refl s
  next p _ =>
    split
    · exact .refl s
    next fits =>
      have written : SettingsHold s (s.modPress p fun x => { x with
          start := start.map BitVec.toNat, lead := lead.toNat, window := false, late := false
          windowArmed := (start.map BitVec.toNat).isSome, startArmed := (start.map BitVec.toNat).isSome }) := by
        refine ⟨id, fun r => ⟨r.clock, r.limits, fun q => ?_⟩⟩
        rw [press_modPress]
        split
        · exact Nat.not_lt.mp fits
        · exact r.lead q
      dsimp only [schedulePress]
      exact (written.raised _).trans (.of_settings settings_serve)

theorem setRights_holds (p : PortId) (x y : Byte) : SettingsHold s (reqSetRights p x y s).1 := by
  unfold reqSetRights
  split
  next q r _ _ =>
    split
    next left =>
      have written : SettingsHold s (s.setRights q r) :=
        ⟨fun _ => setRights_maint left, fun h => h.of_eq rfl rfl (fun _ => rfl) fun _ => rfl⟩
      exact written.raised _
    next => exact .refl s
  · exact .refl s

theorem setLimits_holds (x : Byte) (v : U16) (l : Option Byte) : SettingsHold s (reqSetLimits x v l s).1 := by
  unfold reqSetLimits
  split
  · exact .refl s
  next x _ =>
    split
    · exact .refl s
    next l _ =>
      split
      next fits =>
        have written : SettingsHold s (setLimit x (l.getD 0) v.toNat s) := by
          refine ⟨fun h => ?_, fun h => setLimit_ranges fits h⟩
          cases x <;> exact h
        exact written.raised _
      next => exact .refl s

/-- A reset loads the rights of P0. -/
theorem loadAllStraps_holds (p1 p2 : StrapPair) (s : State) : SettingsHold s (loadAllStraps p1 p2 s) := by
  obtain ⟨x, same⟩ : ∃ x, loadAllStraps p1 p2 s = { s with ports := x } := ⟨_, loadAllStraps_same p1 p2 s⟩
  refine ⟨fun _ => ⟨0, ?_⟩, fun h => ?_⟩
  · rw [port_loadAllStraps]
    rfl
  · rw [same]
    exact h.of_eq rfl rfl (fun _ => rfl) fun _ => rfl

theorem powerOn_holds (p1 p2 : StrapPair) : SettingsHold s (powerOn p1 p2 s) := by
  have base : SettingsHold s { State.reset with lineSent := s.lineSent, deskSent := s.deskSent, pending := s.pending } :=
    ⟨fun _ => ⟨0, rfl⟩, fun _ => reset_ranges s⟩
  exact base.trans (loadAllStraps_holds p1 p2 _)

/-! ### Requests and commands -/

theorem applyRequest_holds (p : PortId) (r : Request) : SettingsHold s (applyRequest p r s).1 := by
  cases r with
  | separationArrived page v cl x ref => exact .of_settings (settings_separationArrived page v cl x ref)
  | withdrawPage page => exact .of_settings (settings_withdrawPage page)
  | stagePosition pr q f a b x => exact .of_settings (settings_stagePosition p pr q f a b x)
  | clearStagedPosition pr q => exact .of_settings (settings_clearStaged p pr q)
  | discardStage pr => exact .of_settings (settings_discardStage p pr)
  | commitPlan pr e => exact .of_settings (settings_commitPlan p pr e)
  | holdPosition pr q => exact .of_settings (settings_holdPosition pr q)
  | releasePosition pr q => exact .of_settings (settings_releasePosition pr q)
  | requeuePosition pr q => exact .of_settings (settings_requeuePosition pr q)
  | clearEngineFault e => exact .of_settings (settings_clearEngineFault e)
  | restoreEngine e => exact .of_settings (settings_restoreEngine e)
  | rearmRegister e => exact .of_settings (settings_rearmRegister e)
  | pullConfirm pr q => exact .of_settings (settings_pullConfirm pr q)
  | mount pr q => exact .of_settings (settings_mount pr q)
  | unmount pr q => exact .of_settings (settings_unmount pr q)
  | pressStart pr f => exact .of_settings (settings_pressStart pr f)
  | pressStop pr => exact .of_settings (settings_pressStop pr)
  | setClock x => exact setClock_holds x
  | setPressSchedule pr x l => exact setSchedule_holds pr x l
  | hold u => exact .of_settings (settings_hold u)
  | release u => exact .of_settings (settings_release u)
  | step u => exact .of_settings (settings_step u)
  | setStopPolicy u x => exact .of_settings (settings_setStopPolicy u x)
  | lineStop => exact .of_settings settings_lineStop
  | lineResume => exact .of_settings settings_lineResume
  | reconcileEnd => exact .of_settings settings_reconcileEnd
  | setRights q x => exact setRights_holds p q x
  | setNoticeMask x => exact .of_settings (settings_setMask p _)
  | setLimits l v ln => exact setLimits_holds l v ln
  | softReset => exact .refl s
  | queryPage | queryPosition | queryJob | queryEngine | queryLane | queryPress | queryPart => exact .refl s

theorem decideRequest_holds (p : PortId) (r : Received) : SettingsHold s (decideRequest p r s).1 := by
  unfold decideRequest
  split
  · exact .refl s
  · split <;> exact .refl s
  · split
    · exact applyRequest_holds p _
    · exact .refl s

theorem takeRequest_holds (p : PortId) (r : Received) (s : State) : SettingsHold s (takeRequest p r s) :=
  ((SettingsHold.link p _ s).trans (decideRequest_holds p r)).trans (.link p _ _)

theorem takeNext_holds (p : PortId) (s : State) : SettingsHold s (takeNext p s) := by
  unfold takeNext
  dsimp only
  split
  · split
    · exact .refl s
    · exact (SettingsHold.link p _ s).trans (takeRequest_holds p _ _)
  · exact .refl s

theorem receive_holds (p : PortId) (r : Received) (s : State) : SettingsHold s (receive p r s) := by
  unfold receive
  split
  · exact (SettingsHold.link p _ s).trans (takeNext_holds p _)
  · exact .link p _ s

theorem frameReceived_holds (p : PortId) (f : Frame) (s : State) : SettingsHold s (frameReceived p f s) := by
  unfold frameReceived setReceiver badFrame
  dsimp only
  split
  · exact (SettingsHold.link p _ s).trans (.link p _ _)
  · exact (SettingsHold.link p _ s).trans (receive_holds p _ _)

theorem deskLinkByte_holds (p : PortId) (x : Byte) (s : State) : SettingsHold s (deskLinkByte p x s) := by
  unfold deskLinkByte setReceiver badFrame
  dsimp only
  split
  · split
    · exact .link p _ s
    · exact .refl s
  · split
    · exact (SettingsHold.link p _ s).trans (.link p _ _)
    · split
      · exact frameReceived_holds p _ s
      · exact .link p _ s

theorem frameSent_holds (p : PortId) (s : State) : SettingsHold s (frameSent p s) := by
  unfold frameSent
  dsimp only
  split
  · exact .refl s
  · split
    · refine SettingsHold.trans ?_ (takeNext_holds p _)
      split <;> exact .of_settings (by simp)
    · exact .of_settings (by simp)

/-- Every command keeps some port holding MAINT and the settings in their ranges. -/
theorem exec_holds (i : Instr) (e : exec i s = .next t) : SettingsHold s t := by
  have key {u : State} (a : SettingsHold s u) (e : (Host.Outcome.next u : Host.Outcome State Fault Refusal) = .next t) :
      SettingsHold s t := by
    cases e
    exact a
  cases i with
  | powerOn p1 p2 => exact key (powerOn_holds p1 p2) e
  | lineReset p1 p2 => exact key ((loadAllStraps_holds p1 p2 s).trans (.of_settings (settings_resetPart .lineReset))) e
  | softResetTaken => exact key (.of_settings (settings_resetPart .softReset)) e
  | frameReceived p f => exact key (frameReceived_holds p f s) e
  | interByteGapExpiry p => exact key (.link p (fun l => { l with rx := .hunting }) s) e
  | frameSent p => exact key (frameSent_holds p s) e
  | requestKindUnknown p x k => exact key (receive_holds p _ s) e
  | hello q => exact key (.of_settings (settings_hello q)) e
  | cassetteLoaded q f n => exact key (.of_settings (settings_cassetteLoaded q f n)) e
  | loaded q j a => exact key (.of_settings (settings_loaded q _ _)) e
  | loadFault q j a x => exact key (.of_settings (settings_loadFault q _ _ x)) e
  | exposeStarted q j a => exact key (.of_settings (settings_exposeStarted q _ _)) e
  | exposeDone q j a => exact key (.of_settings (settings_exposeDone q _ _)) e
  | exposeFault q j a x => exact key (.of_settings (settings_exposeFault q _ _ x)) e
  | discarded q j a => exact key (.of_settings (settings_discarded q _ _)) e
  | engineLinkLoss q => exact key (.of_settings (settings_engineLinkLoss q)) e
  | loadTimerExpiry q x => exact key (.of_settings (settings_loadTimerExpiry q x)) e
  | exposeTimerExpiry q => exact key (.of_settings (settings_exposeTimerExpiry q)) e
  | atInspect l r => exact key (.of_settings (settings_atInspect l r)) e
  | punchedBent l j a => exact key (.of_settings (settings_punchedBent l _ _)) e
  | punchFault l j a => exact key (.of_settings (settings_punchFault l _ _)) e
  | atExit l j a => exact key (.of_settings (settings_atExit l _ _)) e
  | transitTimerExpiry l j => exact key (.of_settings (settings_transitExpiry l _)) e
  | laneLinkLoss l => exact key (.of_settings (settings_laneLinkLoss l)) e
  | laneRestoration l => exact key (.of_settings (settings_laneRestoration l)) e
  | sorted j a d => exact key (.of_settings (settings_sorted _ _ d)) e
  | sortFault j a => exact key (.of_settings (settings_sortFault _ _)) e
  | sorterLinkLoss => exact key (.of_settings settings_sorterLinkLoss) e
  | sorterRestoration => exact key (.of_settings settings_sorterRestoration) e
  | clockTick => exact key clockTick_holds e
  | windowAlarm p => exact key (.of_settings (settings_windowAlarm p)) e
  | startAlarm p => exact key (.of_settings (settings_startAlarm p)) e
  | clear l => exact key (.of_settings (settings_clear l)) e
  | reconcileTimerExpiry => exact key (.of_settings settings_reconcileExpiry) e
  | deskLinkByte p x => exact key (deskLinkByte_holds p x s) e
  | _ => exact key (receive_holds _ _ s) e

theorem step_holds (h : step s = .next t) : SettingsHold s t := by
  unfold step at h
  split at h
  next =>
    cases h
    exact .refl s
  next i rest _ =>
    have popped : SettingsHold s { s with pending := rest } := .of_settings rfl
    exact popped.trans (exec_holds i h)

/-- Settles O10: the tables and the entry orders are kept by each deed of a step, and the settings by everything but their own
commands. -/
theorem tablesAndSettingsKept : Obligations.TablesAndSettingsKept := by
  refine ⟨fun s t o h => AnyChanges.tables o (step_any o.jobs h), fun s t o orders h => ?_, fun s t held h => (step_holds h).maint held,
    fun s t ranges h => (step_holds h).ranges ranges⟩
  have a : At False False (Gaps.closed, s) Gaps.closed t := step_at o False.elim False.elim False.elim False.elim h
  exact a.orders orders

end Sys2Proof.Machine
end

section
/-! The load of a lane, and what its jobs still ask of it: the bounds that every deed keeps (R86, R112). -/

namespace Sys2Proof.Machine

open State

variable {g g' : Gaps} {s t u : State} {n : Nat} {j : Job} {l : LaneId} {e : EngineId}

/-! ### Sums over the engines that feed a lane -/

/-- The sum over the engines that feed a lane. -/
def fedSum (f : EngineId → Nat) (l : LaneId) : Nat := ∑ e, if laneFed e = l then f e else 0

/-- One engine's part changes. -/
theorem fedSum_update (f : EngineId → Nat) (e : EngineId) (x : Nat) (l : LaneId) :
    fedSum (Function.update f e x) l + (if laneFed e = l then f e else 0) = fedSum f l + if laneFed e = l then x else 0 := by
  have out (h : EngineId → Nat) := (Finset.add_sum_erase Finset.univ (fun q => if laneFed q = l then h q else 0) (Finset.mem_univ e)).symm
  have rest : (Finset.univ.erase e).sum (fun q => if laneFed q = l then Function.update f e x q else 0) =
      (Finset.univ.erase e).sum fun q => if laneFed q = l then f q else 0 :=
    Finset.sum_congr rfl fun q hq => by rw [Function.update_of_ne (Finset.ne_of_mem_erase hq)]
  unfold fedSum
  rw [out (Function.update f e x), out f, rest, Function.update_self]
  omega

/-- Counting the engines that feed a lane is a sum over them. -/
theorem fedSum_filter (p : EngineId → Bool) (l : LaneId) :
    ((allEngines.filter fun e => laneFed e = l).filter p).length = fedSum (fun e => (p e).toNat) l := by
  have weights (m : List EngineId) : ((m.filter fun e => laneFed e = l).filter p).length =
      (m.map fun e => if laneFed e = l then (p e).toNat else 0).sum := by
    induction m with
    | nil => rfl
    | cons e m ih =>
      rw [List.map_cons, List.sum_cons, ← ih]
      by_cases h : laneFed e = l
      · rw [List.filter_cons_of_pos (by simpa using h), if_pos h]
        cases hp : p e
        · rw [List.filter_cons_of_neg (by simp [hp])]
          exact (Nat.zero_add _).symm
        · rw [List.filter_cons_of_pos hp, List.length_cons]
          exact Nat.add_comm _ 1
      · rw [List.filter_cons_of_neg (by simpa using h), if_neg h, Nat.zero_add]
  rw [weights]
  unfold fedSum
  rw [Fin.sum_univ_six]
  simp only [allEngines, List.map_cons, List.map_nil, List.sum_cons, List.sum_nil]
  omega

/-! ### The load by the places -/

/-- A next job that has been sent EXPOSE. -/
def sentSpot (a : Option (Nat × LoadStage)) : Nat := (a.any fun x => x.2 = .exposeSent).toNat

namespace Spots

/-- The exposures that run on the engines of a lane. -/
def running (v : Spots) (l : LaneId) : Nat := fedSum (fun e => (v.cur e).isSome.toNat) l

/-- The next jobs of the engines of a lane that have been sent EXPOSE. -/
def sent (v : Spots) (l : LaneId) : Nat := fedSum (fun e => sentSpot (v.next e)) l

/-- The load of a lane. -/
def load (v : Spots) (l : LaneId) : Nat := (v.order l).length + v.running l + v.sent l

theorem running_setCtx (v : Spots) (e : EngineId) (c : Option Nat) (a b : Option (Nat × LoadStage)) (l : LaneId) :
    (v.setCtx e c a b).running l + (if laneFed e = l then (v.cur e).isSome.toNat else 0) =
      v.running l + if laneFed e = l then c.isSome.toNat else 0 := by
  have apart : (fun q => ((v.setCtx e c a b).cur q).isSome.toNat) =
      Function.update (fun q => (v.cur q).isSome.toNat) e c.isSome.toNat := by
    funext q
    exact Function.apply_update (fun _ (x : Option Nat) => x.isSome.toNat) v.cur e c q
  unfold running
  rw [apart]
  exact fedSum_update _ e _ l

theorem sent_setCtx (v : Spots) (e : EngineId) (c : Option Nat) (a b : Option (Nat × LoadStage)) (l : LaneId) :
    (v.setCtx e c a b).sent l + (if laneFed e = l then sentSpot (v.next e) else 0) =
      v.sent l + if laneFed e = l then sentSpot a else 0 := by
  have apart : (fun q => sentSpot ((v.setCtx e c a b).next q)) = Function.update (fun q => sentSpot (v.next q)) e (sentSpot a) := by
    funext q
    exact Function.apply_update (fun _ x => sentSpot x) v.next e a q
  unfold sent
  rw [apart]
  exact fedSum_update _ e _ l

end Spots

theorem loadOf_eq_load (s : State) (l : LaneId) : loadOf s l = (spots s).load l := by
  have cur : (fun e => (s.engine e).ctx.current.isSome.toNat) = fun e => ((spots s).cur e).isSome.toNat := by
    funext e
    show _ = ((s.engine e).ctx.current.map CurrentCtx.job).isSome.toNat
    rw [Option.isSome_map]
  have next : (fun e => ((s.engine e).ctx.next.any fun w => w.stage = .exposeSent).toNat) = fun e => sentSpot ((spots s).next e) := by
    funext e
    show _ = sentSpot (waitSpot (s.engine e).ctx.next)
    cases (s.engine e).ctx.next <;> rfl
  have order : (s.lane l).floor.order.length = ((spots s).order l).length := by
    show _ = (orderSpots (s.lane l).floor.order).length
    rw [orderSpots, List.length_map]
  unfold loadOf Spots.load Spots.running Spots.sent
  rw [← cur, ← next, ← order, ← fedSum_filter, ← fedSum_filter]

/-! ### What the jobs still ask of a lane -/

/-- A job's plate is to leave a lane: it is exposed for the lane, runs in it, or may still be given back by it. -/
def owes (l : LaneId) (j : Job) : Bool :=
  (decide (j.state = .exposing) && decide (j.engine.map laneFed = some l)) ||
    (decide (j.state ∈ [.developing, .finishing, .uncertain]) && decide (j.lane = some l))

/-- How many jobs' plates are to leave a lane. -/
def owedOf (s : State) (l : LaneId) : Nat := (s.jobs.map fun e => (owes l e.2).toNat).sum

theorem owes_state {x : JobState} (h : j.state = x) (hx : x ∉ [.exposing, .developing, .finishing, .uncertain]) : owes l j = false := by
  subst h
  unfold owes
  generalize j.state = x at hx
  cases x <;> simp_all

theorem owes_exposing (h : j.state = .exposing) : owes l j = decide (j.engine.map laneFed = some l) := by
  simp [owes, h, -Option.map_eq_some_iff]

theorem owes_inLane (h : j.state ∈ [.developing, .finishing, .uncertain]) : owes l j = decide (j.lane = some l) := by
  have other : j.state ≠ .exposing := by
    rintro e
    simp [e] at h
  simp only [owes, other, h, decide_true, decide_false, Bool.false_and, Bool.true_and, Bool.false_or]

theorem owedOf_jobs (h : t.jobs = s.jobs) (l : LaneId) : owedOf t l = owedOf s l := by
  unfold owedOf
  rw [h]

theorem owedOf_modJob (o : Table.ordered id s.jobs) (hj : s.job? n = some j) (f : Job → Job) (l : LaneId) :
    owedOf (s.modJob n f) l + (owes l j).toNat = owedOf s l + (owes l (f j)).toNat :=
  sum_tmod (fun e => (owes l e.2).toNat) o hj

theorem owedOf_addJob (free : s.job? n = none) (l : LaneId) : owedOf (s.addJob n j) l = owedOf s l + (owes l j).toNat :=
  sum_tput (fun e => (owes l e.2).toNat) Function.injective_id free

theorem owedOf_dropJob (o : Table.ordered id s.jobs) (hj : s.job? n = some j) (l : LaneId) :
    owedOf (s.dropJob n) l + (owes l j).toNat = owedOf s l :=
  sum_tdel (fun e => (owes l e.2).toNat) o hj

/-! ### The plates of a lane and the jobs that ask for them -/

/-- The jobs whose plates are to leave a lane. -/
def owers (s : State) (l : LaneId) : List Nat := (s.jobs.filter fun e => owes l e.2).map Prod.fst

theorem owedOf_eq_length (s : State) (l : LaneId) : owedOf s l = (owers s l).length := by
  unfold owedOf owers
  rw [List.length_map]
  induction s.jobs with
  | nil => rfl
  | cons e m ih =>
    rw [List.map_cons, List.sum_cons, ih]
    cases h : owes l e.2
    · rw [List.filter_cons_of_neg (by simp [h])]
      exact Nat.zero_add _
    · rw [List.filter_cons_of_pos (by simpa using h), List.length_cons]
      exact Nat.add_comm 1 _

theorem mem_owers (o : Table.ordered id s.jobs) : n ∈ owers s l ↔ ∃ j, s.job? n = some j ∧ owes l j = true := by
  unfold owers
  simp only [List.mem_map, List.mem_filter, Prod.exists]
  constructor
  · rintro ⟨m, j, ⟨hm, hj⟩, rfl⟩
    exact ⟨j, tget_of_mem o hm, hj⟩
  · rintro ⟨j, hj, asked⟩
    exact ⟨n, j, ⟨mem_of_tget hj, asked⟩, rfl⟩

/-- The jobs that run on the engines of a lane. -/
def runners (v : Spots) (l : LaneId) : List Nat := (allEngines.filter fun e => laneFed e = l).filterMap v.cur

theorem running_eq_length (v : Spots) (l : LaneId) : v.running l = (runners v l).length := by
  unfold Spots.running runners
  rw [← fedSum_filter]
  induction allEngines.filter fun e => laneFed e = l with
  | nil => rfl
  | cons e m ih =>
    cases h : v.cur e with
    | none => rw [List.filter_cons_of_neg (by simp [h]), List.filterMap_cons_none h, ih]
    | some n => rw [List.filter_cons_of_pos (by simp [h]), List.filterMap_cons_some h, List.length_cons, List.length_cons, ih]

theorem mem_runners {v : Spots} : n ∈ runners v l ↔ ∃ e, laneFed e = l ∧ v.cur e = some n := by
  have all (e : EngineId) : e ∈ allEngines := by fin_cases e <;> decide
  simp [runners, all]

/-- The jobs that are UNCERTAIN in a lane. -/
def strays (s : State) (l : LaneId) : List Nat :=
  (s.jobs.filter fun e => e.2.state = .uncertain && decide (e.2.lane = some l)).map Prod.fst

theorem mem_strays (o : Table.ordered id s.jobs) : n ∈ strays s l ↔ ∃ j, s.job? n = some j ∧ j.state = .uncertain ∧ j.lane = some l := by
  unfold strays
  simp only [List.mem_map, List.mem_filter, Prod.exists, Bool.and_eq_true, decide_eq_true_eq]
  constructor
  · rintro ⟨m, j, ⟨hm, hj⟩, rfl⟩
    exact ⟨j, tget_of_mem o hm, hj⟩
  · rintro ⟨j, hj, stray⟩
    exact ⟨n, j, ⟨mem_of_tget hj, stray⟩, rfl⟩

/-- The plates of a lane: in its order, on its engines, and those that it may still give back. -/
def plates (s : State) (l : LaneId) : List Nat := ((spots s).order l).map Prod.fst ++ (runners (spots s) l ++ strays s l)

theorem plates_length (s : State) (l : LaneId) :
    (plates s l).length = ((spots s).order l).length + (spots s).running l + uncertainIn s l := by
  have strayed : (strays s l).length = uncertainIn s l := List.length_map _
  rw [plates, List.length_append, List.length_append, List.length_map, ← running_eq_length, strayed]
  omega

/-- Each plate of a lane is that of one job that owes it. -/
theorem plates_nodup (p : InPlace g s) (o : Tables s) (l : LaneId) : (plates s l).Nodup := by
  have ok := p.ok
  have run {n : Nat} (hn : n ∈ runners (spots s) l) : ∃ e j, (spots s).cur e = some n ∧ s.job? n = some j ∧ j.state = .exposing ∧ j.engine = some e := by
    obtain ⟨e, -, he⟩ := mem_runners.mp hn
    obtain ⟨j, hj, state, engine, -⟩ := ok.current e n he
    exact ⟨e, j, he, hj, state, engine⟩
  have running : (runners (spots s) l).Nodup := by
    refine List.Nodup.filterMap (fun e f n he hf => ?_) (List.Nodup.filter _ (by decide))
    obtain ⟨j, hj, -, engine, -⟩ := ok.current e n he
    obtain ⟨j', hj', -, engine', -⟩ := ok.current f n hf
    cases hj.symm.trans hj'
    exact Option.some.inj (engine.symm.trans engine')
  have straying : (strays s l).Nodup := (keys_nodup o.jobs).sublist (List.filter_sublist.map _)
  refine List.Nodup.append (ok.once l) (running.append straying fun n hn hs => ?_) fun n hn hr => ?_
  · obtain ⟨e, j, -, hj, state, -⟩ := run hn
    obtain ⟨j', hj', state', -⟩ := (mem_strays o.jobs).mp hs
    cases hj.symm.trans hj'
    cases state.symm.trans state'
  · obtain ⟨⟨m, x⟩, hm, rfl⟩ := List.mem_map.mp hn
    obtain ⟨j, hj, -, inLane⟩ := ok.inOrder hm
    obtain ⟨j', hj', apart⟩ : ∃ j, s.job? m = some j ∧ (j.state = .exposing ∨ j.state = .uncertain) := by
      obtain hr | hs := List.mem_append.mp hr
      · obtain ⟨e, j, -, hj, state, -⟩ := run hr
        exact ⟨j, hj, .inl state⟩
      · obtain ⟨j, hj, state, -⟩ := (mem_strays o.jobs).mp hs
        exact ⟨j, hj, .inr state⟩
    cases hj.symm.trans hj'
    rcases inLane with a | a <;> rcases apart with b | b <;> cases a.symm.trans b

/-- A lane has no more plates than jobs owe it. -/
theorem plates_le_owed (p : InPlace g s) (o : Tables s) (l : LaneId) :
    ((spots s).order l).length + (spots s).running l + uncertainIn s l ≤ owedOf s l := by
  rw [← plates_length, owedOf_eq_length]
  refine (List.subperm_of_subset (plates_nodup p o l) fun n hn => (mem_owers o.jobs).mpr ?_).length_le
  obtain hn | hn := List.mem_append.mp hn
  · obtain ⟨⟨m, x⟩, hm, rfl⟩ := List.mem_map.mp hn
    obtain ⟨j, hj, lane, inLane⟩ := p.ok.inOrder hm
    exact ⟨j, hj, by rw [owes_inLane (by rcases inLane with e | e <;> simp [e]), lane]; simp⟩
  · obtain hn | hn := List.mem_append.mp hn
    · obtain ⟨e, fed, he⟩ := mem_runners.mp hn
      obtain ⟨j, hj, state, engine, -⟩ := p.ok.current e n he
      exact ⟨j, hj, by rw [owes_exposing state, engine]; simp [fed]⟩
    · obtain ⟨j, hj, state, lane⟩ := (mem_strays o.jobs).mp hn
      exact ⟨j, hj, by rw [owes_inLane (by simp [state]), lane]; simp⟩

/-- Where every job stands in its place, no more jobs owe a lane their plates than it has. -/
theorem owed_le_plates (p : Placed s) (k : Housed s) (o : Tables s) (l : LaneId) :
    owedOf s l ≤ ((spots s).order l).length + (spots s).running l + uncertainIn s l := by
  rw [← plates_length, owedOf_eq_length]
  have once : (owers s l).Nodup := (keys_nodup o.jobs).sublist (List.filter_sublist.map _)
  refine (List.subperm_of_subset once fun n hn => ?_).length_le
  obtain ⟨j, hj, owed⟩ := (mem_owers o.jobs).mp hn
  unfold plates
  simp only [owes, Bool.or_eq_true, Bool.and_eq_true, decide_eq_true_eq, List.mem_cons, List.not_mem_nil, or_false] at owed
  have inOrder (st : j.state = .developing ∨ j.state = .finishing) (lane : j.lane = some l) : n ∈ ((spots s).order l).map Prod.fst := by
    obtain ⟨m, y, hy, rfl⟩ := k.inLane n j hj st
    obtain ⟨j', hj', lane', -⟩ := p.order m y hy
    cases hj.symm.trans hj'
    cases lane.symm.trans lane'
    exact List.mem_map.mpr ⟨(y.job, y.stage), List.mem_map.mpr ⟨y, hy, rfl⟩, rfl⟩
  obtain ⟨state, fed⟩ | ⟨state | state | state, lane⟩ := owed
  · obtain ⟨e, w, hw, rfl⟩ := k.exposing n j hj state
    obtain ⟨j', hj', -, engine, -⟩ := p.current e w hw
    cases hj.symm.trans hj'
    rw [engine] at fed
    refine List.mem_append_right _ (List.mem_append_left _ (mem_runners.mpr ⟨e, Option.some.inj fed, ?_⟩))
    show (s.engine e).ctx.current.map CurrentCtx.job = _
    rw [hw]
    rfl
  · exact List.mem_append_left _ (inOrder (.inl state) lane)
  · exact List.mem_append_left _ (inOrder (.inr state) lane)
  · exact List.mem_append_right _ (List.mem_append_right _ ((mem_strays o.jobs).mpr ⟨j, hj, state, lane⟩))

end Sys2Proof.Machine
end

section
/-! Every deed keeps the loads of the lanes within the lane order's room (R86, R112). -/

namespace Sys2Proof.Machine

open State

variable {w c : Prop} {b : Gaps × State} {g g' : Gaps} {s t u : State} {n : Nat} {j : Job} {l : LaneId} {e : EngineId}

/-- The loads are within the lane order's room; and in the clearing phase of a lane, so is what is still to leave it, which is
what lets it take its plates back. No job that has been sent EXPOSE is parked, and an UNCERTAIN job that has not been taken up
is in a lane that is clearing. -/
structure Bounded (g : Gaps) (s : State) : Prop where
  load : ∀ l, (spots s).load l ≤ 12
  owed : ∀ l, (s.lane l).clearing = true → owedOf s l + (spots s).sent l ≤ 12
  parked : ∀ e, sentSpot ((spots s).parked e) = 0
  guarded : ∀ n j l, s.job? n = some j → j.state = .uncertain → j.lane = some l → g.loose n ∨ (s.lane l).clearing = true

/-! ### Parts of a state -/

theorem running_of_engines (h : t.engines = s.engines) : (spots t).running = (spots s).running := by
  unfold Spots.running spots State.engine
  rw [h]

theorem sent_of_engines (h : t.engines = s.engines) : (spots t).sent = (spots s).sent := by
  unfold Spots.sent spots State.engine
  rw [h]

theorem parked_of_engines (h : t.engines = s.engines) : (spots t).parked = (spots s).parked := by
  unfold spots State.engine
  rw [h]

theorem parked_setCtx (v : Spots) (e : EngineId) (c : Option Nat) (a b : Option (Nat × LoadStage)) (q : EngineId) :
    (v.setCtx e c a b).parked q = if q = e then b else v.parked q := Function.update_apply ..

theorem order_length (s : State) (l : LaneId) : ((spots s).order l).length = (s.lane l).floor.order.length := List.length_map _

namespace Bounded

/-- The engines stay; the orders, what the jobs owe and the clearing phases are no more than they were. -/
theorem quiet (h : Bounded g s) (engines : t.engines = s.engines)
    (order : ∀ l, (t.lane l).floor.order.length ≤ (s.lane l).floor.order.length)
    (clearing : ∀ l, (t.lane l).clearing = (s.lane l).clearing) (owed : ∀ l, owedOf t l ≤ owedOf s l)
    (guarded : ∀ n j l, t.job? n = some j → j.state = .uncertain → j.lane = some l → g'.loose n ∨ (t.lane l).clearing = true) :
    Bounded g' t := by
  refine ⟨fun l => ?_, fun l hl => ?_, fun e => ?_, guarded⟩
  · have loaded := h.load l
    have less := order l
    unfold Spots.load at loaded ⊢
    rw [order_length] at loaded ⊢
    rw [running_of_engines engines, sent_of_engines engines]
    omega
  · rw [clearing] at hl
    have bound := h.owed l hl
    have less := owed l
    rw [sent_of_engines engines]
    omega
  · rw [parked_of_engines engines]
    exact h.parked e

/-- Nothing that bears on the lanes changes. -/
theorem of_eq (h : Bounded g s) (engines : t.engines = s.engines) (lanes : t.lanes = s.lanes) (jobs : t.jobs = s.jobs) :
    Bounded g t := by
  have lane (l : LaneId) : t.lane l = s.lane l := by unfold State.lane; rw [lanes]
  refine h.quiet engines (fun l => by rw [lane]) (fun l => by rw [lane]) (fun l => (owedOf_jobs jobs l).le) fun n j l hj => ?_
  rw [lane]
  exact h.guarded n j l ((congrArg (tget · n) jobs).symm.trans hj)

theorem registers (h : Bounded g s) (k : RegistersOnly s t) : Bounded g t := by
  unfold RegistersOnly at k
  rw [k]
  exact h.of_eq rfl rfl rfl

theorem still (h : Bounded g s) (k : Still s t) : Bounded g t := by
  refine ⟨fun l => ?_, fun l hl => ?_, fun e => ?_, fun n j l hj => ?_⟩
  · rw [k.spots]
    exact h.load l
  · rw [k.spots, owedOf_jobs k.jobs]
    exact h.owed l ((k.clearing l).symm.trans hl)
  · rw [k.spots]
    exact h.parked e
  · rw [k.clearing]
    exact h.guarded n j l ((congrArg (tget · n) k.jobs).symm.trans hj)

/-- Jobs that have been taken up may be taken up with others. -/
theorem loosen (h : Bounded g s) (k : ∀ n, g.loose n → g'.loose n) : Bounded g' s :=
  ⟨h.load, h.owed, h.parked, fun n j l hj hs hl => (h.guarded n j l hj hs hl).imp_left (k n)⟩

/-- A job is written. -/
theorem modJob (h : Bounded g s) (o : Tables s) (n : Nat) {f : Job → Job}
    (owed : ∀ j, s.job? n = some j → ∀ l, owes l (f j) = true → owes l j = true)
    (guarded : ∀ j, s.job? n = some j → (f j).state = .uncertain → ∀ l, (f j).lane = some l →
      g'.loose n ∨ (s.lane l).clearing = true)
    (others : ∀ m, m ≠ n → g.loose m → g'.loose m) : Bounded g' (s.modJob n f) := by
  refine h.quiet rfl (fun _ => le_rfl) (fun _ => rfl) (fun l => ?_) fun m j l hm hs hl => ?_
  · cases hj : s.job? n with
    | none => exact (owedOf_jobs (tmod_of_none f hj) l).le
    | some j =>
      have change := owedOf_modJob o.jobs hj f l
      have less : (owes l (f j)).toNat ≤ (owes l j).toNat := by
        cases hf : owes l (f j)
        · exact Nat.zero_le _
        · rw [owed j hj l hf]
      omega
  · rw [job?_modJob] at hm
    split at hm
    next same =>
      subst same
      obtain ⟨i, hi, rfl⟩ := Option.map_eq_some_iff.mp hm
      exact guarded i hi hs l hl
    next other => exact (h.guarded m j l hm hs hl).imp_left (others m other)

/-- A job takes a state in which it owes no lane its plate. -/
theorem idle (h : Bounded g s) (o : Tables s) (n : Nat) {f : Job → Job}
    (hf : ∀ j, (f j).state ∉ [.exposing, .developing, .finishing, .uncertain])
    (others : ∀ m, m ≠ n → g.loose m → g'.loose m) : Bounded g' (s.modJob n f) := by
  refine h.modJob o n (fun j _ l owed => ?_) (fun j _ hs => ?_) others
  · rw [owes_state rfl (hf j)] at owed
    cases owed
  · exact absurd (by simp [hs]) (hf j)

/-- A job is written in nothing that bears on the lanes. -/
theorem marked (h : Bounded g s) (o : Tables s) (n : Nat) {f : Job → Job}
    (hf : ∀ j, (f j).state = j.state ∧ (f j).engine = j.engine ∧ (f j).lane = j.lane) : Bounded g (s.modJob n f) := by
  refine h.modJob o n (fun j _ l owed => ?_) (fun j hj hs l hl => ?_) fun m _ => id
  · obtain ⟨state, engine, lane⟩ := hf j
    unfold owes at owed ⊢
    rwa [state, engine, lane] at owed
  · obtain ⟨state, -, lane⟩ := hf j
    exact h.guarded n j l hj (state.symm.trans hs) (lane.symm.trans hl)

/-- A lane order becomes no longer. -/
theorem modFloor (h : Bounded g s) (l : LaneId) {f : LaneFloor → LaneFloor}
    (hf : (f (s.lane l).floor).order.length ≤ (s.lane l).floor.order.length) : Bounded g (s.modFloor l f) := by
  have clearing (q : LaneId) : ((s.modFloor l f).lane q).clearing = (s.lane q).clearing := by
    rw [lane_modFloor]
    split <;> rfl
  refine h.quiet rfl (fun q => ?_) clearing (fun _ => le_rfl) fun n j q hj hs hl => ?_
  · rw [lane_modFloor]
    split
    next same => rw [same]; exact hf
    next => exact le_rfl
  · rw [clearing]
    exact h.guarded n j q hj hs hl

/-- An engine's contexts ask for no more than they did. -/
theorem modCtx (h : Bounded g s) (e : EngineId) {f : Contexts → Contexts}
    (running : (f (s.engine e).ctx).current.isSome.toNat ≤ (s.engine e).ctx.current.isSome.toNat)
    (sent : sentSpot (waitSpot (f (s.engine e).ctx).next) ≤ sentSpot (waitSpot (s.engine e).ctx.next))
    (parked : sentSpot (waitSpot (f (s.engine e).ctx).parked) = 0) : Bounded g (s.modCtx e f) := by
  have moved := spots_modCtx e f s
  have fewer (l : LaneId) : (spots (s.modCtx e f)).sent l ≤ (spots s).sent l := by
    have change := Spots.sent_setCtx (spots s) e ((f (s.engine e).ctx).current.map CurrentCtx.job)
      (waitSpot (f (s.engine e).ctx).next) (waitSpot (f (s.engine e).ctx).parked) l
    rw [moved]
    have before : (spots s).next e = waitSpot (s.engine e).ctx.next := rfl
    rw [before] at change
    split at change <;> omega
  refine ⟨fun l => ?_, fun l hl => ?_, fun q => ?_, h.guarded⟩
  · have change := Spots.running_setCtx (spots s) e ((f (s.engine e).ctx).current.map CurrentCtx.job)
      (waitSpot (f (s.engine e).ctx).next) (waitSpot (f (s.engine e).ctx).parked) l
    rw [← moved] at change
    have before : (spots s).cur e = (s.engine e).ctx.current.map CurrentCtx.job := rfl
    rw [before, Option.isSome_map, Option.isSome_map] at change
    have loaded := h.load l
    have order : (spots (s.modCtx e f)).order l = (spots s).order l := rfl
    have sent := fewer l
    unfold Spots.load at loaded ⊢
    rw [order]
    split at change <;> omega
  · have bound := h.owed l hl
    have sent := fewer l
    have owed : owedOf (s.modCtx e f) l = owedOf s l := owedOf_jobs rfl l
    omega
  · rw [moved, parked_setCtx]
    split
    · exact parked
    · exact h.parked q

/-- A job that owes no lane its plate enters the table. -/
theorem addJob (h : Bounded g s) (free : s.job? n = none) (idle : j.state ∉ [.exposing, .developing, .finishing, .uncertain]) :
    Bounded g (s.addJob n j) := by
  refine h.quiet rfl (fun _ => le_rfl) (fun _ => rfl) (fun l => ?_) fun m i l hm hs hl => ?_
  · rw [owedOf_addJob free, owes_state rfl idle]
    exact le_rfl
  · rw [job?_addJob] at hm
    split at hm
    · cases hm
      exact absurd (by simp [hs]) idle
    · exact h.guarded m i l hm hs hl

/-- A job leaves the table. -/
theorem dropJob (h : Bounded g s) (o : Tables s) (n : Nat) : Bounded (g.ended n) (s.dropJob n) := by
  refine h.quiet rfl (fun _ => le_rfl) (fun _ => rfl) (fun l => ?_) fun m i l hm hs hl => ?_
  · cases hj : s.job? n with
    | none => exact (owedOf_jobs (tdel_of_none hj) l).le
    | some j => exact (Nat.le_add_right _ _).trans (owedOf_dropJob o.jobs hj l).le
  · rw [job?_dropJob] at hm
    split at hm
    · cases hm
    next other => exact (h.guarded m i l hm hs hl).imp_left fun loose => ⟨loose, other⟩

/-- A job is created. -/
theorem createJob (h : Bounded g s) (k : PosKey) (x : Position) (free : s.job? (nextNumber s) = none) :
    Bounded g (createJob k x s) := by
  obtain ⟨v, w, e⟩ := createJob_eq k x s
  have added : Bounded g (s.addJob (nextNumber s) (newJob s k x)) := h.addJob free (by simp [newJob])
  rw [e]
  refine Bounded.registers ?_ (.raised _ _)
  exact added.of_eq rfl rfl rfl

theorem needTest (h : Bounded g s) (k : PosKey) : Bounded g (needTest k s) :=
  needTest_keeps k h (fun x _ _ room => h.createJob k x (nextNumber_fresh s room)) (fun _ => h.of_eq rfl rfl rfl)
    fun _ n h => h.registers (.raised n _)

theorem tellSatisfied (h : Bounded g s) (k : PosKey) : Bounded g (tellSatisfied k s) := by
  obtain ⟨v, w, p, e⟩ := tellSatisfied_parts k s
  rw [e]
  exact h.of_eq rfl rfl rfl

end Bounded

end Sys2Proof.Machine
end

section
/-! Every step keeps the capacities (R86, R112). -/

namespace Sys2Proof.Machine

open State

variable {w c : Prop} {b : Gaps × State} {g g' : Gaps} {s t u : State} {n : Nat} {j : Job} {l : LaneId} {e : EngineId}

/-- A lane that no UNCERTAIN job is of. -/
theorem uncertainIn_eq_zero (o : Tables s) (none : ∀ n j, s.job? n = some j → j.state = .uncertain → j.lane ≠ some l) :
    uncertainIn s l = 0 := by
  have strayed : uncertainIn s l = (strays s l).length := (List.length_map _).symm
  rw [strayed, List.length_eq_zero_iff, List.eq_nil_iff_forall_not_mem]
  intro n hn
  obtain ⟨j, hj, state, lane⟩ := (mem_strays o.jobs).mp hn
  exact none n j hj state lane

namespace Bounded

/-- A job leaves the lanes for the end of its life. -/
theorem departCore (h : Bounded g s) (o : Tables s) {x : JobState} (hx : x = .retired ∨ x = .cancelled ∨ x = .discarded)
    (hj : s.job? n = some j) : Bounded (g.ended n) (departCore n x s) := by
  have idle : x ∉ [JobState.exposing, .developing, .finishing, .uncertain] := by rcases hx with rfl | rfl | rfl <;> simp
  refine departCore_phases (M := fun t => Tables t ∧ Bounded g t) (V := fun t => Tables t ∧ Bounded g t)
    (N := Bounded (g.ended n)) hj ⟨o.modJob n _, h.idle o n (fun _ => idle) fun _ _ => id⟩ ?_ ?_ ?_ ?_ ?_ ?_ ?_ ?_
  · exact fun t k => ⟨k.1.reacts (evalStarved_reacts t), k.2.registers (.starved t)⟩
  · exact fun t k => ⟨k.1.releaseRefs _, k.2.registers (.released _ t)⟩
  · exact fun t p k => ⟨k.1.reacts (lowerLive_reacts p t), k.2.registers (.lowered p t)⟩
  · exact fun t k _ => k
  · intro t y k _ _
    have vacated : Bounded g (t.modWork j.key fun w => { w with current := none }) := k.2.of_eq rfl rfl rfl
    refine ⟨?_, (vacated.needTest j.key).registers (.starved _)⟩
    exact ((k.1.modWork j.key _).reacts (needTest_reacts j.key _)).reacts (evalStarved_reacts _)
  · exact fun t m k => ⟨k.1.reacts (raise_reacts m t), k.2.registers (.raised m t)⟩
  · exact fun t k => k.2.dropJob k.1 n
  · exact fun t k h => h.tellSatisfied k

/-- A job is sent EXPOSE where its lane has room. -/
theorem expose (h : Bounded g s) (o : Tables s) {x : WaitingCtx} (hx : (s.engine e).ctx.next = some x)
    (room : s.laneRoom (laneFed e) = true) : Bounded g (sendExpose e s) := by
  have sent : Bounded g (s.modCtx e fun c => { c with
      next := some { x with stage := .exposeSent, timer := some s.limits.load } }) := by
    have moved := spots_modCtx e (fun c => { c with
      next := some { x with stage := .exposeSent, timer := some s.limits.load } }) s
    obtain ⟨free, opened⟩ : loadOf s (laneFed e) < 12 ∧ (s.lane (laneFed e)).clearing = false :=
      (s.laneRoom_iff_hasLaneRoom (laneFed e)).mp room
    have one (l : LaneId) : (spots (s.modCtx e fun c => { c with
        next := some { x with stage := .exposeSent, timer := some s.limits.load } })).sent l ≤
          (spots s).sent l + if laneFed e = l then 1 else 0 := by
      have change := Spots.sent_setCtx (spots s) e ((s.engine e).ctx.current.map CurrentCtx.job) (some (x.job, .exposeSent))
        (waitSpot (s.engine e).ctx.parked) l
      rw [moved]
      have more : sentSpot (some (x.job, .exposeSent)) = 1 := rfl
      rw [more] at change
      exact Nat.le.intro change
    refine ⟨fun l => ?_, fun l hl => ?_, fun q => ?_, h.guarded⟩
    · have loaded := h.load l
      have more := one l
      have running : (spots (s.modCtx e fun c => { c with
          next := some { x with stage := .exposeSent, timer := some s.limits.load } })).running l = (spots s).running l := by
        have change := Spots.running_setCtx (spots s) e ((s.engine e).ctx.current.map CurrentCtx.job) (some (x.job, .exposeSent))
          (waitSpot (s.engine e).ctx.parked) l
        rw [moved]
        exact Nat.add_right_cancel change
      have order : (spots (s.modCtx e fun c => { c with
          next := some { x with stage := .exposeSent, timer := some s.limits.load } })).order l = (spots s).order l := rfl
      rw [loadOf_eq_load] at free
      unfold Spots.load at loaded free ⊢
      rw [running, order]
      split at more
      next here =>
        subst here
        omega
      next => omega
    · have away : laneFed e ≠ l := by
        rintro rfl
        cases opened.symm.trans hl
      have more := one l
      rw [if_neg away] at more
      exact (Nat.add_le_add_left more _).trans (h.owed l hl)
    · rw [moved, parked_setCtx]
      split
      · exact h.parked e
      · exact h.parked q
  rw [sendExpose, hx]
  have marked := sent.marked (o.modCtx e _) x.job (f := fun j => { j with applied := some (s.register e).correction }) fun _ => ⟨rfl, rfl, rfl⟩
  exact marked.of_eq rfl rfl rfl

/-- The next job of an engine is exposed. -/
theorem start (h : Bounded g s) (o : Tables s) (p : InPlace g s) {x : WaitingCtx} (hx : (s.engine e).ctx.next = some x)
    (hs : x.stage = .exposeSent) : Bounded g (startsAt e x s) := by
  have waits : (spots s).next e = some (x.job, .exposeSent) := by
    show waitSpot (s.engine e).ctx.next = _
    rw [hx, ← hs]
    rfl
  obtain ⟨i, hi, state, engine, -⟩ := p.ok.next e _ _ waits
  have places : spots (startsAt e x s) =
      ((spots s).setCtx e (some x.job) ((spots s).parked e) none).setJob x.job (some { i with state := .exposing }) := by
    have live : (s.modCtx e fun c => Contexts.parkedReturn { c with current := some ⟨x.job, s.limits.expose, x.cut⟩, next := none }).job?
        x.job = some i := hi
    unfold startsAt
    rw [spots_modJob, spots_modCtx, live]
    rfl
  have running (l : LaneId) : (spots (startsAt e x s)).running l ≤ (spots s).running l + if laneFed e = l then 1 else 0 := by
    have change := Spots.running_setCtx (spots s) e (some x.job) ((spots s).parked e) none l
    rw [places]
    exact Nat.le.intro change
  have sent (l : LaneId) : (spots (startsAt e x s)).sent l + (if laneFed e = l then 1 else 0) = (spots s).sent l := by
    have change := Spots.sent_setCtx (spots s) e (some x.job) ((spots s).parked e) none l
    rw [waits, h.parked e, ite_self] at change
    rw [places]
    exact change
  have owed (l : LaneId) : owedOf (startsAt e x s) l = owedOf s l + if laneFed e = l then 1 else 0 := by
    have change := owedOf_modJob o.jobs hi (fun j => { j with state := .exposing }) l
    have before : owes l i = false := owes_state state (by simp)
    have after : owes l { i with state := .exposing } = decide (laneFed e = l) := by
      rw [owes_exposing rfl, engine]
      simp
    have jobs : (startsAt e x s).jobs = (s.modJob x.job fun j => { j with state := .exposing }).jobs := rfl
    rw [before, after] at change
    rw [owedOf_jobs jobs]
    by_cases here : laneFed e = l
    · rw [if_pos here]
      simpa [here] using change
    · rw [if_neg here]
      simpa [here] using change
  refine ⟨fun l => ?_, fun l hl => ?_, fun q => ?_, fun m j l hj hu hl => ?_⟩
  · have loaded := h.load l
    have r := running l
    have a := sent l
    have order : (spots (startsAt e x s)).order l = (spots s).order l := rfl
    unfold Spots.load at loaded ⊢
    rw [order]
    omega
  · have bound := h.owed l hl
    have a := sent l
    rw [owed]
    omega
  · rw [places]
    show sentSpot (((spots s).setCtx e (some x.job) ((spots s).parked e) none).parked q) = 0
    rw [parked_setCtx]
    split
    · rfl
    · exact h.parked q
  · have written : (s.modJob x.job fun j => { j with state := .exposing }).job? m = some j := hj
    rw [job?_modJob] at written
    split at written
    · obtain ⟨i', -, rfl⟩ := Option.map_eq_some_iff.mp written
      cases hu
    · exact h.guarded m j l written hu hl

/-- An exposed plate goes to the lane. -/
theorem develop (h : Bounded g s) (o : Tables s) (p : InPlace g s) {x : CurrentCtx} (hx : (s.engine e).ctx.current = some x) :
    Bounded g (developsAt e x.job s) := by
  have here : (spots s).cur e = some x.job := by
    show (s.engine e).ctx.current.map CurrentCtx.job = _
    rw [hx]
    rfl
  obtain ⟨i, hi, state, engine, -⟩ := p.ok.current e _ here
  have owing (l : LaneId) (owed : owes l { i with state := .developing, lane := some (laneFed e) } = true) : owes l i = true := by
    rw [owes_inLane (by simp)] at owed
    rw [owes_exposing state, engine]
    exact owed
  obtain ⟨v, hv⟩ := releaseRefs_slots ((s.job? x.job).map Job.slots |>.getD []) (s.modCtx e fun c => { c with current := none })
  have jobs : (developsAt e x.job s).jobs = (s.modJob x.job fun j => { j with state := .developing, lane := some (laneFed e) }).jobs := by
    unfold developsAt
    rw [hv]
    rfl
  have places : (spots (developsAt e x.job s)).running = ((spots s).setCtx e none ((spots s).next e) ((spots s).parked e)).running ∧
      (spots (developsAt e x.job s)).sent = ((spots s).setCtx e none ((spots s).next e) ((spots s).parked e)).sent ∧
      (spots (developsAt e x.job s)).parked = (spots s).parked := by
    have engines : (developsAt e x.job s).engines = (s.modCtx e fun c => { c with current := none }).engines := by
      unfold developsAt
      rw [hv]
      rfl
    rw [running_of_engines engines, sent_of_engines engines, parked_of_engines engines, spots_modCtx]
    refine ⟨rfl, rfl, funext fun q => ?_⟩
    rw [parked_setCtx]
    split
    next same => rw [same]; rfl
    next => rfl
  have lane (q : LaneId) : (developsAt e x.job s).lane q = if q = laneFed e then { s.lane q with floor := { (s.lane q).floor with
      order := (s.lane q).floor.order ++ [⟨x.job, .inDeveloper, some (s.lane (laneFed e)).transit⟩] } } else s.lane q := by
    unfold developsAt
    rw [hv, lane_modFloor]
    rfl
  have sent (l : LaneId) : (spots (developsAt e x.job s)).sent l = (spots s).sent l := by
    rw [places.2.1]
    exact Nat.add_right_cancel (Spots.sent_setCtx (spots s) e none ((spots s).next e) ((spots s).parked e) l)
  have running (l : LaneId) : (spots (developsAt e x.job s)).running l + (if laneFed e = l then 1 else 0) = (spots s).running l := by
    have change := Spots.running_setCtx (spots s) e none ((spots s).next e) ((spots s).parked e) l
    rw [here] at change
    rw [places.1]
    simpa using change
  have clearing (q : LaneId) : ((developsAt e x.job s).lane q).clearing = (s.lane q).clearing := by
    rw [lane]
    split <;> rfl
  have written := h.modJob (g' := g) o x.job (f := fun j => { j with state := .developing, lane := some (laneFed e) })
    (fun j hj l owed => (by cases hi.symm.trans hj; exact owing l owed)) (fun _ _ hu => by cases hu) fun _ _ => id
  refine ⟨fun l => ?_, fun l hl => ?_, fun q => ?_, fun m j l hj hu hl => ?_⟩
  · have loaded := h.load l
    have r := running l
    unfold Spots.load at loaded ⊢
    rw [order_length] at loaded ⊢
    rw [sent, lane]
    by_cases fed : l = laneFed e
    · subst fed
      rw [if_pos rfl] at r ⊢
      rw [List.length_append]
      show _ + 1 + _ + _ ≤ _
      omega
    · rw [if_neg (Ne.symm fed)] at r
      rw [if_neg fed]
      omega
  · rw [clearing] at hl
    rw [sent, owedOf_jobs jobs]
    exact written.owed l hl
  · rw [places.2.2]
    exact h.parked q
  · rw [clearing]
    exact written.guarded m j l ((congrArg (tget · m) jobs).symm.trans hj) hu hl

/-- A lane that is clearing gives a plate back. -/
theorem reclaim (h : Bounded g s) (o : Tables s) {x : JobState} {st : LaneStage} (hj : s.job? n = some j)
    (hu : j.state = .uncertain) (hl : j.lane = some l) (out : ¬ g.loose n) (hx : x = .developing ∨ x = .finishing)
    (p : InPlace g (Machine.reclaim l n x st s)) (o' : Tables (Machine.reclaim l n x st s)) :
    Bounded g (Machine.reclaim l n x st s) := by
  have clearing : (s.lane l).clearing = true := (h.guarded n j l hj hu hl).resolve_left out
  have written := h.modJob (g' := g) o n (f := fun i => { i with state := x })
    (fun i hi q owed => by
      cases hj.symm.trans hi
      rw [owes_inLane (by rcases hx with rfl | rfl <;> simp)] at owed
      rw [owes_inLane (by simp [hu])]
      exact owed)
    (fun i hi hs => by rcases hx with rfl | rfl <;> cases hs) fun _ _ => id
  obtain ⟨v, hv⟩ := releaseRefs_slots ((s.job? n).map Job.slots |>.getD []) s
  have jobs : (Machine.reclaim l n x st s).jobs = (s.modJob n fun i => { i with state := x }).jobs := by
    unfold Machine.reclaim
    dsimp only
    rw [hv]
    rfl
  have engines : (Machine.reclaim l n x st s).engines = s.engines := by
    unfold Machine.reclaim
    dsimp only
    rw [hv]
    rfl
  have lane (q : LaneId) (other : q ≠ l) : (Machine.reclaim l n x st s).lane q = s.lane q := by
    unfold Machine.reclaim
    dsimp only
    rw [hv, lane_modFloor, if_neg other]
    rfl
  have phases (q : LaneId) : ((Machine.reclaim l n x st s).lane q).clearing = (s.lane q).clearing := by
    unfold Machine.reclaim
    dsimp only
    rw [hv, lane_modFloor]
    split <;> rfl
  have owed (q : LaneId) (hq : (s.lane q).clearing = true) :
      owedOf (Machine.reclaim l n x st s) q + (spots (Machine.reclaim l n x st s)).sent q ≤ 12 := by
    rw [owedOf_jobs jobs, sent_of_engines engines]
    exact written.owed q hq
  refine ⟨fun q => ?_, fun q hq => owed q ((phases q).symm.trans hq), fun q => ?_, fun m i q hi hs hq => ?_⟩
  · by_cases same : q = l
    · subst same
      have plates := plates_le_owed p o' q
      have bound := owed q clearing
      unfold Spots.load
      omega
    · have loaded := h.load q
      unfold Spots.load at loaded ⊢
      rwa [order_length, lane q same, ← order_length, running_of_engines engines, sent_of_engines engines]
  · rw [parked_of_engines engines]
    exact h.parked q
  · rw [phases]
    exact written.guarded m i q ((congrArg (tget · m) jobs).symm.trans hi) hs hq

/-- The engines and the lanes are emptied, and every lane is clearing. -/
theorem empty (h : Bounded Gaps.closed s) (o : Tables s) (p : Placed s) (k : Housed s) (e : Emptied s t) : Bounded g t := by
  have sent (l : LaneId) : (spots t).sent l = 0 := by
    rw [e.spots]
    unfold Spots.sent fedSum
    exact Finset.sum_eq_zero fun q _ => by split <;> rfl
  have running (l : LaneId) : (spots t).running l = 0 := by
    rw [e.spots]
    unfold Spots.running fedSum
    exact Finset.sum_eq_zero fun q _ => by split <;> rfl
  refine ⟨fun l => ?_, fun l _ => ?_, fun q => ?_, fun _ _ l _ _ _ => .inr (e.clearing l)⟩
  · unfold Spots.load
    rw [sent, running, e.spots]
    exact Nat.zero_le _
  · rw [sent, owedOf_jobs e.jobs]
    cases hl : (s.lane l).clearing with
    | true => exact (Nat.le_add_right _ _).trans (h.owed l hl)
    | false =>
      have none : uncertainIn s l = 0 := by
        refine uncertainIn_eq_zero o fun n j hj state lane => ?_
        obtain ⟨l', lane', clearing⟩ := k.uncertain n j hj state
        cases lane.symm.trans lane'
        cases hl.symm.trans clearing
      have bound := owed_le_plates p k o l
      have loaded := h.load l
      unfold Spots.load at loaded
      omega
  · rw [e.spots]
    rfl

/-- What is left behind when contexts hold fewer jobs. -/
theorem fewer (h : Bounded g s) {f : Contexts → Contexts} (less : CtxFewer (s.engine e).ctx (f (s.engine e).ctx)) :
    Bounded g (s.modCtx e f) := by
  have parked : sentSpot (waitSpot (s.engine e).ctx.parked) = 0 := h.parked e
  refine h.modCtx e ?_ ?_ ?_
  · have run := less.cur
    rw [← Option.isSome_map (f := CurrentCtx.job), ← Option.isSome_map (f := CurrentCtx.job)]
    obtain e | e := run
    · rw [e]
      exact Nat.zero_le _
    · rw [e]
  · obtain e | e | ⟨e, -⟩ := less.next
    · rw [e]
      exact Nat.zero_le _
    · rw [e]
    · rw [e, parked]
      exact Nat.zero_le _
  · obtain e | e := less.parked
    · rw [e]
      rfl
    · rw [e, parked]

end Bounded

/-- A delivered plate leaves its lane. -/
theorem Bounded.lands (h : Bounded g s) (o : Tables s) (d : Delivery) : Bounded g (landsAt d.lane d.job s) := by
  have racked := h.idle (g' := g) o d.job (f := fun x => { x with state := .racked }) (fun _ => by simp) fun _ _ => id
  unfold landsAt dropEntry
  exact racked.modFloor d.lane (f := fun f => { f with order := f.order.filter fun x => x.job ≠ d.job })
    (List.length_filter_le _ _)

theorem sentSpot_markLoaded (n : Nat) (x : Option WaitingCtx) : sentSpot (waitSpot (markLoaded n x)) ≤ sentSpot (waitSpot x) := by
  cases x with
  | none => exact le_rfl
  | some x =>
    show sentSpot (waitSpot (some (if x.job = n then { x with stage := .loaded, timer := none } else x))) ≤ _
    split
    · exact Nat.zero_le _
    · exact le_rfl

theorem Bounded.refreshCounts (h : Bounded g s) (p : PressId) : Bounded g (refreshCounts p s) := by
  have standing : Bounded g (refreshStanding p s) := by
    unfold refreshStanding
    generalize s.positionsOf p = l
    induction l generalizing s with
    | nil => exact h
    | cons x l ih =>
      refine ih (s := s.modWork x.1 _) ?_
      exact h.of_eq rfl rfl rfl
  unfold Machine.refreshCounts
  dsimp only
  rw [evalPress_eq]
  refine Bounded.registers ?_ (.raisedAll _ _)
  exact standing.of_eq rfl rfl rfl

/-- The starting state holds no job. -/
theorem bounded_reset : Bounded Gaps.closed State.reset := by
  refine ⟨fun l => ?_, fun l _ => ?_, fun e => ?_, fun n j l hj => by cases hj⟩
  · fin_cases l <;> decide
  · fin_cases l <;> decide
  · fin_cases e <;> decide

/-! ### Deeds -/

/-- Every deed keeps the loads within the lane order's room. -/
theorem Deed.bounded (d : Deed w c (g, s) (g', t)) (hw : w) (o : Tables s) (p : InPlace g s) (h : Bounded g s) : Bounded g' t := by
  have p' := d.inPlace hw p
  have o' := d.tables o
  have away {x : State} {q : Nat} (k : Bounded g x) : Bounded (g.take fun m => m = q) x := k.loosen fun _ => .inl
  cases d with
  | blind _ _ _ hn => exact absurd hw hn
  | still k => exact h.still k
  | assign _ _ e n j hj hq hn =>
    unfold Machine.assign
    have waiting : Bounded g (s.modCtx e fun c => { c with next := some ⟨n, .loadSent, some s.limits.load, false⟩ }) :=
      h.modCtx e le_rfl (Nat.zero_le _) (h.parked e)
    have given := waiting.idle (g' := g) (o.modCtx e _) n (f := fun j => { j with state := .assigned, engine := some e })
      (fun _ => by simp) fun _ _ => id
    exact given.of_eq rfl rfl rfl
  | park _ _ e u hu hs hp =>
    refine h.modCtx e le_rfl (Nat.zero_le _) ?_
    rw [hu]
    simp [waitSpot, sentSpot, hs]
  | expose _ _ e u hu hr room => exact h.expose o hu room
  | create _ _ k x hx hn hl => exact h.createJob k x (nextNumber_fresh s hl)
  | defer => exact h.of_eq rfl rfl rfl
  | tell _ _ k => exact (h.tellSatisfied k).loosen fun _ => id
  | core _ _ n j x hx hj => exact h.departCore o hx hj
  | note _ _ n f hf => exact h.marked o n fun j => by rw [hf j]; exact ⟨rfl, rfl, rfl⟩
  | queue _ _ n a j =>
    have retaken := h.registers (.retaken j s)
    have entry : Bounded g (retakeRefs j s).bumpEntry := retaken.of_eq rfl rfl rfl
    unfold enterQueue
    exact entry.idle (o.retakeRefs j).bumpEntry n (fun _ => by simp) fun m other loose => ⟨loose, other⟩
  | fail _ _ n j =>
    exact (h.registers (.retaken j s)).idle (o.retakeRefs j) n (fun _ => by simp) fun m other loose => ⟨loose, other⟩
  | fewer _ _ e f M hl => exact (h.fewer hl).loosen fun _ => .inl
  | loaded _ _ e n =>
    refine h.modCtx e le_rfl (sentSpot_markLoaded n _) ?_
    exact Nat.le_zero.mp ((sentSpot_markLoaded n _).trans (h.parked e).le)
  | start _ _ e u hu hs => exact h.start o p hu hs
  | develop _ _ e u hu => exact h.develop o p hu
  | leave _ _ l n => exact away (h.modFloor l (List.length_filter_le _ _))
  | pass _ _ l n hy =>
    obtain ⟨y, mem, rfl, stage⟩ := hy hw
    obtain ⟨i, hi, lane, inLane⟩ := p.ok.inOrder (mem_orderSpots.mpr ⟨y, mem, rfl, rfl⟩)
    have moved := h.modFloor l (f := fun f => { f with order := f.order.map fun x =>
      if x.job = y.job then { x with stage := .punching, timer := none } else x }) (List.length_map _).le
    refine moved.modJob (o.modFloor l _) y.job (fun j hj q owed => ?_) (fun j hj hu => by cases hu) fun _ _ => id
    cases hi.symm.trans hj
    rw [owes_inLane (by simp)] at owed
    rw [owes_inLane (by rcases inLane with e | e <;> simp [e])]
    exact owed
  | reclaim _ _ l n j st x hj hu hl out hst =>
    exact h.reclaim o hj hu hl out (by rcases hst with e | e <;> cases e <;> simp) p' o'
  | mark _ _ l n st f hf =>
    refine h.modFloor l ?_
    rw [hf, markStage, List.length_map]
  | grant _ _ l n j d =>
    have granted : Bounded g (s.setDelivery (some ⟨l, n, j.attempt, d⟩)) := h.of_eq rfl rfl rfl
    exact granted.modFloor l (List.length_map _).le
  | rack _ _ d p q j =>
    have racked : Bounded g (s.setRack ⟨p, q⟩ (s.rack ⟨p, q⟩ ++ [d.job])) := h.of_eq rfl rfl rfl
    exact (racked.lands (setRack_tables _ _ o) d).loosen fun _ => id
  | shelve _ _ d p j =>
    have shelved : Bounded g (s.setShelf p (s.shelf p ++ [(d.job, j.pos)])) := h.of_eq rfl rfl rfl
    exact (shelved.lands (o.setShelf _ _) d).loosen fun _ => id
  | spend => exact h.loosen fun _ => id
  | finish => exact Bounded.of_eq (h.loosen fun _ => id) rfl rfl rfl
  | pull _ _ k n =>
    have taken : Bounded g (takePlate k n s) := h.of_eq rfl rfl rfl
    exact taken.loosen fun _ => .inl
  | mount _ _ k x n =>
    have taken : Bounded g (takePlate k n s) := h.of_eq rfl rfl rfl
    have mounted := taken.idle (g' := g) (o.takePlate k n) n (f := fun j => { j with state := .mounted }) (fun _ => by simp) fun _ _ => id
    have worked : Bounded g (mountsAt k n s) := mounted.of_eq rfl rfl rfl
    exact worked.loosen fun _ => .inl
  | unmount _ _ k x =>
    have taken : Bounded g (s.modWork k fun y => { y with mounted := none }) := h.of_eq rfl rfl rfl
    exact taken.loosen fun _ => .inl
  | pressState => exact h.of_eq rfl rfl rfl
  | flag _ _ k x n j =>
    have flagged := h.marked o n (f := fun x => { x with superseded := true }) fun _ => ⟨rfl, rfl, rfl⟩
    have worked : Bounded g (flagsAt k n j s) := flagged.of_eq rfl rfl rfl
    exact worked.loosen fun _ => id
  | caught => exact h.loosen fun _ => id
  | arrive _ _ n v cl x a live ref => exact (h.registers (.arrived n v cl a x ref live s)).loosen fun _ => id
  | renew _ _ n old v cl x r ref =>
    exact ((h.registers (.cleared n s)).registers (.arrived n v cl _ x ref _ _)).loosen fun _ => id
  | strip _ _ n r => exact ((h.registers (.cleared n s)).registers (.put n _ _)).loosen fun _ => id
  | withdraw _ _ n r => exact (h.registers (.put n _ s)).loosen fun _ => id
  | remove _ _ n r => exact (h.registers (.removed n r s)).loosen fun _ => id
  | expect => exact h.of_eq rfl rfl rfl
  | blot => exact h.of_eq rfl rfl rfl
  | hold => exact h.of_eq rfl rfl rfl
  | commit => exact h.loosen fun _ => id
  | content => exact h.of_eq rfl rfl rfl
  | add => exact h.of_eq rfl rfl rfl
  | drop => exact h.of_eq rfl rfl rfl
  | recount _ _ p =>
    exact (h.refreshCounts p).loosen fun _ => id
  | reopen _ _ l =>
    have lane (q : LaneId) : (clearClearing l s).lane q = if q = l then { s.lane q with clearing := false } else s.lane q := lane_modLane l _ s q
    have order (q : LaneId) : ((clearClearing l s).lane q).floor.order = (s.lane q).floor.order := by
      rw [lane]
      split <;> rfl
    refine ⟨fun q => ?_, fun q hq => ?_, h.parked, fun n j q hj hu hq => ?_⟩
    · have loaded := h.load q
      unfold Spots.load at loaded ⊢
      rw [order_length, order, ← order_length]
      exact loaded
    · rw [lane] at hq
      split at hq
      · cases hq
      · exact h.owed q hq
    · rw [lane]
      split
      next same => exact .inl (.inr ⟨j, hj, hu, same ▸ hq⟩)
      next => exact (h.guarded n j q hj hu hq).imp_left .inl
  | empty e hb => exact h.empty o (inPlace_closed.mp p) (hb hw) e
  | lose _ _ n j hj hs ho hc =>
    refine h.modJob o n (fun i hi l owed => ?_) (fun _ _ _ l _ => .inr (hc l)) fun m other loose => ⟨loose, other⟩
    cases hj.symm.trans hi
    rw [owes_inLane (by simp)] at owed
    rw [owes_exposing hs]
    exact owed
  | strand _ _ n j hj hs hx ho hc =>
    have taken := RegistersOnly.taken j.slots s
    have clearing (l : LaneId) : ((takeRefs j.slots s).lane l).clearing = true := by
      unfold RegistersOnly at taken
      rw [taken]
      exact hc l
    refine (h.registers taken).modJob (o.takeRefs j.slots) n (fun i hi l owed => ?_) (fun _ _ _ l _ => .inr (clearing l))
      fun m other loose => ⟨loose, other⟩
    cases hj.symm.trans ((congrArg (tget · n) taken.jobs).symm.trans hi)
    rw [owes_inLane (by simp)] at owed
    rw [owes_inLane (by rcases hs with e | e <;> simp [e])]
    exact owed
  | restart =>
    exact bounded_reset.of_eq rfl rfl rfl

/-! ### Steps -/

/-- At every point of a command the loads are within the lane order's room, if they were at its start. -/
theorem At.bounded (a : At w c b g s) (hw : w) (o : Tables b.2) (p : InPlace b.1 b.2) (h : Bounded b.1 b.2) : Bounded g s := by
  have way := a.way
  suffices ends : ∀ x : Gaps × State, Relation.ReflTransGen (Deed w c) b x → Tables x.2 ∧ InPlace x.1 x.2 ∧ Bounded x.1 x.2 from
    (ends (g, s) way).2.2
  intro x way
  induction way with
  | refl => exact ⟨o, p, h⟩
  | tail _ d ih =>
    obtain ⟨o, p, h⟩ := ih
    exact ⟨d.tables o, d.inPlace hw p, d.bounded hw o p h⟩

/-- Between commands the bounds are those of the loads and of the plates that a clearing lane may still take back. -/
theorem bounded_closed (o : Tables s) (p : Placed s) (k : Housed s) (h : ∀ l, loadOf s l + uncertainIn s l ≤ 12) :
    Bounded Gaps.closed s := by
  refine ⟨fun l => ?_, fun l _ => ?_, fun e => ?_, fun n j l hj hu hl => .inr ?_⟩
  · rw [← loadOf_eq_load]
    exact (Nat.le_add_right _ _).trans (h l)
  · have plates := owed_le_plates p k o l
    have bound := h l
    rw [loadOf_eq_load, Spots.load] at bound
    omega
  · show sentSpot (waitSpot (s.engine e).ctx.parked) = 0
    cases parked : (s.engine e).ctx.parked with
    | none => rfl
    | some x => simp [waitSpot, sentSpot, k.parked e x parked]
  · obtain ⟨l', hl', clearing⟩ := k.uncertain n j hj hu
    cases hl.symm.trans hl'
    exact clearing

theorem Bounded.loads (h : Bounded Gaps.closed s) (o : Tables s) (p : Placed s) (l : LaneId) : loadOf s l + uncertainIn s l ≤ 12 := by
  rw [loadOf_eq_load]
  cases hl : (s.lane l).clearing with
  | true =>
    have plates := plates_le_owed (inPlace_closed.mpr p) o l
    have bound := h.owed l hl
    unfold Spots.load
    omega
  | false =>
    have none : uncertainIn s l = 0 := uncertainIn_eq_zero o fun n j hj hu lane => by
      obtain loose | clearing := h.guarded n j l hj hu lane
      · exact loose
      · cases hl.symm.trans clearing
    rw [none]
    exact h.load l

/-- Settles O12. -/
theorem capacitiesKept : Obligations.CapacitiesKept := by
  unfold Obligations.CapacitiesKept
  refine ⟨fun s t o r p k h hstep => ?_, fun s t o h hstep => step_rackRoom o h hstep⟩
  have fits : WithinLimits t := AnyChanges.limits o r
    ⟨h.pages, h.slots, h.jobs, h.attempts, h.cassette, h.registers, h.inspections, h.links⟩ (step_any o.jobs hstep)
  have way : At True False (Gaps.closed, s) Gaps.closed t := step_at o (fun _ => p) (fun _ => k) False.elim False.elim hstep
  have bounded := way.bounded trivial o (inPlace_closed.mpr p) (bounded_closed o p k h.loads)
  exact ⟨fits.pages, fits.slots, fits.jobs, fits.attempts, fits.cassette, fits.registers, fits.inspections, fits.links,
    fun l => bounded.loads way.tables (inPlace_closed.mp (way.place trivial)) l⟩

end Sys2Proof.Machine
end

section
/-! The page register and the raster table agree at every point of a command (R1, R2, R6, R9). -/

namespace Sys2Proof.Machine

open State

variable {g g' : Gaps} {s t u : State} {n m : Nat} {j : Job} {r r' : PageRec} {k : SlotKey} {o : Slot}

/-- A page record is as its state says, or the page is being withdrawn and has been stripped of what had arrived. -/
structure RecordStands (stripped : Prop) (r : PageRec) : Prop where
  expected : r.state = .expected → r.version = none ∧ r.cls = none ∧ r.liveJobs = 0
  arrived : stripped ∨ r.state = .expected ∨ r.state = .withdrawn → ∀ x, r.arrived.has x = false
  known : r.state ≠ .expected → r.version ≠ none ∧ r.cls ≠ none
  complete : ¬ stripped → r.state = .partly ∨ r.state = .complete → ∀ c, r.cls = some c → r.state = stateFor c r.arrived
  withdrawn : r.state = .withdrawn → r.liveJobs ≠ 0
  mono : r.cls = some .mono → ∀ x, x ≠ .k → r.arrived.has x = false

/-- The page register and the raster table agree, but for the pages that are being withdrawn. -/
structure Recorded (g : Gaps) (s : State) : Prop where
  records : ∀ n r, s.page? n = some r → RecordStands (g.page n) r
  slots : ∀ k o, s.slot? k = some o → ∃ r v, s.page? k.page = some r ∧ r.version = some v ∧ k.version ≤ v ∧
    (k.version = v → r.state ≠ .withdrawn → ¬ g.page k.page → o.current = true)
  current : ∀ k o, s.slot? k = some o → o.current = true →
    ∃ r, s.page? k.page = some r ∧ r.version = some k.version ∧ r.arrived.has k.sep = true
  arrived : ∀ n r v x, s.page? n = some r → r.version = some v → r.arrived.has x = true →
    ∃ o, s.slot? ⟨n, v, x⟩ = some o ∧ o.current = true

/-- A page that has been stripped of what had arrived has no current slot. -/
theorem Recorded.not_current (h : Recorded g s) (hr : s.page? k.page = some r)
    (gone : g.page k.page ∨ r.state = .expected ∨ r.state = .withdrawn) (ho : s.slot? k = some o) : o.current = false := by
  cases hc : o.current with
  | false => rfl
  | true =>
    obtain ⟨r', hr', -, arrived⟩ := h.current k o ho hc
    cases hr.symm.trans hr'
    exact absurd arrived (by simp [(h.records _ r hr).arrived gone k.sep])

/-- A page that has arrived in a separation has a record with a version. -/
theorem Recorded.version (h : Recorded g s) (hr : s.page? n = some r) {x : Separation} (arrived : r.arrived.has x = true) :
    ∃ v, r.version = some v ∧ r.state ≠ .expected := by
  have stands := h.records n r hr
  have known : r.state ≠ .expected := fun e => by
    have none := stands.arrived (.inr (.inl e)) x
    rw [arrived] at none
    cases none
  obtain ⟨v, hv⟩ := Option.ne_none_iff_exists'.mp (stands.known known).1
  exact ⟨v, hv, known⟩

theorem recorded_closed : Recorded Gaps.closed s ↔ Filed s := by
  constructor
  · intro h
    refine ⟨fun n r hr => ?_, fun k o ho => ?_, h.current, h.arrived⟩
    · have stands := h.records n r hr
      exact ⟨stands.expected, fun e => stands.arrived (.inr e), stands.known, stands.complete not_false, stands.withdrawn, stands.mono⟩
    · obtain ⟨r, v, hr, hv, le, current⟩ := h.slots k o ho
      exact ⟨r, v, hr, hv, le, fun e w => current e w not_false⟩
  · intro h
    refine ⟨fun n r hr => ?_, fun k o ho => ?_, h.current, h.arrived⟩
    · have fits := h.records n r hr
      exact ⟨fits.expected, fun e => fits.arrived (e.resolve_left not_false), fits.known, fun _ => fits.complete, fits.withdrawn, fits.mono⟩
    · obtain ⟨r, v, hr, hv, le, current⟩ := h.slots k o ho
      exact ⟨r, v, hr, hv, le, fun e w _ => current e w⟩

namespace Recorded

/-! ### Slots -/

/-- The slots that are there were there, as current as they are; and every current slot stays. -/
structure SlotsAlike (s t : State) : Prop where
  before : ∀ k o', t.slot? k = some o' → ∃ o, s.slot? k = some o ∧ o'.current = o.current
  stays : ∀ k o, s.slot? k = some o → o.current = true → ∃ o', t.slot? k = some o' ∧ o'.current = true

namespace SlotsAlike

theorem of_slots (h : t.slots = s.slots) : SlotsAlike s t := by
  have slot (k : SlotKey) : t.slot? k = s.slot? k := by unfold State.slot?; rw [h]
  exact ⟨fun k o ho => ⟨o, (slot k).symm.trans ho, rfl⟩, fun k o ho hc => ⟨o, (slot k).trans ho, hc⟩⟩

theorem trans (h : SlotsAlike s t) (k : SlotsAlike t u) : SlotsAlike s u := by
  refine ⟨fun x o ho => ?_, fun x o ho hc => ?_⟩
  · obtain ⟨o', ho', e⟩ := k.before x o ho
    obtain ⟨o'', ho'', e'⟩ := h.before x o' ho'
    exact ⟨o'', ho'', e.trans e'⟩
  · obtain ⟨o', ho', hc'⟩ := h.stays x o ho hc
    exact k.stays x o' ho' hc'

theorem taken (ks : List SlotKey) (s : State) : SlotsAlike s (takeRefs ks s) := by
  refine ⟨fun k o ho => ?_, fun k o ho hc =>
    ⟨{ o with count := o.count + ks.count k }, (slot?_takeRefs ks s k).trans (by rw [ho]; rfl), hc⟩⟩
  rw [slot?_takeRefs] at ho
  obtain ⟨o', ho', rfl⟩ := Option.map_eq_some_iff.mp ho
  exact ⟨o', ho', rfl⟩

theorem retaken (j : Job) (s : State) : SlotsAlike s (retakeRefs j s) := by
  unfold retakeRefs
  split
  · exact of_slots rfl
  · exact taken _ _

theorem released (ks : List SlotKey) (s : State) : SlotsAlike s (releaseRefs ks s) := by
  refine ⟨fun k o ho => ?_, fun k o ho hc => ?_⟩
  · rw [slot?_releaseRefs] at ho
    split at ho
    · obtain ⟨o', ho', released⟩ := Option.bind_eq_some_iff.mp ho
      unfold Slot.releasing at released
      split at released
      · cases released
      · cases released
        exact ⟨o', ho', rfl⟩
    · exact ⟨o, ho, rfl⟩
  · rw [slot?_releaseRefs, ho]
    split
    · exact ⟨{ o with count := o.count - ks.count k }, if_neg fun e => by simp [hc] at e, hc⟩
    · exact ⟨o, rfl, hc⟩

theorem modSlot (q : SlotKey) {f : Slot → Slot} (hf : ∀ x, (f x).current = x.current) : SlotsAlike s (s.modSlot q f) := by
  have slot (k : SlotKey) : (s.modSlot q f).slot? k = (s.slot? k).map fun o => if k = q then f o else o := by
    rw [slot?_modSlot]
    split
    · rfl
    · exact (congrFun Option.map_id (s.slot? k)).symm
  have same (k : SlotKey) (o : Slot) : (if k = q then f o else o).current = o.current := by
    split
    · exact hf o
    · rfl
  refine ⟨fun k o ho => ?_, fun k o ho hc => ⟨_, (slot k).trans (by rw [ho]; rfl), (same k o).trans hc⟩⟩
  rw [slot] at ho
  obtain ⟨o', ho', rfl⟩ := Option.map_eq_some_iff.mp ho
  exact ⟨o', ho', same k o'⟩

end SlotsAlike

/-- The records stay; the slots are as current as they were. -/
theorem same (h : Recorded g s) (pages : t.pages = s.pages) (slots : SlotsAlike s t) : Recorded g t := by
  have page (n : Nat) : t.page? n = s.page? n := by unfold State.page?; rw [pages]
  refine ⟨fun n r hr => h.records n r ((page n).symm.trans hr), fun k o ho => ?_, fun k o ho hc => ?_, fun n r v x hr hv hx => ?_⟩
  · obtain ⟨o', ho', e⟩ := slots.before k o ho
    rw [page, e]
    exact h.slots k o' ho'
  · obtain ⟨o', ho', e⟩ := slots.before k o ho
    rw [page]
    exact h.current k o' ho' (e.symm.trans hc)
  · obtain ⟨o, ho, hc⟩ := h.arrived n r v x ((page n).symm.trans hr) hv hx
    exact slots.stays _ o ho hc

theorem of_eq (h : Recorded g s) (pages : t.pages = s.pages) (slots : t.slots = s.slots) : Recorded g t :=
  h.same pages (.of_slots slots)

/-- Nothing is being withdrawn that was not. -/
theorem gaps (h : Recorded g s) (page : ∀ n, g'.page n ↔ g.page n) : Recorded g' s := by
  refine ⟨fun n r hr => ?_, fun k o ho => ?_, h.current, h.arrived⟩
  · rw [propext (page n)]
    exact h.records n r hr
  · rw [propext (page k.page)]
    exact h.slots k o ho

/-! ### Records -/

/-- Live-job counts change. -/
theorem counted (h : Recorded g s) {f : Nat → Nat → Nat}
    (page : ∀ n, t.page? n = (s.page? n).map fun r => { r with liveJobs := f n r.liveJobs }) (slots : t.slots = s.slots)
    (expected : ∀ n r, s.page? n = some r → r.state = .expected → f n r.liveJobs = 0)
    (withdrawn : ∀ n r, s.page? n = some r → r.state = .withdrawn → f n r.liveJobs ≠ 0) : Recorded g t := by
  have slot (k : SlotKey) : t.slot? k = s.slot? k := by unfold State.slot?; rw [slots]
  have before {n : Nat} {r : PageRec} (hr : t.page? n = some r) :
      ∃ r', s.page? n = some r' ∧ r = { r' with liveJobs := f n r'.liveJobs } := by
    rw [page] at hr
    obtain ⟨r', hr', e⟩ := Option.map_eq_some_iff.mp hr
    exact ⟨r', hr', e.symm⟩
  have after {n : Nat} {r : PageRec} (hr : s.page? n = some r) : t.page? n = some { r with liveJobs := f n r.liveJobs } := by
    rw [page, hr]
    rfl
  refine ⟨fun n r hr => ?_, fun k o ho => ?_, fun k o ho hc => ?_, fun n r v x hr hv hx => ?_⟩
  · obtain ⟨r', hr', rfl⟩ := before hr
    have stands := h.records n r' hr'
    exact ⟨fun e => ⟨(stands.expected e).1, (stands.expected e).2.1, expected n r' hr' e⟩, stands.arrived, stands.known,
      stands.complete, withdrawn n r' hr', stands.mono⟩
  · obtain ⟨r, v, hr, hv, le, current⟩ := h.slots k o ((slot k).symm.trans ho)
    exact ⟨_, v, after hr, hv, le, current⟩
  · obtain ⟨r, hr, hv, hx⟩ := h.current k o ((slot k).symm.trans ho) hc
    exact ⟨_, after hr, hv, hx⟩
  · obtain ⟨r', hr', rfl⟩ := before hr
    rw [slot]
    exact h.arrived n r' v x hr' hv hx

/-- A record is removed with its slots. -/
theorem removed (h : Recorded g s) (page : ∀ m, t.page? m = if m = n then none else s.page? m)
    (slot : ∀ k : SlotKey, t.slot? k = if k.page = n then none else s.slot? k) (hg : ∀ m, m ≠ n → (g'.page m ↔ g.page m)) :
    Recorded g' t := by
  have before {k : SlotKey} {o : Slot} (ho : t.slot? k = some o) : k.page ≠ n ∧ s.slot? k = some o := by
    rw [slot] at ho
    split at ho
    · cases ho
    next other => exact ⟨other, ho⟩
  have known {m : Nat} (hm : m ≠ n) : t.page? m = s.page? m := by rw [page, if_neg hm]
  have here {m : Nat} {r : PageRec} (hr : t.page? m = some r) : m ≠ n := by
    rintro rfl
    rw [page, if_pos rfl] at hr
    cases hr
  refine ⟨fun m r hr => ?_, fun k o ho => ?_, fun k o ho hc => ?_, fun m r v x hr hv hx => ?_⟩
  · rw [propext (hg m (here hr))]
    exact h.records m r ((known (here hr)).symm.trans hr)
  · obtain ⟨other, ho'⟩ := before ho
    rw [known other, propext (hg k.page other)]
    exact h.slots k o ho'
  · obtain ⟨other, ho'⟩ := before ho
    rw [known other]
    exact h.current k o ho' hc
  · have other := here hr
    obtain ⟨o, ho, current⟩ := h.arrived m r v x ((known other).symm.trans hr) hv hx
    refine ⟨o, ?_, current⟩
    rw [slot, if_neg other]
    exact ho

/-- A record is written over with the same version and what had arrived; or it is new, and nothing has arrived. -/
theorem putPage (h : Recorded g s) (stands : RecordStands (g'.page n) r')
    (same : ∀ r, s.page? n = some r → r'.version = r.version ∧ r'.arrived = r.arrived ∧ (g'.page n ∨ r'.state = .withdrawn ∨
      ((r.state = .withdrawn → r'.state = .withdrawn) ∧ (g.page n → g'.page n))))
    (new : s.page? n = none → ∀ x, r'.arrived.has x = false) (hg : ∀ m, m ≠ n → (g'.page m ↔ g.page m)) :
    Recorded g' (s.putPage n r') := by
  have known {m : Nat} (hm : m ≠ n) : (s.putPage n r').page? m = s.page? m := by rw [page?_putPage, if_neg hm]
  have here : (s.putPage n r').page? n = some r' := by rw [page?_putPage, if_pos rfl]
  refine ⟨fun m r hr => ?_, fun k o ho => ?_, fun k o ho hc => ?_, fun m r v x hr hv hx => ?_⟩
  · by_cases e : m = n
    · subst e
      cases here.symm.trans hr
      exact stands
    · rw [propext (hg m e)]
      exact h.records m r ((known e).symm.trans hr)
  · obtain ⟨r, v, hr, hv, le, current⟩ := h.slots k o ho
    by_cases e : k.page = n
    · rw [e] at hr ⊢
      obtain ⟨version, -, left⟩ := same r hr
      refine ⟨r', v, here, version.trans hv, le, fun ev hw hp => ?_⟩
      obtain left | left | ⟨state, page⟩ := left
      · exact absurd left hp
      · exact absurd left hw
      · exact current ev (fun w => hw (state w)) fun p => hp (page (e ▸ p))
    · rw [known e, propext (hg k.page e)]
      exact ⟨r, v, hr, hv, le, current⟩
  · obtain ⟨r, hr, hv, hx⟩ := h.current k o ho hc
    by_cases e : k.page = n
    · rw [e] at hr ⊢
      obtain ⟨version, arrived, -⟩ := same r hr
      exact ⟨r', here, version.trans hv, arrived ▸ hx⟩
    · rw [known e]
      exact ⟨r, hr, hv, hx⟩
  · by_cases e : m = n
    · subst e
      cases here.symm.trans hr
      cases hs : s.page? m with
      | none => exact absurd hx (by simp [new hs x])
      | some r0 =>
        obtain ⟨version, arrived, -⟩ := same r0 hs
        exact h.arrived m r0 v x hs (version.symm.trans hv) (arrived ▸ hx)
    · exact h.arrived m r v x ((known e).symm.trans hr) hv hx

/-! ### Arrivals -/

/-- What is known of the slots of a page before a separation arrives: none is of a later version, those of this version are
current, and the current ones are of this version and of the separations that had arrived of it. -/
structure SlotsBefore (n v : Nat) (a : SepSet) (s u : State) : Prop where
  others : ∀ k : SlotKey, k.page ≠ n → u.slot? k = s.slot? k
  versions : ∀ k o, u.slot? k = some o → k.page = n → k.version ≤ v ∧ (k.version = v → o.current = true)
  current : ∀ k o, u.slot? k = some o → k.page = n → o.current = true → k.version = v ∧ a.has k.sep = true
  arrived : ∀ z, a.has z = true → ∃ o, u.slot? ⟨n, v, z⟩ = some o ∧ o.current = true

theorem has_add (a : SepSet) (x z : Separation) : (a.add x).has z = (decide (z = x) || a.has z) := by
  cases x <;> cases z <;> simp [SepSet.add, SepSet.has]

theorem has_empty (x : Separation) : SepSet.empty.has x = false := by cases x <;> rfl

/-- A separation arrives. -/
theorem arrives (h : Recorded g s) {v : Nat} {cl : ColourClass} {x : Separation} {a : SepSet} {live : Nat} {ref : U64}
    (before : SlotsBefore n v a s u) (pages : u.pages = s.pages) (out : ¬ g.page n) (hm : cl = .mono → x = .k)
    (ha : cl = .mono → ∀ z, z ≠ .k → a.has z = false) : Recorded g (writeArrival n v cl a x ref live u) := by
  rw [writeArrival_eq]
  have page (m : Nat) : ((u.putPage n ⟨some cl, some v, a.add x, stateFor cl (a.add x), live⟩).putSlot ⟨n, v, x⟩
      ⟨ref, 0, true, false⟩).page? m = if m = n then some ⟨some cl, some v, a.add x, stateFor cl (a.add x), live⟩ else s.page? m := by
    have same : u.page? m = s.page? m := by unfold State.page?; rw [pages]
    rw [← same]
    exact page?_putPage n _ u m
  have slot (k : SlotKey) : ((u.putPage n ⟨some cl, some v, a.add x, stateFor cl (a.add x), live⟩).putSlot ⟨n, v, x⟩
      ⟨ref, 0, true, false⟩).slot? k = if k = ⟨n, v, x⟩ then some ⟨ref, 0, true, false⟩ else u.slot? k := slot?_putSlot ..
  generalize (u.putPage n ⟨some cl, some v, a.add x, stateFor cl (a.add x), live⟩).putSlot ⟨n, v, x⟩ ⟨ref, 0, true, false⟩ = t at page slot
  have here : t.page? n = some ⟨some cl, some v, a.add x, stateFor cl (a.add x), live⟩ := by rw [page, if_pos rfl]
  have cases' := stateFor_cases cl (a.add x)
  have stands : RecordStands (g.page n) ⟨some cl, some v, a.add x, stateFor cl (a.add x), live⟩ := by
    refine ⟨fun e => ?_, fun e => ?_, fun _ => ⟨nofun, nofun⟩, fun _ _ c hc => ?_, fun e => ?_, fun mono z hy => ?_⟩
    · rcases cases' with c | c <;> cases c.symm.trans e
    · obtain e | e | e := e
      · exact absurd e out
      · rcases cases' with c | c <;> cases c.symm.trans e
      · rcases cases' with c | c <;> cases c.symm.trans e
    · cases hc
      rfl
    · rcases cases' with c | c <;> cases c.symm.trans e
    · have mono := Option.some.inj mono
      show (a.add x).has z = false
      rw [has_add, ha mono z hy, hm mono]
      simp [hy]
  refine ⟨fun m r hr => ?_, fun k o ho => ?_, fun k o ho hc => ?_, fun m r v' z hr hv hy => ?_⟩
  · by_cases e : m = n
    · subst e
      cases here.symm.trans hr
      exact stands
    · exact h.records m r (by rw [page, if_neg e] at hr; exact hr)
  · rw [slot] at ho
    split at ho
    next e =>
      subst e
      cases ho
      exact ⟨_, v, here, rfl, le_rfl, fun _ _ _ => rfl⟩
    next e =>
      by_cases hk : k.page = n
      · obtain ⟨le, current⟩ := before.versions k o ho hk
        rw [hk]
        exact ⟨_, v, here, rfl, le, fun ev _ _ => current ev⟩
      · rw [page, if_neg hk]
        exact h.slots k o ((before.others k hk).symm.trans ho)
  · rw [slot] at ho
    split at ho
    next e =>
      subst e
      refine ⟨_, here, rfl, ?_⟩
      show (a.add x).has x = true
      rw [has_add]
      simp
    next e =>
      by_cases hk : k.page = n
      · obtain ⟨version, arrived⟩ := before.current k o ho hk hc
        rw [hk]
        refine ⟨_, here, congrArg some version.symm, ?_⟩
        show (a.add x).has k.sep = true
        rw [has_add, arrived, Bool.or_true]
      · rw [page, if_neg hk]
        exact h.current k o ((before.others k hk).symm.trans ho) hc
  · by_cases e : m = n
    · subst e
      cases here.symm.trans hr
      cases hv
      rw [slot]
      split
      next => exact ⟨_, rfl, rfl⟩
      next other =>
        have old : a.has z = true := by
          have added : (a.add x).has z = true := hy
          rw [has_add] at added
          have ne : z ≠ x := fun e => other (by rw [e])
          simpa [ne] using added
        exact before.arrived z old
    · obtain ⟨o, ho, hc⟩ := h.arrived m r v' z (by rw [page, if_neg e] at hr; exact hr) hv hy
      rw [slot, if_neg fun e' => e (congrArg SlotKey.page e'), before.others _ e]
      exact ⟨o, ho, hc⟩

/-- A separation that an arrival finds lacking. -/
theorem slotsBefore_arrival (h : Recorded g s) {v : Nat} {cl : ColourClass} {x : Separation} {a : SepSet} {live : Nat}
    (found : ArrivalFinds s n v cl x a live) (out : ¬ g.page n) : SlotsBefore n v a s s := by
  have none_of (hn : ∀ r v, s.page? n = some r → r.version ≠ some v) (k : SlotKey) (o : Slot) (ho : s.slot? k = some o) : k.page ≠ n := by
    rintro rfl
    obtain ⟨r, v', hr, hv, -⟩ := h.slots k o ho
    exact hn r v' hr hv
  have nothing (hn : ∀ r v, s.page? n = some r → r.version ≠ some v) : SlotsBefore n v ⟨false, false, false, false⟩ s s :=
    ⟨fun _ _ => rfl, fun k o ho hk => absurd hk (none_of hn k o ho), fun k o ho hk => absurd hk (none_of hn k o ho),
      fun z hy => by cases (has_empty z).symm.trans hy⟩
  cases found with
  | nothing none => exact nothing fun r v' hr => by cases none.symm.trans hr
  | expected r hr hs =>
    refine nothing fun r' v' hr' hv => ?_
    cases hr.symm.trans hr'
    rw [((h.records n r hr).expected hs).1] at hv
    cases hv
  | lacking r hr hs hv hc hx =>
    refine ⟨fun _ _ => rfl, fun k o ho hk => ?_, fun k o ho hk current => ?_, fun z hy => h.arrived n r v z hr hv hy⟩
    · obtain ⟨r', v', hr', hv', le, current⟩ := h.slots k o ho
      rw [hk] at hr' current
      cases hr.symm.trans hr'
      cases hv.symm.trans hv'
      exact ⟨le, fun e => current e (by rintro e; rcases hs with c | c <;> cases c.symm.trans e) out⟩
    · obtain ⟨r', hr', hv', arrived⟩ := h.current k o ho current
      rw [hk] at hr'
      cases hr.symm.trans hr'
      exact ⟨Option.some.inj (hv'.symm.trans hv), arrived⟩

/-- What has arrived of a page of the class MONO. -/
theorem mono_arrival (h : Recorded g s) {v : Nat} {cl : ColourClass} {x : Separation} {a : SepSet} {live : Nat}
    (found : ArrivalFinds s n v cl x a live) (mono : cl = .mono) : ∀ z, z ≠ .k → a.has z = false := by
  cases found with
  | nothing => exact fun z _ => has_empty z
  | expected => exact fun z _ => has_empty z
  | lacking r hr hs hv hc hx => exact (h.records n r hr).mono (mono ▸ hc)

/-- No slot is of a later version than the record's. -/
theorem slotsBefore_revision (h : Recorded g s) (o : Tables s) {old v : Nat} (hr : s.page? n = some r) (hv : r.version = some old)
    (lt : old < v) : SlotsBefore n v SepSet.empty s (clearAllCurrent n s) := by
  refine ⟨fun k hk => cleared_other o.slots hk, fun k x hx hk => ?_, fun k x hx hk current => ?_, fun z hy => ?_⟩
  · obtain ⟨-, x', hx', -⟩ := cleared_before o.slots hx hk
    obtain ⟨r', v', hr', hv', le, -⟩ := h.slots k x' hx'
    rw [hk] at hr'
    cases hr.symm.trans hr'
    cases hv.symm.trans hv'
    exact ⟨le.trans lt.le, fun e => absurd (e ▸ le) (Nat.not_le.mpr lt)⟩
  · cases (cleared_before o.slots hx hk).1.symm.trans current
  · cases (has_empty z).symm.trans hy

/-! ### Withdrawal -/

/-- A page is stripped of what had arrived. -/
theorem stripped (h : Recorded g s) (o : Tables s) (hr : s.page? n = some r) (hs : r.state ≠ .withdrawn) (here : g'.page n)
    (others : ∀ m, m ≠ n → (g'.page m ↔ g.page m)) :
    Recorded g' ((clearAllCurrent n s).putPage n { r with arrived := SepSet.empty }) := by
  have stands := h.records n r hr
  have page (m : Nat) : ((clearAllCurrent n s).putPage n { r with arrived := SepSet.empty }).page? m =
      if m = n then some { r with arrived := SepSet.empty } else s.page? m := by
    have same : (clearAllCurrent n s).page? m = s.page? m := congrArg (tget · m) (pages_clearAllCurrent n s)
    rw [page?_putPage, same]
  have slot (k : SlotKey) : ((clearAllCurrent n s).putPage n { r with arrived := SepSet.empty }).slot? k =
    (clearAllCurrent n s).slot? k := rfl
  generalize (clearAllCurrent n s).putPage n { r with arrived := SepSet.empty } = t at page slot
  refine ⟨fun m r' hr' => ?_, fun k x hx => ?_, fun k x hx hc => ?_, fun m r' v z hr' hv hy => ?_⟩
  · rw [page] at hr'
    split at hr'
    next e =>
      subst e
      cases hr'
      exact ⟨stands.expected, fun _ => has_empty, stands.known, fun out => absurd here out, fun e => absurd e hs, fun _ z _ => has_empty z⟩
    next e =>
      rw [propext (others m e)]
      exact h.records m r' hr'
  · rw [slot] at hx
    by_cases e : k.page = n
    · obtain ⟨-, x', hx', -⟩ := cleared_before o.slots hx e
      obtain ⟨r', v, hr', hv, le, -⟩ := h.slots k x' hx'
      rw [e] at hr' ⊢
      cases hr.symm.trans hr'
      exact ⟨{ r with arrived := SepSet.empty }, v, by rw [page, if_pos rfl], hv, le, fun _ _ out => absurd here out⟩
    · rw [page, if_neg e, propext (others _ e)]
      exact h.slots k x ((cleared_other o.slots e).symm.trans hx)
  · rw [slot] at hx
    by_cases e : k.page = n
    · cases (cleared_before o.slots hx e).1.symm.trans hc
    · rw [page, if_neg e]
      exact h.current k x ((cleared_other o.slots e).symm.trans hx) hc
  · rw [page] at hr'
    split at hr'
    · cases hr'
      cases (has_empty z).symm.trans hy
    next e =>
      rw [slot, cleared_other o.slots e]
      exact h.arrived m r' v z hr' hv hy

end Recorded

end Sys2Proof.Machine
end

section
/-! The reference counts of the raster slots agree with the job table at every point of a command (R8, R58). -/

namespace Sys2Proof.Machine

open State

variable {g g' : Gaps} {s t u : State} {n m : Nat} {j : Job} {k : SlotKey} {x : Slot} {E : List SlotKey}

/-! ### The references that jobs hold -/

/-- The references that a job holds on a slot. -/
def refsOf (k : SlotKey) (j : Job) : Nat := if holds j.state then j.slots.count k else 0

theorem refsOf_free (h : holds j.state = false) : refsOf k j = 0 := by simp [refsOf, h]

theorem refsOf_held (h : holds j.state = true) : refsOf k j = j.slots.count k := by simp [refsOf, h]

theorem references_of_jobs (h : t.jobs = s.jobs) (k : SlotKey) : references t k = references s k := by
  unfold references
  rw [h]

theorem references_modJob (o : Table.ordered id s.jobs) (hj : s.job? n = some j) (f : Job → Job) (k : SlotKey) :
    references (s.modJob n f) k + refsOf k j = references s k + refsOf k (f j) :=
  sum_tmod (fun e => refsOf k e.2) o hj

theorem references_modJob_same (o : Table.ordered id s.jobs) {f : Job → Job} (h : ∀ j, s.job? n = some j → refsOf k (f j) = refsOf k j) :
    references (s.modJob n f) k = references s k :=
  sum_tmod_same (fun e => refsOf k e.2) (fun j hj => h j hj) o

theorem references_addJob (free : s.job? n = none) (k : SlotKey) : references (s.addJob n j) k = references s k + refsOf k j :=
  sum_tput (fun e => refsOf k e.2) Function.injective_id free

theorem references_dropJob (o : Table.ordered id s.jobs) (hj : s.job? n = some j) (k : SlotKey) :
    references (s.dropJob n) k + refsOf k j = references s k :=
  sum_tdel (fun e => refsOf k e.2) o hj

/-- A slot that a job holds a reference on is referred to. -/
theorem references_ne_zero (hj : s.job? n = some j) (held : holds j.state = true) (hk : k ∈ j.slots) : references s k ≠ 0 := by
  have one : refsOf k j ≤ references s k :=
    List.single_le_sum (fun _ _ => Nat.zero_le _) _ (List.mem_map.mpr ⟨(n, j), mem_of_tget hj, rfl⟩)
  rw [refsOf_held held] at one
  have some := List.count_pos_iff.mpr hk
  omega

/-- Some job holds a reference on a slot that is referred to. -/
theorem holder_of_references (o : Tables s) (h : references s k ≠ 0) :
    ∃ n j, s.job? n = some j ∧ holds j.state = true ∧ k ∈ j.slots := by
  by_contra none
  refine h (List.sum_eq_zero fun i hi => ?_)
  obtain ⟨⟨n, j⟩, mem, rfl⟩ := List.mem_map.mp hi
  dsimp only
  split
  next held =>
    refine List.count_eq_zero.mpr fun hk => none ⟨n, j, tget_of_mem o.jobs mem, held, hk⟩
  next => rfl

/-! ### The counts -/

/-- The slots' counts are the references that the jobs hold, with those of `E`, which a job that is neither in nor out of its state
holds; a slot that is not current is held; and the slots that a job refers to are of its pages, and in use while it holds them. -/
structure Referred (E : List SlotKey) (s : State) : Prop where
  counts : ∀ k x, s.slot? k = some x → x.count = references s k + E.count k
  freed : ∀ k x, s.slot? k = some x → x.current = false → x.count ≠ 0
  slots : ∀ n j, s.job? n = some j → ∀ k ∈ j.slots, (k.page, k.version) ∈ j.pages ∧ k.sep = j.sep
  held : ∀ n j, s.job? n = some j → holds j.state = true → ∀ k ∈ j.slots, s.slot? k ≠ none

/-- A slot that is free is not referred to. -/
theorem Referred.unheld (h : Referred E s) (o : Tables s) (free : s.slot? k = none) : references s k = 0 := by
  by_contra some
  obtain ⟨n, j, hj, held, hk⟩ := holder_of_references o some
  exact h.held n j hj held k hk free

namespace Referred

/-- The jobs and the slots stay. -/
theorem of_eq (h : Referred E s) (jobs : t.jobs = s.jobs) (slots : t.slots = s.slots) : Referred E t := by
  have slot (k : SlotKey) : t.slot? k = s.slot? k := by unfold State.slot?; rw [slots]
  have job (n : Nat) : t.job? n = s.job? n := by unfold State.job?; rw [jobs]
  refine ⟨fun k x hx => ?_, fun k x hx => h.freed k x ((slot k).symm.trans hx), fun n j hj => h.slots n j ((job n).symm.trans hj),
    fun n j hj held k hk => ?_⟩
  · rw [references_of_jobs jobs]
    exact h.counts k x ((slot k).symm.trans hx)
  · rw [slot]
    exact h.held n j ((job n).symm.trans hj) held k hk

theorem still (h : Referred E s) (k : Still s t) : Referred E t := h.of_eq k.jobs k.slots

/-! ### Jobs -/

/-- A job is written, but for its pages and slots. -/
theorem modJob (h : Referred E s) (o : Tables s) {f : Job → Job} {E' : List SlotKey}
    (same : ∀ j, (f j).pages = j.pages ∧ (f j).slots = j.slots ∧ (f j).sep = j.sep)
    (refs : ∀ j, s.job? n = some j → ∀ k, refsOf k j + E.count k = refsOf k (f j) + E'.count k)
    (absent : s.job? n = none → ∀ k, E.count k = E'.count k)
    (held : ∀ j, s.job? n = some j → holds (f j).state = true → ∀ k ∈ j.slots, s.slot? k ≠ none) : Referred E' (s.modJob n f) := by
  refine ⟨fun k x hx => ?_, h.freed, fun m j hj k hk => ?_, fun m j hj hs k hk => ?_⟩
  · have before := h.counts k x hx
    cases hj : s.job? n with
    | none =>
      have same : references (s.modJob n f) k = references s k := references_of_jobs (tmod_of_none f hj) k
      rw [same, ← absent hj k]
      exact before
    | some j =>
      have change := references_modJob o.jobs hj f k
      have refs := refs j hj k
      omega
  · rw [job?_modJob] at hj
    split at hj
    · obtain ⟨i, hi, rfl⟩ := Option.map_eq_some_iff.mp hj
      obtain ⟨pages, slots, sep⟩ := same i
      rw [pages, sep]
      exact h.slots m i hi k (slots ▸ hk)
    · exact h.slots m j hj k hk
  · rw [job?_modJob] at hj
    split at hj
    next e =>
      subst e
      obtain ⟨i, hi, rfl⟩ := Option.map_eq_some_iff.mp hj
      exact held i hi hs k ((same i).2.1 ▸ hk)
    · exact h.held m j hj hs k hk

/-- A job that holds its references as before. -/
theorem keep (h : Referred E s) (o : Tables s) (n : Nat) {f : Job → Job}
    (same : ∀ j, (f j).pages = j.pages ∧ (f j).slots = j.slots ∧ (f j).sep = j.sep)
    (state : ∀ j, s.job? n = some j → holds (f j).state = holds j.state) : Referred E (s.modJob n f) := by
  refine h.modJob o same (fun j hj k => ?_) (fun _ _ => rfl) fun j hj held => h.held n j hj ((state j hj).symm.trans held)
  unfold refsOf
  rw [state j hj, (same j).2.1]

/-- A job that holds its references is to release them. -/
theorem letGo (h : Referred [] s) (o : Tables s) (hj : s.job? n = some j) {f : Job → Job}
    (same : ∀ j, (f j).pages = j.pages ∧ (f j).slots = j.slots ∧ (f j).sep = j.sep)
    (before : holds j.state = true) (after : holds (f j).state = false) : Referred j.slots (s.modJob n f) := by
  refine h.modJob o same (fun i hi k => ?_) (fun none => by cases hj.symm.trans none) fun i hi held => ?_
  · cases hj.symm.trans hi
    rw [refsOf_held before, refsOf_free after]
    exact Nat.add_comm _ _
  · cases hj.symm.trans hi
    cases after.symm.trans held

/-- A job for which references have been taken holds them. -/
theorem takeUp (h : Referred j.slots s) (o : Tables s) (hj : s.job? n = some j) {f : Job → Job}
    (same : ∀ j, (f j).pages = j.pages ∧ (f j).slots = j.slots ∧ (f j).sep = j.sep)
    (before : holds j.state = false) (after : holds (f j).state = true) (there : ∀ k ∈ j.slots, s.slot? k ≠ none) :
    Referred [] (s.modJob n f) := by
  refine h.modJob o same (fun i hi k => ?_) (fun none => by cases hj.symm.trans none) fun i hi _ => ?_
  · cases hj.symm.trans hi
    rw [refsOf_held after, refsOf_free before, (same j).2.1]
    exact Nat.add_comm _ _
  · cases hj.symm.trans hi
    exact there

/-- A job that holds no references leaves the table. -/
theorem dropJob (h : Referred E s) (o : Tables s) (hj : s.job? n = some j) (free : holds j.state = false) : Referred E (s.dropJob n) := by
  have before {m : Nat} {i : Job} (hi : (s.dropJob n).job? m = some i) : s.job? m = some i := by
    rw [job?_dropJob] at hi
    split at hi
    · cases hi
    · exact hi
  refine ⟨fun k x hx => ?_, h.freed, fun m i hi => h.slots m i (before hi), fun m i hi => h.held m i (before hi)⟩
  have change := references_dropJob o.jobs hj k
  rw [refsOf_free free] at change
  rw [Nat.add_zero] at change
  rw [change]
  exact h.counts k x hx

/-- A job for which references have been taken enters the table. -/
theorem addJob (h : Referred j.slots s) (free : s.job? n = none) (holding : holds j.state = true)
    (slots : ∀ k ∈ j.slots, (k.page, k.version) ∈ j.pages ∧ k.sep = j.sep) (there : ∀ k ∈ j.slots, s.slot? k ≠ none) :
    Referred [] (s.addJob n j) := by
  refine ⟨fun k x hx => ?_, h.freed, fun m i hi => ?_, fun m i hi held => ?_⟩
  · rw [references_addJob free, refsOf_held holding]
    exact h.counts k x hx
  · rw [job?_addJob] at hi
    split at hi
    · cases hi
      exact slots
    · exact h.slots m i hi
  · rw [job?_addJob] at hi
    split at hi
    · cases hi
      exact there
    · exact h.held m i hi held

/-! ### Slots -/

/-- References are taken. -/
theorem taken (h : Referred [] s) (ks : List SlotKey) : Referred ks (takeRefs ks s) := by
  have jobs : (takeRefs ks s).jobs = s.jobs := (RegistersOnly.taken ks s).jobs
  have job (n : Nat) : (takeRefs ks s).job? n = s.job? n := congrArg (tget · n) jobs
  have before {k : SlotKey} {x : Slot} (hx : (takeRefs ks s).slot? k = some x) :
      ∃ x', s.slot? k = some x' ∧ x = { x' with count := x'.count + ks.count k } := by
    rw [slot?_takeRefs] at hx
    obtain ⟨x', hx', e⟩ := Option.map_eq_some_iff.mp hx
    exact ⟨x', hx', e.symm⟩
  refine ⟨fun k x hx => ?_, fun k x hx hc => ?_, fun n j hj => h.slots n j ((job n).symm.trans hj), fun n j hj held k hk => ?_⟩
  · obtain ⟨x', hx', rfl⟩ := before hx
    rw [references_of_jobs jobs]
    show x'.count + ks.count k = _
    rw [h.counts k x' hx']
    rfl
  · obtain ⟨x', hx', rfl⟩ := before hx
    have some := h.freed k x' hx' hc
    show x'.count + ks.count k ≠ 0
    omega
  · have there := h.held n j ((job n).symm.trans hj) held k hk
    rw [slot?_takeRefs]
    simpa using there

/-- The references that no job holds any longer are released. -/
theorem released (h : Referred E s) : Referred [] (releaseRefs E s) := by
  have jobs : (releaseRefs E s).jobs = s.jobs := (RegistersOnly.released E s).jobs
  have job (n : Nat) : (releaseRefs E s).job? n = s.job? n := congrArg (tget · n) jobs
  have slot (k : SlotKey) : (releaseRefs E s).slot? k = if k ∈ E then (s.slot? k).bind (Slot.releasing (E.count k)) else s.slot? k :=
    slot?_releaseRefs E k s
  refine ⟨fun k x hx => ?_, fun k x hx hc => ?_, fun n j hj => h.slots n j ((job n).symm.trans hj), fun n j hj held k hk => ?_⟩
  · rw [references_of_jobs jobs]
    rw [slot] at hx
    split at hx
    · obtain ⟨x', hx', released⟩ := Option.bind_eq_some_iff.mp hx
      unfold Slot.releasing at released
      split at released
      · cases released
      · cases released
        have before := h.counts k x' hx'
        show x'.count - E.count k = references s k + 0
        omega
    next out =>
      have before := h.counts k x hx
      rw [List.count_eq_zero.mpr out] at before
      exact before
  · rw [slot] at hx
    split at hx
    · obtain ⟨x', hx', released⟩ := Option.bind_eq_some_iff.mp hx
      unfold Slot.releasing at released
      split at released
      · cases released
      next left =>
        cases released
        exact fun zero => left ⟨zero, hc⟩
    · exact h.freed k x hx hc
  · have hj' := (job n).symm.trans hj
    obtain ⟨x, hx⟩ := Option.ne_none_iff_exists'.mp (h.held n j hj' held k hk)
    have refs := references_ne_zero hj' held hk
    have count := h.counts k x hx
    rw [slot, hx]
    split
    · rw [Option.bind_some, Slot.releasing, if_neg fun e => ?_]
      · exact nofun
      · have := e.1
        omega
    · exact nofun

/-- The current slots of a page are current no longer. -/
theorem cleared (h : Referred [] s) (o : Tables s) (n : Nat) : Referred [] (clearAllCurrent n s) := by
  have jobs : (clearAllCurrent n s).jobs = s.jobs := (RegistersOnly.cleared n s).jobs
  have job (m : Nat) : (clearAllCurrent n s).job? m = s.job? m := congrArg (tget · m) jobs
  have slot := slot?_clearAllCurrent o.slots n
  refine ⟨fun k x hx => ?_, fun k x hx hc => ?_, fun n j hj => h.slots n j ((job n).symm.trans hj), fun m j hj held k hk => ?_⟩
  · rw [references_of_jobs jobs]
    rw [slot] at hx
    split at hx
    · obtain ⟨x', hx', left⟩ := Option.bind_eq_some_iff.mp hx
      unfold Slot.uncurrent at left
      split at left
      · cases left
      · cases left
        exact h.counts k x' hx'
    · exact h.counts k x hx
  · rw [slot] at hx
    split at hx
    · obtain ⟨x', hx', left⟩ := Option.bind_eq_some_iff.mp hx
      unfold Slot.uncurrent at left
      split at left
      · cases left
      next some =>
        cases left
        exact some
    · exact h.freed k x hx hc
  · have hj' := (job m).symm.trans hj
    obtain ⟨x, hx⟩ := Option.ne_none_iff_exists'.mp (h.held m j hj' held k hk)
    have refs := references_ne_zero hj' held hk
    have count := h.counts k x hx
    rw [slot, hx]
    split
    · rw [Option.bind_some, Slot.uncurrent, if_neg fun e => refs ?_]
      · exact nofun
      · rw [e] at count
        exact (Nat.eq_zero_of_add_eq_zero_right count.symm)
    · exact nofun

/-- A slot that was free is taken into use. -/
theorem putSlot (h : Referred [] s) (o : Tables s) (free : s.slot? k = none) (zero : x.count = 0) (current : x.current = true) :
    Referred [] (s.putSlot k x) := by
  refine ⟨fun q y hy => ?_, fun q y hy hc => ?_, h.slots, fun n j hj held q hq => ?_⟩
  · have same : references (s.putSlot k x) q = references s q := references_of_jobs rfl q
    rw [same]
    rw [slot?_putSlot] at hy
    split at hy
    next e =>
      subst e
      cases hy
      rw [zero, h.unheld o free]
      rfl
    next => exact h.counts q y hy
  · rw [slot?_putSlot] at hy
    split at hy
    · cases hy
      cases current.symm.trans hc
    · exact h.freed q y hy hc
  · rw [slot?_putSlot]
    split
    · exact nofun
    · exact h.held n j hj held q hq

/-- A slot is marked. -/
theorem modSlot (h : Referred E s) {f : Slot → Slot} (hf : ∀ x, (f x).count = x.count ∧ (f x).current = x.current) :
    Referred E (s.modSlot k f) := by
  have before {q : SlotKey} {y : Slot} (hy : (s.modSlot k f).slot? q = some y) :
      ∃ x, s.slot? q = some x ∧ y.count = x.count ∧ y.current = x.current := by
    rw [slot?_modSlot] at hy
    split at hy
    · obtain ⟨x, hx, rfl⟩ := Option.map_eq_some_iff.mp hy
      exact ⟨x, hx, hf x⟩
    · exact ⟨y, hy, rfl, rfl⟩
  refine ⟨fun q y hy => ?_, fun q y hy hc => ?_, h.slots, fun n j hj held q hq => ?_⟩
  · obtain ⟨x, hx, count, -⟩ := before hy
    have same : references (s.modSlot k f) q = references s q := references_of_jobs rfl q
    rw [count, same]
    exact h.counts q x hx
  · obtain ⟨x, hx, count, current⟩ := before hy
    rw [count]
    exact h.freed q x hx (current.symm.trans hc)
  · have there := h.held n j hj held q hq
    rw [slot?_modSlot]
    split
    · simpa using there
    · exact there

/-- The slots of a page that no job holds are freed. -/
theorem removed (h : Referred E s) (jobs : t.jobs = s.jobs)
    (slot : ∀ k : SlotKey, t.slot? k = if k.page = n then none else s.slot? k)
    (unheld : ∀ m j, s.job? m = some j → holds j.state = true → ∀ k ∈ j.slots, k.page ≠ n) : Referred E t := by
  have job (m : Nat) : t.job? m = s.job? m := congrArg (tget · m) jobs
  have before {k : SlotKey} {x : Slot} (hx : t.slot? k = some x) : s.slot? k = some x := by
    rw [slot] at hx
    split at hx
    · cases hx
    · exact hx
  refine ⟨fun k x hx => ?_, fun k x hx => h.freed k x (before hx), fun m j hj => h.slots m j ((job m).symm.trans hj),
    fun m j hj held k hk => ?_⟩
  · rw [references_of_jobs jobs]
    exact h.counts k x (before hx)
  · have hj' := (job m).symm.trans hj
    rw [slot, if_neg (unheld m j hj' held k hk)]
    exact h.held m j hj' held k hk

end Referred

end Sys2Proof.Machine
end

section
/-! The page register, the raster table and the counts of both, as jobs are created and depart (R3, R8, R20). -/

namespace Sys2Proof.Machine

open State

variable {w c : Prop} {g g' : Gaps} {s t u : State} {n m : Nat} {j : Job} {k : SlotKey} {x : Slot} {P L : List Nat} {E : List SlotKey}

/-! ### A departure, with its release -/

/-- The positions that name pages are told, page by page. -/
def tellNaming (ps : List Nat) (s : State) : State := ps.foldl (fun s p => tellAll (s.positionsNaming p) s) s

/-- A departure, phase by phase: `A` holds while the job's references are still to be released, `M l` while the live-job counts of
the pages `l` are still to be lowered, `V` once the job's position does not name it any longer, and `N` once the job has left and
its position has been told. -/
theorem departCore_releasing {A : State → Prop} {M : List Nat → State → Prop} {V N : State → Prop} {terminal : JobState}
    (hj : s.job? n = some j) (start : A (s.modJob n fun x => { x with state := terminal }))
    (judge : ∀ t, A t → A (evalStarved t)) (release : ∀ t, A t → holds j.state = true → M (j.pages.map Prod.fst) (releaseRefs j.slots t))
    (free : ∀ t, A t → holds j.state = false → M (j.pages.map Prod.fst) t)
    (lower : ∀ l t p, M (p :: l) t → M l (lowerLive p t))
    (kept : ∀ t, M [] t → (∀ x, t.pos? j.key = some x → x.work.current ≠ some n) → V t)
    (vacate : ∀ t x, M [] t → t.pos? j.key = some x → x.work.current = some n →
      V (evalStarved (needTest j.key (t.modWork j.key fun w => { w with current := none }))))
    (notice : ∀ t m, V t → V (raise m t))
    (tell : ∀ t, V t → N (tellNaming (j.pages.map Prod.fst) (tellSatisfied j.key (t.dropJob n)))) : N (departCore n terminal s) := by
  have lowerAll (l : List Nat) (t : State) (h : M l t) : M [] (l.foldl (fun s p => lowerLive p s) t) := by
    induction l generalizing t with
    | nil => exact h
    | cons p l ih => exact ih _ (lower l t p h)
  have holding : j.state.holdsRefs = holds j.state := by cases j.state <;> rfl
  unfold departCore
  rw [hj]
  dsimp only
  generalize s.modJob n (fun x => { x with state := terminal }) = s1 at start ⊢
  have judged : A (if j.state = .queued then evalStarved s1 else s1) := by
    split
    · exact judge _ start
    · exact start
  generalize (if j.state = .queued then evalStarved s1 else s1) = s2 at judged ⊢
  have released : M (j.pages.map Prod.fst) (if j.state.holdsRefs then releaseRefs j.slots s2 else s2) := by
    rw [holding]
    split
    next held => exact release _ judged held
    next out => exact free _ judged (Bool.eq_false_iff.mpr out)
  generalize (if j.state.holdsRefs then releaseRefs j.slots s2 else s2) = s3 at released ⊢
  have lowered := lowerAll (j.pages.map Prod.fst) s3 released
  generalize (j.pages.map Prod.fst).foldl (fun s p => lowerLive p s) s3 = s4 at lowered ⊢
  refine tell _ (notice _ _ ?_)
  cases hx : s4.pos? j.key with
  | none => exact kept s4 lowered fun x h => by rw [hx] at h; cases h
  | some x =>
    dsimp only
    split
    next current => exact vacate s4 x lowered hx (of_decide_eq_true current)
    next other =>
      refine kept s4 lowered fun y h => ?_
      cases hx.symm.trans h
      intro e
      exact other (decide_eq_true e)

/-- What telling keeps, telling of pages keeps. -/
theorem tellNaming_keeps {N : State → Prop} (tell : ∀ t k, N t → N (tellSatisfied k t)) (ps : List Nat) (h : N s) : N (tellNaming ps s) := by
  have all (l : List PosKey) (t : State) (h : N t) : N (tellAll l t) := by
    unfold tellAll
    induction l generalizing t with
    | nil => exact h
    | cons k l ih => exact ih _ (tell t k h)
  unfold tellNaming
  induction ps generalizing s with
  | nil => exact h
  | cons p ps ih => exact ih (all _ s h)

/-! ### Pages that are removed, and counts that are lowered -/

/-- A record is removed, and the slots of the page with it. -/
structure PageGone (n : Nat) (s t : State) : Prop where
  page : ∀ m, t.page? m = if m = n then none else s.page? m
  slot : ∀ k : SlotKey, t.slot? k = if k.page = n then none else s.slot? k
  registers : RegistersOnly s t

theorem removePage_gone (n : Nat) (r : PageRec) (s : State) : PageGone n s (removePage n r s) := by
  refine ⟨fun m => ?_, fun k => ?_, .removed n r s⟩
  · split
    next e =>
      subst e
      exact page?_removePage
    next e =>
      unfold removePage
      dsimp only
      have noticed (x : Notice) (t : State) : (raise x t).page? m = t.page? m := congrArg (tget · m) (Still.raised x t).pages
      have dropped (ks : List SlotKey) (t : State) : (ks.foldl (fun s k => s.dropSlot k) t).page? m = t.page? m := by
        induction ks generalizing t with
        | nil => rfl
        | cons k ks ih => exact ih _
      rw [noticed, page?_dropPage, if_neg e, dropped]
  · split
    next e => exact slot?_removePage e
    next e =>
      unfold removePage
      dsimp only
      have noticed (x : Notice) (t : State) : (raise x (t.dropPage n)).slot? k = t.slot? k :=
        congrArg (tget · k) (Still.raised x (t.dropPage n)).slots
      have dropped (ks : List SlotKey) (hks : ∀ q ∈ ks, q.page = n) (t : State) : (ks.foldl (fun s k => s.dropSlot k) t).slot? k = t.slot? k := by
        induction ks generalizing t with
        | nil => rfl
        | cons q ks ih =>
          rw [List.foldl_cons, ih (fun q hq => hks q (List.mem_cons_of_mem _ hq)), slot?_dropSlot, 
            if_neg fun same => e ((congrArg SlotKey.page same).trans (hks q (by simp)))]
      rw [noticed, dropped _ fun q hq => ?_]
      unfold slotsOfPage at hq
      obtain ⟨y, hy, rfl⟩ := List.mem_map.mp hq
      exact of_decide_eq_true (List.mem_filter.mp hy).2

/-- A live-job count is lowered, and no page is removed. -/
structure Lowered (n : Nat) (s t : State) : Prop where
  page : ∀ m, t.page? m = (s.page? m).map fun r => { r with liveJobs := if m = n then r.liveJobs - 1 else r.liveJobs }
  slots : t.slots = s.slots
  some : ∀ r, s.page? n = some r → r.state = .withdrawn → r.liveJobs - 1 ≠ 0
  registers : RegistersOnly s t

/-- A WITHDRAWN page with a live-job count of 1 at most is removed as its count is lowered; otherwise the count is lowered. -/
theorem lowerLive_cases (n : Nat) (s : State) : Lowered n s (lowerLive n s) ∨
    PageGone n s (lowerLive n s) ∧ ∃ r, s.page? n = some r ∧ r.state = .withdrawn ∧ r.liveJobs - 1 = 0 := by
  have page (m : Nat) : (s.modLive n (· - 1)).page? m =
      (s.page? m).map fun r => { r with liveJobs := if m = n then r.liveJobs - 1 else r.liveJobs } := by
    rw [page?_modLive]
    split
    · rfl
    · exact (congrFun Option.map_id (s.page? m)).symm
  have lowered (some : ∀ r, s.page? n = some r → r.state = .withdrawn → r.liveJobs - 1 ≠ 0) : Lowered n s (s.modLive n (· - 1)) :=
    ⟨page, rfl, some, rfl⟩
  unfold lowerLive
  dsimp only
  split
  next r hr =>
    simp only [page, ↓reduceIte] at hr
    obtain ⟨r', hr', rfl⟩ := Option.map_eq_some_iff.mp hr
    split
    next gone =>
      obtain ⟨withdrawn, zero⟩ := Bool.and_eq_true_iff.mp gone
      refine .inr ⟨?_, r', hr', of_decide_eq_true withdrawn, of_decide_eq_true zero⟩
      have removed := removePage_gone n { r' with liveJobs := r'.liveJobs - 1 } (s.modLive n (· - 1))
      refine ⟨fun m => ?_, removed.slot, RegistersOnly.trans (show RegistersOnly s (s.modLive n (· - 1)) from rfl) removed.registers⟩
      rw [removed.page]
      split
      · rfl
      next other =>
        rw [page?_modLive, if_neg other]
    next stays =>
      refine .inl (lowered fun r hr withdrawn zero => ?_)
      cases hr'.symm.trans hr
      exact stays (by simp [withdrawn, zero])
  next none =>
    refine .inl (lowered fun r hr => ?_)
    rw [page, hr] at none
    cases none

/-! ### Jobs that are created -/

theorem slots_createJob (k : PosKey) (y : Position) (s : State) : (createJob k y s).slots = (takeRefs (newJob s k y).slots s).slots := by
  have raised (l : List Nat) (t : State) : (l.foldl (fun s p => s.modLive p (· + 1)) t).slots = t.slots := by
    induction l generalizing t with
    | nil => rfl
    | cons p l ih => exact ih _
  unfold createJob
  dsimp only
  rw [(Still.raised _ _).slots]
  show (List.foldl _ _ _ : State).slots = _
  rw [raised]
  exact slots_takeRefs (s := s) (t := s.bumpEntry.addJob (nextNumber s) (newJob s k y)) rfl _

/-- The slots that a new job refers to: those of the required pages, which are all in use and current. -/
theorem newJob_slots (h : Recorded g s) {q : PosKey} {y : Position} (can : makeable s y.content = true) (hk : k ∈ (newJob s q y).slots) :
    needsPage s y.content.sep k.page = true ∧ k.page ∈ y.content.pages ∧ k.version = versionOf s k.page ∧ k.sep = y.content.sep ∧
      ∃ o, s.slot? k = some o ∧ o.current = true := by
  obtain ⟨p, hp, rfl⟩ := List.mem_map.mp hk
  obtain ⟨mem, required⟩ := List.mem_filter.mp hp
  rw [State.required_eq_needsPage] at required
  have arrived := List.all_eq_true.mp (Bool.and_eq_true_iff.mp can).2 p mem
  rw [required, Bool.not_true, Bool.false_or] at arrived
  obtain ⟨r, hr, has⟩ := (Option.any_eq_true _ _).mp arrived
  obtain ⟨v, hv, -⟩ := h.version hr has
  have version : versionOf s p = v := by
    unfold versionOf
    rw [hr, Option.bind_some, hv]
    rfl
  refine ⟨required, mem, rfl, rfl, ?_⟩
  rw [version]
  exact h.arrived p r v y.content.sep hr hv has

/-! ### The books -/

/-- The registers and the counts agree: `E` are the references, and `P` and `L` the pages, of a job that is on its way. -/
structure Books (P L : List Nat) (E : List SlotKey) (g : Gaps) (s : State) : Prop where
  tables : Tables s
  recorded : Recorded g s
  referred : Referred E s
  lives : Lives P L s

namespace Books

theorem still (h : Books P L E g s) (k : Still s t) : Books P L E g t :=
  ⟨k.tables h.tables, h.recorded.of_eq k.pages k.slots, h.referred.still k, h.lives.same k.lives⟩

/-- The plan changes. -/
theorem work (h : Books P L E g s) (k : PosKey) (f : PosWork → PosWork) : Books P L E g (s.modWork k f) :=
  ⟨h.tables.modWork k f, h.recorded.of_eq rfl rfl, h.referred.of_eq rfl rfl, h.lives.same (.of_eq rfl rfl)⟩

theorem tellSatisfied (h : Books P L E g s) (k : PosKey) : Books P L E g (tellSatisfied k s) := by
  have o := h.tables.reacts (tellSatisfied_reacts k s)
  have lives := h.lives.tellSatisfied k
  obtain ⟨v, w, p, e⟩ := tellSatisfied_parts k s
  rw [e] at o lives ⊢
  exact ⟨o, h.recorded.of_eq rfl rfl, h.referred.of_eq rfl rfl, lives⟩

/-- A job is created. -/
theorem createJob (h : Books P L [] g s) {k : PosKey} {y : Position} (room : s.jobs.length < 768) (can : makeable s y.content = true) :
    Books P L [] g (createJob k y s) := by
  have free := nextNumber_fresh s room
  have slots := slots_createJob k y s
  have there (q : SlotKey) (hq : q ∈ (newJob s k y).slots) := newJob_slots h.recorded can hq
  refine ⟨h.tables.reacts (createJob_reacts k y s room), ?_, ?_, h.lives.createJob free can⟩
  · have taken := h.recorded.same (pages_takeRefs (newJob s k y).slots s) (.taken (newJob s k y).slots s)
    have page (n : Nat) : (takeRefs (newJob s k y).slots s).page? n = s.page? n := congrArg (tget · n) (pages_takeRefs _ s)
    refine taken.counted (f := fun n m => m + y.content.pages.count n) (fun n => ?_) slots (fun n r hr hs => ?_) fun n r hr hs => ?_
    · rw [page]
      exact page?_createJob k y s n
    · rw [page] at hr
      have stands := h.recorded.records n r hr
      have unnamed : n ∉ y.content.pages := by
        intro mem
        have required : needsPage s y.content.sep n = true := by
          unfold needsPage
          rw [hr, Option.any_some, (stands.expected hs).2.1]
          simp
        have arrived := List.all_eq_true.mp (Bool.and_eq_true_iff.mp can).2 n mem
        rw [required, hr, Option.any_some, stands.arrived (.inr (.inl hs))] at arrived
        cases arrived
      show r.liveJobs + y.content.pages.count n = 0
      rw [(stands.expected hs).2.2, List.count_eq_zero.mpr unnamed]
    · rw [page] at hr
      have some := (h.recorded.records n r hr).withdrawn hs
      show r.liveJobs + y.content.pages.count n ≠ 0
      omega
  · have taken := h.referred.taken (newJob s k y).slots
    have jobs : (takeRefs (newJob s k y).slots s).jobs = s.jobs := (RegistersOnly.taken _ s).jobs
    have added : Referred [] ((takeRefs (newJob s k y).slots s).addJob (nextNumber s) (newJob s k y)) := by
      refine taken.addJob ?_ rfl (fun q hq => ?_) fun q hq => ?_
      · exact (congrArg (tget · (nextNumber s)) jobs).trans free
      · obtain ⟨-, mem, version, sep, -⟩ := there q hq
        refine ⟨?_, sep⟩
        rw [version]
        exact List.mem_map.mpr ⟨q.page, mem, rfl⟩
      · obtain ⟨-, -, -, -, o, ho, -⟩ := there q hq
        rw [slot?_takeRefs, ho]
        exact nofun
    refine added.of_eq ?_ slots
    rw [jobs_createJob]
    show tput id s.jobs _ _ = tput id (takeRefs (newJob s k y).slots s).jobs _ _
    rw [jobs]

theorem needTest (h : Books P L [] g s) (k : PosKey) : Books P L [] g (needTest k s) :=
  needTest_keeps k h
    (fun y _ hn room => h.createJob room (by rw [← State.satisfiable_eq_makeable]; exact (Bool.and_eq_true_iff.mp hn).2))
    (fun _ => h.work k _) fun t n h => h.still (.raised n t)

/-- A page that no job names beyond the job that leaves is not held. -/
theorem unheld (h : Books P L E g s) (hn : s.job? n = some j) (free : holds j.state = false) (pages : j.pages.map Prod.fst = P)
    {p : Nat} (few : namers s p ≤ P.count p) :
    ∀ m i, s.job? m = some i → holds i.state = true → ∀ k ∈ i.slots, k.page ≠ p := by
  intro m i hi held k hk same
  have other : m ≠ n := by
    rintro rfl
    cases hi.symm.trans hn
    cases held.symm.trans free
  have named := (h.referred.slots m i hi k hk).1
  have one : 1 ≤ (i.pages.map Prod.fst).count p := List.count_pos_iff.mpr (List.mem_map.mpr ⟨_, named, same⟩)
  have left : (s.dropJob n).job? m = some i := by rw [job?_dropJob, if_neg other, hi]
  have more := count_le_namers left p
  have total := namers_dropJob h.tables.jobs hn p
  rw [pages] at total
  omega

/-- The live-job count of a page of the job that leaves is lowered. -/
theorem lowerLive {p : Nat} (h : Books P (p :: L) [] g s) (hn : s.job? n = some j) (free : holds j.state = false)
    (pages : j.pages.map Prod.fst = P) : Books P L [] g (lowerLive p s) := by
  have lives : Lives P L (Machine.lowerLive p s) := by
    refine h.lives.lowerLive ?_
    rw [← pages]
    exact count_le_namers hn p
  have o := h.tables.reacts (lowerLive_reacts p s)
  obtain lowered | ⟨gone, r, hr, hs, zero⟩ := lowerLive_cases p s
  · refine ⟨o, ?_, h.referred.of_eq lowered.registers.jobs lowered.slots, lives⟩
    refine h.recorded.counted (f := fun m x => if m = p then x - 1 else x) lowered.page lowered.slots (fun m r hr hs => ?_) fun m r hr hs => ?_
    · have none := ((h.recorded.records m r hr).expected hs).2.2
      split <;> omega
    · split
      next e => exact lowered.some r (e ▸ hr) hs
      next => exact (h.recorded.records m r hr).withdrawn hs
  · refine ⟨o, h.recorded.removed gone.page gone.slot fun _ _ => Iff.rfl, ?_, lives⟩
    refine h.referred.removed gone.registers.jobs gone.slot (h.unheld hn free pages ?_)
    have counts := (h.lives p).2 r hr
    rw [List.count_cons_self] at counts
    omega

end Books

/-- A job that is leaving: it holds no references. -/
structure LeavingBooks (n : Nat) (P L : List Nat) (g : Gaps) (s : State) : Prop where
  books : Books P L [] g s
  job : ∃ j, s.job? n = some j ∧ holds j.state = false ∧ j.pages.map Prod.fst = P

theorem LeavingBooks.of_jobs (h : LeavingBooks n P L g s) (books : Books P L [] g t) (jobs : t.jobs = s.jobs) : LeavingBooks n P L g t := by
  obtain ⟨j, hj, rest⟩ := h.job
  exact ⟨books, j, (congrArg (tget · n) jobs).trans hj, rest⟩

theorem LeavingBooks.needTest (h : LeavingBooks n P L g s) (k : PosKey) : LeavingBooks n P L g (needTest k s) := by
  obtain ⟨j, hj, free, pages⟩ := h.job
  refine ⟨h.books.needTest k, j, ?_, free, pages⟩
  refine needTest_keeps (P := fun t => t.job? n = some j) k hj (fun y _ _ room => ?_) (fun _ => hj) fun t x ht => ?_
  · have job : (createJob k y s).job? n = (s.addJob (nextNumber s) (newJob s k y)).job? n := congrArg (tget · n) (jobs_createJob k y s)
    rw [job, job?_addJob, if_neg, hj]
    rintro rfl
    cases (nextNumber_fresh s room).symm.trans hj
  · exact (congrArg (tget · n) (Still.raised x t).jobs).trans ht

theorem LeavingBooks.drop (h : LeavingBooks n P [] g s) : Books [] [] [] g (s.dropJob n) := by
  obtain ⟨j, hj, free, pages⟩ := h.job
  have o := h.books.tables
  refine ⟨⟨o.pages, o.slots, o.plan, o.stages, ordered_tdel _ o.jobs, o.racks⟩, h.books.recorded.of_eq rfl rfl,
    h.books.referred.dropJob o hj free, fun k => ?_⟩
  have dropped := namers_dropJob o.jobs hj k
  rw [pages] at dropped
  have page : (s.dropJob n).page? k = s.page? k := rfl
  obtain ⟨without, counts⟩ := h.books.lives k
  rw [page]
  refine ⟨fun e => ?_, fun r hr => ?_⟩
  · have := without e
    simp only [List.count_nil, Nat.add_zero] at this ⊢
    omega
  · have := counts r hr
    simp only [List.count_nil, Nat.add_zero] at this ⊢
    omega

/-- A departure keeps the books; with them it keeps what its phases keep: `Q` until the job's position does not name it any
longer, `V` after that, and `N` once the job has left and its position has been told. -/
theorem Books.departing {Q V N : State → Prop} {y : JobState} (h : Books [] [] [] g s)
    (hy : y = .retired ∨ y = .cancelled ∨ y = .discarded) (hj : s.job? n = some j)
    (start : Q (s.modJob n fun x => { x with state := y })) (judge : ∀ t, Q t → Q (evalStarved t))
    (release : ∀ t, Q t → Q (releaseRefs j.slots t))
    (lower : ∀ t l p, p ∈ j.pages.map Prod.fst → LeavingBooks n (j.pages.map Prod.fst) (p :: l) g t → Q t → Q (Machine.lowerLive p t))
    (kept : ∀ t, LeavingBooks n (j.pages.map Prod.fst) [] g t → Q t → (∀ x, t.pos? j.key = some x → x.work.current ≠ some n) → V t)
    (vacate : ∀ t x, LeavingBooks n (j.pages.map Prod.fst) [] g t → Q t → t.pos? j.key = some x → x.work.current = some n →
      V (evalStarved (Machine.needTest j.key (t.modWork j.key fun w => { w with current := none }))))
    (notice : ∀ t m, V t → V (raise m t))
    (tell : ∀ t, LeavingBooks n (j.pages.map Prod.fst) [] g t → V t →
      N (tellNaming (j.pages.map Prod.fst) (Machine.tellSatisfied j.key (t.dropJob n)))) :
    Books [] [] [] g (Machine.departCore n y s) ∧ N (Machine.departCore n y s) := by
  have out : holds y = false := by rcases hy with rfl | rfl | rfl <;> rfl
  have leaving : (s.modJob n fun x => { x with state := y }).job? n = some { j with state := y } := by
    rw [job?_modJob, if_pos rfl, hj, Option.map_some]
  have lives : Lives (j.pages.map Prod.fst) (j.pages.map Prod.fst) (s.modJob n fun x => { x with state := y }) := by
    intro m
    obtain ⟨without, counts⟩ := h.lives.same (.modJob h.tables n (f := fun x => { x with state := y }) fun _ _ => rfl) m
    exact ⟨fun e => by simpa using without e, fun r hr => by simpa using counts r hr⟩
  have o := h.tables.modJob n fun x => { x with state := y }
  have recorded : Recorded g (s.modJob n fun x => { x with state := y }) := h.recorded.of_eq rfl rfl
  have leavingJob {t : State} (k : RegistersOnly (s.modJob n fun x => { x with state := y }) t) :
      ∃ i, t.job? n = some i ∧ holds i.state = false ∧ i.pages.map Prod.fst = j.pages.map Prod.fst :=
    ⟨_, (congrArg (tget · n) k.jobs).trans leaving, out, rfl⟩
  refine departCore_releasing
    (A := fun t => (Still (s.modJob n fun x => { x with state := y }) t ∧ RegistersOnly (s.modJob n fun x => { x with state := y }) t) ∧ Q t)
    (M := fun l t => (LeavingBooks n (j.pages.map Prod.fst) l g t ∧ ∀ p ∈ l, p ∈ j.pages.map Prod.fst) ∧ Q t)
    (V := fun t => LeavingBooks n (j.pages.map Prod.fst) [] g t ∧ V t)
    (N := fun t => Books [] [] [] g t ∧ N t) hj ⟨⟨.refl _, .refl _⟩, start⟩ ?_ ?_ ?_ ?_ ?_ ?_ ?_ ?_
  · exact fun t a => ⟨⟨a.1.1.trans (.starved t), a.1.2.trans (.starved t)⟩, judge t a.2⟩
  · intro t a held
    obtain ⟨⟨still, only⟩, q⟩ := a
    have referred : Referred j.slots t := (h.referred.letGo h.tables hj (f := fun x => { x with state := y })
      (fun _ => ⟨rfl, rfl, rfl⟩) held out).still still
    have released := RegistersOnly.released j.slots t
    refine ⟨⟨⟨⟨(still.tables o).releaseRefs _, ?_, referred.released, ?_⟩, leavingJob (only.trans released)⟩, fun _ => id⟩, release t q⟩
    · exact (recorded.of_eq still.pages still.slots).same (pages_releaseRefs _ _) (.released _ _)
    · exact (lives.same still.lives).same (.of_eq released.jobs (pages_releaseRefs _ _))
  · intro t a free
    obtain ⟨⟨still, only⟩, q⟩ := a
    have referred := h.referred.keep h.tables n (f := fun x => { x with state := y }) (fun _ => ⟨rfl, rfl, rfl⟩)
      fun i hi => by cases hj.symm.trans hi; exact out.trans free.symm
    exact ⟨⟨⟨⟨still.tables o, recorded.of_eq still.pages still.slots, referred.still still, lives.same still.lives⟩, leavingJob only⟩,
      fun _ => id⟩, q⟩
  · intro l t p m
    obtain ⟨⟨m, mem⟩, q⟩ := m
    obtain ⟨i, hi, free, pages⟩ := m.job
    exact ⟨⟨⟨m.books.lowerLive hi free pages, i, (congrArg (tget · n) (RegistersOnly.lowered p t).jobs).trans hi, free, pages⟩,
      fun a ha => mem a (List.mem_cons_of_mem _ ha)⟩, lower t l p (mem p (by simp)) m q⟩
  · exact fun t m away => ⟨m.1.1, kept t m.1.1 m.2 away⟩
  · intro t x m hx hc
    obtain ⟨⟨m, -⟩, q⟩ := m
    have vacated : LeavingBooks n (j.pages.map Prod.fst) [] g (t.modWork j.key fun w => { w with current := none }) :=
      m.of_jobs (m.books.work j.key _) rfl
    have tested := vacated.needTest j.key
    exact ⟨tested.of_jobs (tested.books.still (.starved _)) (Still.starved _).jobs, vacate t x m q hx hc⟩
  · exact fun t x m => ⟨m.1.of_jobs (m.1.books.still (.raised x t)) (Still.raised x t).jobs, notice t x m.2⟩
  · exact fun t m => ⟨tellNaming_keeps (fun t k h => h.tellSatisfied k) _ (m.1.drop.tellSatisfied _), tell t m.1 m.2⟩

/-- A departure keeps the books. -/
theorem Books.departCore {y : JobState} (h : Books [] [] [] g s) (hy : y = .retired ∨ y = .cancelled ∨ y = .discarded)
    (hj : s.job? n = some j) : Books [] [] [] g (departCore n y s) :=
  (h.departing (Q := fun _ => True) (V := fun _ => True) (N := fun _ => True) hy hj trivial (fun _ _ => trivial) (fun _ _ => trivial)
    (fun _ _ _ _ _ _ => trivial) (fun _ _ _ _ => trivial) (fun _ _ _ _ _ _ => trivial) (fun _ _ _ => trivial) fun _ _ _ => trivial).1

end Sys2Proof.Machine
end

section
/-! Every deed keeps the page register, the raster table and the counts in agreement. -/

namespace Sys2Proof.Machine

open State

variable {w c : Prop} {g g' : Gaps} {s t u : State} {n m : Nat} {j : Job} {k : SlotKey} {x : Slot} {P L : List Nat} {E : List SlotKey}

theorem slots_releaseRefs (h : t.slots = s.slots) (ks : List SlotKey) : (releaseRefs ks t).slots = (releaseRefs ks s).slots := by
  unfold releaseRefs
  induction ks generalizing s t with
  | nil => exact h
  | cons k ks ih =>
    rw [List.foldl_cons, List.foldl_cons]
    refine ih ?_
    have counted : (t.modCount k (· - 1)).slots = (s.modCount k (· - 1)).slots := by
      rw [slots_modCount, slots_modCount, h]
    have found : (t.modCount k (· - 1)).slot? k = (s.modCount k (· - 1)).slot? k := congrArg (tget · k) counted
    unfold releaseRef freeIfDone
    rw [found]
    split
    · split
      · rw [slots_dropSlot, slots_dropSlot, counted]
      · exact counted
    · exact counted

namespace Referred

/-- A job whose plate has been exposed releases its references. -/
theorem exposed (h : Referred [] s) (o : Tables s) (hj : s.job? n = some j) {f : Job → Job}
    (same : ∀ j, (f j).pages = j.pages ∧ (f j).slots = j.slots ∧ (f j).sep = j.sep) (before : holds j.state = true)
    (after : holds (f j).state = false) (jobs : t.jobs = (s.modJob n f).jobs) (slots : t.slots = (releaseRefs j.slots s).slots) :
    Referred [] t := by
  have released := (h.letGo o hj same before after).released
  have jobs' : (releaseRefs j.slots (s.modJob n f)).jobs = (s.modJob n f).jobs := (RegistersOnly.released _ _).jobs
  have slots' : (releaseRefs j.slots (s.modJob n f)).slots = (releaseRefs j.slots s).slots := slots_releaseRefs (s := s) (t := s.modJob n f) rfl _
  exact released.of_eq (jobs.trans jobs'.symm) (slots.trans slots'.symm)

/-- A job takes its references, and holds them. -/
theorem takenUp (h : Referred [] s) (o : Tables s) (hj : s.job? n = some j) {f : Job → Job}
    (same : ∀ j, (f j).pages = j.pages ∧ (f j).slots = j.slots ∧ (f j).sep = j.sep) (before : holds j.state = false)
    (after : holds (f j).state = true) (there : ∀ k ∈ j.slots, s.slot? k ≠ none) : Referred [] ((takeRefs j.slots s).modJob n f) := by
  have jobs : (takeRefs j.slots s).jobs = s.jobs := (RegistersOnly.taken _ s).jobs
  refine (h.taken j.slots).takeUp (o.takeRefs _) ((congrArg (tget · n) jobs).trans hj) same before after fun k hk => ?_
  have some := there k hk
  rw [slot?_takeRefs]
  simpa using some

/-- A job takes its references again, if it had released them. -/
theorem retaken (h : Referred [] s) (o : Tables s) (hj : s.job? n = some j) {f : Job → Job}
    (same : ∀ j, (f j).pages = j.pages ∧ (f j).slots = j.slots ∧ (f j).sep = j.sep) (after : holds (f j).state = true)
    (there : holds j.state = false → ∀ k ∈ j.slots, s.slot? k ≠ none) : Referred [] ((retakeRefs j s).modJob n f) := by
  have holding : j.state.holdsRefs = holds j.state := by cases j.state <;> rfl
  unfold retakeRefs
  rw [holding]
  split
  next held =>
    refine h.keep o n same fun i hi => ?_
    cases hj.symm.trans hi
    rw [after, held]
  next out => exact h.takenUp o hj same (Bool.eq_false_iff.mpr out) after (there (Bool.eq_false_iff.mpr out))

end Referred

/-- A job that is not superseded can take its references again. -/
def Retakable (g : Gaps) (s : State) : Prop :=
  ∀ n j, s.job? n = some j → j.superseded = false → ¬ g.behind j.key → ∀ k ∈ j.slots, s.slot? k ≠ none

/-- A job in an engine or a lane is in the state of its place. -/
theorem InPlace.delivered (p : InPlace g s) (hs : g.spent = false) {d : Delivery} (hd : s.sorter.delivery = some d)
    (hj : s.job? d.job = some j) : j.state = .finishing := by
  have there : ((spots s).but g.spent).delivery = some d := by
    rw [hs, Spots.but_false]
    exact hd
  obtain ⟨i, hi, -, state⟩ := p.ok.order _ _ _ (p.ok.delivery d there).1
  have live : ((spots s).but g.spent).job d.job = some j := hj
  cases live.symm.trans hi
  exact state

theorem refreshCounts_parts (p : PressId) (s : State) : ∃ v w x, refreshCounts p s = { s with plan := v, presses := w, ports := x } := by
  have standing : ∃ v, refreshStanding p s = { s with plan := v } := by
    unfold refreshStanding
    generalize s.positionsOf p = l
    induction l generalizing s with
    | nil => exact ⟨s.plan, rfl⟩
    | cons x l ih =>
      obtain ⟨v, e⟩ := ih (s.modWork x.1 fun w => { w with satisfied := s.satisfied x.2 })
      exact ⟨v, e⟩
  obtain ⟨v, e⟩ := standing
  unfold refreshCounts
  dsimp only
  rw [e, evalPress_eq]
  exact ⟨v, _, _, raiseAll_same _ _⟩

/-! ### Deeds -/

/-- Every deed keeps the register and the raster table in agreement. -/
theorem Deed.recorded (d : Deed w c (g, s) (g', t)) (hw : w) (hc : c) (o : Tables s) (b : Books [] [] [] g s) : Recorded g' t := by
  have h := b.recorded
  have away {x : State} {q : Nat} (k : Recorded g x) : Recorded (g.take fun m => m = q) x := k.gaps fun _ => Iff.rfl
  cases d with
  | blind _ _ _ hn => exact absurd hw hn
  | still k => exact h.of_eq k.pages k.slots
  | expose _ _ e u hu =>
    rw [sendExpose, hu]
    exact h.of_eq rfl rfl
  | create _ _ k x hx hn hl =>
    exact (b.createJob hl (by rw [← State.satisfiable_eq_makeable]; exact (Bool.and_eq_true_iff.mp hn).2)).recorded
  | tell _ _ k => exact (b.tellSatisfied k).recorded.gaps fun _ => Iff.rfl
  | core _ _ n j x hx hj => exact (b.departCore hx hj).recorded.gaps fun _ => Iff.rfl
  | queue _ _ n a j =>
    have retaken := h.same (pages_retakeRefs j s) (.retaken j s)
    exact (retaken.of_eq (t := enterQueue n a (retakeRefs j s)) rfl rfl).gaps fun _ => Iff.rfl
  | fail _ _ n j =>
    have retaken := h.same (pages_retakeRefs j s) (.retaken j s)
    exact (retaken.of_eq (t := (retakeRefs j s).modJob n fun x => { x with state := .failed }) rfl rfl).gaps fun _ => Iff.rfl
  | fewer _ _ e f => exact (h.of_eq (t := s.modCtx e f) rfl rfl).gaps fun _ => Iff.rfl
  | develop _ _ e u =>
    have cleared : Recorded g (s.modCtx e fun c => { c with current := none }) := h.of_eq rfl rfl
    have released := cleared.same (pages_releaseRefs ((s.job? u.job).map Job.slots |>.getD []) _) (.released _ _)
    exact released.of_eq rfl rfl
  | leave _ _ l n => exact away (h.of_eq rfl rfl)
  | reclaim _ _ l n j st x =>
    have released := h.same (pages_releaseRefs ((s.job? n).map Job.slots |>.getD []) s) (.released _ _)
    exact released.of_eq rfl rfl
  | rack _ _ d p q j => exact (h.of_eq (t := landsAt d.lane d.job (s.setRack _ _)) rfl rfl).gaps fun _ => Iff.rfl
  | shelve _ _ d p j => exact (h.of_eq (t := landsAt d.lane d.job (s.setShelf _ _)) rfl rfl).gaps fun _ => Iff.rfl
  | spend => exact h.gaps fun _ => Iff.rfl
  | finish => exact (h.of_eq (t := s.setDelivery none) rfl rfl).gaps fun _ => Iff.rfl
  | pull _ _ k n => exact (h.of_eq (t := takePlate k n s) rfl rfl).gaps fun _ => Iff.rfl
  | mount _ _ k x n => exact (h.of_eq (t := mountsAt k n s) rfl rfl).gaps fun _ => Iff.rfl
  | unmount _ _ k x => exact (h.of_eq (t := s.modWork k fun y => { y with mounted := none }) rfl rfl).gaps fun _ => Iff.rfl
  | flag _ _ k x n j => exact (h.of_eq (t := flagsAt k n j s) rfl rfl).gaps fun _ => Iff.rfl
  | caught => exact h.gaps fun _ => Iff.rfl
  | arrive _ _ n v cl x a live ref hl found hm out =>
    exact (h.arrives (h.slotsBefore_arrival (found hc) out) rfl out hm (h.mono_arrival (found hc))).gaps fun _ => Iff.rfl
  | renew _ _ n old v cl x r ref hr hs hv lt hm out =>
    exact (h.arrives (h.slotsBefore_revision o hr hv lt) (pages_clearAllCurrent n s) out hm fun _ z _ => Recorded.has_empty z).gaps
      fun _ => Iff.rfl
  | strip _ _ n r hr hs => exact h.stripped o hr hs (.inr rfl) fun m e => ⟨fun p => p.resolve_right e, .inl⟩
  | withdraw _ _ n r hr hp hl =>
    have stands := h.records n r hr
    have known : r.state ≠ .expected := fun e => hl (stands.expected e).2.2
    refine h.putPage ⟨nofun, fun _ => stands.arrived (.inl hp), fun _ => stands.known known, fun _ e => ?_, fun _ => hl, stands.mono⟩
      (fun r' hr' => ?_) (fun absent => by cases hr.symm.trans absent) fun m e => ⟨And.left, fun p => ⟨p, e⟩⟩
    · rcases e with e | e <;> cases e
    · cases hr.symm.trans hr'
      exact ⟨rfl, rfl, .inr (.inl rfl)⟩
  | remove _ _ n r hr hp hl =>
    have gone := removePage_gone n r s
    exact h.removed gone.page gone.slot fun m e => ⟨And.left, fun p => ⟨p, e⟩⟩
  | expect _ _ n absent =>
    have unknown : RecordStands (g.page n) expectedPage :=
      ⟨fun _ => ⟨rfl, rfl, rfl⟩, fun _ => Recorded.has_empty, fun e => absurd rfl e, fun _ e => (by rcases e with e | e <;> cases e), nofun,
        fun e => nomatch e⟩
    exact h.putPage unknown (fun r hr => by cases absent.symm.trans hr) (fun _ => Recorded.has_empty) fun _ _ => Iff.rfl
  | blot _ _ k f hf => exact h.same rfl (.modSlot k fun x => (hf x).2)
  | commit => exact h.gaps fun _ => Iff.rfl
  | recount _ _ p =>
    obtain ⟨v, w, x, e⟩ := refreshCounts_parts p s
    rw [e]
    exact (h.of_eq (t := { s with plan := v, presses := w, ports := x }) rfl rfl).gaps fun _ => Iff.rfl
  | reopen _ _ l => exact (h.of_eq (t := clearClearing l s) rfl rfl).gaps fun _ => Iff.rfl
  | empty e => exact (h.of_eq e.pages e.slots).gaps fun _ => Iff.rfl
  | lose _ _ n j => exact (h.of_eq (t := s.modJob n fun x => { x with state := .uncertain, lane := laneOfExposing j }) rfl rfl).gaps fun _ => Iff.rfl
  | strand _ _ n j =>
    have taken := h.same (pages_takeRefs j.slots s) (.taken j.slots s)
    exact (taken.of_eq (t := (takeRefs j.slots s).modJob n fun x => { x with state := .uncertain }) rfl rfl).gaps fun _ => Iff.rfl
  | restart => exact ⟨fun _ _ e => (by cases e), fun _ _ e => (by cases e), fun _ _ e => (by cases e), fun _ _ _ _ e => by cases e⟩
  | _ => exact h.of_eq rfl rfl

/-- Every deed keeps the reference counts in agreement with the jobs. -/
theorem Deed.referred (d : Deed w c (g, s) (g', t)) (hw : w) (hc : c) (o : Tables s) (p : InPlace g s) (b : Books [] [] [] g s)
    (fresh : Retakable g s) : Referred [] t := by
  have h := b.referred
  have job (n : Nat) : ((spots s).but g.spent).job n = s.job? n := rfl
  cases d with
  | blind _ _ _ hn => exact absurd hw hn
  | still k => exact h.still k
  | assign _ _ e n j hj hq =>
    have given := h.keep o n (f := fun x => { x with state := .assigned, engine := some e }) (fun _ => ⟨rfl, rfl, rfl⟩)
      fun i hi => by cases hj.symm.trans hi; rw [hq]; rfl
    exact given.of_eq rfl rfl
  | expose _ _ e u hu =>
    rw [sendExpose, hu]
    have marked := h.keep o u.job (f := fun x => { x with applied := some (s.register e).correction }) (fun _ => ⟨rfl, rfl, rfl⟩)
      fun _ _ => rfl
    exact marked.of_eq rfl rfl
  | create _ _ k x hx hn hl =>
    exact (b.createJob hl (by rw [← State.satisfiable_eq_makeable]; exact (Bool.and_eq_true_iff.mp hn).2)).referred
  | tell _ _ k => exact (b.tellSatisfied k).referred
  | core _ _ n j x hx hj => exact (b.departCore hx hj).referred
  | note _ _ n f hf => exact h.keep o n (fun j => by rw [hf j]; exact ⟨rfl, rfl, rfl⟩) fun j _ => by rw [hf j]
  | queue _ _ n a j hj ho hs hr hb =>
    have jobs : (enterQueue n a (retakeRefs j s)).jobs = ((retakeRefs j s).modJob n fun x => { x with
      state := .queued, attempt := a, lane := none, applied := none, entryOrder := (retakeRefs j s).entryCount + 1 }).jobs := rfl
    refine Referred.of_eq (h.retaken o hj (f := fun x =>
      { x with state := .queued, attempt := a, lane := none, applied := none, entryOrder := (retakeRefs j s).entryCount + 1 })
      (fun _ => ⟨rfl, rfl, rfl⟩) rfl fun out => ?_) jobs rfl
    obtain fresh' | failed := hs
    · exact fresh n j hj fresh' (hb _)
    · rw [failed] at out
      cases out
  | fail _ _ n j hj ho hs hr hb =>
    exact h.retaken o hj (fun _ => ⟨rfl, rfl, rfl⟩) rfl fun _ => fresh n j hj hs (hb _)
  | start _ _ e u hu =>
    have waits : ((spots s).but g.spent).next e = some (u.job, u.stage) := by
      show waitSpot (s.engine e).ctx.next = _
      rw [hu]
      rfl
    obtain ⟨i, hi, state, -⟩ := p.ok.next e _ _ waits
    have exposing := h.keep o u.job (f := fun j => { j with state := .exposing }) (fun _ => ⟨rfl, rfl, rfl⟩)
      fun j hj => by cases (job _).symm.trans hi |>.symm.trans hj; rw [state]; rfl
    exact exposing.of_eq rfl rfl
  | develop _ _ e u hu =>
    have here : ((spots s).but g.spent).cur e = some u.job := by
      show (s.engine e).ctx.current.map CurrentCtx.job = _
      rw [hu]
      rfl
    obtain ⟨i, hi, state, -⟩ := p.ok.current e _ here
    have live : s.job? u.job = some i := hi
    have refs : ((s.job? u.job).map Job.slots).getD [] = i.slots := by rw [live]; rfl
    refine h.exposed o live (f := fun j => { j with state := .developing, lane := some (laneFed e) }) (fun _ => ⟨rfl, rfl, rfl⟩)
      (by rw [state]; rfl) rfl ?_ ?_
    · obtain ⟨v, hv⟩ := releaseRefs_slots ((s.job? u.job).map Job.slots |>.getD []) (s.modCtx e fun c => { c with current := none })
      unfold developsAt
      rw [hv]
      rfl
    · rw [← refs]
      exact slots_releaseRefs (s := s) (t := s.modCtx e fun c => { c with current := none }) rfl _
  | pass _ _ l n hy =>
    obtain ⟨y, mem, rfl, -⟩ := hy hw
    obtain ⟨i, hi, -, inLane⟩ := p.ok.inOrder (mem_orderSpots.mpr ⟨y, mem, rfl, rfl⟩)
    have passed := h.keep o y.job (f := fun x => { x with state := .finishing }) (fun _ => ⟨rfl, rfl, rfl⟩) fun j hj => by
      cases ((job _).symm.trans hi).symm.trans hj
      obtain e | e := inLane
      · rw [e]
        rfl
      · rw [e]
    exact passed.of_eq rfl rfl
  | reclaim _ _ l n j st x hj hu hl out hst =>
    have refs : ((s.job? n).map Job.slots).getD [] = j.slots := by rw [hj]; rfl
    refine h.exposed o hj (f := fun j => { j with state := st }) (fun _ => ⟨rfl, rfl, rfl⟩) (by rw [hu]; rfl) ?_ ?_ ?_
    · rcases hst with e | e <;> (cases e; rfl)
    · obtain ⟨v, hv⟩ := releaseRefs_slots ((s.job? n).map Job.slots |>.getD []) s
      unfold Machine.reclaim
      dsimp only
      rw [hv]
      rfl
    · rw [← refs]
      rfl
  | rack _ _ d pr q j hd hx hj hs | shelve _ _ d pr j hd hx hj hs =>
    have state := p.delivered hs hd hj
    have racked := h.keep o d.job (f := fun x => { x with state := .racked }) (fun _ => ⟨rfl, rfl, rfl⟩)
      fun i hi => by cases hj.symm.trans hi; rw [state]; rfl
    exact racked.of_eq rfl rfl
  | mount _ _ k x n j hx hc hj hr =>
    have mounted := h.keep o n (f := fun j => { j with state := .mounted }) (fun _ => ⟨rfl, rfl, rfl⟩)
      fun i hi => by cases hj.symm.trans hi; rw [hr]; rfl
    exact mounted.of_eq rfl rfl
  | flag _ _ k x n j =>
    have flagged := h.keep o n (f := fun x => { x with superseded := true }) (fun _ => ⟨rfl, rfl, rfl⟩) fun _ _ => rfl
    exact flagged.of_eq rfl rfl
  | arrive _ _ n v cl x a live ref hl found hm out =>
    rw [writeArrival_eq]
    have written : Referred [] (s.putPage n ⟨some cl, some v, a.add x, stateFor cl (a.add x), live⟩) := h.of_eq rfl rfl
    refine written.putSlot (o.putPage n _) ?_ rfl rfl
    have before := b.recorded.slotsBefore_arrival (found hc) out
    show s.slot? ⟨n, v, x⟩ = none
    by_contra some
    obtain ⟨y, hy⟩ := Option.ne_none_iff_exists'.mp some
    have current := (before.versions _ y hy rfl).2 rfl
    have has := (before.current _ y hy rfl current).2
    cases found hc with
    | nothing => cases (Recorded.has_empty x).symm.trans has
    | expected => cases (Recorded.has_empty x).symm.trans has
    | lacking r hr hs hv hc hx => cases hx.symm.trans has
  | renew _ _ n old v cl x r ref hr hs hv lt hm out =>
    rw [writeArrival_eq]
    have cleared := h.cleared o n
    have written : Referred [] ((clearAllCurrent n s).putPage n ⟨some cl, some v, SepSet.empty.add x, stateFor cl (SepSet.empty.add x),
      r.liveJobs⟩) := cleared.of_eq rfl rfl
    refine written.putSlot ((clearAllCurrent_tables n o).putPage n _) ?_ rfl rfl
    have before := b.recorded.slotsBefore_revision o hr hv lt
    show (clearAllCurrent n s).slot? ⟨n, v, x⟩ = none
    by_contra some
    obtain ⟨y, hy⟩ := Option.ne_none_iff_exists'.mp some
    have current := (before.versions _ y hy rfl).2 rfl
    cases (Recorded.has_empty x).symm.trans (before.current _ y hy rfl current).2
  | strip _ _ n r => exact (h.cleared o n).of_eq rfl rfl
  | remove _ _ n r hr hp hl =>
    have gone := removePage_gone n r s
    refine h.removed gone.registers.jobs gone.slot fun m i hi held k hk same => ?_
    have named := (h.slots m i hi k hk).1
    have one : 1 ≤ (i.pages.map Prod.fst).count n := List.count_pos_iff.mpr (List.mem_map.mpr ⟨_, named, same⟩)
    have more := count_le_namers hi n
    have none := b.lives.count hr
    omega
  | blot _ _ k f hf => exact h.modSlot hf
  | recount _ _ p =>
    obtain ⟨v, w, x, e⟩ := refreshCounts_parts p s
    rw [e]
    exact h.of_eq rfl rfl
  | empty e => exact h.of_eq e.jobs e.slots
  | lose _ _ n j hj hs =>
    exact h.keep o n (fun _ => ⟨rfl, rfl, rfl⟩) fun i hi => by cases hj.symm.trans hi; rw [hs]; rfl
  | strand _ _ n j hj hs hx ho hc hb =>
    refine h.takenUp o hj (fun _ => ⟨rfl, rfl, rfl⟩) ?_ rfl (fresh n j hj hx (hb _))
    rcases hs with e | e <;> rw [e] <;> rfl
  | restart => exact ⟨fun _ _ e => (by cases e), fun _ _ e => (by cases e), fun _ _ e => (by cases e), fun _ _ e => by cases e⟩
  | _ => exact h.of_eq rfl rfl

/-- Every deed keeps the books. -/
theorem Deed.books (d : Deed w c (g, s) (g', t)) (hw : w) (hc : c) (p : InPlace g s) (b : Books [] [] [] g s)
    (fresh : Retakable g s) : Books [] [] [] g' t :=
  ⟨d.tables b.tables, d.recorded hw hc b.tables b, d.referred hw hc b.tables p b fresh, d.lives b.tables b.lives⟩

end Sys2Proof.Machine
end

section
/-! The jobs that are not superseded are the current jobs of their positions at every point of a command (R24, R29, R31, R39,
R58 to R60, R63). -/

namespace Sys2Proof.Machine

open State

variable {w c : Prop} {g g' : Gaps} {s t u : State} {n m : Nat} {j : Job} {k : SlotKey} {q : PosKey} {X Y : Nat → Prop}

/-- A job that is not superseded is the current job of its position, made of its content and from current rasters of pages that are
required, where its position has been told of what changed in its pages; the current job of a position is not superseded; and a
superseded job is neither QUEUED nor FAILED, where it is not on its way out of the table. The jobs `X` have been let go by their
positions. -/
structure Owns (X : Nat → Prop) (g : Gaps) (s : State) : Prop where
  live : ∀ n j, s.job? n = some j → j.superseded = false → ¬ X n → ∃ x, s.pos? j.key = some x ∧ x.work.current = some n ∧
    x.content.pages = j.pages.map Prod.fst ∧ x.content.sep = j.sep
  rasters : ∀ n j, s.job? n = some j → j.superseded = false → ¬ X n → ¬ g.behind j.key → ∀ k ∈ j.slots,
    needsPage s j.sep k.page = true ∧ ∃ o, s.slot? k = some o ∧ o.current = true
  unflagged : ∀ k x n j, s.pos? k = some x → x.work.current = some n → s.job? n = some j → j.superseded = false
  ended : ∀ n j, s.job? n = some j → j.superseded = true → ¬ g.doomed n → j.state ≠ .queued ∧ j.state ≠ .failed

/-- No job has been let go. -/
def NoneGone (_ : Nat) : Prop := False

theorem owns_closed (h : Undeferred s) : Owns NoneGone Gaps.closed s ↔ Current s := by
  constructor
  · exact fun k => ⟨fun n j hj hs => k.live n j hj hs not_false, fun n j hj hs => k.rasters n j hj hs not_false not_false, h, k.unflagged,
      fun n j hj hs => k.ended n j hj hs not_false⟩
  · exact fun k => ⟨fun n j hj hs _ => k.live n j hj hs, fun n j hj hs _ _ => k.rasters n j hj hs, k.unflagged,
      fun n j hj hs _ => k.ended n j hj hs⟩

theorem Owns.retakable (h : Owns NoneGone g s) : Retakable g s := by
  intro n j hj hs out k hk
  obtain ⟨-, o, ho, -⟩ := h.rasters n j hj hs not_false out k hk
  rw [ho]
  exact nofun

/-! ### What bears on it -/

/-- The jobs that are there were there, of the same position, pages and slots; a superseded one is QUEUED or FAILED only as it was. -/
structure JobsAs (g g' : Gaps) (s t : State) : Prop where
  before : ∀ n j, t.job? n = some j → ∃ i, s.job? n = some i ∧ j.key = i.key ∧ j.pages = i.pages ∧ j.slots = i.slots ∧ j.sep = i.sep ∧
    j.superseded = i.superseded
  ended : ∀ n j, t.job? n = some j → j.superseded = true → ¬ g'.doomed n → j.state = .queued ∨ j.state = .failed →
    ∃ i, s.job? n = some i ∧ ¬ g.doomed n ∧ (i.state = .queued ∨ i.state = .failed)

/-- The positions are the same in their contents and their current jobs. -/
structure PlanAs (s t : State) : Prop where
  before : ∀ k x, t.pos? k = some x → ∃ y, s.pos? k = some y ∧ x.content = y.content ∧ x.work.current = y.work.current
  after : ∀ k y, s.pos? k = some y → ∃ x, t.pos? k = some x ∧ x.content = y.content ∧ x.work.current = y.work.current

/-- A current slot of a required page stays so. -/
def RastersStay (s t : State) : Prop :=
  ∀ k o, s.slot? k = some o → o.current = true → ∀ x, needsPage s x k.page = true →
    needsPage t x k.page = true ∧ ∃ o', t.slot? k = some o' ∧ o'.current = true

theorem needsPage_of_pages (h : t.pages = s.pages) (x : Separation) (n : Nat) : needsPage t x n = needsPage s x n := by
  have page : t.page? n = s.page? n := congrArg (tget · n) h
  unfold needsPage
  rw [page]

theorem RastersStay.of_slots (pages : t.pages = s.pages) (slots : Recorded.SlotsAlike s t) : RastersStay s t :=
  fun k o ho hc x hx => ⟨(needsPage_of_pages pages x k.page).trans hx, slots.stays k o ho hc⟩

theorem RastersStay.of_eq (pages : t.pages = s.pages) (slots : t.slots = s.slots) : RastersStay s t := .of_slots pages (.of_slots slots)

namespace PlanAs

theorem of_eq (h : t.plan = s.plan) : PlanAs s t := by
  have pos (k : PosKey) : t.pos? k = s.pos? k := congrArg (tget · k) h
  exact ⟨fun k x hx => ⟨x, (pos k).symm.trans hx, rfl, rfl⟩, fun k x hx => ⟨x, (pos k).trans hx, rfl, rfl⟩⟩

theorem modPos (k : PosKey) {f : Position → Position} (h : ∀ x, s.pos? k = some x → (f x).content = x.content ∧ (f x).work.current = x.work.current) :
    PlanAs s (s.modPos k f) := by
  refine ⟨fun m x hx => ?_, fun m y hy => ?_⟩
  · rw [pos?_modPos] at hx
    split at hx
    next e =>
      subst e
      obtain ⟨y, hy, rfl⟩ := Option.map_eq_some_iff.mp hx
      exact ⟨y, hy, h y hy⟩
    · exact ⟨x, hx, rfl, rfl⟩
  · rw [pos?_modPos]
    split
    next e =>
      subst e
      exact ⟨f y, by rw [hy]; rfl, h y hy⟩
    · exact ⟨y, hy, rfl, rfl⟩

theorem modWork (k : PosKey) {f : PosWork → PosWork} (h : ∀ w, (f w).current = w.current) : PlanAs s (s.modWork k f) :=
  (modPos (s := s) k (f := fun x => { x with work := f x.work }) fun x _ => ⟨rfl, h x.work⟩)

theorem trans (h : PlanAs s t) (k : PlanAs t u) : PlanAs s u := by
  refine ⟨fun m x hx => ?_, fun m y hy => ?_⟩
  · obtain ⟨y, hy, content, current⟩ := k.before m x hx
    obtain ⟨z, hz, content', current'⟩ := h.before m y hy
    exact ⟨z, hz, content.trans content', current.trans current'⟩
  · obtain ⟨x, hx, content, current⟩ := h.after m y hy
    obtain ⟨z, hz, content', current'⟩ := k.after m x hx
    exact ⟨z, hz, content'.trans content, current'.trans current⟩

theorem tellSatisfied (k : PosKey) (s : State) : PlanAs s (tellSatisfied k s) := by
  refine ⟨fun m x hx => ?_, fun m y hy => ?_⟩
  · rw [pos?_tellSatisfied] at hx
    split at hx
    · obtain ⟨y, hy, rfl⟩ := Option.map_eq_some_iff.mp hx
      exact ⟨y, hy, rfl, rfl⟩
    · exact ⟨x, hx, rfl, rfl⟩
  · rw [pos?_tellSatisfied]
    split
    · exact ⟨{ y with work := { y.work with satisfied := s.satisfied y } }, by rw [hy]; rfl, rfl, rfl⟩
    · exact ⟨y, hy, rfl, rfl⟩

theorem refreshCounts (p : PressId) (s : State) : PlanAs s (refreshCounts p s) := by
  have standing : PlanAs s (refreshStanding p s) := by
    unfold refreshStanding
    generalize s.positionsOf p = l
    induction l generalizing s with
    | nil => exact of_eq rfl
    | cons x l ih => exact (modWork (s := s) x.1 (f := fun w => { w with satisfied := s.satisfied x.2 }) fun _ => rfl).trans (ih _)
  unfold Machine.refreshCounts
  dsimp only
  rw [evalPress_eq]
  exact standing.trans (of_eq (Still.raisedAll _ _).plan)

end PlanAs

namespace JobsAs

theorem of_eq (h : t.jobs = s.jobs) (doomed : ∀ n, g.doomed n → g'.doomed n) : JobsAs g g' s t := by
  have job (n : Nat) : t.job? n = s.job? n := congrArg (tget · n) h
  exact ⟨fun n j hj => ⟨j, (job n).symm.trans hj, rfl, rfl, rfl, rfl, rfl⟩,
    fun n j hj _ out hs => ⟨j, (job n).symm.trans hj, fun d => out (doomed n d), hs⟩⟩

/-- One job is written. -/
theorem of_modJob {f : Job → Job} (jobs : t.jobs = (s.modJob n f).jobs) (doomed : ∀ n, g.doomed n → g'.doomed n)
    (same : ∀ j, (f j).key = j.key ∧ (f j).pages = j.pages ∧ (f j).slots = j.slots ∧ (f j).sep = j.sep ∧ (f j).superseded = j.superseded)
    (state : ∀ j, s.job? n = some j → j.superseded = true → ¬ g'.doomed n → (f j).state = .queued ∨ (f j).state = .failed →
      j.state = .queued ∨ j.state = .failed) : JobsAs g g' s t := by
  have job (m : Nat) : t.job? m = (s.modJob n f).job? m := congrArg (tget · m) jobs
  refine ⟨fun m j hj => ?_, fun m j hj hs out st => ?_⟩
  · rw [job, job?_modJob] at hj
    split at hj
    · obtain ⟨i, hi, rfl⟩ := Option.map_eq_some_iff.mp hj
      exact ⟨i, hi, same i⟩
    · exact ⟨j, hj, rfl, rfl, rfl, rfl, rfl⟩
  · rw [job, job?_modJob] at hj
    split at hj
    next e =>
      subst e
      obtain ⟨i, hi, rfl⟩ := Option.map_eq_some_iff.mp hj
      obtain ⟨-, -, -, -, superseded⟩ := same i
      exact ⟨i, hi, fun d => out (doomed m d), state i hi (superseded.symm.trans hs) out st⟩
    · exact ⟨j, hj, fun d => out (doomed m d), st⟩

/-- One job takes a state of its work. -/
theorem worked {f : Job → Job} (jobs : t.jobs = (s.modJob n f).jobs) (doomed : ∀ n, g.doomed n → g'.doomed n)
    (same : ∀ j, (f j).key = j.key ∧ (f j).pages = j.pages ∧ (f j).slots = j.slots ∧ (f j).sep = j.sep ∧ (f j).superseded = j.superseded)
    (state : ∀ j, (f j).state ≠ .queued ∧ (f j).state ≠ .failed) : JobsAs g g' s t :=
  of_modJob jobs doomed same fun j _ _ _ st => by
    obtain ⟨queued, failed⟩ := state j
    exact (st.elim queued failed).elim

end JobsAs

/-- Nothing that bears on it changes. -/
theorem Owns.kept (h : Owns X g s) (jobs : JobsAs g g' s t) (plan : PlanAs s t) (rasters : RastersStay s t)
    (behind : ∀ k, g.behind k → g'.behind k) : Owns X g' t := by
  refine ⟨fun n j hj hs hX => ?_, fun n j hj hs hX hb k hk => ?_, fun k x n j hx hc hj => ?_, fun n j hj hs hd => ?_⟩
  · obtain ⟨i, hi, key, pages, slots, sep, superseded⟩ := jobs.before n j hj
    obtain ⟨y, hy, current, content, sep'⟩ := h.live n i hi (superseded.symm.trans hs) hX
    obtain ⟨x, hx, content', current'⟩ := plan.after _ y hy
    rw [key, pages, sep]
    exact ⟨x, hx, current'.trans current, by rw [content']; exact content, by rw [content']; exact sep'⟩
  · obtain ⟨i, hi, key, pages, slots, sep, superseded⟩ := jobs.before n j hj
    obtain ⟨needs, o, ho, hc⟩ := h.rasters n i hi (superseded.symm.trans hs) hX (fun b => hb (behind _ (key ▸ b))) k (slots ▸ hk)
    rw [sep]
    exact rasters k o ho hc i.sep needs
  · obtain ⟨i, hi, -, -, -, -, superseded⟩ := jobs.before n j hj
    obtain ⟨y, hy, -, current⟩ := plan.before k x hx
    exact superseded.trans (h.unflagged k y n i hy (current.symm.trans hc) hi)
  · by_contra out
    have st : j.state = .queued ∨ j.state = .failed := by
      by_contra neither
      exact out ⟨fun e => neither (.inl e), fun e => neither (.inr e)⟩
    obtain ⟨i, hi, hd', st'⟩ := jobs.ended n j hj hs hd st
    obtain ⟨i', hi', -, -, -, -, superseded⟩ := jobs.before n j hj
    cases hi.symm.trans hi'
    obtain ⟨queued, failed⟩ := h.ended n i hi (superseded.symm.trans hs) hd'
    exact st'.elim queued failed

theorem Owns.still (h : Owns X g s) (k : Still s t) : Owns X g t :=
  h.kept (.of_eq k.jobs fun _ => id) (.of_eq k.plan) (.of_eq k.pages k.slots) fun _ => id

theorem Owns.of_eq (h : Owns X g s) (jobs : t.jobs = s.jobs) (plan : t.plan = s.plan) (pages : t.pages = s.pages) (slots : t.slots = s.slots)
    (doomed : ∀ n, g.doomed n → g'.doomed n) (behind : ∀ k, g.behind k → g'.behind k) : Owns X g' t :=
  h.kept (.of_eq jobs doomed) (.of_eq plan) (.of_eq pages slots) behind

/-! ### Jobs that are created, and jobs that leave -/

/-- The records keep their classes. -/
theorem needsPage_of_classes (h : (t.page? n).bind PageRec.cls = (s.page? n).bind PageRec.cls) (x : Separation) :
    needsPage t x n = needsPage s x n := by
  have mono (u : State) : ((u.page? n).any fun r => decide (r.cls = some .mono)) = decide ((u.page? n).bind PageRec.cls = some .mono) := by
    cases u.page? n <;> simp
  unfold needsPage
  rw [mono, mono, h]

theorem pos?_createJob (q : PosKey) (y : Position) (s : State) (k : PosKey) : (createJob q y s).pos? k =
    if k = q then (s.pos? k).map fun x => { x with work := { x.work with current := some (nextNumber s), deferred := false, remake := false } }
    else s.pos? k := by
  obtain ⟨v, w, e⟩ := createJob_eq q y s
  rw [e]
  refine (congrArg (tget · k) (Still.raised _ _).plan).trans ?_
  exact pos?_modWork q _ _ k

theorem job?_createJob (q : PosKey) (y : Position) (s : State) (m : Nat) : (createJob q y s).job? m =
    if m = nextNumber s then some (newJob s q y) else s.job? m := by
  rw [← job?_addJob]
  exact congrArg (tget · m) (jobs_createJob q y s)

/-- A job is created for a position without one. -/
theorem Owns.createJob (h : Owns X g s) (r : Recorded g s) {y : Position} (hy : s.pos? q = some y) (vacant : y.work.current = none)
    (can : makeable s y.content = true) (room : s.jobs.length < 768) : Owns X g (createJob q y s) := by
  have free := nextNumber_fresh s room
  have stay : RastersStay s (Machine.createJob q y s) := by
    intro k o ho hc x needs
    refine ⟨?_, ?_⟩
    · rw [needsPage_of_classes ?_ x]
      · exact needs
      · rw [page?_createJob]
        cases s.page? k.page <;> rfl
    · obtain ⟨o', ho', hc'⟩ := (Recorded.SlotsAlike.taken (newJob s q y).slots s).stays k o ho hc
      exact ⟨o', (congrArg (tget · k) (slots_createJob q y s)).trans ho', hc'⟩
  have apart {n : Nat} {j : Job} (hj : s.job? n = some j) : n ≠ nextNumber s := by
    rintro rfl
    cases free.symm.trans hj
  refine ⟨fun n j hj hs hX => ?_, fun n j hj hs hX hb k hk => ?_, fun k x n j hx hc hj => ?_, fun n j hj hs hd => ?_⟩
  · rw [job?_createJob] at hj
    split at hj
    next e =>
      subst e
      cases hj
      refine ⟨{ y with work := { y.work with current := some (nextNumber s), deferred := false, remake := false } }, ?_, rfl,
        (newJob_pages s q y).symm, rfl⟩
      show (Machine.createJob q y s).pos? q = _
      rw [pos?_createJob, if_pos rfl, hy]
      rfl
    · obtain ⟨x, hx, current, content⟩ := h.live n j hj hs hX
      refine ⟨x, ?_, current, content⟩
      rw [pos?_createJob, if_neg, hx]
      rintro e
      rw [e, hy] at hx
      cases hx
      cases vacant.symm.trans current
  · rw [job?_createJob] at hj
    split at hj
    · cases hj
      obtain ⟨needs, -, -, -, o, ho, hc⟩ := newJob_slots r can hk
      exact stay k o ho hc y.content.sep needs
    · obtain ⟨needs, o, ho, hc⟩ := h.rasters n j hj hs hX hb k hk
      exact stay k o ho hc j.sep needs
  · rw [job?_createJob] at hj
    split at hj
    · cases hj
      rfl
    next other =>
      rw [pos?_createJob] at hx
      split at hx
      · obtain ⟨x', -, rfl⟩ := Option.map_eq_some_iff.mp hx
        exact absurd (Option.some.inj hc).symm other
      · exact h.unflagged k x n j hx hc hj
  · rw [job?_createJob] at hj
    split at hj
    · cases hj
      cases hs
    · exact h.ended n j hj hs hd

theorem Owns.defer (h : Owns X g s) (q : PosKey) (b : Bool) : Owns X g (s.modWork q fun w => { w with deferred := b }) :=
  h.kept (.of_eq rfl fun _ => id) (.modWork q fun _ => rfl) (.of_eq rfl rfl) fun _ => id

theorem Owns.needTest (h : Owns X g s) (r : Recorded g s) (q : PosKey) : Owns X g (needTest q s) := by
  refine needTest_keeps q h (fun y hy hn room => ?_) (fun b => h.defer q b) fun t n h => h.still (.raised n t)
  obtain ⟨vacant, can⟩ := Bool.and_eq_true_iff.mp hn
  rw [State.satisfiable_eq_makeable] at can
  exact h.createJob r hy (Option.isNone_iff_eq_none.mp vacant) can room

theorem Owns.tellSatisfied (h : Owns X g s) (q : PosKey) : Owns X g (tellSatisfied q s) := by
  have plan := PlanAs.tellSatisfied q s
  obtain ⟨v, w, p, e⟩ := tellSatisfied_parts q s
  rw [e] at plan ⊢
  exact h.kept (.of_eq rfl fun _ => id) plan (.of_eq rfl rfl) fun _ => id

/-- A page that is removed had no current slot. -/
theorem RastersStay.gone (r : Recorded g s) {p : Nat} (gone : PageGone p s t) {rec : PageRec} (hr : s.page? p = some rec)
    (stripped : g.page p ∨ rec.state = .expected ∨ rec.state = .withdrawn) : RastersStay s t := by
  intro k o ho hc x needs
  have other : k.page ≠ p := by
    rintro rfl
    cases (r.not_current hr stripped ho).symm.trans hc
  refine ⟨?_, o, ?_, hc⟩
  · rw [needsPage_of_classes ?_ x]
    · exact needs
    · rw [gone.page, if_neg other]
  · rw [gone.slot, if_neg other]
    exact ho

theorem RastersStay.lowerLive (r : Recorded g s) (p : Nat) : RastersStay s (lowerLive p s) := by
  obtain lowered | ⟨gone, rec, hr, hs, -⟩ := lowerLive_cases p s
  · intro k o ho hc x needs
    refine ⟨?_, o, (congrArg (tget · k) lowered.slots).trans ho, hc⟩
    rw [needsPage_of_classes ?_ x]
    · exact needs
    · rw [lowered.page]
      cases s.page? k.page <;> rfl
  · exact .gone r gone hr (.inr (.inr hs))

/-- A position lets its current job go. -/
theorem Owns.vacate (h : Owns (fun m => m = n) g s) {y : Position} (hy : s.pos? q = some y) (hc : y.work.current = some n) :
    Owns (fun m => m = n) g (s.modWork q fun w => { w with current := none }) := by
  refine ⟨fun m j hj hs hX => ?_, h.rasters, fun k x m j hx hm hj => ?_, h.ended⟩
  · obtain ⟨x, hx, current, content⟩ := h.live m j hj hs hX
    refine ⟨x, ?_, current, content⟩
    rw [pos?_modWork, if_neg, hx]
    rintro e
    rw [e, hy] at hx
    cases hx
    exact hX (Option.some.inj (current.symm.trans hc))
  · rw [pos?_modWork] at hx
    split at hx
    · obtain ⟨x', -, rfl⟩ := Option.map_eq_some_iff.mp hx
      cases hm
    · exact h.unflagged k x m j hx hm hj

/-- A departure. -/
theorem Owns.departCore {y : JobState} (h : Owns NoneGone g s) (b : Books [] [] [] g s)
    (hy : y = .retired ∨ y = .cancelled ∨ y = .discarded) (hj : s.job? n = some j) : Owns NoneGone (g.ended n) (departCore n y s) := by
  have idle : y ≠ .queued ∧ y ≠ .failed := by rcases hy with rfl | rfl | rfl <;> exact ⟨nofun, nofun⟩
  refine (b.departing (Q := Owns (fun m => m = n) g) (V := Owns (fun m => m = n) g) (N := Owns NoneGone (g.ended n)) hy hj
    ?_ (fun t h => h.still (.starved t)) ?_ ?_ (fun _ _ h _ => h) ?_ (fun t m h => h.still (.raised m t)) ?_).2
  · have left : Owns (fun m => m = n) g s := ⟨fun m i hi hs _ => h.live m i hi hs not_false, fun m i hi hs _ => h.rasters m i hi hs not_false,
      h.unflagged, h.ended⟩
    exact left.kept (.worked (f := fun x => { x with state := y }) rfl (fun _ => id) (fun _ => ⟨rfl, rfl, rfl, rfl, rfl⟩) fun _ => idle)
      (.of_eq rfl) (.of_eq rfl rfl) fun _ => id
  · exact fun t h => h.kept (.of_eq (RegistersOnly.released _ t).jobs fun _ => id) (.of_eq (RegistersOnly.released _ t).plan)
      (.of_slots (pages_releaseRefs _ t) (.released _ t)) fun _ => id
  · exact fun t l p _ m h => h.kept (.of_eq (RegistersOnly.lowered p t).jobs fun _ => id) (.of_eq (RegistersOnly.lowered p t).plan)
      (.lowerLive m.books.recorded p) fun _ => id
  · intro t x m h hx hc
    exact ((h.vacate hx hc).needTest (m.books.work j.key _).recorded j.key).still (.starved _)
  · intro t m h
    refine tellNaming_keeps (fun t k h => h.tellSatisfied k) _ (Owns.tellSatisfied ?_ _)
    have before {i : Nat} {x : Job} (hi : (t.dropJob n).job? i = some x) : i ≠ n ∧ t.job? i = some x := by
      rw [job?_dropJob] at hi
      split at hi
      · cases hi
      next other => exact ⟨other, hi⟩
    refine ⟨fun i x hi hs _ => ?_, fun i x hi hs _ hb => ?_, fun k x i a hx hc hi => ?_, fun i x hi hs hd => ?_⟩
    · obtain ⟨other, hi'⟩ := before hi
      exact h.live i x hi' hs other
    · obtain ⟨other, hi'⟩ := before hi
      exact h.rasters i x hi' hs other hb
    · exact h.unflagged k x i a hx hc (before hi).2
    · obtain ⟨other, hi'⟩ := before hi
      exact h.ended i x hi' hs fun d => hd ⟨d, other⟩

end Sys2Proof.Machine
end

section
/-! Every deed keeps the jobs that are not superseded the current jobs of their positions. -/

namespace Sys2Proof.Machine

open State

variable {w c : Prop} {g g' : Gaps} {s t u : State} {n m : Nat} {j : Job} {k : SlotKey} {q : PosKey} {X Y : Nat → Prop}

/-! ### The register -/

/-- A page that is written with the class that it had. -/
theorem RastersStay.putPage {r r' : PageRec} (hr : s.page? n = some r) (cls : r'.cls = r.cls) : RastersStay s (s.putPage n r') := by
  intro k o ho hc x needs
  refine ⟨?_, o, ho, hc⟩
  rw [needsPage_of_classes ?_ x]
  · exact needs
  · rw [page?_putPage]
    split
    next e => rw [e, hr, Option.bind_some, Option.bind_some, cls]
    next => rfl

/-- A separation arrives that its page lacked: the current rasters stay. -/
theorem RastersStay.arrival (r : Recorded g s) {v live : Nat} {cl : ColourClass} {x : Separation} {a : SepSet} {ref : U64}
    (found : ArrivalFinds s n v cl x a live) : RastersStay s (writeArrival n v cl a x ref live s) := by
  rw [writeArrival_eq]
  intro k o ho hc z needs
  refine ⟨?_, ?_⟩
  · rw [needsPage_of_classes ?_ z]
    · exact needs
    · show ((s.putPage n ⟨some cl, some v, a.add x, stateFor cl (a.add x), live⟩).page? k.page).bind PageRec.cls = _
      rw [page?_putPage]
      split
      next e =>
        obtain ⟨rec, hrec, -, has⟩ := r.current k o ho hc
        rw [e] at hrec ⊢
        cases found with
        | nothing none => cases none.symm.trans hrec
        | expected r0 hr hs =>
          cases hr.symm.trans hrec
          rw [(r.records n _ hr).arrived (.inr (.inl hs))] at has
          cases has
        | lacking r0 hr hs hv hcls hx => rw [hr, Option.bind_some, Option.bind_some, hcls]
      next => rfl
  · rw [slot?_putSlot]
    split
    · exact ⟨_, rfl, rfl⟩
    · exact ⟨o, ho, hc⟩

/-- Only jobs whose pages include a page refer to its slots. -/
theorem Owns.page_of_slot (h : Owns NoneGone g s) (f : Referred [] s) (hj : s.job? n = some j) (hs : j.superseded = false)
    (hk : k ∈ j.slots) : ∃ x, s.pos? j.key = some x ∧ k.page ∈ x.content.pages ∧ x.content.sep = j.sep := by
  obtain ⟨x, hx, -, pages, sep⟩ := h.live n j hj hs not_false
  refine ⟨x, hx, ?_, sep⟩
  rw [pages]
  exact List.mem_map.mpr ⟨_, (f.slots n j hj k hk).1, rfl⟩

/-- What is current of other pages stays; the positions that hold jobs on this one fall behind. -/
theorem Owns.behind (h : Owns NoneGone g s) (f : Referred [] s) {p : Nat} {M : PosKey → Prop} (jobs : t.jobs = s.jobs) (plan : t.plan = s.plan)
    (page : ∀ m, m ≠ p → (t.page? m).bind PageRec.cls = (s.page? m).bind PageRec.cls)
    (slot : ∀ k : SlotKey, k.page ≠ p → ∀ o, s.slot? k = some o → o.current = true → ∃ o', t.slot? k = some o' ∧ o'.current = true)
    (falls : ∀ q x, s.pos? q = some x → p ∈ x.content.pages → needsPage s x.content.sep p = true → M q)
    (doomed : ∀ n, g.doomed n → g'.doomed n) (gap : ∀ q, g.behind q ∨ M q → g'.behind q) : Owns NoneGone g' t := by
  have job (n : Nat) : t.job? n = s.job? n := congrArg (tget · n) jobs
  have pos (q : PosKey) : t.pos? q = s.pos? q := congrArg (tget · q) plan
  refine ⟨fun n j hj => ?_, fun n j hj hs hX hb k hk => ?_, fun q x n j hx hc hj => ?_, fun n j hj hs hd => ?_⟩
  · rw [pos]
    exact h.live n j ((job n).symm.trans hj)
  · have hj' := (job n).symm.trans hj
    obtain ⟨needs, o, ho, hc⟩ := h.rasters n j hj' hs hX (fun b => hb (gap _ (.inl b))) k hk
    have other : k.page ≠ p := by
      intro e
      obtain ⟨x, hx, mem, sep⟩ := h.page_of_slot f hj' hs hk
      rw [e] at needs mem
      exact hb (gap _ (.inr (falls _ x hx mem (sep ▸ needs))))
    exact ⟨(needsPage_of_classes (page _ other) j.sep).trans needs, slot k other o ho hc⟩
  · exact h.unflagged q x n j ((pos q).symm.trans hx) hc ((job n).symm.trans hj)
  · exact h.ended n j ((job n).symm.trans hj) hs fun d => hd (doomed n d)

/-! ### The plan -/

/-- A position without a current job is written, added or dropped. -/
theorem Owns.vacant (h : Owns X g s) (jobs : t.jobs = s.jobs) (pages : t.pages = s.pages) (slots : t.slots = s.slots)
    (others : ∀ k, k ≠ q → t.pos? k = s.pos? k) (before : ∀ x, s.pos? q = some x → x.work.current = none)
    (after : ∀ x, t.pos? q = some x → x.work.current = none) : Owns X g t := by
  have job (n : Nat) : t.job? n = s.job? n := congrArg (tget · n) jobs
  refine ⟨fun n j hj hs hX => ?_, fun n j hj hs hX hb k hk => ?_, fun k x n j hx hc hj => ?_, fun n j hj => h.ended n j ((job n).symm.trans hj)⟩
  · obtain ⟨x, hx, current, content⟩ := h.live n j ((job n).symm.trans hj) hs hX
    refine ⟨x, ?_, current, content⟩
    rw [others, hx]
    intro e
    cases (before x (e ▸ hx)).symm.trans current
  · obtain ⟨needs, o, ho, hc⟩ := h.rasters n j ((job n).symm.trans hj) hs hX hb k hk
    exact RastersStay.of_eq pages slots k o ho hc j.sep needs
  · refine h.unflagged k x n j ?_ hc ((job n).symm.trans hj)
    rw [← others, hx]
    rintro rfl
    cases (after x hx).symm.trans hc

/-- A position has no current job that its pages could have left behind. -/
theorem Owns.caught (h : Owns NoneGone g s) (free : ∀ x, s.pos? q = some x → x.work.current = none) : Owns NoneGone (g.caught q) s := by
  refine ⟨h.live, fun n j hj hs hX hb => h.rasters n j hj hs hX fun b => hb ⟨b, ?_⟩, h.unflagged, h.ended⟩
  rintro e
  obtain ⟨x, hx, current, -⟩ := h.live n j hj hs hX
  cases (free x (e ▸ hx)).symm.trans current

/-- The current job of a position is superseded. -/
theorem Owns.flags (h : Owns NoneGone g s) (p : InPlace g s) {x : Position} (hx : s.pos? q = some x) (hc : x.work.current = some n)
    (hj : s.job? n = some j) (doomed : ∀ m, g.doomed m ∨ (m = n ∧ (j.state = .queued ∨ j.state = .failed)) → g'.doomed m)
    (behind : ∀ k, g.behind k → g'.behind k) : Owns NoneGone g' (flagsAt q n j s) := by
  have own {k : PosKey} {y : Position} (hy : s.pos? k = some y) (current : y.work.current = some n) : k = j.key := by
    obtain ⟨i, hi, key⟩ := p.ok.own k n y.work.mounted (by
      show workSpots (s.pos? k) = _
      rw [hy, workSpots, Option.map_some, current])
    cases (show s.job? n = some i from hi).symm.trans hj
    exact key.symm
  have written (m : Nat) : (flagsAt q n j s).job? m = if m = n then (s.job? m).map fun x => { x with superseded := true } else s.job? m :=
    job?_modJob n (fun x => { x with superseded := true }) s m
  have position (k : PosKey) : (flagsAt q n j s).pos? k = if k = q then (s.pos? k).map fun y =>
      { y with work := { y.work with current := none, remake := y.work.remake || marksRemake j } } else s.pos? k := pos?_modWork q _ _ k
  have other {m : Nat} {i : Job} (hi : (flagsAt q n j s).job? m = some i) (hs : i.superseded = false) : m ≠ n ∧ s.job? m = some i := by
    rw [written] at hi
    split at hi
    · obtain ⟨i', -, rfl⟩ := Option.map_eq_some_iff.mp hi
      cases hs
    next out => exact ⟨out, hi⟩
  refine ⟨fun m i hi hs _ => ?_, fun m i hi hs hX hb => ?_, fun k y m i hy hm hi => ?_, fun m i hi hs hd => ?_⟩
  · obtain ⟨out, hi'⟩ := other hi hs
    obtain ⟨y, hy, current, content⟩ := h.live m i hi' hs not_false
    refine ⟨y, ?_, current, content⟩
    rw [position, if_neg, hy]
    intro e
    rw [e, hx] at hy
    cases hy
    exact out (Option.some.inj (current.symm.trans hc))
  · exact h.rasters m i (other hi hs).2 hs hX fun b => hb (behind _ b)
  · rw [position] at hy
    split at hy
    · obtain ⟨y', -, rfl⟩ := Option.map_eq_some_iff.mp hy
      cases hm
    next out =>
      rw [written] at hi
      split at hi
      next e =>
        subst e
        exact absurd ((own hy hm).trans (own hx hc).symm) out
      next => exact h.unflagged k y m i hy hm hi
  · rw [written] at hi
    split at hi
    next e =>
      subst e
      obtain ⟨i', hi', rfl⟩ := Option.map_eq_some_iff.mp hi
      cases hi'.symm.trans hj
      exact ⟨fun e => hd (doomed m (.inr ⟨rfl, .inl e⟩)), fun e => hd (doomed m (.inr ⟨rfl, .inr e⟩))⟩
    next => exact h.ended m i hi hs fun d => hd (doomed m (.inl d))

/-! ### Deeds -/

/-- Every deed keeps the jobs that are not superseded the current jobs of their positions. -/
theorem Deed.owns (d : Deed w c (g, s) (g', t)) (hw : w) (hc : c) (p : InPlace g s) (b : Books [] [] [] g s)
    (h : Owns NoneGone g s) : Owns NoneGone g' t := by
  cases d with
  | blind _ _ _ hn => exact absurd hw hn
  | still k => exact h.still k
  | assign _ _ e n j =>
    exact h.kept (.worked (n := n) (f := fun x => { x with state := .assigned, engine := some e }) rfl (fun _ => id)
      (fun _ => ⟨rfl, rfl, rfl, rfl, rfl⟩) fun _ => ⟨nofun, nofun⟩) (.of_eq rfl) (.of_eq rfl rfl) fun _ => id
  | expose _ _ e u hu =>
    rw [sendExpose, hu]
    exact h.kept (.of_modJob (n := u.job) (f := fun x => { x with applied := some (s.register e).correction }) rfl (fun _ => id)
      (fun _ => ⟨rfl, rfl, rfl, rfl, rfl⟩) fun _ _ _ _ => id) (.of_eq rfl) (.of_eq rfl rfl) fun _ => id
  | create _ _ k x hx hn hl =>
    obtain ⟨vacant, can⟩ := Bool.and_eq_true_iff.mp hn
    rw [State.satisfiable_eq_makeable] at can
    exact h.createJob b.recorded hx (Option.isNone_iff_eq_none.mp vacant) can hl
  | defer _ _ k x => exact h.defer k x
  | tell _ _ k => exact (h.tellSatisfied k).of_eq rfl rfl rfl rfl (fun _ => id) fun _ => id
  | core _ _ n j x hx hj => exact h.departCore b hx hj
  | note _ _ n f hf =>
    refine h.kept (.of_modJob (f := f) rfl (fun _ => id) (fun j => ?_) fun j _ _ _ st => ?_) (.of_eq rfl) (.of_eq rfl rfl) fun _ => id
    · rw [hf j]
      exact ⟨rfl, rfl, rfl, rfl, rfl⟩
    · rw [hf j] at st
      exact st
  | queue _ _ n a j hj ho hs =>
    have retaken := RegistersOnly.retaken j s
    have h' : Owns NoneGone g (retakeRefs j s) := h.kept (.of_eq retaken.jobs fun _ => id) (.of_eq retaken.plan)
      (.of_slots (pages_retakeRefs j s) (.retaken j s)) fun _ => id
    refine h'.kept (.of_modJob (n := n) (f := fun x =>
      { x with state := .queued, attempt := a, lane := none, applied := none, entryOrder := (retakeRefs j s).entryCount + 1 }) rfl
      (fun _ => id) (fun _ => ⟨rfl, rfl, rfl, rfl, rfl⟩) fun i hi superseded _ _ => ?_) (.of_eq rfl) (.of_eq rfl rfl) fun _ => id
    cases ((congrArg (tget · n) retaken.jobs).symm.trans hi).symm.trans hj
    exact hs.elim (fun e => by cases e.symm.trans superseded) .inr
  | fail _ _ n j hj ho hs =>
    have retaken := RegistersOnly.retaken j s
    have h' : Owns NoneGone g (retakeRefs j s) := h.kept (.of_eq retaken.jobs fun _ => id) (.of_eq retaken.plan)
      (.of_slots (pages_retakeRefs j s) (.retaken j s)) fun _ => id
    refine h'.kept (.of_modJob (n := n) (f := fun x => { x with state := .failed }) rfl (fun _ => id) (fun _ => ⟨rfl, rfl, rfl, rfl, rfl⟩)
      fun i hi superseded _ _ => ?_) (.of_eq rfl) (.of_eq rfl rfl) fun _ => id
    cases ((congrArg (tget · n) retaken.jobs).symm.trans hi).symm.trans hj
    cases hs.symm.trans superseded
  | fewer _ _ e f => exact h.of_eq rfl rfl rfl rfl (fun _ => id) fun _ => id
  | start _ _ e u =>
    exact h.kept (.worked (n := u.job) (f := fun x => { x with state := .exposing }) rfl (fun _ => id)
      (fun _ => ⟨rfl, rfl, rfl, rfl, rfl⟩) fun _ => ⟨nofun, nofun⟩) (.of_eq rfl) (.of_eq rfl rfl) fun _ => id
  | develop _ _ e u =>
    have cleared : Owns NoneGone g (s.modCtx e fun c => { c with current := none }) := h.of_eq rfl rfl rfl rfl (fun _ => id) fun _ => id
    unfold developsAt
    generalize s.modCtx e (fun c => { c with current := none }) = v at cleared
    generalize ((s.job? u.job).map Job.slots).getD [] = ks
    have released := RegistersOnly.released ks v
    have h' : Owns NoneGone g (releaseRefs ks v) := cleared.kept (.of_eq released.jobs fun _ => id) (.of_eq released.plan)
      (.of_slots (pages_releaseRefs ks v) (.released ks v)) fun _ => id
    exact h'.kept (.worked (n := u.job) (f := fun x => { x with state := .developing, lane := some (laneFed e) }) rfl (fun _ => id)
      (fun _ => ⟨rfl, rfl, rfl, rfl, rfl⟩) fun _ => ⟨nofun, nofun⟩) (.of_eq rfl) (.of_eq rfl rfl) fun _ => id
  | leave => exact h.of_eq rfl rfl rfl rfl (fun _ => id) fun _ => id
  | pass _ _ l n =>
    exact h.kept (.worked (n := n) (f := fun x => { x with state := .finishing }) rfl (fun _ => id)
      (fun _ => ⟨rfl, rfl, rfl, rfl, rfl⟩) fun _ => ⟨nofun, nofun⟩) (.of_eq rfl) (.of_eq rfl rfl) fun _ => id
  | reclaim _ _ l n j st x hj hu hl out hst =>
    unfold Machine.reclaim
    dsimp only
    generalize ((s.job? n).map Job.slots).getD [] = ks
    have released := RegistersOnly.released ks s
    have h' : Owns NoneGone g (releaseRefs ks s) := h.kept (.of_eq released.jobs fun _ => id) (.of_eq released.plan)
      (.of_slots (pages_releaseRefs ks s) (.released ks s)) fun _ => id
    refine h'.kept (.worked (n := n) (f := fun j => { j with state := st }) rfl (fun _ => id)
      (fun _ => ⟨rfl, rfl, rfl, rfl, rfl⟩) fun _ => ?_) (.of_eq rfl) (.of_eq rfl rfl) fun _ => id
    rcases hst with e | e <;> (cases e; exact ⟨nofun, nofun⟩)
  | rack _ _ d | shelve _ _ d =>
    exact h.kept (.worked (n := d.job) (f := fun x => { x with state := .racked }) rfl (fun _ => id)
      (fun _ => ⟨rfl, rfl, rfl, rfl, rfl⟩) fun _ => ⟨nofun, nofun⟩) (.of_eq rfl) (.of_eq rfl rfl) fun _ => id
  | mount _ _ k x n =>
    have same : PlanAs s ((takePlate k n s).modJob n fun j => { j with state := .mounted }) := .of_eq rfl
    exact h.kept (.worked (n := n) (f := fun x => { x with state := .mounted }) rfl (fun _ => id)
      (fun _ => ⟨rfl, rfl, rfl, rfl, rfl⟩) fun _ => ⟨nofun, nofun⟩)
      (same.trans (.modWork k (f := fun w => { w with mounted := some n }) fun _ => rfl)) (.of_eq rfl rfl) fun _ => id
  | unmount _ _ k x =>
    exact h.kept (.of_eq rfl fun _ => id) (.modWork (s := s) k (f := fun w => { w with mounted := none }) fun _ => rfl) (.of_eq rfl rfl)
      fun _ => id
  | flag _ _ k x n j hx hcur hj => exact h.flags p hx hcur hj (fun _ => id) fun _ => id
  | caught _ _ k free => exact h.caught (free hw hc)
  | arrive _ _ n v cl x a live ref hl found hm out =>
    have only := RegistersOnly.arrived n v cl a x ref live s
    exact h.kept (.of_eq only.jobs fun _ => id) (.of_eq only.plan) (.arrival b.recorded (found hc)) fun _ => id
  | renew _ _ n old v cl x r ref hr hs hv lt hm out =>
    have only := (RegistersOnly.cleared n s).trans (RegistersOnly.arrived n v cl SepSet.empty x ref r.liveJobs (clearAllCurrent n s))
    refine h.behind b.referred (p := n) (M := Names s n) only.jobs only.plan (fun m other => ?_) (fun k other o ho hcur => ?_)
      (fun q x hx mem _ => ⟨x, hx, mem⟩) (fun _ => id) fun _ => id
    · rw [writeArrival_eq]
      show (((clearAllCurrent n s).putPage n _).page? m).bind PageRec.cls = _
      rw [page?_putPage, if_neg other]
      exact congrArg (fun t => (tget t m).bind PageRec.cls) (pages_clearAllCurrent n s)
    · rw [writeArrival_eq, slot?_putSlot, if_neg fun e => other (congrArg SlotKey.page e)]
      exact ⟨o, (cleared_other b.tables.slots other).trans ho, hcur⟩
  | strip _ _ n r hr hs =>
    have only := (RegistersOnly.cleared n s).trans (RegistersOnly.put n { r with arrived := SepSet.empty } (clearAllCurrent n s))
    refine h.behind b.referred (p := n) (M := Requires s n) only.jobs only.plan (fun m other => ?_) (fun k other o ho hcur => ?_)
      (fun q x hx mem needs => ⟨x, hx, mem, needs⟩) (fun _ => id) fun _ => id
    · rw [page?_putPage, if_neg other]
      exact congrArg (fun t => (tget t m).bind PageRec.cls) (pages_clearAllCurrent n s)
    · exact ⟨o, (cleared_other b.tables.slots other).trans ho, hcur⟩
  | withdraw _ _ n r hr => exact h.kept (.of_eq rfl fun _ => id) (.of_eq rfl) (.putPage hr rfl) fun _ => id
  | remove _ _ n r hr hp =>
    have gone := removePage_gone n r s
    exact h.kept (.of_eq gone.registers.jobs fun _ => id) (.of_eq gone.registers.plan) (.gone b.recorded gone hr (.inl hp)) fun _ => id
  | expect _ _ n absent =>
    refine h.kept (.of_eq rfl fun _ => id) (.of_eq rfl) (fun k o ho hcur x needs => ⟨?_, o, ho, hcur⟩) fun _ => id
    rw [needsPage_of_classes ?_ x]
    · exact needs
    · rw [page?_putPage]
      split
      next e => rw [e, absent]; rfl
      next => rfl
  | blot _ _ k f hf => exact h.kept (.of_eq rfl fun _ => id) (.of_eq rfl) (.of_slots rfl (.modSlot k fun x => (hf x).2)) fun _ => id
  | hold _ _ k b => exact h.kept (.of_eq rfl fun _ => id) (.modPos k fun _ _ => ⟨rfl, rfl⟩) (.of_eq rfl rfl) fun _ => id
  | content _ _ k con edition free hp =>
    refine h.vacant (q := k) rfl rfl rfl (fun m other => ?_) (free hw hc) fun x hx => ?_
    · rw [pos?_modPos, if_neg other]
    · rw [pos?_modPos, if_pos rfl] at hx
      obtain ⟨y, hy, rfl⟩ := Option.map_eq_some_iff.mp hx
      exact free hw hc y hy
  | add _ _ k x absent hx =>
    refine h.vacant (q := k) rfl rfl rfl (fun m other => ?_) (fun y hy => by cases absent.symm.trans hy) fun y hy => ?_
    · rw [pos?_putPos, if_neg other]
    · rw [pos?_putPos, if_pos rfl] at hy
      cases hy
      exact hx.1
  | drop _ _ k hm free =>
    refine h.vacant (q := k) rfl rfl rfl (fun m other => ?_) (free hw hc) fun y hy => ?_
    · rw [pos?_dropPos, if_neg other]
    · rw [pos?_dropPos, if_pos rfl] at hy
      cases hy
  | recount _ _ pr =>
    have plan := PlanAs.refreshCounts pr s
    obtain ⟨v, w, x, e⟩ := refreshCounts_parts pr s
    rw [e] at plan ⊢
    exact h.kept (.of_eq rfl fun _ => id) plan (.of_eq rfl rfl) fun _ => id
  | empty e => exact h.of_eq e.jobs e.plan e.pages e.slots (fun _ => id) fun _ => id
  | lose _ _ n j =>
    exact h.kept (.worked (n := n) (f := fun x => { x with state := .uncertain, lane := laneOfExposing j }) rfl (fun _ => id)
      (fun _ => ⟨rfl, rfl, rfl, rfl, rfl⟩) fun _ => ⟨nofun, nofun⟩) (.of_eq rfl) (.of_eq rfl rfl) fun _ => id
  | strand _ _ n j =>
    have taken := RegistersOnly.taken j.slots s
    have h' : Owns NoneGone g (takeRefs j.slots s) := h.kept (.of_eq taken.jobs fun _ => id) (.of_eq taken.plan)
      (.of_slots (pages_takeRefs j.slots s) (.taken j.slots s)) fun _ => id
    exact h'.kept (.worked (n := n) (f := fun x => { x with state := .uncertain }) rfl (fun _ => id)
      (fun _ => ⟨rfl, rfl, rfl, rfl, rfl⟩) fun _ => ⟨nofun, nofun⟩) (.of_eq rfl) (.of_eq rfl rfl) fun _ => id
  | restart => exact ⟨fun _ _ e => (by cases e), fun _ _ e => (by cases e), fun _ _ _ _ _ _ e => (by cases e), fun _ _ e => by cases e⟩
  | _ => exact h.of_eq rfl rfl rfl rfl (fun _ => id) fun _ => id

end Sys2Proof.Machine
end

section
/-! What the presses have been told of their positions, and what they count, at every point of a command (R27, R140, R141). -/

namespace Sys2Proof.Machine

open State

variable {w c : Prop} {g g' : Gaps} {s t u : State} {n m : Nat} {j : Job} {q k : PosKey} {U U' : PosKey → Prop} {G : PressId → Prop}

/-! ### Satisfied positions -/

/-- A job's plate satisfies its position. -/
def fulfils (j : Job) : Bool := decide (j.state = .racked) || decide (j.state = .mounted)

/-- A position is satisfied by its current job, or needs none. -/
theorem satisfies_eq (s : State) (x : Position) : satisfies s x =
    ((x.work.current.bind s.job?).map fulfils).getD (!x.content.pages.any (needsPage s x.content.sep)) := by
  unfold satisfies
  cases x.work.current.bind s.job? <;> rfl

/-- What bears on whether a position is satisfied is the same. -/
theorem satisfies_congr {x y : Position} (content : x.content = y.content) (current : x.work.current = y.work.current)
    (job : ∀ n, y.work.current = some n → (t.job? n).map fulfils = (s.job? n).map fulfils)
    (needs : ∀ p ∈ y.content.pages, needsPage t y.content.sep p = needsPage s y.content.sep p) : satisfies t x = satisfies s y := by
  have same : (y.work.current.bind t.job?).map fulfils = (y.work.current.bind s.job?).map fulfils := by
    cases hc : y.work.current with
    | none => rfl
    | some n => exact job n hc
  have any : y.content.pages.any (needsPage t y.content.sep) = y.content.pages.any (needsPage s y.content.sep) := by
    rw [Bool.eq_iff_iff, List.any_eq_true, List.any_eq_true]
    exact exists_congr fun p => and_congr_right fun hp => by rw [needs p hp]
  rw [satisfies_eq, satisfies_eq, content, current, same, any]

/-! ### What the presses have been told -/

/-- The standing last told of each position is the one it has, but for the positions `U`. -/
def Standings (U : PosKey → Prop) (s : State) : Prop := ∀ k x, s.pos? k = some x → ¬ U k → x.work.satisfied = satisfies s x

/-- How many positions a press has. -/
def posCount (s : State) (p : PressId) : Nat := (s.plan.map fun e => (decide (e.1.press = p)).toNat).sum

/-- How many positions of a press it has been told are not satisfied. -/
def unsatCount (s : State) (p : PressId) : Nat :=
  (s.plan.map fun e => (decide (e.1.press = p) && !e.2.work.satisfied).toNat).sum

/-- The counts of a press are those of its positions by what it has been told of them, and its state is as they give, but for the
presses `G`. -/
def Tallies (G : PressId → Prop) (s : State) : Prop := ∀ p, ¬ G p → (s.press p).positions = posCount s p ∧
  (s.press p).unsatisfied = unsatCount s p ∧
    ((s.press p).state ≠ .running → (s.press p).state = countedState (s.press p).positions (s.press p).unsatisfied)

theorem length_filter_eq_sum {α : Type} (p : α → Bool) (l : List α) : (l.filter p).length = (l.map fun e => (p e).toNat).sum := by
  induction l with
  | nil => rfl
  | cons e l ih =>
    rw [List.map_cons, List.sum_cons, ← ih]
    cases h : p e
    · rw [List.filter_cons_of_neg (by simp [h])]
      exact (Nat.zero_add _).symm
    · rw [List.filter_cons_of_pos h, List.length_cons]
      exact Nat.add_comm _ 1

theorem posCount_eq (s : State) (p : PressId) : posCount s p = (s.positionsOf p).length := (length_filter_eq_sum _ _).symm

theorem unsatCount_eq (s : State) (p : PressId) : unsatCount s p = ((s.positionsOf p).filter fun e => !e.2.work.satisfied).length := by
  unfold State.positionsOf
  rw [List.filter_filter, length_filter_eq_sum]
  unfold unsatCount
  congr 1
  refine List.map_congr_left fun e _ => ?_
  rw [Bool.and_comm]

/-- Between commands the presses have been told of every position, and count them. -/
theorem pressesTell_iff (o : Tables s) : PressesTell s ↔ Standings (fun _ => False) s ∧ Tallies (fun _ => False) s := by
  have noted (told : Standings (fun _ => False) s) (p : PressId) :
      unsatCount s p = ((s.positionsOf p).filter fun e => !satisfies s e.2).length := by
    rw [unsatCount_eq]
    congr 1
    refine List.filter_congr fun e he => ?_
    have there : s.pos? e.1 = some e.2 := tget_of_mem o.plan (List.mem_filter.mp he).1
    rw [told e.1 e.2 there not_false]
  constructor
  · intro h
    have told : Standings (fun _ => False) s := fun k x hx _ => h.told k x hx
    refine ⟨told, fun p _ => ⟨(h.positions p).trans (posCount_eq s p).symm, (h.unsatisfied p).trans (noted told p).symm, h.state p⟩⟩
  · rintro ⟨told, counts⟩
    refine ⟨fun k x hx => told k x hx not_false, fun p => (counts p not_false).1.trans (posCount_eq s p),
      fun p => (counts p not_false).2.1.trans (noted told p), fun p => (counts p not_false).2.2⟩

namespace Standings

/-- What bears on the positions that are told stays. -/
theorem kept (h : Standings U s) (hU : ∀ k, ¬ U' k → ¬ U k)
    (plan : ∀ k x, t.pos? k = some x → ¬ U' k → ∃ y, s.pos? k = some y ∧ x.content = y.content ∧ x.work.current = y.work.current ∧
      x.work.satisfied = y.work.satisfied)
    (job : ∀ k y n, s.pos? k = some y → ¬ U' k → y.work.current = some n → (t.job? n).map fulfils = (s.job? n).map fulfils)
    (needs : ∀ k y, s.pos? k = some y → ¬ U' k → ∀ p ∈ y.content.pages, needsPage t y.content.sep p = needsPage s y.content.sep p) :
    Standings U' t := by
  intro k x hx out
  obtain ⟨y, hy, content, current, satisfied⟩ := plan k x hx out
  rw [satisfied, h k y hy (hU k out)]
  exact (satisfies_congr content current (fun n hn => job k y n hy out hn) (needs k y hy out)).symm

/-- Nothing that bears on it changes. -/
theorem of_eq (h : Standings U s) (hU : ∀ k, U k → U' k) (plan : t.plan = s.plan) (jobs : t.jobs = s.jobs) (pages : t.pages = s.pages) :
    Standings U' t :=
  h.kept (fun k out u => out (hU k u)) (fun k x hx _ => ⟨x, (congrArg (tget · k) plan).symm.trans hx, rfl, rfl, rfl⟩)
    (fun _ _ n _ _ _ => congrArg (fun t => (tget t n).map fulfils) jobs) fun _ _ _ _ p _ => needsPage_of_pages pages _ p

theorem still (h : Standings U s) (k : Still s t) : Standings U t := h.of_eq (fun _ => id) k.plan k.jobs k.pages

/-- A job is written whose plate satisfies its position as before. -/
theorem of_modJob (h : Standings U s) (hU : ∀ k, U k → U' k) (plan : t.plan = s.plan) (pages : t.pages = s.pages) {f : Job → Job}
    (jobs : t.jobs = (s.modJob n f).jobs)
    (same : ∀ j k x, s.job? n = some j → s.pos? k = some x → ¬ U' k → x.work.current = some n → fulfils (f j) = fulfils j) : Standings U' t := by
  refine h.kept (fun k out u => out (hU k u)) (fun k x hx _ => ⟨x, (congrArg (tget · k) plan).symm.trans hx, rfl, rfl, rfl⟩)
    (fun k x m hx out hc => ?_) fun _ _ _ _ p _ => needsPage_of_pages pages _ p
  have job : t.job? m = (s.modJob n f).job? m := congrArg (tget · m) jobs
  rw [job, job?_modJob]
  split
  next e =>
    subst e
    cases hj : s.job? m with
    | none => rfl
    | some j => exact congrArg some (same j k x hj hx out hc)
  next => rfl

/-- The register changes, but no class does of a page that a position that is told names. -/
theorem of_pages (h : Standings U s) (hU : ∀ k, U k → U' k) (plan : t.plan = s.plan) (jobs : t.jobs = s.jobs)
    (classes : ∀ k x p, s.pos? k = some x → ¬ U' k → p ∈ x.content.pages → (t.page? p).bind PageRec.cls = (s.page? p).bind PageRec.cls) :
    Standings U' t :=
  h.kept (fun k out u => out (hU k u)) (fun k x hx _ => ⟨x, (congrArg (tget · k) plan).symm.trans hx, rfl, rfl, rfl⟩)
    (fun _ _ n _ _ _ => congrArg (fun t => (tget t n).map fulfils) jobs)
    fun k x hx out p hp => needsPage_of_classes (classes k x p hx out hp) _

/-- Positions are written, but not in what bears on it. -/
theorem modPos (h : Standings U s) (k : PosKey) {f : Position → Position}
    (same : ∀ x, s.pos? k = some x → ¬ U k → (f x).content = x.content ∧ (f x).work.current = x.work.current ∧
      (f x).work.satisfied = x.work.satisfied) : Standings U (s.modPos k f) := by
  refine h.kept (fun _ => id) (fun m x hx out => ?_) (fun _ _ _ _ _ _ => rfl) fun _ _ _ _ _ _ => rfl
  rw [pos?_modPos] at hx
  split at hx
  next e =>
    subst e
    obtain ⟨y, hy, rfl⟩ := Option.map_eq_some_iff.mp hx
    exact ⟨y, hy, same y hy out⟩
  next => exact ⟨x, hx, rfl, rfl, rfl⟩

theorem modWork (h : Standings U s) (k : PosKey) {f : PosWork → PosWork}
    (same : ∀ w, (f w).current = w.current ∧ (f w).satisfied = w.satisfied) : Standings U (s.modWork k f) :=
  h.modPos k (f := fun x => { x with work := f x.work }) fun x _ _ => ⟨rfl, same x.work⟩

/-- The standing of a position is told. -/
theorem tellSatisfied (h : Standings U s) (k : PosKey) : Standings (fun q => U q ∧ q ≠ k) (tellSatisfied k s) := by
  have same (x : Position) (b : Bool) : satisfies (Machine.tellSatisfied k s) { x with work := { x.work with satisfied := b } } = satisfies s x := by
    obtain ⟨v, w, p, e⟩ := tellSatisfied_parts k s
    rw [e]
    rfl
  intro q x hx out
  rw [pos?_tellSatisfied] at hx
  split at hx
  · obtain ⟨y, hy, rfl⟩ := Option.map_eq_some_iff.mp hx
    exact (State.satisfied_eq_satisfies s y).trans (same y (s.satisfied y)).symm
  next other => exact (h q x hx fun u => out ⟨u, other⟩).trans (same x x.work.satisfied).symm

end Standings

end Sys2Proof.Machine
end

section
/-! What keeps the counts of the presses, and what a departure tells them (R50, R140, R141). -/

namespace Sys2Proof.Machine

open State

variable {w c : Prop} {g g' : Gaps} {s t u : State} {n m : Nat} {j : Job} {q k : PosKey} {U U' : PosKey → Prop} {G G' : PressId → Prop}
  {p : PressId}

/-! ### Counts of positions -/

theorem posCount_of_plan (h : t.plan = s.plan) (p : PressId) : posCount t p = posCount s p := by unfold posCount; rw [h]

theorem unsatCount_of_plan (h : t.plan = s.plan) (p : PressId) : unsatCount t p = unsatCount s p := by unfold unsatCount; rw [h]

theorem posCount_modPos (o : Tables s) (k : PosKey) (f : Position → Position) (p : PressId) : posCount (s.modPos k f) p = posCount s p :=
  sum_tmod_same (fun e : PosKey × Position => (decide (e.1.press = p)).toNat) (k := k) (g := f) (fun _ _ => rfl) o.plan

theorem unsatCount_modPos (o : Tables s) (k : PosKey) {f : Position → Position}
    (h : ∀ x, s.pos? k = some x → k.press = p → (f x).work.satisfied = x.work.satisfied) : unsatCount (s.modPos k f) p = unsatCount s p := by
  refine sum_tmod_same (fun e : PosKey × Position => (decide (e.1.press = p) && !e.2.work.satisfied).toNat) (fun x hx => ?_) o.plan
  by_cases e : k.press = p
  · rw [h x hx e]
  · simp [e]

/-! ### The standings of a press, told afresh -/

/-- The positions of a press have been told again. -/
structure Refreshed (r : PressId) (s u : State) : Prop where
  jobs : u.jobs = s.jobs
  pages : u.pages = s.pages
  presses : u.presses = s.presses
  tables : Tables u
  told : ∀ k x, u.pos? k = some x → k.press = r → x.work.satisfied = satisfies u x
  same : ∀ k, k.press ≠ r → u.pos? k = s.pos? k
  positions : ∀ p, posCount u p = posCount s p
  others : ∀ p, p ≠ r → unsatCount u p = unsatCount s p

/-- Whether a position is satisfied lies with the jobs and the pages. -/
theorem satisfies_of_eq (jobs : t.jobs = s.jobs) (pages : t.pages = s.pages) (x : Position) : satisfies t x = satisfies s x :=
  satisfies_congr rfl rfl (fun n _ => congrArg (fun t => (tget t n).map fulfils) jobs) fun p _ => needsPage_of_pages pages _ p

theorem refreshed_standing (o : Tables s) (r : PressId) : Refreshed r s (refreshStanding r s) := by
  have fold (l : List (PosKey × Position)) (u : State) (jobs : u.jobs = s.jobs) (pages : u.pages = s.pages) (presses : u.presses = s.presses)
      (ou : Tables u) (hl : ∀ e ∈ l, e.1.press = r ∧ s.pos? e.1 = some e.2) (same : ∀ k, k.press ≠ r → u.pos? k = s.pos? k)
      (told : ∀ k x, u.pos? k = some x → k.press = r → k ∉ l.map Prod.fst → x.work.satisfied = satisfies s x)
      (content : ∀ k x, u.pos? k = some x → ∃ y, s.pos? k = some y ∧ satisfies s x = satisfies s y)
      (positions : ∀ p, posCount u p = posCount s p) (others : ∀ p, p ≠ r → unsatCount u p = unsatCount s p) :
      Refreshed r s (l.foldl (fun s e => s.modWork e.1 fun w => { w with satisfied := s.satisfied e.2 }) u) := by
    induction l generalizing u with
    | nil =>
      rw [List.foldl_nil]
      refine ⟨jobs, pages, presses, ou, fun k x hx hk => ?_, same, positions, others⟩
      rw [satisfies_of_eq jobs pages]
      exact told k x hx hk (by simp)
    | cons e l ih =>
      obtain ⟨press, there⟩ := hl e (by simp)
      have now : u.satisfied e.2 = satisfies s e.2 := (State.satisfied_eq_satisfies u e.2).trans (satisfies_of_eq jobs pages e.2)
      rw [List.foldl_cons, now]
      refine ih (u.modWork e.1 fun w => { w with satisfied := satisfies s e.2 }) jobs pages presses (ou.modWork _ _)
        (fun e he => hl e (by simp [he])) (fun k hk => ?_) (fun k x hx hk out => ?_) (fun k x hx => ?_)
        (fun p => (posCount_modPos ou e.1 _ p).trans (positions p)) fun p hp => ?_
      · rw [pos?_modWork, if_neg, same k hk]
        rintro rfl
        exact hk press
      · rw [pos?_modWork] at hx
        split at hx
        next here =>
          obtain ⟨y, hy, rfl⟩ := Option.map_eq_some_iff.mp hx
          obtain ⟨z, hz, as⟩ := content k y hy
          rw [here] at hz
          cases there.symm.trans hz
          exact as.symm
        next other =>
          refine told k x hx hk ?_
          rw [List.map_cons, List.mem_cons, not_or]
          exact ⟨other, out⟩
      · rw [pos?_modWork] at hx
        split at hx
        · obtain ⟨y, hy, rfl⟩ := Option.map_eq_some_iff.mp hx
          exact content k y hy
        · exact content k x hx
      · refine (unsatCount_modPos ou e.1 (f := fun y => { y with work := { y.work with satisfied := satisfies s e.2 } }) ?_).trans (others p hp)
        intro _ _ here
        exact absurd (here.symm.trans press) hp
  unfold refreshStanding
  refine fold (s.positionsOf r) s rfl rfl rfl o (fun e he => ?_) (fun _ _ => rfl) (fun k x hx hk out => ?_) (fun k x hx => ⟨x, hx, rfl⟩)
    (fun _ => rfl) fun _ _ => rfl
  · obtain ⟨mem, hp⟩ := List.mem_filter.mp he
    exact ⟨of_decide_eq_true hp, tget_of_mem o.plan mem⟩
  · refine absurd (List.mem_map.mpr ⟨(k, x), List.mem_filter.mpr ⟨mem_of_tget hx, ?_⟩, rfl⟩) out
    exact decide_eq_true hk

namespace Tallies

/-- The counts and the positions stay. -/
theorem kept (h : Tallies G s) (hG : ∀ p, G p → G' p)
    (press : ∀ p, ¬ G' p → (t.press p).state = (s.press p).state ∧ (t.press p).positions = (s.press p).positions ∧
      (t.press p).unsatisfied = (s.press p).unsatisfied)
    (positions : ∀ p, ¬ G' p → posCount t p = posCount s p) (unsatisfied : ∀ p, ¬ G' p → unsatCount t p = unsatCount s p) : Tallies G' t := by
  intro p out
  obtain ⟨all, un, st⟩ := h p fun g => out (hG p g)
  obtain ⟨state, pos, unsat⟩ := press p out
  rw [state, pos, unsat, positions p out, unsatisfied p out]
  exact ⟨all, un, st⟩

theorem of_eq (h : Tallies G s) (hG : ∀ p, G p → G' p) (plan : t.plan = s.plan) (presses : t.presses = s.presses) : Tallies G' t := by
  refine h.kept hG (fun p _ => ?_) (fun p _ => posCount_of_plan plan p) fun p _ => unsatCount_of_plan plan p
  have same : t.press p = s.press p := by unfold State.press; rw [presses]
  rw [same]
  exact ⟨rfl, rfl, rfl⟩

theorem still (h : Tallies G s) (k : Still s t) : Tallies G t :=
  h.kept (fun _ => id) (fun p _ => k.counts p) (fun p _ => posCount_of_plan k.plan p) fun p _ => unsatCount_of_plan k.plan p

theorem registers (h : Tallies G s) (k : RegistersOnly s t) : Tallies G t := h.of_eq (fun _ => id) k.plan k.presses

theorem modPos (h : Tallies G s) (o : Tables s) (k : PosKey) {f : Position → Position} (same : ∀ x, (f x).work.satisfied = x.work.satisfied) :
    Tallies G (s.modPos k f) :=
  h.kept (fun _ => id) (fun _ _ => ⟨rfl, rfl, rfl⟩) (fun p _ => posCount_modPos o k f p) fun _ _ => unsatCount_modPos o k fun x _ _ => same x

theorem modWork (h : Tallies G s) (o : Tables s) (k : PosKey) {f : PosWork → PosWork} (same : ∀ w, (f w).satisfied = w.satisfied) :
    Tallies G (s.modWork k f) :=
  h.modPos o k (f := fun x => { x with work := f x.work }) fun x => same x.work

/-- A press is evaluated whose counts are right. -/
theorem evaluated {r : PressId} (others : ∀ p, p ≠ r → ¬ G p → (s.press p).positions = posCount s p ∧
      (s.press p).unsatisfied = unsatCount s p ∧
        ((s.press p).state ≠ .running → (s.press p).state = countedState (s.press p).positions (s.press p).unsatisfied))
    (here : ¬ G r → (s.press r).positions = posCount s r ∧ (s.press r).unsatisfied = unsatCount s r) : Tallies G (evalPress r s) := by
  have plan : (evalPress r s).plan = s.plan := by
    rw [evalPress_eq, (Still.raisedAll _ _).plan]
    rfl
  intro p out
  rw [posCount_of_plan plan, unsatCount_of_plan plan, press_evalPress]
  by_cases e : p = r
  · subst e
    obtain ⟨all, un⟩ := here out
    split
    · exact ⟨all, un, fun _ => rfl⟩
    next running => exact ⟨all, un, fun st => absurd ⟨rfl, st⟩ running⟩
  · rw [if_neg fun h => e h.1]
    exact others p e out

/-- The standing of a position is told. -/
theorem tellSatisfied (h : Tallies G s) (o : Tables s) (k : PosKey) : Tallies G (tellSatisfied k s) := by
  cases hx : s.pos? k with
  | none =>
    rw [tellSatisfied_none hx]
    exact h
  | some x =>
    by_cases same : x.work.satisfied = s.satisfied x
    · rw [tellSatisfied_same hx same]
      exact h
    rw [tellSatisfied_differs hx same]
    generalize s.satisfied x = now at same ⊢
    have positions (p : PressId) : posCount (toldOf k now s) p = posCount s p :=
      posCount_modPos o k (fun y => { y with work := { y.work with satisfied := now } }) p
    have change (p : PressId) : unsatCount (toldOf k now s) p + (decide (k.press = p) && !x.work.satisfied).toNat =
        unsatCount s p + (decide (k.press = p) && !now).toNat :=
      sum_tmod (fun e : PosKey × Position => (decide (e.1.press = p) && !e.2.work.satisfied).toNat)
        (g := fun y => { y with work := { y.work with satisfied := now } }) o.plan hx
    have press (p : PressId) : (toldOf k now s).press p =
        if p = k.press then { s.press p with unsatisfied := countTold now (s.press k.press).unsatisfied } else s.press p :=
      press_setUnsatisfied k.press _ _ p
    refine evaluated (fun p other out => ?_) fun out => ?_
    · have change := change p
      rw [decide_eq_false (Ne.symm other), Bool.false_and, Bool.false_and] at change
      rw [press, if_neg other, positions]
      obtain ⟨all, un, st⟩ := h p out
      exact ⟨all, un.trans (Nat.add_right_cancel change).symm, st⟩
    · have change := change k.press
      rw [decide_eq_true rfl, Bool.true_and, Bool.true_and] at change
      rw [press, if_pos rfl, positions]
      obtain ⟨all, un, -⟩ := h k.press out
      refine ⟨all, ?_⟩
      have before : x.work.satisfied = !now := Bool.eq_not.mpr same
      rw [before, Bool.not_not] at change
      show countTold now (s.press k.press).unsatisfied = _
      rw [un]
      cases now with
      | true =>
        have fewer : unsatCount (toldOf k true s) k.press + 1 = unsatCount s k.press := change
        show unsatCount s k.press - 1 = _
        omega
      | false => exact change.symm

/-- A press takes a state that its counts give, or runs. -/
theorem pressState (h : Tallies G s) {r : PressId} {st : PressState}
    (hs : st = .running ∨ st = stateOfCounts (s.press r).positions (s.press r).unsatisfied) : Tallies G (s.setPressState r st) := by
  intro p out
  have positions : posCount (s.setPressState r st) p = posCount s p := posCount_of_plan rfl p
  have unsatisfied : unsatCount (s.setPressState r st) p = unsatCount s p := unsatCount_of_plan rfl p
  obtain ⟨all, un, state⟩ := h p out
  rw [positions, unsatisfied, press_setPressState]
  split
  next e =>
    subst e
    refine ⟨all, un, fun idle => ?_⟩
    exact hs.resolve_left idle
  next => exact ⟨all, un, state⟩

/-- The counts of a press are taken afresh. -/
theorem refreshCounts (h : Tallies G s) (o : Tables s) (r : PressId) : Tallies (fun p => G p ∧ p ≠ r) (refreshCounts r s) := by
  have standing := refreshed_standing o r
  unfold Machine.refreshCounts
  dsimp only
  generalize refreshStanding r s = u at standing
  have press (p : PressId) (f : Press → Press) : (u.modPress r f).press p = if p = r then f (s.press p) else s.press p := by
    rw [press_modPress]
    unfold State.press
    rw [standing.presses]
  refine evaluated (fun p other out => ?_) fun _ => ?_
  · obtain ⟨all, un, st⟩ := h p fun g => out ⟨g, other⟩
    rw [press, if_neg other]
    refine ⟨all.trans ?_, un.trans ?_, st⟩
    · exact (standing.positions p).symm
    · exact (standing.others p other).symm
  · rw [press, if_pos rfl]
    refine ⟨(posCount_eq u r).symm, ?_⟩
    show (List.filter _ _).length = unsatCount u r
    rw [unsatCount_eq]
    congr 1
    refine List.filter_congr fun e he => ?_
    obtain ⟨mem, hp⟩ := List.mem_filter.mp he
    have there : u.pos? e.1 = some e.2 := tget_of_mem standing.tables.plan mem
    rw [State.satisfied_eq_satisfies, standing.told e.1 e.2 there (of_decide_eq_true hp)]

/-- A job is created. -/
theorem createJob (h : Tallies G s) (o : Tables s) (k : PosKey) (x : Position) : Tallies G (createJob k x s) := by
  obtain ⟨v, w, e⟩ := createJob_eq k x s
  rw [e]
  refine Tallies.registers ?_ (.raised _ _)
  have added : Tallies G ({ s.bumpEntry.addJob (nextNumber s) (newJob s k x) with slots := v, pages := w } : State) := h.of_eq (fun _ => id) rfl rfl
  refine added.kept (fun _ => id) (fun _ _ => ⟨rfl, rfl, rfl⟩) (fun p _ => ?_) fun p _ => ?_
  · exact posCount_modPos (s := s) o k (fun y => { y with work := { y.work with current := some (nextNumber s), deferred := false, remake := false } }) p
  · exact unsatCount_modPos (s := s) o k
      (f := fun y => { y with work := { y.work with current := some (nextNumber s), deferred := false, remake := false } }) fun _ _ _ => rfl

theorem needTest (h : Tallies G s) (o : Tables s) (k : PosKey) : Tallies G (needTest k s) :=
  needTest_keeps k h (fun x _ _ _ => h.createJob o k x) (fun _ => h.modWork o k fun _ => rfl) fun t n h => h.still (.raised n t)

end Tallies

end Sys2Proof.Machine
end

section
/-! Every deed keeps the presses told of their positions, but for what it leaves open. -/

namespace Sys2Proof.Machine

open State

variable {w c : Prop} {g g' : Gaps} {s t u : State} {n m : Nat} {j : Job} {q k : PosKey} {U U' : PosKey → Prop} {G G' : PressId → Prop}
  {p : PressId}

/-- The current job of a position is a job of it. -/
def OwnedJobs (s : State) : Prop := ∀ k x m, s.pos? k = some x → x.work.current = some m → ∃ i, s.job? m = some i ∧ i.key = k

theorem InPlace.ownedJobs (h : InPlace g s) : OwnedJobs s := by
  intro k x m hx hm
  exact h.ok.own k m x.work.mounted (by
    show workSpots (s.pos? k) = _
    rw [hx, workSpots, Option.map_some, hm])

/-! ### Jobs that are created -/

/-- A job is created for a position that is not satisfied, and does not satisfy it yet. -/
theorem Standings.createJob (h : Standings U s) (owned : OwnedJobs s) {y : Position} (hy : s.pos? q = some y) (vacant : y.work.current = none)
    (can : makeable s y.content = true) (room : s.jobs.length < 768) : Standings U (createJob q y s) := by
  have free := nextNumber_fresh s room
  intro k x hx out
  rw [pos?_createJob] at hx
  split at hx
  next e =>
    subst e
    obtain ⟨y', hy', rfl⟩ := Option.map_eq_some_iff.mp hx
    cases hy.symm.trans hy'
    have before : satisfies s y = false := by
      rw [satisfies_eq, vacant]
      exact congrArg (!·) (Bool.and_eq_true_iff.mp can).1
    have after : (Machine.createJob k y s).job? (nextNumber s) = some (newJob s k y) := by rw [job?_createJob, if_pos rfl]
    refine (h k y hy out).trans (before.trans (Eq.symm ?_))
    rw [satisfies_eq]
    show ((((Machine.createJob k y s).job? (nextNumber s))).map fulfils).getD _ = false
    rw [after]
    rfl
  next other =>
    refine (h k x hx out).trans (satisfies_congr rfl rfl (fun m hm => ?_) fun a _ => ?_).symm
    · obtain ⟨i, hi, -⟩ := owned k x m hx hm
      rw [job?_createJob, if_neg]
      rintro rfl
      cases free.symm.trans hi
    · refine needsPage_of_classes ?_ _
      rw [page?_createJob]
      cases s.page? a <;> rfl

theorem OwnedJobs.createJob (h : OwnedJobs s) (y : Position) (room : s.jobs.length < 768) : OwnedJobs (createJob q y s) := by
  have free := nextNumber_fresh s room
  intro k x m hx hm
  rw [pos?_createJob] at hx
  rw [job?_createJob]
  split at hx
  next e =>
    subst e
    obtain ⟨y', -, rfl⟩ := Option.map_eq_some_iff.mp hx
    cases hm
    exact ⟨newJob s k y, if_pos rfl, rfl⟩
  next =>
    obtain ⟨i, hi, key⟩ := h k x m hx hm
    refine ⟨i, ?_, key⟩
    rw [if_neg, hi]
    rintro rfl
    cases free.symm.trans hi

/-- The positions' current jobs are as they were, or none. -/
theorem OwnedJobs.kept (h : OwnedJobs s) (plan : ∀ k x m, t.pos? k = some x → x.work.current = some m → ∃ y, s.pos? k = some y ∧ y.work.current = some m)
    (job : ∀ m i, s.job? m = some i → ∃ i', t.job? m = some i' ∧ i'.key = i.key) : OwnedJobs t := by
  intro k x m hx hm
  obtain ⟨y, hy, hm'⟩ := plan k x m hx hm
  obtain ⟨i, hi, key⟩ := h k y m hy hm'
  obtain ⟨i', hi', key'⟩ := job m i hi
  exact ⟨i', hi', key'.trans key⟩

theorem OwnedJobs.of_eq (h : OwnedJobs s) (plan : t.plan = s.plan) (jobs : t.jobs = s.jobs) : OwnedJobs t :=
  h.kept (fun k x _ hx hm => ⟨x, (congrArg (tget · k) plan).symm.trans hx, hm⟩)
    fun m i hi => ⟨i, (congrArg (tget · m) jobs).trans hi, rfl⟩

theorem OwnedJobs.modWork (h : OwnedJobs s) (k : PosKey) {f : PosWork → PosWork} (hf : ∀ w m, (f w).current = some m → w.current = some m) :
    OwnedJobs (s.modWork k f) := by
  refine h.kept (fun q x m hx hm => ?_) fun _ i hi => ⟨i, hi, rfl⟩
  rw [pos?_modWork] at hx
  split at hx
  · obtain ⟨y, hy, rfl⟩ := Option.map_eq_some_iff.mp hx
    exact ⟨y, hy, hf y.work m hm⟩
  · exact ⟨x, hx, hm⟩

/-! ### Departures -/

/-- What a departure keeps of the standings and the counts, until it has told of what it changed. -/
structure Parting (U : PosKey → Prop) (G : PressId → Prop) (s t : State) : Prop where
  standings : Standings U t
  tallies : Tallies G t
  owned : OwnedJobs t
  contents : ∀ k x, t.pos? k = some x → ∃ y, s.pos? k = some y ∧ x.content = y.content

namespace Parting

theorem still (h : Parting U G s t) (k : Still t u) : Parting U G s u :=
  ⟨h.standings.still k, h.tallies.still k, h.owned.of_eq k.plan k.jobs, fun q x hx => h.contents q x ((congrArg (tget · q) k.plan).symm.trans hx)⟩

/-- Slots change, and pages that the positions that are told do not name. -/
theorem registers (h : Parting U G s t) (k : RegistersOnly t u)
    (classes : ∀ q x a, t.pos? q = some x → ¬ U q → a ∈ x.content.pages → (u.page? a).bind PageRec.cls = (t.page? a).bind PageRec.cls) :
    Parting U G s u :=
  ⟨h.standings.of_pages (fun _ => id) k.plan k.jobs classes, h.tallies.registers k, h.owned.of_eq k.plan k.jobs,
    fun q x hx => h.contents q x ((congrArg (tget · q) k.plan).symm.trans hx)⟩

/-- A position that is to be told lets its job go. -/
theorem vacate (h : Parting U G s t) (o : Tables t) (hq : U q) : Parting U G s (t.modWork q fun w => { w with current := none }) := by
  refine ⟨h.standings.modPos q (f := fun x => { x with work := { x.work with current := none } }) fun _ _ out => absurd hq out,
    h.tallies.modWork o q fun _ => rfl, h.owned.modWork q fun _ _ e => (by cases e), fun k x hx => ?_⟩
  rw [pos?_modWork] at hx
  split at hx
  · obtain ⟨y, hy, rfl⟩ := Option.map_eq_some_iff.mp hx
    exact h.contents k y hy
  · exact h.contents k x hx

theorem needTest (h : Parting U G s t) (o : Tables t) (q : PosKey) : Parting U G s (needTest q t) := by
  have work (f : PosWork → PosWork) (v : State) (hv : Parting U G s v) (k : PosKey) (x : Position) (hx : (v.modWork q f).pos? k = some x) :
      ∃ y, s.pos? k = some y ∧ x.content = y.content := by
    rw [pos?_modWork] at hx
    split at hx
    · obtain ⟨y, hy, rfl⟩ := Option.map_eq_some_iff.mp hx
      exact hv.contents k y hy
    · exact hv.contents k x hx
  refine needTest_keeps q h (fun y hy hn room => ?_) (fun b => ?_) fun t n h => h.still (.raised n t)
  · obtain ⟨vacant, can⟩ := Bool.and_eq_true_iff.mp hn
    rw [State.satisfiable_eq_makeable] at can
    refine ⟨h.standings.createJob h.owned hy (Option.isNone_iff_eq_none.mp vacant) can room, h.tallies.createJob o q y,
      h.owned.createJob y room, fun k x hx => ?_⟩
    rw [pos?_createJob] at hx
    split at hx
    · obtain ⟨z, hz, rfl⟩ := Option.map_eq_some_iff.mp hx
      exact h.contents k z hz
    · exact h.contents k x hx
  · exact ⟨h.standings.modWork q fun _ => ⟨rfl, rfl⟩, h.tallies.modWork o q fun _ => rfl, h.owned.modWork q fun _ _ => id, work _ t h⟩

end Parting

/-- The standings of positions are told. -/
theorem Standings.tellAll (h : Standings U s) (ks : List PosKey) : Standings (fun q => U q ∧ q ∉ ks) (tellAll ks s) := by
  unfold Machine.tellAll
  induction ks generalizing s U with
  | nil =>
    intro k x hx out
    exact h k x hx fun u => out ⟨u, List.not_mem_nil⟩
  | cons a ks ih =>
    intro k x hx out
    exact ih (h.tellSatisfied a) k x hx fun u => out ⟨u.1.1, fun mem => (List.mem_cons.mp mem).elim u.1.2 u.2⟩

theorem plan_tellAll_contents (ks : List PosKey) (s : State) (k : PosKey) :
    ((tellAll ks s).pos? k).map Position.content = (s.pos? k).map Position.content := by
  unfold tellAll
  induction ks generalizing s with
  | nil => rfl
  | cons a ks ih =>
    rw [List.foldl_cons, ih, pos?_tellSatisfied]
    split
    · rw [Option.map_map]
      rfl
    · rfl

/-- The standings of the positions that name pages are told. -/
theorem Standings.tellNaming (h : Standings U s) (ps : List Nat) :
    Standings (fun q => U q ∧ ∀ x, s.pos? q = some x → ∀ a ∈ ps, a ∉ x.content.pages) (tellNaming ps s) := by
  unfold Machine.tellNaming
  induction ps generalizing s U with
  | nil =>
    intro k x hx out
    exact h k x hx fun u => out ⟨u, fun _ _ _ hn => absurd hn List.not_mem_nil⟩
  | cons a ps ih =>
    intro k x hx out
    refine ih (h.tellAll (s.positionsNaming a)) k x hx fun left => out ⟨left.1.1, fun y hy b hb named => ?_⟩
    obtain rfl | hb := List.mem_cons.mp hb
    · exact left.1.2 (mem_positionsNaming hy named)
    · have same := plan_tellAll_contents (s.positionsNaming a) s k
      rw [hy] at same
      obtain ⟨y', hy', content⟩ := Option.map_eq_some_iff.mp same
      exact left.2 y' hy' b hb (content ▸ named)

theorem contents_tellNaming (ps : List Nat) (s : State) (k : PosKey) :
    ((tellNaming ps s).pos? k).map Position.content = (s.pos? k).map Position.content := by
  unfold tellNaming
  induction ps generalizing s with
  | nil => rfl
  | cons a ps ih => exact (ih _).trans (plan_tellAll_contents _ s k)

/-- A job that no position holds. -/
def Unheld (n : Nat) (s : State) : Prop := ∀ k x, s.pos? k = some x → x.work.current ≠ some n

theorem Unheld.of_plan (h : Unheld n s) (plan : t.plan = s.plan) : Unheld n t :=
  fun k x hx => h k x ((congrArg (tget · k) plan).symm.trans hx)

theorem Unheld.needTest (h : Unheld n s) (hj : s.job? n ≠ none) (q : PosKey) : Unheld n (needTest q s) := by
  refine needTest_keeps q h (fun y _ _ room k x hx => ?_) (fun b k x hx => ?_) fun t m h => h.of_plan (Still.raised m t).plan
  · rw [pos?_createJob] at hx
    split at hx
    · obtain ⟨z, -, rfl⟩ := Option.map_eq_some_iff.mp hx
      intro e
      rw [← Option.some.inj e] at hj
      exact hj (nextNumber_fresh s room)
    · exact h k x hx
  · rw [pos?_modWork] at hx
    split at hx
    · obtain ⟨z, hz, rfl⟩ := Option.map_eq_some_iff.mp hx
      exact h k z hz
    · exact h k x hx

/-- A job of a position. -/
def IsOf (n : Nat) (k : PosKey) (s : State) : Prop := ∃ i, s.job? n = some i ∧ i.key = k

theorem IsOf.of_jobs (h : IsOf n k s) (jobs : t.jobs = s.jobs) : IsOf n k t := by
  obtain ⟨i, hi, key⟩ := h
  exact ⟨i, (congrArg (tget · n) jobs).trans hi, key⟩

/-- A position that holds a job is the job's own. -/
theorem OwnedJobs.own (h : OwnedJobs s) (i : IsOf n k s) {x : Position} (hx : s.pos? q = some x) (hc : x.work.current = some n) : q = k := by
  obtain ⟨a, ha, key⟩ := h q x n hx hc
  obtain ⟨b, hb, key'⟩ := i
  cases ha.symm.trans hb
  exact key.symm.trans key'

/-- The positions whose standing the departure of a job can change: its own, and those that name one of its pages. -/
def Changed (U : PosKey → Prop) (j : Job) (s : State) (k : PosKey) : Prop :=
  U k ∨ k = j.key ∨ ∃ x, s.pos? k = some x ∧ ∃ a ∈ j.pages.map Prod.fst, a ∈ x.content.pages

/-- A departure tells of all that it changes. -/
theorem Parting.departCore {y : JobState} (h : Parting U G s s) (b : Books [] [] [] g s)
    (hy : y = .retired ∨ y = .cancelled ∨ y = .discarded) (hj : s.job? n = some j) :
    Standings U (departCore n y s) ∧ Tallies G (departCore n y s) := by
  refine (b.departing (Q := fun t => Parting (Changed U j s) G s t ∧ IsOf n j.key t) (V := fun t => Parting (Changed U j s) G s t ∧ Unheld n t)
    (N := fun t => Standings U t ∧ Tallies G t) hy hj ?_ (fun t h => ⟨h.1.still (.starved t), h.2.of_jobs (Still.starved t).jobs⟩)
    (fun t h => ⟨h.1.registers (.released _ t) fun _ _ a _ _ _ => congrArg (fun t => (tget t a).bind PageRec.cls) (pages_releaseRefs _ t),
      h.2.of_jobs (RegistersOnly.released _ t).jobs⟩)
    ?_ ?_ ?_ (fun t m h => ⟨h.1.still (.raised m t), h.2.of_plan (Still.raised m t).plan⟩) ?_).2
  · refine ⟨⟨h.standings.of_modJob (fun _ => .inl) rfl rfl (f := fun x => { x with state := y }) rfl fun i k x hi hx out hc => ?_,
      h.tallies.of_eq (fun _ => id) rfl rfl, ?_, h.contents⟩, { j with state := y }, ?_, rfl⟩
    · exact absurd (.inr (.inl (h.owned.own ⟨j, hj, rfl⟩ hx hc))) out
    · refine h.owned.kept (fun k x m hx hm => ⟨x, hx, hm⟩) fun m i hi => ?_
      rw [job?_modJob]
      split
      · exact ⟨{ i with state := y }, by rw [hi]; rfl, rfl⟩
      · exact ⟨i, hi, rfl⟩
    · rw [job?_modJob, if_pos rfl, hj, Option.map_some]
  · intro t l p hp m h
    refine ⟨h.1.registers (.lowered p t) fun q x a hx out ha => ?_, h.2.of_jobs (RegistersOnly.lowered p t).jobs⟩
    have other : a ≠ p := by
      rintro rfl
      obtain ⟨z, hz, content⟩ := h.1.contents q x hx
      exact out (.inr (.inr ⟨z, hz, a, hp, content ▸ ha⟩))
    obtain lowered | ⟨gone, -⟩ := lowerLive_cases p t
    · rw [lowered.page]
      cases t.page? a <;> rfl
    · rw [gone.page, if_neg other]
  · intro t m h away
    refine ⟨h.1, fun k x hx hc => ?_⟩
    have own := h.1.owned.own h.2 hx hc
    exact away x (own ▸ hx) hc
  · intro t x m h hx hc
    have o := m.books.tables
    have vacated := h.1.vacate o (q := j.key) (.inr (.inl rfl))
    have unheld : Unheld n (t.modWork j.key fun w => { w with current := none }) := by
      intro k z hz hn
      rw [pos?_modWork] at hz
      split at hz
      · obtain ⟨z', -, rfl⟩ := Option.map_eq_some_iff.mp hz
        cases hn
      next other => exact other (h.1.owned.own h.2 hz hn)
    have there : (t.modWork j.key fun w => { w with current := none }).job? n ≠ none := by
      obtain ⟨i, hi, -⟩ := h.2
      have live : (t.modWork j.key fun w => { w with current := none }).job? n = some i := hi
      rw [live]
      exact nofun
    exact ⟨(vacated.needTest (o.modWork _ _) j.key).still (.starved _), (unheld.needTest there j.key).of_plan (Still.starved _).plan⟩
  · intro t m h
    obtain ⟨h, away⟩ := h
    have dropped : Standings (Changed U j s) (t.dropJob n) := by
      refine h.standings.kept (fun _ => id) (fun k x hx _ => ⟨x, hx, rfl, rfl, rfl⟩) (fun k x i hx _ hi => ?_) fun _ _ _ _ _ _ => rfl
      rw [job?_dropJob, if_neg]
      rintro rfl
      exact away k x hx hi
    have told := (dropped.tellSatisfied j.key).tellNaming (j.pages.map Prod.fst)
    refine ⟨fun k x hx out => told k x hx fun left => ?_, ?_⟩
    · obtain ⟨⟨changed, other⟩, unnamed⟩ := left
      obtain u | own | ⟨z, hz, a, ha, named⟩ := changed
      · exact out u
      · exact other own
      · have same := contents_tellNaming (j.pages.map Prod.fst) (Machine.tellSatisfied j.key (t.dropJob n)) k
        rw [hx] at same
        obtain ⟨x1, hx1, -⟩ := Option.map_eq_some_iff.mp same.symm
        have before := hx1
        rw [pos?_tellSatisfied, if_neg other] at before
        obtain ⟨z', hz', content⟩ := h.contents k x1 before
        cases hz.symm.trans hz'
        exact unnamed x1 hx1 a ha (content ▸ named)
    · have tallies : Tallies G (t.dropJob n) := h.tallies.of_eq (fun _ => id) rfl rfl
      have o : Tables (t.dropJob n) := m.drop.tables
      exact (tellNaming_keeps (N := fun v => Tables v ∧ Tallies G v)
        (fun v k h => ⟨h.1.reacts (tellSatisfied_reacts k v), h.2.tellSatisfied h.1 k⟩) _
          ⟨o.reacts (tellSatisfied_reacts j.key _), tallies.tellSatisfied o j.key⟩).2

end Sys2Proof.Machine
end

section
/-! Every step keeps the counts in agreement with the job table, and the presses told of their positions. -/

namespace Sys2Proof.Machine

open State

variable {w c : Prop} {g g' : Gaps} {s t u : State} {n m : Nat} {j : Job} {q k : PosKey}

/-- The presses have been told of their positions, but for what stands open, and count them. -/
structure Presses (g : Gaps) (s : State) : Prop where
  told : Standings (fun k => g.untold k ∨ g.press k.press) s
  counts : Tallies g.press s

namespace Presses

theorem of_eq (h : Presses g s) (untold : ∀ k, g.untold k → g'.untold k) (press : ∀ p, g.press p → g'.press p) (plan : t.plan = s.plan)
    (jobs : t.jobs = s.jobs) (pages : t.pages = s.pages) (presses : t.presses = s.presses) : Presses g' t :=
  ⟨h.told.of_eq (fun k => Or.imp (untold k) (press k.press)) plan jobs pages, h.counts.of_eq press plan presses⟩

/-- A job is written whose plate satisfies its position as before. -/
theorem of_modJob (h : Presses g s) (untold : ∀ k, g.untold k → g'.untold k) (press : ∀ p, g'.press p = g.press p) (plan : t.plan = s.plan)
    (pages : t.pages = s.pages) (presses : t.presses = s.presses) {f : Job → Job} (jobs : t.jobs = (s.modJob n f).jobs)
    (same : ∀ j k x, s.job? n = some j → s.pos? k = some x → ¬ g'.untold k → x.work.current = some n → fulfils (f j) = fulfils j) :
    Presses g' t :=
  ⟨h.told.of_modJob (fun k => Or.imp (untold k) fun p => (press k.press).symm ▸ p) plan pages jobs
    fun j k x hj hx out hc => same j k x hj hx (fun u => out (.inl u)) hc, h.counts.of_eq (fun p hp => (press p).symm ▸ hp) plan presses⟩

/-- Only registers change, and no class of a page that a position names that is told. -/
theorem registers (h : Presses g s) (k : RegistersOnly s t) (untold : ∀ q, g.untold q → g'.untold q) (press : ∀ p, g'.press p = g.press p)
    (classes : ∀ q x a, s.pos? q = some x → ¬ g'.untold q → a ∈ x.content.pages →
      (t.page? a).bind PageRec.cls = (s.page? a).bind PageRec.cls) : Presses g' t :=
  ⟨h.told.of_pages (fun q => Or.imp (untold q) fun p => (press q.press).symm ▸ p) k.plan k.jobs
    fun q x a hx out ha => classes q x a hx (fun u => out (.inl u)) ha, h.counts.of_eq (fun p hp => (press p).symm ▸ hp) k.plan k.presses⟩

end Presses

/-- Slots are no business of the presses. -/
theorem Presses.slots (h : Presses g s) (k : RegistersOnly s t) (pages : t.pages = s.pages) : Presses g t :=
  h.registers k (fun _ => id) (fun _ => rfl) fun _ _ a _ _ _ => congrArg (fun v => (tget v a).bind PageRec.cls) pages

theorem fulfils_of_state {x : JobState} (h : j.state = x) (hx : x ≠ .racked ∧ x ≠ .mounted) : fulfils j = false := by
  simp [fulfils, h, hx.1, hx.2]

/-- A separation that arrives changes the class of its page alone. -/
theorem class_writeArrival {v live : Nat} {cl : ColourClass} {x : Separation} {a : SepSet} {ref : U64} (pages : u.pages = s.pages)
    (other : m ≠ n) : ((writeArrival n v cl a x ref live u).page? m).bind PageRec.cls = (s.page? m).bind PageRec.cls := by
  rw [writeArrival_eq]
  show ((u.putPage n _).page? m).bind PageRec.cls = _
  rw [page?_putPage, if_neg other]
  exact congrArg (fun v => (tget v m).bind PageRec.cls) pages

theorem pos?_putPos_of_ne {x : Position} (h : q ≠ k) : (s.putPos k x).pos? q = s.pos? q := by rw [pos?_putPos, if_neg h]

theorem pos?_dropPos_of_ne (h : q ≠ k) : (s.dropPos k).pos? q = s.pos? q := by rw [pos?_dropPos, if_neg h]

/-- One position comes or goes that is not told. -/
theorem Standings.elsewhere {U : PosKey → Prop} (h : Standings U s) (plan : ∀ q, q ≠ k → t.pos? q = s.pos? q) (jobs : t.jobs = s.jobs)
    (pages : t.pages = s.pages) (hk : U k) : Standings U t := by
  refine h.kept (fun _ => id) (fun q x hx out => ⟨x, ?_, rfl, rfl, rfl⟩) (fun _ _ n _ _ _ => congrArg (fun t => (tget t n).map fulfils) jobs)
    fun _ _ _ _ p _ => needsPage_of_pages pages _ p
  rw [← plan q fun e => out (e ▸ hk)]
  exact hx

theorem Standings.weaken {U U' : PosKey → Prop} (h : Standings U s) (hU : ∀ k, ¬ U' k → ¬ U k) : Standings U' s :=
  fun k x hx out => h k x hx (hU k out)

/-- The positions of a press are told again. -/
theorem Standings.refreshCounts {U : PosKey → Prop} (h : Standings U s) (o : Tables s) (r : PressId) :
    Standings (fun k => U k ∧ k.press ≠ r) (refreshCounts r s) := by
  have standing := refreshed_standing o r
  have told : Standings (fun k => U k ∧ k.press ≠ r) (refreshStanding r s) := by
    intro k x hx out
    by_cases e : k.press = r
    · exact standing.told k x hx e
    · rw [standing.same k e] at hx
      rw [h k x hx fun u => out ⟨u, e⟩, satisfies_of_eq standing.jobs standing.pages]
  unfold Machine.refreshCounts
  rw [evalPress_eq]
  refine Standings.still ?_ (.raisedAll _ _)
  exact told.of_eq (fun _ => id) rfl rfl rfl

/-- A position comes to a press whose counts are open. -/
theorem Tallies.putPos {G : PressId → Prop} (h : Tallies G s) (x : Position) (absent : s.pos? k = none) (hp : G k.press) :
    Tallies G (s.putPos k x) := by
  have other {p : PressId} (out : ¬ G p) : k.press ≠ p := fun e => out (e ▸ hp)
  refine h.kept (fun _ => id) (fun _ _ => ⟨rfl, rfl, rfl⟩) (fun p out => ?_) fun p out => ?_
  · refine (sum_tput (fun e : PosKey × Position => (decide (e.1.press = p)).toNat) PosKey.rank_injective absent).trans ?_
    simp [other out, posCount]
  · refine (sum_tput (fun e : PosKey × Position => (decide (e.1.press = p) && !e.2.work.satisfied).toNat) PosKey.rank_injective absent).trans ?_
    simp [other out, unsatCount]

/-- A position of a press goes whose counts are open. -/
theorem Tallies.dropPos {G : PressId → Prop} (h : Tallies G s) (o : Tables s) (hp : G k.press) : Tallies G (s.dropPos k) := by
  have other {p : PressId} (out : ¬ G p) : k.press ≠ p := fun e => out (e ▸ hp)
  cases hx : s.pos? k with
  | none => exact h.of_eq (fun _ => id) (tdel_of_none hx) rfl
  | some x =>
    refine h.kept (fun _ => id) (fun _ _ => ⟨rfl, rfl, rfl⟩) (fun p out => ?_) fun p out => ?_
    · have sum := sum_tdel (fun e : PosKey × Position => (decide (e.1.press = p)).toNat) o.plan hx
      rw [decide_eq_false (other out)] at sum
      exact sum
    · have sum := sum_tdel (fun e : PosKey × Position => (decide (e.1.press = p) && !e.2.work.satisfied).toNat) o.plan hx
      rw [decide_eq_false (other out), Bool.false_and] at sum
      exact sum

/-- Presses at rest, without a position. -/
theorem tallies_of_initial {G : PressId → Prop} (plan : s.plan = []) (presses : ∀ p, s.press p = Press.initial) : Tallies G s := by
  intro p _
  unfold posCount unsatCount
  rw [presses, plan]
  exact ⟨rfl, rfl, fun _ => rfl⟩

/-! ### Deeds -/

/-- Every deed keeps the presses told of their positions, but for what it leaves open. -/
theorem Deed.presses (d : Deed w c (g, s) (g', t)) (hw : w) (p : InPlace g s) (b : Books [] [] [] g s) (own : Owns NoneGone g s)
    (h : Presses g s) : Presses g' t := by
  have o := b.tables
  have job (n : Nat) : ((spots s).but g.spent).job n = s.job? n := rfl
  have work {f : PosWork → PosWork} (k : PosKey) (same : ∀ w, (f w).current = w.current ∧ (f w).satisfied = w.satisfied) :
      Presses g (s.modWork k f) := ⟨h.told.modWork k same, h.counts.modWork o k fun w => (same w).2⟩
  -- A job whose plate satisfies no position, neither before nor after.
  have unmet {v : State} {n : Nat} {j : Job} {x y : JobState} {f : Job → Job} (jobs : v.jobs = (s.modJob n f).jobs) (plan : v.plan = s.plan)
      (pages : v.pages = s.pages) (presses : v.presses = s.presses) (hj : s.job? n = some j) (hx : j.state = x)
      (before : x ≠ .racked ∧ x ≠ .mounted) (hy : (f j).state = y) (after : y ≠ .racked ∧ y ≠ .mounted) : Presses g v := by
    refine h.of_modJob (fun _ => id) (fun _ => rfl) plan pages presses jobs fun i k z hi _ _ _ => ?_
    cases hj.symm.trans hi
    rw [fulfils_of_state hx before, fulfils_of_state hy after]
  cases d with
  | blind _ _ _ hn => exact absurd hw hn
  | still k => exact ⟨h.told.still k, h.counts.still k⟩
  | assign _ _ e n j hj hq =>
    exact unmet (f := fun x => { x with state := .assigned, engine := some e }) rfl rfl rfl rfl hj hq ⟨nofun, nofun⟩ rfl ⟨nofun, nofun⟩
  | expose _ _ e u hu =>
    rw [sendExpose, hu]
    exact h.of_modJob (n := u.job) (f := fun x => { x with applied := some (s.register e).correction }) (fun _ => id) (fun _ => rfl) rfl rfl rfl
      rfl fun _ _ _ _ _ _ _ => rfl
  | create _ _ k x hx hn hl =>
    obtain ⟨vacant, can⟩ := Bool.and_eq_true_iff.mp hn
    rw [State.satisfiable_eq_makeable] at can
    exact ⟨h.told.createJob p.ownedJobs hx (Option.isNone_iff_eq_none.mp vacant) can hl, h.counts.createJob o k x⟩
  | defer _ _ k x => exact work k fun _ => ⟨rfl, rfl⟩
  | tell _ _ k =>
    refine ⟨fun q x hx out => h.told.tellSatisfied k q x hx fun left => ?_, h.counts.tellSatisfied o k⟩
    exact left.1.elim (fun u => out (.inl ⟨u, left.2⟩)) fun u => out (.inr u)
  | core _ _ n j x hx hj =>
    have kept := Parting.departCore ⟨h.told, h.counts, p.ownedJobs, fun k x hx => ⟨x, hx, rfl⟩⟩ b hx hj
    exact ⟨kept.1, kept.2⟩
  | note _ _ n f hf =>
    exact h.of_modJob (f := f) (fun _ => id) (fun _ => rfl) rfl rfl rfl rfl fun j _ _ _ _ _ _ => by rw [hf j]; rfl
  | queue _ _ n a j hj ho hs hr =>
    have retaken := RegistersOnly.retaken j s
    obtain ⟨racked, mounted⟩ := hr hw
    have h' := h.slots retaken (pages_retakeRefs j s)
    refine h'.of_modJob (n := n) (f := fun x =>
      { x with state := .queued, attempt := a, lane := none, applied := none, entryOrder := (retakeRefs j s).entryCount + 1 })
      (fun _ => id) (fun _ => rfl) rfl rfl rfl rfl fun i k x hi _ _ _ => ?_
    cases ((congrArg (tget · n) retaken.jobs).symm.trans hi).symm.trans hj
    rw [fulfils_of_state rfl ⟨racked, mounted⟩]
    rfl
  | fail _ _ n j hj ho hs hr =>
    have retaken := RegistersOnly.retaken j s
    obtain ⟨racked, mounted⟩ := hr hw
    have h' := h.slots retaken (pages_retakeRefs j s)
    refine h'.of_modJob (n := n) (f := fun x => { x with state := .failed }) (fun _ => id) (fun _ => rfl) rfl rfl rfl rfl
      fun i k x hi _ _ _ => ?_
    cases ((congrArg (tget · n) retaken.jobs).symm.trans hi).symm.trans hj
    rw [fulfils_of_state rfl ⟨racked, mounted⟩]
    rfl
  | start _ _ e u hu =>
    have waits : ((spots s).but g.spent).next e = some (u.job, u.stage) := by
      show waitSpot (s.engine e).ctx.next = _
      rw [hu]
      rfl
    obtain ⟨i, hi, state, -⟩ := p.ok.next e _ _ waits
    exact unmet (f := fun x => { x with state := .exposing }) rfl rfl rfl rfl hi state ⟨nofun, nofun⟩ rfl ⟨nofun, nofun⟩
  | develop _ _ e u hu =>
    have here : ((spots s).but g.spent).cur e = some u.job := by
      show (s.engine e).ctx.current.map CurrentCtx.job = _
      rw [hu]
      rfl
    obtain ⟨i, hi, state, -⟩ := p.ok.current e _ here
    obtain ⟨v, hv⟩ := releaseRefs_slots ((s.job? u.job).map Job.slots |>.getD []) (s.modCtx e fun c => { c with current := none })
    unfold developsAt
    rw [hv]
    exact unmet (n := u.job) (f := fun x => { x with state := .developing, lane := some (laneFed e) }) rfl rfl rfl rfl hi state
      ⟨nofun, nofun⟩ rfl ⟨nofun, nofun⟩
  | pass _ _ l n hy =>
    obtain ⟨y, mem, rfl, -⟩ := hy hw
    obtain ⟨i, hi, -, inLane⟩ := p.ok.inOrder (mem_orderSpots.mpr ⟨y, mem, rfl, rfl⟩)
    refine unmet (n := y.job) (f := fun x => { x with state := .finishing }) rfl rfl rfl rfl hi rfl ?_ rfl ⟨nofun, nofun⟩
    rcases inLane with e | e <;> simp [e]
  | reclaim _ _ l n j st x hj hu hl out hst =>
    obtain ⟨v, hv⟩ := releaseRefs_slots ((s.job? n).map Job.slots |>.getD []) s
    unfold Machine.reclaim
    dsimp only
    rw [hv]
    refine unmet (n := n) (f := fun x => { x with state := st }) rfl rfl rfl rfl hj hu ⟨nofun, nofun⟩ rfl ?_
    rcases hst with e | e <;> (cases e; exact ⟨nofun, nofun⟩)
  | rack _ _ d pr q j hd hx hj hs | shelve _ _ d pr j hd hx hj hs =>
    refine h.of_modJob (n := d.job) (f := fun x => { x with state := .racked }) (fun _ => .inl) (fun _ => rfl) rfl rfl rfl rfl
      fun i k x hi hx' out hc => ?_
    cases hj.symm.trans hi
    have key := p.ownedJobs.own ⟨j, hj, rfl⟩ hx' hc
    exact absurd (.inr ⟨key, own.unflagged k x _ j hx' hc hj⟩) out
  | mount _ _ k x n j hx hc hj hr =>
    have mounted : Presses g ((takePlate k n s).modJob n fun j => { j with state := .mounted }) := by
      refine h.of_modJob (n := n) (f := fun j => { j with state := .mounted }) (fun _ => id) (fun _ => rfl) rfl rfl rfl rfl
        fun i _ _ hi _ _ _ => ?_
      cases hj.symm.trans hi
      simp [fulfils, hr]
    have o' : Tables ((takePlate k n s).modJob n fun j => { j with state := .mounted }) := (o.takePlate k n).modJob n _
    exact ⟨mounted.told.modWork k fun _ => ⟨rfl, rfl⟩, mounted.counts.modWork o' k fun _ => rfl⟩
  | unmount _ _ k x =>
    have k' := work k (f := fun w => { w with mounted := none }) fun _ => ⟨rfl, rfl⟩
    exact ⟨k'.told, k'.counts⟩
  | pressState _ _ r st hst => exact ⟨h.told.of_eq (fun _ => id) rfl rfl rfl, h.counts.pressState hst⟩
  | flag _ _ k x n j =>
    have flagged : Presses { g.untell fun q => q = k with
        doomed := fun m => g.doomed m ∨ (m = n ∧ (j.state = .queued ∨ j.state = .failed)) } (s.modJob n fun x => { x with superseded := true }) :=
      h.of_modJob (f := fun x => { x with superseded := true }) (fun _ => .inl) (fun _ => rfl) rfl rfl rfl rfl fun _ _ _ _ _ _ _ => rfl
    refine ⟨flagged.told.modPos k (f := fun x => { x with work := { x.work with current := none, remake := x.work.remake || marksRemake j } })
      fun _ _ out => absurd (.inl (.inr rfl)) out, flagged.counts.modWork (o.modJob n _) k fun _ => rfl⟩
  | arrive _ _ n v cl x a live ref =>
    exact h.registers (.arrived n v cl a x ref live s) (fun _ => .inl) (fun _ => rfl) fun q y m hy out hm =>
      class_writeArrival rfl fun e => out (.inr ⟨y, hy, e ▸ hm⟩)
  | renew _ _ n old v cl x r ref =>
    exact h.registers ((RegistersOnly.cleared n s).trans (.arrived n v cl _ x ref _ _)) (fun _ => .inl) (fun _ => rfl) fun q y m hy out hm =>
      class_writeArrival (pages_clearAllCurrent n s) fun e => out (.inr ⟨y, hy, e ▸ hm⟩)
  | strip _ _ n r hr =>
    refine h.registers ((RegistersOnly.cleared n s).trans (.put n _ _)) (fun _ => id) (fun _ => rfl) fun q y m _ _ _ => ?_
    rw [page?_putPage]
    split
    next e => rw [e, hr, Option.bind_some, Option.bind_some]
    next => exact congrArg (fun v => (tget v m).bind PageRec.cls) (pages_clearAllCurrent n s)
  | withdraw _ _ n r hr =>
    refine h.registers (.put n _ s) (fun _ => id) (fun _ => rfl) fun q y m _ _ _ => ?_
    rw [page?_putPage]
    split
    next e => rw [e, hr, Option.bind_some, Option.bind_some]
    next => rfl
  | remove _ _ n r =>
    have gone := removePage_gone n r s
    refine h.registers gone.registers (fun _ => .inl) (fun _ => rfl) fun q y m hy out hm => ?_
    rw [gone.page, if_neg]
    rintro rfl
    exact out (.inr ⟨y, hy, hm⟩)
  | expect _ _ n absent =>
    refine h.registers (.put n _ s) (fun _ => id) (fun _ => rfl) fun q y m _ _ _ => ?_
    rw [page?_putPage]
    split
    next e => rw [e, absent]; rfl
    next => rfl
  | blot => exact h.of_eq (fun _ => id) (fun _ => id) rfl rfl rfl rfl
  | hold _ _ k b => exact ⟨h.told.modPos k fun _ _ _ => ⟨rfl, rfl, rfl⟩, h.counts.modPos o k fun _ => rfl⟩
  | commit _ _ r => exact h.of_eq (fun _ => id) (fun _ => .inl) rfl rfl rfl rfl
  | content _ _ k con edition free hp =>
    exact ⟨h.told.modPos k fun _ _ out => absurd (.inr hp) out, h.counts.modPos o k fun _ => rfl⟩
  | add _ _ k x absent hx hp => exact ⟨h.told.elsewhere (fun q hq => pos?_putPos_of_ne hq) rfl rfl (.inr hp), h.counts.putPos x absent hp⟩
  | drop _ _ k hm free hp => exact ⟨h.told.elsewhere (fun q hq => pos?_dropPos_of_ne hq) rfl rfl (.inr hp), h.counts.dropPos o hp⟩
  | recount _ _ r =>
    refine ⟨(h.told.refreshCounts o r).weaken fun q out => ?_, h.counts.refreshCounts o r⟩
    rintro ⟨u | hp, other⟩
    · exact out (.inl u)
    · exact out (.inr ⟨hp, other⟩)
  | empty e =>
    exact ⟨h.told.of_eq (fun _ => id) e.plan e.jobs e.pages, h.counts.kept (fun _ => id) (fun p _ => e.counts p)
      (fun p _ => posCount_of_plan e.plan p) fun p _ => unsatCount_of_plan e.plan p⟩
  | lose _ _ n j hj hs =>
    have lost := unmet (v := s.modJob n fun x => { x with state := .uncertain, lane := laneOfExposing j }) rfl rfl rfl rfl hj hs ⟨nofun, nofun⟩
      rfl ⟨nofun, nofun⟩
    exact ⟨lost.told, lost.counts⟩
  | strand _ _ n j hj hs =>
    have taken := RegistersOnly.taken j.slots s
    have h' := h.slots taken (pages_takeRefs j.slots s)
    refine h'.of_modJob (n := n) (f := fun x => { x with state := .uncertain }) (fun _ => id) (fun _ => rfl) rfl rfl rfl rfl
      fun i k x hi _ _ _ => ?_
    cases ((congrArg (tget · n) taken.jobs).symm.trans hi).symm.trans hj
    rcases hs with e | e <;> simp [fulfils, e]
  | restart => exact ⟨fun _ _ e => (by cases e), tallies_of_initial rfl fun p => press_reset p⟩
  | _ => exact h.of_eq (fun _ => id) (fun _ => id) rfl rfl rfl rfl

/-! ### Every step -/

/-- What holds of the books, the places and the current jobs at every point of a command. -/
structure Accounts (g : Gaps) (s : State) : Prop where
  place : InPlace g s
  undeferred : Undeferred s
  books : Books [] [] [] g s
  owns : Owns NoneGone g s

/-- Between commands. -/
theorem accounts_closed (o : Tables s) : Accounts Gaps.closed s ↔ Placed s ∧ Filed s ∧ Counted s ∧ Current s := by
  constructor
  · rintro ⟨place, undeferred, books, owns⟩
    refine ⟨inPlace_closed.mp place, recorded_closed.mp books.recorded, ?_, (owns_closed undeferred).mp owns⟩
    obtain ⟨counts, freed, slots, held⟩ := books.referred
    refine ⟨fun n r hr => books.lives.count hr, fun k x hx => ?_, freed, fun n j hj p hp => ?_, slots, held⟩
    · rw [counts k x hx, List.count_nil, Nat.add_zero]
    · exact books.lives.named fun zero => List.count_eq_zero.mp (Nat.le_zero.mp (zero ▸ count_le_namers hj p.1)) (List.mem_map_of_mem hp)
  · rintro ⟨placed, filed, counted, current⟩
    refine ⟨inPlace_closed.mpr placed, current.settled, ⟨o, recorded_closed.mpr filed, ⟨fun k x hx => ?_, counted.freed, counted.slots,
      counted.held⟩, .of_counted counted o⟩, (owns_closed current.settled).mpr current⟩
    rw [counted.counts k x hx, List.count_nil, Nat.add_zero]

theorem Deed.accounts (d : Deed True True (g, s) (g', t)) (h : Accounts g s) : Accounts g' t :=
  ⟨d.inPlace trivial h.place, d.undeferred h.undeferred, d.books trivial trivial h.place h.books h.owns.retakable,
    d.owns trivial trivial h.place h.books h.owns⟩

/-- Deeds in a row. -/
theorem accounts_way {a b : Gaps × State} (way : Relation.ReflTransGen (Deed True True) a b) (h : Accounts a.1 a.2) : Accounts b.1 b.2 := by
  induction way with
  | refl => exact h
  | tail _ d ih => exact d.accounts ih

theorem presses_way {a b : Gaps × State} (way : Relation.ReflTransGen (Deed True True) a b) (h : Accounts a.1 a.2) (p : Presses a.1 a.2) :
    Presses b.1 b.2 := by
  induction way with
  | refl => exact p
  | tail before d ih =>
    have accounts := accounts_way before h
    exact d.presses trivial accounts.place accounts.books accounts.owns ih

theorem presses_closed (o : Tables s) : Presses Gaps.closed s ↔ PressesTell s := by
  rw [pressesTell_iff o]
  constructor
  · exact fun h => ⟨h.told.weaken fun _ out open' => out (open'.elim id id), h.counts⟩
  · exact fun ⟨told, counts⟩ => ⟨told.weaken fun _ _ => not_false, counts⟩

/-- Settles O14: what holds of the books, the places, the current jobs and the presses is kept by every deed, but for what stands open,
and nothing stands open when the command is over. -/
theorem countsKept : Obligations.CountsKept := by
  unfold Obligations.CountsKept
  intro s t o placed housed filed counted current hstep
  have done : At True True (Gaps.closed, s) Gaps.closed t :=
    step_at o (fun _ => placed) (fun _ => housed) (fun _ => current.settled) (fun _ => filed) hstep
  have accounts := (accounts_closed o).mpr ⟨placed, filed, counted, current⟩
  obtain ⟨-, filed', counted', current'⟩ := (accounts_closed done.tables).mp (accounts_way done.way accounts)
  exact ⟨filed', counted', current', fun tell => (presses_closed done.tables).mp (presses_way done.way accounts ((presses_closed o).mpr tell))⟩

end Sys2Proof.Machine
end

section
/-! What a commit leaves of the positions that it does not revise (R38, R39), and what a write of one position is to a run of
events. -/

namespace Sys2Proof.Machine

open State

variable {w c : Prop} {b : Gaps × State} {g : Gaps} {s t u v : State} {n : Nat} {j : Job} {q k : PosKey} {x : Position}

/-! ### Positions that stand by -/

/-- A superseded job that does not end leaves the plan. -/
theorem plan_supersedeEffect (ends : ¬ EndsSuperseded s n j) :
    (supersedeEffect n j (detached k n j s)).plan = (detached k n j s).plan := by
  by_cases live : j.state ∈ [.retired, .cancelled, .discarded]
  · have flagged : supersedeEffect n j (detached k n j s) = raise (.jobSuperseded n j.key j.state .flagged) (detached k n j s) := by
      unfold supersedeEffect
      simp only [List.mem_cons, List.not_mem_nil, or_false] at live
      rcases live with e | e | e <;> rw [e]
    rw [flagged]
    exact plan_raise _ _
  · exact (supersedeEffect_stays live ends).2

theorem pos?_detached_of_ne (other : q ≠ k) : (detached k n j s).pos? q = s.pos? q := by
  unfold detached
  rw [pos?_modWork, if_neg other]
  rfl

/-- Superseding a job leaves a position that is not deferred and does not hold it, but for its standing. -/
theorem supersede_standsAs (o : Tables s) (hx : s.pos? q = some x) (other : q ≠ k) (hn : x.work.current ≠ some n)
    (hd : x.work.deferred = false) : StandsAs q s (supersede k n s) := by
  cases hj : s.job? n with
  | none =>
    have same : supersede k n s = s := by unfold supersede; rw [hj]
    rw [same]
    exact .of_plan rfl
  | some j =>
    have there : (detached k n j s).pos? q = some x := (pos?_detached_of_ne other).trans hx
    have detaches : StandsAs q s (detached k n j s) := fun y hy => ⟨y.work.satisfied, (pos?_detached_of_ne other).trans hy⟩
    rw [supersede_eq hj]
    refine (detaches.trans ?_).trans (tellSatisfied_standsAs q k _)
    by_cases ends : EndsSuperseded s n j
    · obtain ⟨v, effect, -, jobs, plan, -⟩ := supersedeEffect_departs (k := k) ends
      have raised : (raise (supersedeNotice n j .cancelled) v).plan = (detached k n j s).plan := (plan_raise _ _).trans plan
      have ordered : JobsOrdered (raise (supersedeNotice n j .cancelled) v) := by
        rw [JobsOrdered, show (raise (supersedeNotice n j .cancelled) v).jobs = v.jobs by rw [raise_same _ v], jobs]
        exact Reacts.jobs_ordered o.jobs detached_reacts
      have planned : Table.ordered PosKey.rank (raise (supersedeNotice n j .cancelled) v).plan := by
        rw [raised]
        exact Reacts.plan_ordered detached_reacts o.plan
      rw [effect]
      refine StandsAs.trans (.of_plan raised) ?_
      exact depart_standsAs ordered planned ((pos?_of_plan raised).trans there) hn hd (by decide)
    · exact .of_plan (plan_supersedeEffect ends)

theorem PositionKept.refl (x : Position) : PositionKept x x := ⟨rfl, rfl, rfl, rfl⟩

theorem PositionKept.trans {x y z : Position} (h : PositionKept x y) (k : PositionKept y z) : PositionKept x z := by
  obtain ⟨content, edition, held, mounted⟩ := h
  obtain ⟨content', edition', held', mounted'⟩ := k
  exact ⟨content'.trans content, edition'.trans edition, held'.trans held, mounted'.trans mounted⟩

/-- A position stays, with all that it holds if it is not deferred. -/
structure Bystands (q : PosKey) (s t : State) : Prop where
  absent : s.pos? q = none → t.pos? q = none
  stays : ∀ x, s.pos? q = some x → ∃ y, t.pos? q = some y ∧ PositionKept x y ∧
    (x.work.deferred = false → y = { x with work := { x.work with satisfied := y.work.satisfied } })

namespace Bystands

theorem of_same (h : t.pos? q = s.pos? q) : Bystands q s t :=
  ⟨fun none => h.trans none, fun x hx => ⟨x, h.trans hx, .refl x, fun _ => rfl⟩⟩

theorem trans (h : Bystands q s u) (k : Bystands q u t) : Bystands q s t := by
  refine ⟨k.absent ∘ h.absent, fun x hx => ?_⟩
  obtain ⟨y, hy, kept, same⟩ := h.stays x hx
  obtain ⟨z, hz, kept', same'⟩ := k.stays y hy
  refine ⟨z, hz, kept.trans kept', fun hd => ?_⟩
  have first := same hd
  have second := same' (by rw [first]; exact hd)
  rw [second, first]

theorem of_reacts {D : Nat → Prop} (r : Reacts D s t) (h : ∀ x, s.pos? q = some x → x.work.deferred = false → StandsAs q s t) :
    Bystands q s t := by
  obtain ⟨absent, stays⟩ := r.kept.positions q
  refine ⟨absent, fun x hx => ?_⟩
  obtain ⟨y, hy, kept⟩ := stays x hx
  refine ⟨y, hy, kept, fun hd => ?_⟩
  obtain ⟨b, hb⟩ := h x hx hd x hx
  cases hy.symm.trans hb
  rfl

/-- Another position's current job is superseded, if it has one. -/
theorem supersedeAt (a : At w c b g s) (hw : w) (other : q ≠ k) : Bystands q s (supersedeAt k s) := by
  refine of_reacts (D := AnyJob) (supersedeAt_reacts k a.tables.jobs) fun x hx hd => ?_
  unfold Machine.supersedeAt
  split
  next n hn =>
    obtain ⟨y, hy, current⟩ := Option.bind_eq_some_iff.mp hn
    exact supersede_standsAs a.tables hx other (fun e => other ((a.owned hw).same hx hy e current)) hd
  next => exact .of_plan rfl

theorem needAndServe (a : At w c b g s) (other : q ≠ k) : Bystands q s (needAndServe k s) :=
  of_reacts (needAndServe_reacts (D := NoJob) k a.tables.jobs) fun _ _ _ => needAndServe_standsAs other a.tables.jobs

end Bystands

/-! ### A write of one position -/

theorem makeable_of_pages (h : t.pages = u.pages) (con : Content) : makeable t con = makeable u con := by
  have page : t.page? = u.page? := funext fun n => congrArg (tget · n) h
  have needs : needsPage t = needsPage u := funext fun x => funext fun n => needsPage_of_pages h x n
  unfold makeable
  rw [page, needs]

namespace Since

variable {D R : Nat → Prop} {W A : PosKey → Prop} {E : Nat → Prop}

/-- The same run, said differently. -/
theorem congr {W' A' : PosKey → Prop} {E' : Nat → Prop} (h : Since D R v W A E u) (hW : ∀ q, W' q ↔ W q) (hA : ∀ q, A' q → A q)
    (hE : ∀ m, E' m → E m) : Since D R v W' A' E' u := by
  obtain rfl : W' = W := funext fun q => propext (hW q)
  exact { h with attended := fun q hq => h.attended q (hA q hq), ended := fun m hm => h.ended m (hE m hm) }

/-- Positions are written that keep their current jobs. -/
theorem written {A' : PosKey → Prop} (h : Since D R v W A E u) (entry : t.entryCount = u.entryCount) (jobs : t.jobs = u.jobs)
    (engines : t.engines = u.engines)
    (current : ∀ q m, (∃ y, t.pos? q = some y ∧ y.work.current = some m) ↔ ∃ y, u.pos? q = some y ∧ y.work.current = some m)
    (attended : ∀ q, A' q → A q ∧ (Attended q u → Attended q t)) : Since D R v W A' E t := by
  have job (m : Nat) : t.job? m = u.job? m := congrArg (tget · m) jobs
  have loads (m : Nat) : Loads t m → Loads u m := fun l => l.of_engines engines
  have fresh {m : Nat} (f : FreshJob v m u) : FreshJob v m t :=
    f.stays le_rfl (fun j hj => ⟨j, (job m).trans hj, .refl j⟩) (loads m)
  have ended {m : Nat} (e : Ended m v u) : Ended m v t := fun j hj => e j ((job m).symm.trans hj)
  have stays {m : Nat} {j : Job} : (∃ j', u.job? m = some j' ∧ JobStays j j') → ∃ j', t.job? m = some j' ∧ JobStays j j' :=
    fun ⟨j', hj', k⟩ => ⟨j', (job m).trans hj', k⟩
  refine
    { entry := h.entry.trans entry.ge
      loads := fun m l => h.loads m (loads m l)
      others := fun m j out hj => stays (h.others m j out hj)
      current := fun q y m hy hm => ?_
      remains := fun q x m hW hx hm => ?_
      superseded := fun q x m hW hx hm hR => ?_
      attended := fun q hq => (attended q hq).2 (h.attended q (attended q hq).1)
      ended := fun m hm => ended (h.ended m hm) }
  · obtain ⟨z, hz, hzm⟩ := (current q m).mp ⟨y, hy, hm⟩
    exact (h.current q z m hz hzm).imp_right fun ⟨free, f⟩ => ⟨free, fresh f⟩
  · obtain ⟨there, job', sent⟩ := h.remains q x m hW hx hm
    exact ⟨(current q m).mpr there, fun j hj => stays (job' j hj), fun l => (sent l).of_engines engines⟩
  · exact (h.superseded q x m hW hx hm hR).stays ended fun j hj => ⟨j, (job m).trans hj, .refl j⟩

/-- One position is written that keeps its current job. -/
theorem written_at (h : Since D R v W A E u) (entry : t.entryCount = u.entryCount) (jobs : t.jobs = u.jobs)
    (engines : t.engines = u.engines) (pages : t.pages = u.pages) (others : ∀ q, q ≠ k → t.pos? q = u.pos? q)
    (here : (t.pos? k).bind (fun y => y.work.current) = (u.pos? k).bind fun y => y.work.current) :
    Since D R v W (fun q => A q ∧ q ≠ k) E t := by
  have bound (r : State) (m : Nat) : (∃ y, r.pos? k = some y ∧ y.work.current = some m) ↔
      (r.pos? k).bind (fun y => y.work.current) = some m := Option.bind_eq_some_iff.symm
  refine h.written entry jobs engines (fun q m => ?_) fun q hq => ⟨hq.1, fun a y hy none need => ?_⟩
  · by_cases same : q = k
    · rw [same, bound, bound, here]
    · rw [others q same]
  · have makes : makeable t y.content = makeable u y.content :=
      makeable_of_pages pages y.content
    rw [jobs]
    exact a y ((others q hq.2).symm.trans hy) none (makes ▸ need)

end Since

end Sys2Proof.Machine
end

section
/-! What the revision of one position of a plan makes of the rest (R39, R40), and of its jobs. -/

namespace Sys2Proof.Machine

open State

variable {w c : Prop} {b : Gaps × State} {g : Gaps} {s t u v : State} {n : Nat} {j : Job} {q k : PosKey} {x : Position}

/-! ### What is kept beside the plan -/

/-- What reactions leave, but for the plan, the stages and the presses. -/
def KeptBeside (s t : State) : Prop := KeptByReacting { s with plan := t.plan, stages := t.stages, presses := t.presses } t

namespace KeptBeside

theorem refl (s : State) : KeptBeside s s := KeptByReacting.refl s

theorem reacts (h : KeptBeside s u) (k : KeptByReacting u t) : KeptBeside s t := by
  have both := KeptByReacting.trans h k
  exact { both with
    stages := rfl
    positions := fun _ => ⟨id, fun x hx => ⟨x, hx, .refl x⟩⟩
    presses := fun _ => .refl _ }

theorem written (h : KeptBeside s u) (same : t = { u with plan := t.plan, stages := t.stages, presses := t.presses }) : KeptBeside s t := by
  rw [same]
  exact { h with
    stages := rfl
    positions := fun _ => ⟨id, fun x hx => ⟨x, hx, .refl x⟩⟩
    presses := fun _ => .refl _ }

end KeptBeside

theorem PressKept.trans {x y z : Press} (h : PressKept x y) (k : PressKept y z) : PressKept x z := by
  obtain ⟨same, running⟩ := h
  obtain ⟨same', running'⟩ := k
  exact ⟨by rw [same', same], running'.trans running⟩

/-- What the revision of a position leaves of all but the position. -/
structure Revises (k : PosKey) (s t : State) : Prop where
  beside : ∀ b, KeptBeside b s → KeptBeside b t
  ports : PortsKept s t
  stages : t.stages = s.stages
  presses : ∀ p, PressKept (s.press p) (t.press p)
  others : ∀ q, q ≠ k → Bystands q s t

namespace Revises

theorem trans (h : Revises k s u) (r : Revises k u t) : Revises k s t :=
  ⟨fun b kept => r.beside b (h.beside b kept), h.ports.trans r.ports, r.stages.trans h.stages,
    fun p => (h.presses p).trans (r.presses p), fun q hq => (h.others q hq).trans (r.others q hq)⟩

theorem of_reacts {D : Nat → Prop} (r : Reacts D s t) (others : ∀ q, q ≠ k → Bystands q s t) : Revises k s t :=
  ⟨fun _ kept => kept.reacts r.kept, r.ports_kept, r.kept.stages, r.kept.presses, others⟩

/-- The position alone is written. -/
theorem written (same : t = { s with plan := t.plan }) (others : ∀ q, q ≠ k → t.pos? q = s.pos? q) : Revises k s t := by
  refine ⟨fun b kept => kept.written ?_, .of_eq ?_, ?_, fun p => ?_, fun q hq => .of_same (others q hq)⟩
  · generalize t.plan = plan at same
    rw [same]
  · rw [same]
  · rw [same]
  · rw [same]
    exact .refl _

theorem modPos (f : Position → Position) : Revises k s (s.modPos k f) := written rfl fun q hq => by rw [pos?_modPos, if_neg hq]

theorem modWork (f : PosWork → PosWork) : Revises k s (s.modWork k f) := written rfl fun q hq => by rw [pos?_modWork, if_neg hq]

theorem putPos (x : Position) : Revises k s (s.putPos k x) := written rfl fun _ hq => pos?_putPos_of_ne hq

theorem dropPos : Revises k s (s.dropPos k) := written rfl fun _ hq => pos?_dropPos_of_ne hq

theorem supersedeAt (a : At w c b g s) (hw : w) : Revises k s (supersedeAt k s) :=
  of_reacts (D := AnyJob) (supersedeAt_reacts k a.tables.jobs) fun _ hq => .supersedeAt a hw hq

theorem needAndServe (a : At w c b g s) : Revises k s (needAndServe k s) :=
  of_reacts (D := NoJob) (needAndServe_reacts k a.tables.jobs) fun _ hq => .needAndServe a hq

end Revises

/-! ### The mounted job of a position retires -/

theorem At.mounted_is (a : At w c b g s) (hw : w) (hx : s.pos? k = some x) (hm : x.work.mounted = some n) : (spots s).Is n k .mounted :=
  (a.place hw).ok.mounted k x.work.current n (by rw [← hm]; exact work_some hx)

/-- No other position holds the mounted job of a position. -/
theorem At.mounted_alone (a : At w c b g s) (hw : w) (hx : s.pos? k = some x) (hm : x.work.mounted = some n) {y : Position}
    (hy : s.pos? q = some y) (other : q ≠ k) : y.work.current ≠ some n := by
  intro hc
  obtain ⟨i, hi, key, -⟩ := a.mounted_is hw hx hm
  obtain ⟨j, hj, key'⟩ := a.own hw hy hc
  cases hj.symm.trans hi
  exact other (key'.symm.trans key)

/-- The mounted job of a position has been taken off. -/
def unmountedAt (k : PosKey) (s : State) : State := s.modWork k fun w => { w with mounted := none }

theorem pos?_unmountedAt (hx : s.pos? k = some x) :
    (unmountedAt k s).pos? k = some { x with work := { x.work with mounted := none } } := by
  unfold unmountedAt
  rw [pos?_modWork, if_pos rfl, hx]
  rfl

theorem pos?_unmountedAt_of_ne (other : q ≠ k) : (unmountedAt k s).pos? q = s.pos? q := by
  unfold unmountedAt
  rw [pos?_modWork, if_neg other]

theorem retireMounted_some (hx : s.pos? k = some x) (hm : x.work.mounted = some n) :
    retireMounted k s = depart n .retired (unmountedAt k s) := by
  unfold retireMounted
  rw [hx, Option.bind_some, hm]
  rfl

theorem retireMounted_none (h : ∀ x, s.pos? k = some x → x.work.mounted = none) : retireMounted k s = s := by
  unfold retireMounted
  cases hx : s.pos? k with
  | none => rfl
  | some x =>
    rw [Option.bind_some, h x hx]

/-- No position holds a mounted job that has been taken off, where its own has no current job. -/
theorem unmountedAt_gone (a : At w c b g s) (hw : w) (hx : s.pos? k = some x) (hm : x.work.mounted = some n) (hc : x.work.current = none) :
    ∀ q y, (unmountedAt k s).pos? q = some y → y.work.current ≠ some n := by
  intro q y hy
  by_cases e : q = k
  · subst e
    rw [pos?_unmountedAt hx] at hy
    cases hy
    exact fun hn => by cases hc.symm.trans hn
  · exact a.mounted_alone hw hx hm ((pos?_unmountedAt_of_ne e).symm.trans hy) e

theorem retireMounted_revises (a : At w c b g s) (hw : w) (hc : ∀ x, s.pos? k = some x → x.work.current = none) :
    Revises k s (retireMounted k s) := by
  by_cases has : ∃ x n, s.pos? k = some x ∧ x.work.mounted = some n
  · obtain ⟨x, n, hx, hm⟩ := has
    have gone := unmountedAt_gone a hw hx hm (hc x hx)
    have o := a.tables.modWork k fun w => { w with mounted := none }
    rw [retireMounted_some hx hm]
    refine (Revises.modWork fun w => { w with mounted := none }).trans (.of_reacts (D := AnyJob) (depart_reacts n .retired o.jobs) fun q _ => ?_)
    exact .of_reacts (D := AnyJob) (depart_reacts n .retired o.jobs) fun y hy hd =>
      depart_standsAs o.jobs o.plan hy (gone q y hy) hd (by decide)
  · rw [retireMounted_none fun x hx => ?_]
    · exact .of_reacts (D := NoJob) .refl fun q _ => .of_same rfl
    · exact Option.eq_none_iff_forall_ne_some.mpr fun n hm => has ⟨x, n, hx, hm⟩

/-! ### Revisions -/

/-- A position of a removed content, without its deferred flag. -/
def undeferredAt (k : PosKey) (s : State) : State := s.modWork k fun w => { w with deferred := false }

theorem commitRemoved_eq (k : PosKey) (s : State) :
    commitRemoved k s = (retireMounted k (supersedeAt k (undeferredAt k s))).dropPos k := rfl

theorem undeferredAt_at (a : At w c b g s) (k : PosKey) : At w c b g (undeferredAt k s) := a.deed (.defer g s k false nofun)

theorem undeferredAt_clear (a : At w c b g s) (hw : w) (k : PosKey) : ∀ y, (supersedeAt k (undeferredAt k s)).pos? k = some y →
    y.work.current = none ∧ y.work.deferred = false := by
  refine supersedeAt_clears (undeferredAt_at a k) hw fun x hx => ?_
  unfold undeferredAt at hx
  rw [pos?_modWork, if_pos rfl] at hx
  obtain ⟨y, -, rfl⟩ := Option.map_eq_some_iff.mp hx
  rfl

theorem commitChanged_revises {p : PressId} (a : At w c b (Gaps.committing p) s) (hw : w) (hk : k.press = p) (edition : Nat) (con : Content) :
    Revises k s (commitChanged k edition con s) := by
  have leaves := supersedeAt_leaves a k
  have superseded := supersedeAt_committing a k
  have first : Revises k s (supersedeAt k s) := .supersedeAt a hw
  unfold commitChanged
  generalize supersedeAt k s = t at leaves superseded first
  exact (first.trans (.modPos _)).trans (.needAndServe (superseded.deed (.content _ t k con edition leaves hk)))

theorem commitAdded_revises {p : PressId} (a : At w c b (Gaps.committing p) s) (hk : k.press = p) (absent : s.pos? k = none) (edition : Nat)
    (con : Content) : Revises k s (commitAdded k edition con s) :=
  (Revises.putPos _).trans (.needAndServe (a.deed (.add _ s k (addedPosition s edition con) absent ⟨rfl, rfl, rfl⟩ hk)))

theorem commitRemoved_revises {p : PressId} (a : At w c b (Gaps.committing p) s) (hw : w) : Revises k s (commitRemoved k s) := by
  have cleared := undeferredAt_at a k
  have first : Revises k s (undeferredAt k s) := .modWork _
  have second : Revises k (undeferredAt k s) (supersedeAt k (undeferredAt k s)) := .supersedeAt cleared hw
  rw [commitRemoved_eq]
  exact ((first.trans second).trans (retireMounted_revises (supersedeAt_committing cleared k) hw fun x hx =>
    (undeferredAt_clear a hw k x hx).1)).trans .dropPos

/-- A changed position has its new content, and keeps its held flag and its mounted job. -/
theorem commitChanged_here {p : PressId} (a : At w c b (Gaps.committing p) s) (hk : k.press = p) (edition : Nat) (con : Content)
    (hx : s.pos? k = some x) : ∃ y, (commitChanged k edition con s).pos? k = some y ∧
      PositionKept { x with content := con, edition := edition } y := by
  have leaves := supersedeAt_leaves a k
  have superseded := supersedeAt_committing a k
  have chain : Reacts AnyJob s (supersedeAt k s) := supersedeAt_reacts k a.tables.jobs
  obtain ⟨z, hz, -, -, held, mounted⟩ := (chain.kept.positions k).2 x hx
  unfold commitChanged
  generalize supersedeAt k s = t at leaves superseded hz
  have changed := superseded.deed (.content _ t k con edition leaves hk)
  have served : Reacts NoJob _ (needAndServe k (t.modPos k fun x => { x with content := con, edition := edition })) :=
    needAndServe_reacts k changed.tables.jobs
  have there : (t.modPos k fun x => { x with content := con, edition := edition }).pos? k =
      some { z with content := con, edition := edition } := by
    rw [pos?_modPos, if_pos rfl, hz]
    rfl
  obtain ⟨y, hy, kept⟩ := (served.kept.positions k).2 _ there
  exact ⟨y, hy, PositionKept.trans (y := { z with content := con, edition := edition }) ⟨rfl, rfl, held, mounted⟩ kept⟩

theorem commitAdded_here (o : Tables s) (edition : Nat) (con : Content) : ∃ y, (commitAdded k edition con s).pos? k = some y ∧
    PositionKept ⟨con, edition, false, ⟨none, none, false, false, false⟩⟩ y := by
  have served : Reacts NoJob (s.putPos k (addedPosition s edition con)) (commitAdded k edition con s) := needAndServe_reacts k o.jobs
  have there : (s.putPos k (addedPosition s edition con)).pos? k = some (addedPosition s edition con) := by rw [pos?_putPos, if_pos rfl]
  obtain ⟨y, hy, kept⟩ := (served.kept.positions k).2 _ there
  exact ⟨y, hy, PositionKept.trans ⟨rfl, rfl, rfl, rfl⟩ kept⟩

theorem commitRemoved_here : (commitRemoved k s).pos? k = none := by
  rw [commitRemoved_eq, pos?_dropPos, if_pos rfl]

/-! ### Their jobs -/

section Jobs

variable {D R : Nat → Prop} {W A : PosKey → Prop} {E : Nat → Prop} {p : PressId}

theorem commitChanged_since (h : Since D R v W A E u) (a : At w c b (Gaps.committing p) u) (hw : w) (o : Owned v) (placed : Placed v)
    (hk : k.press = p) (edition : Nat) (con : Content) (taken : ∀ x m, v.pos? k = some x → x.work.current = some m → D m)
    (unended : ∀ m, E m → ∀ x, v.pos? k = some x → x.work.current ≠ some m) :
    Since D R v (fun q => W q ∧ q ≠ k) (fun q => A q ∨ q = k) E (commitChanged k edition con u) := by
  have superseded := h.supersedeAt a hw o placed k taken unended
  have leaves := supersedeAt_leaves a k
  have next := supersedeAt_committing a k
  unfold commitChanged
  generalize supersedeAt k u = t at superseded leaves next
  have changed : Since D R v _ _ E (t.modPos k fun x => { x with content := con, edition := edition }) :=
    superseded.written_at rfl rfl rfl rfl (fun q hq => by rw [pos?_modPos, if_neg hq]) (by
      rw [pos?_modPos, if_pos rfl]
      cases t.pos? k <;> rfl)
  have met := changed.needAndServe (next.deed (.content _ t k con edition leaves hk)) hw k
  exact met.congr (fun _ => Iff.rfl) (fun q hq => hq.elim (fun hA => (em (q = k)).elim .inr fun e => .inl ⟨⟨hA, e⟩, e⟩) .inr) fun _ => id

theorem commitAdded_since (h : Since D R v W A E u) (a : At w c b (Gaps.committing p) u) (hw : w) (hk : k.press = p)
    (absent : u.pos? k = none) (edition : Nat) (con : Content) :
    Since D R v (fun q => W q ∧ q ≠ k) (fun q => A q ∨ q = k) E (commitAdded k edition con u) := by
  have vacant := h.vacant (k := k) fun y hy => by cases absent.symm.trans hy
  have added : Since D R v _ _ E (u.putPos k (addedPosition u edition con)) :=
    vacant.written_at rfl rfl rfl rfl (fun q hq => pos?_putPos_of_ne hq) (by rw [pos?_putPos, if_pos rfl, absent]; rfl)
  have met := added.needAndServe (a.deed (.add _ u k (addedPosition u edition con) absent ⟨rfl, rfl, rfl⟩ hk)) hw k
  exact met.congr (fun _ => Iff.rfl) (fun q hq => hq.elim (fun hA => (em (q = k)).elim .inr fun e => .inl ⟨hA, e⟩) .inr) fun _ => id

/-- The mounted job of a position without a current job retires. -/
theorem Since.retireMounted (h : Since D R v W A E u) (a : At w c b g u) (hw : w) (hc : ∀ x, u.pos? k = some x → x.work.current = none)
    (retired : ∀ x m, u.pos? k = some x → x.work.mounted = some m → R m ∧ D m) :
    Since D R v W (fun q => A q ∧ q ≠ k) (fun m => E m ∨ ∃ x, u.pos? k = some x ∧ x.work.mounted = some m) (retireMounted k u) := by
  by_cases has : ∃ x n, u.pos? k = some x ∧ x.work.mounted = some n
  · obtain ⟨x, n, hx, hm⟩ := has
    have gone := unmountedAt_gone a hw hx hm (hc x hx)
    have pulled : At w c b (g.pull fun m => x.work.mounted = some m) (unmountedAt k u) := a.deed (.unmount g u k x hx)
    have off := pulled.taken_off (n := n) fun _ => .inr hm
    obtain ⟨j, hj, -⟩ := a.mounted_is hw hx hm
    have cleared : Since D R v W (fun q => A q ∧ q ≠ k) E (unmountedAt k u) :=
      h.written_at rfl rfl rfl rfl (fun q hq => pos?_unmountedAt_of_ne hq) (by rw [pos?_unmountedAt hx, hx]; rfl)
    obtain ⟨isR, isD⟩ := retired x n hx hm
    have left : Ended n v (depart n .retired (unmountedAt k u)) :=
      (depart_ended n .retired (s := unmountedAt k u) pulled.tables.jobs).since cleared.entry
    have turned := cleared.turn (N := fun m => m = n) (depart_turn pulled hw (.inl rfl) hj (off hw) gone)
      (fun q y m hy hym (e : m = n) => gone q y hy (hym.trans (congrArg some e))) (by rintro m rfl; exact isR) (by rintro m rfl; exact isD)
      (by rintro m rfl; exact left)
    rw [retireMounted_some hx hm]
    refine turned.congr (fun _ => Iff.rfl) (fun _ => id) fun m hm' => hm'.imp_right ?_
    rintro ⟨y, hy, hym⟩
    cases hx.symm.trans hy
    exact Option.some.inj (hym.symm.trans hm)
  · rw [retireMounted_none fun x hx => Option.eq_none_iff_forall_ne_some.mpr fun n hm => has ⟨x, n, hx, hm⟩]
    exact h.congr (fun _ => Iff.rfl) (fun _ hq => hq.1) fun m hm => hm.resolve_right fun ⟨x, hx, hm⟩ => has ⟨x, m, hx, hm⟩

theorem commitRemoved_since (h : Since D R v W A E u) (a : At w c b (Gaps.committing p) u) (hw : w) (o : Owned v) (placed : Placed v)
    (taken : ∀ x m, v.pos? k = some x → x.work.current = some m → D m)
    (unended : ∀ m, E m → ∀ x, v.pos? k = some x → x.work.current ≠ some m)
    (retired : ∀ x m, u.pos? k = some x → x.work.mounted = some m → R m ∧ D m) :
    Since D R v (fun q => W q ∧ q ≠ k) (fun q => A q ∨ q = k) (fun m => E m ∨ ∃ x, u.pos? k = some x ∧ x.work.mounted = some m)
      (commitRemoved k u) := by
  have cleared := undeferredAt_at a k
  have undeferred : Since D R v W (fun q => A q ∧ q ≠ k) E (undeferredAt k u) :=
    h.written_at rfl rfl rfl rfl (fun q hq => by unfold undeferredAt; rw [pos?_modWork, if_neg hq]) (by
      unfold undeferredAt
      rw [pos?_modWork, if_pos rfl]
      cases u.pos? k <;> rfl)
  have superseded := undeferred.supersedeAt cleared hw o placed k taken unended
  have clear := undeferredAt_clear a hw k
  have next := supersedeAt_committing cleared k
  have chain : Reacts AnyJob (undeferredAt k u) (supersedeAt k (undeferredAt k u)) := supersedeAt_reacts k cleared.tables.jobs
  -- The mounted job is the one that the position had.
  have mounted (m : Nat) : (∃ x, (supersedeAt k (undeferredAt k u)).pos? k = some x ∧ x.work.mounted = some m) ↔
      ∃ x, u.pos? k = some x ∧ x.work.mounted = some m := by
    have there : (undeferredAt k u).pos? k = (u.pos? k).map fun x => { x with work := { x.work with deferred := false } } := by
      unfold undeferredAt
      rw [pos?_modWork, if_pos rfl]
    cases hx : u.pos? k with
    | none =>
      rw [hx] at there
      rw [(chain.kept.positions k).1 there]
    | some x =>
      rw [hx] at there
      obtain ⟨y, hy, -, -, -, same⟩ := (chain.kept.positions k).2 _ there
      rw [hy]
      constructor
      · rintro ⟨z, hz, hm⟩
        cases hz
        exact ⟨x, rfl, same.symm.trans hm⟩
      · rintro ⟨z, hz, hm⟩
        cases hz
        exact ⟨y, rfl, same.trans hm⟩
  rw [commitRemoved_eq]
  generalize supersedeAt k (undeferredAt k u) = t at superseded clear next mounted
  have without := superseded.retireMounted next hw (fun x hx => (clear x hx).1) fun x m hx hm => by
    obtain ⟨y, hy, hym⟩ := (mounted m).mp ⟨x, hx, hm⟩
    exact retired y m hy hym
  have emptied := retireMounted_current next.tables clear
  have dropped : Since D R v _ _ _ ((retireMounted k t).dropPos k) :=
    without.written_at rfl rfl rfl rfl (fun q hq => pos?_dropPos_of_ne hq) (by
      rw [pos?_dropPos, if_pos rfl]
      cases hy : (retireMounted k t).pos? k with
      | none => rfl
      | some y => exact (emptied y hy).symm)
  have met := dropped.attend (k := k) fun y hy => by
    rw [pos?_dropPos, if_pos rfl] at hy
    cases hy
  refine met.congr (fun _ => Iff.rfl) (fun q hq => ?_) fun m => Or.imp_right (mounted m).mpr
  exact hq.elim (fun hA => (em (q = k)).elim .inr fun e => .inl ⟨⟨⟨⟨hA, e⟩, e⟩, e⟩, e⟩) .inr

end Jobs

end Sys2Proof.Machine
end

section
/-! The position pass of a commit (R37 to R40). -/

namespace Sys2Proof.Machine

open State

variable {b : Gaps × State} {s t u v : State} {n : Nat} {k : PosKey} {x : Position} {pr : PressId} {staged : Table PosId Content}
  {edition : Nat} {done : List PosId} {q : PosId} {a : State × CommitCounts}

/-! ### What the pass is to do -/

/-- A position of the press whose content the pass revises, among those that it has come to. -/
def Revised (pr : PressId) (staged : Table PosId Content) (v : State) (done : List PosId) (k : PosKey) : Prop :=
  k.press = pr ∧ k.pos ∈ done ∧ liveContent v k ≠ tget staged k.pos

/-- A job that the commit supersedes (R39, R40). -/
def SupersededBy (pr : PressId) (staged : Table PosId Content) (v : State) (n : Nat) : Prop :=
  ∃ k x, v.pos? k = some x ∧ k.press = pr ∧ tget staged k.pos ≠ some x.content ∧ x.work.current = some n

/-- A job that the commit retires (R40). -/
def RetiredBy (pr : PressId) (staged : Table PosId Content) (v : State) (n : Nat) : Prop :=
  ∃ k x, v.pos? k = some x ∧ k.press = pr ∧ tget staged k.pos = none ∧ x.work.mounted = some n

/-- A job that it has retired. -/
def RetiredOf (pr : PressId) (staged : Table PosId Content) (v : State) (done : List PosId) (n : Nat) : Prop :=
  ∃ k x, Revised pr staged v done k ∧ v.pos? k = some x ∧ tget staged k.pos = none ∧ x.work.mounted = some n

/-- The record of a position with a new content. -/
def revisedPosition (edition : Nat) (con : Content) (x : Option Position) : Position :=
  (x.map fun x => { x with content := con, edition := edition }).getD ⟨con, edition, false, ⟨none, none, false, false, false⟩⟩

/-- The counts of the positions that the pass has come to (R37). -/
def passedCounts (pr : PressId) (staged : Table PosId Content) (v : State) (pages : Nat) (done : List PosId) : CommitCounts :=
  let at' := fun f : PosId → Bool => (done.filter f).length
  ⟨at' fun q => decide ((v.pos? ⟨pr, q⟩).map Position.content = tget staged q) && (tget staged q).isSome,
    at' fun q => (v.pos? ⟨pr, q⟩).isSome && (tget staged q).isSome && !decide ((v.pos? ⟨pr, q⟩).map Position.content = tget staged q),
    at' fun q => (v.pos? ⟨pr, q⟩).isNone && (tget staged q).isSome,
    at' fun q => (v.pos? ⟨pr, q⟩).isSome && (tget staged q).isNone, pages, 0⟩

/-- The pass has come to some positions. -/
structure Passed (b : Gaps × State) (pr : PressId) (staged : Table PosId Content) (edition pages : Nat) (v : State) (done : List PosId)
    (a : State × CommitCounts) : Prop where
  chain : At True False b (Gaps.committing pr) a.1
  since : Since (fun n => SupersededBy pr staged v n ∨ RetiredBy pr staged v n) (RetiredBy pr staged v) v
    (fun k => ¬ Revised pr staged v done k) (Revised pr staged v done) (RetiredOf pr staged v done) a.1
  kept : KeptBeside v a.1
  ports : PortsKept v a.1
  stages : a.1.stages = v.stages
  presses : ∀ p, PressKept (v.press p) (a.1.press p)
  bystands : ∀ k, ¬ Revised pr staged v done k → Bystands k v a.1
  gone : ∀ k, Revised pr staged v done k → tget staged k.pos = none → a.1.pos? k = none
  made : ∀ k con, Revised pr staged v done k → tget staged k.pos = some con →
    ∃ y, a.1.pos? k = some y ∧ PositionKept (revisedPosition edition con (v.pos? k)) y
  counts : a.2 = passedCounts pr staged v pages done

theorem passedCounts_append (pages : Nat) (done : List PosId) (q : PosId) : passedCounts pr staged v pages (done ++ [q]) =
    (commitOne ⟨pr, q⟩ edition (commitOutcome (liveContent v ⟨pr, q⟩) (tget staged q)) (s, passedCounts pr staged v pages done)).2 := by
  have one (f : PosId → Bool) : ((done ++ [q]).filter f).length = (done.filter f).length + (f q).toNat := by
    rw [List.filter_append, List.length_append]
    cases h : f q <;> simp [h]
  unfold passedCounts liveContent
  simp only [one]
  cases hx : v.pos? ⟨pr, q⟩ with
  | none =>
    cases hs : tget staged q with
    | none => rfl
    | some con => rfl
  | some x =>
    cases hs : tget staged q with
    | none => rfl
    | some con =>
      by_cases same : x.content = con
      · simp [commitOutcome, commitOne, same]
      · simp [commitOutcome, commitOne, same]

theorem revised_append {k : PosKey} : Revised pr staged v (done ++ [q]) k ↔
    Revised pr staged v done k ∨ (k = ⟨pr, q⟩ ∧ liveContent v k ≠ tget staged k.pos) := by
  unfold Revised
  rw [List.mem_append, List.mem_singleton]
  constructor
  · rintro ⟨hp, mem | rfl, differs⟩
    · exact .inl ⟨hp, mem, differs⟩
    · exact .inr ⟨by rw [← hp], differs⟩
  · rintro (⟨hp, mem, differs⟩ | ⟨rfl, differs⟩)
    · exact ⟨hp, .inl mem, differs⟩
    · exact ⟨rfl, .inr rfl, differs⟩

/-- What the pass has retired is no job of the position at hand. -/
theorem retiredOf_unended (o : Owned v) (placed : Placed v) (fresh : q ∉ done) : ∀ m, RetiredOf pr staged v done m → ∀ x, v.pos? ⟨pr, q⟩ = some x →
    x.work.current ≠ some m := by
  rintro m ⟨k, y, r, hy, -, mounted⟩ x hx current
  obtain ⟨i, hi, key, -⟩ := placed.mounted k y m hy mounted
  obtain ⟨j, hj, key'⟩ := o _ x m hx current
  cases hi.symm.trans hj
  have here : k = ⟨pr, q⟩ := key.symm.trans key'
  rw [here] at r
  exact fresh r.2.1

namespace Passed

variable {pages : Nat} (h : Passed b pr staged edition pages v done a)

include h

/-- The position at hand is as it was. -/
theorem at_hand (fresh : q ∉ done) : Bystands ⟨pr, q⟩ v a.1 := h.bystands _ fun r => fresh r.2.1

theorem live_at_hand (fresh : q ∉ done) : liveContent a.1 ⟨pr, q⟩ = liveContent v ⟨pr, q⟩ := by
  have stands := h.at_hand fresh
  unfold liveContent
  cases hx : v.pos? ⟨pr, q⟩ with
  | none => rw [stands.absent hx]
  | some x =>
    obtain ⟨y, hy, ⟨content, -⟩, -⟩ := stands.stays x hx
    rw [hy, Option.map_some, Option.map_some, content]

/-- A position whose content stays. -/
theorem leave (same : liveContent v ⟨pr, q⟩ = tget staged q) {n : CommitCounts} (hn : n = passedCounts pr staged v pages (done ++ [q])) :
    Passed b pr staged edition pages v (done ++ [q]) (a.1, n) := by
  have alike (k : PosKey) : Revised pr staged v (done ++ [q]) k ↔ Revised pr staged v done k := by
    rw [revised_append]
    refine ⟨fun r => r.resolve_right ?_, .inl⟩
    rintro ⟨rfl, differs⟩
    exact differs same
  refine ⟨h.chain, h.since.congr (fun k => not_congr (alike k)) (fun k => (alike k).mp) ?_, h.kept, h.ports, h.stages,
    h.presses,
    fun k out => h.bystands k fun r => out ((alike k).mpr r), fun k r => h.gone k ((alike k).mp r), fun k con r => h.made k con ((alike k).mp r), hn⟩
  rintro m ⟨k, x, r, rest⟩
  exact ⟨k, x, (alike k).mp r, rest⟩

/-- A position is revised. -/
theorem revise (fresh : q ∉ done) (differs : liveContent v ⟨pr, q⟩ ≠ tget staged q) {n : CommitCounts}
    (hn : n = passedCounts pr staged v pages (done ++ [q])) (next : At True False b (Gaps.committing pr) t) (revises : Revises ⟨pr, q⟩ a.1 t)
    {E : Nat → Prop} (since : Since (fun n => SupersededBy pr staged v n ∨ RetiredBy pr staged v n) (RetiredBy pr staged v) v
      (fun k => ¬ Revised pr staged v done k ∧ k ≠ ⟨pr, q⟩) (fun k => Revised pr staged v done k ∨ k = ⟨pr, q⟩) E t)
    (ended : ∀ m, RetiredOf pr staged v (done ++ [q]) m → E m) (gone : tget staged q = none → t.pos? ⟨pr, q⟩ = none)
    (made : ∀ con, tget staged q = some con → ∃ y, t.pos? ⟨pr, q⟩ = some y ∧
      PositionKept (revisedPosition edition con (v.pos? ⟨pr, q⟩)) y) : Passed b pr staged edition pages v (done ++ [q]) (t, n) := by
  have either (k : PosKey) : Revised pr staged v (done ++ [q]) k ↔ Revised pr staged v done k ∨ k = ⟨pr, q⟩ := by
    rw [revised_append]
    exact or_congr_right ⟨And.left, fun e => ⟨e, by rw [e]; exact differs⟩⟩
  have before {k : PosKey} (r : Revised pr staged v done k) : k ≠ ⟨pr, q⟩ := by
    rintro rfl
    exact fresh r.2.1
  refine ⟨next, since.congr (fun k => (not_congr (either k)).trans not_or) (fun k => (either k).mp) ended, revises.beside v h.kept, h.ports.trans revises.ports,
    revises.stages.trans h.stages, fun p => (h.presses p).trans (revises.presses p), fun k out => ?_, fun k r hs => ?_, fun k con r hs => ?_, hn⟩
  · obtain ⟨out, other⟩ := not_or.mp fun r => out ((either k).mpr r)
    exact (h.bystands k out).trans (revises.others k other)
  · rcases (either k).mp r with r | rfl
    · exact (revises.others k (before r)).absent (h.gone k r hs)
    · exact gone hs
  · rcases (either k).mp r with r | rfl
    · obtain ⟨y, hy, kept⟩ := h.made k con r hs
      obtain ⟨z, hz, kept', -⟩ := (revises.others k (before r)).stays y hy
      exact ⟨z, hz, kept.trans kept'⟩
    · exact made con hs

/-- One position of the pass. -/
theorem one (o : Owned v) (placed : Placed v) (fresh : q ∉ done) : Passed b pr staged edition pages v (done ++ [q])
    (commitOne ⟨pr, q⟩ edition (commitOutcome (liveContent a.1 ⟨pr, q⟩) (tget staged q)) a) := by
  obtain ⟨u, n⟩ := a
  have hn : n = passedCounts pr staged v pages done := h.counts
  have counts := passedCounts_append (s := u) (edition := edition) (pr := pr) (staged := staged) (v := v) pages done q
  rw [← hn] at counts
  have live := h.live_at_hand fresh
  have unended := retiredOf_unended (pr := pr) (staged := staged) o placed fresh
  rw [live]
  have here := h.at_hand fresh
  have taken (differs : liveContent v ⟨pr, q⟩ ≠ tget staged q) (x : Position) (m : Nat) (hx : v.pos? ⟨pr, q⟩ = some x)
      (hm : x.work.current = some m) : SupersededBy pr staged v m ∨ RetiredBy pr staged v m := by
    refine .inl ⟨_, x, hx, rfl, fun e => differs ?_, hm⟩
    unfold liveContent
    rw [hx]
    exact e.symm
  have endedBefore (k : PosKey) (x : Position) (r : Revised pr staged v (done ++ [q]) k) (other : k ≠ ⟨pr, q⟩) : Revised pr staged v done k :=
    (revised_append.mp r).resolve_right fun e => other e.1
  cases hx : v.pos? ⟨pr, q⟩ with
  | none =>
    have live' : liveContent v ⟨pr, q⟩ = none := by unfold liveContent; rw [hx]; rfl
    rw [live'] at counts taken ⊢
    cases hs : tget staged q with
    | none =>
      rw [hs] at counts
      exact h.leave (live'.trans hs.symm) counts.symm
    | some con =>
      rw [hs] at counts
      have differs : liveContent v ⟨pr, q⟩ ≠ tget staged q := by rw [live', hs]; exact nofun
      have absent := here.absent hx
      have since := commitAdded_since h.since h.chain trivial rfl absent edition con
      refine h.revise fresh differs counts.symm (commitAdded_at h.chain rfl absent edition con) (commitAdded_revises h.chain rfl absent edition con) since ?_
        (fun e => by cases hs.symm.trans e) fun con' e => ?_
      · rintro m ⟨k, x, r, hk, e, mounted⟩
        refine ⟨k, x, endedBefore k x r ?_, hk, e, mounted⟩
        rintro rfl
        cases hx.symm.trans hk
      · cases hs.symm.trans e
        rw [hx]
        exact commitAdded_here h.chain.tables edition con
  | some x =>
    have live' : liveContent v ⟨pr, q⟩ = some x.content := by unfold liveContent; rw [hx]; rfl
    obtain ⟨z, hz, kept, -⟩ := here.stays x hx
    rw [live'] at counts taken ⊢
    cases hs : tget staged q with
    | none =>
      rw [hs] at counts
      have differs : liveContent v ⟨pr, q⟩ ≠ tget staged q := by rw [live', hs]; exact nofun
      have mounted (y : Position) (m : Nat) (hy : u.pos? ⟨pr, q⟩ = some y) (hm : y.work.mounted = some m) : x.work.mounted = some m := by
        cases hz.symm.trans hy
        exact kept.2.2.2.symm.trans hm
      have since := commitRemoved_since h.since h.chain trivial o placed (fun y m hy hm => taken (by rw [hs]; exact nofun) y m hy hm) unended
        fun y m hy hm => by
          have retired : RetiredBy pr staged v m := ⟨_, x, hx, rfl, hs, mounted y m hy hm⟩
          exact ⟨retired, .inr retired⟩
      refine h.revise fresh differs counts.symm (commitRemoved_at h.chain rfl) (commitRemoved_revises h.chain trivial) since ?_ (fun _ => commitRemoved_here)
        fun con e => by cases hs.symm.trans e
      rintro m ⟨k, y, r, hk, e, hm⟩
      by_cases other : k = ⟨pr, q⟩
      · subst other
        cases hx.symm.trans hk
        exact .inr ⟨z, hz, kept.2.2.2.trans hm⟩
      · exact .inl ⟨k, y, endedBefore k y r other, hk, e, hm⟩
    | some con =>
      by_cases same : x.content = con
      · subst same
        have outcome : commitOutcome (some x.content) (some x.content) = .unchanged := if_pos rfl
        rw [hs, outcome] at counts
        rw [outcome]
        exact h.leave (live'.trans hs.symm) counts.symm
      · have outcome : commitOutcome (some x.content) (some con) = .changed con := if_neg same
        have differs' : some x.content ≠ tget staged q := by rw [hs]; exact fun e => same (Option.some.inj e)
        rw [hs, outcome] at counts
        rw [outcome]
        have since := commitChanged_since h.since h.chain trivial o placed rfl edition con (taken differs') unended
        refine h.revise fresh (by rw [live']; exact differs') counts.symm (commitChanged_at h.chain rfl edition con)
          (commitChanged_revises h.chain trivial rfl edition con) since ?_
          (fun e => by cases hs.symm.trans e) fun con' e => ?_
        · rintro m ⟨k, y, r, hk, e, hm⟩
          refine ⟨k, y, endedBefore k y r ?_, hk, e, hm⟩
          rintro rfl
          cases hs.symm.trans e
        · cases hs.symm.trans e
          obtain ⟨y, hy, kept'⟩ := commitChanged_here h.chain rfl edition con hz
          obtain ⟨-, -, held, mounted⟩ := kept
          rw [hx]
          exact ⟨y, hy, PositionKept.trans (y := { z with content := con, edition := edition }) ⟨rfl, rfl, held, mounted⟩ kept'⟩

/-- Some positions of the pass. -/
theorem more (o : Owned v) (placed : Placed v) (todo : List PosId) (distinct : (done ++ todo).Nodup) :
    Passed b pr staged edition pages v (done ++ todo) (todo.foldl (fun a q =>
      commitOne ⟨pr, q⟩ edition (commitOutcome (liveContent a.1 ⟨pr, q⟩) (tget staged q)) a) a) := by
  induction todo generalizing done a with
  | nil =>
    rw [List.append_nil]
    exact h
  | cons q todo ih =>
    have fresh : q ∉ done := fun mem => (List.nodup_append.mp distinct).2.2 q mem q (by simp) rfl
    have step := h.one o placed fresh
    rw [List.foldl_cons, List.append_cons]
    rw [List.append_cons] at distinct
    exact ih step distinct

end Passed

end Sys2Proof.Machine
end

section
/-! COMMIT_PLAN (R36 to R41): the end of a commit, and what a commit that is taken makes of the state. -/

namespace Sys2Proof.Machine

open State

variable {s t u v : State} {n : Nat} {k : PosKey} {x : Position} {pr : PressId} {edition : Nat} {p : PortId}

/-! ### The counts of a press, taken afresh -/

/-- What of a press's positions a stage copies. -/
def copied (s : State) (pr : PressId) : List (PosId × Content) := (s.positionsOf pr).map fun e => (e.1.pos, e.2.content)

/-- Only the standings of positions change. -/
structure Retold (s t : State) : Prop where
  stands : ∀ k, StandsAs k s t
  absent : ∀ k, s.pos? k = none → t.pos? k = none
  copied : ∀ pr, copied t pr = copied s pr

namespace Retold

theorem of_plan (h : t.plan = s.plan) : Retold s t :=
  ⟨fun _ => .of_plan h, fun _ none => (pos?_of_plan h).trans none, fun pr => by unfold Machine.copied State.positionsOf; rw [h]⟩

theorem trans (h : Retold s u) (r : Retold u t) : Retold s t :=
  ⟨fun k => (h.stands k).trans (r.stands k), fun k => r.absent k ∘ h.absent k, fun pr => (r.copied pr).trans (h.copied pr)⟩

theorem told (k : PosKey) (b : Bool) (s : State) : Retold s (s.modWork k fun w => { w with satisfied := b }) := by
  refine ⟨fun q x hx => ?_, fun q none => ?_, fun pr => ?_⟩
  · rw [pos?_modWork]
    split
    · exact ⟨b, by rw [hx]; rfl⟩
    · exact ⟨x.work.satisfied, hx⟩
  · rw [pos?_modWork]
    split
    · rw [none]; rfl
    · exact none
  · show ((tmod s.plan k fun x => { x with work := { x.work with satisfied := b } }).filter _).map _ = _
    unfold tmod Machine.copied State.positionsOf
    rw [List.filter_map, List.map_map]
    have keys : ((fun e : PosKey × Position => decide (e.1.press = pr)) ∘ fun e : PosKey × Position =>
        if e.1 = k then (e.1, { e.2 with work := { e.2.work with satisfied := b } }) else e) = fun e => decide (e.1.press = pr) := by
      funext e
      by_cases here : e.1 = k <;> simp [here]
    rw [keys]
    refine List.map_congr_left fun e _ => ?_
    by_cases here : e.1 = k <;> simp [here]

theorem refreshStanding (pr : PressId) (s : State) : Retold s (refreshStanding pr s) := by
  unfold Machine.refreshStanding
  generalize s.positionsOf pr = l
  induction l generalizing s with
  | nil => exact of_plan rfl
  | cons e l ih => exact (told e.1 (s.satisfied e.2) s).trans (ih _)

theorem evalPress (pr : PressId) (s : State) : Retold s (evalPress pr s) := by
  refine of_plan ?_
  rw [evalPress_eq, plan_raiseAll]
  rfl

/-- Its effect on a run of events. -/
theorem since {D R E : Nat → Prop} {W A : PosKey → Prop} (h : Retold u t) (since : Since D R v W A E u) (entry : t.entryCount = u.entryCount)
    (jobs : t.jobs = u.jobs) (engines : t.engines = u.engines) (pages : t.pages = u.pages) : Since D R v W A E t := by
  refine since.written entry jobs engines (fun q m => ⟨?_, ?_⟩) fun q hq => ⟨hq, fun a => ?_⟩
  · rintro ⟨y, hy, hm⟩
    obtain ⟨x, hx, same⟩ := Bides.before ⟨h.stands q, h.absent q, .of_eq pages⟩ hy
    rw [same] at hm
    exact ⟨x, hx, hm⟩
  · rintro ⟨x, hx, hm⟩
    obtain ⟨b, hb⟩ := h.stands q x hx
    exact ⟨_, hb, hm⟩
  · exact a.bides ⟨h.stands q, h.absent q, .of_eq pages⟩ (by rw [jobs])

end Retold

/-- A press with its counts taken afresh. -/
def countedPress (s : State) (pr : PressId) (x : Press) : Press :=
  let n := (s.positionsOf pr).length
  let m := ((s.positionsOf pr).filter fun e => !satisfies s e.2).length
  { x with positions := n, unsatisfied := m, state := countedState n m }

/-- The counts of a press that is not RUNNING have been taken afresh. -/
structure Recounted (pr : PressId) (s t : State) : Prop where
  rest : t = { s with plan := t.plan, presses := t.presses, ports := t.ports }
  retold : Retold s t
  ports : PortsKept s t
  others : ∀ q, q ≠ pr → t.press q = s.press q
  press : t.press pr = countedPress t pr (s.press pr)

theorem refreshStanding_presses (pr : PressId) (s : State) : (refreshStanding pr s).presses = s.presses :=
  foldl_keeps State.presses (s.positionsOf pr) fun _ _ => rfl

theorem refreshCounts_recounted (pr : PressId) (s : State) (idle : (s.press pr).state ≠ .running) : Recounted pr s (refreshCounts pr s) := by
  have first := Retold.refreshStanding pr s
  have presses := refreshStanding_presses pr s
  obtain ⟨plan, press', ports, same⟩ := refreshCounts_parts pr s
  have told : PortsKept s (refreshStanding pr s) := .of_eq (foldl_keeps State.ports (s.positionsOf pr) fun _ _ => rfl)
  unfold refreshCounts at same ⊢
  dsimp only at same ⊢
  generalize refreshStanding pr s = u at first presses told same ⊢
  have before (q : PressId) : u.press q = s.press q := by unfold State.press; rw [presses]
  set f : Press → Press := fun x =>
    { x with positions := (u.positionsOf pr).length, unsatisfied := ((u.positionsOf pr).filter fun e => !u.satisfied e.2).length } with hf
  have counted (q : PressId) : (u.modPress pr f).press q = if q = pr then f (s.press q) else s.press q := by
    rw [press_modPress, before]
  have planned : (evalPress pr (u.modPress pr f)).plan = u.plan := by
    rw [evalPress_eq, plan_raiseAll]
    rfl
  have resting : ((u.modPress pr f).press pr).state ≠ .running := by
    rw [counted, if_pos rfl]
    exact idle
  refine ⟨?_, first.trans (.trans (u := u.modPress pr f) (.of_plan rfl) (.evalPress pr _)), told.trans ?_, fun q other => ?_, ?_⟩
  · rw [same]
  · rw [evalPress_eq]
    exact PortsKept.trans (t := (u.modPress pr f).setPressState pr _) (.of_eq rfl) (raiseAll_kept _ _)
  · rw [press_evalPress, if_neg fun e => other e.1, counted, if_neg other]
  · have positions : (evalPress pr (u.modPress pr f)).positionsOf pr = u.positionsOf pr := by unfold State.positionsOf; rw [planned]
    have sat (y : Position) : satisfies (evalPress pr (u.modPress pr f)) y = u.satisfied y := by
      rw [State.satisfied_eq_satisfies]
      rw [evalPress_eq]
      have raised := Still.raisedAll (pressNotice pr ((u.modPress pr f).press pr))
        ((u.modPress pr f).setPressState pr (pressStateOf ((u.modPress pr f).press pr)))
      exact satisfies_of_eq raised.jobs raised.pages y
    rw [press_evalPress, if_pos ⟨rfl, resting⟩, counted, if_pos rfl]
    unfold countedPress
    simp only [positions, sat]
    rfl

end Sys2Proof.Machine
end

section
/-! COMMIT_PLAN that is taken (R36 to R41). -/

namespace Sys2Proof.Machine

open State

variable {s t u v : State} {n : Nat} {k : PosKey} {x : Position} {pr : PressId} {edition : Nat} {p : PortId} {b : Gaps × State}
  {staged : Table PosId Content} {pages : Nat} {a : State × CommitCounts}

/-! ### The end of a commit (R41) -/

/-- The press has its edition, and its stage is a copy of its plan. -/
def editedAt (pr : PressId) (edition : Nat) (s : State) : State :=
  let u := s.modPress pr fun x => { x with edition := some edition, window := false, late := false }
  u.setStage pr (stageCopy u pr)

/-- How many positions of a press are deferred. -/
def deferredCount (s : State) (pr : PressId) : Nat := ((s.positionsOf pr).filter fun e => e.2.work.deferred).length

/-- The counts that a commit tells. -/
def toldCounts (pr : PressId) (t : State) (n : CommitCounts) : CommitCounts := { n with deferred := deferredCount t pr }

theorem commitEnd_eq (p : PortId) (pr : PressId) (edition : Nat) (a : State × CommitCounts) : commitEnd p pr edition a =
    (raise (.planCommitted pr edition (toldCounts pr (refreshCounts pr (editedAt pr edition a.1)) a.2) p)
        (refreshCounts pr (editedAt pr edition a.1)),
      okWith ([.press pr, .edition edition] ++ commitFields (toldCounts pr (refreshCounts pr (editedAt pr edition a.1)) a.2))) := rfl

/-- What the end of a commit makes of the state that its pass leaves. -/
structure CommitEnds (pr : PressId) (edition : Nat) (s t : State) : Prop where
  rest : t = { s with plan := t.plan, presses := t.presses, stages := t.stages, ports := t.ports }
  retold : Retold s t
  ports : PortsKept s t
  stage : t.stage pr = ⟨none, copied t pr⟩
  stages : ∀ q, q ≠ pr → t.stage q = s.stage q
  others : ∀ q, q ≠ pr → t.press q = s.press q
  press : t.press pr = countedPress t pr { s.press pr with edition := some edition, window := false, late := false }

theorem refreshCounts_ends (pr : PressId) (edition : Nat) (s : State) (idle : (s.press pr).state ≠ .running) :
    CommitEnds pr edition s (refreshCounts pr (editedAt pr edition s)) := by
  have edited (q : PressId) : (editedAt pr edition s).press q =
      if q = pr then { s.press q with edition := some edition, window := false, late := false } else s.press q :=
    press_modPress pr _ s q
  have stage (q : PressId) : (editedAt pr edition s).stage q = if q = pr then ⟨none, copied s pr⟩ else s.stage q :=
    stage_setStage pr _ _ q
  have first : Retold s (editedAt pr edition s) := .of_plan rfl
  have counted := refreshCounts_recounted pr (editedAt pr edition s) (by rw [edited, if_pos rfl]; exact idle)
  generalize refreshCounts pr (editedAt pr edition s) = t at counted
  have stages : t.stages = (editedAt pr edition s).stages := by rw [counted.rest]
  have stage' (q : PressId) : t.stage q = (editedAt pr edition s).stage q := by unfold State.stage; rw [stages]
  refine ⟨?_, first.trans counted.retold, PortsKept.trans (.of_eq rfl) counted.ports, ?_, fun q hq => ?_, fun q hq => ?_, ?_⟩
  · obtain ⟨plan, presses, ports, same⟩ : ∃ plan presses ports,
        t = { editedAt pr edition s with plan := plan, presses := presses, ports := ports } := ⟨_, _, _, counted.rest⟩
    rw [same]
    rfl
  · rw [stage', stage, if_pos rfl, (first.trans counted.retold).copied pr]
  · rw [stage', stage, if_neg hq]
  · rw [counted.others q hq, edited, if_neg hq]
  · rw [counted.press, edited, if_pos rfl]

/-- The notice changes the ports alone. -/
theorem CommitEnds.raised (h : CommitEnds pr edition s t) (n : Notice) : CommitEnds pr edition s (raise n t) := by
  have plan : (raise n t).plan = t.plan := plan_raise n t
  have positions : (raise n t).positionsOf pr = t.positionsOf pr := by unfold State.positionsOf; rw [plan]
  have sat (x : Position) : satisfies (raise n t) x = satisfies t x :=
    satisfies_of_eq (Still.raised n t).jobs (Still.raised n t).pages x
  have copied' : copied (raise n t) pr = copied t pr := by unfold copied; rw [positions]
  have press (q : PressId) : (raise n t).press q = t.press q := by rw [raise_same n t]; rfl
  have stage (q : PressId) : (raise n t).stage q = t.stage q := by rw [raise_same n t]; rfl
  refine ⟨?_, h.retold.trans (.of_plan plan), h.ports.trans (raise_kept n t), ?_, fun q hq => (stage q).trans (h.stages q hq),
    fun q hq => (press q).trans (h.others q hq), ?_⟩
  · rw [raise_same n t]
    have rest := h.rest
    generalize t.plan = a at rest
    generalize t.presses = b at rest
    generalize t.stages = c at rest
    generalize t.ports = d at rest
    rw [rest]
  · rw [stage, h.stage, copied']
  · rw [press, h.press]
    unfold countedPress
    simp only [positions, sat]

/-! ### Pages that are expected (R5) -/

/-- The pages of a plan that have no record become EXPECTED. -/
def expecting (l : List Nat) (s : State) : State := l.foldl (fun s n => s.putPage n expectedPage) s

theorem expecting_eq (l : List Nat) (s : State) : expecting l s = { s with pages := (expecting l s).pages } := by
  unfold expecting
  induction l generalizing s with
  | nil => rfl
  | cons n l ih =>
    rw [List.foldl_cons]
    exact ih (s.putPage n expectedPage)

theorem expecting_pages (l : List Nat) (h : t.pages = s.pages) : (expecting l t).pages = (expecting l s).pages := by
  unfold expecting
  induction l generalizing s t with
  | nil => exact h
  | cons n l ih =>
    rw [List.foldl_cons, List.foldl_cons]
    refine ih ?_
    show tput _ t.pages n _ = tput _ s.pages n _
    rw [h]

/-! ### A commit -/

theorem commit_eq (p : PortId) (pr : PressId) (edition : Nat) (new : List Nat) (s : State) : commit p pr edition new s =
    commitEnd p pr edition (commitPass pr edition (s.stage pr).entries (expecting new s, ⟨0, 0, 0, 0, new.length, 0⟩)) := rfl

/-- A commit whose tests it passes. -/
theorem reqCommitPlan_taken {c e : Byte} (hb : pressOf c = some pr) (he : e.toNat ≠ 0)
    (hh : (s.stage pr).holder = none ∨ (s.stage pr).holder = some p) (hr : (s.press pr).state ≠ .running)
    (room : s.pages.length + (newPageIds s (s.stage pr)).length ≤ 512) :
    reqCommitPlan p c e s = commit p pr e.toNat (newPageIds s (s.stage pr)) s := by
  have free : ¬ freePages s < (newPageIds s (s.stage pr)).length := by
    change ¬ 512 - s.pages.length < _
    omega
  simp only [reqCommitPlan, hb, if_neg he, heldByOther_eq_false hh, Bool.false_eq_true, if_false, if_neg hr, if_neg free]

/-- The pass of a commit begins. -/
theorem passed_start (c : At True False b (Gaps.committing pr) v) (pages : Nat) :
    Passed b pr staged edition pages v [] (v, ⟨0, 0, 0, 0, pages, 0⟩) := by
  have none (k : PosKey) : ¬ Revised pr staged v [] k := fun r => nomatch r.2.1
  refine ⟨c, (Since.start v).congr (fun k => iff_true_intro (none k)) (fun k r => none k r) ?_, .refl v, .refl v, rfl, fun _ => .refl _,
    fun _ _ => .of_same rfl, fun k r => absurd r (none k), fun k _ r => absurd r (none k), rfl⟩
  rintro m ⟨k, x, r, -⟩
  exact none k r

theorem passed_all (c : At True False b (Gaps.committing pr) v) (placed : Placed v) (pages : Nat) :
    Passed b pr staged edition pages v allPositions (commitPass pr edition staged (v, ⟨0, 0, 0, 0, pages, 0⟩)) :=
  (passed_start c pages).more (c.owned trivial) placed allPositions (List.nodup_finRange 64)

/-- A position of the press is revised by the whole pass where its content differs. -/
theorem revised_all_iff : Revised pr staged v allPositions k ↔ k.press = pr ∧ liveContent v k ≠ tget staged k.pos :=
  ⟨fun ⟨hp, _, differs⟩ => ⟨hp, differs⟩, fun ⟨hp, differs⟩ => ⟨hp, List.mem_finRange _, differs⟩⟩

/-- What a commit makes of the state in which its pages are expected. -/
structure Committed (p : PortId) (pr : PressId) (staged : Table PosId Content) (edition : Nat) (v t : State) : Prop where
  kept : KeptBeside v t
  owned : Owned t
  since : Since (fun n => SupersededBy pr staged v n ∨ RetiredBy pr staged v n) (RetiredBy pr staged v) v
    (fun k => ¬ Revised pr staged v allPositions k) (Revised pr staged v allPositions) (RetiredOf pr staged v allPositions) t
  ports : PortsKept v t
  bystands : ∀ k, ¬ Revised pr staged v allPositions k → Bystands k v t
  gone : ∀ k, Revised pr staged v allPositions k → tget staged k.pos = none → t.pos? k = none
  made : ∀ k con, Revised pr staged v allPositions k → tget staged k.pos = some con →
    ∃ y, t.pos? k = some y ∧ PositionKept (revisedPosition edition con (v.pos? k)) y
  stage : t.stage pr = ⟨none, copied t pr⟩
  stages : ∀ q, q ≠ pr → t.stage q = v.stage q
  presses : ∀ q, q ≠ pr → PressKept (v.press q) (t.press q)
  press : t.press pr = countedPress t pr { v.press pr with edition := some edition, window := false, late := false }

/-- The end of a commit, after its pass. -/
theorem Passed.ends (h : Passed b pr staged edition pages v allPositions a) (done : At True False b Gaps.closed t)
    (e : CommitEnds pr edition a.1 t) : Committed p pr staged edition v t := by
  have beside : KeptBeside v t := by
    obtain ⟨plan, presses, stages, ports, same⟩ : ∃ plan presses stages ports,
        t = { a.1 with plan := plan, presses := presses, stages := stages, ports := ports } := ⟨_, _, _, _, e.rest⟩
    rw [same]
    have desk : KeptByReacting a.1 { a.1 with ports := ports } := { KeptByReacting.refl a.1 with }
    exact (h.kept.reacts desk).written rfl
  have stands (k : PosKey) : Bystands k a.1 t := by
    refine ⟨e.retold.absent k, fun x hx => ?_⟩
    obtain ⟨b, hb⟩ := e.retold.stands k x hx
    exact ⟨_, hb, ⟨rfl, rfl, rfl, rfl⟩, fun _ => rfl⟩
  have since := e.retold.since h.since (by rw [e.rest]) (by rw [e.rest]) (by rw [e.rest]) (by rw [e.rest])
  refine ⟨beside, done.owned trivial, since, h.ports.trans e.ports, fun k out => (h.bystands k out).trans (stands k),
    fun k r hs => (stands k).absent (h.gone k r hs), fun k con r hs => ?_, e.stage, fun q hq => ?_, fun q hq => ?_, ?_⟩
  · obtain ⟨y, hy, kept⟩ := h.made k con r hs
    obtain ⟨z, hz, kept', -⟩ := (stands k).stays y hy
    exact ⟨z, hz, kept.trans kept'⟩
  · rw [e.stages q hq]
    unfold State.stage
    rw [h.stages]
  · rw [e.others q hq]
    exact h.presses q
  · obtain ⟨same, -⟩ := h.presses pr
    rw [e.press, same]
    rfl

/-- A supersede is one since any state of the same jobs. -/
theorem Superseded.since_same (h : Superseded n v t) (entry : v.entryCount = s.entryCount) (jobs : v.jobs = s.jobs)
    (engines : v.engines = s.engines) : Superseded n s t := by
  intro j hj
  have engine : ∀ e, v.engine e = s.engine e := engine_of_engines engines
  obtain ⟨waits, assigned, unsent, sent, later⟩ := h j ((congrArg (tget · n) jobs).trans hj)
  simp only [engine] at unsent sent
  exact ⟨fun e => (waits e).since entry.ge, fun e => (assigned e).imp_left fun e => e.since entry.ge, fun e l => (unsent e l).since entry.ge,
    sent, later⟩

/-- Settles O24: the pass revises the positions of the press one after another, each with what becomes of its jobs, and the press
is counted afresh at its end. -/
theorem commitTaken : Obligations.CommitTaken := by
  intro p tag pr edition s hfree htab hplaced hright hed hheld hidle staged new superseded retired hroom
  set rec : Received := ⟨tag, 6, .sound (.commitPlan (byteOf pr.val) edition)⟩
  set h : State := holding p rec s
  set v : State := expecting new h with hv
  set a : State × CommitCounts := commitPass pr edition.toNat staged (v, ⟨0, 0, 0, 0, new.length, 0⟩) with ha
  have vEq : v = { h with pages := (expecting new s).pages } := by
    rw [hv, expecting_eq, expecting_pages new (t := h) (s := s) rfl]
  have number : edition.toNat ≠ 0 := fun zero => hed (BitVec.eq_of_toNat_eq zero)
  have heldTables : Tables h := ⟨htab.pages, htab.slots, htab.plan, htab.stages, htab.jobs, htab.racks⟩
  have start : At True False (Gaps.closed, h) Gaps.closed h :=
    .start heldTables (fun _ => RegistersOnly.placed (s := s) (t := h) rfl hplaced) False.elim
  have committing : { Gaps.closed with press := fun q => Gaps.closed.press q ∨ q = pr } = Gaps.committing pr :=
    Gaps.ext (fun _ => Iff.rfl) (fun _ => Iff.rfl) (fun _ => Iff.rfl) rfl (fun _ => Iff.rfl) (fun _ => Iff.rfl)
      (fun _ => ⟨fun e => e.resolve_left id, .inr⟩) fun _ => Iff.rfl
  have opened : At True False (Gaps.closed, h) (Gaps.committing pr) v :=
    ((putExpected_at new start (newPageIds_nodup s (s.stage pr)) fun n => newPageIds_new (s := s)).deed (.commit _ _ pr)).same committing
  have placed : Placed v := by
    rw [vEq]
    exact RegistersOnly.placed (s := s) rfl hplaced
  have passed : Passed (Gaps.closed, h) pr staged edition.toNat new.length v allPositions a := passed_all opened placed new.length
  have idle : (a.1.press pr).state ≠ .running := fun running => hidle (by
    have before := (passed.presses pr).2.mp running
    rw [vEq] at before
    exact before)
  set u : State := refreshCounts pr (editedAt pr edition.toNat a.1)
  have ends : CommitEnds pr edition.toNat a.1 u := refreshCounts_ends pr edition.toNat a.1 idle
  have counts : toldCounts pr u a.2 = { passedCounts pr staged v new.length allPositions with deferred := deferredCount u pr } := by
    rw [passed.counts]
    rfl
  have done := commitEnd_at passed.chain p edition.toNat
  have result : applyRequest p (.commitPlan (byteOf pr.val) edition) h = _ :=
    ((reqCommitPlan_taken (s := h) (pressOf_byteOf pr) number hheld hidle hroom).trans (commit_eq p pr edition.toNat new h)).trans
      (commitEnd_eq p pr edition.toNat a)
  rw [commitEnd_eq] at done
  set m : CommitCounts := toldCounts pr u a.2
  set t : State := raise (.planCommitted pr edition.toNat m p) u with ht
  have deferred : deferredCount u pr = deferredCount t pr := by
    unfold deferredCount State.positionsOf
    rw [ht, plan_raise]
  have raised : CommitEnds pr edition.toNat a.1 t := ends.raised (.planCommitted pr edition.toNat m p)
  have closed : At True False (Gaps.closed, h) Gaps.closed t := by
    dsimp only at done
    exact done
  have committed : Committed p pr staged edition.toNat v t := passed.ends closed raised
  have told : Told (.planCommitted pr edition.toNat m p) v t :=
    (told_raise _ u).since (passed.ports.trans ends.ports) (by
      have clock : u.clock = a.1.clock := by rw [ends.rest]
      exact clock.trans passed.kept.clock)
  rw [deferred] at counts
  clear_value m t u a v
  subst vEq counts
  obtain ⟨kept, owned, since, ports, bystands, gone, made, stage, stages, presses, press⟩ := committed
  have revised {k : PosKey} (hk : k.press = pr) (differs : (s.pos? k).map Position.content ≠ tget staged k.pos) :
      Revised pr staged _ allPositions k := revised_all_iff.mpr ⟨hk, differs⟩
  have left {k : PosKey} (same : k.press = pr → (s.pos? k).map Position.content = tget staged k.pos) : Bystands k s t :=
    have stands := bystands k fun r => (revised_all_iff.mp r).2 (same (revised_all_iff.mp r).1)
    ⟨stands.absent, stands.stays⟩
  have content {k : PosKey} {x : Position} (hx : s.pos? k = some x) : (s.pos? k).map Position.content = some x.content := by rw [hx]; rfl
  refine ⟨_, exec_applied (r := .commitPlan (byteOf pr.val) edition) hfree hright result, ?_, fun k hk => ?_, fun k hk hs => ?_,
    fun k con hk hs => ⟨fun x hx same => ?_, fun x hx differs => ?_, fun absent => ?_, fun differs => ?_⟩, fun n super out => ?_, fun n ret => ?_,
    fun n j out hj => since.others n j out hj, ⟨stage, stages⟩, presses, press, answeredAt_of (r := rec) rfl rfl ports,
    told.of_holding.answered p tag 6 _⟩
  · exact KeptByReacting.of_holding (p := p) (r := rec) (KeptByReacting.andLink kept p _)
  · have stands := left (k := k) fun e => absurd e hk
    refine ⟨stands.absent, fun x hx => ?_⟩
    obtain ⟨y, hy, kept, -⟩ := stands.stays x hx
    exact ⟨y, hy, kept⟩
  · by_cases live : s.pos? k = none
    · exact (left fun _ => by rw [live, hs]; rfl).absent live
    · obtain ⟨x, hx⟩ := Option.ne_none_iff_exists'.mp live
      exact gone k (revised hk (by rw [content hx, hs]; exact nofun)) hs
  · exact (left fun _ => (content hx).trans ((congrArg some same).trans hs.symm)).stays x hx
  · obtain ⟨y, hy, kept⟩ := made k con (revised hk (by rw [content hx, hs]; exact fun e => differs (Option.some.inj e))) hs
    have record : revisedPosition edition.toNat con (s.pos? k) = { x with content := con, edition := edition.toNat } := by rw [hx]; rfl
    exact ⟨y, hy, record ▸ kept⟩
  · obtain ⟨y, hy, kept⟩ := made k con (revised hk (by rw [absent, hs]; exact nofun)) hs
    have record : revisedPosition edition.toNat con (s.pos? k) = ⟨con, edition.toNat, false, ⟨none, none, false, false, false⟩⟩ := by
      rw [absent]
      rfl
    exact ⟨y, hy, record ▸ kept⟩
  · have r := revised hk (by rw [hs]; exact differs)
    exact ⟨(since.renewed owned (not_not_intro r)).since le_rfl, since.attended k r⟩
  · obtain ⟨k, x, hx, hk, differs, hn⟩ := super
    exact (since.superseded k x n (not_not_intro (revised hk (by rw [content hx]; exact differs.symm))) hx hn out).since_same rfl rfl rfl
  · obtain ⟨k, x, hx, hk, hs, hm⟩ := ret
    exact (since.ended n ⟨k, x, revised hk (by rw [content hx, hs]; exact nofun), hx, hs, hm⟩).since le_rfl

end Sys2Proof.Machine
end

section
/-! In whatever state the engines are served, they are left with nothing to take up, and the reached marks evaluated. -/

namespace Sys2Proof.Machine

open State

variable {s t u : State} {e : EngineId} {l : LaneId} {n : Nat} {j : Job}

/-! ### Nothing is offered that was not -/

/-- An engine record that takes up no work that it would not have taken up before. -/
structure EngineSlack (x y : Engine) : Prop where
  works : CanWork y → CanWork x
  cassette : y.cassette = x.cassette
  cancel : y.ctx.cancel = x.ctx.cancel
  next : y.ctx.next = none → x.ctx.next = none

/-- A job that is QUEUED was so before, with the same position, plate format and colour need. -/
def JobsSlack (s t : State) : Prop :=
  ∀ n j, t.job? n = some j → j.state = .queued →
    ∃ i, s.job? n = some i ∧ i.state = .queued ∧ i.key = j.key ∧ i.format = j.format ∧ i.colourNeed = j.colourNeed

/-- A position that was held is so still. -/
def HeldSlack (s t : State) : Prop :=
  ∀ k x, s.pos? k = some x → x.held = true → ∃ y, t.pos? k = some y ∧ y.held = true

/-- No job is offered that was not, and no engine takes one up that would not have. -/
structure Slack (s t : State) : Prop where
  jobs : JobsSlack s t
  held : HeldSlack s t
  engines : ∀ e, EngineSlack (s.engine e) (t.engine e)
  registers : ∀ e, (t.register e).state = (s.register e).state

theorem EngineSlack.refl (x : Engine) : EngineSlack x x := ⟨id, rfl, rfl, id⟩

theorem EngineSlack.trans {x y z : Engine} (h : EngineSlack x y) (k : EngineSlack y z) : EngineSlack x z :=
  ⟨h.works ∘ k.works, k.cassette.trans h.cassette, k.cancel.trans h.cancel, h.next ∘ k.next⟩

/-- Only the contexts change, the cancel list does not, and a next job does not go. -/
theorem EngineSlack.of_ctx {x : Engine} {c : Contexts} (cancel : c.cancel = x.ctx.cancel) (next : c.next = none → x.ctx.next = none) :
    EngineSlack x { x with ctx := c } := ⟨fun h => ⟨h.running, h.held, h.stopped, h.format, h.count⟩, rfl, cancel, next⟩

theorem JobsSlack.of_eq (h : t.jobs = s.jobs) : JobsSlack s t := fun n j hj hq =>
  ⟨j, by rw [← job?_of_jobs h]; exact hj, hq, rfl, rfl, rfl⟩

theorem JobsSlack.trans (h : JobsSlack s t) (k : JobsSlack t u) : JobsSlack s u := by
  intro n j hj hq
  obtain ⟨i, hi, iq, key, format, colour⟩ := k n j hj hq
  obtain ⟨o, ho, oq, key', format', colour'⟩ := h n i hi iq
  exact ⟨o, ho, oq, key'.trans key, format'.trans format, colour'.trans colour⟩

/-- A job is written. -/
theorem JobsSlack.of_modJob (f : Job → Job) (jobs : t.jobs = (s.modJob n f).jobs)
    (h : ∀ j, (f j).state = .queued → j.state = .queued ∧ j.key = (f j).key ∧ j.format = (f j).format ∧ j.colourNeed = (f j).colourNeed) :
    JobsSlack s t := by
  intro m j hj hq
  rw [job?_of_jobs jobs, job?_modJob] at hj
  split at hj
  · obtain ⟨i, hi, rfl⟩ := Option.map_eq_some_iff.mp hj
    exact ⟨i, hi, h i hq⟩
  · exact ⟨j, hj, hq, rfl, rfl, rfl⟩

theorem HeldSlack.of_eq (h : t.plan = s.plan) : HeldSlack s t := fun k x hx held =>
  ⟨x, by unfold State.pos? at *; rw [h]; exact hx, held⟩

theorem HeldSlack.trans (h : HeldSlack s t) (k : HeldSlack t u) : HeldSlack s u := by
  intro q x hx held
  obtain ⟨y, hy, held'⟩ := h q x hx held
  exact k q y hy held'

theorem Slack.trans (h : Slack s t) (k : Slack t u) : Slack s u :=
  ⟨h.jobs.trans k.jobs, h.held.trans k.held, fun e => (h.engines e).trans (k.engines e), fun e => (k.registers e).trans (h.registers e)⟩

theorem Slack.refl (s : State) : Slack s s := ⟨.of_eq rfl, .of_eq rfl, fun _ => .refl _, fun _ => rfl⟩

/-- What is offered was offered before. -/
theorem Slack.offered (k : Slack s t) (h : Offered t n j) :
    ∃ i, Offered s n i ∧ i.format = j.format ∧ i.colourNeed = j.colourNeed := by
  obtain ⟨hj, hq, held⟩ := h
  obtain ⟨i, hi, iq, key, format, colour⟩ := k.jobs n j hj hq
  refine ⟨i, ⟨hi, iq, fun x hx => ?_⟩, format, colour⟩
  by_contra hx'
  obtain ⟨y, hy, held'⟩ := k.held i.key x hx (by simpa using hx')
  rw [key] at hy
  exact absurd (held y hy) (by simp [held'])

/-- An engine with nothing to take up is left so. -/
theorem Slack.givenAt (k : Slack s t) (h : GivenAt s e) : GivenAt t e := by
  intro n j next offered eligible
  obtain ⟨i, offered', format, colour⟩ := k.offered offered
  have same := k.engines e
  refine h n i (same.next next) offered' ⟨same.works eligible.works, ?_, ?_, ?_⟩
  · rw [format, ← same.cassette]
    exact eligible.format
  · rw [colour, ← k.registers e]
    exact eligible.register
  · rw [← same.cancel]
    exact eligible.cancel

/-! ### Serving offers nothing -/

theorem assign_slack (e : EngineId) (n : Nat) (j : Job) (s : State) : Slack s (assign e n j s) := by
  have queued (j : Job) (h : ({ j with state := .assigned, engine := some e } : Job).state = .queued) : False := by cases h
  refine ⟨.of_modJob (n := n) _ rfl fun j h => (queued j h).elim, .of_eq rfl, fun q => ?_, fun _ => rfl⟩
  change EngineSlack (s.engine q) ((s.modCtx e fun c => { c with next := some ⟨n, .loadSent, some s.limits.load, false⟩ }).engine q)
  rw [engine_modCtx]
  split
  · exact .of_ctx rfl nofun
  · exact .refl _

theorem fill_slack (e : EngineId) (s : State) : Slack s (fill e s) := by
  unfold fill
  split
  · cases firstFor s e with
    | none => exact .refl s
    | some x => exact assign_slack e x.1 x.2 s
  · exact .refl s

theorem preemptOn_slack (e : EngineId) (n : Nat) (j : Job) (s : State) : Slack s (preemptOn e n j s) := by
  have assigned := assign_slack e n j (s.modCtx e fun c => { c with parked := c.next, next := none })
  refine ⟨.trans (.of_eq rfl) assigned.jobs, .of_eq rfl, fun q => ?_, fun _ => rfl⟩
  have same := assigned.engines q
  rw [engine_modCtx] at same
  refine ⟨fun h => ?_, ?_, ?_, preemptOn_nextKept e n j s q⟩
  · have works := same.works h
    split at works
    · exact ⟨works.running, works.held, works.stopped, works.format, works.count⟩
    · exact works
  · refine same.cassette.trans ?_
    split <;> rfl
  · refine same.cancel.trans ?_
    split <;> rfl

theorem preemptFrom_slack (x : List (Nat × Job)) (s : State) : Slack s (preemptFrom x s) := by
  induction x generalizing s with
  | nil => exact .refl s
  | cons y x ih =>
    obtain ⟨n, j⟩ := y
    unfold preemptFrom
    split
    · exact (preemptOn_slack _ n j s).trans (ih _)
    · exact .refl s

theorem sendExpose_slack (e : EngineId) (s : State) : Slack s (sendExpose e s) := by
  have engines (q : EngineId) : EngineSlack (s.engine q) ((sendExpose e s).engine q) := by
    rw [engine_sendExpose]
    split
    · exact .of_ctx rfl fun h => by simpa using h
    · exact .refl _
  unfold sendExpose at engines ⊢
  split at engines
  · exact .refl s
  next w hw =>
    exact ⟨.of_modJob (n := w.job) (fun x => { x with applied := some (s.register e).correction }) rfl fun j hq => ⟨hq, rfl, rfl, rfl⟩, .of_eq rfl, engines, fun _ => rfl⟩

theorem exposeOnce_slack (l : LaneId) (s : State) : Slack s (exposeOnce l s) := by
  unfold exposeOnce
  split
  · split
    · exact sendExpose_slack _ s
    · exact .refl s
  · exact .refl s

theorem exposeLane_slack (l : LaneId) (s : State) : Slack s (exposeLane l s) :=
  ((exposeOnce_slack l s).trans (exposeOnce_slack l _)).trans (exposeOnce_slack l _)

theorem evalReached_slack (s : State) : Slack s (evalReached s) := by
  obtain ⟨v, x, p, h⟩ := evalReached_parts s
  rw [h]
  exact ⟨.of_eq rfl, .of_eq rfl, fun _ => .refl _, fun _ => rfl⟩

/-! ### Serving leaves nothing to take up -/

theorem Offered.mem (h : Offered s n j) : (n, j) ∈ s.offered j.cls := by
  obtain ⟨hj, hq, held⟩ := h
  unfold State.offered State.readyQueue
  rw [List.mem_filter, mem_sortBy, List.mem_filter]
  refine ⟨⟨mem_of_tget hj, by simp [hq]⟩, ?_⟩
  unfold State.positionHeld
  cases hx : s.pos? j.key with
  | none => rfl
  | some x => simp [held x hx]

/-- An engine that has been filled has nothing more to take up. -/
theorem fill_given (e : EngineId) (s : State) : GivenAt (fill e s) e := by
  intro n j next offered eligible
  unfold fill at next offered eligible
  by_cases hn : (s.engine e).ctx.next = none
  · rw [if_pos (by simp [hn])] at next offered eligible
    cases hf : firstFor s e with
    | some x =>
      rw [hf] at next
      dsimp only at next
      rw [next_assign, if_pos rfl] at next
      cases next
    | none =>
      rw [hf] at offered eligible
      rw [firstFor_eq, List.find?_eq_none] at hf
      refine hf (n, j) (List.mem_append.mpr ?_) ((s.eligible_iff_eligibleFor e n j).mpr eligible)
      have mem := offered.mem
      cases hc : j.cls with
      | urgent => exact .inl (hc ▸ mem)
      | normal => exact .inr (hc ▸ mem)
  · rw [if_neg (by simpa [Option.isNone_iff_eq_none] using hn)] at next
    exact hn next

theorem foldl_fill_given (x : List EngineId) (s : State) :
    (∀ e, GivenAt s e → GivenAt (x.foldl (fun s e => fill e s) s) e) ∧ ∀ e ∈ x, GivenAt (x.foldl (fun s e => fill e s) s) e := by
  induction x generalizing s with
  | nil => exact ⟨fun _ h => h, nofun⟩
  | cons a x ih =>
    obtain ⟨keeps, gives⟩ := ih (fill a s)
    refine ⟨fun e h => keeps e ((fill_slack a s).givenAt h), fun e he => ?_⟩
    rcases List.mem_cons.mp he with rfl | he
    · exact keeps e (fill_given e s)
    · exact gives e he

theorem fillAll_given (s : State) (e : EngineId) : GivenAt (fillAll s) e :=
  (foldl_fill_given allEngines s).2 e (by revert e; decide)

/-- Serving offers nothing once the engines have been filled. -/
theorem worked_given (s : State) (e : EngineId) : GivenAt (worked s) e :=
  (((preemptFrom_slack _ _).trans (exposeLane_slack 0 _)).trans (exposeLane_slack 1 _)).givenAt (fillAll_given _ e)

theorem worked_quiet (s : State) (l : LaneId) : Quiet l (worked s) := by
  have two : l = 0 ∨ l = 1 := by revert l; decide
  rcases two with rfl | rfl
  · exact (exposeLane_quiet 0 _).exposeLane (by decide)
  · exact exposeLane_quiet 1 _

/-- Whatever the state, serving the engines leaves them served. -/
theorem served_serve (s : State) : Served (serve s) := by
  rw [serve_eq]
  refine ⟨fun e => (evalReached_slack (worked s)).givenAt (worked_given s e), fun e w loaded room => ?_⟩
  obtain ⟨floor, clearing⟩ := lane_evalReached_keeps (worked s) (laneFed e)
  have quiet : Quiet (laneFed e) (evalReached (worked s)) :=
    (worked_quiet s (laneFed e)).congr (fun q _ => engine_evalReached _ q) (by rw [floor]) clearing
  rcases quiet with h | h
  · exact h room
  · exact h e w rfl loaded

/-! ### The reached marks -/

/-- No mark is kept while the line is not STOPPING. -/
def Unmarked (s : State) : Prop :=
  s.line.state ≠ .stopping → (∀ e : EngineId, s.line.reachedEngines[e] = false) ∧ ∀ l : LaneId, s.line.reachedLanes[l] = false

/-- Whatever the state, evaluating the reached marks leaves them evaluated, where none was kept in vain. -/
theorem evalReached_marked (h : Unmarked s) : RestMarked (evalReached s) := by
  by_cases stopping : s.line.state = .stopping
  · by_cases all : AllReached s (evalReached s)
    · obtain ⟨stopped, -, engines, lanes⟩ := evalReached_rests stopping all
      have not : (evalReached s).line.state ≠ .stopping := by rw [stopped]; decide
      exact ⟨fun h => absurd h not, fun h => absurd h not, fun h => absurd h not, fun h => absurd h not, fun _ => ⟨engines, lanes⟩⟩
    · obtain ⟨still, engines, lanes⟩ := evalReached_waits stopping all
      refine ⟨fun _ l load => ?_, fun _ e rests => ?_, fun _ l gate => ?_, fun _ ⟨he, hl, delivery⟩ => all ⟨fun e => ?_, fun l => ?_, delivery⟩,
        fun h => absurd still h⟩
      · rw [loadOf_evalReached] at load
        rw [lane_evalReached stopping]
        simp [load]
      · rw [engines, rests, Bool.or_true]
      · rw [lanes, gate, Bool.or_true]
      · rw [← engines]
        exact he e
      · rw [← lanes]
        exact hl l
  · rw [evalReached_other stopping]
    exact ⟨fun h => absurd h stopping, fun h => absurd h stopping, fun h => absurd h stopping, fun h => absurd h stopping, h⟩

/-- Marks that are not kept in vain stay so while they are evaluated. -/
theorem RestMarked.unmarked (h : RestMarked s) : Unmarked s := h.dropped

end Sys2Proof.Machine
end

section
/-! What gives the engines nothing to take up and lets no unit come to rest. -/

namespace Sys2Proof.Machine

open State

variable {s t u : State} {e : EngineId} {l : LaneId} {n : Nat} {j : Job} {D : Nat → Prop}

/-! ### Chains of what leaves the engines served -/

/-- No mark is written while the line is not STOPPING. -/
def Tame (s t : State) : Prop := Unmarked s → Unmarked t

/-- Engines that were served are so still, and marks that were evaluated. -/
structure Rests (s t : State) : Prop where
  tame : Tame s t
  served : Served s → Served t
  marked : RestMarked s → RestMarked t

theorem Tame.refl (s : State) : Tame s s := id

theorem Tame.trans (h : Tame s t) (k : Tame t u) : Tame s u := k ∘ h

theorem Tame.of_line (h : t.line = s.line) : Tame s t := fun unmarked => by
  unfold Unmarked
  rw [h]
  exact unmarked

theorem Rests.refl (s : State) : Rests s s := ⟨id, id, id⟩

theorem Rests.trans (h : Rests s t) (k : Rests t u) : Rests s u := ⟨k.tame ∘ h.tame, k.served ∘ h.served, k.marked ∘ h.marked⟩

theorem foldl_tame {α : Type} (f : State → α → State) (x : List α) (s : State) (h : ∀ s a, Tame s (f s a)) : Tame s (x.foldl f s) := by
  induction x generalizing s with
  | nil => exact .refl s
  | cons a x ih => exact (h s a).trans (ih _)

theorem foldl_rests {α : Type} (f : State → α → State) (x : List α) (s : State) (h : ∀ s a, Rests s (f s a)) : Rests s (x.foldl f s) := by
  induction x generalizing s with
  | nil => exact .refl s
  | cons a x ih => exact (h s a).trans (ih _)

/-- Reactions write marks while the line is STOPPING, and clear them when it has stopped. -/
theorem ReactStep.tame (h : ReactStep D s t) : Tame s t := by
  cases h with
  | serve h =>
    cases h with
    | reached es ls h => exact fun _ not => absurd h not
    | stopped h => exact fun _ _ => ⟨fun _ => by simp [State.setStopped, clearMarks], fun _ => by simp [State.setStopped, clearMarks]⟩
    | expose e => exact .of_line (sendExpose_floor e s).2.1
    | _ => exact id
  | _ => exact id

theorem Reacts.tame (h : Reacts D s t) : Tame s t := by
  induction h with
  | refl => exact .refl s
  | tail _ step ih => exact ih.trans step.tame

theorem raise_tame (x : Notice) (s : State) : Tame s (raise x s) := (raise_reacts (D := AnyJob) x s).tame

theorem evalStarved_tame (s : State) : Tame s (evalStarved s) := .of_line (evalStarved_floor s).2.1

theorem serve_tame (s : State) : Tame s (serve s) := by
  rw [serve_eq]
  exact (Tame.of_line (worked_floor s).2.1).trans fun h => (evalReached_marked h).unmarked

theorem serveEngines_tame (s : State) : Tame s (serveEngines s) := by
  have floor : FloorKept s (exposeLane 1 (exposeLane 0 (preemptAll (fillAll s)))) :=
    (((foldl_floor _ (fun s e => fill_floor e s) _ s).trans (preemptFrom_floor _ _)).trans (exposeLane_floor 0 _)).trans (exposeLane_floor 1 _)
  exact (Tame.of_line floor.2.1).trans fun h => (evalReached_marked h).unmarked

/-- Whatever is done before, once the engines have been served they are served, with the marks evaluated. -/
theorem Tame.served (h : Tame s t) : Rests s (serve t) := by
  refine ⟨h.trans (serve_tame t), fun _ => served_serve t, fun marked => ?_⟩
  rw [serve_eq]
  exact evalReached_marked ((Tame.of_line (worked_floor t).2.1) (h marked.unmarked))

/-! ### Lulls -/

/-- An engine that takes up nothing, and comes no nearer to rest. -/
structure EngineLull (x y : Engine) : Prop where
  slack : EngineSlack x y
  current : y.ctx.current.isSome = x.ctx.current.isSome
  stages : y.ctx.next.map WaitingCtx.stage = x.ctx.next.map WaitingCtx.stage

/-- A lane that gives up none of its load, and keeps its stopped gate and its clearing phase. -/
structure LaneLull (x y : Lane) : Prop where
  order : x.floor.order.length ≤ y.floor.order.length
  clearing : y.clearing = x.clearing
  stopped : y.gates.stopped = x.gates.stopped

/-- The line control keeps its state and its marks. -/
structure LineLull (x y : LineControl) : Prop where
  state : y.state = x.state
  engines : y.reachedEngines = x.reachedEngines
  lanes : y.reachedLanes = x.reachedLanes

/-- Nothing is offered that was not, no engine takes anything up, and no unit comes nearer to rest. -/
structure Lull (s t : State) : Prop where
  jobs : JobsSlack s t
  held : HeldSlack s t
  engines : ∀ e, EngineLull (s.engine e) (t.engine e)
  registers : ∀ e, (t.register e).state = (s.register e).state
  lanes : ∀ l, LaneLull (s.lane l) (t.lane l)
  line : LineLull s.line t.line
  sorter : t.sorter.delivery = none → s.sorter.delivery = none

theorem EngineLull.refl (x : Engine) : EngineLull x x := ⟨.refl x, rfl, rfl⟩

theorem EngineLull.trans {x y z : Engine} (h : EngineLull x y) (k : EngineLull y z) : EngineLull x z :=
  ⟨h.slack.trans k.slack, k.current.trans h.current, k.stages.trans h.stages⟩

theorem LaneLull.refl (x : Lane) : LaneLull x x := ⟨le_refl _, rfl, rfl⟩

theorem LaneLull.trans {x y z : Lane} (h : LaneLull x y) (k : LaneLull y z) : LaneLull x z :=
  ⟨h.order.trans k.order, k.clearing.trans h.clearing, k.stopped.trans h.stopped⟩

theorem LineLull.refl (x : LineControl) : LineLull x x := ⟨rfl, rfl, rfl⟩

theorem Lull.trans (h : Lull s t) (k : Lull t u) : Lull s u :=
  ⟨h.jobs.trans k.jobs, h.held.trans k.held, fun e => (h.engines e).trans (k.engines e), fun e => (k.registers e).trans (h.registers e),
    fun l => (h.lanes l).trans (k.lanes l),
    ⟨k.line.state.trans h.line.state, k.line.engines.trans h.line.engines, k.line.lanes.trans h.line.lanes⟩, h.sorter ∘ k.sorter⟩

/-- The engines and the floor stay as they are. -/
theorem Lull.of_floor (jobs : JobsSlack s t) (held : HeldSlack s t) (engines : t.engines = s.engines) (registers : t.registers = s.registers)
    (lanes : t.lanes = s.lanes) (line : t.line = s.line) (sorter : t.sorter = s.sorter) : Lull s t where
  jobs := jobs
  held := held
  engines e := by rw [engine_of_engines engines]; exact .refl _
  registers e := by unfold State.register; rw [registers]
  lanes l := by unfold State.lane; rw [lanes]; exact .refl _
  line := by rw [line]; exact .refl _
  sorter := by rw [sorter]; exact id

/-- Nothing that the dispatcher reads is changed. -/
theorem Lull.of_eq (jobs : t.jobs = s.jobs) (plan : t.plan = s.plan) (engines : t.engines = s.engines) (registers : t.registers = s.registers)
    (lanes : t.lanes = s.lanes) (line : t.line = s.line) (sorter : t.sorter = s.sorter) : Lull s t :=
  .of_floor (.of_eq jobs) (.of_eq plan) engines registers lanes line sorter

theorem Lull.refl (s : State) : Lull s s := .of_eq rfl rfl rfl rfl rfl rfl rfl

/-- The lanes alone change. -/
theorem Lull.of_lanes (lanes : ∀ l, LaneLull (s.lane l) (t.lane l)) (jobs : t.jobs = s.jobs) (plan : t.plan = s.plan)
    (engines : t.engines = s.engines) (registers : t.registers = s.registers) (line : t.line = s.line) (sorter : t.sorter = s.sorter) :
    Lull s t where
  jobs := .of_eq jobs
  held := .of_eq plan
  engines e := by rw [engine_of_engines engines]; exact .refl _
  registers e := by unfold State.register; rw [registers]
  lanes := lanes
  line := by rw [line]; exact .refl _
  sorter := by rw [sorter]; exact id

theorem foldl_lull {α : Type} (f : State → α → State) (x : List α) (s : State) (h : ∀ s a, Lull s (f s a)) : Lull s (x.foldl f s) := by
  induction x generalizing s with
  | nil => exact .refl s
  | cons a x ih => exact (h s a).trans (ih _)

namespace Lull

theorem slack (h : Lull s t) : Slack s t := ⟨h.jobs, h.held, fun e => (h.engines e).slack, h.registers⟩

theorem sent (h : Lull s t) (e : EngineId) :
    ((t.engine e).ctx.next.any fun w => w.stage = .exposeSent) = (s.engine e).ctx.next.any fun w => w.stage = .exposeSent := by
  have same := congrArg (fun o => o.any fun x => decide (x = LoadStage.exposeSent)) (h.engines e).stages
  simpa only [Option.any_map] using same

theorem loadOf_le (h : Lull s t) (l : LaneId) : loadOf s l ≤ loadOf t l := by
  unfold loadOf
  dsimp only
  simp only [fun e => (h.engines e).current, h.sent]
  exact Nat.add_le_add_right (Nat.add_le_add_right (h.lanes l).order _) _

theorem engineRests (h : Lull s t) (e : EngineId) : engineRests t e = engineRests s e := by
  unfold Machine.engineRests
  rw [h.sent, ← Option.not_isSome, ← Option.not_isSome, (h.engines e).current]

theorem loaded (h : Lull s t) {w : WaitingCtx} (k : Loaded t e w) : ∃ x, Loaded s e x := by
  have stages := (h.engines e).stages
  rw [k.next, Option.map_some, k.stage] at stages
  obtain ⟨x, hx, stage⟩ := Option.map_eq_some_iff.mp stages.symm
  have current := (h.engines e).current
  rw [k.current] at current
  exact ⟨x, (h.engines e).slack.works k.works, Option.not_isSome_iff_eq_none.mp (by rw [← current]; decide), hx, stage⟩

theorem served (h : Lull s t) (k : Served s) : Served t := by
  refine ⟨fun e => h.slack.givenAt (k.given e), fun e w loaded ⟨load, clearing⟩ => ?_⟩
  obtain ⟨x, loaded⟩ := h.loaded loaded
  exact k.exposed e x loaded ⟨(h.loadOf_le _).trans_lt load, (h.lanes _).clearing ▸ clearing⟩

theorem marked (h : Lull s t) (k : RestMarked s) : RestMarked t := by
  refine ⟨fun state l load => ?_, fun state e rests => ?_, fun state l gate => ?_, fun state ⟨engines, lanes, delivery⟩ => ?_, fun state => ?_⟩
  all_goals rw [h.line.state] at state
  · rw [(h.lanes l).stopped]
    exact k.drained state l (Nat.le_zero.mp (load ▸ h.loadOf_le l))
  · rw [h.line.engines]
    exact k.engines state e ((h.engineRests e).symm.trans rests)
  · rw [h.line.lanes]
    exact k.lanes state l ((h.lanes l).stopped.symm.trans gate)
  · rw [h.line.engines] at engines
    rw [h.line.lanes] at lanes
    exact k.waits state ⟨engines, lanes, h.sorter delivery⟩
  · rw [h.line.engines, h.line.lanes]
    exact k.dropped state

theorem tame (h : Lull s t) : Tame s t := fun unmarked state => by
  rw [h.line.state] at state
  rw [h.line.engines, h.line.lanes]
  exact unmarked state

theorem rests (h : Lull s t) : Rests s t := ⟨h.tame, h.served, h.marked⟩

end Lull

/-! ### Writes -/

/-- A job is written that does not come to be QUEUED. -/
theorem Lull.modJob (n : Nat) (f : Job → Job) (s : State)
    (h : ∀ j, (f j).state = .queued → j.state = .queued ∧ j.key = (f j).key ∧ j.format = (f j).format ∧ j.colourNeed = (f j).colourNeed) :
    Lull s (s.modJob n f) := .of_floor (.of_modJob f rfl h) (.of_eq rfl) rfl rfl rfl rfl rfl

/-- A position is written that does not cease to be held. -/
theorem Lull.modPos (k : PosKey) (f : Position → Position) (s : State) (h : ∀ x, x.held = true → (f x).held = true) : Lull s (s.modPos k f) := by
  refine .of_floor (.of_eq rfl) (fun q x hx held => ?_) rfl rfl rfl rfl rfl
  rw [pos?_modPos]
  split
  · rw [hx]
    exact ⟨f x, rfl, h x held⟩
  · exact ⟨x, hx, held⟩

theorem Lull.modWork (k : PosKey) (f : PosWork → PosWork) (s : State) : Lull s (s.modWork k f) :=
  Lull.modPos k (fun x => { x with work := f x.work }) s fun _ => id

theorem Lull.modLane (l : LaneId) (f : Lane → Lane) (s : State) (h : ∀ x, LaneLull x (f x)) : Lull s (s.modLane l f) := by
  refine .of_lanes (fun q => ?_) rfl rfl rfl rfl rfl rfl
  rw [lane_modLane]
  split
  · exact h _
  · exact .refl _

theorem Lull.modFloor (l : LaneId) (f : LaneFloor → LaneFloor) (s : State) (h : ∀ x, x.order.length ≤ (f x).order.length) :
    Lull s (s.modFloor l f) := by
  refine .of_lanes (fun q => ?_) rfl rfl rfl rfl rfl rfl
  rw [lane_modFloor]
  split
  · exact ⟨h _, rfl, rfl⟩
  · exact .refl _

/-- The sorter takes no plate off a lane. -/
theorem Lull.sorter_only (f : Sorter → Sorter) (s : State) (h : (f s.sorter).delivery = none → s.sorter.delivery = none) :
    Lull s (s.modSorter f) :=
  have same := Lull.refl s
  ⟨.of_eq rfl, .of_eq rfl, same.engines, same.registers, same.lanes, same.line, h⟩

theorem Lull.modLink (p : PortId) (f : Link → Link) (s : State) : Lull s (s.modLink p f) := .of_eq rfl rfl rfl rfl rfl rfl rfl

theorem Lull.send (c : LineCommand) (s : State) : Lull s (s.send c) := .of_eq rfl rfl rfl rfl rfl rfl rfl

theorem raise_lull (x : Notice) (s : State) : Lull s (raise x s) := by
  obtain ⟨p, h⟩ := raise_ports x s
  rw [h]
  exact .of_eq rfl rfl rfl rfl rfl rfl rfl

/-- A notice after a change. -/
theorem Rests.raised (h : Rests s t) (x : Notice) : Rests s (raise x t) := h.trans (raise_lull x t).rests

theorem Lull.raised (h : Lull s t) (x : Notice) : Lull s (raise x t) := h.trans (raise_lull x t)

theorem Tame.raised (h : Tame s t) (x : Notice) : Tame s (raise x t) := h.trans (raise_tame x t)

end Sys2Proof.Machine
end

section
/-! The reactions of the part leave the engines served, with the reached marks evaluated. -/

namespace Sys2Proof.Machine

open State

variable {s t u : State} {e : EngineId} {l : LaneId} {n : Nat} {j : Job}

/-! ### Lulls -/

theorem evalPress_lull (p : PressId) (s : State) : Lull s (evalPress p s) := by
  have set (st : PressState) : Lull s (s.setPressState p st) := .of_eq rfl rfl rfl rfl rfl rfl rfl
  unfold evalPress
  dsimp only
  split
  · exact .refl s
  · split
    · exact (set _).raised _
    · exact (set _).raised _
    · exact set _

theorem tellSatisfied_lull (k : PosKey) (s : State) : Lull s (tellSatisfied k s) := by
  unfold tellSatisfied
  split
  · exact .refl s
  next x _ =>
    have counted (n : Nat) : Lull s ((s.modWork k fun w => { w with satisfied := s.satisfied x }).setUnsatisfied k.press n) :=
      (Lull.modWork k (fun w => { w with satisfied := s.satisfied x }) s).trans (.of_eq rfl rfl rfl rfl rfl rfl rfl)
    dsimp only
    split
    · exact .refl s
    · exact (counted _).trans (evalPress_lull _ _)

theorem tellAll_lull (x : List PosKey) (s : State) : Lull s (tellAll x s) := foldl_lull _ x s fun s k => tellSatisfied_lull k s

theorem freeIfDone_lull (k : SlotKey) (s : State) : Lull s (freeIfDone k s) := by
  unfold freeIfDone
  split
  · split
    · exact .of_eq rfl rfl rfl rfl rfl rfl rfl
    · exact .refl s
  · exact .refl s

theorem releaseRefs_lull (x : List SlotKey) (s : State) : Lull s (releaseRefs x s) :=
  foldl_lull _ x s fun s k => Lull.trans (t := s.modCount k (· - 1)) (.of_eq rfl rfl rfl rfl rfl rfl rfl) (freeIfDone_lull k _)

theorem dropPage_lull (n : Nat) (s : State) : Lull s (s.dropPage n) := .of_eq rfl rfl rfl rfl rfl rfl rfl

theorem removePage_lull (n : Nat) (r : PageRec) (s : State) : Lull s (removePage n r s) := by
  have dropped : Lull s ((slotsOfPage s n).foldl (fun s k => s.dropSlot k) s) :=
    foldl_lull _ _ s fun s k => .of_eq rfl rfl rfl rfl rfl rfl rfl
  exact (dropped.trans (dropPage_lull n _)).raised (.pageRemoved n r.version)

theorem markStage_length (n : Nat) (x : LaneStage) (o : List LaneEntry) : (markStage n x o).length = o.length := List.length_map _

theorem findBlocked_lull (l : LaneId) (s : State) : Lull s (findBlocked l s) := by
  have blocked : Lull s (s.modFloor l fun f => { f with blocked := true }) := .modFloor l _ s fun _ => le_refl _
  unfold findBlocked
  split
  · exact .refl s
  · split
    · exact blocked.raised _
    · exact .refl s

theorem useLaneStep_lull (l : LaneId) (s : State) : Lull s (s.useLaneStep l) :=
  Lull.modLane l (fun x => { x with gates := { x.gates with allowance := false } }) s fun _ => ⟨le_refl _, rfl, rfl⟩

theorem grant_lull (l : LaneId) (n : Nat) (j : Job) (d : Destination) (s : State) : Lull s (grant l n j d s) := by
  have taken : Lull s (s.setDelivery (some ⟨l, n, j.attempt, d⟩)) :=
    Lull.sorter_only (fun x => { x with delivery := some ⟨l, n, j.attempt, d⟩ }) s nofun
  have marked := taken.trans (Lull.modFloor l (fun f => { f with order := markStage n .granted f.order, blocked := false }) _
    fun x => (markStage_length n _ x.order).ge)
  have stepped := (marked.trans (Lull.send (.deliver l n j.attempt d) _)).trans
    (Lull.sorter_only (fun x => { x with allowance := false }) _ id)
  unfold grant
  dsimp only
  split
  · exact stepped.trans (useLaneStep_lull l _)
  · exact stepped

theorem sorterLook_lull (s : State) : Lull s (sorterLook s) := by
  unfold sorterLook
  split
  · have found := (findBlocked_lull 0 s).trans (findBlocked_lull 1 _)
    dsimp only
    split
    · exact found.trans (grant_lull _ _ _ _ _)
    · exact found
  · exact .refl s

/-- The sorter looks after a change. -/
theorem Rests.looked (h : Rests s t) : Rests s (sorterLook t) := h.trans (sorterLook_lull t).rests

/-! ### Departures and returns -/

theorem needTest_tame (k : PosKey) (s : State) : Tame s (needTest k s) := (needTest_reacts (D := AnyJob) k s).tame

theorem departCore_tame (n : Nat) (terminal : JobState) (s : State) (ht : terminal ≠ .uncertain) : Tame s (departCore n terminal s) :=
  (departCore_reacts (D := AnyJob) n terminal s ht trivial).tame

theorem retakeRefs_tame (j : Job) (s : State) : Tame s (retakeRefs j s) := (retakeRefs_reacts (D := AnyJob) j s).tame

theorem enterQueue_tame (n a : Nat) (s : State) : Tame s (enterQueue n a s) := .of_line rfl

theorem requeue_tame (n a : Nat) (why : RequeueReason) (f : Option FaultRecord) (s : State) : Tame s (requeue n a why f s) := by
  unfold requeue
  split
  · exact .refl s
  · exact ((retakeRefs_tame _ s).trans (enterQueue_tame n a _)).raised _

theorem failJob_tame (n : Nat) (s : State) : Tame s (failJob n s) := (failJob_reacts (D := AnyJob) n s trivial).tame

theorem spoilDecision_tame (n : Nat) (s : State) : Tame s (spoilDecision n s) := (spoilDecision_reacts (D := AnyJob) n s trivial).tame

theorem recordFault_tame (n : Nat) (c : FaultCause) (p : FaultParam) (s : State) : Tame s (recordFault n c p s) := .of_line rfl

section
variable {look : State → State}

theorem serveFrom_tame (hl : ∀ s, Tame s (look s)) (x : List PosKey) (s : State) : Tame s (serveFrom look x s) := by
  induction x generalizing s with
  | nil => exact .refl s
  | cons k x ih =>
    have tested := needTest_tame k s
    unfold serveFrom
    dsimp only
    split
    · split
      · exact (tested.trans (hl _)).trans (ih _)
      · exact tested.trans (hl _)
    · exact tested.trans (ih _)

theorem serveDeferred_tame (hl : ∀ s, Tame s (look s)) (s : State) : Tame s (serveDeferred look s) := serveFrom_tame hl _ s

theorem departBy_tame (hl : ∀ s, Tame s (look s)) (n : Nat) (terminal : JobState) (s : State) (ht : terminal ≠ .uncertain) :
    Tame s (departBy look n terminal s) :=
  ((departCore_tame n terminal s ht).trans (serveDeferred_tame hl _)).trans (hl _)

theorem returnByFaultBy_tame (hl : ∀ s, Tame s (look s)) (n : Nat) (c : FaultCause) (p : FaultParam) (terminal : JobState) (s : State)
    (ht : terminal ≠ .uncertain) : Tame s (returnByFaultBy look n c p terminal s) := by
  have recorded := recordFault_tame n c p s
  unfold returnByFaultBy
  dsimp only
  split
  · exact recorded
  · split
    · exact recorded.trans (departBy_tame hl n terminal _ ht)
    · exact recorded.trans (requeue_tame _ _ _ _ _)

theorem spoilBy_tame (hl : ∀ s, Tame s (look s)) (n : Nat) (c : FaultCause) (p : FaultParam) (s : State) : Tame s (spoilBy look n c p s) := by
  have recorded := recordFault_tame n c p s
  unfold spoilBy
  dsimp only
  split
  · exact recorded
  · split
    · exact recorded.trans (departBy_tame hl n .discarded _ (by decide))
    · exact recorded.trans (spoilDecision_tame n _)

end

/-- A job that leaves the table has the engines served. -/
theorem Tame.departed (h : Tame s t) (n : Nat) (terminal : JobState) (ht : terminal ≠ .uncertain) : Rests s (depart n terminal t) := by
  unfold depart departBy
  exact ((h.trans (departCore_tame n terminal t ht)).trans (serveDeferred_tame serve_tame _)).served

theorem depart_rests (n : Nat) (terminal : JobState) (s : State) (ht : terminal ≠ .uncertain) : Rests s (depart n terminal s) :=
  (Tame.refl s).departed n terminal ht

theorem returnByFault_tame (n : Nat) (c : FaultCause) (p : FaultParam) (terminal : JobState) (s : State) (ht : terminal ≠ .uncertain) :
    Tame s (returnByFault n c p terminal s) := returnByFaultBy_tame serve_tame n c p terminal s ht

theorem spoil_tame (n : Nat) (c : FaultCause) (p : FaultParam) (s : State) : Tame s (spoil n c p s) := spoilBy_tame serve_tame n c p s

theorem returnTaken_tame (n : Nat) (why : RequeueReason) (terminal : JobState) (s : State) (ht : terminal ≠ .uncertain) :
    Tame s (returnTaken n why terminal s) := by
  unfold returnTaken
  split
  · exact .refl s
  · split
    · exact (depart_rests n terminal s ht).tame
    · exact (requeue_tame _ _ _ _ s).trans (evalStarved_tame _)

/-- A need test has the engines served. -/
theorem needAndServe_rests (k : PosKey) (s : State) : Rests s (needAndServe k s) :=
  ((needTest_tame k s).trans (tellSatisfied_lull k _).tame).served

theorem Tame.needed (h : Tame s t) (k : PosKey) : Rests s (needAndServe k t) :=
  ((h.trans (needTest_tame k t)).trans (tellSatisfied_lull k _).tame).served

/-! ### Supersedes and promotion -/

theorem cancelJob_tame (e : EngineId) (n : Nat) (x : CancelCommand) (s : State) : Tame s (cancelJob e n x s) := .of_line rfl

theorem dropAssigned_tame (n : Nat) (s : State) : Tame s (dropAssigned n s) := (dropAssigned_reacts (D := AnyJob) n s).tame

theorem supersedeEffect_rests (n : Nat) (j : Job) (s : State) : Rests s (supersedeEffect n j s) := by
  have told (x : SupersedeEffect) (u : State) : Lull u (raise (.jobSuperseded n j.key j.state x) u) := raise_lull _ u
  have cancelled {u : State} (h : Tame s u) :
      Rests s (depart n .cancelled (raise (.jobSuperseded n j.key j.state .cancelled) u)) :=
    (h.trans (told .cancelled u).tame).departed n .cancelled (by decide)
  unfold supersedeEffect
  dsimp only
  split
  · exact cancelled (.refl s)
  · exact cancelled (.refl s)
  · split
    · exact (told _ s).rests
    · exact cancelled (dropAssigned_tame n s)
  · exact ((told _ s).raised _).rests
  · split <;> exact ((told _ s).raised _).rests
  · exact (told _ s).rests.looked
  · exact (told _ s).rests

theorem supersede_rests (k : PosKey) (n : Nat) (s : State) : Rests s (supersede k n s) := by
  unfold supersede
  split
  · exact .refl s
  next j _ =>
    have flagged : Lull s (s.modJob n fun x => { x with superseded := true }) := .modJob n _ s fun _ hq => ⟨hq, rfl, rfl, rfl⟩
    have cleared := flagged.trans (Lull.modWork k (fun w => { w with current := none, remake := w.remake || marksRemake j }) _)
    exact (cleared.rests.trans (supersedeEffect_rests n j _)).trans (tellSatisfied_lull k _).rests

theorem supersedeAt_rests (k : PosKey) (s : State) : Rests s (supersedeAt k s) := by
  unfold supersedeAt
  split
  · exact supersede_rests k _ s
  · exact .refl s

theorem promote_rests (n : Nat) (s : State) : Rests s (promote n s) := by
  have classed : Tame s (s.modJob n fun j => { j with cls := .urgent }) := .of_line rfl
  unfold promote
  dsimp only
  split
  next e _ =>
    have taken : Tame s (cancelJob e n .discard ((s.modJob n fun j => { j with cls := .urgent }).modCtx e fun c => { c with parked := none })) :=
      .of_line rfl
    exact (taken.trans (returnTaken_tame n .promoted .cancelled _ (by decide))).served
  · exact classed.served

theorem promoteAll_rests (p : PressId) (s : State) : Rests s (promoteAll p s) :=
  (foldl_rests _ _ s fun s n => promote_rests n s).looked

end Sys2Proof.Machine
end

section
/-! The commands of the engine channels leave the engines served, with the reached marks evaluated. -/

namespace Sys2Proof.Machine

open State

variable {s t u : State} {e : EngineId} {n : Nat}

/-! ### Writes of an engine record -/

theorem modCtx_tame (e : EngineId) (f : Contexts → Contexts) (s : State) : Tame s (s.modCtx e f) := .of_line rfl

theorem modStatus_tame (e : EngineId) (f : EngineStatus → EngineStatus) (s : State) : Tame s (s.modStatus e f) := .of_line rfl

theorem modJob_tame (n : Nat) (f : Job → Job) (s : State) : Tame s (s.modJob n f) := .of_line rfl

theorem modFloor_tame (l : LaneId) (f : LaneFloor → LaneFloor) (s : State) : Tame s (s.modFloor l f) := .of_line rfl

theorem setRegister_tame (e : EngineId) (r : Register) (s : State) : Tame s (s.setRegister e r) := .of_line rfl

theorem status_modCtx (e q : EngineId) (f : Contexts → Contexts) (s : State) : ((s.modCtx e f).engine q).status = (s.engine q).status := by
  rw [engine_modCtx]
  split <;> rfl

theorem status_cancelJob (e q : EngineId) (n : Nat) (x : CancelCommand) (s : State) :
    ((cancelJob e n x s).engine q).status = (s.engine q).status :=
  status_modCtx e q (fun c => { c with cancel := addCancel ⟨n, (s.attemptOf n).getD 0, x⟩ c.cancel }) s

/-! ### Jobs taken from engines -/

theorem forSome_tame {α : Type} (x : Option α) (f : α → State → State) (s : State) (h : ∀ a s, Tame s (f a s)) : Tame s (forSome x f s) := by
  cases x with
  | none => exact .refl s
  | some a => exact h a s

theorem abortCurrent_tame (e : EngineId) (s : State) : Tame s (abortCurrent e s) :=
  Tame.trans (t := s.modCtx e fun c => { c with current := none }) (.of_line rfl) (forSome_tame _ _ _ fun w u => cancelJob_tame e w.job .abort u)

theorem emptyWaiting_tame (e : EngineId) (s : State) : Tame s (emptyWaiting e s) := by
  have left : Tame s (s.modCtx e fun c => { c with next := none, parked := none }) := .of_line rfl
  have cancel (w : WaitingCtx) (u : State) : Tame u (cancelJob e w.job (leaveCommand w) u) := cancelJob_tame e w.job _ u
  exact (left.trans (forSome_tame _ _ _ cancel)).trans (forSome_tame _ _ _ cancel)

theorem returnAll_tame (x : List Taken) (s : State) (h : ∀ y ∈ x, y.2 ≠ .uncertain) : Tame s (returnAll x s) := by
  induction x generalizing s with
  | nil => exact .refl s
  | cons y x ih =>
    exact (returnTaken_tame y.1 .engineFaulted y.2 s (h y (List.mem_cons_self ..))).trans (ih _ fun z hz => h z (List.mem_cons_of_mem _ hz))

theorem namedReturns_tame (e : EngineId) (n : Nat) (c : FaultCause) (s : State) : Tame s (namedReturns e n c s) :=
  (returnByFaultBy_tame evalStarved_tame n c _ .cancelled s (by decide)).trans (evalStarved_tame _)

theorem namedSpoils_tame (e : EngineId) (n : Nat) (c : FaultCause) (s : State) : Tame s (namedSpoils e n c s) :=
  (spoilBy_tame evalStarved_tame n c _ s).trans (evalStarved_tame _)

/-! ### Engine faults -/

/-- An engine's last fault is none of the dispatcher's business. -/
theorem lastFault_lull (e : EngineId) (x : Option (EngineFaultCause × Nat)) (s : State) :
    Lull s (s.modStatus e fun t => { t with lastFault := x }) := by
  have same := Lull.refl s
  refine ⟨.of_eq rfl, .of_eq rfl, fun q => ?_, same.registers, same.lanes, same.line, id⟩
  rw [engine_modStatus]
  split
  · exact ⟨⟨fun h => ⟨h.running, h.held, h.stopped, h.format, h.count⟩, rfl, rfl, id⟩, rfl, rfl⟩
  · exact .refl _

/-- A fault of an engine that is not LOCKED_OUT has the engines served. -/
theorem engineFault_rests (e : EngineId) (cause : EngineFaultCause) (job : Option Nat) (named : State → State) (hs : Tame s t)
    (hn : ∀ u, Tame u (named u)) (unlocked : (t.engine e).status.mode ≠ .lockedOut) : Rests s (engineFault e cause job named t) := by
  unfold engineFault
  dsimp only
  rw [if_neg unlocked]
  split
  · have emptied := ((hs.trans (abortCurrent_tame e t)).trans (emptyWaiting_tame e _)).trans (hn _)
    have locked := emptied.trans (u := (named (emptyWaiting e (abortCurrent e t))).modStatus e fun x =>
      { x with mode := .lockedOut, lastFault := some (cause, t.clock) }) (.of_line rfl)
    exact (((locked.raised (.engineLockedOut e cause job)).trans (evalStarved_tame _)).trans
      (returnAll_tame _ _ (takenAll_ends _))).served
  · have emptied := (hs.trans (emptyWaiting_tame e t)).trans (hn _)
    have faulted := emptied.trans (u := (named (emptyWaiting e t)).modStatus e fun x =>
      { x with mode := .faulted, faultFlag := true, lastFault := some (cause, t.clock) }) (.of_line rfl)
    exact (((faulted.raised (.engineFault e cause job)).trans (evalStarved_tame _)).trans
      (returnAll_tame _ _ (takenWaiting_ends _))).served

/-- A fault that names no job is taken down even where the engine is LOCKED_OUT. -/
theorem engineFault_id_rests (e : EngineId) (cause : EngineFaultCause) (job : Option Nat) (s : State) : Rests s (engineFault e cause job id s) := by
  by_cases locked : (s.engine e).status.mode = .lockedOut
  · unfold engineFault
    dsimp only
    rw [if_pos locked]
    exact (lastFault_lull e _ s).rests
  · exact engineFault_rests e cause job id (.refl s) (fun u => .refl u) locked

theorem engineLost_tame (e : EngineId) (cause : EngineFaultCause) (m : EngineMode) (s : State) : Tame s (engineLost e cause m s) := by
  unfold engineLost
  dsimp only
  have status (f : EngineStatus → EngineStatus) : Tame s ((dropEngine e s).modStatus e f) := .of_line rfl
  exact (((status _).raised _).trans (evalStarved_tame _)).trans (returnAll_tame _ _ (takenAll_ends _))

theorem engineLinkLoss_rests (e : EngineId) (s : State) : Rests s (engineLinkLoss e s) := by
  have status (f : EngineStatus → EngineStatus) : Tame s ((dropEngine e s).modStatus e f) := .of_line rfl
  unfold engineLinkLoss
  dsimp only
  split
  · exact ((engineLost_tame e .linkLost .offline s).raised _).served
  · exact ((status _).raised _).served

theorem greet_rests (e : EngineId) (h : Tame s t) : Rests s (greet e t) := by
  have status (f : EngineStatus → EngineStatus) : Tame s ((dropEngine e t).modStatus e f) := h.trans (.of_line rfl)
  exact ((status _).raised _).served

theorem hello_rests (e : EngineId) (s : State) : Rests s (hello e s) := by
  unfold hello
  dsimp only
  split
  · exact greet_rests e (engineLost_tame e .engineRestarted .faulted s)
  · exact greet_rests e (.refl s)

/-- An engine that holds a job is not LOCKED_OUT (R73). -/
theorem ModesAgree.not_lockedOut (h : ModesAgree s)
    (holds : (s.engine e).ctx.next ≠ none ∨ (s.engine e).ctx.parked ≠ none ∨ (s.engine e).ctx.current ≠ none) :
    (s.engine e).status.mode ≠ .lockedOut := by
  intro locked
  obtain ⟨next, parked⟩ := (h e).waiting (by rw [locked]; decide)
  rcases holds with holds | holds | holds
  · exact holds next
  · exact holds parked
  · exact holds ((h e).current (.inr locked))

theorem cassetteLoaded_rests (modes : ModesAgree s) (e : EngineId) (format : Option PlateFormat) (count : Nat) :
    Rests s (cassetteLoaded e format count s) := by
  have loaded : Tame s (s.modCassette e fun _ => ⟨format, count⟩) := .of_line rfl
  have status : ((s.modCassette e fun _ => ⟨format, count⟩).engine e).status = (s.engine e).status := by
    rw [engine_modCassette, if_pos rfl]
  unfold cassetteLoaded
  dsimp only
  split
  · exact .refl s
  · split
    · exact engineFault_id_rests e _ _ s
    · split
      next waits =>
        refine engineFault_rests e _ _ id loaded (fun u => .refl u) ?_
        rw [status]
        refine modes.not_lockedOut ?_
        rcases waits.2 with next | parked
        · exact .inl (Option.isSome_iff_ne_none.mp next)
        · exact .inr (.inl (Option.isSome_iff_ne_none.mp parked))
      · exact loaded.served

/-! ### Reports about jobs -/

theorem removeCancel_tame (e : EngineId) (n : Nat) (s : State) : Tame s (removeCancel e n s) := .of_line rfl

theorem unmatched_rests (e : EngineId) (s : State) : Rests s (unmatched e s) := by
  unfold unmatched
  split
  · exact engineFault_id_rests e _ _ s
  · exact .refl s

/-- A report takes effect on an engine that is not LOCKED_OUT. -/
theorem jobReport_rests (e : EngineId) (n attempt : Nat) (removes : CancelCommand → Bool) (accepted : Bool) (effect : State → State)
    (h : (s.engine e).status.mode ≠ .lockedOut → Rests s (effect s)) : Rests s (jobReport e n attempt removes accepted effect s) := by
  unfold jobReport
  split
  · split
    · exact (removeCancel_tame e n s).served
    · exact .refl s
  · split
    · exact .refl s
    · exact .refl s
    next mode =>
      split
      · exact h mode
      · exact unmatched_rests e s

theorem loaded_rests (e : EngineId) (n attempt : Nat) (s : State) : Rests s (loaded e n attempt s) :=
  jobReport_rests e n attempt _ _ _ fun _ => Tame.served (.of_line rfl)

theorem leaveWaiting_tame (e : EngineId) (n : Nat) (x : CancelCommand) (s : State) : Tame s (leaveWaiting e n x s) := .of_line rfl

theorem leaveWaiting_status (e : EngineId) (n : Nat) (x : CancelCommand) (s : State) :
    ((leaveWaiting e n x s).engine e).status = (s.engine e).status := by
  unfold leaveWaiting
  rw [status_cancelJob, status_modCtx]

theorem markBad_tame (k : SlotKey) (n : Nat) (e : EngineId) (s : State) : Tame s (markBad k n e s) := by
  have bad : Tame s (s.modSlot k fun x => { x with bad := true }) := .of_line rfl
  unfold markBad
  dsimp only
  split
  · exact bad.trans (failJob_tame n _)
  · exact (bad.trans (failJob_tame n _)).raised _

theorem rasterUnreadable_rests (e : EngineId) (n : Nat) (ref : U64) (s : State) : Rests s (rasterUnreadable e n ref s) := by
  have left : Tame s ((leaveWaiting e n .discard s).modCtx e Contexts.parkedReturn) := .of_line rfl
  unfold rasterUnreadable
  dsimp only
  generalize (leaveWaiting e n .discard s).modCtx e Contexts.parkedReturn = u at left
  split
  · exact left.served
  · split
    · split
      · exact (left.trans (recordFault_tame n _ _ u)).departed n .cancelled (by decide)
      · exact ((left.trans (recordFault_tame n _ _ u)).trans (markBad_tame _ n e _)).served
    · exact (left.trans (returnByFault_tame n _ _ .cancelled u (by decide))).served

theorem loadFault_rests (e : EngineId) (n attempt : Nat) (cause : LoadFaultCause) (s : State) : Rests s (loadFault e n attempt cause s) := by
  refine jobReport_rests e n attempt _ _ _ fun mode => ?_
  cases cause with
  | rasterUnreadable ref => exact rasterUnreadable_rests e n ref s
  | code c =>
    exact engineFault_rests e _ _ _ (leaveWaiting_tame e n .discard s) (namedReturns_tame e n _) (by rw [leaveWaiting_status]; exact mode)

theorem startExposure_rests (e : EngineId) (w : WaitingCtx) (s : State) : Rests s (startExposure e w s) := by
  have started (u : State) (h : u.line = s.line) : Rests s (serve u) := Tame.served (.of_line h)
  have told (u : State) (x : Notice) (h : u.line = s.line) : Rests s (serve (raise x u)) := (Tame.raised (.of_line h) x).served
  unfold startExposure
  dsimp only
  split
  · exact told _ _ rfl
  · exact started _ rfl

theorem exposeStarted_rests (e : EngineId) (n attempt : Nat) (s : State) : Rests s (exposeStarted e n attempt s) := by
  refine jobReport_rests e n attempt _ _ _ fun _ => ?_
  unfold forSome
  split
  · exact startExposure_rests e _ s
  · exact .refl s

theorem endExposure_rests (e : EngineId) (n : Nat) (s : State) : Rests s (endExposure e n s) := by
  have left : Tame s (s.modCtx e fun c => { c with current := none }) := .of_line rfl
  unfold endExposure
  dsimp only
  exact (((left.trans (releaseRefs_lull _ _).tame).trans (modJob_tame n _ _)).trans (modFloor_tame (laneFed e) _ _)).served

theorem exposeDone_rests (e : EngineId) (n attempt : Nat) (s : State) : Rests s (exposeDone e n attempt s) :=
  jobReport_rests e n attempt _ _ _ fun _ => endExposure_rests e n s

theorem leaveExposure_tame (e : EngineId) (n : Nat) (s : State) : Tame s (leaveExposure e n s) := .of_line rfl

theorem exposeFault_rests (e : EngineId) (n attempt : Nat) (consumed : Bool) (s : State) : Rests s (exposeFault e n attempt consumed s) := by
  refine jobReport_rests e n attempt _ _ _ fun mode => ?_
  have left := leaveExposure_tame e n s
  have status : ((leaveExposure e n s).engine e).status.mode ≠ .lockedOut := by
    unfold leaveExposure
    rw [engine_modCtx, if_pos rfl]
    exact mode
  unfold exposureFault
  split
  · have returned := left.trans (modCtx_tame e Contexts.parkedReturn _)
    exact (returned.trans (returnByFault_tame n .cut (.engine e) .discarded _ (by decide))).served
  · split
    · exact engineFault_rests e _ _ _ left (namedSpoils_tame e n _) status
    · exact engineFault_rests e _ _ _ left (namedReturns_tame e n _) status

theorem discarded_rests (e : EngineId) (n attempt : Nat) (s : State) : Rests s (discarded e n attempt s) :=
  jobReport_rests e n attempt _ _ _ fun _ => .refl s

/-! ### Timers -/

theorem loadTimerExpiry_rests (modes : ModesAgree s) (e : EngineId) (x : WaitingContext) : Rests s (loadTimerExpiry e x s) := by
  unfold loadTimerExpiry
  split
  next w hw =>
    split
    · refine engineFault_rests e _ _ _ (leaveWaiting_tame e w.job _ s) (namedReturns_tame e w.job _) ?_
      rw [leaveWaiting_status]
      refine modes.not_lockedOut ?_
      cases x with
      | next => exact .inl (Option.ne_none_iff_exists'.mpr ⟨w, hw⟩)
      | parked => exact .inr (.inl (Option.ne_none_iff_exists'.mpr ⟨w, hw⟩))
    · exact .refl s
  · exact .refl s

theorem abortCurrent_status (e : EngineId) (s : State) : ((abortCurrent e s).engine e).status = (s.engine e).status := by
  have left := status_modCtx e e (fun c => { c with current := none }) s
  unfold abortCurrent
  cases (s.engine e).ctx.current with
  | none => exact left
  | some w => exact (status_cancelJob e e w.job .abort _).trans left

theorem exposeTimerExpiry_rests (modes : ModesAgree s) (e : EngineId) : Rests s (exposeTimerExpiry e s) := by
  unfold exposeTimerExpiry
  split
  · exact .refl s
  next w hw =>
    refine engineFault_rests e _ _ _ (abortCurrent_tame e s) (namedSpoils_tame e w.job _) ?_
    rw [abortCurrent_status]
    exact modes.not_lockedOut (.inr (.inr (Option.ne_none_iff_exists'.mpr ⟨w, hw⟩)))

/-! ### Requests -/

theorem reqClearEngineFault_rests (x : Byte) (s : State) : Rests s (reqClearEngineFault x s).1 := by
  unfold reqClearEngineFault
  split
  · exact .refl s
  · dsimp only
    split
    · exact .refl s
    · dsimp only
      exact ((modStatus_tame _ _ s).raised _).served

theorem reqRestoreEngine_rests (x : Byte) (s : State) : Rests s (reqRestoreEngine x s).1 := by
  unfold reqRestoreEngine
  split
  · exact .refl s
  · dsimp only
    split
    · dsimp only
      exact ((modStatus_tame _ _ s).raised _).served
    · exact .refl s

theorem reqRearmRegister_rests (x : Byte) (s : State) : Rests s (reqRearmRegister x s).1 := by
  unfold reqRearmRegister
  split
  · exact .refl s
  · unfold rearm
    dsimp only
    exact ((setRegister_tame _ _ s).raised _).served

/-! ### Samples -/

theorem dropNext_tame (e : EngineId) (w : WaitingCtx) (s : State) : Tame s (dropNext e w s) := by
  unfold dropNext
  dsimp only
  split
  · split <;> exact .of_line rfl
  · exact .of_line rfl

theorem dropParked_tame (e : EngineId) (w : WaitingCtx) (s : State) : Tame s (dropParked e w s) := .of_line rfl

theorem takeEvicted_tame (n : Nat) (s : State) : Tame s (takeEvicted n s) := by
  unfold takeEvicted
  split
  · exact .refl s
  · split
    · exact departBy_tame serveEngines_tame n .cancelled s (by decide)
    · exact requeue_tame _ _ _ _ s

theorem colourEvict_tame (e : EngineId) (s : State) : Tame s (colourEvict e s) := by
  have dropped := (forSome_tame (evictNext s e) (dropNext e) s (dropNext_tame e)).trans
    (forSome_tame (evictParked s e) (dropParked e) _ (dropParked_tame e))
  have returned := dropped.trans (u := (forSome (evictParked s e) (dropParked e) (forSome (evictNext s e) (dropNext e) s)).modCtx e
    Contexts.parkedReturn) (.of_line rfl)
  have taken (w : WaitingCtx) (u : State) : Tame u (takeEvicted w.job u) := takeEvicted_tame w.job u
  exact (returned.trans (forSome_tame _ _ _ taken)).trans (forSome_tame _ _ _ taken)

theorem takeSample_rests (e : EngineId) (m c : Offset) (s : State) : Rests s (takeSample e m c s) := by
  have set (r : Register) : Tame s (s.setRegister e r) := .of_line rfl
  unfold takeSample
  dsimp only
  split
  · split
    · unfold sampleTracking
      dsimp only
      split
      · exact ((set _).raised _).served
      · exact (set _).served
    · unfold sampleLocked
      dsimp only
      split
      · exact (set _).served
      · exact ((set _).raised _).served
    · unfold sampleDrifted
      dsimp only
      split
      · exact (set _).served
      · exact ((set _).raised _).served
  · unfold sampleBeyond
    dsimp only
    split
    · exact (set _).served
    · exact (((set _).raised _).trans (colourEvict_tame e _)).served

end Sys2Proof.Machine
end

section
/-! The commands of the lanes, the sorter, line control and restart control leave the engines served, with the reached
marks evaluated. -/

namespace Sys2Proof.Machine

open State

variable {s t u : State} {e : EngineId} {l : LaneId} {n : Nat} {j : Job}

/-! ### Decisions -/

theorem laneError_lull (l : LaneId) (r : LaneReportKind) (named : Option (Nat × Nat)) (s : State) : Lull s (laneError l r named s) :=
  raise_lull _ s

theorem dropEntry_tame (l : LaneId) (n : Nat) (s : State) : Tame s (dropEntry l n s) := .of_line rfl

/-- A plate of a lane is spoiled, and the engines are served. -/
theorem dropSpoil_rests (l : LaneId) (n : Nat) (c : FaultCause) (p : FaultParam) (h : Tame s t) :
    Rests s (serve (spoil n c p (dropEntry l n t))) := ((h.trans (dropEntry_tame l n t)).trans (spoil_tame n c p _)).served

theorem decideStray_lull (l : LaneId) (r : InspectReport) (why : StrayReason) (s : State) : Lull s (decideStray l r why s) :=
  (Lull.send (.reject l 0) s).raised _

theorem decideUnreadable_rests (l : LaneId) (r : InspectReport) (s : State) : Rests s (decideUnreadable l r s) := by
  have rejected := Lull.send (.reject l 0) s
  unfold decideUnreadable
  dsimp only
  split
  · exact dropSpoil_rests l _ _ _ rejected.tame
  · exact (rejected.raised _).rests

theorem handSample_rests (j : Job) (m : Option Offset) (s : State) : Rests s (handSample j m s) := by
  unfold handSample
  split
  · exact takeSample_rests _ _ _ s
  · exact .refl s

theorem passPlate_lull (l : LaneId) (n : Nat) (j : Job) (m : Offset) (s : State) : Lull s (passPlate l n j m s) := by
  have passed := (Lull.send (.pass l n j.attempt m) s).trans (Lull.modFloor l (fun f => { f with order := f.order.map fun x =>
    if x.job = n then { x with stage := .punching, timer := none } else x }) _ fun x => (List.length_map _).ge)
  exact passed.trans (Lull.modJob n (fun x => { x with state := .finishing }) _ fun _ h => by cases h)

theorem rejectRegister_rests (l : LaneId) (n : Nat) (m : Option Offset) (s : State) : Rests s (rejectRegister l n m s) := by
  unfold rejectRegister
  exact dropSpoil_rests l n _ _ (Lull.send (.reject l n) s).tame

theorem decidePlate_rests (l : LaneId) (n : Nat) (j : Job) (m : Option Offset) (s : State) : Rests s (decidePlate l n j m s) := by
  unfold decidePlate
  split
  · exact ((Lull.send (.reject l n) s).tame.trans (dropEntry_tame l n _)).departed n .discarded (by decide)
  · split
    · split
      · exact (passPlate_lull l n j _ s).rests
      · exact rejectRegister_rests l n _ s
    · exact rejectRegister_rests l n _ s

theorem decideIdentified_rests (l : LaneId) (n : Nat) (m : Option Offset) (s : State) : Rests s (decideIdentified l n m s) := by
  unfold decideIdentified
  split
  · exact (decidePlate_rests l n _ m s).trans (handSample_rests _ m _)
  · exact .refl s

theorem resynchronise_rests (l : LaneId) (n : Nat) (s : State) : Rests s (resynchronise l n s) :=
  foldl_rests _ _ s fun s x => dropSpoil_rests l x.job _ _ (.refl s)

theorem decideReport_rests (l : LaneId) (r : InspectReport) (s : State) : Rests s (decideReport l r s) := by
  unfold decideReport
  split
  · exact decideUnreadable_rests l r s
  · dsimp only
    split
    · exact (resynchronise_rests l _ s).trans (decideIdentified_rests l _ _ _)
    · exact (decideStray_lull l r _ s).rests

theorem countReclaimed_lull (s : State) : Lull s (countReclaimed s) := .of_eq rfl rfl rfl rfl rfl rfl rfl

theorem reclaim_lull (l : LaneId) (n : Nat) (st : JobState) (stage : LaneStage) (s : State) (h : st ≠ .queued) : Lull s (reclaim l n st stage s) := by
  unfold reclaim
  dsimp only
  have settled := (releaseRefs_lull ((s.job? n).map Job.slots |>.getD []) s).trans
    (Lull.modJob n (fun j => { j with state := st }) _ fun _ hq => absurd hq h)
  exact settled.trans (Lull.modFloor l _ _ fun x => by simp)

theorem decideClearing_rests (l : LaneId) (r : InspectReport) (s : State) : Rests s (decideClearing l r s) := by
  unfold decideClearing
  split
  · exact (decideStray_lull l r _ s).rests
  · dsimp only
    split
    · split
      · exact ((reclaim_lull l _ .developing .inDeveloper s (by decide)).rests.trans (decideIdentified_rests l _ _ _)).trans
          (countReclaimed_lull _).rests
      · exact (decideStray_lull l r _ s).rests
    · exact (decideStray_lull l r _ s).rests

theorem stepUsed_lull (l : LaneId) (s : State) : Lull s (stepUsed l s) := by
  unfold stepUsed
  split
  · exact useLaneStep_lull l s
  · exact .refl s

theorem decide1_rests (l : LaneId) (r : InspectReport) (s : State) : Rests s (decide1 l r s) := by
  rw [decide1_eq]
  split
  · exact (stepUsed_lull l s).rests.trans (decideClearing_rests l r _)
  · exact (stepUsed_lull l s).rests.trans (decideReport_rests l r _)

theorem pendingLeft_lull (l : LaneId) (rest : List InspectReport) (s : State) : Lull s (pendingLeft l rest s) :=
  .modLane l _ s fun _ => ⟨le_refl _, rfl, rfl⟩

theorem decidePending_rests (l : LaneId) (fuel : Nat) (s : State) : Rests s (decidePending l fuel s) := by
  induction fuel generalizing s with
  | zero => exact .refl s
  | succ fuel ih =>
    unfold decidePending
    split
    · split
      · exact ((pendingLeft_lull l _ s).rests.trans (decide1_rests l _ _)).trans (ih _)
      · exact .refl s
    · exact .refl s

theorem Tame.opened (h : Tame s t) (l : LaneId) : Rests s (laneOpened l t) :=
  ((h.trans (decidePending_rests l _ t).tame).trans (sorterLook_lull _).tame).served

/-! ### Reports of the lanes -/

theorem atInspect_rests (l : LaneId) (r : InspectReport) (s : State) : Rests s (atInspect l r s) := by
  unfold atInspect
  dsimp only
  split
  · exact decide1_rests l r s
  · split
    · exact (Lull.modLane l (fun x => { x with inspections := x.inspections ++ [r] }) s fun _ => ⟨le_refl _, rfl, rfl⟩).rests
    · exact (laneError_lull _ _ _ s).rests

theorem punchedBent_rests (l : LaneId) (n attempt : Nat) (s : State) : Rests s (punchedBent l n attempt s) := by
  unfold punchedBent
  split
  · exact (Lull.modFloor l _ s fun x => (markStage_length n _ x.order).ge).rests
  · split
    · exact .refl s
    · exact (laneError_lull _ _ _ s).rests

theorem punchFault_rests (l : LaneId) (n attempt : Nat) (s : State) : Rests s (punchFault l n attempt s) := by
  unfold punchFault
  split
  · exact dropSpoil_rests l n _ _ (.refl s)
  · exact (laneError_lull _ _ _ s).rests

theorem setExit_lull (l : LaneId) (n : Nat) (s : State) : Lull s (setExit l n s) := .modFloor l _ s fun x => (markStage_length n _ x.order).ge

theorem atExit_rests (l : LaneId) (n attempt : Nat) (s : State) : Rests s (atExit l n attempt s) := by
  unfold atExit
  split
  · exact (laneError_lull _ _ _ s).rests
  · split
    · exact ((setExit_lull l n s).trans (sorterLook_lull _)).rests
    · split
      · have reclaimed := reclaim_lull l n .finishing .atExit s (by decide)
        exact (((reclaimed.trans (setExit_lull l n _)).trans (countReclaimed_lull _)).trans (sorterLook_lull _)).rests
      · exact (laneError_lull _ _ _ s).rests

theorem transitExpiry_rests (l : LaneId) (n : Nat) (s : State) : Rests s (transitExpiry l n s) := by
  unfold transitExpiry
  split
  · exact dropSpoil_rests l n _ _ (.refl s)
  · exact .refl s

theorem laneLinkLoss_rests (l : LaneId) (s : State) : Rests s (laneLinkLoss l s) :=
  (Lull.modLane l (fun x => { x with lost := true, inspections := [] }) s fun _ => ⟨le_refl _, rfl, rfl⟩).rests

theorem laneRestoration_rests (l : LaneId) (s : State) : Rests s (laneRestoration l s) := by
  have restored : Tame s (s.modLane l fun x => { x with lost := false }) := .of_line rfl
  exact restored.opened l

/-! ### The sorter -/

theorem Tame.delivered (h : Tame s t) (l : LaneId) : Rests s (endDelivery l t) := by
  have ended : Tame s (((t.setDelivery none).setServed l).modFloor l fun f => { f with exit := none }) := h
  exact (ended.trans (sorterLook_lull _).tame).served

theorem racked_tame (l : LaneId) (n : Nat) (j : Job) (place : PlatePlace) (s : State) : Tame s (racked l n j place s) := by
  have landed : Tame s (dropEntry l n (s.modJob n fun x => { x with state := .racked })) := .of_line rfl
  unfold racked
  dsimp only
  split
  · exact (landed.raised _).raised _
  · exact (landed.raised _).trans (tellSatisfied_lull _ _).tame

theorem placePlate_tame (d : Delivery) (s : State) : Tame s (placePlate d s) := by
  unfold placePlate
  split
  · exact .refl s
  · split
    · exact Tame.trans (t := s.setRack _ _) (.of_line rfl) (racked_tame _ _ _ _ _)
    · exact Tame.trans (t := s.setShelf _ _) (.of_line rfl) (racked_tame _ _ _ _ _)
    · exact ((dropEntry_tame d.lane d.job s).departed d.job .discarded (by decide)).tame

theorem sorted_rests (n attempt : Nat) (dest : Destination) (s : State) : Rests s (sorted n attempt dest s) := by
  unfold sorted
  split
  · exact (raise_lull _ s).rests
  next d _ =>
    split
    · exact (placePlate_tame d s).delivered d.lane
    · exact (raise_lull _ s).rests

theorem losePlate_rests (d : Delivery) (h : Tame s t) : Rests s (losePlate d t) := by
  unfold losePlate
  exact (((h.trans (dropEntry_tame d.lane d.job t)).trans (spoil_tame _ _ _ _)).trans (evalStarved_tame _)).delivered d.lane

theorem sortFault_rests (n attempt : Nat) (s : State) : Rests s (sortFault n attempt s) := by
  unfold sortFault
  split
  · exact (raise_lull _ s).rests
  · split
    · exact losePlate_rests _ (.refl s)
    · exact (raise_lull _ s).rests

theorem sorterLinkLoss_rests (s : State) : Rests s (sorterLinkLoss s) := by
  have lost : Lull s (s.modSorter fun x => { x with lost := true }) := .sorter_only _ s id
  unfold sorterLinkLoss
  dsimp only
  split
  · exact losePlate_rests _ lost.tame
  · exact lost.rests

theorem sorterRestoration_rests (s : State) : Rests s (sorterRestoration s) :=
  (Lull.sorter_only (fun x => { x with lost := false }) s id).rests.looked

/-! ### Reconciliation -/

theorem countSettled_tame (b : Bool) (s : State) : Tame s (countSettled b s) := .of_line rfl

theorem settle_rests (n : Nat) (s : State) : Rests s (settle n s) := by
  unfold settle
  split
  · exact .refl s
  · split
    · exact ((depart_rests n .discarded s (by decide)).tame.trans (countSettled_tame _ _)).served
    · exact ((returnByFault_tame n _ _ .discarded s (by decide)).trans (countSettled_tame _ _)).served

theorem reopenLane_rests (l : LaneId) (s : State) : Rests s (reopenLane l s) := Tame.served (t := clearClearing l s) (.of_line rfl)

theorem endPhases_rests (lanes : List LaneId) (cause : EndCause) (jobs : List Nat) (s : State) : Rests s (endPhases lanes cause jobs s) := by
  have reopened := foldl_rests (fun s l => reopenLane l s) lanes s fun s l => reopenLane_rests l s
  have settled := reopened.trans (foldl_rests (fun s n => settle n s) jobs _ fun s n => settle_rests n s)
  exact settled.trans (foldl_lull (fun s l => raise (.laneCleared l cause) s) lanes _ fun s l => raise_lull _ s).rests

theorem endReconcile_lull (cause : EndCause) (s : State) : Lull s (endReconcile cause s) := by
  have ended : Lull s (s.modRestart fun r => { r with reconciling := false, timer := none }) := .of_eq rfl rfl rfl rfl rfl rfl rfl
  unfold endReconcile
  split
  · exact ended.raised _
  · exact .refl s

theorem clear_rests (l : LaneId) (s : State) : Rests s (clear l s) := by
  have phases := endPhases_rests [l] .complete (uncertainJobs s fun j => j.lane = some l) s
  unfold clear
  split
  · split
    · unfold acceptClear
      dsimp only
      split
      · exact phases.trans (endReconcile_lull _ _).rests
      · exact phases
    · exact (laneError_lull _ _ _ s).rests
  · exact .refl s

theorem finishReconcile_rests (cause : EndCause) (s : State) : Rests s (finishReconcile cause s) :=
  (endPhases_rests _ cause _ s).trans (endReconcile_lull cause _).rests

theorem reqReconcileEnd_rests (s : State) : Rests s (reqReconcileEnd s).1 := by
  unfold reqReconcileEnd
  split
  · exact finishReconcile_rests _ s
  · exact .refl s

theorem reconcileExpiry_rests (s : State) : Rests s (reconcileExpiry s) := by
  unfold reconcileExpiry
  split
  · exact finishReconcile_rests _ s
  · exact .refl s

/-! ### Resets -/

theorem loadAllStraps_lull (p1 p2 : StrapPair) (s : State) : Lull s (loadAllStraps p1 p2 s) :=
  foldl_lull _ allPorts s fun _ _ => .of_eq rfl rfl rfl rfl rfl rfl rfl

theorem powerOn_rests (p1 p2 : StrapPair) (s : State) : Rests s (powerOn p1 p2 s) := by
  have loaded : Lull { State.reset with lineSent := s.lineSent, deskSent := s.deskSent, pending := s.pending } (powerOn p1 p2 s) :=
    loadAllStraps_lull p1 p2 _
  have reset := (Lull.of_eq (s := State.reset) (t := { State.reset with lineSent := s.lineSent, deskSent := s.deskSent, pending := s.pending })
    rfl rfl rfl rfl rfl rfl rfl).trans loaded
  have marked := reset.marked restMarked_reset
  exact ⟨fun _ => marked.unmarked, fun _ => reset.served served_reset, fun _ => marked⟩

theorem resetJob_tame (n : Nat) (s : State) : Tame s (resetJob n s) := by
  unfold resetJob
  split
  · exact .refl s
  · split
    · exact returnByFault_tame n _ _ .cancelled s (by decide)
    · exact modJob_tame n _ s
    · split
      · exact (depart_rests n .discarded s (by decide)).tame
      · exact Tame.trans (takeRefs_reacts (D := AnyJob) _ s).tame (modJob_tame n _ _)
    · split
      · exact (depart_rests n .discarded s (by decide)).tame
      · exact Tame.trans (takeRefs_reacts (D := AnyJob) _ s).tame (modJob_tame n _ _)
    · exact .refl s

/-- No mark is left when the line control has been reset. -/
theorem resetLineControl_unmarked (s : State) : Unmarked (resetLineControl s) := fun _ =>
  ⟨fun _ => by simp [resetLineControl, State.modLine, clearMarks], fun _ => by simp [resetLineControl, State.modLine, clearMarks]⟩

theorem resetPart_rests (kind : ResetKind) (s : State) : Rests t (resetPart kind s) := by
  unfold resetPart
  dsimp only
  generalize allLanes.foldl (fun s l => resetLane l s) _ = v
  have jobs (x : List Nat) (u : State) : Tame u (x.foldl (fun s n => resetJob n s) u) := foldl_tame _ x u fun s n => resetJob_tame n s
  have done : Tame t ((startReconcile kind (((resetLineControl (resetSorter v)).jobs.map Prod.fst).foldl (fun s n => resetJob n s)
      (resetLineControl (resetSorter v)))).setSoftDue false) := fun _ => jobs _ _ (resetLineControl_unmarked _)
  exact done.served

/-! ### Line control -/

theorem setGates_tame (x : UnitId) (held allowance : Bool) (s : State) : Tame s (setGates x held allowance s) := by
  cases x <;> exact .of_line rfl

/-- An engine that is held takes up nothing that it would not have. -/
theorem setGates_held (x : UnitId) (s : State) : Lull s (setGates x true (stepGate s x) s) := by
  cases x with
  | engine e =>
    have same := Lull.refl s
    refine ⟨.of_eq rfl, .of_eq rfl, fun q => ?_, same.registers, same.lanes, same.line, id⟩
    unfold setGates
    rw [engine_modGates]
    split
    next h =>
      subst h
      refine ⟨⟨fun h => ⟨h.running, ?_, h.stopped, h.format, h.count⟩, rfl, rfl, id⟩, rfl, rfl⟩
      exact h.held.imp nofun id
    · exact .refl _
  | lane l =>
    exact .modLane l (fun x => { x with gates := { x.gates with held := true, allowance := (s.lane l).gates.allowance } }) s
      fun _ => ⟨le_refl _, rfl, rfl⟩
  | sorter => exact .sorter_only (fun x => { x with held := true, allowance := s.sorter.allowance }) s id

theorem reqHold_rests (x : Byte) (s : State) : Rests s (reqHold x s).1 := by
  unfold reqHold
  split
  · exact .refl s
  · split
    · exact .refl s
    · exact ((setGates_held _ s).raised _).rests

/-- What a unit does when one of its gates has cleared. -/
theorem unitOpened_rests (x : UnitId) (held allowance : Bool) (y : Notice) (s : State) :
    Rests s (unitOpened x (raise y (setGates x held allowance s))) := by
  have set := (setGates_tame x held allowance s).raised y
  cases x with
  | engine e => exact set.served
  | lane l => exact set.opened l
  | sorter => exact ((Lull.sorter_only (fun x => { x with held := held, allowance := allowance }) s id).raised y).rests.looked

theorem reqRelease_rests (x : Byte) (s : State) : Rests s (reqRelease x s).1 := by
  unfold reqRelease
  split
  · exact .refl s
  · split
    · exact unitOpened_rests _ _ _ _ s
    · exact .refl s

theorem reqStep_rests (x : Byte) (s : State) : Rests s (reqStep x s).1 := by
  unfold reqStep
  split
  · exact .refl s
  · split
    · exact unitOpened_rests _ _ _ _ s
    · exact .refl s

theorem setPolicy_lull (x : UnitId) (p : StopPolicy) (s : State) : Lull s (setPolicy x p s) := by
  have same := Lull.refl s
  cases x with
  | engine e => exact ⟨same.jobs, same.held, same.engines, same.registers, same.lanes, ⟨rfl, rfl, rfl⟩, id⟩
  | lane l => exact .modLane l _ s fun _ => ⟨le_refl _, rfl, rfl⟩
  | sorter => exact same

theorem reqSetStopPolicy_rests (x y : Byte) (s : State) : Rests s (reqSetStopPolicy x y s).1 := by
  unfold reqSetStopPolicy
  split
  · split
    · exact .refl s
    · exact (setPolicy_lull _ _ s).rests
  · exact .refl s

/-- No engine works while its stopped gate is set. -/
theorem served_of_stopped (h : ∀ e, (s.engine e).gates.stopped = true) : Served s := by
  have idle (e : EngineId) : ¬ CanWork (s.engine e) := fun works => absurd works.stopped (by rw [h e]; decide)
  exact ⟨fun e _ _ _ _ eligible => idle e eligible.works, fun e _ loaded => absurd loaded.works (idle e)⟩

theorem lineStop_rests (s : State) : Rests s (lineStop s) := by
  have stopped := lineStop_stopped s
  obtain ⟨v, stops, parts⟩ := lineStop_parts s
  have stopping : (raise (stoppingNotice s) v).line.state = .stopping := by
    rw [raise_same, stops.rest]
    rfl
  have marked : RestMarked (lineStop s) := by
    rw [parts]
    exact evalReached_marked fun h => absurd stopping h
  refine ⟨fun _ => marked.unmarked, fun _ => served_of_stopped fun e => ?_, fun _ => marked⟩
  rw [stopped.engine e]
  rfl

theorem reqLineStop_rests (s : State) : Rests s (reqLineStop s).1 := by
  by_cases running : s.line.state = .running
  · rw [reqLineStop_ok running]
    dsimp only
    exact lineStop_rests s
  · rw [reqLineStop_wrongState running]
    exact .refl s

theorem unstopped_unmarked (s : State) : Unmarked (unstopped s) := fun _ =>
  ⟨fun _ => by simp [unstopped, clearMarks], fun _ => by simp [unstopped, clearMarks]⟩

theorem lineResume_rests (s : State) : Rests s (lineResume s) := by
  have decided : Tame s (resumedLanes s) := fun _ => (sorterLook_lull _).tame
    (foldl_tame (fun s l => decidePending l (s.lane l).inspections.length s) allLanes _ (fun s l => (decidePending_rests l _ s).tame)
      (unstopped_unmarked s))
  have opened : Tame s (resumedEngines (resumedLanes s)) := decided
  rw [lineResume_eq]
  exact opened.served.raised _

theorem reqLineResume_rests (s : State) : Rests s (reqLineResume s).1 := by
  by_cases running : s.line.state = .running
  · rw [reqLineResume_wrongState running]
    exact .refl s
  · rw [reqLineResume_ok running]
    dsimp only
    exact lineResume_rests s

end Sys2Proof.Machine
end

section
/-! The requests of the desks leave the engines served, with the reached marks evaluated. -/

namespace Sys2Proof.Machine

open State

variable {s t u : State} {e : EngineId} {l : LaneId} {n : Nat} {j : Job} {k : PosKey} {b : Gaps × State}

/-! ### Pages -/

theorem arrivalSignal_rests (n : Nat) (s : State) : Rests s (arrivalSignal n s) := foldl_rests _ _ s fun s k => needAndServe_rests k s

theorem revisionSignal_rests (n : Nat) (s : State) : Rests s (revisionSignal n s) :=
  foldl_rests _ _ s fun s k => (supersedeAt_rests k s).trans (needAndServe_rests k _)

theorem withdrawSignal_rests (n : Nat) (s : State) : Rests s (withdrawSignal n s) := by
  refine foldl_rests _ _ s fun s k => ?_
  unfold withdrawAt
  dsimp only
  split
  · exact (supersedeAt_rests k s).trans (needAndServe_rests k _)
  · exact needAndServe_rests k s

theorem clearAllCurrent_lull (n : Nat) (s : State) : Lull s (clearAllCurrent n s) := by
  refine foldl_lull _ _ s fun s k => ?_
  have unflagged : Lull s (s.modSlot k fun x => { x with current := false }) := .of_eq rfl rfl rfl rfl rfl rfl rfl
  exact unflagged.trans (freeIfDone_lull k _)

theorem tellComplete_lull (n v : Nat) (c : ColourClass) (a : SepSet) (s : State) : Lull s (tellComplete n v c a s) := by
  unfold tellComplete
  split
  · exact raise_lull _ s
  · exact .refl s

theorem writeArrival_lull (n v : Nat) (c : ColourClass) (a : SepSet) (x : Separation) (ref : U64) (live : Nat) (s : State) :
    Lull s (writeArrival n v c a x ref live s) := .of_eq rfl rfl rfl rfl rfl rfl rfl

theorem addArrival_rests (n v : Nat) (c : ColourClass) (a : SepSet) (x : Separation) (ref : U64) (live : Nat) (s : State) :
    Rests s (addArrival n v c a x ref live s).1 :=
  ((writeArrival_lull n v c a x ref live s).trans (tellComplete_lull n v c (a.add x) _)).rests.trans (arrivalSignal_rests n _)

theorem revise_rests (n old v : Nat) (c : ColourClass) (x : Separation) (ref : U64) (live : Nat) (s : State) :
    Rests s (revise n old v c x ref live s).1 := by
  have written := (clearAllCurrent_lull n s).trans (writeArrival_lull n v c SepSet.empty x ref live _)
  have told := (written.raised (.pageRevised n old v c)).trans (tellComplete_lull n v c (SepSet.empty.add x) _)
  exact told.rests.trans (revisionSignal_rests n _)

theorem replaceRaster_rests (k : SlotKey) (ref : U64) (s : State) : Rests s (replaceRaster k ref s).1 := by
  have replaced : Lull s (s.modSlot k fun x => { x with ref := ref, bad := false }) := .of_eq rfl rfl rfl rfl rfl rfl rfl
  refine (replaced.raised (.rasterReplaced k)).rests.trans (foldl_rests _ _ _ fun s n => ?_)
  unfold returnReplaced
  split
  · exact (requeue_tame n _ _ _ s).served
  · exact .refl s

theorem arriveVersion_rests (n v cur : Nat) (c : ColourClass) (x : Separation) (ref : U64) (r : PageRec) (s : State) :
    Rests s (arriveVersion n v cur c x ref r s).1 := by
  unfold arriveVersion
  split
  · exact .refl s
  · split
    · split
      · exact .refl s
      · split
        · split
          · exact replaceRaster_rests _ ref s
          · exact .refl s
        · split
          · exact .refl s
          · exact addArrival_rests n v c _ x ref _ s
    · split
      · exact revise_rests n cur v c x ref _ s
      · exact .refl s

theorem arrive_rests (n v : Nat) (c : ColourClass) (x : Separation) (ref : U64) (s : State) : Rests s (arrive n v c x ref s).1 := by
  unfold arrive
  split
  · split
    · exact .refl s
    · split
      · exact .refl s
      · exact addArrival_rests n v c _ x ref _ s
  · split
    · split
      · split
        · exact revise_rests n _ v c x ref _ s
        · exact .refl s
      · exact .refl s
    · exact arriveVersion_rests n v _ c x ref _ s
    · exact arriveVersion_rests n v _ c x ref _ s
    · split
      · exact .refl s
      · exact addArrival_rests n v c _ x ref _ s

theorem reqSeparationArrived_rests (page : U16) (version cls sep : Byte) (ref : U64) (s : State) :
    Rests s (reqSeparationArrived page version cls sep ref s).1 := by
  unfold reqSeparationArrived
  split
  · split
    · exact .refl s
    · split
      · exact .refl s
      · split
        · exact .refl s
        · exact arrive_rests _ _ _ _ ref s
  · exact .refl s

theorem putPage_lull (n : Nat) (r : PageRec) (s : State) : Lull s (s.putPage n r) := .of_eq rfl rfl rfl rfl rfl rfl rfl

theorem endWithdraw_rests (n : Nat) (r : PageRec) (s : State) : Rests s (endWithdraw n r s).1 := by
  unfold endWithdraw
  split
  · dsimp only
    exact ((removePage_lull n r s).trans (tellAll_lull _ _)).tame.served
  · exact ((putPage_lull n _ s).raised _).rests

theorem withdraw_rests (n : Nat) (r : PageRec) (s : State) : Rests s (withdraw n r s).1 := by
  have cleared := (clearAllCurrent_lull n s).trans (putPage_lull n { r with arrived := SepSet.empty } _)
  have signalled := cleared.rests.trans (withdrawSignal_rests n _)
  unfold withdraw
  dsimp only
  split
  · exact signalled.trans (endWithdraw_rests n _ _)
  · exact signalled

theorem reqWithdrawPage_rests (page : U16) (s : State) : Rests s (reqWithdrawPage page s).1 := by
  unfold reqWithdrawPage
  split
  · exact .refl s
  · split
    · exact .refl s
    · split
      · exact .refl s
      · exact withdraw_rests _ _ s

/-! ### Staged plans -/

theorem setStage_lull (p : PressId) (x : Stage) (s : State) : Lull s (s.setStage p x) := .of_eq rfl rfl rfl rfl rfl rfl rfl

theorem editStage_lull (p : PressId) (q : PortId) (x : Table PosId Content) (s : State) : Lull s (editStage p q x s) := by
  unfold editStage
  dsimp only
  split
  · exact (setStage_lull p _ s).raised _
  · exact setStage_lull p _ s

theorem reqStagePosition_rests (p : PortId) (press pos format : Byte) (pageA : U16) (pageB : Option U16) (sep : Byte) (s : State) :
    Rests s (reqStagePosition p press pos format pageA pageB sep s).1 := by
  unfold reqStagePosition
  split
  · dsimp only
    split
    · exact .refl s
    · exact (editStage_lull _ p _ s).rests
  · exact .refl s

theorem reqClearStaged_rests (p : PortId) (press pos : Byte) (s : State) : Rests s (reqClearStaged p press pos s).1 := by
  unfold reqClearStaged
  split
  · exact .refl s
  · dsimp only
    split
    · exact .refl s
    · split
      · exact (editStage_lull _ p _ s).rests
      · exact .refl s

theorem reqDiscardStage_rests (p : PortId) (press : Byte) (s : State) : Rests s (reqDiscardStage p press s).1 := by
  unfold reqDiscardStage
  split
  · exact .refl s
  next pr _ =>
    split
    · exact .refl s
    · split
      · exact (setStage_lull pr _ s).rests
      · split
        · exact ((setStage_lull pr _ s).raised _).rests
        · exact .refl s

/-! ### The commit -/

theorem retireMounted_rests (k : PosKey) (s : State) : Rests s (retireMounted k s) := by
  unfold retireMounted
  split
  · exact (Lull.modWork k (fun w => { w with mounted := none }) s).tame.departed _ .retired (by decide)
  · exact .refl s

/-- A position goes for which no job is QUEUED. -/
theorem dropPos_rests (h : ∀ n j, s.job? n = some j → j.state = .queued → j.key ≠ k) : Rests s (s.dropPos k) := by
  refine ⟨.of_line rfl, fun served => ⟨fun e n j next offered eligible => ?_, fun e w loaded => ?_⟩, fun marked => ?_⟩
  · obtain ⟨hj, hq, held⟩ := offered
    rw [pos?_dropPos_of_ne (h n j hj hq)] at held
    exact served.given e n j next ⟨hj, hq, held⟩ ⟨eligible.works, eligible.format, eligible.register, eligible.cancel⟩
  · exact served.exposed e w ⟨loaded.works, loaded.current, loaded.next, loaded.stage⟩
  · exact ⟨marked.drained, marked.engines, marked.lanes, marked.waits, marked.dropped⟩

/-- A removed position takes no QUEUED job with it: its current job has been superseded, and each other live job of its own
has been so before. -/
theorem commitRemoved_rests {p : PressId} (a : At True True b (Gaps.committing p) s) (accounts : Accounts b.1 b.2) (k : PosKey) :
    Rests s (commitRemoved k s) := by
  have cleared := supersedeAt_committing (undeferredAt_at a k) k
  have current := retireMounted_current cleared.tables (undeferredAt_clear a trivial k)
  have rests := ((Lull.modWork k (fun w => { w with deferred := false }) s).rests.trans (supersedeAt_rests k (undeferredAt k s))).trans
    (retireMounted_rests k _)
  have owns := (accounts_way (retireMounted_at (Gaps.ready_committing p) cleared k).way accounts).owns
  rw [commitRemoved_eq]
  refine rests.trans (dropPos_rests fun n j hj hq hk => ?_)
  cases superseded : j.superseded with
  | true => exact (owns.ended n j hj superseded not_false).1 hq
  | false =>
    obtain ⟨x, hx, here, -⟩ := owns.live n j hj superseded not_false
    cases (current x (hk ▸ hx)).symm.trans here

theorem commitChanged_rests (k : PosKey) (edition : Nat) (c : Content) (s : State) : Rests s (commitChanged k edition c s) := by
  have written : Tame s ((supersedeAt k s).modPos k fun x => { x with content := c, edition := edition }) := (supersedeAt_rests k s).tame
  exact written.needed k

theorem commitAdded_rests (k : PosKey) (edition : Nat) (c : Content) (s : State) : Rests s (commitAdded k edition c s) := by
  have written : Tame s (s.putPos k (addedPosition s edition c)) := .of_line rfl
  exact written.needed k

theorem commitOne_rests {p : PressId} {a : State × CommitCounts} (h : At True True b (Gaps.committing p) a.1) (accounts : Accounts b.1 b.2)
    (k : PosKey) (edition : Nat) (o : CommitOutcome) : Rests a.1 (commitOne k edition o a).1 := by
  cases o with
  | unchanged => exact .refl _
  | uncounted => exact .refl _
  | changed c =>
    dsimp only [commitOne]
    exact commitChanged_rests k edition c a.1
  | added c =>
    dsimp only [commitOne]
    exact commitAdded_rests k edition c a.1
  | removed => exact commitRemoved_rests h accounts k

theorem commitPass_rests {a : State × CommitCounts} (p : PressId) (h : At True True b (Gaps.committing p) a.1) (accounts : Accounts b.1 b.2)
    (edition : Nat) (staged : Table PosId Content) : Rests a.1 (commitPass p edition staged a).1 := by
  unfold commitPass
  generalize allPositions = qs
  induction qs generalizing a with
  | nil => exact .refl _
  | cons q qs ih => exact (commitOne_rests h accounts ⟨p, q⟩ edition _).trans (ih (commitOne_at h rfl edition (tget staged q)))

theorem modPress_lull (p : PressId) (f : Press → Press) (s : State) : Lull s (s.modPress p f) := .of_eq rfl rfl rfl rfl rfl rfl rfl

theorem refreshCounts_lull (p : PressId) (s : State) : Lull s (refreshCounts p s) := by
  have standing : Lull s (refreshStanding p s) := foldl_lull _ _ s fun s x => .modWork x.1 _ s
  exact (standing.trans (modPress_lull p _ _)).trans (evalPress_lull p _)

theorem commitEnd_rests (q : PortId) (p : PressId) (edition : Nat) (a : State × CommitCounts) : Rests a.1 (commitEnd q p edition a).1 := by
  have dated := modPress_lull p (fun x => { x with edition := some edition, window := false, late := false }) a.1
  unfold commitEnd
  dsimp only
  exact (((dated.trans (setStage_lull p _ _)).trans (refreshCounts_lull p _)).raised _).rests

theorem reqCommitPlan_rests (h : At True True b Gaps.closed s) (accounts : Accounts b.1 b.2) (p : PortId) (press edition : Byte) :
    Rests s (reqCommitPlan p press edition s).1 := by
  unfold reqCommitPlan
  split
  · exact .refl s
  next pr _ =>
    split
    · exact .refl s
    · split
      · exact .refl s
      · split
        · exact .refl s
        · split
          · exact .refl s
          · have pages := foldl_lull (fun s n => s.putPage n expectedPage) (newPageIds s (s.stage pr)) s fun s n => putPage_lull n _ s
            have expected := putExpected_at _ h (newPageIds_nodup s (s.stage pr)) fun n => newPageIds_new
            have opened := expected.deed (.commit _ _ pr)
            have committing : { Gaps.closed with press := fun q => Gaps.closed.press q ∨ q = pr } = Gaps.committing pr :=
              Gaps.ext (fun _ => Iff.rfl) (fun _ => Iff.rfl) (fun _ => Iff.rfl) rfl (fun _ => Iff.rfl) (fun _ => Iff.rfl)
                (fun _ => ⟨fun e => e.resolve_left id, .inr⟩) fun _ => Iff.rfl
            unfold commit
            dsimp only
            generalize (newPageIds s (s.stage pr)).foldl (fun s n => s.putPage n expectedPage) s = v at pages opened
            exact (pages.rests.trans (commitPass_rests (a := (v, _)) pr (opened.same committing) accounts _ _)).trans
              (commitEnd_rests p pr _ _)

/-! ### Positions -/

theorem reqHoldPosition_rests (press pos : Byte) (s : State) : Rests s (reqHoldPosition press pos s).1 := by
  unfold reqHoldPosition
  split
  · exact .refl s
  next k _ =>
    split
    · exact .refl s
    · split
      · exact .refl s
      · dsimp only
        exact ((Lull.modPos k (fun y => { y with held := true }) s fun _ _ => rfl).raised _).rests

theorem reqReleasePosition_rests (press pos : Byte) (s : State) : Rests s (reqReleasePosition press pos s).1 := by
  unfold reqReleasePosition
  split
  · exact .refl s
  next k _ =>
    have released : Tame s (s.modPos k fun y => { y with held := false }) := .of_line rfl
    split
    · exact .refl s
    · split
      · dsimp only
        exact (released.raised _).served
      · exact .refl s

theorem reqRequeuePosition_rests (press pos : Byte) (s : State) : Rests s (reqRequeuePosition press pos s).1 := by
  unfold reqRequeuePosition
  split
  · exact .refl s
  next k _ =>
    split
    · exact .refl s
    · split
      · dsimp only
        exact ((needTest_tame k s).trans (tellSatisfied_lull k _).tame).served
      · split
        · exact .refl s
        · split
          · dsimp only
            exact (requeue_tame _ _ _ _ s).served
          · exact .refl s

/-! ### The press room -/

theorem takePlate_lull (k : PosKey) (n : Nat) (s : State) : Lull s (takePlate k n s) := .of_eq rfl rfl rfl rfl rfl rfl rfl

theorem reqPullConfirm_rests (press pos : Byte) (s : State) : Rests s (reqPullConfirm press pos s).1 := by
  unfold reqPullConfirm
  split
  · exact .refl s
  next k _ =>
    dsimp only
    split
    · exact .refl s
    · dsimp only
      exact (foldl_rests (fun s n => depart n .retired (takePlate k n s)) _ s fun s n =>
        (takePlate_lull k n s).tame.departed n .retired (by decide)).looked

theorem mountPlate_rests (k : PosKey) (n : Nat) (old : Option Nat) (s : State) : Rests s (mountPlate k n old s) := by
  have mounted := ((takePlate_lull k n s).trans (Lull.modJob n (fun j => { j with state := .mounted }) _ fun _ h => by cases h)).trans
    (Lull.modWork k (fun w => { w with mounted := some n }) _)
  unfold mountPlate forSome
  dsimp only
  cases old with
  | none => exact (mounted.rests.raised _).looked
  | some m =>
    dsimp only
    exact ((mounted.tame.departed m .retired (by decide)).raised _).looked

theorem reqMount_rests (press pos : Byte) (s : State) : Rests s (reqMount press pos s).1 := by
  unfold reqMount
  split
  · exact .refl s
  · split
    · exact .refl s
    · split
      · exact .refl s
      · split
        · exact mountPlate_rests _ _ _ s
        · exact .refl s

theorem reqUnmount_rests (press pos : Byte) (s : State) : Rests s (reqUnmount press pos s).1 := by
  unfold reqUnmount
  split
  · exact .refl s
  · split
    · exact .refl s
    · split
      · exact .refl s
      · exact ((retireMounted_rests _ s).raised _).looked

theorem setPressState_lull (p : PressId) (x : PressState) (s : State) : Lull s (s.setPressState p x) := .of_eq rfl rfl rfl rfl rfl rfl rfl

theorem startPress_lull (p : PressId) (f : Bool) (s : State) : Lull s (startPress p f s) := (setPressState_lull p .running s).raised _

theorem reqPressStart_rests (press force : Byte) (s : State) : Rests s (reqPressStart press force s).1 := by
  unfold reqPressStart
  split
  · dsimp only
    split
    · exact .refl s
    · exact .refl s
    · split
      · exact (startPress_lull _ _ s).rests
      · exact .refl s
    · exact (startPress_lull _ _ s).rests
  · exact .refl s

theorem stopPress_lull (p : PressId) (s : State) : Lull s (stopPress p s) := by
  unfold stopPress
  dsimp only
  split
  · exact ((setPressState_lull p _ s).raised _).raised _
  · exact (setPressState_lull p _ s).raised _

theorem reqPressStop_rests (press : Byte) (s : State) : Rests s (reqPressStop press s).1 := by
  unfold reqPressStop
  split
  · exact .refl s
  · split
    · exact (stopPress_lull _ s).rests
    · exact .refl s

theorem reqSetPressSchedule_rests (press : Byte) (start : Option U32) (lead : U16) (s : State) :
    Rests s (reqSetPressSchedule press start lead s).1 := by
  unfold reqSetPressSchedule
  split
  · exact .refl s
  · split
    · exact .refl s
    · unfold schedulePress
      dsimp only
      exact ((modPress_lull _ _ s).raised _).tame.served

/-! ### The clock -/

theorem setClock_lull (x : Nat) (s : State) : Lull s (s.setClock x) := .of_eq rfl rfl rfl rfl rfl rfl rfl

theorem windowAlarm_rests (p : PressId) (s : State) : Rests s (windowAlarm p s) := by
  unfold windowAlarm
  dsimp only
  split
  · exact .refl s
  · split
    · exact ((modPress_lull p _ s).rests.trans (promoteAll_rests p _)).raised _
    · exact .refl s

theorem startAlarm_rests (p : PressId) (s : State) : Rests s (startAlarm p s) := by
  have armed := modPress_lull p (fun y => { y with startArmed := false }) s
  unfold startAlarm
  dsimp only
  split
  · exact .refl s
  · split
    · split
      · exact armed.rests
      · exact ((armed.trans (modPress_lull p _ _)).raised _).rests
    · exact .refl s

/-- A second off an engine's timers is none of the dispatcher's business. -/
theorem tickEngine_lull (e : EngineId) (s : State) : Lull s (tickEngine e s) := by
  have same := Lull.refl s
  refine ⟨.of_eq rfl, .of_eq rfl, fun q => ?_, same.registers, same.lanes, same.line, id⟩
  unfold tickEngine
  rw [engine_modCtx]
  split
  · refine ⟨.of_ctx rfl fun h => by simpa [tickWaiting] using h, Option.isSome_map .., ?_⟩
    unfold tickWaiting
    rw [Option.map_map]
    rfl
  · exact .refl _

theorem tickLane_lull (l : LaneId) (s : State) : Lull s (tickLane l s) := by
  unfold tickLane
  split
  · exact .modFloor l _ s fun x => (List.length_map _).ge
  · exact .refl s

theorem clockTick_rests (s : State) : Rests s (clockTick s) := by
  have engines (s : State) := foldl_lull (fun s e => tickEngine e s) allEngines s fun s e => tickEngine_lull e s
  have lanes (s : State) := foldl_lull (fun s l => tickLane l s) allLanes s fun s l => tickLane_lull l s
  have timer (s : State) : Lull s (s.modRestart fun r => { r with timer := r.timer.map (· - 1) }) := .of_eq rfl rfl rfl rfl rfl rfl rfl
  have ticked (s : State) : Lull s (tickTimers s) := ((engines s).trans (lanes _)).trans (timer _)
  have alarms (s : State) : Rests s (alarmCheck s) :=
    foldl_rests (fun s p => startAlarm p (windowAlarm p s)) allPresses s fun s p => (windowAlarm_rests p s).trans (startAlarm_rests p _)
  exact ((setClock_lull _ s).trans (ticked _)).rests.trans (alarms _)

/-! ### Rights and limits -/

theorem reqSetRights_rests (p : PortId) (target rights : Byte) (s : State) : Rests s (reqSetRights p target rights s).1 := by
  unfold reqSetRights
  split
  next q r _ _ =>
    have set : Lull s (s.setRights q r) := .of_eq rfl rfl rfl rfl rfl rfl rfl
    split
    · exact (set.raised _).rests
    · exact .refl s
  · exact .refl s

theorem setLimit_lull (x : LimitName) (l : LaneId) (v : Nat) (s : State) : Lull s (setLimit x l v s) := by
  cases x with
  | transit => exact .modLane l _ s fun _ => ⟨le_refl _, rfl, rfl⟩
  | _ => exact .of_eq rfl rfl rfl rfl rfl rfl rfl

theorem reqSetLimits_rests (limit : Byte) (value : U16) (lane : Option Byte) (s : State) : Rests s (reqSetLimits limit value lane s).1 := by
  unfold reqSetLimits
  split
  · exact .refl s
  · split
    · exact .refl s
    · split
      · exact ((setLimit_lull _ _ _ s).raised _).rests
      · exact .refl s

end Sys2Proof.Machine
end

section
/-! Every step leaves the engines served, with the reached marks evaluated. -/

namespace Sys2Proof.Machine

open State

variable {s t : State} {b : Gaps × State}

/-! ### Requests -/

theorem setMask_lull (p : PortId) (m : Mask) (s : State) : Lull s (s.setMask p m) := .of_eq rfl rfl rfl rfl rfl rfl rfl

theorem applyRequest_rests (h : At True True b Gaps.closed s) (accounts : Accounts b.1 b.2) (p : PortId) (r : Request) :
    Rests s (applyRequest p r s).1 := by
  cases r with
  | separationArrived page v cl x ref => exact reqSeparationArrived_rests page v cl x ref s
  | withdrawPage page => exact reqWithdrawPage_rests page s
  | stagePosition pr q f a b x => exact reqStagePosition_rests p pr q f a b x s
  | clearStagedPosition pr q => exact reqClearStaged_rests p pr q s
  | discardStage pr => exact reqDiscardStage_rests p pr s
  | commitPlan pr e => exact reqCommitPlan_rests h accounts p pr e
  | holdPosition pr q => exact reqHoldPosition_rests pr q s
  | releasePosition pr q => exact reqReleasePosition_rests pr q s
  | requeuePosition pr q => exact reqRequeuePosition_rests pr q s
  | clearEngineFault e => exact reqClearEngineFault_rests e s
  | restoreEngine e => exact reqRestoreEngine_rests e s
  | rearmRegister e => exact reqRearmRegister_rests e s
  | pullConfirm pr q => exact reqPullConfirm_rests pr q s
  | mount pr q => exact reqMount_rests pr q s
  | unmount pr q => exact reqUnmount_rests pr q s
  | pressStart pr f => exact reqPressStart_rests pr f s
  | pressStop pr => exact reqPressStop_rests pr s
  | setClock x => exact ((setClock_lull x.toNat s).raised _).rests
  | setPressSchedule pr x l => exact reqSetPressSchedule_rests pr x l s
  | hold u => exact reqHold_rests u s
  | release u => exact reqRelease_rests u s
  | step u => exact reqStep_rests u s
  | setStopPolicy u x => exact reqSetStopPolicy_rests u x s
  | lineStop => exact reqLineStop_rests s
  | lineResume => exact reqLineResume_rests s
  | reconcileEnd => exact reqReconcileEnd_rests s
  | softReset => exact .refl s
  | setRights q x => exact reqSetRights_rests p q x s
  | setNoticeMask x => exact (setMask_lull p _ s).rests
  | setLimits l v ln => exact reqSetLimits_rests l v ln s
  | queryPage | queryPosition | queryJob | queryEngine | queryLane | queryPress | queryPart => exact .refl s

theorem decideRequest_rests (h : At True True b Gaps.closed s) (accounts : Accounts b.1 b.2) (p : PortId) (r : Received) :
    Rests s (decideRequest p r s).1 := by
  unfold decideRequest
  split
  · exact .refl s
  · split <;> exact .refl s
  · split
    · exact applyRequest_rests h accounts p _
    · exact .refl s

theorem takeRequest_rests (h : At True True b Gaps.closed s) (accounts : Accounts b.1 b.2) (p : PortId) (r : Received) :
    Rests s (takeRequest p r s) := by
  have held := (Lull.modLink p (fun l => { l with inHand := some r }) s).rests
  have decided := held.trans (decideRequest_rests (link_at h p _) accounts p r)
  exact decided.trans (Lull.modLink p _ _).rests

/-! ### The desk ports -/

theorem takeNext_rests (h : At True True b Gaps.closed s) (accounts : Accounts b.1 b.2) (p : PortId) : Rests s (takeNext p s) := by
  unfold takeNext
  dsimp only
  split
  · split
    · exact .refl s
    · exact (Lull.modLink p _ s).rests.trans (takeRequest_rests (link_at h p _) accounts p _)
  · exact .refl s

theorem receive_rests (h : At True True b Gaps.closed s) (accounts : Accounts b.1 b.2) (p : PortId) (r : Received) : Rests s (receive p r s) := by
  unfold receive
  split
  · exact (Lull.modLink p _ s).rests.trans (takeNext_rests (link_at h p _) accounts p)
  · exact (Lull.modLink p _ s).rests

theorem badFrame_lull (p : PortId) (s : State) : Lull s (badFrame p s) := .modLink p _ s

theorem setReceiver_lull (p : PortId) (x : Receiver) (s : State) : Lull s (setReceiver p x s) := .modLink p _ s

theorem frameReceived_rests (h : At True True b Gaps.closed s) (accounts : Accounts b.1 b.2) (p : PortId) (f : Frame) :
    Rests s (frameReceived p f s) := by
  have hunting := setReceiver_lull p .hunting s
  unfold frameReceived
  dsimp only
  split
  · exact (hunting.trans (badFrame_lull p _)).rests
  · exact hunting.rests.trans (receive_rests (link_at h p _) accounts p _)

theorem deskLinkByte_rests (h : At True True b Gaps.closed s) (accounts : Accounts b.1 b.2) (p : PortId) (x : Byte) :
    Rests s (deskLinkByte p x s) := by
  unfold deskLinkByte
  split
  · split
    · exact (setReceiver_lull p _ s).rests
    · exact .refl s
  · dsimp only
    split
    · exact ((setReceiver_lull p _ s).trans (badFrame_lull p _)).rests
    · split
      · exact frameReceived_rests h accounts p _
      · exact (setReceiver_lull p _ s).rests

theorem frameSent_rests (h : At True True b Gaps.closed s) (accounts : Accounts b.1 b.2) (p : PortId) : Rests s (frameSent p s) := by
  unfold frameSent
  dsimp only
  split
  · exact .refl s
  next f _ =>
    have logged : Still s ((s.modLink p Link.sent).logDesk p f) := .of_eq rfl rfl rfl rfl rfl rfl rfl rfl rfl rfl rfl rfl
    have quiet : Lull s ((s.modLink p Link.sent).logDesk p f) := .of_eq rfl rfl rfl rfl rfl rfl rfl
    have cleared := link_at (h.still logged) p fun l => { l with inHand := none }
    have empty := quiet.trans (Lull.modLink p (fun l => { l with inHand := none }) _)
    split
    · generalize (((s.modLink p Link.sent).logDesk p f).modLink p fun l => { l with inHand := none }) = v at cleared empty
      split
      · have due : Still v (v.setSoftDue true) := .of_eq rfl rfl rfl rfl rfl rfl rfl rfl rfl rfl rfl rfl
        have noted : Lull v (v.setSoftDue true) := .of_eq rfl rfl rfl rfl rfl rfl rfl
        exact (empty.trans noted).rests.trans (takeNext_rests (cleared.still due) accounts p)
      · exact empty.rests.trans (takeNext_rests cleared accounts p)
    · exact quiet.rests

/-! ### Commands -/

/-- Every command leaves the engines served and the marks evaluated. -/
theorem exec_rests (h : At True True b Gaps.closed s) (accounts : Accounts b.1 b.2) (modes : ModesAgree s) (i : Instr)
    (e : exec i s = .next t) : Rests s t := by
  have key {u : State} (a : Rests s u) (e : (Host.Outcome.next u : Host.Outcome State Fault Refusal) = .next t) : Rests s t := by
    cases e
    exact a
  cases i with
  | powerOn p1 p2 => exact key (powerOn_rests p1 p2 s) e
  | lineReset p1 p2 => exact key (resetPart_rests .lineReset (loadAllStraps p1 p2 s)) e
  | softResetTaken => exact key (resetPart_rests .softReset s) e
  | frameReceived p f => exact key (frameReceived_rests h accounts p f) e
  | interByteGapExpiry p => exact key (setReceiver_lull p .hunting s).rests e
  | frameSent p => exact key (frameSent_rests h accounts p) e
  | requestKindUnknown p x k => exact key (receive_rests h accounts p _) e
  | hello q => exact key (hello_rests q s) e
  | cassetteLoaded q f n => exact key (cassetteLoaded_rests modes q f n) e
  | loaded q j a => exact key (loaded_rests q _ _ s) e
  | loadFault q j a x => exact key (loadFault_rests q _ _ x s) e
  | exposeStarted q j a => exact key (exposeStarted_rests q _ _ s) e
  | exposeDone q j a => exact key (exposeDone_rests q _ _ s) e
  | exposeFault q j a x => exact key (exposeFault_rests q _ _ x s) e
  | discarded q j a => exact key (discarded_rests q _ _ s) e
  | engineLinkLoss q => exact key (engineLinkLoss_rests q s) e
  | loadTimerExpiry q x => exact key (loadTimerExpiry_rests modes q x) e
  | exposeTimerExpiry q => exact key (exposeTimerExpiry_rests modes q) e
  | atInspect l r => exact key (atInspect_rests l r s) e
  | punchedBent l j a => exact key (punchedBent_rests l _ _ s) e
  | punchFault l j a => exact key (punchFault_rests l _ _ s) e
  | atExit l j a => exact key (atExit_rests l _ _ s) e
  | transitTimerExpiry l j => exact key (transitExpiry_rests l _ s) e
  | laneLinkLoss l => exact key (laneLinkLoss_rests l s) e
  | laneRestoration l => exact key (laneRestoration_rests l s) e
  | sorted j a d => exact key (sorted_rests _ _ d s) e
  | sortFault j a => exact key (sortFault_rests _ _ s) e
  | sorterLinkLoss => exact key (sorterLinkLoss_rests s) e
  | sorterRestoration => exact key (sorterRestoration_rests s) e
  | clockTick => exact key (clockTick_rests s) e
  | windowAlarm p => exact key (windowAlarm_rests p s) e
  | startAlarm p => exact key (startAlarm_rests p s) e
  | clear l => exact key (clear_rests l s) e
  | reconcileTimerExpiry => exact key (reconcileExpiry_rests s) e
  | deskLinkByte p x => exact key (deskLinkByte_rests h accounts p x) e
  | _ => exact key (receive_rests h accounts _ _) e

/-- Settles O11: most commands serve the engines last, and what some do afterwards, or without serving, gives no engine
anything to take up and lets no unit come to rest. -/
theorem enginesKeptServed : Obligations.EnginesKeptServed := by
  intro s t o modes placed _ filed counted current h
  have accounts : Accounts Gaps.closed s := (accounts_closed o).mpr ⟨placed, filed, counted, current⟩
  have start : At True True (Gaps.closed, s) Gaps.closed s := .start o (fun _ => placed) fun _ => current.settled
  have rests : Rests s t := by
    unfold step at h
    split at h
    next =>
      cases h
      exact .refl s
    next i rest _ =>
      have taken : Lull s { s with pending := rest } := .of_eq rfl rfl rfl rfl rfl rfl rfl
      exact taken.rests.trans (exec_rests (s := { s with pending := rest })
        (start.still (.of_eq rfl rfl rfl rfl rfl rfl rfl rfl rfl rfl rfl rfl)) accounts modes i h)
  exact ⟨rests.served, rests.marked⟩

end Sys2Proof.Machine
end
